-- ==== Sys2Proof/Word.lean ====
section
/-! DEFINITION. The word types of the machine and their plainest readings. -/

namespace Sys2Proof

/-- A scalar register, an address, a syllable (R11, R38). -/
abbrev Word := BitVec 64
/-- One byte (R7). -/
abbrev Byte := BitVec 8
/-- A list of bytes, lowest address first (R7). -/
abbrev Bytes := List (BitVec 8)
/-- A Hall number h = storey * 32 + index, 0 to 255 (R2). -/
abbrev HallId := BitVec 8
/-- A partition, 0 to 15 (R33). -/
abbrev PartId := BitVec 4
/-- An address-space identifier, 0 to 4,095 (R33). -/
abbrev Asid := BitVec 12

end Sys2Proof
end

