-- ==== Sys2Proof/Syntax.lean ====
section
/-! DEFINITION. The steps of the machine: one constructor of Instr for each row of spec/opcode_table.json, the 205
syllables (R64 to R68) and the 106 steps of the device and of the host (95_what_each_step_holds). -/

namespace Sys2Proof

/-- The four strands of a Hall (R12). -/
inductive Strand where | S | L | V | M
  deriving DecidableEq, Repr

/-- Scopes, narrow to wide (R47, R272). -/
inductive Scope where | strand | hall | storey | device | fabric
  deriving DecidableEq, Repr

/-- Widths of memory accesses (R47). -/
inductive Width where | B | H | W | D
  deriving DecidableEq, Repr

/-- Widths of SEXT and ZEXT (R96). -/
inductive ExtW where | B | H | W
  deriving DecidableEq, Repr

/-- Conditions of CMP and CMPI (R47). -/
inductive Cond where | EQ | NE | LT | GE | LTU | GEU
  deriving DecidableEq, Repr

/-- Conditions of FCMP (R47). -/
inductive FCond where | EQ | NE | LT | GE | UN
  deriving DecidableEq, Repr

/-- Conditions of VCMP: those of FCMP for float types, those of CMP for integer types (R166). -/
inductive VCond where | EQ | NE | LT | GE | UN | LTU | GEU
  deriving DecidableEq, Repr

/-- Operations of AMO (R47). -/
inductive AmoOp where | ADD | FADD | MIN | MAX | AND | OR | XOR | SWAP
  deriving DecidableEq, Repr

/-- Order annotations (R47, R133). -/
inductive Order where | RLX | ACQ | REL | AR
  deriving DecidableEq, Repr

/-- Element types of vector syllables (R47, R152). -/
inductive ETy where | F32 | BF16 | F16 | I32 | I16 | I8
  deriving DecidableEq, Repr

/-- Types of FCVT (R110). -/
inductive CTy where | F32 | BF16 | F16 | I32 | U32 | I64 | U64
  deriving DecidableEq, Repr

/-- Formats of weights and activations (R48). -/
inductive MFmt where | BF16 | FP16 | RN8
  deriving DecidableEq, Repr

/-- How an MMA combines with the accumulator (R48, R83). -/
inductive MmaCtl where | OW | ACC | SCL
  deriving DecidableEq, Repr

/-- Sparsity of MW.LOADS (R48). -/
inductive Sparse where | N16 | N32 | N64 | N128
  deriving DecidableEq, Repr

/-- Kinds of RGN.KEEP (R231). -/
inductive KeepKind where | T | A | G
  deriving DecidableEq, Repr

/-- Kinds of copy commands that CP.RESUME names (R194). -/
inductive CopyKind where | CP | CP2D | FILL | MM
  deriving DecidableEq, Repr

/-- Operations of the reductions (R176). -/
inductive RedOp where | ADD | MIN | MAX
  deriving DecidableEq, Repr

/-- Clock levels of BOOST.REQ (R222). -/
inductive Level where | nominal | B1 | B2
  deriving DecidableEq, Repr

/-- Operations of TRACK (R229). -/
inductive TrackOp where | disarm | arm | harvest
  deriving DecidableEq, Repr

/-- Lifetime classes (R234, R245). -/
inductive LifeClass where | E0 | E1 | E2 | E3 | E4 | P
  deriving DecidableEq, Repr

/-- Lifetime policies (R234, R246). -/
inductive LifePolicy where | EXPIRE | REFRESH
  deriving DecidableEq, Repr

/-- The control bits of a syllable, bits 63:52 (R38). -/
structure Ctl where
  gn : Bool
  gp : BitVec 3
  stall : BitVec 3
  pl : Bool
  pr : Bool
  wl : Bool
  wr : Bool
  sync : Bool
  deriving DecidableEq, Repr

/-- The imm field of copy and Hazel syllables: scope, wait event and whether it is taken (R194, R236). -/
structure QCtl where
  scope : Scope
  ev : BitVec 5
  we : Bool
  deriving DecidableEq, Repr

/-- The fields that MMA and MMA.S share (R48). -/
structure MmaF where
  arow : BitVec 9
  src : BitVec 6
  n : BitVec 7
  bank : Bool
  ctl : MmaCtl
  sreg : BitVec 6
  ev : BitVec 5
  eve : Bool
  k : BitVec 3
  deriving DecidableEq, Repr

/-- One step of the machine. Register fields hold register numbers (R44); immediates are held as encoded. -/
inductive Instr where
  -- scalar integer (R96 to R104)
  | add (d a b : BitVec 6)
  | sub (d a b : BitVec 6)
  | mul (d a b : BitVec 6)
  | mulh (d a b : BitVec 6)
  | mulhu (d a b : BitVec 6)
  | div (d a b : BitVec 6)
  | divu (d a b : BitVec 6)
  | rem (d a b : BitVec 6)
  | remu (d a b : BitVec 6)
  | and (d a b : BitVec 6)
  | or (d a b : BitVec 6)
  | xor (d a b : BitVec 6)
  | andn (d a b : BitVec 6)
  | shl (d a b : BitVec 6)
  | shr (d a b : BitVec 6)
  | sar (d a b : BitVec 6)
  | rol (d a b : BitVec 6)
  | ror (d a b : BitVec 6)
  | min (d a b : BitVec 6)
  | max (d a b : BitVec 6)
  | minu (d a b : BitVec 6)
  | maxu (d a b : BitVec 6)
  | abs (d a : BitVec 6)
  | clz (d a : BitVec 6)
  | ctz (d a : BitVec 6)
  | popc (d a : BitVec 6)
  | brev (d a : BitVec 6)
  | sext (d a : BitVec 6) (w : ExtW)
  | zext (d a : BitVec 6) (w : ExtW)
  | sel (d a b c : BitVec 6)
  | lea (d a b : BitVec 6) (sh : BitVec 3)
  | bext (d a b c : BitVec 6) (sx : Bool)
  | bins (d a b c : BitVec 6)
  | addi (d a : BitVec 6) (imm : BitVec 28)
  | muli (d a : BitVec 6) (imm : BitVec 28)
  | andi (d a : BitVec 6) (imm : BitVec 28)
  | ori (d a : BitVec 6) (imm : BitVec 28)
  | xori (d a : BitVec 6) (imm : BitVec 28)
  | shli (d a n : BitVec 6)
  | shri (d a n : BitVec 6)
  | sari (d a n : BitVec 6)
  | movi (d : BitVec 6) (imm : BitVec 34)
  | movhi (d : BitVec 6) (imm : BitVec 32)
  | bexti (d a : BitVec 6) (off w : BitVec 7) (sx : Bool)
  | binsi (d a : BitVec 6) (off w : BitVec 7)
  -- predicates (R105 to R108)
  | cmp (c : Cond) (pd pe : BitVec 3) (a b : BitVec 6)
  | cmpi (c : Cond) (pd pe : BitVec 3) (a : BitVec 6) (imm : BitVec 25)
  | fcmp (c : FCond) (pd pe : BitVec 3) (a b : BitVec 6)
  | plog (pd pe pa pb : BitVec 3) (fn : BitVec 4)
  | pget (d : BitVec 6)
  | pset (a : BitVec 6) (mask : BitVec 8)
  -- scalar floating point (R109 to R111)
  | fadd (d a b : BitVec 6)
  | fsub (d a b : BitVec 6)
  | fmul (d a b : BitVec 6)
  | ffma (d a b c : BitVec 6)
  | fmin (d a b : BitVec 6)
  | fmax (d a b : BitVec 6)
  | fdiv (d a b : BitVec 6)
  | fsqrt (d a : BitVec 6)
  | fcvt (dst src : CTy) (rz : Bool) (d a : BitVec 6)
  -- transfers of control (R112 to R115)
  | pb (b : BitVec 2) (off : BitVec 38)
  | pba (b a : BitVec 6) (imm : BitVec 28)
  | br (b : BitVec 6)
  | call (d b : BitVec 6)
  | ret (a : BitVec 6)
  | loop (a b : BitVec 6)
  | nop
  -- Hall events (R116)
  | evPost (x : BitVec 6)
  | evWait (x : BitVec 6)
  | evPostx (x a : BitVec 6)
  | evTest (pd pe : BitVec 3) (x : BitVec 6)
  -- scalar loads and stores (R122)
  | ldB (d a : BitVec 6) (off : BitVec 16) (land : BitVec 12)
  | ldBz (d a : BitVec 6) (off : BitVec 16) (land : BitVec 12)
  | ldH (d a : BitVec 6) (off : BitVec 16) (land : BitVec 12)
  | ldHz (d a : BitVec 6) (off : BitVec 16) (land : BitVec 12)
  | ldW (d a : BitVec 6) (off : BitVec 16) (land : BitVec 12)
  | ldWz (d a : BitVec 6) (off : BitVec 16) (land : BitVec 12)
  | ldD (d a : BitVec 6) (off : BitVec 16) (land : BitVec 12)
  | stB (d a : BitVec 6) (off : BitVec 16)
  | stH (d a : BitVec 6) (off : BitVec 16)
  | stW (d a : BitVec 6) (off : BitVec 16)
  | stD (d a : BitVec 6) (off : BitVec 16)
  -- atomics, phases, groups (R130 to R146)
  | amo (op : AmoOp) (w : Width) (sc : Scope) (o : Order) (d a b : BitVec 6) (land : BitVec 12)
  | cas (w : Width) (sc : Scope) (o : Order) (d a b : BitVec 6) (land : BitVec 12)
  | stmr (w : Width) (a b : BitVec 6)
  | phase (sc : Scope)
  | fenceMk (mask : BitVec 3)
  | join
  | gjoin (sc : Scope) (d a : BitVec 6) (land : BitVec 12)
  | gleave (a : BitVec 6)
  | barArrive (a : BitVec 6)
  | barWait (a : BitVec 6)
  | barSync (a : BitVec 6)
  -- system (R206 to R235)
  | csrr (d : BitVec 6) (num : BitVec 12)
  | csrw (num : BitVec 12) (a : BitVec 6)
  | trap (code : BitVec 16)
  | eret
  | tfence
  | ntag (id : BitVec 8)
  | sliceEnd
  | sliceYield
  | rangeNext (d a : BitVec 6) (land : BitVec 12)
  | hintSucc
  | waitPred
  | ckpt (a b : BitVec 6)
  | boostReq (lvl : Level)
  | launch (a b : BitVec 6)
  | enqX (a b : BitVec 6)
  | wsetBind (d a : BitVec 6) (land : BitVec 12)
  | freeze (d a b : BitVec 6)
  | thaw (d a b : BitVec 6)
  | track (op : TrackOp) (a b : BitVec 6)
  | rgnBegin
  | rgnKeep (kind : KeepKind) (a b : BitVec 6)
  | rgnEnd
  | rgnAbort
  | rgnStat (d : BitVec 6)
  | lifeSet (a b : BitVec 6) (cls : LifeClass) (pol : LifePolicy)
  | lifeAge (d a : BitVec 6) (land : BitVec 12)
  | lifeRef (a b : BitVec 6)
  -- L class (R127 to R129, R148 to R151, R194 to R203, R236)
  | ldt (d a : BitVec 6) (off : BitVec 16) (land : BitVec 12)
  | stt (d a : BitVec 6) (off : BitVec 16)
  | ldtG (d a b : BitVec 6) (land : BitVec 12)
  | sttS (d a b : BitVec 6)
  | sbind (x a : BitVec 6) (land : BitVec 12)
  | sstat (d x : BitVec 6)
  | sdrop (x : BitVec 6)
  | cp (d a b x : BitVec 6) (c : QCtl)
  | cp2D (d a b x : BitVec 6) (c : QCtl)
  | cpMm (d a b x : BitVec 6) (c : QCtl)
  | cpFill (d a b x : BitVec 6) (c : QCtl)
  | cpWait (sc : Scope) (d a : BitVec 6) (land : BitVec 12)
  | cpResume (kind : CopyKind) (d a b x : BitVec 6) (c : QCtl)
  | hzPool (d a : BitVec 6) (c : QCtl)
  | hzRoot (d a : BitVec 6) (c : QCtl)
  | hzDesc (d a b : BitVec 6) (c : QCtl)
  | hzExpand (d a b : BitVec 6) (c : QCtl)
  | hzBack (d a b : BitVec 6) (c : QCtl)
  | hzSweep (d : BitVec 6) (c : QCtl)
  | hzRead (d a b x : BitVec 6) (c : QCtl)
  -- V class (R161 to R177)
  | vshape (ty : ETy) (d : BitVec 6) (rows : BitVec 4) (cols : BitVec 8)
  | vmov (ty : ETy) (d a : BitVec 6) (k : BitVec 3)
  | vsplat (ty : ETy) (d a : BitVec 6) (k : BitVec 3)
  | vins (ty : ETy) (d a : BitVec 6) (row : BitVec 4) (col : BitVec 8) (k : BitVec 3)
  | vext (ty : ETy) (d a : BitVec 6) (row : BitVec 4) (col : BitVec 8) (k : BitVec 3)
  | vzero (ty : ETy) (d : BitVec 6) (k : BitVec 3)
  | viota (ty : ETy) (d a : BitVec 6) (k : BitVec 3)
  | vadd (ty : ETy) (d a b : BitVec 6) (k : BitVec 3)
  | vsub (ty : ETy) (d a b : BitVec 6) (k : BitVec 3)
  | vmul (ty : ETy) (d a b : BitVec 6) (k : BitVec 3)
  | vfma (ty : ETy) (d a b : BitVec 6) (k : BitVec 3)
  | vmin (ty : ETy) (d a b : BitVec 6) (k : BitVec 3)
  | vmax (ty : ETy) (d a b : BitVec 6) (k : BitVec 3)
  | vabs (ty : ETy) (d a : BitVec 6) (k : BitVec 3)
  | vneg (ty : ETy) (d a : BitVec 6) (k : BitVec 3)
  | vdiv (ty : ETy) (d a b : BitVec 6) (k : BitVec 3)
  | vsqrt (ty : ETy) (d a : BitVec 6) (k : BitVec 3)
  | vclamp (ty : ETy) (d a b : BitVec 6) (k : BitVec 3)
  | viadd (ty : ETy) (d a b : BitVec 6) (k : BitVec 3) (sat u : Bool)
  | visub (ty : ETy) (d a b : BitVec 6) (k : BitVec 3) (sat u : Bool)
  | vimul (ty : ETy) (d a b : BitVec 6) (k : BitVec 3) (sat u : Bool)
  | vimin (ty : ETy) (d a b : BitVec 6) (k : BitVec 3) (u : Bool)
  | vimax (ty : ETy) (d a b : BitVec 6) (k : BitVec 3) (u : Bool)
  | vand (ty : ETy) (d a b : BitVec 6) (k : BitVec 3)
  | vor (ty : ETy) (d a b : BitVec 6) (k : BitVec 3)
  | vxor (ty : ETy) (d a b : BitVec 6) (k : BitVec 3)
  | vshl (ty : ETy) (d a b : BitVec 6) (k : BitVec 3)
  | vshr (ty : ETy) (d a b : BitVec 6) (k : BitVec 3)
  | vsar (ty : ETy) (d a b : BitVec 6) (k : BitVec 3)
  | vcmp (c : VCond) (ty : ETy) (d a b : BitVec 6) (k : BitVec 3)
  | vsel (ty : ETy) (d a b : BitVec 6) (k ks : BitVec 3)
  | vklog (d a b : BitVec 6) (fn : BitVec 4)
  | vkcnt (d a b : BitVec 6)
  | vrcp (ty : ETy) (d a : BitVec 6) (k : BitVec 3)
  | vrsq (ty : ETy) (d a : BitVec 6) (k : BitVec 3)
  | vexp2 (ty : ETy) (d a : BitVec 6) (k : BitVec 3)
  | vlog2 (ty : ETy) (d a : BitVec 6) (k : BitVec 3)
  | vsin (ty : ETy) (d a : BitVec 6) (k : BitVec 3)
  | vcos (ty : ETy) (d a : BitVec 6) (k : BitVec 3)
  | vtanh (ty : ETy) (d a : BitVec 6) (k : BitVec 3)
  | vlogi (ty : ETy) (d a : BitVec 6) (k : BitVec 3)
  | vcvt (dt st : ETy) (rz sat : Bool) (d a : BitVec 6) (k : BitVec 3)
  | vpack (dt st : ETy) (rz sat : Bool) (d a b : BitVec 6) (k : BitVec 3)
  | vunpk (dt st : ETy) (hi : Bool) (d a : BitVec 6) (k : BitVec 3)
  | vrotc (ty : ETy) (d a : BitVec 6) (n : BitVec 8) (k : BitVec 3)
  | vrotr (ty : ETy) (d a : BitVec 6) (n : BitVec 4) (k : BitVec 3)
  | vbcc (ty : ETy) (d a : BitVec 6) (j : BitVec 8) (k : BitVec 3)
  | vbcr (ty : ETy) (d a : BitVec 6) (idx : BitVec 4) (k : BitVec 3)
  | vredc (op : RedOp) (u : Bool) (ty : ETy) (d a : BitVec 6) (k : BitVec 3)
  | vredr (op : RedOp) (u : Bool) (ty : ETy) (d a : BitVec 6) (k : BitVec 3)
  | vpermc (ty : ETy) (d a b : BitVec 6) (k : BitVec 3)
  | vtrn (ty : ETy) (d a : BitVec 6) (j : BitVec 4) (k : BitVec 3)
  -- M class (R182 to R193)
  | mwLoad (fmt : MFmt) (image : Bool) (bank : Bool) (src sreg : BitVec 6)
  | mwLoads (fmt : MFmt) (n : Sparse) (bank : Bool) (sreg : BitVec 6)
  | mwClr (bank : Bool)
  | mfmt (fmt : MFmt) (stream : Bool) (src : BitVec 6)
  | mma (f : MmaF)
  | mmaS (f : MmaF)
  | maccRd (arow : BitVec 9) (src : BitVec 6) (n : BitVec 7) (k : BitVec 3)
  | maccWr (arow : BitVec 9) (src : BitVec 6) (n : BitVec 7) (k : BitVec 3)
  | maccCvt (toF32 : Bool) (arow : BitVec 9) (src : BitVec 6) (n : BitVec 7) (sreg : BitVec 6) (k : BitVec 3)
  | maccZero (arow : BitVec 9) (n : BitVec 7)
  | maccSpill (arow : BitVec 9) (n : BitVec 7) (sreg : BitVec 6) (ev : BitVec 5) (eve : Bool)
  | maccFill (arow : BitVec 9) (n : BitVec 7) (sreg : BitVec 6) (ev : BitVec 5) (eve : Bool)
  | mstat (d : BitVec 6)
  -- messages that the module both receives and sends (R406, R409)
  | response (tag : BitVec 16) (status : Byte) (cause detail : Byte) (data : Word)
  | interruptToHost (vector reason : Byte) (body : Bytes)
  | bulkData (src tag : BitVec 16) (data : Bytes)
  | bulkWriteRequest (tag : BitVec 16) (addr : Word) (p : PartId) (len : BitVec 41)
  | bulkReadRequest (tag : BitVec 16) (addr : Word) (p : PartId) (len : BitVec 41)
  | fabricRead (src tag : BitVec 16) (off : Word) (asid : Asid) (len : BitVec 16)
  | fabricWrite (src tag : BitVec 16) (off : Word) (asid : Asid) (data : Bytes)
  | fabricAtomic (src tag : BitVec 16) (off : Word) (asid : Asid) (op : Byte) (w : Width) (o : Order) (v c : Word)
  | fabricPublication (src : BitVec 16) (no : Word) (asid : Asid)
  | publicationAcknowledgement (src : BitVec 16) (no : Word) (asid : Asid)
  | barrierArrival (idx : Byte) (h : HallId) (asid : Asid) (gid : BitVec 12) (ph : BitVec 32)
  | proxyTokenMessage (idx : Byte) (h : HallId) (asid : Asid) (gid : BitVec 12) (ph : BitVec 32)
  | tokenWithdrawal (idx : Byte) (h : HallId) (asid : Asid) (gid : BitVec 12) (ph : BitVec 32)
  | phaseCompleteMessage (idx : Byte) (h : HallId) (asid : Asid) (gid : BitVec 12) (ph : BitVec 32)
  | groupJoinMessage (idx : Byte) (h : HallId) (asid : Asid) (gid : BitVec 12) (ph : BitVec 32)
  | groupLeaveMessage (idx : Byte) (h : HallId) (asid : Asid) (gid : BitVec 12) (ph : BitVec 32)
  | multicastReduceContribution (tag : BitVec 16) (p : PartId) (addr : BitVec 20) (idx : Byte) (h : HallId) (ty : Byte) (v : Word) (seq : Word)
  | roundSumMessage (p : PartId) (addr : BitVec 20) (v : Word)
  | creditOnly (port : BitVec 4) (chan : BitVec 2) (n : BitVec 14)
  -- Hirothlink
  | portTraining (port : BitVec 4) (lanes : BitVec 5)
  | portDown (port : BitVec 4)
  | crcFailure (port : BitVec 4)
  | fabricTimeout (h : HallId) (st : Strand)
  | hostLaunch (tag : BitVec 16) (p : PartId) (packet : Bytes) (mask : BitVec 256)
  | controlWindowRead (tag : BitVec 16) (addr : Word)
  | controlWindowWrite (tag : BitVec 16) (addr data : Word)
  -- management messages
  | lcstate (tag : BitVec 16) (target : BitVec 2) (seq : Word) (digest secret key sig : Bytes)
  | attest (tag : BitVec 16) (nonce : Bytes)
  | assign (tag : BitVec 16) (p : PartId) (halls : BitVec 256) (hbm : BitVec 64) (asids : BitVec 4096)
  | modid (tag id : BitVec 16)
  | wsdesc (tag : BitVec 16) (idx : BitVec 8) (desc : Bytes) (shards : Bytes)
  | wspub (tag : BitVec 16) (idx : BitVec 8)
  | ckall (tag : BitVec 16) (ports : BitVec 16) (dest : BitVec 16) (base : Word)
  | restall (tag : BitVec 16) (ports : BitVec 16) (src : BitVec 16) (base : Word)
  | super (tag : BitVec 16) (p : PartId) (restart : Bool) (packet : Bytes) (mask : BitVec 256)
  | keyx (tag : BitVec 16) (finish : Bool) (body : Bytes)
  | unknownTypeMessage (port : BitVec 4) (ty : Byte) (tag : BitVec 16)
  | discardedFlit (port : BitVec 4)
  -- steps inside a Hall (h is the Hall, st the strand)
  | syncGroupIssue (h : HallId)
  | resultWrite (h : HallId) (st : Strand)
  | landingDataArrival (h : HallId) (st : Strand)
  | landingPoint (h : HallId) (st : Strand)
  | writeQueueDrain (h : HallId)
  | publicationAck (h : HallId) (st : Strand)
  | atomicPerform (id : Nat)
  | mrContributionArrival
  | barTimeout (h : HallId)
  | queueStall (h : HallId)
  | streamPrefetch (h : HallId) (q : BitVec 3)
  | checkerMatch (h : HallId)
  | rollback (h : HallId)
  | rollbackResume (h : HallId)
  | copyCommandStart (h : HallId)
  | copyBurst (h : HallId)
  | copyComplete (h : HallId)
  | followOnEntry (h : HallId)
  | matrixCommandStart (h : HallId)
  | mmaRowFeed (h : HallId)
  | operandsConsumed (h : HallId)
  | mmaResultWrite (h : HallId)
  | weightFillComplete (h : HallId)
  | maccComplete (h : HallId)
  | engineEventPost (h : HallId)
  | hazelCommandStart (h : HallId)
  | hazelNodeAtomic (h : HallId)
  | walkComplete (id : Nat)
  | invalidationComplete (p : PartId)
  | trapRecordComplete (h : HallId)
  | trapQueueEntry (h : HallId)
  | trapRecordOpen (p : PartId)
  | ntstatRead (h : HallId)
  | thresholdWindowEnd (h : HallId) (cls : BitVec 2)
  | errinjArm (h : HallId) (v : Word)
  | budget (h : HallId)
  -- scheduling
  | sliceSelect (h : HallId)
  | sliceResume (h : HallId)
  | deadlinePassed (h : HallId)
  | stealRequest (h : HallId)
  | stealServe (victim thief : HallId)
  | stealRetryWait (h : HallId)
  | spillEntryReturn (h : HallId)
  | preEmptionDecision (h : HallId)
  | checkpointWindowExpiry (h : HallId)
  | predecDrain (p : PartId) (h : HallId)
  | predecCheckpoint (p : PartId) (h : HallId)
  | predecKill (p : PartId) (h : HallId)
  | predecCancel (p : PartId) (h : HallId)
  | freezeCapture (asid : Asid)
  -- control windows
  | partXinv (p : PartId) (v : Word)
  | xsvcWalkAgain (p : PartId) (tag : Byte)
  | xsvcFail (p : PartId) (tag : Byte)
  | partEvqRead (p : PartId)
  | spillBaseWrite (p : PartId) (v : Word)
  | controlRegisterWrite (p : PartId) (off : BitVec 24) (v : Word)
  -- galleries and platform
  | ageStep (h : HallId)
  | refresh (g : BitVec 22)
  | heartbeat (h : HallId)
  | autonomousMode (h : HallId)
  | rejoinHeartbeat (h : HallId)
  | sweep (h : HallId)
  | temperatureReading (h : HallId)
  | wipeComplete (h : HallId)
  | deviceReset
  | accessCounterHalving
  | boostInterval (d : BitVec 5)
  | sweepEnd (h : HallId)
  deriving DecidableEq, Repr

end Sys2Proof
end

