-- ==== Sys2Proof/Machine/Fields.lean ====
section
/-! DEFINITION. The limits on operand fields that the decode checks of R49 test (R44, R47, R48 and the instruction
entries). -/

namespace Sys2Proof

/-- Why a syllable is not an instruction (R49). Each of them raises ILLEGAL. -/
inductive Malformed where
  /-- the step has no encoding: it is one of the device and host steps -/
  | noEncoding
  /-- the opcode is unassigned in its class (R64) -/
  | unassigned
  /-- a reserved field or bit is not zero (R45) -/
  | reserved
  /-- a register field lies beyond its file (R44), or a pair is not even -/
  | register
  /-- a sub-field code is unassigned, or not accepted by the instruction (R47) -/
  | code
  /-- a landing field that must hold 1 to 4,095 holds 0 (R46, R47) -/
  | landing
  /-- a value passes a limit of the entry or of F.MAT (R48) -/
  | limit
  /-- the instruction requires the sync bit (R53) -/
  | noSync
  deriving DecidableEq, Repr

/-- none when the condition holds, else the reason. -/
def failUnless (b : Bool) (e : Malformed) : Option Malformed := if b then none else some e

/-- The first reason of two. -/
def orElse (a b : Option Malformed) : Option Malformed := match a with | some e => some e | none => b

/-- A tile field (R44). -/
def tileField (n : BitVec 6) : Option Malformed := failUnless (n.toNat < 32) .register
/-- A field of a file of eight: predicates, masks, streams (R44). -/
def eightField (n : BitVec 6) : Option Malformed := failUnless (n.toNat < 8) .register
/-- A branch-target field (R44). -/
def btField (n : BitVec 6) : Option Malformed := failUnless (n.toNat < 4) .register
/-- An event field (R44). -/
def evField (n : BitVec 6) : Option Malformed := failUnless (n.toNat < 32) .register
/-- A landing field (R46, R47). -/
def landField (n : BitVec 12) : Option Malformed := failUnless (n.toNat != 0) .landing
/-- An even register pair other than s0 (R194, R217). -/
def pairField (n : BitVec 6) : Option Malformed := failUnless (n.toNat % 2 == 0 && n.toNat != 0) .register

/-- Float element types (R47). -/
def ETy.isFloat : ETy → Bool
  | .F32 => true | .BF16 => true | .F16 => true | .I32 => false | .I16 => false | .I8 => false

/-- Element width in bits (R154). -/
def ETy.width : ETy → Nat
  | .F32 => 32 | .I32 => 32 | .BF16 => 16 | .F16 => 16 | .I16 => 16 | .I8 => 8

/-- Lim(w): elements in a row (R154). -/
def ETy.lim (t : ETy) : Nat := 2048 / t.width

/-- Float types of FCVT (R110). -/
def CTy.isFloat : CTy → Bool
  | .F32 => true | .BF16 => true | .F16 => true | .I32 => false | .U32 => false | .I64 => false | .U64 => false

/-- The control registers that R207 assigns. -/
def csrAssigned (n : Nat) : Bool :=
  n ≤ 0x007 || (0x010 ≤ n && n ≤ 0x02F) || (0x040 ≤ n && n ≤ 0x044) || (0x050 ≤ n && n ≤ 0x054) || n == 0x060 ||
  n == 0x061 || (0x070 ≤ n && n ≤ 0x07F) || (0x080 ≤ n && n ≤ 0x087) || n == 0x090

/-- Conditions that VCMP accepts for a type (R166). -/
def vcondOk (c : VCond) (t : ETy) : Bool :=
  match c with
  | .EQ => true | .NE => true | .LT => true | .GE => true
  | .UN => t.isFloat
  | .LTU => !t.isFloat
  | .GEU => !t.isFloat

/-- The limits on RZ and SAT of a conversion (R171). -/
def cvtOk (dt st : ETy) (rz sat : Bool) : Bool :=
  !(rz && dt.isFloat) && (!sat || (!dt.isFloat && !st.isFloat && dt.width < st.width))

/-- The pairs of VUNPK (R174). -/
def unpkOk (dt st : ETy) : Bool :=
  match st, dt with
  | .BF16, .F32 => true | .F16, .F32 => true | .I16, .I32 => true | .I16, .F32 => true
  | .I8, .I16 => true | .I8, .BF16 => true | .I8, .F16 => true
  | _, _ => false

/-- A tile destination and one tile source. -/
def tiles2 (d a : BitVec 6) : Option Malformed := orElse (tileField d) (tileField a)
/-- A tile destination and two tile sources. -/
def tiles3 (d a b : BitVec 6) : Option Malformed := orElse (tileField d) (orElse (tileField a) (tileField b))

/-- The rows of an accumulator command stay in the store (R48). -/
def rowsField (arow : BitVec 9) (n : BitVec 7) : Option Malformed := failUnless (arow.toNat + n.toNat + 1 ≤ 512) .limit

/-- The event field is zero unless an event is posted (R48). -/
def eveField (ev : BitVec 5) (eve : Bool) : Option Malformed := failUnless (eve || ev == 0) .limit

/-- The scope of a copy or Hazel command (R194, R236). -/
def qctl (c : QCtl) : Option Malformed := failUnless (c.scope != .strand) .code

/-- The limits of an instruction's operand fields: none when the fields are those of an instruction. -/
def malformed (i : Instr) : Option Malformed :=
  match i with
  | .add .. | .sub .. | .mul .. | .mulh .. | .mulhu .. | .div .. | .divu .. | .rem .. | .remu .. | .and .. | .or ..
  | .xor .. | .andn .. | .shl .. | .shr .. | .sar .. | .rol .. | .ror .. | .min .. | .max .. | .minu .. | .maxu ..
  | .abs .. | .clz .. | .ctz .. | .popc .. | .brev .. | .sext .. | .zext .. | .lea .. | .bext .. | .bins .. => none
  | .sel _ _ _ c => eightField c
  | .addi .. | .muli .. | .andi .. | .ori .. | .xori .. | .shli .. | .shri .. | .sari .. | .movi .. | .movhi .. => none
  | .bexti _ _ _ w _ => failUnless (w.toNat ≤ 64) .limit
  | .binsi _ _ _ w => failUnless (w.toNat ≤ 64) .limit
  | .cmp .. | .cmpi .. | .fcmp .. | .plog .. | .pget .. | .pset .. => none
  | .fadd .. | .fsub .. | .fmul .. | .ffma .. | .fmin .. | .fmax .. | .fdiv .. | .fsqrt .. => none
  | .fcvt dst src rz _ _ =>
    orElse (failUnless (dst.isFloat || src.isFloat) .code) (failUnless (!(rz && dst.isFloat)) .code)
  | .pb .. => none
  | .pba b _ _ => btField b
  | .br b => btField b
  | .call _ b => btField b
  | .ret .. => none
  | .loop _ b => btField b
  | .nop => none
  | .evPost x => evField x
  | .evWait x => evField x
  | .evPostx x _ => evField x
  | .evTest _ _ x => evField x
  | .ldB _ _ _ l | .ldBz _ _ _ l | .ldH _ _ _ l | .ldHz _ _ _ l | .ldW _ _ _ l | .ldWz _ _ _ l | .ldD _ _ _ l =>
    landField l
  | .stB .. | .stH .. | .stW .. | .stD .. => none
  | .amo op w _ _ _ _ _ l => orElse (landField l) (failUnless (op != .FADD || w == .W) .code)
  | .cas _ _ _ _ _ _ l => landField l
  | .stmr w _ _ => failUnless (w == .W || w == .D) .code
  | .phase .. | .fenceMk .. | .join => none
  | .gjoin sc _ _ l => orElse (failUnless (sc != .strand) .code) (landField l)
  | .gleave .. | .barArrive .. | .barWait .. | .barSync .. => none
  | .csrr _ num => failUnless (csrAssigned num.toNat) .code
  | .csrw num _ => failUnless (csrAssigned num.toNat) .code
  | .trap .. | .eret | .tfence | .ntag .. | .sliceEnd | .sliceYield => none
  | .rangeNext d _ l => orElse (pairField d) (landField l)
  | .hintSucc | .waitPred | .ckpt .. | .boostReq .. | .launch .. | .enqX .. => none
  | .wsetBind _ _ l => landField l
  | .freeze d _ _ => failUnless (d != 0) .register
  | .thaw .. | .track .. | .rgnBegin => none
  | .rgnKeep kind _ b => failUnless (kind != .T || b == 0) .reserved
  | .rgnEnd | .rgnAbort | .rgnStat .. => none
  | .lifeSet _ _ cls pol => failUnless (cls != .P || pol == .EXPIRE) .code
  | .lifeAge _ _ l => landField l
  | .lifeRef .. => none
  | .ldt d _ _ l => orElse (tileField d) (landField l)
  | .stt d _ _ => tileField d
  | .ldtG d _ b l => orElse (tiles2 d b) (landField l)
  | .sttS d _ b => tiles2 d b
  | .sbind x _ l => orElse (eightField x) (landField l)
  | .sstat _ x => eightField x
  | .sdrop x => eightField x
  | .cp _ _ _ _ c | .cp2D _ _ _ _ c | .cpFill _ _ _ _ c => qctl c
  | .cpMm d _ _ _ c => orElse (pairField d) (qctl c)
  | .cpWait sc _ _ l => orElse (failUnless (sc != .strand) .code) (landField l)
  | .cpResume kind d _ _ _ c => orElse (if kind = .MM then pairField d else none) (qctl c)
  | .hzPool _ _ c | .hzRoot _ _ c | .hzDesc _ _ _ c | .hzExpand _ _ _ c | .hzBack _ _ _ c | .hzSweep _ c => qctl c
  | .hzRead _ _ _ x c => orElse (tileField x) (qctl c)
  | .vshape ty d _ cols => orElse (tileField d) (failUnless (cols.toNat < ty.lim) .limit)
  | .vmov _ d a _ => tiles2 d a
  | .vsplat _ d _ _ => tileField d
  | .vins ty d _ _ col _ => orElse (tileField d) (failUnless (col.toNat < ty.lim) .limit)
  | .vext ty _ a _ col _ => orElse (tileField a) (failUnless (col.toNat < ty.lim) .limit)
  | .vzero _ d _ => tileField d
  | .viota ty d _ _ => orElse (tileField d) (failUnless (!ty.isFloat) .code)
  | .vadd ty d a b _ | .vsub ty d a b _ | .vmul ty d a b _ | .vfma ty d a b _ | .vmin ty d a b _ | .vmax ty d a b _
  | .vdiv ty d a b _ | .vclamp ty d a b _ => orElse (tiles3 d a b) (failUnless ty.isFloat .code)
  | .vabs ty d a _ | .vneg ty d a _ | .vsqrt ty d a _ => orElse (tiles2 d a) (failUnless ty.isFloat .code)
  | .viadd ty d a b _ sat u | .visub ty d a b _ sat u | .vimul ty d a b _ sat u =>
    orElse (tiles3 d a b) (failUnless (!ty.isFloat && (sat || !u)) .code)
  | .vimin ty d a b _ _ | .vimax ty d a b _ _ => orElse (tiles3 d a b) (failUnless (!ty.isFloat) .code)
  | .vand ty d a b _ | .vor ty d a b _ | .vxor ty d a b _ | .vshl ty d a b _ | .vshr ty d a b _ | .vsar ty d a b _ =>
    orElse (tiles3 d a b) (failUnless (!ty.isFloat) .code)
  | .vcmp c ty d a b _ => orElse (eightField d) (orElse (tiles2 a b) (failUnless (vcondOk c ty) .code))
  | .vsel _ d a b _ _ => tiles3 d a b
  | .vklog d a b _ => orElse (eightField d) (orElse (eightField a) (eightField b))
  | .vkcnt _ a b => orElse (eightField a) (tileField b)
  | .vrcp ty d a _ | .vrsq ty d a _ | .vexp2 ty d a _ | .vlog2 ty d a _ | .vsin ty d a _ | .vcos ty d a _
  | .vtanh ty d a _ | .vlogi ty d a _ => orElse (tiles2 d a) (failUnless ty.isFloat .code)
  | .vcvt dt st rz sat d a _ => orElse (tiles2 d a) (failUnless (cvtOk dt st rz sat) .code)
  | .vpack dt st rz sat d a b _ =>
    orElse (tiles3 d a b) (failUnless (cvtOk dt st rz sat && st.width == 2 * dt.width) .code)
  | .vunpk dt st _ d a _ => orElse (tiles2 d a) (failUnless (unpkOk dt st) .code)
  | .vrotc _ d a _ _ => tiles2 d a
  | .vrotr _ d a _ _ => tiles2 d a
  | .vbcc ty d a j _ => orElse (tiles2 d a) (failUnless (j.toNat < ty.lim) .limit)
  | .vbcr _ d a _ _ => tiles2 d a
  | .vredc op u ty d a _ | .vredr op u ty d a _ =>
    orElse (tiles2 d a) (failUnless (!u || (!ty.isFloat && op != .ADD)) .code)
  | .vpermc _ d a b _ => tiles3 d a b
  | .vtrn ty d a j _ => orElse (tiles2 d a) (failUnless (j.toNat < ty.lim / 16) .limit)
  | .mwLoad _ image _ src sreg =>
    orElse (tileField src) (if image then failUnless (src == 0) .limit
      else orElse (failUnless (src.toNat % 8 == 0) .limit) (failUnless (sreg == 0) .limit))
  | .mwLoads .. | .mwClr .. => none
  | .mfmt _ stream src => if stream then eightField src else failUnless (src == 0) .reserved
  | .mma f =>
    orElse (tileField f.src) <| orElse (rowsField f.arow f.n) <|
      orElse (failUnless (f.src.toNat + (f.n.toNat + 16) / 16 ≤ 32) .limit) <|
        orElse (failUnless (f.ctl == .SCL || f.sreg == 0) .limit) (eveField f.ev f.eve)
  | .mmaS f =>
    orElse (eightField f.src) <| orElse (rowsField f.arow f.n) <|
      orElse (failUnless (f.ctl == .SCL || f.sreg == 0) .limit) <|
        orElse (eveField f.ev f.eve) (failUnless (f.k == 0) .reserved)
  | .maccRd arow src n _ | .maccWr arow src n _ =>
    orElse (tileField src) (orElse (rowsField arow n) (failUnless (n.toNat < 16) .limit))
  | .maccCvt toF arow src n sreg _ =>
    orElse (tileField src) (orElse (rowsField arow n) (orElse (failUnless (n.toNat < 16) .limit)
      (failUnless (toF || sreg == 0) .limit)))
  | .maccZero arow n => rowsField arow n
  | .maccSpill arow n _ ev eve | .maccFill arow n _ ev eve => orElse (rowsField arow n) (eveField ev eve)
  | .mstat .. => none
  | .syncGroupIssue .. | .resultWrite .. | .landingDataArrival .. | .landingPoint .. | .writeQueueDrain ..
  | .publicationAck .. | .atomicPerform .. | .mrContributionArrival | .barTimeout .. | .queueStall ..
  | .streamPrefetch .. | .checkerMatch .. | .rollback .. | .rollbackResume .. | .copyCommandStart .. | .copyBurst ..
  | .copyComplete .. | .followOnEntry .. | .matrixCommandStart .. | .mmaRowFeed .. | .operandsConsumed ..
  | .mmaResultWrite .. | .weightFillComplete .. | .maccComplete .. | .engineEventPost .. | .hazelCommandStart ..
  | .hazelNodeAtomic .. | .walkComplete .. | .invalidationComplete .. | .trapRecordComplete .. | .trapQueueEntry ..
  | .trapRecordOpen .. | .ntstatRead .. | .thresholdWindowEnd .. | .errinjArm .. | .budget .. | .sliceSelect ..
  | .sliceResume .. | .deadlinePassed .. | .stealRequest .. | .stealServe .. | .stealRetryWait .. | .spillEntryReturn ..
  | .preEmptionDecision .. | .checkpointWindowExpiry .. | .predecDrain .. | .predecCheckpoint .. | .predecKill ..
  | .predecCancel .. | .freezeCapture .. | .partXinv .. | .xsvcWalkAgain .. | .xsvcFail .. | .partEvqRead ..
  | .spillBaseWrite .. | .controlRegisterWrite .. | .ageStep .. | .refresh .. | .heartbeat .. | .autonomousMode ..
  | .rejoinHeartbeat .. | .sweep .. | .temperatureReading .. | .wipeComplete .. | .deviceReset
  | .accessCounterHalving | .boostInterval .. | .portTraining .. | .portDown .. | .crcFailure .. | .fabricTimeout ..
  | .creditOnly .. | .hostLaunch .. | .controlWindowRead .. | .controlWindowWrite .. | .response ..
  | .bulkWriteRequest .. | .bulkReadRequest .. | .bulkData .. | .fabricAtomic .. | .fabricPublication ..
  | .publicationAcknowledgement .. | .barrierArrival .. | .proxyTokenMessage .. | .tokenWithdrawal ..
  | .phaseCompleteMessage .. | .groupJoinMessage .. | .groupLeaveMessage .. | .multicastReduceContribution ..
  | .interruptToHost .. | .fabricRead .. | .fabricWrite .. | .lcstate .. | .attest .. | .assign .. | .modid ..
  | .wsdesc .. | .wspub .. | .ckall .. | .restall .. | .super .. | .keyx .. | .sweepEnd .. | .roundSumMessage ..
  | .unknownTypeMessage .. | .discardedFlit .. => some .noEncoding

end Sys2Proof
end

