-- ==== Sys2Proof/Machine/Float.lean ====
section
/-! DEFINITION. Floating-point formats and exact arithmetic (R69 to R76, R110, R111, R171). Patterns are natural numbers
below 2 to the width of their format. -/

namespace Sys2Proof.Machine

/-- A binary format: widths of the exponent and of the fraction (R71). -/
structure Fmt where
  eb : Nat
  mb : Nat
  deriving DecidableEq, Repr

/-- FP32 (R71). -/
def fp32 : Fmt := { eb := 8, mb := 23 }
/-- BF16 (R71). -/
def bf16 : Fmt := { eb := 8, mb := 7 }
/-- FP16 (R71). -/
def fp16 : Fmt := { eb := 5, mb := 10 }

/-- The exponent field of all ones. -/
def Fmt.emax (f : Fmt) : Nat := 2 ^ f.eb - 1
/-- The exponent of one unit of the subnormal fraction. -/
def Fmt.qmin (f : Fmt) : Int := 2 - 2 ^ (f.eb - 1) - f.mb
/-- The weight of the sign bit. -/
def Fmt.signBit (f : Fmt) : Nat := 2 ^ (f.eb + f.mb)
/-- The pattern of +infinity. -/
def Fmt.infBits (f : Fmt) : Nat := f.emax * 2 ^ f.mb
/-- The canonical quiet NaN (R74). -/
def Fmt.nanBits (f : Fmt) : Nat := f.infBits + 2 ^ (f.mb - 1)

/-- What a pattern says: a NaN (signalling or not), an infinity, or the number (-1)^neg m 2^e. -/
inductive FVal where
  | nan (signalling : Bool)
  | inf (neg : Bool)
  | num (neg : Bool) (m : Nat) (e : Int)
  deriving DecidableEq, Repr

/-- Bits of NFLAGS (R88). -/
def flNV : BitVec 6 := 1
/-- Division by zero or pole (R88). -/
def flDZ : BitVec 6 := 2
/-- Overflow (R88). -/
def flOF : BitVec 6 := 4
/-- Underflow (R88). -/
def flUF : BitVec 6 := 8
/-- Inexact (R88). -/
def flNX : BitVec 6 := 16
/-- Saturation (R88). -/
def flSAT : BitVec 6 := 32

/-- The result of one operation: its pattern, the flags it sets, and whether it is a NaN made from operands none of
which is a NaN (R91). -/
structure NumRes where
  bits : Nat
  flags : BitVec 6
  gen : Bool
  deriving DecidableEq, Repr

/-- A result that sets nothing. -/
def NumRes.plain (b : Nat) : NumRes := { bits := b, flags := 0, gen := false }
/-- A result with flags. -/
def NumRes.flagged (b : Nat) (f : BitVec 6) : NumRes := { bits := b, flags := f, gen := false }
/-- An invalid operation on operands none of which is a NaN (R73). -/
def Fmt.invalid (f : Fmt) : NumRes := { bits := f.nanBits, flags := flNV, gen := true }
/-- The canonical NaN of an operation that a NaN operand enters (R74). -/
def Fmt.nanOf (f : Fmt) (signalling : Bool) : NumRes := .flagged f.nanBits (if signalling then flNV else 0)

/-- Sign of a pattern. -/
def Fmt.neg (f : Fmt) (x : Nat) : Bool := x / f.signBit % 2 == 1

/-- Decode a pattern (R71). -/
def Fmt.unpack (f : Fmt) (x : Nat) : FVal :=
  let neg := f.neg x
  let ex := x / 2 ^ f.mb % 2 ^ f.eb
  let fr := x % 2 ^ f.mb
  if ex = f.emax then (if fr = 0 then .inf neg else .nan (fr < 2 ^ (f.mb - 1)))
  else if ex = 0 then .num neg fr f.qmin
  else .num neg (fr + 2 ^ f.mb) (f.qmin + (ex - 1 : Nat))

/-- A pattern with its sign set. -/
def Fmt.withSign (f : Fmt) (neg : Bool) (mag : Nat) : Nat := if neg then f.signBit + mag else mag

/-- Number of binary digits. -/
def bitLen (m : Nat) : Nat := if m = 0 then 0 else m.log2 + 1

/-- m 2^e to a multiple of 2^q, nearest with ties to even: the multiple, and whether it is not exact (R72). -/
def roundAt (m : Nat) (e q : Int) : Nat × Bool :=
  if q ≤ e then (m * 2 ^ (e - q).toNat, false)
  else
    let s := (q - e).toNat
    let k := m / 2 ^ s
    let r := m % 2 ^ s
    let half := 2 ^ (s - 1)
    (if half < r || (r == half && k % 2 == 1) then k + 1 else k, r != 0)

/-- The exact value (-1)^neg m 2^e rounded once, with OF, UF and NX (R72, R73). UF: tiny after rounding as IEEE 754
defines it, and inexact (log 7). -/
def Fmt.pack (f : Fmt) (neg : Bool) (m : Nat) (e : Int) : NumRes :=
  if m = 0 then .plain (f.withSign neg 0)
  else
    let top := e + bitLen m
    let free := top - (f.mb + 1)
    let tiny :=
      let (k, _) := roundAt m e free
      (k : Int) < 2 ^ (f.mb + 1) && free < f.qmin || (free + 1 < f.qmin)
    let q := if free < f.qmin then f.qmin else free
    let (k, inexact) := roundAt m e q
    let mag := (q - f.qmin).toNat * 2 ^ f.mb + k
    if f.infBits ≤ mag then .flagged (f.withSign neg f.infBits) (flOF ||| flNX)
    else .flagged (f.withSign neg mag) ((if inexact then flNX else 0) ||| (if tiny && inexact then flUF else 0))

/-- The exact sum of two signed values, rounded once. An exact zero is +0 unless both terms are negative zeros. -/
def Fmt.sum (f : Fmt) (n1 : Bool) (m1 : Nat) (e1 : Int) (n2 : Bool) (m2 : Nat) (e2 : Int) : NumRes :=
  let e := min e1 e2
  let a : Int := m1 * 2 ^ (e1 - e).toNat
  let b : Int := m2 * 2 ^ (e2 - e).toNat
  let v := (if n1 then -a else a) + (if n2 then -b else b)
  if v = 0 then .plain (f.withSign (n1 && n2) 0) else f.pack (v < 0) v.natAbs e

/-- a + b (R72 to R74). -/
def Fmt.addV (f : Fmt) (a b : FVal) : NumRes :=
  match a, b with
  | .nan s, .nan t => f.nanOf (s || t)
  | .nan s, _ => f.nanOf s
  | _, .nan t => f.nanOf t
  | .inf n, .inf p => if n == p then .plain (f.withSign n f.infBits) else f.invalid
  | .inf n, _ => .plain (f.withSign n f.infBits)
  | _, .inf p => .plain (f.withSign p f.infBits)
  | .num n m e, .num p k g => f.sum n m e p k g

/-- The value with its sign changed. -/
def FVal.negate : FVal → FVal
  | .nan s => .nan s
  | .inf n => .inf !n
  | .num n m e => .num (!n) m e

/-- A NaN. -/
def FVal.isNan : FVal → Bool
  | .nan _ => true
  | .inf _ => false
  | .num _ _ _ => false

/-- A signalling NaN. -/
def FVal.isSnan : FVal → Bool
  | .nan s => s
  | .inf _ => false
  | .num _ _ _ => false

/-- a + b. -/
def Fmt.add (f : Fmt) (a b : Nat) : NumRes := f.addV (f.unpack a) (f.unpack b)
/-- a - b. -/
def Fmt.sub (f : Fmt) (a b : Nat) : NumRes := f.addV (f.unpack a) (f.unpack b).negate

/-- a * b + c, computed exactly and rounded once (R109, R164). -/
def Fmt.fmaV (f : Fmt) (a b c : FVal) : NumRes :=
  match a, b with
  | .nan s, _ => f.nanOf (s || b.isSnan || c.isSnan)
  | _, .nan t => f.nanOf (t || c.isSnan)
  | .inf n, .inf p => f.addV (.inf (n != p)) c
  | .inf n, .num p k _ => if k = 0 then { f.invalid with gen := !c.isNan } else f.addV (.inf (n != p)) c
  | .num n k _, .inf p => if k = 0 then { f.invalid with gen := !c.isNan } else f.addV (.inf (n != p)) c
  | .num n m e, .num p k g => f.addV (.num (n != p) (m * k) (e + g)) c

/-- a * b + c. -/
def Fmt.fma (f : Fmt) (a b c : Nat) : NumRes := f.fmaV (f.unpack a) (f.unpack b) (f.unpack c)

/-- a * b (R72 to R74). -/
def Fmt.mul (f : Fmt) (a b : Nat) : NumRes :=
  match f.unpack a, f.unpack b with
  | .nan s, y => f.nanOf (s || y.isSnan)
  | _, .nan t => f.nanOf t
  | .inf n, .inf p => .plain (f.withSign (n != p) f.infBits)
  | .inf n, .num p k _ => if k = 0 then f.invalid else .plain (f.withSign (n != p) f.infBits)
  | .num n k _, .inf p => if k = 0 then f.invalid else .plain (f.withSign (n != p) f.infBits)
  | .num n m e, .num p k g => f.pack (n != p) (m * k) (e + g)

/-- The quotient m 2^e / (k 2^g) of two positive numbers, rounded once: digits enough for the format, and a last digit
that says whether anything is left. -/
def Fmt.ratio (f : Fmt) (neg : Bool) (m : Nat) (e : Int) (k : Nat) (g : Int) : NumRes :=
  let s := bitLen k + f.mb + 4
  let q := m * 2 ^ s / k
  let r := m * 2 ^ s % k
  f.pack neg (2 * q + (if r = 0 then 0 else 1)) (e - g - s - 1)

/-- a / b (R72 to R74). -/
def Fmt.div (f : Fmt) (a b : Nat) : NumRes :=
  match f.unpack a, f.unpack b with
  | .nan s, y => f.nanOf (s || y.isSnan)
  | _, .nan t => f.nanOf t
  | .inf _, .inf _ => f.invalid
  | .inf n, .num p _ _ => .plain (f.withSign (n != p) f.infBits)
  | .num n _ _, .inf p => .plain (f.withSign (n != p) 0)
  | .num n m e, .num p k g =>
    if k = 0 then (if m = 0 then f.invalid else .flagged (f.withSign (n != p) f.infBits) flDZ)
    else if m = 0 then .plain (f.withSign (n != p) 0)
    else f.ratio (n != p) m e k g

/-- The integer square root below 2^i, from a root r whose higher digits are fixed. -/
def isqrtGo (n : Nat) : Nat → Nat → Nat
  | 0, r => r
  | i + 1, r => isqrtGo n i (if (r + 2 ^ i) * (r + 2 ^ i) ≤ n then r + 2 ^ i else r)

/-- The integer square root. -/
def isqrt (n : Nat) : Nat := isqrtGo n (bitLen n / 2 + 1) 0

/-- The square root of a positive number m 2^e, rounded once. -/
def Fmt.rootOf (f : Fmt) (m : Nat) (e : Int) : NumRes :=
  let (m, e) := if e % 2 = 0 then (m, e) else (2 * m, e - 1)
  let s := f.mb + 4
  let n := m * 2 ^ (2 * s)
  let r := isqrt n
  f.pack false (2 * r + (if r * r = n then 0 else 1)) (e / 2 - s - 1)

/-- The square root (R72 to R74, R109). -/
def Fmt.sqrt (f : Fmt) (a : Nat) : NumRes :=
  match f.unpack a with
  | .nan s => f.nanOf s
  | .inf n => if n then f.invalid else .plain f.infBits
  | .num n m e => if m = 0 then .plain (f.withSign n 0) else if n then f.invalid else f.rootOf m e

/-- Order of two numbers or infinities; -0 equals +0. -/
def FVal.cmp (a b : FVal) : Ordering :=
  match a, b with
  | .nan _, _ => .eq
  | _, .nan _ => .eq
  | .inf n, .inf p => if n == p then .eq else if n then .lt else .gt
  | .inf n, .num _ _ _ => if n then .lt else .gt
  | .num _ _ _, .inf p => if p then .gt else .lt
  | .num n m e, .num p k g =>
    let z := min e g
    let x : Int := m * 2 ^ (e - z).toNat
    let y : Int := k * 2 ^ (g - z).toNat
    compare (if n then -x else x) (if p then -y else y)

/-- Minimum (R75). -/
def Fmt.min (f : Fmt) (a b : Nat) : NumRes :=
  let x := f.unpack a
  let y := f.unpack b
  let fl := if x.isSnan || y.isSnan then flNV else 0
  if x.isNan && y.isNan then .flagged f.nanBits fl
  else if x.isNan then .flagged b fl
  else if y.isNan then .flagged a fl
  else match x.cmp y with
    | .lt => .plain a
    | .gt => .plain b
    | .eq => .plain (if f.neg a then a else b)

/-- Maximum (R75). -/
def Fmt.max (f : Fmt) (a b : Nat) : NumRes :=
  let x := f.unpack a
  let y := f.unpack b
  let fl := if x.isSnan || y.isSnan then flNV else 0
  if x.isNan && y.isNan then .flagged f.nanBits fl
  else if x.isNan then .flagged b fl
  else if y.isNan then .flagged a fl
  else match x.cmp y with
    | .lt => .plain b
    | .gt => .plain a
    | .eq => .plain (if f.neg a then b else a)

/-- Absolute value (R164). -/
def Fmt.abs (f : Fmt) (a : Nat) : NumRes :=
  let x := f.unpack a
  if x.isNan then f.nanOf x.isSnan else .plain (a % f.signBit)

/-- Change of sign (R164). -/
def Fmt.negate (f : Fmt) (a : Nat) : NumRes :=
  let x := f.unpack a
  if x.isNan then f.nanOf x.isSnan else .plain (f.withSign (!f.neg a) (a % f.signBit))

/-- Min(Max(d, a), b) (R164). -/
def Fmt.clamp (f : Fmt) (d a b : Nat) : NumRes :=
  let x := f.max d a
  let y := f.min x.bits b
  { y with flags := x.flags ||| y.flags }

/-- The conditions of R106: the result and the flags. -/
def Fmt.compare (f : Fmt) (c : FCond) (a b : Nat) : Bool × BitVec 6 :=
  let x := f.unpack a
  let y := f.unpack b
  let sn := x.isSnan || y.isSnan
  if x.isNan || y.isNan then
    match c with
    | .EQ => (false, if sn then flNV else 0)
    | .NE => (true, if sn then flNV else 0)
    | .LT => (false, flNV)
    | .GE => (false, flNV)
    | .UN => (true, if sn then flNV else 0)
  else
    match c with
    | .EQ => (x.cmp y == .eq, 0)
    | .NE => (x.cmp y != .eq, 0)
    | .LT => (x.cmp y == .lt, 0)
    | .GE => (x.cmp y != .lt, 0)
    | .UN => (false, 0)

/-- A conversion between float formats (R111, R171). -/
def Fmt.convert (src dst : Fmt) (a : Nat) : NumRes :=
  match src.unpack a with
  | .nan s => dst.nanOf s
  | .inf n => .plain (dst.withSign n dst.infBits)
  | .num n m e => dst.pack n m e

/-- A conversion of an integer to a float format (R111, R171). -/
def Fmt.ofInt (f : Fmt) (v : Int) : NumRes := f.pack (v < 0) v.natAbs 0

/-- A conversion of a float to an integer in [lo, hi] (R73, R111, R171): the value, with its flags. -/
structure IntRes where
  val : Int
  flags : BitVec 6
  deriving DecidableEq, Repr

/-- The nearer limit, with NV and SAT (R73). -/
def Fmt.toInt (f : Fmt) (rz : Bool) (lo hi : Int) (a : Nat) : IntRes :=
  match f.unpack a with
  | .nan _ => { val := 0, flags := flNV }
  | .inf n => { val := if n then lo else hi, flags := flNV ||| flSAT }
  | .num n m e =>
    let (k, inexact) :=
      if rz then (if 0 ≤ e then (m * 2 ^ e.toNat, false) else (m / 2 ^ (-e).toNat, m % 2 ^ (-e).toNat != 0))
      else roundAt m e 0
    let v : Int := if n then -k else k
    if v < lo then { val := lo, flags := flNV ||| flSAT }
    else if hi < v then { val := hi, flags := flNV ||| flSAT }
    else { val := v, flags := if inexact then flNX else 0 }

/-- Signed reading of the low w bits. -/
def sint (w x : Nat) : Int := if x % 2 ^ w < 2 ^ (w - 1) then (x % 2 ^ w : Nat) else (x % 2 ^ w : Nat) - 2 ^ w

/-- The low w bits of an integer. -/
def wrap (w : Nat) (v : Int) : Nat := (v % 2 ^ w).toNat

/-- An exact integer clamped to [lo, hi], with SAT when it lay outside (R69). -/
def saturate (w : Nat) (lo hi v : Int) : NumRes :=
  if v < lo then .flagged (wrap w lo) flSAT else if hi < v then .flagged (wrap w hi) flSAT else .plain (wrap w v)

/-- Lower limit of a signed or unsigned integer of w bits. -/
def intLo (w : Nat) (u : Bool) : Int := if u then 0 else -2 ^ (w - 1)
/-- Upper limit of a signed or unsigned integer of w bits. -/
def intHi (w : Nat) (u : Bool) : Int := if u then 2 ^ w - 1 else 2 ^ (w - 1) - 1

end Sys2Proof.Machine
end

