-- ==== Sys2Proof/Config.lean ====
section
/-! DEFINITION. What an implementation fixes and what the manual leaves open: uninterpreted constants with no body. A
statement about one of them holds for every function it could be. -/

namespace Sys2Proof.Config

/-- Free value (log 2): how long something whose time the manual leaves open takes: an arrival, an acknowledgement, a
drain, a walk, a router step (R119, R430). The argument is the counter State.free. Bounds the manual states are kept
where it is used. -/
opaque delay : Nat → Nat
/-- Free value (log 2): which of several outcomes the manual allows is taken, as the version a read returns (R279). -/
opaque choice : Nat → Nat
/-- Free value (log 4): the reading in whole degrees of the sensor of a Hall at a microsecond of device time (R250). -/
opaque sensor : Nat → Nat → BitVec 8
/-- Free value (log 4): the module's input power in W over a 5 microsecond interval (R429). -/
opaque power : Nat → Nat
/-- Free value (log 4): the physical changes that strike gallery words and off-die lines before a moment of device time (R262, R357), by
the counter State.free: an address in the word or line, and the stored bits that change. For a line bits 511:0 are its cipher text and bits 575:512
its check field; for a word bits 38:0 are its bits and check bits. -/
opaque strikes : Nat → List (Nat × BitVec 576)
/-- Free value (log 4): whether the checker finds a difference (R337), by the counter State.free. -/
opaque upset : Nat → Bool
/-- Free value (log 4): whether the Usher core of a plinth works at a nanosecond of device time (R258, R259). -/
opaque usherWorks : Nat → Nat → Bool
/-- Free value (log 5): the device's random generator (R425). -/
opaque random : Nat → Nat → Bytes
/-- Free value (log 5): the key material with a number, drawn from the device's random generator (R425): two AES-256 keys and the integrity
key, 96 bytes. -/
opaque keyMaterial : Nat → Bytes
/-- Free value (log 5): the firmware image that the Usher core's ROM reads at reset (R421). -/
opaque firmware : Bytes
/-- Free value (log 5): a further measurement that the firmware makes of itself at a moment, a SHAKE256 digest (R421), by the counter State.free. -/
opaque measured : Nat → Option Bytes
/-- Free value (log 5): the digest of the vendor key, fused at MANUFACTURE (R421). -/
opaque vendorDigest : Bytes
/-- Free value (log 5): the identity public key of the module whose key has a digest (R424). -/
opaque peerKey : Bytes → Bytes
/-- Free value (log 5): the seeds of the device identity key pair of SLH-DSA, derived at MANUFACTURE from the device secret (R423): two secret
ones and the public one, 96 bytes. -/
opaque identitySeeds : Bytes
/-- Free value (log 6): what the manual states no value for, by the counter State.free. -/
opaque value : Nat → BitVec 64

end Sys2Proof.Config
end

