-- ==== Sys2Proof/Machine/State.lean ====
section
/-! DEFINITION. The state of a Neluaril module as plain data: what the manual gives the machine, the reasons a step can
stop, and the state right after device reset. -/

namespace Sys2Proof.Machine

/-- Why the machine stops with a fault. -/
inductive Fault where
  /-- A step names a Hirothlink port above 11 (R404). Raised by the port steps only, never by a syllable. Safe: the
  module has no such port, so no run of the device takes such a step. -/
  | noSuchPort (n : Nat)
  deriving DecidableEq, Repr

/-- Why a step has no meaning. -/
inductive Refusal where
  /-- The model gives the instruction no meaning yet. Raised by exec's arms only. Safe: the model stops. -/
  | notModelled (mnemonic : String)
  deriving DecidableEq, Repr

/-- A sparse table: keys strictly rising, no entry equal to zero; an absent key reads zero. -/
abbrev SMap (w : Nat) := List (Nat × BitVec w)

/-- The engines of a Hall that act as agents of the memory model (R271). -/
inductive Engine where | copy | matrix | hazel
  deriving DecidableEq, Repr

/-- The agents of the memory model (R271). A strand stays the same agent when its slice moves. device: what the device writes for itself
(bitmaps, ring entries, save areas). stores is no agent: it names the stores of a strand, which a clock counts apart from the strand's publications
beyond HALL (R275). -/
inductive Agent where
  | strand (slice : Nat) (st : Strand)
  | engine (h : HallId) (e : Engine)
  | switch (plinth : Nat)
  | device
  | host
  | module (id : BitVec 16)
  | stores (slice : Nat) (st : Strand)
  deriving DecidableEq, Repr

/-- What an agent knows by happens-before (R277): for each agent, the last of its publications known, and for the stores of a strand the last
of them known. -/
abbrev Clock := List (Agent × Nat)

/-- Trap causes (R391). -/
inductive Cause where
  | ILLEGAL | PRIV | ALIGN | XLATE | PROT | EXPIRED | INTEGRITY | SPILL_FULL | BAR_OVERRUN | BAR_TIMEOUT
  | STALL_SHORT | BUDGET | ACC_FOREIGN | ARITH | QUEUE_STALL | REGION_LIMIT | MACHINE_CHECK | BREAK
  deriving DecidableEq, Repr

/-- Kinds of access in TRAP.CAUSE (R395). -/
inductive Access where | none | fetch | load | store | atomic | tile | engine | system
  deriving DecidableEq, Repr

/-- What a trap record says of its fault (R395). -/
structure TrapInfo where
  cause : Cause
  access : Access := .none
  width : Nat := 0
  detail : Nat := 0
  addr : Word := 0
  code : BitVec 16 := 0
  data : Word := 0
  row : Nat := 0
  rows : Nat := 0
  deriving DecidableEq, Repr

/-- A register whose pending write the scoreboard watches (R22). A shape register and NTID are written with latency 1 (R119), so
no syllable of their strand can meet their pending write. -/
inductive Src where
  | s (n : Nat) | p (n : Nat) | b (n : Nat) | tile (n : Nat) | mask (n : Nat) | q (n : Nat) | flags
  deriving DecidableEq, Repr

/-- A numerical event class (R91). -/
inductive NClass where | SAT | FTZ | NAN
  deriving DecidableEq, Repr

/-- One update that a result makes when it is written (R20, R24). Tile keys are 4,096 t + byte, mask keys 4,096 k + 256 r
+ c. -/
inductive Upd where
  | sreg (n : Nat) (v : Word)
  | preg (n : Nat) (v : Bool)
  | btgt (n : Nat) (a : Word) (ready : Nat)
  | tile (cells : List (Nat × Byte))
  | mask (bits : List (Nat × BitVec 1))
  | shape (t : Nat) (v : BitVec 16)
  | flags (f : BitVec 6)
  | count (c : NClass) (tid : Nat) (n : Nat)
  | ntid (v : BitVec 8)
  | bind (q : Nat) (desc : Bytes)
  | renew (sc : Scope)
  | learn (c : Clock)
  deriving DecidableEq, Repr

/-- A fixed-latency result that has not been written yet (R20). due is the local cycle at whose start it is visible. -/
structure Pend where
  seq : Nat
  due : Nat
  upds : List Upd
  deriving DecidableEq, Repr

/-- What a variable-latency request asks for (R24). A tile request holds the tile bytes that it writes, and for a gather the address
of each byte's element (R129). -/
inductive Req where
  | load (d : Nat) (n : Nat) (sx : Bool)
  | atomic (id : Nat) (d : Nat)
  | tile (offs : List Nat) (elems : List Word)
  | sbind (q : Nat)
  | cpWait (d : Nat) (sc : Scope)
  | gjoin (d : Nat) (gid : Nat) (sc : Scope)
  | rangeNext (d : Nat) (c : Word)
  | wsetBind (d : Nat) (v : Word)
  | lifeAge (d : Nat) (g : Nat)
  deriving DecidableEq, Repr

/-- A claimed landing slot (R24). paddrs holds the physical address of each byte of the access in order; bound is the
strand's store number at issue; arriveAt the Hall cycle in which the data arrives, none while it is not fixed; far the bytes that other modules
have answered so far; image the bytes of other modules that the overlay image gave when they were asked for (R126). -/
structure Slot where
  seq : Nat
  due : Nat
  req : Req
  dests : List Src
  addr : Word
  paddrs : List Nat
  pc : Word
  word : Word
  bound : Nat
  arriveAt : Option Nat
  data : Option (List Upd)
  fault : Option TrapInfo
  depth : Nat
  replayed : Bool
  far : List Host.Cell := []
  image : List Host.Cell := []
  deriving DecidableEq, Repr

/-- A request recorded for replay (R121, R393; section TYPE 7 of R326). -/
structure Replay where
  word : Word
  addr : Word
  deriving DecidableEq, Repr

/-- A branch-target register (R112). ready is a Hall cycle. -/
structure BTgt where
  addr : Word
  prepared : Bool
  ready : Nat
  deriving DecidableEq, Repr

/-- How far the publication that the syllable at issue makes has come (R140): not begun, waiting for its acknowledgement,
waiting for those of the fabric's modules (R290), ended with a data fault, made. -/
inductive PubState where
  | idle
  | waiting (sc : Scope) (ackAt : Nat)
  | acking (fault : Option (Nat × TrapInfo))
  | failed (t : TrapInfo)
  | done
  deriving DecidableEq, Repr

/-- What the syllable at issue has already begun (R19: it is one syllable, and its strand is frozen meanwhile). -/
structure Wait where
  pub : PubState
  arrived : Bool
  stage : Nat
  until_ : Nat
  since : Option Nat
  deriving DecidableEq, Repr

/-- A marker of FENCE.MK (R141): the queue and the number of the last command ahead of it. -/
structure Marker where
  queue : Engine
  last : Nat
  clock : Clock := []
  deriving DecidableEq, Repr

/-- An STMR contribution not yet sent (R135); ty and fabric: the TYPE of its window when it issued, and whether it was a fabric's (R139). -/
structure Contribution where
  paddr : Nat
  width : Width
  value : Word
  ty : Nat
  fabric : Bool
  deriving DecidableEq, Repr

/-- For each strand of the Hall, the last of its stores that is known (R277, R279). -/
structure Seen where
  S : Nat
  L : Nat
  M : Nat
  V : Nat
  deriving DecidableEq, Repr

/-- The state of one strand (R11, R19, R24). renewals are those that wait until the reads before a place in program order have been performed
(R275); heard: the stores of each strand that happen before what the strand does next (R277); compared: how many of its stores the checker's
signature comparisons have covered (R337); fetched: the syllable at the program counter has been read (R416). -/
structure StrandState where
  s : Vector Word 64
  p : Vector Bool 8
  b : Vector BTgt 4
  pc : Word
  local_ : Nat
  issueFrom : Nat
  notBefore : Nat
  nflags : BitVec 6
  sbchk : Bool
  ntid : BitVec 8
  slots : List Slot
  pends : List Pend
  seq : Nat
  divFree : Nat
  portFree : Nat
  vecFree : Nat
  frozen : Bool
  wait : Wait
  stores : Nat
  seen : Seen
  stmrs : List Contribution
  heard : Seen
  hallPub : Nat
  hallDone : Nat
  lateAtomics : List Nat
  floor : List (Nat × Nat)
  lastRead : List (Nat × Nat)
  clock : Clock
  observed : List Nat
  markers : List Marker
  replay : List Replay
  lateFault : Option (Nat × TrapInfo)
  lateRenews : List (Scope × Clock)
  renewals : List (Nat × Scope)
  compared : Nat := 0
  fetched : Bool := false
  deriving DecidableEq, Repr

/-- A token in a queue, or one count of a Hall event. A token carries no data (R15); what stands here is the order that
its push makes: the stores of each strand that it makes visible (R279), those that happen before it, and the pusher's clock (R277). -/
structure Stamp where
  seen : Seen
  clock : Clock
  heard : Seen := { S := 0, L := 0, M := 0, V := 0 }
  deriving DecidableEq, Repr

/-- A Hall event (R17) and the order that its posts make (R277); next: the order of this Hall cycle's posts. -/
structure HEvent where
  count : Nat
  stamp : Stamp
  next : Stamp
  deriving DecidableEq, Repr

/-- A prefetched block of a stream, with its recorded fault (R149). -/
structure Block where
  bytes : Bytes
  fault : Option (Nat × TrapInfo)
  deriving DecidableEq, Repr

/-- A stream register (R30, R148, R151). -/
structure Stream where
  bound : Bool
  exh : Bool
  desc : Bytes
  fmt : Byte
  cursor : Nat
  buf : List Block
  deriving DecidableEq, Repr

/-- Format and packing factor of a weight bank (R32, R183). -/
structure Bank where
  fmt : Option MFmt
  sparse : Sparse
  deriving DecidableEq, Repr

/-- What a slice owns of its Hall and takes along when it moves (R220, R317). Weight keys are (128 b + k) 512 + j. -/
structure Work where
  S : StrandState
  L : StrandState
  V : StrandState
  M : StrandState
  tiles : SMap 8
  shapes : Vector (BitVec 16) 32
  masks : SMap 1
  streams : Vector Stream 8
  toks : Vector (List Stamp) 8
  evs : Vector HEvent 32
  weights : SMap 16
  banks : Vector Bank 2
  deriving DecidableEq, Repr

/-- An entry of the store overlay (R125, R344): a store until it is published beyond the Hall. drained is the number of
its version once it has drained into the overlay image; vas are the virtual addresses of its cells. -/
structure Store where
  n : Nat
  strand : Strand
  seq : Nat
  addr : Word
  width : Nat
  data : Word
  cells : List Host.Cell
  vas : List Nat
  covers : Bool
  tile : Bool
  depth : Nat
  drainAt : Nat
  drained : Option Nat
  scope : Scope
  performed : Bool
  clock : Clock := []
  deriving DecidableEq, Repr

/-- Registers that RGN.BEGIN snapshots for one strand (R231, R340). -/
structure SnapStrand where
  s : Vector Word 64
  p : Vector Bool 8
  b : Vector BTgt 4
  pc : Word
  seq : Nat
  deriving DecidableEq, Repr

/-- An undo record: a gallery line's previous bytes (R342). -/
structure Undo where
  paddr : Nat
  bytes : Bytes
  deriving DecidableEq, Repr

/-- A preserved tile (R231): its number, shape and bytes. -/
structure KeptTile where
  t : Nat
  shape : BitVec 16
  bytes : List (Nat × Byte)
  deriving DecidableEq, Repr

/-- A preserved accumulator row (R231): its number, its tag and its slots. -/
structure KeptRow where
  r : Nat
  tag : BitVec 13
  slots : List (Nat × BitVec 64)
  deriving DecidableEq, Repr

/-- An open recovery region (R231, R233, R340 to R350). fresh: it was opened in this Hall cycle, at whose end its snapshot is taken. -/
structure Region where
  S : SnapStrand
  L : SnapStrand
  M : SnapStrand
  V : SnapStrand
  toks : Vector (List Stamp) 8
  fresh : Bool
  retry : Nat
  ab : Bool
  cause : Byte
  tiles : List KeptTile
  rows : List KeptRow
  ranges : List (Nat × Nat)
  undo : List Undo
  reserved : Nat
  logFrom : Nat
  deriving DecidableEq, Repr

/-- An entry of the effect log (R346). -/
structure LogEntry where
  word : BitVec 52
  depth : Nat
  replay : Bool
  op1 : Word
  op2 : Word
  ret : Word
  deriving DecidableEq, Repr

/-- A launch packet (R296), decoded. addr fields hold the whole address. -/
structure Packet where
  prio : Nat
  deadlineKind : Bool
  restart : Bool
  kd : Word
  asid : Asid
  cb : Word
  budget : Nat
  lo : Word
  hi : Word
  rel : Bool
  args : List Word
  deriving DecidableEq, Repr

/-- A threshold register and its windows (R93): pos counts the Hall cycles since the slice's first one, from_ is the pos at which the
current window began. -/
structure Thresh where
  limit : BitVec 32
  win : BitVec 16
  act : Bool
  pos : Nat
  from_ : Nat
  count : Nat
  crossed : Bool
  deriving DecidableEq, Repr

/-- Membership of a slice in a group: identifier, phase of its last arrival, and whether it has arrived in the open
phase (R143 to R147). -/
structure Member where
  gid : Nat
  last : Option Nat
  deriving DecidableEq, Repr

/-- A copy command that stopped at a fault or a region end, with its progress (R200, R201). -/
structure StoppedCopy where
  kind : CopyKind
  src : Word
  dst : Word
  x : Word
  cw : Option Word
  follow : Option (Word × Word)
  cov : SMap 64
  deriving DecidableEq, Repr

/-- The program counters and the tokens that SLICE.END and its sync group find, put back when it meets a fault (R121, R393). -/
structure EndFrom where
  S : Word
  L : Word
  M : Word
  V : Word
  toks : Vector (List Stamp) 8
  deriving DecidableEq, Repr

/-- A detected error that waits (R351): the region to which it belongs, its engine code, and the failing syllable. -/
structure Held where
  depth : Nat
  code : Nat
  strand : Strand
  pc : Word
  deriving DecidableEq, Repr

/-- A slice (R33, R300): what it carries besides its Work. fills are accumulator rows that its restore is still to fill (R323), awayError is a
detected error of a command that ENQ.X has sent, found while the slice was on no Hall (R338, R339). -/
structure Slice where
  id : Nat
  asid : Asid
  part : PartId
  super : Bool
  supervisor : Bool
  packet : Packet
  raw : Bytes
  rank : Byte
  inst : Nat
  left : Nat
  lo : Word
  hi : Word
  late : Bool
  estimate : Option (Nat × Nat)
  ncfg : BitVec 64
  ntstat : BitVec 3
  thresh : Vector Thresh 3
  counters : SMap 32
  noteEn : Bool
  notePend : Bool
  noteCount : Byte
  retry : BitVec 4
  tileFmt : MFmt
  wsets : List (BitVec 32 × BitVec 32)
  groups : List Member
  regions : List Region
  log : List LogEntry
  logFill : Nat
  pubFault : Option (Strand × TrapInfo)
  hzUsed : Bool
  ending : Bool
  endFrom : Option EndFrom
  waitPred : Bool
  stoppedCopies : List StoppedCopy
  fills : List KeptRow
  awayError : Option Held := none
  deriving DecidableEq, Repr

/-- A command of the copy queue (R194 to R201). cw: the address of its completion word, if it has one; sent: ENQ.X delivered it (R224). -/
structure CopyCmd where
  id : Nat
  kind : CopyKind
  resume : Bool
  src : Word
  dst : Word
  x : Word
  cw : Option Word
  q : QCtl
  follow : Option (Word × Word)
  word : Word
  slice : Nat
  asid : Asid
  part : PartId
  super : Bool
  issuer : Option Strand
  issuePc : Word
  depth : Nat
  matchAt : Option Nat
  bad : Nat
  clock : Clock
  floor : List (Nat × Nat)
  sent : Bool := false
  deriving DecidableEq, Repr

/-- The copy in progress (R197). cov marks the 64-byte lines written in each row group, versions names those that the bursts
have made, nextAt is the Hall cycle of its next burst, and outcome the cursor, code and state of its completion word once it ends
early. -/
structure CopyRun where
  cmd : CopyCmd
  pos : Nat
  cov : SMap 64
  versions : List Nat
  stop : Bool
  entered : Bool
  asked : Bool
  nextAt : Nat
  outcome : Option (Nat × Nat × Nat)
  deriving DecidableEq, Repr

/-- One column of a pass before its accumulator is combined (R83, R85): the value, the flags of its sums, and whether an
operand is a NaN. -/
structure AccCol where
  bits : BitVec 64
  flags : BitVec 6
  nan : Bool
  deriving DecidableEq, Repr

/-- Accumulator rows that an MMA or MMA.S writes at the end of a Hall cycle (R187). -/
structure AccWrite where
  due : Nat
  row : Nat
  cols : List AccCol
  deriving DecidableEq, Repr

/-- A command of the matrix queue (R178). value is the scalar captured at issue, pages the physical address of each byte of its memory image, captured at issue
(R180), fmt the activation format in force at issue (R185), lost the fault of a translation that a thawed command cannot be given. While it is
performed: run holds its accumulator rows as it started (R179), staged the weights of a fill from tiles, versions those that its rows of a spill
have made; ftz and nan are the events to be charged when it completes; undo and pops are the rows and the stream blocks to be given back when an
earlier command fails, and exhSet tells that it has set EXH (R181). -/
structure MatCmd where
  id : Nat
  op : Instr
  word : Word
  value : Word
  pages : List Nat
  fmt : MFmt
  tid : Nat
  slice : Nat
  asid : Asid
  part : PartId
  super : Bool
  depth : Nat
  poster : HallId
  started : Option Nat
  endsAt : Nat
  fed : Nat
  lastFed : Nat
  rows : List AccWrite
  flags : BitVec 6
  posted : Bool
  lost : Option TrapInfo
  clock : Clock
  floor : List (Nat × Nat)
  pc : Word
  run : Option (Nat × Nat) := none
  staged : List (Nat × BitVec 16) := []
  versions : List Nat := []
  ftz : Nat := 0
  nan : Nat := 0
  undo : List KeptRow := []
  pops : Nat := 0
  exhSet : Bool := false
  deriving DecidableEq, Repr

/-- Kinds of Hazel commands (R237). -/
inductive HzKind where | pool | root | desc | expand | back | sweep | read
  deriving DecidableEq, Repr

/-- A command of the Hazel queue (R236). sent: ENQ.X delivered it (R224); back: it has come back with its slice; unbound: the descriptor that the
engine has re-read before it fails R364 (R379). -/
structure HzCmd where
  id : Nat
  kind : HzKind
  va : Word
  vb : Word
  vx : Word
  cw : Option Word
  q : QCtl
  word : Word
  slice : Nat
  asid : Asid
  part : PartId
  super : Bool
  issuer : Option Strand
  issuePc : Word
  depth : Nat
  matchAt : Option Nat
  bad : Nat
  clock : Clock
  floor : List (Nat × Nat)
  sent : Bool := false
  back : Bool := false
  unbound : Bool := false
  deriving DecidableEq, Repr

/-- The pool that a Hall's Hazel engine is bound to (R365). -/
structure HzPool where
  desc : Word
  nodes : Word
  cap : Nat
  free : Word
  c : BitVec 32
  vloss : BitVec 32
  fpu : BitVec 32
  q824 : Bool
  alt : Bool
  deriving DecidableEq, Repr

/-- Where a Hazel command stands between two of its router atomics (R236, R363): descents carry their slot and path, an
expansion its child count and first child, a backup the nodes still to be updated and the distance from the leaf. -/
inductive HzStep where
  | begin
  | visit (slot : Nat) (path : List Nat) (n : Nat)
  | look (slot : Nat) (path : List Nat)
  | child (slot : Nat) (path : List Nat) (base k i : Nat) (seen : List (Nat × Bytes))
  | pend (slot : Nat) (path : List Nat)
  | record (slot : Nat) (path : List Nat) (kind : Nat)
  | collide (slot : Nat)
  | alloc (k : Nat)
  | pop (k c : Nat)
  | write (base k i : Nat) (spare : List (Nat × Nat))
  | link (base k : Nat)
  | flag (base : Nat)
  | clear (code : Nat)
  | addN (nodes : List Nat) (up : Nat) (dup : Bool)
  | addW (nodes : List Nat) (up : Nat) (dup : Bool)
  | addV (nodes : List Nat) (up : Nat) (dup : Bool)
  | mark (todo seen : List Nat)
  | kids (n : Nat) (todo seen : List Nat)
  | orphan
  | setRoot
  | scan (n root bump freed : Nat)
  | push (n root bump freed : Nat) (pieces : List (Nat × Nat))
  | copy (i : Nat)
  | done (cur : Nat)
  | fail (code : Nat)
  deriving DecidableEq, Repr

/-- The Hazel command in progress: its next action is made in Hall cycle nextAt. pool is the pool to which the engine was bound when it started
(R379); asked: its publication to other modules has been sent (R290). -/
structure HzRun where
  cmd : HzCmd
  step : HzStep
  nextAt : Nat
  pool : Option HzPool := none
  asked : Bool := false
  deriving DecidableEq, Repr

/-- A router atomic on its way to its home (R131, R132); tag: that of its message to another module. -/
structure Atomic where
  id : Nat
  h : HallId
  strand : Strand
  slice : Nat
  op : Option AmoOp
  width : Width
  paddrs : List Nat
  vaddr : Word
  operand : Word
  comparand : Word
  order : Order
  scope : Scope
  slot : Option Nat
  after : Nat
  performAt : Nat
  late : Bool
  matchAt : Option Nat
  bad : Nat
  depth : Nat
  word : Word
  pc : Word
  asid : Asid
  super : Bool
  clock : Clock
  tag : Nat
  fabric : Bool
  deriving DecidableEq, Repr

/-- A version of a memory line (R273). cells are the bytes the write changed, olds what the home held there before it;
home tells whether the write reached the home (false: a store drained into a Hall's overlay image). num is the writer's
store number for a strand's own store; fab is the fabric group of its writer (R272), alone an atomic's scope STRAND (R284). -/
structure Version where
  id : Nat
  line : Nat
  cells : List Host.Cell
  olds : List Host.Cell
  home : Bool
  agent : Agent
  hall : HallId
  asid : Asid
  scope : Scope
  pub : Option Nat
  num : Nat
  rmw : Bool
  rel : Bool
  clock : Clock
  fab : BitVec 16 := 0
  alone : Bool := false
  deriving DecidableEq, Repr

/-- Lifetime state of a row group (R244). owner is the ASID plus one, 0 for none. held: captured for a save (R265). -/
structure RowGroup where
  age : Nat
  cls : LifeClass
  pol : LifePolicy
  valid : Bool
  req : Bool
  owner : Nat
  held : Bool
  deriving DecidableEq, Repr

/-- What a ready record names (R303). -/
inductive Work? where
  | fresh (p : Packet) (raw : Bytes) (rank : Byte) (inst : Nat)
  | saved (slice : Nat)
  deriving DecidableEq, Repr

/-- A ready record (R303). Bulk records stand in the Hall's list from the owner end to the thief end. late: its deadline's
interrupt has been raised (R304). -/
structure Ready where
  what : Work?
  prio : Nat
  deadline : Option Nat
  seq : Nat
  atThief : Bool
  late : Bool
  deriving DecidableEq, Repr

/-- A spilled entry of a partition's ring, as the Concourse finds it again (R310). -/
structure Spilled where
  at_ : Nat
  n : Nat
  hall : HallId
  rec_ : Ready
  taken : Bool
  deriving DecidableEq, Repr

/-- Pre-emption policies (R313). -/
inductive Policy where | drain | checkpoint | kill
  deriving DecidableEq, Repr

/-- A pre-emption pending at a Hall (R313, R314). asked: the supervisor is to decide. left: what is left of the
checkpoint window, in ticks, at lastTick. -/
structure Preempt where
  policy : Policy
  asked : Bool
  left : Nat
  lastTick : Nat
  deriving DecidableEq, Repr

/-- A slice stopped for a trap whose record is being made or waits (R392, R394). told: the host knows that it waits. -/
structure Trapped where
  strand : Strand
  info : TrapInfo
  cycle : Nat
  complete : Bool
  queued : Bool
  told : Bool
  held : Option Held
  deriving DecidableEq, Repr

/-- A rollback in progress (R349, R351): the depth of its target, the engine code, whether it is RGN.ABORT, whether its
steps 3 to 5 have been made, the Hall cycle before which the strands resume, the one in which the error was found, and an
error held until it ends. -/
structure Rollback where
  target : Nat
  code : Nat
  abort : Bool
  applied : Bool
  endsAt : Nat
  found : Nat
  held : Option Held
  deriving DecidableEq, Repr

/-- A cached range entry (R384, R387): the part of the range that no earlier entry covers; off is the offset of vbase in
the range. -/
structure RangeEnt where
  asid : Asid
  vbase : Nat
  vend : Nat
  pbase : Nat
  off : Nat
  r : Bool
  w : Bool
  x : Bool
  wset : Option (BitVec 32)
  deriving DecidableEq, Repr

/-- A cached page translation (R385, R387): the part of the page that no range covers, and the physical address of its
first byte. -/
structure PageEnt where
  asid : Asid
  vbase : Nat
  vend : Nat
  pbase : Nat
  r : Bool
  w : Bool
  x : Bool
  deriving DecidableEq, Repr

/-- An engine post that waits for the end of the Hall cycle, or for room (R118). dest: the Hall whose event it is, when it is another than the
engine's (R192); held: it has not fitted. -/
structure Post where
  dest : Option HallId := none
  held : Bool := false
  ev : Nat
  queue : Option Engine
  cmd : Nat
  stamp : Stamp
  deriving DecidableEq, Repr

/-- Where a Hall stands inside its cycle (the model's own, log 1). -/
inductive Phase where | start | engines | strand (st : Strand) | finish
  deriving DecidableEq, Repr

/-- How a slice leaves its Hall: at a checkpoint, by a full save, by SLICE.YIELD, by FREEZE (R315, R216, R324), killed
(R320), or terminated by the supervisor (R396). -/
inductive Leave where | checkpoint | full | yield | freeze | kill | term
  deriving DecidableEq, Repr

/-- A saved row group (R330). -/
structure SavedRow where
  local_ : Nat
  rg : RowGroup
  bytes : List (Nat × Byte)
  poison : List Nat
  whole : Bool
  deriving DecidableEq, Repr

/-- A slice on its way off its Hall. captured: its strands have stopped and its slots have drained (R265). from_: the Hall
cycle in which it began; told: an event has reported that it finds no place (R311, R314). The rest is the live-range table of a
checkpoint (R221), gallery what the capture has kept of the row groups (R265), and read: their contents have been read, and they are held no
longer; aged counts the age steps of the gallery meanwhile. -/
structure SwitchOut where
  how : Leave
  from_ : Nat
  captured : Bool
  rows : List Nat
  tiles : BitVec 32
  ranges : List (Nat × Nat)
  told : Bool
  gallery : List SavedRow := []
  read : Bool := false
  aged : Nat := 0
  deriving DecidableEq, Repr

/-- How far the restore of a saved slice has come (R323): none under way, before its fills, filling until a Hall cycle. -/
inductive Restore where
  | off
  | begin
  | filling (till : Nat)
  deriving DecidableEq, Repr

/-- A walk that ended in a fault, as its requesters find it in the next Hall cycle (R388). -/
structure WalkFault where
  asid : Asid
  key : Nat
  info : TrapInfo
  cycle : Nat
  deriving DecidableEq, Repr

/-- One Hall (R11). sampledCq, sampledMq and sampledHq are the commands that its engine queues held at the start of the Hall cycle (R16).
tileWrites are the tile bytes that its engines wrote in the cycle, made after all strand writes (R158). readings counts the readings of its
sensor (R250). rebind: the descriptor that the engine is to re-read for a slice that has come back (R379), 1 for an unbound engine;
hzEntered: an HZ.POOL has entered the queue since a slice last started here (R236). cpRead, mxRead and hzRead are the versions that the engines have last read (R285, R279 condition 4). -/
structure Hall where
  part : Option PartId
  cycle : Nat
  nextTick : Nat
  phase : Phase
  slice : Option Slice
  work : Work
  lastAsid : Option Asid
  acc : SMap 64
  accTag : SMap 13
  mq : List MatCmd
  mqNext : Nat
  issued : Vector Bank 2
  mErr : Nat
  mDisc : Nat
  mFault : Option TrapInfo
  arrayFree : Nat
  cq : List CopyCmd
  copy : Option CopyRun
  cqNext : Nat
  hq : List HzCmd
  hz : Option HzRun
  hqNext : Nat
  pool : Option HzPool
  poolAddr : Word
  rebind : Option Word
  hzEntered : Bool
  cpClock : Clock
  mxClock : Clock
  hzClock : Clock
  cpRead : List (Nat × Nat)
  mxRead : List (Nat × Nat)
  hzRead : List (Nat × Nat)
  posts : List Post
  sampledEv : Vector Nat 32
  sampledTok : Vector Nat 8
  sampledCq : Nat
  sampledMq : Nat
  sampledHq : Nat
  csrWrites : List (Strand × Nat × Word)
  tileWrites : List (Nat × Byte)
  takes : Vector Nat 32
  postsNow : Vector Nat 32
  overlay : List Store
  storeNo : Nat
  syncGo : Bool
  syncTried : Bool
  errKind : BitVec 2
  errAfter : Nat
  errCount : Nat
  errHit : Bool
  poolSize : Nat
  poolAge : Nat
  poolReq : Bool
  corrected : Nat
  boostReq : Level
  boostFrom : Nat
  boostGrant : BitVec 2
  boostPermits : Nat
  busyRows : Nat
  band : Nat
  tempC : Byte
  auto : Bool
  firstRead : Bool
  ageAcc : Nat
  ageTick : Nat
  readings : Nat
  noBeat : Nat
  sweeping : Option Nat
  sinceSweep : Nat
  rejoin : Bool
  wipeEnds : Option Nat
  deque : List Ready
  recSeq : Nat
  stealAt : Option Nat
  stealIdx : Nat
  asking : Bool
  preempt : Option Preempt
  trap : Option Trapped
  back : Option Rollback
  switch : Option SwitchOut
  ranges : List RangeEnt
  pages : List PageEnt
  walkFaults : List WalkFault
  levelTicks : Nat
  restore : Restore
  deriving DecidableEq, Repr

/-- A walk in progress or held (R387, R388, R390). -/
structure Walk where
  id : Nat
  asid : Asid
  part : PartId
  addr : Nat
  halls : List HallId
  endsAt : Option Nat
  hold : Option Nat
  engine : Bool
  failed : Option TrapInfo
  deriving DecidableEq, Repr

/-- A queued trap record (R394, R395): the eight registers. -/
structure TrapRec where
  cause : Word
  pcs : Vector Word 4
  addr : Word
  info : Word
  ctx : Word
  hall : HallId
  deriving DecidableEq, Repr

/-- A host-assisted event (R400). -/
structure HostEvent where
  kind : Nat
  hall : Nat
  asid : Nat
  tag : Nat
  pol : Nat
  detail : Nat
  arg : Word
  deriving DecidableEq, Repr

/-- An invalidation in progress (R389): its ASID and WHAT, the walks that began before it, the queued matrix commands
that hold a translation captured before it, and the doublewords of the context's record that it makes effective. -/
structure Xinv where
  asid : Asid
  what : BitVec 2
  walks : Nat
  cmds : List (HallId × Nat)
  recs : SMap 64
  deriving DecidableEq, Repr

/-- A partition and its control window; ctxUsed: the context records in force (R383); owed: posts to its supervisor slice that wait for one to start (R398);
waiting: records of the device's own for which no place was left (log 18) (R302, R309, R313, R383, R389, R390, R400, R412, R413, R416). -/
structure Part where
  present : Bool
  halls : BitVec 256
  hbm : BitVec 64
  asids : BitVec 4096
  mode : BitVec 5
  drain : BitVec 32
  ckwin : BitVec 16
  pmin : BitVec 4
  saveBase : Word
  saveSize : Word
  backed : List (Nat × Nat)
  spillBase : Word
  spillHead : Word
  spillTail : Word
  spilled : List Spilled
  xinv : Option Xinv
  evq : List HostEvent
  evarg : Word
  migcfg : BitVec 17
  hotmap : Word
  arq : Word
  arTail : BitVec 32
  arHead : BitVec 32
  fabGroup : BitVec 16
  fabNmod : BitVec 7
  fabIndex : BitVec 6
  routes : Vector Word 64
  ctxRecs : SMap 64
  ctxUsed : SMap 64
  mrDescs : SMap 64
  mrOff : List Nat
  barTmo : BitVec 32
  trapq : List TrapRec
  open_ : Option TrapRec
  pcs : Vector Word 4
  trapAct : BitVec 3
  supSlice : Option Nat
  supStopped : Bool
  owed : List Nat
  waiting : List (HallId × Ready)
  nextTag : Nat
  deriving DecidableEq, Repr

/-- A FREEZE in progress (R227, R324). at_: the device time of its capture instant, once every slice of the context has stopped. -/
structure Freeze where
  cw : Word
  buf : Word
  part : PartId
  by_ : Asid
  hall : HallId
  at_ : Option Nat := none
  deriving DecidableEq, Repr

/-- What the device keeps for a context outside its record (R229, R255, R324, R331). -/
structure Ctx where
  asid : Asid
  notices : Byte
  freezing : Option Freeze
  frozen : Bool
  tracking : Bool
  bitmap : Word
  bitmapBy : Asid
  dirty : List Nat
  deriving DecidableEq, Repr

/-- A weight-set version descriptor (R418). -/
structure WSet where
  set : BitVec 32
  version : BitVec 32
  hbase : Word
  hlen : Word
  ubase : Word
  len : Word
  parts : BitVec 16
  state : Nat
  binds : Nat
  shardsAt : Word
  shards : List (Word × Word × Nat)
  deriving DecidableEq, Repr

/-- A power domain (R427, R428). -/
structure Domain where
  permits : Nat
  last : Option Nat
  idle : Nat
  deriving DecidableEq, Repr

/-- A contribution to a multicast-reduce round (R138, R139). -/
structure MrPart where
  member : Nat
  hall : Nat
  seq : Nat
  value : Word
  deriving DecidableEq, Repr

/-- An open round (R138): the values with which it opened. -/
structure Round where
  part : PartId
  addr : Nat
  ty : Nat
  count : Nat
  dest : Nat
  members : BitVec 256
  fabric : Bool
  parts : List MrPart
  clock : Clock
  deriving DecidableEq, Repr

/-- A contribution on its way to the switch (R135, R138). -/
structure MrSend where
  part : PartId
  paddr : Nat
  hall : HallId
  value : Word
  ty : Nat
  fabric : Bool
  clock : Clock
  deriving DecidableEq, Repr

/-- A member of a group (R143). -/
structure GMember where
  slice : Nat
  index : Nat
  hall : HallId
  from_ : Nat
  arrived : Bool
  absent : Bool
  deriving DecidableEq, Repr

/-- A group and its barrier (R143 to R147, R290). home: this module keeps it; otherwise homeAt is the member that does. -/
structure Group where
  asid : Asid
  gid : Nat
  scope : Scope
  members : List GMember
  phase : Nat
  expected : Nat
  arrivals : Nat
  stamp : Clock
  prev : Clock
  creatorHall : HallId
  home : Bool
  homeAt : Nat
  deriving DecidableEq, Repr

/-- A launch instance (R301, R312). due: it delivered no slice, and so ended at once; its successor is still to be released. -/
structure Inst where
  id : Nat
  live : Nat
  asid : Asid
  part : PartId
  succ : Word
  released : Bool
  wants : Bool
  pred : Option Nat
  ended : Bool
  start : Clock
  stamp : Clock
  due : Bool := false
  deriving DecidableEq, Repr

/-- A switched-out slice (R315, R316, R317, R322). area is the save area's address in the supervisor's space, accAt the
offset of its accumulator section. -/
structure Saved where
  slice : Slice
  work : Work
  full : Bool
  tiles : BitVec 32
  rows : List Nat
  present : List Nat
  acc : SMap 64
  gallery : List SavedRow
  stores : List Store
  cq : List CopyCmd
  mq : List MatCmd
  hq : List HzCmd
  pool : Word
  mFault : Option TrapInfo
  hall : HallId
  area : Word
  areaLen : Nat
  accAt : Nat
  deriving DecidableEq, Repr

/-- Accumulator rows of a thawed context that are filled when its first slice starts on a Hall (R333). -/
structure Thawed where
  hall : HallId
  asid : Asid
  rows : List KeptRow
  deriving DecidableEq, Repr

/-- Life-cycle states (R264, R422). -/
inductive Life where | MANUFACTURE | PROVISIONED | DEPLOYED | RETURNED
  deriving DecidableEq, Repr

/-- A message on its way out (R405, R413): the module it goes to, none for the host, and the ports that it may take. names: what the interrupt that it
is names, where its payload has no byte for it: the class of a crossing (0 SAT, 1 FTZ, 2 NAN), the row group of a retention loss (R94, R261; log 24). -/
structure Sent where
  dst : Option (BitVec 16)
  ports : BitVec 12
  msg : Instr
  names : Option Nat := none
  deriving DecidableEq, Repr

/-- A message that a port has sent (R405, R408): the flits for which no credit has come back, its first SEQ, and its CREDIT field. -/
structure Outgoing where
  what : Sent
  flits : Nat
  seq : BitVec 16
  credit : BitVec 16
  deriving DecidableEq, Repr

/-- A bulk train of which continuation flits are still to come (R405, R407). -/
structure Train where
  src : BitVec 16
  tag : BitVec 16
  left : Nat
  data : Bytes
  deriving DecidableEq, Repr

/-- A management message whose body goes on in bulk data (R410). -/
structure LongBody where
  tag : BitVec 16
  sub : Nat
  seq : Word
  len : Nat
  body : Bytes
  deriving DecidableEq, Repr

/-- A Hirothlink port (R404, R405, R408). Channels: 0 request, 1 response, 2 bulk. unacked: its replay buffer; rx: the flits that have arrived, oldest
first, in its buffer; tx: those that it has put on the link since it last looked for something to send; train: the bulk train that is arriving; owed: the
credits of each channel that it has to return. -/
structure Port where
  lanes : Nat
  credits : List Nat
  seqOut : BitVec 16
  seqIn : BitVec 16
  unacked : List Outgoing
  discarded : Nat
  downAt : Option Nat
  rx : List Bytes
  tx : List Bytes
  train : Option Train
  owed : List Nat
  deriving DecidableEq, Repr

/-- A bulk transfer in progress (R407, R409). -/
structure Bulk where
  tag : BitVec 16
  addr : Nat
  left : Nat
  write : Bool
  part : PartId
  deriving DecidableEq, Repr

/-- A fabric access waiting for its response (R406, R414): a strand's load (in its slot), atomic or store, or an engine's write. info is
what a trap record says of its access, after the strand's stores up to it, addrs the bytes that a load has asked for. -/
structure FabReq where
  tag : Nat
  member : Nat
  hall : HallId
  strand : Strand
  slot : Option Nat
  atomic : Bool
  engine : Option (Engine × Nat)
  after : Nat
  info : TrapInfo
  addrs : List Nat := []
  deriving DecidableEq, Repr

/-- A byte of another module that an engine's command has read, or asked for (none) (R197, R409); bad: the engine code of
the fault met there, 0 for none, and why its fault as the member's response gave it. -/
structure FarCell where
  hall : HallId
  engine : Engine
  cmd : Nat
  addr : Nat
  tag : Nat
  byte : Option Byte
  bad : Nat
  why : Option TrapInfo := none
  deriving DecidableEq, Repr

/-- A fabric publication waiting for the acknowledgement of one module (R290, R409); upTo: the publications made before it. -/
structure FabPub where
  module_ : BitVec 16
  no : Word
  hall : HallId
  strand : Strand
  engine : Option Engine
  upTo : Nat := 0
  deriving DecidableEq, Repr

/-- Another module as a reader of this one's memory (R278, R279): the versions that it must not fall behind, and those that it has read. -/
structure FarReader where
  module_ : BitVec 16
  floor : List (Nat × Nat)
  last : List (Nat × Nat)
  clock : Clock := []
  deriving DecidableEq, Repr

/-- An off-die line as it is stored (R356): its number, its cipher text, its check field. -/
structure StoredLine where
  line : Nat
  cipher : Bytes
  check : BitVec 64
  deriving DecidableEq, Repr

/-- What a CKALL has written to the safe tier (R420): its destination and base, the off-die lines that are not as a wipe leaves them, the bytes of
the galleries, and all write counts and lifetime states. keys and lineKeys name the keys of that moment; flaws are gallery words with a bit
changed, by changes. -/
structure SafeCopy where
  dest : BitVec 16
  base : Word
  lines : List StoredLine
  cells : List Host.Cell
  rowGroups : List (Nat × RowGroup)
  poison : List Nat
  flaws : List Nat
  changes : List (Nat × BitVec 576)
  writeCounts : SMap 64
  lineKeys : SMap 64
  keys : Vector Nat 16
  deriving DecidableEq, Repr

/-- The whole module (R1). changes: the stored bits of the words and lines of flaws and bad that have changed (R262, R357); lineKeys: the number of
the keys under which a line of the undercroft was last written (R425). -/
structure State where
  tick : Nat
  curHall : HallId
  curStrand : Strand
  curWord : Word
  issued : Bool
  trapped : Bool
  target : Option Word
  mem : List Host.Cell
  hist : List Version
  vers : Nat
  pubs : Nat
  free : Nat
  rowGroups : List (Nat × RowGroup)
  poison : List Nat
  bad : List Nat
  flaws : List Nat
  changes : List (Nat × BitVec 576)
  lineKeys : SMap 64
  corrections : Nat
  halls : Vector Hall 256
  writeCounts : SMap 64
  sectors : SMap 16
  halveAt : Nat
  parts : Vector Part 16
  ctxs : List Ctx
  wsets : Vector WSet 256
  domains : Vector Domain 32
  boostAt : Vector Nat 32
  rounds : List Round
  sends : List MrSend
  mrSeqs : SMap 64
  atomics : List Atomic
  nextAtomic : Nat
  walks : List Walk
  nextWalk : Nat
  groups : List Group
  insts : List Inst
  nextInst : Nat
  nextSlice : Nat
  saved : List Saved
  thawed : List Thawed
  frozenIvs : List Bytes
  life : Life
  measure : Bytes
  running : Bool
  operatorDigest : Bytes
  fleetSecret : Bytes
  imageKeys : List (Bytes × Bytes)
  keyNonce : Bytes
  peerNonce : Bytes
  partKeys : Vector Nat 16
  nextKey : Nat
  mgmtSeq : Word
  modid : BitVec 16
  ports : Vector Port 12
  bulks : List Bulk
  fabReqs : List FabReq
  nextTag : Nat
  pubNos : SMap 64
  mrTags : List (BitVec 16 × PartId × Nat)
  fabPubs : List FabPub
  farReaders : List FarReader
  farCells : List FarCell
  inbox : List (Nat × Instr)
  outbox : List Sent
  longBodies : List LongBody
  vectors : BitVec 17
  safeTier : List SafeCopy
  deriving DecidableEq, Repr

/-- The row group after a wipe (R264). -/
def RowGroup.wiped : RowGroup :=
  { age := 0, cls := .E4, pol := .EXPIRE, valid := false, req := false, owner := 0, held := false }

/-- No order is carried (R277). -/
def Stamp.empty : Stamp := { seen := { S := 0, L := 0, M := 0, V := 0 }, clock := [] }

/-- No publication, no stage begun. -/
def Wait.none : Wait := { pub := .idle, arrived := false, stage := 0, until_ := 0, since := .none }

/-- A strand as a fresh slice finds it (R300), with PC and registers zero: also its value at device reset (log 3). -/
def StrandState.fresh : StrandState :=
  { s := Vector.replicate 64 0, p := Vector.replicate 8 false,
    b := Vector.replicate 4 { addr := 0, prepared := false, ready := 0 },
    pc := 0, local_ := 0, issueFrom := 0, notBefore := 0, nflags := 0, sbchk := false, ntid := 0,
    slots := [], pends := [], seq := 0, divFree := 0, portFree := 0, vecFree := 0, frozen := false,
    wait := Wait.none, stores := 0, seen := { S := 0, L := 0, M := 0, V := 0 }, stmrs := [], heard := { S := 0, L := 0, M := 0, V := 0 }, hallPub := 0, hallDone := 0, lateAtomics := [], floor := [], lastRead := [], clock := [],
    observed := [], markers := [], replay := [], lateFault := .none, lateRenews := [], renewals := [] }

/-- An unbound stream (R151). -/
def Stream.unbound : Stream := { bound := false, exh := false, desc := [], fmt := 0, cursor := 0, buf := [] }

/-- A bank with no format (R32). -/
def Bank.none : Bank := { fmt := .none, sparse := .N128 }

/-- The reset shape: WIDTH 10, ROWS 1111, COLS 0x3F (R27). -/
def resetShape : BitVec 16 := 0x3F3E

/-- The slice-owned state of a Hall at reset (R27, R28, R32; tiles and masks zero: log 3). -/
def Work.fresh : Work :=
  { S := .fresh, L := .fresh, V := .fresh, M := .fresh, tiles := [], shapes := Vector.replicate 32 resetShape, masks := [],
    streams := Vector.replicate 8 .unbound, toks := Vector.replicate 8 [],
    evs := Vector.replicate 32 { count := 0, stamp := .empty, next := .empty }, weights := [], banks := Vector.replicate 2 .none }

/-- A Hall at device reset: every accumulator row zero (DESIGN CHOICE: R31 gives the tags only, log 35), no partition, no slice, TEMP.BAND 15 (R250), RGN.POOL.SIZE 16 (R343), ERRINJ off (R210),
BOOST.STAT at nominal with 64 permits (R209, R401: interval 0), background zeroing of its gallery under way (R264: 2 ms). -/
def Hall.reset : Hall :=
  { part := .none, cycle := 0, nextTick := 0, phase := .start, slice := .none, work := .fresh, lastAsid := .none,
    acc := [], accTag := [], mq := [], mqNext := 0, issued := Vector.replicate 2 .none, mErr := 0, mDisc := 0, mFault := .none,
    arrayFree := 0, cq := [], copy := .none, cqNext := 0, hq := [], hz := .none, hqNext := 0, pool := .none,
    poolAddr := 0, rebind := .none, hzEntered := false, cpClock := [], mxClock := [], hzClock := [], cpRead := [], mxRead := [], hzRead := [], posts := [], sampledEv := Vector.replicate 32 0, sampledTok := Vector.replicate 8 0, sampledCq := 0, sampledMq := 0,
    sampledHq := 0, csrWrites := [], tileWrites := [],
    takes := Vector.replicate 32 0, postsNow := Vector.replicate 32 0, overlay := [], storeNo := 0, syncGo := false, syncTried := false, errKind := 0, errAfter := 0, errCount := 0, errHit := false,
    poolSize := 16, poolAge := 0, poolReq := false, corrected := 0, boostReq := .nominal, boostFrom := 0, boostGrant := 0, boostPermits := 64,
    busyRows := 0, band := 15, tempC := 0, auto := false, firstRead := false, ageAcc := 0, ageTick := 0, readings := 0, noBeat := 0,
    sweeping := .none, sinceSweep := 0, rejoin := false, wipeEnds := some 11088000000, deque := [], recSeq := 0,
    stealAt := some 0, stealIdx := 0, asking := false, preempt := .none, trap := .none, back := .none, switch := .none, ranges := [],
    pages := [], walkFaults := [], levelTicks := 3960, restore := .off }

/-- A partition before the host has assigned anything to it, its control registers at their reset values (R147, R302,
R309, R412, R413, R416). -/
def Part.reset : Part :=
  { present := false, halls := 0, hbm := 0, asids := 0, mode := 2, drain := 10000, ckwin := 200, pmin := 1,
    saveBase := 0, saveSize := 0, backed := [], spillBase := 0, spillHead := 0, spillTail := 0, spilled := [],
    xinv := .none, evq := [], evarg := 0, migcfg := 0xFFFF, hotmap := 0, arq := 0, arTail := 0, arHead := 0,
    fabGroup := 0, fabNmod := 0, fabIndex := 0, routes := Vector.replicate 64 0, ctxRecs := [], ctxUsed := [], mrDescs := [],
    mrOff := [], barTmo := 10000, trapq := [], open_ := .none, pcs := Vector.replicate 4 0, trapAct := 0, supSlice := .none,
    supStopped := false, owed := [], waiting := [], nextTag := 0 }

/-- A weight-set descriptor that is free (R418). -/
def WSet.free : WSet :=
  { set := 0, version := 0, hbase := 0, hlen := 0, ubase := 0, len := 0, parts := 0, state := 0, binds := 0, shardsAt := 0, shards := [] }

/-- A port that has not trained (R404, R408). -/
def Port.down : Port :=
  { lanes := 0, credits := [0, 0, 0], seqOut := 0, seqIn := 0, unacked := [], discarded := 0, downAt := some 0, rx := [], tx := []
    train := none, owed := [0, 0, 0] }

/-- The module right after device reset (R4, R264, R421, R425): device time 0, every memory wiped, no slice anywhere. -/
def State.reset : State :=
  { tick := 0, curHall := 0, curStrand := .S, curWord := 0, issued := false, trapped := false, target := .none,
    mem := [], hist := [], vers := 0, pubs := 0, free := 0, rowGroups := [], poison := [], bad := [], flaws := [], changes := [], lineKeys := [], corrections := 0,
    halls := Vector.replicate 256 .reset, writeCounts := [], sectors := [], halveAt := 5544000000,
    parts := Vector.replicate 16 .reset, ctxs := [], wsets := Vector.replicate 256 .free,
    domains := Vector.replicate 32 { permits := 64, last := .none, idle := 0 }, boostAt := Vector.replicate 32 27720000,
    rounds := [], sends := [], mrSeqs := [], atomics := [], nextAtomic := 0, walks := [], nextWalk := 0, groups := [], insts := [],
    nextInst := 1, nextSlice := 0, saved := [], thawed := [], frozenIvs := [], life := .MANUFACTURE, measure := [], running := false,
    operatorDigest := [], fleetSecret := [], imageKeys := [], keyNonce := [], peerNonce := [],
    partKeys := Vector.replicate 16 0, nextKey := 0, mgmtSeq := 0, modid := 0, ports := Vector.replicate 12 .down,
    bulks := [], fabReqs := [], nextTag := 0, pubNos := [], mrTags := [], fabPubs := [], farReaders := [], farCells := [], inbox := [], outbox := [], longBodies := [], vectors := 0,
    safeTier := [] }

end Sys2Proof.Machine
end

