-- ==== Sys2Proof/Machine/Sparse.lean ====
section
/-! DEFINITION. Sparse tables in one canonical form: keys strictly rising, no entry zero. Memory (R7, R35) is the table of
bytes; the other large stores of a Hall use the same form. -/

namespace Sys2Proof.Machine

/-- What a key reads: its entry, or zero when it is not listed. -/
def sget {w : Nat} : SMap w → Nat → BitVec w
  | [], _ => 0
  | (a, v) :: t, k => if a = k then v else sget t k

/-- Write one key. Writing zero removes its entries, so equal tables are equal lists; whatever the table, the key then reads
as written and every other key as before. -/
def sset {w : Nat} : SMap w → Nat → BitVec w → SMap w
  | [], k, v => if v = 0 then [] else [(k, v)]
  | (a, x) :: t, k, v =>
    if a < k then (a, x) :: sset t k v
    else if v = 0 then ((a, x) :: t).filter fun c => c.1 != k
    else if a = k then (k, v) :: t
    else (k, v) :: (a, x) :: t

/-- Write a list of cells in order. -/
def ssetAll {w : Nat} (m : SMap w) (cs : List (Nat × BitVec w)) : SMap w := cs.foldl (fun m c => sset m c.1 c.2) m

/-- Keep the entries whose key passes a test. -/
def sfilter {w : Nat} (p : Nat → Bool) (m : SMap w) : SMap w := m.filter fun c => p c.1

/-- The canonical form. -/
def swf {w : Nat} : SMap w → Bool
  | [] => true
  | (a, v) :: t => v != 0 && (t.all fun c => a < c.1) && swf t

/-- Memory: what an unlisted address reads is 0, the value that wiping leaves (R264, R425). -/
abbrev Memory := List Host.Cell

/-- One byte of memory. -/
def Memory.byte (m : Memory) (a : Nat) : Byte := sget (w := 8) m a
/-- Write cells to memory. -/
def Memory.write (m : Memory) (cs : List Host.Cell) : Memory := ssetAll (w := 8) m cs
/-- The canonical form of a memory. -/
def Memory.wf (m : Memory) : Bool := swf (w := 8) m

/-- A little-endian value of bytes (R7). -/
def leNat : Bytes → Nat
  | [] => 0
  | b :: t => b.toNat + 256 * leNat t

/-- The n bytes of a value, lowest first (R7). -/
def leBytes : Nat → Nat → Bytes
  | 0, _ => []
  | n + 1, v => BitVec.ofNat 8 v :: leBytes n (v / 256)

/-- Zero bytes. -/
def zeros (n : Nat) : Bytes := List.replicate n 0
/-- Bytes cut or filled with zeros to a length. -/
def fitTo (n : Nat) (bs : Bytes) : Bytes := bs.take n ++ zeros (n - bs.length)

/-- Cells of a run of bytes from an address. -/
def cellsAt (a : Nat) (bs : Bytes) : List Host.Cell := bs.mapIdx fun i b => (a + i, b)

/-- The addresses of a run. -/
def runFrom (a n : Nat) : List Nat := (List.range n).map (a + ·)

end Sys2Proof.Machine
end

