-- ==== Sys2Proof/Machine/Crypto.lean ====
section
/-! DEFINITION. The published functions of R5 that the device uses: SHAKE256 (FIPS 202), and AES-256 (FIPS 197) in XTS mode for off-die
lines (R425) and in GCM mode for state images (R332). -/

namespace Sys2Proof.Machine

/-- A number as n bytes, highest first. -/
def beBytes (n v : Nat) : Bytes := (leBytes n v).reverse
/-- The number that bytes give, highest first. -/
def beNat (bs : Bytes) : Nat := leNat bs.reverse
/-- Two byte strings combined bit by bit, as far as both go. -/
def xorBytes (a b : Bytes) : Bytes := List.zipWith (fun x y => x ^^^ y) a b
/-- A byte string in pieces of n bytes: as many pieces as the count says. -/
def piecesOfBytes (n : Nat) : Nat → Bytes → List Bytes
  | 0, _ => []
  | k + 1, bs => bs.take n :: piecesOfBytes n k (bs.drop n)

/-! SHAKE256. -/

/-- Lane x, y of the Keccak state stands at place x + 5 y. -/
def lane (a : List (BitVec 64)) (x y : Nat) : BitVec 64 := a.getD (x % 5 + 5 * (y % 5)) 0

/-- The walk of rho over the lanes other than 0, 0 (FIPS 202, algorithm 2): the k-th of its steps, counted from 1, stands at x, y and turns that lane by
the k-th triangular number. -/
def walkTurns (k x y : Nat) : Nat → List (Nat × Nat)
  | 0 => []
  | n + 1 => (x + 5 * y, k * (k + 1) / 2 % 64) :: walkTurns (k + 1) y ((2 * x + 3 * y) % 5) n

/-- How far each lane turns. -/
def laneTurns : List Nat := (walkTurns 1 1 0 24).foldl (fun l e => l.set e.1 e.2) (List.replicate 25 0)

/-- The bits that iota takes (FIPS 202, algorithm 5): the constant terms of the powers of x modulo x^8 + x^6 + x^5 + x^4 + 1, from the power r on. -/
def iotaBits (r : Nat) : Nat → List Nat
  | 0 => []
  | n + 1 => r % 2 :: iotaBits (if r < 128 then 2 * r else (2 * r) ^^^ 0x171) n

/-- The constant of a round: bit j of its seven stands at place 2^j - 1. -/
def iotaWord (bits : List Nat) : BitVec 64 := BitVec.ofNat 64 (bits.mapIdx fun j b => b * 2 ^ (2 ^ j - 1)).sum

/-- The constants of n rounds, from their bits. -/
def iotaWords : Nat → List Nat → List (BitVec 64)
  | 0, _ => []
  | n + 1, bits => iotaWord (bits.take 7) :: iotaWords n (bits.drop 7)

/-- The constants of the 24 rounds. -/
def roundConstants : List (BitVec 64) := iotaWords 24 (iotaBits 1 168)

/-- The sum of the lanes of one x. -/
def sheet (a : List (BitVec 64)) (x : Nat) : BitVec 64 := lane a x 4 ^^^ (lane a x 3 ^^^ (lane a x 2 ^^^ (lane a x 1 ^^^ lane a x 0)))

/-- Theta: each lane takes the sum before it, and the one after it turned by one. -/
def theta (a : List (BitVec 64)) : List (BitVec 64) :=
  let sums := (List.range 5).map (sheet a)
  a.mapIdx fun i v => v ^^^ (sums.getD ((i + 4) % 5) 0 ^^^ (sums.getD ((i + 1) % 5) 0).rotateLeft 1)

/-- Rho and pi: the lane at x, y turns and goes to y, 2 x + 3 y; that is, place X, Y takes the lane at X + 3 Y, X. -/
def rhoPi (a : List (BitVec 64)) : List (BitVec 64) :=
  (List.range 25).map fun i =>
    let src := (i % 5 + 3 * (i / 5)) % 5 + 5 * (i % 5)
    (a.getD src 0).rotateLeft (laneTurns.getD src 0)

/-- One round of Keccak-f[1600]: theta, rho and pi, then chi, and iota at lane 0, 0. -/
def keccakRound (a : List (BitVec 64)) (rc : BitVec 64) : List (BitVec 64) :=
  let b := rhoPi (theta a)
  (List.range 25).map fun i =>
    let chi := b.getD i 0 ^^^ (lane b (i + 2) (i / 5) &&& ~~~lane b (i + 1) (i / 5))
    if i = 0 then chi ^^^ rc else chi

/-- Keccak-f[1600]. -/
def keccakF (a : List (BitVec 64)) : List (BitVec 64) := roundConstants.foldl keccakRound a

/-- One block of 136 bytes is absorbed. -/
def absorb (a : List (BitVec 64)) (blk : Bytes) : List (BitVec 64) :=
  keccakF (a.mapIdx fun i v => if i < 17 then v ^^^ BitVec.ofNat 64 (leNat ((blk.drop (8 * i)).take 8)) else v)

/-- n blocks of output. -/
def squeeze : Nat → List (BitVec 64) → Bytes
  | 0, _ => []
  | n + 1, a => ((a.take 17).flatMap fun v => leBytes 8 v.toNat) ++ squeeze n (keccakF a)

/-- The message padded to whole blocks of 136 bytes. -/
def shakePad (m : Bytes) : Bytes :=
  let k := 136 - m.length % 136
  m ++ (if k = 1 then [0x9F] else [0x1F] ++ List.replicate (k - 2) 0 ++ [0x80])

/-- SHAKE256 of a message: the first n bytes of its output. -/
def shake256 (m : Bytes) (n : Nat) : Bytes :=
  let p := shakePad m
  (squeeze ((n + 135) / 136) ((piecesOfBytes 136 (p.length / 136) p).foldl absorb (List.replicate 25 0))).take n

/-! AES-256. A block is 16 bytes; byte r + 4 c is row r of column c. -/

/-- Multiplication by x in the field of AES. -/
def xtime (a : Byte) : Byte := (a <<< 1) ^^^ (if a.getLsbD 7 then 0x1B else 0)

/-- The product of two bytes in the field of AES: the second bit by bit. -/
def aesMul (a b : Byte) : Byte :=
  ((List.range 8).foldl (fun (p : Byte × Byte) i => (xtime p.1, if b.getLsbD i then p.2 ^^^ p.1 else p.2)) (a, 0)).2

/-- The inverse of a byte in the field of AES, 0 for 0: its power 254. -/
def aesInv (a : Byte) : Byte :=
  ((List.range 7).foldl (fun (p : Byte × Byte) _ => let q := aesMul p.1 p.1; (q, aesMul p.2 q)) (a, 1)).2

/-- The S-box. -/
def sboxOf (a : Byte) : Byte :=
  let b := aesInv a
  b ^^^ b.rotateLeft 1 ^^^ b.rotateLeft 2 ^^^ b.rotateLeft 3 ^^^ b.rotateLeft 4 ^^^ 0x63

/-- The inverse S-box. -/
def invSboxOf (a : Byte) : Byte := aesInv (a.rotateLeft 1 ^^^ a.rotateLeft 3 ^^^ a.rotateLeft 6 ^^^ 0x05)

/-- The tables of both. -/
def sboxTable : List Byte := (List.range 256).map fun i => sboxOf (BitVec.ofNat 8 i)
/-- The table of the inverse S-box. -/
def invSboxTable : List Byte := (List.range 256).map fun i => invSboxOf (BitVec.ofNat 8 i)
/-- A byte through the S-box. -/
def subByte (a : Byte) : Byte := sboxTable.getD a.toNat 0
/-- A byte through the inverse S-box. -/
def invSubByte (a : Byte) : Byte := invSboxTable.getD a.toNat 0

/-- The rows of a block rotated, row r by r columns. -/
def shiftRows (b : Bytes) : Bytes := (List.range 16).map fun i => b.getD (i % 4 + 4 * ((i / 4 + i % 4) % 4)) 0
/-- The rows of a block rotated back. -/
def invShiftRows (b : Bytes) : Bytes := (List.range 16).map fun i => b.getD (i % 4 + 4 * ((i / 4 + 4 - i % 4) % 4)) 0

/-- Every column of a block times the polynomial with these coefficients. -/
def mixColumns (k : List Byte) (b : Bytes) : Bytes :=
  (List.range 16).map fun i =>
    (List.range 4).foldl (fun t j => t ^^^ aesMul (b.getD (4 * (i / 4) + (i % 4 + j) % 4) 0) (k.getD j 0)) 0

/-- The next word of the key schedule, with what stands before it, newest first. -/
def nextKeyWord (i : Nat) (rc : Byte) (ws : List Bytes) : Bytes :=
  let t := ws.headD []
  let t := if i % 8 = 0 then xorBytes ((t.drop 1 ++ t.take 1).map subByte) [rc, 0, 0, 0] else if i % 8 = 4 then t.map subByte else t
  xorBytes (ws.getD 7 []) t

/-- The round keys of a key of 32 bytes, 15 of 16 bytes. -/
def roundKeys (key : Bytes) : List Bytes :=
  let first := (piecesOfBytes 4 8 key).reverse
  let all := (List.range 52).foldl (fun (p : List Bytes × Byte) j =>
    (nextKeyWord (j + 8) p.2 p.1 :: p.1, if j % 8 = 0 then xtime p.2 else p.2)) (first, 1)
  piecesOfBytes 16 15 (all.1.reverse.flatten)

/-- A block under the round keys. -/
def aesWith (ks : List Bytes) (b : Bytes) : Bytes :=
  let round := fun (b : Bytes) (k : Bytes) => xorBytes (mixColumns [2, 3, 1, 1] (shiftRows (b.map subByte))) k
  let b := ((ks.drop 1).take 13).foldl round (xorBytes b (ks.headD []))
  xorBytes (shiftRows (b.map subByte)) (ks.getD 14 [])

/-- A cipher block opened under the round keys. -/
def aesOpenWith (ks : List Bytes) (b : Bytes) : Bytes :=
  let round := fun (b : Bytes) (k : Bytes) => mixColumns [14, 11, 13, 9] (xorBytes ((invShiftRows b).map invSubByte) k)
  let b := ((ks.drop 1).take 13).reverse.foldl round (xorBytes b (ks.getD 14 []))
  xorBytes ((invShiftRows b).map invSubByte) (ks.headD [])

/-! XTS (R425): a key of 64 bytes, half for the blocks and half for the tweak. -/

/-- A tweak of 16 bytes, lowest first, times x. -/
def tweakNext (t : Bytes) : Bytes :=
  let v := 2 * leNat t
  leBytes 16 (if 2 ^ 128 ≤ v then (v - 2 ^ 128) ^^^ 0x87 else v)

/-- Blocks of 16 bytes, each between two additions of its tweak. -/
def xtsBlocks (f : Bytes → Bytes) : List Bytes → Bytes → Bytes
  | [], _ => []
  | b :: rest, t => xorBytes (f (xorBytes b t)) t ++ xtsBlocks f rest (tweakNext t)

/-- The first tweak of a data unit. -/
def xtsTweak (key : Bytes) (unit : Nat) : Bytes := aesWith (roundKeys (key.drop 32)) (leBytes 16 unit)

/-- AES-256-XTS of whole blocks: the cipher text of a data unit. -/
def xtsSeal (key : Bytes) (unit : Nat) (bs : Bytes) : Bytes :=
  xtsBlocks (aesWith (roundKeys (key.take 32))) (piecesOfBytes 16 (bs.length / 16) bs) (xtsTweak key unit)

/-- AES-256-XTS of whole blocks: the plain text of a data unit. -/
def xtsOpen (key : Bytes) (unit : Nat) (bs : Bytes) : Bytes :=
  xtsBlocks (aesOpenWith (roundKeys (key.take 32))) (piecesOfBytes 16 (bs.length / 16) bs) (xtsTweak key unit)

/-! GCM (R332). A block as a number has its first bit highest. -/

/-- The product of two blocks in the field of GCM. -/
def gcmMul (x y : BitVec 128) : BitVec 128 :=
  ((List.range 128).foldl (fun (p : BitVec 128 × BitVec 128) i =>
    ((p.1 >>> 1) ^^^ (if p.1.getLsbD 0 then 0xE1000000000000000000000000000000 else 0), if x.getLsbD (127 - i) then p.2 ^^^ p.1 else p.2)) (y, 0)).2

/-- A byte string padded with zeros to whole blocks. -/
def padBlocks (bs : Bytes) : Bytes := bs ++ List.replicate ((16 - bs.length % 16) % 16) 0

/-- GHASH of whole blocks. -/
def ghash (k : BitVec 128) (bs : Bytes) : BitVec 128 :=
  (piecesOfBytes 16 (bs.length / 16) bs).foldl (fun y b => gcmMul (y ^^^ BitVec.ofNat 128 (beNat b)) k) 0

/-- The key stream of counter mode for n blocks, from a counter block of 12 bytes and a number. -/
def keyStream (ks : List Bytes) (iv : Bytes) : Nat → Nat → Bytes
  | 0, _ => []
  | n + 1, c => aesWith ks (iv ++ beBytes 4 c) ++ keyStream ks iv n (c + 1)

/-- Counter mode, both ways. -/
def ctr (ks : List Bytes) (iv bs : Bytes) : Bytes := xorBytes bs (keyStream ks iv ((bs.length + 15) / 16) 2)

/-- The tag of a cipher text and its additional data, under an IV of 12 bytes. -/
def gcmTag (ks : List Bytes) (iv aad cipher : Bytes) : Bytes :=
  let h : BitVec 128 := BitVec.ofNat 128 (beNat (aesWith ks (List.replicate 16 0)))
  let g := ghash h (padBlocks aad ++ padBlocks cipher ++ beBytes 8 (8 * aad.length) ++ beBytes 8 (8 * cipher.length))
  xorBytes (aesWith ks (iv ++ beBytes 4 1)) (beBytes 16 g.toNat)

/-- AES-256-GCM of a plain text under a key, an IV and additional data: cipher text and tag. -/
def gcmSeal (key iv aad plain : Bytes) : Bytes × Bytes :=
  let ks := roundKeys key
  let c := ctr ks iv plain
  (c, gcmTag ks iv aad c)

/-- AES-256-GCM opening: none when the tag does not fit. -/
def gcmOpen (key iv aad cipher tag : Bytes) : Option Bytes :=
  let ks := roundKeys key
  if gcmTag ks iv aad cipher = tag then some (ctr ks iv cipher) else none

end Sys2Proof.Machine
end

