-- ==== Sys2Proof/Machine/LineCode.lean ====
section
/-! DEFINITION. How an off-die line is stored (R356, R357, R425): its cipher text, its check field over GF(2^16), and what a read makes of a
change of the stored bits. -/

namespace Sys2Proof.Machine

/-! GF(2^16) with the polynomial x^16 + x^12 + x^3 + x + 1, alpha = x (R356). -/

/-- Times alpha. -/
def gfNext (a : BitVec 16) : BitVec 16 := (a <<< 1) ^^^ (if a.getLsbD 15 then 0x100B else 0)

/-- The product. -/
def gfMul (a b : BitVec 16) : BitVec 16 :=
  ((List.range 16).foldl (fun (p : BitVec 16 × BitVec 16) i => (gfNext p.1, if b.getLsbD i then p.2 ^^^ p.1 else p.2)) (a, 0)).2

/-- A power of alpha. -/
def alphaTo : Nat → BitVec 16
  | 0 => 1
  | n + 1 => gfNext (alphaTo n)

/-- A polynomial, lowest coefficient first, times x + r. -/
def polyTimes (p : List (BitVec 16)) (r : BitVec 16) : List (BitVec 16) :=
  List.zipWith (fun x y => x ^^^ y) ([0] ++ p) (p.map (gfMul · r) ++ [0])

/-- The polynomial of degree 4 whose roots are alpha^0 to alpha^3. -/
def checkRoots : List (BitVec 16) := (List.range 4).foldl (fun p j => polyTimes p (alphaTo j)) [1]

/-- The check symbols c0 to c3 of the data symbols d0 to d31: the remainder of the data above them (R356). -/
def checkSymbols (d : List (BitVec 16)) : List (BitVec 16) :=
  d.reverse.foldl (fun r x =>
    let f := x ^^^ r.getD 3 0
    (List.range 4).map fun i => (if i = 0 then 0 else r.getD (i - 1) 0) ^^^ gfMul f (checkRoots.getD i 0)) [0, 0, 0, 0]

/-! A stored line as 576 bits: symbol d_i at bits 16 i, symbol c_i at bits 512 + 16 i. -/

/-- Symbol k of the 36, c0 to c3 and then d0 to d31: the coefficient of x^k. -/
def symbolOf (m : BitVec 576) (k : Nat) : BitVec 16 := m.extractLsb' (if k < 4 then 512 + 16 * k else 16 * (k - 4)) 16

/-- A change of symbol k alone. -/
def symbolAlone (k : Nat) (e : BitVec 16) : BitVec 576 := e.setWidth 576 <<< (if k < 4 then 512 + 16 * k else 16 * (k - 4))

/-- Syndrome j: the value of the polynomial at alpha^j. As an unchanged line has none, those of a read are those of the change. -/
def syndrome (m : BitVec 576) (j : Nat) : BitVec 16 := (List.range 36).foldl (fun t k => t ^^^ gfMul (symbolOf m k) (alphaTo (j * k))) 0

/-- What a read makes of a line (R357): delivered as it is, delivered with one change of a symbol, or rejected. -/
inductive LineRead where
  | clean
  | fixed (e : BitVec 576)
  | rejected
  deriving DecidableEq, Repr

/-- The outcome of a read of a line whose stored bits have changed by m (R357). -/
def lineRead (m : BitVec 576) : LineRead :=
  let s := (List.range 4).map (syndrome m)
  if s.all (· == 0) then .clean
  else
    let e := s.getD 0 0
    match (List.range 36).find? fun k => e != 0 && (List.range 4).all fun j => s.getD j 0 == gfMul e (alphaTo (j * k)) with
    | some k => .fixed (symbolAlone k e)
    | none => .rejected

/-- The mask T of a line: of the integrity key, the address and the write count (R356). -/
def lineMask (key : Bytes) (line : Nat) (count : Word) : BitVec 64 :=
  BitVec.ofNat 64 (leNat (shake256 (key ++ leBytes 8 (64 * line) ++ leBytes 8 count.toNat) 8))

/-- The check field F of a cipher text (R356). -/
def lineCheck (key : Bytes) (line : Nat) (count : Word) (cipher : Bytes) : BitVec 64 :=
  let d := (List.range 32).map fun i => BitVec.ofNat 16 (leNat ((cipher.drop (2 * i)).take 2))
  BitVec.ofNat 64 (leNat ((checkSymbols d).flatMap fun c => leBytes 2 c.toNat)) ^^^ lineMask key line count

/-- The two XTS keys with a number (R425). -/
def xtsKey (no : Nat) : Bytes := (fitTo 96 (Config.keyMaterial no)).take 64
/-- The integrity key with a number (R425). -/
def integrityKey (no : Nat) : Bytes := (fitTo 96 (Config.keyMaterial no)).drop 64

/-- The cipher text of a line's bytes under the keys with a number: the tweak is the physical address (R425). -/
def cipherLine (no line : Nat) (bs : Bytes) : Bytes := xtsSeal (xtsKey no) (64 * line) bs
/-- The bytes of a line from its cipher text. -/
def plainLine (no line : Nat) (bs : Bytes) : Bytes := xtsOpen (xtsKey no) (64 * line) bs

/-- A cipher text with a change of its stored bits. -/
def changed (cipher : Bytes) (m : BitVec 576) : Bytes := cipher.mapIdx fun i b => b ^^^ m.extractLsb' (8 * i) 8

/-- How many bits of a gallery word with its 7 check bits have changed (R262). -/
def bitsChanged (m : BitVec 576) : Nat := ((List.range 39).filter m.getLsbD).length

end Sys2Proof.Machine
end

