-- ==== Sys2Proof/WellFormed.lean ====
section
/-! DEFINITION. Well-formed instructions: those that an encoding of the manual can say (R44 to R49). -/

namespace Sys2Proof

/-- The operand fields of the instruction pass the decode checks (R49.4); false for a step that has no encoding. -/
def WellFormed (i : Instr) : Bool := (malformed i).isNone

end Sys2Proof
end

