-- ==== Sys2Proof/Decode.lean ====
section
/-! DEFINITION. The decoder of syllables (R38 to R53, R64 to R68) and, after it, the encoder, from the same tables. -/

namespace Sys2Proof

/-- Operand format F.RRR (R45). -/
structure RRR where
  d : BitVec 6
  a : BitVec 6
  b : BitVec 6
  c : BitVec 6
  fn : BitVec 16
  deriving DecidableEq, Repr

/-- Operand format F.RRI (R45). -/
structure RRI where
  d : BitVec 6
  a : BitVec 6
  imm : BitVec 28
  deriving DecidableEq, Repr

/-- Operand format F.RI (R45). -/
structure RIF where
  d : BitVec 6
  imm : BitVec 34
  deriving DecidableEq, Repr

/-- Operand format F.MEM (R45, R46). -/
structure MemF where
  d : BitVec 6
  base : BitVec 6
  off : BitVec 16
  land : BitVec 12
  deriving DecidableEq, Repr

/-- Operand format F.VEC (R45, R152). -/
structure VecF where
  d : BitVec 6
  a : BitVec 6
  b : BitVec 6
  k : BitVec 3
  ty : BitVec 3
  fn : BitVec 16
  deriving DecidableEq, Repr

/-- Operand format F.SYS (R45). -/
structure SysF where
  d : BitVec 6
  a : BitVec 6
  b : BitVec 6
  x : BitVec 6
  imm : BitVec 16
  deriving DecidableEq, Repr

/-- Operand format F.PB (R45). -/
structure PbF where
  b : BitVec 2
  off : BitVec 38
  deriving DecidableEq, Repr

/-- Operand format F.MAT (R48). -/
structure MatF where
  arow : BitVec 9
  src : BitVec 6
  n : BitVec 7
  bank : BitVec 1
  ctl : BitVec 2
  sreg : BitVec 6
  ev : BitVec 5
  eve : BitVec 1
  k : BitVec 3
  deriving DecidableEq, Repr

/-- Fields of F.RRR. -/
def RRR.ofBits (x : BitVec 40) : RRR :=
  { d := x.extractLsb' 34 6, a := x.extractLsb' 28 6, b := x.extractLsb' 22 6, c := x.extractLsb' 16 6,
    fn := x.extractLsb' 0 16 }
/-- Fields of F.RRI. -/
def RRI.ofBits (x : BitVec 40) : RRI := { d := x.extractLsb' 34 6, a := x.extractLsb' 28 6, imm := x.extractLsb' 0 28 }
/-- Fields of F.RI. -/
def RIF.ofBits (x : BitVec 40) : RIF := { d := x.extractLsb' 34 6, imm := x.extractLsb' 0 34 }
/-- Fields of F.MEM. -/
def MemF.ofBits (x : BitVec 40) : MemF :=
  { d := x.extractLsb' 34 6, base := x.extractLsb' 28 6, off := x.extractLsb' 12 16, land := x.extractLsb' 0 12 }
/-- Fields of F.VEC. -/
def VecF.ofBits (x : BitVec 40) : VecF :=
  { d := x.extractLsb' 34 6, a := x.extractLsb' 28 6, b := x.extractLsb' 22 6, k := x.extractLsb' 19 3,
    ty := x.extractLsb' 16 3, fn := x.extractLsb' 0 16 }
/-- Fields of F.SYS. -/
def SysF.ofBits (x : BitVec 40) : SysF :=
  { d := x.extractLsb' 34 6, a := x.extractLsb' 28 6, b := x.extractLsb' 22 6, x := x.extractLsb' 16 6,
    imm := x.extractLsb' 0 16 }
/-- Fields of F.PB. -/
def PbF.ofBits (x : BitVec 40) : PbF := { b := x.extractLsb' 38 2, off := x.extractLsb' 0 38 }
/-- Fields of F.MAT. -/
def MatF.ofBits (x : BitVec 40) : MatF :=
  { arow := x.extractLsb' 31 9, src := x.extractLsb' 25 6, n := x.extractLsb' 18 7, bank := x.extractLsb' 17 1,
    ctl := x.extractLsb' 15 2, sreg := x.extractLsb' 9 6, ev := x.extractLsb' 4 5, eve := x.extractLsb' 3 1,
    k := x.extractLsb' 0 3 }

/-- A one-bit field as a Bool. -/
def flag (b : BitVec 1) : Bool := b == 1#1

/-- The control bits (R38). -/
def Ctl.ofBits (x : BitVec 12) : Ctl :=
  { gn := flag (x.extractLsb' 11 1), gp := x.extractLsb' 8 3, stall := x.extractLsb' 5 3, pl := flag (x.extractLsb' 4 1),
    pr := flag (x.extractLsb' 3 1), wl := flag (x.extractLsb' 2 1), wr := flag (x.extractLsb' 1 1),
    sync := flag (x.extractLsb' 0 1) }

/-- Scope codes (R47). -/
def Scope.ofCode (c : Nat) : Option Scope :=
  match c with
  | 0 => some .strand | 1 => some .hall | 2 => some .storey | 3 => some .device | 4 => some .fabric | _ => none
/-- Width codes (R47). -/
def Width.ofCode (c : BitVec 2) : Width := if c = 0 then .B else if c = 1 then .H else if c = 2 then .W else .D
/-- Width codes of SEXT and ZEXT (R96). -/
def ExtW.ofCode (c : Nat) : Option ExtW := match c with | 0 => some .B | 1 => some .H | 2 => some .W | _ => none
/-- Condition codes of CMP and CMPI (R47). -/
def Cond.ofCode (c : Nat) : Option Cond :=
  match c with
  | 0 => some .EQ | 1 => some .NE | 2 => some .LT | 3 => some .GE | 4 => some .LTU | 5 => some .GEU | _ => none
/-- Condition codes of FCMP (R47). -/
def FCond.ofCode (c : Nat) : Option FCond :=
  match c with | 0 => some .EQ | 1 => some .NE | 2 => some .LT | 3 => some .GE | 4 => some .UN | _ => none
/-- Condition codes of VCMP (R166): those of FCMP for float types, those of CMP for integer types. -/
def VCond.ofCode (isFloat : Bool) (c : Nat) : Option VCond :=
  match c with
  | 0 => some .EQ | 1 => some .NE | 2 => some .LT | 3 => some .GE
  | 4 => some (if isFloat then .UN else .LTU)
  | 5 => if isFloat then none else some .GEU
  | _ => none
/-- Operation codes of AMO (R47). -/
def AmoOp.ofCode (c : BitVec 3) : AmoOp :=
  match c.toNat with
  | 0 => .ADD | 1 => .FADD | 2 => .MIN | 3 => .MAX | 4 => .AND | 5 => .OR | 6 => .XOR | _ => .SWAP
/-- Order codes (R47). -/
def Order.ofCode (c : BitVec 2) : Order := if c = 0 then .RLX else if c = 1 then .ACQ else if c = 2 then .REL else .AR
/-- Type codes of F.VEC (R47). -/
def ETy.ofCode (c : Nat) : Option ETy :=
  match c with
  | 0 => some .F32 | 1 => some .BF16 | 2 => some .F16 | 4 => some .I32 | 5 => some .I16 | 6 => some .I8 | _ => none
/-- Type codes of FCVT (R110). -/
def CTy.ofCode (c : Nat) : Option CTy :=
  match c with
  | 0 => some .F32 | 1 => some .BF16 | 2 => some .F16 | 4 => some .I32 | 5 => some .U32 | 6 => some .I64
  | 7 => some .U64 | _ => none
/-- Format codes of F.MAT (R48). -/
def MFmt.ofCode (c : Nat) : Option MFmt := match c with | 0 => some .BF16 | 1 => some .FP16 | 2 => some .RN8 | _ => none
/-- ctl codes of MMA (R48). -/
def MmaCtl.ofCode (c : Nat) : Option MmaCtl := match c with | 0 => some .OW | 1 => some .ACC | 2 => some .SCL | _ => none
/-- Sparsity codes (R48). -/
def Sparse.ofCode (c : Nat) : Option Sparse :=
  match c with | 0 => some .N16 | 1 => some .N32 | 2 => some .N64 | 3 => some .N128 | _ => none
/-- Kind codes of RGN.KEEP (R231). -/
def KeepKind.ofCode (c : Nat) : Option KeepKind := match c with | 0 => some .T | 1 => some .A | 2 => some .G | _ => none
/-- Kind codes of CP.RESUME (R194). -/
def CopyKind.ofCode (c : BitVec 2) : CopyKind := if c = 0 then .CP else if c = 1 then .CP2D else if c = 2 then .FILL else .MM
/-- Operation codes of the reductions (R176). -/
def RedOp.ofCode (c : Nat) : Option RedOp := match c with | 0 => some .ADD | 1 => some .MIN | 2 => some .MAX | _ => none
/-- Level codes of BOOST.REQ (R222). -/
def Level.ofCode (c : Nat) : Option Level := match c with | 0 => some .nominal | 1 => some .B1 | 2 => some .B2 | _ => none
/-- Operation codes of TRACK (R229). -/
def TrackOp.ofCode (c : Nat) : Option TrackOp :=
  match c with | 0 => some .disarm | 1 => some .arm | 2 => some .harvest | _ => none
/-- Class codes of LIFE.SET (R234). -/
def LifeClass.ofCode (c : Nat) : Option LifeClass :=
  match c with
  | 0 => some .E0 | 1 => some .E1 | 2 => some .E2 | 3 => some .E3 | 4 => some .E4 | 5 => some .P | _ => none
/-- Policy codes of LIFE.SET (R234). -/
def LifePolicy.ofCode (c : Nat) : Option LifePolicy := match c with | 0 => some .EXPIRE | 1 => some .REFRESH | _ => none

/-- What decoding an operand field answers. -/
abbrev Parsed := Except Malformed Instr

/-- The instruction, when the reserved fields are zero (R45). -/
def reserved (zero : Bool) (i : Instr) : Parsed := if zero then .ok i else .error .reserved

/-- The instruction built from a sub-field code, when the code is assigned (R47). -/
def coded {α : Type} (o : Option α) (k : α → Parsed) : Parsed :=
  match o with
  | some v => k v
  | none => .error .code

/-- d, a, b. -/
def rrr3 (mk : BitVec 6 → BitVec 6 → BitVec 6 → Instr) (x : BitVec 40) : Parsed :=
  let f := RRR.ofBits x
  reserved (f.c == 0 && f.fn == 0) (mk f.d f.a f.b)
/-- d, a. -/
def rrr2 (mk : BitVec 6 → BitVec 6 → Instr) (x : BitVec 40) : Parsed :=
  let f := RRR.ofBits x
  reserved (f.b == 0 && f.c == 0 && f.fn == 0) (mk f.d f.a)
/-- d, a, b, c. -/
def rrr4 (mk : BitVec 6 → BitVec 6 → BitVec 6 → BitVec 6 → Instr) (x : BitVec 40) : Parsed :=
  let f := RRR.ofBits x
  reserved (f.fn == 0) (mk f.d f.a f.b f.c)
/-- d, a and the width code of R96. -/
def rrrExt (mk : BitVec 6 → BitVec 6 → ExtW → Instr) (x : BitVec 40) : Parsed :=
  let f := RRR.ofBits x
  coded (ExtW.ofCode (f.fn.extractLsb' 0 2).toNat) fun w =>
    reserved (f.b == 0 && f.c == 0 && f.fn.extractLsb' 2 14 == 0) (mk f.d f.a w)
/-- d, a, imm. -/
def rri (mk : BitVec 6 → BitVec 6 → BitVec 28 → Instr) (x : BitVec 40) : Parsed :=
  let f := RRI.ofBits x
  .ok (mk f.d f.a f.imm)
/-- d, a, a shift amount of six bits (R102). -/
def rriShift (mk : BitVec 6 → BitVec 6 → BitVec 6 → Instr) (x : BitVec 40) : Parsed :=
  let f := RRI.ofBits x
  reserved (f.imm.extractLsb' 6 22 == 0) (mk f.d f.a (f.imm.extractLsb' 0 6))
/-- F.MEM of a load (R46). -/
def memLoad (mk : BitVec 6 → BitVec 6 → BitVec 16 → BitVec 12 → Instr) (x : BitVec 40) : Parsed :=
  let f := MemF.ofBits x
  .ok (mk f.d f.base f.off f.land)
/-- F.MEM of a store (R46). -/
def memStore (mk : BitVec 6 → BitVec 6 → BitVec 16 → Instr) (x : BitVec 40) : Parsed :=
  let f := MemF.ofBits x
  reserved (f.land == 0) (mk f.d f.base f.off)
/-- F.SYS with the fields named by a condition on the rest. -/
def sys (zero : SysF → Bool) (mk : SysF → Instr) (x : BitVec 40) : Parsed :=
  let f := SysF.ofBits x
  reserved (zero f) (mk f)
/-- No field of F.SYS. -/
def sys0 (i : Instr) (x : BitVec 40) : Parsed :=
  sys (fun f => f.d == 0 && f.a == 0 && f.b == 0 && f.x == 0 && f.imm == 0) (fun _ => i) x
/-- A scope in x 2:0 (R47). -/
def sysScope (zero : SysF → Bool) (mk : SysF → Scope → Instr) (x : BitVec 40) : Parsed :=
  let f := SysF.ofBits x
  coded (Scope.ofCode (f.x.toNat % 8)) fun sc => reserved (zero f && f.x.extractLsb' 3 3 == 0) (mk f sc)
/-- Landing field of F.SYS: imm 15:12 reserved (R47). -/
def SysF.landOk (f : SysF) : Bool := f.imm.extractLsb' 12 4 == 0
/-- The landing offset in imm 11:0. -/
def SysF.land (f : SysF) : BitVec 12 := f.imm.extractLsb' 0 12
/-- The imm field of copies and Hazel commands (R194, R236), with bits 10:9 reserved unless kind. -/
def sysQ (kind : Bool) (zero : SysF → Bool) (mk : SysF → QCtl → Instr) (x : BitVec 40) : Parsed :=
  let f := SysF.ofBits x
  coded (Scope.ofCode (f.imm.extractLsb' 0 3).toNat) fun sc =>
    reserved (zero f && f.imm.extractLsb' 11 5 == 0 && (kind || f.imm.extractLsb' 9 2 == 0))
      (mk f { scope := sc, ev := f.imm.extractLsb' 3 5, we := flag (f.imm.extractLsb' 8 1) })
/-- F.VEC with its type code (R152) and a condition on the reserved fields. -/
def vec (zero : VecF → Bool) (mk : VecF → ETy → Instr) (x : BitVec 40) : Parsed :=
  let f := VecF.ofBits x
  coded (ETy.ofCode f.ty.toNat) fun t => reserved (zero f) (mk f t)
/-- type, d, a, b, mask. -/
def vec3 (mk : ETy → BitVec 6 → BitVec 6 → BitVec 6 → BitVec 3 → Instr) (x : BitVec 40) : Parsed :=
  vec (fun f => f.fn == 0) (fun f t => mk t f.d f.a f.b f.k) x
/-- type, d, a, mask. -/
def vec2 (mk : ETy → BitVec 6 → BitVec 6 → BitVec 3 → Instr) (x : BitVec 40) : Parsed :=
  vec (fun f => f.b == 0 && f.fn == 0) (fun f t => mk t f.d f.a f.k) x
/-- type, d, a, b, mask, SAT and U (R165). -/
def vecSat (mk : ETy → BitVec 6 → BitVec 6 → BitVec 6 → BitVec 3 → Bool → Bool → Instr) (x : BitVec 40) : Parsed :=
  vec (fun f => f.fn.extractLsb' 2 14 == 0)
    (fun f t => mk t f.d f.a f.b f.k (flag (f.fn.extractLsb' 0 1)) (flag (f.fn.extractLsb' 1 1))) x
/-- type, d, a, b, mask, U in fn bit 1 (R165). -/
def vecU (mk : ETy → BitVec 6 → BitVec 6 → BitVec 6 → BitVec 3 → Bool → Instr) (x : BitVec 40) : Parsed :=
  vec (fun f => f.fn.extractLsb' 2 14 == 0 && f.fn.extractLsb' 0 1 == 0)
    (fun f t => mk t f.d f.a f.b f.k (flag (f.fn.extractLsb' 1 1))) x
/-- type, d, a, an index of n bits in fn, mask. -/
def vecIdx (n : Nat) (mk : ETy → BitVec 6 → BitVec 6 → BitVec n → BitVec 3 → Instr) (x : BitVec 40) : Parsed :=
  vec (fun f => f.b == 0 && f.fn.toNat < 2 ^ n) (fun f t => mk t f.d f.a (f.fn.extractLsb' 0 n) f.k) x
/-- type, d, a, row, column, mask (R163). -/
def vecElem (mk : ETy → BitVec 6 → BitVec 6 → BitVec 4 → BitVec 8 → BitVec 3 → Instr) (x : BitVec 40) : Parsed :=
  vec (fun f => f.b == 0 && f.fn.extractLsb' 12 4 == 0)
    (fun f t => mk t f.d f.a (f.fn.extractLsb' 0 4) (f.fn.extractLsb' 4 8) f.k) x
/-- A reduction: operation, U, type, d, a, mask (R176). -/
def vecRed (mk : RedOp → Bool → ETy → BitVec 6 → BitVec 6 → BitVec 3 → Instr) (x : BitVec 40) : Parsed :=
  let f := VecF.ofBits x
  coded (RedOp.ofCode (f.fn.extractLsb' 0 3).toNat) fun op =>
    vec (fun f => f.b == 0 && f.fn.extractLsb' 4 12 == 0) (fun f t => mk op (flag (f.fn.extractLsb' 3 1)) t f.d f.a f.k) x
/-- A conversion: destination and source types (R171), a condition on the other fields. -/
def vecCvt (zero : VecF → Bool) (mk : VecF → ETy → ETy → Instr) (x : BitVec 40) : Parsed :=
  let f := VecF.ofBits x
  coded (ETy.ofCode (f.fn.extractLsb' 0 3).toNat) fun st => vec (fun f => zero f && f.fn.extractLsb' 6 10 == 0)
    (fun f dt => mk f dt st) x
/-- F.MAT with a condition on the reserved fields. -/
def mat (zero : MatF → Bool) (mk : MatF → Instr) (x : BitVec 40) : Parsed :=
  let f := MatF.ofBits x
  reserved (zero f) (mk f)

/-- The common class (R65). -/
def decodeCommon (opc : Nat) (x : BitVec 40) : Parsed :=
  match opc with
  | 0x000 => rrr3 .add x
  | 0x001 => rrr3 .sub x
  | 0x002 => rrr3 .mul x
  | 0x003 => rrr3 .mulh x
  | 0x004 => rrr3 .mulhu x
  | 0x005 => rrr3 .div x
  | 0x006 => rrr3 .divu x
  | 0x007 => rrr3 .rem x
  | 0x008 => rrr3 .remu x
  | 0x009 => rrr3 .and x
  | 0x00A => rrr3 .or x
  | 0x00B => rrr3 .xor x
  | 0x00C => rrr3 .andn x
  | 0x00D => rrr3 .shl x
  | 0x00E => rrr3 .shr x
  | 0x00F => rrr3 .sar x
  | 0x010 => rrr3 .rol x
  | 0x011 => rrr3 .ror x
  | 0x012 => rrr3 .min x
  | 0x013 => rrr3 .max x
  | 0x014 => rrr3 .minu x
  | 0x015 => rrr3 .maxu x
  | 0x016 => rrr2 .abs x
  | 0x017 => rrr2 .clz x
  | 0x018 => rrr2 .ctz x
  | 0x019 => rrr2 .popc x
  | 0x01A => rrr2 .brev x
  | 0x01B => rrrExt .sext x
  | 0x01C => rrrExt .zext x
  | 0x01D => rrr4 .sel x
  | 0x01E => let f := RRR.ofBits x
    reserved (f.c == 0 && f.fn.extractLsb' 3 13 == 0) (.lea f.d f.a f.b (f.fn.extractLsb' 0 3))
  | 0x01F => let f := RRR.ofBits x
    reserved (f.fn.extractLsb' 1 15 == 0) (.bext f.d f.a f.b f.c (flag (f.fn.extractLsb' 0 1)))
  | 0x020 => rrr4 .bins x
  | 0x040 => rri .addi x
  | 0x041 => rri .muli x
  | 0x042 => rri .andi x
  | 0x043 => rri .ori x
  | 0x044 => rri .xori x
  | 0x045 => rriShift .shli x
  | 0x046 => rriShift .shri x
  | 0x047 => rriShift .sari x
  | 0x048 => let f := RIF.ofBits x
    .ok (.movi f.d f.imm)
  | 0x049 => let f := RIF.ofBits x
    reserved (f.imm.extractLsb' 32 2 == 0) (.movhi f.d (f.imm.extractLsb' 0 32))
  | 0x04A => let f := RRI.ofBits x
    reserved (f.imm.extractLsb' 15 13 == 0)
      (.bexti f.d f.a (f.imm.extractLsb' 0 7) (f.imm.extractLsb' 7 7) (flag (f.imm.extractLsb' 14 1)))
  | 0x04B => let f := RRI.ofBits x
    reserved (f.imm.extractLsb' 14 14 == 0) (.binsi f.d f.a (f.imm.extractLsb' 0 7) (f.imm.extractLsb' 7 7))
  | 0x060 => let f := RRR.ofBits x
    coded (Cond.ofCode (f.fn.extractLsb' 0 3).toNat) fun c =>
      reserved (f.c == 0 && f.fn.extractLsb' 3 13 == 0) (.cmp c (f.d.extractLsb' 3 3) (f.d.extractLsb' 0 3) f.a f.b)
  | 0x061 => let f := RRI.ofBits x
    coded (Cond.ofCode (f.imm.extractLsb' 25 3).toNat) fun c =>
      .ok (.cmpi c (f.d.extractLsb' 3 3) (f.d.extractLsb' 0 3) f.a (f.imm.extractLsb' 0 25))
  | 0x062 => let f := RRR.ofBits x
    coded (FCond.ofCode (f.fn.extractLsb' 0 3).toNat) fun c =>
      reserved (f.c == 0 && f.fn.extractLsb' 3 13 == 0) (.fcmp c (f.d.extractLsb' 3 3) (f.d.extractLsb' 0 3) f.a f.b)
  | 0x063 => let f := RRR.ofBits x
    reserved (f.b == 0 && f.c == 0 && f.fn.extractLsb' 4 12 == 0)
      (.plog (f.d.extractLsb' 3 3) (f.d.extractLsb' 0 3) (f.a.extractLsb' 3 3) (f.a.extractLsb' 0 3) (f.fn.extractLsb' 0 4))
  | 0x064 => let f := RRR.ofBits x
    reserved (f.a == 0 && f.b == 0 && f.c == 0 && f.fn == 0) (.pget f.d)
  | 0x065 => let f := RRR.ofBits x
    reserved (f.d == 0 && f.b == 0 && f.c == 0 && f.fn.extractLsb' 8 8 == 0) (.pset f.a (f.fn.extractLsb' 0 8))
  | 0x080 => rrr3 .fadd x
  | 0x081 => rrr3 .fsub x
  | 0x082 => rrr3 .fmul x
  | 0x083 => rrr4 .ffma x
  | 0x084 => rrr3 .fmin x
  | 0x085 => rrr3 .fmax x
  | 0x086 => rrr3 .fdiv x
  | 0x087 => rrr2 .fsqrt x
  | 0x088 => let f := RRR.ofBits x
    coded (CTy.ofCode (f.fn.extractLsb' 0 3).toNat) fun src =>
      coded (CTy.ofCode (f.fn.extractLsb' 3 3).toNat) fun dst =>
        reserved (f.b == 0 && f.c == 0 && f.fn.extractLsb' 7 9 == 0)
          (.fcvt dst src (flag (f.fn.extractLsb' 6 1)) f.d f.a)
  | 0x0A0 => let f := PbF.ofBits x
    .ok (.pb f.b f.off)
  | 0x0A1 => rri .pba x
  | 0x0A2 => sys (fun f => f.d == 0 && f.a == 0 && f.x == 0 && f.imm == 0) (fun f => .br f.b) x
  | 0x0A3 => sys (fun f => f.a == 0 && f.x == 0 && f.imm == 0) (fun f => .call f.d f.b) x
  | 0x0A4 => sys (fun f => f.d == 0 && f.b == 0 && f.x == 0 && f.imm == 0) (fun f => .ret f.a) x
  | 0x0A5 => sys (fun f => f.d == 0 && f.x == 0 && f.imm == 0) (fun f => .loop f.a f.b) x
  | 0x0A6 => sys0 .nop x
  | 0x0C0 => sys (fun f => f.d == 0 && f.a == 0 && f.b == 0 && f.imm == 0) (fun f => .evPost f.x) x
  | 0x0C1 => sys (fun f => f.d == 0 && f.a == 0 && f.b == 0 && f.imm == 0) (fun f => .evWait f.x) x
  | 0x0C2 => sys (fun f => f.d == 0 && f.b == 0 && f.imm == 0) (fun f => .evPostx f.x f.a) x
  | 0x0C3 => sys (fun f => f.a == 0 && f.b == 0 && f.imm == 0)
      (fun f => .evTest (f.d.extractLsb' 3 3) (f.d.extractLsb' 0 3) f.x) x
  | 0x100 => memLoad .ldB x
  | 0x101 => memLoad .ldBz x
  | 0x102 => memLoad .ldH x
  | 0x103 => memLoad .ldHz x
  | 0x104 => memLoad .ldW x
  | 0x105 => memLoad .ldWz x
  | 0x106 => memLoad .ldD x
  | 0x107 => memStore .stB x
  | 0x108 => memStore .stH x
  | 0x109 => memStore .stW x
  | 0x10A => memStore .stD x
  | 0x140 => let f := RRR.ofBits x
    coded (Scope.ofCode (f.c.extractLsb' 0 3).toNat) fun sc =>
      .ok (.amo (AmoOp.ofCode (f.c.extractLsb' 3 3)) (Width.ofCode (f.fn.extractLsb' 14 2)) sc
        (Order.ofCode (f.fn.extractLsb' 12 2)) f.d f.a f.b (f.fn.extractLsb' 0 12))
  | 0x141 => let f := RRR.ofBits x
    coded (Scope.ofCode (f.c.extractLsb' 0 3).toNat) fun sc =>
      if f.c.extractLsb' 3 3 == 0 then
        .ok (.cas (Width.ofCode (f.fn.extractLsb' 14 2)) sc (Order.ofCode (f.fn.extractLsb' 12 2)) f.d f.a f.b
          (f.fn.extractLsb' 0 12))
      else .error .code
  | 0x142 => let f := RRR.ofBits x
    reserved (f.d == 0 && f.c == 0 && f.fn.extractLsb' 0 14 == 0)
      (.stmr (Width.ofCode (f.fn.extractLsb' 14 2)) f.a f.b)
  | 0x148 => sysScope (fun f => f.d == 0 && f.a == 0 && f.b == 0 && f.imm == 0) (fun _ sc => .phase sc) x
  | 0x149 => sys (fun f => f.d == 0 && f.a == 0 && f.b == 0 && f.x == 0 && f.imm.extractLsb' 3 13 == 0)
      (fun f => .fenceMk (f.imm.extractLsb' 0 3)) x
  | 0x14A => sys0 .join x
  | 0x150 => sysScope (fun f => f.b == 0 && f.landOk) (fun f sc => .gjoin sc f.d f.a f.land) x
  | 0x151 => sys (fun f => f.d == 0 && f.b == 0 && f.x == 0 && f.imm == 0) (fun f => .gleave f.a) x
  | 0x152 => sys (fun f => f.d == 0 && f.b == 0 && f.x == 0 && f.imm == 0) (fun f => .barArrive f.a) x
  | 0x153 => sys (fun f => f.d == 0 && f.b == 0 && f.x == 0 && f.imm == 0) (fun f => .barWait f.a) x
  | 0x154 => sys (fun f => f.d == 0 && f.b == 0 && f.x == 0 && f.imm == 0) (fun f => .barSync f.a) x
  | 0x180 => sys (fun f => f.a == 0 && f.b == 0 && f.x == 0 && f.landOk) (fun f => .csrr f.d f.land) x
  | 0x181 => sys (fun f => f.d == 0 && f.b == 0 && f.x == 0 && f.landOk) (fun f => .csrw f.land f.a) x
  | 0x182 => sys (fun f => f.d == 0 && f.a == 0 && f.b == 0 && f.x == 0) (fun f => .trap f.imm) x
  | 0x183 => sys0 .eret x
  | 0x184 => sys0 .tfence x
  | 0x185 => sys (fun f => f.d == 0 && f.a == 0 && f.b == 0 && f.x == 0 && f.imm.extractLsb' 8 8 == 0)
      (fun f => .ntag (f.imm.extractLsb' 0 8)) x
  | 0x188 => sys0 .sliceEnd x
  | 0x189 => sys0 .sliceYield x
  | 0x18A => sys (fun f => f.b == 0 && f.x == 0 && f.landOk) (fun f => .rangeNext f.d f.a f.land) x
  | 0x18B => sys0 .hintSucc x
  | 0x18C => sys0 .waitPred x
  | 0x18D => sys (fun f => f.d == 0 && f.x == 0 && f.imm == 0) (fun f => .ckpt f.a f.b) x
  | 0x18E => let f := SysF.ofBits x
    coded (Level.ofCode (f.imm.extractLsb' 0 2).toNat) fun l =>
      reserved (f.d == 0 && f.a == 0 && f.b == 0 && f.x == 0 && f.imm.extractLsb' 2 14 == 0) (.boostReq l)
  | 0x190 => sys (fun f => f.d == 0 && f.x == 0 && f.imm == 0) (fun f => .launch f.a f.b) x
  | 0x191 => sys (fun f => f.d == 0 && f.x == 0 && f.imm == 0) (fun f => .enqX f.a f.b) x
  | 0x192 => sys (fun f => f.b == 0 && f.x == 0 && f.landOk) (fun f => .wsetBind f.d f.a f.land) x
  | 0x198 => sys (fun f => f.x == 0 && f.imm == 0) (fun f => .freeze f.d f.a f.b) x
  | 0x199 => sys (fun f => f.x == 0 && f.imm == 0) (fun f => .thaw f.d f.a f.b) x
  | 0x19A => let f := SysF.ofBits x
    coded (TrackOp.ofCode (f.imm.extractLsb' 0 2).toNat) fun op =>
      reserved (f.d == 0 && f.x == 0 && f.imm.extractLsb' 2 14 == 0) (.track op f.a f.b)
  | 0x1C0 => sys0 .rgnBegin x
  | 0x1C1 => let f := SysF.ofBits x
    coded (KeepKind.ofCode (f.imm.extractLsb' 0 2).toNat) fun k =>
      reserved (f.d == 0 && f.x == 0 && f.imm.extractLsb' 2 14 == 0) (.rgnKeep k f.a f.b)
  | 0x1C2 => sys0 .rgnEnd x
  | 0x1C3 => sys0 .rgnAbort x
  | 0x1C4 => sys (fun f => f.a == 0 && f.b == 0 && f.x == 0 && f.imm == 0) (fun f => .rgnStat f.d) x
  | 0x1E0 => let f := SysF.ofBits x
    coded (LifeClass.ofCode (f.imm.extractLsb' 0 3).toNat) fun c =>
      coded (LifePolicy.ofCode (f.imm.extractLsb' 3 2).toNat) fun p =>
        reserved (f.d == 0 && f.x == 0 && f.imm.extractLsb' 5 11 == 0) (.lifeSet f.a f.b c p)
  | 0x1E1 => sys (fun f => f.b == 0 && f.x == 0 && f.landOk) (fun f => .lifeAge f.d f.a f.land) x
  | 0x1E2 => sys (fun f => f.d == 0 && f.x == 0 && f.imm == 0) (fun f => .lifeRef f.a f.b) x
  | _ => .error .unassigned

/-- The L class (R66). -/
def decodeL (opc : Nat) (x : BitVec 40) : Parsed :=
  match opc with
  | 0x000 => memLoad .ldt x
  | 0x001 => memStore .stt x
  | 0x002 => let f := RRR.ofBits x
    reserved (f.c == 0 && f.fn.extractLsb' 12 4 == 0) (.ldtG f.d f.a f.b (f.fn.extractLsb' 0 12))
  | 0x003 => rrr3 .sttS x
  | 0x008 => sys (fun f => f.d == 0 && f.b == 0 && f.landOk) (fun f => .sbind f.x f.a f.land) x
  | 0x009 => sys (fun f => f.a == 0 && f.b == 0 && f.imm == 0) (fun f => .sstat f.d f.x) x
  | 0x00A => sys (fun f => f.d == 0 && f.a == 0 && f.b == 0 && f.imm == 0) (fun f => .sdrop f.x) x
  | 0x010 => sysQ false (fun _ => true) (fun f c => .cp f.d f.a f.b f.x c) x
  | 0x011 => sysQ false (fun _ => true) (fun f c => .cp2D f.d f.a f.b f.x c) x
  | 0x012 => sysQ false (fun _ => true) (fun f c => .cpMm f.d f.a f.b f.x c) x
  | 0x013 => sysQ false (fun _ => true) (fun f c => .cpFill f.d f.a f.b f.x c) x
  | 0x014 => sysScope (fun f => f.b == 0 && f.landOk) (fun f sc => .cpWait sc f.d f.a f.land) x
  | 0x015 => sysQ true (fun _ => true) (fun f c => .cpResume (CopyKind.ofCode (f.imm.extractLsb' 9 2)) f.d f.a f.b f.x c) x
  | 0x020 => sysQ false (fun f => f.b == 0 && f.x == 0) (fun f c => .hzPool f.d f.a c) x
  | 0x021 => sysQ false (fun f => f.b == 0 && f.x == 0) (fun f c => .hzRoot f.d f.a c) x
  | 0x022 => sysQ false (fun f => f.x == 0) (fun f c => .hzDesc f.d f.a f.b c) x
  | 0x023 => sysQ false (fun f => f.x == 0) (fun f c => .hzExpand f.d f.a f.b c) x
  | 0x024 => sysQ false (fun f => f.x == 0) (fun f c => .hzBack f.d f.a f.b c) x
  | 0x025 => sysQ false (fun f => f.a == 0 && f.b == 0 && f.x == 0) (fun f c => .hzSweep f.d c) x
  | 0x026 => sysQ false (fun _ => true) (fun f c => .hzRead f.d f.a f.b f.x c) x
  | _ => .error .unassigned

/-- The V class (R67). -/
def decodeV (opc : Nat) (x : BitVec 40) : Parsed :=
  match opc with
  | 0x000 => vec (fun f => f.a == 0 && f.b == 0 && f.k == 0 && f.fn.extractLsb' 12 4 == 0)
      (fun f t => .vshape t f.d (f.fn.extractLsb' 0 4) (f.fn.extractLsb' 4 8)) x
  | 0x001 => vec2 .vmov x
  | 0x002 => vec2 .vsplat x
  | 0x003 => vecElem .vins x
  | 0x004 => vecElem .vext x
  | 0x005 => vec (fun f => f.a == 0 && f.b == 0 && f.fn == 0) (fun f t => .vzero t f.d f.k) x
  | 0x006 => vec2 .viota x
  | 0x010 => vec3 .vadd x
  | 0x011 => vec3 .vsub x
  | 0x012 => vec3 .vmul x
  | 0x013 => vec3 .vfma x
  | 0x014 => vec3 .vmin x
  | 0x015 => vec3 .vmax x
  | 0x016 => vec2 .vabs x
  | 0x017 => vec2 .vneg x
  | 0x018 => vec3 .vdiv x
  | 0x019 => vec2 .vsqrt x
  | 0x01A => vec3 .vclamp x
  | 0x020 => vecSat .viadd x
  | 0x021 => vecSat .visub x
  | 0x022 => vecSat .vimul x
  | 0x023 => vecU .vimin x
  | 0x024 => vecU .vimax x
  | 0x025 => vec3 .vand x
  | 0x026 => vec3 .vor x
  | 0x027 => vec3 .vxor x
  | 0x028 => vec3 .vshl x
  | 0x029 => vec3 .vshr x
  | 0x02A => vec3 .vsar x
  | 0x030 => let f := VecF.ofBits x
    coded (ETy.ofCode f.ty.toNat) fun t =>
      coded (VCond.ofCode t.isFloat (f.fn.extractLsb' 0 3).toNat) fun c =>
        reserved (f.fn.extractLsb' 3 13 == 0) (.vcmp c t f.d f.a f.b f.k)
  | 0x031 => vec (fun f => f.fn.extractLsb' 3 13 == 0) (fun f t => .vsel t f.d f.a f.b f.k (f.fn.extractLsb' 0 3)) x
  | 0x032 => let f := VecF.ofBits x
    reserved (f.k == 0 && f.ty == 0 && f.fn.extractLsb' 4 12 == 0) (.vklog f.d f.a f.b (f.fn.extractLsb' 0 4))
  | 0x033 => let f := VecF.ofBits x
    reserved (f.k == 0 && f.ty == 0 && f.fn == 0) (.vkcnt f.d f.a f.b)
  | 0x040 => vec2 .vrcp x
  | 0x041 => vec2 .vrsq x
  | 0x042 => vec2 .vexp2 x
  | 0x043 => vec2 .vlog2 x
  | 0x044 => vec2 .vsin x
  | 0x045 => vec2 .vcos x
  | 0x046 => vec2 .vtanh x
  | 0x047 => vec2 .vlogi x
  | 0x050 => vecCvt (fun f => f.b == 0 && f.fn.extractLsb' 5 1 == 0)
      (fun f dt st => .vcvt dt st (flag (f.fn.extractLsb' 3 1)) (flag (f.fn.extractLsb' 4 1)) f.d f.a f.k) x
  | 0x051 => vecCvt (fun f => f.fn.extractLsb' 5 1 == 0)
      (fun f dt st => .vpack dt st (flag (f.fn.extractLsb' 3 1)) (flag (f.fn.extractLsb' 4 1)) f.d f.a f.b f.k) x
  | 0x052 => vecCvt (fun f => f.b == 0 && f.fn.extractLsb' 3 2 == 0)
      (fun f dt st => .vunpk dt st (flag (f.fn.extractLsb' 5 1)) f.d f.a f.k) x
  | 0x060 => vecIdx 8 .vrotc x
  | 0x061 => vecIdx 4 .vrotr x
  | 0x062 => vecIdx 8 .vbcc x
  | 0x063 => vecIdx 4 .vbcr x
  | 0x064 => vecRed .vredc x
  | 0x065 => vecRed .vredr x
  | 0x066 => vec3 .vpermc x
  | 0x067 => vecIdx 4 .vtrn x
  | _ => .error .unassigned

/-- MMA and MMA.S (R48). -/
def matMma (mk : MmaF → Instr) (x : BitVec 40) : Parsed :=
  let f := MatF.ofBits x
  coded (MmaCtl.ofCode f.ctl.toNat) fun c =>
    .ok (mk { arow := f.arow, src := f.src, n := f.n, bank := flag f.bank, ctl := c, sreg := f.sreg, ev := f.ev,
              eve := flag f.eve, k := f.k })

/-- The M class (R68). -/
def decodeM (opc : Nat) (x : BitVec 40) : Parsed :=
  match opc with
  | 0x000 => let f := MatF.ofBits x
    coded (MFmt.ofCode f.k.toNat) fun fm =>
      if f.ctl.toNat < 2 then
        reserved (f.arow == 0 && f.n == 0 && f.ev == 0 && f.eve == 0)
          (.mwLoad fm (f.ctl == 1) (flag f.bank) f.src f.sreg)
      else .error .code
  | 0x001 => let f := MatF.ofBits x
    coded (MFmt.ofCode f.k.toNat) fun fm =>
      coded (Sparse.ofCode f.n.toNat) fun n =>
        reserved (f.arow == 0 && f.src == 0 && f.ctl == 0 && f.ev == 0 && f.eve == 0) (.mwLoads fm n (flag f.bank) f.sreg)
  | 0x002 => mat (fun f => f.arow == 0 && f.src == 0 && f.n == 0 && f.ctl == 0 && f.sreg == 0 && f.ev == 0 &&
      f.eve == 0 && f.k == 0) (fun f => .mwClr (flag f.bank)) x
  | 0x008 => let f := MatF.ofBits x
    coded (MFmt.ofCode f.k.toNat) fun fm =>
      if f.ctl.toNat < 2 then
        reserved (f.arow == 0 && f.n == 0 && f.bank == 0 && f.sreg == 0 && f.ev == 0 && f.eve == 0)
          (.mfmt fm (f.ctl == 1) f.src)
      else .error .code
  | 0x010 => matMma .mma x
  | 0x011 => matMma .mmaS x
  | 0x018 => mat (fun f => f.bank == 0 && f.ctl == 0 && f.sreg == 0 && f.ev == 0 && f.eve == 0)
      (fun f => .maccRd f.arow f.src f.n f.k) x
  | 0x019 => mat (fun f => f.bank == 0 && f.ctl == 0 && f.sreg == 0 && f.ev == 0 && f.eve == 0)
      (fun f => .maccWr f.arow f.src f.n f.k) x
  | 0x01A => let f := MatF.ofBits x
    if f.ctl.toNat < 2 then
      reserved (f.bank == 0 && f.ev == 0 && f.eve == 0) (.maccCvt (f.ctl == 1) f.arow f.src f.n f.sreg f.k)
    else .error .code
  | 0x01B => mat (fun f => f.src == 0 && f.bank == 0 && f.ctl == 0 && f.sreg == 0 && f.ev == 0 && f.eve == 0 &&
      f.k == 0) (fun f => .maccZero f.arow f.n) x
  | 0x01C => mat (fun f => f.src == 0 && f.bank == 0 && f.ctl == 0 && f.k == 0)
      (fun f => .maccSpill f.arow f.n f.sreg f.ev (flag f.eve)) x
  | 0x01D => mat (fun f => f.src == 0 && f.bank == 0 && f.ctl == 0 && f.k == 0)
      (fun f => .maccFill f.arow f.n f.sreg f.ev (flag f.eve)) x
  | 0x020 => mat (fun f => f.arow == 0 && f.src == 0 && f.n == 0 && f.bank == 0 && f.ctl == 0 && f.ev == 0 &&
      f.eve == 0 && f.k == 0) (fun f => .mstat f.sreg) x
  | _ => .error .unassigned

/-- The operand field of an opcode of a class (R65 to R68). -/
def decodeOp (cls : Nat) (opc : Nat) (x : BitVec 40) : Parsed :=
  match cls with
  | 0 => decodeCommon opc x
  | 1 => decodeL opc x
  | 2 => decodeV opc x
  | _ => decodeM opc x

/-- The instructions that require the sync bit (R53). -/
def needsSync (i : Instr) : Bool :=
  match i with
  | .rgnBegin => true
  | .rgnKeep .. => true
  | .rgnEnd => true
  | .rgnAbort => true
  | _ => false

/-- The decode checks of R49 but for those on the strand: the syllable's control bits and instruction, or the reason
why it is none. -/
def decode (w : Word) : Except Malformed (Ctl × Instr) :=
  let ctl := Ctl.ofBits (w.extractLsb' 52 12)
  match decodeOp (w.extractLsb' 50 2).toNat (w.extractLsb' 40 10).toNat (w.extractLsb' 0 40) with
  | .error e => .error e
  | .ok i =>
    match malformed i with
    | some e => .error e
    | none => if needsSync i && !ctl.sync then .error .noSync else .ok (ctl, i)

/-- A syllable's class and opcode are accepted on a strand (R12, R49.1, R49.3, R51). -/
def strandAccepts (w : Word) (st : Strand) : Bool :=
  let cls := (w.extractLsb' 50 2).toNat
  let opc := (w.extractLsb' 40 10).toNat
  match cls, st with
  | 0, .S => true
  | 0, _ => !((0x150 ≤ opc && opc ≤ 0x154) || opc == 0x183 || (0x188 ≤ opc && opc ≤ 0x1E2))
  | 1, .L => true
  | 2, .V => true
  | 3, .M => true
  | _, _ => false

/-- A syllable from its eight bytes, byte 0 at the lowest address (R39). -/
def wordOfBytes (bs : Bytes) : Word := bs.foldr (fun b w => (w <<< 8) ||| b.setWidth 64) 0

/-- The eight bytes of a syllable (R39). -/
def bytesOfWord (w : Word) : Bytes := (List.range 8).map fun i => w.extractLsb' (8 * i) 8

/-- The instruction that the decoder reads from a syllable's bits as spec/opcode_table.json numbers them. -/
def decodeTableWord (_nbits w : Nat) : Option Instr :=
  match decode (wordOfBytes (bytesOfWord (BitVec.ofNat 64 w))) with
  | .ok (_, i) => some i
  | .error _ => none

/-! The encoder. -/

/-- Bits of F.RRR (R45). -/
def RRR.toBits (f : RRR) : BitVec 40 := f.d ++ f.a ++ f.b ++ f.c ++ f.fn
/-- Bits of F.RRI (R45). -/
def RRI.toBits (f : RRI) : BitVec 40 := f.d ++ f.a ++ f.imm
/-- Bits of F.RI (R45). -/
def RIF.toBits (f : RIF) : BitVec 40 := f.d ++ f.imm
/-- Bits of F.MEM (R45). -/
def MemF.toBits (f : MemF) : BitVec 40 := f.d ++ f.base ++ f.off ++ f.land
/-- Bits of F.VEC (R45). -/
def VecF.toBits (f : VecF) : BitVec 40 := f.d ++ f.a ++ f.b ++ f.k ++ f.ty ++ f.fn
/-- Bits of F.SYS (R45). -/
def SysF.toBits (f : SysF) : BitVec 40 := f.d ++ f.a ++ f.b ++ f.x ++ f.imm
/-- Bits of F.PB (R45). -/
def PbF.toBits (f : PbF) : BitVec 40 := f.b ++ f.off
/-- Bits of F.MAT (R48). -/
def MatF.toBits (f : MatF) : BitVec 40 := f.arow ++ f.src ++ f.n ++ f.bank ++ f.ctl ++ f.sreg ++ f.ev ++ f.eve ++ f.k

/-- A Bool as one bit. -/
def bit (b : Bool) : BitVec 1 := if b then 1#1 else 0#1

/-- Bits 63:52 (R38). -/
def Ctl.toBits (c : Ctl) : BitVec 12 :=
  bit c.gn ++ c.gp ++ c.stall ++ bit c.pl ++ bit c.pr ++ bit c.wl ++ bit c.wr ++ bit c.sync

/-- Scope codes (R47). -/
def Scope.code : Scope → BitVec 3 | .strand => 0 | .hall => 1 | .storey => 2 | .device => 3 | .fabric => 4
/-- Width codes (R47). -/
def Width.code : Width → BitVec 2 | .B => 0 | .H => 1 | .W => 2 | .D => 3
/-- Width codes of SEXT and ZEXT (R96). -/
def ExtW.code : ExtW → BitVec 2 | .B => 0 | .H => 1 | .W => 2
/-- Condition codes of CMP (R47). -/
def Cond.code : Cond → BitVec 3 | .EQ => 0 | .NE => 1 | .LT => 2 | .GE => 3 | .LTU => 4 | .GEU => 5
/-- Condition codes of FCMP (R47). -/
def FCond.code : FCond → BitVec 3 | .EQ => 0 | .NE => 1 | .LT => 2 | .GE => 3 | .UN => 4
/-- Condition codes of VCMP (R166). -/
def VCond.code : VCond → BitVec 3 | .EQ => 0 | .NE => 1 | .LT => 2 | .GE => 3 | .UN => 4 | .LTU => 4 | .GEU => 5
/-- Operation codes of AMO (R47). -/
def AmoOp.code : AmoOp → BitVec 3
  | .ADD => 0 | .FADD => 1 | .MIN => 2 | .MAX => 3 | .AND => 4 | .OR => 5 | .XOR => 6 | .SWAP => 7
/-- Order codes (R47). -/
def Order.code : Order → BitVec 2 | .RLX => 0 | .ACQ => 1 | .REL => 2 | .AR => 3
/-- Type codes of F.VEC (R47). -/
def ETy.code : ETy → BitVec 3 | .F32 => 0 | .BF16 => 1 | .F16 => 2 | .I32 => 4 | .I16 => 5 | .I8 => 6
/-- Type codes of FCVT (R110). -/
def CTy.code : CTy → BitVec 3 | .F32 => 0 | .BF16 => 1 | .F16 => 2 | .I32 => 4 | .U32 => 5 | .I64 => 6 | .U64 => 7
/-- Format codes of F.MAT (R48). -/
def MFmt.code : MFmt → BitVec 3 | .BF16 => 0 | .FP16 => 1 | .RN8 => 2
/-- ctl codes of MMA (R48). -/
def MmaCtl.code : MmaCtl → BitVec 2 | .OW => 0 | .ACC => 1 | .SCL => 2
/-- Sparsity codes (R48). -/
def Sparse.code : Sparse → BitVec 7 | .N16 => 0 | .N32 => 1 | .N64 => 2 | .N128 => 3
/-- Kind codes of RGN.KEEP (R231). -/
def KeepKind.code : KeepKind → BitVec 2 | .T => 0 | .A => 1 | .G => 2
/-- Kind codes of CP.RESUME (R194). -/
def CopyKind.code : CopyKind → BitVec 2 | .CP => 0 | .CP2D => 1 | .FILL => 2 | .MM => 3
/-- Operation codes of the reductions (R176). -/
def RedOp.code : RedOp → BitVec 3 | .ADD => 0 | .MIN => 1 | .MAX => 2
/-- Level codes of BOOST.REQ (R222). -/
def Level.code : Level → BitVec 2 | .nominal => 0 | .B1 => 1 | .B2 => 2
/-- Operation codes of TRACK (R229). -/
def TrackOp.code : TrackOp → BitVec 2 | .disarm => 0 | .arm => 1 | .harvest => 2
/-- Class codes of LIFE.SET (R234). -/
def LifeClass.code : LifeClass → BitVec 3 | .E0 => 0 | .E1 => 1 | .E2 => 2 | .E3 => 3 | .E4 => 4 | .P => 5
/-- Policy codes of LIFE.SET (R234). -/
def LifePolicy.code : LifePolicy → BitVec 2 | .EXPIRE => 0 | .REFRESH => 1

/-- Operand bits of F.RRR. -/
def rrrE (d a b c : BitVec 6) (fn : BitVec 16) : BitVec 40 := RRR.toBits { d, a, b, c, fn }
/-- Operand bits of F.RRI. -/
def rriE (d a : BitVec 6) (imm : BitVec 28) : BitVec 40 := RRI.toBits { d, a, imm }
/-- Operand bits of F.MEM. -/
def memE (d base : BitVec 6) (off : BitVec 16) (land : BitVec 12) : BitVec 40 := MemF.toBits { d, base, off, land }
/-- Operand bits of F.SYS. -/
def sysE (d a b x : BitVec 6) (imm : BitVec 16) : BitVec 40 := SysF.toBits { d, a, b, x, imm }
/-- Operand bits of F.VEC. -/
def vecE (d a b : BitVec 6) (k : BitVec 3) (ty : ETy) (fn : BitVec 16) : BitVec 40 :=
  VecF.toBits { d, a, b, k, ty := ty.code, fn }
/-- A landing offset in imm. -/
def landE (l : BitVec 12) : BitVec 16 := 0#4 ++ l
/-- A scope in x. -/
def scopeE (sc : Scope) : BitVec 6 := 0#3 ++ sc.code
/-- The imm field of copies and Hazel commands, with the kind of CP.RESUME. -/
def qE (kind : BitVec 2) (c : QCtl) : BitVec 16 := 0#5 ++ kind ++ bit c.we ++ c.ev ++ c.scope.code
/-- fn of AMO and CAS. -/
def amoE (w : Width) (o : Order) (l : BitVec 12) : BitVec 16 := w.code ++ o.code ++ l
/-- fn of a conversion. -/
def cvtE (hi sat rz : Bool) (st : ETy) : BitVec 16 := 0#10 ++ bit hi ++ bit sat ++ bit rz ++ st.code
/-- Operand bits of MMA and MMA.S. -/
def mmaE (f : MmaF) : BitVec 40 :=
  MatF.toBits { arow := f.arow, src := f.src, n := f.n, bank := bit f.bank, ctl := f.ctl.code, sreg := f.sreg,
                ev := f.ev, eve := bit f.eve, k := f.k }
/-- Operand bits of the accumulator moves. -/
def maccE (arow : BitVec 9) (src : BitVec 6) (n : BitVec 7) (ctl : BitVec 2) (sreg : BitVec 6) (ev : BitVec 5)
    (eve : Bool) (k : BitVec 3) : BitVec 40 :=
  MatF.toBits { arow, src, n, bank := 0, ctl, sreg, ev, eve := bit eve, k }

/-- Operand bits of F.MAT with no event. -/
def matE (arow : BitVec 9) (src : BitVec 6) (n : BitVec 7) (bank : BitVec 1) (ctl : BitVec 2) (sreg : BitVec 6)
    (k : BitVec 3) : BitVec 40 :=
  MatF.toBits { arow, src, n, bank, ctl, sreg, ev := 0, eve := 0, k }

/-- Class, opcode and operand bits of an instruction; none for a step that has no encoding. -/
structure Encoded where
  cls : BitVec 2
  opc : BitVec 10
  ops : BitVec 40
  deriving DecidableEq, Repr

/-- Common class. -/
def encC (opc : BitVec 10) (ops : BitVec 40) : Option Encoded := some { cls := 0, opc, ops }
/-- L class. -/
def encL (opc : BitVec 10) (ops : BitVec 40) : Option Encoded := some { cls := 1, opc, ops }
/-- V class. -/
def encV (opc : BitVec 10) (ops : BitVec 40) : Option Encoded := some { cls := 2, opc, ops }
/-- M class. -/
def encM (opc : BitVec 10) (ops : BitVec 40) : Option Encoded := some { cls := 3, opc, ops }

/-- The opcode and the operand bits of an instruction (R45 to R48, R65 to R68 and the instruction entries). -/
def encodeOp (i : Instr) : Option Encoded :=
  match i with
  | .add d a b => encC 0x000 (rrrE d a b 0 0)
  | .sub d a b => encC 0x001 (rrrE d a b 0 0)
  | .mul d a b => encC 0x002 (rrrE d a b 0 0)
  | .mulh d a b => encC 0x003 (rrrE d a b 0 0)
  | .mulhu d a b => encC 0x004 (rrrE d a b 0 0)
  | .div d a b => encC 0x005 (rrrE d a b 0 0)
  | .divu d a b => encC 0x006 (rrrE d a b 0 0)
  | .rem d a b => encC 0x007 (rrrE d a b 0 0)
  | .remu d a b => encC 0x008 (rrrE d a b 0 0)
  | .and d a b => encC 0x009 (rrrE d a b 0 0)
  | .or d a b => encC 0x00A (rrrE d a b 0 0)
  | .xor d a b => encC 0x00B (rrrE d a b 0 0)
  | .andn d a b => encC 0x00C (rrrE d a b 0 0)
  | .shl d a b => encC 0x00D (rrrE d a b 0 0)
  | .shr d a b => encC 0x00E (rrrE d a b 0 0)
  | .sar d a b => encC 0x00F (rrrE d a b 0 0)
  | .rol d a b => encC 0x010 (rrrE d a b 0 0)
  | .ror d a b => encC 0x011 (rrrE d a b 0 0)
  | .min d a b => encC 0x012 (rrrE d a b 0 0)
  | .max d a b => encC 0x013 (rrrE d a b 0 0)
  | .minu d a b => encC 0x014 (rrrE d a b 0 0)
  | .maxu d a b => encC 0x015 (rrrE d a b 0 0)
  | .abs d a => encC 0x016 (rrrE d a 0 0 0)
  | .clz d a => encC 0x017 (rrrE d a 0 0 0)
  | .ctz d a => encC 0x018 (rrrE d a 0 0 0)
  | .popc d a => encC 0x019 (rrrE d a 0 0 0)
  | .brev d a => encC 0x01A (rrrE d a 0 0 0)
  | .sext d a w => encC 0x01B (rrrE d a 0 0 (0#14 ++ w.code))
  | .zext d a w => encC 0x01C (rrrE d a 0 0 (0#14 ++ w.code))
  | .sel d a b p => encC 0x01D (rrrE d a b p 0)
  | .lea d a b sh => encC 0x01E (rrrE d a b 0 (0#13 ++ sh))
  | .bext d a b w sx => encC 0x01F (rrrE d a b w (0#15 ++ bit sx))
  | .bins d a b w => encC 0x020 (rrrE d a b w 0)
  | .addi d a imm => encC 0x040 (rriE d a imm)
  | .muli d a imm => encC 0x041 (rriE d a imm)
  | .andi d a imm => encC 0x042 (rriE d a imm)
  | .ori d a imm => encC 0x043 (rriE d a imm)
  | .xori d a imm => encC 0x044 (rriE d a imm)
  | .shli d a n => encC 0x045 (rriE d a (0#22 ++ n))
  | .shri d a n => encC 0x046 (rriE d a (0#22 ++ n))
  | .sari d a n => encC 0x047 (rriE d a (0#22 ++ n))
  | .movi d imm => encC 0x048 (RIF.toBits { d, imm })
  | .movhi d imm => encC 0x049 (RIF.toBits { d, imm := 0#2 ++ imm })
  | .bexti d a off w sx => encC 0x04A (rriE d a (0#13 ++ bit sx ++ w ++ off))
  | .binsi d a off w => encC 0x04B (rriE d a (0#14 ++ w ++ off))
  | .cmp cc pd pe a b => encC 0x060 (rrrE (pd ++ pe) a b 0 (0#13 ++ cc.code))
  | .cmpi cc pd pe a imm => encC 0x061 (rriE (pd ++ pe) a (cc.code ++ imm))
  | .fcmp cc pd pe a b => encC 0x062 (rrrE (pd ++ pe) a b 0 (0#13 ++ cc.code))
  | .plog pd pe pa pb fn => encC 0x063 (rrrE (pd ++ pe) (pa ++ pb) 0 0 (0#12 ++ fn))
  | .pget d => encC 0x064 (rrrE d 0 0 0 0)
  | .pset a mask => encC 0x065 (rrrE 0 a 0 0 (0#8 ++ mask))
  | .fadd d a b => encC 0x080 (rrrE d a b 0 0)
  | .fsub d a b => encC 0x081 (rrrE d a b 0 0)
  | .fmul d a b => encC 0x082 (rrrE d a b 0 0)
  | .fmin d a b => encC 0x084 (rrrE d a b 0 0)
  | .fmax d a b => encC 0x085 (rrrE d a b 0 0)
  | .fdiv d a b => encC 0x086 (rrrE d a b 0 0)
  | .ffma d a b e => encC 0x083 (rrrE d a b e 0)
  | .fsqrt d a => encC 0x087 (rrrE d a 0 0 0)
  | .fcvt dst src rz d a => encC 0x088 (rrrE d a 0 0 (0#9 ++ bit rz ++ dst.code ++ src.code))
  | .pb b off => encC 0x0A0 (PbF.toBits { b, off })
  | .pba b a imm => encC 0x0A1 (rriE b a imm)
  | .br b => encC 0x0A2 (sysE 0 0 b 0 0)
  | .call d b => encC 0x0A3 (sysE d 0 b 0 0)
  | .ret a => encC 0x0A4 (sysE 0 a 0 0 0)
  | .loop a b => encC 0x0A5 (sysE 0 a b 0 0)
  | .nop => encC 0x0A6 0
  | .evPost x => encC 0x0C0 (sysE 0 0 0 x 0)
  | .evWait x => encC 0x0C1 (sysE 0 0 0 x 0)
  | .evPostx x a => encC 0x0C2 (sysE 0 a 0 x 0)
  | .evTest pd pe x => encC 0x0C3 (sysE (pd ++ pe) 0 0 x 0)
  | .ldB d a off l => encC 0x100 (memE d a off l)
  | .ldBz d a off l => encC 0x101 (memE d a off l)
  | .ldH d a off l => encC 0x102 (memE d a off l)
  | .ldHz d a off l => encC 0x103 (memE d a off l)
  | .ldW d a off l => encC 0x104 (memE d a off l)
  | .ldWz d a off l => encC 0x105 (memE d a off l)
  | .ldD d a off l => encC 0x106 (memE d a off l)
  | .stB d a off => encC 0x107 (memE d a off 0)
  | .stH d a off => encC 0x108 (memE d a off 0)
  | .stW d a off => encC 0x109 (memE d a off 0)
  | .stD d a off => encC 0x10A (memE d a off 0)
  | .amo op w sc o d a b l => encC 0x140 (rrrE d a b (op.code ++ sc.code) (amoE w o l))
  | .cas w sc o d a b l => encC 0x141 (rrrE d a b (0#3 ++ sc.code) (amoE w o l))
  | .stmr w a b => encC 0x142 (rrrE 0 a b 0 (w.code ++ 0#14))
  | .phase sc => encC 0x148 (sysE 0 0 0 (scopeE sc) 0)
  | .fenceMk m => encC 0x149 (sysE 0 0 0 0 (0#13 ++ m))
  | .join => encC 0x14A 0
  | .gjoin sc d a l => encC 0x150 (sysE d a 0 (scopeE sc) (landE l))
  | .gleave a => encC 0x151 (sysE 0 a 0 0 0)
  | .barArrive a => encC 0x152 (sysE 0 a 0 0 0)
  | .barWait a => encC 0x153 (sysE 0 a 0 0 0)
  | .barSync a => encC 0x154 (sysE 0 a 0 0 0)
  | .csrr d num => encC 0x180 (sysE d 0 0 0 (landE num))
  | .csrw num a => encC 0x181 (sysE 0 a 0 0 (landE num))
  | .trap code => encC 0x182 (sysE 0 0 0 0 code)
  | .eret => encC 0x183 0
  | .tfence => encC 0x184 0
  | .ntag id => encC 0x185 (sysE 0 0 0 0 (0#8 ++ id))
  | .sliceEnd => encC 0x188 0
  | .sliceYield => encC 0x189 0
  | .rangeNext d a l => encC 0x18A (sysE d a 0 0 (landE l))
  | .hintSucc => encC 0x18B 0
  | .waitPred => encC 0x18C 0
  | .ckpt a b => encC 0x18D (sysE 0 a b 0 0)
  | .boostReq l => encC 0x18E (sysE 0 0 0 0 (0#14 ++ l.code))
  | .launch a b => encC 0x190 (sysE 0 a b 0 0)
  | .enqX a b => encC 0x191 (sysE 0 a b 0 0)
  | .wsetBind d a l => encC 0x192 (sysE d a 0 0 (landE l))
  | .freeze d a b => encC 0x198 (sysE d a b 0 0)
  | .thaw d a b => encC 0x199 (sysE d a b 0 0)
  | .track op a b => encC 0x19A (sysE 0 a b 0 (0#14 ++ op.code))
  | .rgnBegin => encC 0x1C0 0
  | .rgnKeep k a b => encC 0x1C1 (sysE 0 a b 0 (0#14 ++ k.code))
  | .rgnEnd => encC 0x1C2 0
  | .rgnAbort => encC 0x1C3 0
  | .rgnStat d => encC 0x1C4 (sysE d 0 0 0 0)
  | .lifeSet a b cl p => encC 0x1E0 (sysE 0 a b 0 (0#11 ++ p.code ++ cl.code))
  | .lifeAge d a l => encC 0x1E1 (sysE d a 0 0 (landE l))
  | .lifeRef a b => encC 0x1E2 (sysE 0 a b 0 0)
  | .ldt d a off l => encL 0x000 (memE d a off l)
  | .stt d a off => encL 0x001 (memE d a off 0)
  | .ldtG d a b l => encL 0x002 (rrrE d a b 0 (landE l))
  | .sttS d a b => encL 0x003 (rrrE d a b 0 0)
  | .sbind x a l => encL 0x008 (sysE 0 a 0 x (landE l))
  | .sstat d x => encL 0x009 (sysE d 0 0 x 0)
  | .sdrop x => encL 0x00A (sysE 0 0 0 x 0)
  | .cp d a b x q => encL 0x010 (sysE d a b x (qE 0 q))
  | .cp2D d a b x q => encL 0x011 (sysE d a b x (qE 0 q))
  | .cpMm d a b x q => encL 0x012 (sysE d a b x (qE 0 q))
  | .cpFill d a b x q => encL 0x013 (sysE d a b x (qE 0 q))
  | .cpWait sc d a l => encL 0x014 (sysE d a 0 (scopeE sc) (landE l))
  | .cpResume k d a b x q => encL 0x015 (sysE d a b x (qE k.code q))
  | .hzPool d a q => encL 0x020 (sysE d a 0 0 (qE 0 q))
  | .hzRoot d a q => encL 0x021 (sysE d a 0 0 (qE 0 q))
  | .hzDesc d a b q => encL 0x022 (sysE d a b 0 (qE 0 q))
  | .hzExpand d a b q => encL 0x023 (sysE d a b 0 (qE 0 q))
  | .hzBack d a b q => encL 0x024 (sysE d a b 0 (qE 0 q))
  | .hzSweep d q => encL 0x025 (sysE d 0 0 0 (qE 0 q))
  | .hzRead d a b x q => encL 0x026 (sysE d a b x (qE 0 q))
  | .vshape t d r co => encV 0x000 (vecE d 0 0 0 t (0#4 ++ co ++ r))
  | .vmov t d a k => encV 0x001 (vecE d a 0 k t 0)
  | .vsplat t d a k => encV 0x002 (vecE d a 0 k t 0)
  | .vins t d a r co k => encV 0x003 (vecE d a 0 k t (0#4 ++ co ++ r))
  | .vext t d a r co k => encV 0x004 (vecE d a 0 k t (0#4 ++ co ++ r))
  | .vzero t d k => encV 0x005 (vecE d 0 0 k t 0)
  | .viota t d a k => encV 0x006 (vecE d a 0 k t 0)
  | .vadd t d a b k => encV 0x010 (vecE d a b k t 0)
  | .vsub t d a b k => encV 0x011 (vecE d a b k t 0)
  | .vmul t d a b k => encV 0x012 (vecE d a b k t 0)
  | .vfma t d a b k => encV 0x013 (vecE d a b k t 0)
  | .vmin t d a b k => encV 0x014 (vecE d a b k t 0)
  | .vmax t d a b k => encV 0x015 (vecE d a b k t 0)
  | .vdiv t d a b k => encV 0x018 (vecE d a b k t 0)
  | .vclamp t d a b k => encV 0x01A (vecE d a b k t 0)
  | .vand t d a b k => encV 0x025 (vecE d a b k t 0)
  | .vor t d a b k => encV 0x026 (vecE d a b k t 0)
  | .vxor t d a b k => encV 0x027 (vecE d a b k t 0)
  | .vshl t d a b k => encV 0x028 (vecE d a b k t 0)
  | .vshr t d a b k => encV 0x029 (vecE d a b k t 0)
  | .vsar t d a b k => encV 0x02A (vecE d a b k t 0)
  | .vpermc t d a b k => encV 0x066 (vecE d a b k t 0)
  | .vabs t d a k => encV 0x016 (vecE d a 0 k t 0)
  | .vneg t d a k => encV 0x017 (vecE d a 0 k t 0)
  | .vsqrt t d a k => encV 0x019 (vecE d a 0 k t 0)
  | .vrcp t d a k => encV 0x040 (vecE d a 0 k t 0)
  | .vrsq t d a k => encV 0x041 (vecE d a 0 k t 0)
  | .vexp2 t d a k => encV 0x042 (vecE d a 0 k t 0)
  | .vlog2 t d a k => encV 0x043 (vecE d a 0 k t 0)
  | .vsin t d a k => encV 0x044 (vecE d a 0 k t 0)
  | .vcos t d a k => encV 0x045 (vecE d a 0 k t 0)
  | .vtanh t d a k => encV 0x046 (vecE d a 0 k t 0)
  | .vlogi t d a k => encV 0x047 (vecE d a 0 k t 0)
  | .viadd t d a b k sat u => encV 0x020 (vecE d a b k t (0#14 ++ bit u ++ bit sat))
  | .visub t d a b k sat u => encV 0x021 (vecE d a b k t (0#14 ++ bit u ++ bit sat))
  | .vimul t d a b k sat u => encV 0x022 (vecE d a b k t (0#14 ++ bit u ++ bit sat))
  | .vimin t d a b k u => encV 0x023 (vecE d a b k t (0#14 ++ bit u ++ 0#1))
  | .vimax t d a b k u => encV 0x024 (vecE d a b k t (0#14 ++ bit u ++ 0#1))
  | .vcmp cc t d a b k => encV 0x030 (vecE d a b k t (0#13 ++ cc.code))
  | .vsel t d a b k ks => encV 0x031 (vecE d a b k t (0#13 ++ ks))
  | .vklog d a b fn => encV 0x032 (VecF.toBits { d, a, b, k := 0, ty := 0, fn := 0#12 ++ fn })
  | .vkcnt d a b => encV 0x033 (VecF.toBits { d, a, b, k := 0, ty := 0, fn := 0 })
  | .vcvt dt st rz sat d a k => encV 0x050 (vecE d a 0 k dt (cvtE false sat rz st))
  | .vpack dt st rz sat d a b k => encV 0x051 (vecE d a b k dt (cvtE false sat rz st))
  | .vunpk dt st hi d a k => encV 0x052 (vecE d a 0 k dt (cvtE hi false false st))
  | .vrotc t d a n k => encV 0x060 (vecE d a 0 k t (0#8 ++ n))
  | .vrotr t d a n k => encV 0x061 (vecE d a 0 k t (0#12 ++ n))
  | .vbcc t d a j k => encV 0x062 (vecE d a 0 k t (0#8 ++ j))
  | .vbcr t d a j k => encV 0x063 (vecE d a 0 k t (0#12 ++ j))
  | .vredc op u t d a k => encV 0x064 (vecE d a 0 k t (0#12 ++ bit u ++ op.code))
  | .vredr op u t d a k => encV 0x065 (vecE d a 0 k t (0#12 ++ bit u ++ op.code))
  | .vtrn t d a j k => encV 0x067 (vecE d a 0 k t (0#12 ++ j))
  | .mwLoad f im bk src sreg => encM 0x000 (matE 0 src 0 (bit bk) (0#1 ++ bit im) sreg f.code)
  | .mwLoads f n bk sreg => encM 0x001 (matE 0 0 n.code (bit bk) 0 sreg f.code)
  | .mwClr bk => encM 0x002 (matE 0 0 0 (bit bk) 0 0 0)
  | .mfmt f st src => encM 0x008 (matE 0 src 0 0 (0#1 ++ bit st) 0 f.code)
  | .mma f => encM 0x010 (mmaE f)
  | .mmaS f => encM 0x011 (mmaE f)
  | .maccRd arow src n k => encM 0x018 (maccE arow src n 0 0 0 false k)
  | .maccWr arow src n k => encM 0x019 (maccE arow src n 0 0 0 false k)
  | .maccCvt tf arow src n sreg k => encM 0x01A (maccE arow src n (0#1 ++ bit tf) sreg 0 false k)
  | .maccZero arow n => encM 0x01B (maccE arow 0 n 0 0 0 false 0)
  | .maccSpill arow n sreg ev eve => encM 0x01C (maccE arow 0 n 0 sreg ev eve 0)
  | .maccFill arow n sreg ev eve => encM 0x01D (maccE arow 0 n 0 sreg ev eve 0)
  | .mstat d => encM 0x020 (maccE 0 0 0 0 d 0 false 0)
  | .syncGroupIssue .. | .resultWrite .. | .landingDataArrival .. | .landingPoint .. | .writeQueueDrain ..
  | .publicationAck .. | .atomicPerform .. | .mrContributionArrival | .barTimeout .. | .queueStall ..
  | .streamPrefetch .. | .checkerMatch .. | .rollback .. | .rollbackResume .. | .copyCommandStart .. | .copyBurst ..
  | .copyComplete .. | .followOnEntry .. | .matrixCommandStart .. | .mmaRowFeed .. | .operandsConsumed ..
  | .mmaResultWrite .. | .weightFillComplete .. | .maccComplete .. | .engineEventPost .. | .hazelCommandStart ..
  | .hazelNodeAtomic .. | .walkComplete .. | .invalidationComplete .. | .trapRecordComplete .. | .trapQueueEntry ..
  | .trapRecordOpen .. | .ntstatRead .. | .thresholdWindowEnd .. | .errinjArm .. | .budget .. | .sliceSelect ..
  | .sliceResume .. | .deadlinePassed .. | .stealRequest .. | .stealServe .. | .stealRetryWait .. | .spillEntryReturn ..
  | .preEmptionDecision .. | .checkpointWindowExpiry .. | .predecDrain .. | .predecCheckpoint .. | .predecKill ..
  | .predecCancel .. | .freezeCapture .. | .partXinv .. | .xsvcWalkAgain .. | .xsvcFail .. | .partEvqRead ..
  | .spillBaseWrite .. | .controlRegisterWrite .. | .ageStep .. | .refresh .. | .heartbeat .. | .autonomousMode ..
  | .rejoinHeartbeat .. | .sweep .. | .temperatureReading .. | .wipeComplete .. | .deviceReset
  | .accessCounterHalving | .boostInterval .. | .portTraining .. | .portDown .. | .crcFailure .. | .fabricTimeout ..
  | .creditOnly .. | .hostLaunch .. | .controlWindowRead .. | .controlWindowWrite .. | .response ..
  | .bulkWriteRequest .. | .bulkReadRequest .. | .bulkData .. | .fabricAtomic .. | .fabricPublication ..
  | .publicationAcknowledgement .. | .barrierArrival .. | .proxyTokenMessage .. | .tokenWithdrawal ..
  | .phaseCompleteMessage .. | .groupJoinMessage .. | .groupLeaveMessage .. | .multicastReduceContribution ..
  | .interruptToHost .. | .fabricRead .. | .fabricWrite .. | .lcstate .. | .attest .. | .assign .. | .modid ..
  | .wsdesc .. | .wspub .. | .ckall .. | .restall .. | .super .. | .keyx .. | .sweepEnd .. | .roundSumMessage ..
  | .unknownTypeMessage .. | .discardedFlit .. => none

/-- The syllable of an instruction with its control bits (R38); none for a step that has no encoding. -/
def encode (c : Ctl) (i : Instr) : Option Word :=
  match encodeOp i with
  | some e => some (c.toBits ++ e.cls ++ e.opc ++ e.ops)
  | none => none

/-- Control bits all clear: no guard, no stall, no tokens, no sync. -/
def Ctl.plain : Ctl :=
  { gn := false, gp := 0, stall := 0, pl := false, pr := false, wl := false, wr := false, sync := false }

end Sys2Proof
end

