-- ==== Sys2Proof/Machine/Flags.lean ====
section
/-! DEFINITION. Sticky flags and the counters of numerical events (R88 to R94). -/

namespace Sys2Proof.Machine

/-- The bit of NTSTAT and the number of the threshold register of a class (R93, R94). -/
def NClass.idx : NClass → Nat
  | .SAT => 0
  | .FTZ => 1
  | .NAN => 2

/-- NCFG.CNT (R90). -/
def Slice.counting (sl : Slice) : Bool := sl.ncfg.getLsbD 8
/-- NCFG.THR (R90). -/
def Slice.checking (sl : Slice) : Bool := sl.ncfg.getLsbD 9
/-- NCFG.TEN (R90). -/
def Slice.trapEnable (sl : Slice) : BitVec 6 := sl.ncfg.extractLsb' 0 6

/-- A 32-bit count that saturates (R91). -/
def satAdd32 (a : BitVec 32) (n : Nat) : BitVec 32 :=
  if a.toNat + n < 2 ^ 32 then BitVec.ofNat 32 (a.toNat + n) else BitVec.allOnes 32

/-- The window of a threshold takes n events: the register, and whether one of them brings the count from LIMIT to LIMIT + 1 (R93). A
window reports one crossing at most. -/
def Thresh.take (t : Thresh) (n : Nat) : Thresh × Bool :=
  let c := t.count + n
  let crosses := !t.crossed && t.count ≤ t.limit.toNat && t.limit.toNat < c
  ({ t with count := c, crossed := t.crossed || crosses }, crosses)

/-- n events of a class charged to a tensor identifier: per-tensor counts under CNT (R91), thresholds under THR (R93,
R94). The second part says whether the partition's host interrupt is to be sent. -/
def Slice.countEvents (sl : Slice) (c : NClass) (tid n : Nat) : Slice × Bool :=
  if n = 0 then (sl, false)
  else
    let key := 3 * tid + c.idx
    let sl := if sl.counting then { sl with counters := sset sl.counters key (satAdd32 (sget sl.counters key) n) } else sl
    if sl.checking then
      let t := sl.thresh[c.idx]?.getD { limit := 0, win := 0, act := false, pos := 0, from_ := 0, count := 0, crossed := false }
      let (t', crosses) := t.take n
      ({ sl with
          thresh := sl.thresh.setIfInBounds c.idx t'
          ntstat := if crosses then sl.ntstat ||| BitVec.ofNat 3 (2 ^ c.idx) else sl.ntstat }, crosses && t.act)
    else (sl, false)

/-- NFLAGS after an operation: flags are set and never cleared (R88). -/
def StrandState.setFlags (x : StrandState) (f : BitVec 6) : StrandState := { x with nflags := x.nflags ||| f }

end Sys2Proof.Machine
end

