-- ==== Sys2Proof/Machine/Ops.lean ====
section
/-! DEFINITION. The named operations over registers, results, tokens and events that the meanings share, and taking a trap
(R391 to R396). -/

namespace Sys2Proof.Machine

/-- What a step answers. -/
abbrev Out := Host.Outcome State Fault Refusal

/-! Halls and strands. -/

/-- A Hall. -/
def State.hall (s : State) (h : HallId) : Hall := s.halls[h.toNat]'h.isLt
/-- Replace a Hall. -/
def State.setHall (s : State) (h : HallId) (x : Hall) : State := { s with halls := s.halls.set h.toNat x h.isLt }
/-- Change a Hall. -/
def State.onHall (s : State) (h : HallId) (f : Hall → Hall) : State := s.setHall h (f (s.hall h))

/-- The strand of a slice's work. -/
def Work.strand (w : Work) : Strand → StrandState
  | .S => w.S
  | .L => w.L
  | .V => w.V
  | .M => w.M

/-- Replace a strand. -/
def Work.setStrand (w : Work) (st : Strand) (x : StrandState) : Work :=
  match st with
  | .S => { w with S := x }
  | .L => { w with L := x }
  | .V => { w with V := x }
  | .M => { w with M := x }

/-- Change the slice-owned part of a Hall. -/
def Hall.onWork (H : Hall) (f : Work → Work) : Hall := { H with work := f H.work }
/-- Change a strand of a Hall. -/
def Hall.onStrand (H : Hall) (st : Strand) (f : StrandState → StrandState) : Hall :=
  { H with work := H.work.setStrand st (f (H.work.strand st)) }
/-- Change the running slice of a Hall. -/
def Hall.onSlice (H : Hall) (f : Slice → Slice) : Hall := { H with slice := H.slice.map f }

/-- A strand of a Hall. -/
def State.strand (s : State) (h : HallId) (st : Strand) : StrandState := (s.hall h).work.strand st
/-- Change a strand of a Hall. -/
def State.onStrand (s : State) (h : HallId) (st : Strand) (f : StrandState → StrandState) : State :=
  s.onHall h (Hall.onStrand · st f)

/-- The Hall whose syllable is being performed. -/
def State.here (s : State) : Hall := s.hall s.curHall
/-- The strand whose syllable is being performed. -/
def State.me (s : State) : StrandState := s.here.work.strand s.curStrand
/-- Change the Hall whose syllable is being performed. -/
def State.onHere (s : State) (f : Hall → Hall) : State := s.onHall s.curHall f
/-- Change the strand whose syllable is being performed. -/
def State.onMe (s : State) (f : StrandState → StrandState) : State := s.onStrand s.curHall s.curStrand f
/-- Commands that a copy queue holds (R194): its 32 places count the one in progress. -/
def Hall.copyLoad (H : Hall) : Nat := H.cq.length + H.copy.isSome.toNat
/-- Commands that a Hazel queue holds (R236): its 16 places count the one in progress. -/
def Hall.hazelLoad (H : Hall) : Nat := H.hq.length + H.hz.isSome.toNat

/-! Places in the engine queues (R16). A place is free when one was free at the start of the Hall cycle, and still is: a place that is freed in a
cycle is seen from the next one on, and one that is taken in it is taken (log 25). -/

/-- No place is free in the copy queue. -/
def Hall.copyFull (H : Hall) : Bool := 32 ≤ H.sampledCq || 32 ≤ H.copyLoad
/-- A bank. -/
def bankIdx (b : Bool) : Nat := b.toNat

/-- A bank filled by a command, with the format that it gives (R180, R182 to R184). -/
def fillOf : Instr → Option (Bool × Bank)
  | .mwLoad fmt _ b _ _ => some (b, { fmt := some fmt, sparse := .N128 })
  | .mwLoads fmt n b _ => some (b, { fmt := some fmt, sparse := n })
  | .mwClr b => some (b, .none)
  | _ => none

/-- The formats as issued that the commands in the queue leave the banks (R180): where later fills have been discarded, those of the fills that
remain, and of the banks as they stand (DESIGN CHOICE, log 51). -/
def Hall.reissued (H : Hall) : Hall :=
  { H with issued := H.mq.foldl (fun v c => match fillOf c.op with | some (b, k) => v.setIfInBounds (bankIdx b) k | none => v) H.work.banks }

/-- No place is free in the matrix queue (R178). A command that has started takes its place until it has been performed (DESIGN CHOICE, log 52). -/
def Hall.matrixFull (H : Hall) : Bool := 16 ≤ H.sampledMq || 16 ≤ H.mq.length
/-- No place is free in the Hazel queue. -/
def Hall.hazelFull (H : Hall) : Bool := 16 ≤ H.sampledHq || 16 ≤ H.hazelLoad

/-- Change the slice whose syllable is being performed. -/
def State.onSlice (s : State) (f : Slice → Slice) : State := s.onHere (Hall.onSlice · f)

/-- Supervisor mode (R14): the running slice belongs to its partition's supervisor context. -/
def State.superMode (s : State) : Bool := match s.here.slice with | some sl => sl.super | none => false
/-- The context that runs (R33). -/
def State.asid (s : State) : Asid := match s.here.slice with | some sl => sl.asid | none => 0
/-- The partition of the context that runs (R33). -/
def State.partId (s : State) : PartId := match s.here.slice with | some sl => sl.part | none => 0
/-- Recovery regions open in the running slice (R231). -/
def State.depth (s : State) : Nat := match s.here.slice with | some sl => sl.regions.length | none => 0

/-- A partition. -/
def State.part (s : State) (p : PartId) : Part := s.parts[p.toNat]'p.isLt
/-- Change a partition. -/
def State.onPart (s : State) (p : PartId) (f : Part → Part) : State :=
  { s with parts := s.parts.set p.toNat (f (s.part p)) p.isLt }

/-- Halls of a storey (R2). -/
def storeyOf (h : HallId) : Nat := h.toNat / 32
/-- The plinth of a Hall (R2): 128 Halls each. -/
def plinthOf (h : HallId) : Nat := h.toNat / 128
/-- The power domain of a Hall (R427): eight Halls each. -/
def domainOf (h : HallId) : Nat := h.toNat / 8

/-- Device time in ns (R4), a count without an upper end: a read of its 64 bits wraps after 2^64 - 1, which comparisons inside the device do not
(DESIGN CHOICE, log 33). -/
def State.devtime (s : State) : Nat := s.tick / 5544

/-! Free values. -/

/-- Take a free delay and advance the counter (log 2). -/
def State.drawDelay (s : State) : Nat × State := (Config.delay s.free, { s with free := s.free + 1 })
/-- Take a free choice and advance the counter (log 2). -/
def State.drawChoice (s : State) : Nat × State := (Config.choice s.free, { s with free := s.free + 1 })

/-! Registers (R11, R13). -/

/-- A scalar register; s0 reads zero. -/
def StrandState.reg (x : StrandState) (n : Nat) : Word := if n = 0 then 0 else x.s[n]?.getD 0
/-- Write a scalar register; a write to s0 is discarded. -/
def StrandState.setReg (x : StrandState) (n : Nat) (v : Word) : StrandState :=
  if n = 0 then x else { x with s := x.s.setIfInBounds n v }
/-- A predicate; p0 reads true. -/
def StrandState.pred (x : StrandState) (n : Nat) : Bool := if n = 0 then true else x.p[n]?.getD false
/-- Write a predicate; a write to p0 is discarded. -/
def StrandState.setPred (x : StrandState) (n : Nat) (v : Bool) : StrandState :=
  if n = 0 then x else { x with p := x.p.setIfInBounds n v }
/-- A branch-target register. -/
def StrandState.btgt (x : StrandState) (n : Nat) : BTgt := x.b[n]?.getD { addr := 0, prepared := false, ready := 0 }
/-- Write a branch-target register. -/
def StrandState.setBtgt (x : StrandState) (n : Nat) (v : BTgt) : StrandState := { x with b := x.b.setIfInBounds n v }

/-- A scalar register of the strand at issue. -/
def State.rs (s : State) (n : BitVec 6) : Word := s.me.reg n.toNat

/-- A shape register of a Hall (R27). -/
def Work.shape (w : Work) (t : Nat) : BitVec 16 := w.shapes[t]?.getD 0
/-- A byte of a tile (R27). -/
def Work.tileByte (w : Work) (t b : Nat) : Byte := sget w.tiles (4096 * t + b)
/-- Bit (r, c) of mask k; k0 reads all ones (R28). -/
def Work.maskBit (w : Work) (k r c : Nat) : Bool := k == 0 || sget w.masks (4096 * k + 256 * r + c) == 1#1
/-- An accumulator entry (R31). -/
def Hall.accEntry (H : Hall) (row col : Nat) : BitVec 64 := sget H.acc (128 * row + col)
/-- A weight of a bank: depth k, logical column j (R32, R183). -/
def Work.weight (w : Work) (bank k j : Nat) : BitVec 16 := sget w.weights ((128 * bank + k) * 512 + j)

/-! The scoreboard (R22). -/

/-- Registers that an update writes. One of a tile or a mask in which no element is touched, or that sets no flag, writes none, and leaves no
pending write (R159; DESIGN CHOICE, log 46). -/
def Upd.writes : Upd → List Src
  | .sreg n _ => [.s n]
  | .preg n _ => [.p n]
  | .btgt n _ _ => [.b n]
  | .tile cells => match cells with | [] => [] | c :: _ => [.tile (c.1 / 4096)]
  | .mask bits => match bits with | [] => [] | c :: _ => [.mask (c.1 / 4096)]
  | .shape _ _ => []
  | .flags f => if f = 0 then [] else [.flags]
  | .count _ _ _ => []
  | .ntid _ => []
  | .bind q _ => [.q q]
  | .renew _ => []
  | .learn _ => []

/-- Registers with a pending write: fixed-latency results and landing destinations. -/
def StrandState.pendingRegs (x : StrandState) : List Src :=
  (x.pends.flatMap fun p => p.upds.flatMap Upd.writes) ++ (x.slots.flatMap fun t => t.dests)

/-- A register that reads as a constant has no pending write to see: s0, p0 and k0 (R13, R28). -/
def Src.constant : Src → Bool
  | .s n => n == 0
  | .p n => n == 0
  | .b _ => false
  | .tile _ => false
  | .mask n => n == 0
  | .q _ => false
  | .flags => false

/-- A read of one of these registers meets a pending write while the scoreboard is on (R22). -/
def StrandState.stallShort (x : StrandState) (rd : List Src) : Bool :=
  x.sbchk && rd.any fun r => !r.constant && x.pendingRegs.contains r

/-! Results and issue (R19 to R25). -/

/-- A fixed-latency result of the strand at issue (R20). -/
def State.result (s : State) (lat : Nat) (us : List Upd) : State :=
  s.onMe fun x => { x with seq := x.seq + 1, pends := x.pends ++ [{ seq := x.seq, due := x.local_ + lat, upds := us }] }

/-- The syllable issues. -/
def State.issue (s : State) : State := { s with issued := true }

/-- The syllable does not issue in this Hall cycle, and its strand is frozen (R16, R19). -/
def State.freeze (s : State) : State := { s.onMe (fun x => { x with frozen := true }) with issued := false }

/-- The syllable waits for a unit that an earlier syllable of its strand occupies; the strand is not frozen (R16). -/
def State.hold (s : State) : State := { s with issued := false }

/-! Traps. -/

/-- Place in the ring S, L, M, V. -/
def strandIdx : Strand → Nat
  | .S => 0 | .L => 1 | .M => 2 | .V => 3

/-- A strand stands again at a syllable that has not issued. -/
def StrandState.backTo (x : StrandState) (pc : Word) : StrandState := { x with pc := pc, wait := .none }

/-- A SLICE.END that is stopped before it has ended the slice: neither it nor its sync group has issued (R121, R215, R315, R393; log 23). -/
def Hall.unend (H : Hall) : Hall :=
  match H.slice with
  | none => H
  | some sl =>
    match sl.endFrom with
    | none => H
    | some e =>
      if sl.ending then
        { H with
          work := { H.work with S := H.work.S.backTo e.S, L := H.work.L.backTo e.L, M := H.work.M.backTo e.M, V := H.work.V.backTo e.V, toks := e.toks }
          slice := some { sl with ending := false, endFrom := none } }
      else H

/-- A stop for a cause on a strand. A rollback that an error of the same Hall cycle was to begin is held (R351). -/
def Hall.stopFor (H : Hall) (st : Strand) (i : TrapInfo) : Hall :=
  let H := H.unend
  let t : Trapped := { strand := st, info := i, cycle := H.cycle, complete := false, queued := false, told := false, held := none }
  match H.back with
  | some b =>
    if b.found = H.cycle ∧ !b.applied ∧ !b.abort then
      { H with trap := some { t with held := some { depth := b.target, code := b.code, strand := st, pc := (H.work.strand st).pc } }
               back := none }
    else { H with trap := some t }
  | none => { H with trap := some t }

/-- The outer of two held errors (R351). -/
def outer (a : Option Held) (b : Held) : Option Held :=
  match a with | none => some b | some x => some (if b.depth < x.depth then b else x)

/-- Another cause of the same Hall cycle is recorded instead: a MACHINE_CHECK, which no strand meets again, is held (R351, R393). -/
def Trapped.replaced (t : Trapped) (st : Strand) (i : TrapInfo) : Trapped :=
  { t with
    strand := st, info := i
    held := if t.info.cause = .MACHINE_CHECK then outer t.held { depth := 0, code := t.info.detail, strand := t.strand, pc := t.info.addr } else t.held }

/-- Raise a cause on a strand of a Hall. When another cause has stopped the slice already, no second record is made: the strand
stops and meets its cause again on resumption; of two causes in one Hall cycle the first in ring order is recorded (R392, R393). -/
def State.raise (s : State) (h : HallId) (st : Strand) (i : TrapInfo) : State :=
  s.onHall h fun H =>
    match H.trap with
    | none => H.stopFor st i
    | some t =>
      if t.cycle = H.cycle ∧ !t.complete ∧ strandIdx st < strandIdx t.strand then { H with trap := some (t.replaced st i) }
      else H

/-- Raise a cause exactly at the syllable at issue: it takes no effect (R50, R120). -/
def State.trapHere (s : State) (i : TrapInfo) : State :=
  { s.raise s.curHall s.curStrand i with issued := false, trapped := true }

/-- Raise a cause with no further information exactly at the syllable at issue. -/
def State.trapCause (s : State) (c : Cause) : State := s.trapHere { cause := c }

/-- A cause that a strand meets now is recorded: no other has stopped the slice, but for one of this Hall cycle on a later strand
(R392, R393). -/
def Hall.records (H : Hall) (st : Strand) : Bool :=
  match H.trap with
  | none => true
  | some t => t.cycle == H.cycle && !t.complete && strandIdx st < strandIdx t.strand

/-- The syllable issues and then stops its strand at the following boundary, where the cause is raised: TRAP and TFENCE
(R211, R213). Where another cause of the Hall cycle is recorded instead, the strand stops before the syllable and meets its cause again
(R393). -/
def State.trapAfter (s : State) (i : TrapInfo) : State :=
  let ok := s.here.records s.curStrand
  { s.raise s.curHall s.curStrand i with issued := ok, trapped := !ok }

/-- Codes of the causes (R391). -/
def causeCode : Cause → Nat
  | .ILLEGAL => 0x01 | .PRIV => 0x02 | .ALIGN => 0x03 | .XLATE => 0x04 | .PROT => 0x05 | .EXPIRED => 0x06
  | .INTEGRITY => 0x07 | .SPILL_FULL => 0x08 | .BAR_OVERRUN => 0x09 | .BAR_TIMEOUT => 0x0A | .STALL_SHORT => 0x0B
  | .BUDGET => 0x0C | .ACC_FOREIGN => 0x0D | .ARITH => 0x0E | .QUEUE_STALL => 0x0F | .REGION_LIMIT => 0x10
  | .MACHINE_CHECK => 0x11 | .BREAK => 0x12

/-- Codes of the strands in TRAP.CAUSE (R395). -/
def strandCode : Strand → Nat
  | .S => 0 | .L => 1 | .M => 2 | .V => 3

/-- Codes of the kinds of access (R395). -/
def accessCode : Access → Nat
  | .none => 0 | .fetch => 1 | .load => 2 | .store => 3 | .atomic => 4 | .tile => 5 | .engine => 6 | .system => 7

/-- A syllable that reads registers: STALL_SHORT when one of them has a pending write under the scoreboard (R22), else
what it does. -/
def State.reading (s : State) (rd : List Src) (k : State → State) : State :=
  if s.me.stallShort rd then s.trapCause .STALL_SHORT else k s

/-- As reading, for a syllable that waits for a place in a queue or for a landing slot: registers are read in the Hall cycle in which it issues, and so
while none is free it only waits (R16, R22). -/
def State.readingWhen (s : State) (full : Bool) (rd : List Src) (k : State → State) : State :=
  if full && s.me.stallShort rd then s.freeze else s.reading rd k

/-- A syllable that reads registers and has a fixed-latency result, and does nothing else (R20). -/
def State.compute (s : State) (rd : List Src) (lat : Nat) (us : List Upd) : State :=
  s.reading rd fun s => (s.result lat us).issue

/-! The ring, tokens and events (R15, R17, R117). -/

/-- Right neighbour (R15). -/
def rightOf : Strand → Strand
  | .S => .L | .L => .M | .M => .V | .V => .S
/-- Left neighbour (R15). -/
def leftOf : Strand → Strand
  | .S => .V | .L => .S | .M => .L | .V => .M

/-- The four strands in ring order. -/
def ring : List Strand := [.S, .L, .M, .V]

/-- The queue into which a strand pushes towards its right (or left) neighbour. -/
def tokQ (from_ : Strand) (right : Bool) : Nat := if right then strandIdx from_ else 4 + strandIdx from_

/-- One strand's entry of a table of store numbers. -/
def Seen.get (x : Seen) : Strand → Nat
  | .S => x.S | .L => x.L | .M => x.M | .V => x.V
/-- Raise one strand's entry. -/
def Seen.up (x : Seen) (st : Strand) (n : Nat) : Seen :=
  match st with
  | .S => { x with S := max x.S n }
  | .L => { x with L := max x.L n }
  | .M => { x with M := max x.M n }
  | .V => { x with V := max x.V n }
/-- What either knows. -/
def Seen.join (x y : Seen) : Seen :=
  { S := max x.S y.S, L := max x.L y.L, M := max x.M y.M, V := max x.V y.V }

/-- The place of an agent's last known publication. -/
def Clock.get (c : Clock) (a : Agent) : Option Nat := (c.find? fun e => e.1 == a).map (·.2)
/-- Know a publication of an agent. -/
def Clock.up (c : Clock) (a : Agent) (n : Nat) : Clock :=
  match c with
  | [] => [(a, n)]
  | (b, m) :: t => if b = a then (b, max m n) :: t else (b, m) :: Clock.up t a n
/-- What either knows. -/
def Clock.join (c d : Clock) : Clock := d.foldl (fun c e => c.up e.1 e.2) c

/-- What either orders. -/
def Stamp.join (a b : Stamp) : Stamp := { seen := a.seen.join b.seen, clock := Clock.join a.clock b.clock, heard := a.heard.join b.heard }

/-- What a clock says of the stores of a slice's strands. -/
def Clock.storesOf (c : Clock) (id : Nat) : Seen :=
  ring.foldl (fun t st => match c.get (.stores id st) with | some n => t.up st n | none => t) { S := 0, L := 0, M := 0, V := 0 }

/-- A clock that also counts stores of a slice's strands. -/
def Clock.withStores (c : Clock) (id : Nat) (t : Seen) : Clock :=
  ring.foldl (fun c st => if t.get st = 0 then c else c.up (.stores id st) (t.get st)) c

/-- What happens before the next event of a strand of a slice (R277): the publications that it knows, and the stores of its slice's strands that
it knows, its own so far among them. -/
def StrandState.knows (x : StrandState) (id : Nat) (st : Strand) : Clock := x.clock.withStores id (x.heard.up st x.stores)

/-- The order that a push or a post by a strand of a slice makes: its own stores so far, and what it knows (R275, R277, R279). -/
def StrandState.stamp (x : StrandState) (id : Nat) (st : Strand) : Stamp :=
  { seen := x.seen.up st x.stores, clock := x.knows id st, heard := x.heard.up st x.stores }

/-- The slice of a Hall, by its number. -/
def Hall.sliceId (H : Hall) : Nat := match H.slice with | some sl => sl.id | none => 0

/-- What a strand of a Hall knows. -/
def State.knownBy (s : State) (h : HallId) (st : Strand) : Clock := (s.strand h st).knows (s.hall h).sliceId st
/-- What the strand at issue knows. -/
def State.known (s : State) : Clock := s.knownBy s.curHall s.curStrand

/-- A strand acquires what a stamp orders (R275, R277, R279). -/
def StrandState.acquire (x : StrandState) (t : Stamp) : StrandState :=
  { x with seen := x.seen.join t.seen, clock := Clock.join x.clock t.clock, heard := x.heard.join t.heard }

/-- Ev[e] as sampled at the start of the Hall cycle (R117). -/
def Hall.evSample (H : Hall) (e : Nat) : Nat := H.sampledEv[e]?.getD 0
/-- Takes granted in this Hall cycle. -/
def Hall.evTakes (H : Hall) (e : Nat) : Nat := H.takes[e]?.getD 0
/-- Posts granted in this Hall cycle. -/
def Hall.evPosts (H : Hall) (e : Nat) : Nat := H.postsNow[e]?.getD 0
/-- An event. -/
def Work.ev (w : Work) (e : Nat) : HEvent := w.evs[e]?.getD { count := 0, stamp := .empty, next := .empty }

/-- A take is available (R117). -/
def Hall.canTake (H : Hall) (e : Nat) : Bool := H.evTakes e < H.evSample e
/-- A post of n fits (R117). -/
def Hall.canPost (H : Hall) (e n : Nat) : Bool := H.evSample e + H.evPosts e + n ≤ 255

/-- Grant a take (R117): what the posts made before this Hall cycle order is acquired by the taker. -/
def Hall.take (H : Hall) (e : Nat) : Hall :=
  { H with takes := H.takes.setIfInBounds e (H.evTakes e + 1) }
/-- Grant a post of n with its order (R117). -/
def Hall.post (H : Hall) (e n : Nat) (t : Stamp) : Hall :=
  let v := H.work.ev e
  let w := { H.work with evs := H.work.evs.setIfInBounds e { v with next := v.next.join t } }
  { H with postsNow := H.postsNow.setIfInBounds e (H.evPosts e + n), work := w }

/-- A message for the host is on its way out: it takes port 0 or 1 (R404). -/
def State.send (s : State) (m : Instr) : State := { s with outbox := s.outbox ++ [{ dst := none, ports := 3, msg := m }] }

/-- The number that stands for the module itself where a port is meant: traffic of a member to itself takes no port. -/
def loopPort : Nat := 12

/-- A message for a member of a partition's fabric group (R413): over the ports of its route; one to itself arrives at
once. -/
def State.sendTo (s : State) (p : PartId) (m : Nat) (msg : Instr) : State :=
  if m = (s.part p).fabIndex.toNat then { s with inbox := s.inbox ++ [(loopPort, msg)] }
  else
    let r := (s.part p).routes[m]?.getD 0
    { s with outbox := s.outbox ++ [{ dst := some (r.extractLsb' 16 16), ports := r.setWidth 12, msg := msg }] }

/-- The next tag of a message that the module sends. -/
def State.newTag (s : State) : Nat × State := (s.nextTag % 65536, { s with nextTag := s.nextTag + 1 })

/-- The member that a physical address of the fabric range lies in, and the offset there (R414). -/
def fabMember (p : Nat) : Nat := (p - 0xE0000000000) / 0x800000000
/-- The offset in its member's slice. -/
def fabOffset (p : Nat) : Word := BitVec.ofNat 64 ((p - 0xE0000000000) % 0x800000000)

/-- The interrupt of a partition (R409): reason 1 with the Hall, the context and the reason code; names: what else it names (log 24). -/
def State.interrupt (s : State) (p : PartId) (h : Nat) (asid : Asid) (code : Nat) (names : Option Nat := none) : State :=
  let m : Instr := .interruptToHost (p.setWidth 8) 1 (leBytes 8 h ++ leBytes 2 asid.toNat ++ leBytes 2 code)
  { s with outbox := s.outbox ++ [{ dst := none, ports := 3, msg := m, names := names }] }

/-- The bit of a class in NTSTAT (R94). -/
def NClass.bit : NClass → Nat
  | .SAT => 0 | .FTZ => 1 | .NAN => 2

/-- The slice of a Hall counts events; a crossing with ACT set sends the partition's host interrupt (R94). -/
def State.countOn (s : State) (h : HallId) (c : NClass) (tid n : Nat) : State :=
  match (s.hall h).slice with
  | none => s
  | some sl =>
    let (sl', irq) := sl.countEvents c tid n
    let s := s.onHall h fun H => { H with slice := some sl' }
    if irq then s.interrupt sl.part h.toNat sl.asid 1 (some c.bit) else s

end Sys2Proof.Machine
end

