-- ==== Sys2Proof/Machine/Visible.lean ====
section
/-! DEFINITION. Who sees which versions of a line (R272, R273, R279): scopes, seats, readers, and the byte that a version holds. -/

namespace Sys2Proof.Machine

/-! Scopes and agents (R272). -/

/-- An agent that stands on a Hall. -/
def Agent.onHall : Agent → Bool
  | .strand _ _ => true | .engine _ _ => true | .switch _ => false | .device => false | .host => false | .module _ => false | .stores _ _ => false

/-- Two agents of one Hall are of one HALL instance: strands of one slice, and the Hall's engines. -/
def Agent.sameSlice : Agent → Agent → Bool
  | .strand a _, .strand b _ => a == b
  | _, _ => true

/-- An agent of another module of the fabric group. -/
def Agent.far : Agent → Bool
  | .module _ => true | .stores _ _ => false | .strand _ _ => false | .engine _ _ => false | .switch _ => false | .device => false | .host => false

/-- Where an agent stands: its Hall, and the fabric group of its context (R272). -/
structure Seat where
  agent : Agent
  hall : HallId
  fab : BitVec 16
  deriving DecidableEq, Repr

/-- The writer of a version. -/
def Version.seat (v : Version) : Seat := { agent := v.agent, hall := v.hall, fab := v.fab }

/-- Scope X covers agent B for agent A (R272): at FABRIC, every agent of this module, and those of the other modules of A's fabric group. -/
def covers (x : Scope) (a b : Seat) : Bool :=
  a.agent == b.agent ||
  match x with
  | .strand => false
  | .hall => a.agent.onHall && b.agent.onHall && a.hall == b.hall && a.agent.sameSlice b.agent
  | .storey => a.agent.onHall && b.agent.onHall && storeyOf a.hall == storeyOf b.hall
  | .device => !a.agent.far && !b.agent.far
  | .fabric => !b.agent.far || (a.fab != 0 && a.fab == b.fab)

/-- Width of a scope in the order of R272. -/
def Scope.rank : Scope → Nat
  | .strand => 0 | .hall => 1 | .storey => 2 | .device => 3 | .fabric => 4

/-! Reading (R274, R279). -/

/-- Raise the version of a line in a floor. -/
def lineUp (l n : Nat) : List (Nat × Nat) → List (Nat × Nat)
  | [] => [(l, n)]
  | (k, m) :: t => if k = l then (k, max m n) :: t else (k, m) :: lineUp l n t
/-- The version of a line in a floor, 0 for none. -/
def lineAt (l : Nat) (f : List (Nat × Nat)) : Nat := match f.find? fun e => e.1 == l with | some e => e.2 | none => 0

/-- A reader: who reads, its floor, the versions it last read, the number of its last own store that comes before the
read, and what it knows of the stores of its slice's other strands. -/
structure Reader where
  agent : Agent
  hall : HallId
  floor : List (Nat × Nat)
  last : List (Nat × Nat)
  own : Nat
  seen : Seen
  fab : BitVec 16 := 0
  deriving DecidableEq, Repr

/-- Where a reader stands. -/
def Reader.seat (r : Reader) : Seat := { agent := r.agent, hall := r.hall, fab := r.fab }

/-- R279, condition 2. A strand's store later in program order than the read is none of its own. -/
def Reader.sees (r : Reader) (v : Version) : Bool :=
  if v.agent = r.agent then
    match v.agent with
    | .strand _ _ => v.num ≤ r.own
    | _ => true
  else covers v.scope v.seat r.seat

/-- A version that the reader must not fall behind, because it is its own or a store that a token, an event or a renewal
has made visible to it (R278, R279). -/
def Reader.holds (r : Reader) (v : Version) : Bool :=
  match v.agent, r.agent with
  | .strand a st, .strand b st' =>
    a == b && (if st = st' then v.num ≤ r.own else v.num != 0 && v.num ≤ r.seen.get st)
  | a, b => a == b

/-- The oldest version of a line that the reader may return (R279, conditions 3 and 4). -/
def Reader.least (r : Reader) (l : Nat) (vs : List Version) : Nat :=
  vs.foldl (fun m v => if r.holds v then max m v.id else m) (max (lineAt l r.floor) (lineAt l r.last))

/-- The versions of a line, newest first. -/
def State.versionsOf (s : State) (l : Nat) : List Version := s.hist.filter fun v => v.line == l

/-- The byte that a list of cells gives an address. -/
def cellAt (a : Nat) (cs : List Host.Cell) : Option Byte := (cs.find? fun c => c.1 == a).map (·.2)

/-- A byte of a line as version n holds it for the reader (R273): the newest write at or before n that the reader sees,
else what the home held before the first write that it does not see. -/
def State.byteAs (s : State) (r : Reader) (vs : List Version) (n a : Nat) : Byte :=
  match (vs.filter fun v => v.id ≤ n && r.sees v).findSome? fun v => cellAt a v.cells with
  | some b => b
  | none =>
    match (vs.filter (·.home)).reverse.findSome? fun v => cellAt a v.olds with
    | some b => b
    | none => Memory.byte s.mem a

/-! The device's own reads of tables (R387). -/

/-- The device as a reader at DEVICE (R272, R387). -/
def deviceReader : Reader :=
  { agent := .device, hall := 0, floor := [], last := [], own := 0, seen := { S := 0, L := 0, M := 0, V := 0 } }

/-- A byte at its home as it stands published at DEVICE or more widely (R274, R387). -/
def State.homeByte (s : State) (a : Nat) : Byte :=
  let vs := (s.versionsOf (a / 64)).filter (·.home)
  if vs.all deviceReader.sees then Memory.byte s.mem a else s.byteAs deviceReader vs s.vers a

end Sys2Proof.Machine
end

