-- ==== Sys2Proof/Machine/Space.lean ====
section
/-! DEFINITION. Physical space (R35, R36, R302, R415), the translation tables as they stand in memory (R383 to R385), and
the checks that an access makes on its windows (R120, R343, R386). -/

namespace Sys2Proof.Machine

/-- What a device-physical address names (R35). -/
inductive Space where
  | hbm
  | undercroft
  | gallery (h : HallId)
  | control (p : PartId) (off : Nat)
  | reduce
  | fabric (m : Nat) (o : Nat)
  | hole
  deriving DecidableEq, Repr

/-- First address of the galleries (R35). -/
def galleryTop : Nat := 0x40000000000
/-- First address of a Hall's gallery (R35). -/
def galleryBase (h : HallId) : Nat := galleryTop + h.toNat * 0x4000000

/-- The window of a 44-bit physical address (R35, R302, R414). -/
def spaceOf (p : Nat) : Space :=
  if p < 0x6000000000 then .hbm
  else if p < 0x10000000000 then .hole
  else if p < 0x20000000000 then .undercroft
  else if p < 0x40000000000 then .hole
  else if p < 0x40400000000 then .gallery (BitVec.ofNat 8 ((p - galleryTop) / 0x4000000))
  else if p < 0x80000000000 then .hole
  else if p < 0xC0000000000 then
    let o := p - 0x80000000000
    if o < 0x10000000 then .control (BitVec.ofNat 4 (o / 0x1000000)) (o % 0x1000000) else .hole
  else if p < 0xE0000000000 then .reduce
  else .fabric ((p - 0xE0000000000) / 0x800000000) ((p - 0xE0000000000) % 0x800000000)

/-- A line of HBM or the undercroft (R356). -/
def offDie (p : Nat) : Bool := match spaceOf p with
  | .hbm => true | .undercroft => true | .gallery _ => false | .control _ _ => false | .reduce => false
  | .fabric _ _ => false | .hole => false

/-- The row group of an address (R36), none outside the galleries. -/
def rowGroupOf (p : Nat) : Option Nat := match spaceOf p with
  | .gallery _ => some ((p - galleryTop) / 4096) | .hbm => none | .undercroft => none | .control _ _ => none
  | .reduce => none | .fabric _ _ => none | .hole => none

/-- First address of the own-gallery window (R34). -/
def ownBase : Nat := 0xFFF0000000000

/-- A value of n bytes at its home, as a walk reads it (R387): what is published at DEVICE or more widely. Of the versions that such a read may
return (R279) the model's walk takes the newest (DESIGN CHOICE, log 60). -/
def State.home (s : State) (p n : Nat) : Nat := leNat ((runFrom p n).map s.homeByte)

/-! Context records and tables. -/

/-- A doubleword of a context record (R383); zero for an ASID that is not the partition's. -/
def State.ctxWord (s : State) (p : PartId) (asid : Asid) (i : Nat) : BitVec 64 :=
  if (s.part p).asids.getLsbD asid.toNat then sget (s.part p).ctxRecs (8 * asid.toNat + i) else 0

/-- A doubleword of a context record as it is in force: as the last invalidation that has made it effective found it (R383, R389). -/
def State.ctxNow (s : State) (p : PartId) (asid : Asid) (i : Nat) : BitVec 64 :=
  if (s.part p).asids.getLsbD asid.toNat then sget (s.part p).ctxUsed (8 * asid.toNat + i) else 0

/-- The context record is VALID (R383). -/
def State.ctxValid (s : State) (p : PartId) (asid : Asid) : Bool := (s.ctxNow p asid 0).getLsbD 0

/-- The supervisor context of a partition (R383). -/
def State.superAsid (s : State) (p : PartId) : Option Asid :=
  ((List.range 4096).find? fun a => (s.ctxNow p (BitVec.ofNat 12 a) 0).extractLsb' 0 2 == 3#2).map (BitVec.ofNat 12)

/-- A translation: the part of a range or of a page that no earlier range covers, and where its first byte lies. off is
the offset of vbase in its range. -/
structure Trans where
  vbase : Nat
  vend : Nat
  pbase : Nat
  off : Nat
  r : Bool
  w : Bool
  x : Bool
  wset : Option (BitVec 32)
  page : Bool
  deriving DecidableEq, Repr

/-- A range-table entry (R384). -/
structure RangeRow where
  vbase : Nat
  vend : Nat
  pbase : Nat
  perm : BitVec 64
  deriving DecidableEq, Repr

/-- The range table of a context, in index order (R384, R387: one burst). -/
def State.rangeTable (s : State) (p : PartId) (asid : Asid) : List RangeRow :=
  let base := (s.ctxNow p asid 1).toNat
  (List.range (min (s.ctxNow p asid 2).toNat 256)).map fun i =>
    { vbase := s.home (base + 32 * i) 8, vend := s.home (base + 32 * i + 8) 8, pbase := s.home (base + 32 * i + 16) 8,
      perm := BitVec.ofNat 64 (s.home (base + 32 * i + 24) 8) }

/-- The greatest end at or below a, and the least beginning above it, among ranges that come earlier. -/
def gapAround (a : Nat) (rows : List RangeRow) : Nat × Nat :=
  rows.foldl (fun (g : Nat × Nat) e =>
    (if e.vend ≤ a then max g.1 e.vend else g.1, if a < e.vbase then min g.2 e.vbase else g.2)) (0, 2 ^ 52)

/-- The first entry that covers a (R384), cut to what no earlier entry covers. -/
def rangeFind (a : Nat) : List RangeRow → List RangeRow → Option Trans
  | _, [] => none
  | before, e :: rest =>
    if e.vbase ≤ a ∧ a < e.vend then
      let g := gapAround a before
      let lo := max e.vbase g.1
      let ws := e.perm.getLsbD 8
      some { vbase := lo, vend := min e.vend g.2, pbase := e.pbase + (lo - e.vbase), off := lo - e.vbase,
             r := e.perm.getLsbD 0, w := e.perm.getLsbD 1 && !ws, x := e.perm.getLsbD 2,
             wset := if ws then some (e.perm.extractLsb' 32 32) else none, page := false }
    else rangeFind a (e :: before) rest

/-- A leaf of the page tables: first address and size of the page, its frame, and its permissions. -/
structure Leaf where
  page : Nat
  size : Nat
  frame : Nat
  r : Bool
  w : Bool
  x : Bool
  deriving DecidableEq, Repr

/-- XLATE with a DETAIL (R386). -/
def xlate (d : Nat) : TrapInfo := { cause := .XLATE, detail := d }
/-- PROT with a DETAIL (R386). -/
def prot (d : Nat) : TrapInfo := { cause := .PROT, detail := d }

/-- The page tables from level n down, fuel levels left (R385, R386). -/
def State.pageWalk (s : State) (a : Nat) : Nat → Nat → Nat → Except TrapInfo Leaf
  | 0, n, _ => .error (xlate n)
  | fuel + 1, n, table =>
    let shift := 52 - 11 * n
    let e := BitVec.ofNat 64 (s.home (table + 8 * (a / 2 ^ shift % 2048)) 8)
    let leaf := e.getLsbD 1
    if !e.getLsbD 0 then .error (xlate n)
    else if e.extractLsb' 5 9 != 0 || e.extractLsb' 44 20 != 0 || (leaf && n == 1) || (!leaf && n == 3) ||
        (leaf && e.toNat % 2 ^ shift / 2 ^ 14 != 0) then .error (xlate (n + 4))
    else if leaf then
      .ok { page := a / 2 ^ shift * 2 ^ shift, size := 2 ^ shift,
            frame := e.toNat % 2 ^ 44 / 2 ^ shift * 2 ^ shift,
            r := e.getLsbD 2, w := e.getLsbD 3, x := e.getLsbD 4 }
    else s.pageWalk a fuel (n + 1) (e.toNat % 2 ^ 44 / 2 ^ 14 * 2 ^ 14)

/-- What the tables of a context say of an address below the top 1 TiB (R384). -/
def State.tableWalk (s : State) (p : PartId) (asid : Asid) (a : Nat) : Except TrapInfo Trans :=
  let rows := s.rangeTable p asid
  match rangeFind a [] rows with
  | some t => .ok t
  | none =>
    let root := (s.ctxNow p asid 3).toNat
    if root = 0 then .error (xlate 0)
    else match s.pageWalk a 3 1 root with
      | .error t => .error t
      | .ok l =>
        let g := gapAround a rows
        let lo := max l.page g.1
        .ok { vbase := lo, vend := min (l.page + l.size) g.2, pbase := l.frame + (lo - l.page), off := 0,
              r := l.r, w := l.w, x := l.x, wset := none, page := true }

/-! Weight sets (R226, R418). -/

/-- A bound version's descriptor. -/
def State.wsetOf (s : State) (binds : List (BitVec 32 × BitVec 32)) (set : BitVec 32) : Option WSet :=
  match binds.find? fun b => b.1 == set with
  | none => none
  | some b => s.wsets.toList.find? fun d => d.state != 0 && d.set == set && d.version == b.2

/-- The physical address of offset o of a version (R418): in the local shard, or over the fabric in another member's, where offset o of that member's
slice is that member's copy; a slice has no place for an o of 32 GiB or more, which is outside (R414; DESIGN CHOICE, log 64). -/
def WSet.locate (d : WSet) (self : Nat) (o : Nat) : Option Nat :=
  match d.shards.find? fun x => x.1.toNat ≤ o && o < x.2.1.toNat with
  | none => none
  | some (start, _, idx) =>
    let l := o - start.toNat
    if idx = self then
      some (if l < d.hlen.toNat then d.hbase.toNat + l else d.ubase.toNat + l - d.hlen.toNat)
    else if o < 0x800000000 then some (0xE0000000000 + idx * 0x800000000 + o)
    else none

/-! Checks. -/

/-- Kinds of access as the windows tell them apart (R120, R386). -/
inductive Kind where
  | load (w : Width) | store (w : Width) | atomic | tile | stmr | other | fetch
  deriving DecidableEq, Repr

/-- An access to be checked: its kind, the permissions it needs, and what a trap record says of it (R395). -/
structure Want where
  kind : Kind
  r : Bool
  w : Bool
  x : Bool
  access : Access
  width : Nat
  deriving DecidableEq, Repr

/-- Four or eight bytes. -/
def Width.wordOrMore : Width → Bool
  | .B => false | .H => false | .W => true | .D => true

/-- The window allows the kind (R120, step 4; R386 for fetches). -/
def Space.allows (sp : Space) (k : Kind) : Bool :=
  match sp, k with
  | .hbm, .stmr | .undercroft, .stmr | .gallery _, .stmr | .fabric _ _, .stmr | .control _ _, .stmr | .hole, .stmr => false
  | .reduce, .stmr => true
  | .reduce, _ => false
  | .control _ _, .load w => Width.wordOrMore w
  | .control _ _, .store w => Width.wordOrMore w
  | .control _ _, _ => false
  | .fabric _ _, .tile => false
  | .fabric _ _, .fetch => false
  | .hole, _ => false
  | _, _ => true

/-- Who makes an access; via: the Hall whose caches and walkers an engine's access uses, when it is not the slice's; slice: the slice of an
engine's command. -/
structure Who where
  hall : HallId
  asid : Asid
  part : PartId
  super : Bool
  via : Option HallId := none
  slice : Option Nat := none
  deriving DecidableEq, Repr

/-- A user-mode access to the undo pool or the effect log of a gallery (R343). What the model keeps of the undo records does not stand in these
bytes (log 31). -/
def State.inPool (s : State) (p : Nat) : Bool :=
  match spaceOf p with
  | .gallery h => 0x4000000 ≤ (p - galleryBase h) + (s.hall h).poolSize * 0x40000 + 0x2000
  | .hbm => false | .undercroft => false | .control _ _ => false | .reduce => false | .fabric _ _ => false
  | .hole => false

/-- The partition may not reach the physical address (R386, DETAIL 0x20); ws exempts a weight set from the check of the
pseudo-channel groups. -/
def State.foreign (s : State) (u : Who) (ws : Bool) (p : Nat) : Bool :=
  match spaceOf p with
  | .hole => true
  | .gallery h => !(s.part u.part).halls.getLsbD h.toNat || (!u.super && s.inPool p)
  | .hbm => !ws && !(s.part u.part).hbm.getLsbD (p / 0x180000000)
  | .undercroft => false
  | .control q _ => !u.super || q != u.part
  | .reduce => false
  | .fabric _ _ => false

/-- Checks of R414 and R137, made after every check of R120. -/
def State.lateForeign (s : State) (u : Who) (k : Kind) (p : Nat) : Bool :=
  match spaceOf p with
  | .fabric m _ => (s.part u.part).fabGroup == 0 || (s.part u.part).fabNmod.toNat ≤ m
  | .reduce => k == .stmr && (p - 0xC0000000000) / 0x100000 != u.part.toNat
  | .hbm => false | .undercroft => false | .gallery _ => false | .control _ _ => false | .hole => false

/-- How an address resolves. -/
inductive Resolved where
  | ok (p : Nat)
  | miss
  | fault (t : TrapInfo)
  deriving DecidableEq, Repr

/-- Complete a fault's information. -/
def Want.tell (k : Want) (a : Nat) (t : TrapInfo) : TrapInfo :=
  { t with access := k.access, width := k.width, addr := BitVec.ofNat 64 a }

/-- The checks of a physical result (R386, R120 step 4, R414, R137). -/
def State.landsOn (s : State) (u : Who) (k : Want) (ws : Bool) (a p : Nat) : Resolved :=
  if s.foreign u ws p then .fault (k.tell a (prot 0x20))
  else if !(spaceOf p).allows k.kind then .fault (k.tell a (prot 0x40))
  else if s.lateForeign u k.kind p then .fault (k.tell a (prot 0x20))
  else .ok p

/-- The use of a translation for an access (R384, R386): an entry of an unbound set translates nothing, whatever its permissions. -/
def State.through (s : State) (u : Who) (binds : List (BitVec 32 × BitVec 32)) (k : Want) (a : Nat) (t : Trans) : Resolved :=
  let denied := (k.r && !t.r) || (k.w && !t.w) || (k.x && !t.x)
  match t.wset with
  | none => if denied then .fault (k.tell a (prot 0x10)) else s.landsOn u k false a (t.pbase + (a - t.vbase))
  | some set =>
    match s.wsetOf binds set with
    | none => .fault (k.tell a (xlate 0x08))
    | some d =>
      if denied then .fault (k.tell a (prot 0x10))
      else match d.locate (s.part u.part).fabIndex.toNat (t.off + (a - t.vbase)) with
        | none => .fault (k.tell a (prot 0x20))
        | some p => s.landsOn u k true a p

/-- The translation in the caches of a Hall (R387): ranges before pages. -/
def Hall.cached (H : Hall) (asid : Asid) (a : Nat) : Option Trans :=
  match H.ranges.find? fun e => e.asid == asid && e.vbase ≤ a && a < e.vend with
  | some e => some { vbase := e.vbase, vend := e.vend, pbase := e.pbase, off := e.off, r := e.r, w := e.w, x := e.x,
                     wset := e.wset, page := false }
  | none =>
    match H.pages.find? fun e => e.asid == asid && e.vbase ≤ a && a < e.vend with
    | some e => some { vbase := e.vbase, vend := e.vend, pbase := e.pbase, off := 0, r := e.r, w := e.w, x := e.x,
                       wset := none, page := true }
    | none => none

/-- The weight sets that the running slice of a Hall has bound (R226). -/
def Hall.binds (H : Hall) : List (BitVec 32 × BitVec 32) := match H.slice with | some sl => sl.wsets | none => []

/-- The Hall whose caches and walkers an access uses. -/
def Who.at_ (u : Who) : HallId := u.via.getD u.hall

/-- A byte resolved by the tables themselves, as the device does. -/
def State.resolveDirect (s : State) (u : Who) (binds : List (BitVec 32 × BitVec 32)) (k : Want) (a : Nat) : Resolved :=
  if 2 ^ 52 ≤ a then .fault (k.tell a (xlate 0))
  else if ownBase ≤ a then
    (if a < ownBase + 0x4000000 then s.landsOn u k false a (galleryBase u.hall + (a - ownBase)) else .fault (k.tell a (xlate 0)))
  else match s.tableWalk u.part u.asid a with
    | .error t => .fault (k.tell a t)
    | .ok t => s.through u binds k a t

/-- A byte resolved by a Hall's caches for an agent with some bound weight sets; a walk that has just ended in a fault gives it (R387, R388). -/
def State.resolveBound (s : State) (u : Who) (binds : List (BitVec 32 × BitVec 32)) (k : Want) (a : Nat) : Resolved :=
  if 2 ^ 52 ≤ a then .fault (k.tell a (xlate 0))
  else if ownBase ≤ a then
    (if a < ownBase + 0x4000000 then s.landsOn u k false a (galleryBase u.hall + (a - ownBase)) else .fault (k.tell a (xlate 0)))
  else match (s.hall u.at_).cached u.asid a with
    | some t => s.through u binds k a t
    | none =>
      match (s.hall u.at_).walkFaults.find? fun f => f.asid == u.asid && f.key == a / 2 ^ 19 with
      | some f => .fault (k.tell a f.info)
      | none => .miss

/-- A byte resolved for a strand, with the sets that its slice has bound (R226, R387). -/
def State.resolveCached (s : State) (u : Who) (k : Want) (a : Nat) : Resolved := s.resolveBound u (s.hall u.hall).binds k a

/-- The bytes of an access, lowest first: their physical addresses, or the first that does not resolve (R431). -/
def resolveAll (f : Nat → Resolved) : List Nat → Except (Nat × Option TrapInfo) (List Nat)
  | [] => .ok []
  | a :: rest =>
    match f a with
    | .fault t => .error (a, some t)
    | .miss => .error (a, none)
    | .ok p =>
      match resolveAll f rest with
      | .error e => .error e
      | .ok ps => .ok (p :: ps)

end Sys2Proof.Machine
end

