-- ==== Sys2Proof/Machine/Memory.lean ====
section
/-! DEFINITION. Memory as phase consistency gives it (R271 to R279): versions of lines, what a reader may return, what a
renewal takes into a floor; and what a write at the home does to row groups, undo records, counters and dirty bits. -/

namespace Sys2Proof.Machine

/-! Row groups (R244). -/

/-- The lifetime state of a row group. Those of the undo pool and the effect log are the device's own, class P (R343); those that nothing has changed
one by one share the age and the request of their Hall's pool (log 31). -/
def State.rowGroup (s : State) (g : Nat) : RowGroup :=
  let H := s.hall (BitVec.ofNat 8 (g / 16384))
  let pool := s.inPool (galleryTop + 4096 * g)
  match s.rowGroups.find? fun e => e.1 == g with
  | some e => if pool then { e.2 with cls := .P, pol := .EXPIRE, valid := true } else e.2
  | none => if pool then { RowGroup.wiped with age := H.poolAge, cls := .P, valid := true, req := H.poolReq } else .wiped

/-- Replace an entry of an ascending table, dropping it when it is the default. -/
def rgPut (g : Nat) (v : RowGroup) : List (Nat × RowGroup) → List (Nat × RowGroup)
  | [] => if v = .wiped then [] else [(g, v)]
  | (k, x) :: t =>
    if k < g then (k, x) :: rgPut g v t
    else if k = g then (if v = .wiped then t else (g, v) :: t)
    else if v = .wiped then (k, x) :: t else (g, v) :: (k, x) :: t

/-- Replace the lifetime state of a row group. -/
def State.setRowGroup (s : State) (g : Nat) (v : RowGroup) : State := { s with rowGroups := rgPut g v s.rowGroups }

/-- Remove the poison and the uncorrectable errors of the words that a run of bytes covers whole (R263). -/
def State.clearPoison (s : State) (p : Nat → Bool) : State := { s with poison := s.poison.filter fun a => !p a }

/-- A covering write (R244, R252): age 0, valid, owner the writer's context, request withdrawn, poison cleared. -/
def State.coverRowGroup (s : State) (g : Nat) (asid : Asid) : State :=
  let v := s.rowGroup g
  (s.setRowGroup g { v with age := 0, valid := true, req := false, owner := asid.toNat + 1 }).clearPoison
    fun a => (a - galleryTop) / 4096 == g

/-! Choosing versions (R274, R279). -/

/-- The versions that a read of a line may return: 0 stands for what the home held before every version. -/
def Reader.choices (r : Reader) (l : Nat) (vs : List Version) : List Nat :=
  let least := r.least l vs
  let seen := (vs.filter fun v => least ≤ v.id && r.sees v).map (·.id)
  if least = 0 then seen ++ [0] else if seen.contains least then seen else seen ++ [least]

/-- Choose the version of each line of a read (R274, R279). -/
def State.chooseLines (s : State) (r : Reader) : List Nat → List (Nat × Nat) × State
  | [] => ([], s)
  | l :: rest =>
    let cs := r.choices l (s.versionsOf l)
    let (n, s) := match cs with
      | [] => (0, s)
      | [n] => (n, s)
      | n :: _ => let (k, s) := s.drawChoice; (cs.getD (k % cs.length) n, s)
    let (ns, s) := s.chooseLines r rest
    ((l, n) :: ns, s)

/-- Keep the first of equal neighbours and repeats. -/
def dedup : List Nat → List Nat
  | [] => []
  | a :: t => let r := dedup t; if r.contains a then r else a :: r

/-- The bytes at physical addresses as a reader returns them, and the version of each line (R274, R279). -/
def State.readBytes (s : State) (r : Reader) (ps : List Nat) : Bytes × List (Nat × Nat) × State :=
  let (ns, s) := s.chooseLines r (dedup (ps.map (· / 64)))
  let tab := ns.map fun e => (e.1, e.2, s.versionsOf e.1)
  let bytes := ps.map fun a =>
    match tab.find? fun e => e.1 == a / 64 with
    | some e => s.byteAs r e.2.2 e.2.1 a
    | none => Memory.byte s.mem a
  (bytes, ns, s)

/-! Access counters, host-assisted events (R400, R416). -/

/-- A word that a merged write leaves poisoned (R263). -/
def State.repoison (s : State) (u : Nat) : State := { s with poison := if s.poison.contains u then s.poison else s.poison ++ [u] }

/-- The Hall on which a slice runs. -/
def State.findSlice (s : State) (id : Nat) : Option HallId :=
  ((List.range 256).find? fun h =>
    match (s.hall (BitVec.ofNat 8 h)).slice with | some sl => sl.id == id | none => false).map (BitVec.ofNat 8)

/-- A count is posted to an event of a partition's supervisor slice (R118, R398); with none, or where it does not fit while that slice is switched
out, it waits (log 20). -/
def State.postSuper (s : State) (p : PartId) (ev : Nat) : State :=
  match (s.part p).supSlice with
  | none => s.onPart p fun P => { P with owed := P.owed ++ [ev] }
  | some id =>
    match s.findSlice id with
    | some h => s.onHall h fun H => { H with posts := H.posts ++ [{ ev := ev, queue := none, cmd := 0, stamp := .empty }] }
    | none =>
      if s.saved.any fun v => v.slice.id == id && 255 ≤ (v.work.ev ev).count then s.onPart p fun P => { P with owed := P.owed ++ [ev] }
      else
        { s with saved := s.saved.map fun v =>
            if v.slice.id = id then
              let e := v.work.ev ev
              { v with work := { v.work with evs := v.work.evs.setIfInBounds ev { e with count := e.count + 1 } } }
            else v }

/-- A host-assisted event (R400). -/
def hostEvent (kind hall : Nat) (asid : Asid) (tag pol detail : Nat) (arg : Word) : HostEvent :=
  { kind := kind, hall := hall, asid := asid.toNat, tag := tag, pol := pol, detail := detail, arg := arg }

/-- A host-assisted event is raised (R400). The agents that can wait look for room in the queue first; what else finds it full stands behind the 256
events until they have been read (DESIGN CHOICE, log 62). -/
def State.raiseEvent (s : State) (p : PartId) (e : HostEvent) : State :=
  let full := 256 ≤ (s.part p).evq.length
  let s := s.onPart p fun P => { P with evq := P.evq ++ [e] }
  if full then s else s.postSuper p 30

/-- The word or line that the check bits protect (R262, R356). -/
def unitOf (a : Nat) : Nat := if offDie a then a / 64 * 64 else a / 4 * 4

/-- The changes of words and lines that a write makes anew are gone (R262, R357). -/
def State.mend (s : State) (cs : List Host.Cell) : State :=
  if s.flaws.isEmpty then s else { s with flaws := s.flaws.filter fun u => !cs.any fun c => unitOf c.1 == u }

/-- The region keeps a byte of the own gallery (R231). -/
def Region.keeps (r : Region) (off : Nat) : Bool := r.ranges.any fun e => e.1 ≤ off && off < e.1 + e.2

/-- Save a line in every region that keeps it and holds no record of it (R342). -/
def saveUndo (line off : Nat) (bytes : Bytes) (rs : List Region) : List Region :=
  rs.map fun r =>
    if ((runFrom off 64).any r.keeps) && !(r.undo.any fun u => u.paddr == 64 * line) then
      { r with undo := r.undo ++ [{ paddr := 64 * line, bytes := bytes }] }
    else r

/-- A version is a drained store of an open region of a Hall (R344). -/
def Hall.inRegion (H : Hall) (v : Version) : Bool :=
  H.overlay.any fun e => e.depth != 0 && e.seq == v.num && (match v.agent with
    | .strand _ st => st == e.strand | .engine _ _ => false | .switch _ => false | .device => false | .host => false | .module _ => false | .stores _ _ => false)

/-- A line of a Hall's gallery with what the Hall's strands have published at HALL (R275), without the stores of open regions. -/
def State.lineNow (s : State) (h : HallId) (line : Nat) : Bytes :=
  let vs := (s.versionsOf line).filter fun v => v.home || (v.hall == h && !(s.hall h).inRegion v)
  (runFrom (64 * line) 64).map fun a =>
    match vs.find? fun v => (cellAt a v.cells).isSome with
    | some v => if v.home then Memory.byte s.mem a else (cellAt a v.cells).getD 0
    | none => Memory.byte s.mem a

/-- Before the first write to a kept gallery line, its bytes enter the undo pool (R342). -/
def State.undoLine (s : State) (line : Nat) : State :=
  match spaceOf (64 * line) with
  | .gallery h =>
    s.onHall h (Hall.onSlice · fun sl =>
      { sl with regions := saveUndo line (64 * line - galleryBase h) (s.lineNow h line) sl.regions })
  | .hbm => s | .undercroft => s | .control _ _ => s | .reduce => s | .fabric _ _ => s | .hole => s

/-- One line is written at its home as a new version: undo record, bytes, write count, and the check bits (R262, R263, R342, R357). -/
def State.putLine (s : State) (line : Nat) (cs : List Host.Cell) (v : Version) : State :=
  let s := s.undoLine line
  let olds := cs.map fun c => (c.1, Memory.byte s.mem c.1)
  let s := { s.mend cs with mem := Memory.write s.mem cs, hist := { v with id := s.vers + 1, line := line, cells := cs, olds := olds, home := true } :: s.hist
                            vers := s.vers + 1 }
  if offDie (64 * line) then
    { s with writeCounts := sset s.writeCounts line (sget s.writeCounts line + 1)
             bad := if 64 ≤ cs.length then s.bad.filter (· != 64 * line) else s.bad }
  else s.clearPoison fun a => a / 64 == line && (runFrom a 4).all fun b => cs.any fun c => c.1 == b

/-- One line that the device writes for itself: a version at DEVICE. -/
def State.pokeLine (s : State) (pub line : Nat) (cs : List Host.Cell) : State :=
  s.putLine line cs
    { id := 0, line := line, cells := [], olds := [], home := true, agent := .device, hall := 0, asid := 0, scope := .device, pub := some pub, num := 0
      rmw := false, rel := false, clock := [] }

/-- Bytes that the device writes for itself: bitmaps, ring entries, save areas, arrivals (R310, R322, R412, R416). They are published at
DEVICE and counted for no partition. -/
def State.poke (s : State) (cs : List Host.Cell) : State :=
  let k := s.pubs + 1
  (dedup (cs.map (·.1 / 64))).foldl (fun (s : State) l => s.pokeLine k l (cs.filter fun c => c.1 / 64 == l)) { s with pubs := k }

/-- Set bit n of a bitmap in the supervisor's space (R331, R416). -/
def State.setBitmap (s : State) (p : PartId) (base : Word) (n : Nat) : State :=
  match s.superAsid p with
  | none => s
  | some asid =>
    match s.resolveDirect { hall := 0, asid := asid, part := p, super := true } []
        { kind := .other, r := false, w := true, x := false, access := .engine, width := 0 } (base.toNat + n / 8) with
    | .ok a => s.poke [(a, Memory.byte s.mem a ||| BitVec.ofNat 8 (2 ^ (n % 8)))]
    | .miss => s
    | .fault _ => s

/-- The number of an off-die sector or page of 2^k bytes, HBM first, then the undercroft (R331, R416). -/
def bitOf (k p : Nat) : Nat := if p < 0x6000000000 then p / 2 ^ k else 0x6000000000 / 2 ^ k + (p - 0x10000000000) / 2 ^ k

/-- An agent of a partition reads or writes a line (R416). -/
def State.touch (s : State) (p : PartId) (line : Nat) : State :=
  let a := 64 * line
  let owns := match spaceOf a with
    | .hbm => (s.part p).hbm.getLsbD (a / 0x180000000)
    | .undercroft => true
    | .gallery _ => false | .control _ _ => false | .reduce => false | .fabric _ _ => false | .hole => false
  if !owns then s
  else
    let sec := a / 65536
    let c := sget s.sectors sec
    let c := if c = BitVec.allOnes 16 then c else c + 1
    let P := s.part p
    if P.migcfg.getLsbD 16 && P.migcfg.extractLsb' 0 16 ≤ c then
      let s := { s with sectors := sset s.sectors sec 0 }
      let s := s.setBitmap p P.hotmap (bitOf 16 a)
      if P.mode.getLsbD 1 then
        s.raiseEvent p { kind := 6, hall := 0, asid := 0, tag := 0, pol := 0, detail := 0, arg := BitVec.ofNat 64 (sec * 65536) }
      else s
    else { s with sectors := sset s.sectors sec c }

/-- The lines of an access are counted (R416). -/
def State.touchAll (s : State) (p : PartId) (ps : List Nat) : State := (dedup (ps.map (· / 64))).foldl (fun s l => s.touch p l) s

/-- An access of a partition would report a hot sector for which the event queue has no room: its agent waits (R400, R416). -/
def State.mustReport (s : State) (p : PartId) (ps : List Nat) : Bool :=
  (s.part p).migcfg.getLsbD 16 && (s.part p).mode.getLsbD 1 &&
    let n := ((s.touchAll p ps).part p).evq.length
    256 < n && (s.part p).evq.length < n

/-- The event queue of a partition takes another event (R400). -/
def State.evRoom (s : State) (p : PartId) : Bool := (s.part p).evq.length < 256

/-! Data faults (R121, R254, R262, R263, R357). -/

/-- What an access meets at its home: EXPIRED, a gallery word that cannot be corrected, an off-die line rejected. -/
inductive DataFault where | expired | word | line
  deriving DecidableEq, Repr

/-- The engine code of a data fault (R204). -/
def DataFault.code : DataFault → Nat
  | .expired => 4 | .word => 1 | .line => 2

/-- The cause that a data fault raises on a strand. -/
def DataFault.cause : DataFault → Cause
  | .expired => .EXPIRED | .word => .INTEGRITY | .line => .INTEGRITY

/-- The number of the keys of a line (R425): those of the partition that owns its pseudo-channel group, or in the undercroft those under which it
was written; 0 for a line that no partition has written. -/
def State.keyOf (s : State) (line : Nat) : Nat :=
  match spaceOf (64 * line) with
  | .hbm =>
    match (List.range 16).find? fun p => (s.part (BitVec.ofNat 4 p)).hbm.getLsbD (64 * line / 0x180000000) with
    | some p => s.partKeys[p]?.getD 0
    | none => 0
  | .undercroft => (sget s.lineKeys line).toNat
  | .gallery _ => 0 | .control _ _ => 0 | .reduce => 0 | .fabric _ _ => 0 | .hole => 0

/-- A line of the module's one copy of a weight set, which serves every partition that shares it (R418). -/
def State.inWeightSet (s : State) (line : Nat) : Bool :=
  s.wsets.toList.any fun d => d.state != 0 && d.ubase.toNat ≤ 64 * line && 64 * line < d.ubase.toNat + (d.len - d.hlen).toNat

/-- A line of the undercroft that stands under the keys of another partition (R357), but for those of a weight set that partitions share
(DEDUCED, log 42). -/
def State.otherKey (s : State) (p : PartId) (line : Nat) : Bool :=
  match spaceOf (64 * line) with
  | .undercroft => s.keyOf line != 0 && s.keyOf line != s.partKeys[p.toNat]'p.isLt && !s.inWeightSet line
  | .hbm => false | .gallery _ => false | .control _ _ => false | .reduce => false | .fabric _ _ => false | .hole => false

/-- A read for a partition of the word or line of one address: its row group's validity, poison, and the physical change that the read
finds. A corrected off-die line is written back; a gallery word keeps its change until it is refreshed or written (R262, R357). -/
def State.sense (s : State) (p : PartId) (a : Nat) : Option DataFault × State :=
  match rowGroupOf a with
  | some g =>
    let w := a / 4
    if !(s.rowGroup g).valid then (some .expired, s)
    else if s.poison.contains (4 * w) then (some .word, s)
    else if s.flaws.contains (4 * w) then (none, s.onHall (BitVec.ofNat 8 (g / 16384)) fun H => { H with corrected := H.corrected + 1 })
    else (none, s)
  | none =>
    if offDie a then
      let l := a / 64
      if s.bad.contains (64 * l) || s.otherKey p l then (some .line, s)
      else if s.flaws.contains (64 * l) then (none, { s with corrections := s.corrections + 1, flaws := s.flaws.filter (· != 64 * l) })
      else (none, s)
    else (none, s)

/-- Read the check bits of the words and lines of an access for a partition: the first that fails. -/
def State.senseUnits (p : PartId) : List Nat → State → Option (Nat × DataFault) × State
  | [], s => (none, s)
  | u :: rest, s =>
    match s.sense p u with
    | (some f, s) => (some (u, f), s)
    | (none, s) => State.senseUnits p rest s

/-- An access reads these bytes at their home: the first failing word or line, each unit read once (R262, R357, R416). -/
def State.senseRead (s : State) (p : PartId) (ps : List Nat) : Option (Nat × DataFault) × State :=
  State.senseUnits p (dedup (ps.map unitOf)) (s.touchAll p ps)

/-! Writing at the home (R273). -/

/-- Who writes: the version's agent and place, its scope, its publication, its number among a strand's stores. -/
structure Writer where
  agent : Agent
  hall : HallId
  asid : Asid
  part : PartId
  scope : Scope
  pub : Option Nat
  num : Nat
  rmw : Bool
  rel : Bool
  clock : Clock
  host : Bool
  alone : Bool := false
  deriving DecidableEq, Repr

/-- What the device keeps of a context that it keeps nothing of. -/
def Ctx.none (asid : Asid) : Ctx :=
  { asid := asid, notices := 0, freezing := .none, frozen := false, tracking := false, bitmap := 0, bitmapBy := 0,
    dirty := [] }

/-- What the device keeps of a context. -/
def State.ctx (s : State) (asid : Asid) : Ctx :=
  match s.ctxs.find? fun c => c.asid == asid with | some c => c | .none => .none asid

/-- Change what the device keeps of a context. -/
def State.onCtx (s : State) (asid : Asid) (f : Ctx → Ctx) : State :=
  if s.ctxs.any fun c => c.asid == asid then { s with ctxs := s.ctxs.map fun c => if c.asid = asid then f c else c }
  else { s with ctxs := s.ctxs ++ [f (.none asid)] }

/-- A write on behalf of a context sets the dirty bit of its page (R229, R331). -/
def State.markDirty (s : State) (asid : Asid) (a : Nat) : State :=
  if (s.ctx asid).tracking && offDie a && !(s.ctx asid).dirty.contains (bitOf 19 a) then
    s.onCtx asid fun c => { c with dirty := c.dirty ++ [bitOf 19 a] }
  else s

/-- One line is written by an agent: its key where it lies in the undercroft, the counter and the dirty bit as well. -/
def State.writeLine (s : State) (w : Writer) (line : Nat) (cs : List Host.Cell) : State :=
  let s := s.putLine line cs
    { id := 0, line := line, cells := [], olds := [], home := true, agent := w.agent, hall := w.hall, asid := w.asid, scope := w.scope, pub := w.pub
      num := w.num, rmw := w.rmw, rel := w.rel, clock := w.clock, fab := (s.part w.part).fabGroup, alone := w.alone }
  let key : Word := BitVec.ofNat 64 (s.partKeys[w.part.toNat]'w.part.isLt)
  let s := { s with lineKeys := if spaceOf (64 * line) = .undercroft then sset s.lineKeys line key else s.lineKeys }
  if w.host then s else (s.touch w.part line).markDirty w.asid (64 * line)

/-- Bytes are written at their home, a version for each line (R273, R274). -/
def State.writeHome (s : State) (w : Writer) (cs : List Host.Cell) : State :=
  (dedup (cs.map (·.1 / 64))).foldl (fun s l => s.writeLine w l (cs.filter fun c => c.1 / 64 == l)) s

/-- A store of so many bytes reads the word or the line that it changes only in part (R124, R263, R357). -/
def subWord (n : Nat) : Bool := n < 4

/-- The checks at the home of a write by a strand or a router (R254, R263, R357): the fault, whether the write is still
made, and the poison that it leaves. -/
def State.senseWrite (s : State) (part : PartId) (ps : List Nat) (coversGroup : Bool) : Option (Nat × DataFault) × Bool × State :=
  match (if coversGroup then none else ps.find? fun a => match rowGroupOf a with
      | some g => !(s.rowGroup g).valid | none => false) with
  | some a => (some (a, .expired), false, s)
  | none =>
    if subWord ps.length then
      match State.senseUnits part (dedup (ps.map unitOf)) s with
      | (some (a, f), s) =>
        (some (a, f), (match f with | .word => true | .line => false | .expired => false), s)
      | (none, s) => (none, true, s)
    else (none, true, s)

/-- The bytes of a line at its home. -/
def State.lineBytes (s : State) (line : Nat) : Bytes := (runFrom (64 * line) 64).map (Memory.byte s.mem)

/-- A change of a line's stored bits that its check field does not show: its bytes are what the changed cipher text gives (R357). -/
def State.rebaseLine (s : State) (line : Nat) (m : BitVec 576) : State :=
  if m = 0 then s
  else
    let k := s.keyOf line
    { s with mem := Memory.write s.mem (cellsAt (64 * line) (plainLine k line (changed (cipherLine k line (s.lineBytes line)) m))) }

/-- A change strikes the stored bits of a word or line, on top of those that have changed before (R262, R357): one bit of a word, or what
the check field takes for one symbol of a line, is corrected when it is read; a line is rejected otherwise, and a word is as though poisoned (more than
two bits: log 4). -/
def State.strike (s : State) (x : Nat × BitVec 576) : State :=
  let u := unitOf x.1
  let old := if s.flaws.contains u || s.bad.contains u then (match s.changes.find? fun c => c.1 == u with | some c => c.2 | none => 0) else 0
  let m := old ^^^ x.2
  let set := fun (s : State) (flaw bad : Bool) (m : BitVec 576) =>
    { s with
      changes := s.changes.filter (fun (c : Nat × BitVec 576) => c.1 != u) ++ (if flaw || bad then [(u, m)] else [])
      flaws := s.flaws.filter (· != u) ++ (if flaw then [u] else [])
      bad := s.bad.filter (· != u) ++ (if bad then [u] else []) }
  if offDie u then
    match lineRead m with
    | .clean => set (s.rebaseLine (u / 64) m) false false 0
    | .fixed e => set (s.rebaseLine (u / 64) (m ^^^ e)) true false e
    | .rejected => set s false true m
  else if (rowGroupOf u).isSome then
    let n := bitsChanged m
    if n = 0 then set s false false 0 else if n = 1 then set s true false m else (set s false false 0).repoison u
  else s

/-- Physical changes strike words and lines (R262, R357). -/
def State.struck (s : State) (xs : List (Nat × BitVec 576)) : State := xs.foldl State.strike s

/-! Publications and renewals (R275 to R279). -/

/-- A place in the phase order (R278). -/
def State.nextPub (s : State) : Nat × State := (s.pubs + 1, { s with pubs := s.pubs + 1 })

/-- A strand as an agent. -/
def State.agentOf (s : State) (h : HallId) (st : Strand) : Agent :=
  match (s.hall h).slice with | some sl => .strand sl.id st | none => .strand 0 st

/-- A strand with its place. -/
def State.seatOf (s : State) (h : HallId) (st : Strand) : Seat :=
  { agent := s.agentOf h st, hall := h, fab := match (s.hall h).slice with | some sl => (s.part sl.part).fabGroup | none => 0 }

/-- An engine with its place, for a command of a partition. -/
def State.engineSeat (s : State) (h : HallId) (e : Engine) (p : PartId) : Seat := { agent := .engine h e, hall := h, fab := (s.part p).fabGroup }

/-- A publication enters a floor at a renewal (R278). -/
def entersFloor (x : Scope) (r : Seat) (clock : Clock) (bound : Nat) (v : Version) : Bool :=
  match v.pub with
  | none => false
  | some p =>
    covers x r v.seat && covers v.scope v.seat r &&
      ((match clock.get v.agent with | some n => p ≤ n | none => false) || (v.scope == x && p ≤ bound))

/-- What the observed writes that a renewal covers order before it (R277, Observation). -/
def observe (x : Scope) (r : Seat) (ids : List Nat) (hist : List Version) (c : Clock) : Clock :=
  hist.foldl (fun c v =>
    if ids.contains v.id && covers x r v.seat then
      let c := Clock.join c v.clock
      match v.pub, v.agent with
      | some p, a => c.up a p
      | none, .strand i st => if v.num = 0 then c else c.up (.stores i st) v.num
      | none, _ => c
    else c) c

/-- The versions that a renewal takes into a floor. -/
def renewedFloor (x : Scope) (r : Seat) (clock : Clock) (bound : Nat) (hist : List Version)
    (f : List (Nat × Nat)) : List (Nat × Nat) :=
  hist.foldl (fun f v => if entersFloor x r clock bound v then lineUp v.line v.id f else f) f

/-- The stores of a slice that a table of store numbers names enter a floor once they have drained, which counts as published at HALL (R275,
R285). -/
def heardFloor (id : Nat) (t : Seen) (hist : List Version) (f : List (Nat × Nat)) : List (Nat × Nat) :=
  hist.foldl (fun f v =>
    match v.agent with
    | .strand i st => if i = id ∧ v.num ≠ 0 ∧ v.num ≤ t.get st then lineUp v.line v.id f else f
    | _ => f) f

/-- A renewal of a strand at a scope now (R278): it stands in the phase order after every publication made so far. What the Hall's other strands
have published at HALL is in the phase order of a renewal at HALL; a wider renewal takes in, of their drained stores, those that happen before it. -/
def State.renew (s : State) (h : HallId) (st : Strand) (x : Scope) : State :=
  match x with
  | .strand => s
  | _ =>
    let W := (s.hall h).work
    let a := s.seatOf h st
    let id := (s.hall h).sliceId
    s.onStrand h st fun y =>
      let c := observe x a y.observed s.hist y.clock
      let heard := y.heard.join (c.storesOf id)
      let seen := if x = .hall then ring.foldl (fun (m : Seen) o => if o = st then m else m.up o (W.strand o).hallDone) y.seen else y.seen
      { y with clock := c, heard := heard, floor := heardFloor id heard s.hist (renewedFloor x a c s.pubs s.hist y.floor), seen := seen }

/-- Every read of the strand before a place in its program order has been performed. -/
def StrandState.readsBefore (x : StrandState) (n : Nat) : Bool := x.slots.all fun t => n ≤ t.seq || t.data.isSome

/-- A renewal of a strand that stands at a place in its program order (R275): it begins only after every earlier read of the strand has been
performed, and later reads wait for it. -/
def State.renewAfter (s : State) (h : HallId) (st : Strand) (x : Scope) (n : Nat) : State :=
  if (s.strand h st).readsBefore n then s.renew h st x else s.onStrand h st fun y => { y with renewals := y.renewals ++ [(n, x)] }

/-- The renewals of a strand that have waited for its earlier reads and need wait no longer. -/
def State.renewalsDue (s : State) (h : HallId) (st : Strand) : State :=
  let x := s.strand h st
  let due := x.renewals.filter fun r => x.readsBefore r.1
  due.foldl (fun s r => s.renew h st r.2) (s.onStrand h st fun y => { y with renewals := y.renewals.filter fun r => !y.readsBefore r.1 })

/-! The write queue (R125, R126). -/

/-- An entry drains into the overlay image: a version at HALL (R273, R275). -/
def State.drainStore (s : State) (h : HallId) (e : Store) : State :=
  match e.drained with
  | some _ => s
  | none =>
    let a := s.agentOf h e.strand
    let asid : Asid := match (s.hall h).slice with | some sl => sl.asid | none => 0
    let s := (dedup (e.cells.map (·.1 / 64))).foldl (fun (s : State) l =>
      { s with
        hist := { id := s.vers + 1, line := l, cells := e.cells.filter fun x => x.1 / 64 == l, olds := [], home := false,
                  agent := a, hall := h, asid := asid, scope := .hall, pub := none, num := e.seq, rmw := false,
                  rel := false, clock := e.clock, fab := (s.seatOf h e.strand).fab } :: s.hist
        vers := s.vers + 1 }) s
    let n := s.vers
    s.onHall h fun H =>
      { H with overlay := H.overlay.map fun x => if x.n = e.n then { x with drained := some n, scope := .hall } else x }

/-- Every entry of the queue that entered no later than a number drains, oldest first. -/
def State.drainThrough (s : State) (h : HallId) (n : Nat) : State :=
  ((s.hall h).overlay.filter fun e => e.drained.isNone && e.n ≤ n).foldl (fun s e => s.drainStore h e) s

/-- Every queued entry of a Hall drains (R125). -/
def State.drainAll (s : State) (h : HallId) : State := s.drainThrough h (s.hall h).storeNo

/-- HALL publications whose stores have drained are complete (R275). -/
def Hall.settle (H : Hall) (st : Strand) : Hall :=
  let x := H.work.strand st
  if H.overlay.any fun e => e.strand == st && e.drained.isNone && e.seq ≤ x.hallPub then H
  else H.onStrand st fun x => { x with hallDone := max x.hallDone x.hallPub }

/-- The queued stores that a load of a strand considers (R126): its own before the load, and those of other strands that
a token or an event has made visible. -/
def considered (st : Strand) (own : Nat) (seen : Seen) (e : Store) : Bool :=
  e.drained.isNone && (if e.strand = st then e.seq ≤ own else e.seq ≤ seen.get e.strand)

/-- A store touches one of these bytes. -/
def Store.overlaps (e : Store) (ps : List Nat) : Bool := e.cells.any fun c => ps.contains c.1

/-- A store gives every one of these bytes. -/
def Store.coversAll (e : Store) (ps : List Nat) : Bool := ps.all fun p => e.cells.any fun c => c.1 == p

/-- Forwarding (R126): from the latest considered queued store that covers every byte. -/
def Hall.forward (H : Hall) (st : Strand) (own : Nat) (seen : Seen) (ps : List Nat) : Option Bytes :=
  (H.overlay.filter fun e => considered st own seen e && e.coversAll ps).getLast?.map fun e => ps.map fun p => (cellAt p e.cells).getD 0

/-- A load waits while a considered queued store overlaps it (R126). -/
def Hall.mustWait (H : Hall) (st : Strand) (own : Nat) (seen : Seen) (ps : List Nat) : Bool :=
  H.overlay.any fun e => considered st own seen e && e.overlaps ps

/-- The reader that a strand is for an access with the given number of own stores before it. -/
def State.readerOf (s : State) (h : HallId) (st : Strand) (own : Nat) : Reader :=
  let x := s.strand h st
  { agent := s.agentOf h st, hall := h, floor := x.floor, last := x.lastRead, own := own, seen := x.seen, fab := (s.seatOf h st).fab }

/-- A drained store of a Hall's strands still stands in the overlay. -/
def Hall.overlaid (H : Hall) (v : Version) : Bool :=
  !v.home && H.overlay.any fun e => e.drained.isSome && e.seq == v.num && v.agent == .strand H.sliceId e.strand

/-- What the overlay image of a Hall gives a reader of bytes in another module (R126, R279): for each line the version that it chooses among the
stores there, with the bytes that they give. -/
def State.overlayRead (s : State) (h : HallId) (r : Reader) (far : List Nat) : List Host.Cell × List (Nat × Nat) × State :=
  (dedup (far.map (· / 64))).foldl (fun (acc : List Host.Cell × List (Nat × Nat) × State) l =>
    let (cs, ns, s) := acc
    let vs := (s.versionsOf l).filter (s.hall h).overlaid
    if vs.isEmpty then (cs, ns, s)
    else
      let opts := r.choices l vs
      let (k, s) := if opts.length ≤ 1 then (0, s) else s.drawChoice
      let n := opts.getD (k % opts.length) 0
      let use := vs.filter fun v => v.id ≤ n && r.sees v
      (cs ++ (far.filter fun a => a / 64 == l).filterMap (fun a => (use.findSome? fun v => cellAt a v.cells).map fun b => (a, b)),
        ns ++ [(l, ((use.head?).map (·.id)).getD 0)], s)) ([], [], s)

/-- What a strand remembers of a read (R279 condition 4, R277 Observation). -/
def StrandState.hasRead (x : StrandState) (ns : List (Nat × Nat)) : StrandState :=
  { x with
    lastRead := ns.foldl (fun f e => if e.2 = 0 then f else lineUp e.1 e.2 f) x.lastRead
    observed := ns.foldl (fun o e => if e.2 = 0 || o.contains e.2 then o else o ++ [e.2]) x.observed }

end Sys2Proof.Machine
end

