-- ==== Sys2Proof/Machine/Operands.lean ====
section
/-! DEFINITION. Operand forms that instructions share: tiles under their shapes and masks (R27 to R29), the bytes of an
access with the checks of R120 and R431, landing slots (R24, R25), the memory port (R124), and stores entering the overlay
(R123, R125, R344). -/

namespace Sys2Proof.Machine

/-! Shapes and tiles (R27, R29). -/

/-- Element width in bits of a shape; the reserved code 11 is never stored (R27). -/
def shapeWidth (v : BitVec 16) : Nat := 8 * 2 ^ (v.extractLsb' 0 2).toNat
/-- Active rows of a shape. -/
def shapeRows (v : BitVec 16) : Nat := (v.extractLsb' 2 4).toNat + 1
/-- Active columns of a shape. -/
def shapeCols (v : BitVec 16) : Nat := (v.extractLsb' 8 8).toNat + 1

/-- Element (r, c) of a tile at a width of w bits (R27). -/
def Work.elem (W : Work) (t w r c : Nat) : Nat :=
  leNat ((List.range (w / 8)).map fun i => W.tileByte t (256 * r + c * (w / 8) + i))

/-- The cells of element (r, c) of a tile at a width of w bits. -/
def elemCells (t w r c v : Nat) : List (Nat × Byte) :=
  (leBytes (w / 8) v).mapIdx fun i b => (4096 * t + 256 * r + c * (w / 8) + i, b)

/-- Active(t, k, r, c) (R29, R37). -/
def Work.active (W : Work) (t k r c : Nat) : Bool :=
  r < shapeRows (W.shape t) && c < shapeCols (W.shape t) && W.maskBit k r c

/-- The element positions of a shape in row-major order. -/
def shapeElems (v : BitVec 16) : List (Nat × Nat) :=
  (List.range (shapeRows v)).flatMap fun r => (List.range (shapeCols v)).map fun c => (r, c)

/-! Accesses (R120, R431). -/

/-- The context whose syllable is at issue. -/
def State.mine (s : State) : Who := { hall := s.curHall, asid := s.asid, part := s.partId, super := s.superMode }

/-- log2 of a width in bytes, as TRAP.CAUSE gives it (R395). -/
def widthCode (n : Nat) : Nat := if n ≤ 1 then 0 else if n = 2 then 1 else if n = 4 then 2 else if n = 8 then 3 else 4

/-- A width in bytes. -/
def widthBytes : Width → Nat
  | .B => 1 | .H => 2 | .W => 4 | .D => 8

/-- A scalar load (R122). -/
def wantLoad (w : Width) : Want :=
  { kind := .load w, r := true, w := false, x := false, access := .load, width := widthCode (widthBytes w) }
/-- A scalar store (R122). -/
def wantStore (w : Width) : Want :=
  { kind := .store w, r := false, w := true, x := false, access := .store, width := widthCode (widthBytes w) }
/-- An atomic (R131, R386). -/
def wantAtomic (w : Width) : Want :=
  { kind := .atomic, r := true, w := true, x := false, access := .atomic, width := widthCode (widthBytes w) }
/-- A tile load (R127, R129). -/
def wantTileLoad : Want := { kind := .tile, r := true, w := false, x := false, access := .tile, width := 5 }
/-- A tile store (R127, R129). -/
def wantTileStore : Want := { kind := .tile, r := false, w := true, x := false, access := .tile, width := 5 }
/-- An STMR (R135). -/
def wantStmr (w : Width) : Want :=
  { kind := .stmr, r := false, w := true, x := false, access := .store, width := widthCode (widthBytes w) }
/-- A read of n bytes by a system or stream instruction (R386). -/
def wantSystem (n : Nat) : Want :=
  { kind := .other, r := true, w := false, x := false, access := .system, width := widthCode n }
/-- A write by a system instruction (R386). -/
def wantSystemWrite (n : Nat) : Want :=
  { kind := .other, r := false, w := true, x := false, access := .system, width := widthCode n }
/-- An engine's read (R386). -/
def wantEngineRead : Want := { kind := .other, r := true, w := false, x := false, access := .engine, width := 4 }
/-- An engine's write (R386). -/
def wantEngineWrite : Want := { kind := .other, r := false, w := true, x := false, access := .engine, width := 4 }
/-- A syllable fetch (R113, R386). -/
def wantFetch : Want := { kind := .fetch, r := false, w := false, x := true, access := .fetch, width := 3 }

/-- Walkers of a plinth that are at work (R387). -/
def State.busyWalkers (s : State) (pl : Nat) : Nat :=
  (s.walks.filter fun w => w.endsAt.isSome && match w.halls with | h :: _ => plinthOf h == pl | [] => false).length

/-- The partition's translation misses are serviced by the host (R390). -/
def State.hosted (s : State) (p : PartId) : Bool := (s.part p).mode.getLsbD 0

/-- A miss takes a walker, or joins the walk of its key, or waits for a walker (R388). -/
def State.startWalk (s : State) (u : Who) (a : Nat) (engine : Bool) : State :=
  let same := fun (w : Walk) => w.asid == u.asid && w.addr / 2 ^ 19 == a / 2 ^ 19 &&
    (match w.halls with | h :: _ => plinthOf h == plinthOf u.at_ | [] => false)
  if s.walks.any same then
    { s with walks := s.walks.map fun w =>
        if same w then { w with halls := if w.halls.contains u.at_ then w.halls else w.halls ++ [u.at_]
                                engine := w.engine || engine } else w }
  else
    let free := s.busyWalkers (plinthOf u.at_) < 32
    let (d, s) := s.drawDelay
    { s with
      nextWalk := s.nextWalk + 1
      walks := s.walks ++ [{ id := s.nextWalk, asid := u.asid, part := u.part, addr := a, halls := [u.at_],
                             endsAt := if free then some (s.tick + 1 + d) else none, hold := none, engine := engine,
                             failed := none }] }

/-- A walk that waits for a walker of a plinth takes one, the earliest first (R388). -/
def State.nextWalker (s : State) (pl : Nat) : State :=
  match s.walks.find? fun w => w.endsAt.isNone && w.hold.isNone && (match w.halls with | h :: _ => plinthOf h == pl | [] => false) with
  | some w =>
    if s.busyWalkers pl < 32 then
      let (d, s) := s.drawDelay
      { s with walks := s.walks.map fun x => if x.id = w.id then { x with endsAt := some (s.tick + 1 + d) } else x }
    else s
  | none => s

/-- The plinth whose walkers serve a walk. -/
def Walk.plinth (w : Walk) : Nat := match w.halls with | h :: _ => plinthOf h | [] => 0

/-- A tag that no hold of the partition bears, looked for from the one after the last (R390, R400: 8 bits); none while all 256 are in use. -/
def State.freeTag (s : State) (p : PartId) : Option Nat :=
  ((List.range 256).map fun i => ((s.part p).nextTag + i) % 256).find? fun t => !s.walks.any fun w => w.part == p && w.hold == some t

/-- A walk holds its requesters and its event is raised (R390); while the queue is full, or no tag is free, it waits. -/
def State.holdWalk (s : State) (w : Walk) (t : TrapInfo) : Option State :=
  match s.freeTag w.part with
  | some tag =>
    if s.evRoom w.part then
      let held : Walk := { w with hold := some tag, endsAt := none, failed := some t }
      let ws := if s.walks.any fun x => x.id == w.id then s.walks.map fun x => if x.id = w.id then held else x else s.walks ++ [held]
      some ((({ s with walks := ws }).onPart w.part fun P => { P with nextTag := tag + 1 }).raiseEvent w.part
        (hostEvent 1 (match w.halls with | h :: _ => h.toNat | [] => 0) w.asid tag 0 0 (BitVec.ofNat 64 w.addr)))
    else none
  | none => none

/-- The bytes of an access by the syllable at issue: step 1 on its first byte, ALIGN, then every byte (R120, R431). A
fault is exact at the syllable; a miss freezes the strand. -/
def State.withBytes (s : State) (k : Want) (align : Nat) (a : Word) (n : Nat) (cont : List Nat → State → State) : State :=
  if 2 ^ 52 ≤ a.toNat then s.trapHere (k.tell a.toNat (xlate 0))
  else if a.toNat % align != 0 then s.trapHere (k.tell a.toNat { cause := .ALIGN })
  else match resolveAll (s.resolveCached s.mine k) (runFrom a.toNat n) with
    | .ok ps => cont ps s
    | .error (_, some t) => s.trapHere t
    | .error (b, none) => (s.startWalk s.mine b false).freeze

/-- The bytes of several accesses, checked in order (R129). -/
def State.eachBytes (s : State) (k : Want) (w : Nat) : List Word → Except (Option TrapInfo × Nat) (List (List Nat))
  | [] => .ok []
  | a :: rest =>
    if 2 ^ 52 ≤ a.toNat then .error (some (k.tell a.toNat (xlate 0)), 0)
    else if a.toNat % w != 0 then .error (some (k.tell a.toNat { cause := .ALIGN }), 0)
    else match resolveAll (s.resolveCached s.mine k) (runFrom a.toNat w) with
      | .error (b, t) => .error (t, b)
      | .ok ps =>
        match s.eachBytes k w rest with
        | .error e => .error e
        | .ok r => .ok (ps :: r)

/-- As withBytes, for several accesses. -/
def State.withEach (s : State) (k : Want) (w : Nat) (as : List Word) (cont : List (List Nat) → State → State) : State :=
  match s.eachBytes k w as with
  | .ok ps => cont ps s
  | .error (some t, _) => s.trapHere t
  | .error (none, b) => (s.startWalk s.mine b false).freeze

/-! The memory port and landing slots. -/

/-- The strand's memory port (R124): the syllable waits for it, or issues and occupies it for n cycles. -/
def State.onPort (s : State) (n : Nat) (k : State → State) : State :=
  if s.me.local_ < s.me.portFree then s.hold
  else
    let t := k s
    if t.issued then t.onMe fun x => { x with portFree := s.me.local_ + n } else t

/-- The syllable waits for the strand's memory port before it reads its registers (R16, R124). -/
def State.whenPort (s : State) (k : State → State) : State := if s.me.local_ < s.me.portFree then s.hold else k s

/-- No landing slot of the strand is free (R25). -/
def State.slotsFull (s : State) : Bool := 16 ≤ s.me.slots.length

/-- A landing slot is claimed, or the strand freezes until one is free (R25). -/
def State.withSlot (s : State) (k : State → State) : State := if 16 ≤ s.me.slots.length then s.freeze else k s

/-- Claim a slot and issue (R24): the request, its destinations, the landing offset, its bytes, and when its data arrives. -/
def State.claim (s : State) (req : Req) (dests : List Src) (land : BitVec 12) (addr : Word) (ps : List Nat)
    (arriveAt : Option Nat) (data : Option (List Upd)) (image : List Host.Cell := []) : State :=
  let d := s.depth
  (s.onMe fun x =>
    { x with
      seq := x.seq + 1
      slots := x.slots ++ [{ seq := x.seq, due := x.local_ + land.toNat, req := req, dests := dests, addr := addr,
                             paddrs := ps, pc := x.pc, word := s.curWord, bound := x.stores,
                             arriveAt := arriveAt, data := data, fault := none, depth := d, replayed := false, image := image }] }).issue

/-- Claim a slot whose data arrives at a time the manual leaves open (R119): at the end of this Hall cycle or of a later one. -/
def State.request (s : State) (req : Req) (dests : List Src) (land : BitVec 12) (addr : Word) (ps : List Nat) : State :=
  let (d, s) := s.drawDelay
  s.claim req dests land addr ps (some (s.here.cycle + d)) none

/-- A physical address of the fabric range. -/
def inFabric (p : Nat) : Bool := 0xE0000000000 ≤ p

/-- Runs of consecutive addresses of one member, of at most 256 bytes; none ends within a line (R274). -/
def runsOf : List Nat → List (Nat × Nat)
  | [] => []
  | a :: t =>
    match runsOf t with
    | (b, n) :: rest => if b = a + 1 ∧ b % 256 ≠ 0 ∧ fabMember b = fabMember a then (a, n + 1) :: rest else (a, 1) :: (b, n) :: rest
    | [] => [(a, 1)]

/-- A fabric read of a run of bytes for a slot of a strand (R406, R409, R414). -/
def State.askSlot (s : State) (h : HallId) (st : Strand) (seq bound : Nat) (addr : Word) (run : Nat × Nat) : State :=
  let (tag, s) := s.newTag
  let (part, asid) : PartId × Asid := match (s.hall h).slice with | some sl => (sl.part, sl.asid) | none => (0, 0)
  let s := s.sendTo part (fabMember run.1) (.fabricRead s.modid (BitVec.ofNat 16 tag) (fabOffset run.1) asid (BitVec.ofNat 16 run.2))
  let r : FabReq := { tag := tag, member := fabMember run.1, hall := h, strand := st, slot := some seq, atomic := false,
                      engine := none, after := bound, info := { cause := .PROT, access := .load, addr := addr },
                      addrs := runFrom run.1 run.2 }
  { s with fabReqs := s.fabReqs ++ [r] }

/-- A strand's slot asks for its bytes of other modules (R431): a fabric read goes out for each of their runs. What the overlay image holds of them
is the strand's as it asks (R126). -/
def State.askBytes (s : State) (h : HallId) (st : Strand) (seq bound : Nat) (addr : Word) (far : List Nat) :
    List Host.Cell × List (Nat × Nat) × State :=
  let (mine, ns, s) := s.overlayRead h (s.readerOf h st bound) far
  (mine, ns, (runsOf far).foldl (fun s r => s.askSlot h st seq bound addr r) s)

/-- Claim a slot for a read with bytes of the fabric range. While a queued store that it considers overlaps it, the read waits for the drain (R126). -/
def State.requestFabric (s : State) (req : Req) (dests : List Src) (land : BitVec 12) (addr : Word) (ps far : List Nat) : State :=
  if s.here.mustWait s.curStrand s.me.stores s.me.seen ps then s.claim req dests land addr ps (some s.here.cycle) none
  else
    let (mine, ns, s) := s.askBytes s.curHall s.curStrand s.me.seq s.me.stores addr far
    (s.claim req dests land addr ps none none mine).onMe fun x => x.hasRead ns

/-- Claim a slot for a read of bytes, near or over the fabric. -/
def State.requestRead (s : State) (req : Req) (dests : List Src) (land : BitVec 12) (addr : Word) (ps : List Nat) : State :=
  let far := ps.filter inFabric
  if far.isEmpty then s.request req dests land addr ps else s.requestFabric req dests land addr ps far

/-- The key under which the bytes of another module that block j of a stream asks for are kept. -/
def streamKey (q j : Nat) : Nat := 2 ^ 60 + q * 2 ^ 50 + j

/-- What a stream has asked of other modules is no longer of use: its register is bound anew or unbound (R149). -/
def State.dropStream (s : State) (h : HallId) (q : Nat) : State :=
  { s with farCells := s.farCells.filter fun c => !(c.hall == h && c.engine == .matrix && streamKey q 0 ≤ c.cmd && c.cmd < streamKey (q + 1) 0) }

/-- As dropStream, for every stream of a Hall. -/
def State.dropStreams (s : State) (h : HallId) : State := (List.range 8).foldl (fun s q => s.dropStream h q) s

/-! Stores. -/

/-- Later cells replace earlier ones at their address. -/
def lastCells : List Host.Cell → List Host.Cell
  | [] => []
  | c :: t => let r := lastCells t; if r.any fun e => e.1 == c.1 then r else c :: r

/-- Overlay lines that open regions hold (R344): one for each line and depth. -/
def Hall.regionLines (H : Hall) : List (Nat × Nat) :=
  H.overlay.foldl (fun ls e =>
    if e.depth = 0 then ls
    else e.cells.foldl (fun ls c => if ls.contains (c.1 / 64, e.depth) then ls else ls ++ [(c.1 / 64, e.depth)]) ls) []

/-- A store needs lines of the overlay that open regions may not hold any more (R344). -/
def State.regionFull (s : State) (cs : List Host.Cell) : Bool :=
  s.depth != 0 &&
    let held := s.here.regionLines
    let fresh := (dedup (cs.map (·.1 / 64))).filter fun l => !held.contains (l, s.depth)
    !fresh.isEmpty && 2048 < held.length + fresh.length

/-- The virtual address of a cell. -/
def cellVa (p : Nat) (l : List (Host.Cell × Nat)) : Nat := match l.find? fun e => e.1.1 == p with | some e => e.2 | none => 0

/-- A load's value in its register (R123). -/
def extendLoad (sx : Bool) (bs : Bytes) : Word :=
  if sx then BitVec.ofInt 64 (sint (8 * bs.length) (leNat bs)) else BitVec.ofNat 64 (leNat bs)

/-- A store enters the overlay's write queue (R123, R125), tagged with its region's depth (R344). -/
def State.store (s : State) (addr : Word) (width : Nat) (data : Word) (cs : List Host.Cell) (vas : List Nat) (coversGroup tile : Bool) : State :=
  if s.regionFull cs then s.trapCause .REGION_LIMIT
  else
    let d := s.depth
    let (k, s) := s.drawDelay
    let n := s.me.stores + 1
    let e : Store := { n := s.here.storeNo + 1, strand := s.curStrand, seq := n, addr := addr, width := width, data := data,
                       cells := lastCells cs, vas := (lastCells cs).map fun c => (cellVa c.1 (cs.zip vas)), covers := coversGroup, tile := tile, depth := d,
                       drainAt := s.here.cycle + 1 + k % 16, drained := none, scope := .strand, performed := false, clock := s.known }
    ((s.onHere fun H => { H with storeNo := H.storeNo + 1, overlay := H.overlay ++ [e] }).onMe
      fun x => { x with stores := n }).issue

end Sys2Proof.Machine
end

