-- ==== Sys2Proof/Machine/Detect.lean ====
section
/-! DEFINITION. Detected errors and the regions they belong to (R338, R339, R350, R351), the effect log (R346, R347), and
the writing of results (R20, R24, R231). -/

namespace Sys2Proof.Machine

/-! Regions. The head of a slice's list is the innermost. -/

/-- The open region of a depth, 1 the outermost. -/
def regionAt (rs : List Region) (d : Nat) : Option Region := rs[rs.length - d]?

/-- The region to which an error passes from depth d: the first outward whose retry count is below the limit (R350). -/
def errorTarget (rs : List Region) (limit : Nat) : Nat → Option Nat
  | 0 => none
  | d + 1 =>
    match regionAt rs (d + 1) with
    | none => none
    | some r => if r.retry < limit then some (d + 1) else errorTarget rs limit d

/-- MACHINE_CHECK naming the failing syllable (R339): the rollback of another error of the cycle is absorbed (R351). -/
def State.machineCheck (s : State) (h : HallId) (st : Strand) (pc : Word) (code : Nat) : State :=
  (s.onHall h fun H => { H with back := none }).raise h st { cause := .MACHINE_CHECK, detail := code, addr := pc }

/-- A detected error that belongs to the region of depth d, which is open, or with d = 0 to none (R338, R339, R349 to R351). spent: it passes
outward at once, as though the retry budget were spent (R347). -/
def State.detect (s : State) (h : HallId) (d code : Nat) (st : Strand) (pc : Word) (spent : Bool) : State :=
  let H := s.hall h
  let e : Held := { depth := d, code := code, strand := st, pc := pc }
  match H.slice with
  | none => s
  | some sl =>
    match H.trap with
    | some t =>
      if t.info.cause = .MACHINE_CHECK ∧ t.cycle = H.cycle then s
      else s.onHall h fun H => { H with trap := some { t with held := outer t.held e } }
    | none =>
      let target := errorTarget sl.regions sl.retry.toNat (if spent then d - 1 else d)
      let check := fun (s : State) =>
        (s.machineCheck h st pc code).onHall h fun H => if d = 0 then H else H.onSlice fun sl => { sl with regions := [] }
      let begin_ := fun (tgt : Nat) (s : State) => s.onHall h fun H =>
        { H with back := some { target := tgt, code := code, abort := false, applied := false, endsAt := 0, found := H.cycle, held := none } }
      match H.back, target with
      | none, none => check s
      | none, some tgt => begin_ tgt s
      | some b, _ =>
        if b.found = H.cycle ∧ !b.abort then
          match target with
          | none => check s
          | some tgt => if tgt < b.target then begin_ tgt s else s
        else if d < b.target then s.onHall h fun H => { H with back := some { b with held := outer b.held e } }
        else s

/-- A detected error that was held is acted on in the cycle that comes (R351): no strand issues first, so the stop that it makes counts from the
Hall cycle before. -/
def State.actHeld (s : State) (h : HallId) (e : Held) : State :=
  (s.detect h e.depth e.code e.strand e.pc false).onHall h fun H =>
    { H with back := H.back.map fun b => { b with found := b.found - 1 }, trap := H.trap.map fun t => { t with cycle := t.cycle - 1 } }

/-- A fault of the syllable at issue that its own read has found: an INTEGRITY inside a region is a detected error (R338), and everything
else a trap. -/
def State.readTrap (s : State) (t : TrapInfo) : State :=
  if t.cause = .INTEGRITY ∧ s.depth ≠ 0 then
    { s.detect s.curHall s.depth t.detail s.curStrand s.me.pc false with issued := false, trapped := true }
  else s.trapHere t

/-! The effect log (R346, R347). -/

/-- An entry of the effect log (R346). -/
def LogEntry.bytes (e : LogEntry) : Bytes :=
  leBytes 8 (e.word.toNat + 2 ^ 52 * (e.depth % 16) + 2 ^ 56 * e.replay.toNat) ++ leBytes 8 e.op1.toNat ++ leBytes 8 e.op2.toNat ++ leBytes 8 e.ret.toNat

/-- Where a Hall's effect log stands: directly below its undo space (R343). -/
def Hall.logAt (H : Hall) (h : HallId) : Nat := galleryBase h + 0x4000000 - H.poolSize * 0x40000 - 0x2000

/-- The effect log stands in its gallery (R343, R346): the entries that this Hall cycle has changed are written there at its end. -/
def State.writeLog (s : State) (h : HallId) : State :=
  match (s.hall h).slice with
  | none => s
  | some sl =>
    let cs := cellsAt ((s.hall h).logAt h) (sl.log.flatMap LogEntry.bytes)
    let cs := cs.filter fun c => Memory.byte s.mem c.1 != c.2
    if cs.isEmpty then s else s.poke cs

/-- Bits 51:0 of a syllable. -/
def logWord (w : Word) : BitVec 52 := w.setWidth 52

/-- The pending entries of the running slice's effect log, in log order. -/
def Slice.pendingLog (sl : Slice) : List LogEntry := sl.log.filter (·.replay)

/-- The first pending entry answers its command: its replay bit is cleared. -/
def clearFirst : List LogEntry → List LogEntry
  | [] => []
  | e :: t => if e.replay then { e with replay := false } :: t else e :: clearFirst t

/-- How a command of a logged kind fares at its issue (R346, R347): answered with a logged value, diverging, refused for
want of room in the log, or performed. -/
inductive LogAnswer where
  | answered (ret : Word)
  | diverges
  | full
  | fresh
  deriving DecidableEq, Repr

/-- The log's answer to the command at issue with its two operand values. -/
def State.logAnswer (s : State) (op1 op2 : Word) : LogAnswer :=
  match s.here.slice with
  | none => .fresh
  | some sl =>
    if sl.regions.isEmpty then .fresh
    else match sl.pendingLog with
      | e :: _ => if e.word = logWord s.curWord ∧ e.op1 = op1 ∧ e.op2 = op2 then .answered e.ret else .diverges
      | [] => if 256 ≤ sl.log.length + sl.logFill then .full else .fresh

/-- The first pending entry has answered. -/
def State.answerLog (s : State) : State := s.onSlice fun sl => { sl with log := clearFirst sl.log }

/-- A place in the log is taken by the command at issue, when a region is open. -/
def State.fillLog (s : State) : State :=
  s.onSlice fun sl => if sl.regions.isEmpty then sl else { sl with logFill := sl.logFill + 1 }

/-- A logged command has been performed: its entry (R346). -/
def State.logEntry (s : State) (h : HallId) (word : Word) (depth : Nat) (op1 op2 ret : Word) : State :=
  if depth = 0 then s
  else s.onHall h (Hall.onSlice · fun sl =>
    { sl with log := sl.log ++ [{ word := logWord word, depth := depth, replay := false, op1 := op1, op2 := op2, ret := ret }]
              logFill := sl.logFill - 1 })

/-- A logged command leaves without being performed. -/
def State.dropLog (s : State) (h : HallId) (depth : Nat) : State :=
  if depth = 0 then s else s.onHall h (Hall.onSlice · fun sl => { sl with logFill := sl.logFill - 1 })

/-- The command at issue diverges from the log (R347): a detected error that passes to the enclosing region at once. The
syllable takes no effect. -/
def State.diverge (s : State) : State :=
  { s.detect s.curHall s.depth 0x06 s.curStrand s.me.pc true with issued := false }

/-- A command of a logged kind (R345, R347). -/
def State.logged (s : State) (op1 op2 : Word) (answered : Word → State → State) (fresh : State → State) : State :=
  match s.logAnswer op1 op2 with
  | .answered ret => answered ret s.answerLog
  | .diverges => s.diverge
  | .full => s.trapCause .REGION_LIMIT
  | .fresh => fresh s

/-! The checker (R334, R337). -/

/-- The mark of a command that ERRINJ has not counted. -/
def uncounted : Nat := 256

/-- ERRINJ counts a command of the S and L strands (R210, R334): the code with which it is corrupted, 0 for none. -/
def Hall.injectAt (H : Hall) : Nat × Hall :=
  if H.errKind = 0 ∨ H.errHit then (uncounted, H)
  else if H.errCount < H.errAfter then (0, { H with errCount := H.errCount + 1 })
  else (if H.errKind = 1 then 0x06 else if H.errKind = 2 then 0x01 else 0x02, { H with errHit := true })

/-- Commands that leave before the checker has matched them are no longer counted (R334). -/
def Hall.uncount (H : Hall) (bads : List Nat) : Hall :=
  { H with errCount := H.errCount - (bads.filter (· == 0)).length
           errHit := H.errHit && !(bads.any fun b => b != 0 && b != uncounted) }

/-- The queued commands of a Hall that some condition picks and that the checker has not matched. -/
def Hall.unmatched (H : Hall) (slice depth : Nat) : List Nat :=
  ((H.cq.filter fun c => c.slice == slice && depth ≤ c.depth && c.matchAt.isSome).map (·.bad)) ++
    ((H.hq.filter fun c => c.slice == slice && depth ≤ c.depth && c.matchAt.isSome).map (·.bad))

/-- The LAUNCH or ENQ.X with which the S strand waits for its match, counted so far. -/
def StrandState.unmatched (x : StrandState) : List Nat :=
  if 1000 ≤ x.wait.stage ∧ x.wait.stage ≤ 1000 + uncounted then [x.wait.stage - 1000] else []

/-- A command enters with the Hall cycle of its match and the code with which ERRINJ corrupts it: strands S and L are
shadowed (R337). -/
def State.underChecker (s : State) : Option Nat × Nat × State :=
  match s.curStrand with
  | .S | .L =>
    let (bad, H) := s.here.injectAt
    (some (s.here.cycle + 6), bad, s.setHall s.curHall H)
  | .V | .M => (none, 0, s)

/-- The match of a command: what the checker finds, and ERRINJ.KIND off once it has struck (R210, R337). -/
def State.checkMatch (s : State) (h : HallId) (bad : Nat) : Nat × State :=
  if bad = 0 ∨ bad = uncounted then (if Config.upset s.free then 0x06 else 0, { s with free := s.free + 1 })
  else (bad, s.onHall h fun H => { H with errKind := 0, errHit := false })

/-! Writing results. -/

/-- The register part of an update, on a strand. -/
def StrandState.put (x : StrandState) (u : Upd) : StrandState :=
  match u with
  | .sreg n v => x.setReg n v
  | .preg n v => x.setPred n v
  | .btgt n a r => x.setBtgt n { addr := a, prepared := true, ready := r }
  | .flags f => x.setFlags f
  | .ntid v => { x with ntid := v }
  | .learn c => { x with clock := Clock.join x.clock c }
  | .tile _ => x | .mask _ => x | .shape _ _ => x | .count _ _ _ => x | .bind _ _ => x | .renew _ => x

/-- The register part of an update, on a snapshot whose group issued after the update's syllable (R231). -/
def SnapStrand.put (x : SnapStrand) (seq : Nat) (u : Upd) : SnapStrand :=
  if x.seq ≤ seq then x
  else match u with
    | .sreg n v => if n = 0 then x else { x with s := x.s.setIfInBounds n v }
    | .preg n v => if n = 0 then x else { x with p := x.p.setIfInBounds n v }
    | .btgt n a r => { x with b := x.b.setIfInBounds n { addr := a, prepared := true, ready := r } }
    | .flags _ => x | .ntid _ => x | .learn _ => x | .tile _ => x | .mask _ => x | .shape _ _ => x | .count _ _ _ => x
    | .bind _ _ => x | .renew _ => x

/-- A strand's snapshot in a region. -/
def Region.snap (r : Region) : Strand → SnapStrand
  | .S => r.S | .L => r.L | .V => r.V | .M => r.M
/-- Replace a strand's snapshot. -/
def Region.setSnap (r : Region) (st : Strand) (x : SnapStrand) : Region :=
  match st with
  | .S => { r with S := x } | .L => { r with L := x } | .V => { r with V := x } | .M => { r with M := x }

/-- The part of an update that falls on the slice's shared state. -/
def Work.put (W : Work) (u : Upd) : Work :=
  match u with
  | .tile cells => { W with tiles := ssetAll W.tiles cells }
  | .mask bits => { W with masks := ssetAll W.masks bits }
  | .shape t v => { W with shapes := W.shapes.setIfInBounds t v }
  | .bind q d =>
    { W with streams := W.streams.setIfInBounds q { bound := true, exh := false, desc := d, fmt := d.getD 40 0, cursor := 0, buf := [] } }
  | .sreg _ _ => W | .preg _ _ => W | .btgt _ _ _ => W | .flags _ => W | .ntid _ => W | .learn _ => W | .count _ _ _ => W
  | .renew _ => W

/-- One update of a result of a strand is written (R20, R24, R91, R231, R278). A renewal begins once the reads before the syllable have been
performed (R275). -/
def State.putUpd (s : State) (h : HallId) (st : Strand) (seq : Nat) (u : Upd) : State :=
  let s := s.onHall h fun H =>
    { (H.onStrand st (·.put u)) with
      slice := H.slice.map fun sl => { sl with regions := sl.regions.map fun r => r.setSnap st ((r.snap st).put seq u) } }
  let s := s.onHall h (Hall.onWork · fun W => W.put u)
  match u with
  | .count c tid n => s.countOn h c tid n
  | .renew x => s.renewAfter h st x seq
  | .bind q _ => s.dropStream h q
  | .sreg _ _ => s | .preg _ _ => s | .btgt _ _ _ => s | .flags _ => s | .ntid _ => s | .learn _ => s | .tile _ => s
  | .mask _ => s | .shape _ _ => s

/-- A result is written: its updates in order. -/
def State.putAll (s : State) (h : HallId) (st : Strand) (seq : Nat) (us : List Upd) : State :=
  us.foldl (fun s u => s.putUpd h st seq u) s

end Sys2Proof.Machine
end

