-- ==== Sys2Proof/Machine/Groups.lean ====
section
/-! DEFINITION. Groups and their barriers (R143 to R147, R290): membership, arrivals and the completion of a phase. -/

namespace Sys2Proof.Machine

/-- The group of a context and an identifier. -/
def State.group (s : State) (asid : Asid) (gid : Nat) : Option Group :=
  s.groups.find? fun g => g.asid == asid && g.gid == gid

/-- Change a group. A group without members ceases to exist (R144); what is known of the phases of one that another module keeps stays. -/
def State.onGroup (s : State) (asid : Asid) (gid : Nat) (f : Group → Group) : State :=
  { s with groups := (s.groups.map fun g => if g.asid = asid ∧ g.gid = gid then f g else g).filter fun g => !g.members.isEmpty || !g.home }

/-- The partition that a context belongs to, by the ASIDs assigned (R33). -/
def State.partOf (s : State) (asid : Asid) : PartId :=
  match (List.range 16).find? fun p => (s.part (BitVec.ofNat 4 p)).asids.getLsbD asid.toNat with
  | some p => BitVec.ofNat 4 p
  | none => 0

/-- The member modules of a context's fabric group other than this one (R413). -/
def State.peers (s : State) (asid : Asid) : List Nat :=
  let P := s.part (s.partOf asid)
  if P.fabGroup = 0 then [] else (List.range P.fabNmod.toNat).filter (· != P.fabIndex.toNat)

/-- The group is one of the fabric's (R290). -/
def Group.isFabric (g : Group) : Bool := g.scope == .fabric

/-- A phase opens: the members that it counts, and those of them that have arrived already (R145). -/
def Group.openNext (g : Group) : Group :=
  let ms := g.members.map fun m => if m.from_ ≤ g.phase then { m with arrived := false } else m
  { g with
    phase := g.phase + 1
    members := ms
    expected := ms.length
    arrivals := (ms.filter (·.arrived)).length
    prev := Clock.join g.prev g.stamp
    stamp := [] }

/-- The home of a FABRIC group tells every other member module something about it (R147, R290, R409). -/
def State.tellMembers (s : State) (asid : Asid) (msg : Byte → Instr) : State :=
  (s.peers asid).foldl (fun s m => s.sendTo (s.partOf asid) m (msg ((s.part (s.partOf asid)).fabIndex.setWidth 8))) s

/-- This module's member index for a context (R413). -/
def State.selfIndex (s : State) (asid : Asid) : Nat := (s.part (s.partOf asid)).fabIndex.toNat

/-- The open phase waits for the member: it counts the member, and the member has not arrived (R143, R145). -/
def Group.owes (g : Group) (m : GMember) : Bool := !m.arrived && m.from_ ≤ g.phase

/-- The timeout of a group's open phase is suspended (R147). -/
def Group.suspended (g : Group) : Bool := g.members.any fun m => m.absent && g.owes m

/-- The proxy absence token of a member of a FABRIC group, or its withdrawal: to the group's home, or from it to every member module (R147, R290,
R409). It names the Hall by which the home knows the member (log 9). -/
def State.sendToken (s : State) (g : Group) (m : GMember) (away : Bool) : State :=
  let msg := fun (self : Byte) =>
    if away then Instr.proxyTokenMessage self m.hall g.asid (BitVec.ofNat 12 g.gid) (BitVec.ofNat 32 g.phase)
    else .tokenWithdrawal self m.hall g.asid (BitVec.ofNat 12 g.gid) (BitVec.ofNat 32 g.phase)
  if !g.isFabric then s
  else if g.home then s.tellMembers g.asid msg
  else s.sendTo (s.partOf g.asid) g.homeAt (msg (BitVec.ofNat 8 (s.selfIndex g.asid)))

/-- A phase of a group has opened: each member of this module that is switched out and that the new phase waits for, as the last one did not, gets
its token (R147, R290). -/
def State.openTokens (s : State) (old : Group) : State :=
  match s.group old.asid old.gid with
  | none => s
  | some g =>
    let self := s.selfIndex g.asid
    let had := fun (m : GMember) => old.members.any fun x => x.index == self && x.slice == m.slice && old.owes x
    (g.members.filter fun m => m.index == self && m.absent && g.owes m && !had m).foldl (fun s m => s.sendToken g m true) s

/-- The open phase completes once its arrivals have reached its expected count, and the next opens at once (R144, R145). The home of a FABRIC group
tells every member module (R409). -/
def State.completePhase (s : State) (asid : Asid) (gid : Nat) : State :=
  match s.group asid gid with
  | none => s
  | some g =>
    if g.home && g.expected ≤ g.arrivals then
      let s := s.onGroup asid gid Group.openNext
      if g.isFabric then
        (s.tellMembers asid fun self => .phaseCompleteMessage self g.creatorHall asid (BitVec.ofNat 12 gid) (BitVec.ofNat 32 g.phase)).openTokens g
      else s
    else s

/-- A phase that can complete does; the next one may complete at once too, when every member had already arrived for it (R145). -/
def State.settleGroup (s : State) (asid : Asid) (gid : Nat) : State := (s.completePhase asid gid).completePhase asid gid

/-- The first phase that counts a member that joins now (R143): the one that opens next, or phase 0 while no one has arrived in it (log 29). -/
def Group.firstPhase (g : Group) : Nat := if g.phase = 0 && g.arrivals == 0 then 0 else g.phase + 1

/-- A member joins, to be counted from a phase on (R143). -/
def Group.join (g : Group) (slice index : Nat) (h : HallId) (first : Nat) : Group :=
  { g with
    members := g.members ++ [{ slice := slice, index := index, hall := h, from_ := first, arrived := false, absent := false }]
    expected := if first ≤ g.phase then g.expected + 1 else g.expected }

/-- A group that a join creates (R143). -/
def Group.fresh (asid : Asid) (gid : Nat) (sc : Scope) (h : HallId) : Group :=
  { asid := asid, gid := gid, scope := sc, members := [], phase := 0, expected := 0, arrivals := 0, stamp := [], prev := [],
    creatorHall := h, home := true, homeAt := 0 }

/-- A member of this module, by its slice; of another, by its module and Hall. -/
def GMember.is (m : GMember) (self slice index : Nat) (h : HallId) : Bool :=
  if index = self then m.index == self && m.slice == slice else m.index == index && m.hall == h

/-- A member of another module that no message has named yet is the one that a message names (log 15). -/
def Group.claim (g : Group) (index : Nat) (h : HallId) : Group :=
  let open_ := g.members.filter (·.index == 64)
  if g.members.any (fun m => m.index == index && m.hall == h) then g
  else match (open_.find? fun m => !m.arrived).orElse fun _ => open_.head? with
    | none => g
    | some w => { g with members := { w with index := index, hall := h } :: g.members.erase w }

/-- A member leaves (R144): one that has not arrived lowers the expected count of an open phase that counts it. -/
def Group.leave (g : Group) (m : GMember) : Group :=
  { g with members := g.members.erase m, expected := if g.owes m then g.expected - 1 else g.expected }

/-- A member arrives (R145); an arrival of one that counts only from the next phase waits for it (R143). -/
def Group.arrive (g : Group) (m : GMember) (c : Clock) : Group :=
  { g with members := g.members.replace m { m with arrived := true }
           arrivals := if m.from_ ≤ g.phase then g.arrivals + 1 else g.arrivals
           stamp := Clock.join g.stamp c }

/-- The member that a slice of this module is. -/
def Group.mine (g : Group) (self slice : Nat) (h : HallId) : Option GMember := g.members.find? fun m => m.is self slice self h

/-- The home of a FABRIC group whose last member has left tells every member module, where what is known of its phases ends: the group ceases, and its
identifier may be created anew from phase 0 (R144, R145; log 9). -/
def State.tellCeased (s : State) (g : Group) (h : HallId) : State :=
  if g.home && g.isFabric && (s.group g.asid g.gid).isNone then
    s.tellMembers g.asid fun self => .groupLeaveMessage self h g.asid (BitVec.ofNat 12 g.gid) (BitVec.ofNat 32 g.phase)
  else s

/-- A slice of this module leaves a group; to the home of a FABRIC group elsewhere a message goes, and a token of the slice is withdrawn (R144,
R290, R409). -/
def State.leaveGroup (s : State) (asid : Asid) (slice : Nat) (h : HallId) (gid : Nat) : State :=
  match s.group asid gid with
  | none => s
  | some g =>
    match g.mine (s.selfIndex asid) slice h with
    | none => s
    | some m =>
      let s := if m.absent && g.owes m then s.sendToken g m false else s
      let s := if g.home then s
        else s.sendTo (s.partOf asid) g.homeAt
          (.groupLeaveMessage (BitVec.ofNat 8 (s.selfIndex asid)) m.hall asid (BitVec.ofNat 12 gid) (BitVec.ofNat 32 g.phase))
      ((s.onGroup asid gid fun g => g.leave m).settleGroup asid gid).tellCeased g h

/-- A slice leaves every group (R144). -/
def State.leaveAll (s : State) (sl : Slice) (h : HallId) : State :=
  sl.groups.foldl (fun s m => s.leaveGroup sl.asid sl.id h m.gid) s

/-- A member is switched out, or runs again: while it is away and its group's open phase waits for it, the phase's timeout is suspended, and a FABRIC
group has its token (R147, R290). -/
def State.markAbsent (s : State) (sl : Slice) (h : HallId) (away : Bool) : State :=
  sl.groups.foldl (fun s e =>
    match s.group sl.asid e.gid with
    | none => s
    | some g =>
      match g.mine (s.selfIndex sl.asid) sl.id h with
      | none => s
      | some m =>
        let s := s.onGroup sl.asid e.gid fun g => { g with members := g.members.replace m { m with absent := away } }
        if g.owes m && m.absent != away then s.sendToken g m away else s) s

/-- A memory of a slice's arrival at a group of a context counts as one in phase 0. -/
def Slice.anew (sl : Slice) (asid : Asid) (gid : Nat) : Slice :=
  if sl.asid = asid then { sl with groups := sl.groups.map fun e => if e.gid = gid then { e with last := e.last.map fun _ => 0 } else e } else sl

/-- A FABRIC group that another module kept has ceased (R144): what is known of it goes. Slices of this module whose joins are still on their way
create it anew, from phase 0 (log 9). -/
def State.ceased (s : State) (asid : Asid) (gid : Nat) : State :=
  match s.group asid gid with
  | none => s
  | some g =>
    let own := (g.members.filter fun m => m.index == s.selfIndex asid).map fun m => { m with from_ := 0 }
    if g.home then s
    else if own.isEmpty then { s with groups := s.groups.filter fun x => !(x.asid == asid && x.gid == gid) }
    else
      { s.onGroup asid gid fun g => { g with members := own, phase := 0, expected := own.length, arrivals := (own.filter (·.arrived)).length } with
        halls := s.halls.map fun H => { H with slice := H.slice.map fun sl => sl.anew asid gid }
        saved := s.saved.map fun v => { v with slice := v.slice.anew asid gid } }

end Sys2Proof.Machine
end

