-- ==== Sys2Proof/Machine/Deque.lean ====
section
/-! DEFINITION. Launch packets and kernel descriptors (R296 to R298), ready deques (R303, R304, R308), the spill ring (R309
to R311), the save pool (R302), and the delivery of slices (R223, R301, R312). -/

namespace Sys2Proof.Machine

/-- A little-endian field of a block of bytes. -/
def fieldAt (d : Bytes) (at_ n : Nat) : Nat := leNat ((d.drop at_).take n)
/-- A doubleword of a block of bytes. -/
def wordAt (d : Bytes) (at_ : Nat) : Word := BitVec.ofNat 64 (fieldAt d at_ 8)

/-! Packets and descriptors. -/

/-- A launch packet read from its 64 bytes (R296). -/
def Packet.ofBytes (d : Bytes) : Packet :=
  let kd := wordAt d 0
  let cb := wordAt d 8
  let deadline := kd.getLsbD 4
  { prio := (kd.extractLsb' 0 4).toNat, deadlineKind := deadline, restart := kd.getLsbD 5,
    kd := BitVec.ofNat 64 ((kd.extractLsb' 6 46).toNat * 64), asid := kd.extractLsb' 52 12,
    cb := BitVec.ofNat 64 ((cb.extractLsb' 0 40).toNat * 4096), budget := (cb.extractLsb' 40 24).toNat,
    lo := if deadline then wordAt d 16 &&& 0x7FFFFFFFFFFFFFFF else wordAt d 16, hi := wordAt d 24,
    rel := deadline && (wordAt d 16).getLsbD 63, args := [wordAt d 32, wordAt d 40, wordAt d 48, wordAt d 56] }

/-- The checks of a packet (R297). -/
def Packet.ok (p : Packet) : Bool :=
  p.budget != 0 && (if p.deadlineKind then p.hi == 0 else p.lo ≤ p.hi) && p.kd != 0

/-- Device time has passed a packet's deadline (R304). -/
def Packet.passed (p : Packet) (now : Nat) : Bool := p.deadlineKind && p.lo.toNat < now

/-- Replace bytes of a block. -/
def patch (d : Bytes) (at_ : Nat) (bs : Bytes) : Bytes := d.take at_ ++ bs ++ d.drop (at_ + bs.length)

/-- The device reads bytes at their home for a context: the packet, mask, descriptor, table and image reads of R386. -/
def State.deviceRead (s : State) (u : Who) (binds : List (BitVec 32 × BitVec 32)) (a : Word) (n : Nat) :
    Except TrapInfo Bytes × State :=
  match resolveAll (s.resolveDirect u binds (wantSystem n)) (runFrom a.toNat n) with
  | .error (_, some t) => (.error t, s)
  | .error (b, none) => (.error ((wantSystem n).tell b (xlate 0)), s)
  | .ok ps =>
    match s.senseRead u.part ps with
    | (some (_, f), s) => (.error ((wantSystem n).tell a.toNat { cause := f.cause, detail := f.code }), s)
    | (none, s) => (.ok (ps.map fun a => if a < 0xE0000000000 then Memory.byte s.mem a else (Config.value (s.free + a)).setWidth 8), s)

/-- A kernel descriptor is malformed (R298), apart from its shape values. -/
def kdMalformed (d : Bytes) : Bool :=
  [0, 8, 16, 24].any (fun o => fieldAt d o 8 % 8 != 0) || fieldAt d 44 4 != 0 || fieldAt d 56 8 != 0 ||
  (fieldAt d 40 4 != 0 && fieldAt d 32 8 == 0)

/-- A shape value as a CSRW of SHAPE takes it (R27, R298): none for WIDTH 11. -/
def shapeOf (v : Word) : Option (BitVec 16) :=
  let w := v.extractLsb' 0 2
  if w = 3 then none
  else
    let lim := 256 / 2 ^ w.toNat - 1
    let c := min (v.extractLsb' 8 8).toNat lim
    some (BitVec.ofNat 8 c ++ 0#2 ++ v.extractLsb' 2 4 ++ w)

/-- The shapes that a descriptor's TMASK takes from its shape table: none when one of them has WIDTH 11. -/
def kdShapes (mask : Nat) (table : Bytes) : Option (List (Nat × BitVec 16)) :=
  (List.range 32).foldr (fun i acc =>
    if mask / 2 ^ i % 2 = 1 then
      match shapeOf (wordAt table (8 * i)), acc with
      | some v, some l => some ((i, v) :: l)
      | _, _ => none
    else acc) (some [])

/-- A descriptor and its shapes, read in a context (R297, R298): ILLEGAL for a malformed one. -/
def State.readKd (s : State) (u : Who) (kd : Word) : Except TrapInfo (Bytes × List (Nat × BitVec 16)) × State :=
  match s.deviceRead u [] kd 64 with
  | (.error t, s) => (.error t, s)
  | (.ok d, s) =>
    if kdMalformed d then (.error { cause := .ILLEGAL }, s)
    else if fieldAt d 40 4 = 0 then (.ok (d, []), s)
    else match s.deviceRead u [] (wordAt d 32) 256 with
      | (.error t, s) => (.error t, s)
      | (.ok tab, s) =>
        match kdShapes (fieldAt d 40 4) tab with
        | none => (.error { cause := .ILLEGAL }, s)
        | some l => (.ok (d, l), s)

/-! Deques. A Hall's list stands in the order in which the Hall would select its records (R304). -/

/-- A record already there stays ahead of a new one (R303, R304). -/
def Ready.staysAhead (x r : Ready) : Bool :=
  if x.prio ≠ r.prio then r.prio < x.prio
  else match x.deadline, r.deadline with
    | some d, some e => d < e || (d == e && x.seq < r.seq)
    | some _, none => true
    | none, some _ => false
    | none, none => r.atThief

/-- Enter a record. -/
def enterReady (r : Ready) : List Ready → List Ready
  | [] => [r]
  | x :: t => if x.staysAhead r then x :: enterReady r t else r :: x :: t

/-- Enter a record into a Hall that has room. -/
def Hall.enter (H : Hall) (r : Ready) : Hall := { H with deque := enterReady r H.deque }

/-! The save pool (R302, R322). Its space is handed out first fit (log 3). -/

/-- Intervals of a partition's save pool that are in use. -/
def State.poolUsed (s : State) (p : PartId) : List (Nat × Nat) :=
  (s.saved.filter fun v => v.slice.part == p).map (fun v => (v.area.toNat, v.areaLen)) ++
    (s.part p).backed.map fun b => (b.2, 0x80000)

/-- An interval is free in the pool. -/
def poolFits (used : List (Nat × Nat)) (base size a len : Nat) : Bool :=
  base ≤ a && a + len ≤ base + size && used.all fun u => u.1 + u.2 ≤ a || a + len ≤ u.1

/-- Take len bytes of the save pool. -/
def State.takePool (s : State) (p : PartId) (len : Nat) : Option Nat :=
  let used := s.poolUsed p
  let base := (s.part p).saveBase.toNat
  let tries := base :: used.map fun u => (u.1 + u.2 + 4095) / 4096 * 4096
  tries.find? fun a => poolFits used base (s.part p).saveSize.toNat a len

/-! The spill ring. -/

/-- Records of the ring, 0 when it is disabled (R309). -/
def Part.ringSize (P : Part) : Nat :=
  let n := (P.spillBase.extractLsb' 0 5).toNat
  if 6 ≤ n ∧ n ≤ 24 then 2 ^ n else 0
/-- The byte offset in the ring at which the next entry stands (R400). -/
def Part.ringOffset (P : Part) : Word := if P.ringSize = 0 then 0 else BitVec.ofNat 64 (64 * (P.spillTail.toNat % P.ringSize))
/-- First address of the ring (R309). -/
def Part.ringBase (P : Part) : Nat := P.spillBase.toNat % 2 ^ 52 / 4096 * 4096

/-- A fault of the Concourse at a ring page: what the supervisor's tables say of it (R311, R386). -/
def ringFault (a : Nat) (t : TrapInfo) : TrapInfo := { t with access := .system, width := 4, addr := BitVec.ofNat 64 a }

/-- The physical address of a byte of the ring: through the supervisor's tables, else through a page that the Concourse
has backed from the save pool (R311). -/
def State.ringByte (s : State) (p : PartId) (u : Who) (a : Nat) : Except TrapInfo Nat :=
  let via := fun b => match s.resolveDirect u [] { wantSystem 8 with w := true } b with
    | .ok q => Except.ok q
    | .miss => .error (xlate 0)
    | .fault t => .error t
  match via a with
  | .ok q => .ok q
  | .error t =>
    match (s.part p).backed.find? fun b => b.1 == a / 2 ^ 19 with
    | some b => via (b.2 + a % 2 ^ 19)
    | none => .error t

/-- Write bytes into the ring, backing an unmapped page from the save pool when SPG is 0 (R311). -/
def State.ringWrite (s : State) (p : PartId) (a : Nat) (bs : Bytes) : Except TrapInfo State :=
  match s.superAsid p with
  | none => .error (ringFault a (xlate 0))
  | some asid =>
    let u : Who := { hall := 0, asid := asid, part := p, super := true }
    let s := match s.ringByte p u a with
      | .ok _ => s
      | .error _ =>
        if (s.part p).mode.getLsbD 3 then s
        else match s.takePool p 0x80000 with
          | some b => s.onPart p fun P => { P with backed := P.backed ++ [(a / 2 ^ 19, b)] }
          | none => s
    match s.ringByte p u a with
    | .error t => .error (ringFault a t)
    | .ok q => .ok (s.poke (cellsAt q bs))

/-- The header of a spilled entry (R310): save and inst are the save area and the launch instance of a saved slice. -/
def spillHeader (h : HallId) (r : Ready) (save : Word) (inst : Nat) : Bytes :=
  match r.what with
  | .fresh _ _ rank id =>
    [1, h, rank, if r.atThief then 1 else 0, 0, 0, 0, 0] ++ leBytes 8 r.seq ++ leBytes 8 0 ++ leBytes 8 id ++ List.replicate 32 0
  | .saved _ =>
    [2, h, 0, if r.atThief then 1 else 0, 0, 0, 0, 0] ++ leBytes 8 r.seq ++ leBytes 8 save.toNat ++ leBytes 8 inst ++ List.replicate 32 0

/-- Records of the ring that an entry takes (R310). -/
def Ready.records (r : Ready) : Nat := match r.what with | .fresh _ _ _ _ => 2 | .saved _ => 1

/-- An entry is spilled (R310, R311). -/
def State.spill (s : State) (p : PartId) (h : HallId) (r : Ready) : Except TrapInfo State :=
  let P := s.part p
  let n := P.ringSize
  if n < (P.spillTail - P.spillHead).toNat + r.records then .error { cause := .SPILL_FULL }
  else
    let (save, inst) : Word × Nat := match r.what with
      | .saved id => (match s.saved.find? fun v => v.slice.id == id with | some v => (v.area, v.slice.inst) | none => (0, 0))
      | .fresh _ _ _ _ => (0, 0)
    let body := spillHeader h r save inst ++ (match r.what with | .fresh _ raw _ _ => raw | .saved _ => [])
    let t := P.spillTail.toNat
    let at_ := fun (i : Nat) => P.ringBase + 64 * ((t + i) % n)
    let w : Except TrapInfo State := match s.ringWrite p (at_ 0) (body.take 64) with
      | .error e => .error e
      | .ok s => if r.records = 2 then s.ringWrite p (at_ 1) (body.drop 64) else .ok s
    match w with
    | .error e => .error e
    | .ok s => .ok (s.onPart p fun P =>
        { P with spillTail := P.spillTail + BitVec.ofNat 64 r.records
                 spilled := P.spilled ++ [{ at_ := t, n := r.records, hall := h, rec_ := r, taken := false }] })

/-- A record is entered at a Hall, which spills what no longer fits (R303, R308, R310). -/
def State.deliver (s : State) (p : PartId) (h : HallId) (r : Ready) : Except TrapInfo State :=
  let H := s.hall h
  let r := { r with seq := H.recSeq }
  let q := enterReady r H.deque
  if q.length ≤ 64 then .ok (s.setHall h { H with deque := q, recSeq := H.recSeq + 1 })
  else match q.getLast? with
    | none => .ok s
    | some low =>
      let low := if low.deadline.isNone && low != r then { low with atThief := true } else low
      match s.spill p h low with
      | .error e => .error e
      | .ok s => .ok (s.onHall h fun H => { H with deque := q.dropLast, recSeq := H.recSeq + 1 })

/-! Launch instances (R301, R312). -/

/-- A launch instance. -/
def State.inst (s : State) (id : Nat) : Option Inst := s.insts.find? fun i => i.id == id
/-- Change a launch instance. -/
def State.onInst (s : State) (id : Nat) (f : Inst → Inst) : State :=
  { s with insts := s.insts.map fun i => if i.id = id then f i else i }

/-- The Halls of a mask, ascending. -/
def maskHalls (m : BitVec 256) : List HallId := ((List.range 256).filter fun h => m.getLsbD h).map (BitVec.ofNat 8)

/-- A mask from its 32 bytes (R223). -/
def maskOf (d : Bytes) : BitVec 256 := BitVec.ofNat 256 (leNat d)

/-- The fresh record of a packet. -/
def freshReady (p : Packet) (raw : Bytes) (rank inst : Nat) : Ready :=
  { what := .fresh p raw (BitVec.ofNat 8 rank) inst, prio := p.prio,
    deadline := if p.deadlineKind then some p.lo.toNat else none, seq := 0, atThief := false, late := false }

/-- The delivered copy of a packet: a relative deadline made absolute (R297). -/
def State.absolute (s : State) (raw : Bytes) : Bytes :=
  let p := Packet.ofBytes raw
  if p.rel then patch raw 16 (leBytes 8 ((p.lo.toNat + s.devtime) % 2 ^ 63)) else raw

/-- Deliver one copy to each Hall of a list, with ascending ranks; nothing when one cannot be placed (R223). -/
def State.deliverEach (s : State) (p : PartId) (pk : Packet) (raw : Bytes) (inst : Nat) : Nat → List HallId → Except TrapInfo State
  | _, [] => .ok s
  | rank, h :: t =>
    match s.deliver p h (freshReady pk raw rank inst) with
    | .error e => .error e
    | .ok s => s.deliverEach p pk raw inst (rank + 1) t

/-- A LAUNCH's delivery, once its packet has been checked (R223, R301): a new instance and its records. One that delivers no slice has ended, and
its successor is due (R312). -/
def State.launchCopies (s : State) (p : PartId) (raw : Bytes) (succ : Word) (hs : List HallId) (pred : Option Nat) (c : Clock) :
    Except TrapInfo State :=
  let raw := s.absolute raw
  let pk := Packet.ofBytes raw
  let id := s.nextInst
  match s.deliverEach p pk raw id 0 hs with
  | .error e => .error e
  | .ok s => .ok { s with
      nextInst := id + 1
      insts := s.insts ++ [{ id := id, live := hs.length, asid := pk.asid, part := p, succ := succ, released := false,
                             wants := false, pred := pred, ended := hs.isEmpty, start := c, stamp := c, due := hs.isEmpty }] }

/-- Who a context is on a Hall, in the mode that its record gives (R14, R383). -/
def State.whoIs (s : State) (h : HallId) (p : PartId) (asid : Asid) : Who :=
  { hall := h, asid := asid, part := p, super := (s.ctxNow p asid 0).getLsbD 1 }

/-- A context that is frozen, or has passed the capture instant of its FREEZE, takes no more slices (R324). -/
def Ctx.hasLeft (c : Ctx) : Bool := c.frozen || (match c.freezing with | some f => f.at_.isSome | .none => false)

/-- The checks of a LAUNCH on its packet and mask, after PRIV (R223, R297, R324, R383): the descriptor's successor. -/
def State.launchChecks (s : State) (h : HallId) (p : PartId) (raw : Bytes) (mask : BitVec 256) : Except TrapInfo Word × State :=
  let pk := Packet.ofBytes raw
  if !s.ctxValid p pk.asid || (s.ctx pk.asid).hasLeft then (.error (prot 0x20), s)
  else if !pk.ok then (.error { cause := .ILLEGAL }, s)
  else match s.readKd (s.whoIs h p pk.asid) pk.kd with
    | (.error t, s) => (.error t, s)
    | (.ok (d, _), s) =>
      if mask &&& ~~~(s.part p).halls != 0 then (.error (prot 0x20), s) else (.ok (wordAt d 48), s)

/-- An instance releases its successor record, once (R312). A record that cannot be placed is tried again later (R311), and so is a release whose event
finds no room (R400). -/
def State.releaseSucc (s : State) (id : Nat) : State :=
  match s.inst id with
  | none => s
  | some i =>
    if i.released ∨ i.succ = 0 then s
    else
      let h := match maskHalls (s.part i.part).halls with | h :: _ => h | [] => 0
      let u := s.whoIs h i.part i.asid
      let refuse := fun (s : State) =>
        if !s.evRoom i.part then s.onInst id fun i => { i with due := true }
        else (s.onInst id fun i => { i with released := true, wants := false }).raiseEvent i.part
          (hostEvent 4 h.toNat i.asid 0 0 0 i.succ)
      match s.deviceRead u [] i.succ 96 with
      | (.error _, s) => refuse s
      | (.ok d, s) =>
        let mask := maskOf (d.drop 64)
        match s.launchChecks h i.part (d.take 64) mask with
        | (.error _, s) => refuse s
        | (.ok succ, s) =>
          match s.launchCopies i.part (d.take 64) succ (maskHalls mask) (some id) i.stamp with
          | .ok s => s.onInst id fun i => { i with released := true, wants := false }
          | .error _ =>
            if i.wants then s
            else if !s.evRoom i.part then s.onInst id fun i => { i with due := true }
            else (s.onInst id fun i => { i with wants := true }).raiseEvent i.part (hostEvent 5 h.toNat i.asid 0 0 0 (s.part i.part).ringOffset)

/-- A slice of an instance ends; the last one ends the instance, which then releases its successor (R301, R312). -/
def State.endOne (s : State) (id : Nat) : State :=
  let s := s.onInst id fun i => { i with live := i.live - 1, ended := i.live ≤ 1 }
  match s.inst id with
  | some i => if i.ended then s.releaseSucc id else s
  | none => s

/-- The successor of an instance that delivered no slice is released (R312). -/
def State.releaseDue (s : State) : State :=
  match s.insts.find? (·.due) with
  | none => s
  | some i => (s.onInst i.id fun i => { i with due := false }).releaseSucc i.id

/-- Successor releases that wait for a place are tried again (R311). -/
def State.retrySuccs (s : State) (p : PartId) : State :=
  (s.insts.filter fun i => i.wants && i.part == p).foldl (fun s i => s.releaseSucc i.id) s

/-- HEAD advances past every leading entry that has been taken (R310). -/
def Part.advanceHead (P : Part) : Part :=
  let gone := P.spilled.takeWhile (·.taken)
  { P with spilled := P.spilled.drop gone.length, spillHead := P.spillHead + BitVec.ofNat 64 (gone.foldl (fun n e => n + e.n) 0) }

/-- A record of the device's own that finds no place is reported (R311, R314). -/
def State.noPlace (s : State) (h : HallId) (sl : Slice) : State :=
  s.raiseEvent sl.part (hostEvent 5 h.toNat sl.asid 0 0 0 (s.part sl.part).ringOffset)

end Sys2Proof.Machine
end

