-- ==== Sys2Proof/Machine/Slices.lean ====
section
/-! DEFINITION. Slices: start (R300, R398), bindings (R226, R419), what a kill and an end take away (R320, R396, R301), and
the Halls on which a slice stands still (R26, R392, R305). -/

namespace Sys2Proof.Machine

/-! Bindings. -/

/-- A binding of a version ends; a retired version without bindings becomes free (R419). -/
def State.unbind (s : State) (set version : BitVec 32) : State :=
  match (List.range 256).find? fun i =>
      let d := s.wsets[i]?.getD .free
      d.state != 0 && d.set == set && d.version == version with
  | none => s
  | some i =>
    let d := s.wsets[i]?.getD .free
    let d := { d with binds := d.binds - 1 }
    if d.state = 2 ∧ d.binds = 0 then
      ({ s with wsets := s.wsets.setIfInBounds i { d with state := 0 } }).send
        (.interruptToHost 16 3 (leBytes 8 0 ++ leBytes 2 0 ++ leBytes 2 6))
    else { s with wsets := s.wsets.setIfInBounds i d }

/-- A slice releases its bindings (R226). -/
def State.releaseBinds (s : State) (sl : Slice) : State := sl.wsets.foldl (fun s b => s.unbind b.1 b.2) s

/-! Nothing in flight. -/

/-- No fixed-latency result and no landing slot is outstanding (R26). -/
def StrandState.quiet (x : StrandState) : Bool := x.slots.isEmpty && x.pends.isEmpty

/-- As quiet, on all four strands. -/
def Hall.quiet (H : Hall) : Bool := ring.all fun st => (H.work.strand st).quiet

/-- A command of the slice is being performed (R315, R320). -/
def Hall.performing (H : Hall) (id : Nat) : Bool :=
  (match H.copy with | some r => r.cmd.slice == id | none => false) || (H.mq.any fun c => c.slice == id && c.started.isSome) ||
    (match H.hz with | some r => r.cmd.slice == id | none => false)

/-! Discarding. -/

/-- Stores of the overlay are discarded, and with them the versions that they made in the overlay image (R280, R349). -/
def State.dropStores (s : State) (h : HallId) (p : Store → Bool) : State :=
  let gone := ((s.hall h).overlay.filter p).map fun e => (s.agentOf h e.strand, e.seq)
  { s.onHall h (fun H => { H with overlay := H.overlay.filter fun e => !p e }) with
    hist := s.hist.filter fun v => v.home || !gone.contains (v.agent, v.num) }

/-- Every command of a slice that has not started is discarded, and its copy in progress is stopped (R320, R315). -/
def State.stopEngines (s : State) (h : HallId) (id : Nat) : State :=
  s.onHall h fun H =>
    { H.uncount (H.unmatched id 0 ++ H.work.S.unmatched) with
      mq := H.mq.filter fun c => c.slice != id || c.started.isSome
      cq := H.cq.filter fun c => c.slice != id
      hq := H.hq.filter fun c => c.slice != id
      copy := H.copy.map fun r => if r.cmd.slice = id then { r with stop := true } else r }

/-- A strand that no slice uses: its registers keep their values, and nothing is in flight. -/
def StrandState.idle (x : StrandState) : StrandState :=
  { StrandState.fresh with s := x.s, p := x.p, b := x.b, pc := x.pc, nflags := x.nflags, sbchk := x.sbchk, ntid := x.ntid }

/-- What the engines have written into the tiles in the cycle before is made, after all strand writes of that cycle (R158). -/
def Hall.writeTiles (H : Hall) : Hall :=
  { H with work := { H.work with tiles := ssetAll H.work.tiles H.tileWrites }, tileWrites := [] }

/-- The slice leaves the Hall; what it leaves in its registers, tiles, masks and banks stays (R300, R381). BOOST.REQ returns to nominal
(R222). Posts that engines hold stay, for the events of the slice that comes next (DESIGN CHOICE, log 55). -/
def Hall.vacate (H : Hall) : Hall :=
  let H := H.writeTiles
  { H with
    lastAsid := match H.slice with | some sl => some sl.asid | none => H.lastAsid
    slice := none, trap := none, back := none, switch := none, preempt := none, boostReq := .nominal, syncGo := false
    stealAt := some H.cycle, stealIdx := 0, asking := false, restore := .off, csrWrites := [],
    work := { H.work with S := H.work.S.idle, L := H.work.L.idle, V := H.work.V.idle, M := H.work.M.idle } }

/-- The slice ends without its publication: terminated by the supervisor, or refused at its start (R396, R298). -/
def State.afterEnd (s : State) (h : HallId) (sl : Slice) : State :=
  let s := (s.leaveAll sl h).releaseBinds sl
  let s := if sl.supervisor then
      (s.interrupt sl.part h.toNat sl.asid 7).onPart sl.part fun P => { P with supSlice := none, supStopped := false }
    else s
  (s.onHall h (·.vacate)).endOne sl.inst

/-- The fresh record that a kill leaves (R320). Its deadline's interrupt is raised once (R304). -/
def Slice.killRecord (sl : Slice) : Ready :=
  { freshReady (Packet.ofBytes sl.raw) sl.raw sl.rank.toNat sl.inst with late := sl.late }

/-- The holds of a context on a Hall are over with its slice there: neither its strands nor its engines wait any more (R320, R390). -/
def State.dropHolds (s : State) (h : HallId) (asid : Asid) : State :=
  let cut := fun (w : Walk) => if w.hold.isSome && w.asid == asid then { w with halls := w.halls.filter (· != h) } else w
  { s with walks := (s.walks.map cut).filter fun w => !w.halls.isEmpty }

/-- A kill takes effect: the strands have stopped (R320). None when the fresh record finds no place (R311). -/
def State.kills (s : State) (h : HallId) : Option State :=
  match (s.hall h).slice with
  | none => some s
  | some sl =>
    let s := ((s.dropStores h fun _ => true).stopEngines h sl.id).dropHolds h sl.asid
    let s := ((s.leaveAll sl h).releaseBinds sl).onHall h (·.vacate)
    match s.deliver sl.part h sl.killRecord with
    | .ok s => some s
    | .error _ => none

/-- A termination by the supervisor takes effect (R396): unpublished stores are discarded as for a kill. -/
def State.termNow (s : State) (h : HallId) : State :=
  match (s.hall h).slice with
  | none => s
  | some sl => (((s.dropStores h fun _ => true).stopEngines h sl.id).dropHolds h sl.asid).afterEnd h sl

/-- The slice begins to leave its Hall: no strand issues any more (R26, R315, R320). -/
def State.beginLeave (s : State) (h : HallId) (how : Leave) (rows : List Nat) (tiles : BitVec 32) (ranges : List (Nat × Nat)) : State :=
  s.onHall h fun H =>
    match H.slice with
    | none => H
    | some sl =>
      let id := sl.id
      { H with
        switch := some { how := how, from_ := H.cycle, captured := false, rows := rows, tiles := tiles, ranges := ranges, told := false }
        preempt := none
        copy := H.copy.map fun r => if r.cmd.slice = id then { r with stop := true } else r }

/-- A slice that a trap has stopped begins to leave its Hall: no strand goes first (R393, R396, R399). -/
def State.leaveStopped (s : State) (h : HallId) (how : Leave) : State :=
  (s.beginLeave h how [] 0 []).onHall h fun H => { H with trap := none, switch := H.switch.map fun w => { w with from_ := H.cycle - 1 } }

/-- The supervisor or the host terminates a stopped slice (R396, R426): commands of its that have started complete first, as for a kill. -/
def State.terminate (s : State) (h : HallId) : State :=
  match (s.hall h).slice with
  | none => s
  | some sl => if (s.hall h).performing sl.id then s.leaveStopped h .term else s.termNow h

/-! Start (R300). -/

/-- A threshold register at reset (R93). -/
def Thresh.reset : Thresh := { limit := BitVec.allOnes 32, win := 0, act := false, pos := 0, from_ := 0, count := 0, crossed := false }

/-- A slice as a fresh record makes it (R300). -/
def Slice.fresh (id : Nat) (p : Packet) (raw : Bytes) (rank : Byte) (inst : Nat) (part : PartId) (super : Bool) (notices : Byte) : Slice :=
  { id := id, asid := p.asid, part := part, super := super, supervisor := false, packet := p, raw := raw, rank := rank,
    inst := inst, left := 256 * p.budget, lo := if p.deadlineKind then 0 else p.lo, hi := if p.deadlineKind then 0 else p.hi,
    late := false, estimate := none, ncfg := 0, ntstat := 0, thresh := Vector.replicate 3 .reset, counters := [],
    noteEn := false, notePend := notices != 0, noteCount := notices, retry := 2, tileFmt := .BF16, wsets := [], groups := [],
    regions := [], log := [], logFill := 0, pubFault := none, hzUsed := false, ending := false, endFrom := none, waitPred := false,
    stoppedCopies := [], fills := [] }

/-- A strand of a fresh slice (R300). -/
def StrandState.start (entry : Word) (args : List Word) (now : Nat) (c : Clock) : StrandState :=
  { StrandState.fresh with
    pc := entry, clock := c, issueFrom := 0, notBefore := now
    s := (args.mapIdx fun i a => (i + 1, a)).foldl (fun v e => v.setIfInBounds e.1 e.2) (Vector.replicate 64 0) }

/-- The four strands renew at DEVICE (R275). -/
def State.renewAll (s : State) (h : HallId) : State := ring.foldl (fun s st => s.renew h st .device) s

/-- The posts that wait for a partition's supervisor slice reach its events (R118, R398). -/
def State.giveOwed (s : State) (h : HallId) (part : PartId) : State :=
  let owed := (s.part part).owed
  (s.onPart part fun P => { P with owed := [] }).onHall h fun H =>
    { H with posts := H.posts ++ owed.map fun e => { ev := e, queue := none, cmd := 0, stamp := .empty } }

/-- The start of a fresh slice on a free Hall (R298, R300, R255, R398). A fault or a malformed descriptor ends it before
any strand issues. -/
def State.startSlice (s : State) (h : HallId) (part : PartId) (p : Packet) (raw : Bytes) (rank : Byte) (inst : Nat) : State :=
  let super := (s.ctxNow part p.asid 0).getLsbD 1
  let notices := (s.ctx p.asid).notices
  let sl := Slice.fresh s.nextSlice p raw rank inst part super notices
  let s := { s with nextSlice := s.nextSlice + 1 }
  match s.readKd (s.whoIs h part p.asid) p.kd with
  | (.error _, s) =>
    let last := (s.hall h).lastAsid
    (((s.onHall h fun H => { H with slice := some sl }).afterEnd h sl).onHall h fun H => { H with lastAsid := last }).raiseEvent part
      (hostEvent 4 h.toNat p.asid 0 0 0 p.kd)
  | (.ok (d, shapes), s) =>
    let H := s.hall h
    let first := super && (s.part part).supSlice.isNone
    let entry := [wordAt d 0, wordAt d 8, wordAt d 16, wordAt d 24]
    let same := H.lastAsid == some p.asid
    let c := match s.inst inst with | some i => i.start | none => []
    let go := fun (i : Nat) => StrandState.start (entry.getD i 0) p.args (H.cycle + 1) c
    let W : Work :=
      { Work.fresh with
        S := go 0, L := go 1, M := go 2, V := go 3
        tiles := if same then H.work.tiles else []
        masks := if same then H.work.masks else []
        weights := if same then H.work.weights else []
        banks := if same then H.work.banks else Vector.replicate 2 .none
        shapes := shapes.foldl (fun v e => v.setIfInBounds e.1 e.2) (Vector.replicate 32 resetShape) }
    let s := s.setHall h
      { H with slice := some { sl with supervisor := first }, work := W, issued := ({ H with work := W }).reissued.issued, mFault := none,
               trap := none, back := none, switch := none, preempt := none, boostReq := .nominal, csrWrites := [],
               overlay := [], hzEntered := false, rebind := none }
    let s := if first then (s.onPart part fun P => { P with supSlice := some sl.id, supStopped := false }).giveOwed h part else s
    let s := if notices = 0 then s else s.onCtx p.asid fun c => { c with notices := 0 }
    (s.dropStreams h).renewAll h

end Sys2Proof.Machine
end

