-- ==== Sys2Proof/Machine/ControlWindow.lean ====
section
/-! DEFINITION. A partition's control window (R302, R309, R313, R383, R389, R390, R400, R412, R413, R416, R137): its
registers, and what reads and writes of them do. -/

namespace Sys2Proof.Machine

/-! Pre-emption decisions of the supervisor (R313). -/

/-- The policy of PREDEC.POL: none for cancel. -/
def polOf (n : Nat) : Option Policy := if n = 0 then some .drain else if n = 1 then some .checkpoint else if n = 2 then some .kill else none

/-- The policy in force for a slice: a kill of a slice that is not restartable is a checkpoint (R313). -/
def Policy.forSlice (p : Policy) (sl : Slice) : Policy := if p = .kill ∧ !sl.packet.restart then .checkpoint else p

/-- A pre-emption whose policy is settled (R313, R314): a kill begins at once, unless a trap has the slice stopped (R393). -/
def State.settlePreempt (s : State) (h : HallId) (pol : Policy) : State :=
  match (s.hall h).slice with
  | none => s
  | some sl =>
    let pol := pol.forSlice sl
    if pol = .kill ∧ (s.hall h).trap.isNone then s.beginLeave h .kill [] 0 []
    else s.onHall h fun H =>
      { H with preempt := some { policy := pol, asked := false, left := (s.part sl.part).ckwin.toNat * 5544000, lastTick := s.tick } }

/-- The supervisor's decision for a Hall of its partition that asked for one (R313). Any other write does nothing. -/
def State.predec (s : State) (p : PartId) (h : HallId) (pol : Option Policy) : State :=
  match (s.hall h).preempt with
  | none => s
  | some e =>
    if e.asked && (s.hall h).part == some p then
      match pol with
      | none => s.onHall h fun H => { H with preempt := none }
      | some q => s.settlePreempt h q
    else s

/-! Translation holds (R390). -/

/-- The walk of a hold walks again (R390): on a free walker, or when its turn comes behind those that wait (R388). -/
def State.walkAgain (s : State) (p : PartId) (tag : Nat) : State :=
  match s.walks.find? fun w => w.hold == some tag && w.part == p with
  | none => s
  | some w => ({ s with walks := (s.walks.filter fun (x : Walk) => x.id != w.id) ++ [{ w with hold := none, endsAt := none }] }).nextWalker w.plinth

/-- A fault is given to the strands of some Halls that wait for a key (R388). -/
def State.giveFault (s : State) (hs : List HallId) (asid : Asid) (addr : Nat) (t : TrapInfo) : State :=
  hs.foldl (fun s h => s.onHall h fun H =>
    { H with walkFaults := H.walkFaults ++ [{ asid := asid, key := addr / 2 ^ 19, info := t, cycle := H.cycle }] }) s

/-- The supervisor fails a hold: XLATE at every held strand, 0x80 added to its DETAIL; engines stay held (R390). -/
def State.walkFail (s : State) (p : PartId) (tag : Nat) : State :=
  match s.walks.find? fun w => w.hold == some tag && w.part == p with
  | none => s
  | some w =>
    let t := w.failed.getD (xlate 0)
    let s := s.giveFault w.halls w.asid w.addr { t with detail := t.detail % 128 + 128 }
    if w.engine then s else { s with walks := s.walks.filter fun x => x.id != w.id }

/-! PART.XINV (R389). -/

/-- What an invalidation makes effective of a context's record (R383, R389), as it stands: all of it, the range table's doublewords, or the page
tables' (DEDUCED, log 32). -/
def Part.named (P : Part) (asid : Asid) (what : BitVec 2) : SMap 64 :=
  let words : List Nat := if what = 0 then List.range 8 else if what = 1 then [1, 2] else if what = 2 then [3] else []
  words.map fun i => (8 * asid.toNat + i, sget P.ctxRecs (8 * asid.toNat + i))

/-- Doublewords of context records come into force. -/
def Part.adopt (P : Part) (ws : SMap 64) : Part := { P with ctxUsed := ssetAll P.ctxUsed ws }

/-- PART.XINV is written: ignored while BUSY, and for WHAT 11. Until BUSY clears an access may find the record as it was or as it is to be: a free
choice. -/
def State.xinvStart (s : State) (p : PartId) (v : Word) : State :=
  let what := v.extractLsb' 12 2
  if what = 3 ∨ (s.part p).xinv.isSome then s
  else
    let asid : Asid := v.extractLsb' 0 12
    let cmds := (maskHalls (s.part p).halls).flatMap fun h =>
      ((s.hall h).mq.filter fun c => c.asid == asid && !c.pages.isEmpty).map fun c => (h, c.id)
    let (k, s) := s.drawChoice
    let ws := (s.part p).named asid what
    let s := if k % 2 = 0 then s else s.onPart p fun P => P.adopt ws
    s.onPart p fun P => { P with xinv := some { asid := asid, what := what, walks := s.nextWalk, cmds := cmds, recs := ws } }

/-! The event queue (R400). -/

/-- PART.EVQ as an event fills it. -/
def HostEvent.word (e : HostEvent) : Word :=
  BitVec.ofNat 64 (e.kind % 2 ^ 8 + 2 ^ 8 * (e.hall % 2 ^ 8) + 2 ^ 16 * (e.asid % 2 ^ 12) + 2 ^ 28 * (e.tag % 2 ^ 8) +
    2 ^ 36 * (e.pol % 2 ^ 4) + 2 ^ 40 * (e.detail % 2 ^ 8))

/-- A read of PART.EVQ takes the oldest event; one that waited enters the queue and is counted at e30. -/
def State.takeEvq (s : State) (p : PartId) : Word × State :=
  match (s.part p).evq with
  | [] => (0, s)
  | e :: rest =>
    let s := s.onPart p fun P => { P with evq := rest, evarg := e.arg }
    (e.word, if 256 ≤ rest.length then s.postSuper p 30 else s)

/-! Registers. -/

/-- Bits 51:12 of a value. -/
def pageBits (v : Word) : Word := v &&& 0x000FFFFFFFFFF000

/-- A slice of the partition is running. -/
def State.partRuns (s : State) (p : PartId) : Bool :=
  (List.range 256).any fun h => match (s.hall (BitVec.ofNat 8 h)).slice with | some sl => sl.part == p | none => false

/-- The value that an 8-byte register of a control window holds. -/
def State.cwValue (s : State) (p : PartId) (off : Nat) : Word :=
  let P := s.part p
  if off = 0x0000 then P.mode.setWidth 64
  else if off = 0x0008 then (P.pmin ++ P.ckwin ++ P.drain).setWidth 64
  else if off = 0x0010 then P.spillBase
  else if off = 0x0018 then P.spillHead
  else if off = 0x0020 then P.spillTail
  else if off = 0x0040 then P.saveBase
  else if off = 0x0048 then P.saveSize
  else if off = 0x0058 then (if P.xinv.isSome then 0x8000000000000000 else 0)
  else if off = 0x0060 then (match P.evq with | [] => 0 | e :: _ => e.word)
  else if off = 0x0068 then P.evarg
  else if off = 0x0078 then P.migcfg.setWidth 64
  else if off = 0x0080 then P.hotmap
  else if off = 0x0088 then P.arq
  else if off = 0x0090 then (P.arHead ++ P.arTail)
  else if off = 0x00A0 then (P.fabIndex ++ 0#1 ++ P.fabNmod ++ P.fabGroup).setWidth 64
  else if 0x100 ≤ off ∧ off < 0x300 then P.routes[(off - 0x100) / 8]?.getD 0
  else if 0x10000 ≤ off ∧ off < 0x50000 then s.ctxWord p (BitVec.ofNat 12 ((off - 0x10000) / 64)) (off % 64 / 8)
  else if 0x80000 ≤ off ∧ off < 0x84000 then sget P.mrDescs ((off - 0x80000) / 8)
  else 0

/-- The part of a context record's doubleword that a write stores (R383). -/
def ctxBits (i : Nat) (v : Word) (otherSuper : Bool) : Word :=
  if i = 0 then (if otherSuper then v &&& 1 else v &&& 3)
  else if i = 1 then v &&& 0x00000FFFFFFFFFC0
  else if i = 2 then BitVec.ofNat 64 (min v.toNat 256)
  else if i = 3 then v &&& 0x00000FFFFFFFC000
  else 0

/-- A context record is written (R383). A write of its first doubleword takes the ASID of a frozen context into use again (R324; log
19). -/
def State.writeCtx (s : State) (p : PartId) (asid : Asid) (i : Nat) (v : Word) : State :=
  if (s.part p).asids.getLsbD asid.toNat then
    let other := (List.range 4096).any fun a => a != asid.toNat && (s.ctxWord p (BitVec.ofNat 12 a) 0).getLsbD 1
    let s := s.onPart p fun P => { P with ctxRecs := sset P.ctxRecs (8 * asid.toNat + i) (ctxBits i v other) }
    if i = 0 then s.onCtx asid fun c => { c with frozen := false } else s
  else s

/-- A multicast-reduce descriptor is written; its window takes contributions again (R136, R137). -/
def State.writeMr (s : State) (p : PartId) (k : Nat) (v : Word) : State :=
  let v := if k % 8 = 0 then v &&& 0xFFFFFFFF000000FF else if k % 8 = 7 then 0 else v
  s.onPart p fun P => { P with mrDescs := sset P.mrDescs k v, mrOff := P.mrOff.filter (· != k / 8) }

/-- SPILL.BASE is written (R309). -/
def State.writeSpillBase (s : State) (p : PartId) (v : Word) : State :=
  s.onPart p fun P =>
    if P.spillHead = P.spillTail then { P with spillBase := v &&& 0x000FFFFFFFFFF01F, spillHead := 0, spillTail := 0, spilled := [] }
    else P

/-- An 8-byte register of a control window is written. -/
def State.cwStore (s : State) (p : PartId) (off : Nat) (v : Word) : State :=
  if off = 0x0000 then s.onPart p fun P => { P with mode := v.setWidth 5 }
  else if off = 0x0008 then s.onPart p fun P =>
    { P with drain := v.setWidth 32, ckwin := if v.extractLsb' 32 16 = 0 then 1 else v.extractLsb' 32 16,
             pmin := if v.extractLsb' 48 4 = 0 then 1 else v.extractLsb' 48 4 }
  else if off = 0x0010 then s.writeSpillBase p v
  else if off = 0x0040 then s.onPart p fun P => { P with saveBase := pageBits v }
  else if off = 0x0048 then s.onPart p fun P => { P with saveSize := pageBits v }
  else if off = 0x0050 then s.predec p (v.setWidth 8) (polOf (v.extractLsb' 8 2).toNat)
  else if off = 0x0058 then s.xinvStart p v
  else if off = 0x0070 then
    (if v.getLsbD 8 then s.walkFail p (v.extractLsb' 0 8).toNat else s.walkAgain p (v.extractLsb' 0 8).toNat)
  else if off = 0x0078 then s.onPart p fun P => { P with migcfg := v.setWidth 17 }
  else if off = 0x0080 then s.onPart p fun P => { P with hotmap := pageBits v }
  else if off = 0x0088 then s.onPart p fun P => { P with arq := pageBits v }
  else if off = 0x0090 then s.onPart p fun P => if v.extractLsb' 32 32 ≤ P.arTail then { P with arHead := v.extractLsb' 32 32 } else P
  else if off = 0x00A0 then
    (if s.partRuns p then s else s.onPart p fun P =>
      { P with fabGroup := v.setWidth 16, fabNmod := v.extractLsb' 16 7, fabIndex := v.extractLsb' 24 6 })
  else if 0x100 ≤ off ∧ off < 0x300 then
    (if s.partRuns p then s else s.onPart p fun P =>
      { P with routes := P.routes.setIfInBounds ((off - 0x100) / 8) (v &&& 0x00000000FFFF0FFF) })
  else if 0x10000 ≤ off ∧ off < 0x50000 then s.writeCtx p (BitVec.ofNat 12 ((off - 0x10000) / 64)) (off % 64 / 8) v
  else if 0x80000 ≤ off ∧ off < 0x84000 then s.writeMr p ((off - 0x80000) / 8) v
  else s

/-- Registers whose write acts: a 4-byte write acts with zeros in the other half (R302). -/
def cwActs (off : Nat) : Bool := off == 0x0050 || off == 0x0058 || off == 0x0070

/-- A 4-byte or 8-byte write at an offset of a control window (R302). -/
def State.cwWrite (s : State) (p : PartId) (off n : Nat) (v : Word) : State :=
  if n = 8 then s.cwStore p off v
  else
    let high := off % 8 = 4
    let base := off / 8 * 8
    let part := v.extractLsb' 0 32
    let old : Word := if cwActs base then 0 else s.cwValue p base
    s.cwStore p base (if high then part ++ old.extractLsb' 0 32 else old.extractLsb' 32 32 ++ part)

/-- A 4-byte or 8-byte read at an offset of a control window (R302). -/
def State.cwRead (s : State) (p : PartId) (off n : Nat) : Word × State :=
  let base := off / 8 * 8
  let (v, s) := if base = 0x0060 then s.takeEvq p else (s.cwValue p base, s)
  (if n = 8 then v else if off % 8 = 4 then v >>> 32 else v &&& 0xFFFFFFFF, s)

end Sys2Proof.Machine
end

