-- ==== Sys2Proof/Machine/Publish.lean ====
section
/-! DEFINITION. Publications (R140, R121, R273, R275 to R278, R290, R337): what a strand's publication performs, and how a
publishing syllable waits for it. -/

namespace Sys2Proof.Machine

/-- A member module's identifier (R413). -/
def State.routeModule (s : State) (asid : Asid) (m : Nat) : BitVec 16 :=
  ((s.part (s.partOf asid)).routes[m]?.getD 0).extractLsb' 16 16

/-! Fabric stores (R414). -/

/-- Cells of one slice of the fabric range, cut into runs of consecutive addresses of at most 128 bytes; none ends within a line (R274). -/
def fabricRuns : List Host.Cell → List (Nat × Bytes)
  | [] => []
  | (a, b) :: t =>
    match fabricRuns t with
    | (q, bs) :: rest => if q = a + 1 ∧ q % 128 ≠ 0 then (a, b :: bs) :: rest else (a, [b]) :: (q, bs) :: rest
    | [] => [(a, [b])]

/-- Bytes are written in other members of the fabric group, by several fabric writes in address order (R409, R414): what waits for
their responses is the request w but for its tag and its member. -/
def State.fabricStore (s : State) (asid : Asid) (w : FabReq) (cs : List Host.Cell) : State :=
  (fabricRuns cs).foldl (fun s r =>
    let (tag, s) := s.newTag
    ({ s with fabReqs := s.fabReqs ++ [{ w with tag := tag, member := fabMember r.1 }] }).sendTo (s.partOf asid) (fabMember r.1)
      (.fabricWrite s.modid (BitVec.ofNat 16 tag) (fabOffset r.1) asid r.2)) s

/-! Stores of a publication. -/

/-- What a publication has performed so far: the bytes for memory, its first data fault with its place, and the stores that are not performed
and leave the strand's unpublished stores (R121). -/
structure Performed where
  cells : List Host.Cell
  fault : Option (Nat × TrapInfo)
  gone : List Nat
  deriving DecidableEq, Repr

/-- The address and the data of the part of a store that lies at a physical address: for a scatter, those of the element there (R121, R129). -/
def Store.partAt (e : Store) (p : Nat) : Word × Word :=
  match e.tile && e.width ≤ 4, (e.cells.zip e.vas).find? fun c => c.1.1 == p || unitOf c.1.1 == p with
  | true, some c =>
    let v := c.2 / e.width * e.width
    (BitVec.ofNat 64 v, BitVec.ofNat 64 (leNat ((List.range e.width).map fun i =>
      match (e.cells.zip e.vas).find? fun c => c.2 == v + i with | some c => c.1.2 | none => 0)))
  | _, _ => (e.addr, e.data)

/-- The trap information of a store that fails at a physical address (R121, R395). -/
def Store.faultInfo (e : Store) (p : Nat) (f : DataFault) : TrapInfo :=
  { cause := f.cause, access := if e.tile then .tile else .store, width := if e.tile then 5 else widthCode e.width,
    detail := f.code, addr := (e.partAt p).1, data := (e.partAt p).2 }

/-- The earlier of two faults. -/
def firstFault (a b : Option (Nat × TrapInfo)) : Option (Nat × TrapInfo) :=
  match a, b with
  | none, b => b
  | a, none => a
  | some x, some y => if y.1 < x.1 then some y else some x

/-- The checks of a store at its home, and a covering write's effect there (R121, R128, R252, R254, R263): made once, when it is
first published. -/
def State.performAt (s : State) (asid : Asid) (e : Store) (ps : List Nat) : Option (Nat × DataFault) × Bool × State :=
  if e.performed then (none, true, s)
  else
    let (f, doIt, s) := s.senseWrite (s.partOf asid) ps e.covers
    (f, doIt, if e.covers && f.isNone then (match ps.head?.bind rowGroupOf with | some g => s.coverRowGroup g asid | none => s) else s)

/-- A slot of a strand gets its data; a renewal that has waited for it is made (R275). -/
def State.fillSlot (s : State) (h : HallId) (st : Strand) (seq : Nat) (us : List Upd) (f : Option TrapInfo) : State :=
  (s.onStrand h st fun x =>
    { x with slots := x.slots.map fun t => if t.seq = seq then { t with data := some us, fault := f, arriveAt := some (s.hall h).cycle } else t }).renewalsDue h st

/-- A control window answers a load (R302). -/
def State.windowLoad (s : State) (h : HallId) (st : Strand) (t : Slot) (p : PartId) (off d n : Nat) (sx : Bool) : State :=
  let (v, s) := s.cwRead p off n
  s.fillSlot h st t.seq [.sreg d (extendLoad sx (leBytes n v.toNat))] none

/-- The strand's loads from a control window that stand before a point of its program are answered, in program order (DESIGN CHOICE, log 44): each is
performed before a later load or store of the strand at a window (R277). -/
def State.answerWindows (s : State) (h : HallId) (st : Strand) (before : Slot → Bool) : State :=
  (s.strand h st).slots.foldl (fun s t =>
    match t.req, spaceOf (t.paddrs.headD 0) with
    | .load d n sx, .control p off => if t.data.isNone && !t.paddrs.isEmpty && before t then s.windowLoad h st t p off d n sx else s
    | _, _ => s) s

/-- One store is performed at its home (R121, R124, R254, R263, R302, R414); that of strand st of Hall h. -/
def State.performStore (s : State) (h : HallId) (st : Strand) (asid : Asid) (e : Store) (acc : Performed) : Performed × State :=
  let ps := e.cells.map (·.1)
  match ps with
  | [] => (acc, s)
  | p :: _ =>
    match spaceOf p with
    | .control q off => (acc, (s.answerWindows h st fun t => t.bound < e.seq).cwWrite q off e.width e.data)
    | _ =>
      let far := e.cells.filter fun c => inFabric c.1
      let near := e.cells.filter fun c => !inFabric c.1
      let s := s.fabricStore asid
        { tag := 0, member := 0, hall := h, strand := st, slot := none, atomic := false, engine := none, after := e.seq
          info := e.faultInfo ((far.headD (0, 0)).1) .word } far
      let (f, doIt, s) := s.performAt asid e (near.map (·.1))
      ({ cells := if doIt then acc.cells ++ near else acc.cells
         fault := firstFault acc.fault (f.map fun x => (e.seq, e.faultInfo x.1 x.2))
         gone := if doIt then acc.gone else acc.gone ++ [e.n] }, s)

/-- Stores that a publication of a strand at a scope covers (R275, R344): outside every region, not yet published at it or
more widely. -/
def Store.publishes (e : Store) (st : Strand) (x : Scope) : Bool :=
  e.strand == st && e.depth == 0 && Scope.rank e.scope < Scope.rank x

/-- After a store has been published, the bytes that it gives are no longer published by an older store of another strand
(R273: that version comes earlier in coherence order). -/
def retireOlder (done : List Store) (l : List Store) : List Store :=
  l.map fun x =>
    { x with cells := x.cells.filter fun c => !done.any fun e => x.n < e.n && e.strand != x.strand && x.depth == 0 && e.cells.any fun d => d.1 == c.1 }

/-- The last of an agent's stores that a publication at FABRIC has covered (R275). -/
def fabricDone (a : Agent) (hist : List Version) : Nat :=
  hist.foldl (fun m v => if v.agent == a && v.home && v.scope == .fabric then max m v.num else m) 0

/-- The stores that an agent has published at a narrower scope than FABRIC, and not at FABRIC since: their versions, newest first (R275). -/
def narrowVersions (a : Agent) (hist : List Version) : List Version :=
  hist.filter fun v => v.agent == a && v.home && v.num != 0 && v.scope != .fabric && fabricDone a hist < v.num

/-- The publication of a strand's stores at a scope beyond HALL: they are performed, and make versions at that scope. The bytes that a store
published more narrowly has changed are merged again, over whatever has come between (R273); a store that is not performed leaves the overlay (R121). -/
def State.publishStores (s : State) (h : HallId) (st : Strand) (x : Scope) : Option (Nat × TrapInfo) × State :=
  let H := s.hall h
  match H.slice with
  | none => (none, s)
  | some sl =>
    let es := H.overlay.filter (·.publishes st x)
    let first := es.filter fun e => Scope.rank e.scope ≤ 1
    let again := es.filter fun e => !(Scope.rank e.scope ≤ 1)
    let r : Performed × State := first.foldl (fun p e => p.2.performStore h st sl.asid e p.1) ({ cells := [], fault := none, gone := [] }, s)
    let acc := r.1
    let (n, s) := (r.2.dropStores h fun e => acc.gone.contains e.n).nextPub
    let narrow := if x = .fabric then (narrowVersions (s.agentOf h st) s.hist).reverse else []
    let last := narrow.foldl (fun m v => max m v.num) (es.foldl (fun m e => max m e.seq) 0)
    let w : Writer := { agent := s.agentOf h st, hall := h, asid := sl.asid, part := sl.part, scope := x, pub := some n,
                        num := last, rmw := false, rel := false, clock := s.knownBy h st, host := false }
    let s := s.writeHome w (lastCells (narrow.flatMap (·.cells) ++ again.flatMap (·.cells) ++ acc.cells))
    let s := s.onHall h fun H =>
      { H with overlay := retireOlder es ((H.overlay.filter fun e => !(e.publishes st x) || x == .storey).map fun e =>
          if e.publishes st x then { e with scope := x, performed := true } else e) }
    let a := s.agentOf h st
    (acc.fault, s.onStrand h st fun y => { y with clock := y.clock.up a n })

/-- A store that a publication at STRAND or HALL still has to perform: outside every region, and at a home in this module's memory. It is checked at
its home then, while its bytes stay in the overlay until a wider publication (DEDUCED, log 11). -/
def Store.unperformed (e : Store) (st : Strand) : Bool :=
  e.strand == st && e.depth == 0 && !e.performed &&
    e.cells.all fun c => !inFabric c.1 && (match spaceOf c.1 with | .control _ _ => false | _ => true)

/-- A write of a whole word or line ends its poison or its rejection (R263, R357). -/
def State.whole (s : State) (cs : List Host.Cell) : State :=
  let gives := fun (a n : Nat) => (runFrom a n).all fun b => cs.any fun c => c.1 == b
  { s.clearPoison (fun a => gives a 4) with bad := s.bad.filter fun a => !gives a 64 }

/-- A publication at STRAND or HALL performs the strand's stores (R121, R254): they meet the checks at their homes, and their bytes
stay in the overlay (R275, R280). -/
def State.performStores (s : State) (h : HallId) (st : Strand) : Option (Nat × TrapInfo) × State :=
  match (s.hall h).slice with
  | none => (none, s)
  | some sl =>
    let one := fun (r : Option (Nat × TrapInfo) × State) (e : Store) =>
      let (f, doIt, s) := r.2.performAt sl.asid e (e.cells.map (·.1))
      let s := if f.isNone then (s.mend e.cells).whole e.cells else s
      (firstFault r.1 (f.map fun x => (e.seq, e.faultInfo x.1 x.2)),
        if doIt then s.onHall h fun H => { H with overlay := H.overlay.map fun y => if y == e then { y with performed := true } else y }
        else s.dropStores h fun y => y == e)
    ((s.hall h).overlay.filter (·.unperformed st)).foldl one (none, s)

/-- STMR contributions leave for their switch (R135, R289). -/
def State.sendStmrs (s : State) (h : HallId) (st : Strand) : State :=
  match (s.hall h).slice with
  | none => s
  | some sl =>
    let x := s.strand h st
    let out : List MrSend := x.stmrs.map fun c =>
      { part := sl.part, paddr := c.paddr, hall := h, value := c.value, ty := c.ty, fabric := c.fabric, clock := s.knownBy h st }
    ({ s with sends := s.sends ++ out }).onStrand h st fun x => { x with stmrs := [] }

/-- The strand's stores are drained, and at HALL and beyond counted as published at HALL (R275, R276). -/
def State.publishHall (s : State) (h : HallId) (st : Strand) (x : Scope) : State :=
  let s := s.drainAll h
  if x = .strand then s else s.onStrand h st fun x => { x with hallPub := x.stores, hallDone := x.stores }

/-- The renewals of the strand's s0 atomics, made when the publication that performs them completes (R132). -/
def State.lateRenewals (s : State) (h : HallId) (st : Strand) : State :=
  let rs := (s.strand h st).lateRenews
  rs.foldl (fun s r => (s.onStrand h st fun x => { x with clock := Clock.join x.clock r.2 }).renewAfter h st r.1 (s.strand h st).seq)
    (s.onStrand h st fun x => { x with lateRenews := [] })

/-- The publication of a strand at a scope, its s0 atomics having been performed: its first data fault, with its place in program order. -/
def State.publish (s : State) (h : HallId) (st : Strand) (x : Scope) : Option (Nat × TrapInfo) × State :=
  let s := s.publishHall h st x
  let r : Option (Nat × TrapInfo) × State := if Scope.rank x ≤ 1 then s.performStores h st else s.publishStores h st x
  let s := r.2.sendStmrs h st
  let late := (s.strand h st).lateFault
  (firstFault r.1 late, s.onStrand h st fun y => { y with lateFault := none })

/-- The S or the L strand has stores that no signature of the checker has covered yet (R337). -/
def Hall.toCompare (H : Hall) : Bool := H.work.S.compared < H.work.S.stores || H.work.L.compared < H.work.L.stores

/-- The stores of the S and L strands so far have been compared. -/
def Hall.compareAll (H : Hall) : Hall :=
  let seen := fun (x : StrandState) => { x with compared := x.stores }
  { H with work := { H.work with S := seen H.work.S, L := seen H.work.L } }

/-- The strand has something that a publication at a scope would perform, compare or wait for. -/
def State.hasWork (s : State) (h : HallId) (st : Strand) (x : Scope) : Bool :=
  let y := s.strand h st
  ((s.hall h).overlay.any fun e => e.strand == st && (e.drained.isNone || e.unperformed st)) ||
    (s.hall h).overlay.any (fun e => 2 ≤ Scope.rank x && e.publishes st x) || !y.lateAtomics.isEmpty || !y.stmrs.isEmpty ||
    y.lateFault.isSome || x == .fabric || !y.lateRenews.isEmpty || (s.hall h).toCompare

/-- Publications to the other modules of the context's fabric group (R290, R409), of a strand or of an engine. -/
def State.fabricPublish (s : State) (h : HallId) (st : Strand) (e : Option Engine) (asid : Asid) : State :=
  (s.peers asid).foldl (fun s m =>
    let md := s.routeModule asid m
    let no := sget s.pubNos md.toNat + 1
    let p : FabPub := { module_ := md, no := no, hall := h, strand := st, engine := e, upTo := s.pubs }
    ({ s with pubNos := sset s.pubNos md.toNat no, fabPubs := s.fabPubs ++ [p] }).sendTo (s.partOf asid) m
      (.fabricPublication s.modid no asid)) s

/-- Other modules have still to answer for what a publication of a strand, or an engine's command, has sent them (R290, R406). -/
def State.farWaits (s : State) (h : HallId) (st : Strand) (e : Option Engine) : Bool :=
  (s.fabPubs.any fun p => p.hall == h && p.engine == e && (e.isSome || p.strand == st)) ||
    s.fabReqs.any fun r => r.hall == h && r.slot.isNone && !r.atomic && r.engine.map (·.1) == e && (e.isSome || r.strand == st)

/-- A publication would report a hot sector for which the event queue has no room (R400, R416). -/
def State.publishWaits (s : State) (h : HallId) (st : Strand) (x : Scope) : Bool :=
  match (s.hall h).slice with
  | none => false
  | some sl => s.mustReport sl.part (((s.hall h).overlay.filter (·.publishes st x)).flatMap fun e => e.cells.map (·.1))

/-- A publication point is over: its fault stands, or the strand's s0 atomics that acquire renew (R132). -/
def State.endPublication (s : State) (h : HallId) (st : Strand) (f : Option TrapInfo) : State :=
  let set := fun (s : State) (p : PubState) => s.onStrand h st fun y => { y with wait := { y.wait with pub := p } }
  match f with
  | some t => set s (.failed t)
  | none => set (s.lateRenewals h st) .done

/-- The publication of a strand's publishing syllable is acknowledged (R140): it is performed, or for a fabric publication it completes with the last
module's acknowledgement. The fault that it raises is the first in program order, here or at another module (R121). A difference of the checker's
signature over the stores of S and L is a detected error of that syllable, whichever strand issued it (R337, R339). -/
def State.ackPublication (s : State) (h : HallId) (st : Strand) : State :=
  let y := s.strand h st
  let setPub := fun (s : State) (p : PubState) => s.onStrand h st fun y => { y with wait := { y.wait with pub := p } }
  match y.wait.pub with
  | .waiting x at_ =>
    if (s.hall h).cycle < at_ ∨ !y.lateAtomics.isEmpty ∨ s.publishWaits h st x then s
    else
      let bad := (s.hall h).toCompare && Config.upset s.free
      let s := { s with free := s.free + 1 }
      if bad then
        let d := match (s.hall h).slice with | some sl => sl.regions.length | none => 0
        (setPub s .idle).detect h d 0x06 st y.pc false
      else
        let (f, s) := (s.onHall h Hall.compareAll).publish h st x
        match (s.hall h).slice with
        | none => s
        | some sl =>
          let s := if x = .fabric then s.fabricPublish h st none sl.asid else s
          if s.farWaits h st none then setPub s (.acking f) else s.endPublication h st (f.map (·.2))
  | .acking f =>
    if s.farWaits h st none then s
    else (s.onStrand h st fun y => { y with lateFault := none }).endPublication h st ((firstFault f y.lateFault).map (·.2))
  | .idle => s
  | .failed _ => s
  | .done => s

/-! Publishing syllables. -/

/-- The syllable's own wait is over. -/
def State.clearWait (s : State) : State := s.onMe fun x => { x with wait := .none }

/-- The stage of a syllable that is performed in several steps. -/
def State.stage (s : State) : Nat := s.me.wait.stage
/-- Go to the next stage, the strand frozen meanwhile (R19). -/
def State.toStage (s : State) (n : Nat) : State := (s.onMe fun x => { x with wait := { x.wait with stage := n, pub := .idle } }).freeze

/-- The syllable at issue publishes at a scope and waits for it; a data fault is raised exactly at it, and it takes none of
its other effects (R121, R140). -/
def State.publishing (s : State) (x : Scope) (k : State → State) : State :=
  match s.me.wait.pub with
  | .done => k s
  | .failed t => s.clearWait.trapHere t
  | .waiting _ _ => s.freeze
  | .acking _ => s.freeze
  | .idle =>
    if s.hasWork s.curHall s.curStrand x then
      let (d, s) := s.drawDelay
      let s := s.drainAll s.curHall
      let late := s.curStrand == .S || s.curStrand == .L || s.here.toCompare
      (s.onMe fun y => { y with wait := { y.wait with pub := .waiting x (s.here.cycle + (if late then 6 else 1) + d) } }).freeze
    else k (s.publishHall s.curHall s.curStrand x)

/-- Inside a recovery region the syllable raises ILLEGAL exactly, with no effect (R140, R345). -/
def State.outsideRegions (s : State) (k : State → State) : State := if s.depth = 0 then k s else s.trapCause .ILLEGAL

/-- A bit list as bytes, bit i at bit i mod 8 of byte i / 8. -/
def packBits (n : Nat) (f : Nat → Bool) : Bytes :=
  (List.range ((n + 7) / 8)).map fun i =>
    BitVec.ofNat 8 ((List.range 8).foldl (fun t j => if 8 * i + j < n && f (8 * i + j) then t + 2 ^ j else t) 0)

/-- A presence bitmap (R326). -/
def presence (rs : List Nat) : Bytes := packBits 512 rs.contains

/-! Runs of bytes in a context's space, by pages of 4 KiB. -/

/-- The physical address of the first byte of a 4 KiB page. -/
def State.pageAt (s : State) (u : Who) (w : Bool) (page : Nat) : Option Nat :=
  match s.resolveDirect u [] { kind := .other, r := !w, w := w, x := false, access := .system, width := 0 } (4096 * page) with
  | .ok p => some p
  | .miss => none
  | .fault _ => none

/-- The pages that a run of bytes touches. -/
def pagesOf (va n : Nat) : List Nat := if n = 0 then [] else runFrom (va / 4096) ((va + n - 1) / 4096 - va / 4096 + 1)

/-- The part of a run that lies in a page: where it begins in the run, and its length. -/
def pagePart (va n page : Nat) : Nat × Nat :=
  let lo := max va (4096 * page)
  (lo - va, min (va + n) (4096 * (page + 1)) - lo)

/-- Every page of a run can be reached. -/
def State.reaches (s : State) (u : Who) (w : Bool) (va n : Nat) : Bool := (pagesOf va n).all fun g => (s.pageAt u w g).isSome

/-- The device writes a run of bytes. A page that it cannot reach keeps its bytes. -/
def State.superWrite (s : State) (u : Who) (va : Nat) (bs : Bytes) : State :=
  (pagesOf va bs.length).foldl (fun s g =>
    match s.pageAt u true g with
    | none => s
    | some p => let e := pagePart va bs.length g; s.poke (cellsAt (p + (va + e.1) % 4096) ((bs.drop e.1).take e.2))) s

/-- The device reads a run of bytes. A page that it cannot reach reads as zero. -/
def State.superRead (s : State) (u : Who) (va n : Nat) : Bytes :=
  (pagesOf va n).flatMap fun g =>
    let e := pagePart va n g
    match s.pageAt u false g with
    | none => zeros e.2
    | some p => (runFrom (p + (va + e.1) % 4096) e.2).map (Memory.byte s.mem)

/-- The supervisor of a partition, for whom the device reads and writes save areas. -/
def State.superWho (s : State) (p : PartId) : Option Who :=
  (s.superAsid p).map fun a => { hall := 0, asid := a, part := p, super := true }

end Sys2Proof.Machine
end

