-- ==== Sys2Proof/Machine/Atomics.lean ====
section
/-! DEFINITION. Atomics (R130 to R134, R281 to R284) and the multicast-reduce windows (R135 to R139, R289). -/

namespace Sys2Proof.Machine

/-! Values. -/

/-- The value that AMO writes, at a width of w bits (R131). -/
def amoValue (op : AmoOp) (w old v : Nat) : Nat :=
  match op with
  | .ADD => (old + v) % 2 ^ w
  | .FADD => (fp32.add old v).bits
  | .MIN => if sint w old ≤ sint w v then old else v
  | .MAX => if sint w v ≤ sint w old then old else v
  | .AND => old &&& v
  | .OR => old ||| v
  | .XOR => old ^^^ v
  | .SWAP => v

/-- What an atomic writes: none when a CAS fails (R131). -/
def atomicValue (op : Option AmoOp) (w old v cmp : Nat) : Option Nat :=
  match op with
  | some o => some (amoValue o w old (v % 2 ^ w))
  | none => if old = cmp % 2 ^ w then some (v % 2 ^ w) else none

/-! Release sequences (R284). -/

/-- Every member made by another agent than a was made at a scope that covers c for it; one made at STRAND covers its own agent alone. -/
def sequenceReaches (a : Agent) (c : Seat) (ms : List Version) : Bool :=
  ms.all fun m => m.agent == a || (if m.alone then m.agent == c.agent else covers m.scope m.seat c)

/-- What an acquire by agent c at scope y learns from the versions of its line in memory, newest first: newer holds the members of
the sequence met so far. The walk ends at the first write of another kind to the address; a completion word, written with release, is such a write
and heads a sequence of its own (R286). -/
def acquireClock (y : Scope) (c : Seat) (ps : List Nat) : List Version → List Version → Clock
  | _, [] => []
  | newer, v :: rest =>
    if !v.home || !(v.cells.any fun x => ps.contains x.1) then acquireClock y c ps newer rest
    else
      let here : Clock :=
        if v.rel && covers v.scope v.seat c && covers y c v.seat && sequenceReaches v.agent c newer then
          (match v.pub with | some p => v.clock.up v.agent p | none => v.clock)
        else []
      if v.rmw then Clock.join here (acquireClock y c ps (v :: newer) rest) else here

/-- Order annotations with a release. -/
def Order.isRel : Order → Bool
  | .REL => true | .AR => true | .RLX => false | .ACQ => false
/-- Order annotations with an acquire. -/
def Order.isAcq : Order → Bool
  | .ACQ => true | .AR => true | .RLX => false | .REL => false

/-- The scope at which an atomic's write is published: STRAND counts as HALL (R276). -/
def atomicScope (x : Scope) : Scope := if x = .strand then .hall else x

/-! Issue. -/

/-- The second operand value of an atomic's log entry (R346). -/
def atomicOp2 (op : Option AmoOp) (b d : Word) : Word := match op with | some _ => b | none => b ^^^ d.rotateLeft 32

/-- When an atomic that has gone to another module is performed: not by this module's time. -/
def sentMark : Nat := 2 ^ 200

/-- An atomic leaves for its home (R131, R132, R134): it keeps program order with the strand's other atomics to its
line. One on a byte or half-word of a gallery takes 2 Hall cycles longer (R124). -/
def State.sendAtomic (s : State) (op : Option AmoOp) (w : Width) (sc : Scope) (o : Order) (d : Nat) (addr b cmp : Word)
    (ps : List Nat) (slot : Option Nat) (id : Nat) : State :=
  let x := s.me
  let d0 := s.depth
  let (k, s) := s.drawDelay
  let (m, bad, s) := s.underChecker
  let lines := ps.map (· / 64)
  let prev := s.atomics.foldl (fun t (a : Atomic) =>
    if a.h = s.curHall ∧ a.strand = s.curStrand ∧ a.performAt ≠ sentMark ∧ (a.paddrs.any fun p => lines.contains (p / 64)) then max t a.performAt else t) 0
  let sl := match s.here.slice with | some sl => sl.id | none => 0
  let late := d == 0
  let rmw := if subWord ps.length && ps.any fun p => (rowGroupOf p).isSome then 2 else 0
  let a : Atomic :=
    { id := id, h := s.curHall, strand := s.curStrand, slice := sl, op := op, width := w, paddrs := ps, vaddr := addr,
      operand := b, comparand := cmp, order := o, scope := sc, slot := slot, after := x.stores,
      performAt := max prev (s.tick + (7 + k + rmw) * s.here.levelTicks), late := late, matchAt := m, bad := bad, depth := d0,
      word := s.curWord, pc := x.pc, asid := s.asid, super := s.superMode, clock := s.known, tag := 0, fabric := ps.any inFabric }
  let s := { s with atomics := s.atomics ++ [a] }
  if late then s.onMe fun x => { x with lateAtomics := x.lateAtomics ++ [id] } else s

/-- An atomic at an address (R130 to R133, R346, R347). -/
def State.atomicAt (s : State) (op : Option AmoOp) (w : Width) (sc : Scope) (o : Order) (d b : BitVec 6) (addr : Word) (land : BitVec 12) : State :=
  s.onPort 1 fun s =>
    let n := widthBytes w
    s.withBytes (wantAtomic w) n addr n fun ps s =>
      let op2 := atomicOp2 op (s.rs b) (s.rs d)
      if d != 0 && 16 ≤ s.me.slots.length then s.freeze
      else s.logged addr op2
        (fun ret s =>
          if d = 0 then s.issue
          else
            let us : List Upd := [.sreg d.toNat ret] ++ (if Order.isAcq o then [.renew sc] else [])
            s.claim (.atomic 0 d.toNat) [.s d.toNat] land addr ps (some s.here.cycle) (some us))
        (fun s =>
          let go := fun (s : State) =>
            let id := s.nextAtomic
            let s := ({ s with nextAtomic := id + 1 }).fillLog
            let s := (s.sendAtomic op w sc o d.toNat addr (s.rs b) (s.rs d) ps (if d = 0 then none else some s.me.seq) id).clearWait
            if d = 0 then s.issue else s.claim (.atomic id d.toNat) [.s d.toNat] land addr ps none none
          if Order.isRel o then s.publishing sc go else go s)

/-- AMO and CAS (R130). -/
def State.atomic (s : State) (op : Option AmoOp) (w : Width) (sc : Scope) (o : Order) (d a b : BitVec 6) (land : BitVec 12) : State :=
  let rd : List Src := [.s a.toNat, .s b.toNat] ++ (if op.isNone then [.s d.toNat] else [])
  s.whenPort fun s => s.readingWhen (d != 0 && s.slotsFull) rd fun s => s.atomicAt op w sc o d b (s.rs a) land

/-- AMO (R131). -/
def execAmo (op : AmoOp) (w : Width) (sc : Scope) (o : Order) (d a b : BitVec 6) (land : BitVec 12) (s : State) : Out :=
  .next (s.atomic (some op) w sc o d a b land)
/-- CAS (R131). -/
def execCas (w : Width) (sc : Scope) (o : Order) (d a b : BitVec 6) (land : BitVec 12) (s : State) : Out :=
  .next (s.atomic none w sc o d a b land)

/-! Performance at the home. -/

/-- A slot is freed without a write (R349). -/
def State.freeSlot (s : State) (h : HallId) (st : Strand) (seq : Nat) : State :=
  (s.onStrand h st fun x => { x with slots := x.slots.filter fun t => t.seq != seq }).renewalsDue h st

/-- The strand that issued an atomic still belongs to the slice that did. -/
def State.atomicLives (s : State) (a : Atomic) : Bool := match (s.hall a.h).slice with | some sl => sl.id == a.slice | none => false

/-- An atomic that is not performed leaves its slot without a write, or the publication point that waits for it. -/
def State.dropAtomic (s : State) (a : Atomic) : State :=
  match a.slot with
  | some q => s.freeSlot a.h a.strand q
  | none => s.onStrand a.h a.strand fun x => { x with lateAtomics := x.lateAtomics.filter (· != a.id) }

/-- An atomic meets a data fault: at its landing point, or for destination s0 at the next publication point (R121). An INTEGRITY inside a region is
a detected error, and the slot is freed without a write (R338, R349). -/
def State.atomicFault (s : State) (a : Atomic) (t : TrapInfo) : State :=
  let s := s.dropLog a.h a.depth
  if t.cause = .INTEGRITY ∧ a.depth ≠ 0 then (s.dropAtomic a).detect a.h a.depth t.detail a.strand a.pc false
  else match a.slot with
  | some q => s.fillSlot a.h a.strand q [] (some { t with data := 0 })
  | none => s.onStrand a.h a.strand fun x =>
      { x with lateAtomics := x.lateAtomics.filter (· != a.id), lateFault := firstFault x.lateFault (some (a.after, t)) }

/-- An atomic has read its old value: the destination, the log, what it acquires (R131, R133, R346), and the version that it has read: ids where
its writer's scope covers the strand (R277), last as the bound of later reads of the line (R279, condition 4). -/
def State.atomicDone (s : State) (a : Atomic) (old : Nat) (c : Clock) (ids : List Nat) (last : List (Nat × Nat)) : State :=
  let ret : Word := BitVec.ofNat 64 old
  let s := s.logEntry a.h a.word a.depth a.vaddr (atomicOp2 a.op a.operand a.comparand) ret
  let s := s.onStrand a.h a.strand fun x =>
    { x with lastRead := last.foldl (fun f e => lineUp e.1 e.2 f) x.lastRead
             observed := ids.foldl (fun o i => if o.contains i then o else o ++ [i]) x.observed }
  match a.slot with
  | some q =>
    let d := match (s.strand a.h a.strand).slots.find? fun t => t.seq == q with
      | some t => (match t.req with | .atomic _ d => d | _ => 0)
      | none => 0
    let us : List Upd := [.sreg d ret] ++ (if Order.isAcq a.order then [.learn c, .renew a.scope] else [])
    s.fillSlot a.h a.strand q us none
  | none => s.onStrand a.h a.strand fun x =>
      { x with lateAtomics := x.lateAtomics.filter (· != a.id)
               lateRenews := if Order.isAcq a.order then x.lateRenews ++ [(a.scope, c)] else x.lateRenews }

/-- The atomic is performed on memory, as one indivisible action at its home (R131, R263, R281). Nothing is left to do
for a strand whose slice has gone. -/
def State.atHome (s : State) (a : Atomic) : State :=
  let live := s.atomicLives a
  let n := a.paddrs.length
  let p := a.paddrs.headD 0
  let part := s.partOf a.asid
  let agent : Agent := .strand a.slice a.strand
  let info := fun (f : DataFault) =>
    ({ cause := f.cause, access := .atomic, width := widthCode n, detail := f.code, addr := a.vaddr, data := a.operand } : TrapInfo)
  let (f, s) := s.senseRead part a.paddrs
  let old := leNat (a.paddrs.map (Memory.byte s.mem))
  let line := (s.versionsOf (p / 64)).filter (·.home)
  let seat : Seat := { agent := agent, hall := a.h, fab := (s.part part).fabGroup }
  let ids := match line with | v :: _ => (if covers v.scope v.seat seat then [v.id] else []) | [] => []
  let last := match line with | v :: _ => [(p / 64, v.id)] | [] => []
  let c := acquireClock a.scope seat a.paddrs [] line
  let put := fun (s : State) =>
    match atomicValue a.op (8 * n) old a.operand.toNat a.comparand.toNat with
    | none => s
    | some v =>
      let (k, s) := s.nextPub
      let s := s.writeHome { agent := agent, hall := a.h, asid := a.asid, part := part, scope := atomicScope a.scope,
                             pub := some k, num := 0, rmw := true, rel := Order.isRel a.order && a.scope != .strand, clock := a.clock,
                             host := false, alone := a.scope == .strand } (a.paddrs.zip (leBytes n v))
      if live then s.onStrand a.h a.strand fun x => { x with clock := x.clock.up agent k } else s
  match f with
  | some (u, df) =>
    let s := if subWord n && df == .word then (put s).repoison u else s
    if live then s.atomicFault a (info df) else s
  | none =>
    let s := put s
    if live then s.atomicDone a old c ids last else s

/-- An atomic reaches its home, once the checker has matched it (R131, R334, R337 to R339). An atomic that is not
performed writes no destination, and nothing at its home. -/
def State.performAtomic (s : State) (a : Atomic) : State :=
  let s := { s with atomics := s.atomics.filter fun x => x.id != a.id }
  let (code, s) := match a.matchAt with | some _ => s.checkMatch a.h a.bad | none => (0, s)
  if code ≠ 0 ∧ !s.atomicLives a then s
  else if code ≠ 0 then
    if a.depth ≠ 0 ∨ code = 6 then ((s.dropLog a.h a.depth).dropAtomic a).detect a.h a.depth code a.strand a.pc false
    else s.atomicFault a { cause := .INTEGRITY, access := .atomic, width := widthCode a.paddrs.length, detail := code,
                           addr := a.vaddr, data := a.operand }
  else if a.fabric then
    let (tag, s) := s.newTag
    let p := a.paddrs.headD 0xE0000000000
    let r : FabReq := { tag := tag, member := fabMember p, hall := a.h, strand := a.strand, slot := a.slot, atomic := true, engine := none,
                        after := a.after, info := { cause := .PROT, access := .atomic, width := widthCode a.paddrs.length, addr := a.vaddr,
                                                    data := a.operand } }
    ({ s with fabReqs := s.fabReqs ++ [r], atomics := s.atomics ++ [{ a with performAt := sentMark, matchAt := none, tag := tag }] }).sendTo (s.partOf a.asid) (fabMember p)
      (.fabricAtomic s.modid (BitVec.ofNat 16 tag) (fabOffset p) a.asid
        (match a.op with
          | some .ADD => 0 | some .FADD => 1 | some .MIN => 2 | some .MAX => 3 | some .AND => 4 | some .OR => 5
          | some .XOR => 6 | some .SWAP => 7 | none => 8)
        a.width a.order a.operand a.comparand)
  else s.atHome a

/-- An atomic waits at its home for a Hall cycle of the Hall that issued it. -/
def State.holdAtomic (s : State) (a : Atomic) : State :=
  { s with atomics := s.atomics.map fun x => if x.id = a.id then { x with performAt := s.tick + (s.hall a.h).levelTicks } else x }

/-- An atomic is not performed before the checker matches it, whatever the level of its Hall has become (R337), nor before an earlier one of its
strand to its line (R134), nor while a hot sector that it would report finds no room (R400). -/
def State.atomicWaits (s : State) (a : Atomic) : Bool :=
  (match a.matchAt with | some m => decide ((s.hall a.h).cycle < m) | none => false) ||
    (s.atomics.any fun b => b.id < a.id && b.h == a.h && b.strand == a.strand && b.slice == a.slice && b.performAt != sentMark &&
      b.paddrs.any fun p => a.paddrs.any fun q => p / 64 == q / 64) ||
    s.mustReport (s.partOf a.asid) a.paddrs

/-- ATOMIC_PERFORM (R131). -/
def execAtomicPerform (id : Nat) (s : State) : Out :=
  .next (match s.atomics.find? fun a => a.id == id && a.performAt ≤ s.tick with
    | some a => if s.atomicWaits a then s.holdAtomic a else s.performAtomic a
    | none => s)

/-! Multicast-reduce windows. -/

/-- The descriptor of a window (R136, R137). -/
structure MrDesc where
  ty : Nat
  count : Nat
  dest : Nat
  members : BitVec 256
  fabric : Word
  deriving DecidableEq, Repr

/-- The descriptor of window w of a partition, none when it is disabled (R136, R137, R139, R413). -/
def State.mrDesc (s : State) (p : PartId) (w : Nat) : Option MrDesc :=
  let P := s.part p
  let word := fun i => sget P.mrDescs (8 * w + i)
  let ty := (word 0).toNat % 256
  let count := (word 0).toNat / 2 ^ 32
  let members : BitVec 256 := word 5 ++ word 4 ++ word 3 ++ word 2
  let d : MrDesc := { ty := ty, count := count, dest := (word 1).toNat, members := members, fabric := word 6 }
  if ty ≤ 2 && 1 ≤ count && count ≤ 65536 && (members &&& ~~~P.halls) == 0 && !P.mrOff.contains w &&
      (d.fabric == 0 || d.fabric == P.fabGroup.setWidth 64) then some d else none

/-- The width of a contribution of a TYPE in bytes (R136). -/
def mrWidth (ty : Nat) : Nat := if ty = 1 then 8 else 4

/-- STMR (R135, R136). -/
def execStmr (w : Width) (a b : BitVec 6) (s : State) : Out :=
  .next (s.outsideRegions fun s => s.onPort 1 fun s => s.reading [.s a.toNat, .s b.toNat] fun s =>
    let addr := s.rs a
    let n := widthBytes w
    s.withBytes (wantStmr w) n addr n fun ps s =>
      let p := ps.headD 0
      let off := p - 0xC0000000000
      match s.mrDesc (BitVec.ofNat 4 (off / 0x100000)) (off % 0x100000 / 4096) with
      | none => s.trapHere ((wantStmr w).tell addr.toNat (prot 0x40))
      | some d =>
        if mrWidth d.ty ≠ n then s.trapHere ((wantStmr w).tell addr.toNat (prot 0x40))
        else
          let c : Contribution := { paddr := p, width := w, value := s.rs b, ty := d.ty, fabric := d.fabric != 0 }
          (s.onMe fun x => { x with stmrs := x.stmrs ++ [c] }).issue)

/-- The sum of a round (R138): in ascending member, Hall and program order. -/
def mrSum (ty : Nat) (parts : List MrPart) : Nat :=
  let sorted := parts.mergeSort fun x y =>
    x.member < y.member || (x.member == y.member && (x.hall < y.hall || (x.hall == y.hall && x.seq ≤ y.seq)))
  match sorted with
  | [] => 0
  | f :: rest =>
    let w := 8 * mrWidth ty
    rest.foldl (fun t x =>
      if ty = 2 then (fp32.add t (x.value.toNat % 2 ^ 32)).bits else (t + x.value.toNat) % 2 ^ w) (f.value.toNat % 2 ^ w)

/-- The combined write of a round in every member Hall (R138, R139, R289): DEST modulo the 64 MiB of a gallery names the place in that of each
member Hall (DESIGN CHOICE, log 37). -/
def State.mrWrite (s : State) (p : PartId) (ty dest off : Nat) (members : BitVec 256) (sum : Nat) (sc : Scope) (c : Clock) : State :=
  let n := mrWidth ty
  (maskHalls members).foldl (fun s h =>
    let a := galleryBase h + dest % 0x4000000 + off
    let (k, s) := s.nextPub
    s.writeHome { agent := .switch (plinthOf h), hall := h, asid := 0, part := p, scope := sc, pub := some k, num := 0, rmw := false,
                  rel := false, clock := c, host := false } (cellsAt a (leBytes n sum))) s

/-- The values with which a round of an address is open, or with which the next one opens (R137): none while its window is disabled. -/
def State.mrValues (s : State) (p : PartId) (addr : Nat) : Option MrDesc :=
  match s.rounds.find? fun r => r.part == p && r.addr == addr with
  | some r => some { ty := r.ty, count := r.count, dest := r.dest, members := r.members, fabric := if r.fabric then 1 else 0 }
  | none => s.mrDesc p (addr / 4096)

/-- A contribution is counted into the round of its address (R138): a full round is summed, written and closed. -/
def State.mrCount (s : State) (p : PartId) (addr : Nat) (d : MrDesc) (c : MrPart) (clock : Clock) : State :=
  let old := s.rounds.find? fun r => r.part == p && r.addr == addr
  let r : Round := match old with
    | some r => r
    | none => { part := p, addr := addr, ty := d.ty, count := d.count, dest := d.dest, members := d.members,
                fabric := d.fabric != 0, parts := [], clock := [] }
  let r := { r with parts := r.parts ++ [c], clock := Clock.join r.clock clock }
  let others := s.rounds.filter fun x => !(x.part == p && x.addr == addr)
  if r.count ≤ r.parts.length then
    let s := { s with rounds := others }
    let sum := mrSum r.ty r.parts
    let off := addr % 4096
    let s := s.mrWrite p r.ty r.dest off r.members sum (if r.fabric then .fabric else .device) r.clock
    if r.fabric then
      let P := s.part p
      ((List.range P.fabNmod.toNat).filter (· != P.fabIndex.toNat)).foldl (fun s m =>
        s.sendTo p m (.roundSumMessage p (BitVec.ofNat 20 addr) (BitVec.ofNat 64 sum))) s
    else s
  else { s with rounds := r :: others }

/-- The round of an address is open here. -/
def State.roundOpen (s : State) (p : PartId) (addr : Nat) : Bool := s.rounds.any fun r => r.part == p && r.addr == addr

/-- A member other than the home keeps the values with which a round of the fabric opened, as far as it knows: those at its own first contribution
to the round (R137, R139; log 30). -/
def State.openRound (s : State) (p : PartId) (addr : Nat) (d : MrDesc) : State :=
  if s.roundOpen p addr || d.fabric == 0 then s
  else { s with rounds := { part := p, addr := addr, ty := d.ty, count := d.count, dest := d.dest, members := d.members, fabric := true
                            parts := [], clock := [] } :: s.rounds }

/-- A contribution goes on to the home of its window's rounds, the member of index 0 (R139). -/
def State.mrAway (s : State) (e : MrSend) (addr ty : Nat) (k : Word) : State :=
  let (tag, s) := s.newTag
  let t : BitVec 16 := BitVec.ofNat 16 tag
  let s := { s with mrTags := s.mrTags.filter (fun (x : BitVec 16 × PartId × Nat) => x.1 != t) ++ [(t, e.part, addr / 4096)] }
  s.sendTo e.part 0 (.multicastReduceContribution t e.part (BitVec.ofNat 20 addr) (BitVec.ofNat 8 (s.part e.part).fabIndex.toNat) e.hall
    (BitVec.ofNat 8 ty) e.value k)

/-- The next contribution on its way reaches the switch (R138). A round open here completes under its own values, whatever the descriptor has
become (R137); one of the fabric, or the next of a window that was the fabric's at the STMR, has its home elsewhere (R139). A contribution that finds
its window disabled and no round open is dropped (log 30). Contributions arrive in the order in which they were sent (DESIGN CHOICE, log 2). -/
def State.mrArrive (s : State) : State :=
  match s.sends with
  | [] => s
  | e :: rest =>
    let s := { s with sends := rest }
    let addr := (e.paddr - 0xC0000000000) % 0x100000
    let self := (s.part e.part).fabIndex.toNat
    let k := sget s.mrSeqs e.hall.toNat
    let s := { s with mrSeqs := sset s.mrSeqs e.hall.toNat (k + 1) }
    let ours := e.fabric && !s.roundOpen e.part addr
    match s.mrValues e.part addr with
    | none => if ours && self != 0 then s.mrAway e addr e.ty k else s
    | some d =>
      if self != 0 && (d.fabric != 0 || ours) then (s.openRound e.part addr d).mrAway e addr (if ours then e.ty else d.ty) k
      else s.mrCount e.part addr d { member := self, hall := e.hall.toNat, seq := k.toNat, value := e.value } e.clock

/-- MR_CONTRIBUTION_ARRIVAL (R138). -/
def execMrContributionArrival (s : State) : Out := .next s.mrArrive

end Sys2Proof.Machine
end

