-- ==== Sys2Proof/Machine/Control.lean ====
section
/-! DEFINITION. Transfers of control (R112 to R115) and Hall events (R116, R117). -/

namespace Sys2Proof.Machine

/-- A branch-target register is loaded: latency 1, ready four Hall cycles on (R112). -/
def State.prepare (s : State) (rd : List Src) (n : Nat) (target : Word) : State :=
  s.compute rd 1 [.btgt n target (s.here.cycle + 4)]

/-- PB (R114). -/
def execPb (b : BitVec 2) (off : BitVec 38) (s : State) : Out :=
  .next (s.prepare [] b.toNat (s.me.pc + (off.signExtend 64 <<< 3)))

/-- The faults of a target address (R114, R115): alignment, then the address range. -/
def targetFault (t : Word) : Option Cause :=
  if t.extractLsb' 0 3 != 0 then some .ALIGN else if t.extractLsb' 52 12 != 0 then some .XLATE else none

/-- PBA (R114). -/
def execPba (b a : BitVec 6) (imm : BitVec 28) (s : State) : Out :=
  let t := s.rs a + imm.signExtend 64
  .next (s.reading [.s a.toNat] fun s =>
    match targetFault t with
    | some c => s.trapHere { cause := c, addr := t }
    | none => s.prepare [] b.toNat t)

/-- A BR, CALL or LOOP (R112, R115): the register must be prepared, and the strand is frozen until its ready cycle. -/
def State.branchOn (s : State) (rd : List Src) (b : BitVec 6) (k : Word → State → State) : State :=
  s.reading (.b b.toNat :: rd) fun s =>
    let t := s.me.btgt b.toNat
    if !t.prepared then s.trapCause .ILLEGAL
    else if s.here.cycle < t.ready then s.freeze
    else k t.addr s

/-- The next syllable is the one at an address. -/
def State.goTo (s : State) (a : Word) : State := { s with target := some a }

/-- BR (R115). -/
def execBr (b : BitVec 6) (s : State) : Out := .next (s.branchOn [] b fun t s => (s.goTo t).issue)
/-- CALL (R115). -/
def execCall (d b : BitVec 6) (s : State) : Out :=
  .next (s.branchOn [] b fun t s => ((s.result 1 [.sreg d.toNat (s.me.pc + 8)]).goTo t).issue)
/-- RET (R113, R115): the target issues no earlier than four Hall cycles on. -/
def execRet (a : BitVec 6) (s : State) : Out :=
  let t := s.rs a
  .next (s.reading [.s a.toNat] fun s =>
    match targetFault t with
    | some c => s.trapHere { cause := c, addr := t }
    | none => ((s.onMe fun x => { x with notBefore := s.here.cycle + 4 }).goTo t).issue)
/-- LOOP (R115). -/
def execLoop (a b : BitVec 6) (s : State) : Out :=
  let n := s.rs a - 1
  .next (s.branchOn [.s a.toNat] b fun t s =>
    let s := s.result 1 [.sreg a.toNat n]
    (if n = 0 then s else s.goTo t).issue)
/-- NOP (R115). -/
def execNop (s : State) : Out := .next s.issue

/-! Hall events. -/

/-- A take of the strand at issue: it acquires what the posts before this Hall cycle order, and renews at HALL (R117, R275). -/
def State.takeEvent (s : State) (e : Nat) : State :=
  let t := (s.here.work.ev e).stamp
  ((s.onHere (·.take e)).onMe (·.acquire t)).renewAfter s.curHall s.curStrand .hall s.me.seq

/-- A post of n by the strand at issue: a publication at HALL (R117, R275). -/
def State.postEvent (s : State) (e n : Nat) : State :=
  let t := s.me.stamp s.here.sliceId s.curStrand
  (s.onHere (·.post e n t)).onMe fun x => { x with hallPub := x.stores }

/-- A post that fits, else a freeze (R116). -/
def State.postOrFreeze (s : State) (e n : Nat) : State :=
  if s.here.canPost e n then (s.postEvent e n).issue else s.freeze

/-- EV.POST (R116). -/
def execEvPost (x : BitVec 6) (s : State) : Out := .next (s.postOrFreeze x.toNat 1)
/-- EV.WAIT (R116). -/
def execEvWait (x : BitVec 6) (s : State) : Out :=
  .next (if s.here.canTake x.toNat then (s.takeEvent x.toNat).issue else s.freeze)
/-- EV.POSTX (R116). -/
def execEvPostx (x a : BitVec 6) (s : State) : Out :=
  let n := (s.rs a).toNat % 256
  .next (s.reading [.s a.toNat] fun s => if n = 0 then s.issue else s.postOrFreeze x.toNat n)
/-- EV.TEST (R116). -/
def execEvTest (pd pe : BitVec 3) (x : BitVec 6) (s : State) : Out :=
  let ok := s.here.canTake x.toNat
  let s := if ok then s.takeEvent x.toNat else s
  .next (s.result 1 [.preg pd.toNat ok, .preg pe.toNat !ok]).issue

end Sys2Proof.Machine
end

