-- ==== Sys2Proof/Machine/LoadStore.lean ====
section
/-! DEFINITION. Scalar loads and stores (R122 to R126), tile transfers (R127 to R129) and stream registers (R148 to R151). -/

namespace Sys2Proof.Machine

/-- A load claims its slot: forwarded from the write queue when R126 says so, else read when its data arrives. -/
def State.loadSlot (s : State) (req : Req) (dests : List Src) (land : BitVec 12) (addr : Word) (ps : List Nat)
    (give : Bytes → List Upd) : State :=
  s.withSlot fun s =>
    match s.here.forward s.curStrand s.me.stores s.me.seen ps with
    | some bs => s.claim req dests land addr ps (some s.here.cycle) (some (give bs))
    | none => s.requestRead req dests land addr ps

/-- A scalar load from an address (R122, R123). -/
def State.loadAt (s : State) (w : Width) (sx : Bool) (d : BitVec 6) (addr : Word) (land : BitVec 12) : State :=
  s.onPort 1 fun s =>
    s.withBytes (wantLoad w) (widthBytes w) addr (widthBytes w) fun ps s =>
      s.loadSlot (.load d.toNat (widthBytes w) sx) [.s d.toNat] land addr ps fun bs => [.sreg d.toNat (extendLoad sx bs)]

/-- A scalar load (R122, R123). -/
def State.load (s : State) (w : Width) (sx : Bool) (d a : BitVec 6) (off : BitVec 16) (land : BitVec 12) : State :=
  s.whenPort fun s => s.readingWhen s.slotsFull [.s a.toNat] fun s => s.loadAt w sx d (s.rs a + off.signExtend 64) land

/-- LD.B (R122). -/
def execLdB (d a : BitVec 6) (off : BitVec 16) (land : BitVec 12) (s : State) : Out := .next (s.load .B true d a off land)
/-- LD.BZ (R122). -/
def execLdBz (d a : BitVec 6) (off : BitVec 16) (land : BitVec 12) (s : State) : Out := .next (s.load .B false d a off land)
/-- LD.H (R122). -/
def execLdH (d a : BitVec 6) (off : BitVec 16) (land : BitVec 12) (s : State) : Out := .next (s.load .H true d a off land)
/-- LD.HZ (R122). -/
def execLdHz (d a : BitVec 6) (off : BitVec 16) (land : BitVec 12) (s : State) : Out := .next (s.load .H false d a off land)
/-- LD.W (R122). -/
def execLdW (d a : BitVec 6) (off : BitVec 16) (land : BitVec 12) (s : State) : Out := .next (s.load .W true d a off land)
/-- LD.WZ (R122). -/
def execLdWz (d a : BitVec 6) (off : BitVec 16) (land : BitVec 12) (s : State) : Out := .next (s.load .W false d a off land)
/-- LD.D (R122). -/
def execLdD (d a : BitVec 6) (off : BitVec 16) (land : BitVec 12) (s : State) : Out := .next (s.load .D false d a off land)

/-- How long a store holds the memory port (R124): three cycles for a byte or half-word store to a gallery. -/
def portCycles (n : Nat) (ps : List Nat) : Nat := if n < 4 && ps.any fun p => (rowGroupOf p).isSome then 3 else 1

/-- A scalar store (R122, R123). -/
def State.scalarStore (s : State) (w : Width) (d a : BitVec 6) (off : BitVec 16) : State :=
  s.whenPort fun s => s.reading [.s a.toNat, .s d.toNat] fun s =>
      let addr := s.rs a + off.signExtend 64
      let n := widthBytes w
      s.withBytes (wantStore w) n addr n fun ps s =>
        s.onPort (portCycles n ps) fun s => s.store addr n (s.rs d) (ps.zip (leBytes n (s.rs d).toNat)) (runFrom addr.toNat n) false false

/-- ST.B (R122). -/
def execStB (d a : BitVec 6) (off : BitVec 16) (s : State) : Out := .next (s.scalarStore .B d a off)
/-- ST.H (R122). -/
def execStH (d a : BitVec 6) (off : BitVec 16) (s : State) : Out := .next (s.scalarStore .H d a off)
/-- ST.W (R122). -/
def execStW (d a : BitVec 6) (off : BitVec 16) (s : State) : Out := .next (s.scalarStore .W d a off)
/-- ST.D (R122). -/
def execStD (d a : BitVec 6) (off : BitVec 16) (s : State) : Out := .next (s.scalarStore .D d a off)

/-! Tiles. -/

/-- The tile bytes that a shape names, in the order of the packed image (R127). -/
def tileKeys (t : Nat) (v : BitVec 16) : List Nat :=
  let w := shapeWidth v / 8
  (shapeElems v).flatMap fun e => (List.range w).map fun i => 4096 * t + 256 * e.1 + e.2 * w + i

/-- A tile load from an address (R127). -/
def State.ldtAt (s : State) (d : BitVec 6) (addr : Word) (land : BitVec 12) : State :=
  s.onPort 1 fun s =>
    let keys := tileKeys d.toNat (s.here.work.shape d.toNat)
    s.withBytes wantTileLoad 64 addr keys.length fun ps s =>
      s.loadSlot (.tile keys []) [.tile d.toNat] land addr ps fun bs => [.tile (keys.zip bs)]

/-- LDT (R127). -/
def execLdt (d a : BitVec 6) (off : BitVec 16) (land : BitVec 12) (s : State) : Out :=
  .next (s.whenPort fun s => s.readingWhen s.slotsFull [.s a.toNat] fun s => s.ldtAt d (s.rs a + off.signExtend 64) land)

/-- An STT that writes every byte of one row group (R128). -/
def coversGroup (v : BitVec 16) (a : Word) (ps : List Nat) : Bool :=
  shapeRows v == 16 && shapeCols v * shapeWidth v == 2048 && a.toNat % 4096 == 0 &&
    match ps with
    | p :: _ => p % 4096 == 0 && (match rowGroupOf p with
      | some g => ps.all fun q => rowGroupOf q == some g
      | none => false)
    | [] => false

/-- STT (R127, R128). -/
def execStt (d a : BitVec 6) (off : BitVec 16) (s : State) : Out :=
  .next (s.onPort 1 fun s => s.reading [.s a.toNat, .tile d.toNat] fun s =>
    let addr := s.rs a + off.signExtend 64
    let v := s.here.work.shape d.toNat
    let keys := tileKeys d.toNat v
    s.withBytes wantTileStore 64 addr keys.length fun ps s =>
      s.store addr keys.length 0 (ps.zip (keys.map fun k => sget s.here.work.tiles k)) (runFrom addr.toNat keys.length) (coversGroup v addr ps) true)

/-- The elements that a gather or a scatter visits (R129): active in both tiles, in row-major order. -/
def Work.gatherElems (W : Work) (d b : Nat) : List (Nat × Nat) :=
  (shapeElems (W.shape d)).filter fun e => W.active b 0 e.1 e.2

/-- The address of an element of a gather or a scatter (R129). -/
def Work.gatherAddr (W : Work) (base : Word) (d b : Nat) (e : Nat × Nat) : Word :=
  let wb := shapeWidth (W.shape b)
  base + BitVec.ofInt 64 (sint wb (W.elem b wb e.1 e.2) * (shapeWidth (W.shape d) / 8 : Nat))

/-- A gather from a base address (R129). -/
def State.ldtGAt (s : State) (d b : BitVec 6) (base : Word) (land : BitVec 12) : State :=
  s.onPort 1 fun s =>
    let W := s.here.work
    let w := shapeWidth (W.shape d.toNat) / 8
    let es := W.gatherElems d.toNat b.toNat
    let as := es.map (W.gatherAddr base d.toNat b.toNat)
    s.withEach wantTileLoad w as fun ps s =>
      let keys := es.flatMap fun e => (List.range w).map fun i => 4096 * d.toNat + 256 * e.1 + e.2 * w + i
      s.loadSlot (.tile keys (as.flatMap (List.replicate w))) [.tile d.toNat] land base ps.flatten fun bs => [.tile (keys.zip bs)]

/-- LDT.G (R129). -/
def execLdtG (d a b : BitVec 6) (land : BitVec 12) (s : State) : Out :=
  .next (s.whenPort fun s => s.readingWhen s.slotsFull [.s a.toNat, .tile b.toNat] fun s => s.ldtGAt d b (s.rs a) land)

/-- STT.S (R129). -/
def execSttS (d a b : BitVec 6) (s : State) : Out :=
  .next (s.onPort 1 fun s => s.reading [.s a.toNat, .tile d.toNat, .tile b.toNat] fun s =>
    let W := s.here.work
    let w := shapeWidth (W.shape d.toNat)
    let es := W.gatherElems d.toNat b.toNat
    let as := es.map (W.gatherAddr (s.rs a) d.toNat b.toNat)
    s.withEach wantTileStore (w / 8) as fun ps s =>
      let bytes := es.flatMap fun e => leBytes (w / 8) (W.elem d.toNat w e.1 e.2)
      s.store (s.rs a) (w / 8) 0 (ps.flatten.zip bytes) (as.flatMap fun x => runFrom x.toNat (w / 8)) false true)

/-! Stream registers. -/

/-- A stream register. -/
def Work.stream (W : Work) (q : Nat) : Stream := W.streams[q]?.getD .unbound
/-- Replace a stream register. -/
def Work.setStream (W : Work) (q : Nat) (x : Stream) : Work := { W with streams := W.streams.setIfInBounds q x }

/-- A little-endian field of a descriptor (R148). -/
def descField (d : Bytes) (at_ n : Nat) : Nat := leNat ((d.drop at_).take n)

/-- Number of blocks of a stream descriptor (R148). -/
def streamBlocks (d : Bytes) : Nat := descField d 32 2 * descField d 34 2 * descField d 36 2
/-- Block size of a stream descriptor (R148). -/
def streamBlock (d : Bytes) : Nat := descField d 38 2

/-- Address of block j (R148). -/
def streamAddr (d : Bytes) (j : Nat) : Word :=
  let c0 := descField d 32 2
  let c1 := descField d 34 2
  BitVec.ofNat 64 (descField d 0 8 + j % c0 * descField d 8 8 + j / c0 % c1 * descField d 16 8 + j / c0 / c1 * descField d 24 8)

/-- The limits of a stream descriptor (R148). -/
def streamOk (d : Bytes) : Bool :=
  [0, 8, 16, 24].all (fun o => descField d o 8 % 8 == 0) && [32, 34, 36].all (fun o => descField d o 2 != 0) &&
  8 ≤ streamBlock d && streamBlock d ≤ 4096 && streamBlock d % 8 == 0 &&
  [0, 1, 2, 7].contains (descField d 40 1) && (d.drop 41).all (· == 0)

/-- A binding from a descriptor address (R148). -/
def State.sbindAt (s : State) (x : BitVec 6) (addr : Word) (land : BitVec 12) : State :=
  s.onPort 1 fun s =>
    s.withBytes (wantSystem 64) 8 addr 64 fun ps s => s.withSlot fun s => s.requestRead (.sbind x.toNat) [.q x.toNat] land addr ps

/-- SBIND (R148). -/
def execSbind (x a : BitVec 6) (land : BitVec 12) (s : State) : Out :=
  .next (s.whenPort fun s => s.readingWhen s.slotsFull [.s a.toNat] fun s => s.sbindAt x (s.rs a) land)

/-- The status of a stream (R151). BUF counts the blocks that the prefetch has brought. -/
def Stream.status (x : Stream) : Word :=
  if !x.bound then BitVec.ofNat 64 (2 * x.exh.toNat)
  else
    let rem := streamBlocks x.desc - x.cursor
    BitVec.ofNat 64 (1 + 2 * x.exh.toNat + 4 * (x.buf.any (·.fault.isSome)).toNat + 256 * min x.buf.length (min 8 rem) + 65536 * rem)

/-- SSTAT (R151): it reads the stream register, which a pending SBIND is to write (R22). -/
def execSstat (d x : BitVec 6) (s : State) : Out :=
  .next (s.compute [.q x.toNat] 2 [.sreg d.toNat (s.here.work.stream x.toNat).status])

/-- SDROP (R151). -/
def execSdrop (x : BitVec 6) (s : State) : Out :=
  .next ((s.dropStream s.curHall x.toNat).onHere fun H => { H with work := H.work.setStream x.toNat .unbound }).issue

end Sys2Proof.Machine
end

