-- ==== Sys2Proof/Machine/Phases.lean ====
section
/-! DEFINITION. Phases, engine markers, and the syllables of groups and barriers (R140 to R147, R287, R290). -/

namespace Sys2Proof.Machine

/-- Every read of the strand has been performed (R275). -/
def StrandState.readsDone (x : StrandState) : Bool := x.slots.all fun t => t.data.isSome

/-- The strand renews at a scope once its earlier reads have been performed; it is frozen until then (R275). -/
def State.renewing (s : State) (x : Scope) (k : State → State) : State :=
  if x != .strand && !s.me.readsDone then s.freeze else k (s.renew s.curHall s.curStrand x)

/-- PHASE (R140). -/
def execPhase (sc : Scope) (s : State) : Out :=
  .next (s.outsideRegions fun s => s.publishing sc fun s => s.renewing sc fun s => s.clearWait.issue)

/-! Markers. -/

/-- The number that the next command of a queue gets. -/
def Hall.nextId (H : Hall) : Engine → Nat
  | .copy => H.cqNext
  | .matrix => H.mqNext
  | .hazel => H.hqNext

/-- The operands-consumed event, or the event posted when the command is performed. -/
def eventOf : Instr → Option Nat
  | .mma f => if f.eve then some f.ev.toNat else none
  | .mmaS f => if f.eve then some f.ev.toNat else none
  | .maccSpill _ _ _ ev eve => if eve then some ev.toNat else none
  | .maccFill _ _ _ ev eve => if eve then some ev.toNat else none
  | _ => none

/-- A post of a command with a number below n does not fit: it is one of the command's effects (R118, R141). -/
def Hall.heldPost (H : Hall) (e : Engine) (n : Nat) : Bool :=
  H.posts.any fun p => p.queue == some e && p.cmd < n && (p.dest.isSome || 255 ≤ (H.work.ev p.ev).count)

/-- A command with a number below n has not been performed yet (R141). -/
def Hall.ahead (H : Hall) (e : Engine) (n : Nat) : Bool :=
  match e with
  | .copy => H.cq.any (·.id < n) || (match H.copy with | some r => r.cmd.id < n | none => false)
  | .matrix => H.mq.any (·.id < n) || H.heldPost .matrix n
  | .hazel => H.hq.any (·.id < n) || (match H.hz with | some r => r.cmd.id < n | none => false)

/-- A matrix command is in its last Hall cycle, at whose end its results are written (R187). MACC.SPILL and MACC.FILL have left the queue
by then. -/
def MatCmd.lastCycle (c : MatCmd) (now : Nat) : Bool :=
  c.started.isSome &&
    (match c.op with
    | .mma f => c.fed == f.n.toNat + 1 && c.rows.all fun r => r.due ≤ now
    | .mmaS f => c.fed == f.n.toNat + 1 && c.rows.all fun r => r.due ≤ now
    | .maccSpill .. => false
    | .maccFill .. => false
    | _ => c.endsAt ≤ now + 1)

/-- What a JOIN waits for: a matrix command is performed in its last Hall cycle (R141, R187). -/
def Hall.joinWaits (H : Hall) (m : Marker) : Bool :=
  match m.queue with
  | .matrix => H.heldPost .matrix m.last || H.mq.any fun c => c.id < m.last &&
      !(c.lastCycle H.cycle && (match eventOf c.op with | some e => c.posted || (H.work.ev e).count < 255 | none => true))
  | .copy => H.ahead .copy m.last
  | .hazel => H.ahead .hazel m.last

/-- What an engine's performed commands know. -/
def Hall.known (H : Hall) : Engine → Clock
  | .copy => H.cpClock
  | .matrix => H.mxClock
  | .hazel => H.hzClock

/-- FENCE.MK (R141). -/
def execFenceMk (mask : BitVec 3) (s : State) : Out :=
  let H := s.here
  let ms : List Marker :=
    ([(0, Engine.copy), (1, Engine.matrix), (2, Engine.hazel)].filter fun e => mask.getLsbD e.1).map fun e =>
      { queue := e.2, last := H.nextId e.2, clock := H.known e.2 }
  .next (s.onMe fun x => { x with markers := x.markers ++ ms }).issue

/-- A write of a command ahead of a marker. -/
def Marker.ahead (m : Marker) (h : HallId) (v : Version) : Bool := v.agent == .engine h m.queue && v.num < m.last

/-- A JOIN takes into the strand's floor the destination writes of the commands ahead of a marker whose scope covers it (R287); the commands, with
what they are ordered after, happen before it (R277). -/
def State.joinMarker (s : State) (m : Marker) : State :=
  let r := s.seatOf s.curHall s.curStrand
  let vs := s.hist.filter (m.ahead s.curHall)
  s.onMe fun x =>
    { x with
      floor := vs.foldl (fun f v => if covers v.scope v.seat r then lineUp v.line v.id f else f) x.floor
      clock := vs.foldl (fun c v => let c := Clock.join c v.clock; match v.pub with | some p => c.up v.agent p | none => c) (Clock.join x.clock m.clock) }

/-- JOIN (R141, R142). -/
def execJoin (s : State) : Out :=
  let ms := s.me.markers
  .next (if ms.any s.here.joinWaits then s.freeze
    else ((ms.foldl State.joinMarker s).onMe fun x => { x with markers := [] }).issue)

/-! Groups. -/

/-- The identifier that a syllable names (R143). -/
def State.gid (s : State) (a : BitVec 6) : Nat := (s.rs a).toNat % 4096

/-- The running slice's membership of a group. -/
def State.membership (s : State) (gid : Nat) : Option Member :=
  match s.here.slice with | some sl => sl.groups.find? fun m => m.gid == gid | none => none

/-- The slice lies within a group's scope (R143). -/
def Group.admits (g : Group) (h : HallId) : Bool :=
  match g.scope with
  | .strand => true
  | .hall => g.creatorHall == h
  | .storey => storeyOf g.creatorHall == storeyOf h
  | .device => true
  | .fabric => true

/-- A join's landing: the number of members, in a slot whose data arrives at an open time. -/
def State.joined (s : State) (sc : Scope) (d : BitVec 6) (gid : Nat) (land : BitVec 12) (n : Word) : State :=
  let (k, s) := s.drawDelay
  (s.onSlice fun sl => { sl with groups := sl.groups ++ [{ gid := gid, last := none }] }).claim
    (.gjoin d.toNat gid sc) [.s d.toNat] land 0 [] (some (s.here.cycle + 1 + k)) (some [.sreg d.toNat n])

/-- A join is performed at this module, which keeps the group (R143). -/
def State.joinHere (s : State) (sc : Scope) (d : BitVec 6) (gid : Nat) (land : BitVec 12) : State :=
  match s.here.slice with
  | none => s
  | some sl =>
    let g := (s.group s.asid gid).getD (Group.fresh s.asid gid sc s.curHall)
    let g := g.join sl.id (s.selfIndex s.asid) s.curHall g.firstPhase
    let s := { s with groups := s.groups.filter (fun (x : Group) => !(x.asid == s.asid && x.gid == gid)) ++ [g] }
    s.joined sc d gid land (BitVec.ofNat 64 g.members.length)

/-- A join of a FABRIC group that member k of the fabric group keeps: the home is told the first phase that counts the joiner, by the phases that it
has reported. The members after the join are those of this module and those of the others; how many the others have is the home's to know, and no
message tells it: a free number (R143, R290, R409; log 9). -/
def State.joinAway (s : State) (sc : Scope) (d : BitVec 6) (gid : Nat) (land : BitVec 12) (k : Nat) : State :=
  match s.here.slice with
  | none => s
  | some sl =>
    let self := s.selfIndex s.asid
    let g := (s.group s.asid gid).getD { Group.fresh s.asid gid sc s.curHall with home := false, homeAt := k }
    let first := g.firstPhase
    let g := g.join sl.id self s.curHall first
    let s := { s with groups := s.groups.filter (fun (x : Group) => !(x.asid == s.asid && x.gid == gid)) ++ [g] }
    let s := s.sendTo s.partId g.homeAt (.groupJoinMessage (BitVec.ofNat 8 self) s.curHall s.asid (BitVec.ofNat 12 gid) (BitVec.ofNat 32 first))
    let own := BitVec.ofNat 64 (g.members.filter fun m => m.index == self).length
    ({ s with free := s.free + 1 }).joined sc d gid land (own + Config.value s.free)

/-- GJOIN (R143). -/
def execGjoin (sc : Scope) (d a : BitVec 6) (land : BitVec 12) (s : State) : Out :=
  .next (s.outsideRegions fun s => s.readingWhen s.slotsFull [.s a.toNat] fun s =>
    let gid := s.gid a
    let n := match s.here.slice with | some sl => sl.groups.length | none => 0
    if (s.membership gid).isSome ∨ 16 ≤ n then s.trapHere (prot 0x01)
    else s.withSlot fun s =>
      match s.group s.asid gid with
      | some g =>
        if g.scope != sc || !g.admits s.curHall then s.trapHere (prot 0x01)
        else if g.home then s.joinHere sc d gid land else s.joinAway sc d gid land g.homeAt
      | none =>
        if sc = .fabric ∧ !(s.peers s.asid).isEmpty then
          let (k, s) := s.drawChoice
          if k % 2 = 0 then s.joinHere sc d gid land
          else s.joinAway sc d gid land ((s.peers s.asid).getD (k / 2 % (s.peers s.asid).length) 0)
        else s.joinHere sc d gid land)

/-- GLEAVE (R144). -/
def execGleave (a : BitVec 6) (s : State) : Out :=
  .next (s.outsideRegions fun s => s.reading [.s a.toNat] fun s =>
    let gid := s.gid a
    match s.membership gid, s.here.slice with
    | some _, some sl =>
      ((s.leaveGroup s.asid sl.id s.curHall gid).onSlice fun sl => { sl with groups := sl.groups.filter fun m => m.gid != gid }).issue
    | _, _ => s.trapHere (prot 0x01))

/-! Barriers. -/

/-- The running slice as a member of a group. -/
def State.asMember (s : State) (gid : Nat) : Option (Group × GMember) :=
  match s.here.slice, s.group s.asid gid with
  | some sl, some g => (g.mine (s.selfIndex s.asid) sl.id s.curHall).map fun m => (g, m)
  | _, _ => none

/-- The arrival is recorded (R145), here or at the group's home. -/
def State.recordArrival (s : State) (gid : Nat) : State :=
  match s.asMember gid, s.here.slice with
  | some (g, m), some _ =>
    let c := s.known
    let ph := max g.phase m.from_
    let s := s.onSlice fun sl => { sl with groups := sl.groups.map fun e => if e.gid = gid then { e with last := some ph } else e }
    let s := s.onGroup s.asid gid fun g => g.arrive m c
    if g.home then s.settleGroup s.asid gid
    else s.sendTo s.partId g.homeAt (.barrierArrival (BitVec.ofNat 8 (s.selfIndex s.asid)) m.hall s.asid (BitVec.ofNat 12 gid) (BitVec.ofNat 32 ph))
  | _, _ => s

/-- BAR.ARRIVE, and the first part of BAR.SYNC (R145, R146). -/
def State.arriving (s : State) (gid : Nat) (k : State → State) : State :=
  match s.asMember gid with
  | none => s.trapCause .BAR_OVERRUN
  | some (g, m) => if m.arrived then s.trapCause .BAR_OVERRUN else s.publishing g.scope fun s => k (s.recordArrival gid)

/-- BAR.ARRIVE (R145). -/
def execBarArrive (a : BitVec 6) (s : State) : Out :=
  .next (s.outsideRegions fun s => s.reading [.s a.toNat] fun s => s.arriving (s.gid a) fun s => s.clearWait.issue)

/-- The phase of the slice's most recent arrival has completed, or it has none pending (R145). -/
def State.phaseDone (s : State) (gid : Nat) : Bool :=
  match s.membership gid, s.group s.asid gid with
  | some m, some g => (match m.last with | some ph => ph < g.phase | none => true)
  | _, _ => true

/-- A barrier wait goes on: the strand is frozen, and what it has waited in device time counts towards BAR.TMO unless the
timeout is suspended (R147). -/
def State.barHold (s : State) (gid : Nat) : State :=
  let off := match s.group s.asid gid with | some g => g.suspended | none => false
  let t := s.tick
  (s.onMe fun x =>
    let more := match x.wait.since with | some t0 => (if off then 0 else t - t0) | none => 0
    { x with wait := { x.wait with until_ := x.wait.until_ + more, since := some t } }).freeze

/-- BAR.WAIT, and the second part of BAR.SYNC: the renewal at the group's scope when the phase has completed (R145). -/
def State.barWaiting (s : State) (gid : Nat) : State :=
  if s.phaseDone gid then
    match s.group s.asid gid with
    | some g =>
      let s := s.onMe fun x => { x with clock := Clock.join x.clock g.prev }
      s.renewing g.scope fun s => s.clearWait.issue
    | none => s.clearWait.issue
  else s.barHold gid

/-- BAR.WAIT (R145). -/
def execBarWait (a : BitVec 6) (s : State) : Out :=
  .next (s.reading [.s a.toNat] fun s => s.barWaiting (s.gid a))

/-- BAR.SYNC (R145, R147): its arrival stands when it issues again after a timeout. -/
def execBarSync (a : BitVec 6) (s : State) : Out :=
  .next (s.outsideRegions fun s => s.reading [.s a.toNat] fun s =>
    let gid := s.gid a
    if s.me.wait.arrived then s.barWaiting gid
    else s.arriving gid fun s => (s.onMe fun x => { x with wait := { x.wait with arrived := true, pub := .idle } }).barWaiting gid)

/-- BAR_TIMEOUT (R147): the wait of the S strand has lasted as long as BAR.TMO allows. -/
def execBarTimeout (h : HallId) (s : State) : Out :=
  let x := s.strand h .S
  let tmo := match (s.hall h).slice with | some sl => (s.part sl.part).barTmo.toNat | none => 0
  .next (if x.wait.since.isSome && tmo != 0 && tmo * 5544000 ≤ x.wait.until_ && (s.hall h).trap.isNone then
      (s.onStrand h .S fun x => { x with wait := { x.wait with until_ := 0, since := none } }).raise h .S { cause := .BAR_TIMEOUT }
    else s)

end Sys2Proof.Machine
end

