-- ==== Sys2Proof/Machine/Engine.lean ====
section
/-! DEFINITION. What the engines of a Hall share: translation, reads and writes of memory (R271, R285, R286), event posts
(R118), and the prefetch of streams (R149). -/

namespace Sys2Proof.Machine

/-! What a command knows at its issue. -/

/-- The floor of an engine command: its issue is a renewal at the command's scope, after everything that happens before
the issuing syllable (R285); the strand's drained stores, and those ordered before it, are in it (R197). -/
def State.engineFloor (s : State) (h : HallId) (e : Engine) (x : Scope) : List (Nat × Nat) :=
  let y := s.me
  heardFloor s.here.sliceId (s.known.storesOf s.here.sliceId) s.hist (renewedFloor x (s.engineSeat h e s.partId) y.clock s.pubs s.hist [])

/-- The versions that an engine has last read (R279, condition 4). -/
def Hall.lastRead (H : Hall) : Engine → List (Nat × Nat)
  | .copy => H.cpRead
  | .matrix => H.mxRead
  | .hazel => H.hzRead

/-- An engine remembers the versions that it has read. -/
def Hall.remember (H : Hall) (e : Engine) (ns : List (Nat × Nat)) : Hall :=
  let up := fun (f : List (Nat × Nat)) => ns.foldl (fun f n => if n.2 = 0 then f else lineUp n.1 n.2 f) f
  match e with
  | .copy => { H with cpRead := up H.cpRead }
  | .matrix => { H with mxRead := up H.mxRead }
  | .hazel => { H with hzRead := up H.hzRead }

/-- An engine as a reader for a command of a partition (R285): it never falls behind its own writes, nor behind what it has read. -/
def State.engineReader (s : State) (h : HallId) (e : Engine) (p : PartId) (floor : List (Nat × Nat)) : Reader :=
  { agent := .engine h e, hall := h, floor := floor, last := (s.hall h).lastRead e, own := 0, seen := { S := 0, L := 0, M := 0, V := 0 }
    fab := (s.part p).fabGroup }

/-! Translation. -/

/-- How an engine's access resolves: the engine waits for the supervisor, a fault, or the physical addresses. -/
inductive Found where
  | wait
  | fault (t : TrapInfo)
  | ok (ps : List Nat)
  deriving DecidableEq, Repr

/-- A hold of an engine stands for an address (R390). -/
def State.held (s : State) (u : Who) (a : Nat) : Bool :=
  s.walks.any fun w => w.engine && w.hold.isSome && w.asid == u.asid && w.addr / 2 ^ 19 == a / 2 ^ 19 && w.halls.contains u.at_

/-- The slice of an engine's command is being killed (R320): nothing holds the command any longer (R390). -/
def State.killing (s : State) (u : Who) : Bool :=
  match (s.hall u.hall).switch, (s.hall u.hall).slice with
  | some w, some sl => u.slice == some sl.id && (w.how == .kill || w.how == .term)
  | _, _ => false

/-- An engine meets an XLATE that no walk of its own holds, in host-assisted mode: it is held as a walk's requester is (DEDUCED, log 61). While its event
cannot be raised, it tries again (R400). -/
def State.holdEngine (s : State) (u : Who) (a : Nat) (t : TrapInfo) : State :=
  let w : Walk := { id := s.nextWalk, asid := u.asid, part := u.part, addr := a, halls := [u.at_], endsAt := none, hold := none, engine := true
                    failed := none }
  ({ s with nextWalk := s.nextWalk + 1 }.holdWalk w t).getD s

/-- The bytes of an engine's access (R386 to R388, R390): a miss waits for a walk; in host-assisted mode an XLATE is held and never fails the command
(R200), until its slice is killed. -/
def State.engineResolve (s : State) (u : Who) (binds : List (BitVec 32 × BitVec 32)) (k : Want) (as : List Nat) : Found × State :=
  let waits := s.hosted u.part && !s.killing u
  if waits && as.any fun a => s.held u a then (.wait, s)
  else match resolveAll (s.resolveBound u binds k) as with
    | .ok ps => (if s.mustReport u.part ps then .wait else .ok ps, s)
    | .error (b, some t) => if t.cause = .XLATE ∧ waits then (.wait, s.holdEngine u b t) else (.fault t, s)
    | .error (b, none) => if s.killing u then (.fault (k.tell b (xlate 0)), s) else (.wait, s.startWalk u b true)

/-! Reads and writes. -/

/-- What an engine's read gives: not yet (bytes of another module), a data fault's code, or the bytes. -/
inductive Got where
  | wait
  | bad (code : Nat)
  | ok (bs : Bytes)
  deriving DecidableEq, Repr

/-- The byte of another module that a command has asked for. -/
def State.farCell (s : State) (h : HallId) (e : Engine) (cmd a : Nat) : Option FarCell :=
  s.farCells.find? fun c => c.hall == h && c.engine == e && c.cmd == cmd && c.addr == a

/-- A byte of those is still to be asked for, or on its way. -/
def State.farMissing (s : State) (h : HallId) (e : Engine) (cmd : Nat) (ps : List Nat) : Bool :=
  ps.any fun a => match s.farCell h e cmd a with | some c => c.byte.isNone && c.bad == 0 | none => true

/-- The code of the first of those bytes that its module answered with a fault, 0 for none. -/
def State.farBad (s : State) (h : HallId) (e : Engine) (cmd : Nat) (ps : List Nat) : Nat :=
  (ps.findSome? fun a => match s.farCell h e cmd a with | some c => if c.bad = 0 then none else some c.bad | none => none).getD 0

/-- Ask other modules for bytes of a command (R409). -/
def State.askRuns (s : State) (h : HallId) (e : Engine) (cmd : Nat) (asid : Asid) (ps : List Nat) : State :=
  (runsOf (ps.filter fun a => (s.farCell h e cmd a).isNone)).foldl (fun s r =>
    let (tag, s) := s.newTag
    let fresh : List FarCell := (runFrom r.1 r.2).map fun a => { hall := h, engine := e, cmd := cmd, addr := a, tag := tag, byte := none, bad := 0 }
    ({ s with farCells := s.farCells ++ fresh }).sendTo (s.partOf asid) (fabMember r.1)
      (.fabricRead s.modid (BitVec.ofNat 16 tag) (fabOffset r.1) asid (BitVec.ofNat 16 r.2))) s

/-- Ask other modules for the bytes that a command has not asked for yet. What the overlay image of the engine's Hall holds of them counts as
published at HALL (R285): a reader that chooses it is given it. -/
def State.askFar (s : State) (h : HallId) (e : Engine) (cmd : Nat) (asid : Asid) (r : Reader) (ps : List Nat) : State :=
  let (image, ns, s) := s.overlayRead h r (ps.filter fun a => (s.farCell h e cmd a).isNone)
  let s := if r.agent = .engine h e then s.onHall h (·.remember e ns) else s
  let mine : List FarCell := image.map fun c => { hall := h, engine := e, cmd := cmd, addr := c.1, tag := 2 ^ 16, byte := some c.2, bad := 0 }
  { s with farCells := s.farCells ++ mine }.askRuns h e cmd asid ps

/-- The first fault that those bytes' modules have answered: the byte's address and the fault. -/
def State.farWhy (s : State) (h : HallId) (e : Engine) (cmd : Nat) (ps : List Nat) : Option (Nat × TrapInfo) :=
  ps.findSome? fun a => match s.farCell h e cmd a with | some c => c.why.map fun t => (a, t) | none => none

/-- A command's far bytes are no longer needed. -/
def State.dropFar (s : State) (h : HallId) (e : Engine) (cmd : Nat) : State :=
  { s with farCells := s.farCells.filter fun c => !(c.hall == h && c.engine == e && c.cmd == cmd) }

/-- An engine reads bytes (R274, R285, R357): the versions that its reader allows, the engine or, for a prefetch, the L strand (R149). -/
def State.engineRead (s : State) (h : HallId) (e : Engine) (cmd : Nat) (asid : Asid) (part : PartId) (r : Reader) (ps : List Nat) :
    Got × State :=
  let far := ps.filter inFabric
  if s.farMissing h e cmd far then (.wait, s.askFar h e cmd asid r far)
  else if s.farBad h e cmd far ≠ 0 then (.bad (s.farBad h e cmd far), s.dropFar h e cmd)
  else
    let near := ps.filter fun a => !inFabric a
    match s.senseRead part near with
    | (some (_, f), s) => (.bad f.code, s)
    | (none, s) =>
      let (bs, ns, s) := s.readBytes r near
      let s := if r.agent = .engine h e then s.onHall h (·.remember e ns) else s
      let tab := near.zip bs
      (.ok (ps.map fun a =>
        if inFabric a then (match s.farCell h e cmd a with | some c => c.byte.getD 0 | none => 0) else (cellAt a tab).getD 0), s)

/-- An engine writes bytes at their home, and in other members of the fabric group (R273, R286, R414). -/
def State.engineWrite (s : State) (w : Writer) (cs : List Host.Cell) : State :=
  let s := match w.agent with
    | .engine h e => s.fabricStore w.asid
        { tag := 0, member := 0, hall := h, strand := .S, slot := none, atomic := false, engine := some (e, w.num), after := 0
          info := { cause := .PROT, access := .engine, width := 4 } } (cs.filter fun c => inFabric c.1)
    | .strand _ _ => s | .switch _ => s | .device => s | .host => s | .module _ => s | .stores _ _ => s
  s.writeHome w (cs.filter fun c => !inFabric c.1)

/-- The first line of a write that reaches an invalid row group (R198, R191): covered groups are exempt. -/
def State.invalidAt (s : State) (covered : Nat → Bool) (ps : List Nat) : Option Nat :=
  ps.find? fun a => match rowGroupOf a with | some g => !(s.rowGroup g).valid && !covered g | none => false

/-! Order (R285): the commands that one queue performs in turn are ordered by happens-before. -/

/-- An engine learns what a command of its queue knows. -/
def Hall.learn (H : Hall) (e : Engine) (c : Clock) : Hall :=
  match e with
  | .copy => { H with cpClock := Clock.join H.cpClock c }
  | .matrix => { H with mxClock := Clock.join H.mxClock c }
  | .hazel => { H with hzClock := Clock.join H.hzClock c }

/-- A command that stands ahead of markers of its queue has been performed, or has left: with what it knows it happens before the JOIN that waits
for them (R287). -/
def Hall.tellMarkers (H : Hall) (e : Engine) (id : Nat) (c : Clock) : Hall :=
  let mark := fun (m : Marker) => if m.queue = e ∧ id < m.last then { m with clock := Clock.join m.clock c } else m
  let tell := fun (x : StrandState) => { x with markers := x.markers.map mark }
  { H with work := { H.work with S := tell H.work.S, L := tell H.work.L, M := tell H.work.M, V := tell H.work.V } }

/-- The Hall on which an engine command's slice runs, its own Hall when the slice runs nowhere (R34, R224). -/
def State.homeOf (s : State) (h : HallId) (slice : Nat) : HallId := (s.findSlice slice).getD h

/-- The weight sets that a slice has bound (R226), wherever it is. -/
def State.bindsOf (s : State) (slice : Nat) : List (BitVec 32 × BitVec 32) :=
  match s.findSlice slice with
  | some h => (s.hall h).binds
  | none => (match s.saved.find? fun v => v.slice.id == slice with | some v => v.slice.wsets | none => [])

/-- An engine takes one count of an event at the end of a Hall cycle (R197): its stamp, none while the count is zero. -/
def State.engineTake (s : State) (h : HallId) (ev : Nat) : Option (Stamp × State) :=
  let H := s.hall h
  let v := H.work.ev ev
  if v.count = 0 then none
  else
    let W := { H.work with evs := H.work.evs.setIfInBounds ev { v with count := v.count - 1 } }
    some (v.stamp, s.setHall h { H with work := W, sampledEv := H.sampledEv.setIfInBounds ev (H.evSample ev - 1) })

/-- The floor of a command of a partition after it has taken an event (R275, R277, R278): a renewal at HALL. -/
def State.takenFloor (s : State) (h : HallId) (e : Engine) (p : PartId) (t : Stamp) (c : Clock) (f : List (Nat × Nat)) : List (Nat × Nat) :=
  let id := (s.hall h).sliceId
  heardFloor id (t.heard.join (c.storesOf id)) s.hist (renewedFloor .hall (s.engineSeat h e p) c s.pubs s.hist f)

/-- The versions that a command's writes have made become publications at its completion (R286). -/
def State.releaseVersions (s : State) (ids : List Nat) (k : Nat) (c : Clock) : State :=
  { s with hist := s.hist.map fun v => if ids.contains v.id && v.pub.isNone then { v with pub := some k, clock := c } else v }

/-! Completion words (R203). -/

/-- A completion word. -/
def wordOf (cur code state : Nat) : Word := BitVec.ofNat 64 (cur % 2 ^ 48 * 2 ^ 16 + code % 256 * 2 ^ 8 + state % 256)

/-- The access of an engine to its completion word. -/
def wantWord : Want := { wantEngineWrite with width := 3 }

/-- A completion word is written as one 8-byte store with release at the scope (R203, R286). At an address that resolves no
more, or in an invalid row group, nothing is written (log 10). False: the engine waits for the supervisor (R390). -/
def State.writeWord (s : State) (w : Writer) (u : Who) (binds : List (BitVec 32 × BitVec 32)) (cw v : Word) : Bool × State :=
  match s.engineResolve u binds wantWord (runFrom cw.toNat 8) with
  | (.wait, s) => (false, s)
  | (.fault _, s) => (true, s)
  | (.ok ps, s) =>
    match s.invalidAt (fun _ => false) ps with
    | some _ => (true, s)
    | none => (true, s.engineWrite { w with rel := true } (ps.zip (leBytes 8 v.toNat)))

/-- Change a slice wherever it is. -/
def State.onSliceId (s : State) (id : Nat) (f : Slice → Slice) : State :=
  match s.findSlice id with
  | some h => s.onHall h (Hall.onSlice · f)
  | none => { s with saved := s.saved.map fun v => if v.slice.id = id then { v with slice := f v.slice } else v }

/-- A command's detected error (R338, R339): it belongs to its region while that is open; else it raises MACHINE_CHECK when
no completion word reports it. For a slice that runs on no Hall it waits until the slice has come back. -/
def State.commandError (s : State) (slice depth code : Nat) (st : Strand) (pc : Word) (silent : Bool) : State :=
  if code = 1 ∨ code = 2 ∨ code = 6 then
    if depth = 0 ∧ !silent then s
    else match s.findSlice slice with
      | none => s.onSliceId slice fun sl => { sl with awayError := outer sl.awayError { depth := depth, code := code, strand := st, pc := pc } }
      | some h => s.detect h depth code st pc false
  else s

/-! Event posts (R118). -/

/-- The slice that runs is the one of a number. -/
def Hall.runs (H : Hall) (id : Nat) : Bool := match H.slice with | some sl => sl.id == id | none => false

/-- A post of an engine of Hall h to an event, of that Hall unless another is named, waits for the end of the Hall cycle. -/
def State.enginePost (s : State) (h : HallId) (dest : Option HallId) (ev : Nat) (q : Option Engine) (cmd : Nat) (c : Clock) : State :=
  s.onHall h fun H =>
    { H with posts := H.posts ++ [{ dest := dest, ev := ev, queue := q, cmd := cmd, stamp := { seen := { S := 0, L := 0, M := 0, V := 0 }, clock := c } }] }

/-- No command of the slice starts: it is on its way off the Hall (R315, R320), or its restore is not over (R323). -/
def Hall.leaving (H : Hall) (slice : Nat) : Bool :=
  (H.switch.isSome || H.restore != .off) && (match H.slice with | some sl => sl.id == slice | none => false)

/-- A queue whose post has not fitted performs no further command (R118). -/
def Hall.blocked (H : Hall) (e : Engine) : Bool := H.posts.any fun p => p.held && p.queue == some e

/-- A command of a queue stands behind a post that has not fitted: nothing more of it is performed (R118). -/
def Hall.heldUp (H : Hall) (e : Engine) (id : Nat) : Bool := H.posts.any fun p => p.held && p.queue == some e && p.cmd < id

/-- The count of an event as this Hall cycle leaves it, engine posts so far included. -/
def Hall.countNow (H : Hall) (e : Nat) : Nat := (H.work.ev e).count

/-- One count is posted to an event with the order that it makes. -/
def Hall.addPost (H : Hall) (p : Post) : Hall :=
  let v := H.work.ev p.ev
  { H with work := { H.work with evs := H.work.evs.setIfInBounds p.ev { v with count := v.count + 1, stamp := v.stamp.join p.stamp } } }

/-- A post of a Hall's engine is applied when it fits and no earlier one of its queue waits, and waits otherwise (R118). -/
def State.applyPost (s : State) (h : HallId) (p : Post) : State :=
  let at_ := p.dest.getD h
  let behind := (s.hall h).posts.any fun q => q.queue.isSome && q.queue == p.queue
  if ((s.hall at_).work.ev p.ev).count < 255 ∧ behind = false then s.onHall at_ (·.addPost p)
  else s.onHall h fun H => { H with posts := H.posts ++ [{ p with held := true }] }

/-- ENGINE_EVENT_POST (R118): at the end of the Hall cycle, after the strands' effects. -/
def State.engineEventPost (s : State) (h : HallId) : State :=
  (s.hall h).posts.foldl (fun s p => s.applyPost h p) (s.onHall h fun H => { H with posts := [] })

/-- ENGINE_EVENT_POST (R118). -/
def execEngineEventPost (h : HallId) (s : State) : Out :=
  .next (if (s.hall h).phase = .finish ∧ !(s.hall h).posts.isEmpty then s.engineEventPost h else s)

/-! Streams (R149). -/

/-- The block that a stream would prefetch next: none when the buffer holds eight, or no block is left. -/
def Stream.nextBlock (x : Stream) : Option Nat :=
  let j := x.cursor + x.buf.length
  if x.bound && x.buf.length < 8 && j < streamBlocks x.desc then some j else none

/-- A block enters a stream's buffer. -/
def State.pushBlock (s : State) (h : HallId) (q : Nat) (b : Block) : State :=
  s.onHall h (Hall.onWork · fun W =>
    let x := W.stream q
    W.setStream q { x with buf := x.buf ++ [b] })

/-- STREAM_PREFETCH (R149): one block is read under the snapshot of the L strand; a fault is recorded against it. How far the prefetch has
run is not specified (R151): the model's brings one block of a stream in a Hall cycle (log 28). -/
def State.prefetch (s : State) (h : HallId) (q : Nat) : State :=
  let H := s.hall h
  match H.slice with
  | none => s
  | some sl =>
    let x := H.work.stream q
    match x.nextBlock with
    | none => s
    | some j =>
      let n := streamBlock x.desc
      let a := streamAddr x.desc j
      let u : Who := { hall := h, asid := sl.asid, part := sl.part, super := sl.super, slice := some sl.id }
      let k : Want := { wantEngineRead with width := 4 }
      match s.engineResolve u sl.wsets k (runFrom a.toNat n) with
      | (.wait, s) => s
      | (.fault t, s) => s.pushBlock h q { bytes := [], fault := some (3, t) }
      | (.ok ps, s) =>
        let why := s.farWhy h .matrix (streamKey q j) ps
        match s.engineRead h .matrix (streamKey q j) sl.asid sl.part (s.readerOf h .L (s.strand h .L).stores) ps with
        | (.wait, s) => s
        | (.bad c, s) =>
          let t : TrapInfo := match why with
            | some (p, t) => { t with access := .engine, width := 4, addr := a + BitVec.ofNat 64 (ps.takeWhile (· != p)).length }
            | none => { cause := if c = 4 then .EXPIRED else .INTEGRITY, detail := c, addr := a }
          (s.pushBlock h q { bytes := [], fault := some (c, t) }).dropFar h .matrix (streamKey q j)
        | (.ok bs, s) => (s.pushBlock h q { bytes := bs, fault := none }).dropFar h .matrix (streamKey q j)

/-- STREAM_PREFETCH (R149). -/
def execStreamPrefetch (h : HallId) (q : BitVec 3) (s : State) : Out := .next (s.prefetch h q.toNat)

end Sys2Proof.Machine
end

