-- ==== Sys2Proof/Machine/Residue.lean ====
section
/-! DEFINITION. The arithmetic of the array: residues (R77 to R81, R85) and float passes (R82 to R84). -/

namespace Sys2Proof.Machine

/-- First modulus (R77). -/
def m1 : Nat := 65536
/-- Second modulus (R77). -/
def m2 : Nat := 65535
/-- Third modulus (R77). -/
def m3 : Nat := 65521
/-- The product of the moduli (R77). -/
def rnaM : Nat := 281406258216960

/-- The three residues of an RNA48 value (R78). -/
structure Residues where
  r1 : Nat
  r2 : Nat
  r3 : Nat
  deriving DecidableEq, Repr

/-- Read an accumulator entry as RNA48: fields above their canonical range are reduced, bits 63:48 ignored (R78). -/
def Residues.ofEntry (x : BitVec 64) : Residues :=
  { r1 := (x.extractLsb' 0 16).toNat, r2 := (x.extractLsb' 16 16).toNat % m2, r3 := (x.extractLsb' 32 16).toNat % m3 }

/-- Write RNA48: bits 63:48 zero (R78). -/
def Residues.toEntry (r : Residues) : BitVec 64 := BitVec.ofNat 64 (r.r1 + 2 ^ 16 * r.r2 + 2 ^ 32 * r.r3)

/-- The residues of an integer (R77). -/
def Residues.ofInt (x : Int) : Residues := { r1 := (x % m1).toNat, r2 := (x % m2).toNat, r3 := (x % m3).toNat }

/-- Channel-wise sum (R77). -/
def Residues.add (a b : Residues) : Residues :=
  { r1 := (a.r1 + b.r1) % m1, r2 := (a.r2 + b.r2) % m2, r3 := (a.r3 + b.r3) % m3 }

/-- Channel-wise product (R77). -/
def Residues.mul (a b : Residues) : Residues :=
  { r1 := (a.r1 * b.r1) % m1, r2 := (a.r2 * b.r2) % m2, r3 := (a.r3 * b.r3) % m3 }

/-- The integer that an RNA48 value represents: the mixed-radix algorithm of R80. -/
def Residues.value (r : Residues) : Int :=
  let v1 : Int := r.r1
  let v2 : Int := ((r.r2 : Int) - v1) % m2
  let v3 : Int := (((r.r3 : Int) - v1 - 15 * v2) * 65209) % m3
  let x := v1 + 65536 * v2 + 4294901760 * v3
  if 140703129108480 ≤ x then x - rnaM else x

/-- MACC.CVT to INT32 with saturation (R81). -/
def cvtI32 (x : BitVec 64) : NumRes := saturate 32 (intLo 32 false) (intHi 32 false) (Residues.ofEntry x).value

/-- MACC.CVT to FP32 with an exponent: bits 7:0 of the scalar, signed (R81). -/
def cvtF32 (x : BitVec 64) (e : Word) : NumRes :=
  let v := (Residues.ofEntry x).value
  fp32.pack (v < 0) v.natAbs (sint 8 e.toNat)

/-- One RN8 pass of a column: the sum of the products, channel by channel (R85). -/
def rn8Sum (a w : List Nat) : Residues :=
  (a.zip w).foldl (fun s p => s.add ((Residues.ofInt (sint 8 p.1)).mul (Residues.ofInt (sint 8 p.2))))
    { r1 := 0, r2 := 0, r3 := 0 }

/-- An RN8 pass with its control: overwrite, or add to the entry (R85; scaling raises ILLEGAL at issue). -/
def rn8Pass (ctl : MmaCtl) (a w : List Nat) (acc : BitVec 64) : BitVec 64 :=
  match ctl with
  | .OW => (rn8Sum a w).toEntry
  | .ACC => ((Residues.ofEntry acc).add (rn8Sum a w)).toEntry
  | .SCL => ((Residues.ofEntry acc).add (rn8Sum a w)).toEntry

/-- The float format of a matrix format; RN8 has none and is never read as one. -/
def matFmt : MFmt → Fmt
  | .BF16 => bf16
  | .FP16 => fp16
  | .RN8 => fp16

/-- A BF16 subnormal (R76). -/
def isFlushed (f : MFmt) (x : Nat) : Bool :=
  match f with
  | .BF16 => x / 2 ^ 7 % 2 ^ 8 == 0 && x % 2 ^ 7 != 0
  | .FP16 => false
  | .RN8 => false

/-- A BF16 subnormal becomes the zero of its sign (R76). -/
def flushed (f : MFmt) (x : Nat) : Nat := if isFlushed f x then bf16.withSign (bf16.neg x) 0 else x

/-- The exact product of two values, and whether it is an invalid operation or has a signalling operand (R82). -/
def exactProduct (a b : FVal) : FVal × Bool :=
  match a, b with
  | .nan s, y => (.nan false, s || y.isSnan)
  | _, .nan t => (.nan false, t)
  | .inf n, .inf p => (.inf (n != p), false)
  | .inf n, .num p k _ => if k = 0 then (.nan false, true) else (.inf (n != p), false)
  | .num n k _, .inf p => if k = 0 then (.nan false, true) else (.inf (n != p), false)
  | .num n m e, .num p k g => (.num (n != p) (m * k) (e + g), false)

/-- Where an exact sum of several terms stands. -/
structure ExactSum where
  nan : Bool
  nv : Bool
  pinf : Bool
  ninf : Bool
  v : Int
  e : Int
  allNegZero : Bool
  deriving DecidableEq, Repr

/-- No term yet. -/
def ExactSum.empty : ExactSum :=
  { nan := false, nv := false, pinf := false, ninf := false, v := 0, e := 0, allNegZero := true }

/-- One term more. -/
def ExactSum.add (s : ExactSum) (t : FVal × Bool) : ExactSum :=
  let s := { s with nv := s.nv || t.2 }
  match t.1 with
  | .nan _ => { s with nan := true, allNegZero := false }
  | .inf n => if n then { s with ninf := true, allNegZero := false } else { s with pinf := true, allNegZero := false }
  | .num n m e =>
    let z := min e s.e
    let x : Int := m * 2 ^ (e - z).toNat
    { s with v := s.v * 2 ^ (s.e - z).toNat + (if n then -x else x), e := z, allNegZero := s.allNegZero && n && m == 0 }

/-- The exact sum rounded once to FP32 (R83). -/
def ExactSum.round (s : ExactSum) : NumRes :=
  let nv := if s.nv then flNV else 0
  if s.nan then .flagged fp32.nanBits nv
  else if s.pinf && s.ninf then .flagged fp32.nanBits flNV
  else if s.pinf || s.ninf then .flagged (fp32.withSign s.ninf fp32.infBits) nv
  else if s.v = 0 then .plain (fp32.withSign s.allNegZero 0)
  else fp32.pack (s.v < 0) s.v.natAbs s.e

/-- Cut a list into groups of eight. -/
def groups8 {α : Type} : Nat → List α → List (List α)
  | 0, _ => []
  | n + 1, l => l.take 8 :: groups8 n (l.drop 8)

/-- The sum of a column's 128 products (R83): the value with its flags, and whether an operand is a NaN. -/
def floatSum (af wf : MFmt) (a w : List Nat) : NumRes × Bool :=
  let terms := (a.zip w).map fun p => exactProduct ((matFmt af).unpack p.1) ((matFmt wf).unpack p.2)
  let gs := (groups8 16 terms).map fun g => (g.foldl ExactSum.add .empty).round
  let s := match gs with
    | [] => NumRes.plain 0
    | g :: rest => rest.foldl (fun (s g : NumRes) =>
        let r := fp32.add s.bits g.bits
        { r with flags := s.flags ||| g.flags ||| r.flags }) g
  (s, (a.zip w).any fun p => ((matFmt af).unpack p.1).isNan || ((matFmt wf).unpack p.2).isNan)

/-- A sum combined with its accumulator entry (R83). gen: the result is a NaN and no operand is (R91). -/
def floatJoin (ctl : MmaCtl) (gamma : Nat) (sum : NumRes) (operandNan : Bool) (acc : Nat) : NumRes :=
  let r := match ctl with
    | .OW => NumRes.plain sum.bits
    | .ACC => fp32.add acc sum.bits
    | .SCL => fp32.fma gamma acc sum.bits
  let nan := operandNan || (ctl != .OW && (fp32.unpack acc).isNan) || (ctl == .SCL && (fp32.unpack gamma).isNan)
  { bits := r.bits, flags := sum.flags ||| r.flags, gen := (fp32.unpack r.bits).isNan && !nan }

/-- One float pass of a column with its control and scale (R83, R84). -/
def floatPass (af wf : MFmt) (ctl : MmaCtl) (gamma : Nat) (a w : List Nat) (acc : Nat) : NumRes :=
  let r := floatSum af wf a w
  floatJoin ctl gamma r.1 r.2 acc

end Sys2Proof.Machine
end

