-- ==== Sys2Proof/Machine/Matrix.lean ====
section
/-! DEFINITION. The matrix queue, the weight banks, the array and the accumulator store (R178 to R193, R76, R82 to R85). -/

namespace Sys2Proof.Machine

/-! Commands and what they touch. -/

/-- The packing factor of a bank (R183). -/
def packing : Sparse → Nat
  | .N128 => 1 | .N64 => 2 | .N32 => 4 | .N16 => 4

/-- Values per logical column (R183). -/
def sparseN : Sparse → Nat
  | .N16 => 16 | .N32 => 32 | .N64 => 64 | .N128 => 128

/-- Bytes of an element (R182). -/
def fmtBytes : MFmt → Nat
  | .BF16 => 2 | .FP16 => 2 | .RN8 => 1

/-- A bank's format. -/
def Work.bank (W : Work) (b : Bool) : Bank := W.banks[bankIdx b]?.getD .none
/-- A bank's format as issued (R180). -/
def Hall.bankIssued (H : Hall) (b : Bool) : Bank := H.issued[bankIdx b]?.getD .none

/-- A run of accumulator rows (first, count). -/
abbrev RowRun := Nat × Nat

/-- Two runs share a row. -/
def meets (a b : RowRun) : Bool := a.1 < b.1 + b.2 && b.1 < a.1 + a.2

/-- Rows of a command's n field. -/
def rowsN (n : BitVec 7) : Nat := n.toNat + 1

/-- The accumulator rows that a command writes or reads, with the format as issued of its bank (R186, R189 to R191). -/
def accRun (H : Hall) : Instr → Option RowRun
  | .mma f => some (f.arow.toNat, packing (H.bankIssued f.bank).sparse * rowsN f.n)
  | .mmaS f => some (f.arow.toNat, packing (H.bankIssued f.bank).sparse * rowsN f.n)
  | .maccRd arow _ n _ => some (arow.toNat, rowsN n)
  | .maccWr arow _ n _ => some (arow.toNat, rowsN n)
  | .maccCvt _ arow _ n _ _ => some (arow.toNat, rowsN n)
  | .maccZero arow n => some (arow.toNat, rowsN n)
  | .maccSpill arow n _ _ _ => some (arow.toNat, rowsN n)
  | .maccFill arow n _ _ _ => some (arow.toNat, rowsN n)
  | _ => none

/-- The memory image of a command: its length in bytes, and whether it is written (R182, R183, R191). -/
def imageOf : Instr → Option (Nat × Bool)
  | .mwLoad fmt true _ _ _ => some (16384 * fmtBytes fmt, false)
  | .mwLoads fmt n _ _ => some (128 * packing n * (16 + sparseN n * fmtBytes fmt), false)
  | .maccSpill _ n _ _ _ => some (1024 * rowsN n, true)
  | .maccFill _ n _ _ _ => some (1024 * rowsN n, false)
  | _ => none

/-- The access of a command's image (R180, R386). -/
def imageWant (write : Bool) : Want := if write then wantEngineWrite else wantEngineRead

/-- The command is an MMA or MMA.S: its fields. -/
def mmaOf : Instr → Option MmaF
  | .mma f => some f
  | .mmaS f => some f
  | _ => none

/-! Checks at issue (R180). -/

/-- Float formats. -/
def fmtFloat : MFmt → Bool
  | .BF16 => true | .FP16 => true | .RN8 => false

/-- A bank's format as issued goes with an activation format (R82). -/
def fmtFits (b : Bank) (a : MFmt) : Bool := match b.fmt with | some w => fmtFloat w == fmtFloat a | none => false

/-- The tile-activation format of the running slice. -/
def State.tileFmt (s : State) : MFmt := match s.here.slice with | some sl => sl.tileFmt | none => .BF16

/-- A stream's declared activation format, none for raw (R148). -/
def streamFmt (x : Stream) : Option MFmt :=
  if x.fmt = 0 then some .BF16 else if x.fmt = 1 then some .FP16 else if x.fmt = 2 then some .RN8 else none

/-- The activation format that a command takes at issue (R185). -/
def State.actFmt (s : State) : Instr → MFmt
  | .mmaS f => (streamFmt (s.here.work.stream f.src.toNat)).getD .BF16
  | _ => s.tileFmt

/-- Every tile of a run has a WIDTH code (R180). -/
def Work.runWidth (W : Work) (t n : Nat) (code : BitVec 2) : Bool :=
  (List.range n).all fun i => (W.shape (t + i)).extractLsb' 0 2 == code

/-- Checks that raise ILLEGAL (R180). -/
def State.matIllegal (s : State) (i : Instr) : Bool :=
  let H := s.here
  let W := H.work
  let past := match accRun H i with | some r => 512 < r.1 + r.2 | none => false
  let own := match i with
    | .mma f =>
      let a := s.tileFmt
      !fmtFits (H.bankIssued f.bank) a || (f.ctl == .SCL && (H.bankIssued f.bank).fmt == some .RN8) ||
        !W.runWidth f.src.toNat ((rowsN f.n + 15) / 16) (if a = .RN8 then 0 else 1)
    | .mmaS f =>
      let x := W.stream f.src.toNat
      match streamFmt x with
      | none => true
      | some a =>
        !x.bound || !fmtFits (H.bankIssued f.bank) a || (f.ctl == .SCL && (H.bankIssued f.bank).fmt == some .RN8) ||
          streamBlock x.desc != 128 * fmtBytes a
    | .maccRd _ src _ _ => 32 < src.toNat + 4 || !W.runWidth src.toNat 4 2
    | .maccWr _ src _ _ => 32 < src.toNat + 4 || !W.runWidth src.toNat 4 2
    | .maccCvt _ _ src _ _ _ => 32 < src.toNat + 2 || !W.runWidth src.toNat 2 2
    | _ => false
  past || own

/-- The first row of a run that carries another context's tag (R31). -/
def Hall.foreignRow (H : Hall) (asid : Asid) (r : RowRun) : Option Nat :=
  (runFrom r.1 r.2).find? fun k => let t := sget H.accTag k; t != 0 && t.toNat != asid.toNat + 1

/-- Consecutive rows from a row on with its tag (R322). -/
def tagRun (H : Hall) (k : Nat) : Nat → Nat
  | 0 => 0
  | n + 1 => if k < 512 ∧ sget H.accTag k = sget H.accTag (k - 1) then tagRun H (k + 1) n + 1 else 0

/-- The address of a pinned row's slot in its owner's save area (R322): the owner is a saved slice that has not got the row back yet. -/
def State.slotAddr (s : State) (h : HallId) (row : Nat) : Word :=
  let tag := sget (s.hall h).accTag row
  match s.saved.find? fun v => v.hall == h && v.slice.asid.toNat + 1 == tag.toNat && v.rows.contains row && !v.present.contains row with
  | some v => v.area + BitVec.ofNat 64 (v.accAt + 64 + 1024 * row)
  | none => 0

/-- ACC_FOREIGN at a row of a Hall (R322). -/
def State.foreignInfo (s : State) (h : HallId) (row : Nat) : TrapInfo :=
  { cause := .ACC_FOREIGN, addr := s.slotAddr h row, row := row, rows := tagRun (s.hall h) (row + 1) 511 + 1 }

/-! Entry into the queue. -/

/-- A command in the form in which it enters a queue. -/
def State.newMat (s : State) (h : HallId) (i : Instr) (word value : Word) (ps : List Nat) (fmt : MFmt) (floor : List (Nat × Nat))
    (tid : Nat) (c : Clock) (pc : Word) (asid : Asid) (part : PartId) (super : Bool) (slice depth : Nat) : MatCmd :=
  { id := (s.hall h).mqNext, op := i, word := word, value := value, pages := ps, fmt := fmt, tid := tid, slice := slice,
    asid := asid, part := part, super := super, depth := depth, poster := s.curHall, started := none, endsAt := 0, fed := 0,
    lastFed := 0, rows := [], flags := 0, posted := false, lost := none, clock := c, floor := floor, pc := pc }

/-- A command enters a Hall's matrix queue, and gives its bank the format as issued (R180). -/
def State.enterMat (s : State) (h : HallId) (c : MatCmd) : State :=
  s.onHall h fun H =>
    { H with mq := H.mq ++ [c], mqNext := H.mqNext + 1
             issued := match fillOf c.op with | some (b, k) => H.issued.setIfInBounds (bankIdx b) k | none => H.issued }

/-- The Hall on whose accumulator a command acts: for a MACC.SPILL of the supervisor slice with an open ACC_FOREIGN record,
the Hall of the record (R192). -/
def State.matTarget (s : State) (i : Instr) : HallId :=
  match i, s.here.slice with
  | .maccSpill .., some sl =>
    if sl.supervisor then
      match (s.part sl.part).open_ with
      | some r => if r.cause.extractLsb' 0 8 = 0x0D then r.hall else s.curHall
      | none => s.curHall
    else s.curHall
  | _, _ => s.curHall

/-- A matrix command (R178, R180): checks exactly at the syllable, then entry into the queue. val is the scalar that it
reads at issue. -/
def State.matrix (s : State) (i : Instr) (rd : List Src) (val : Word) : State :=
  s.readingWhen (s.hall (s.matTarget i)).matrixFull rd fun s =>
    if s.matIllegal i then s.trapCause .ILLEGAL
    else
      let foreign := if s.superMode then none else (match accRun s.here i with | some r => s.here.foreignRow s.asid r | none => none)
      match foreign with
      | some row => s.trapHere (s.foreignInfo s.curHall row)
      | none =>
        let go := fun (ps : List Nat) (s : State) =>
          let h := s.matTarget i
          if (s.hall h).matrixFull then s.freeze
          else
            let x := s.me
            let sl := match s.here.slice with | some sl => sl.id | none => 0
            (s.enterMat h (s.newMat h i s.curWord val ps (s.actFmt i) (s.engineFloor s.curHall .matrix .hall) x.ntid.toNat s.known x.pc
              s.asid s.partId s.superMode sl s.depth)).issue
        match imageOf i with
        | none => go [] s
        | some (n, w) => s.withBytes (imageWant w) 64 val n fun ps s => go ps s

/-- MW.LOAD (R182). -/
def execMwLoad (fmt : MFmt) (image bank : Bool) (src sreg : BitVec 6) (s : State) : Out :=
  .next (s.matrix (.mwLoad fmt image bank src sreg) (if image then [.s sreg.toNat] else []) (if image then s.rs sreg else 0))
/-- MW.LOADS (R183). -/
def execMwLoads (fmt : MFmt) (n : Sparse) (bank : Bool) (sreg : BitVec 6) (s : State) : Out :=
  .next (s.matrix (.mwLoads fmt n bank sreg) [.s sreg.toNat] (s.rs sreg))
/-- MW.CLR (R184). -/
def execMwClr (bank : Bool) (s : State) : Out := .next (s.matrix (.mwClr bank) [] 0)

/-- The code of a stream format (R148). -/
def fmtCode : MFmt → Byte
  | .BF16 => 0 | .FP16 => 1 | .RN8 => 2

/-- MFMT (R185): the M strand sets a format itself. -/
def execMfmt (fmt : MFmt) (stream : Bool) (src : BitVec 6) (s : State) : Out :=
  .next (if stream then
      if !(s.here.work.stream src.toNat).bound then s.trapCause .ILLEGAL
      else (s.onHere (Hall.onWork · fun W =>
        W.setStream src.toNat { W.stream src.toNat with fmt := fmtCode fmt })).issue
    else (s.onSlice fun sl => { sl with tileFmt := fmt }).issue)

/-- MMA (R186). -/
def execMma (f : MmaF) (s : State) : Out :=
  .next (s.matrix (.mma f) (if f.ctl = .SCL then [.s f.sreg.toNat] else []) (s.rs f.sreg))
/-- MMA.S (R186). -/
def execMmaS (f : MmaF) (s : State) : Out :=
  .next (s.matrix (.mmaS f) (if f.ctl = .SCL then [.s f.sreg.toNat] else []) (s.rs f.sreg))
/-- MACC.RD (R189). -/
def execMaccRd (arow : BitVec 9) (src : BitVec 6) (n : BitVec 7) (k : BitVec 3) (s : State) : Out :=
  .next (s.matrix (.maccRd arow src n k) [] 0)
/-- MACC.WR (R189). -/
def execMaccWr (arow : BitVec 9) (src : BitVec 6) (n : BitVec 7) (k : BitVec 3) (s : State) : Out :=
  .next (s.matrix (.maccWr arow src n k) [] 0)
/-- MACC.CVT (R190). -/
def execMaccCvt (toF32 : Bool) (arow : BitVec 9) (src : BitVec 6) (n : BitVec 7) (sreg : BitVec 6) (k : BitVec 3) (s : State) : Out :=
  .next (s.matrix (.maccCvt toF32 arow src n sreg k) (if toF32 then [.s sreg.toNat] else []) (s.rs sreg))
/-- MACC.ZERO (R191). -/
def execMaccZero (arow : BitVec 9) (n : BitVec 7) (s : State) : Out := .next (s.matrix (.maccZero arow n) [] 0)
/-- MACC.SPILL (R191, R192). -/
def execMaccSpill (arow : BitVec 9) (n : BitVec 7) (sreg : BitVec 6) (ev : BitVec 5) (eve : Bool) (s : State) : Out :=
  .next (s.matrix (.maccSpill arow n sreg ev eve) [.s sreg.toNat] (s.rs sreg))
/-- MACC.FILL (R191). -/
def execMaccFill (arow : BitVec 9) (n : BitVec 7) (sreg : BitVec 6) (ev : BitVec 5) (eve : Bool) (s : State) : Out :=
  .next (s.matrix (.maccFill arow n sreg ev eve) [.s sreg.toNat] (s.rs sreg))

/-! Start (R179, R187). -/

/-- The command that the array feeds. -/
def Hall.feeding (H : Hall) : Option MatCmd :=
  H.mq.find? fun c => match mmaOf c.op with | some f => c.started.isSome && c.fed < rowsN f.n | none => false

/-- A fill is in progress. -/
def Hall.filling (H : Hall) : Option MatCmd := H.mq.find? fun c => (fillOf c.op).isSome && c.started.isSome

/-- The accumulator rows of a queued command: those with which it started, else by its bank's packing now (R186). -/
def Hall.runOf (H : Hall) (c : MatCmd) : Option RowRun :=
  match c.run, mmaOf c.op with
  | some r, _ => some r
  | none, some f => some (f.arow.toNat, packing (H.work.bank f.bank).sparse * rowsN f.n)
  | none, none => accRun H c.op

/-- Commands ahead of one. -/
def Hall.aheadOf (H : Hall) (c : MatCmd) : List MatCmd := H.mq.filter fun x => x.id < c.id

/-- The command's own condition to start (R179). -/
def Hall.canStart (H : Hall) (c : MatCmd) : Bool :=
  let run := H.runOf c
  let shares := fun (x : MatCmd) => match run, H.runOf x with | some a, some b => meets a b | _, _ => false
  match mmaOf c.op with
  | some f =>
    H.feeding.isNone && H.arrayFree ≤ H.cycle &&
      !((H.aheadOf c).any fun x => (match fillOf x.op with | some (b, _) => b == f.bank | none => false) ||
        ((mmaOf x.op).isNone && shares x))
  | none =>
    match fillOf c.op with
    | some (b, _) =>
      H.filling.isNone && !(H.mq.any fun x => match mmaOf x.op with
        | some f => f.bank == b && x.started.isSome && x.fed < rowsN f.n
        | none => false)
    | none => !((H.aheadOf c).any shares)

/-- The command that starts next in this Hall cycle: the first that has not started, when its condition holds and the
engine holds no post of its queue (R118, R179). -/
def Hall.nextMat (H : Hall) : Option MatCmd :=
  if H.blocked .matrix then none
  else match H.mq.find? fun c => c.started.isNone with
    | some c => if H.canStart c && !H.leaving c.slice then some c else none
    | none => none

/-- The least number of Hall cycles that a command takes (R182, R184, R189 to R191); a memory access adds its arrival. -/
def matCycles : Instr → Nat
  | .mwLoad fmt image _ _ _ => if image then 16 * fmtBytes fmt else 128
  | .mwLoads fmt n _ _ => (128 * packing n * (16 + sparseN n * fmtBytes fmt) + 1023) / 1024
  | .mwClr _ => 1
  | .maccRd _ _ n _ => rowsN n + 2
  | .maccWr _ _ n _ => rowsN n + 2
  | .maccCvt _ _ _ n _ _ => rowsN n + 8
  | .maccZero _ n => rowsN n
  | .maccSpill _ n _ _ _ => rowsN n
  | .maccFill _ n _ _ _ => rowsN n
  | _ => 0

/-- Change the queued command with a number. -/
def Hall.onMat (H : Hall) (id : Nat) (f : MatCmd → MatCmd) : Hall := { H with mq := H.mq.map fun c => if c.id = id then f c else c }

/-- A matrix command starts. -/
def State.startMat (s : State) (h : HallId) (c : MatCmd) : State :=
  let (d, s) := s.drawDelay
  let more := if c.pages.isEmpty then 0 else d
  let k := Clock.join c.clock (s.hall h).mxClock
  s.onHall h fun H => (H.learn .matrix k).onMat c.id fun x =>
    { x with started := some H.cycle, run := H.runOf c, endsAt := H.cycle + matCycles c.op + more, clock := k }

/-! Data faults (R181). -/

/-- A command leaves the queue. -/
def Hall.dropMat (H : Hall) (id : Nat) : Hall :=
  let c := match H.mq.find? fun c => c.id == id with | some c => c.clock | none => []
  ({ H with mq := H.mq.filter fun c => c.id != id }).tellMarkers .matrix id c

/-- Flags of a command go to the M strand of its slice (R84). -/
def State.chargeMat (s : State) (h : HallId) (c : MatCmd) (f : BitVec 6) : State :=
  match (s.hall h).slice with
  | some sl => if sl.id = c.slice then s.onStrand h .M fun x => x.setFlags f else s
  | none => s

/-- Events counted by a command of the slice that runs (R84, R91). -/
def State.countMat (s : State) (h : HallId) (c : MatCmd) (cls : NClass) (n : Nat) : State :=
  match (s.hall h).slice with
  | some sl => if sl.id = c.slice then s.countOn h cls c.tid n else s
  | none => s

/-- What a pass has flagged and counted is charged: when the command completes, or stops (R84, R91). -/
def State.chargePass (s : State) (h : HallId) (c : MatCmd) : State :=
  ((s.chargeMat h c c.flags).countMat h c .FTZ c.ftz).countMat h c .NAN c.nan

/-- An accumulator row as it stands. -/
def Hall.rowOf (H : Hall) (r : Nat) : KeptRow :=
  { r := r, tag := sget H.accTag r, slots := (List.range 128).map fun j => (j, H.accEntry r j) }

/-- An accumulator row is put back. -/
def Hall.putRow (H : Hall) (k : KeptRow) : Hall :=
  { H with acc := ssetAll H.acc (k.slots.map fun e => (128 * k.r + e.1, e.2)), accTag := sset H.accTag k.r k.tag }

/-- The event of a discarded command that has been posted already is taken back, unless a take has had it (R181, log 26). -/
def Hall.unpost (H : Hall) (c : MatCmd) : Hall :=
  match (if c.posted then eventOf c.op else none) with
  | none => H
  | some ev =>
    let mine := fun (p : Post) => p.queue == some .matrix && p.cmd == c.id
    if H.posts.any mine then { H with posts := H.posts.filter fun p => !mine p }
    else
      let v := H.work.ev ev
      { H with work := { H.work with evs := H.work.evs.setIfInBounds ev { v with count := v.count - 1 } } }

/-- A command that an earlier command's failure discards takes no effect (R181): the rows that it has written are put back, and the stream
blocks that it has popped, which are then prefetched again; EXH is as it was, and its event is not posted. -/
def Hall.undoMat (H : Hall) (c : MatCmd) : Hall :=
  let H := (c.undo.reverse.foldl Hall.putRow H).unpost c
  match c.op with
  | .mmaS f =>
    let x := H.work.stream f.src.toNat
    let x := { x with exh := x.exh && !c.exhSet }
    let x := if c.pops = 0 then x else { x with cursor := x.cursor - c.pops, buf := [] }
    { H with work := H.work.setStream f.src.toNat x }
  | _ => H

/-- A command meets a data fault: it stops, every later command of the queue is discarded, and the fault is raised at the
next M syllable, or is a detected error of its region (R181, R338). An operands-consumed post of a later command that a take has had stands (DESIGN
CHOICE, log 26). -/
def State.failMat (s : State) (h : HallId) (c : MatCmd) (code : Nat) (t : TrapInfo) : State :=
  let s := s.chargePass h c
  let later := (s.hall h).mq.filter fun x => c.id < x.id
  let s := s.onHall h fun H =>
    let H := later.reverse.foldl Hall.undoMat H
    let H := { H with mq := H.mq.filter (fun x => x.id < c.id), mErr := code, mDisc := min 15 later.length }
    let H := match fillOf c.op with
      | some (b, _) => { H with work := { H.work with banks := H.work.banks.setIfInBounds (bankIdx b) .none } }
      | none => H
    H.reissued
  let s := (c :: later).foldl (fun s x => s.dropFar h .matrix x.id) s
  let mine := match (s.hall c.poster).slice with | some sl => sl.id == c.slice | none => false
  if !mine then s
  else if c.depth ≠ 0 ∧ (code = 1 ∨ code = 2) then s.detect c.poster c.depth code .M c.pc false
  else s.onHall c.poster fun H => { H with mFault := some (H.mFault.getD t) }

/-- The command at the head starts, or fails at once for want of a translation (R181). -/
def State.startOrFail (s : State) (h : HallId) (c : MatCmd) : State :=
  match c.lost with
  | none => s.startMat h c
  | some t => s.failMat h c 3 t

/-- MATRIX_COMMAND_START (R179). -/
def execMatrixCommandStart (h : HallId) (s : State) : Out :=
  .next (match (s.hall h).nextMat with | some c => s.startOrFail h c | none => s)

/-- The trap information of a code met in memory (R181). -/
def matFaultInfo (c : MatCmd) (code : Nat) : TrapInfo :=
  { cause := if code = 4 then .EXPIRED else .INTEGRITY, access := .engine, width := 4, detail := code, addr := c.value }

/-- As it is raised for an image: the fault that another module has answered, at its byte, or that of this module's memory (R181, R414). -/
def State.imageFault (s : State) (h : HallId) (c : MatCmd) (code : Nat) : TrapInfo :=
  match s.farWhy h .matrix c.id c.pages with
  | some (p, t) => { t with access := .engine, width := 4, addr := c.value + BitVec.ofNat 64 (c.pages.takeWhile (· != p)).length }
  | none => matFaultInfo c code

/-! Feeding the array (R186, R187, R150). -/

/-- What a row of activations is: not there yet, a fault of its block, or its 128 elements. -/
inductive ActRow where
  | wait
  | fault (code : Nat) (t : TrapInfo)
  | row (els : List Nat)
  deriving DecidableEq, Repr

/-- An element of a block of bytes. -/
def blockElem (n : Nat) (bs : Bytes) (i : Nat) : Nat := leNat ((bs.drop (n * i)).take n)

/-- The next pop of a stream (R150). -/
def State.popStream (s : State) (h : HallId) (q : Nat) (fmt : MFmt) : ActRow × State :=
  let x := (s.hall h).work.stream q
  let put := fun (y : Stream) => s.onHall h (Hall.onWork · fun W => W.setStream q y)
  let zeros := List.replicate 128 0
  if !x.bound ∨ streamBlocks x.desc ≤ x.cursor then (.row zeros, put { x with exh := true })
  else match x.buf with
    | [] => (.wait, s)
    | b :: rest =>
      match b.fault with
      | some (code, t) => (.fault code t, put { x with cursor := x.cursor + 1, buf := rest })
      | none => (.row ((List.range 128).map (blockElem (fmtBytes fmt) b.bytes)), put { x with cursor := x.cursor + 1, buf := rest })

/-- Activation row i of a command (R186). -/
def State.actRow (s : State) (h : HallId) (c : MatCmd) (i : Nat) : ActRow × State :=
  match c.op with
  | .mma f =>
    let W := (s.hall h).work
    let t := f.src.toNat + i / 16
    let w := 8 * fmtBytes c.fmt
    (.row ((List.range 128).map fun kk => if W.active t f.k.toNat (i % 16) kk then W.elem t w (i % 16) kk else 0), s)
  | .mmaS f => s.popStream h f.src.toNat c.fmt
  | _ => (.wait, s)

/-- The sums of one accumulator row: the 128 logical columns from 128 m on (R83, R85, R186). -/
def passRow (W : Work) (bank : Nat) (wf af : MFmt) (m : Nat) (a : List Nat) : List AccCol :=
  (List.range 128).map fun j =>
    let w := (List.range 128).map fun k => (W.weight bank k (128 * m + j)).toNat
    if fmtFloat wf then
      let r := floatSum af wf a w
      { bits := BitVec.ofNat 64 r.1.bits, flags := r.1.flags, nan := r.2 }
    else { bits := (rn8Sum a w).toEntry, flags := 0, nan := false }

/-- The row fed into the array in this Hall cycle. -/
def State.feedRow (s : State) (h : HallId) (c : MatCmd) (f : MmaF) : State :=
  let old := s.hall h
  match s.actRow h c c.fed with
  | (.wait, s) => s
  | (.fault code t, s) => s.failMat h c code t
  | (.row els, s) =>
    let H := s.hall h
    let b := H.work.bank f.bank
    let wf := b.fmt.getD .BF16
    let g := packing b.sparse
    let ftz := if fmtFloat wf then (els.filter (isFlushed c.fmt)).length else 0
    let pop := match c.op with | .mmaS g => (let x := old.work.stream g.src.toNat; if x.bound && x.cursor < streamBlocks x.desc then 1 else 0) | _ => 0
    let exh := match c.op with | .mmaS g => !(old.work.stream g.src.toNat).exh && (H.work.stream g.src.toNat).exh | _ => false
    let els := if fmtFloat wf then els.map (flushed c.fmt) else els
    let rows : List AccWrite := (List.range g).map fun m =>
      { due := H.cycle + 140, row := f.arow.toNat + g * c.fed + m, cols := passRow H.work (bankIdx f.bank) wf c.fmt m els }
    s.onHall h fun H =>
      { (H.onMat c.id fun x => { x with fed := x.fed + 1, lastFed := H.cycle, rows := x.rows ++ rows, ftz := x.ftz + ftz, pops := x.pops + pop, exhSet := x.exhSet || exh }) with
        arrayFree := if c.fed + 1 = rowsN f.n then H.cycle + 1 else H.arrayFree
        busyRows := if c.fed ≠ 0 ∧ c.lastFed = H.cycle then H.busyRows else H.busyRows + 1 }

/-- Rows that the array takes of a command in one Hall cycle (R187). -/
def feedsPerCycle (fmt : MFmt) : Nat := if fmtFloat fmt then 1 else 2

/-- Rows of a command fed in the present Hall cycle. -/
def Hall.fedNow (H : Hall) (c : MatCmd) : Nat :=
  if c.fed ≠ 0 ∧ c.lastFed = H.cycle then (if fmtFloat c.fmt then 1 else (if c.fed % 2 = 0 then 2 else 1)) else 0

/-- The command whose next row the array takes now: none while it holds for a block of a stream (R30). -/
def Hall.feedDue (H : Hall) : Option (MatCmd × MmaF) :=
  match H.feeding with
  | none => none
  | some c =>
    match mmaOf c.op with
    | none => none
    | some f =>
      let ready := match c.op with
        | .mmaS g =>
          let x := H.work.stream g.src.toNat
          !x.bound || streamBlocks x.desc ≤ x.cursor || !x.buf.isEmpty
        | _ => true
      if H.fedNow c < feedsPerCycle c.fmt && ready && !H.heldUp .matrix c.id then some (c, f) else none

/-- MMA_ROW_FEED (R187). -/
def execMmaRowFeed (h : HallId) (s : State) : Out :=
  .next (match (s.hall h).feedDue with | some (c, f) => s.feedRow h c f | none => s)

/-- The command whose operands have been consumed and whose event has not been posted (R187). -/
def Hall.consumed (H : Hall) : Option MatCmd :=
  H.mq.find? fun c => match mmaOf c.op with | some f => c.fed == rowsN f.n && !c.posted && !H.heldUp .matrix c.id | none => false

/-- OPERANDS_CONSUMED (R187, R118). -/
def execOperandsConsumed (h : HallId) (s : State) : Out :=
  .next (match (s.hall h).consumed with
    | some c =>
      let s := s.onHall h fun H => H.onMat c.id fun x => { x with posted := true }
      match eventOf c.op with | some ev => s.enginePost h none ev (some .matrix) c.id c.clock | none => s
    | none => s)

/-! Results (R83, R84, R187). -/

/-- The row write that is due: the oldest whose Hall cycle has ended. -/
def Hall.writeDue (H : Hall) : Option (MatCmd × AccWrite) :=
  H.mq.findSome? fun c => if H.heldUp .matrix c.id then none else (c.rows.find? fun r => r.due < H.cycle).map fun r => (c, r)

/-- One entry of a row: what the pass makes of it. -/
def joinEntry (c : MatCmd) (f : MmaF) (isFloat : Bool) (x : AccCol) (old : BitVec 64) : NumRes :=
  if isFloat then floatJoin f.ctl (c.value.toNat % 2 ^ 32) { bits := x.bits.toNat, flags := x.flags, gen := false } x.nan (old.toNat % 2 ^ 32)
  else match f.ctl with
    | .OW => .plain x.bits.toNat
    | .ACC => .plain ((Residues.ofEntry old).add (Residues.ofEntry x.bits)).toEntry.toNat
    | .SCL => .plain x.bits.toNat

/-- A command that may meet a data fault when it is performed (R181). -/
def mayFail (c : MatCmd) : Bool := (imageOf c.op).isSome || c.lost.isSome || (match c.op with | .mmaS _ => true | _ => false)

/-- An accumulator row is written and tagged (R31, R186); the command is performed with its last row. -/
def State.writeRow (s : State) (h : HallId) (c : MatCmd) (f : MmaF) (r : AccWrite) : State :=
  let H := s.hall h
  let rs := r.cols.mapIdx fun j x => (j, joinEntry c f (fmtFloat c.fmt) x (H.accEntry r.row j))
  let fl := rs.foldl (fun a e => a ||| e.2.flags) 0
  let nan := (rs.filter fun e => e.2.gen).length
  let old := if (H.aheadOf c).any mayFail then [H.rowOf r.row] else []
  let s := s.onHall h fun H =>
    { (H.onMat c.id fun x => { x with rows := x.rows.drop 1, flags := x.flags ||| fl, nan := x.nan + nan, undo := x.undo ++ old }) with
      acc := ssetAll H.acc (rs.map fun e => (128 * r.row + e.1, BitVec.ofNat 64 e.2.bits))
      accTag := sset H.accTag r.row (BitVec.ofNat 13 (c.asid.toNat + 1)) }
  if c.fed = rowsN f.n ∧ c.rows.length ≤ 1 then
    (s.chargePass h { c with flags := c.flags ||| fl, nan := c.nan + nan }).onHall h (·.dropMat c.id)
  else s

/-- MMA_RESULT_WRITE (R187). -/
def execMmaResultWrite (h : HallId) (s : State) : Out :=
  .next (match (s.hall h).writeDue with
    | some (c, r) => (match mmaOf c.op with | some f => s.writeRow h c f r | none => s)
    | none => s)

/-! Fills (R182 to R184). -/

/-- The weights of a bank are replaced. -/
def Work.setBank (W : Work) (b : Nat) (ws : List (Nat × BitVec 16)) (k : Bank) : Work :=
  { W with
    weights := ssetAll (sfilter (fun i => i / 65536 != b) W.weights) ws
    banks := W.banks.setIfInBounds b k }

/-- One depth row of a fill from tiles (R182). -/
def tileDepth (W : Work) (fmt : MFmt) (src b k : Nat) : List (Nat × BitVec 16) :=
  let w := 8 * fmtBytes fmt
  (List.range 128).map fun j => ((128 * b + k) * 512 + j, BitVec.ofNat 16 (flushed fmt (W.elem (src + k / 16) w (k % 16) j)))

/-- BF16 subnormals among the elements of a depth row (R76). -/
def tileFlushes (W : Work) (fmt : MFmt) (src k : Nat) : Nat :=
  ((List.range 128).filter fun j => isFlushed fmt (W.elem (src + k / 16) (8 * fmtBytes fmt) (k % 16) j)).length

/-- The fill from tiles reads the depth row of this fill cycle (R182). The bank takes its weights when the fill completes, so that a fill which
is discarded leaves it as it was (R181). -/
def State.fillStep (s : State) (h : HallId) : State :=
  match (s.hall h).filling with
  | some c =>
    match c.op, c.started with
    | .mwLoad fmt false bank src _, some t =>
      let H := s.hall h
      let k := c.fed
      if k < 128 ∧ H.cycle = t + k then
        let b := bankIdx bank
        let fl := if fmtFloat fmt then tileFlushes H.work fmt src.toNat k else 0
        let ws := tileDepth H.work fmt src.toNat b k
        s.onHall h (·.onMat c.id fun x => { x with fed := k + 1, ftz := x.ftz + fl, staged := x.staged ++ ws })
      else s
    | _, _ => s
  | none => s

/-- The lowest n set bits of a mask of 128, ascending. -/
def setBits (m n : Nat) : List Nat := ((List.range 128).filter fun k => m / 2 ^ k % 2 == 1).take n

/-- The weights of an image: dense (R182) or N-of-128 (R183), as (depth, column, pattern). -/
def imageWeights (op : Instr) (bs : Bytes) : List (Nat × Nat × Nat) :=
  match op with
  | .mwLoad fmt _ _ _ _ =>
    (List.range 128).flatMap fun k => (List.range 128).map fun j => (k, j, blockElem (fmtBytes fmt) bs (128 * k + j))
  | .mwLoads fmt n _ _ =>
    let b := fmtBytes fmt
    (List.range (128 * packing n)).flatMap fun j =>
      let o := j * (16 + sparseN n * b)
      (setBits (leNat ((bs.drop o).take 16)) (sparseN n)).mapIdx fun i k => (k, j, blockElem b (bs.drop (o + 16)) i)
  | _ => []

/-- The fill that completes: its last Hall cycle has ended. -/
def Hall.fillDue (H : Hall) : Option MatCmd :=
  match H.filling with
  | some c => if c.endsAt ≤ H.cycle && !H.heldUp .matrix c.id then some c else none
  | none => none

/-- A fill completes: the bank has its weights and its format (R182 to R184); flushes are counted (R76). -/
def State.completeFill (s : State) (h : HallId) (c : MatCmd) : State :=
  match fillOf c.op with
  | none => s
  | some (bank, k) =>
    let b := bankIdx bank
    let leave := fun (s : State) => (s.dropFar h .matrix c.id).onHall h (·.dropMat c.id)
    match c.op with
    | .mwClr _ => leave (s.onHall h (Hall.onWork · fun W => W.setBank b [] .none))
    | .mwLoad _ false _ _ _ =>
      leave ((s.countMat h c .FTZ c.ftz).onHall h (Hall.onWork · fun W => W.setBank b c.staged k))
    | _ =>
      let why := s.imageFault h c
      match s.engineRead h .matrix c.id c.asid c.part (s.engineReader h .matrix c.part c.floor) c.pages with
      | (.wait, s) => s
      | (.bad code, s) => s.failMat h c code (why code)
      | (.ok bs, s) =>
        let fmt := (k.fmt).getD .BF16
        let ws := imageWeights c.op bs
        let s := s.countMat h c .FTZ (ws.filter fun e => isFlushed fmt e.2.2).length
        leave (s.onHall h (Hall.onWork · fun W =>
          W.setBank b (ws.map fun e => ((128 * b + e.1) * 512 + e.2.1, BitVec.ofNat 16 (flushed fmt e.2.2))) k))

/-- WEIGHT_FILL_COMPLETE (R182 to R184). -/
def execWeightFillComplete (h : HallId) (s : State) : Out :=
  .next (match (s.hall h).fillDue with | some c => s.completeFill h c | none => s)

/-! Accumulator moves (R189 to R192). -/

/-- The tile element that holds a word of an entry: entry j, word w of row i (R189). -/
def accPlace (src i j w : Nat) : Nat × Nat × Nat := (src + j / 32, i, 2 * (j % 32) + w)

/-- MACC.RD's tile writes. -/
def rdCells (H : Hall) (arow src n k : Nat) : List (Nat × Byte) :=
  (List.range n).flatMap fun i => (List.range 128).flatMap fun j => [0, 1].flatMap fun w =>
    let (u, r, c) := accPlace src i j w
    if H.work.active u k r c then elemCells u 32 r c ((H.accEntry (arow + i) j).toNat / 2 ^ (32 * w) % 2 ^ 32) else []

/-- MACC.WR's entries. -/
def wrEntries (H : Hall) (arow src n k : Nat) : List (Nat × BitVec 64) :=
  (List.range n).flatMap fun i => (List.range 128).filterMap fun j =>
    let (u, r, c) := accPlace src i j 0
    if H.work.active u k r c then
      some (128 * (arow + i) + j, BitVec.ofNat 64 (H.work.elem u 32 r c + 2 ^ 32 * H.work.elem u 32 r (c + 1)))
    else none

/-- MACC.CVT's results. -/
def cvtCells (H : Hall) (toF32 : Bool) (e : Word) (arow src n k : Nat) : List ((Nat × Nat × Nat) × NumRes) :=
  (List.range n).flatMap fun i => (List.range 128).filterMap fun j =>
    let u := src + j / 64
    if H.work.active u k i (j % 64) then
      some ((u, i, j % 64), if toF32 then cvtF32 (H.accEntry (arow + i) j) e else cvtI32 (H.accEntry (arow + i) j))
    else none

/-- Rows take a context's tag, or none (0). -/
def Hall.tagRows (H : Hall) (arow n tag : Nat) : Hall :=
  { H with accTag := ssetAll H.accTag ((runFrom arow n).map fun r => (r, BitVec.ofNat 13 tag)) }

/-- The bytes of accumulator rows in the layout of MACC.SPILL (R191). -/
def accBytes (H : Hall) (arow n : Nat) : Bytes :=
  (List.range n).flatMap fun i => (List.range 128).flatMap fun j => leBytes 8 (H.accEntry (arow + i) j).toNat

/-- Accumulator entries from the layout of MACC.SPILL. -/
def accOfBytes (arow n : Nat) (bs : Bytes) : List (Nat × BitVec 64) :=
  (List.range (128 * n)).map fun i => (128 * arow + i, BitVec.ofNat 64 (blockElem 8 bs i))

/-- The row groups that a list of addresses covers whole. -/
def groupsCovered (ps : List Nat) : List Nat :=
  (dedup (ps.filterMap rowGroupOf)).filter fun g => 4096 ≤ (dedup (ps.filter fun p => rowGroupOf p == some g)).length

/-- The slots of a save area that a spill has filled. -/
def Saved.filled (v : Saved) (c : MatCmd) (arow n : Nat) : List Nat :=
  if v.slice.part = c.part then
    (runFrom arow n).filter fun r =>
      v.rows.contains r && !v.present.contains r && v.area.toNat + v.accAt + 64 + 1024 * r == c.value.toNat + 1024 * (r - arow)
  else []

/-- Slots of save areas that a spill has filled are present: their presence bits are set (R322). -/
def State.markPresent (s : State) (c : MatCmd) (arow n : Nat) : State :=
  let hit := s.saved.filter fun v => !(v.filled c arow n).isEmpty
  let mark := fun (s : State) (v : Saved) =>
    let ps := v.present ++ v.filled c arow n
    let put := fun (x : Saved) => if x.slice.id = v.slice.id then { x with present := ps } else x
    let s := { s with saved := s.saved.map put }
    match s.superWho v.slice.part with
    | some u => s.superWrite u (v.area.toNat + v.accAt) (presence ps)
    | none => s
  hit.foldl mark s

/-- MACC.SPILL is performed with its last row (R191, R192): its writes are published at device scope, and its event is posted. The queue that
performed it holds a post that does not fit (R118); the event is one of the Hall on which the slice that issued it runs. -/
def State.endSpill (s : State) (h : HallId) (c : MatCmd) (arow n : Nat) : State :=
  let (k, s) := s.nextPub
  let know := c.clock.up (.engine h .matrix) k
  let s := s.releaseVersions c.versions k know
  let s := if c.super then s.onHall h (·.tagRows arow n 0) else s
  let s := (s.markPresent c arow n).onHall h fun H => (H.dropMat c.id).learn .matrix know
  match eventOf c.op with
  | some ev =>
    let home := s.homeOf c.poster c.slice
    s.enginePost h (if home = h then none else some home) ev (some .matrix) c.id know
  | none => s

/-- One row of a MACC.SPILL is written (R191): a row group is covered when its last byte is; a row that reaches an invalid row group which the
spill does not cover whole stops it there. -/
def State.spillRow (s : State) (h : HallId) (c : MatCmd) (arow n : Nat) : State :=
  let i := c.fed
  let whole := groupsCovered c.pages
  let ps := (c.pages.drop (1024 * i)).take 1024
  let stop := s.invalidAt whole.contains ps
  let cs := ps.zip (accBytes (s.hall h) (arow + i) 1)
  let good := match stop with
    | some a => cs.takeWhile fun x => x.1 != a
    | none => cs
  let w : Writer := { agent := .engine h .matrix, hall := h, asid := c.asid, part := c.part, scope := .device, pub := none,
                      num := c.id, rmw := false, rel := false, clock := c.clock, host := false }
  let v0 := s.vers
  let s := s.engineWrite w good
  let made := runFrom (v0 + 1) (s.vers - v0)
  let before := groupsCovered (c.pages.take (1024 * i))
  let now := groupsCovered (c.pages.take (1024 * i + good.length))
  let s := (now.filter fun g => !before.contains g).foldl (fun s g => s.coverRowGroup g c.asid) s
  match stop with
  | some a =>
    let addr := c.value + BitVec.ofNat 64 (1024 * i + (ps.takeWhile (· != a)).length)
    s.failMat h c 4 { matFaultInfo c 4 with addr := addr }
  | none =>
    let c := { c with fed := i + 1, versions := c.versions ++ made, lastFed := (s.hall h).cycle }
    let s := s.onHall h (·.onMat c.id fun _ => c)
    if i + 1 = n then s.endSpill h c arow n else s

/-- The MACC.SPILL that writes its next row now: one row in a Hall cycle, the last in the command's last cycle (R191). A spill waits for the
commands ahead of it that may still fail, since it is to take no effect if one does (R181, log 26). -/
def Hall.spillDue (H : Hall) : Option (MatCmd × Nat × Nat) :=
  H.mq.findSome? fun c =>
    match c.op with
    | .maccSpill arow n _ _ _ =>
      if H.phase == .engines && c.started.isSome && c.endsAt + c.fed ≤ H.cycle + rowsN n && (c.fed == 0 || c.lastFed < H.cycle) && !(H.aheadOf c).any mayFail &&
          !H.heldUp .matrix c.id
      then some (c, arow.toNat, rowsN n) else none
    | _ => none

/-- The row of a spill that is due is written. -/
def State.spillStep (s : State) (h : HallId) : State :=
  match (s.hall h).spillDue with
  | some (c, arow, n) => s.spillRow h c arow n
  | none => s

/-- An accumulator command, other than MACC.SPILL, whose last Hall cycle has ended. MACC.FILL is performed in that cycle, at whose end it posts
its event. -/
def Hall.maccDue (H : Hall) : Option MatCmd :=
  H.mq.find? fun c => c.started.isSome && (mmaOf c.op).isNone && (fillOf c.op).isNone && !H.heldUp .matrix c.id &&
    (match c.op with
    | .maccSpill .. => false
    | .maccFill .. => c.endsAt ≤ H.cycle + 1 && H.phase == .engines
    | _ => c.endsAt ≤ H.cycle)

/-- An accumulator command is performed (R189, R190, R192). MACC.CVT writes tile elements of 32 bits and leaves the accumulator unchanged, as
R190 says; what R81 says of bits 63:32 is of an accumulator entry (log 27). -/
def State.completeMacc (s : State) (h : HallId) (c : MatCmd) : State :=
  let leave := fun (s : State) => (s.dropFar h .matrix c.id).onHall h (·.dropMat c.id)
  let tag := c.asid.toNat + 1
  match c.op with
  | .maccRd arow src n k =>
    let cells := rdCells (s.hall h) arow.toNat src.toNat (rowsN n) k.toNat
    leave (s.onHall h (Hall.onWork · fun W => W.put (.tile cells)))
  | .maccWr arow src n k => leave (s.onHall h fun H =>
      ({ H with acc := ssetAll H.acc (wrEntries H arow.toNat src.toNat (rowsN n) k.toNat) }).tagRows arow.toNat (rowsN n) tag)
  | .maccCvt toF32 arow src n _ k =>
    let rs := cvtCells (s.hall h) toF32 c.value arow.toNat src.toNat (rowsN n) k.toNat
    let cells := rs.flatMap fun e => elemCells e.1.1 32 e.1.2.1 e.1.2.2 e.2.bits
    let s := s.onHall h (Hall.onWork · fun W => W.put (.tile cells))
    let s := s.countMat h c .SAT (rs.filter fun e => e.2.flags &&& flSAT != 0).length
    leave (s.chargeMat h c (rs.foldl (fun f e => f ||| e.2.flags) 0))
  | .maccZero arow n => leave (s.onHall h fun H =>
      ({ H with acc := sfilter (fun i => !(arow.toNat ≤ i / 128 && i / 128 < arow.toNat + rowsN n)) H.acc }).tagRows arow.toNat (rowsN n) tag)
  | .maccFill arow n _ _ _ =>
    let why := s.imageFault h c
    match s.engineRead h .matrix c.id c.asid c.part (s.engineReader h .matrix c.part c.floor) c.pages with
    | (.wait, s) => s
    | (.bad code, s) => s.failMat h c code (why code)
    | (.ok bs, s) =>
      let s := leave (s.onHall h fun H =>
        ({ H with acc := ssetAll H.acc (accOfBytes arow.toNat (rowsN n) bs) }).tagRows arow.toNat (rowsN n) tag)
      match eventOf c.op with | some ev => s.enginePost h none ev (some .matrix) c.id c.clock | none => s
  | _ => s

/-- MACC_COMPLETE (R189 to R192): a row of a spill that is due, the last of which completes it, or another accumulator command. -/
def execMaccComplete (h : HallId) (s : State) : Out :=
  .next (if (s.hall h).spillDue.isSome then s.spillStep h
    else match (s.hall h).maccDue with | some c => s.completeMacc h c | none => s)

/-! Status (R193). -/

/-- The array takes an activation row in this Hall cycle, or waits for one. -/
def Hall.arrayTakes (H : Hall) : Bool :=
  H.feeding.isSome || H.mq.any fun c => (mmaOf c.op).isSome && c.fed != 0 && c.lastFed == H.cycle

/-- The code of a bank's format in MSTAT. -/
def bankCode (b : Bank) : Nat := match b.fmt with | none => 0 | some .BF16 => 1 | some .FP16 => 2 | some .RN8 => 3
/-- The code of a bank's packing in MSTAT. -/
def packCode (b : Bank) : Nat := match b.sparse with | .N128 => 0 | .N64 => 1 | .N32 => 2 | .N16 => 3

/-- MSTAT (R193): reading clears ERR and DISC. -/
def execMstat (d : BitVec 6) (s : State) : Out :=
  let H := s.here
  let b0 := H.work.bank false
  let b1 := H.work.bank true
  let v := min 16 H.mq.length + 32 * H.arrayTakes.toNat + 64 * H.filling.isSome.toNat + 2 ^ 8 * bankCode b0 + 2 ^ 10 * bankCode b1 +
    2 ^ 12 * packCode b0 + 2 ^ 14 * packCode b1 + 2 ^ 16 * (H.mErr % 256) + 2 ^ 24 * H.mDisc
  .next ((s.result 2 [.sreg d.toNat (BitVec.ofNat 64 v)]).onHere fun H => { H with mErr := 0, mDisc := 0 }).issue

end Sys2Proof.Machine
end

