-- ==== Sys2Proof/Machine/Copy.lean ====
section
/-! DEFINITION. The copy engine (R194 to R204): the copy syllables, and the performance of a copy command. -/

namespace Sys2Proof.Machine

/-! Operands (R194 to R196). -/

/-- Bytes that a command writes in all. -/
def copyTotal (k : CopyKind) (x : Word) : Nat :=
  match k with
  | .CP2D => 64 * (x.toNat % 2 ^ 16) * (x.toNat / 2 ^ 16 % 2 ^ 16)
  | .CP => x.toNat % 2 ^ 48
  | .MM => x.toNat % 2 ^ 48
  | .FILL => x.toNat % 2 ^ 48

/-- A signed stride of CP.2D in bytes. -/
def stride (x : Word) (at_ : Nat) : Word := (x.extractLsb' at_ 16).signExtend 64 * 64

/-- Source and destination addresses of the byte at offset t of the destination sequence (R196, R197). -/
def copyPlace (k : CopyKind) (src dst x : Word) (t : Nat) : Word × Word :=
  match k with
  | .CP2D =>
    let len := 64 * (x.toNat % 2 ^ 16)
    let r := BitVec.ofNat 64 (t / len)
    let o := BitVec.ofNat 64 (t % len)
    (src + stride x 32 * r + o, dst + stride x 48 * r + o)
  | .CP => (src + BitVec.ofNat 64 t, dst + BitVec.ofNat 64 t)
  | .MM => (src + BitVec.ofNat 64 t, dst + BitVec.ofNat 64 t)
  | .FILL => (0, dst + BitVec.ofNat 64 t)

/-- The 64 bytes at an address are destination bytes of offset `from_` or later. -/
def destHas (k : CopyKind) (dst x : Word) (from_ : Nat) (a : Word) : Bool :=
  match k with
  | .CP2D =>
    let len := 64 * (x.toNat % 2 ^ 16)
    (List.range (x.toNat / 2 ^ 16 % 2 ^ 16)).any fun r =>
      let d := (a - dst - stride x 48 * BitVec.ofNat 64 r).toNat
      d + 64 ≤ len && from_ ≤ r * len + d
  | .CP => (a - dst).toNat + 64 ≤ copyTotal k x && from_ ≤ (a - dst).toNat
  | .MM => (a - dst).toNat + 64 ≤ copyTotal k x && from_ ≤ (a - dst).toNat
  | .FILL => (a - dst).toNat + 64 ≤ copyTotal k x && from_ ≤ (a - dst).toNat

/-- Values that must be multiples of 64 (R195): a pattern is no source, a shape no length. -/
def copyAligned (k : CopyKind) (src dst x : Word) : List Word :=
  match k with
  | .CP => [src, dst, x &&& 0xFFFFFFFFFFFF]
  | .MM => [src, dst, x &&& 0xFFFFFFFFFFFF]
  | .CP2D => [src, dst]
  | .FILL => [dst, x &&& 0xFFFFFFFFFFFF]

/-- A follow-on that CP.MM may name (R201), with the scalar register that it reads. -/
def followOn (w : Word) : Option (Instr × Nat) :=
  if w.extractLsb' 52 12 != 0 || !strandAccepts w .M then none
  else match decode w with
    | .error _ => none
    | .ok (_, i) =>
      match i with
      | .mwLoad _ true _ _ sreg => some (i, sreg.toNat)
      | .mwLoads _ _ _ sreg => some (i, sreg.toNat)
      | .maccFill _ _ sreg _ _ => some (i, sreg.toNat)
      | _ => none

/-! Issue (R195). -/

/-- The values with which a copy command enters a queue. -/
structure CopyArgs where
  kind : CopyKind
  resume : Bool
  src : Word
  dst : Word
  x : Word
  cw : Option Word
  q : QCtl
  follow : Option (Word × Word)

/-- The checks of R120 on the address of a completion word, if there is one: an 8-byte store (R195, R236). -/
def State.wordChecked (s : State) (cw : Option Word) (k : State → State) : State :=
  match cw with
  | none => k s
  | some a => s.withBytes (wantStore .D) 8 a 8 fun _ s => k s

/-- The checks of R195 and R201 exactly at the syllable at issue, those of R120 last (R391), then what follows. -/
def State.copyChecked (s : State) (c : CopyArgs) (k : State → State) : State :=
  match (copyAligned c.kind c.src c.dst c.x).find? fun v => v.toNat % 64 != 0 with
  | some v => s.trapHere { cause := .ALIGN, access := .engine, width := 4, addr := v }
  | none =>
    if (match c.follow with | some (w, _) => (followOn w).isNone | none => false) then s.trapCause .ILLEGAL
    else s.wordChecked c.cw k

/-- A command enters the copy queue of a Hall, in the issuer's context (R195, R224). -/
def State.enterCopy (s : State) (h : HallId) (c : CopyArgs) (issuer : Option Strand) (matchAt : Option Nat) (bad : Nat) : State :=
  let x := s.me
  let id := match s.here.slice with | some sl => sl.id | none => 0
  let cmd : CopyCmd :=
    { id := (s.hall h).cqNext, kind := c.kind, resume := c.resume, src := c.src, dst := c.dst, x := c.x, cw := c.cw, q := c.q,
      follow := c.follow, word := s.curWord, slice := id, asid := s.asid, part := s.partId, super := s.superMode,
      issuer := issuer, issuePc := x.pc, depth := s.depth, matchAt := matchAt, bad := bad, clock := s.known,
      floor := s.engineFloor h .copy c.q.scope, sent := issuer.isNone }
  s.onHall h fun H => { H with cq := H.cq ++ [cmd], cqNext := H.cqNext + 1 }

/-- A copy syllable (R194, R195, R197). -/
def State.copySyllable (s : State) (rd : List Src) (c : CopyArgs) : State :=
  s.readingWhen s.here.copyFull rd fun s => s.copyChecked c fun s =>
    if s.here.copyFull then s.freeze
    else
      let (m, bad, s) := s.underChecker
      (s.enterCopy s.curHall c (some s.curStrand) m bad).issue

/-- The completion-word address that field d names: d = 0 names none. -/
def State.cwOf (s : State) (d : BitVec 6) : Option Word := if d = 0 then none else some (s.rs d)

/-- The operands of a copy syllable of some kind. -/
def State.copyArgs (s : State) (k : CopyKind) (resume : Bool) (d a b x : BitVec 6) (c : QCtl) : CopyArgs :=
  let f := s.rs (d + 1)
  { kind := k, resume := resume, src := s.rs a, dst := s.rs b, x := s.rs x, cw := s.cwOf d, q := c,
    follow := if k = .MM then some (f, match followOn f with | some (_, r) => s.me.reg r | none => 0) else none }

/-- Registers that a copy syllable reads. -/
def State.copyReads (s : State) (k : CopyKind) (d a b x : BitVec 6) : List Src :=
  let own : List Src := [.s d.toNat, .s a.toNat, .s b.toNat, .s x.toNat]
  if k = .MM then own ++ [.s (d + 1).toNat] ++ (match followOn (s.rs (d + 1)) with | some (_, r) => [Src.s r] | none => []) else own

/-- CP (R194). -/
def execCp (d a b x : BitVec 6) (c : QCtl) (s : State) : Out :=
  .next (s.copySyllable (s.copyReads .CP d a b x) (s.copyArgs .CP false d a b x c))
/-- CP.2D (R194, R196). -/
def execCp2D (d a b x : BitVec 6) (c : QCtl) (s : State) : Out :=
  .next (s.copySyllable (s.copyReads .CP2D d a b x) (s.copyArgs .CP2D false d a b x c))
/-- CP.MM (R194, R201). -/
def execCpMm (d a b x : BitVec 6) (c : QCtl) (s : State) : Out :=
  .next (s.copySyllable (s.copyReads .MM d a b x) (s.copyArgs .MM false d a b x c))
/-- CP.FILL (R194). -/
def execCpFill (d a b x : BitVec 6) (c : QCtl) (s : State) : Out :=
  .next (s.copySyllable (s.copyReads .FILL d a b x) (s.copyArgs .FILL false d a b x c))
/-- CP.RESUME (R194, R199). -/
def execCpResume (kind : CopyKind) (d a b x : BitVec 6) (c : QCtl) (s : State) : Out :=
  .next (s.copySyllable (s.copyReads kind d a b x) (s.copyArgs kind true d a b x c))

/-- The word at an address is awaited in a landing slot (R202). -/
def State.cpWaitAt (s : State) (sc : Scope) (d : BitVec 6) (addr : Word) (land : BitVec 12) : State :=
  s.onPort 1 fun s =>
    s.withBytes (wantLoad .D) 8 addr 8 fun ps s => s.withSlot fun s => s.requestRead (.cpWait d.toNat sc) [.s d.toNat] land addr ps

/-- CP.WAIT (R202). -/
def execCpWait (sc : Scope) (d a : BitVec 6) (land : BitVec 12) (s : State) : Out :=
  .next (s.whenPort fun s => s.readingWhen s.slotsFull [.s a.toNat] fun s => s.cpWaitAt sc d (s.rs a) land)

/-! Performance. -/

/-- Who a command is for translation (R34, R224). -/
def State.copyWho (s : State) (h : HallId) (c : CopyCmd) : Who :=
  { hall := s.homeOf h c.slice, asid := c.asid, part := c.part, super := c.super, via := some h, slice := some c.slice }

/-- The writer that a command is. Its writes are no publication until it completes (R286). -/
def copyWriter (h : HallId) (c : CopyCmd) (pub : Option Nat) (clock : Clock) : Writer :=
  { agent := .engine h .copy, hall := h, asid := c.asid, part := c.part, scope := c.q.scope, pub := pub, num := c.id,
    rmw := false, rel := false, clock := clock, host := false }

/-- A stopped copy that a command continues: the same kind, operands and completion word (R199). -/
def CopyCmd.continues (c : CopyCmd) (p : StoppedCopy) : Bool :=
  c.cw.isSome && p.kind == c.kind && p.src == c.src && p.dst == c.dst && p.x == c.x && p.cw == c.cw && p.follow == c.follow

/-- The stopped copies of a slice. -/
def State.stoppedOf (s : State) (slice : Nat) : List StoppedCopy :=
  match s.findSlice slice with
  | some h => (match (s.hall h).slice with | some sl => sl.stoppedCopies | none => [])
  | none => []

/-- The copy in progress. -/
def State.onCopy (s : State) (h : HallId) (f : CopyRun → CopyRun) : State := s.onHall h fun H => { H with copy := H.copy.map f }

/-- The command fails: it makes no further write (R200). -/
def CopyRun.fail (r : CopyRun) (code : Nat) : CopyRun := { r with outcome := some (r.pos, code, 2) }

/-- A CP.RESUME reads its completion word (R199). None: not yet. -/
def State.resumeFrom (s : State) (h : HallId) (r : CopyRun) : Option CopyRun × State :=
  let c := r.cmd
  let u := s.copyWho h c
  match s.engineResolve u (s.bindsOf c.slice) { wantEngineRead with width := 3 } (runFrom (c.cw.getD 0).toNat 8) with
  | (.wait, s) => (none, s)
  | (.fault _, s) => (some (r.fail 3), s)
  | (.ok ps, s) =>
    match s.engineRead h .copy c.id c.asid c.part (s.engineReader h .copy c.part c.floor) ps with
    | (.wait, s) => (none, s)
    | (.bad code, s) => (some (r.fail code), s)
    | (.ok bs, s) =>
      let w := leNat bs
      let cur := w / 2 ^ 16
      let total := copyTotal c.kind c.x
      if w % 256 = 1 then (some { r with pos := total, outcome := some (cur, w / 256 % 256, 1) }, s)
      else if w % 256 = 0 then (some { r with outcome := some (cur, 7, 2) }, s)
      else
        let (_, s) := s.writeWord (copyWriter h c none c.clock) u (s.bindsOf c.slice) (c.cw.getD 0) (wordOf cur (w / 256) 0)
        let cov := match (s.stoppedOf c.slice).find? c.continues with | some p => p.cov | none => []
        (some { r with pos := min cur total, cov := cov }, s)

/-- COPY_COMMAND_START (R197, R199): the head of the queue starts once it has been matched and its event has been taken. A CP.RESUME without a
completion word, and so without a cursor to read, starts at 0 (DESIGN CHOICE, log 54). -/
def State.startCopy (s : State) (h : HallId) : State :=
  let H := s.hall h
  match H.copy, H.cq with
  | some _, _ => s
  | none, [] => s
  | none, c :: rest =>
    if c.matchAt.isSome || H.leaving c.slice then s
    else
      let take : Option (Stamp × State) := if c.q.we then s.engineTake h c.q.ev.toNat else some (.empty, s)
      match take with
      | none => s
      | some (t, s) =>
        let k := Clock.join (Clock.join c.clock t.clock) H.cpClock
        let c := { c with clock := k, floor := if c.q.we then s.takenFloor h .copy c.part t k c.floor else c.floor }
        let (d, s) := s.drawDelay
        let r : CopyRun := { cmd := c, pos := 0, cov := [], versions := [], stop := false, entered := false, asked := false,
                             nextAt := H.cycle + d, outcome := none }
        if c.bad ≠ 0 then s.onHall h fun H => { H with cq := rest, copy := some (r.fail c.bad) }
        else if c.resume && c.cw.isSome then
          match s.resumeFrom h r with
          | (some r, s) => s.onHall h fun H => { H with cq := rest, copy := some r }
          | (none, s) => s.onHall h fun H => { H with cq := { c with q := { c.q with we := false } } :: rest }
        else s.onHall h fun H => { H with cq := rest, copy := some r }

/-- COPY_COMMAND_START (R197). -/
def execCopyCommandStart (h : HallId) (s : State) : Out := .next (s.startCopy h)

/-- The pieces of a burst: offset and length, none crossing a 64-byte line of the sequence. -/
def burstPieces (pos total : Nat) : List (Nat × Nat) :=
  let e := min total ((pos / 256 + 1) * 256)
  ((List.range 4).map fun i => (max pos (pos / 256 * 256 + 64 * i), min e (pos / 256 * 256 + 64 * (i + 1)))).filterMap fun p =>
    if p.1 < p.2 then some (p.1, p.2 - p.1) else none

/-- A piece of a burst whose addresses have been translated. -/
structure Piece where
  at_ : Nat
  n : Nat
  va : Word
  src : List Nat
  dst : List Nat
  deriving DecidableEq, Repr

/-- The pieces of a burst, translated, none of them where any byte does not translate: the whole burst fails then (R431); none when the
engine waits. -/
def State.planBurst (s : State) (u : Who) (binds : List (BitVec 32 × BitVec 32)) (c : CopyCmd) :
    List (Nat × Nat) → Option (Option (List Piece)) × State
  | [] => (some (some []), s)
  | (t, n) :: rest =>
    let (sa, da) := copyPlace c.kind c.src c.dst c.x t
    match s.engineResolve u binds wantEngineWrite (runFrom da.toNat n) with
    | (.wait, s) => (none, s)
    | (.fault _, s) => (some none, s)
    | (.ok dst, s) =>
      let from_ : Found × State := if c.kind = .FILL then (.ok [], s) else s.engineResolve u binds wantEngineRead (runFrom sa.toNat n)
      match from_ with
      | (.wait, s) => (none, s)
      | (.fault _, s) => (some none, s)
      | (.ok src, s) =>
        match s.planBurst u binds c rest with
        | (none, s) => (none, s)
        | (some ps, s) => (some (ps.map fun ps => { at_ := t, n := n, va := da, src := src, dst := dst } :: ps), s)

/-- The command covers a whole row group with what it has written and what it has yet to write (R198). -/
def State.copyCovers (s : State) (u : Who) (binds : List (BitVec 32 × BitVec 32)) (r : CopyRun) (g : Nat) (va : Word) (pa : Nat) : Bool :=
  let c := r.cmd
  let base := galleryTop + 4096 * g
  let v0 := va - BitVec.ofNat 64 (pa - base)
  let done := sget r.cov g
  (List.range 64).all fun i =>
    let a := v0 + BitVec.ofNat 64 (64 * i)
    done.getLsbD i ||
      (destHas c.kind c.dst c.x r.pos a &&
        (match s.resolveDirect u binds wantEngineWrite a.toNat with | .ok p => p == base + 64 * i | .miss => false | .fault _ => false))

/-- What a burst has read so far: the pieces to write with their bytes, and the code at which it stopped. -/
structure Burst where
  out : List (Piece × Bytes)
  code : Nat

/-- A piece is read (R197, R204). -/
def State.readPiece (s : State) (h : HallId) (u : Who) (binds : List (BitVec 32 × BitVec 32)) (r : CopyRun) (acc : Burst) (p : Piece) : Burst × State :=
  let c := r.cmd
  if acc.code ≠ 0 then (acc, s)
  else
    let part := match s.invalidAt (fun _ => false) p.dst with
      | none => false
      | some a => (match rowGroupOf a with | some g => !s.copyCovers u binds r g (p.va + BitVec.ofNat 64 ((p.dst.takeWhile (· != a)).length)) a | none => false)
    if part then ({ acc with code := 4 }, s)
    else if c.kind = .FILL then
      ({ acc with out := acc.out ++ [(p, (List.range p.n).map fun i => c.src.extractLsb' (8 * ((p.at_ + i) % 8)) 8)] }, s)
    else match s.engineRead h .copy c.id c.asid c.part (s.engineReader h .copy c.part c.floor) p.src with
      | (.ok bs, s) => ({ acc with out := acc.out ++ [(p, bs)] }, s)
      | (.bad code, s) => ({ acc with code := code }, s)
      | (.wait, s) => (acc, s)

/-- Whole lines of row groups that a piece writes: the group and the line. -/
def Piece.line (p : Piece) : Option (Nat × Nat) :=
  match p.dst with
  | a :: _ =>
    if p.n = 64 ∧ a % 64 = 0 ∧ p.dst = runFrom a 64 then (rowGroupOf a).map fun g => (g, a % 4096 / 64) else none
  | [] => none

/-- A piece's line counts for the age rule (R198): the last line of a group gives it age 0 and makes it valid. -/
def State.coverLine (s : State) (h : HallId) (asid : Asid) (p : Piece) : State :=
  match p.line with
  | none => s
  | some (g, i) =>
    let old := match (s.hall h).copy with | some r => sget r.cov g | none => 0
    let now := old ||| BitVec.ofNat 64 (2 ^ i)
    let s := s.onCopy h fun r => { r with cov := sset r.cov g now }
    if now = BitVec.allOnes 64 ∧ old ≠ now then s.coverRowGroup g asid else s

/-- A burst (R197, R198, R431): read whole, then written; at a data fault the bytes before it are written, at a translation fault none. -/
def State.burst (s : State) (h : HallId) : State :=
  match (s.hall h).copy with
  | none => s
  | some r =>
    let c := r.cmd
    let total := copyTotal c.kind c.x
    if r.outcome.isSome ∨ total ≤ r.pos ∨ r.stop ∨ (s.hall h).cycle < r.nextAt then s
    else
      let u := s.copyWho h c
      let binds := s.bindsOf c.slice
      match s.planBurst u binds c (burstPieces r.pos total) with
      | (none, s) => s
      | (some none, s) => s.onCopy h (·.fail 3)
      | (some (some ps), s) =>
        let far := (ps.flatMap (·.src)).filter inFabric
        if s.farMissing h .copy c.id far then
          s.askFar h .copy c.id c.asid (s.engineReader h .copy c.part c.floor) far
        else
          let got : Burst × State := ps.foldl (fun a p => a.2.readPiece h u binds r a.1 p) ({ out := [], code := 0 }, s)
          let b := got.1
          let s := got.2.dropFar h .copy c.id
          let cells := lastCells (b.out.flatMap fun e => e.1.dst.zip e.2)
          let v0 := s.vers
          let s := s.engineWrite (copyWriter h c none c.clock) cells
          let made := runFrom (v0 + 1) (s.vers - v0)
          let n := b.out.foldl (fun n e => n + e.1.n) 0
          let (d, s) := s.drawDelay
          let s := b.out.foldl (fun s e => s.coverLine h c.asid e.1) s
          s.onCopy h fun r =>
            let r := { r with pos := r.pos + n, versions := r.versions ++ made, nextAt := (s.hall h).cycle + 1 + d }
            if b.code = 0 then r else r.fail b.code

/-- COPY_BURST (R197). -/
def execCopyBurst (h : HallId) (s : State) : Out := .next (s.burst h)

/-- FOLLOW_ON_ENTRY (R201): the follow-on of a CP.MM whose last byte has been written enters the matrix queue, behind every
command there, or is refused. -/
def State.followEntry (s : State) (h : HallId) : State :=
  match (s.hall h).copy with
  | none => s
  | some r =>
    let c := r.cmd
    match c.follow with
    | none => s
    | some (w, val) =>
      if r.entered ∨ r.outcome.isSome ∨ r.pos < copyTotal c.kind c.x ∨ (s.hall h).cycle < r.nextAt then s
      else if 16 ≤ (s.hall h).mq.length then s
      else match followOn w with
        | none => s.onCopy h (·.fail 0x0D)
        | some (i, _) =>
          let at_ := { s with curHall := h }
          let foreign := !c.super && (match accRun (s.hall h) i with | some r => ((s.hall h).foreignRow c.asid r).isSome | none => false)
          if at_.matIllegal i ∨ foreign then s.onCopy h (·.fail 0x0D)
          else match imageOf i with
            | none => s.onCopy h (·.fail 0x0D)
            | some (n, wr) =>
              if val.toNat % 64 ≠ 0 then s.onCopy h (·.fail 3)
              else match s.engineResolve (s.copyWho h c) (s.bindsOf c.slice) (imageWant wr) (runFrom val.toNat n) with
                | (.wait, s) => s
                | (.fault _, s) => s.onCopy h (·.fail 3)
                | (.ok ps, s) =>
                  let floor := s.hist.foldl (fun f v => if r.versions.contains v.id then lineUp v.line v.id f else f) c.floor
                  let m : MatCmd :=
                    { id := (s.hall h).mqNext, op := i, word := w, value := val, pages := ps, fmt := .BF16,
                      tid := (s.strand h .M).ntid.toNat, slice := c.slice, asid := c.asid, part := c.part, super := c.super,
                      depth := c.depth, poster := h, started := none, endsAt := 0, fed := 0, lastFed := 0, rows := [], flags := 0,
                      posted := false, lost := none, clock := c.clock, floor := floor, pc := c.issuePc }
                  (s.enterMat h m).onCopy h fun r => { r with entered := true }

/-- FOLLOW_ON_ENTRY (R201). -/
def execFollowOnEntry (h : HallId) (s : State) : Out := .next (s.followEntry h)

/-- How the copy in progress ends in this Hall cycle, if it does (R197, R199). A follow-on that finds no place when the copy is
stopped is stopped with it. -/
def CopyRun.ends (r : CopyRun) (cycle : Nat) : Option (Nat × Nat × Nat) :=
  let total := copyTotal r.cmd.kind r.cmd.x
  match r.outcome with
  | some o => some o
  | none =>
    if total ≤ r.pos ∧ (r.cmd.follow.isNone ∨ r.entered) then (if r.nextAt ≤ cycle then some (total, 0, 1) else none)
    else if r.stop then some (r.pos, 7, 3)
    else none

/-- The engine drops the copy in progress. What counts towards the age of a row group is kept for its continuation (R198). -/
def State.endCopy (s : State) (h : HallId) (r : CopyRun) (k : Nat) (state : Nat) : State :=
  let c := r.cmd
  let know := c.clock.up (.engine h .copy) k
  let s := (s.dropFar h .copy c.id).releaseVersions r.versions k c.clock
  let s := s.onHall h fun H => (({ H with copy := none }).learn .copy know).tellMarkers .copy c.id know
  s.onSliceId c.slice fun sl =>
    let rest := sl.stoppedCopies.filter fun p => !c.continues p
    { sl with stoppedCopies := if state = 1 ∨ c.cw.isNone then rest
        else rest ++ [{ kind := c.kind, src := c.src, dst := c.dst, x := c.x, cw := c.cw, follow := c.follow, cov := r.cov }] }

/-- COPY_COMPLETE (R197, R199, R200, R338, R339): the completion word is written with release at the scope. At FABRIC the writes so far are published
first, and every module of the group acknowledges them (R286, R290). -/
def State.completeCopy (s : State) (h : HallId) : State :=
  match (s.hall h).copy with
  | none => s
  | some r =>
    let c := r.cmd
    match r.ends (s.hall h).cycle with
    | none => s
    | some (cur, code, state) =>
      if c.q.scope = .fabric ∧ !r.asked then
        let (k, s) := s.nextPub
        ((s.releaseVersions r.versions k c.clock).fabricPublish h .L (some .copy) c.asid).onCopy h fun r => { r with asked := true }
      else if s.farWaits h .L (some .copy) then s
      else
        let (k, s) := s.nextPub
        let know := c.clock.up (.engine h .copy) k
        let w : Bool × State :=
          match c.cw with
          | none => (true, s)
          | some a => s.writeWord (copyWriter h c (some k) know) (s.copyWho h c) (s.bindsOf c.slice) a (wordOf cur code state)
        if w.1 then
          (w.2.endCopy h r k state).commandError c.slice c.depth code (c.issuer.getD .S) c.issuePc c.cw.isNone
        else w.2.onCopy h fun r => { r with outcome := some (cur, code, state) }

/-- COPY_COMPLETE (R197). -/
def execCopyComplete (h : HallId) (s : State) : Out := .next (s.completeCopy h)

end Sys2Proof.Machine
end

