-- ==== Sys2Proof/Machine/Lifetime.lean ====
section
/-! DEFINITION. Lifetimes of row groups (R243 to R261), sensors and bands (R248 to R251), wiping (R264), and LIFE.SET, LIFE.AGE,
LIFE.REF (R234, R235). -/

namespace Sys2Proof.Machine

/-! Bands (R248 to R250). -/

/-- Nanoseconds per age unit of a band (R248). -/
def unitNs (band : Nat) : Nat :=
  [2206, 1560, 1103, 780, 552, 390, 276, 195, 138, 98, 69, 49, 34, 24, 17, 12].getD band 12

/-- Lowest temperature of a band (R249). -/
def bandLow (band : Nat) : Nat := if band = 0 then 0 else 45 + 5 * band

/-- The band of a temperature (R248). -/
def bandOf (t : Nat) : Nat := ((List.range 16).filter fun b => bandLow b ≤ t).length - 1

/-- TEMP.TBLn (R249). -/
def tempTable (n : Nat) : Word := BitVec.ofNat 64 (unitNs n + 2 ^ 16 * bandLow n)

/-- The band after a reading (R250). -/
def bandAfter (first : Bool) (old t : Nat) : Nat :=
  if first then bandOf t
  else if old < bandOf t then bandOf t
  else if t + 2 ≤ bandLow old then bandOf t
  else old

/-- A common multiple of the unit lengths: the age clock counts ticks times this over the unit in ticks (R251). -/
def unitScale : Nat := 32966508120

/-- What the age clock of a Hall has accumulated at a tick; one unit is unitScale times 5,544. -/
def Hall.aged (H : Hall) (tick : Nat) : Nat := H.ageAcc + (tick - H.ageTick) * (unitScale / unitNs H.band)

/-- One age unit. -/
def oneUnit : Nat := unitScale * 5544

/-- The last tick of a Hall's cycle. What its gallery does in a Hall cycle, whenever in it, comes before the cycle's accesses (R253). -/
def Hall.lastTick (H : Hall) : Nat := H.nextTick + H.levelTicks - 1

/-- When the next reading of the sensor falls: at every whole microsecond (R250). -/
def Hall.readingAt (H : Hall) : Nat := (H.readings + 1) * 5544000

/-- When the next age step falls, in the band in force (R251). -/
def Hall.stepAt (H : Hall) : Nat :=
  H.ageTick + (oneUnit - H.ageAcc + (unitScale / unitNs H.band) - 1) / (unitScale / unitNs H.band)

/-- The Hall's next sensor reading falls in its present cycle, and no age step before it. -/
def Hall.readingDue (H : Hall) : Bool := H.readingAt ≤ H.lastTick && H.readingAt ≤ H.stepAt

/-- TEMPERATURE_READING (R250): every whole microsecond. -/
def State.readSensor (s : State) (h : HallId) : State :=
  s.onHall h fun H =>
    let t := Config.sensor h.toNat (H.readings + 1)
    { H with
      ageAcc := H.aged H.readingAt, ageTick := H.readingAt, tempC := t, band := bandAfter (!H.firstRead) H.band t.toNat, firstRead := true
      readings := H.readings + 1 }

/-- TEMPERATURE_READING (R250). -/
def execTemperatureReading (h : HallId) (s : State) : Out :=
  .next (if (s.hall h).readingDue then s.readSensor h else s)

/-! Expiry (R245, R246, R255, R256, R261). -/

/-- The budget of a class in age units, none for P (R245). -/
def classBudget : LifeClass → Option Nat
  | .E0 => some 64 | .E1 => some 256 | .E2 => some 1024 | .E3 => some 4096 | .E4 => some 16384 | .P => none

/-- The age at which a row group requests a refresh, none for EXPIRE (R246). -/
def requestPoint (c : LifeClass) (p : LifePolicy) : Option Nat :=
  match classBudget c with
  | none => some 8192
  | some b => if p = .REFRESH then some (b / 8 * 7) else none

/-- The age by which the Usher core refreshes a row group (R258). -/
def refreshDeadline (c : LifeClass) : Nat := match classBudget c with | some b => b | none => 9216

/-- A row group is EXPIRE and its age is at or past its budget (R246). -/
def RowGroup.over (g : RowGroup) : Bool :=
  g.pol == .EXPIRE && (match classBudget g.cls with | some b => b ≤ g.age | none => false)

/-- The Hall whose gallery holds a row group (R36). -/
def hallOfGroup (g : Nat) : HallId := BitVec.ofNat 8 (g / 16384)

/-- A notice to a row group's owner (R255). -/
def State.notify (s : State) (g owner : Nat) : State :=
  if owner = 0 then s
  else
    let asid : Asid := BitVec.ofNat 12 (owner - 1)
    let h := hallOfGroup g
    let mine := match (s.hall h).slice with | some sl => sl.asid == asid | none => false
    if mine then
      s.onHall h (Hall.onSlice · fun sl =>
        { sl with notePend := true, noteCount := if sl.noteCount = BitVec.allOnes 8 then sl.noteCount else sl.noteCount + 1 })
    else s.onCtx asid fun c => { c with notices := if c.notices = BitVec.allOnes 8 then c.notices else c.notices + 1 }

/-- A row group expires (R246, R255, R256): it is invalid, its request is withdrawn, its owner gets a notice. -/
def State.expire (s : State) (g : Nat) : State :=
  let v := s.rowGroup g
  (s.setRowGroup g { v with valid := false, req := false }).notify g v.owner

/-- A retention loss (R261). The interrupt names the row group, for which its payload has no byte (R409; log 24). -/
def State.retentionLoss (s : State) (g : Nat) : State :=
  let v := s.rowGroup g
  let h := hallOfGroup g
  let s := s.expire g
  match (s.hall h).part with
  | some p => s.interrupt p h.toNat (BitVec.ofNat 12 (v.owner - 1)) 3 (some g)
  | none => s

/-- The rules at an age that a row group has just reached (R246, R256, R261). atOrPast: a request is raised at any age past
its point (LIFE.SET, a restore), not only on reaching it. -/
def State.ageRules (s : State) (g : Nat) (atOrPast : Bool) : State :=
  let v := s.rowGroup g
  if !v.valid then s
  else if 20480 ≤ v.age then s.retentionLoss g
  else if v.over then s.expire g
  else match requestPoint v.cls v.pol with
    | some p => if (if atOrPast then p ≤ v.age else p = v.age) then s.setRowGroup g { v with req := true } else s
    | none => s

/-- One row group ages by one, unless it is invalid or held (R251, R265). -/
def State.ageOne (s : State) (g : Nat) : State :=
  let v := s.rowGroup g
  if !v.valid || v.held then s
  else (s.setRowGroup g { v with age := min 32767 (v.age + 1) }).ageRules g false

/-- Row groups of a Hall's gallery that are not as a wipe leaves them. -/
def State.groupsOf (s : State) (h : HallId) : List Nat := (s.rowGroups.filter fun e => e.1 / 16384 == h.toNat).map (·.1)

/-- The age step of a gallery (R251). The row groups of its pool that are not listed age together (log 31), and a row group that is held counts its
steps (R265). -/
def State.ageStep (s : State) (h : HallId) : State :=
  let s := s.onHall h fun H =>
    { H with
      ageAcc := H.aged H.stepAt - oneUnit, ageTick := H.stepAt, noBeat := H.noBeat + 1, sinceSweep := H.sinceSweep + 1
      poolAge := min 32767 (H.poolAge + 1), poolReq := H.poolReq || H.poolAge + 1 == 8192
      switch := H.switch.map fun w => { w with aged := w.aged + 1 } }
  (s.groupsOf h).foldl State.ageOne s

/-- The age clock accumulates a unit in the Hall's present cycle, and no reading falls before. -/
def State.ageDue (s : State) (h : HallId) : Bool := let H := s.hall h; H.stepAt ≤ H.lastTick && !H.readingDue

/-- AGE_STEP (R251). -/
def execAgeStep (h : HallId) (s : State) : Out := .next (if s.ageDue h then s.ageStep h else s)

/-! Refresh (R257 to R260). -/

/-- A refresh completes (R257): words are corrected on the way; an uncorrectable one stays poisoned (R262). That of a held row group does not reach
the age that its save has captured (R265). -/
def State.refreshGroup (s : State) (g : Nat) : State :=
  let v := s.rowGroup g
  if !v.valid then s
  else
    let words := (List.range 1024).map fun i => galleryTop + 4096 * g + 4 * i
    let fixed := (words.filter fun a => s.flaws.contains a).length
    let s := s.setRowGroup g { v with age := 0, req := false }
    ({ s with flaws := s.flaws.filter fun a => !words.contains a }).onHall (hallOfGroup g) fun H => { H with corrected := H.corrected + fixed }

/-- REFRESH (R257). Bits of g: the number of a row group (R36). -/
def execRefresh (g : BitVec 22) (s : State) : Out := .next (s.refreshGroup g.toNat)

/-- HEARTBEAT (R258). -/
def execHeartbeat (h : HallId) (s : State) : Out := .next (s.onHall h fun H => { H with noBeat := 0 })

/-- The partition's host interrupt that names a Hall. -/
def State.hallInterrupt (s : State) (h : HallId) (code : Nat) : State :=
  match (s.hall h).part with
  | some p => s.interrupt p h.toNat (match (s.hall h).slice with | some sl => sl.asid | none => 0) code
  | none => s

/-- AUTONOMOUS_MODE (R259): after 12 age steps without a heartbeat the controller takes over, and a sweep begins at once. -/
def State.goAutonomous (s : State) (h : HallId) : State :=
  if 12 ≤ (s.hall h).noBeat ∧ !(s.hall h).auto then
    (s.onHall h fun H => { H with auto := true, rejoin := false, sweeping := some 0, sinceSweep := 0 }).hallInterrupt h 2
  else s

/-- AUTONOMOUS_MODE (R259). -/
def execAutonomousMode (h : HallId) (s : State) : Out := .next (s.goAutonomous h)

/-- The controller hands its requests back to the Usher core and leaves autonomous mode (R259). -/
def State.leaveAuto (s : State) (h : HallId) : State :=
  (s.onHall h fun H => { H with auto := false, rejoin := false, noBeat := 0 }).hallInterrupt h 2

/-- REJOIN_HEARTBEAT (R259): autonomous mode ends once the current sweep has finished, at once between two sweeps. -/
def execRejoinHeartbeat (h : HallId) (s : State) : Out :=
  let H := s.hall h
  .next (if H.auto && H.sweeping.isNone then s.leaveAuto h
    else s.onHall h fun H => if H.auto then { H with rejoin := true, noBeat := 0 } else { H with noBeat := 0 })

/-- SWEEP (R259): a sweep begins 1,024 age units after the one before it began. -/
def execSweep (h : HallId) (s : State) : Out :=
  let H := s.hall h
  .next (if H.auto && H.sweeping.isNone && !H.rejoin && 1024 ≤ H.sinceSweep then
      s.onHall h fun H => { H with sweeping := some 0, sinceSweep := 0 }
    else s)

/-- Row groups that a sweep visits in one age unit: 18, so that 960 units suffice for 16,384 (R259). -/
def sweepStride : Nat := 18

/-- The sweep visits its next row groups (R259); the unlisted ones of the pool, which end the gallery, with its last (log 31). -/
def State.sweepStep (s : State) (h : HallId) : State :=
  match (s.hall h).sweeping with
  | none => s
  | some k =>
    let s := (s.groupsOf h).foldl (fun s g =>
      let v := s.rowGroup g
      if k ≤ g % 16384 ∧ g % 16384 < k + sweepStride ∧ v.valid ∧ (v.cls = .P ∨ v.pol = .REFRESH) ∧ 4096 < v.age then s.refreshGroup g else s) s
    s.onHall h fun H =>
      { H with
        sweeping := some (k + sweepStride)
        poolAge := if k < 16384 ∧ 16384 ≤ k + sweepStride ∧ 4096 < H.poolAge then 0 else H.poolAge
        poolReq := H.poolReq && !(k < 16384 && 16384 ≤ k + sweepStride && 4096 < H.poolAge) }

/-- SWEEP_END (R259): after a rejoin heartbeat the controller hands its requests back to the Usher core and leaves autonomous
mode. -/
def execSweepEnd (h : HallId) (s : State) : Out :=
  .next (match (s.hall h).sweeping with
    | some k =>
      if 16384 ≤ k then
        let s := s.onHall h fun H => { H with sweeping := none }
        if (s.hall h).rejoin then s.leaveAuto h else s
      else s
    | none => s)

/-! Wiping (R264). -/

/-- A gallery is wiped, and the Hall's accumulator rows belong to no context any more (R31): every row group as R264 says, every byte zero in the background within 2 ms; the model zeroes them at
once, where no access can see them (DESIGN CHOICE, log 40). -/
def State.wipeGallery (s : State) (h : HallId) : State :=
  let lo := galleryBase h
  let hi := lo + 0x4000000
  ({ s with
      rowGroups := s.rowGroups.filter fun e => e.1 / 16384 != h.toNat
      poison := s.poison.filter fun a => a < lo || hi ≤ a
      flaws := s.flaws.filter fun a => a < lo || hi ≤ a
      mem := s.mem.filter fun c => c.1 < lo || hi ≤ c.1
      hist := s.hist.filter fun v => 64 * v.line < lo || hi ≤ 64 * v.line }).onHall h fun H =>
    { H with wipeEnds := some (s.tick + 11088000000), accTag := [] }

/-- WIPE_COMPLETE (R264). -/
def execWipeComplete (h : HallId) (s : State) : Out :=
  .next (match (s.hall h).wipeEnds with
    | some t => if t ≤ s.tick then s.onHall h fun H => { H with wipeEnds := none } else s
    | none => s)

/-! LIFE.SET, LIFE.REF, LIFE.AGE (R234, R235). -/

/-- The row groups of a range, with the checks of R234: what the access is checked as stands for each 4 KiB, since ranges and
pages are made of whole blocks of 4 KiB (R384, R385). -/
def State.lifeRange (s : State) (a len : Word) : Except (Option TrapInfo × Nat) (List Nat) :=
  let k := wantStore .D
  let starts := (List.range (len.toNat / 4096)).map fun i => a.toNat + 4096 * i
  match resolveAll (s.resolveCached s.mine k) starts with
  | .error (b, t) => .error (t, b)
  | .ok ps =>
    let gs := ps.map rowGroupOf
    let one := match ps with
      | p :: _ => (match rowGroupOf p with
        | some g => gs.all fun x => match x with | some y => y / 16384 == g / 16384 | none => false
        | none => false)
      | [] => true
    if one then .ok (gs.filterMap id) else .error (some (k.tell a.toNat (prot 0x40)), 0)

/-- LIFE.SET and LIFE.REF: S is frozen while the range is worked through, 16 row groups in a Hall cycle. -/
def State.lifeWork (s : State) (a b : BitVec 6) (f : State → Nat → State) : State :=
  s.reading [.s a.toNat, .s b.toNat] fun s =>
    let k := wantStore .D
    let base := s.rs a
    let len := s.rs b
    if base.toNat % 4096 ≠ 0 ∨ len.toNat % 4096 ≠ 0 then s.trapHere (k.tell base.toNat { cause := .ALIGN })
    else if len = 0 then s.issue
    else match s.lifeRange base len with
      | .error (some t, _) => s.trapHere t
      | .error (none, b) => (s.startWalk s.mine b false).freeze
      | .ok gs =>
        let i := s.stage
        let s := ((gs.drop (16 * i)).take 16).foldl f s
        if 16 * (i + 1) < gs.length then s.toStage (i + 1) else s.clearWait.issue

/-- LIFE.SET on one row group (R234, R244, R256). One that is held for a save does not expire before its hold ends (R265). -/
def State.lifeSet (s : State) (cls : LifeClass) (pol : LifePolicy) (g : Nat) : State :=
  let v := s.rowGroup g
  let s := s.setRowGroup g { v with cls := cls, pol := pol, owner := s.asid.toNat + 1, req := if pol = .EXPIRE then false else v.req }
  if v.held then s else s.ageRules g true

/-- LIFE.SET (R234). -/
def execLifeSet (a b : BitVec 6) (cls : LifeClass) (pol : LifePolicy) (s : State) : Out :=
  .next (s.lifeWork a b fun s g => s.lifeSet cls pol g)

/-- LIFE.REF on one row group (R234). -/
def State.lifeRef (s : State) (g : Nat) : State :=
  let v := s.rowGroup g
  if v.valid then s.setRowGroup g { v with age := 0, req := false } else s

/-- LIFE.REF (R234). -/
def execLifeRef (a b : BitVec 6) (s : State) : Out := .next (s.lifeWork a b State.lifeRef)

/-- Codes of the classes (R234). -/
def classCode : LifeClass → Nat
  | .E0 => 0 | .E1 => 1 | .E2 => 2 | .E3 => 3 | .E4 => 4 | .P => 5

/-- What LIFE.AGE reports of a row group (R235). -/
def RowGroup.report (v : RowGroup) : Word :=
  BitVec.ofNat 64 (v.age % 2 ^ 15 + 2 ^ 15 * classCode v.cls + 2 ^ 18 * (v.pol == .REFRESH).toNat + 2 ^ 19 * v.valid.toNat + 2 ^ 20 * v.req.toNat)

/-- A number that is no row group's. -/
def noGroup : Nat := 2 ^ 22

/-- LIFE.AGE (R235): what it writes is read at its landing point. An address outside the galleries has no row group: what is then
written is a free value (log 6). -/
def execLifeAge (d a : BitVec 6) (land : BitVec 12) (s : State) : Out :=
  .next (s.readingWhen s.slotsFull [.s a.toNat] fun s =>
    s.withBytes (wantLoad .B) 1 (s.rs a) 1 fun ps s =>
      s.withSlot fun s => s.claim (.lifeAge d.toNat ((ps.head?.bind rowGroupOf).getD noGroup)) [.s d.toNat] land (s.rs a) ps
        (some s.here.cycle) (some []))

/-- What a LIFE.AGE writes at its landing point (R235). -/
def State.lifeAgeValue (s : State) (g : Nat) : Word × State :=
  if g = noGroup then (Config.value s.free, { s with free := s.free + 1 }) else ((s.rowGroup g).report, s)

end Sys2Proof.Machine
end

