-- ==== Sys2Proof/Machine/Csr.lean ====
section
/-! DEFINITION. Control and status registers (R8, R14, R206 to R210, R22, R27, R88, R90, R93, R94, R147, R341, R343, R249, R250,
R395), and the trap queue (R394). -/

namespace Sys2Proof.Machine

/-! The trap queue (R394, R395). -/

/-- The supervisor slice of its partition runs here (R398). -/
def State.isSupervisor (s : State) : Bool := match s.here.slice with | some sl => sl.supervisor | none => false

/-- The oldest queued record is opened. -/
def State.openRecord (s : State) (p : PartId) : State :=
  match (s.part p).open_, (s.part p).trapq with
  | none, r :: rest => s.onPart p fun P =>
      { P with open_ := some r, trapq := rest, pcs := r.pcs, trapAct := r.info.extractLsb' 0 3 }
  | _, _ => s

/-- TRAP_RECORD_OPEN (R394). -/
def execTrapRecordOpen (p : PartId) (s : State) : Out := .next (s.openRecord p)

/-- A trap register (R395): while no record is open its RO fields are 0. The PCs, and REPLAY and ACT in bits 2:0 of INFO, are RW
fields and read as they stand (R8). -/
def Part.trapReg (P : Part) (n : Nat) : Word :=
  match P.open_ with
  | none => if 1 ≤ n ∧ n ≤ 4 then P.pcs[n - 1]?.getD 0 else if n = 6 then P.trapAct.setWidth 64 else 0
  | some r =>
    if n = 0 then r.cause ||| 0x80000000
    else if n ≤ 4 then P.pcs[n - 1]?.getD 0
    else if n = 5 then r.addr
    else if n = 6 then (r.info &&& ~~~7#64) ||| P.trapAct.setWidth 64
    else r.ctx

/-! Reading (R206). -/

/-- RGN.POOL.USED: what open regions have reserved, in KiB, rounded up (R343). -/
def Slice.poolUsed (sl : Slice) : Nat := sl.regions.foldl (fun n r => n + r.reserved) 0

/-- RGN.POOL (R343). -/
def Hall.rgnPool (H : Hall) : Word :=
  let used := match H.slice with | some sl => sl.poolUsed | none => 0
  let log := match H.slice with | some sl => sl.log.length | none => 0
  BitVec.ofNat 64 (H.poolSize + 2 ^ 16 * ((used + 1023) / 1024) + 2 ^ 32 * log)

/-- Codes of levels (R209). -/
def levelCode : Level → Nat
  | .nominal => 0 | .B1 => 1 | .B2 => 2

/-- A threshold register (R93). -/
def Thresh.word (t : Thresh) : Word := BitVec.ofNat 64 (t.limit.toNat + 2 ^ 32 * t.win.toNat + 2 ^ 48 * t.act.toNat)

/-- The value of a register that the strand at issue reads. -/
def State.csrValue (s : State) (n : Nat) : Word :=
  let H := s.here
  let x := s.me
  let of := fun (f : Slice → Word) => match H.slice with | some sl => f sl | none => 0
  if n = 0x000 then x.nflags.setWidth 64
  else if n = 0x001 then (if x.sbchk then 1 else 0)
  else if n = 0x002 then of (·.ncfg)
  else if n = 0x003 then of fun sl => sl.ntstat.setWidth 64
  else if n ≤ 0x006 then of fun sl => (match sl.thresh[n - 4]? with | some t => t.word | none => 0)
  else if n = 0x007 then x.ntid.setWidth 64
  else if 0x010 ≤ n ∧ n ≤ 0x02F then (H.work.shape (n - 0x010)).setWidth 64
  else if n = 0x040 then (s.part s.partId).barTmo.setWidth 64
  else if n = 0x041 then of fun sl => sl.retry.setWidth 64
  else if n = 0x042 then H.rgnPool
  else if n = 0x043 then of fun sl => BitVec.ofNat 64 (sl.noteEn.toNat + 2 * sl.notePend.toNat + 256 * sl.noteCount.toNat)
  else if n = 0x044 then BitVec.ofNat 64 (levelCode H.boostReq + 4 * H.boostGrant.toNat + 256 * H.boostPermits)
  else if n = 0x050 then s.asid.setWidth 64
  else if n = 0x051 then s.partId.setWidth 64
  else if n = 0x052 then s.curHall.setWidth 64
  else if n = 0x053 then of fun sl => sl.rank.setWidth 64
  else if n = 0x054 then of fun sl => BitVec.ofNat 64 sl.left
  else if n = 0x060 then BitVec.ofNat 64 s.devtime
  else if n = 0x061 then BitVec.ofNat 64 (H.band + 256 * H.tempC.toNat + 65536 * H.auto.toNat)
  else if 0x070 ≤ n ∧ n ≤ 0x07F then tempTable (n - 0x070)
  else if 0x080 ≤ n ∧ n ≤ 0x087 then (if s.isSupervisor then (s.part s.partId).trapReg (n - 0x080) else 0)
  else if n = 0x090 then BitVec.ofNat 64 (H.errKind.toNat + 256 * H.errAfter)
  else 0

/-- NTSTAT is cleared by a read of it (R94). -/
def State.clearNtstat (s : State) (h : HallId) : State := s.onHall h (Hall.onSlice · fun sl => { sl with ntstat := 0 })

/-- NTSTAT_READ (R94): the crossings are returned and cleared; what was returned is in the reader's register by CSRR. -/
def execNtstatRead (h : HallId) (s : State) : Out := .next (s.clearNtstat h)

/-- User mode may not read the register (R207). -/
def csrHidden (n : Nat) : Bool := n == 0x042 || (0x080 ≤ n && n ≤ 0x087) || n == 0x090

/-- User mode may write the register (R207). -/
def csrUserWrites (n : Nat) : Bool :=
  n == 0x000 || n == 0x001 || n == 0x002 || (0x010 ≤ n && n ≤ 0x02F) || n == 0x041 || n == 0x043

/-- What CSRR reads that the scoreboard watches: NFLAGS, whose bits results set when they are written (R20, R22). -/
def csrReads (n : Nat) : List Src := if n = 0 then [.flags] else []

/-- CSRR (R206). A read of TRAP.CAUSE with no record open opens the oldest (R394). -/
def execCsrr (d : BitVec 6) (num : BitVec 12) (s : State) : Out :=
  let n := num.toNat
  .next (if !s.superMode && csrHidden n then s.trapCause .PRIV
    else s.reading (csrReads n) fun s =>
      let s := if n = 0x080 ∧ s.isSupervisor then s.openRecord s.partId else s
      let v := s.csrValue n
      let s := if n = 0x003 then s.clearNtstat s.curHall else s
      (s.result 2 [.sreg d.toNat v]).issue)

/-! Writing (R206). -/

/-- CSRW (R206): the checks; the write is made at the end of the Hall cycle. -/
def execCsrw (num : BitVec 12) (a : BitVec 6) (s : State) : Out :=
  let n := num.toNat
  .next (s.reading [.s a.toNat] fun s =>
    let v := s.rs a
    let changes := n == 0x002 && (v ^^^ s.csrValue 0x002).extractLsb' 8 2 != 0
    if !s.superMode && (!csrUserWrites n || changes) then s.trapCause .PRIV
    else if 0x010 ≤ n ∧ n ≤ 0x02F ∧ (shapeOf v).isNone then s.trapCause .ILLEGAL
    else
      let st := s.curStrand
      (s.onHere fun H => { H with csrWrites := H.csrWrites ++ [(st, n, v)] }).issue)

/-- The write of a threshold register: its window goes on (R93). -/
def Thresh.write (t : Thresh) (v : Word) : Thresh :=
  { t with limit := v.extractLsb' 0 32, win := v.extractLsb' 32 16, act := v.getLsbD 48 }

/-- ERRINJ is written: the count of commands to let pass begins (R210). -/
def Hall.armErrinj (H : Hall) (v : Word) : Hall :=
  { H with errKind := v.extractLsb' 0 2, errAfter := (v.extractLsb' 8 24).toNat, errCount := 0, errHit := false }

/-- ERRINJ_ARM (R210). -/
def execErrinjArm (h : HallId) (v : Word) (s : State) : Out := .next (s.onHall h (·.armErrinj v))

/-- A CSRW of a strand takes effect. A read-only register is unchanged (R8). -/
def State.csrApply (s : State) (h : HallId) (st : Strand) (n : Nat) (v : Word) : State :=
  let onSl := fun (f : Slice → Slice) => s.onHall h (Hall.onSlice · f)
  let p := match (s.hall h).slice with | some sl => sl.part | none => 0
  let super := match (s.hall h).slice with | some sl => sl.supervisor | none => false
  if n = 0x000 then s.onStrand h st fun x => { x with nflags := x.nflags &&& ~~~(v.extractLsb' 0 6) }
  else if n = 0x001 then s.onStrand h st fun x => { x with sbchk := v.getLsbD 0 }
  else if n = 0x002 then onSl fun sl => { sl with ncfg := v &&& 0x33F }
  else if n = 0x004 ∨ n = 0x005 ∨ n = 0x006 then
    onSl fun sl => { sl with thresh := sl.thresh.setIfInBounds (n - 4) ((sl.thresh[n - 4]?.getD .reset).write v) }
  else if 0x010 ≤ n ∧ n ≤ 0x02F then
    (match shapeOf v with
      | some x => s.onHall h (Hall.onWork · fun W => { W with shapes := W.shapes.setIfInBounds (n - 0x010) x })
      | none => s)
  else if n = 0x040 then s.onPart p fun P => { P with barTmo := v.setWidth 32 }
  else if n = 0x041 then onSl fun sl => { sl with retry := v.setWidth 4 }
  else if n = 0x042 then s.onHall h fun H =>
    (match H.slice with
      | some sl => if sl.regions.isEmpty then { H with poolSize := min 128 (max 1 (v.toNat % 256)) } else H
      | none => H)
  else if n = 0x043 then onSl fun sl =>
    { sl with noteEn := v.getLsbD 0, notePend := sl.notePend && !v.getLsbD 1, noteCount := if v.getLsbD 1 then 0 else sl.noteCount }
  else if 0x081 ≤ n ∧ n ≤ 0x084 then
    (if super then s.onPart p fun P => { P with pcs := P.pcs.setIfInBounds (n - 0x081) v } else s)
  else if n = 0x086 then (if super then s.onPart p fun P => { P with trapAct := v.setWidth 3 } else s)
  else if n = 0x090 then s.onHall h (·.armErrinj v)
  else s

/-- The CSRWs of a Hall cycle take effect, in the ring order of their strands (R206). -/
def State.csrCommit (s : State) (h : HallId) : State :=
  let ws := (s.hall h).csrWrites
  ws.foldl (fun s w => s.csrApply h w.1 w.2.1 w.2.2) (s.onHall h fun H => { H with csrWrites := [] })

end Sys2Proof.Machine
end

