-- ==== Sys2Proof/Machine/Scalar.lean ====
section
/-! DEFINITION. Scalar integer instructions and immediate forms (R95 to R104). -/

namespace Sys2Proof.Machine

/-- An integer operation that reads scalar registers and writes one with a fixed latency (R95, R20). -/
def State.intOp (s : State) (d : BitVec 6) (rd : List (BitVec 6)) (lat : Nat) (v : Word) : State :=
  s.compute (rd.map fun r => .s r.toNat) lat [.sreg d.toNat v]

/-- The smaller or the larger of two by a test. -/
def pick (first : Bool) (x y : Word) : Word := if first then x else y

/-- DIV (R98). -/
def divS (x y : Word) : Word :=
  if y = 0 then BitVec.allOnes 64 else BitVec.ofInt 64 (x.toInt.tdiv y.toInt)
/-- DIVU (R98). -/
def divU (x y : Word) : Word := if y = 0 then BitVec.allOnes 64 else BitVec.ofNat 64 (x.toNat / y.toNat)
/-- REM (R98). -/
def remS (x y : Word) : Word := if y = 0 then x else BitVec.ofInt 64 (x.toInt.tmod y.toInt)
/-- REMU (R98). -/
def remU (x y : Word) : Word := if y = 0 then x else BitVec.ofNat 64 (x.toNat % y.toNat)

/-- SHL by a whole register (R99). -/
def shlW (x n : Word) : Word := if 64 ≤ n.toNat then 0 else x <<< n.toNat
/-- SHR (R99). -/
def shrW (x n : Word) : Word := if 64 ≤ n.toNat then 0 else x >>> n.toNat
/-- SAR (R99). -/
def sarW (x n : Word) : Word := x.sshiftRight (min n.toNat 63)

/-- Leading zero bits among the low n bits. -/
def clzGo (x : Word) : Nat → Nat
  | 0 => 0
  | n + 1 => if x.getLsbD n then 0 else clzGo x n + 1
/-- Trailing zero bits from bit 64 - n on. -/
def ctzGo (x : Word) : Nat → Nat
  | 0 => 0
  | n + 1 => if x.getLsbD (63 - n) then 0 else ctzGo x n + 1
/-- One bits among the low n bits. -/
def popGo (x : Word) : Nat → Nat
  | 0 => 0
  | n + 1 => (if x.getLsbD n then 1 else 0) + popGo x n

/-- A width of SEXT and ZEXT in bits (R97). -/
def ExtW.bits : ExtW → Nat
  | .B => 8 | .H => 16 | .W => 32

/-- BEXT with the offset and width of its field (R100). -/
def bextW (x : Word) (off w : Nat) (sx : Bool) : Word :=
  let w := min w 64
  if w = 0 ∨ 64 ≤ off then 0
  else
    let w := min w (64 - off)
    let f := x >>> off
    if sx then BitVec.ofInt 64 (sint w f.toNat) else BitVec.ofNat 64 (f.toNat % 2 ^ w)

/-- BINS with the offset and width of its field (R101): none when nothing is written. -/
def binsW (old x : Word) (off w : Nat) : Option Word :=
  let w := min w 64
  if w = 0 ∨ 64 ≤ off then none
  else
    let w := min w (64 - off)
    let m : Word := BitVec.ofNat 64 (2 ^ w - 1) <<< off
    some ((old &&& ~~~m) ||| ((x <<< off) &&& m))

/-- The strand's divider (R119): the syllable waits for it, or starts an operation that occupies it for n cycles. -/
def State.onDivider (s : State) (n : Nat) (k : State → State) : State :=
  if s.me.local_ < s.me.divFree then s.hold
  else
    let t := k s
    if t.issued then t.onMe fun x => { x with divFree := s.me.local_ + n } else t

/-- ADD (R97). -/
def execAdd (d a b : BitVec 6) (s : State) : Out := .next (s.intOp d [a, b] 1 (s.rs a + s.rs b))
/-- SUB (R97). -/
def execSub (d a b : BitVec 6) (s : State) : Out := .next (s.intOp d [a, b] 1 (s.rs a - s.rs b))
/-- MUL (R97). -/
def execMul (d a b : BitVec 6) (s : State) : Out := .next (s.intOp d [a, b] 3 (s.rs a * s.rs b))
/-- MULH (R97). -/
def execMulh (d a b : BitVec 6) (s : State) : Out :=
  .next (s.intOp d [a, b] 3 (BitVec.ofInt 64 ((s.rs a).toInt * (s.rs b).toInt / 2 ^ 64)))
/-- MULHU (R97). -/
def execMulhu (d a b : BitVec 6) (s : State) : Out :=
  .next (s.intOp d [a, b] 3 (BitVec.ofNat 64 ((s.rs a).toNat * (s.rs b).toNat / 2 ^ 64)))
/-- DIV (R98). -/
def execDiv (d a b : BitVec 6) (s : State) : Out :=
  .next (s.onDivider 16 fun s => s.intOp d [a, b] 18 (divS (s.rs a) (s.rs b)))
/-- DIVU (R98). -/
def execDivu (d a b : BitVec 6) (s : State) : Out :=
  .next (s.onDivider 16 fun s => s.intOp d [a, b] 18 (divU (s.rs a) (s.rs b)))
/-- REM (R98). -/
def execRem (d a b : BitVec 6) (s : State) : Out :=
  .next (s.onDivider 16 fun s => s.intOp d [a, b] 18 (remS (s.rs a) (s.rs b)))
/-- REMU (R98). -/
def execRemu (d a b : BitVec 6) (s : State) : Out :=
  .next (s.onDivider 16 fun s => s.intOp d [a, b] 18 (remU (s.rs a) (s.rs b)))
/-- AND (R97). -/
def execAnd (d a b : BitVec 6) (s : State) : Out := .next (s.intOp d [a, b] 1 (s.rs a &&& s.rs b))
/-- OR (R97). -/
def execOr (d a b : BitVec 6) (s : State) : Out := .next (s.intOp d [a, b] 1 (s.rs a ||| s.rs b))
/-- XOR (R97). -/
def execXor (d a b : BitVec 6) (s : State) : Out := .next (s.intOp d [a, b] 1 (s.rs a ^^^ s.rs b))
/-- ANDN (R97). -/
def execAndn (d a b : BitVec 6) (s : State) : Out := .next (s.intOp d [a, b] 1 (s.rs a &&& ~~~(s.rs b)))
/-- SHL (R99). -/
def execShl (d a b : BitVec 6) (s : State) : Out := .next (s.intOp d [a, b] 1 (shlW (s.rs a) (s.rs b)))
/-- SHR (R99). -/
def execShr (d a b : BitVec 6) (s : State) : Out := .next (s.intOp d [a, b] 1 (shrW (s.rs a) (s.rs b)))
/-- SAR (R99). -/
def execSar (d a b : BitVec 6) (s : State) : Out := .next (s.intOp d [a, b] 1 (sarW (s.rs a) (s.rs b)))
/-- ROL (R99). -/
def execRol (d a b : BitVec 6) (s : State) : Out :=
  .next (s.intOp d [a, b] 1 ((s.rs a).rotateLeft ((s.rs b).toNat % 64)))
/-- ROR (R99). -/
def execRor (d a b : BitVec 6) (s : State) : Out :=
  .next (s.intOp d [a, b] 1 ((s.rs a).rotateRight ((s.rs b).toNat % 64)))
/-- MIN (R97). -/
def execMin (d a b : BitVec 6) (s : State) : Out :=
  .next (s.intOp d [a, b] 1 (pick ((s.rs a).toInt ≤ (s.rs b).toInt) (s.rs a) (s.rs b)))
/-- MAX (R97). -/
def execMax (d a b : BitVec 6) (s : State) : Out :=
  .next (s.intOp d [a, b] 1 (pick ((s.rs b).toInt ≤ (s.rs a).toInt) (s.rs a) (s.rs b)))
/-- MINU (R97). -/
def execMinu (d a b : BitVec 6) (s : State) : Out :=
  .next (s.intOp d [a, b] 1 (pick (s.rs a ≤ s.rs b) (s.rs a) (s.rs b)))
/-- MAXU (R97). -/
def execMaxu (d a b : BitVec 6) (s : State) : Out :=
  .next (s.intOp d [a, b] 1 (pick (s.rs b ≤ s.rs a) (s.rs a) (s.rs b)))
/-- ABS (R97). -/
def execAbs (d a : BitVec 6) (s : State) : Out :=
  .next (s.intOp d [a] 1 (if (s.rs a).toInt < 0 then -(s.rs a) else s.rs a))
/-- CLZ (R97). -/
def execClz (d a : BitVec 6) (s : State) : Out := .next (s.intOp d [a] 1 (BitVec.ofNat 64 (clzGo (s.rs a) 64)))
/-- CTZ (R97). -/
def execCtz (d a : BitVec 6) (s : State) : Out := .next (s.intOp d [a] 1 (BitVec.ofNat 64 (ctzGo (s.rs a) 64)))
/-- POPC (R97). -/
def execPopc (d a : BitVec 6) (s : State) : Out := .next (s.intOp d [a] 1 (BitVec.ofNat 64 (popGo (s.rs a) 64)))
/-- BREV (R97). -/
def execBrev (d a : BitVec 6) (s : State) : Out := .next (s.intOp d [a] 1 (s.rs a).reverse)
/-- SEXT (R97). -/
def execSext (d a : BitVec 6) (w : ExtW) (s : State) : Out :=
  .next (s.intOp d [a] 1 (((s.rs a).setWidth (ExtW.bits w)).signExtend 64))
/-- ZEXT (R97). -/
def execZext (d a : BitVec 6) (w : ExtW) (s : State) : Out :=
  .next (s.intOp d [a] 1 (((s.rs a).setWidth (ExtW.bits w)).setWidth 64))
/-- SEL (R97). -/
def execSel (d a b c : BitVec 6) (s : State) : Out :=
  .next (s.compute [.s a.toNat, .s b.toNat, .p c.toNat] 1 [.sreg d.toNat (pick (s.me.pred c.toNat) (s.rs a) (s.rs b))])
/-- LEA (R97). -/
def execLea (d a b : BitVec 6) (sh : BitVec 3) (s : State) : Out :=
  .next (s.intOp d [a, b] 1 (s.rs a + (s.rs b <<< sh.toNat)))
/-- BEXT (R100). -/
def execBext (d a b c : BitVec 6) (sx : Bool) (s : State) : Out :=
  .next (s.intOp d [a, b, c] 1 (bextW (s.rs a) (s.rs b).toNat (s.rs c).toNat sx))

/-- A write of BINS or BINSI, which may write nothing (R101). -/
def State.insertOp (s : State) (d : BitVec 6) (rd : List (BitVec 6)) (v : Option Word) : State :=
  s.compute (rd.map fun r => .s r.toNat) 1 (match v with | some v => [.sreg d.toNat v] | none => [])

/-- BINS (R101). -/
def execBins (d a b c : BitVec 6) (s : State) : Out :=
  .next (s.insertOp d [d, a, b, c] (binsW (s.rs d) (s.rs a) (s.rs b).toNat (s.rs c).toNat))
/-- ADDI (R102). -/
def execAddi (d a : BitVec 6) (imm : BitVec 28) (s : State) : Out :=
  .next (s.intOp d [a] 1 (s.rs a + imm.signExtend 64))
/-- MULI (R102). -/
def execMuli (d a : BitVec 6) (imm : BitVec 28) (s : State) : Out :=
  .next (s.intOp d [a] 3 (s.rs a * imm.signExtend 64))
/-- ANDI (R102). -/
def execAndi (d a : BitVec 6) (imm : BitVec 28) (s : State) : Out :=
  .next (s.intOp d [a] 1 (s.rs a &&& imm.signExtend 64))
/-- ORI (R102). -/
def execOri (d a : BitVec 6) (imm : BitVec 28) (s : State) : Out :=
  .next (s.intOp d [a] 1 (s.rs a ||| imm.signExtend 64))
/-- XORI (R102). -/
def execXori (d a : BitVec 6) (imm : BitVec 28) (s : State) : Out :=
  .next (s.intOp d [a] 1 (s.rs a ^^^ imm.signExtend 64))
/-- SHLI (R102). -/
def execShli (d a n : BitVec 6) (s : State) : Out := .next (s.intOp d [a] 1 (s.rs a <<< n.toNat))
/-- SHRI (R102). -/
def execShri (d a n : BitVec 6) (s : State) : Out := .next (s.intOp d [a] 1 (s.rs a >>> n.toNat))
/-- SARI (R102). -/
def execSari (d a n : BitVec 6) (s : State) : Out := .next (s.intOp d [a] 1 ((s.rs a).sshiftRight n.toNat))
/-- MOVI (R104). -/
def execMovi (d : BitVec 6) (imm : BitVec 34) (s : State) : Out := .next (s.intOp d [] 1 (imm.signExtend 64))
/-- MOVHI (R104). -/
def execMovhi (d : BitVec 6) (imm : BitVec 32) (s : State) : Out :=
  .next (s.intOp d [d] 1 (imm ++ (s.rs d).extractLsb' 0 32))
/-- BEXTI (R103). -/
def execBexti (d a : BitVec 6) (off w : BitVec 7) (sx : Bool) (s : State) : Out :=
  .next (s.intOp d [a] 1 (bextW (s.rs a) off.toNat w.toNat sx))
/-- BINSI (R103). -/
def execBinsi (d a : BitVec 6) (off w : BitVec 7) (s : State) : Out :=
  .next (s.insertOp d [d, a] (binsW (s.rs d) (s.rs a) off.toNat w.toNat))

end Sys2Proof.Machine
end

