-- ==== Sys2Proof/Machine/FloatScalar.lean ====
section
/-! DEFINITION. Scalar floating point (R109 to R111). -/

namespace Sys2Proof.Machine

/-- The FP32 value of a scalar register (R95). -/
def State.rf (s : State) (a : BitVec 6) : Nat := (s.rs a).toNat % 2 ^ 32

/-- An FP32 result with its flags and its NAN event (R95, R91). -/
def State.floatOp (s : State) (d : BitVec 6) (rd : List (BitVec 6)) (lat : Nat) (r : NumRes) : State :=
  s.compute (rd.map fun r => .s r.toNat) lat
    [.sreg d.toNat (BitVec.ofNat 64 r.bits), .flags r.flags, .count .NAN s.me.ntid.toNat (if r.gen then 1 else 0)]

/-- FADD (R109). -/
def execFadd (d a b : BitVec 6) (s : State) : Out := .next (s.floatOp d [a, b] 4 (fp32.add (s.rf a) (s.rf b)))
/-- FSUB (R109). -/
def execFsub (d a b : BitVec 6) (s : State) : Out := .next (s.floatOp d [a, b] 4 (fp32.sub (s.rf a) (s.rf b)))
/-- FMUL (R109). -/
def execFmul (d a b : BitVec 6) (s : State) : Out := .next (s.floatOp d [a, b] 4 (fp32.mul (s.rf a) (s.rf b)))
/-- FFMA (R109). -/
def execFfma (d a b c : BitVec 6) (s : State) : Out :=
  .next (s.floatOp d [a, b, c] 4 (fp32.fma (s.rf a) (s.rf b) (s.rf c)))
/-- FMIN (R75, R109). -/
def execFmin (d a b : BitVec 6) (s : State) : Out := .next (s.floatOp d [a, b] 2 (fp32.min (s.rf a) (s.rf b)))
/-- FMAX (R75, R109). -/
def execFmax (d a b : BitVec 6) (s : State) : Out := .next (s.floatOp d [a, b] 2 (fp32.max (s.rf a) (s.rf b)))
/-- FDIV (R109, R119). -/
def execFdiv (d a b : BitVec 6) (s : State) : Out :=
  .next (s.onDivider 12 fun s => s.floatOp d [a, b] 14 (fp32.div (s.rf a) (s.rf b)))
/-- FSQRT (R109, R119). -/
def execFsqrt (d a : BitVec 6) (s : State) : Out :=
  .next (s.onDivider 12 fun s => s.floatOp d [a] 14 (fp32.sqrt (s.rf a)))

/-- The float format of a type of FCVT. -/
def CTy.fmt : CTy → Option Fmt
  | .F32 => some fp32 | .BF16 => some bf16 | .F16 => some fp16
  | .I32 => none | .U32 => none | .I64 => none | .U64 => none
/-- Width in bits of a type of FCVT (R111). -/
def CTy.bits : CTy → Nat
  | .F32 => 32 | .BF16 => 16 | .F16 => 16 | .I32 => 32 | .U32 => 32 | .I64 => 64 | .U64 => 64
/-- An unsigned type of FCVT. -/
def CTy.unsigned : CTy → Bool
  | .U32 => true | .U64 => true | .F32 => false | .BF16 => false | .F16 => false | .I32 => false | .I64 => false

/-- What FCVT gives (R111): the register's new value, the flags, and whether it saturated. -/
structure CvtRes where
  val : Word
  flags : BitVec 6
  sat : Bool
  deriving DecidableEq, Repr

/-- The value of an integer operand of FCVT (R111). -/
def CTy.intOf (t : CTy) (x : Word) : Int :=
  if (CTy.unsigned t) then (x.toNat % 2 ^ (CTy.bits t) : Nat) else sint (CTy.bits t) x.toNat

/-- An integer of w bits extended to 64 (R111). -/
def extendInt (v : Int) : Word := BitVec.ofInt 64 v

/-- FCVT (R111). An integer to an integer does not decode (R110). -/
def fcvt (dst src : CTy) (rz : Bool) (x : Word) : CvtRes :=
  match (CTy.fmt src), (CTy.fmt dst) with
  | some f, some g =>
    let r := f.convert g (x.toNat % 2 ^ (CTy.bits src))
    { val := BitVec.ofNat 64 r.bits, flags := r.flags, sat := false }
  | none, some g =>
    let r := g.ofInt (CTy.intOf src x)
    { val := BitVec.ofNat 64 r.bits, flags := r.flags, sat := false }
  | some f, none =>
    let r := f.toInt rz (intLo (CTy.bits dst) (CTy.unsigned dst)) (intHi (CTy.bits dst) (CTy.unsigned dst)) (x.toNat % 2 ^ (CTy.bits src))
    { val := extendInt r.val, flags := r.flags, sat := r.flags &&& flSAT != 0 }
  | none, none => { val := x, flags := 0, sat := false }

/-- FCVT (R110, R111). -/
def execFcvt (dst src : CTy) (rz : Bool) (d a : BitVec 6) (s : State) : Out :=
  let r := fcvt dst src rz (s.rs a)
  .next (s.compute [.s a.toNat] 3
    [.sreg d.toNat r.val, .flags r.flags, .count .SAT s.me.ntid.toNat (if r.sat then 1 else 0)])

end Sys2Proof.Machine
end

