-- ==== Sys2Proof/Machine/Hazel.lean ====
section
/-! DEFINITION. The Hazel search-tree engine (R236 to R239, R362 to R379): its syllables, and the performance of its commands,
one router atomic at a time. -/

namespace Sys2Proof.Machine

/-! Issue (R236, R237). -/

/-- A command enters the Hazel queue of a Hall, in the issuer's context (R224, R236). -/
def State.enterHazel (s : State) (h : HallId) (kind : HzKind) (va vb vx : Word) (cw : Option Word) (q : QCtl) (issuer : Option Strand) (m : Option Nat)
    (bad : Nat) : State :=
  let x := s.me
  let id := match s.here.slice with | some sl => sl.id | none => 0
  let cmd : HzCmd :=
    { id := (s.hall h).hqNext, kind := kind, va := va, vb := vb, vx := vx, cw := cw, q := q, word := s.curWord, slice := id,
      asid := s.asid, part := s.partId, super := s.superMode, issuer := issuer, issuePc := x.pc, depth := s.depth,
      matchAt := m, bad := bad, clock := s.known, floor := s.engineFloor h .hazel q.scope, sent := issuer.isNone }
  s.onHall h fun H => { H with hq := H.hq ++ [cmd], hqNext := H.hqNext + 1, hzEntered := H.hzEntered || kind == .pool }

/-- The writer that a Hazel command is. rmw: the write is a router atomic, as every update of a node is (R236, R363), which ends no release sequence
(R284). -/
def hazelWriter (h : HallId) (c : HzCmd) (pub : Option Nat) (clock : Clock) (rmw : Bool := false) : Writer :=
  { agent := .engine h .hazel, hall := h, asid := c.asid, part := c.part, scope := c.q.scope, pub := pub, num := c.id, rmw := rmw,
    rel := false, clock := clock, host := false }

/-- A command that the log answers rewrites its completion word only (R347, R378). False: the engine waits for the supervisor (R390). -/
def State.rewriteWord (s : State) (cw : Option Word) (ret : Word) (q : QCtl) : Bool × State :=
  match cw with
  | none => (true, s)
  | some a =>
    let (k, s) := s.nextPub
    let w : Writer := { agent := .engine s.curHall .hazel, hall := s.curHall, asid := s.asid, part := s.partId, scope := q.scope,
                        pub := some k, num := 0, rmw := false, rel := false, clock := s.known, host := false }
    s.writeWord w s.mine s.here.binds a ret

/-- A Hazel syllable: HZ.POOL first, the completion word, room in the queue, the log, the checker (R236, R345 to R347). -/
def State.hazelSyllable (s : State) (rd : List Src) (kind : HzKind) (va vb vx : Word) (d : BitVec 6) (q : QCtl) (bad : Bool) : State :=
  s.readingWhen s.here.hazelFull rd fun s =>
    let used := match s.here.slice with | some sl => sl.hzUsed | none => false
    if bad || (!used && kind != .pool) then s.trapCause .ILLEGAL
    else
      let cw := s.cwOf d
      let enter := fun (s : State) =>
        s.logged va vb (fun ret _ => match s.rewriteWord cw ret q with | (true, t) => t.answerLog.issue | (false, t) => t.freeze) fun s =>
          if s.here.hazelFull then s.freeze
          else
            let (m, bad, s) := s.fillLog.underChecker
            ((s.enterHazel s.curHall kind va vb vx cw q (some s.curStrand) m bad).onSlice fun sl => { sl with hzUsed := true }).issue
      s.wordChecked cw enter

/-- HZ.POOL (R237, R365). -/
def execHzPool (d a : BitVec 6) (c : QCtl) (s : State) : Out :=
  .next (s.hazelSyllable [.s d.toNat, .s a.toNat] .pool (s.rs a) 0 0 d c false)
/-- HZ.ROOT (R237, R373). -/
def execHzRoot (d a : BitVec 6) (c : QCtl) (s : State) : Out :=
  .next (s.hazelSyllable [.s d.toNat, .s a.toNat] .root (s.rs a) 0 0 d c false)
/-- HZ.DESC (R237, R238). -/
def execHzDesc (d a b : BitVec 6) (c : QCtl) (s : State) : Out :=
  .next (s.hazelSyllable [.s d.toNat, .s a.toNat, .s b.toNat] .desc (s.rs a) (s.rs b) 0 d c false)
/-- HZ.EXPAND (R237, R238). -/
def execHzExpand (d a b : BitVec 6) (c : QCtl) (s : State) : Out :=
  .next (s.hazelSyllable [.s d.toNat, .s a.toNat, .s b.toNat] .expand (s.rs a) (s.rs b) 0 d c false)
/-- HZ.BACK (R237, R239). -/
def execHzBack (d a b : BitVec 6) (c : QCtl) (s : State) : Out :=
  .next (s.hazelSyllable [.s d.toNat, .s a.toNat, .s b.toNat] .back (s.rs a) (s.rs b) 0 d c false)
/-- HZ.SWEEP (R237, R374). -/
def execHzSweep (d : BitVec 6) (c : QCtl) (s : State) : Out :=
  .next (s.hazelSyllable [.s d.toNat] .sweep 0 0 0 d c false)
/-- HZ.READ (R237): its count is checked at issue. -/
def execHzRead (d a b x : BitVec 6) (c : QCtl) (s : State) : Out :=
  let n := (s.rs b).toNat
  .next (s.hazelSyllable [.s d.toNat, .s a.toNat, .s b.toNat] .read (s.rs a) (s.rs b) (x.setWidth 64) d c (n = 0 || 64 < n))

/-! The pool descriptor (R364 to R366). -/

/-- A node index that means none (R362). -/
def noNode : Nat := 0xFFFFFFFFFF

/-- A pool descriptor within its limits (R364). -/
def poolOk (d : Bytes) : Bool :=
  let cap := fieldAt d 8 8
  fieldAt d 0 8 % 64 == 0 && cap != 0 && cap < 2 ^ 40 && fieldAt d 16 8 ≤ cap && fieldAt d 24 8 % 8 == 0 &&
    fieldAt d 32 4 / 2 ^ 23 % 256 != 255 && fieldAt d 48 8 < cap && fieldAt d 56 8 == 0

/-- What the engine keeps of a descriptor (R365). -/
def HzPool.ofBytes (a : Word) (d : Bytes) : HzPool :=
  { desc := a, nodes := wordAt d 0, cap := fieldAt d 8 8, free := wordAt d 24, c := BitVec.ofNat 32 (fieldAt d 32 4),
    vloss := BitVec.ofNat 32 (fieldAt d 36 4), fpu := BitVec.ofNat 32 (fieldAt d 40 4),
    q824 := fieldAt d 44 4 % 2 == 1, alt := fieldAt d 44 4 / 2 % 2 == 1 }

/-- Address of byte o of node n (R362). -/
def HzPool.node (P : HzPool) (n o : Nat) : Word := P.nodes + BitVec.ofNat 64 (64 * n + o)

/-! Access to memory. -/

/-- Who a command is for translation (R34). -/
def State.hazelWho (s : State) (h : HallId) (c : HzCmd) : Who :=
  { hall := s.homeOf h c.slice, asid := c.asid, part := c.part, super := c.super, via := some h, slice := some c.slice }

/-- What an action of a command comes to: the engine waits, the command fails with a code, or it goes on. -/
inductive HzAns (α : Type) where
  | wait
  | bad (code : Nat)
  | ok (x : α)

/-- Go on with what an action has given. -/
def hzThen {α β : Type} (x : HzAns α × State) (k : α → State → HzAns β × State) : HzAns β × State :=
  match x with
  | (.wait, s) => (.wait, s)
  | (.bad code, s) => (.bad code, s)
  | (.ok v, s) => k v s

/-- Bytes that the program has written for the command: read as an engine reads (R285). -/
def State.hazelRead (s : State) (h : HallId) (c : HzCmd) (a : Word) (n : Nat) : HzAns Bytes × State :=
  match s.engineResolve (s.hazelWho h c) (s.bindsOf c.slice) wantEngineRead (runFrom a.toNat n) with
  | (.wait, s) => (.wait, s)
  | (.fault _, s) => (.bad 3, s)
  | (.ok ps, s) =>
    match s.engineRead h .hazel c.id c.asid c.part (s.engineReader h .hazel c.part c.floor) ps with
    | (.wait, s) => (.wait, s)
    | (.bad code, s) => (.bad code, s)
    | (.ok bs, s) => (.ok bs, s)

/-- A router atomic's read of bytes of the pool at their home (R236, R363); w: the same action also writes. -/
def State.hazelSee (s : State) (h : HallId) (c : HzCmd) (w : Bool) (a : Word) (n : Nat) : HzAns Bytes × State :=
  match s.engineResolve (s.hazelWho h c) (s.bindsOf c.slice) { wantEngineRead with w := w } (runFrom a.toNat n) with
  | (.wait, s) => (.wait, s)
  | (.fault _, s) => (.bad 3, s)
  | (.ok ps, s) =>
    let far := ps.filter inFabric
    if s.farMissing h .hazel c.id far then (.wait, s.askRuns h .hazel c.id c.asid far)
    else if s.farBad h .hazel c.id far ≠ 0 then (.bad (s.farBad h .hazel c.id far), s.dropFar h .hazel c.id)
    else match s.senseRead c.part (ps.filter fun a => !inFabric a) with
      | (some (_, f), s) => (.bad f.code, s)
      | (none, s) =>
        (.ok (ps.map fun a =>
          if inFabric a then (match s.farCell h .hazel c.id a with | some x => x.byte.getD 0 | none => 0) else Memory.byte s.mem a), s)

/-- A router atomic's write (R236). -/
def State.hazelPut (s : State) (h : HallId) (c : HzCmd) (a : Word) (bs : Bytes) : HzAns Unit × State :=
  match s.engineResolve (s.hazelWho h c) (s.bindsOf c.slice) wantEngineWrite (runFrom a.toNat bs.length) with
  | (.wait, s) => (.wait, s)
  | (.fault _, s) => (.bad 3, s)
  | (.ok ps, s) =>
    match s.invalidAt (fun _ => false) ps with
    | some _ => (.bad 4, s)
    | none =>
      let (k, s) := s.nextPub
      (.ok (), s.engineWrite (hazelWriter h c (some k) c.clock true) (ps.zip bs))

/-- The key under which the answer to a command's atomic at another module is kept. -/
def casKey (c : HzCmd) : Nat := 2 ^ 59 + c.id

/-- The width of a field of so many bytes. -/
def fieldWidth (n : Nat) : Width := if n = 1 then .B else if n = 2 then .H else if n = 4 then .W else .D

/-- A compare-and-swap of a field at another module (R363, R409): it is asked for once. -/
def State.askCas (s : State) (h : HallId) (c : HzCmd) (ps : List Nat) (old new : Nat) : State :=
  let (tag, s) := s.newTag
  let fresh : List FarCell := ps.map fun a => { hall := h, engine := .hazel, cmd := casKey c, addr := a, tag := tag, byte := none, bad := 0 }
  let p := ps.headD 0xE0000000000
  ({ s with farCells := s.farCells ++ fresh }).sendTo (s.partOf c.asid) (fabMember p)
    (.fabricAtomic s.modid (BitVec.ofNat 16 tag) (fabOffset p) c.asid 8 (fieldWidth ps.length) .RLX (BitVec.ofNat 64 new) (BitVec.ofNat 64 old))

/-- A command has asked for a compare-and-swap that has not been taken up yet. -/
def State.casAsked (s : State) (h : HallId) (c : HzCmd) : Bool :=
  s.farCells.any fun x => x.hall == h && x.engine == .hazel && x.cmd == casKey c

/-- What a command has asked of other modules is no longer needed. -/
def State.dropHazel (s : State) (h : HallId) (c : HzCmd) : State := (s.dropFar h .hazel c.id).dropFar h .hazel (casKey c)

/-- A field at another module goes from an old value to a new one: when it has changed meanwhile the whole action is made again. -/
def State.farSwap (s : State) (h : HallId) (c : HzCmd) (ps : List Nat) (old new : Nat) : HzAns Unit × State :=
  if !s.casAsked h c then (.wait, s.askCas h c ps old new)
  else if s.farMissing h .hazel (casKey c) ps then (.wait, s)
  else if s.farBad h .hazel (casKey c) ps ≠ 0 then (.bad (s.farBad h .hazel (casKey c) ps), s.dropHazel h c)
  else
    let got := leNat (ps.map fun a => match s.farCell h .hazel (casKey c) a with | some x => x.byte.getD 0 | none => 0)
    if got = old then (.ok (), s) else (.wait, s.dropHazel h c)

/-- A field goes from its old value to a new one, at its home (R363). -/
def State.hazelSwap (s : State) (h : HallId) (c : HzCmd) (a : Word) (n old new : Nat) : HzAns Unit × State :=
  match s.engineResolve (s.hazelWho h c) (s.bindsOf c.slice) wantEngineWrite (runFrom a.toNat n) with
  | (.ok ps, s) => if ps.any inFabric then s.farSwap h c ps old new else s.hazelPut h c a (leBytes n new)
  | (.wait, s) => (.wait, s)
  | (.fault _, s) => (.bad 3, s)

/-- One indivisible action on one field: its old value decides the new bytes and where the command goes. On a poisoned word a field of less than
a word is written all the same (R263). -/
def State.hazelAtomic (s : State) (h : HallId) (c : HzCmd) (a : Word) (n : Nat) (f : Nat → Option Nat × HzStep) :
    HzAns HzStep × State :=
  match s.engineResolve (s.hazelWho h c) (s.bindsOf c.slice) { wantEngineRead with w := true } (runFrom a.toNat n) with
  | (.wait, s) => (.wait, s)
  | (.fault _, s) => (.bad 3, s)
  | (.ok ps, s) =>
    if ps.any inFabric then
      hzThen (s.hazelSee h c true a n) fun bs s =>
        match f (leNat bs) with
        | (none, st) => (.ok st, s)
        | (some v, st) => hzThen (s.farSwap h c ps (leNat bs) v) fun _ s => (.ok st, s)
    else
      let r := f (leNat (ps.map (Memory.byte s.mem)))
      let put := fun (s : State) => match r.1 with | none => s | some v => (s.hazelPut h c a (leBytes n v)).2
      match s.senseRead c.part ps with
      | (some (_, d), s) => (.bad d.code, if subWord n && d == .word then put s else s)
      | (none, s) => (.ok r.2, put s)

/-- A plain read of a step. -/
def State.hazelLook (s : State) (h : HallId) (c : HzCmd) (a : Word) (n : Nat) (f : Bytes → HzStep) : HzAns HzStep × State :=
  hzThen (s.hazelSee h c false a n) fun bs s => (.ok (f bs), s)

/-- The descriptor as it stands in memory when BUMP, ROOT or a head is read (R366). -/
def State.hazelDesc (s : State) (h : HallId) (c : HzCmd) (P : HzPool) (k : Bytes → State → HzAns HzStep × State) : HzAns HzStep × State :=
  hzThen (s.hazelSee h c false P.desc 64) fun d s => if poolOk d then k d s else (.bad 3, s)

/-! Selection (R367). -/

/-- A value of the pool as FP32. -/
def HzPool.real (P : HzPool) (x : Nat) : Nat :=
  if P.q824 then (let v := sint 32 x; (fp32.pack (v < 0) v.natAbs (-24)).bits) else x

/-- What selection reads of a child. -/
structure HzChild where
  at_ : Nat
  n : Nat
  w : Nat
  p : Nat
  vl : Nat
  freed : Bool

/-- Bytes 0 to 15 of a child. -/
def HzChild.ofBytes (i : Nat) (d : Bytes) : HzChild :=
  { at_ := i, n := fieldAt d 0 4, w := fieldAt d 4 4, p := fieldAt d 8 2 * 65536, vl := fieldAt d 10 2, freed := fieldAt d 12 2 / 8 % 2 == 1 }

/-- The score of a child, r the root of the sum of visits. -/
def HzPool.score (P : HzPool) (r : Nat) (x : HzChild) : Nat :=
  let m := x.n + x.vl
  let e := (fp32.ofInt (m : Nat)).bits
  let vl := (fp32.ofInt (x.vl : Nat)).bits
  let q := if 0 < m then (fp32.div (fp32.sub (P.real x.w) (fp32.mul vl (P.real P.vloss.toNat)).bits).bits e).bits
    else P.real P.fpu.toNat
  let t := (fp32.div (fp32.mul (fp32.mul P.c.toNat x.p).bits r).bits (fp32.add (fp32.ofInt 1).bits e).bits).bits
  (fp32.add q t).bits

/-- A later score beats an earlier one: it is greater, a NaN below every number. -/
def scoreBeats (new old : Nat) : Bool :=
  if (fp32.unpack new).isNan then false
  else if (fp32.unpack old).isNan then true
  else (fp32.compare .LT old new).1

/-- The child that a descent chooses, none when none is eligible. -/
def HzPool.choose (P : HzPool) (cs : List HzChild) : Option Nat :=
  let el := cs.filter fun x => !x.freed
  let sum := el.foldl (fun (t : Nat) x => t + x.n + x.vl) 0
  let r := (fp32.sqrt (fp32.ofInt (sum : Nat)).bits).bits
  (el.foldl (fun (best : Option (Nat × Nat)) x =>
    let v := P.score r x
    match best with
    | none => some (x.at_, v)
    | some (_, b) => if scoreBeats v b then some (x.at_, v) else best) none).map (·.1)

/-! Descents (R238, R368, R369). -/

/-- The record of a descent (R368). -/
def leafRecord (h : HallId) (path : List Nat) (kind : Nat) : Bytes :=
  leBytes 8 (path.getLast?.getD 0) ++ [BitVec.ofNat 8 kind, BitVec.ofNat 8 (path.length - 1)] ++ List.replicate 6 0 ++
    leBytes 8 h.toNat ++ List.replicate 40 0 ++ path.flatMap (leBytes 8 ·)

/-- Address of a slot of a batch. -/
def batchSlot (batch : Word) (slot : Nat) : Word := batch + BitVec.ofNat 64 (64 + 1024 * slot)

/-- Where a descent goes from a node whose bytes 0 to 20 it has read. -/
def descLook (slot : Nat) (path : List Nat) (d : Bytes) : HzStep :=
  let fl := fieldAt d 12 2
  if fl / 2 % 2 = 1 then .record slot path 3
  else if fl % 2 = 0 then .pend slot path
  else if 64 ≤ path.length then .record slot path 4
  else if fieldAt d 14 2 = 0 then .record slot path 5
  else .child slot path (fieldAt d 16 5) (fieldAt d 14 2) 0 []

/-- A plain write of a step, no publication until the command completes (R286). -/
def State.hazelStore (s : State) (h : HallId) (c : HzCmd) (a : Word) (bs : Bytes) (next : HzStep) : HzAns HzStep × State :=
  match s.engineResolve (s.hazelWho h c) (s.bindsOf c.slice) wantEngineWrite (runFrom a.toNat bs.length) with
  | (.wait, s) => (.wait, s)
  | (.fault _, s) => (.bad 3, s)
  | (.ok ps, s) =>
    match s.invalidAt (fun _ => false) ps with
    | some _ => (.bad 4, s)
    | none => (.ok next, s.engineWrite (hazelWriter h c none c.clock) (ps.zip bs))

/-- A step of HZ.DESC. -/
def State.hazelDescend (s : State) (h : HallId) (c : HzCmd) (P : HzPool) : HzStep → HzAns HzStep × State
  | .begin =>
    if P.cap ≤ c.va.toNat ∨ c.vb.toNat % 64 ≠ 0 then (.bad 3, s)
    else s.hazelAtomic h c c.vb 4 fun n =>
      if n < 256 then (some (n + 1), .visit n [] c.va.toNat) else (none, .done 256)
  | .visit slot path n =>
    s.hazelAtomic h c (P.node n 10) 2 fun v => (some ((v + 1) % 65536), .look slot (path ++ [n]))
  | .look slot path => s.hazelLook h c (P.node (path.getLast?.getD 0) 0) 21 (descLook slot path)
  | .child slot path base k i seen =>
    if k ≤ i then
      (.ok (match P.choose (seen.map fun e => HzChild.ofBytes e.1 e.2) with
        | some n => .visit slot path n
        | none => .record slot path 5), s)
    else if P.cap ≤ base + i then (.bad 3, s)
    else s.hazelLook h c (P.node (base + i) 0) 16 fun d => .child slot path base k (i + 1) (seen ++ [(base + i, d)])
  | .pend slot path =>
    s.hazelAtomic h c (P.node (path.getLast?.getD 0) 12) 2 fun v =>
      if v / 4 % 2 = 0 then (some (v % 16 + 4), .record slot path 1) else (none, .record slot path 2)
  | .record slot path kind =>
    s.hazelStore h c (batchSlot c.vb slot) (leafRecord h path kind) (if kind = 2 then .collide slot else .done slot)
  | .collide slot => s.hazelAtomic h c (c.vb + 4) 4 fun n => (some ((n + 1) % 2 ^ 32), .done slot)
  | _ => (.bad 3, s)

/-! Free pieces (R371, R374). -/

/-- A run of nodes cut into pieces, the largest first (R374). -/
def piecesOf (base len : Nat) : List (Nat × Nat) :=
  ((List.range 17).reverse.foldl (fun (acc : Nat × List (Nat × Nat)) c =>
    if len / 2 ^ c % 2 = 1 then (acc.1 + 2 ^ c, acc.2 ++ [(acc.1, c)]) else acc) (base, [])).2

/-- Address of a free-list head. -/
def HzPool.head (P : HzPool) (c : Nat) : Word := P.free + BitVec.ofNat 64 (8 * c)

/-- A head as it is written. -/
def headWord (n : Nat) : Nat := if n = noNode then 2 ^ 64 - 1 else n

/-- The smallest class whose pieces hold k nodes. -/
def classOf (k : Nat) : Nat := ((List.range 16).find? fun c => k ≤ 2 ^ c).getD 16

/-- The BLK bytes of nodes, read for an action that also writes them. -/
def State.seeBlocks (s : State) (h : HallId) (c : HzCmd) (P : HzPool) : List Nat → HzAns (List (Nat × Nat)) × State
  | [] => (.ok [], s)
  | n :: rest =>
    hzThen (s.hazelSee h c true (P.node n 21) 1) fun bs s =>
      hzThen (s.seeBlocks h c P rest) fun xs s => (.ok ((n, leNat bs) :: xs), s)

/-- LISTED is set on the nodes of a piece after its first. -/
def State.listRest (s : State) (h : HallId) (c : HzCmd) (P : HzPool) : List (Nat × Nat) → HzAns Unit × State
  | [] => (.ok (), s)
  | (n, b) :: rest =>
    hzThen (s.hazelPut h c (P.node n 21) [BitVec.ofNat 8 (128 + b % 32)]) fun _ s => s.listRest h c P rest

/-- The places of an action resolve and can be written, and whether one of them is another module's. -/
def State.hazelReach (s : State) (h : HallId) (c : HzCmd) : List (Word × Nat) → HzAns Bool × State
  | [] => (.ok false, s)
  | (a, n) :: rest =>
    match s.engineResolve (s.hazelWho h c) (s.bindsOf c.slice) { wantEngineRead with w := true } (runFrom a.toNat n) with
    | (.wait, s) => (.wait, s)
    | (.fault _, s) => (.bad 3, s)
    | (.ok ps, s) =>
      if (s.invalidAt (fun _ => false) ps).isSome then (.bad 4, s)
      else hzThen (s.hazelReach h c rest) fun far s => (.ok (far || ps.any inFabric), s)

/-- A field of this module is changed as part of one action. The words that it covers in part are read with it: on a poisoned one the write is
made all the same (R263). -/
def State.hazelEdit (s : State) (h : HallId) (c : HzCmd) (a : Word) (n : Nat) (f : Bytes → Bytes) : HzAns Unit × State :=
  match s.engineResolve (s.hazelWho h c) (s.bindsOf c.slice) { wantEngineRead with w := true } (runFrom a.toNat n) with
  | (.wait, s) => (.wait, s)
  | (.fault _, s) => (.bad 3, s)
  | (.ok ps, s) =>
    let put := fun (s : State) => (s.hazelPut h c a (f (ps.map (Memory.byte s.mem)))).2
    match s.senseRead c.part (ps.filter fun p => !(runFrom (p / 4 * 4) 4).all ps.contains) with
    | (some (_, d), s) => (.bad d.code, if d == .word then put s else s)
    | (none, s) => (.ok (), put s)

/-- Several fields are changed in one action: its failure is the first of theirs. -/
def State.hazelEdits (s : State) (h : HallId) (c : HzCmd) : List (Word × Nat × (Bytes → Bytes)) → HzAns Unit × State
  | [] => (.ok (), s)
  | e :: rest =>
    match s.hazelEdit h c e.1 e.2.1 e.2.2 with
    | (.ok _, s) => s.hazelEdits h c rest
    | (.wait, s) => (.wait, s)
    | (.bad code, s) => (.bad code, (s.hazelEdits h c rest).2)

/-- The changes that a push makes: the first node's link and BLK, LISTED on the others, and the head (R374). -/
def HzPool.pushEdits (P : HzPool) (n k old : Nat) : List (Word × Nat × (Bytes → Bytes)) :=
  [(P.node n 16, 6, fun _ => leBytes 5 old ++ [BitVec.ofNat 8 (128 + k)])] ++
    ((runFrom (n + 1) (2 ^ k - 1)).map fun m => (P.node m 21, 1, fun (bs : Bytes) => [BitVec.ofNat 8 (128 + leNat bs % 32)])) ++
    [(P.head k, 8, fun _ => leBytes 8 (headWord n))]

/-- A piece is pushed onto its free list, as one indivisible action at the head's home (R374): everything that it translates comes before
its first write. Where another module keeps the head or a node, the messages of R409 carry one field each: the nodes are written first and the head
is swapped last (DESIGN CHOICE, log 50). -/
def State.hazelPush (s : State) (h : HallId) (c : HzCmd) (P : HzPool) (n k : Nat) (next : HzStep) : HzAns HzStep × State :=
  s.hazelDesc h c P fun _ s =>
    hzThen (s.hazelSee h c true (P.head k) 8) fun bs s =>
      let old := leNat bs % 2 ^ 40
      if old ≠ noNode ∧ P.cap ≤ old then (.bad 3, s)
      else
        let edits := P.pushEdits n k old
        hzThen (s.hazelReach h c (edits.map fun e => (e.1, e.2.1))) fun far s =>
          if !far then hzThen (s.hazelEdits h c edits) fun _ s => (.ok next, s)
          else hzThen (s.seeBlocks h c P (runFrom (n + 1) (2 ^ k - 1))) fun xs s =>
            let link := fun (s : State) =>
              if s.casAsked h c then (.ok (), s)
              else
                hzThen (s.hazelPut h c (P.node n 16) (leBytes 5 old ++ [BitVec.ofNat 8 (128 + k)])) fun _ s => s.listRest h c P xs
            hzThen (link s) fun _ s => hzThen (s.hazelSwap h c (P.head k) 8 (leNat bs) (headWord n)) fun _ s => (.ok next, s)

/-! Expansion (R370, R371). -/

/-- A child as an expansion writes it (R370). -/
def childRecord (parent : Nat) (entry : Bytes) : Bytes :=
  List.replicate 8 0 ++ entry.take 2 ++ List.replicate 14 0 ++ leBytes 5 parent ++ List.replicate 3 0 ++ (entry.drop 4).take 4 ++
    List.replicate 28 0

/-- A pop of the head piece of a list (R371), or the next list. A head at another module is swapped when it still holds what was read (DESIGN CHOICE,
log 50). -/
def State.hazelPop (s : State) (h : HallId) (c : HzCmd) (P : HzPool) (k cl : Nat) : HzAns HzStep × State :=
  if 15 < cl then (.ok (.clear 5), s)
  else s.hazelDesc h c P fun _ s =>
    hzThen (s.hazelSee h c true (P.head cl) 8) fun bs s =>
      let n := leNat bs % 2 ^ 40
      if n = noNode then (.ok (.pop k (cl + 1)), s)
      else if P.cap < n + 2 ^ cl then (.bad 3, s)
      else
        hzThen (s.hazelSee h c false (P.node n 16) 5) fun l s =>
          let link := leNat l
          if link ≠ noNode ∧ P.cap ≤ link then (.bad 3, s)
          else
            hzThen (s.hazelSwap h c (P.head cl) 8 (leNat bs) (headWord link)) fun _ s => (.ok (.write n k 0 (piecesOf (n + k) (2 ^ cl - k))), s)

/-- A step of HZ.EXPAND. The expanded bit is set once other modules have answered for the children written there (R238, R369). -/
def State.hazelExpand (s : State) (h : HallId) (c : HzCmd) (P : HzPool) : HzStep → HzAns HzStep × State
  | .begin =>
    if P.cap ≤ c.va.toNat then (.bad 3, s)
    else hzThen (s.hazelSee h c false (P.node c.va.toNat 12) 9) fun d s =>
        if fieldAt d 0 2 % 2 = 1 then (.ok (.done (fieldAt d 4 5)), s)
        else if fieldAt d 0 2 / 2 % 2 = 1 ∨ c.vb.toNat % 8 ≠ 0 then (.ok (.clear 3), s)
        else hzThen (s.hazelRead h c c.vb 8) fun k s =>
            let k := leNat k
            (.ok (if k = 0 ∨ 1024 < k then .clear 3 else .alloc k), s)
  | .alloc k =>
    s.hazelDesc h c P fun _ s => s.hazelAtomic h c (P.desc + 16) 8 fun b =>
      if b + k ≤ P.cap then (some (b + k), .write b k 0 []) else (none, .pop k (classOf k))
  | .pop k cl => s.hazelPop h c P k cl
  | .write base k i spare =>
    match spare with
    | (n, cl) :: rest => s.hazelPush h c P n cl (.write base k i rest)
    | [] =>
      if k ≤ i then (.ok (.link base k), s)
      else hzThen (s.hazelRead h c (c.vb + BitVec.ofNat 64 (8 + 8 * i)) 8) fun e s =>
          hzThen (s.hazelPut h c (P.node (base + i) 0) (childRecord c.va.toNat e)) fun _ s => (.ok (.write base k (i + 1) []), s)
  | .link base k =>
    hzThen (s.hazelPut h c (P.node c.va.toNat 14) (leBytes 2 k ++ leBytes 5 base)) fun _ s => (.ok (.flag base), s)
  | .flag base => if s.farWaits h .L (some .hazel) then (.wait, s) else s.hazelAtomic h c (P.node c.va.toNat 12) 2 fun v => (some (v / 8 % 2 * 8 + v / 2 % 2 * 2 + 1), .done base)
  | .clear code => s.hazelAtomic h c (P.node c.va.toNat 12) 2 fun v => (some (v / 8 % 2 * 8 + v % 4), .fail code)
  | _ => (.bad 3, s)

/-! Backups (R239, R372). -/

/-- The value that a backup adds at a node an odd or even distance above the leaf. -/
def HzPool.share (P : HzPool) (v up : Nat) : Nat :=
  if P.alt && up % 2 == 1 then (if P.q824 then (2 ^ 32 - v) % 2 ^ 32 else (fp32.negate v).bits) else v

/-- A step of HZ.BACK. -/
def State.hazelBack (s : State) (h : HallId) (c : HzCmd) (P : HzPool) (st : HzStep) : HzAns HzStep × State :=
  let from_ := fun (ns : List Nat) (up : Nat) (dup : Bool) =>
    match ns with
    | [] => HzStep.done up
    | _ => if dup then .addV ns up dup else .addN ns up dup
  match st with
  | .begin =>
    hzThen (s.hazelRead h c c.va 16) fun d s =>
      let kind := fieldAt d 8 1
      let depth := fieldAt d 9 1
      if kind = 0 ∨ 5 < kind ∨ 63 < depth then (.bad 3, s)
      else hzThen (s.hazelRead h c (c.va + 64) (8 * (depth + 1))) fun p s => (.ok (from_ ((List.range (depth + 1)).reverse.map fun j => fieldAt p (8 * j) 8) 0 (kind == 2)), s)
  | .addN (n :: ns) up dup =>
    if P.cap ≤ n then (.bad 3, s)
    else s.hazelAtomic h c (P.node n 0) 4 fun x => (some ((x + 1) % 2 ^ 32), .addW (n :: ns) up dup)
  | .addW (n :: ns) up dup =>
    let u := P.share (c.vb.toNat % 2 ^ 32) up
    s.hazelAtomic h c (P.node n 4) 4 fun x =>
      (some (if P.q824 then (x + u) % 2 ^ 32 else (fp32.add x u).bits), .addV (n :: ns) up dup)
  | .addV (n :: ns) up dup =>
    if P.cap ≤ n then (.bad 3, s)
    else s.hazelAtomic h c (P.node n 10) 2 fun x => (some ((x + 65535) % 65536), from_ ns (up + 1) dup)
  | _ => (.bad 3, s)

/-! Promotion and sweeping (R373, R374). -/

/-- The child range of a node from its record: none for a node not expanded, or in a piece on a free list. -/
def childRange (d : Bytes) : List Nat :=
  if fieldAt d 12 2 % 2 = 1 ∧ fieldAt d 21 1 / 128 = 0 then runFrom (fieldAt d 16 5) (fieldAt d 14 2) else []

/-- A step of HZ.ROOT. -/
def State.hazelRoot (s : State) (h : HallId) (c : HzCmd) (P : HzPool) : HzStep → HzAns HzStep × State
  | .begin =>
    if P.cap ≤ c.va.toNat then (.bad 3, s)
    else s.hazelDesc h c P fun d s => s.hazelLook h c (P.node c.va.toNat 0) 29 fun r =>
      if fieldAt r 12 2 / 8 % 2 = 1 ∨ fieldAt r 24 5 ≠ fieldAt d 48 8 then .fail 3 else .mark [fieldAt d 48 8] []
  | .mark todo seen =>
    match todo with
    | [] => (.ok .orphan, s)
    | n :: rest =>
      if P.cap ≤ n then (.bad 3, s)
      else s.hazelAtomic h c (P.node n 12) 2 fun v => (some (v % 8 + 8), .kids n rest (n :: seen))
  | .kids n rest seen =>
    hzThen (s.hazelSee h c false (P.node n 0) 22) fun r s =>
      let kids := (childRange r).filter fun m => m != c.va.toNat && !seen.contains m && !rest.contains m
      let todo := rest ++ kids
      let (k, s) := s.drawChoice
      let next := todo.getD (k % todo.length) 0
      (.ok (.mark (if todo.isEmpty then [] else next :: todo.filter (· != next)) seen), s)
  | .orphan =>
    hzThen (s.hazelPut h c (P.node c.va.toNat 24) (leBytes 5 noNode)) fun _ s => (.ok .setRoot, s)
  | .setRoot =>
    hzThen (s.hazelPut h c (P.desc + 48) (leBytes 8 c.va.toNat)) fun _ s => (.ok (.done c.va.toNat), s)
  | _ => (.bad 3, s)

/-- Every node of a block is freed and none is listed; none when one of them cannot be read. -/
def State.blockFreed (s : State) (h : HallId) (c : HzCmd) (P : HzPool) : List Nat → HzAns Bool × State
  | [] => (.ok true, s)
  | n :: rest =>
    if P.cap ≤ n then (.bad 3, s)
    else hzThen (s.hazelSee h c false (P.node n 0) 22) fun r s =>
        if fieldAt r 12 2 / 8 % 2 = 1 ∧ fieldAt r 21 1 / 128 = 0 then s.blockFreed h c P rest else (.ok false, s)

/-- A step of HZ.SWEEP. -/
def State.hazelSweep (s : State) (h : HallId) (c : HzCmd) (P : HzPool) : HzStep → HzAns HzStep × State
  | .begin => s.hazelDesc h c P fun d s => (.ok (.scan 0 (fieldAt d 48 8) (fieldAt d 16 8) 0), s)
  | .scan n root bump freed =>
    if bump ≤ n then (.ok (.done freed), s)
    else hzThen (s.hazelSee h c false (P.node n 0) 29) fun r s =>
        let kids := childRange r
        hzThen (s.blockFreed h c P kids) fun all s =>
          let own := fieldAt r 24 5 = noNode ∧ n ≠ root ∧ fieldAt r 12 2 / 8 % 2 = 1 ∧ fieldAt r 21 1 / 128 = 0
          (.ok (.push n root bump freed ((if all && !kids.isEmpty then piecesOf (fieldAt r 16 5) kids.length else []) ++
            (if own then [(n, 0)] else []))), s)
  | .push n root bump freed pieces =>
    match pieces with
    | [] => (.ok (.scan (n + 1) root bump freed), s)
    | (m, k) :: rest => s.hazelPush h c P m k (.push n root bump (freed + 2 ^ k) rest)
  | _ => (.bad 3, s)

/-- A step of HZ.READ (R225, R237): record i enters the tile of the engine's Hall, after all strand writes of the Hall cycle (R158). -/
def State.hazelCopy (s : State) (h : HallId) (c : HzCmd) (P : HzPool) (st : HzStep) : HzAns HzStep × State :=
  let i := match st with | .copy i => i | _ => 0
  if c.vb.toNat ≤ i then (.ok (.done i), s)
  else if P.cap ≤ c.va.toNat + i then (.bad 3, s)
  else hzThen (s.hazelSee h c false (P.node (c.va.toNat + i) 0) 64) fun bs s =>
      let cells := bs.mapIdx fun j b => (4096 * c.vx.toNat + 64 * i + j, b)
      (.ok (.copy (i + 1)), s.onHall h fun H => { H with tileWrites := H.tileWrites ++ cells })

/-- A step of HZ.POOL (R365). -/
def State.hazelBind (s : State) (h : HallId) (c : HzCmd) : HzAns HzStep × State :=
  let unbound := fun (s : State) => s.onHall h fun H => { H with pool := none, poolAddr := 0 }
  if c.va.toNat % 64 ≠ 0 then (.bad 3, unbound s)
  else match s.hazelRead h c c.va 64 with
    | (.wait, s) => (.wait, s)
    | (.bad code, s) => (.bad code, unbound s)
    | (.ok d, s) =>
      if poolOk d then (.ok (.done 0), s.onHall h fun H => { H with pool := some (.ofBytes c.va d), poolAddr := c.va })
      else (.bad 3, unbound s)

/-! The queue. -/

/-- The next action of a command, on the pool to which the engine was bound when it started (R379). -/
def State.hazelAct (s : State) (h : HallId) (c : HzCmd) (pool : Option HzPool) (st : HzStep) : HzAns HzStep × State :=
  match c.kind, pool with
  | .pool, _ => s.hazelBind h c
  | _, none => (.bad 3, s)
  | .root, some P => s.hazelRoot h c P st
  | .desc, some P => s.hazelDescend h c P st
  | .expand, some P => s.hazelExpand h c P st
  | .back, some P => s.hazelBack h c P st
  | .sweep, some P => s.hazelSweep h c P st
  | .read, some P => s.hazelCopy h c P st

/-- The first of the commands that have come back with a slice is to fail (R379). -/
def failBack (id : Nat) : List HzCmd → List HzCmd
  | [] => []
  | c :: rest => if c.back && c.slice == id then { c with unbound := true } :: rest else c :: failBack id rest

/-- The engine re-reads the descriptor of a slice that has come back (R379), as HZ.POOL would. When it fails R364, the first of the commands that
have come back fails. -/
def State.hazelRebind (s : State) (h : HallId) (a : Word) : State :=
  match (s.hall h).slice with
  | none => s.onHall h fun H => { H with rebind := none }
  | some sl =>
    let c : HzCmd :=
      { id := 2 ^ 61, kind := .pool, va := a, vb := 0, vx := 0, cw := none, q := { scope := .device, ev := 0, we := false },
        word := 0, slice := sl.id, asid := sl.asid, part := sl.part, super := sl.super, issuer := none, issuePc := 0, depth := 0,
        matchAt := none, bad := 0, clock := [],
        floor := renewedFloor .device (s.engineSeat h .hazel sl.part) (s.strand h .L).clock s.pubs s.hist [] }
    if a = 1 then s.onHall h fun H => { H with pool := none, poolAddr := 0, rebind := none }
    else match s.hazelBind h c with
      | (.bad _, s) => s.onHall h fun H => { H with hq := failBack sl.id H.hq, rebind := none }
      | (_, s) => s

/-- The engine is to re-read a descriptor before its next command: a slice has come back, and the engine is bound to no pool yet, or another agent's
HZ.POOL has bound it since and the next command is the slice's (R379). -/
def Hall.toRebind (H : Hall) : Option Word :=
  match H.rebind, H.hq with
  | some a, c :: _ => if H.pool.isNone || (H.runs c.slice && H.poolAddr != a) then some a else none
  | some a, [] => if H.pool.isNone then some a else none
  | none, _ => none

/-- HAZEL_COMMAND_START (R197, R236): the head of the queue starts once it has been matched and its event has been taken. -/
def State.startHazel (s : State) (h : HallId) : State :=
  let H := s.hall h
  if H.hz.isSome then s
  else match H.toRebind, H.hq with
    | some a, _ => s.hazelRebind h a
    | none, [] => s
    | none, c :: rest =>
      if c.matchAt.isSome || H.leaving c.slice then s
      else
        let take : Option (Stamp × State) := if c.q.we then s.engineTake h c.q.ev.toNat else some (.empty, s)
        match take with
        | none => s
        | some (t, s) =>
          let k := Clock.join (Clock.join c.clock t.clock) H.hzClock
          let c := { c with clock := k, floor := if c.q.we then s.takenFloor h .hazel c.part t k c.floor else c.floor }
          let (d, s) := s.drawDelay
          let first : HzStep := if c.bad ≠ 0 then .fail c.bad else if c.unbound then .fail 3 else .begin
          s.onHall h fun H =>
            { H with hq := rest, hz := some { cmd := c, step := first, nextAt := H.cycle + d, pool := H.pool }
                     rebind := if H.runs c.slice then none else H.rebind }

/-- HAZEL_COMMAND_START (R236). -/
def execHazelCommandStart (h : HallId) (s : State) : Out := .next (s.startHazel h)

/-- The writes of a command become publications (R286). -/
def State.releaseHazel (s : State) (h : HallId) (c : HzCmd) (k : Nat) : State :=
  s.releaseVersions ((s.hist.filter fun v => v.agent == .engine h .hazel && v.num == c.id).map (·.id)) k c.clock

/-- The command in progress ends (R203, R236, R339, R346): its completion word with release at the scope, its log entry, its
detected error. A command that ENQ.X has delivered is logged with the ENQ.X, not again. -/
def State.closeHazel (s : State) (h : HallId) (c : HzCmd) (cur code : Nat) : State :=
  let (k, s) := s.nextPub
  let know := c.clock.up (.engine h .hazel) k
  let w := wordOf cur code (if code = 0 then 1 else 2)
  let r : Bool × State :=
    match c.cw with
    | none => (true, s)
    | some a => s.writeWord (hazelWriter h c (some k) know) (s.hazelWho h c) (s.bindsOf c.slice) a w
  if !r.1 then r.2
  else
    let s := (r.2.dropHazel h c).onHall h fun H => (({ H with hz := none }).learn .hazel know).tellMarkers .hazel c.id know
    let s := s.releaseHazel h c k
    let s := match s.findSlice c.slice with
      | none => s
      | some g =>
        if c.sent then s
        else if code = 1 ∨ code = 2 ∨ code = 6 then s.dropLog g c.depth
        else s.logEntry g c.word c.depth c.va c.vb w
    s.commandError c.slice c.depth code (c.issuer.getD .L) c.issuePc c.cw.isNone

/-- The command in progress ends, once other modules have answered for what it has sent them, and at FABRIC for its publication (R286, R290). -/
def State.endHazel (s : State) (h : HallId) (r : HzRun) (cur code : Nat) : State :=
  if r.cmd.q.scope = .fabric ∧ !r.asked then
    let (k, s) := s.nextPub
    ((s.releaseHazel h r.cmd k).fabricPublish h .L (some .hazel) r.cmd.asid).onHall h fun H => { H with hz := some { r with asked := true } }
  else if s.farWaits h .L (some .hazel) then s
  else s.closeHazel h r.cmd cur code

/-- HAZEL_NODE_ATOMIC (R236, R363, R366): the next action of the command in progress. -/
def State.hazelNode (s : State) (h : HallId) : State :=
  match (s.hall h).hz with
  | none => s
  | some r =>
    if (s.hall h).cycle < r.nextAt then s
    else match r.step with
      | .done cur => s.endHazel h r cur 0
      | .fail code => s.endHazel h r 0 code
      | st =>
        match s.hazelAct h r.cmd r.pool st with
        | (.wait, s) => s
        | (.bad code, s) => s.onHall h fun H => { H with hz := some { r with step := .fail code } }
        | (.ok st, s) =>
          let (d, s) := (s.dropHazel h r.cmd).drawDelay
          s.onHall h fun H => { H with hz := some { r with step := st, nextAt := H.cycle + 1 + d } }

/-- HAZEL_NODE_ATOMIC (R236). -/
def execHazelNodeAtomic (h : HallId) (s : State) : Out := .next (s.hazelNode h)

end Sys2Proof.Machine
end

