-- ==== Sys2Proof/Machine/System.lean ====
section
/-! DEFINITION. System syllables (R211 to R226): traps and numerical checkpoints, ending, yielding and dividing work,
checkpoints and pre-emption decisions, creating work, and binding weight sets. -/

namespace Sys2Proof.Machine

/-! Traps and numerical checkpoints. -/

/-- TRAP (R211). -/
def execTrap (code : BitVec 16) (s : State) : Out := .next (s.trapAfter { cause := .BREAK, code := code })

/-- A result of the strand that still is to set a flag or count an event (R159, R213). -/
def StrandState.flagsPending (x : StrandState) : Bool :=
  x.pends.any fun p => p.upds.any fun u => match u with
    | .flags f => f != 0 | .count _ _ n => n != 0
    | .sreg _ _ => false | .preg _ _ => false | .btgt _ _ _ => false | .tile _ => false | .mask _ => false | .shape _ _ => false
    | .ntid _ => false | .bind _ _ => false | .renew _ => false | .learn _ => false

/-- What TFENCE raises once its waits are over (R89, R94, R208, R213). -/
def State.fenceRaise (s : State) : State :=
  match s.here.slice with
  | none => s.clearWait.issue
  | some sl =>
    if s.me.nflags &&& sl.trapEnable != 0 || sl.ntstat != 0 then s.clearWait.trapAfter { cause := .ARITH }
    else if sl.noteEn && sl.notePend then s.clearWait.trapAfter { cause := .EXPIRED, detail := 4 }
    else s.clearWait.issue

/-- TFENCE (R213). While flag updates of earlier syllables are on their way its strand waits with its local cycles going on (log
12); an M strand waits for the matrix commands issued before it. -/
def execTfence (s : State) : Out :=
  .next (if s.me.flagsPending then s.hold
    else match s.curStrand with
      | .M =>
        if s.stage = 0 then
          let n := s.here.mqNext
          if s.here.ahead .matrix n then s.toStage (n + 1) else s.fenceRaise
        else if s.here.ahead .matrix (s.stage - 1) then s.freeze else s.fenceRaise
      | .S => s.fenceRaise | .L => s.fenceRaise | .V => s.fenceRaise)

/-- NTAG (R214). -/
def execNtag (id : BitVec 8) (s : State) : Out := .next (s.result 1 [.ntid id]).issue

/-- The strands of a stopped slice as ERET leaves them (R212, R396): each at the program counter of the record, what it had begun of its syllable
kept when that is still the one at its program counter, and a LAUNCH or ENQ.X that will not be matched no longer counted (R334). -/
def State.eretStrands (s : State) (h : HallId) (r : TrapRec) (pcs : Vector Word 4) (replay : Bool) : State :=
  let strand := fun (i : Nat) (x : StrandState) =>
    let pc : Word := (pcs[i]?.getD 0) &&& ~~~7#64
    let same := decide (pc = r.pcs[i]?.getD 0)
    { x with pc := pc, frozen := false, fetched := false, issueFrom := x.local_
             wait := if same then { x.wait with since := none } else .none
             replay := if replay then x.replay else [] }
  let moved := decide ((pcs[0]?.getD 0) &&& ~~~7#64 ≠ r.pcs[0]?.getD 0)
  s.onHall h fun H =>
    { H.uncount (if moved then H.work.S.unmatched else []) with
      trap := none
      work := { H.work with S := strand 0 H.work.S, L := strand 1 H.work.L, M := strand 2 H.work.M, V := strand 3 H.work.V }
      slice := H.slice.map fun sl => { sl with left := 256 * sl.packet.budget, ending := false, waitPred := false } }

/-- The stopped slice resumes (R212, R396); an error held during the stop begins its rollback instead, and the replay bit is dropped (R351). -/
def State.eretResume (s : State) (h : HallId) (r : TrapRec) (pcs : Vector Word 4) (replay : Bool) : State :=
  let back := match (s.hall h).trap with | some t => t.held | none => none
  let s := s.eretStrands h r pcs (replay && back.isNone)
  match back with
  | some e => s.actHeld h e
  | none => s

/-- The record that ERET disposes of is closed (R396). -/
def State.closeRecord (s : State) (p : PartId) : State := s.onPart p fun P => { P with open_ := none }

/-- ERET disposes of the record by a kill (R320, R396). Where the fresh record finds no place, the kill turns into a drain: the slice resumes (R311).
After a MACHINE_CHECK, which is never resumed, the slice stays stopped until a place is left (log 18). Commands of its that have started complete
first. -/
def State.eretKill (s : State) (h : HallId) (check : Bool) (strands resume : State → State) : State :=
  let busy := match (s.hall h).slice with | some sl => (s.hall h).performing sl.id || ((s.kills h).isNone && !s.evRoom sl.part) | none => false
  match s.kills h, (s.hall h).slice with
  | none, none => s
  | some t, none => t
  | k, some sl =>
    if busy then
      ((strands s).leaveStopped h .kill).onHall h fun H => { H with switch := H.switch.map fun w => { w with captured := check } }
    else match k with
    | some t => t
    | none =>
    let s := s.noPlace h sl
    if check then
      s.onHall h fun H =>
        { H with trap := none, mFault := none, preempt := none
                 switch := some { how := .kill, from_ := 0, captured := true, rows := [], tiles := 0, ranges := [], told := true } }
    else resume s

/-- ERET (R212, R396). MACHINE_CHECK is never resumed. -/
def execEret (s : State) : Out :=
  let p := s.partId
  .next (if !s.superMode then s.trapCause .PRIV
    else match (s.part p).open_, s.isSupervisor with
      | some r, true =>
        let P := s.part p
        let act := P.trapAct.extractLsb' 1 2
        let check := r.cause.extractLsb' 0 8 == 0x11#8
        let h := r.hall
        let s := (s.closeRecord p).issue
        let replay := P.trapAct.getLsbD 0
        let resume := fun (s : State) => s.eretResume h r P.pcs replay
        if act = 0 ∧ !check then resume s
        else if act ≤ 1 then s.eretKill h check (fun s => s.eretStrands h r P.pcs replay) resume
        else s.terminate h
      | _, _ => s.trapCause .ILLEGAL)

/-! Ending. -/

/-- The address of the counter block of a slice, 0 for none, and whether it is in use (R92). -/
def Slice.countsTo (sl : Slice) : Option Nat := if sl.counting ∧ sl.packet.cb ≠ 0 then some sl.packet.cb.toNat else none

/-- The event of a counter block that cannot be reached finds no room (R92, R400). -/
def State.countersWait (s : State) (h : HallId) (sl : Slice) : Bool :=
  match sl.countsTo with
  | none => false
  | some cb =>
    let u : Who := { hall := h, asid := sl.asid, part := sl.part, super := sl.super }
    let want : Want := { kind := .atomic, r := true, w := true, x := false, access := .atomic, width := 2 }
    !s.evRoom sl.part &&
      (match resolveAll (s.resolveDirect u sl.wsets want) (sl.counters.flatMap fun e => runFrom (cb + 16 * (e.1 / 3) + 4 * (e.1 % 3)) 4) with
        | .error _ => true | .ok _ => false)

/-- The counters are added into the slice's counter block (R92). A translation or protection fault becomes a host-assisted event;
a data fault is raised at SLICE.END (R215). -/
def State.addCounters (s : State) (h : HallId) (sl : Slice) : Option TrapInfo × State :=
  match sl.countsTo with
  | none => (none, s)
  | some cb =>
    let u : Who := { hall := h, asid := sl.asid, part := sl.part, super := sl.super }
    let want : Want := { kind := .atomic, r := true, w := true, x := false, access := .atomic, width := 2 }
    let words := sl.counters.map fun e => (cb + 16 * (e.1 / 3) + 4 * (e.1 % 3), e.2)
    match resolveAll (s.resolveDirect u sl.wsets want) (words.flatMap fun w => runFrom w.1 4) with
    | .error _ =>
      (none, s.raiseEvent sl.part (hostEvent 3 h.toNat sl.asid 0 0 0 (BitVec.ofNat 64 cb)))
    | .ok ps =>
      match s.senseRead sl.part ps with
      | (some (a, f), s) =>
        let va := ((ps.zip (words.flatMap fun w => runFrom w.1 4)).find? fun e => e.1 / 4 == a / 4).map (·.2)
        (some { cause := f.cause, access := .atomic, width := 2, detail := f.code, addr := BitVec.ofNat 64 (va.getD cb) }, s)
      | (none, s) =>
        let cells := (words.mapIdx fun i w =>
          let at_ := (ps.drop (4 * i)).take 4
          at_.zip (leBytes 4 (satAdd32 (BitVec.ofNat 32 (leNat (at_.map (Memory.byte s.mem)))) w.2.toNat).toNat)).flatten
        let (k, s) := s.nextPub
        let a := s.agentOf h .S
        let s := s.writeHome { agent := a, hall := h, asid := sl.asid, part := sl.part, scope := .device, pub := some k, num := 0,
                               rmw := true, rel := false, clock := s.knownBy h .S, host := false } cells
        (none, s.onStrand h .S fun x => { x with clock := x.clock.up a k })

/-- A strand's part of the publication of SLICE.END begins, if it has not. -/
def State.endPart (s : State) (h : HallId) (st : Strand) : State :=
  match (s.strand h st).wait.pub with
  | .idle =>
    let put := fun (s : State) (p : PubState) => s.onStrand h st fun y => { y with wait := { y.wait with pub := p } }
    if s.hasWork h st .device then
      let (d, s) := s.drawDelay
      put (s.drainAll h) (.waiting .device ((s.hall h).cycle + (if st == .S || st == .L || (s.hall h).toCompare then 6 else 1) + d))
    else put (s.publishHall h st .device) .done
  | .waiting _ _ => s
  | .acking _ => s
  | .failed _ => s
  | .done => s

/-- The first fault among the publications of the four strands, in ring order. -/
def State.endFault (s : State) (h : HallId) : Option TrapInfo :=
  ring.findSome? fun st => match (s.strand h st).wait.pub with
    | .failed t => some t | .idle => none | .waiting _ _ => none | .acking _ => none | .done => none

/-- Every strand's publication is over. -/
def State.endDone (s : State) (h : HallId) : Bool :=
  ring.all fun st => match (s.strand h st).wait.pub with
    | .failed _ => true | .done => true | .idle => false | .waiting _ _ => false | .acking _ => false

/-- SLICE.END does not end the slice (R121, R215): its fault is raised at it, and neither it nor its sync group
has issued (R393; log 23). -/
def State.endFails (s : State) (t : TrapInfo) : State := (s.onHere Hall.unend).trapHere t

/-- A command of a slice is queued or in progress on a Hall. -/
def Hall.working (H : Hall) (id : Nat) : Bool :=
  H.cq.any (·.slice == id) || H.mq.any (·.slice == id) || H.hq.any (·.slice == id) ||
    (match H.copy with | some r => r.cmd.slice == id | none => false) || (match H.hz with | some r => r.cmd.slice == id | none => false)

/-- The instance of a slice learns what the slice knows at its end (R301, R219). -/
def State.stampInst (s : State) (h : HallId) (sl : Slice) : State :=
  let c := ring.foldl (fun c st => Clock.join c (s.knownBy h st)) []
  s.onInst sl.inst fun i => { i with stamp := Clock.join i.stamp c }

/-- SLICE.END issues (R18, R215): the other strands stop at their next boundary. -/
def State.beginEnd (s : State) : State :=
  { (s.onSlice fun sl => { sl with ending := true }).toStage 1 with issued := true, target := some s.me.pc }

/-- The four strands publish for SLICE.END, the counters are added, and the slice ends (R215). -/
def State.finishEnd (s : State) (sl : Slice) : State :=
  let h := s.curHall
  let s := ring.foldl (fun s st => s.endPart h st) s
  if !s.endDone h then s.freeze
  else match s.endFault h with
    | some t => s.endFails t
    | none =>
      if s.countersWait h sl then s.freeze
      else match s.addCounters h sl with
      | (some t, s) => s.endFails t
      | (none, s) => (s.stampInst h sl).afterEnd h sl

/-- The publications of SLICE.END begin: what the strands had begun of their own syllables is left. -/
def State.startEndPubs (s : State) : State :=
  let keep := fun (x : StrandState) =>
    match x.wait.pub with | .failed t => { x with wait := { Wait.none with pub := .failed t } } | _ => { x with wait := .none }
  ([Strand.L, .M, .V].foldl (fun s st => s.onStrand s.curHall st keep) s).toStage 3

/-- SLICE.END (R215), in stages: it issues; everything in flight lands (1); the commands are performed (2); the four strands publish (3), the
counters are added, and the slice ends. -/
def execSliceEnd (s : State) : Out :=
  .next (s.outsideRegions fun s =>
    match s.here.slice with
    | none => s.issue
    | some sl =>
      let n := s.stage
      if n = 0 then s.beginEnd
      else if n = 1 ∧ !s.here.quiet then s.hold
      else if n ≤ 2 ∧ s.here.working sl.id then s.toStage 2
      else (if n ≤ 2 then s.startEndPubs else s).finishEnd sl)

/-- SLICE.YIELD (R216). -/
def execSliceYield (s : State) : Out :=
  .next (s.outsideRegions fun s => s.publishing .device fun s => (s.clearWait.beginLeave s.curHall .yield [] 0 []).issue)

/-! Dividing work and dependent kernels. -/

/-- RANGE.NEXT (R217). -/
def execRangeNext (d a : BitVec 6) (land : BitVec 12) (s : State) : Out :=
  .next (s.outsideRegions fun s => s.readingWhen s.slotsFull [.s a.toNat] fun s =>
    s.withSlot fun s => s.request (.rangeNext d.toNat (s.rs a)) [.s d.toNat, .s (d + 1).toNat] land 0 [])

/-- The range gives its next chunk (R217): the first index and the count. -/
def State.takeRange (s : State) (h : HallId) (c : Word) : Word × Word × State :=
  match (s.hall h).slice with
  | none => (0, 0, s)
  | some sl =>
    let n := if c ≤ sl.hi - sl.lo then c else sl.hi - sl.lo
    (sl.lo, n, s.onHall h (Hall.onSlice · fun sl => { sl with lo := sl.lo + n }))

/-- HINT.SUCC (R218, R312). -/
def execHintSucc (s : State) : Out :=
  .next (match s.here.slice with | some sl => (s.releaseSucc sl.inst).issue | none => s.issue)

/-- WAIT.PRED (R219): the cycles in which S is frozen here, those of the renewal among them, are not charged (R305). -/
def execWaitPred (s : State) : Out :=
  let mark := fun (s : State) (b : Bool) => s.onSlice fun sl => { sl with waitPred := b }
  .next (match s.here.slice with
    | none => s.issue
    | some sl =>
      match (s.inst sl.inst).bind (fun i => i.pred.bind s.inst) with
      | none => (mark s true).renewing .device fun s => (mark s false).clearWait.issue
      | some p =>
        if p.ended then
          ((mark s true).onMe fun x => { x with clock := Clock.join x.clock p.stamp }).renewing .device fun s => (mark s false).clearWait.issue
        else (mark s true).freeze)

/-! Checkpoints and pre-emption decisions. -/

/-- The running slice's aged estimate in ns (R313). -/
def State.agedEstimate (s : State) (sl : Slice) : Option Nat := sl.estimate.map fun e => e.1 - (s.devtime - e.2)

/-- The policy of R313's table. -/
def State.policyFor (s : State) (sl : Slice) : Policy :=
  match s.agedEstimate sl with
  | some e => if e < (s.part sl.part).drain.toNat then .drain else if sl.packet.restart then .kill else .checkpoint
  | none => if sl.packet.restart then .kill else .checkpoint

/-- A ready record outranks the running slice by PMIN (R313). The supervisor slice is never pre-empted (R394). -/
def State.outranked (s : State) (h : HallId) : Bool :=
  match (s.hall h).slice with
  | none => false
  | some sl => !sl.supervisor && (s.hall h).deque.any fun r => sl.packet.prio + (s.part sl.part).pmin.toNat ≤ r.prio

/-- Codes of PREDEC.POL (R313). -/
def Policy.code : Policy → Nat
  | .drain => 0 | .checkpoint => 1 | .kill => 2

/-- A pre-emption decision (R313): with PRE set it is the supervisor's, and not made before its event finds room (R400). -/
def State.decide (s : State) (h : HallId) : State :=
  match (s.hall h).slice with
  | none => s
  | some sl =>
    let pol := s.policyFor sl
    if (s.part sl.part).mode.getLsbD 2 then
      if !s.evRoom sl.part then s
      else (s.onHall h fun H => { H with preempt := some { policy := pol, asked := true, left := 0, lastTick := s.tick } }).raiseEvent sl.part
        (hostEvent 2 h.toNat sl.asid 0 pol.code 0 0)
    else s.settlePreempt h pol

/-- PRE_EMPTION_DECISION (R313, R314): a decision is made; a pending pre-emption that nothing calls for any more is cancelled; a
kill that a trap held up begins (R393). -/
def State.preemptStep (s : State) (h : HallId) : State :=
  let H := s.hall h
  if H.slice.isNone || H.switch.isSome then s
  else match H.preempt with
    | none => if s.outranked h then s.decide h else s
    | some e =>
      if !s.outranked h then s.onHall h fun H => { H with preempt := none }
      else if e.policy = .kill ∧ !e.asked then s.settlePreempt h .kill
      else s

/-- PRE_EMPTION_DECISION (R313). -/
def execPreEmptionDecision (h : HallId) (s : State) : Out := .next (s.preemptStep h)

/-- A live-range table (R221). -/
structure LiveRanges where
  tiles : BitVec 32
  rows : List Nat
  ranges : List (Nat × Nat)
  deriving DecidableEq, Repr

/-- An entry of a live-range table is added: none when it is malformed (R221). -/
def LiveRanges.add (t : LiveRanges) (e : Bytes) : Option LiveRanges :=
  let kind := fieldAt e 0 1
  let len := fieldAt e 4 4
  let arg := fieldAt e 8 8
  if fieldAt e 1 3 ≠ 0 then none
  else if kind = 1 ∧ len = 0 then some { t with tiles := t.tiles ||| BitVec.ofNat 32 arg }
  else if kind = 2 ∧ len = 0 then
    let first := arg % 65536
    let n := arg / 65536 % 65536
    if n = 0 ∨ 512 < n ∨ 512 < first + n then none
    else some { t with rows := t.rows ++ (runFrom first n).filter fun r => !t.rows.contains r }
  else if kind = 3 ∧ len ≠ 0 ∧ len % 64 = 0 ∧ arg % 64 = 0 ∧ arg + len ≤ 0x4000000 then some { t with ranges := t.ranges ++ [(arg, len)] }
  else none

/-- The table at an address: none when it is malformed or its reading meets a fault (R220). -/
def State.readTable (s : State) (u : Who) (binds : List (BitVec 32 × BitVec 32)) (a : Word) : Option LiveRanges × State :=
  if a = 0 then (some { tiles := 0, rows := [], ranges := [] }, s)
  else match s.deviceRead u binds a 8 with
    | (.error _, s) => (none, s)
    | (.ok d, s) =>
      let n := fieldAt d 0 2
      if 256 < n then (none, s)
      else match s.deviceRead u binds (a + 8) (16 * n) with
        | (.error _, s) => (none, s)
        | (.ok es, s) =>
          ((List.range n).foldl (fun (t : Option LiveRanges) i => t.bind fun t => t.add ((es.drop (16 * i)).take 16))
            (some { tiles := 0, rows := [], ranges := [] }), s)

/-- CKPT takes a pending checkpoint, or decides a drain again (R220, R313, R314). -/
def State.ckptTake (s : State) (table : Word) : State :=
  let h := s.curHall
  let s : State := match s.here.preempt with
    | some (e : Preempt) => if e.policy = Policy.drain ∧ !e.asked ∧ s.outranked h then s.decide h else s
    | none => s
  match s.here.preempt with
  | some e =>
    if e.policy = Policy.checkpoint ∧ !e.asked then
      match s.readTable s.mine s.here.binds table with
      | (some t, s) => s.beginLeave h .checkpoint t.rows t.tiles t.ranges
      | (none, s) => s.beginLeave h .full [] 0 []
    else s
  | none => s

/-- CKPT (R220). -/
def execCkpt (a b : BitVec 6) (s : State) : Out :=
  .next (s.outsideRegions fun s => s.reading [.s a.toNat, .s b.toNat] fun s =>
    let table := s.rs a
    let est := s.rs b
    let go := fun (s : State) => s.publishing .device fun s =>
      let t := s.devtime
      ((s.clearWait.onSlice fun sl => { sl with estimate := some (est.toNat, t) }).ckptTake table).issue
    if table = 0 then go s else s.withBytes (wantLoad .D) 8 table 8 fun _ s => go s)

/-- BOOST.REQ (R222). -/
def execBoostReq (lvl : Level) (s : State) : Out :=
  .next (s.onHere fun H => { H with boostReq := lvl, boostFrom := s.tick }).issue

/-! Creating work. -/

/-- The frozen S strand reads bytes for LAUNCH or ENQ.X: not yet, a data fault, or the bytes as its snapshot gives them. -/
def State.frozenRead (s : State) (ps : List Nat) : Got × State :=
  let key := 2 ^ 62 + ps.headD 0
  let far := ps.filter inFabric
  if s.mustReport s.partId ps then (.wait, s)
  else if s.farMissing s.curHall .matrix key far then (.wait, s.askFar s.curHall .matrix key s.asid (s.readerOf s.curHall s.curStrand s.me.stores) far)
  else if s.farBad s.curHall .matrix key far ≠ 0 then (.bad (s.farBad s.curHall .matrix key far), s.dropFar s.curHall .matrix key)
  else
    let near := ps.filter fun a => !inFabric a
    match s.senseRead s.partId near with
    | (some (_, f), s) => (.bad f.code, s)
    | (none, s) =>
      let (bs, ns, s) := s.readBytes (s.readerOf s.curHall s.curStrand s.me.stores) near
      let tab := near.zip bs
      let s := s.onMe fun x => x.hasRead ns
      (.ok (ps.map fun a =>
        if inFabric a then (match s.farCell s.curHall .matrix key a with | some c => c.byte.getD 0 | none => 0) else (cellAt a tab).getD 0),
        s.dropFar s.curHall .matrix key)

/-- A data fault of such a read is exact at the syllable. -/
def readFault (addr : Word) (code : Nat) : TrapInfo :=
  { cause := if code = 4 then .EXPIRED else if code = 3 then .PROT else .INTEGRITY, access := .system, width := 4
    detail := if code = 3 then 0x20 else code, addr := addr }

/-- The bytes at physical addresses, then what follows. A fault that a fabric member found keeps its cause and DETAIL (R386, R414). -/
def State.withFrozen (s : State) (addr : Word) (ps : List Nat) (k : Bytes → State → State) : State :=
  let why := s.farWhy s.curHall .matrix (2 ^ 62 + ps.headD 0) (ps.filter inFabric)
  match s.frozenRead ps with
  | (.wait, s) => s.freeze
  | (.bad c, s) => s.clearWait.readTrap (match why with
      | some (_, t) => { t with access := .system, width := 4, addr := addr }
      | none => readFault addr c)
  | (.ok bs, s) => k bs s

/-- A LAUNCH or ENQ.X waits for its match by the checker, six Hall cycles after its issue, before it publishes or reads anything (R334, R337);
a command that does not match is not performed (R338, R339). -/
def State.matched (s : State) (k : State → State) : State :=
  if s.stage = 0 then
    let (m, bad, s) := s.underChecker
    (s.onMe fun x => { x with wait := { x.wait with stage := 1000 + bad, until_ := m.getD s.here.cycle } }).freeze
  else if s.stage = 64 then k s
  else if s.here.cycle < s.me.wait.until_ then s.freeze
  else
    let (code, s) := s.checkMatch s.curHall (s.stage - 1000)
    if code = 0 then k (s.onMe fun x => { x with wait := { x.wait with stage := 64 } })
    else { s.clearWait.detect s.curHall s.depth code s.curStrand s.me.pc false with issued := false, trapped := true }

/-- A performed LAUNCH or ENQ.X is logged and issues (R346). -/
def State.performed (s : State) (op1 op2 : Word) : State :=
  ((s.fillLog.logEntry s.curHall s.curWord s.depth op1 op2 0).clearWait).issue

/-- A launch packet and its mask, read and checked in the order of R223, are delivered (R223, R297, R311). -/
def State.launching (s : State) (raw : Bytes) (mask : BitVec 256) (op1 op2 : Word) : State :=
  if !s.superMode && (Packet.ofBytes raw).asid != s.asid then s.clearWait.trapCause .PRIV
  else match s.launchChecks s.curHall s.partId raw mask with
    | (.error t, s) => s.clearWait.readTrap t
    | (.ok succ, s) =>
      match s.launchCopies s.partId raw succ (maskHalls mask) none s.known with
      | .error t => s.clearWait.trapHere t
      | .ok s => s.performed op1 op2

/-- LAUNCH (R223). -/
def execLaunch (a b : BitVec 6) (s : State) : Out :=
  .next (s.reading [.s a.toNat, .s b.toNat] fun s =>
    let pa := s.rs a
    let ma := s.rs b
    s.withBytes (wantSystem 64) 64 pa 64 fun ps s => s.withBytes (wantSystem 32) 32 ma 32 fun ms s =>
      s.logged ma pa (fun _ s => s.issue) fun s => s.matched fun s => s.publishing .device fun s =>
        s.withFrozen pa ps fun raw s => s.withFrozen ma ms fun mask s => s.launching raw (maskOf mask) ma pa)

/-- A command block for a Hazel queue (R225): its kind with its values. -/
def hazelBlock (i : Instr) : Option (HzKind × QCtl) :=
  match i with
  | .hzPool d a c => if d = 0 ∧ a = 0 then some (.pool, c) else none
  | .hzRoot d a c => if d = 0 ∧ a = 0 then some (.root, c) else none
  | .hzDesc d a b c => if d = 0 ∧ a = 0 ∧ b = 0 then some (.desc, c) else none
  | .hzExpand d a b c => if d = 0 ∧ a = 0 ∧ b = 0 then some (.expand, c) else none
  | .hzBack d a b c => if d = 0 ∧ a = 0 ∧ b = 0 then some (.back, c) else none
  | .hzSweep d c => if d = 0 then some (.sweep, c) else none
  | .hzRead d a b x c => if d = 0 ∧ a = 0 ∧ b = 0 ∧ x = 0 then some (.read, c) else none
  | _ => none

/-- A command block for a copy queue (R225): its kind, whether it resumes, and its imm field. -/
def copyBlock (i : Instr) : Option (CopyKind × Bool × QCtl) :=
  let ok := fun (k : CopyKind) (d a b x : BitVec 6) => decide (a = 0 ∧ b = 0 ∧ x = 0 ∧ d = (if k = .MM then 2 else 0))
  match i with
  | .cp d a b x c => if ok .CP d a b x then some (.CP, false, c) else none
  | .cp2D d a b x c => if ok .CP2D d a b x then some (.CP2D, false, c) else none
  | .cpMm d a b x c => if ok .MM d a b x then some (.MM, false, c) else none
  | .cpFill d a b x c => if ok .FILL d a b x then some (.FILL, false, c) else none
  | .cpResume k d a b x c => if ok k d a b x then some (k, true, c) else none
  | _ => none

/-- The syllable of a command block, when it passes R49 on the L strand with its control bits clear (R225). -/
def blockSyl (d : Bytes) : Option Instr :=
  let w := wordAt d 0
  if w.extractLsb' 52 12 != 0 || !strandAccepts w .L then none
  else match decode w with | .ok (_, i) => some i | .error _ => none

/-- The completion word of a command block: VD = 0 names none (R225). -/
def blockWord (d : Bytes) : Option Word := if wordAt d 8 = 0 then none else some (wordAt d 8)

/-- The S strand stays frozen while the target queue is full; the wait is counted (R224). -/
def State.queueWait (s : State) : State :=
  let t := s.tick
  (s.onMe fun x => { x with wait := { x.wait with since := some (x.wait.since.getD t) } }).freeze

/-- ENQ.X into a copy queue (R195, R201, R225). -/
def State.enqCopy (s : State) (h : HallId) (d : Bytes) (op1 op2 : Word) : State :=
  match (blockSyl d).bind copyBlock with
  | none => s.clearWait.trapCause .ILLEGAL
  | some (k, resume, c) =>
    let cw := blockWord d
    let follow := if k = .MM then some (wordAt d 40, wordAt d 48) else none
    if (k = .MM ∧ cw = none) ∨ (k ≠ .MM ∧ fieldAt d 40 16 ≠ 0) ∨ fieldAt d 56 8 ≠ 0 then s.clearWait.trapCause .ILLEGAL
    else
      let args : CopyArgs := { kind := k, resume := resume, src := wordAt d 16, dst := wordAt d 24, x := wordAt d 32, cw := cw, q := c, follow := follow }
      s.copyChecked args fun s =>
        if (s.hall h).copyFull then s.queueWait else (s.enterCopy h args none none 0).performed op1 op2

/-- ENQ.X into a Hazel queue (R225, R236, R237). R236's ILLEGAL is asked of the target Hall: an HZ.POOL has entered its queue since the slice that
runs there, or ran there last, started (DESIGN CHOICE, log 49). -/
def State.enqHazel (s : State) (h : HallId) (d : Bytes) (op1 op2 : Word) : State :=
  match (blockSyl d).bind hazelBlock with
  | none => s.clearWait.trapCause .ILLEGAL
  | some (k, c) =>
    let H := s.hall h
    let used := H.hzEntered || (match H.slice with | some sl => sl.hzUsed | none => false)
    let n := fieldAt d 24 8
    if fieldAt d 40 24 ≠ 0 ∨ (!used ∧ k ≠ .pool) ∨ (k = .read ∧ (n = 0 ∨ 64 < n)) then s.clearWait.trapCause .ILLEGAL
    else
      let cw := blockWord d
      let vx := if k = .read then wordAt d 32 &&& 31 else wordAt d 32
      let rest := fun (s : State) =>
        if (s.hall h).hazelFull then s.queueWait
        else ((s.enterHazel h k (wordAt d 16) (wordAt d 24) vx cw c none none 0).onHall h
          (Hall.onSlice · fun sl => { sl with hzUsed := true })).performed op1 op2
      s.wordChecked cw rest

/-- ENQ.X (R224): the checks of R120 on its block come last (R391). -/
def execEnqX (a b : BitVec 6) (s : State) : Out :=
  .next (s.reading [.s a.toNat, .s b.toNat] fun s =>
    let t := s.rs a
    let blk := s.rs b
    let q := t.extractLsb' 8 2
    let h : HallId := t.setWidth 8
    if t >>> 10 != 0 || q == 3 then s.trapCause .ILLEGAL
    else if !(s.part s.partId).halls.getLsbD h.toNat then s.trapHere (prot 0x20)
    else s.withBytes (wantSystem 64) 64 blk 64 fun ps s =>
      s.logged t blk (fun _ s => s.issue) fun s => s.matched fun s => s.publishing .device fun s => s.withFrozen blk ps fun d s =>
        if q = 0 then s.enqCopy h d t blk
        else if q = 1 then s.enqHazel h d t blk
        else s.launching d (BitVec.ofNat 256 (2 ^ h.toNat)) t blk)

/-- QUEUE_STALL (R224): the target queue has been full for 1 ms of device time. -/
def execQueueStall (h : HallId) (s : State) : Out :=
  .next (match (s.strand h .S).wait.since with
    | some t0 =>
      if (s.strand h .S).wait.stage = 64 ∧ t0 + 5544000000 ≤ s.tick ∧ (s.hall h).trap.isNone then
        (s.onStrand h .S fun x => { x with wait := .none }).raise h .S { cause := .QUEUE_STALL }
      else s
    | none => s)

/-! Weight sets. -/

/-- A request to bind a weight set (R226). -/
def State.wsetBindAt (s : State) (d : BitVec 6) (v : Word) (land : BitVec 12) : State :=
  s.withSlot fun s => s.request (.wsetBind d.toNat v) [.s d.toNat] land v []

/-- WSET.BIND (R226). -/
def execWsetBind (d a : BitVec 6) (land : BitVec 12) (s : State) : Out :=
  .next (s.readingWhen s.slotsFull [.s a.toNat] fun s => s.wsetBindAt d (s.rs a) land)

/-- The bind is performed (R226, R419): PROT, or the bound version. -/
def State.bindSet (s : State) (h : HallId) (v : Word) : Except TrapInfo Word × State :=
  let set : BitVec 32 := v.setWidth 32
  let want : BitVec 32 := v.extractLsb' 32 32
  let bad : TrapInfo := prot 0x01
  match (s.hall h).slice with
  | none => (.error bad, s)
  | some sl =>
    match sl.wsets.find? fun b => b.1 == set with
    | some b => if want = 0 ∨ want = b.2 then (.ok (b.2.setWidth 64), s) else (.error bad, s)
    | none =>
      if 8 ≤ sl.wsets.length then (.error bad, s)
      else
        let fits := fun (d : WSet) => d.set == set && (if want = 0 then d.state == 1 else d.state != 0 && d.version == want) &&
          d.parts.getLsbD sl.part.toNat
        match (List.range 256).find? fun i => fits (s.wsets[i]?.getD .free) with
        | none => (.error bad, s)
        | some i =>
          let d := s.wsets[i]?.getD .free
          let s := { s with wsets := s.wsets.setIfInBounds i { d with binds := d.binds + 1 } }
          (.ok (d.version.setWidth 64), s.onHall h (Hall.onSlice · fun sl => { sl with wsets := sl.wsets ++ [(set, d.version)] }))

end Sys2Proof.Machine
end

