-- ==== Sys2Proof/Machine/Landing.lean ====
section
/-! DEFINITION. Results and landing slots (R20, R24 to R26, R121, R123, R126, R393): when a strand's writes are made, the arrival of
data, landing points, requests issued again, and the drains of the write queue (R125). -/

namespace Sys2Proof.Machine

/-! Stopped strands (R26). -/

/-- No syllable of the strand issues: a trap, a rollback, a switch-out or a SLICE.END has stopped it, or the slice is still being
restored. Other strands than the one that met the cause may still issue in its Hall cycle (R392, R349); after a SLICE.END that is not part of a sync
group they issue nothing more, in its own cycle neither (DESIGN CHOICE, log 53). -/
def Hall.halted (H : Hall) (st : Strand) : Bool :=
  match H.slice with
  | none => true
  | some sl =>
    (match H.trap with | some t => H.cycle > t.cycle || t.strand == st | none => false) ||
      (match H.back with | some b => H.cycle > b.found || b.applied | none => false) ||
      (match H.switch with | some w => H.cycle > w.from_ | none => false) ||
      (sl.ending && st != .S && !H.syncGo) || H.restore != .off

/-- What the strand has in flight is drained (R26, R215). -/
def Hall.draining (H : Hall) (st : Strand) : Bool :=
  H.halted st || (match H.slice with | some sl => sl.ending | none => false)

/-! Writing. -/

/-- Whether one item stands before another in the order of writing (R20, R24). -/
def dueBefore (d1 q1 d2 q2 : Nat) : Bool := d1 < d2 || (d1 == d2 && q1 < q2)

/-- A result stands behind a landing of a register that it writes too: the landing is due before it, in the order of writing (R24). -/
def StrandState.waitsFor (x : StrandState) (p : Pend) : Bool :=
  let ws := p.upds.flatMap Upd.writes
  x.slots.any fun t => t.due ≤ x.local_ && dueBefore t.due t.seq p.due p.seq && t.dests.any ws.contains

/-- The first of a strand's results that are due and wait for no landing: they are written at the end of their cycle, also when the strand freezes
for data then (R20, R24). -/
def StrandState.firstPend (x : StrandState) : Option Pend :=
  (x.pends.filter fun p => p.due ≤ x.local_ && !x.waitsFor p).foldl (fun (m : Option Pend) p =>
    match m with | none => some p | some q => if dueBefore p.due p.seq q.due q.seq then some p else some q) none

/-- The first of a strand's slots that are due; in a drain, of those with their data too. -/
def StrandState.firstSlot (x : StrandState) (drain : Bool) : Option Slot :=
  (x.slots.filter fun t => t.due ≤ x.local_ || (drain && t.data.isSome)).foldl (fun (m : Option Slot) t =>
    match m with | none => some t | some q => if dueBefore t.due t.seq q.due q.seq then some t else some q) none

/-- RESULT_WRITE (R20): the strand's next due result is written. -/
def State.writeResult (s : State) (h : HallId) (st : Strand) : State :=
  let x := s.strand h st
  match x.firstPend with
  | none => s
  | some p => (s.onStrand h st fun x => { x with pends := x.pends.filter fun q => q.seq != p.seq }).putAll h st p.seq p.upds

/-- RESULT_WRITE (R20). -/
def execResultWrite (h : HallId) (st : Strand) (s : State) : Out := .next (s.writeResult h st)

/-! Arrival (R24, R121, R126). -/

/-- What a slot's bytes give its destination. -/
def Req.give (r : Req) (bs : Bytes) : Except TrapInfo (List Upd) :=
  match r with
  | .load d _ sx => .ok [.sreg d (extendLoad sx bs)]
  | .tile offs _ => .ok [.tile (offs.zip bs)]
  | .sbind q => if streamOk bs then .ok [.bind q bs] else .error { cause := .ILLEGAL }
  | .cpWait d _ => .ok [.sreg d (BitVec.ofNat 64 (leNat bs))]
  | .atomic _ _ => .ok []
  | .gjoin _ _ _ => .ok []
  | .rangeNext _ _ => .ok []
  | .wsetBind _ _ => .ok []
  | .lifeAge _ _ => .ok []

/-- The kind of access and the width that a slot's trap record gives (R395). -/
def Slot.accessOf (t : Slot) : Access × Nat :=
  match t.req with
  | .load _ n _ => (.load, widthCode n) | .tile _ _ => (.tile, 5) | .atomic _ _ => (.atomic, widthCode t.paddrs.length)
  | .cpWait _ _ => (.load, 3) | .sbind _ => (.system, 4) | .wsetBind _ _ => (.none, 0)
  | .gjoin _ _ _ => (.none, 0) | .rangeNext _ _ => (.none, 0) | .lifeAge _ _ => (.none, 0)

/-- The address that a data fault of a slot names: the access's, or for a gather its element's (R121, R129). -/
def Slot.addrOf (t : Slot) (a : Nat) : Word :=
  match t.req with
  | .tile _ es => es.getD (t.paddrs.takeWhile (fun p => unitOf p != a)).length t.addr
  | .load _ _ _ => t.addr | .atomic _ _ => t.addr | .cpWait _ _ => t.addr | .sbind _ => t.addr | .wsetBind _ _ => t.addr
  | .gjoin _ _ _ => t.addr | .rangeNext _ _ => t.addr | .lifeAge _ _ => t.addr

/-- A data fault of a slot (R121, R204). -/
def Slot.dataFault (t : Slot) (a : Nat) (f : DataFault) : TrapInfo :=
  let k := t.accessOf
  { cause := f.cause, access := k.1, width := k.2, detail := f.code, addr := t.addrOf a }

/-- A fault of a slot is found (R121, R338): an INTEGRITY of a request issued in a region is a detected error, and the slot is freed
without a write; every other fault waits for the landing point. -/
def State.slotFault (s : State) (h : HallId) (st : Strand) (t : Slot) (f : TrapInfo) : State :=
  if f.cause = .INTEGRITY ∧ t.depth ≠ 0 then (s.freeSlot h st t.seq).detect h t.depth f.detail st t.pc false
  else s.fillSlot h st t.seq [] (some f)

/-- The bytes of a slot: those of other modules as given, the others as the strand reads them; then its data. -/
def State.landBytes (s : State) (h : HallId) (st : Strand) (t : Slot) (far : List Host.Cell) (more : List Upd) : State :=
  let near := t.paddrs.filter fun a => !inFabric a
  let part := match (s.hall h).slice with | some sl => sl.part | none => 0
  match s.senseRead part near with
  | (some (a, f), s) => s.slotFault h st t (t.dataFault a f)
  | (none, s) =>
    let (bs, ns, s) := s.readBytes (s.readerOf h st t.bound) near
    let tab := near.zip bs ++ t.image ++ far
    let s := s.onStrand h st fun x => x.hasRead ns
    match t.req.give (t.paddrs.map fun a => (cellAt a tab).getD 0) with
    | .ok us => s.fillSlot h st t.seq (us ++ more) none
    | .error e => s.slotFault h st t e

/-- CP.WAIT looks at its word (R202): the newest version that the strand may see at the scope. A word of state 0 is looked at again
later. -/
def State.lookWord (s : State) (h : HallId) (st : Strand) (t : Slot) (d : Nat) (sc : Scope) : State :=
  let part := match (s.hall h).slice with | some sl => sl.part | none => 0
  match s.senseRead part t.paddrs with
  | (some (a, f), s) => s.slotFault h st t (t.dataFault a f)
  | (none, s) =>
    let r := s.readerOf h st t.bound
    let line := t.paddrs.headD 0 / 64
    let vs := s.versionsOf line
    let n := ((vs.filter r.sees).head?.map (·.id)).getD 0
    let c := match vs.find? fun v => v.id == n with
      | some v => (match v.pub with | some k => v.clock.up v.agent k | none => v.clock)
      | none => []
    let w := leNat (t.paddrs.map (s.byteAs r vs n))
    let s := s.onStrand h st fun x => x.hasRead [(line, n)]
    if w % 256 = 0 then
      let (k, s) := s.drawDelay
      let now := (s.hall h).cycle
      s.onStrand h st fun x => { x with slots := x.slots.map fun q => if q.seq = t.seq then { q with arriveAt := some (now + 1 + k) } else q }
    else s.fillSlot h st t.seq [.sreg d (BitVec.ofNat 64 w), .learn c, .renew sc] none

/-- A slot that has waited for stores to drain asks other modules for its bytes (R126). -/
def State.askLate (s : State) (h : HallId) (st : Strand) (t : Slot) : State :=
  let (mine, ns, s) := s.askBytes h st t.seq t.bound t.addr (t.paddrs.filter inFabric)
  s.onStrand h st fun x =>
    { x.hasRead ns with slots := x.slots.map fun q => if q.seq = t.seq then { q with image := mine, arriveAt := none } else q }

/-- The data of a slot arrives. -/
def State.arrive (s : State) (h : HallId) (st : Strand) (t : Slot) : State :=
  let x := s.strand h st
  if (s.hall h).mustWait st t.bound x.seen t.paddrs then s
  else if t.paddrs.any inFabric then s.askLate h st t
  else match t.req with
    | .load _ _ _ =>
      match spaceOf (t.paddrs.headD 0) with
      | .control _ _ => s.answerWindows h st fun q => q.seq ≤ t.seq
      | _ => s.landBytes h st t [] []
    | .tile _ _ => s.landBytes h st t [] []
    | .sbind _ => s.landBytes h st t [] []
    | .cpWait d sc => s.lookWord h st t d sc
    | .rangeNext d c =>
      let (lo, n, s) := s.takeRange h c
      s.fillSlot h st t.seq [.sreg d lo, .sreg (d + 1) n] none
    | .wsetBind d v =>
      match s.bindSet h v with
      | (.ok w, s) => s.fillSlot h st t.seq [.sreg d w] none
      | (.error e, s) => s.slotFault h st t e
    | .lifeAge _ _ => s.fillSlot h st t.seq [] none
    | .gjoin _ _ _ => s
    | .atomic _ _ => s

/-- The next slot whose data arrives in this Hall cycle: a read that comes after a renewal waits for it (R275), and one that would report a hot sector
for room in the event queue (R400). -/
def State.arriving? (s : State) (h : HallId) (st : Strand) : Option Slot :=
  let H := s.hall h
  let x := s.strand h st
  let part := match H.slice with | some sl => sl.part | none => 0
  x.slots.find? fun t =>
    t.data.isNone && (match t.arriveAt with | some a => a ≤ H.cycle | none => false) && !s.mustReport part t.paddrs && !H.mustWait st t.bound x.seen t.paddrs &&
      x.renewals.all fun r => t.seq < r.1

/-- LANDING_DATA_ARRIVAL (R24). -/
def execLandingDataArrival (h : HallId) (st : Strand) (s : State) : Out :=
  .next (match s.arriving? h st with | some t => s.arrive h st t | none => s)

/-! Landing points. -/

/-- The slot's fault strikes at its landing point (R121, R393), as a cause found at the start of that Hall cycle (DEDUCED, log 39): the strand stops and the request is kept for its replay. While another
cause has stopped the slice, or a switch-out, it is only kept; a rollback forgets it. A stream whose binding fails is unbound, whatever the fault
(DESIGN CHOICE, log 47). -/
def State.landFault (s : State) (h : HallId) (st : Strand) (t : Slot) (f : TrapInfo) : State :=
  let H := s.hall h
  let s := s.freeSlot h st t.seq
  if H.back.isSome then s
  else
    let s := s.onStrand h st fun x => { x with replay := x.replay ++ [{ word := t.word, addr := t.addr }] }
    let s := match t.req with | .sbind q => s.onHall h (Hall.onWork · fun W => W.setStream q .unbound) | _ => s
    if H.trap.isSome || H.switch.isSome then s else s.raise h st f

/-- LANDING_POINT (R24, R121): the strand's next due slot that has its data is written and freed, unless a result comes before it. -/
def State.land (s : State) (h : HallId) (st : Strand) : State :=
  let x := s.strand h st
  match x.firstSlot ((s.hall h).draining st) with
  | none => s
  | some t =>
    let first := match x.firstPend with | some p => dueBefore p.due p.seq t.due t.seq | none => false
    match t.data with
    | none => s
    | some us =>
      if first then s
      else match t.fault with
        | some f => s.landFault h st t f
        | none =>
          let s := s.freeSlot h st t.seq
          match t.req with
          | .lifeAge d g => (let (v, s) := s.lifeAgeValue g; s.putAll h st t.seq [.sreg d v])
          | _ => s.putAll h st t.seq us

/-- LANDING_POINT (R24). -/
def execLandingPoint (h : HallId) (st : Strand) (s : State) : Out := .next (s.land h st)

/-- The strand is about to begin a local cycle in which a slot is due whose data has not arrived (R24). -/
def StrandState.awaits (x : StrandState) : Bool := x.slots.any fun t => t.due ≤ x.local_ && t.data.isNone

/-! Requests issued again (R121, R396). -/

/-- A recorded request is issued again with its address and a landing offset of 1. -/
def State.reissue (s : State) (r : Replay) : State :=
  match decode r.word with
  | .error _ => s.issue
  | .ok (_, i) =>
    match i with
    | .ldB d _ _ _ => s.loadAt .B true d r.addr 1
    | .ldBz d _ _ _ => s.loadAt .B false d r.addr 1
    | .ldH d _ _ _ => s.loadAt .H true d r.addr 1
    | .ldHz d _ _ _ => s.loadAt .H false d r.addr 1
    | .ldW d _ _ _ => s.loadAt .W true d r.addr 1
    | .ldWz d _ _ _ => s.loadAt .W false d r.addr 1
    | .ldD d _ _ _ => s.loadAt .D true d r.addr 1
    | .ldt d _ _ _ => s.ldtAt d r.addr 1
    | .ldtG d _ b _ => s.ldtGAt d b r.addr 1
    | .amo op w sc o d _ b _ => s.atomicAt (some op) w sc o d b r.addr 1
    | .cas w sc o d _ b _ => s.atomicAt none w sc o d b r.addr 1
    | .sbind x _ _ => s.sbindAt x r.addr 1
    | .cpWait sc d _ _ => s.cpWaitAt sc d r.addr 1
    | .wsetBind d _ _ => s.wsetBindAt d r.addr 1
    | _ => s.issue

/-- The strand's first recorded request is issued again, as its first action. -/
def State.replayFirst (s : State) : State :=
  match s.me.replay with
  | [] => s
  | r :: rest =>
    let s := ({ s with curWord := r.word }).reissue r
    if s.issued then s.onMe fun x => { x with replay := rest } else s

/-! The write queue (R125). -/

/-- The oldest entry of the write queue, once its time has come. -/
def Hall.drainable (H : Hall) : Option Store :=
  match H.overlay.filter fun e => e.drained.isNone with
  | e :: _ => if e.drainAt ≤ H.cycle then some e else none
  | [] => none

/-- WRITE_QUEUE_DRAIN (R125). -/
def execWriteQueueDrain (h : HallId) (s : State) : Out :=
  .next (match (s.hall h).drainable with
    | some e => ring.foldl (fun s st => s.onHall h (·.settle st)) (s.drainStore h e)
    | none => s)

/-- PUBLICATION_ACK (R140). -/
def execPublicationAck (h : HallId) (st : Strand) (s : State) : Out := .next (s.ackPublication h st)

end Sys2Proof.Machine
end

