-- ==== Sys2Proof/Machine/Regions.lean ====
section
/-! DEFINITION. Recovery regions (R230 to R233, R340 to R351): their syllables, commit, and rollback; and the checker's matches at the
heads of the queues (R337). -/

namespace Sys2Proof.Machine

/-! Syllables. -/

/-- A strand's snapshot (R231). -/
def StrandState.snapshot (x : StrandState) : SnapStrand := { s := x.s, p := x.p, b := x.b, pc := x.pc, seq := x.seq }

/-- The log's place at which the next command of a logged kind stands (R346, R347; log 14). -/
def Slice.logPlace (sl : Slice) : Nat := (sl.log.takeWhile fun e => !e.replay).length

/-- A region as RGN.BEGIN opens it. -/
def Hall.freshRegion (H : Hall) (logFrom : Nat) : Region :=
  { S := H.work.S.snapshot, L := H.work.L.snapshot, M := H.work.M.snapshot, V := H.work.V.snapshot, toks := H.work.toks, fresh := true,
    retry := 0, ab := false, cause := 0, tiles := [], rows := [], ranges := [], undo := [], reserved := 0, logFrom := logFrom }

/-- The snapshot of a region opened in this Hall cycle is taken at its end: each strand stands just after its syllable of the group
(R231, R340). -/
def Hall.sealRegion (H : Hall) : Hall :=
  H.onSlice fun sl =>
    { sl with regions := sl.regions.map fun r =>
        if r.fresh then
          { r with S := H.work.S.snapshot, L := H.work.L.snapshot, M := H.work.M.snapshot, V := H.work.V.snapshot, toks := H.work.toks, fresh := false }
        else r }

/-- RGN.BEGIN (R231). -/
def execRgnBegin (s : State) : Out :=
  .next (if 8 ≤ s.depth then s.trapCause .REGION_LIMIT
    else
      let H := s.here
      (s.onSlice fun sl => { sl with regions := H.freshRegion sl.logPlace :: sl.regions }).issue)

/-- Change the innermost region. -/
def Slice.onInnermost (sl : Slice) (f : Region → Region) : Slice :=
  match sl.regions with | [] => sl | r :: rest => { sl with regions := f r :: rest }

/-- The tile as it stands (R232). -/
def Work.keepTile (W : Work) (t : Nat) : KeptTile :=
  { t := t, shape := W.shape t, bytes := W.tiles.filter fun c => c.1 / 4096 == t }

/-- The accumulator row as it stands (R232). -/
def Hall.keepRow (H : Hall) (r : Nat) : KeptRow :=
  { r := r, tag := sget H.accTag r, slots := H.acc.filter fun c => c.1 / 128 == r }

/-- The range of RGN.KEEP.G enters the innermost region (R232, R342, R343). -/
def State.keepRange (s : State) (a n : Word) : State :=
  let off := a.toNat - ownBase
  let used := match s.here.slice with | some sl => sl.poolUsed | none => 0
  if a.toNat % 64 ≠ 0 ∨ n.toNat % 64 ≠ 0 then s.trapHere { cause := .ALIGN, addr := a }
  else if n = 0 ∨ a.toNat < ownBase ∨ 0x4000000 < off + n.toNat then s.trapHere { prot 0x40 with addr := a }
  else if s.here.poolSize * 0x40000 < used + n.toNat + 64 then s.trapCause .REGION_LIMIT
  else (s.onSlice (·.onInnermost fun r => { r with ranges := r.ranges ++ [(off, n.toNat)], reserved := r.reserved + n.toNat + 64 })).issue

/-- RGN.KEEP (R231, R232). -/
def execRgnKeep (kind : KeepKind) (a b : BitVec 6) (s : State) : Out :=
  .next (s.reading ([.s a.toNat] ++ (match kind with | .T => [] | .A => [.s b.toNat] | .G => [.s b.toNat])) fun s =>
    if s.depth = 0 then s.trapCause .ILLEGAL
    else
      let H := s.here
      let x := s.rs a
      let y := s.rs b
      match kind with
      | .T =>
        let ts := ((List.range 32).filter fun t => x.getLsbD t).map H.work.keepTile
        (s.onSlice (·.onInnermost fun r => { r with tiles := r.tiles ++ ts })).issue
      | .A =>
        if 512 < x.toNat + y.toNat then s.trapCause .ILLEGAL
        else
          let rs := (runFrom x.toNat y.toNat).map H.keepRow
          (s.onSlice (·.onInnermost fun r => { r with rows := r.rows ++ rs })).issue
      | .G => s.keepRange x y)

/-- The checker has matched every command of the innermost region, and every slot claimed in it has been written (R348). -/
def State.regionQuiet (s : State) : Bool :=
  let H := s.here
  let d := s.depth
  match H.slice with
  | none => true
  | some sl =>
    !(H.cq.any fun c => c.slice == sl.id && c.depth == d && (c.matchAt.isSome || c.bad != 0)) &&
    !(H.hq.any fun c => c.slice == sl.id && c.depth == d && (c.matchAt.isSome || c.bad != 0)) &&
    !(match H.copy with | some r => r.cmd.slice == sl.id && r.cmd.depth == d && r.cmd.bad != 0 | none => false) &&
    !(match H.hz with | some r => r.cmd.slice == sl.id && r.cmd.depth == d && r.cmd.bad != 0 | none => false) &&
    !(s.atomics.any fun a => a.slice == sl.id && a.depth == d && a.h == s.curHall) &&
    (match sl.regions with
      | [] => true
      | r :: _ => ring.all fun st => (H.work.strand st).slots.all fun t => t.seq < (r.snap st).seq)

/-- The undo records of a committing region pass to the enclosing one where it keeps their lines (R342). -/
def Region.absorb (outer_ : Region) (base : Nat) (undo : List Undo) : Region :=
  undo.foldl (fun r u =>
    if ((runFrom (u.paddr - base) 64).any r.keeps) && !(r.undo.any fun v => v.paddr == u.paddr) then { r with undo := r.undo ++ [u] } else r) outer_

/-- The slice's part of a commit: the stack and the effect log (R231, R342, R346). -/
def Slice.commit (sl : Slice) (base : Nat) : Slice :=
  let d := sl.regions.length
  match sl.regions with
  | [] => sl
  | r :: o :: rest =>
    { sl with regions := o.absorb base r.undo :: rest
              log := sl.log.map fun e => if e.depth = d then { e with depth := d - 1 } else e }
  | [_] => { sl with regions := [], log := [], logFill := 0 }

/-- The queued and started commands of a slice on a Hall, with their depths changed. -/
def Hall.onDepths (H : Hall) (slice : Nat) (f : Nat → Nat) : Hall :=
  let cp := fun (c : CopyCmd) => if c.slice = slice then { c with depth := f c.depth } else c
  let mx := fun (c : MatCmd) => if c.slice = slice then { c with depth := f c.depth } else c
  let hz := fun (c : HzCmd) => if c.slice = slice then { c with depth := f c.depth } else c
  { H with
    cq := H.cq.map cp, mq := H.mq.map mx, hq := H.hq.map hz
    copy := H.copy.map fun r => { r with cmd := cp r.cmd }
    hz := H.hz.map fun r => { r with cmd := hz r.cmd } }

/-- The commands of a slice on every Hall, those that ENQ.X has sent to other Halls among them, with their depths changed. -/
def State.onDepths (s : State) (slice : Nat) (f : Nat → Nat) : State := { s with halls := s.halls.map fun H => H.onDepths slice f }

/-- What belongs to the committing region belongs to the one enclosing it from now on (R338, R344). -/
def State.commitRegion (s : State) : State :=
  let d := s.depth
  let h := s.curHall
  match s.here.slice with
  | none => s
  | some sl =>
    let down : Nat → Nat := fun x => if x == d then d - 1 else x
    let slots := fun (x : StrandState) => { x with slots := x.slots.map fun t => { t with depth := down t.depth } }
    let s := ring.foldl (fun s st => s.onStrand h st slots) s
    let atomic := fun (a : Atomic) => if a.slice = sl.id then { a with depth := down a.depth } else a
    let store := fun (e : Store) => { e with depth := down e.depth }
    ({ s with atomics := s.atomics.map atomic }.onDepths sl.id down).onHall h fun H =>
      { H with slice := some (sl.commit (galleryBase h)), overlay := H.overlay.map store }

/-- RGN.END (R231, R337, R347, R348). -/
def execRgnEnd (s : State) : Out :=
  .next (if s.depth = 0 then s.trapCause .ILLEGAL
    else if !s.regionQuiet || s.here.back.isSome then s.freeze
    else
      let d := s.depth
      let pending := match s.here.slice with | some sl => sl.log.any fun e => e.replay && e.depth == d | none => false
      if pending then s.diverge
      else
        let bad := Config.upset s.free
        let s := { s with free := s.free + 1 }
        if bad then { s.detect s.curHall d 0x06 s.curStrand s.me.pc false with issued := false }
        else
          (s.onHere Hall.compareAll).commitRegion.issue)

/-- RGN.ABORT (R231, R349). -/
def execRgnAbort (s : State) : Out :=
  .next (if s.depth = 0 then s.trapCause .ILLEGAL
    else
      let d := s.depth
      (s.onHere fun H =>
        match H.back with
        | some _ => H
        | none => { H with back := some { target := d, code := 0, abort := true, applied := false, endsAt := 0, found := H.cycle, held := none } }).issue)

/-- The status of RGN.STAT (R233), all of it that of the innermost region: DEDUCED (log 13), as the recovery program's status words read 2 in the regions
opened after one that was rolled back. -/
def Slice.regionStatus (sl : Slice) : Word :=
  match sl.regions with
  | r :: _ => BitVec.ofNat 64 (sl.regions.length + 16 * min r.retry 15 + 256 * r.ab.toNat + 65536 * r.cause.toNat)
  | [] => 0

/-- RGN.STAT (R231, R233). -/
def execRgnStat (d : BitVec 6) (s : State) : Out :=
  let v : Word := match s.here.slice with | some sl => sl.regionStatus | none => 0
  .next (s.result 2 [.sreg d.toNat v]).issue

/-! Rollback (R349 to R351). -/

/-- Commands of the slice issued since the target's RGN.BEGIN that have not started are discarded; a slot whose atomic was not
performed is freed without a write (R349, steps 1 and 2). A command that a logged ENQ.X has delivered is not: the ENQ.X has taken its one effect
(R337, R346). -/
def State.discardUnstarted (s : State) (h : HallId) (target : Nat) : State :=
  let H := s.hall h
  match H.slice with
  | none => s
  | some sl =>
    let gone := fun (a : Atomic) => a.h == h && a.slice == sl.id && target ≤ a.depth &&
      (match a.matchAt with | some m => H.cycle < m | none => false)
    let as := s.atomics.filter gone
    let s := { s with atomics := s.atomics.filter fun a => !gone a }
    let s := as.foldl (fun s a => s.dropAtomic a) s
    let hz := (H.hq.filter fun c => c.slice == sl.id && target ≤ c.depth && !c.sent).length
    let lost := H.unmatched sl.id target ++ as.map (·.bad) ++ H.work.S.unmatched
    let s := ring.foldl (fun s st => s.onStrand h st fun x => { x with wait := .none }) s
    s.onHall h fun H =>
      Hall.reissued
        { H.uncount lost with
          cq := H.cq.filter fun c => !(c.slice == sl.id && target ≤ c.depth && !c.sent)
          hq := H.hq.filter fun c => !(c.slice == sl.id && target ≤ c.depth && !c.sent)
          mq := H.mq.filter fun c => !(c.slice == sl.id && target ≤ c.depth && c.started.isNone)
          slice := some { sl with logFill := sl.logFill - as.length - hz } }

/-- A started command of the span being rolled back is still running, or something in flight has not landed (R349, step 2). -/
def State.spanBusy (s : State) (h : HallId) (target : Nat) : Bool :=
  let H := s.hall h
  match H.slice with
  | none => false
  | some sl =>
    !H.quiet || (s.atomics.any fun a => a.h == h && a.slice == sl.id && target ≤ a.depth) ||
    (H.mq.any fun c => c.slice == sl.id && target ≤ c.depth) ||
    (match H.copy with | some r => r.cmd.slice == sl.id && target ≤ r.cmd.depth | none => false) ||
    (match H.hz with | some r => r.cmd.slice == sl.id && target ≤ r.cmd.depth | none => false)

/-- Undo records are applied in the reverse order of saving (R342, R349). -/
def State.applyUndo (s : State) (w : Writer) (us : List Undo) : State :=
  us.foldr (fun u s => s.writeHome w (cellsAt u.paddr u.bytes)) s

/-- A kept tile is restored (R340). -/
def Work.restoreTile (W : Work) (t : KeptTile) : Work :=
  { W with tiles := ssetAll (W.tiles.filter fun c => c.1 / 4096 != t.t) t.bytes, shapes := W.shapes.setIfInBounds t.t t.shape }

/-- A kept accumulator row is restored (R340). -/
def Hall.restoreRow (H : Hall) (r : KeptRow) : Hall :=
  { H with acc := ssetAll (H.acc.filter fun c => c.1 / 128 != r.r) r.slots, accTag := sset H.accTag r.r r.tag }

/-- A strand goes back to its snapshot (R340). -/
def StrandState.rollTo (x : StrandState) (y : SnapStrand) : StrandState :=
  { x with s := y.s, p := y.p, b := y.b, pc := y.pc, wait := .none, frozen := false, fetched := false, issueFrom := x.local_, replay := [] }

/-- The target's part of a rollback (R346, R349, R231): popped regions, replay bits, retry count, cause. -/
def Slice.rollBack (sl : Slice) (b : Rollback) (r : Region) : Slice :=
  let r := { r with tiles := [], rows := [], ranges := [], undo := [], reserved := 0
                    retry := if b.abort then r.retry else r.retry + 1, ab := b.abort
                    cause := if b.abort then r.cause else BitVec.ofNat 8 b.code }
  { sl with
    regions := r :: sl.regions.drop (sl.regions.length + 1 - b.target)
    log := sl.log.mapIdx fun i e => if r.logFrom ≤ i then { e with replay := true, depth := min e.depth b.target } else e }

/-- Steps 3 to 5 of a rollback (R349). The writes that apply undo records are saved by no region. -/
def State.rollTo (s : State) (h : HallId) (b : Rollback) (sl : Slice) (r : Region) : State :=
  let inside := sl.regions.take (sl.regions.length + 1 - b.target)
  let undo := inside.foldl (fun n r => n + 64 * r.undo.length) 0
  let tiles := inside.foldl (fun n r => n + r.tiles.length) 0
  let rows := inside.foldl (fun n r => n + r.rows.length) 0
  let s := s.onHall h (Hall.onSlice · fun sl => { sl with regions := [] })
  let (k, s) := s.nextPub
  let w : Writer := { agent := .strand sl.id .S, hall := h, asid := sl.asid, part := sl.part, scope := .device, pub := some k, num := 0,
                      rmw := false, rel := false, clock := [], host := false }
  let s := inside.foldl (fun s r => s.applyUndo w r.undo) s
  let s := (s.dropStores h fun e => b.target ≤ e.depth).onDepths sl.id fun d => min d b.target
  s.onHall h fun H =>
    let H := inside.foldl (fun (H : Hall) r => r.rows.foldl Hall.restoreRow (H.onWork fun W => r.tiles.foldl Work.restoreTile W)) H
    { H with
      slice := some (sl.rollBack b r)
      work := { H.work with S := H.work.S.rollTo r.S, L := H.work.L.rollTo r.L, M := H.work.M.rollTo r.M, V := H.work.V.rollTo r.V, toks := r.toks }
      back := some { b with applied := true, endsAt := H.cycle + 16 + (undo + 1023) / 1024 + 4 * tiles + rows } }

/-- ROLLBACK (R349): in the Hall cycles after the error was found, the discards, the wait for what has started, and then the state of
the target. -/
def State.rollbackStep (s : State) (h : HallId) : State :=
  let H := s.hall h
  match H.back, H.slice with
  | some b, some sl =>
    if b.applied ∨ H.cycle ≤ b.found then s
    else
      let s := s.discardUnstarted h b.target
      if s.spanBusy h b.target then s
      else match regionAt sl.regions b.target, (s.hall h).slice with
        | some r, some sl => s.rollTo h b sl r
        | _, _ => (s.onHall h fun H => { H with back := none }).detect h (min b.target sl.regions.length) b.code .S (s.strand h .S).pc false
  | _, _ => s

/-- ROLLBACK (R349). -/
def execRollback (h : HallId) (s : State) : Out := .next (s.rollbackStep h)

/-- ROLLBACK_RESUME (R349, R351): the strands go on; an error that was held is acted on. -/
def State.rollbackEnd (s : State) (h : HallId) : State :=
  let H := s.hall h
  match H.back with
  | some b =>
    if b.applied ∧ b.endsAt ≤ H.cycle then
      let s := s.onHall h fun H => { H with back := none }
      match b.held with
      | some e => s.actHeld h e
      | none => s
    else s
  | none => s

/-- ROLLBACK_RESUME (R349). -/
def execRollbackResume (h : HallId) (s : State) : Out := .next (s.rollbackEnd h)

/-! The checker at the queues (R337). -/

/-- A command's copy has reached the queue. -/
def reached (cycle : Nat) (m : Option Nat) : Bool := match m with | some c => c ≤ cycle | none => false

/-- CHECKER_MATCH (R334, R337): the next command whose copy has arrived is compared; ERRINJ and an upset make the copies differ. -/
def State.matchHead (s : State) (h : HallId) : State :=
  let H := s.hall h
  match H.cq.find? fun c => reached H.cycle c.matchAt with
  | some c =>
    let (code, s) := s.checkMatch h c.bad
    s.onHall h fun H => { H with cq := H.cq.map fun x => if x.id = c.id then { x with matchAt := none, bad := code } else x }
  | none =>
    match H.hq.find? fun c => reached H.cycle c.matchAt with
    | some c =>
      let (code, s) := s.checkMatch h c.bad
      s.onHall h fun H => { H with hq := H.hq.map fun x => if x.id = c.id then { x with matchAt := none, bad := code } else x }
    | none => s

/-- CHECKER_MATCH (R337). -/
def execCheckerMatch (h : HallId) (s : State) : Out := .next (s.matchHead h)

end Sys2Proof.Machine
end

