-- ==== Sys2Proof/Machine/Image.lean ====
section
/-! DEFINITION. State images and save areas (R322, R325 to R330, R355): the sections of a slice and of a context as bytes, and the
reading of them. -/

namespace Sys2Proof.Machine

/-! Sections. -/

/-- A section (R326): its type, its owner, its length, and its bytes, which a save area's accumulator section does not fill. -/
structure Section where
  ty : Nat
  owner : Nat
  len : Nat
  bytes : Bytes
  deriving DecidableEq, Repr

/-- A section that its bytes fill. -/
def Section.of (ty owner : Nat) (bs : Bytes) : Section := { ty := ty, owner := owner, len := bs.length, bytes := bs }

/-- Eight-byte values. -/
def words (ws : List Nat) : Bytes := ws.flatMap (leBytes 8)

/-- Bit i of packed bits. -/
def bitAt (bs : Bytes) (i : Nat) : Bool := (bs.getD (i / 8) 0).getLsbD (i % 8)

/-! A strand record (R328). -/

/-- A strand's registers as a record. -/
def strandRecord (s : Vector Word 64) (pc : Word) (p : Vector Bool 8) (b : Vector BTgt 4) (ntid : BitVec 8) (nflags : BitVec 6)
    (sbchk : Bool) : Bytes :=
  words ((s.toList.map (·.toNat)).set 0 0) ++ leBytes 8 pc.toNat ++ packBits 8 (fun i => i == 0 || (p[i]?.getD false)) ++
    [ntid, nflags.setWidth 8, if sbchk then 1 else 0] ++ zeros 4 ++
    (b.toList.flatMap fun t => leBytes 8 t.addr.toNat ++ leBytes 8 t.prepared.toNat) ++ zeros 48

/-- The registers of a record. -/
def regsOf (d : Bytes) : Vector Word 64 := Vector.ofFn fun (i : Fin 64) => if i.val = 0 then 0 else wordAt d (8 * i.val)
/-- The predicates of a record. -/
def predsOf (d : Bytes) : Vector Bool 8 := Vector.ofFn fun (i : Fin 8) => i.val != 0 && bitAt (d.drop 520) i.val
/-- The branch targets of a record. -/
def btgtsOf (d : Bytes) : Vector BTgt 4 :=
  Vector.ofFn fun (i : Fin 4) => { addr := wordAt d (528 + 16 * i.val), prepared := (d.getD (536 + 16 * i.val) 0).getLsbD 0, ready := 0 }

/-- A strand from its record, at a resume point. -/
def strandOf (d : Bytes) : StrandState :=
  { StrandState.fresh with
    s := regsOf d, pc := wordAt d 512, p := predsOf d, ntid := d.getD 521 0, nflags := (d.getD 522 0).setWidth 6,
    sbchk := (d.getD 523 0).getLsbD 0, b := btgtsOf d }

/-- The record of a running strand. -/
def StrandState.record (x : StrandState) : Bytes := strandRecord x.s x.pc x.p x.b x.ntid x.nflags x.sbchk
/-- The record of a snapshot (R355). -/
def SnapStrand.record (x : SnapStrand) : Bytes := strandRecord x.s x.pc x.p x.b 0 0 false
/-- A snapshot from its record. -/
def snapOf (d : Bytes) : SnapStrand := { s := regsOf d, p := predsOf d, b := btgtsOf d, pc := wordAt d 512, seq := 0 }

/-! Tiles, masks, tokens, events, banks, streams. -/

/-- The order of the token queues in a section (R326). -/
def tokOrder : List Nat := [0, 1, 2, 3, 5, 6, 7, 4]

/-- The counts of the token queues. -/
def tokBytes (ts : Vector (List Stamp) 8) : Bytes := tokOrder.map fun q => BitVec.ofNat 8 (ts[q]?.getD []).length
/-- Token queues of given counts. -/
def toksOf (d : Bytes) : Vector (List Stamp) 8 :=
  Vector.ofFn fun (q : Fin 8) => List.replicate (d.getD (tokOrder.findIdx (· == q.val)) 0).toNat .empty

/-- Tiles, shapes and masks (TYPE 3). -/
def tileSection (W : Work) : Bytes :=
  (List.range 32).flatMap (fun t => (List.range 4096).map fun b => W.tileByte t b) ++
    (W.shapes.toList.flatMap fun v => leBytes 8 v.toNat) ++
    (runFrom 1 7).flatMap fun k => packBits 4096 fun i => sget W.masks (4096 * k + i) == 1#1

/-- Tiles of a section. -/
def tilesOf (d : Bytes) : SMap 8 := (d.take 131072).mapIdx (fun i b => (i, b)) |>.filter fun c => c.2 != 0
/-- Shapes of a section. -/
def shapesOf (d : Bytes) : Vector (BitVec 16) 32 :=
  Vector.ofFn fun (t : Fin 32) => (shapeOf (wordAt d (131072 + 8 * t.val))).getD resetShape
/-- Masks of a section. -/
def masksOf (d : Bytes) : SMap 1 :=
  (runFrom 1 7).flatMap fun k => (List.range 4096).filterMap fun i =>
    if bitAt (d.drop (131328 + 512 * (k - 1))) i then some (4096 * k + i, 1#1) else none

/-- One weight bank (TYPE 12). -/
def bankBytes (W : Work) (b : Nat) : Bytes :=
  let k := W.banks[b]?.getD .none
  let g := packing k.sparse
  leBytes 8 (bankCode k + 4 * packCode k) ++
    match k.fmt with
    | none => []
    | some f => (List.range 128).flatMap fun i => (List.range (128 * g)).flatMap fun j => leBytes (fmtBytes f) (W.weight b i j).toNat

/-- A bank's format from its code. -/
def bankOfCode (v : Nat) : Bank :=
  { fmt := match v % 4 with | 0 => none | 1 => some .BF16 | 2 => some .FP16 | _ => some .RN8
    sparse := match v / 4 % 4 with | 0 => .N128 | 1 => .N64 | 2 => .N32 | _ => .N16 }

/-- The bytes that a bank's weights take. -/
def bankLen (k : Bank) : Nat :=
  match k.fmt with
  | none => 0
  | some f => 128 * 128 * packing k.sparse * fmtBytes f

/-- The weights of a bank. -/
def weightsOf (b : Nat) (k : Bank) (d : Bytes) : SMap 16 :=
  match k.fmt with
  | none => []
  | some f =>
    let g := packing k.sparse
    (List.range 128).flatMap fun i => (List.range (128 * g)).filterMap fun j =>
      let v : BitVec 16 := BitVec.ofNat 16 (blockElem (fmtBytes f) d (i * (128 * g) + j))
      if v = 0 then none else some ((128 * b + i) * 512 + j, v)

/-- A stream's descriptor with the format in force, which an MFMT may have changed (R186). -/
def Stream.descNow (x : Stream) : Bytes := if x.bound then patch (fitTo 64 x.desc) 40 [x.fmt] else fitTo 64 x.desc

/-- The streams (TYPE 13). -/
def streamBytes (W : Work) : Bytes :=
  W.streams.toList.flatMap fun x => x.descNow ++ leBytes 8 x.cursor ++ leBytes 8 x.status.toNat

/-- A stream of a section. -/
def streamOf (d : Bytes) : Stream :=
  let st := wordAt d 72
  if st.getLsbD 0 then
    { bound := true, exh := st.getLsbD 1, desc := d.take 64, fmt := d.getD 40 0, cursor := fieldAt d 64 8, buf := [] }
  else { Stream.unbound with exh := st.getLsbD 1 }

/-- The counters of numerical events (TYPE 14). -/
def counterBytes (sl : Slice) : Bytes := (List.range 768).flatMap fun i => leBytes 4 (sget sl.counters i).toNat
/-- Counters of a section. -/
def countersOf (d : Bytes) : SMap 32 :=
  (List.range 768).filterMap fun i =>
    let v : BitVec 32 := BitVec.ofNat 32 (fieldAt d (4 * i) 4)
    if v = 0 then none else some (i, v)

/-! Slice control (R327). -/

/-- The codes of tile-activation formats are those of MFMT (R48). -/
def fmtOfCode (v : Nat) : MFmt := if v = 1 then .FP16 else if v = 2 then .RN8 else .BF16

/-- The packet as it stands: the current range of a bulk slice (R327). -/
def Slice.packetNow (sl : Slice) : Bytes :=
  if sl.packet.deadlineKind then sl.raw else patch (patch sl.raw 16 (leBytes 8 sl.lo.toNat)) 24 (leBytes 8 sl.hi.toNat)

/-- The position in the window (R93, R327): with WIN = 0, in the one window that lasts the whole slice. -/
def Thresh.place (t : Thresh) : Nat := if t.win = 0 then t.pos else t.pos % (t.win.toNat * 1024)

/-- The slice-control section. arrived tells of each group whether the slice has arrived in its open phase (bit 14), and whether only the next one
counts it (bit 13, the model's own: log 15). -/
def controlBytes (sl : Slice) (running : Bool) (pos : Nat) (arrived : Nat → Bool × Bool) (pred : Nat) : Bytes :=
  let gs := sl.groups.map fun m => let a := arrived m.gid; leBytes 2 (m.gid + 2 ^ 13 * a.2.toNat + 2 ^ 14 * a.1.toNat + 2 ^ 15)
  let ws := sl.wsets.map fun b => leBytes 8 (b.1.toNat + 2 ^ 32 * b.2.toNat)
  let fault := match sl.pubFault with
    | none => zeros 24
    | some (st, t) =>
      [BitVec.ofNat 8 (causeCode t.cause), BitVec.ofNat 8 (strandCode st), BitVec.ofNat 8 t.width] ++ zeros 5 ++ leBytes 8 t.addr.toNat ++
        leBytes 8 t.data.toNat
  let head := fitTo 64 sl.packetNow ++ leBytes 8 sl.left ++ [sl.rank, if running then 2 else 1, BitVec.ofNat 8 pos, (MFmt.code sl.tileFmt).setWidth 8] ++ zeros 4
  let mid := fitTo 32 gs.flatten ++ fitTo 64 ws.flatten ++ leBytes 8 sl.ncfg.toNat ++ leBytes 8 sl.ntstat.toNat ++
    (sl.thresh.toList.flatMap fun t => leBytes 8 t.word.toNat) ++ (sl.thresh.toList.flatMap fun t => leBytes 4 t.place ++ leBytes 4 t.count)
  let note := leBytes 8 (sl.noteEn.toNat + 2 * sl.notePend.toNat + 256 * sl.noteCount.toNat)
  fitTo 512 (head ++ mid ++ note ++ leBytes 8 sl.inst ++ leBytes 8 pred ++ fault)

/-- A threshold register of a section. -/
def threshOf (d : Bytes) (i : Nat) : Thresh :=
  let t := Thresh.reset.write (wordAt d (192 + 8 * i))
  let n := fieldAt d (220 + 8 * i) 4
  let at_ := fieldAt d (216 + 8 * i) 4
  { t with pos := at_, from_ := at_, count := n, crossed := decide (t.limit.toNat < n) }

/-- A publication fault of a section. detail: the code of an INTEGRITY, which the section does not hold. -/
def pubFaultOf (d : Bytes) (detail : Nat) : Option (Strand × TrapInfo) :=
  let cause : Option Cause := if fieldAt d 264 1 = 6 then some .EXPIRED else if fieldAt d 264 1 = 7 then some .INTEGRITY else none
  cause.map fun c =>
    let w := fieldAt d 266 1
    ((match fieldAt d 265 1 with | 0 => .S | 1 => .L | 2 => .M | _ => .V),
      { cause := c, access := if w = 5 then .tile else .store, width := w, detail := if c = .EXPIRED then 4 else detail,
        addr := wordAt d 272, data := wordAt d 280 })

/-! Landing state (TYPE 7): the first recorded request of each strand. -/

/-- A strand's landing record. -/
def StrandState.landing (x : StrandState) : Bytes :=
  match x.replay with
  | [] => zeros 32
  | r :: _ => [1] ++ zeros 7 ++ leBytes 8 r.word.toNat ++ leBytes 8 r.addr.toNat ++ zeros 8

/-- The requests of a landing record. -/
def replaysOf (d : Bytes) : List Replay := if (d.getD 0 0).getLsbD 0 then [{ word := wordAt d 8, addr := wordAt d 16 }] else []

/-! Commands (TYPE 9, TYPE 10; R225). -/

/-- The syllable of a copy command in block form. -/
def CopyCmd.blockSyl (c : CopyCmd) : Word :=
  let d : BitVec 6 := if c.kind = .MM then 2 else 0
  let i : Instr :=
    if c.resume then .cpResume c.kind d 0 0 0 c.q
    else match c.kind with
      | .CP => .cp d 0 0 0 c.q | .CP2D => .cp2D d 0 0 0 c.q | .MM => .cpMm d 0 0 0 c.q | .FILL => .cpFill d 0 0 0 c.q
  (encode Ctl.plain i).getD 0

/-- A copy command in block form. -/
def CopyCmd.block (c : CopyCmd) : Bytes :=
  words [c.blockSyl.toNat, (c.cw.getD 0).toNat, c.src.toNat, c.dst.toNat, c.x.toNat, (match c.follow with | some f => f.1.toNat | none => 0),
    (match c.follow with | some f => f.2.toNat | none => 0), 0]

/-- The syllable of a Hazel command in block form. -/
def HzCmd.blockSyl (c : HzCmd) : Word :=
  let i : Instr := match c.kind with
    | .pool => .hzPool 0 0 c.q | .root => .hzRoot 0 0 c.q | .desc => .hzDesc 0 0 0 c.q | .expand => .hzExpand 0 0 0 c.q
    | .back => .hzBack 0 0 0 c.q | .sweep => .hzSweep 0 c.q | .read => .hzRead 0 0 0 0 c.q
  (encode Ctl.plain i).getD 0

/-- A Hazel command in block form. -/
def HzCmd.block (c : HzCmd) : Bytes := words [c.blockSyl.toNat, (c.cw.getD 0).toNat, c.va.toNat, c.vb.toNat, c.vx.toNat, 0, 0, 0]

/-! Regions (R355). -/

/-- The overlay lines of a depth: address, byte mask, data. -/
def overlayLines (stores : List Store) (d : Nat) : List (Nat × List (Nat × Byte)) :=
  let cs := (stores.filter fun e => e.depth == d).flatMap fun e => e.vas.zip (e.cells.map (·.2))
  (dedup (cs.map fun c => c.1 / 64)).map fun l => (l, cs.filter fun c => c.1 / 64 == l)

/-- The latest byte that a list of bytes gives a place. -/
def lastByte (cs : List (Nat × Byte)) (a : Nat) : Option Byte := (cs.reverse.find? fun c => c.1 == a).map (·.2)

/-- One overlay line. -/
def lineBytes (l : Nat × List (Nat × Byte)) : Bytes :=
  leBytes 8 (64 * l.1) ++ packBits 64 (fun i => (lastByte l.2 (64 * l.1 + i)).isSome) ++
    (List.range 64).map fun i => (lastByte l.2 (64 * l.1 + i)).getD 0

/-- A region's undo records (R355): those saved, in the order of saving, and then one for each line of its kept ranges that nothing has written
yet, with its present bytes, which are what a first write would save. The section has no other place for the kept ranges, which R354 keeps (log 15).
cur reads the own gallery by offset. -/
def keptUndo (r : Region) (base : Nat) (cur : Nat → Byte) : List Undo :=
  let ls := dedup (r.ranges.flatMap fun e => runFrom (e.1 / 64) (e.2 / 64))
  r.undo ++ (ls.filter fun l => !r.undo.any fun u => u.paddr == base + 64 * l).map fun l =>
    { paddr := base + 64 * l, bytes := (runFrom (64 * l) 64).map cur }

/-- The record of an open region. -/
def regionBytes (r : Region) (undo : List Undo) (d : Nat) (base : Nat) (stores : List Store) : Bytes :=
  let r := { r with undo := undo }
  let ls := overlayLines stores d
  fitTo 64 ([BitVec.ofNat 8 r.retry, if r.ab then 1 else 0] ++ leBytes 2 r.logFrom ++ leBytes 4 r.tiles.length ++ leBytes 4 r.rows.length ++
      leBytes 4 r.undo.length ++ leBytes 4 ls.length) ++
    fitTo 2624 (r.S.record ++ r.L.record ++ r.M.record ++ r.V.record ++ tokBytes r.toks) ++
    (r.tiles.flatMap fun t => leBytes 8 t.t ++ leBytes 8 t.shape.toNat ++ (List.range 4096).map fun b => sget t.bytes (4096 * t.t + b)) ++
    (r.rows.flatMap fun x => leBytes 8 x.r ++ (List.range 128).flatMap fun j => leBytes 8 (sget x.slots (128 * x.r + j)).toNat) ++
    (r.undo.flatMap fun u => leBytes 8 (u.paddr - base) ++ leBytes 8 u.bytes.length ++ u.bytes) ++ ls.flatMap lineBytes

/-- An entry of the effect log from its bytes. -/
def logOf (d : Bytes) : LogEntry :=
  let w := fieldAt d 0 8
  { word := BitVec.ofNat 52 w, depth := w / 2 ^ 52 % 16, replay := w / 2 ^ 56 % 2 == 1, op1 := wordAt d 8, op2 := wordAt d 16, ret := wordAt d 24 }

/-- The region-stack section (TYPE 8). -/
def regionSection (sl : Slice) (base : Nat) (stores : List Store) (cur : Nat → Byte) : Bytes :=
  let rs := sl.regions.reverse
  fitTo 64 (words [rs.length, sl.log.length]) ++ (rs.mapIdx fun i r => regionBytes r (keptUndo r base cur) (i + 1) base stores).flatten ++ sl.log.flatMap LogEntry.bytes

/-- Read n records of a fixed size. -/
def recordsOf {α : Type} (n size : Nat) (f : Bytes → α) (d : Bytes) : List α := (List.range n).map fun i => f ((d.drop (size * i)).take size)

/-- Undo records, which have lengths of their own, and what follows them. -/
def undosOf (base : Nat) : Nat → Bytes → List Undo × Bytes
  | 0, d => ([], d)
  | n + 1, d =>
    let len := fieldAt d 8 8
    let (us, rest) := undosOf base n (d.drop (16 + len))
    ({ paddr := base + fieldAt d 0 8, bytes := (d.drop 16).take len } :: us, rest)

/-- The stores that an overlay line stands for: one for each of its bytes. phys gives the physical address of a byte. -/
def storesOf (depth : Nat) (phys : Nat → Option Nat) (d : Bytes) : List Store :=
  let a := fieldAt d 0 8
  (List.range 64).filterMap fun i =>
    if bitAt (d.drop 8) i then
      (phys (a + i)).map fun p =>
        { n := 0, strand := .S, seq := 0, addr := BitVec.ofNat 64 (a + i), width := 1, data := (d.getD (16 + i) 0).setWidth 64,
          cells := [(p, d.getD (16 + i) 0)], vas := [a + i], covers := false, tile := false, depth := depth, drainAt := 0, drained := none,
          scope := .strand, performed := false }
    else none

/-- Runs of consecutive numbers of a rising list, each with its first number and its length. -/
def runsOfNats : List Nat → List (Nat × Nat)
  | [] => []
  | n :: t =>
    match runsOfNats t with
    | (m, k) :: rest => if m = n + 1 then (n, k + 1) :: rest else (n, 1) :: (m, k) :: rest
    | [] => [(n, 1)]

/-- The kept ranges that undo records stand for: each run of lines counts as one KEEP (R342; log 15). -/
def rangesOf (base : Nat) (us : List Undo) : List (Nat × Nat) :=
  (runsOfNats (dedup ((us.map fun u => (u.paddr - base) / 64).mergeSort fun a b => a ≤ b))).map fun e => (64 * e.1, 64 * e.2)

/-- Open regions from their records, outermost first, with their overlay stores, and what follows them. Kept rows carry the context's tag. -/
def regionsOf (base : Nat) (tag : BitVec 13) (phys : Nat → Option Nat) : Nat → Nat → Bytes → List (Region × List Store) × Bytes
  | 0, _, d => ([], d)
  | n + 1, depth, d =>
    let nt := fieldAt d 4 4
    let nr := fieldAt d 8 4
    let nl := fieldAt d 16 4
    let snap := d.drop 64
    let body := d.drop 2688
    let tiles : List KeptTile := recordsOf nt 4112 (fun r =>
      let t := fieldAt r 0 8
      { t := t, shape := BitVec.ofNat 16 (fieldAt r 8 8), bytes := ((r.drop 16).mapIdx fun i b => (4096 * t + i, b)).filter fun c => c.2 != 0 }) body
    let body := body.drop (4112 * nt)
    let rows : List KeptRow := recordsOf nr 1032 (fun r =>
      let k := fieldAt r 0 8
      { r := k, tag := tag, slots := ((List.range 128).map fun j => (128 * k + j, wordAt r (8 + 8 * j))).filter fun c => c.2 != 0 }) body
    let body := body.drop (1032 * nr)
    let (undo, body) := undosOf base (fieldAt d 12 4) body
    let ranges := rangesOf base undo
    let lines := (recordsOf nl 80 (storesOf depth phys) body).flatten
    let r : Region :=
      { S := snapOf snap, L := snapOf (snap.drop 640), M := snapOf (snap.drop 1280), V := snapOf (snap.drop 1920), toks := toksOf (snap.drop 2560),
        fresh := false, retry := fieldAt d 0 1, ab := (d.getD 1 0).getLsbD 0, cause := 0, tiles := tiles, rows := rows
        ranges := ranges, undo := undo, reserved := ranges.foldl (fun n e => n + e.2 + 64) 0
        logFrom := fieldAt d 2 2 }
    let (rs, rest) := regionsOf base tag phys n (depth + 1) (body.drop (80 * nl))
    ((r, lines) :: rs, rest)

/-! Accumulator and gallery sections. -/

/-- Accumulator rows as a state image holds them. -/
def rowSection (rs : List KeptRow) : Bytes :=
  presence (rs.map (·.r)) ++ ((List.range 512).filterMap fun r => rs.find? fun x => x.r == r).flatMap fun x =>
    (List.range 128).flatMap fun j => leBytes 8 (sget x.slots (128 * x.r + j)).toNat

/-- Accumulator rows from their section. -/
def rowsOf (d : Bytes) : List KeptRow :=
  ((List.range 512).filter (bitAt d)).mapIdx fun i r =>
    { r := r, tag := 0
      slots := ((List.range 128).map fun j => (128 * r + j, wordAt d (64 + 1024 * i + 8 * j))).filter fun c => c.2 != 0 }

/-- A saved row group's record (R330). -/
def SavedRow.record (x : SavedRow) : Bytes :=
  leBytes 2 x.local_ ++ leBytes 2 x.rg.age ++
    [BitVec.ofNat 8 (classCode x.rg.cls + 8 * (x.rg.pol == .REFRESH).toNat + 16 * x.rg.valid.toNat)] ++ zeros 11 ++
    packBits 1024 x.poison.contains ++ (List.range 4096).map fun i => ((x.bytes.find? fun b => b.1 == i).map (·.2)).getD 0

/-- A lifetime class from its code. -/
def lifeOf (n : Nat) : LifeClass := [LifeClass.E0, .E1, .E2, .E3, .E4].getD n .P

/-- A saved row group from its record. -/
def savedRowOf (d : Bytes) : SavedRow :=
  let b := d.getD 4 0
  { local_ := fieldAt d 0 2 % 16384
    rg := { age := fieldAt d 2 2 % 32768, cls := lifeOf (b.extractLsb' 0 3).toNat, pol := if b.getLsbD 3 then .REFRESH else .EXPIRE,
            valid := b.getLsbD 4, req := false, owner := 0, held := false }
    bytes := ((d.drop 144).take 4096).mapIdx fun i x => (i, x)
    poison := (List.range 1024).filter (bitAt (d.drop 16)), whole := true }

/-! A slice's sections. -/

/-- A marker of a strand as the engine-queue section holds it (R329): the strand, the queue, and how many of the slice's saved commands
stand ahead of it. -/
def markerBytes (st : Strand) (m : Marker) (ahead : Nat) : Bytes :=
  [BitVec.ofNat 8 (strandCode st), match m.queue with | .copy => 0 | .matrix => 1 | .hazel => 2] ++ zeros 2 ++ leBytes 4 ahead

/-- The saved commands that stand ahead of a marker. -/
def Saved.aheadOf (v : Saved) (m : Marker) : Nat :=
  match m.queue with
  | .copy => (v.cq.filter fun c => c.id < m.last).length
  | .matrix => (v.mq.filter fun c => c.id < m.last).length
  | .hazel => (v.hq.filter fun c => c.id < m.last).length

/-- The engine-queue section (TYPE 9). The places of its markers are the model's (log 15). -/
def Saved.engineSection (v : Saved) : Bytes :=
  let ms := ring.flatMap fun st => (v.work.strand st).markers.map fun m => markerBytes st m (v.aheadOf m)
  leBytes 8 v.cq.length ++ v.cq.flatMap CopyCmd.block ++ leBytes 8 v.mq.length ++ (v.mq.flatMap fun c => words [c.word.toNat, c.value.toNat]) ++
    leBytes 8 ms.length ++ ms.flatten

/-- A byte of the saved gallery. -/
def Saved.galleryByte (v : Saved) (off : Nat) : Byte :=
  match v.gallery.find? fun x => x.local_ == off / 4096 with
  | some x => ((x.bytes.find? fun b => b.1 == off % 4096).map (·.2)).getD 0
  | none => 0

/-- The sections of a slice but for its accumulator rows and its gallery. -/
def Saved.sections (v : Saved) (owner : Nat) (running : Bool) (pos : Nat) (arrived : Nat → Bool × Bool) (pred : Nat) : List Section :=
  let W := v.work
  [ .of 1 owner (controlBytes v.slice running pos arrived pred),
    .of 2 owner (W.S.record ++ W.L.record ++ W.M.record ++ W.V.record),
    .of 3 owner (tileSection W),
    .of 5 owner (tokBytes W.toks),
    .of 6 owner (W.evs.toList.map fun e => BitVec.ofNat 8 e.count),
    .of 7 owner (W.S.landing ++ W.L.landing ++ W.M.landing ++ W.V.landing),
    .of 8 owner (regionSection v.slice (galleryBase v.hall) v.stores v.galleryByte),
    .of 9 owner v.engineSection,
    .of 10 owner (leBytes 8 v.pool.toNat ++ leBytes 8 v.hq.length ++ v.hq.flatMap HzCmd.block),
    .of 12 owner (bankBytes W 0 ++ bankBytes W 1),
    .of 13 owner (streamBytes W),
    .of 14 owner (counterBytes v.slice) ]

/-- The gallery section of a slice (TYPE 11). -/
def Saved.gallerySection (v : Saved) (pos : Nat) : Section := .of 11 pos (v.gallery.flatMap SavedRow.record)

/-! Layout (R322, R325, R326). -/

/-- Round up to 64. -/
def up64 (n : Nat) : Nat := (n + 63) / 64 * 64

/-- Offsets of the sections from a first offset on. -/
def placeSections : Nat → List Section → List (Nat × Section)
  | _, [] => []
  | at_, x :: t => (at_, x) :: placeSections (up64 (at_ + x.len)) t

/-- The layout table and the sections with their offsets. -/
def layout (secs : List Section) : Bytes × List (Nat × Section) :=
  let placed := placeSections (up64 (256 + 32 * secs.length)) secs
  (placed.flatMap fun e => leBytes 2 e.2.ty ++ zeros 2 ++ leBytes 4 e.2.owner ++ leBytes 8 e.1 ++ leBytes 8 e.2.len ++ zeros 8, placed)

/-- The total length of an image or a save area. -/
def layoutLen (secs : List Section) : Nat :=
  match (layout secs).2.getLast? with | some e => up64 (e.1 + e.2.len) | none => up64 (256 + 32 * secs.length)

/-- What the header of an image says of its capture. -/
structure Capture where
  asid : Asid
  part : PartId
  nhall : Nat
  nslice : Nat
  time : Nat
  dirty : Word
  deriving DecidableEq, Repr

/-- The first 64 bytes of a header (R325). -/
def headerBytes (c : Capture) (nsec len : Nat) : Bytes :=
  [0x4E, 0x45, 0x4C, 0x49, 0x4D, 0x41, 0x47, 0x45] ++ leBytes 2 1 ++ leBytes 2 256 ++ leBytes 4 nsec ++ leBytes 8 0x00010003 ++ leBytes 8 len ++
    leBytes 2 c.asid.toNat ++ [c.part.setWidth 8, BitVec.ofNat 8 c.nhall] ++ leBytes 4 c.nslice ++ leBytes 8 c.time ++ leBytes 8 c.dirty.toNat ++ zeros 8

/-- The pieces of a save area: offsets with the bytes written there. -/
def areaPieces (c : Capture) (secs : List Section) : List (Nat × Bytes) :=
  let l := layout secs
  (0, fitTo 256 (headerBytes c secs.length (layoutLen secs))) :: (256, l.1) :: l.2.map fun e => (e.1, e.2.bytes)

/-- An image's plain bytes from offset 256 on. -/
def imageBody (secs : List Section) : Bytes :=
  let l := layout secs
  let fill := fun (acc : Bytes) (e : Nat × Section) => acc ++ zeros (e.1 - 256 - acc.length) ++ fitTo e.2.len e.2.bytes
  fitTo (layoutLen secs - 256) (l.2.foldl fill l.1)

/-- The sections of an image: its table and the bytes that it names. -/
def sectionsOf (img : Bytes) : List Section :=
  (List.range (fieldAt img 12 4)).map fun i =>
    let e := (img.drop (256 + 32 * i)).take 32
    { ty := fieldAt e 0 2, owner := fieldAt e 4 4, len := fieldAt e 16 8, bytes := (img.drop (fieldAt e 8 8)).take (fieldAt e 16 8) }

/-- The bytes of a section of a type and an owner, none when the image has none. -/
def sectionAt (secs : List Section) (ty owner : Nat) : Bytes :=
  match secs.find? fun x => x.ty == ty && x.owner == owner with | some x => x.bytes | none => []

end Sys2Proof.Machine
end

