-- ==== Sys2Proof/Machine/Leave.lean ====
section
/-! DEFINITION. How a slice leaves its Hall and comes back (R315 to R323, R354, R265, R266, R280, R329, R379): the capture, the save
area, the restore, and a kill that waits for the strands. -/

namespace Sys2Proof.Machine

/-! Capture (R265, R315 step 1, R316, R317). -/

/-- The row groups that a save keeps: those of the listed ranges, or every valid one that the context owns. -/
def State.keptGroups (s : State) (h : HallId) (sl : Slice) (w : SwitchOut) : List Nat :=
  if w.how = .checkpoint then
    (dedup (w.ranges.flatMap fun r => (runFrom (r.1 / 4096) ((r.1 + r.2 + 4095) / 4096 - r.1 / 4096)))).map (16384 * h.toNat + ·)
  else (s.groupsOf h).filter fun g => let v := s.rowGroup g; v.valid && v.owner == sl.asid.toNat + 1

/-- A row group at the capture instant: its lifetime state and its poison bits (R265). -/
def State.captureGroup (s : State) (w : SwitchOut) (g : Nat) : SavedRow :=
  { local_ := g % 16384, rg := { s.rowGroup g with held := false }, bytes := []
    poison := (List.range 1024).filter fun i => s.poison.contains (galleryTop + 4096 * g + 4 * i), whole := w.how != .checkpoint }

/-- The capture instant: the values of the row groups to be saved are taken, and the row groups are held until their contents are read (R265). -/
def State.capture (s : State) (h : HallId) (sl : Slice) (w : SwitchOut) : State :=
  let gs := s.keptGroups h sl w
  let kept := gs.map (s.captureGroup w)
  (gs.foldl (fun s g => s.setRowGroup g { s.rowGroup g with held := true }) s).onHall h fun H =>
    { H with switch := some { w with captured := true, gallery := kept, aged := 0 } }

/-- The strands have stopped: the capture instant of a switch-out; that of a FREEZE comes when the last slice of its context has stopped (R265,
R324). -/
def State.stopped (s : State) (h : HallId) (sl : Slice) (w : SwitchOut) : State :=
  if w.how = .freeze then s.onHall h fun H => { H with switch := some { w with captured := true } } else s.capture h sl w

/-- The contents of a captured row group: the bytes of the listed ranges, or all of them, with what the slice's own publication has stored there
(R265, R315 step 4; log 16). -/
def State.readGroup (s : State) (h : HallId) (w : SwitchOut) (x : SavedRow) : SavedRow :=
  let off := 4096 * x.local_
  let inside := fun (i : Nat) => w.how != .checkpoint || w.ranges.any fun r => r.1 ≤ off + i && off + i < r.1 + r.2
  { x with bytes := (List.range 4096).filterMap fun i =>
      if inside i then some (i, Memory.byte s.mem (galleryBase h + off + i)) else none }

/-- The hold of row groups ends: what LIFE.SET has left of them takes effect (R246, R265). -/
def State.unhold (s : State) (gs : List Nat) : State :=
  gs.foldl (fun s g => (s.setRowGroup g { s.rowGroup g with held := false }).ageRules g true) s

/-- The row groups of a Hall that a switch-out has captured. -/
def SwitchOut.groups (w : SwitchOut) (h : HallId) : List Nat := w.gallery.map fun x => 16384 * h.toNat + x.local_

/-- The contents of the captured row groups are read, which ends their hold (R265). -/
def State.readCaptured (s : State) (h : HallId) (w : SwitchOut) : SwitchOut × State :=
  if w.read then (w, s)
  else
    let w := { w with gallery := w.gallery.map (s.readGroup h w), read := true }
    (w, (s.unhold (w.groups h)).onHall h fun H => { H with switch := some w })

/-- The age steps for which a row group may be held (R265). -/
def holdBound : Nat := 3999

/-! The saved slice. -/

/-- What a strand keeps of the syllable that it has begun: the arrival of a BAR.SYNC and the time that a barrier wait has lasted
(R147). The syllable issues again. -/
def Wait.away (w : Wait) : Wait :=
  { Wait.none with arrived := w.arrived, until_ := if w.stage = 0 ∧ (w.arrived || w.since.isSome) then w.until_ else 0 }

/-- A strand as it is saved. -/
def StrandState.away (x : StrandState) : StrandState :=
  { x with frozen := false, wait := x.wait.away, slots := [], pends := [], lateAtomics := [], lateFault := none, lateRenews := [], renewals := [], stmrs := [] }

/-- The listed accumulator rows of a save that carry the context's tag (R316, R317, R322). -/
def Hall.pinnedRows (H : Hall) (sl : Slice) (w : SwitchOut) : List Nat :=
  (List.range 512).filter fun r => (sget H.accTag r).toNat == sl.asid.toNat + 1 && (w.how != .checkpoint || w.rows.contains r)

/-- The slice as it is saved, its publication made. Rows that its restore was still to fill are in their slots (R322, R323). Where its Hazel engine is unbound though an HZ.POOL has entered the queue, 1 stands for the
address of the bound descriptor (log 15). -/
def State.savedOf (s : State) (h : HallId) (sl : Slice) (w : SwitchOut) : Saved :=
  let H := (s.hall h).writeTiles.unend
  let sl := { sl with endFrom := none, fills := [] }
  let fills := match H.slice with | some x => x.fills | none => []
  let W := H.work
  let W := { W with S := W.S.away, L := W.L.away, M := W.M.away, V := W.V.away }
  { slice := { sl with ending := false, waitPred := false, left := if w.how = .yield then 256 * sl.packet.budget else sl.left }
    work := W, full := w.how != .checkpoint, tiles := if w.how = .checkpoint then w.tiles else BitVec.allOnes 32
    rows := H.pinnedRows sl w ++ fills.map (·.r), present := fills.map (·.r), acc := fills.flatMap (·.slots), gallery := w.gallery, stores := H.overlay
    cq := H.cq.filter fun c => c.slice == sl.id, mq := H.mq.filter fun c => c.slice == sl.id, hq := H.hq.filter fun c => c.slice == sl.id
    pool := if !sl.hzUsed then 0 else match H.rebind with | some a => a | none => if H.poolAddr = 0 then 1 else H.poolAddr, mFault := H.mFault, hall := h, area := 0, areaLen := 0, accAt := 0 }

/-- The accumulator section of a save area: a slot for every row, none of them written yet (R322). -/
def areaRows (present : List Nat) : Section := { ty := 4, owner := 0, len := 64 + 1024 * 512, bytes := presence present }

/-- A slice has arrived in the open phase of a group, and only the next phase counts it. -/
def State.hasArrived (s : State) (sl : Slice) (gid : Nat) : Bool × Bool :=
  match s.group sl.asid gid with
  | some g =>
    match g.members.find? fun m => m.slice == sl.id && m.index == s.selfIndex sl.asid with
    | some m => (m.arrived, g.phase < m.from_)
    | none => (false, false)
  | none => (false, false)

/-- The predecessor instance of a slice's, 0 for none. -/
def State.predOf (s : State) (sl : Slice) : Nat := match (s.inst sl.inst).bind (·.pred) with | some p => p | none => 0

/-- A Hall's position among its partition's Halls (R325). -/
def State.hallPos (s : State) (p : PartId) (h : HallId) : Nat := ((maskHalls (s.part p).halls).takeWhile (· != h)).length

/-- The sections of a save area. -/
def State.areaSections (s : State) (v : Saved) : List Section :=
  let pos := s.hallPos v.slice.part v.hall
  v.sections 0 false pos (s.hasArrived v.slice) (s.predOf v.slice) ++ [areaRows v.present, v.gallerySection pos]

/-- The slots of a save area's rows that are not pinned are written (R322). -/
def State.writeSlots (s : State) (u : Who) (v : Saved) : State :=
  v.present.foldl (fun s r =>
    s.superWrite u (v.area.toNat + v.accAt + 64 + 1024 * r) ((List.range 128).flatMap fun j => leBytes 8 (sget v.acc (128 * r + j)).toNat)) s

/-- The save takes its area from the save pool and is written there (R302, R322): none when the pool cannot hold it. -/
def State.writeArea (s : State) (v : Saved) : Option (Saved × State) :=
  let p := v.slice.part
  let secs := s.areaSections v
  match s.takePool p (layoutLen secs), s.superWho p with
  | some a, some u =>
    if s.reaches u true a (layoutLen secs) then
      let at_ := match (layout secs).2.find? fun e => e.2.ty == 4 with | some e => e.1 | none => 0
      let cap : Capture := { asid := v.slice.asid, part := p, nhall := (maskHalls (s.part p).halls).length, nslice := 1, time := s.devtime, dirty := 0 }
      let v := { v with area := BitVec.ofNat 64 a, areaLen := layoutLen secs, accAt := at_ }
      some (v, ((areaPieces cap secs).foldl (fun s e => s.superWrite u (a + e.1) e.2) s).writeSlots u v)
    else none
  | _, _ => none

/-! Leaving. -/

/-- Something that the switch-out waits for is not over: atomics with destination s0, the copy in progress, started matrix and Hazel
commands, and their event posts (R315 step 2, R132). -/
def Hall.leaveBusy (H : Hall) (id : Nat) : Bool :=
  (ring.any fun st => !(H.work.strand st).lateAtomics.isEmpty) || (match H.copy with | some r => r.cmd.slice == id | none => false) ||
    (H.mq.any fun c => c.slice == id && c.started.isSome) || (match H.hz with | some r => r.cmd.slice == id | none => false) || !H.posts.isEmpty

/-- The publication of a switch-out (R280, R315 step 4): its first data fault is recorded. -/
def State.leavePublish (s : State) (h : HallId) : State :=
  ring.foldl (fun s st =>
    let (f, s) := s.publish h st .device
    match f with
    | none => s
    | some (_, t) => s.onHall h (Hall.onSlice · fun sl => { sl with pubFault := some (sl.pubFault.getD (st, t)) })) s

/-- The record of a saved slice. -/
def Saved.ready (v : Saved) (yield : Bool) : Ready :=
  { what := .saved v.slice.id, prio := v.slice.packet.prio, deadline := if v.slice.packet.deadlineKind then some v.slice.packet.lo.toNat else none,
    seq := 0, atThief := yield && !v.slice.packet.deadlineKind, late := v.slice.late }

/-- The slice leaves its Hall; tags of accumulator rows that a checkpoint does not list are cleared (R220). -/
def State.leaveHall (s : State) (h : HallId) (v : Saved) : State :=
  let id := v.slice.id
  let drop : Hall → Hall := fun H =>
    { H.vacate.uncount (H.unmatched id 0 ++ H.work.S.unmatched) with
      overlay := []
      mFault := none
      cq := H.cq.filter fun c => c.slice != id
      mq := H.mq.filter fun c => c.slice != id
      hq := H.hq.filter fun c => c.slice != id
      accTag := H.accTag.filter fun e => e.2.toNat != v.slice.asid.toNat + 1 || v.rows.contains e.1 }
  (s.markAbsent v.slice h true).onHall h drop

/-- A publication fault that waits for the slice to run is raised (R315). -/
def State.raisePubFault (s : State) (h : HallId) : State :=
  match (s.hall h).slice with
  | none => s
  | some sl =>
    match sl.pubFault with
    | none => s
    | some (st, t) => (s.onHall h (Hall.onSlice · fun sl => { sl with pubFault := none })).raise h st t

/-- The save finds no place: a pre-emption becomes a drain, a yield waits (R311, R314); first the event must find room (R400). -/
def State.leaveFails (s : State) (h : HallId) (sl : Slice) (w : SwitchOut) : State :=
  if w.how = .yield then
    if w.told || !s.evRoom sl.part then s else (s.noPlace h sl).onHall h fun H => { H with switch := some { w with captured := true, told := true } }
  else if !s.evRoom sl.part then s
  else
    let s := (s.noPlace h sl).unhold (w.groups h)
    let strand := fun (x : StrandState) => { x with issueFrom := x.local_, frozen := false }
    (s.onHall h fun H =>
      { H with
        switch := none
        preempt := some { policy := .drain, asked := false, left := 0, lastTick := s.tick }
        work := { H.work with S := strand H.work.S, L := strand H.work.L, M := strand H.work.M, V := strand H.work.V } }).raisePubFault h

/-- The slice is saved and its record enters the deque (R315 steps 4 to 6), once other modules have answered for its stores there (R280). A slice that leaves for FREEZE is kept for the image
(R324). -/
def State.leaveSave (s : State) (h : HallId) (w : SwitchOut) : State :=
  let s := s.leavePublish h
  if ring.any fun st => s.farWaits h st none then s
  else match (s.hall h).slice with
  | none => s
  | some sl =>
    let (w, s) := s.readCaptured h w
    let v := s.savedOf h sl w
    if w.how = .freeze then ({ s with saved := s.saved ++ [v] }).leaveHall h v
    else match s.writeArea v with
      | none => s.leaveFails h sl w
      | some (v, t) =>
        let t := ({ t with saved := t.saved ++ [v] }).leaveHall h v
        match t.deliver sl.part h (v.ready (w.how == .yield)) with
        | .ok t => t
        | .error _ => s.leaveFails h sl w

/-- A kill whose record finds no place becomes a drain (R311); one after a MACHINE_CHECK waits (log 18). -/
def State.leaveKill (s : State) (h : HallId) (sl : Slice) (w : SwitchOut) : State :=
  match s.kills h with
  | some t => t
  | none =>
    if !w.captured then s.leaveFails h sl w
    else if w.told || !s.evRoom sl.part then s
    else (s.noPlace h sl).onHall h fun H => { H with switch := some { w with told := true } }

/-- SWITCH_OUT and KILL (R315, R320) go on once nothing of the slice's strands is in flight; a kill waits for the commands that have started. A trap takes precedence (R393), and a
rollback ends first. The contents of the row groups are read before their hold can reach 4,000 age units (R265). -/
def State.leaveStep (s : State) (h : HallId) : State :=
  let H := s.hall h
  match H.switch, H.slice with
  | some w, some sl =>
    if H.cycle ≤ w.from_ ∨ H.trap.isSome ∨ H.back.isSome ∨ !H.quiet then s
    else match w.how with
      | .kill => if H.performing sl.id then s else s.leaveKill h sl w
      | .term => if H.performing sl.id then s else s.termNow h
      | _ =>
        let s := if w.captured then s else s.stopped h sl w
        match (s.hall h).switch with
        | none => s
        | some w =>
          let s := if w.captured && !w.read && holdBound ≤ w.aged then ((s.leavePublish h).readCaptured h w).2 else s
          let ready := w.how != .freeze || (match (s.ctx sl.asid).freezing with | some f => f.at_.isSome | none => true)
          if (s.hall h).leaveBusy sl.id || !ready then s
          else match (s.hall h).switch with
            | some w => s.leaveSave h w
            | none => s
  | _, _ => s

/-! Coming back (R323, R266). -/

/-- A physical address of the old Hall's gallery, on the new Hall. -/
def rebase (h h' : HallId) (p : Nat) : Nat :=
  if galleryBase h ≤ p ∧ p < galleryBase h + 0x4000000 then galleryBase h' + (p - galleryBase h) else p

/-- A store of an open region on the new Hall: own-gallery addresses move along (R354). -/
def Store.moved (e : Store) (h h' : HallId) : Store :=
  { e with cells := (e.cells.zip e.vas).map fun c => if ownBase ≤ c.2 then (rebase h h' c.1.1, c.1.2) else c.1 }

/-- The saved bytes and lifetime state of a row group are restored, its poison bits whole (R266). -/
def State.restoreGroup (s : State) (h : HallId) (w : Writer) (x : SavedRow) : State :=
  let g := 16384 * h.toNat + x.local_
  let base := galleryTop + 4096 * g
  let s := s.writeHome w (x.bytes.map fun b => (base + b.1, b.2))
  let s := s.setRowGroup g { x.rg with owner := w.asid.toNat + 1, req := false, held := false }
  { s with poison := (s.poison.filter fun a => a < base || base + 4096 ≤ a) ++ x.poison.map fun i => base + 4 * i }

/-- The rules of an age step at the restored ages, for an owner that is running (R266). -/
def State.restoredAges (s : State) (h : HallId) (xs : List SavedRow) : State :=
  xs.foldl (fun s x => s.ageRules (16384 * h.toNat + x.local_) true) s

/-- The accumulator rows that a save area holds (R323). -/
def State.areaRowsOf (s : State) (v : Saved) : List KeptRow :=
  v.present.map fun r =>
    match s.superWho v.slice.part with
    | some u =>
      if v.areaLen = 0 then { r := r, tag := 0, slots := v.acc.filter fun c => c.1 / 128 == r }
      else
        let d := s.superRead u (v.area.toNat + v.accAt + 64 + 1024 * r) 1024
        { r := r, tag := 0, slots := ((List.range 128).map fun j => (128 * r + j, wordAt d (8 * j))).filter fun c => c.2 != 0 }
    | none => { r := r, tag := 0, slots := v.acc.filter fun c => c.1 / 128 == r }

/-- The rows of a thawed context that its first slice on a Hall fills (R333). -/
def State.takeThawed (s : State) (h : HallId) (asid : Asid) : List KeptRow × State :=
  let mine := s.thawed.filter fun t => t.hall == h && t.asid == asid
  (mine.flatMap (·.rows), { s with thawed := s.thawed.filter fun t => !(t.hall == h && t.asid == asid) })

/-- Accumulator rows wait to be filled before any strand of the slice issues. -/
def State.beginFills (s : State) (h : HallId) (rows : List KeptRow) : State :=
  s.onHall h fun H =>
    { H with restore := .begin
             slice := H.slice.map fun sl => { sl with fills := rows.map fun r => { r with tag := BitVec.ofNat 13 (sl.asid.toNat + 1) } } }

/-- A tile that a checkpoint did not list holds open values (R220; log 16). -/
def openTile (n t : Nat) : SMap 8 :=
  (List.range 4096).filterMap fun i => let b : Byte := (Config.value (n + 4096 * t + i)).setWidth 8; if b = 0 then none else some (4096 * t + i, b)

/-- The tiles of a restored slice. -/
def Saved.tilesBack (v : Saved) (n : Nat) : SMap 8 :=
  (List.range 32).flatMap fun t =>
    if v.tiles.getLsbD t then v.work.tiles.filter fun c => c.1 / 4096 == t else openTile n t

/-- A matrix command's memory image on the new Hall: own-gallery addresses are those of the new Hall (R34, R180). -/
def MatCmd.movedTo (c : MatCmd) (h h' : HallId) : MatCmd := if ownBase ≤ c.value.toNat then { c with pages := c.pages.map (rebase h h') } else c

/-- A thawed command takes the translations of its memory image anew (R333). -/
def State.recapture (s : State) (h : HallId) (v : Saved) (c : MatCmd) : MatCmd :=
  match imageOf c.op with
  | none => c
  | some (n, wr) =>
    if !c.pages.isEmpty then c
    else match resolveAll (s.resolveDirect { hall := h, asid := c.asid, part := c.part, super := c.super } v.slice.wsets (imageWant wr)) (runFrom c.value.toNat n) with
      | .ok ps => { c with pages := ps }
      | .error (a, t) => { c with lost := some ((imageWant wr).tell a (t.getD (xlate 0))) }

/-- A saved command whose copies have not been compared is matched on this Hall, whose ERRINJ counts it (R334, log 48). -/
def Hall.recount (H : Hall) (m : Option Nat) (bad : Nat) : Nat × Hall := if m.isSome then H.injectAt else (bad, H)

/-- A saved copy command enters the queue. -/
def Hall.reenterCopy (H : Hall) (c : CopyCmd) : Hall :=
  let (bad, H) := H.recount c.matchAt c.bad
  { H with cq := H.cq ++ [{ c with bad := bad, id := H.cqNext, matchAt := c.matchAt.map fun _ => H.cycle + 6 }], cqNext := H.cqNext + 1 }

/-- A saved Hazel command enters the queue. -/
def Hall.reenterHazel (H : Hall) (c : HzCmd) : Hall :=
  let (bad, H) := H.recount c.matchAt c.bad
  { H with hq := H.hq ++ [{ c with bad := bad, id := H.hqNext, back := true, matchAt := c.matchAt.map fun _ => H.cycle + 6 }], hqNext := H.hqNext + 1 }

/-- The saved commands enter the queues again, behind those already there, and markers stand behind the same commands (R323, R329). -/
def State.reenter (s : State) (h : HallId) (v : Saved) : State :=
  let H := s.hall h
  let mark := fun (m : Marker) =>
    let k := v.aheadOf m
    { m with last := if k = 0 then 0 else (match m.queue with | .copy => H.cqNext | .matrix => H.mqNext | .hazel => H.hqNext) + k }
  let strand := fun (x : StrandState) => { x with markers := x.markers.map mark }
  let s := s.onHall h fun H =>
    { v.hq.foldl Hall.reenterHazel (v.cq.foldl Hall.reenterCopy H) with
      pool := if v.pool = 0 then H.pool else none, rebind := if v.pool = 0 then none else some v.pool, hzEntered := v.slice.hzUsed
      work := { H.work with S := strand H.work.S, L := strand H.work.L, M := strand H.work.M, V := strand H.work.V } }
  v.mq.foldl (fun s c => s.enterMat h { (s.recapture h v (c.movedTo v.hall h)) with id := (s.hall h).mqNext, poster := h }) s

/-- A version of an overlay image on another Hall. -/
def Version.moved (x : Version) (h h' : HallId) : Version :=
  let cs := x.cells.map fun c => (rebase h h' c.1, c.2)
  { x with hall := h', cells := cs, line := (cs.headD (64 * x.line, 0)).1 / 64 }

/-- Versions that the slice's region stores made in the old Hall's overlay image move along (R280, R354). They come after the bytes that the restore
has just written there, as they did on the old Hall. -/
def State.moveOverlay (s : State) (h' : HallId) (v : Saved) : State :=
  let mine := fun (x : Version) => !x.home && (match x.agent with | .strand id _ => id == v.slice.id | _ => false)
  let moved := ((s.hist.filter mine).reverse.mapIdx fun i x => { x.moved v.hall h' with id := s.vers + 1 + i }).reverse
  { s with hist := moved ++ s.hist.filter fun x => !mine x, vers := s.vers + moved.length }

/-- The notices that wait for a context are added to a slice of it that starts, also one that resumes (R255; DESIGN CHOICE, log 58). -/
def State.takeNotices (s : State) (h : HallId) (asid : Asid) : State :=
  let n := (s.ctx asid).notices
  if n = 0 then s
  else (s.onCtx asid fun c => { c with notices := 0 }).onHall h (Hall.onSlice · fun sl =>
    { sl with notePend := true, noteCount := BitVec.ofNat 8 (min 255 (sl.noteCount.toNat + n.toNat)) })

/-- The restore of a saved slice on a Hall, up to the fills of its accumulator rows (R323). -/
def State.resumeSlice (s : State) (h : HallId) (v : Saved) (late : Bool) : State :=
  let sl := v.slice
  let s := { s with saved := s.saved.filter fun x => x.slice.id != sl.id }
  let (k, s) := s.nextPub
  let w : Writer := { agent := .strand sl.id .S, hall := h, asid := sl.asid, part := sl.part, scope := .device, pub := some k, num := 0,
                      rmw := false, rel := false, clock := v.work.S.knows sl.id .S, host := false }
  let s := v.gallery.foldl (fun s x => s.restoreGroup h w x) s
  let s := s.moveOverlay h v
  let undo := fun (u : Undo) => { u with paddr := rebase v.hall h u.paddr }
  let region := fun (r : Region) => { r with undo := r.undo.map undo }
  let n := s.free
  let s := { s with free := n + 131072 }
  let s := s.onHall h fun H =>
    let W := { v.work with tiles := v.tilesBack n, streams := v.work.streams.map fun x => { x with buf := [] } }
    { H with
      slice := some { sl with late := late, regions := sl.regions.map region }
      work := W, issued := ({ H with work := W }).reissued.issued, mFault := v.mFault, trap := none, back := none, switch := none, preempt := none, boostReq := .nominal
      csrWrites := [], overlay := v.stores.mapIdx fun i e => { e.moved v.hall h with n := H.storeNo + i + 1 }
      storeNo := H.storeNo + v.stores.length }
  let s := ((s.dropStreams h).reenter h v).drainAll h
  let s := if sl.supervisor then s.giveOwed h sl.part else s
  let (more, s) := s.takeThawed h sl.asid
  (((s.beginFills h (s.areaRowsOf v ++ more)).markAbsent sl h false).takeNotices h sl.asid).restoredAges h v.gallery

/-- A detected error that was found while the slice was away is acted on (R338, R339). -/
def State.raiseAway (s : State) (h : HallId) : State :=
  match (s.hall h).slice with
  | none => s
  | some sl =>
    match sl.awayError with
    | none => s
    | some e => (s.onHall h (Hall.onSlice · fun sl => { sl with awayError := none })).detect h e.depth e.code e.strand e.pc false

/-- The strands run from the next Hall cycle on: a prepared branch target is ready in their fourth (R112, R323). What any of them knew as the slice
left happens before its resumption (R277). -/
def State.restoreEnds (s : State) (h : HallId) : State :=
  let W := (s.hall h).work
  let c := ring.foldl (fun c st => Clock.join c (W.strand st).clock) []
  let heard := ring.foldl (fun (m : Seen) st => m.join ((W.strand st).heard.up st (W.strand st).stores)) Stamp.empty.seen
  let strand := fun (now : Nat) (x : StrandState) =>
    { x with issueFrom := x.local_, notBefore := now + 1, fetched := false, b := x.b.map fun t => { t with ready := now + 4 }, clock := c, heard := heard }
  let s := s.onHall h fun H =>
    { H with restore := .off
             work := { H.work with S := strand H.cycle H.work.S, L := strand H.cycle H.work.L, M := strand H.cycle H.work.M, V := strand H.cycle H.work.V } }
  ((s.renewAll h).raisePubFault h).raiseAway h

/-- SLICE_RESUME (R323), unless the slice is on its way off the Hall again: the accumulator fills, one row in a Hall cycle after the arrival time, ACC_FOREIGN before them when a row
carries another context's tag, and then the strands. -/
def State.resumeStep (s : State) (h : HallId) : State :=
  let H := s.hall h
  match (if H.switch.isSome then none else H.slice) with
  | none => s
  | some sl =>
    match H.restore with
    | .off => s
    | .begin =>
      if H.trap.isSome then s
      else match sl.fills.find? fun r => let t := sget H.accTag r.r; t != 0 && t != r.tag with
        | some r => s.raise h .S (s.foreignInfo h r.r)
        | none =>
          if sl.fills.isEmpty then s.restoreEnds h
          else
            let (d, s) := s.drawDelay
            s.onHall h fun H => { H with restore := .filling (H.cycle + d + sl.fills.length) }
    | .filling till =>
      if H.cycle < till then s
      else (s.onHall h fun H => { sl.fills.foldl Hall.restoreRow H with slice := some { sl with fills := [] } }).restoreEnds h

/-- SLICE_RESUME (R323). -/
def execSliceResume (h : HallId) (s : State) : Out := .next (s.resumeStep h)

end Sys2Proof.Machine
end

