-- ==== Sys2Proof/Machine/Freeze.lean ====
section
/-! DEFINITION. Freezing, thawing and tracking a context (R227 to R229, R324 to R333, R399). -/

namespace Sys2Proof.Machine

/-- Bytes that a system syllable writes at once, published at DEVICE. -/
def State.systemWrite (s : State) (cs : List Host.Cell) : State :=
  let (k, s) := s.nextPub
  let a := s.agentOf s.curHall s.curStrand
  let s := s.writeHome { agent := a, hall := s.curHall, asid := s.asid, part := s.partId, scope := .device, pub := some k, num := 0, rmw := false,
                         rel := false, clock := s.known, host := false } cs
  s.onMe fun x => { x with clock := x.clock.up a k }

/-! TRACK (R229, R331). -/

/-- The bytes of a dirty bitmap. -/
def dirtyBytes (ds : List Nat) : Bytes := packBits 2883584 ds.contains

/-- TRACK (R229). An ASID that is not the partition's names no context: nothing is done (log 17). -/
def execTrack (op : TrackOp) (a b : BitVec 6) (s : State) : Out :=
  .next (if !s.superMode then s.trapCause .PRIV
    else s.reading [.s a.toNat, .s b.toNat] fun s =>
      let asid : Asid := (s.rs a).setWidth 12
      let bm := s.rs b
      let mine := (s.part s.partId).asids.getLsbD asid.toNat
      let change := fun (s : State) (f : Ctx → Ctx) => if mine then s.onCtx asid f else s
      match op with
      | .disarm => (change s fun c => { c with tracking := false }).issue
      | .arm =>
        if bm.toNat % 4096 ≠ 0 then s.trapHere ((wantSystemWrite 64).tell bm.toNat { cause := .ALIGN })
        else
          let by_ := s.asid
          (change s fun c => { c with tracking := true, dirty := [], bitmap := bm, bitmapBy := by_ }).issue
      | .harvest =>
        s.withBytes (wantSystemWrite 64) 4096 bm 360448 fun ps s =>
          match s.invalidAt (fun _ => false) ps with
          | some a => s.trapHere { (wantSystemWrite 64).tell (bm.toNat + (ps.takeWhile (· != a)).length) { cause := .EXPIRED } with detail := 4 }
          | none => (change (s.systemWrite (ps.zip (dirtyBytes (s.ctx asid).dirty))) fun c => { c with dirty := [] }).issue)

/-! Completion words (R203, R227). -/

/-- A completion word of FREEZE or THAW, written with release at DEVICE. Where its address does not resolve nothing is written (log 10). -/
def State.systemWord (s : State) (u : Who) (cw : Word) (cur code state : Nat) (c : Clock) : State :=
  let (k, s) := s.nextPub
  let w : Writer := { agent := .device, hall := u.hall, asid := u.asid, part := u.part, scope := .device, pub := some k, num := 0, rmw := false,
                      rel := true, clock := c, host := false }
  match resolveAll (s.resolveDirect u [] (wantSystemWrite 8)) (runFrom cw.toNat 8) with
  | .ok ps => s.writeHome w (ps.zip (leBytes 8 (wordOf cur code state).toNat))
  | .error _ => s

/-! FREEZE: the request (R227, R324, R399). -/

/-- A trap record of a Hall is withdrawn; an open one is closed, and its resume points stand (R399). -/
def State.withdrawTrap (s : State) (h : HallId) (p : PartId) : State :=
  if (s.hall h).trap.isNone then s
  else
    let P := s.part p
    let mine := fun (r : TrapRec) => r.hall == h
    let pcs : Option (Vector Word 4) := if (match P.open_ with | some r => mine r | none => false) then some P.pcs else none
    let s := s.onPart p fun P =>
      { P with trapq := P.trapq.filter fun r => !mine r, open_ := match P.open_ with | some r => if mine r then none else some r | none => none }
    let set := fun (i : Nat) (x : StrandState) => match pcs with | some v => { x with pc := v[i]?.getD 0 &&& ~~~7#64 } | none => x
    s.onHall h fun H =>
      { H with trap := none
               work := { H.work with S := set 0 H.work.S, L := set 1 H.work.L, M := set 2 H.work.M, V := set 3 H.work.V } }

/-- The running slice of a Hall is switched out for a FREEZE (R314, R324); where a trap has it stopped, no strand goes on first (R399). A switch-out under way for another reason becomes one for the
FREEZE. -/
def State.freezeHall (s : State) (asid : Asid) (h : HallId) : State :=
  match (s.hall h).slice with
  | none => s
  | some sl =>
    let held := match (s.hall h).switch with | some w => if w.read then [] else w.groups h | none => []
    let stopped := (s.hall h).trap.isSome
    if sl.asid ≠ asid then s
    else
      let s := (s.withdrawTrap h sl.part).unhold held
      if stopped then s.leaveStopped h .freeze else s.beginLeave h .freeze [] 0 []

/-- FREEZE is accepted, or refused with code 0x08 (R227). -/
def State.requestFreeze (s : State) (cw buf : Word) (asid : Asid) : State :=
  let p := s.partId
  let c := s.ctx asid
  let u := s.mine
  if !s.ctxValid p asid || s.superAsid p == some asid || c.frozen || c.freezing.isSome then s.systemWord u cw 0 8 2 s.known
  else
    let f : Freeze := { cw := cw, buf := buf, part := p, by_ := s.asid, hall := s.curHall }
    (maskHalls (s.part p).halls).foldl (fun s h => s.freezeHall asid h) (s.onCtx asid fun c => { c with freezing := some f })

/-- FREEZE (R227): its own check of its buffer's alignment comes before those of R120 on its completion word (R205, R391). -/
def execFreeze (d a b : BitVec 6) (s : State) : Out :=
  .next (if !s.superMode then s.trapCause .PRIV
    else s.outsideRegions fun s => s.reading [.s d.toNat, .s a.toNat, .s b.toNat] fun s =>
      let cw := s.rs d
      let buf := s.rs b
      if buf.toNat % 4096 ≠ 0 then s.trapHere ((wantSystemWrite 64).tell buf.toNat { cause := .ALIGN })
      else s.withBytes (wantSystemWrite 8) 8 cw 8 fun _ s => (s.requestFreeze cw buf ((s.rs a).setWidth 12)).issue)

/-! The image (R324 to R326). -/

/-- A ready record names a saved slice. -/
def Ready.names (r : Ready) (id : Nat) : Bool := match r.what with | .saved n => n == id | .fresh _ _ _ _ => false

/-- The context of a ready record. -/
def State.readyAsid (s : State) (r : Ready) : Option Asid :=
  match r.what with
  | .fresh p _ _ _ => some p.asid
  | .saved id => (s.saved.find? fun v => v.slice.id == id).map (·.slice.asid)

/-- The ready records and spilled entries of a context, each with its Hall. -/
def State.contextReady (s : State) (p : PartId) (asid : Asid) : List (HallId × Ready) :=
  let mine := fun (r : Ready) => s.readyAsid r == some asid
  ((maskHalls (s.part p).halls).flatMap fun h => ((s.hall h).deque.filter mine).map fun r => (h, r)) ++
    ((s.part p).spilled.filter fun e => !e.taken && mine e.rec_).map (fun e => (e.hall, e.rec_)) ++ (s.part p).waiting.filter fun e => mine e.2

/-- An entry of TYPE 16. A saved slice is named by its index (log 15). -/
def State.readyBytes (s : State) (p : PartId) (vs : List Saved) (e : HallId × Ready) : Bytes :=
  let pos := BitVec.ofNat 8 (s.hallPos p e.1)
  let idx := (vs.takeWhile fun v => !e.2.names v.slice.id).length
  match e.2.what with
  | .fresh _ raw _ _ => (spillHeader e.1 e.2 0 0).set 1 pos ++ fitTo 64 raw
  | .saved _ => (spillHeader e.1 e.2 (BitVec.ofNat 64 idx) (match vs[idx]? with | some v => v.slice.inst | none => 0)).set 1 pos

/-- An entry of TYPE 15: identifier, scope, whether this module is its home, the members and those that the open phase expects, its number, and its
arrivals (log 15). -/
def Group.bytes (g : Group) : Bytes :=
  leBytes 2 g.gid ++ [(Scope.code g.scope).setWidth 8, BitVec.ofNat 8 ((if g.home then 1 else 0) + 2 * g.homeAt)] ++
    leBytes 2 g.members.length ++ leBytes 2 g.expected ++ leBytes 4 g.phase ++ leBytes 4 g.arrivals

/-- The accumulator rows that carry a context's tag on a Hall, and those that still wait to be filled there. -/
def State.contextRows (s : State) (h : HallId) (asid : Asid) : List KeptRow :=
  let H := s.hall h
  ((List.range 512).filter fun r => (sget H.accTag r).toNat == asid.toNat + 1).map H.keepRow ++
    (s.thawed.filter fun t => t.hall == h && t.asid == asid).flatMap (·.rows)

/-- The sections of a context's image: its slices, the context's own, and then the Halls' (log 15). -/
def State.imageSections (s : State) (p : PartId) (asid : Asid) : List Section :=
  let vs := s.saved.filter fun v => v.slice.asid == asid
  let ready := s.contextReady p asid
  let slices := vs.mapIdx fun i v =>
    v.sections i (!(ready.any fun e => e.2.names v.slice.id)) (s.hallPos p v.hall) (s.hasArrived v.slice) (s.predOf v.slice) ++
      (if v.present.isEmpty then [] else [Section.of 4 i (rowSection (s.areaRowsOf v))])
  let halls := maskHalls (s.part p).halls
  slices.flatten ++
    [ .of 15 0 ((s.groups.filter fun g => g.asid == asid).flatMap Group.bytes), .of 16 0 (ready.flatMap (s.readyBytes p vs)) ] ++
    (halls.filterMap fun h =>
      let rs := s.contextRows h asid
      if rs.isEmpty then none else some (Section.of 4 (s.hallPos p h) (rowSection rs))) ++
    (vs.filter fun v => !v.gallery.isEmpty).map fun v => v.gallerySection (s.hallPos p v.hall)

/-- The sealing key: the image key established last. With none established the key is an open value (log 5). -/
def State.sealKey (s : State) : Bytes × Bytes := match s.imageKeys.getLast? with | some k => k | none => (zeros 32, Config.random s.free 32)

/-- An initialisation vector that no other image of this device has: open bits and a count (R325). -/
def State.freshIv (s : State) : Bytes := leBytes 4 (Config.value s.free).toNat ++ leBytes 8 s.free

/-- The sealed image (R325, R332). -/
def State.sealed (s : State) (c : Capture) (secs : List Section) : Bytes :=
  let body := imageBody secs
  let (kid, key) := s.sealKey
  let iv := s.freshIv
  let aad := headerBytes c secs.length (layoutLen secs) ++ fitTo 64 (shake256 body 64)
  let tail := fitTo 32 kid ++ zeros 64
  let (cipher, tag) := gcmSeal key iv (aad ++ tail) body
  aad ++ iv ++ zeros 4 ++ fitTo 16 tag ++ tail ++ fitTo body.length cipher

/-! The capture (R324). -/

/-- The context leaves the device (R324 step 6). -/
def State.contextLeaves (s : State) (p : PartId) (asid : Asid) : State :=
  let vs := s.saved.filter fun v => v.slice.asid == asid
  let mine := fun (r : Ready) => s.readyAsid r == some asid
  let gone := fun (s : State) (v : Saved) => v.gallery.foldl (fun s x =>
    let g := 16384 * v.hall.toNat + x.local_
    let r := s.rowGroup g
    if r.owner = asid.toNat + 1 then s.setRowGroup g { r with valid := false, req := false } else s) s
  let t := vs.foldl gone s
  let hall := fun (H : Hall) =>
    { H with lastAsid := if H.lastAsid = some asid then none else H.lastAsid
             deque := H.deque.filter fun r => !mine r, accTag := H.accTag.filter fun e => e.2.toNat != asid.toNat + 1
             ranges := H.ranges.filter fun e => e.asid != asid, pages := H.pages.filter fun e => e.asid != asid }
  let t := (maskHalls (s.part p).halls).foldl (fun t h => t.onHall h hall) t
  let t := t.onPart p fun P =>
    Part.advanceHead { P with spilled := P.spilled.map (fun e => if mine e.rec_ then { e with taken := true } else e)
                              waiting := P.waiting.filter fun e => !mine e.2 }
  (({ t with
      saved := t.saved.filter fun v => v.slice.asid != asid
      thawed := t.thawed.filter fun x => x.asid != asid
      groups := t.groups.filter fun g => g.asid != asid
      insts := t.insts.filter fun i => i.asid != asid }).onCtx asid fun c =>
    { c with freezing := none, frozen := true, tracking := false, dirty := [], notices := 0 }).retrySuccs p

/-- A record of the device's own that finds no place is reported (R311), and waits for one (log 18). -/
def State.mustDeliver (s : State) (p : PartId) (h : HallId) (asid : Asid) (r : Ready) : State :=
  match s.deliver p h r with
  | .ok s => s
  | .error _ =>
    (s.onPart p fun P => { P with waiting := P.waiting ++ [(h, r)] }).raiseEvent p (hostEvent 5 h.toNat asid 0 0 0 (s.part p).ringOffset)

/-- A FREEZE that fails leaves the slices that it stopped as saved records (R324). -/
def State.freezeFails (s : State) (p : PartId) (asid : Asid) : State :=
  let vs := s.saved.filter fun v => v.slice.asid == asid && !((s.contextReady p asid).any fun e => e.2.names v.slice.id)
  let keep := fun (s : State) (v : Saved) =>
    let r : Saved × State := match s.writeArea v with | some x => x | none => (v, s)
    let put := fun (x : Saved) => if x.slice.id = v.slice.id then r.1 else x
    ({ r.2 with saved := r.2.saved.map put }).mustDeliver p v.hall asid (r.1.ready false)
  (vs.foldl keep s).onCtx asid fun c => { c with freezing := none }

/-- Every running slice of a context has stopped for its FREEZE. -/
def State.allStopped (s : State) (asid : Asid) : Bool :=
  s.halls.toList.all fun H => match H.slice with
    | some sl => sl.asid != asid || (match H.switch with | some w => w.how == .freeze && w.captured | none => false)
    | none => true

/-- The capture instant of a FREEZE (R265, R324): the last slice of the context has stopped. -/
def State.captureInstant (s : State) (asid : Asid) : State :=
  match (s.ctx asid).freezing with
  | none => s
  | some f =>
    if f.at_.isSome || !s.allStopped asid then s
    else
      let one := fun (s : State) (h : HallId) =>
        match (s.hall h).slice, (s.hall h).switch with
        | some sl, some w => if sl.asid = asid then s.capture h sl w else s
        | _, _ => s
      (maskHalls (s.part f.part).halls).foldl one (s.onCtx asid fun c => { c with freezing := some { f with at_ := some s.devtime } })

/-- FREEZE_CAPTURE (R324): once no slice of the context runs, the image is written and the context leaves. -/
def State.captureContext (s : State) (asid : Asid) : State :=
  let s := s.captureInstant asid
  let c := s.ctx asid
  match c.freezing with
  | none => s
  | some f =>
    let p := f.part
    let runs := (List.range 256).any fun h => match (s.hall (BitVec.ofNat 8 h)).slice with | some sl => sl.asid == asid | none => false
    if runs || f.at_.isNone then s
    else
      let u : Who := { hall := f.hall, asid := f.by_, part := p, super := true }
      let secs := s.imageSections p asid
      let len := layoutLen secs
      let cap : Capture :=
        { asid := asid, part := p, nhall := (maskHalls (s.part p).halls).length, nslice := (s.saved.filter fun v => v.slice.asid == asid).length
          time := f.at_.getD s.devtime, dirty := if c.tracking then c.bitmap else 0 }
      if !s.reaches u true f.buf.toNat len then (s.freezeFails p asid).systemWord u f.cw 0 3 2 []
      else
        let iv := s.freshIv
        let img := s.sealed cap secs
        let s := { s with free := s.free + 1, frozenIvs := s.frozenIvs ++ [iv] }
        let s := s.superWrite u f.buf.toNat img
        let s := if c.tracking then s.superWrite { u with asid := c.bitmapBy } c.bitmap.toNat (dirtyBytes c.dirty) else s
        (s.contextLeaves p asid).systemWord u f.cw len 0 1 []

/-- FREEZE_CAPTURE (R324). -/
def execFreezeCapture (asid : Asid) (s : State) : Out := .next (s.captureContext asid)

end Sys2Proof.Machine
end

