-- ==== Sys2Proof/Machine/Flit.lean ====
section
/-! DEFINITION. How messages stand in flits (R405 to R410): payloads byte by byte, little-endian (R7), headers and CRCs. -/

namespace Sys2Proof.Machine

/-! Payloads. -/

/-- The payload of the messages of the fabric's groups (R409, TYPE 0x0B). -/
def groupPayload (kind : Nat) (idx : Byte) (h : HallId) (asid : Asid) (gid : BitVec 12) (ph : BitVec 32) : Bytes :=
  [BitVec.ofNat 8 kind, idx, h, 0] ++ leBytes 2 asid.toNat ++ leBytes 2 gid.toNat ++ leBytes 4 ph.toNat ++ zeros 4

/-- The order code of a fabric atomic (R47, R409). -/
def orderCode : Order → Byte
  | .RLX => 0 | .ACQ => 1 | .REL => 2 | .AR => 3
/-- The width code of a fabric atomic (R47, R409). -/
def widthByte : Width → Byte
  | .B => 0 | .H => 1 | .W => 2 | .D => 3

/-- The body of a signed management message before its key (R410). -/
def lcBody (target : BitVec 2) (digest secret : Bytes) : Bytes :=
  [target.setWidth 8] ++ zeros 7 ++ (if target = 1 then digest ++ secret else [])

/-- The subtype, SEQ and body of a management message (R410). -/
def mgmtBody : Instr → Option (Nat × Word × Bytes)
  | .lcstate _ target seq digest secret key sig => some (1, seq, lcBody target digest secret ++ key ++ sig)
  | .attest _ nonce => some (2, 0, nonce)
  | .assign _ p halls hbm asids =>
    some (3, 0, [p.setWidth 8] ++ zeros 7 ++ leBytes 32 halls.toNat ++ leBytes 8 hbm.toNat ++ leBytes 512 asids.toNat)
  | .modid _ id => some (4, 0, leBytes 2 id.toNat)
  | .wsdesc _ idx desc shards => some (5, 0, [idx] ++ zeros 7 ++ desc ++ shards)
  | .wspub _ idx => some (6, 0, [idx, 0])
  | .ckall _ ports dest base => some (7, 0, leBytes 2 ports.toNat ++ leBytes 2 dest.toNat ++ zeros 4 ++ leBytes 8 base.toNat)
  | .restall _ ports src base => some (8, 0, leBytes 2 ports.toNat ++ leBytes 2 src.toNat ++ zeros 4 ++ leBytes 8 base.toNat)
  | .super _ p restart packet mask =>
    some (9, 0, [p.setWidth 8, BitVec.ofNat 8 restart.toNat] ++ (if restart then zeros 6 ++ packet ++ leBytes 32 mask.toNat else []))
  | .keyx _ finish body => some (10, 0, [if finish then 2 else 1] ++ zeros 7 ++ body)
  | _ => none

/-- TYPE and payload of a message (R406, R409), not yet filled to 240 bytes; a management body goes on in bulk data after its first 224 bytes
(R410). The layout of the sum that the home of a fabric's round sends is not given (log 9). -/
def flitBody (m : Instr) : Option (Nat × Bytes) :=
  match m with
  | .creditOnly .. => some (0x00, [])
  | .hostLaunch _ p packet mask => some (0x01, [p.setWidth 8] ++ zeros 7 ++ packet ++ leBytes 32 mask.toNat)
  | .controlWindowRead _ a => some (0x02, leBytes 8 a.toNat)
  | .controlWindowWrite _ a v => some (0x03, leBytes 8 a.toNat ++ leBytes 8 v.toNat)
  | .response _ status cause detail data => some (0x04, [status, cause, detail] ++ zeros 5 ++ leBytes 8 data.toNat)
  | .bulkWriteRequest _ a p n => some (0x05, leBytes 8 a.toNat ++ [p.setWidth 8] ++ zeros 7 ++ leBytes 8 n.toNat)
  | .bulkReadRequest _ a p n => some (0x06, leBytes 8 a.toNat ++ [p.setWidth 8] ++ zeros 7 ++ leBytes 8 n.toNat)
  | .bulkData _ _ d => some (0x07, d)
  | .fabricAtomic _ _ o asid op w ord v c =>
    some (0x08, leBytes 8 o.toNat ++ leBytes 2 asid.toNat ++ [op, widthByte w, orderCode ord] ++ zeros 3 ++ leBytes 8 v.toNat ++ leBytes 8 c.toNat)
  | .fabricPublication _ no asid => some (0x09, leBytes 8 no.toNat ++ leBytes 2 asid.toNat)
  | .publicationAcknowledgement _ no asid => some (0x0A, leBytes 8 no.toNat ++ leBytes 2 asid.toNat)
  | .barrierArrival i h asid gid ph => some (0x0B, groupPayload 1 i h asid gid ph)
  | .proxyTokenMessage i h asid gid ph => some (0x0B, groupPayload 2 i h asid gid ph)
  | .tokenWithdrawal i h asid gid ph => some (0x0B, groupPayload 3 i h asid gid ph)
  | .phaseCompleteMessage i h asid gid ph => some (0x0B, groupPayload 4 i h asid gid ph)
  | .groupJoinMessage i h asid gid ph => some (0x0B, groupPayload 5 i h asid gid ph)
  | .groupLeaveMessage i h asid gid ph => some (0x0B, groupPayload 6 i h asid gid ph)
  | .multicastReduceContribution _ _ a i h ty v seq =>
    some (0x0C, leBytes 8 a.toNat ++ [i, h, ty] ++ zeros 5 ++ leBytes 8 v.toNat ++ leBytes 8 seq.toNat)
  | .interruptToHost vector reason body => some (0x0D, [vector, reason] ++ zeros 6 ++ body)
  | .fabricRead _ _ o asid n => some (0x0E, leBytes 8 o.toNat ++ leBytes 2 asid.toNat ++ leBytes 2 n.toNat)
  | .fabricWrite _ _ o asid d => some (0x0F, leBytes 8 o.toNat ++ leBytes 2 asid.toNat ++ leBytes 2 d.length ++ zeros 4 ++ d)
  | _ =>
    match mgmtBody m with
    | some (sub, seq, body) => some (0x10, leBytes 2 sub ++ zeros 2 ++ leBytes 4 body.length ++ leBytes 8 seq.toNat ++ body.take 224)
    | none => none

/-- The TAG of a message (R405): zero for one that neither opens nor answers a request. -/
def msgTag : Instr → BitVec 16
  | .hostLaunch t .. | .controlWindowRead t .. | .controlWindowWrite t .. | .response t .. | .bulkWriteRequest t .. | .bulkReadRequest t ..
  | .bulkData _ t _ | .fabricAtomic _ t .. | .multicastReduceContribution t .. | .fabricRead _ t .. | .fabricWrite _ t .. | .lcstate t .. | .attest t ..
  | .assign t .. | .modid t .. | .wsdesc t .. | .wspub t .. | .ckall t .. | .restall t .. | .super t .. | .keyx t .. => t
  | _ => 0

/-! Flits (R405). -/

/-- CRC-32 with the polynomial 0x1EDC6F41 over bytes, from zero, each byte from its highest bit (log 21). -/
def crc32 (bs : Bytes) : BitVec 32 :=
  bs.foldl (fun c b => (List.range 8).foldl (fun (c : BitVec 32) i =>
    let top := c.getLsbD 31 != b.getLsbD (7 - i)
    (c <<< 1) ^^^ (if top then 0x1EDC6F41 else 0)) c) 0

/-- The bulk data of a train in its continuation flits: 252 bytes each, and their CRC. -/
def continuations : Nat → Bytes → Bytes
  | 0, _ => []
  | n + 1, d => let p := fitTo 252 d; p ++ leBytes 4 (crc32 p).toNat ++ continuations n (d.drop 252)

/-- The flits of a message on a link (R405, R407). -/
def flitBytes (chan : Nat) (src dst seq credit tag : BitVec 16) (m : Instr) : Option Bytes :=
  (flitBody m).map fun (ty, p) =>
    let more := if chan = 2 then (p.length - 240 + 251) / 252 else 0
    let head := [BitVec.ofNat 8 ty, BitVec.ofNat 8 (chan + 4 * more)] ++ leBytes 2 src.toNat ++ leBytes 2 dst.toNat ++ leBytes 2 seq.toNat ++
      leBytes 2 credit.toNat ++ leBytes 2 tag.toNat
    let body := fitTo 240 p
    head ++ leBytes 4 (crc32 (head ++ zeros 4 ++ body)).toNat ++ body ++ continuations more (p.drop 240)

/-! Reception (R405, R409, R410). -/

/-- The check of a flit with a header: its CRC over the flit with the CRC field taken as zero. -/
def headerOk (f : Bytes) : Bool := fieldAt f 12 4 == (crc32 (f.take 12 ++ zeros 4 ++ f.drop 16)).toNat

/-- The check of a continuation flit. -/
def continuationOk (f : Bytes) : Bool := fieldAt f 252 4 == (crc32 (f.take 252)).toNat

/-- A payload of 240 bytes of a TYPE is a message's: byte for byte, every byte that is reserved or not named zero (R409). -/
def payloadGives (ty : Nat) (d : Bytes) (m : Instr) : Bool :=
  match flitBody m with
  | some (t, p) => t == ty && d == fitTo 240 p
  | none => false

/-- A message of the fabric's groups by its kind (R409). -/
def groupMessage (d : Bytes) : Option Instr :=
  let i : Byte := d.getD 1 0
  let h : HallId := BitVec.ofNat 8 (fieldAt d 2 1)
  let asid : Asid := BitVec.ofNat 12 (fieldAt d 4 2)
  let gid : BitVec 12 := BitVec.ofNat 12 (fieldAt d 6 2)
  let ph : BitVec 32 := BitVec.ofNat 32 (fieldAt d 8 4)
  ([.barrierArrival i h asid gid ph, .proxyTokenMessage i h asid gid ph, .tokenWithdrawal i h asid gid ph, .phaseCompleteMessage i h asid gid ph,
    .groupJoinMessage i h asid gid ph, .groupLeaveMessage i h asid gid ph] : List Instr)[fieldAt d 0 1 - 1]?

/-- The fields of a payload as a message of its TYPE, the reserved bytes aside (R409). p: the partition that shares its fabric group with the sender.
A management message is read apart, and an interrupt is for the host. -/
def readPayload (p : PartId) (src tag : BitVec 16) (ty : Nat) (d : Bytes) : Option Instr :=
  let part : PartId := BitVec.ofNat 4 (fieldAt d 8 1)
  let asid := fun (at_ : Nat) => (BitVec.ofNat 12 (fieldAt d at_ 2) : Asid)
  match ty with
  | 0x01 => some (.hostLaunch tag (BitVec.ofNat 4 (fieldAt d 0 1)) ((d.drop 8).take 64) (BitVec.ofNat 256 (fieldAt d 72 32)))
  | 0x02 => some (.controlWindowRead tag (wordAt d 0))
  | 0x03 => some (.controlWindowWrite tag (wordAt d 0) (wordAt d 8))
  | 0x04 => some (.response tag (d.getD 0 0) (d.getD 1 0) (d.getD 2 0) (wordAt d 8))
  | 0x05 => some (.bulkWriteRequest tag (wordAt d 0) part (BitVec.ofNat 41 (fieldAt d 16 8)))
  | 0x06 => some (.bulkReadRequest tag (wordAt d 0) part (BitVec.ofNat 41 (fieldAt d 16 8)))
  | 0x08 =>
    match ([.B, .H, .W, .D] : List Width)[fieldAt d 11 1]?, ([.RLX, .ACQ, .REL, .AR] : List Order)[fieldAt d 12 1]? with
    | some w, some o => some (.fabricAtomic src tag (wordAt d 0) (asid 8) (d.getD 10 0) w o (wordAt d 16) (wordAt d 24))
    | some _, none => none
    | none, _ => none
  | 0x09 => some (.fabricPublication src (wordAt d 0) (asid 8))
  | 0x0A => some (.publicationAcknowledgement src (wordAt d 0) (asid 8))
  | 0x0B => groupMessage d
  | 0x0C =>
    some (.multicastReduceContribution tag p (BitVec.ofNat 20 (fieldAt d 0 8)) (d.getD 8 0) (BitVec.ofNat 8 (fieldAt d 9 1)) (d.getD 10 0) (wordAt d 16)
      (wordAt d 24))
  | 0x0E => some (.fabricRead src tag (wordAt d 0) (asid 8) (BitVec.ofNat 16 (fieldAt d 10 2)))
  | 0x0F => some (.fabricWrite src tag (wordAt d 0) (asid 8) ((d.drop 16).take (fieldAt d 10 2)))
  | _ => none

/-- The message that a payload of 240 bytes gives; one with a reserved or unnamed byte set gives none and is refused (R409). -/
def messageOf (p : PartId) (src tag : BitVec 16) (ty : Nat) (d : Bytes) : Option Instr :=
  (readPayload p src tag ty d).filter (payloadGives ty d)

/-- The fields of a management body as a message of its subtype, the reserved bytes aside (R410). -/
def readBody (tag : BitVec 16) (sub : Nat) (seq : Word) (b : Bytes) : Option Instr :=
  let part : PartId := BitVec.ofNat 4 (fieldAt b 0 1)
  let two := fun (at_ : Nat) => (BitVec.ofNat 16 (fieldAt b at_ 2) : BitVec 16)
  match sub with
  | 0x0001 =>
    let t : BitVec 2 := BitVec.ofNat 2 (fieldAt b 0 1)
    let r := b.drop (if t = 1 then 104 else 8)
    some (.lcstate tag t seq (if t = 1 then (b.drop 8).take 64 else []) (if t = 1 then (b.drop 72).take 32 else []) (r.take 64) (r.drop 64))
  | 0x0002 => some (.attest tag b)
  | 0x0003 => some (.assign tag part (BitVec.ofNat 256 (fieldAt b 8 32)) (BitVec.ofNat 64 (fieldAt b 40 8)) (BitVec.ofNat 4096 (fieldAt b 48 512)))
  | 0x0004 => some (.modid tag (two 0))
  | 0x0005 => some (.wsdesc tag (BitVec.ofNat 8 (fieldAt b 0 1)) ((b.drop 8).take 64) (b.drop 72))
  | 0x0006 => some (.wspub tag (BitVec.ofNat 8 (fieldAt b 0 1)))
  | 0x0007 => some (.ckall tag (two 0) (two 2) (wordAt b 8))
  | 0x0008 => some (.restall tag (two 0) (two 2) (wordAt b 8))
  | 0x0009 =>
    let restart := fieldAt b 1 1 == 1
    some (.super tag part restart (if restart then (b.drop 8).take 64 else []) (if restart then BitVec.ofNat 256 (fieldAt b 72 32) else 0))
  | 0x000A => some (.keyx tag (fieldAt b 0 1 == 2) (b.drop 8))
  | _ => none

/-- The message that a management body gives; none when it is malformed, a reserved byte set among it. -/
def bodyGives (tag : BitVec 16) (sub : Nat) (seq : Word) (b : Bytes) : Option Instr :=
  (readBody tag sub seq b).filter fun m => match mgmtBody m with | some (k, _, x) => k == sub && x == b | none => false

end Sys2Proof.Machine
end

