-- ==== Sys2Proof/Machine/Link.lean ====
section
/-! DEFINITION. Hirothlink (R404 to R414): ports, credits, messages, and what the module does with each message. -/

namespace Sys2Proof.Machine

/-! Ports and credits (R404, R405, R408). -/

/-- The channel of a message (R406): 0 request, 1 response, 2 bulk. -/
def chanOf (m : Instr) : Nat :=
  match m with
  | .response .. | .interruptToHost .. | .publicationAcknowledgement .. | .creditOnly .. => 1
  | .bulkData .. => 2
  | _ => 0

/-- Bytes of payload of a full bulk train (R407). -/
def trainBytes : Nat := 16116

/-- The flits of a message (R405, R407). -/
def flitsOf (m : Instr) : Nat :=
  match m with
  | .bulkData _ _ d => 1 + (d.length - 240 + 251) / 252
  | _ => 1

/-- The credits that a receiver advertises (R408). -/
def advertised : List Nat := [64, 64, 512]

/-- A port. -/
def State.port (s : State) (n : Nat) : Port := s.ports[n]?.getD .down
/-- Change a port. -/
def State.onPortN (s : State) (n : Nat) (f : Port → Port) : State := { s with ports := s.ports.setIfInBounds n (f (s.port n)) }

/-- The credits of a channel change. -/
def Port.credit (P : Port) (c : Nat) (f : Nat → Nat) : Port := { P with credits := P.credits.mapIdx fun i x => if i = c then f x else x }

/-- The port can send a message now (R404, R408): it is up, and it holds credit for every flit; a credit flit needs none. -/
def Port.canSend (P : Port) (m : Instr) : Bool :=
  8 ≤ P.lanes && (match m with | .creditOnly .. => true | _ => flitsOf m ≤ P.credits.getD (chanOf m) 0)

/-- The first channel of which a port has credits to return, as a CREDIT field with as many as it holds, and the port without them: a flit names one
channel (R405, R408). -/
def Port.returning (P : Port) : BitVec 16 × Port :=
  match (List.range 3).find? fun c => 0 < P.owed.getD c 0 with
  | none => (0, P)
  | some c =>
    let k := min (P.owed.getD c 0) 16383
    (BitVec.ofNat 16 (c + 4 * k), { P with owed := P.owed.mapIdx fun i x => if i = c then x - k else x })

/-- The flits of a message on the link (R405). -/
def Outgoing.bytes (o : Outgoing) (self : BitVec 16) : Bytes :=
  (flitBytes (chanOf o.what.msg) self (o.what.dst.getD 0) o.seq o.credit (msgTag o.what.msg) o.what.msg).getD []

/-- The port sends a message, with the credits that its first flit returns (R405, R408). -/
def Port.sendNow (P : Port) (self : BitVec 16) (x : Sent) : Port :=
  let n := flitsOf x.msg
  let (cr, P) := P.returning
  let o : Outgoing := { what := x, flits := n, seq := P.seqOut, credit := cr }
  let P := { P with seqOut := P.seqOut + BitVec.ofNat 16 n, tx := P.tx ++ [o.bytes self] }
  match x.msg with
  | .creditOnly .. => P
  | _ => { P.credit (chanOf x.msg) (· - n) with unacked := P.unacked ++ [o] }

/-- Credit flits of a port that has nothing else to send (R408): one for each channel of which it has credits to return. -/
def Port.sendCredits (P : Port) (self : BitVec 16) : Port :=
  (List.range 3).foldl (fun (P : Port) _ =>
    if P.lanes < 8 || P.owed.all (· == 0) then P
    else P.sendNow self { dst := none, ports := 0, msg := .creditOnly 0 0 0 }) P

/-- The ports of a mask. -/
def portsOf (m : BitVec 12) : List Nat := (List.range 12).filter fun i => m.getLsbD i

/-- An interrupt reaches the host adapter as its vector (R411). -/
def State.raiseVector (s : State) (v : Nat) : State := if v < 17 then { s with vectors := s.vectors ||| (1#17 <<< v) } else s

/-- A message leaves over one of the ports that it may take (R413). -/
def State.leaves (s : State) (x : Sent) (ps : List Nat) : State :=
  let (k, s) := s.drawChoice
  let s := s.onPortN (ps.getD (k % ps.length) 0) (·.sendNow s.modid x)
  match x.msg with
  | .interruptToHost v _ _ => s.raiseVector v.toNat
  | _ => s

/-- What waits to be sent leaves as ports and credits allow; messages to one destination on one channel keep their order (R406). -/
def State.transmitAll : List Sent → List (Option (BitVec 16) × BitVec 12 × Nat) → State → State
  | [], _, s => s
  | x :: rest, held, s =>
    let key := (x.dst, x.ports, chanOf x.msg)
    let ps := (portsOf x.ports).filter fun i => (s.port i).canSend x.msg
    if held.contains key ∨ ps.isEmpty then State.transmitAll rest (key :: held) { s with outbox := s.outbox ++ [x] }
    else State.transmitAll rest held (s.leaves x ps)

/-- What waits to be sent is sent as far as it can be, and then the credits that no other flit has returned (R408). -/
def State.transmit (s : State) : State :=
  let s := { s with ports := s.ports.map fun P => { P with tx := [] } }
  let s := if s.outbox.isEmpty then s else State.transmitAll s.outbox [] { s with outbox := [] }
  { s with ports := s.ports.map (·.sendCredits s.modid) }

/-- A port step names one of the twelve ports (R404). -/
def withPort (n : BitVec 4) (k : Nat → State) : Out := if n.toNat < 12 then .next (k n.toNat) else .fault (.noSuchPort n.toNat)

/-- The oldest messages of a channel are acknowledged by the credits that come back (log 21). -/
def acknowledge (c : Nat) : Nat → List Outgoing → List Outgoing
  | _, [] => []
  | n, x :: rest =>
    if chanOf x.what.msg = c then (if x.flits ≤ n then acknowledge c (n - x.flits) rest else { x with flits := x.flits - n } :: rest)
    else x :: acknowledge c n rest

/-- Credits of a channel come back to a port (R408). -/
def State.creditBack (s : State) (i c n : Nat) : State :=
  if c < 3 then s.onPortN i fun P => { P.credit c (· + n) with unacked := acknowledge c n P.unacked } else s

/-- CREDIT_ONLY (R408). -/
def execCreditOnly (port : BitVec 4) (chan : BitVec 2) (n : BitVec 14) (s : State) : Out :=
  withPort port fun i => s.creditBack i chan.toNat n.toNat

/-- A port goes down (R404). -/
def State.portGone (s : State) (i : Nat) : State :=
  s.onPortN i fun P => { P with lanes := 0, rx := [], train := none, downAt := match P.downAt with | some t => some t | none => some s.tick }

/-- PORT_DOWN (R404). -/
def execPortDown (port : BitVec 4) (s : State) : Out := withPort port fun i => s.portGone i

/-- PORT_TRAINING (R404, R408): at 16 or 8 lanes; the credits start again from the advertised values, and what had not been acknowledged
is sent again. -/
def execPortTraining (port : BitVec 4) (lanes : BitVec 5) (s : State) : Out :=
  withPort port fun i =>
    if lanes.toNat < 8 then s.portGone i
    else s.onPortN i fun P =>
      { P with
        lanes := if 16 ≤ lanes.toNat then 16 else 8
        downAt := none
        credits := advertised.mapIdx fun c a => a - ((P.unacked.filter fun e => chanOf e.what.msg == c).map (·.flits)).sum
        rx := [], train := none, owed := [0, 0, 0], tx := P.unacked.map (·.bytes s.modid) }

/-- CRC_FAILURE (R405): the flit is not accepted, nor is what has arrived behind it: all of it comes again from the link's replay buffer, in SEQ
order, spending no credit. -/
def execCrcFailure (port : BitVec 4) (s : State) : Out := withPort port fun i => s.onPortN i fun P => { P with rx := [] }

/-- DISCARDED_FLIT (R405): it is counted, and its sender replays it with what has arrived behind it. -/
def execDiscardedFlit (port : BitVec 4) (s : State) : Out :=
  withPort port fun i => s.onPortN i fun P => { P with discarded := P.discarded + 1, rx := [] }

/-- INTERRUPT_TO_HOST (R409, R411): the first such message that waits has left. -/
def execInterruptToHost (vector reason : Byte) (body : Bytes) (s : State) : Out :=
  let m : Instr := .interruptToHost vector reason body
  let before := s.outbox.takeWhile fun x => x.msg != m
  .next ({ s with outbox := before ++ s.outbox.drop (before.length + 1) }.raiseVector vector.toNat)

/-! Answers. -/

/-- The ports toward a module: those of a route that names it. -/
def State.portsTo (s : State) (id : BitVec 16) : BitVec 12 :=
  match (s.parts.toList.flatMap fun P => P.routes.toList).find? fun r => r.extractLsb' 16 16 == id && r.setWidth 12 != 0#12 with
  | some r => r.setWidth 12
  | none => 0xFFC

/-- A message to a module by its identifier; 0 is the host's side (R410; DEDUCED, log 43). -/
def State.sendModule (s : State) (id : BitVec 16) (m : Instr) : State :=
  if id = 0 then s.send m
  else if id = s.modid then { s with inbox := s.inbox ++ [(loopPort, m)] }
  else { s with outbox := s.outbox ++ [{ dst := some id, ports := s.portsTo id, msg := m }] }

/-- A request has been carried out. -/
def State.answer (s : State) (dst tag : BitVec 16) (data : Word) : State := s.sendModule dst (.response tag 0 0 0 data)
/-- A request is refused with a reason code. -/
def State.refuseWith (s : State) (dst tag : BitVec 16) (code : Nat) : State := s.sendModule dst (.response tag 1 0 0 (BitVec.ofNat 64 code))
/-- A request is refused where the manual gives no reason code for it (log 6). -/
def State.refusePlain (s : State) (dst tag : BitVec 16) : State :=
  { s with free := s.free + 1 }.sendModule dst (.response tag 1 0 0 (Config.value s.free))
/-- A request meets a fault (R409). -/
def State.answerFault (s : State) (dst tag : BitVec 16) (t : TrapInfo) : State :=
  s.sendModule dst (.response tag 3 (BitVec.ofNat 8 (causeCode t.cause)) (BitVec.ofNat 8 t.detail) 0)

/-- The ports over which an answer goes back that came on a port: both of the host's, or that port. -/
def backPorts (i : Nat) : BitVec 12 := if i < 2 then 3#12 else 1#12 <<< i

/-- UNKNOWN_TYPE_MESSAGE (R406): a refused response; an unknown management subtype has reason code 1 (R410). A TYPE that R406 assigns is none of
these, and nothing is refused. -/
def execUnknownTypeMessage (port : BitVec 4) (ty : Byte) (tag : BitVec 16) (s : State) : Out :=
  withPort port fun i =>
    let answer := fun (s : State) (data : Word) =>
      { s with outbox := s.outbox ++ [{ dst := none, ports := backPorts i, msg := .response tag 1 0 0 data }] }
    if ty.toNat < 0x10 then s
    else if ty = 0x10 then answer s 1
    else answer { s with free := s.free + 1 } (Config.value s.free)

/-! Accesses that other members make here (R409, R414). -/

/-- The address of an offset in this member's slice (R414). -/
def farAddr (o : Word) : Nat := 0xE000000000000 + o.toNat % 0x800000000

/-- The context that an access of another member is made in. -/
def State.farWho (s : State) (asid : Asid) : Who := s.whoIs 0 (s.partOf asid) asid

/-- The physical addresses of an access, or its fault. An address that leads back into the fabric range is none of this member's memory
(log 9). -/
def State.farResolve (s : State) (asid : Asid) (k : Want) (o : Word) (n : Nat) : Except TrapInfo (List Nat) :=
  match resolveAll (s.resolveDirect (s.farWho asid) [] k) (runFrom (farAddr o) n) with
  | .error (_, some t) => .error t
  | .error (_, none) => .error (xlate 0)
  | .ok ps => if ps.any inFabric then .error (prot 0x20) else .ok ps

/-- A data fault as a response carries it. -/
def DataFault.info (f : DataFault) : TrapInfo := { cause := f.cause, detail := f.code }

/-- What an access of another member is checked as. -/
def wantFar (r w : Bool) : Want := { kind := .other, r := r, w := w, x := false, access := .engine, width := 0 }

/-- What this module knows of another as a reader of its memory. -/
def State.farKnown (s : State) (src : BitVec 16) : FarReader :=
  match s.farReaders.find? fun r => r.module_ == src with | some r => r | none => { module_ := src, floor := [], last := [] }

/-- Change what is known of another module as a reader. -/
def State.onFar (s : State) (src : BitVec 16) (f : FarReader → FarReader) : State :=
  { s with farReaders := f (s.farKnown src) :: s.farReaders.filter fun r => r.module_ != src }

/-- Another module with its place, for an access in a context (R272). -/
def State.farSeat (s : State) (src : BitVec 16) (asid : Asid) : Seat :=
  { agent := .module src, hall := 0, fab := (s.part (s.partOf asid)).fabGroup }

/-- Another module as a reader (R278, R279). Which of its strands reads, and what that strand has renewed, no message tells: it does not fall
behind the publications that the module has acknowledged, nor behind what it has read. -/
def State.farReader (s : State) (src : BitVec 16) (asid : Asid) : Reader :=
  let k := s.farKnown src
  { agent := .module src, hall := 0, floor := k.floor, last := k.last, own := 0, seen := { S := 0, L := 0, M := 0, V := 0 }
    fab := (s.farSeat src asid).fab }

/-- The versions that another module has read. -/
def State.farRead (s : State) (src : BitVec 16) (ns : List (Nat × Nat)) : State :=
  s.onFar src fun k => { k with last := ns.foldl (fun f e => if e.2 = 0 then f else lineUp e.1 e.2 f) k.last }

/-- What is known to have happened at another module before its message arrives: all that it has written here, and what it has acquired here (R277). -/
def State.farClock (s : State) (src : BitVec 16) : Clock := Clock.up (s.farKnown src).clock (.module src) s.pubs

/-- An atomic of another module acquires what the release sequences on its address order before it (R284), and renews at FABRIC: no message names a
narrower scope (DESIGN CHOICE, log 63). -/
def State.farAcquire (s : State) (src : BitVec 16) (asid : Asid) (ps : List Nat) (line : List Version) : State :=
  let seat := s.farSeat src asid
  let c := acquireClock .fabric seat ps [] line
  s.onFar src fun k =>
    let c := Clock.join k.clock c
    { k with clock := c, floor := renewedFloor .fabric seat c s.pubs s.hist k.floor }

/-- A module's data goes out as full trains (R407, R420). -/
def trains (src tag : BitVec 16) : Nat → Bytes → List Instr
  | 0, _ => []
  | n + 1, d => if d.isEmpty then [] else .bulkData src tag (d.take trainBytes) :: trains src tag n (d.drop trainBytes)

/-- Data as bulk trains to a module. -/
def State.sendBulk (s : State) (dst tag : BitVec 16) (d : Bytes) : State :=
  (trains s.modid tag (d.length / trainBytes + 1) d).foldl (fun s m => s.sendModule dst m) s

/-- FABRIC_READ (R409, R414). -/
def execFabricRead (src tag : BitVec 16) (off : Word) (asid : Asid) (len : BitVec 16) (s : State) : Out :=
  let n := len.toNat
  .next (if n = 0 ∨ 256 < n then s.refusePlain src tag
    else match s.farResolve asid (wantFar true false) off n with
      | .error t => s.answerFault src tag t
      | .ok ps =>
        match s.senseRead (s.partOf asid) ps with
        | (some (_, f), s) => s.answerFault src tag f.info
        | (none, s) =>
          let (bs, ns, s) := s.readBytes (s.farReader src asid) ps
          let s := s.farRead src ns
          if n ≤ 8 then s.answer src tag (BitVec.ofNat 64 (leNat bs)) else (s.sendBulk src tag bs).answer src tag 0)

/-- What another module writes here. -/
def State.farWriter (s : State) (src : BitVec 16) (asid : Asid) (pub : Nat) : Writer :=
  { agent := .module src, hall := 0, asid := asid, part := s.partOf asid, scope := .fabric, pub := some pub, num := 0, rmw := false,
    rel := false, clock := [], host := false }

/-- FABRIC_WRITE (R409, R414). -/
def execFabricWrite (src tag : BitVec 16) (off : Word) (asid : Asid) (data : Bytes) (s : State) : Out :=
  let n := data.length
  .next (if n = 0 ∨ 128 < n then s.refusePlain src tag
    else match s.farResolve asid (wantFar false true) off n with
      | .error t => s.answerFault src tag t
      | .ok ps =>
        match s.senseWrite (s.partOf asid) ps false with
        | (f, doIt, s) =>
          let (k, s) := s.nextPub
          let s := if doIt then s.writeHome (s.farWriter src asid k) (ps.zip data) else s
          match f with
          | some (u, d) =>
            let s := if d = .word then s.repoison u else s
            s.answerFault src tag d.info
          | none => s.answer src tag 0)

/-- The operation that a code names (R47, R409): none for CAS. -/
def farOp (op : Byte) : Option (Option AmoOp) :=
  ([some AmoOp.ADD, some .FADD, some .MIN, some .MAX, some .AND, some .OR, some .XOR, some .SWAP, none] : List (Option AmoOp))[op.toNat]?

/-- FABRIC_ATOMIC (R131, R263, R409, R414). -/
def execFabricAtomic (src tag : BitVec 16) (off : Word) (asid : Asid) (op : Byte) (w : Width) (o : Order) (v c : Word) (s : State) : Out :=
  let n := widthBytes w
  .next (match farOp op with
    | none => s.refusePlain src tag
    | some f =>
      match s.farResolve asid { wantFar true true with kind := .atomic } off n with
      | .error t => s.answerFault src tag t
      | .ok ps =>
        let old := leNat (ps.map (Memory.byte s.mem))
        let put := fun (s : State) =>
          match atomicValue f (8 * n) old v.toNat c.toNat with
          | none => s
          | some x =>
            let (k, s) := s.nextPub
            s.writeHome { s.farWriter src asid k with rmw := true, rel := Order.isRel o, clock := s.farClock src } (ps.zip (leBytes n x))
        match s.senseRead (s.partOf asid) ps with
        | (some (u, d), s) =>
          let s := if subWord n && d == .word then (put s).repoison u else s
          s.answerFault src tag d.info
        | (none, s) =>
          let line := ps.headD 0 / 64
          let vs := (s.versionsOf line).filter (·.home)
          let s := match vs with | w :: _ => s.farRead src [(line, w.id)] | [] => s
          let s := if Order.isAcq o then s.farAcquire src asid ps vs else s
          (put s).answer src tag (BitVec.ofNat 64 old))

/-! Answers of other members (R406, R409, R414). -/

/-- The slot that a request of a strand fills. -/
def State.slotOf (s : State) (r : FabReq) : Option Slot :=
  match r.slot with
  | some q => (s.strand r.hall r.strand).slots.find? fun t => t.seq == q && t.data.isNone
  | none => none

/-- The request is answered. -/
def State.dropReq (s : State) (r : FabReq) : State := { s with fabReqs := s.fabReqs.filter fun x => x.tag != r.tag }

/-- Ask again for the word of a CP.WAIT whose state is 0 (R202). -/
def State.askAgain (s : State) (r : FabReq) (asid : Asid) : State :=
  let p := r.addrs.headD 0xE0000000000
  let (tag, s) := s.newTag
  ({ s with fabReqs := s.fabReqs ++ [{ r with tag := tag }] }).sendTo (s.partOf asid) (fabMember p)
    (.fabricRead s.modid (BitVec.ofNat 16 tag) (fabOffset p) asid (BitVec.ofNat 16 r.addrs.length))

/-- Bytes that a strand's read has brought from another module (R431): the slot gets its data with the last of them. -/
def State.farLand (s : State) (r : FabReq) (t : Slot) (bs : Bytes) : State :=
  let cs := t.far ++ r.addrs.zip bs
  let asid := match (s.hall r.hall).slice with | some sl => sl.asid | none => 0
  if t.paddrs.any fun a => inFabric a && (cellAt a cs).isNone then
    s.onStrand r.hall r.strand fun x => { x with slots := x.slots.map fun q => if q.seq = t.seq then { q with far := cs } else q }
  else match t.req with
    | .cpWait _ sc => if bs.headD 0 = 0 then s.askAgain r asid else s.landBytes r.hall r.strand t cs [.renew sc]
    | _ => s.landBytes r.hall r.strand t cs []

/-- The atomic that a request belongs to. -/
def State.farAtomic (s : State) (r : FabReq) : Option Atomic := s.atomics.find? fun a => a.performAt == sentMark && a.tag == r.tag

/-- An engine's write met a fault at another member (R200, R386): its command fails with the fault's code; a matrix command's fault is
raised at the next M syllable. -/
def State.farWriteFault (s : State) (h : HallId) (e : Engine) (cmd code : Nat) (t : TrapInfo) : State :=
  match e with
  | .copy => s.onCopy h fun r => if r.cmd.id = cmd then r.fail code else r
  | .hazel => s.onHall h fun H => { H with hz := H.hz.map fun r => if r.cmd.id = cmd then { r with step := .fail code } else r }
  | .matrix => s.onHall h fun H => { H with mErr := code, mFault := some { t with access := .engine, width := 4 } }

/-- The code of a fault met at another member as an engine reports it (R204): a data fault's own, else 0x03. -/
def farCode (t : TrapInfo) : Nat :=
  match t.cause with
  | .EXPIRED => 4
  | .INTEGRITY => t.detail
  | _ => 3

/-- A request has met a fault (R414): the strand takes it where the access would have landed or been published. -/
def State.farFault (s : State) (r : FabReq) (f : TrapInfo) : State :=
  let s := s.dropReq r
  let t : TrapInfo := { r.info with cause := f.cause, detail := f.detail }
  if r.atomic then
    match s.farAtomic r with
    | none => s
    | some a =>
      let s := { s with atomics := s.atomics.filter fun x => x.id != a.id }
      if s.atomicLives a then s.atomicFault a t else s
  else match r.engine with
    | some (e, cmd) => s.farWriteFault r.hall e cmd (farCode t) t
    | none =>
      match r.slot with
      | some _ =>
        match s.slotOf r with
        | some q => s.slotFault r.hall r.strand q { t with access := q.accessOf.1, width := q.accessOf.2, addr := q.addr }
        | none => s
      | none => s.onStrand r.hall r.strand fun x => { x with lateFault := firstFault x.lateFault (some (r.after, t)) }

/-- What is known to have happened at every other member module before one of them says that a phase is complete (R277). -/
def State.peersClock (s : State) (asid : Asid) : Clock :=
  (s.peers asid).foldl (fun c m => Clock.join c (s.farClock (s.routeModule asid m))) []

/-- A request has been carried out: the bytes it read, or an atomic's old value. What an acquire has read at another module the response does not tell:
the strand learns all that is known of the other modules (DESIGN CHOICE, log 63). -/
def State.farDone (s : State) (r : FabReq) (bs : Bytes) : State :=
  let s := s.dropReq r
  if r.atomic then
    match s.farAtomic r with
    | none => s
    | some a =>
      let s := { s with atomics := s.atomics.filter fun x => x.id != a.id }
      if s.atomicLives a then s.atomicDone a (leNat bs % 2 ^ (8 * a.paddrs.length)) (s.peersClock a.asid) [] [] else s
  else match s.slotOf r with
    | some t => s.farLand r t bs
    | none => s

/-- Bytes that an engine has asked for arrive under a tag. -/
def State.farBytes (s : State) (tag : Nat) (bs : Bytes) : State :=
  let mine := (s.farCells.filter fun c => c.tag == tag).map (·.addr)
  { s with farCells := s.farCells.map fun c =>
      if c.tag = tag ∧ c.byte.isNone then { c with byte := some (bs.getD (mine.takeWhile (· != c.addr)).length 0) } else c }

/-- The fault of a response (R409): a refused or unreachable member is one that the access cannot reach (log 9). -/
def responseFault (status cause detail : Byte) : TrapInfo :=
  if status = 3 then
    { cause := ([Cause.ILLEGAL, .PRIV, .ALIGN, .XLATE, .PROT, .EXPIRED, .INTEGRITY].find? fun c => causeCode c == cause.toNat).getD .PROT
      detail := detail.toNat }
  else prot 0x20

/-- RESPONSE (R406, R409, R414): to a fabric access of a strand or an engine, or the refusal of a multicast-reduce contribution, which
disables its window (R139). -/
def execResponse (tag : BitVec 16) (status cause detail : Byte) (data : Word) (s : State) : Out :=
  .next (match s.fabReqs.find? fun r => r.tag == tag.toNat with
    | some r => if status = 0 then s.farDone r (leBytes 8 data.toNat) else s.farFault r (responseFault status cause detail)
    | none =>
      if s.farCells.any fun c => c.tag == tag.toNat && c.byte.isNone && c.bad == 0 then
        if status = 0 then s.farBytes tag.toNat (leBytes 8 data.toNat)
        else
          let t := responseFault status cause detail
          { s with farCells := s.farCells.map fun c => if c.tag = tag.toNat then { c with bad := farCode t, why := some t } else c }
      else match s.mrTags.find? fun e => e.1 == tag with
        | some (_, p, w) =>
          if status = 1 then
            { s with rounds := s.rounds.filter fun r => !(r.part == p && r.addr / 4096 == w && r.fabric) }.onPart p fun P =>
              { P with mrOff := if P.mrOff.contains w then P.mrOff else P.mrOff ++ [w] }
          else s
        | none => s)

/-! Bulk transfers (R407, R409, R411). -/

/-- A bulk transfer names 64-byte lines of HBM or the undercroft that the partition may use (R409, R411). -/
def State.bulkOk (s : State) (p : PartId) (a n : Nat) : Bool :=
  a % 64 == 0 && n % 64 == 0 && n ≤ 2 ^ 40 &&
    ((a + n ≤ 0x6000000000 && (List.range 64).all fun g =>
        (s.part p).hbm.getLsbD g || a + n ≤ g * 0x180000000 || (g + 1) * 0x180000000 ≤ a) ||
      (0x10000000000 ≤ a && a + n ≤ 0x20000000000))

/-- Open a bulk transfer. -/
def State.bulkOpen (s : State) (tag : BitVec 16) (addr : Word) (p : PartId) (len : Nat) (write : Bool) : State :=
  if !s.bulkOk p addr.toNat len then s.refusePlain 0 tag
  else if len = 0 then s.answer 0 tag 0
  else { s with bulks := s.bulks ++ [{ tag := tag, addr := addr.toNat, left := len, write := write, part := p }] }

/-- BULK_WRITE_REQUEST (R409, R411). -/
def execBulkWriteRequest (tag : BitVec 16) (addr : Word) (p : PartId) (len : BitVec 41) (s : State) : Out :=
  .next (s.bulkOpen tag addr p len.toNat true)

/-- BULK_READ_REQUEST (R409, R411). -/
def execBulkReadRequest (tag : BitVec 16) (addr : Word) (p : PartId) (len : BitVec 41) (s : State) : Out :=
  .next (s.bulkOpen tag addr p len.toNat false)

/-- A transfer goes on by n bytes, or ends with its response. -/
def State.bulkStep (s : State) (b : Bulk) (n : Nat) : State :=
  if b.left ≤ n then { s with bulks := s.bulks.filter fun x => !(x.tag == b.tag && x.write == b.write) }.answer 0 b.tag 0
  else { s with bulks := s.bulks.map fun x => if x.tag = b.tag ∧ x.write = b.write then { x with addr := x.addr + n, left := x.left - n } else x }

/-- A host's bulk write is published at DEVICE when it arrives, and sets no dirty bit (R273, R331, R411). -/
def State.hostWrite (s : State) (b : Bulk) (d : Bytes) : State :=
  let (k, s) := s.nextPub
  s.writeHome { agent := .host, hall := 0, asid := 0, part := b.part, scope := .device, pub := some k, num := 0, rmw := false, rel := false,
                clock := [], host := true } (cellsAt b.addr d)

/-- The host as a reader. -/
def hostReader : Reader :=
  { agent := .host, hall := 0, floor := [], last := [], own := 0, seen := { S := 0, L := 0, M := 0, V := 0 } }

/-- The next train of the first bulk read in progress is sent; a line that cannot be read closes the transfer with a fault. -/
def State.bulkTrain (s : State) : State :=
  match s.bulks.find? fun b => !b.write with
  | none => s
  | some b =>
    let n := min b.left trainBytes
    let ps := runFrom b.addr n
    match State.senseUnits b.part (dedup (ps.map unitOf)) s with
    | (some (_, f), s) => { s with bulks := s.bulks.filter fun x => !(x.tag == b.tag && !x.write) }.answerFault 0 b.tag f.info
    | (none, s) =>
      let (bs, _, s) := s.readBytes hostReader ps
      (s.send (.bulkData s.modid b.tag bs)).bulkStep b n

/-- BULK_DATA (R407, R409): a host's write, or what a fabric read of more than 8 bytes has brought. -/
def execBulkData (src tag : BitVec 16) (data : Bytes) (s : State) : Out :=
  .next (match s.bulks.find? fun b => b.write && b.tag == tag with
    | some b =>
      if src = 0 then (let d := data.take b.left; (s.hostWrite b d).bulkStep b d.length) else s
    | none =>
      match s.fabReqs.find? fun r => r.tag == tag.toNat && r.slot.isSome with
      | some r => s.farDone r data
      | none => s.farBytes tag.toNat data)

/-! Publications, groups and rounds of the fabric (R139, R290, R409). -/

/-- FABRIC_PUBLICATION (R290, R409): every earlier write and atomic of that source has been performed. -/
def execFabricPublication (src : BitVec 16) (no : Word) (asid : Asid) (s : State) : Out :=
  .next (s.sendModule src (.publicationAcknowledgement s.modid no asid))

/-- PUBLICATION_ACKNOWLEDGEMENT (R278, R290, R409): what was published at FABRIC before it is in the acknowledging module's floor. -/
def execPublicationAcknowledgement (src : BitVec 16) (no : Word) (asid : Asid) (s : State) : Out :=
  let mine := fun (p : FabPub) =>
    p.module_ == src && p.no == no && (match (s.hall p.hall).slice with | some sl => sl.asid == asid | none => true)
  let upTo := (s.fabPubs.filter mine).foldl (fun m p => max m p.upTo) 0
  let s := { s with fabPubs := s.fabPubs.filter fun p => !mine p }
  .next (s.onFar src fun k => { k with floor := renewedFloor .fabric (s.farSeat src asid) [] upTo s.hist k.floor })

/-- The member of another module that a group message names, where this module is the group's home. -/
def farMember (idx : Byte) (h : HallId) (m : GMember) : Bool := m.index == idx.toNat && m.hall == h

/-- The member that a message of another module is about: of those that its home knows by that module and Hall, which all stand alike to the
home, the first of the kind that sends such a message (log 9). -/
def Group.named (g : Group) (idx : Byte) (h : HallId) (p : GMember → Bool) : Option GMember :=
  (g.members.find? fun m => farMember idx h m && p m).orElse fun _ => g.members.find? (farMember idx h)

/-- A message about a member of a group that this module keeps, once it is known which member that is: what it does to the group. -/
def State.atHomeGroup (s : State) (asid : Asid) (gid : Nat) (idx : Byte) (h : HallId) (p : GMember → Bool) (f : Group → GMember → Group) : State :=
  let s := s.onGroup asid gid fun g => if g.home && g.isFabric then g.claim idx.toNat h else g
  (s.onGroup asid gid fun g => if g.home then (match g.named idx h p with | some m => f g m | none => g) else g).settleGroup asid gid

/-- GROUP_JOIN_MESSAGE (R143, R290, R409): the phase that it names is the first that counts the joiner, as far as the joiner's module knows: never
one after the next that opens (log 9). -/
def execGroupJoinMessage (idx : Byte) (h : HallId) (asid : Asid) (gid : BitVec 12) (ph : BitVec 32) (s : State) : Out :=
  let anew := { s with groups := s.groups.filter (fun (x : Group) => !(x.asid == asid && x.gid == gid.toNat)) ++
    [(Group.fresh asid gid.toNat .fabric h).join 0 idx.toNat h 0] }
  .next (match s.group asid gid.toNat with
    | some g =>
      if g.home then
        (if g.isFabric then s.onGroup asid gid.toNat fun g => g.join 0 idx.toNat h (min ph.toNat g.firstPhase) else s)
      else anew
    | none => anew)

/-- GROUP_LEAVE_MESSAGE (R144, R290): at the group's home a member leaves, and its token is withdrawn with it; at another module the group has ceased. -/
def execGroupLeaveMessage (idx : Byte) (h : HallId) (asid : Asid) (gid : BitVec 12) (ph : BitVec 32) (s : State) : Out :=
  let _ := ph
  .next (match s.group asid gid.toNat with
    | none => s
    | some g =>
      if g.home then
        let here := fun (m : GMember) => !m.absent && !m.arrived
        let s := match g.named idx h here with
          | some m => if m.absent then s.sendToken g m false else s
          | none => s
        (s.atHomeGroup asid gid.toNat idx h here fun g m => g.leave m).tellCeased g h
      else s.ceased asid gid.toNat)

/-- BARRIER_ARRIVAL (R145, R277, R409). -/
def execBarrierArrival (idx : Byte) (h : HallId) (asid : Asid) (gid : BitVec 12) (ph : BitVec 32) (s : State) : Out :=
  let _ := ph
  .next (s.atHomeGroup asid gid.toNat idx h (fun m => !m.absent && !m.arrived) fun g m =>
    if m.arrived then g else g.arrive m (s.farClock (s.routeModule asid idx.toNat)))

/-- PROXY_TOKEN_MESSAGE (R147, R290): the member counts as expected, and the timeout of the phase is suspended. The group's home tells the other
member modules; at one of those, a member that is none of its own stands for the token. -/
def execProxyTokenMessage (idx : Byte) (h : HallId) (asid : Asid) (gid : BitVec 12) (ph : BitVec 32) (s : State) : Out :=
  .next (match s.group asid gid.toNat with
    | none => s
    | some g =>
      if g.home then
        (s.atHomeGroup asid gid.toNat idx h (fun m => !m.absent && !m.arrived) fun g m =>
          { g with members := g.members.replace m { m with absent := true } }).tellMembers asid fun self => .proxyTokenMessage self h asid gid ph
      else s.onGroup asid gid.toNat fun g =>
        { g with members := g.members ++ [{ slice := 0, index := idx.toNat, hall := h, from_ := 0, arrived := false, absent := true }] })

/-- The token that a withdrawal of another module is about: the one of the member that it names; else one of that module; else, of a member that has
been thawed there, the one of the same Hall of another module, or the only one (R290; log 9). -/
def Group.token (g : Group) (self : Nat) (idx : Byte) (h : HallId) : Option GMember :=
  let away := g.members.filter fun m => m.absent && m.index != self
  (((away.find? (farMember idx h)).orElse fun _ => away.find? fun m => m.index == idx.toNat).orElse fun _ => away.find? fun m => m.hall == h).orElse
    fun _ => match away with | [m] => some m | _ => none

/-- TOKEN_WITHDRAWAL (R290): the member runs again, on a Hall of the module that says so; the group's home tells the other member modules. -/
def execTokenWithdrawal (idx : Byte) (h : HallId) (asid : Asid) (gid : BitVec 12) (ph : BitVec 32) (s : State) : Out :=
  let _ := ph
  .next (match s.group asid gid.toNat with
    | none => s
    | some g =>
      match g.token (s.selfIndex asid) idx h with
      | none => s
      | some w =>
        if g.home then
          (s.onGroup asid gid.toNat fun g =>
            { g with members := g.members.replace w { w with absent := false, hall := h, index := idx.toNat } }).tellMembers
              asid fun self => .tokenWithdrawal self w.hall asid gid ph
        else s.onGroup asid gid.toNat fun g => { g with members := g.members.erase w })

/-- What is known to have happened at every other member module of a partition before the home's sum arrives (R277, R289). -/
def State.membersClock (s : State) (p : PartId) : Clock :=
  let P := s.part p
  ((List.range P.fabNmod.toNat).filter (· != P.fabIndex.toNat)).foldl (fun c m =>
    Clock.join c (s.farClock ((P.routes[m]?.getD 0).extractLsb' 16 16))) []

/-- PHASE_COMPLETE_MESSAGE (R145, R277, R409): at a module that is not the group's home, which learns of the phase whether it has a member or not. -/
def execPhaseCompleteMessage (idx : Byte) (h : HallId) (asid : Asid) (gid : BitVec 12) (ph : BitVec 32) (s : State) : Out :=
  let c := s.peersClock asid
  .next (match s.group asid gid.toNat with
    | some g =>
        if g.home then s
        else
          let g := { g with phase := ph.toNat, homeAt := idx.toNat, stamp := Clock.join g.stamp c }
          (s.onGroup asid gid.toNat fun _ => g.openNext).openTokens g
    | none =>
      let g : Group := { Group.fresh asid gid.toNat .fabric h with home := false, homeAt := idx.toNat, phase := ph.toNat + 1 }
      { s with groups := s.groups ++ [g] })

/-- MULTICAST_REDUCE_CONTRIBUTION (R139): counted at the home of its window, or refused where its TYPE or window does not fit. -/
def execMulticastReduceContribution (tag : BitVec 16) (p : PartId) (addr : BitVec 20) (idx : Byte) (h : HallId) (ty : Byte) (v seq : Word)
    (s : State) : Out :=
  let a := addr.toNat
  .next (match s.mrValues p a with
    | some d =>
      if d.ty = ty.toNat ∧ d.fabric ≠ 0 then
        s.mrCount p a d { member := idx.toNat, hall := h.toNat, seq := seq.toNat, value := v } (s.farClock (((s.part p).routes[idx.toNat]?.getD 0).extractLsb' 16 16))
      else { s with free := s.free + 1 }.sendTo p idx.toNat (.response tag 1 0 0 (Config.value s.free))
    | none => { s with free := s.free + 1 }.sendTo p idx.toNat (.response tag 1 0 0 (Config.value s.free)))

/-- ROUND_SUM_MESSAGE (R139, R289): the switch of this member writes the sum under the values with which the round opened (R137), published at
FABRIC; what every other member has written here happens before it. The round is then closed here. -/
def execRoundSumMessage (p : PartId) (addr : BitVec 20) (v : Word) (s : State) : Out :=
  let a := addr.toNat
  let mine := fun (r : Round) => r.part == p && r.addr == a && r.fabric
  .next (match s.rounds.find? mine, s.mrDesc p (a / 4096) with
    | some r, _ =>
      { s with rounds := s.rounds.filter fun r => !mine r }.mrWrite p r.ty r.dest (a % 4096) r.members v.toNat .fabric (s.membersClock p)
    | none, some d => s.mrWrite p d.ty d.dest (a % 4096) d.members v.toNat .fabric (s.membersClock p)
    | none, none => s)

/-! Timeouts (R406). -/

/-- Every port toward a member has been down for 1 ms (R406). -/
def State.cutOff (s : State) (p : PartId) (member : Nat) : Bool :=
  (portsOf (((s.part p).routes[member]?.getD 0).setWidth 12)).all fun i =>
    match (s.port i).downAt with | some t => t + 5544000000 ≤ s.tick | none => false

/-- A request of a strand that has timed out. -/
def State.timedOut (s : State) (h : HallId) (st : Strand) (p : PartId) : Option FabReq :=
  s.fabReqs.find? fun r => r.hall == h && r.strand == st && r.engine.isNone && s.cutOff p r.member

/-- The publication of a strand that waits for a member cut off. -/
def State.timedPub (s : State) (h : HallId) (st : Strand) (p : PartId) : Option FabPub :=
  s.fabPubs.find? fun x => x.hall == h && x.strand == st && x.engine.isNone &&
    (List.range 64).any fun m => ((s.part p).routes[m]?.getD 0).extractLsb' 16 16 == x.module_ && s.cutOff p m

/-- FABRIC_TIMEOUT (R386, R406): PROT with DETAIL 0x20 where the access would have landed or been published. -/
def execFabricTimeout (h : HallId) (st : Strand) (s : State) : Out :=
  let p := match (s.hall h).slice with | some sl => sl.part | none => 0
  .next (match s.timedOut h st p with
    | some r => s.farFault r (prot 0x20)
    | none =>
      match s.timedPub h st p with
      | some x =>
        let f : TrapInfo := { cause := .PROT, detail := 0x20, access := .system }
        { s with fabPubs := s.fabPubs.filter fun y => y != x }.onStrand h st fun y =>
          { y with lateFault := firstFault y.lateFault (some (y.stores, f)) }
      | none => s)

/-! Messages of the host (R302, R409, R412). -/

/-- A launch message is queued for the supervisor (R412): none when the area is full, or no supervisor context has it. -/
def State.queueLaunch (s : State) (p : PartId) (raw : Bytes) (mask : BitVec 256) : Option State :=
  let P := s.part p
  match s.superWho p with
  | none => none
  | some u =>
    if P.arTail - P.arHead = 64 then none
    else
      let s := s.superWrite u (P.arq.toNat + 128 * (P.arTail.toNat % 64)) (raw ++ leBytes 32 mask.toNat)
      some ((s.onPart p fun P => { P with arTail := P.arTail + 1 }).postSuper p 29)

/-- A launch message is performed as a LAUNCH in supervisor mode (R302): a fault becomes a host-assisted event. -/
def State.hostLaunches (s : State) (p : PartId) (raw : Bytes) (mask : BitVec 256) : Except TrapInfo State × State :=
  let h := match maskHalls (s.part p).halls with | h :: _ => h | [] => 0
  match s.launchChecks h p raw mask with
  | (.error t, s) => (.error t, s)
  | (.ok succ, s) => (s.launchCopies p raw succ (maskHalls mask) none [], s)

/-- HOST_LAUNCH (R302, R400, R412). -/
def execHostLaunch (tag : BitVec 16) (p : PartId) (packet : Bytes) (mask : BitVec 256) (s : State) : Out :=
  .next (if !(s.part p).present || packet.length != 64 then s.refusePlain 0 tag
    else if (s.part p).mode.getLsbD 4 then
      match s.queueLaunch p packet mask with
      | some s => s.answer 0 tag 0
      | none => s.refusePlain 0 tag
    else match s.hostLaunches p packet mask with
      | (.ok s, _) => s.answer 0 tag 0
      | (.error t, s) =>
        (s.raiseEvent p (hostEvent 7 0 (Packet.ofBytes packet).asid (causeCode t.cause) 0 t.detail t.addr)).answerFault 0 tag t)

/-- The register that a control-window message names (R409): none where it names none. -/
def windowOf (addr : Word) : Option (PartId × Nat) :=
  match spaceOf addr.toNat with
  | .control p off => if addr.toNat % 8 = 0 ∧ addr.toNat < 2 ^ 44 then some (p, off) else none
  | _ => none

/-- CONTROL_WINDOW_READ (R302, R409). -/
def execControlWindowRead (tag : BitVec 16) (addr : Word) (s : State) : Out :=
  .next (match windowOf addr with
    | some (p, off) => let (v, s) := s.cwRead p off 8; s.answer 0 tag v
    | none => s.refusePlain 0 tag)

/-- CONTROL_WINDOW_WRITE (R302, R409). -/
def execControlWindowWrite (tag : BitVec 16) (addr data : Word) (s : State) : Out :=
  .next (match windowOf addr with
    | some (p, off) => (s.cwWrite p off 8 data).answer 0 tag 0
    | none => s.refusePlain 0 tag)

end Sys2Proof.Machine
end

