-- ==== Sys2Proof/Machine/SlhDsa.lean ====
section
/-! DEFINITION. SLH-DSA (FIPS 205) with the SHAKE-256s parameter set (R5): n = 32, h = 64, d = 8, h' = 8, a = 14, k = 22, w = 16, m = 47. -/

namespace Sys2Proof.Machine

/-- An address of 32 bytes: layer, tree, type, and three words that the type gives their meaning. -/
structure HashAddr where
  layer : Nat := 0
  tree : Nat := 0
  ty : Nat := 0
  a : Nat := 0
  b : Nat := 0
  c : Nat := 0
  deriving DecidableEq, Repr

/-- The bytes of an address. -/
def HashAddr.bytes (x : HashAddr) : Bytes := beBytes 4 x.layer ++ beBytes 12 x.tree ++ beBytes 4 x.ty ++ beBytes 4 x.a ++ beBytes 4 x.b ++ beBytes 4 x.c

/-- The secret and public seeds and the root. -/
structure SlhKey where
  skSeed : Bytes
  skPrf : Bytes
  pkSeed : Bytes
  pkRoot : Bytes
  deriving DecidableEq, Repr

/-- The hash of a message of blocks under an address: F, H and T. -/
def slhHash (seed : Bytes) (x : HashAddr) (m : Bytes) : Bytes := shake256 (seed ++ x.bytes ++ m) 32
/-- The secret value at an address: PRF. -/
def slhPrf (seed sk : Bytes) (x : HashAddr) : Bytes := shake256 (seed ++ x.bytes ++ sk) 32

/-- n digits of b bits, highest first. -/
def baseDigits (b n : Nat) (bs : Bytes) : List Nat :=
  let v := beNat bs
  let all := 8 * bs.length
  (List.range n).map fun i => v / 2 ^ (all - b * (i + 1)) % 2 ^ b

/-! One-time signatures: WOTS+. -/

/-- n steps of a chain from step i. -/
def wotsChain (seed : Bytes) (x : HashAddr) : Nat → Nat → Bytes → Bytes
  | _, 0, v => v
  | i, n + 1, v => wotsChain seed x (i + 1) n (slhHash seed { x with c := i } v)

/-- The 67 digits of a message of 32 bytes with its check sum. -/
def wotsDigits (m : Bytes) : List Nat :=
  let ds := baseDigits 4 64 m
  ds ++ baseDigits 4 3 (beBytes 2 (16 * ds.foldl (fun t d => t + (15 - d)) 0))

/-- The secret value of chain i of a key pair. -/
def wotsSecret (K : SlhKey) (x : HashAddr) (i : Nat) : Bytes := slhPrf K.pkSeed K.skSeed { x with ty := 5, b := i, c := 0 }

/-- The public key of a one-time key pair (x: its layer, tree and number a) from the ends of its chains. -/
def wotsRoot (seed : Bytes) (x : HashAddr) (ends : List Bytes) : Bytes := slhHash seed { x with ty := 1, b := 0, c := 0 } ends.flatten

/-- A one-time public key. -/
def wotsPk (K : SlhKey) (x : HashAddr) : Bytes :=
  wotsRoot K.pkSeed x ((List.range 67).map fun i => wotsChain K.pkSeed { x with ty := 0, b := i, c := 0 } 0 15 (wotsSecret K x i))

/-- A one-time signature. -/
def wotsSign (K : SlhKey) (x : HashAddr) (m : Bytes) : Bytes :=
  ((wotsDigits m).mapIdx fun i d => wotsChain K.pkSeed { x with ty := 0, b := i, c := 0 } 0 d (wotsSecret K x i)).flatten

/-- The public key that a one-time signature gives. -/
def wotsFromSig (seed : Bytes) (x : HashAddr) (sig m : Bytes) : Bytes :=
  wotsRoot seed x ((wotsDigits m).mapIdx fun i d => wotsChain seed { x with ty := 0, b := i, c := 0 } d (15 - d) ((sig.drop (32 * i)).take 32))

/-! Trees. -/

/-- The node above a leaf from the nodes beside its path: k the height below, i the number of the node there. -/
def climb (seed : Bytes) (x : HashAddr) : Nat → Nat → Bytes → List Bytes → Bytes
  | _, _, v, [] => v
  | k, i, v, w :: rest =>
    let v := slhHash seed { x with b := k + 1, c := i / 2 } (if i % 2 = 0 then v ++ w else w ++ v)
    climb seed x (k + 1) (i / 2) v rest

/-- Node i at height z of a layer's tree. -/
def treeNode (K : SlhKey) (x : HashAddr) : Nat → Nat → Bytes
  | 0, i => wotsPk K { x with a := i }
  | z + 1, i => slhHash K.pkSeed { x with ty := 2, a := 0, b := z + 1, c := i } (treeNode K x z (2 * i) ++ treeNode K x z (2 * i + 1))

/-- A signature of a layer's tree: its one-time signature and its path. -/
def treeSign (K : SlhKey) (x : HashAddr) (idx : Nat) (m : Bytes) : Bytes :=
  wotsSign K { x with a := idx } m ++ (List.range 8).flatMap fun j => treeNode K x j ((idx / 2 ^ j) ^^^ 1)

/-- The root that a signature of a layer's tree gives. -/
def treeFromSig (seed : Bytes) (x : HashAddr) (idx : Nat) (sig m : Bytes) : Bytes :=
  climb seed { x with ty := 2, a := 0 } 0 idx (wotsFromSig seed { x with a := idx } sig m) (piecesOfBytes 32 8 (sig.drop 2144))

/-- The signature of layer j and those above it. -/
def hyperSign (K : SlhKey) : Nat → Nat → Nat → Nat → Bytes → Bytes
  | 0, _, _, _, _ => []
  | n + 1, j, tree, leaf, m =>
    let x : HashAddr := { layer := j, tree := tree }
    let sig := treeSign K x leaf m
    sig ++ hyperSign K n (j + 1) (tree / 256) (tree % 256) (treeFromSig K.pkSeed x leaf sig m)

/-- The root that the signatures of layer j and those above it give. -/
def hyperRoot (seed : Bytes) : Nat → Nat → Nat → Nat → Bytes → Bytes → Bytes
  | 0, _, _, _, m, _ => m
  | n + 1, j, tree, leaf, m, sig =>
    hyperRoot seed n (j + 1) (tree / 256) (tree % 256) (treeFromSig seed { layer := j, tree := tree } leaf sig m) (sig.drop 2400)

/-! Few-time signatures: FORS. -/

/-- The secret value of leaf i. -/
def forsSecret (K : SlhKey) (x : HashAddr) (i : Nat) : Bytes := slhPrf K.pkSeed K.skSeed { x with ty := 6, b := 0, c := i }

/-- Node i at height z. -/
def forsNode (K : SlhKey) (x : HashAddr) : Nat → Nat → Bytes
  | 0, i => slhHash K.pkSeed { x with ty := 3, b := 0, c := i } (forsSecret K x i)
  | z + 1, i => slhHash K.pkSeed { x with ty := 3, b := z + 1, c := i } (forsNode K x z (2 * i) ++ forsNode K x z (2 * i + 1))

/-- A few-time signature of 22 indices. -/
def forsSign (K : SlhKey) (x : HashAddr) (md : Bytes) : Bytes :=
  ((baseDigits 14 22 md).mapIdx fun i d =>
    forsSecret K x (i * 2 ^ 14 + d) ++ (List.range 14).flatMap fun j => forsNode K x j (i * 2 ^ (14 - j) + ((d / 2 ^ j) ^^^ 1))).flatten

/-- The public key that a few-time signature gives. -/
def forsFromSig (seed : Bytes) (x : HashAddr) (sig md : Bytes) : Bytes :=
  let roots := (baseDigits 14 22 md).mapIdx fun i d =>
    let part := (sig.drop (480 * i)).take 480
    let leaf := i * 2 ^ 14 + d
    climb seed { x with ty := 3 } 0 leaf (slhHash seed { x with ty := 3, b := 0, c := leaf } (part.take 32)) (piecesOfBytes 32 14 (part.drop 32))
  slhHash seed { x with ty := 4, b := 0, c := 0 } roots.flatten

/-! Signatures. -/

/-- The parts of a message's digest: the few-time message, the tree and the leaf. -/
def slhParts (r seed root m : Bytes) : Bytes × Nat × Nat :=
  let g := shake256 (r ++ seed ++ root ++ m) 47
  (g.take 39, beNat ((g.drop 39).take 7), beNat ((g.drop 46).take 1))

/-- The public key of a key pair: its seed and the root of the highest tree. -/
def slhPublic (skSeed skPrf pkSeed : Bytes) : SlhKey :=
  let K : SlhKey := { skSeed := skSeed, skPrf := skPrf, pkSeed := pkSeed, pkRoot := [] }
  { K with pkRoot := treeNode K { layer := 7 } 8 0 }

/-- What is signed for a message: no context (FIPS 205, pure). -/
def slhMessage (m : Bytes) : Bytes := [0, 0] ++ m

/-- A signature, 29,792 bytes, with additional randomness. -/
def slhSign (K : SlhKey) (m rand : Bytes) : Bytes :=
  let m := slhMessage m
  let r := shake256 (K.skPrf ++ rand ++ m) 32
  let (md, tree, leaf) := slhParts r K.pkSeed K.pkRoot m
  let x : HashAddr := { tree := tree, ty := 3, a := leaf }
  let f := forsSign K x md
  r ++ f ++ hyperSign K 8 0 tree leaf (forsFromSig K.pkSeed x f md)

/-- A signature of a message is that of a public key of 64 bytes. -/
def slhVerify (pk m sig : Bytes) : Bool :=
  let m := slhMessage m
  let seed := pk.take 32
  let root := pk.drop 32
  let r := sig.take 32
  let (md, tree, leaf) := slhParts r seed root m
  let x : HashAddr := { tree := tree, ty := 3, a := leaf }
  sig.length == 29792 && pk.length == 64 &&
    hyperRoot seed 8 0 tree leaf (forsFromSig seed x ((sig.drop 32).take 10560) md) (sig.drop 10592) == root

end Sys2Proof.Machine
end

