-- ==== Sys2Proof/Machine/Platform.lean ====
section
/-! DEFINITION. Device reset, wiping, access counters and the power domains (R264, R416, R421, R425, R427 to R429). -/

namespace Sys2Proof.Machine

/-! Wiping and keys (R264, R425). -/

/-- New keys for a partition, drawn from the device's generator (R425): they are named by a number never used before. -/
def State.newKeys (s : State) (p : PartId) : State :=
  { s with partKeys := s.partKeys.set p.toNat (s.nextKey + 1) p.isLt, nextKey := s.nextKey + 1 }

/-- New keys for every partition. -/
def State.allKeys (s : State) : State := (List.range 16).foldl (fun s p => s.newKeys (BitVec.ofNat 4 p)) s

/-- Off-die lines of a range are scrubbed (R425): zero, write count 0. An access waits for a line not yet scrubbed; the model scrubs at once
(DESIGN CHOICE, log 40). -/
def State.scrub (s : State) (lo hi : Nat) : State :=
  { s with
    mem := s.mem.filter fun c => c.1 < lo || hi ≤ c.1
    hist := s.hist.filter fun v => 64 * v.line < lo || hi ≤ 64 * v.line
    writeCounts := s.writeCounts.filter fun e => 64 * e.1 < lo || hi ≤ 64 * e.1
    bad := s.bad.filter fun a => a < lo || hi ≤ a
    flaws := s.flaws.filter fun a => a < lo || hi ≤ a
    lineKeys := s.lineKeys.filter fun e => 64 * e.1 < lo || hi ≤ 64 * e.1 }

/-- Every memory is wiped (R264): the galleries, HBM and the undercroft; the accumulator rows belong to no context any more (R31). -/
def State.wipeAll (s : State) : State :=
  { s with
    mem := [], hist := [], rowGroups := [], poison := [], bad := [], flaws := [], changes := [], writeCounts := [], lineKeys := []
    halls := s.halls.map fun H => { H with wipeEnds := some (s.tick + 11088000000), accTag := [] } }

/-! Device reset (R421). -/

/-- Bytes of a signature with the SHAKE-256s parameter set, and of a public key (R410). -/
def sigBytes : Nat := 29792
/-- Bytes of a public key (R410). -/
def keyBytes : Nat := 64

/-- A signed text: what the signature covers, the signer's key, the signature. -/
def signedOk (digest text key sig : Bytes) : Bool :=
  shake256 key 64 == digest && slhVerify key text sig

/-- The firmware image is verified against the vendor key, and its digest becomes measurement M0 (R421). The image ends in the key and the
signature, as a signed message does (log 5). -/
def State.boot (s : State) : State :=
  let f := Config.firmware
  let n := f.length - sigBytes - keyBytes
  let ok := signedOk Config.vendorDigest (f.take n) ((f.drop n).take keyBytes) (f.drop (n + keyBytes))
  { s with running := ok, measure := shake256 f 64 }

/-- The firmware extends the measurement by one that it makes of itself (R421). -/
def State.extendMeasure (s : State) : State :=
  if !s.running then s
  else match Config.measured s.free with
    | some d => { s with measure := shake256 (s.measure ++ fitTo 64 d) 64 }
    | none => s

/-- What lasts through a device reset: the fuses, the life-cycle state, the fleet secret, the module identifier, and the highest SEQ accepted
(R410, R421, R422; log 5); the keys of the partitions are new (R425). -/
def State.deviceReset (s : State) : State :=
  let r := State.reset
  ({ r with
     free := s.free, life := s.life, operatorDigest := s.operatorDigest, fleetSecret := s.fleetSecret, mgmtSeq := s.mgmtSeq
     modid := s.modid, nextKey := s.nextKey, safeTier := s.safeTier, inbox := s.inbox, frozenIvs := s.frozenIvs }).allKeys.boot

/-- DEVICE_RESET (R4, R264, R421). -/
def execDeviceReset (s : State) : Out := .next s.deviceReset

/-! Access counters (R416). -/

/-- Halve every counter of a sparse table. -/
def halved (m : SMap 16) : SMap 16 := (m.map fun (e : Nat × BitVec 16) => (e.1, e.2 >>> 1)).filter fun e => e.2 != 0

/-- ACCESS_COUNTER_HALVING (R416): once each millisecond of device time. -/
def execAccessCounterHalving (s : State) : Out :=
  .next (if s.halveAt ≤ s.tick then { s with sectors := halved s.sectors, halveAt := s.halveAt + 5544000000 } else s)

/-! Power domains (R427 to R429). -/

/-- Ticks of an interval of 5 microseconds (R427). -/
def intervalTicks : Nat := 27720000
/-- Ticks of a Hall cycle at nominal, B1, B2, and at the throttle level (R4, R429). -/
def ticksOf : Level → Nat
  | .nominal => 3960 | .B1 => 3465 | .B2 => 3080
/-- Ticks of a Hall cycle at the throttle level, 1.1 GHz (R429). -/
def throttleTicks : Nat := 5040

/-- The Halls of a power domain (R427). -/
def domainHalls (d : BitVec 5) : List HallId := (List.range 8).map fun i => BitVec.ofNat 8 (8 * d.toNat + i)

/-- The Hall is a candidate of the interval that begins (R222, R427). -/
def Hall.wantsBoost (H : Hall) (tick : Nat) : Bool := H.slice.isSome && H.boostReq != .nominal && H.boostFrom < tick

/-- The slice priority of a candidate. -/
def Hall.prio (H : Hall) : Nat := match H.slice with | some sl => sl.packet.prio | none => 0

/-- The place of a Hall of a domain after the one granted last, in ascending cyclic order; none: by its number (R427). -/
def afterLast (last : Option Nat) (i : Nat) : Nat := match last with | some l => (i + 7 - l) % 8 | none => i

/-- The candidate that the domain grants (R427): highest priority, then first after the one granted last. -/
def State.boostChoice (s : State) (d : BitVec 5) (last : Option Nat) : Option HallId :=
  ((domainHalls d).filter fun h => (s.hall h).wantsBoost s.tick).foldl (fun (m : Option HallId) h =>
    match m with
    | none => some h
    | some g =>
      let a := (s.hall h).prio
      let b := (s.hall g).prio
      if b < a ∨ (a = b ∧ afterLast last (h.toNat % 8) < afterLast last (g.toNat % 8)) then some h else some g) none

/-- The level that the pool allows (R427). -/
def poolLevel (permits : Nat) : Level := if 8 ≤ permits then .B2 else if 1 ≤ permits then .B1 else .nominal

/-- The lower of two levels. -/
def lowerLevel : Level → Level → Level
  | .nominal, _ => .nominal | _, .nominal => .nominal | .B1, _ => .B1 | _, .B1 => .B1 | .B2, .B2 => .B2

/-- The charge of a level (R427). -/
def chargeOf : Level → Nat
  | .nominal => 0 | .B1 => 1 | .B2 => 2

/-- GRANT's code of a level (R209). -/
def grantOf : Level → BitVec 2
  | .nominal => 0 | .B1 => 1 | .B2 => 2

/-- An interval was idle on a Hall (R428): rows were taken in fewer than a quarter of its cycles. -/
def Hall.idleArray (H : Hall) : Bool := 4 * H.busyRows < intervalTicks / H.levelTicks

/-- The pool at the end of an interval (R428): one permit more after every second consecutive idle one. -/
def Domain.rest (D : Domain) (idle : Bool) : Domain :=
  if !idle then { D with idle := 0 }
  else if D.idle = 1 then { D with idle := 0, permits := min 64 (D.permits + 1) }
  else { D with idle := 1 }

/-- A Hall begins an interval at a level. -/
def Hall.atLevel (H : Hall) (ticks : Nat) (grant : BitVec 2) (permits : Nat) : Hall :=
  { H with levelTicks := ticks, boostGrant := grant, boostPermits := permits, busyRows := 0 }

/-- Every Hall of a domain begins an interval at one level. -/
def State.setLevels (s : State) (d : BitVec 5) (ticks : Nat) (grant : BitVec 2) (permits : Nat) : State :=
  (domainHalls d).foldl (fun s h => s.onHall h fun H => H.atLevel ticks grant permits) s

/-- An interval of a domain begins (R427 to R429). -/
def State.boostInterval (s : State) (d : BitVec 5) : State :=
  let D0 := s.domains[d.toNat]'d.isLt
  let D := D0.rest ((domainHalls d).all fun h => (s.hall h).idleArray)
  let power := Config.power (s.tick / intervalTicks - 1)
  let hot := fun (b : Nat) => (domainHalls d).any fun h => b ≤ (s.hall h).band
  let put := fun (s : State) (D : Domain) =>
    { s with domains := s.domains.set d.toNat D d.isLt, boostAt := s.boostAt.set d.toNat (s.tick + intervalTicks) d.isLt }
  if hot 13 then put (s.setLevels d throttleTicks 3 D.permits) D
  else
    let s' := s.setLevels d (ticksOf .nominal) 0 D.permits
    if hot 12 || 3000 < power then put s' D
    else match s.boostChoice d D.last with
      | none => put s' D
      | some h =>
        let lv := lowerLevel (s.hall h).boostReq (poolLevel D.permits)
        let lv := if 2950 < power then lowerLevel lv .B1 else lv
        put (s'.onHall h fun H => H.atLevel (ticksOf lv) (grantOf lv) D.permits)
          { D with last := some (h.toNat % 8), permits := D.permits - chargeOf lv }

/-- BOOST_INTERVAL (R427): due at each whole interval of device time. -/
def execBoostInterval (d : BitVec 5) (s : State) : Out :=
  .next (if s.boostAt[d.toNat]'d.isLt ≤ s.tick then s.boostInterval d else s)

end Sys2Proof.Machine
end

