-- ==== Sys2Proof/Machine/Thaw.lean ====
section
/-! DEFINITION. THAW (R228, R332, R333): the checks of an image, and the context that it becomes. -/

namespace Sys2Proof.Machine

/-! The image. -/

/-- An image as THAW takes it: its header, its sections, the ASID assigned, the partition, and its Halls in ascending order. -/
structure Image where
  head : Bytes
  secs : List Section
  asid : Asid
  part : PartId
  halls : List HallId
  deriving DecidableEq, Repr

/-- The sections of the slices, which stand before the context's own (log 15). -/
def Image.slicePart (g : Image) : List Section := g.secs.takeWhile fun x => x.ty != 15
/-- The sections of the context and of the Halls. -/
def Image.hallPart (g : Image) : List Section := g.secs.dropWhile fun x => x.ty != 15
/-- Device time at the capture (R325). -/
def Image.time (g : Image) : Nat := fieldAt g.head 40 8
/-- Slices of the image (R325), at most those that its sections can hold. -/
def Image.slices (g : Image) : Nat := min (fieldAt g.head 36 4) g.secs.length
/-- The Hall on which a position is placed (R333). -/
def Image.hallAt (g : Image) (pos : Nat) : HallId := g.halls.getD (pos % g.halls.length) 0
/-- A section of a slice. -/
def Image.part_ (g : Image) (ty i : Nat) : Bytes := sectionAt g.slicePart ty i

/-- An absolute time of the image, rebased (R333). -/
def rebaseTime (t capt now : Nat) : Nat := t + now - capt

/-- A packet of the image under its new ASID, its deadline rebased (R333). -/
def Image.packet (g : Image) (now : Nat) (raw : Bytes) : Bytes :=
  let raw := fitTo 64 raw
  let kd := wordAt raw 0
  let raw := patch raw 0 (leBytes 8 (g.asid ++ kd.extractLsb' 0 52).toNat)
  let p := Packet.ofBytes raw
  if p.deadlineKind then patch raw 16 (leBytes 8 (rebaseTime p.lo.toNat g.time now % 2 ^ 63)) else raw

/-- The deadline of a packet of the image had passed at the capture, and so its interrupt has been raised (R304). -/
def Image.wasLate (g : Image) (raw : Bytes) : Bool :=
  let p := Packet.ofBytes raw
  p.passed g.time

/-! Ready entries. -/

/-- Ready entries of an image, fuel entries at most: headers with the packets of fresh ones. -/
def entriesOf : Nat → Bytes → List (Bytes × Bytes)
  | 0, _ => []
  | n + 1, d =>
    if d.length < 64 then []
    else if d.getD 0 0 = 1 then (d.take 64, (d.drop 64).take 64) :: entriesOf n (d.drop 128)
    else (d.take 64, []) :: entriesOf n (d.drop 64)

/-- The ready entries in the order of their sequence numbers. -/
def Image.entries (g : Image) : List (Bytes × Bytes) :=
  let d := sectionAt g.hallPart 16 0
  (entriesOf (d.length / 64) d).mergeSort fun a b => fieldAt a.1 8 8 ≤ fieldAt b.1 8 8

/-- The launch instance numbers of the image, each once. -/
def Image.insts (g : Image) : List Nat :=
  dedup ((List.range g.slices).map (fun i => fieldAt (g.part_ 1 i) 248 8) ++
    (g.entries.filter fun e => e.1.getD 0 0 == 1).map fun e => fieldAt e.1 24 8)

/-- The number that an instance of the image gets. -/
def Image.instOf (g : Image) (next n : Nat) : Nat := next + (g.insts.takeWhile (· != n)).length

/-! Slices. -/

/-- Commands of a copy queue from their blocks. Their issuer and their region are not in the image: they count as the slice's own, in its
innermost region (log 15). -/
def thawCopy (sl : Slice) (i : Nat) (d : Bytes) : Option CopyCmd :=
  ((blockSyl d).bind copyBlock).map fun (e : CopyKind × Bool × QCtl) =>
    { id := i, kind := e.1, resume := e.2.1, src := wordAt d 16, dst := wordAt d 24, x := wordAt d 32, cw := blockWord d, q := e.2.2
      follow := if e.1 = .MM then some (wordAt d 40, wordAt d 48) else none
      word := wordAt d 0, slice := sl.id, asid := sl.asid, part := sl.part, super := sl.super, issuer := none, issuePc := 0
      depth := sl.regions.length, matchAt := none, bad := 0, clock := [], floor := [] }

/-- A command of a Hazel queue from its block. -/
def thawHazel (sl : Slice) (i : Nat) (d : Bytes) : Option HzCmd :=
  ((blockSyl d).bind hazelBlock).map fun (e : HzKind × QCtl) =>
    { id := i, kind := e.1, va := wordAt d 16, vb := wordAt d 24, vx := wordAt d 32, cw := blockWord d, q := e.2, word := wordAt d 0
      slice := sl.id, asid := sl.asid, part := sl.part, super := sl.super, issuer := none, issuePc := 0
      depth := sl.regions.length, matchAt := none, bad := 0, clock := [], floor := [] }

/-- A matrix command from its syllable and value; the activation format is the slice's (log 15). -/
def thawMat (sl : Slice) (h : HallId) (i : Nat) (d : Bytes) : Option MatCmd :=
  match decode (wordAt d 0) with
  | .error _ => none
  | .ok (_, op) =>
    some { id := i, op := op, word := wordAt d 0, value := wordAt d 8, pages := [], fmt := sl.tileFmt, tid := 0, slice := sl.id
           asid := sl.asid, part := sl.part, super := sl.super, depth := sl.regions.length, poster := h, started := none, endsAt := 0
           fed := 0, lastFed := 0, rows := [], flags := 0, posted := false, lost := none, clock := [], floor := [], pc := 0 }

/-- The engine queues of a slice (R326, R329): copy commands, matrix commands, and markers with their strands. -/
def queuesOf (d : Bytes) : List Bytes × List Bytes × List Bytes :=
  let lim := d.length / 8
  let nc := min (fieldAt d 0 8) lim
  let d1 := d.drop (8 + 64 * nc)
  let nm := min (fieldAt d1 0 8) lim
  let d2 := d1.drop (8 + 16 * nm)
  let nk := min (fieldAt d2 0 8) lim
  (recordsOf nc 64 id (d.drop 8), recordsOf nm 16 id (d1.drop 8), recordsOf nk 8 id (d2.drop 8))

/-- Markers of a strand. -/
def marksOf (st : Strand) (ms : List Bytes) : List Marker :=
  (ms.filter fun m => (m.getD 0 0).toNat == strandCode st).map fun m =>
    { queue := if m.getD 1 0 = 0 then .copy else if m.getD 1 0 = 1 then .matrix else .hazel, last := fieldAt m 4 4 }

/-- A strand of the image. -/
def Image.strand (g : Image) (i : Nat) (st : Strand) (ms : List Bytes) : StrandState :=
  let k := strandCode st
  { strandOf ((g.part_ 2 i).drop (640 * k)) with replay := replaysOf (((g.part_ 7 i).drop (32 * k)).take 32), markers := marksOf st ms }

/-- What a slice owns of its Hall. -/
def Image.work (g : Image) (i : Nat) (ms : List Bytes) : Work :=
  let t := g.part_ 3 i
  let w := g.part_ 12 i
  let b0 := bankOfCode (fieldAt w 0 8)
  let w1 := w.drop (8 + bankLen b0)
  let b1 := bankOfCode (fieldAt w1 0 8)
  let ev := g.part_ 6 i
  let q := g.part_ 13 i
  { S := g.strand i .S ms, L := g.strand i .L ms, V := g.strand i .V ms, M := g.strand i .M ms
    tiles := tilesOf t, shapes := shapesOf t, masks := masksOf t
    streams := Vector.ofFn fun (k : Fin 8) => streamOf ((q.drop (80 * k.val)).take 80)
    toks := toksOf (g.part_ 5 i)
    evs := Vector.ofFn fun (k : Fin 32) => { count := (ev.getD k.val 0).toNat, stamp := .empty, next := .empty }
    weights := weightsOf 0 b0 (w.drop 8) ++ weightsOf 1 b1 (w1.drop 8), banks := #v[b0, b1] }

/-- The slots of a slice's groups (R327): whether it has arrived in the open phase, and whether only the next one counts it. -/
def groupSlots (c : Bytes) : List (Nat × Bool × Bool) :=
  (List.range 16).filterMap fun k =>
    let v := fieldAt c (80 + 2 * k) 2
    if v / 2 ^ 15 % 2 = 1 then some (v % 4096, v / 2 ^ 14 % 2 == 1, v / 2 ^ 13 % 2 == 1) else none

/-- The open phase of a group of the image. -/
def Image.phaseOf (g : Image) (gid : Nat) : Nat :=
  match (recordsOf ((sectionAt g.hallPart 15 0).length / 16) 16 id (sectionAt g.hallPart 15 0)).find? fun e => fieldAt e 0 2 == gid with
  | some e => fieldAt e 8 4
  | none => 0

/-- The slice-control section (R327) as a slice, its regions and its log still to be added. -/
def Image.control (g : Image) (i id inst : Nat) (super : Bool) (now : Nat) : Slice :=
  let c := g.part_ 1 i
  let raw := g.packet now (c.take 64)
  let p := Packet.ofBytes raw
  { Slice.fresh id p raw (c.getD 72 0) inst g.part super 0 with
    left := fieldAt c 64 8, late := g.wasLate (c.take 64), ncfg := wordAt c 176, ntstat := (wordAt c 184).setWidth 3
    thresh := #v[threshOf c 0, threshOf c 1, threshOf c 2], counters := countersOf (g.part_ 14 i)
    noteEn := (c.getD 240 0).getLsbD 0, notePend := (c.getD 240 0).getLsbD 1, noteCount := c.getD 241 0
    tileFmt := fmtOfCode (c.getD 75 0).toNat
    wsets := (List.range 8).filterMap fun k =>
      let v := wordAt c (112 + 8 * k)
      if v = 0 then none else some (v.setWidth 32, v.extractLsb' 32 32)
    groups := (groupSlots c).map fun e => { gid := e.1, last := if e.2.1 then some (g.phaseOf e.1 + e.2.2.toNat) else none }
    pubFault := pubFaultOf c 2
    hzUsed := wordAt (g.part_ 10 i) 0 != 0 }

/-- The physical place of a store of an open region on the new Hall. -/
def State.storePlace (s : State) (u : Who) (binds : List (BitVec 32 × BitVec 32)) (a : Nat) : Option Nat :=
  match s.resolveDirect u binds (wantStore .B) a with | .ok p => some p | .miss => none | .fault _ => none

/-- The stores of open regions, which the image does not tell apart by strand, count as those of S, and every strand knows them (R280, R354; log
15). -/
def Work.knows (W : Work) (n : Nat) : Work :=
  let seen : Seen := { S := n, L := 0, M := 0, V := 0 }
  let f := fun (x : StrandState) => { x with seen := seen, heard := seen }
  { W with S := { f W.S with stores := n }, L := f W.L, M := f W.M, V := f W.V }

/-- A slice of the image as a saved slice (R333). -/
def State.thawSaved (s : State) (g : Image) (super : Bool) (i : Nat) : Saved :=
  let c := g.part_ 1 i
  let h := g.hallAt (c.getD 74 0).toNat
  let inst := g.instOf s.nextInst (fieldAt c 248 8)
  let sl := g.control i (s.nextSlice + i) inst super s.devtime
  let r := g.part_ 8 i
  let nlog := min (fieldAt r 8 8) (r.length / 32)
  let u : Who := { hall := h, asid := g.asid, part := g.part, super := super }
  let open_ := regionsOf (galleryBase h) (BitVec.ofNat 13 (g.asid.toNat + 1)) (s.storePlace u sl.wsets) (min (fieldAt r 0 8) 8) 1 (r.drop 64)
  let sl := { sl with regions := (open_.1.map (·.1)).reverse, log := recordsOf nlog 32 logOf open_.2 }
  let q := queuesOf (g.part_ 9 i)
  let hz := g.part_ 10 i
  let rows := rowsOf (g.part_ 4 i)
  let rows := if (g.part_ 4 i).isEmpty then [] else rows
  let stores := (open_.1.flatMap (·.2)).mapIdx fun k e => { e with seq := k + 1 }
  { slice := sl, work := (g.work i q.2.2).knows stores.length, full := true, tiles := BitVec.allOnes 32, rows := rows.map (·.r), present := rows.map (·.r)
    acc := rows.flatMap (·.slots), gallery := [], stores := stores
    cq := (q.1.mapIdx (thawCopy sl)).filterMap id, mq := (q.2.1.mapIdx (thawMat sl h)).filterMap id
    hq := ((recordsOf (min (fieldAt hz 8 8) (hz.length / 64)) 64 id (hz.drop 16)).mapIdx (thawHazel sl)).filterMap id
    pool := wordAt hz 0, mFault := none, hall := h, area := 0, areaLen := 0, accAt := 0 }

/-! The context. -/

/-- A launch instance of the image. Its successor stands in its kernel descriptor; it has released it when a slice of the image
follows it (log 15). -/
def State.thawInst (s : State) (g : Image) (u : Who) (vs : List Saved) (base : Nat) (n : Nat) : Inst :=
  let id := g.instOf base n
  let fresh := g.entries.filter fun e => e.1.getD 0 0 == 1 && fieldAt e.1 24 8 == n
  let mine := vs.filter fun v => v.slice.inst == id
  let kd := match mine with
    | v :: _ => v.slice.packet.kd
    | [] => (match fresh with | e :: _ => (Packet.ofBytes e.2).kd | [] => 0)
  let succ := match (s.deviceRead u [] kd 64).1 with | .ok d => wordAt d 48 | .error _ => 0
  let preds := (List.range g.slices).map fun i => (fieldAt (g.part_ 1 i) 248 8, fieldAt (g.part_ 1 i) 256 8)
  let pred := (preds.find? fun e => e.1 == n).map (·.2)
  { id := id, live := mine.length + fresh.length, asid := g.asid, part := g.part, succ := succ, released := preds.any fun e => e.2 == n
    wants := false, pred := pred.bind fun q => if g.insts.contains q then some (g.instOf base q) else none, ended := false, start := [], stamp := [] }

/-- A member of another module in a thawed group: the image does not tell which, and it is named by its first message (log 15). -/
def GMember.unnamed (arrived : Bool) : GMember := { slice := 0, index := 64, hall := 0, from_ := 0, arrived := arrived, absent := false }

/-- A group of the image with the members that its slices make, and those of other modules (R333). -/
def Image.group (g : Image) (self : Nat) (vs : List Saved) (e : Bytes) : Group :=
  let gid := fieldAt e 0 2
  let ph := fieldAt e 8 4
  let home := fieldAt e 3 1 % 2 == 1
  let sc : Scope := [Scope.strand, .hall, .storey, .device].getD (fieldAt e 2 1) .fabric
  let own : List GMember := ((List.range g.slices).zip vs).filterMap fun v =>
    ((groupSlots (g.part_ 1 v.1)).find? fun x => x.1 == gid).map fun x =>
      { slice := v.2.slice.id, index := self, hall := v.2.hall, from_ := if x.2.2 then ph + 1 else 0, arrived := x.2.1, absent := true }
  let here := (own.filter fun m => m.arrived && m.from_ ≤ ph).length
  let others := if home then (List.range (fieldAt e 4 2 - own.length)).map fun k => GMember.unnamed (k < fieldAt e 12 4 - here) else []
  let members := own ++ others
  { asid := g.asid, gid := gid, scope := sc, members := members, phase := ph, expected := fieldAt e 6 2, arrivals := fieldAt e 12 4
    stamp := [], prev := [], creatorHall := match members with | m :: _ => m.hall | [] => 0, home := home, homeAt := fieldAt e 3 1 / 2 }

/-- A saved slice of the image takes a save area, where one can be had. -/
def State.keepThawed (s : State) (v : Saved) : State :=
  match s.writeArea v with
  | none => { s with saved := s.saved ++ [v] }
  | some (v, s) => { s with saved := s.saved ++ [v] }

/-- The bindings of the image's slices count again, unless this device made the image and counts them still (R226, R419). -/
def State.rebind (s : State) (vs : List Saved) : State :=
  (vs.flatMap fun v => v.slice.wsets).foldl (fun s b =>
    match (List.range 256).find? fun i => let d := s.wsets[i]?.getD .free; d.state != 0 && d.set == b.1 && d.version == b.2 with
    | some i => let d := s.wsets[i]?.getD .free; { s with wsets := s.wsets.setIfInBounds i { d with binds := d.binds + 1 } }
    | none => s) s

/-- The galleries of the image are restored, in ascending order of position (R333, R266). -/
def State.thawGalleries (s : State) (g : Image) (c : Clock) : State :=
  let secs := (g.secs.filter fun x => x.ty == 11).mergeSort fun a b => a.owner ≤ b.owner
  let (k, s) := s.nextPub
  secs.foldl (fun s x =>
    let h := g.hallAt x.owner
    let w : Writer := { agent := .device, hall := h, asid := g.asid, part := g.part, scope := .device, pub := some k, num := 0, rmw := false,
                        rel := false, clock := c, host := false }
    let rows := recordsOf (x.bytes.length / 4240) 4240 savedRowOf x.bytes
    (rows.foldl (fun s r => s.restoreGroup h w r) s).restoredAges h rows) s

/-- A ready entry of the image enters the deque of its mapped Hall (R333). -/
def State.thawEntry (s : State) (g : Image) (base : Nat) (vs : List Saved) (e : Bytes × Bytes) : State :=
  let h := g.hallAt (e.1.getD 1 0).toNat
  let thief := (e.1.getD 3 0).getLsbD 0
  if e.1.getD 0 0 = 1 then
    let raw := g.packet s.devtime e.2
    let r := freshReady (Packet.ofBytes raw) raw (e.1.getD 2 0).toNat (g.instOf base (fieldAt e.1 24 8))
    s.mustDeliver g.part h g.asid { r with atThief := thief, late := g.wasLate e.2 }
  else match vs[fieldAt e.1 16 8]? with
    | some v => s.mustDeliver g.part h g.asid { v.ready false with atThief := thief }
    | none => s

/-- The context of an image resumes (R333). -/
def State.thawImage (s : State) (g : Image) (c : Clock) : State :=
  let super := (s.ctxNow g.part g.asid 0).getLsbD 1
  let u : Who := { hall := g.hallAt 0, asid := g.asid, part := g.part, super := super }
  let vs := (List.range g.slices).map (s.thawSaved g super)
  let base := s.nextInst
  let insts := g.insts.map (s.thawInst g u vs base)
  let iv := (g.head.drop 128).take 12
  let own := s.frozenIvs.contains iv
  let groups := (recordsOf ((sectionAt g.hallPart 15 0).length / 16) 16 id (sectionAt g.hallPart 15 0)).map
    (g.group (s.part g.part).fabIndex.toNat vs)
  let rows := (g.hallPart.filter fun x => x.ty == 4).map fun x => ({ hall := g.hallAt x.owner, asid := g.asid, rows := rowsOf x.bytes } : Thawed)
  let s := { s with
    nextSlice := s.nextSlice + g.slices, nextInst := base + g.insts.length, insts := s.insts ++ insts, groups := s.groups ++ groups
    thawed := s.thawed ++ rows, frozenIvs := s.frozenIvs.filter (· != iv) }
  let s := s.onCtx g.asid fun _ => Ctx.none g.asid
  let s := (vs.foldl State.keepThawed (s.thawGalleries g c))
  let s := if own then s else s.rebind vs
  let s := g.entries.foldl (fun s e => s.thawEntry g base vs e) s
  let listed := fun (i : Nat) => g.entries.any fun e => e.1.getD 0 0 != 1 && fieldAt e.1 16 8 == i
  ((vs.mapIdx fun i v => (i, v)).filter fun e => !listed e.1).foldl (fun s e => s.mustDeliver g.part e.2.hall g.asid (e.2.ready false)) s

/-! The checks (R228, R332). -/

/-- An ASID cannot be given to a thawed context (R228, R383). -/
def State.asidTaken (s : State) (p : PartId) (asid : Asid) : Bool :=
  let runs := (List.range 256).any fun h => match (s.hall (BitVec.ofNat 8 h)).slice with | some sl => sl.asid == asid | none => false
  !s.ctxValid p asid || s.superAsid p == some asid || runs || (s.saved.any fun v => v.slice.asid == asid) || !(s.contextReady p asid).isEmpty ||
    (s.insts.any fun i => i.asid == asid && !i.ended) || (s.ctx asid).freezing.isSome

/-- An image is opened: its plain text from offset 256 on, or the code of the first check that fails. -/
def State.openImage (s : State) (head cipher : Bytes) (p : PartId) (asid : Asid) : Except Nat Bytes :=
  match s.imageKeys.find? fun k => k.1 == (head.drop 160).take 32 with
  | none => .error 9
  | some k =>
    match gcmOpen k.2 ((head.drop 128).take 12) (head.take 128 ++ (head.drop 160).take 96) cipher ((head.drop 144).take 16) with
    | none => .error 9
    | some body =>
      if fitTo 64 (shake256 body 64) ≠ (head.drop 64).take 64 then .error 9
      else if head.take 8 ≠ [0x4E, 0x45, 0x4C, 0x49, 0x4D, 0x41, 0x47, 0x45] ∨ fieldAt head 8 2 ≠ 1 then .error 10
      else if fieldAt head 16 4 ≠ 0x00010003 then .error 11
      else if s.asidTaken p asid then .error 12
      else .ok body

/-- The code of a fault that the device meets when it reads an image: 3 for a translation; 9, that of an image whose seal does not hold, for data that
cannot be read, for which R228 names no code (DESIGN CHOICE, log 57). -/
def readCode (t : TrapInfo) : Nat := if t.cause = .EXPIRED ∨ t.cause = .INTEGRITY then 9 else 3

/-- THAW with its operands: the code with which it ends, 0 when the context resumes. -/
def State.thawAt (s : State) (img : Word) (asid : Asid) : Nat × State :=
  let u := s.mine
  match s.deviceRead u s.here.binds img 256 with
  | (.error t, s) => (readCode t, s)
  | (.ok head, s) =>
    let len := fieldAt head 24 8
    if len < 256 then (9, s)
    else if !s.reaches u false img.toNat len then (3, s)
    else match s.deviceRead u s.here.binds (img + 256) (len - 256) with
      | (.error t, s) => (readCode t, s)
      | (.ok cipher, s) =>
        match s.openImage head cipher u.part asid with
        | .error code => (code, s)
        | .ok body =>
          let g : Image := { head := head, secs := sectionsOf (head ++ body), asid := asid, part := u.part, halls := maskHalls (s.part u.part).halls }
          (0, s.thawImage g s.known)

/-- THAW (R228). The cursor of its completion word is an open value. With d = 0, to which R228 gives no meaning, it writes no completion word (DESIGN
CHOICE, log 56). -/
def execThaw (d a b : BitVec 6) (s : State) : Out :=
  .next (if !s.superMode then s.trapCause .PRIV
    else s.outsideRegions fun s => s.reading [.s d.toNat, .s a.toNat, .s b.toNat] fun s =>
      let cw := s.rs d
      let img := s.rs a
      let asid : Asid := (s.rs b).setWidth 12
      if d = 0 then (s.thawAt img asid).2.issue
      else s.withBytes (wantSystemWrite 8) 8 cw 8 fun _ s =>
        let (code, s) := s.thawAt img asid
        let cur := (Config.value s.free).toNat % 2 ^ 48
        (({ s with free := s.free + 1 }).systemWord s.mine cw cur code (if code = 0 then 1 else 2) s.known).issue)

end Sys2Proof.Machine
end

