-- ==== Sys2Proof/Machine/Select.lean ====
section
/-! DEFINITION. Scheduling on a Hall (R303 to R308, R310, R314): the selection of the next slice, deadlines, steals, the return of spilled
entries, the checkpoint window, the budget, and threshold windows (R93). -/

namespace Sys2Proof.Machine

/-! Selection (R304). -/

/-- The context of a record is being frozen: none of its slices starts (R324). -/
def State.heldBack (s : State) (r : Ready) : Bool :=
  match s.readyAsid r with | some a => (s.ctx a).freezing.isSome | none => true

/-- A Hall can run a saved slice: the undo pool holds what its regions reserve (R354). -/
def State.fitsHall (s : State) (h : HallId) (r : Ready) : Bool :=
  match r.what with
  | .fresh _ _ _ _ => true
  | .saved id => match s.saved.find? fun (v : Saved) => v.slice.id == id with
    | some v => v.slice.regions.isEmpty || v.slice.poolUsed ≤ (s.hall h).poolSize * 0x40000
    | none => false

/-- A record leaves a Hall's deque. -/
def State.takeRecord (s : State) (h : HallId) (r : Ready) : State :=
  s.onHall h fun H => { H with deque := H.deque.filter fun x => x.seq != r.seq }

/-- A fresh record starts (R300); accumulator rows of a thawed context are filled first (R333). -/
def State.startRecord (s : State) (h : HallId) (p : PartId) (pk : Packet) (raw : Bytes) (rank : Byte) (inst : Nat) (late : Bool) : State :=
  let s := (s.startSlice h p pk raw rank inst).onHall h (Hall.onSlice · fun sl => { sl with late := late })
  if (s.hall h).slice.isNone then s
  else
    let (rows, s) := s.takeThawed h pk.asid
    if rows.isEmpty then s else s.beginFills h rows

/-- The start of a fresh record would be refused, and its event finds no room (R298, R400). -/
def State.refusalWaits (s : State) (h : HallId) (p : PartId) (r : Ready) : Bool :=
  match r.what with
  | .fresh pk _ _ _ => !s.evRoom p && (match (s.readKd (s.whoIs h p pk.asid) pk.kd).1 with | .error _ => true | .ok _ => false)
  | .saved _ => false

/-- A free Hall takes its next slice (R304). -/
def State.selectNext (s : State) (h : HallId) : State :=
  let H := s.hall h
  match H.slice, H.part with
  | none, some p =>
    if !s.running then s
    else match H.deque.find? fun r => !s.heldBack r && s.fitsHall h r with
      | none => s
      | some r =>
        if s.refusalWaits h p r then s
        else
        let s := s.takeRecord h r
        let s : State := match r.what with
          | .fresh pk raw rank inst => s.startRecord h p pk raw rank inst r.late
          | .saved id => match s.saved.find? fun (v : Saved) => v.slice.id == id with
            | some v => s.resumeSlice h v r.late
            | none => s
        s.retrySuccs p
  | _, _ => s

/-- SLICE_SELECT (R304). -/
def execSliceSelect (h : HallId) (s : State) : Out := .next (s.selectNext h)

/-! Deadlines (R304). -/

/-- A record's deadline has passed and its interrupt is still to be raised. -/
def Ready.overdue (r : Ready) (now : Nat) : Bool := !r.late && (match r.deadline with | some d => d < now | none => false)

/-- DEADLINE_PASSED (R304): the partition's host interrupt, once for each slice; the slice keeps its place. -/
def State.deadlines (s : State) (h : HallId) : State :=
  let now := s.devtime
  match (s.hall h).part with
  | none => s
  | some p =>
    let tell := fun (s : State) (r : Ready) => match s.readyAsid r with | some a => s.interrupt p h.toNat a 4 | none => s
    let mark := fun (r : Ready) => if r.overdue now then { r with late := true } else r
    let s := match (s.hall h).slice with
      | some sl =>
        if !sl.late && sl.packet.passed now then (s.interrupt p h.toNat sl.asid 4).onHall h (Hall.onSlice · fun sl => { sl with late := true }) else s
      | none => s
    let s := ((s.hall h).deque.filter fun r => r.overdue now).foldl tell s
    let s := (((s.part p).spilled.filter fun e => e.hall == h && !e.taken && e.rec_.overdue now).map (·.rec_)).foldl tell s
    let s := (((s.part p).waiting.filter fun e => e.1 == h && e.2.overdue now).map (·.2)).foldl tell s
    (s.onHall h fun H => { H with deque := H.deque.map mark }).onPart p fun P =>
      { P with spilled := P.spilled.map fun e => if e.hall = h then { e with rec_ := mark e.rec_ } else e
               waiting := P.waiting.map fun e => if e.1 = h then (e.1, mark e.2) else e }

/-- DEADLINE_PASSED (R304). -/
def execDeadlinePassed (h : HallId) (s : State) : Out := .next (s.deadlines h)

/-! Steals (R306 to R308). -/

/-- The victims of a Hall, in the order in which it asks them (R306). -/
def State.victims (s : State) (h : HallId) : List HallId :=
  match (s.hall h).part with
  | none => []
  | some p =>
    let n := h.toNat
    let row := n / 32 * 32
    let near := [row + (n + 1) % 32, row + (n + 31) % 32]
    let far := [1, 2, 3].map fun d => n / 128 * 128 + (n / 32 % 4 + d) % 4 * 32 + n % 32
    ((near ++ far).filter fun v => (s.part p).halls.getLsbD v).map (BitVec.ofNat 8)

/-- A Hall has nothing to run (R306). -/
def State.idle (s : State) (h : HallId) : Bool :=
  let H := s.hall h
  match H.part with
  | none => false
  | some p => s.running && H.slice.isNone && H.deque.isEmpty && !((s.part p).spilled.any fun e => e.hall == h && !e.taken)

/-- STEAL_REQUEST (R306): an idle Hall asks its next victim. -/
def State.askVictim (s : State) (h : HallId) : State :=
  let H := s.hall h
  let due := match H.stealAt with | some t => t ≤ H.cycle | none => false
  if s.idle h && due && !H.asking && H.stealIdx < (s.victims h).length then s.onHall h fun H => { H with asking := true } else s

/-- STEAL_REQUEST (R306). -/
def execStealRequest (h : HallId) (s : State) : Out := .next (s.askVictim h)

/-- A record that a steal may take (R306, R322, R394): none of a deadline, of the supervisor slice, or with pinned rows. -/
def State.stealable (s : State) (p : PartId) (r : Ready) : Bool :=
  r.deadline.isNone && !s.heldBack r &&
    (match r.what with
      | .fresh _ _ _ _ => true
      | .saved id =>
        (s.part p).supSlice != some id &&
          (match s.saved.find? fun (v : Saved) => v.slice.id == id with | some v => v.rows.all v.present.contains | none => false))

/-- The record that a victim gives: at the thief end of its highest-priority deque that holds one. -/
def State.spare (s : State) (p : PartId) (victim : HallId) : Option Ready :=
  let rs := (s.hall victim).deque.filter (s.stealable p)
  match rs with
  | [] => none
  | r :: _ => (rs.filter fun x => x.prio == r.prio).getLast?

/-- A running bulk slice can be split (R217, R306, R308, R393, R394). -/
def Hall.splittable (H : Hall) : Option Slice :=
  match H.slice with
  | none => none
  | some sl =>
    if sl.packet.deadlineKind || sl.supervisor || H.switch.isSome || H.trap.isSome || (sl.hi - sl.lo).toNat < 2 then none else some sl

/-- The fresh record of the upper part of a range (R217, R307). -/
def Slice.splitOff (sl : Slice) : Word × Ready :=
  let mid := sl.lo + BitVec.ofNat 64 (((sl.hi - sl.lo).toNat + 1) / 2)
  let raw := patch (patch sl.raw 16 (leBytes 8 mid.toNat)) 24 (leBytes 8 sl.hi.toNat)
  (mid, freshReady (Packet.ofBytes raw) raw sl.rank.toNat sl.inst)

/-- A stolen record enters the thief's deque (R303). -/
def State.giveTo (s : State) (thief : HallId) (r : Ready) : State :=
  s.onHall thief fun H =>
    { H with deque := enterReady { r with seq := H.recSeq, atThief := false } H.deque, recSeq := H.recSeq + 1, asking := false, stealIdx := 0, stealAt := some H.cycle }

/-- A victim refuses: the thief asks the next one, or waits 256 Hall cycles after the last (R306). -/
def State.refuse (s : State) (thief : HallId) : State :=
  let n := (s.victims thief).length
  s.onHall thief fun H =>
    { H with asking := false, stealIdx := H.stealIdx + 1, stealAt := some (if n ≤ H.stealIdx + 1 then H.cycle + 256 else H.cycle) }

/-- STEAL_SERVE (R306, R307): the victim gives a record, or splits its range, or refuses. A thief that has found work meanwhile takes
nothing. -/
def State.serve (s : State) (victim thief : HallId) : State :=
  let T := s.hall thief
  if !T.asking || (s.victims thief)[T.stealIdx]? != some victim then s
  else if !s.idle thief then s.onHall thief fun H => { H with asking := false, stealIdx := 0 }
  else match (s.hall victim).part with
    | none => s.refuse thief
    | some p =>
      match s.spare p victim with
      | some r => ((s.takeRecord victim r).giveTo thief r).retrySuccs p
      | none =>
        match (s.hall victim).splittable with
        | none => s.refuse thief
        | some sl =>
          if (s.ctx sl.asid).freezing.isSome then s.refuse thief
          else
            let (mid, r) := sl.splitOff
            let s := s.onHall victim (Hall.onSlice · fun x => { x with hi := mid })
            (s.onInst sl.inst fun i => { i with live := i.live + 1 }).giveTo thief r

/-- STEAL_SERVE (R306). -/
def execStealServe (victim thief : HallId) (s : State) : Out := .next (s.serve victim thief)

/-- STEAL_RETRY_WAIT (R306): 256 Hall cycles after the last refusal the round begins again. -/
def State.retrySteal (s : State) (h : HallId) : State :=
  let H := s.hall h
  let due := match H.stealAt with | some t => t ≤ H.cycle | none => false
  if due && !H.asking && (s.victims h).length ≤ H.stealIdx && 0 < H.stealIdx then s.onHall h fun H => { H with stealIdx := 0 } else s

/-- STEAL_RETRY_WAIT (R306). -/
def execStealRetryWait (h : HallId) (s : State) : Out := .next (s.retrySteal h)

/-! The return of spilled entries (R310). -/

/-- A record that waits for a place at a Hall takes one (log 18). -/
def State.placeWaiting (s : State) (h : HallId) (p : PartId) : State :=
  match (s.part p).waiting.find? fun e => e.1 == h with
  | none => s
  | some e =>
    match s.deliver p h e.2 with
    | .ok t => t.onPart p fun P => { P with waiting := P.waiting.erase e }
    | .error _ => s

/-- SPILL_ENTRY_RETURN (R310): a Hall with room takes its oldest spilled entry back. -/
def State.unspill (s : State) (h : HallId) : State :=
  let H := s.hall h
  match H.part with
  | none => s
  | some p =>
    if 64 ≤ H.deque.length then s
    else match (s.part p).spilled.find? fun e => e.hall == h && !e.taken with
      | none => s.placeWaiting h p
      | some e =>
        let s := s.onHall h (Hall.enter · e.rec_)
        (s.onPart p fun P =>
          Part.advanceHead { P with spilled := P.spilled.map fun x => if x.at_ = e.at_ then { x with taken := true } else x }).retrySuccs p

/-- SPILL_ENTRY_RETURN (R310). -/
def execSpillEntryReturn (h : HallId) (s : State) : Out := .next (s.unspill h)

/-! The checkpoint window, the budget, threshold windows. -/

/-- CHECKPOINT_WINDOW_EXPIRY (R314): a full save is made, unless a trap has the slice stopped. -/
def State.windowExpires (s : State) (h : HallId) : State :=
  let H := s.hall h
  match H.preempt with
  | none => s
  | some e =>
    if e.policy = Policy.checkpoint ∧ !e.asked ∧ e.left = 0 ∧ H.trap.isNone ∧ H.switch.isNone then s.beginLeave h .full [] 0 [] else s

/-- CHECKPOINT_WINDOW_EXPIRY (R314). -/
def execCheckpointWindowExpiry (h : HallId) (s : State) : Out := .next (s.windowExpires h)

/-- SLICE.LEFT counts in this Hall cycle (R305): up to the one in which a trap is raised (R392). -/
def Hall.charging (H : Hall) : Bool :=
  let running := match H.trap with | some t => t.cycle == H.cycle | none => true
  match H.slice with
  | none => false
  | some sl => !sl.waitPred && !sl.ending && running && H.switch.isNone && H.restore == .off

/-- BUDGET (R305): SLICE.LEFT has reached 0. -/
def State.overBudget (s : State) (h : HallId) : State :=
  let H := s.hall h
  match H.slice with
  | some sl => if sl.left = 0 ∧ H.trap.isNone ∧ H.charging then s.raise h .S { cause := .BUDGET } else s
  | none => s

/-- BUDGET (R305). -/
def execBudget (h : HallId) (s : State) : Out := .next (s.overBudget h)

/-- THRESHOLD_WINDOW_END (R93): the window of a class is over and the next one begins. Windows are counted from the slice's first cycle, so
they end at the multiples of their length, whenever WIN was written. -/
def State.endWindow (s : State) (h : HallId) (k : Nat) : State :=
  s.onHall h (Hall.onSlice · fun sl =>
    match sl.thresh[k]? with
    | none => sl
    | some t =>
      if t.win ≠ 0 ∧ t.pos % (t.win.toNat * 1024) = 0 ∧ t.from_ < t.pos then
        { sl with thresh := sl.thresh.setIfInBounds k { t with from_ := t.pos, count := 0, crossed := false } }
      else sl)

/-- THRESHOLD_WINDOW_END (R93). -/
def execThresholdWindowEnd (h : HallId) (cls : BitVec 2) (s : State) : Out := .next (s.endWindow h cls.toNat)

end Sys2Proof.Machine
end

