-- ==== Sys2Proof/Machine/Service.lean ====
section
/-! DEFINITION. What the device does for the supervisor and through it: trap records (R392, R394, R395, R397), translation walks and
invalidations (R387 to R390), and the writes and reads of a control window as steps of their own. -/

namespace Sys2Proof.Machine

/-! Trap records. -/

/-- No landing slot of the Hall's strands is outstanding. -/
def Hall.drained (H : Hall) : Bool := ring.all fun st => (H.work.strand st).slots.isEmpty

/-- The strands have taken their last turns before the stop that a trap raised in a Hall cycle makes (R392). -/
def Hall.stoppedSince (H : Hall) (t : Trapped) : Bool := t.cycle < H.cycle || (t.cycle == H.cycle && H.phase == .finish)

/-- TRAP_RECORD_COMPLETE (R392): the strands have stopped and the last slot has drained. -/
def State.recordDone (s : State) (h : HallId) : State :=
  let H := s.hall h
  match H.trap with
  | some t => if !t.complete ∧ H.stoppedSince t ∧ H.drained ∧ H.back.isNone then s.onHall h fun H => { H with trap := some { t with complete := true } } else s
  | none => s

/-- TRAP_RECORD_COMPLETE (R392). -/
def execTrapRecordComplete (h : HallId) (s : State) : Out := .next (s.recordDone h)

/-- The causes whose DETAIL stands in the record (R395). -/
def Cause.hasDetail (c : Cause) : Bool :=
  match c with
  | .XLATE | .PROT | .EXPIRED | .INTEGRITY | .MACHINE_CHECK => true
  | .ILLEGAL | .PRIV | .ALIGN | .SPILL_FULL | .BAR_OVERRUN | .BAR_TIMEOUT | .STALL_SHORT | .BUDGET | .ACC_FOREIGN | .ARITH | .QUEUE_STALL
  | .REGION_LIMIT | .BREAK => false

/-- A strand holds a recorded request: its RQ bit (R395). -/
def Work.rq (W : Work) : Nat := (ring.map fun st => if (W.strand st).replay.isEmpty then 0 else 2 ^ (4 + strandCode st)).sum

/-- The eight trap registers of a stopped slice (R395). -/
def trapRecord (h : HallId) (H : Hall) (sl : Slice) (t : Trapped) : TrapRec :=
  let i := t.info
  let st := if i.cause = .BUDGET then 0 else strandCode t.strand
  let detail := if i.cause.hasDetail then i.detail % 256 else 0
  let low := if i.cause = .ACC_FOREIGN then i.row % 512 + 2 ^ 9 * (i.rows % 1024) else i.data.toNat % 2 ^ 32
  let high := if i.cause = .ACC_FOREIGN then 0 else i.data.toNat / 2 ^ 32
  let rq := H.work.rq
  { cause := BitVec.ofNat 64 (causeCode i.cause + 2 ^ 8 * st + 2 ^ 10 * accessCode i.access + 2 ^ 13 * (i.width % 8) + 2 ^ 16 * detail)
    pcs := #v[H.work.S.pc, H.work.L.pc, H.work.M.pc, H.work.V.pc]
    addr := i.addr
    info := BitVec.ofNat 64 ((if rq = 0 then 0 else 1) + rq + 2 ^ 16 * i.code.toNat + 2 ^ 32 * low)
    ctx := BitVec.ofNat 64 (sl.asid.toNat + 2 ^ 12 * h.toNat + 2 ^ 20 * sl.part.toNat + 2 ^ 32 * high)
    hall := h }

/-- The bytes of a record. -/
def TrapRec.bytes (r : TrapRec) : Bytes := words ([r.cause] ++ r.pcs.toList ++ [r.addr, r.info, r.ctx] |>.map (·.toNat))

/-- TRAP_QUEUE_ENTRY (R394, R397): a complete record enters the partition's trap queue, or waits while it is full; a trap in the supervisor
slice interrupts the host instead. -/
def State.enterTrap (s : State) (h : HallId) : State :=
  let H := s.hall h
  match H.trap, H.slice with
  | some t, some sl =>
    if !t.complete || t.queued then s
    else
      let r := trapRecord h H sl t
      let mark := fun (s : State) (t : Trapped) => s.onHall h fun H => { H with trap := some t }
      if sl.supervisor then
        ((mark s { t with queued := true }).onPart sl.part fun P => { P with supStopped := true }).send
          (.interruptToHost (sl.part.setWidth 8) 2 r.bytes)
      else if 64 ≤ (s.part sl.part).trapq.length then
        if t.told then s else (mark s { t with told := true }).interrupt sl.part h.toNat sl.asid 5
      else ((mark s { t with queued := true }).onPart sl.part fun P => { P with trapq := P.trapq ++ [r] }).postSuper sl.part 31
  | _, _ => s

/-- TRAP_QUEUE_ENTRY (R394). -/
def execTrapQueueEntry (h : HallId) (s : State) : Out := .next (s.enterTrap h)

/-! Walks. -/

/-- The last n entries of a list. -/
def lastN {α : Type} (n : Nat) (l : List α) : List α := l.drop (l.length - n)

/-- A translation is installed in a Hall's caches (R387). -/
def Hall.install (H : Hall) (asid : Asid) (t : Trans) : Hall :=
  if t.page then
    { H with pages := lastN 256 (H.pages ++ [{ asid := asid, vbase := t.vbase, vend := t.vend, pbase := t.pbase, r := t.r, w := t.w, x := t.x }]) }
  else
    { H with ranges := lastN 16 (H.ranges ++
        [{ asid := asid, vbase := t.vbase, vend := t.vend, pbase := t.pbase, off := t.off, r := t.r, w := t.w, x := t.x, wset := t.wset }]) }

/-- WALK_COMPLETE (R387, R388, R390): the translation is installed; a fault is given to every request, or held for the supervisor. A walk that cannot
raise its event keeps its walker and tries again a Hall cycle at B0 later (R400). -/
def State.endWalk (s : State) (id : Nat) : State :=
  match s.walks.find? fun w => w.id == id && (match w.endsAt with | some t => t ≤ s.tick | none => false) with
  | none => s
  | some w =>
    let drop := fun (s : State) => { s with walks := s.walks.filter fun x => x.id != id }
    let s : State := match s.tableWalk w.part w.asid w.addr with
      | .ok t => w.halls.foldl (fun s h => s.onHall h (Hall.install · w.asid t)) (drop s)
      | .error t =>
        if s.hosted w.part then
          match s.holdWalk w t with
          | some s => s
          | none => { s with walks := s.walks.map fun x => if x.id = id then { x with endsAt := some (s.tick + 3960) } else x }
        else (drop s).giveFault w.halls w.asid w.addr t
    s.nextWalker w.plinth

/-- WALK_COMPLETE (R387). -/
def execWalkComplete (id : Nat) (s : State) : Out := .next (s.endWalk id)

/-- Nothing is left that could use an old translation (R389). -/
def State.xinvReady (s : State) (x : Xinv) : Bool :=
  !(s.walks.any fun w => w.asid == x.asid && w.id < x.walks && w.endsAt.isSome) &&
    x.cmds.all fun c => !((s.hall c.1).mq.any fun m => m.id == c.2)

/-- The matrix commands of a context's switched-out slices drop the translations that they hold: they are translated anew when their slice resumes
(DESIGN CHOICE, log 59). -/
def State.dropPages (s : State) (asid : Asid) : State :=
  { s with saved := s.saved.map fun v => { v with mq := v.mq.map fun c => if c.asid = asid then { c with pages := [] } else c } }

/-- INVALIDATION_COMPLETE (R389): the caches have dropped the named entries and BUSY clears. -/
def State.endXinv (s : State) (p : PartId) : State :=
  match (s.part p).xinv with
  | none => s
  | some x =>
    if s.xinvReady x then
      let drop : Hall → Hall := fun H =>
        { H with ranges := if x.what = 2 then H.ranges else H.ranges.filter fun e => e.asid != x.asid
                 pages := if x.what = 1 then H.pages else H.pages.filter fun e => e.asid != x.asid }
      (((maskHalls (s.part p).halls).foldl (fun s h => s.onHall h drop) s).dropPages x.asid).onPart p fun P => { P.adopt x.recs with xinv := none }
    else s

/-- INVALIDATION_COMPLETE (R389). -/
def execInvalidationComplete (p : PartId) (s : State) : Out := .next (s.endXinv p)

/-! The control window as steps. -/

/-- PART_XINV (R389). -/
def execPartXinv (p : PartId) (v : Word) (s : State) : Out := .next (s.xinvStart p v)
/-- XSVC_WALK_AGAIN (R390). -/
def execXsvcWalkAgain (p : PartId) (tag : Byte) (s : State) : Out := .next (s.walkAgain p tag.toNat)
/-- XSVC_FAIL (R390). -/
def execXsvcFail (p : PartId) (tag : Byte) (s : State) : Out := .next (s.walkFail p tag.toNat)
/-- PART_EVQ_READ (R400). -/
def execPartEvqRead (p : PartId) (s : State) : Out := .next (s.takeEvq p).2
/-- SPILL_BASE_WRITE (R309). -/
def execSpillBaseWrite (p : PartId) (v : Word) (s : State) : Out := .next (s.writeSpillBase p v)
/-- CONTROL_REGISTER_WRITE (R302). -/
def execControlRegisterWrite (p : PartId) (off : BitVec 24) (v : Word) (s : State) : Out := .next (s.cwStore p off.toNat v)
/-- PREDEC_DRAIN (R313). -/
def execPredecDrain (p : PartId) (h : HallId) (s : State) : Out := .next (s.predec p h (some .drain))
/-- PREDEC_CHECKPOINT (R313). -/
def execPredecCheckpoint (p : PartId) (h : HallId) (s : State) : Out := .next (s.predec p h (some .checkpoint))
/-- PREDEC_KILL (R313). -/
def execPredecKill (p : PartId) (h : HallId) (s : State) : Out := .next (s.predec p h (some .kill))
/-- PREDEC_CANCEL (R313). -/
def execPredecCancel (p : PartId) (h : HallId) (s : State) : Out := .next (s.predec p h none)

end Sys2Proof.Machine
end

