-- ==== Sys2Proof/Machine/Manage.lean ====
section
/-! DEFINITION. Management messages (R410, R418 to R426): the life cycle, attestation, partitions, weight sets, the safe tier,
the supervisor, and image keys. -/

namespace Sys2Proof.Machine

/-- Reason codes of a refused management message (R410). -/
inductive Reason where | subtype | life | signature | seq | body | busy
  deriving DecidableEq, Repr

/-- The code of a reason. -/
def Reason.code : Reason → Nat
  | .subtype => 1 | .life => 2 | .signature => 3 | .seq => 4 | .body => 5 | .busy => 6

/-- A management message is refused: the answer goes to the host (R410). -/
def State.decline (s : State) (tag : BitVec 16) (r : Reason) : State := s.refuseWith 0 tag r.code

/-- The message is allowed in the current life-cycle state. -/
def State.inLife (s : State) (tag : BitVec 16) (ok : List Life) (k : State → State) : State :=
  if ok.contains s.life then k s else s.decline tag .life

/-! Life cycle (R422). -/

/-- A life-cycle state by its number. -/
def cycleOf (n : BitVec 2) : Life :=
  if n = 0 then .MANUFACTURE else if n = 1 then .PROVISIONED else if n = 2 then .DEPLOYED else .RETURNED
/-- The number of a life-cycle state (R423). -/
def lifeCode : Life → Nat
  | .MANUFACTURE => 0 | .PROVISIONED => 1 | .DEPLOYED => 2 | .RETURNED => 3

/-- The digest of the key that the current state names (R422). -/
def State.keyDigest (s : State) : Bytes :=
  match s.life with
  | .MANUFACTURE => Config.vendorDigest | .RETURNED => Config.vendorDigest
  | .PROVISIONED => s.operatorDigest | .DEPLOYED => s.operatorDigest

/-- The device identity key pair (R423). -/
def identityPair : SlhKey :=
  let d := fitTo 96 Config.identitySeeds
  slhPublic (d.take 32) ((d.drop 32).take 32) (d.drop 64)
/-- The device identity public key (R410, R423). -/
def identityKey : Bytes := identityPair.pkSeed ++ identityPair.pkRoot

/-- What the signature of a signed message covers (R410). -/
def signedText (sub : Nat) (seq : Word) (body : Bytes) : Bytes :=
  leBytes 2 sub ++ leBytes 8 seq.toNat ++ shake256 identityKey 64 ++ body

/-- A transition (R422): every memory is wiped, every partition key is new, the image keys are gone. -/
def State.transition (s : State) (l : Life) (digest secret : Bytes) : State :=
  let s := { s.wipeAll.allKeys with life := l, imageKeys := [], keyNonce := [], peerNonce := [] }
  if l = .PROVISIONED then { s with operatorDigest := digest, fleetSecret := secret } else s

/-- LCSTATE (R410, R422). One that names the present state is carried out and changes nothing (DESIGN CHOICE, log 41). -/
def execLcstate (tag : BitVec 16) (target : BitVec 2) (seq : Word) (digest secret key sig : Bytes) (s : State) : Out :=
  let l := cycleOf target
  .next (if !signedOk s.keyDigest (signedText 1 seq (lcBody target digest secret)) key sig then s.decline tag .signature
    else if seq ≤ s.mgmtSeq then s.decline tag .seq
    else if key.length ≠ keyBytes ∨ sig.length ≠ sigBytes ∨ (target = 1 ∧ (digest.length ≠ 64 ∨ secret.length ≠ 32)) then s.decline tag .body
    else
      let s := { s with mgmtSeq := seq }
      (if l = s.life then s else s.transition l digest secret).answer 0 tag 0)

/-! Attestation (R423). -/

/-- An attestation report over a nonce; more is signed with it for a key exchange (R423, R424; log 5). -/
def State.report (s : State) (nonce more : Bytes) : Bytes :=
  let head := [0x4E, 0x45, 0x4C, 0x41, 0x54, 0x54, 0x53, 0x54] ++ leBytes 1 (lifeCode s.life) ++ zeros 7 ++ s.measure ++ nonce ++
    shake256 identityKey 64
  head ++ slhSign identityPair (head ++ more) (fitTo 32 (Config.random (2 ^ 64 + s.free) 32))

/-- Data goes back as bulk data before the response, which holds its length (R410). -/
def State.returnData (s : State) (tag : BitVec 16) (d : Bytes) : State := (s.sendBulk 0 tag d).answer 0 tag (BitVec.ofNat 64 d.length)

/-- ATTEST (R410, R423). -/
def execAttest (tag : BitVec 16) (nonce : Bytes) (s : State) : Out :=
  .next (if nonce.length ≠ 64 then s.decline tag .body else s.returnData tag (s.report nonce []))

/-! Partitions (R410, R425, R426). -/

/-- A Hall holds work of a partition other than p: it cannot pass to p now. -/
def Hall.heldFrom (H : Hall) (p : PartId) : Bool := H.part != some p && (H.slice.isSome || !H.deque.isEmpty)

/-- What a partition keeps when resources pass to another. -/
def Part.lose (P : Part) (halls : BitVec 256) (hbm : BitVec 64) (asids : BitVec 4096) : Part :=
  { P with
    halls := P.halls &&& ~~~halls, hbm := P.hbm &&& ~~~hbm, asids := P.asids &&& ~~~asids
    ctxRecs := P.ctxRecs.filter fun e => !asids.getLsbD (e.1 / 8), ctxUsed := P.ctxUsed.filter fun e => !asids.getLsbD (e.1 / 8) }

/-- A Hall passes to a partition: its gallery is wiped when it was another's or no one's (R264). -/
def State.giveHall (s : State) (p : PartId) (h : HallId) : State :=
  if (s.hall h).part = some p then s
  else (s.wipeGallery h).onHall h fun H => { H with part := some p, lastAsid := none }

/-- A pseudo-channel group passes to a partition: it is wiped when it was another's or no one's (R425). -/
def State.giveGroup (s : State) (p : PartId) (g : Nat) : State :=
  if (s.part p).hbm.getLsbD g then s else s.scrub (g * 0x180000000) ((g + 1) * 0x180000000)

/-- The resources named pass to the partition (R410, R425). -/
def State.assign (s : State) (p : PartId) (halls : BitVec 256) (hbm : BitVec 64) (asids : BitVec 4096) : State :=
  let s := (maskHalls halls).foldl (fun s h => s.giveHall p h) s
  let s := ((List.range 64).filter hbm.getLsbD).foldl (fun s g => s.giveGroup p g) s
  let fresh := !(s.part p).present
  let others := (List.range 16).filter (· != p.toNat)
  let s := others.foldl (fun s q => s.onPart (BitVec.ofNat 4 q) (·.lose halls hbm asids)) s
  let s := s.onPart p fun P => { P with present := true, halls := P.halls ||| halls, hbm := P.hbm ||| hbm, asids := P.asids ||| asids }
  if fresh then s.newKeys p else s

/-- ASSIGN (R410). Busy: a Hall named holds work of another partition (DESIGN CHOICE, log 41). -/
def execAssign (tag : BitVec 16) (p : PartId) (halls : BitVec 256) (hbm : BitVec 64) (asids : BitVec 4096) (s : State) : Out :=
  .next (s.inLife tag [.PROVISIONED, .DEPLOYED] fun s =>
    if (maskHalls halls).any fun h => (s.hall h).heldFrom p then s.decline tag .busy
    else (s.assign p halls hbm asids).answer 0 tag 0)

/-- MODID (R410). -/
def execModid (tag id : BitVec 16) (s : State) : Out :=
  .next (s.inLife tag [.PROVISIONED] fun s => { s with modid := id }.answer 0 tag 0)

/-! Weight sets (R418, R419). -/

/-- The shard entries of a descriptor: START, END, member INDEX. -/
def shardsOf : Nat → Bytes → List (Word × Word × Nat)
  | 0, _ => []
  | n + 1, d =>
    if d.length < 16 then []
    else (wordAt d 0, (wordAt d 8).extractLsb' 0 48 |>.setWidth 64, ((wordAt d 8).toNat / 2 ^ 48) % 256) :: shardsOf n (d.drop 16)

/-- A descriptor from its 64 bytes and its shard entries (R418); none when it is malformed. -/
def wsetOfBytes (d shards : Bytes) : Option WSet :=
  let n := (wordAt d 56).toNat % 2 ^ 32
  let set : BitVec 32 := (wordAt d 0).setWidth 32
  let version : BitVec 32 := (wordAt d 0).extractLsb' 32 32
  if d.length ≠ 64 ∨ version = 0 ∨ (wordAt d 8).toNat % 65536 ≠ 0 ∨ (wordAt d 40).toNat / 2 ^ 16 ≠ 0 ∨
      (wordAt d 56).toNat / 2 ^ 32 ≠ 0 ∨ shards.length ≠ 16 * n then none
  else some { set := set, version := version, hbase := wordAt d 8, hlen := wordAt d 16, ubase := wordAt d 24, len := wordAt d 32,
              parts := (wordAt d 40).setWidth 16, state := 0, binds := 0, shardsAt := wordAt d 48, shards := shardsOf n shards }

/-- WSDESC (R410, R418). A descriptor in use cannot be written (R419; busy: log 41). -/
def execWsdesc (tag : BitVec 16) (idx : BitVec 8) (desc shards : Bytes) (s : State) : Out :=
  .next (s.inLife tag [.DEPLOYED] fun s =>
    match wsetOfBytes desc shards with
    | none => s.decline tag .body
    | some d =>
      if (s.wsets[idx.toNat]?.getD .free).state ≠ 0 then s.decline tag .busy
      else { s with wsets := s.wsets.setIfInBounds idx.toNat d }.answer 0 tag 0)

/-- The version becomes current and the one before it retired, in one action; a retired version without bindings is free at once
(R419). -/
def State.publishSet (s : State) (i : Nat) (d : WSet) : State :=
  (List.range 256).foldl (fun s j =>
    let x := s.wsets[j]?.getD .free
    if j = i then { s with wsets := s.wsets.setIfInBounds i { d with state := 1 } }
    else if x.state = 1 ∧ x.set = d.set then
      if x.binds = 0 then
        { s with wsets := s.wsets.setIfInBounds j { x with state := 0 } }.send (.interruptToHost 16 3 (leBytes 8 0 ++ leBytes 2 0 ++ leBytes 2 6))
      else { s with wsets := s.wsets.setIfInBounds j { x with state := 2 } }
    else s) s

/-- WSPUB (R410, R419). -/
def execWspub (tag : BitVec 16) (idx : BitVec 8) (s : State) : Out :=
  .next (s.inLife tag [.DEPLOYED] fun s =>
    let d := s.wsets[idx.toNat]?.getD .free
    if d.version = 0 then s.decline tag .body
    else if d.state ≠ 0 then s.decline tag .busy
    else (s.publishSet idx.toNat d).answer 0 tag 0)

/-! The safe tier (R420). -/

/-- A slice runs somewhere. -/
def State.anyRuns (s : State) : Bool := s.halls.toList.any fun H => H.slice.isSome

/-- An off-die line is not as a wipe leaves it. -/
def State.linesKept (s : State) : List Nat :=
  dedup (((s.mem.filter fun c => offDie c.1).map (·.1 / 64)) ++ s.writeCounts.map (·.1) ++ (s.flaws ++ s.bad).filterMap fun u => if offDie u then some (u / 64) else none)

/-- An off-die line as it is stored, with what has changed in it (R356). -/
def State.storedLine (s : State) (line : Nat) : StoredLine :=
  let k := s.keyOf line
  let u := 64 * line
  let m := if s.flaws.contains u || s.bad.contains u then (match s.changes.find? fun c => c.1 == u with | some c => c.2 | none => 0) else 0
  let cipher := cipherLine k line (s.lineBytes line)
  { line := line, cipher := changed cipher m, check := lineCheck (integrityKey k) line (sget s.writeCounts line) cipher ^^^ m.extractLsb' 512 64 }

/-- What CKALL sends (R420). -/
def State.safeCopy (s : State) (dest : BitVec 16) (base : Word) : SafeCopy :=
  let words := s.flaws.filter fun u => !offDie u
  { dest := dest, base := base, lines := s.linesKept.map s.storedLine, cells := s.mem.filter fun c => !offDie c.1, rowGroups := s.rowGroups
    poison := s.poison, flaws := words, changes := s.changes.filter fun c => words.contains c.1, writeCounts := s.writeCounts
    lineKeys := s.lineKeys, keys := s.partKeys }

/-- A stored line comes back (R356, R420): its bytes are what its cipher text gives, and what its check field shows of it has changed. -/
def State.restoreLine (s : State) (x : StoredLine) : State :=
  let k := s.keyOf x.line
  let u := 64 * x.line
  let s := { s with mem := Memory.write s.mem (cellsAt u (plainLine k x.line x.cipher)) }
  let e := x.check ^^^ lineCheck (integrityKey k) x.line (sget s.writeCounts x.line) x.cipher
  if e = 0 then s else s.strike (u, e.setWidth 576 <<< 512)

/-- What RESTALL brings back (R420). -/
def State.restoreCopy (s : State) (c : SafeCopy) : State :=
  c.lines.foldl State.restoreLine
    { s with mem := c.cells, rowGroups := c.rowGroups, poison := c.poison, bad := [], flaws := c.flaws, changes := c.changes
             writeCounts := c.writeCounts, lineKeys := c.lineKeys, hist := [] }

/-- The data of a copy as CKALL sends it (R420): each line's address, cipher text, check field and write count, the bytes of the galleries, and the
lifetime state of each row group as LIFE.AGE reports it. The manual gives it no layout (DESIGN CHOICE, log 65). -/
def SafeCopy.bytes (c : SafeCopy) : Bytes :=
  (c.lines.flatMap fun x =>
    leBytes 8 (64 * x.line) ++ x.cipher ++ leBytes 8 x.check.toNat ++ leBytes 8 (sget c.writeCounts x.line).toNat) ++
    (c.cells.flatMap fun x => leBytes 8 x.1 ++ [x.2]) ++ c.rowGroups.flatMap fun x => leBytes 8 x.1 ++ leBytes 8 x.2.report.toNat

/-- Full bulk trains to a module, or to the host adapter, over the ports named (R420). -/
def State.sendOver (s : State) (ports : BitVec 12) (dst tag : BitVec 16) (d : Bytes) : State :=
  { s with outbox := s.outbox ++ (trains s.modid tag (d.length / trainBytes + 1) d).map fun m =>
      { dst := if dst = 0 then none else some dst, ports := ports, msg := m } }

/-- CKALL (R410, R420). -/
def execCkall (tag ports dest : BitVec 16) (base : Word) (s : State) : Out :=
  .next (s.inLife tag [.DEPLOYED] fun s =>
    if ports.setWidth 12 = 0#12 ∨ ports.toNat / 4096 ≠ 0 then s.decline tag .body
    else if s.anyRuns then s.decline tag .busy
    else
      let c := s.safeCopy dest base
      ({ s with safeTier := s.safeTier.filter (fun (x : SafeCopy) => !(x.dest == dest && x.base == base)) ++ [c] }.sendOver (ports.setWidth 12) dest tag
        c.bytes).answer 0 tag 0)

/-- RESTALL (R410, R420): only under the keys under which the copy was made. What stands in the safe tier is data of the state, which the module takes
back at once: no message by which it asks for it is given (DESIGN CHOICE, log 65). -/
def execRestall (tag ports src : BitVec 16) (base : Word) (s : State) : Out :=
  .next (s.inLife tag [.DEPLOYED] fun s =>
    if ports.setWidth 12 = 0#12 ∨ ports.toNat / 4096 ≠ 0 then s.decline tag .body
    else if s.anyRuns then s.decline tag .busy
    else match s.safeTier.find? fun x => x.dest == src && x.base == base with
      | none => s.decline tag .body
      | some c =>
        if c.keys ≠ s.partKeys then s.decline tag .signature
        else (s.restoreCopy c).answer 0 tag 0)

/-! The supervisor (R397, R398, R426). -/

/-- The Hall of a partition's stopped supervisor slice. -/
def State.stoppedSuper (s : State) (p : PartId) : Option (HallId × Slice × Trapped) :=
  match (s.part p).supSlice.bind s.findSlice with
  | none => none
  | some h =>
    match (s.hall h).slice, (s.hall h).trap with
    | some sl, some t => if t.queued then some (h, sl, t) else none
    | _, _ => none

/-- A supervisor is restarted from its launch packet (R398, R426); a fault or a Hall outside the partition refuses it. -/
def State.restartSuper (s : State) (tag : BitVec 16) (p : PartId) (packet : Bytes) (mask : BitVec 256) : State :=
  let pk := Packet.ofBytes packet
  if packet.length ≠ 64 ∨ s.superAsid p ≠ some pk.asid then s.decline tag .body
  else
    let go := fun (s : State) =>
      match s.hostLaunches p packet mask with
      | (.ok s, _) => s.answer 0 tag 0
      | (.error _, s) => s.decline tag .body
    match s.stoppedSuper p with
    | some (h, _, _) => go ((s.terminate h).onPart p fun P => { P with supSlice := none, supStopped := false })
    | none => if (s.part p).supSlice.isSome then s.decline tag .busy else go s

/-- SUPER (R397, R410, R426): a supervisor is resumed at its recorded resume points, but not from MACHINE_CHECK (R391); with nothing to be
resumed the answer is busy (DESIGN CHOICE, log 41). -/
def execSuper (tag : BitVec 16) (p : PartId) (restart : Bool) (packet : Bytes) (mask : BitVec 256) (s : State) : Out :=
  .next (s.inLife tag [.DEPLOYED] fun s =>
    if restart then s.restartSuper tag p packet mask
    else match s.stoppedSuper p with
      | none => s.decline tag .busy
      | some (h, sl, t) =>
        if t.info.cause = .MACHINE_CHECK then s.decline tag .busy
        else
          let r := trapRecord h (s.hall h) sl t
          ((s.eretResume h r r.pcs ((s.hall h).work.rq != 0)).onPart p fun P => { P with supStopped := false }).answer 0 tag 0)

/-! Image keys (R424). -/

/-- The key and its identifier of an exchange (R424): the module whose identity digest is the lower number is A (log 5). -/
def State.exchange (s : State) (peer : Bytes) : Bytes × Bytes :=
  let mine := shake256 identityKey 64
  let first := leNat mine ≤ leNat peer
  let nonces := if first then s.keyNonce ++ s.peerNonce else s.peerNonce ++ s.keyNonce
  let digests := if first then mine ++ peer else peer ++ mine
  let k := shake256 (s.fleetSecret ++ nonces ++ digests) 64
  (k.drop 32, k.take 32)

/-- The peer's report is genuine, over its own nonce and the module's, and the peer is DEPLOYED (R423, R424). -/
def State.peerReportOk (s : State) (r : Bytes) : Bool :=
  let head := r.take 208
  r.take 8 == [0x4E, 0x45, 0x4C, 0x41, 0x54, 0x54, 0x53, 0x54] && r.getD 8 0 == 2 && (r.drop 80).take 64 == s.peerNonce &&
    signedOk ((r.drop 144).take 64) (head ++ s.keyNonce) (Config.peerKey ((r.drop 144).take 64)) (r.drop 208)

/-- KEYX (R410, R424): at most 16 image keys, the oldest replaced. The module's own nonce stands from its first step of an exchange to the last, so
that each of two modules can report over the nonce that the other then holds (log 5). -/
def execKeyx (tag : BitVec 16) (finish : Bool) (body : Bytes) (s : State) : Out :=
  .next (s.inLife tag [.DEPLOYED] fun s =>
    if !finish then
      if body.length ≠ 64 then s.decline tag .body
      else
        let n := if s.keyNonce = [] then Config.random s.free 64 else s.keyNonce
        let s := { s with free := s.free + 1, keyNonce := n, peerNonce := body }
        s.returnData tag (s.report n body)
    else if body.length ≠ 30000 ∨ s.keyNonce = [] then s.decline tag .body
    else if !s.peerReportOk body then s.decline tag .signature
    else
      let e := s.exchange ((body.drop 144).take 64)
      let keys := s.imageKeys.filter (fun x => x.1 != e.1) ++ [e]
      { s with imageKeys := keys.drop (keys.length - 16), keyNonce := [], peerNonce := [] }.returnData tag e.1)

end Sys2Proof.Machine
end

