-- ==== Sys2Proof/Machine/Predicate.lean ====
section
/-! DEFINITION. Compares and predicates (R105 to R108). -/

namespace Sys2Proof.Machine

/-- The conditions of CMP and CMPI (R47, R105). -/
def Cond.holds (c : Cond) (x y : Word) : Bool :=
  match c with
  | .EQ => x == y
  | .NE => x != y
  | .LT => decide (x.toInt < y.toInt)
  | .GE => decide (y.toInt ≤ x.toInt)
  | .LTU => decide (x < y)
  | .GEU => decide (y ≤ x)

/-- A predicate pair: the complement is written last (R105). -/
def pairUpd (pd pe : BitVec 3) (t : Bool) : List Upd := [.preg pd.toNat t, .preg pe.toNat !t]

/-- CMP (R105). -/
def execCmp (c : Cond) (pd pe : BitVec 3) (a b : BitVec 6) (s : State) : Out :=
  .next (s.compute [.s a.toNat, .s b.toNat] 1 (pairUpd pd pe (Cond.holds c (s.rs a) (s.rs b))))
/-- CMPI (R105). -/
def execCmpi (c : Cond) (pd pe : BitVec 3) (a : BitVec 6) (imm : BitVec 25) (s : State) : Out :=
  .next (s.compute [.s a.toNat] 1 (pairUpd pd pe (Cond.holds c (s.rs a) (imm.signExtend 64))))
/-- FCMP (R106). -/
def execFcmp (c : FCond) (pd pe : BitVec 3) (a b : BitVec 6) (s : State) : Out :=
  let r := fp32.compare c ((s.rs a).toNat % 2 ^ 32) ((s.rs b).toNat % 2 ^ 32)
  .next (s.compute [.s a.toNat, .s b.toNat] 2 (pairUpd pd pe r.1 ++ [.flags r.2]))
/-- PLOG (R107). -/
def execPlog (pd pe pa pb : BitVec 3) (fn : BitVec 4) (s : State) : Out :=
  let i := 2 * (s.me.pred pa.toNat).toNat + (s.me.pred pb.toNat).toNat
  .next (s.compute [.p pa.toNat, .p pb.toNat] 1 (pairUpd pd pe (fn.getLsbD i)))
/-- PGET (R108). -/
def execPget (d : BitVec 6) (s : State) : Out :=
  let v := (List.range 8).foldl (fun v i => v + (s.me.pred i).toNat * 2 ^ i) 0
  .next (s.compute ((List.range 8).map .p) 1 [.sreg d.toNat (BitVec.ofNat 64 v)])
/-- PSET (R108). -/
def execPset (a : BitVec 6) (mask : BitVec 8) (s : State) : Out :=
  .next (s.compute [.s a.toNat] 1
    (((List.range 8).filter fun i => mask.getLsbD i && i != 0).map fun i => .preg i ((s.rs a).getLsbD i)))

end Sys2Proof.Machine
end

