-- ==== Sys2Proof/Machine/Special.lean ====
section
/-! DEFINITION. The special functions (R86, R87): the exact value rounded once. Values that are not exact are computed
in fixed point with about 150 binary digits or more beyond the widest format (log 8). -/

namespace Sys2Proof.Machine

/-- Binary digits after the point in the computations below. -/
def fixP : Nat := 320
/-- Binary digits after the point in the reduction of sine and cosine. -/
def fixQ : Nat := 640

/-- The series t/k - t/(n k') + ... of the arc tangent (alt) or of its hyperbolic form. -/
def arcSeries (alt : Bool) (n2 : Nat) : Nat → Nat → Nat → Int
  | 0, _, _ => 0
  | fuel + 1, t, k => (if alt && k % 4 == 3 then -((t / k : Nat) : Int) else ((t / k : Nat) : Int)) +
      arcSeries alt n2 fuel (t / n2) (k + 2)

/-- Half of pi, with fixQ digits (Machin's formula). -/
def halfPi : Nat :=
  let q := fixQ + 64
  ((8 * arcSeries true 25 160 (2 ^ q / 5) 1 - 2 * arcSeries true 57121 60 (2 ^ q / 239) 1).toNat) / 2 ^ 64

/-- The natural logarithm of 2, with fixP digits. -/
def ln2 : Nat :=
  let q := fixP + 64
  ((2 * arcSeries false 9 130 (2 ^ q / 3) 1).toNat) / 2 ^ 64

/-- m 2^e with p digits after the point. -/
def fixed (p m : Nat) (e : Int) : Nat := if 0 ≤ e + p then m * 2 ^ (e + p).toNat else m / 2 ^ (-(e + p)).toNat

/-- The series of the exponential function: t + t y/k + ... -/
def expSeries (y : Nat) : Nat → Nat → Nat → Nat
  | 0, t, _ => t
  | fuel + 1, t, k => t + expSeries y fuel (t * y / 2 ^ fixP / k) (k + 1)

/-- The exponential of y in [0, 1), both with fixP digits. -/
def expFix (y : Nat) : Nat := expSeries y 90 (2 ^ fixP) 1

/-- The alternating series of sine (k = 2) and cosine (k = 1) from their first term t. -/
def trigSeries (r2 : Nat) : Nat → Int → Nat → Int
  | 0, t, _ => t
  | fuel + 1, t, k => t + trigSeries r2 fuel (-(t * r2 / 2 ^ fixP / (k * (k + 1) : Nat))) (k + 2)

/-- Sine of r in [0, pi/2). -/
def sinFix (r : Nat) : Int := trigSeries (r * r / 2 ^ fixP) 60 r 2
/-- Cosine of r in [0, pi/2). -/
def cosFix (r : Nat) : Int := trigSeries (r * r / 2 ^ fixP) 60 (2 ^ fixP) 1

/-- The functions of R86. -/
inductive SpecialFn where | RCP | RSQ | EXP2 | LOG2 | SIN | COS | TANH | LOGI
  deriving DecidableEq, Repr

/-- An irrational value close to (-1)^neg v 2^e, rounded once; it is never exact. -/
def Fmt.nearly (f : Fmt) (neg : Bool) (v : Nat) (e : Int) : NumRes := f.pack neg (2 * v + 1) (e - 1)

/-- Sine or cosine of (-1)^neg m 2^e: quarter turns taken off exactly. -/
def Fmt.trig (f : Fmt) (cosine : Bool) (neg : Bool) (m : Nat) (e : Int) : NumRes :=
  let x := fixed fixQ m e
  let n := x / halfPi
  let r := x % halfPi / 2 ^ (fixQ - fixP)
  let n := if cosine then n + 1 else n
  let v : Int := match n % 4 with
    | 0 => sinFix r
    | 1 => cosFix r
    | 2 => -sinFix r
    | _ => -cosFix r
  let v := if neg && !cosine then -v else v
  f.nearly (v < 0) v.natAbs (-fixP)

/-- e^y for y with fixP digits: a value with fixP digits. -/
def expBig (y : Nat) : Nat := expFix (y % ln2) * 2 ^ (y / ln2)

/-- 2^x. -/
def Fmt.exp2 (f : Fmt) (neg : Bool) (m : Nat) (e : Int) : NumRes :=
  if 12 < e + bitLen m then f.nearly false 1 (if neg then -8192 else 8192)
  else
    let x : Int := fixed fixP m e
    let x := if neg then -x else x
    let n := x / 2 ^ fixP
    let r := (x % 2 ^ fixP).toNat
    if r = 0 then f.pack false 1 n
    else f.nearly false (expFix (r * ln2 / 2 ^ fixP)) (n - fixP)

/-- The logarithm to base 2 of a positive number. -/
def Fmt.log2 (f : Fmt) (m : Nat) (e : Int) : NumRes :=
  let b := m.log2
  if m = 2 ^ b then f.ofInt (e + b)
  else
    let b := if 3 * 2 ^ b ≤ 2 * m then b + 1 else b
    let num : Int := (m : Int) - 2 ^ b
    let den := m + 2 ^ b
    let z := num.natAbs * 2 ^ fixP / den
    let s := (logSeries (z * z / 2 ^ fixP) 90 z 1)
    let l : Int := 2 * s * 2 ^ fixP / ln2
    let v := (e + b) * 2 ^ fixP + (if num < 0 then -l else l)
    f.nearly (v < 0) v.natAbs (-fixP)
where
  /-- z + z^3/3 + ... -/
  logSeries (z2 : Nat) : Nat → Nat → Nat → Nat
    | 0, _, _ => 0
    | fuel + 1, t, k => t / k + logSeries z2 fuel (t * z2 / 2 ^ fixP) (k + 2)

/-- The hyperbolic tangent. -/
def Fmt.tanh (f : Fmt) (neg : Bool) (m : Nat) (e : Int) : NumRes :=
  if 9 < e + bitLen m then f.nearly neg (2 ^ 200 - 1) (-200)
  else
    let g := expBig (fixed fixP (2 * m) e)
    f.nearly neg ((g - 2 ^ fixP) * 2 ^ fixP / (g + 2 ^ fixP)) (-fixP)

/-- The logistic function. -/
def Fmt.logistic (f : Fmt) (neg : Bool) (m : Nat) (e : Int) : NumRes :=
  if 9 < e + bitLen m then (if neg then f.nearly false 1 (-8192) else f.nearly false (2 ^ 200 - 1) (-200))
  else
    let g := expBig (fixed fixP m e)
    let one := 2 ^ fixP
    if neg then f.nearly false (one * 2 ^ 1024 / (g + one)) (-1024)
    else f.nearly false (g * one / (g + one)) (-fixP)

/-- 1/sqrt(m 2^e). -/
def Fmt.rsqrt (f : Fmt) (m : Nat) (e : Int) : NumRes :=
  let (m, e) := if e % 2 = 0 then (m, e) else (2 * m, e - 1)
  let k := f.mb + 4 + bitLen m
  let q := 2 ^ (2 * k) / m
  let r := isqrt q
  f.pack false (2 * r + (if r * r * m = 2 ^ (2 * k) then 0 else 1)) (-k - e / 2 - 1)

/-- One element of a special function (R86, R87). -/
def Fmt.special (f : Fmt) (fn : SpecialFn) (a : Nat) : NumRes :=
  let one := (f.pack false 1 0).bits
  let half := (f.pack false 1 (-1)).bits
  let infinity := f.infBits
  match f.unpack a with
  | .nan s => f.nanOf s
  | .inf neg =>
    match fn with
    | .RCP => .plain (f.withSign neg 0)
    | .RSQ => if neg then f.invalid else .plain 0
    | .EXP2 => if neg then .plain 0 else .plain infinity
    | .LOG2 => if neg then f.invalid else .plain infinity
    | .SIN => f.invalid
    | .COS => f.invalid
    | .TANH => .plain (f.withSign neg one)
    | .LOGI => if neg then .plain 0 else .plain one
  | .num neg m e =>
    if m = 0 then
      match fn with
      | .RCP => .flagged (f.withSign neg infinity) flDZ
      | .RSQ => .flagged (f.withSign neg infinity) flDZ
      | .EXP2 => .plain one
      | .LOG2 => .flagged (f.withSign true infinity) flDZ
      | .SIN => .plain (f.withSign neg 0)
      | .COS => .plain one
      | .TANH => .plain (f.withSign neg 0)
      | .LOGI => .plain half
    else
      match fn with
      | .RCP => f.ratio neg 1 0 m e
      | .RSQ => if neg then f.invalid else f.rsqrt m e
      | .EXP2 => f.exp2 neg m e
      | .LOG2 => if neg then f.invalid else f.log2 m e
      | .SIN => f.trig false neg m e
      | .COS => f.trig true neg m e
      | .TANH => f.tanh neg m e
      | .LOGI => f.logistic neg m e

end Sys2Proof.Machine
end

