-- ==== Sys2Proof/Machine/Vector.lean ====
section
/-! DEFINITION. Vector syllables (R152 to R177). -/

namespace Sys2Proof.Machine

/-- The float format of an element type. -/
def vfmt : ETy → Option Fmt
  | .F32 => some fp32 | .BF16 => some bf16 | .F16 => some fp16 | .I32 => none | .I16 => none | .I8 => none

/-- The format of a float element type. -/
def vff (t : ETy) : Fmt := (vfmt t).getD fp32

/-- The WIDTH code of an element type (R27). -/
def widthField (t : ETy) : BitVec 2 := if t.width = 32 then 2 else if t.width = 16 then 1 else 0

/-- The shape of a tile has the width of a type (R154). -/
def Work.hasWidth (W : Work) (t : Nat) (ty : ETy) : Bool := (W.shape t).extractLsb' 0 2 == widthField ty

/-- The element positions that a syllable writes in a tile under a mask (R155). -/
def Work.targets (W : Work) (d k : Nat) : List (Nat × Nat) := (shapeElems (W.shape d)).filter fun e => W.maskBit k e.1 e.2

/-- The vector datapath (R157): the syllable waits for it, or issues and holds it for n local cycles. -/
def State.onDatapath (s : State) (n : Nat) (k : State → State) : State :=
  if s.me.local_ < s.me.vecFree then s.hold
  else
    let t := k s
    if t.issued then t.onMe fun x => { x with vecFree := s.me.local_ + n } else t

/-- A vector syllable (R154, R156, R157): the registers it reads, the tiles whose widths are checked, its latency and
occupancy, and its results. The scoreboard speaks before the widths, and both are looked at in the cycle in which it would issue, not while it waits for a
token, a sync group or the datapath (DESIGN CHOICE, log 38). -/
def State.vector (s : State) (rd : List Src) (chk : List (Nat × ETy)) (lat occ : Nat) (us : Work → List Upd) : State :=
  s.onDatapath occ fun s => s.reading rd fun s =>
    if chk.all fun e => s.here.work.hasWidth e.1 e.2 then (s.result lat (us s.here.work)).issue else s.trapCause .ILLEGAL

/-- What the results of a syllable's elements write into a tile, set and count (R159). -/
def State.tileUpds (s : State) (d w : Nat) (rs : List ((Nat × Nat) × NumRes)) : List Upd :=
  let tid := s.me.ntid.toNat
  [.tile (rs.flatMap fun e => elemCells d w e.1.1 e.1.2 e.2.bits),
   .flags (rs.foldl (fun f e => f ||| e.2.flags) 0),
   .count .SAT tid (rs.filter fun e => e.2.flags &&& flSAT != 0).length,
   .count .NAN tid (rs.filter fun e => e.2.gen).length]

/-- A tile source. -/
def tsrc (a : BitVec 6) : Src := .tile a.toNat
/-- The governing mask as a source. -/
def ksrc (k : BitVec 3) : Src := .mask k.toNat

/-- An elementwise syllable (R155): f gives the result of a position, none where it writes nothing. -/
def State.elementwise (s : State) (rd : List Src) (chk : List (Nat × ETy)) (lat occ : Nat) (ty : ETy) (d : BitVec 6) (k : BitVec 3)
    (f : Work → Nat × Nat → Option NumRes) : State :=
  s.vector (ksrc k :: rd) ((d.toNat, ty) :: chk) lat occ fun W =>
    s.tileUpds d.toNat ty.width ((W.targets d.toNat k.toNat).filterMap fun e => (f W e).map fun r => (e, r))

/-- A cross-lane syllable (R155): f gives the source position of a destination position. -/
def State.crossLane (s : State) (rd : List Src) (lat occ : Nat) (ty : ETy) (d a : BitVec 6) (k : BitVec 3)
    (f : Work → Nat × Nat → Option (Nat × Nat)) : State :=
  s.elementwise (tsrc a :: rd) [(a.toNat, ty)] lat occ ty d k fun W e =>
    match f W e with
    | some p => if W.active a.toNat k.toNat p.1 p.2 then some (.plain (W.elem a.toNat ty.width p.1 p.2)) else none
    | none => none

/-! Shape, moves and single elements. -/

/-- VSHAPE (R161). -/
def execVshape (ty : ETy) (d : BitVec 6) (rows : BitVec 4) (cols : BitVec 8) (s : State) : Out :=
  .next (s.compute [] 1 [.shape d.toNat (cols ++ 0#2 ++ rows ++ widthField ty)])
/-- VMOV (R162). -/
def execVmov (ty : ETy) (d a : BitVec 6) (k : BitVec 3) (s : State) : Out :=
  .next (s.elementwise [tsrc a] [(a.toNat, ty)] 4 4 ty d k fun W e => some (.plain (W.elem a.toNat ty.width e.1 e.2)))
/-- VSPLAT (R162). -/
def execVsplat (ty : ETy) (d a : BitVec 6) (k : BitVec 3) (s : State) : Out :=
  let v := (s.rs a).toNat % 2 ^ ty.width
  .next (s.elementwise [.s a.toNat] [] 4 4 ty d k fun _ _ => some (.plain v))
/-- VINS (R163). -/
def execVins (ty : ETy) (d a : BitVec 6) (row : BitVec 4) (col : BitVec 8) (k : BitVec 3) (s : State) : Out :=
  let v := (s.rs a).toNat % 2 ^ ty.width
  .next (s.elementwise [.s a.toNat] [] 2 1 ty d k fun _ e =>
    if e = (row.toNat, col.toNat) then some (.plain v) else none)
/-- VEXT (R163): an inactive element leaves the register unchanged. -/
def execVext (ty : ETy) (d a : BitVec 6) (row : BitVec 4) (col : BitVec 8) (k : BitVec 3) (s : State) : Out :=
  .next (s.vector [tsrc a, ksrc k] [(a.toNat, ty)] 2 1 fun W =>
    if W.active a.toNat k.toNat row.toNat col.toNat then
      let x := W.elem a.toNat ty.width row.toNat col.toNat
      [.sreg d.toNat (if ty.isFloat then BitVec.ofNat 64 x else BitVec.ofInt 64 (sint ty.width x))]
    else [])
/-- VZERO (R162). -/
def execVzero (ty : ETy) (d : BitVec 6) (k : BitVec 3) (s : State) : Out :=
  .next (s.elementwise [] [] 4 4 ty d k fun _ _ => some (.plain 0))
/-- VIOTA (R162). -/
def execViota (ty : ETy) (d a : BitVec 6) (k : BitVec 3) (s : State) : Out :=
  let v := (s.rs a).toNat
  .next (s.elementwise [.s a.toNat] [] 4 4 ty d k fun W e =>
    some (.plain ((v + e.1 * shapeCols (W.shape d.toNat) + e.2) % 2 ^ ty.width)))

/-! Floating-point arithmetic (R164). -/

/-- A float operation on the elements of two tiles. -/
def State.vfloat2 (s : State) (lat occ : Nat) (ty : ETy) (d a b : BitVec 6) (k : BitVec 3) (f : Fmt → Nat → Nat → NumRes) : State :=
  s.elementwise [tsrc a, tsrc b] [(a.toNat, ty), (b.toNat, ty)] lat occ ty d k fun W e =>
    some (f (vff ty) (W.elem a.toNat ty.width e.1 e.2) (W.elem b.toNat ty.width e.1 e.2))
/-- A float operation on the elements of two tiles and of the destination. -/
def State.vfloat3 (s : State) (ty : ETy) (d a b : BitVec 6) (k : BitVec 3) (f : Fmt → Nat → Nat → Nat → NumRes) : State :=
  s.elementwise [tsrc a, tsrc b, tsrc d] [(a.toNat, ty), (b.toNat, ty)] 6 4 ty d k fun W e =>
    some (f (vff ty) (W.elem a.toNat ty.width e.1 e.2) (W.elem b.toNat ty.width e.1 e.2) (W.elem d.toNat ty.width e.1 e.2))
/-- A float operation on the elements of one tile. -/
def State.vfloat1 (s : State) (lat occ : Nat) (ty : ETy) (d a : BitVec 6) (k : BitVec 3) (f : Fmt → Nat → NumRes) : State :=
  s.elementwise [tsrc a] [(a.toNat, ty)] lat occ ty d k fun W e => some (f (vff ty) (W.elem a.toNat ty.width e.1 e.2))

/-- VADD (R164). -/
def execVadd (ty : ETy) (d a b : BitVec 6) (k : BitVec 3) (s : State) : Out := .next (s.vfloat2 6 4 ty d a b k Fmt.add)
/-- VSUB (R164). -/
def execVsub (ty : ETy) (d a b : BitVec 6) (k : BitVec 3) (s : State) : Out := .next (s.vfloat2 6 4 ty d a b k Fmt.sub)
/-- VMUL (R164). -/
def execVmul (ty : ETy) (d a b : BitVec 6) (k : BitVec 3) (s : State) : Out := .next (s.vfloat2 6 4 ty d a b k Fmt.mul)
/-- VFMA (R164): a b + d. -/
def execVfma (ty : ETy) (d a b : BitVec 6) (k : BitVec 3) (s : State) : Out := .next (s.vfloat3 ty d a b k Fmt.fma)
/-- VMIN (R75, R164). -/
def execVmin (ty : ETy) (d a b : BitVec 6) (k : BitVec 3) (s : State) : Out := .next (s.vfloat2 6 4 ty d a b k Fmt.min)
/-- VMAX (R75, R164). -/
def execVmax (ty : ETy) (d a b : BitVec 6) (k : BitVec 3) (s : State) : Out := .next (s.vfloat2 6 4 ty d a b k Fmt.max)
/-- VABS (R164). -/
def execVabs (ty : ETy) (d a : BitVec 6) (k : BitVec 3) (s : State) : Out := .next (s.vfloat1 6 4 ty d a k Fmt.abs)
/-- VNEG (R164). -/
def execVneg (ty : ETy) (d a : BitVec 6) (k : BitVec 3) (s : State) : Out := .next (s.vfloat1 6 4 ty d a k Fmt.negate)
/-- VDIV (R164). -/
def execVdiv (ty : ETy) (d a b : BitVec 6) (k : BitVec 3) (s : State) : Out := .next (s.vfloat2 18 8 ty d a b k Fmt.div)
/-- VSQRT (R164). -/
def execVsqrt (ty : ETy) (d a : BitVec 6) (k : BitVec 3) (s : State) : Out := .next (s.vfloat1 18 8 ty d a k Fmt.sqrt)
/-- VCLAMP (R164): Min(Max(d, a), b). -/
def execVclamp (ty : ETy) (d a b : BitVec 6) (k : BitVec 3) (s : State) : Out :=
  .next (s.vfloat3 ty d a b k fun f x y z => f.clamp z x y)

/-! Integer arithmetic (R165). -/

/-- Reading an element as a signed or unsigned integer. -/
def eint (w : Nat) (u : Bool) (x : Nat) : Int := if u then (x % 2 ^ w : Nat) else sint w x

/-- An integer operation on the elements of two tiles. -/
def State.vint2 (s : State) (ty : ETy) (d a b : BitVec 6) (k : BitVec 3) (f : Nat → Nat → NumRes) : State :=
  s.elementwise [tsrc a, tsrc b] [(a.toNat, ty), (b.toNat, ty)] 4 4 ty d k fun W e =>
    some (f (W.elem a.toNat ty.width e.1 e.2) (W.elem b.toNat ty.width e.1 e.2))

/-- An exact result wrapped, or clamped under SAT (R69, R165). -/
def fitInt (w : Nat) (sat u : Bool) (v : Int) : NumRes :=
  if sat then saturate w (intLo w u) (intHi w u) v else .plain (wrap w v)

/-- VIADD (R165). -/
def execViadd (ty : ETy) (d a b : BitVec 6) (k : BitVec 3) (sat u : Bool) (s : State) : Out :=
  .next (s.vint2 ty d a b k fun x y => fitInt ty.width sat u (eint ty.width u x + eint ty.width u y))
/-- VISUB (R165). -/
def execVisub (ty : ETy) (d a b : BitVec 6) (k : BitVec 3) (sat u : Bool) (s : State) : Out :=
  .next (s.vint2 ty d a b k fun x y => fitInt ty.width sat u (eint ty.width u x - eint ty.width u y))
/-- VIMUL (R165). -/
def execVimul (ty : ETy) (d a b : BitVec 6) (k : BitVec 3) (sat u : Bool) (s : State) : Out :=
  .next (s.vint2 ty d a b k fun x y => fitInt ty.width sat u (eint ty.width u x * eint ty.width u y))
/-- VIMIN (R165). -/
def execVimin (ty : ETy) (d a b : BitVec 6) (k : BitVec 3) (u : Bool) (s : State) : Out :=
  .next (s.vint2 ty d a b k fun x y => .plain (if eint ty.width u x ≤ eint ty.width u y then x else y))
/-- VIMAX (R165). -/
def execVimax (ty : ETy) (d a b : BitVec 6) (k : BitVec 3) (u : Bool) (s : State) : Out :=
  .next (s.vint2 ty d a b k fun x y => .plain (if eint ty.width u y ≤ eint ty.width u x then x else y))
/-- VAND (R165). -/
def execVand (ty : ETy) (d a b : BitVec 6) (k : BitVec 3) (s : State) : Out :=
  .next (s.vint2 ty d a b k fun x y => .plain (x &&& y))
/-- VOR (R165). -/
def execVor (ty : ETy) (d a b : BitVec 6) (k : BitVec 3) (s : State) : Out :=
  .next (s.vint2 ty d a b k fun x y => .plain (x ||| y))
/-- VXOR (R165). -/
def execVxor (ty : ETy) (d a b : BitVec 6) (k : BitVec 3) (s : State) : Out :=
  .next (s.vint2 ty d a b k fun x y => .plain (x ^^^ y))
/-- VSHL (R165). -/
def execVshl (ty : ETy) (d a b : BitVec 6) (k : BitVec 3) (s : State) : Out :=
  .next (s.vint2 ty d a b k fun x y => .plain (if ty.width ≤ y then 0 else x * 2 ^ y % 2 ^ ty.width))
/-- VSHR (R165). -/
def execVshr (ty : ETy) (d a b : BitVec 6) (k : BitVec 3) (s : State) : Out :=
  .next (s.vint2 ty d a b k fun x y => .plain (if ty.width ≤ y then 0 else x / 2 ^ y))
/-- VSAR (R165). -/
def execVsar (ty : ETy) (d a b : BitVec 6) (k : BitVec 3) (s : State) : Out :=
  .next (s.vint2 ty d a b k fun x y => .plain (wrap ty.width (sint ty.width x / 2 ^ min y (ty.width - 1))))

/-! Masks and selection. -/

/-- A condition of VCMP on two integers (R47, R166). -/
def VCond.holdsInt (c : VCond) (w x y : Nat) : Bool :=
  match c with
  | .EQ => x == y
  | .NE => x != y
  | .LT => sint w x < sint w y
  | .GE => sint w y ≤ sint w x
  | .LTU => x < y
  | .GEU => y ≤ x
  | .UN => false

/-- The float condition of a condition of VCMP. -/
def VCond.toF : VCond → FCond
  | .EQ => .EQ | .NE => .NE | .LT => .LT | .GE => .GE | .UN => .UN | .LTU => .LT | .GEU => .GE

/-- VCMP (R166). -/
def execVcmp (c : VCond) (ty : ETy) (d a b : BitVec 6) (k : BitVec 3) (s : State) : Out :=
  .next (s.vector [tsrc a, tsrc b, ksrc k] [(a.toNat, ty), (b.toNat, ty)] 4 4 fun W =>
    let rs := (W.targets a.toNat k.toNat).map fun e =>
      let x := W.elem a.toNat ty.width e.1 e.2
      let y := W.elem b.toNat ty.width e.1 e.2
      let r := match vfmt ty with
        | some f => f.compare (VCond.toF c) x y
        | none => (VCond.holdsInt c ty.width x y, 0)
      (e, r)
    [.mask (if d = 0 then [] else rs.map fun e => (4096 * d.toNat + 256 * e.1.1 + e.1.2, BitVec.ofBool e.2.1)),
     .flags (rs.foldl (fun f e => f ||| e.2.2) 0)])

/-- VSEL (R167). -/
def execVsel (ty : ETy) (d a b : BitVec 6) (k ks : BitVec 3) (s : State) : Out :=
  .next (s.elementwise [tsrc a, tsrc b, ksrc ks] [(a.toNat, ty), (b.toNat, ty)] 4 4 ty d k fun W e =>
    some (.plain (W.elem (if W.maskBit ks.toNat e.1 e.2 then a.toNat else b.toNat) ty.width e.1 e.2)))

/-- Every position of a mask. -/
def maskElems : List (Nat × Nat) := (List.range 16).flatMap fun r => (List.range 256).map fun c => (r, c)

/-- VKLOG (R168). -/
def execVklog (d a b : BitVec 6) (fn : BitVec 4) (s : State) : Out :=
  .next (s.vector [.mask a.toNat, .mask b.toNat] [] 2 1 fun W =>
    if d = 0 then []
    else [.mask (maskElems.map fun e => (4096 * d.toNat + 256 * e.1 + e.2,
      BitVec.ofBool (fn.getLsbD (2 * (W.maskBit a.toNat e.1 e.2).toNat + (W.maskBit b.toNat e.1 e.2).toNat))))])

/-- VKCNT (R169): the tile supplies only its shape. -/
def execVkcnt (d a b : BitVec 6) (s : State) : Out :=
  .next (s.vector [.mask a.toNat] [] 2 1 fun W =>
    [.sreg d.toNat (BitVec.ofNat 64 (W.targets b.toNat a.toNat).length)])

/-! Special functions (R86, R87, R170). -/

/-- VRCP (R170). -/
def execVrcp (ty : ETy) (d a : BitVec 6) (k : BitVec 3) (s : State) : Out :=
  .next (s.vfloat1 12 8 ty d a k fun f x => f.special .RCP x)
/-- VRSQ (R170). -/
def execVrsq (ty : ETy) (d a : BitVec 6) (k : BitVec 3) (s : State) : Out :=
  .next (s.vfloat1 12 8 ty d a k fun f x => f.special .RSQ x)
/-- VEXP2 (R170). -/
def execVexp2 (ty : ETy) (d a : BitVec 6) (k : BitVec 3) (s : State) : Out :=
  .next (s.vfloat1 12 8 ty d a k fun f x => f.special .EXP2 x)
/-- VLOG2 (R170). -/
def execVlog2 (ty : ETy) (d a : BitVec 6) (k : BitVec 3) (s : State) : Out :=
  .next (s.vfloat1 12 8 ty d a k fun f x => f.special .LOG2 x)
/-- VSIN (R170). -/
def execVsin (ty : ETy) (d a : BitVec 6) (k : BitVec 3) (s : State) : Out :=
  .next (s.vfloat1 12 8 ty d a k fun f x => f.special .SIN x)
/-- VCOS (R170). -/
def execVcos (ty : ETy) (d a : BitVec 6) (k : BitVec 3) (s : State) : Out :=
  .next (s.vfloat1 12 8 ty d a k fun f x => f.special .COS x)
/-- VTANH (R170). -/
def execVtanh (ty : ETy) (d a : BitVec 6) (k : BitVec 3) (s : State) : Out :=
  .next (s.vfloat1 12 8 ty d a k fun f x => f.special .TANH x)
/-- VLOGI (R170). -/
def execVlogi (ty : ETy) (d a : BitVec 6) (k : BitVec 3) (s : State) : Out :=
  .next (s.vfloat1 12 8 ty d a k fun f x => f.special .LOGI x)

/-! Conversion and packing. -/

/-- Cvt(x) from type S to type D (R171). -/
def cvtElem (dt st : ETy) (rz sat : Bool) (x : Nat) : NumRes :=
  match vfmt st, vfmt dt with
  | some fs, some fd => fs.convert fd x
  | none, some fd => fd.ofInt (sint st.width x)
  | some fs, none =>
    let r := fs.toInt rz (intLo dt.width false) (intHi dt.width false) x
    .flagged (wrap dt.width r.val) r.flags
  | none, none => fitInt dt.width (sat && dt.width < st.width) false (sint st.width x)

/-- VCVT (R172). -/
def execVcvt (dt st : ETy) (rz sat : Bool) (d a : BitVec 6) (k : BitVec 3) (s : State) : Out :=
  .next (s.elementwise [tsrc a] [(a.toNat, st)] 3 2 dt d k fun W e =>
    if e.2 < st.lim then some (cvtElem dt st rz sat (W.elem a.toNat st.width e.1 e.2)) else none)
/-- VPACK (R173). -/
def execVpack (dt st : ETy) (rz sat : Bool) (d a b : BitVec 6) (k : BitVec 3) (s : State) : Out :=
  .next (s.elementwise [tsrc a, tsrc b] [(a.toNat, st), (b.toNat, st)] 3 2 dt d k fun W e =>
    some (cvtElem dt st rz sat (if e.2 < st.lim then W.elem a.toNat st.width e.1 e.2
      else W.elem b.toNat st.width e.1 (e.2 - st.lim))))
/-- VUNPK (R174). -/
def execVunpk (dt st : ETy) (hi : Bool) (d a : BitVec 6) (k : BitVec 3) (s : State) : Out :=
  .next (s.elementwise [tsrc a] [(a.toNat, st)] 3 2 dt d k fun W e =>
    some (cvtElem dt st false false (W.elem a.toNat st.width e.1 (e.2 + hi.toNat * dt.lim))))

/-! Rotations, broadcasts, permutes and the transpose (R175). -/

/-- VROTC (R175). -/
def execVrotc (ty : ETy) (d a : BitVec 6) (n : BitVec 8) (k : BitVec 3) (s : State) : Out :=
  .next (s.crossLane [] 2 2 ty d a k fun W e =>
    let m := shapeCols (W.shape a.toNat)
    some (e.1, (e.2 + m - n.toNat % m) % m))
/-- VROTR (R175). -/
def execVrotr (ty : ETy) (d a : BitVec 6) (n : BitVec 4) (k : BitVec 3) (s : State) : Out :=
  .next (s.crossLane [] 6 4 ty d a k fun W e =>
    let m := shapeRows (W.shape a.toNat)
    some ((e.1 + m - n.toNat % m) % m, e.2))
/-- VBCC (R175). -/
def execVbcc (ty : ETy) (d a : BitVec 6) (j : BitVec 8) (k : BitVec 3) (s : State) : Out :=
  .next (s.crossLane [] 2 2 ty d a k fun _ e => some (e.1, j.toNat))
/-- VBCR (R175). -/
def execVbcr (ty : ETy) (d a : BitVec 6) (i : BitVec 4) (k : BitVec 3) (s : State) : Out :=
  .next (s.crossLane [] 4 4 ty d a k fun _ e => some (i.toNat, e.2))
/-- VPERMC (R175). -/
def execVpermc (ty : ETy) (d a b : BitVec 6) (k : BitVec 3) (s : State) : Out :=
  .next (s.crossLane [tsrc b] 4 4 ty d a k fun W e =>
    let wb := shapeWidth (W.shape b.toNat)
    if e.2 < 2048 / wb then some (e.1, W.elem b.toNat wb e.1 e.2) else none)
/-- VTRN (R175). -/
def execVtrn (ty : ETy) (d a : BitVec 6) (j : BitVec 4) (k : BitVec 3) (s : State) : Out :=
  .next (s.crossLane [] 8 4 ty d a k fun _ e =>
    if 16 * j.toNat ≤ e.2 ∧ e.2 < 16 * j.toNat + 16 then some (e.2 - 16 * j.toNat, 16 * j.toNat + e.1) else none)

/-! Reductions (R176, R177). -/

/-- Combine two operands of a reduction with what they have set so far (R177). -/
def combine (f : Nat → Nat → NumRes) (x y : Option NumRes) : Option NumRes :=
  match x, y with
  | none, y => y
  | x, none => x
  | some x, some y =>
    let r := f x.bits y.bits
    some { bits := r.bits, flags := x.flags ||| y.flags ||| r.flags, gen := r.gen }

/-- One level of the tree, with the number of NaNs that it makes. -/
def treeLevel (f : Nat → Nat → NumRes) : List (Option NumRes) → List (Option NumRes) × Nat
  | x :: y :: t =>
    let r := treeLevel f t
    let made := match x, y with | some a, some b => (f a.bits b.bits).gen.toNat | _, _ => 0
    (combine f x y :: r.1, r.2 + made)
  | _ => ([], 0)

/-- The fixed tree over 2^n positions: the result, and the number of NaNs that it makes. -/
def tree (f : Nat → Nat → NumRes) : Nat → List (Option NumRes) → Option NumRes × Nat
  | 0, vs => (vs.headD none, 0)
  | n + 1, vs =>
    let r := treeLevel f vs
    let t := tree f n r.1
    (t.1, t.2 + r.2)

/-- The operation of a reduction on two elements. -/
def redFn (op : RedOp) (u : Bool) (ty : ETy) (x y : Nat) : NumRes :=
  match vfmt ty with
  | some f => (match op with | .ADD => f.add x y | .MIN => f.min x y | .MAX => f.max x y)
  | none =>
    match op with
    | .ADD => .plain ((x + y) % 2 ^ ty.width)
    | .MIN => .plain (if eint ty.width u x ≤ eint ty.width u y then x else y)
    | .MAX => .plain (if eint ty.width u y ≤ eint ty.width u x then x else y)

/-- A reduction: for each destination position, the positions of its tree. -/
def State.reduce (s : State) (op : RedOp) (u : Bool) (ty : ETy) (d a : BitVec 6) (k : BitVec 3) (lat depth : Nat)
    (ds : BitVec 16 → List (Nat × Nat)) (line : Nat × Nat → List (Nat × Nat)) : State :=
  s.vector [tsrc a, ksrc k] [(d.toNat, ty), (a.toNat, ty)] lat 4 fun W =>
    let rs := (ds (W.shape d.toNat)).filterMap fun e =>
      let t := tree (redFn op u ty) depth ((line e).map fun p =>
        if W.active a.toNat k.toNat p.1 p.2 then some (.plain (W.elem a.toNat ty.width p.1 p.2)) else none)
      t.1.map fun r => (e, r, t.2)
    [.tile (rs.flatMap fun e => elemCells d.toNat ty.width e.1.1 e.1.2 e.2.1.bits),
     .flags (rs.foldl (fun f e => f ||| e.2.1.flags) 0),
     .count .NAN s.me.ntid.toNat (rs.foldl (fun n e => n + e.2.2) 0)]

/-- VREDC (R176). -/
def execVredc (op : RedOp) (u : Bool) (ty : ETy) (d a : BitVec 6) (k : BitVec 3) (s : State) : Out :=
  .next (s.reduce op u ty d a k 8 (if ty.width = 32 then 6 else if ty.width = 16 then 7 else 8)
    (fun v => (List.range (shapeRows v)).map fun r => (r, 0)) fun e => (List.range ty.lim).map fun c => (e.1, c))
/-- VREDR (R176). -/
def execVredr (op : RedOp) (u : Bool) (ty : ETy) (d a : BitVec 6) (k : BitVec 3) (s : State) : Out :=
  .next (s.reduce op u ty d a k 4 4
    (fun v => (List.range (shapeCols v)).map fun c => (0, c)) fun e => (List.range 16).map fun r => (r, e.2))

end Sys2Proof.Machine
end

