-- ==== Sys2Proof/Machine/Syllable.lean ====
section
/-! DEFINITION. The effect of a syllable, for the trial of a sync group (R18): exec without the steps that are no syllables. -/

namespace Sys2Proof.Machine

/-- The effect of a syllable under a true guard. -/
def execSyllable (i : Instr) (s : State) : Out :=
  match i with
  | .add d a b => execAdd d a b s
  | .sub d a b => execSub d a b s
  | .mul d a b => execMul d a b s
  | .mulh d a b => execMulh d a b s
  | .mulhu d a b => execMulhu d a b s
  | .div d a b => execDiv d a b s
  | .divu d a b => execDivu d a b s
  | .rem d a b => execRem d a b s
  | .remu d a b => execRemu d a b s
  | .and d a b => execAnd d a b s
  | .or d a b => execOr d a b s
  | .xor d a b => execXor d a b s
  | .andn d a b => execAndn d a b s
  | .shl d a b => execShl d a b s
  | .shr d a b => execShr d a b s
  | .sar d a b => execSar d a b s
  | .rol d a b => execRol d a b s
  | .ror d a b => execRor d a b s
  | .min d a b => execMin d a b s
  | .max d a b => execMax d a b s
  | .minu d a b => execMinu d a b s
  | .maxu d a b => execMaxu d a b s
  | .abs d a => execAbs d a s
  | .clz d a => execClz d a s
  | .ctz d a => execCtz d a s
  | .popc d a => execPopc d a s
  | .brev d a => execBrev d a s
  | .sext d a w => execSext d a w s
  | .zext d a w => execZext d a w s
  | .sel d a b c => execSel d a b c s
  | .lea d a b sh => execLea d a b sh s
  | .bext d a b c sx => execBext d a b c sx s
  | .bins d a b c => execBins d a b c s
  | .addi d a imm => execAddi d a imm s
  | .muli d a imm => execMuli d a imm s
  | .andi d a imm => execAndi d a imm s
  | .ori d a imm => execOri d a imm s
  | .xori d a imm => execXori d a imm s
  | .shli d a n => execShli d a n s
  | .shri d a n => execShri d a n s
  | .sari d a n => execSari d a n s
  | .movi d imm => execMovi d imm s
  | .movhi d imm => execMovhi d imm s
  | .bexti d a off w sx => execBexti d a off w sx s
  | .binsi d a off w => execBinsi d a off w s
  | .cmp c pd pe a b => execCmp c pd pe a b s
  | .cmpi c pd pe a imm => execCmpi c pd pe a imm s
  | .fcmp c pd pe a b => execFcmp c pd pe a b s
  | .plog pd pe pa pb fn => execPlog pd pe pa pb fn s
  | .pget d => execPget d s
  | .pset a mask => execPset a mask s
  | .fadd d a b => execFadd d a b s
  | .fsub d a b => execFsub d a b s
  | .fmul d a b => execFmul d a b s
  | .ffma d a b c => execFfma d a b c s
  | .fmin d a b => execFmin d a b s
  | .fmax d a b => execFmax d a b s
  | .fdiv d a b => execFdiv d a b s
  | .fsqrt d a => execFsqrt d a s
  | .fcvt dst src rz d a => execFcvt dst src rz d a s
  | .pb b off => execPb b off s
  | .pba b a imm => execPba b a imm s
  | .br b => execBr b s
  | .call d b => execCall d b s
  | .ret a => execRet a s
  | .loop a b => execLoop a b s
  | .nop => execNop s
  | .evPost x => execEvPost x s
  | .evWait x => execEvWait x s
  | .evPostx x a => execEvPostx x a s
  | .evTest pd pe x => execEvTest pd pe x s
  | .ldB d a off land => execLdB d a off land s
  | .ldBz d a off land => execLdBz d a off land s
  | .ldH d a off land => execLdH d a off land s
  | .ldHz d a off land => execLdHz d a off land s
  | .ldW d a off land => execLdW d a off land s
  | .ldWz d a off land => execLdWz d a off land s
  | .ldD d a off land => execLdD d a off land s
  | .stB d a off => execStB d a off s
  | .stH d a off => execStH d a off s
  | .stW d a off => execStW d a off s
  | .stD d a off => execStD d a off s
  | .amo op w sc o d a b land => execAmo op w sc o d a b land s
  | .cas w sc o d a b land => execCas w sc o d a b land s
  | .stmr w a b => execStmr w a b s
  | .phase sc => execPhase sc s
  | .fenceMk mask => execFenceMk mask s
  | .join => execJoin s
  | .gjoin sc d a land => execGjoin sc d a land s
  | .gleave a => execGleave a s
  | .barArrive a => execBarArrive a s
  | .barWait a => execBarWait a s
  | .barSync a => execBarSync a s
  | .csrr d num => execCsrr d num s
  | .csrw num a => execCsrw num a s
  | .trap code => execTrap code s
  | .eret => execEret s
  | .tfence => execTfence s
  | .ntag id => execNtag id s
  | .sliceEnd => execSliceEnd s
  | .sliceYield => execSliceYield s
  | .rangeNext d a land => execRangeNext d a land s
  | .hintSucc => execHintSucc s
  | .waitPred => execWaitPred s
  | .ckpt a b => execCkpt a b s
  | .boostReq lvl => execBoostReq lvl s
  | .launch a b => execLaunch a b s
  | .enqX a b => execEnqX a b s
  | .wsetBind d a land => execWsetBind d a land s
  | .freeze d a b => execFreeze d a b s
  | .thaw d a b => execThaw d a b s
  | .track op a b => execTrack op a b s
  | .rgnBegin => execRgnBegin s
  | .rgnKeep kind a b => execRgnKeep kind a b s
  | .rgnEnd => execRgnEnd s
  | .rgnAbort => execRgnAbort s
  | .rgnStat d => execRgnStat d s
  | .lifeSet a b cls pol => execLifeSet a b cls pol s
  | .lifeAge d a land => execLifeAge d a land s
  | .lifeRef a b => execLifeRef a b s
  | .ldt d a off land => execLdt d a off land s
  | .stt d a off => execStt d a off s
  | .ldtG d a b land => execLdtG d a b land s
  | .sttS d a b => execSttS d a b s
  | .sbind x a land => execSbind x a land s
  | .sstat d x => execSstat d x s
  | .sdrop x => execSdrop x s
  | .cp d a b x c => execCp d a b x c s
  | .cp2D d a b x c => execCp2D d a b x c s
  | .cpMm d a b x c => execCpMm d a b x c s
  | .cpFill d a b x c => execCpFill d a b x c s
  | .cpWait sc d a land => execCpWait sc d a land s
  | .cpResume kind d a b x c => execCpResume kind d a b x c s
  | .hzPool d a c => execHzPool d a c s
  | .hzRoot d a c => execHzRoot d a c s
  | .hzDesc d a b c => execHzDesc d a b c s
  | .hzExpand d a b c => execHzExpand d a b c s
  | .hzBack d a b c => execHzBack d a b c s
  | .hzSweep d c => execHzSweep d c s
  | .hzRead d a b x c => execHzRead d a b x c s
  | .vshape ty d rows cols => execVshape ty d rows cols s
  | .vmov ty d a k => execVmov ty d a k s
  | .vsplat ty d a k => execVsplat ty d a k s
  | .vins ty d a row col k => execVins ty d a row col k s
  | .vext ty d a row col k => execVext ty d a row col k s
  | .vzero ty d k => execVzero ty d k s
  | .viota ty d a k => execViota ty d a k s
  | .vadd ty d a b k => execVadd ty d a b k s
  | .vsub ty d a b k => execVsub ty d a b k s
  | .vmul ty d a b k => execVmul ty d a b k s
  | .vfma ty d a b k => execVfma ty d a b k s
  | .vmin ty d a b k => execVmin ty d a b k s
  | .vmax ty d a b k => execVmax ty d a b k s
  | .vabs ty d a k => execVabs ty d a k s
  | .vneg ty d a k => execVneg ty d a k s
  | .vdiv ty d a b k => execVdiv ty d a b k s
  | .vsqrt ty d a k => execVsqrt ty d a k s
  | .vclamp ty d a b k => execVclamp ty d a b k s
  | .viadd ty d a b k sat u => execViadd ty d a b k sat u s
  | .visub ty d a b k sat u => execVisub ty d a b k sat u s
  | .vimul ty d a b k sat u => execVimul ty d a b k sat u s
  | .vimin ty d a b k u => execVimin ty d a b k u s
  | .vimax ty d a b k u => execVimax ty d a b k u s
  | .vand ty d a b k => execVand ty d a b k s
  | .vor ty d a b k => execVor ty d a b k s
  | .vxor ty d a b k => execVxor ty d a b k s
  | .vshl ty d a b k => execVshl ty d a b k s
  | .vshr ty d a b k => execVshr ty d a b k s
  | .vsar ty d a b k => execVsar ty d a b k s
  | .vcmp c ty d a b k => execVcmp c ty d a b k s
  | .vsel ty d a b k ks => execVsel ty d a b k ks s
  | .vklog d a b fn => execVklog d a b fn s
  | .vkcnt d a b => execVkcnt d a b s
  | .vrcp ty d a k => execVrcp ty d a k s
  | .vrsq ty d a k => execVrsq ty d a k s
  | .vexp2 ty d a k => execVexp2 ty d a k s
  | .vlog2 ty d a k => execVlog2 ty d a k s
  | .vsin ty d a k => execVsin ty d a k s
  | .vcos ty d a k => execVcos ty d a k s
  | .vtanh ty d a k => execVtanh ty d a k s
  | .vlogi ty d a k => execVlogi ty d a k s
  | .vcvt dt st rz sat d a k => execVcvt dt st rz sat d a k s
  | .vpack dt st rz sat d a b k => execVpack dt st rz sat d a b k s
  | .vunpk dt st hi d a k => execVunpk dt st hi d a k s
  | .vrotc ty d a n k => execVrotc ty d a n k s
  | .vrotr ty d a n k => execVrotr ty d a n k s
  | .vbcc ty d a j k => execVbcc ty d a j k s
  | .vbcr ty d a i k => execVbcr ty d a i k s
  | .vredc op u ty d a k => execVredc op u ty d a k s
  | .vredr op u ty d a k => execVredr op u ty d a k s
  | .vpermc ty d a b k => execVpermc ty d a b k s
  | .vtrn ty d a j k => execVtrn ty d a j k s
  | .mwLoad fmt image bank src sreg => execMwLoad fmt image bank src sreg s
  | .mwLoads fmt n bank sreg => execMwLoads fmt n bank sreg s
  | .mwClr bank => execMwClr bank s
  | .mfmt fmt stream src => execMfmt fmt stream src s
  | .mma f => execMma f s
  | .mmaS f => execMmaS f s
  | .maccRd arow src n k => execMaccRd arow src n k s
  | .maccWr arow src n k => execMaccWr arow src n k s
  | .maccCvt toF32 arow src n sreg k => execMaccCvt toF32 arow src n sreg k s
  | .maccZero arow n => execMaccZero arow n s
  | .maccSpill arow n sreg ev eve => execMaccSpill arow n sreg ev eve s
  | .maccFill arow n sreg ev eve => execMaccFill arow n sreg ev eve s
  | .mstat d => execMstat d s
  | _ => .next s

end Sys2Proof.Machine
end

