-- ==== Sys2Proof/Machine/Turn.lean ====
section
/-! DEFINITION. A strand's turn in a Hall cycle (R15, R16, R18, R19, R40 to R42, R49 to R52, R113): fetching, decoding, tokens, the
guard, sync groups, and what follows an issue. -/

namespace Sys2Proof.Machine

/-- The state of an outcome; a fault or a refusal leaves the state as it was. -/
def Out.state (o : Out) (s : State) : State :=
  match o with
  | .next t => t
  | .fault _ => s
  | .refused _ => s

/-! Fetch (R113, R254, R386). -/

/-- A data fault of a fetch: inside a region INTEGRITY is a detected error (R338). -/
def State.fetchFault (s : State) (f : DataFault) : State :=
  let pc := s.me.pc
  if f.cause = .INTEGRITY ∧ s.depth ≠ 0 then { s.detect s.curHall s.depth f.code s.curStrand pc false with issued := false }
  else s.trapHere { cause := f.cause, access := .fetch, width := 3, detail := f.code, addr := pc }

/-- The addresses of the syllable at the program counter. -/
def State.fetchPlaces (s : State) : Except (Nat × Option TrapInfo) (List Nat) :=
  resolveAll (s.resolveCached s.mine wantFetch) (runFrom s.me.pc.toNat 8)

/-- The syllable at physical addresses. -/
def State.wordAtPlaces (s : State) (ps : List Nat) : Word := wordOfBytes (ps.map (Memory.byte s.mem))

/-- The strand reads the bytes of the syllable: its lines count as read once for each syllable (R416), however long that waits. -/
def State.fetchRead (s : State) (ps : List Nat) : Option (Nat × DataFault) × State :=
  let s := if s.me.fetched then s else (s.touchAll s.partId ps).onMe fun x => { x with fetched := true }
  State.senseUnits s.partId (dedup (ps.map unitOf)) s

/-- The syllable at the program counter is fetched, and then what follows. -/
def State.fetching (s : State) (k : Word → State → State) : State :=
  match s.fetchPlaces with
  | .error (_, some t) => s.trapHere { t with addr := s.me.pc }
  | .error (b, none) => (s.startWalk s.mine b false).freeze
  | .ok ps =>
    if s.mustReport s.partId ps then s.freeze
    else match s.fetchRead ps with
      | (some (_, f), s) => s.fetchFault f
      | (none, s) => k (s.wordAtPlaces ps) s

/-! Conditions of issue. -/

/-- ERET, FREEZE, THAW and TRACK are privileged, and so are a CSRR and a CSRW by the register that they name (R49, R52, R206). -/
def privileged : Instr → Bool
  | .eret => true
  | .freeze .. => true
  | .thaw .. => true
  | .track .. => true
  | .csrr _ n => csrHidden n.toNat
  | .csrw n _ => !csrUserWrites n.toNat
  | _ => false

/-- The queues that a syllable's token bits pop and push. -/
def ctlPops (c : Ctl) (st : Strand) : List Nat := (if c.wl then [tokQ (leftOf st) true] else []) ++ (if c.wr then [tokQ (rightOf st) false] else [])
/-- The queues that a syllable's token bits push into. -/
def ctlPushes (c : Ctl) (st : Strand) : List Nat := (if c.pl then [tokQ st false] else []) ++ (if c.pr then [tokQ st true] else [])

/-- The tokens stand as the syllable needs them, as sampled at the start of the Hall cycle (R16). -/
def Hall.tokensReady (H : Hall) (c : Ctl) (st : Strand) : Bool :=
  ((ctlPops c st).all fun q => 1 ≤ H.sampledTok[q]?.getD 0) && ((ctlPushes c st).all fun q => H.sampledTok[q]?.getD 0 ≤ 14)

/-- The unit that a syllable waits for, whatever its guard, is still occupied by its strand (R16, R119). -/
def unitBusy (i : Instr) (x : StrandState) : Bool :=
  match i with
  | .div .. | .divu .. | .rem .. | .remu .. | .fdiv .. | .fsqrt .. => x.local_ < x.divFree
  | .ldB .. | .ldBz .. | .ldH .. | .ldHz .. | .ldW .. | .ldWz .. | .ldD .. | .stB .. | .stH .. | .stW .. | .stD .. | .amo .. | .cas .. | .stmr ..
  | .ldt .. | .stt .. | .ldtG .. | .sttS .. | .sbind .. | .cpWait .. => x.local_ < x.portFree
  | .vmov .. | .vsplat .. | .vins .. | .vext .. | .vzero .. | .viota .. | .vadd .. | .vsub .. | .vmul .. | .vfma .. | .vmin .. | .vmax ..
  | .vabs .. | .vneg .. | .vdiv .. | .vsqrt .. | .vclamp .. | .viadd .. | .visub .. | .vimul .. | .vimin .. | .vimax .. | .vand .. | .vor ..
  | .vxor .. | .vshl .. | .vshr .. | .vsar .. | .vcmp .. | .vsel .. | .vklog .. | .vkcnt .. | .vrcp .. | .vrsq .. | .vexp2 .. | .vlog2 ..
  | .vsin .. | .vcos .. | .vtanh .. | .vlogi .. | .vcvt .. | .vpack .. | .vunpk .. | .vrotc .. | .vrotr .. | .vbcc .. | .vbcr .. | .vredc ..
  | .vredr .. | .vpermc .. | .vtrn .. => x.local_ < x.vecFree
  | _ => false

/-- A place that a syllable with a true guard takes is not free: a landing slot, or one in an engine queue (R16). -/
def State.placeTaken (s : State) (i : Instr) : Bool :=
  match i with
  | .ldB .. | .ldBz .. | .ldH .. | .ldHz .. | .ldW .. | .ldWz .. | .ldD .. | .ldt .. | .ldtG .. | .sbind .. | .cpWait .. | .gjoin ..
  | .rangeNext .. | .wsetBind .. | .lifeAge .. => s.slotsFull
  | .amo _ _ _ _ d .. => d != 0 && s.slotsFull
  | .cas _ _ _ d .. => d != 0 && s.slotsFull
  | .cp .. | .cp2D .. | .cpMm .. | .cpFill .. | .cpResume .. => s.here.copyFull
  | .hzPool .. | .hzRoot .. | .hzDesc .. | .hzExpand .. | .hzBack .. | .hzSweep .. | .hzRead .. => s.here.hazelFull
  | .mwLoad .. | .mwLoads .. | .mwClr .. | .mma .. | .mmaS .. | .maccRd .. | .maccWr .. | .maccCvt .. | .maccZero .. | .maccSpill ..
  | .maccFill .. => (s.hall (s.matTarget i)).matrixFull
  | _ => false

/-! Tokens. -/

/-- A token is popped: its order is acquired, and the pop renews at HALL (R275). -/
def State.popToken (s : State) (q : Nat) : State :=
  match s.here.work.toks[q]?.getD [] with
  | [] => s
  | t :: rest =>
    ((s.onHere (Hall.onWork · fun W => { W with toks := W.toks.setIfInBounds q rest })).onMe (·.acquire t)).renewAfter s.curHall s.curStrand .hall s.me.seq

/-- A token is pushed: it publishes at HALL (R275). -/
def State.pushToken (s : State) (q : Nat) : State :=
  let t := s.me.stamp s.here.sliceId s.curStrand
  (s.onHere (Hall.onWork · fun W => { W with toks := W.toks.setIfInBounds q (W.toks[q]?.getD [] ++ [t]) })).onMe fun x => { x with hallPub := x.stores }

/-- What pops have changed is put back: the syllable has not issued. -/
def State.unpop (t s : State) : State :=
  let x := s.me
  (t.onHere (Hall.onWork · fun W => { W with toks := s.here.work.toks })).onMe fun y => { y with seen := x.seen, clock := x.clock, floor := x.floor, heard := x.heard, renewals := x.renewals }

/-! The attempt to issue. -/

/-- What follows an issue (R15, R21): pushes, the next program counter, the stall count. Nothing is left to do for a strand whose slice has
left the Hall. -/
def State.retire (t : State) (id : Nat) (c : Ctl) : State :=
  if !t.here.runs id then t
  else
    let t := (ctlPushes c t.curStrand).foldl State.pushToken t
    t.onMe fun x => { x with pc := t.target.getD (x.pc + 8), issueFrom := x.local_ + 1 + c.stall.toNat, fetched := false }

/-- The guard of a syllable (R40). -/
def State.guardHolds (s : State) (c : Ctl) : Bool := s.me.pred c.gp.toNat != c.gn

/-- The syllable is SLICE.END. -/
def isSliceEnd : Instr → Bool
  | .sliceEnd => true
  | _ => false

/-- What SLICE.END finds is kept until the slice has ended (R393). -/
def Hall.keepEnd (H : Hall) : Hall :=
  H.onSlice fun sl =>
    { sl with endFrom := some { S := H.work.S.pc, L := H.work.L.pc, M := H.work.M.pc, V := H.work.V.pc, toks := H.work.toks } }

/-- The data fault of a matrix command is raised at an M syllable (R181). It is over once it is recorded; where another cause is recorded instead,
M meets it again (R393). -/
def State.raiseLate (s : State) (t : TrapInfo) : State :=
  (if s.here.records s.curStrand then s.onHere fun H => { H with mFault := none } else s).trapHere t

/-- A syllable that has passed decode is about to issue. ex gives its effect under a true guard. Of two waits that apply at once the one for
tokens governs: the strand is frozen, also while its unit is occupied (DESIGN CHOICE, log 34). The guard is read in the Hall cycle in which the
syllable issues, and so not while it waits (R22, R40). The data fault of a matrix command is raised at the next M syllable whatever its guard, which
is not read (DESIGN CHOICE, log 45). -/
def State.attempt (ex : Instr → State → Out) (s : State) (w : Word) (c : Ctl) (i : Instr) : State :=
  let s := { s with curWord := w, issued := false, trapped := false, target := none }
  let id := match s.here.slice with | some sl => sl.id | none => 0
  if !s.here.tokensReady c s.curStrand then s.freeze
  else
    let late : Option TrapInfo := match s.curStrand with | .M => s.here.mFault | .S => none | .L => none | .V => none
    match late with
    | some t => s.raiseLate t
    | none =>
      if unitBusy i s.me then s.hold
      else if s.me.stallShort [.p c.gp.toNat] then (if s.guardHolds c && s.placeTaken i then s.freeze else s.trapCause .STALL_SHORT)
      else
        let s := if isSliceEnd i && s.guardHolds c then s.onHere Hall.keepEnd else s
        let p := (ctlPops c s.curStrand).foldl State.popToken s
        let t := if s.guardHolds c then Out.state (ex i p) p else p.issue
        if t.issued then t.retire id c else t.unpop s

/-- The syllable waits for a unit, and its strand is not frozen (R16). -/
def State.holds (t : State) : Bool := !t.issued && !t.trapped && !t.me.frozen && t.here.back.isNone

/-! Sync groups (R18). -/

/-- A strand may take its next syllable: nothing holds it and the stall count has run out. -/
def Hall.mayTake (H : Hall) (st : Strand) : Bool :=
  let x := H.work.strand st
  let ending := match H.slice with | some sl => sl.ending | none => false
  !x.frozen && !H.halted st && !ending && x.replay.isEmpty && x.issueFrom ≤ x.local_ && x.notBefore ≤ H.cycle

/-- The sync-marked syllable at which a strand stands, when it passes decode. -/
def State.atSync (s : State) (h : HallId) (st : Strand) : Option (Word × Ctl × Instr) :=
  let s := { s with curHall := h, curStrand := st }
  if !s.here.mayTake st then none
  else match s.fetchPlaces with
    | .error _ => none
    | .ok ps =>
      if (State.senseUnits s.partId (dedup (ps.map unitOf)) s).1.isSome then none
      else
        let w := s.wordAtPlaces ps
        match decode w with
        | .error _ => none
        | .ok (c, i) => if !c.sync || !strandAccepts w st || (privileged i && !s.superMode) then none else some (w, c, i)

/-- The four sync-marked syllables are tried. When all of them issue, the group goes; otherwise what has begun of those that do not is kept. -/
def State.syncTrial (ex : Instr → State → Out) (s : State) (h : HallId) : State :=
  let at_ := ring.filterMap fun st => (s.atSync h st).map fun e => (st, e)
  if at_.length < 4 ∨ (s.hall h).syncGo then s
  else
    let one := fun (s : State) (e : Strand × Word × Ctl × Instr) =>
      State.attempt ex { s with curHall := h, curStrand := e.1 } e.2.1 e.2.2.1 e.2.2.2
    let chain := at_.foldl (fun (r : Bool × State) e => let t := one r.2 e; (r.1 && t.issued, t)) (true, s)
    if chain.1 then s.onHall h fun H => { H with syncGo := true }
    else
      let keep := fun (s : State) (e : Strand × Word × Ctl × Instr) => let t := one s e; if t.issued then s else t
      (at_.foldl keep s).onHall h fun H => { H with syncTried := true }

/-- SYNC_GROUP_ISSUE (R18). -/
def execSyncGroupIssue (h : HallId) (s : State) : Out := .next (s.syncTrial execSyllable h)

/-! The turn. -/

/-- A syllable has been fetched: decode, the strand's own checks, the sync condition, and the attempt (R49 to R52, R18). With all four strands at
their sync-marked syllables, one that waits for its own unit is held and not frozen (DESIGN CHOICE, log 34). -/
def State.take (ex : Instr → State → Out) (w : Word) (s : State) : State :=
  match decode w with
  | .error _ => s.trapCause .ILLEGAL
  | .ok (c, i) =>
    if !strandAccepts w s.curStrand then s.trapCause .ILLEGAL
    else if privileged i && !s.superMode then s.trapCause .PRIV
    else if c.sync && !s.here.syncGo then
      (if s.here.syncTried && (s.attempt ex w c i).holds then s.hold else s.freeze)
    else s.attempt ex w c i

/-- The syllable SLICE.END, as its strand performs it to its end. -/
def sliceEndWord : Word := 0x0001880000000000

/-- A strand's turn. -/
def State.turn (ex : Instr → State → Out) (s : State) (h : HallId) (st : Strand) : State :=
  let s := { s with curHall := h, curStrand := st, issued := false, trapped := false, target := none }
  let x := s.me
  let ending := match s.here.slice with | some sl => sl.ending | none => false
  if x.frozen || s.here.halted st then s
  else if ending && st == .S then (let t := { s with curWord := sliceEndWord }; Out.state (ex .sliceEnd t) t)
  else if !x.replay.isEmpty then s.replayFirst
  else if x.local_ < x.issueFrom then s
  else if s.here.cycle < x.notBefore then s.freeze
  else s.fetching (State.take ex)

end Sys2Proof.Machine
end

