-- ==== Sys2Proof/Machine/Dispatch.lean ====
section
/-! DEFINITION. What each step does: one arm for each constructor of Instr. -/

namespace Sys2Proof.Machine

open Sys2Proof

/-- The effect of one step. For a syllable: what it does when the current strand issues it under a true guard. -/
def exec (i : Instr) (s : State) : Host.Outcome State Fault Refusal :=
  match i with
  | .add d a b => Sys2Proof.Machine.execAdd d a b s
  | .sub d a b => Sys2Proof.Machine.execSub d a b s
  | .mul d a b => Sys2Proof.Machine.execMul d a b s
  | .mulh d a b => Sys2Proof.Machine.execMulh d a b s
  | .mulhu d a b => Sys2Proof.Machine.execMulhu d a b s
  | .div d a b => Sys2Proof.Machine.execDiv d a b s
  | .divu d a b => Sys2Proof.Machine.execDivu d a b s
  | .rem d a b => Sys2Proof.Machine.execRem d a b s
  | .remu d a b => Sys2Proof.Machine.execRemu d a b s
  | .and d a b => Sys2Proof.Machine.execAnd d a b s
  | .or d a b => Sys2Proof.Machine.execOr d a b s
  | .xor d a b => Sys2Proof.Machine.execXor d a b s
  | .andn d a b => Sys2Proof.Machine.execAndn d a b s
  | .shl d a b => Sys2Proof.Machine.execShl d a b s
  | .shr d a b => Sys2Proof.Machine.execShr d a b s
  | .sar d a b => Sys2Proof.Machine.execSar d a b s
  | .rol d a b => Sys2Proof.Machine.execRol d a b s
  | .ror d a b => Sys2Proof.Machine.execRor d a b s
  | .min d a b => Sys2Proof.Machine.execMin d a b s
  | .max d a b => Sys2Proof.Machine.execMax d a b s
  | .minu d a b => Sys2Proof.Machine.execMinu d a b s
  | .maxu d a b => Sys2Proof.Machine.execMaxu d a b s
  | .abs d a => Sys2Proof.Machine.execAbs d a s
  | .clz d a => Sys2Proof.Machine.execClz d a s
  | .ctz d a => Sys2Proof.Machine.execCtz d a s
  | .popc d a => Sys2Proof.Machine.execPopc d a s
  | .brev d a => Sys2Proof.Machine.execBrev d a s
  | .sext d a w => Sys2Proof.Machine.execSext d a w s
  | .zext d a w => Sys2Proof.Machine.execZext d a w s
  | .sel d a b c => Sys2Proof.Machine.execSel d a b c s
  | .lea d a b sh => Sys2Proof.Machine.execLea d a b sh s
  | .bext d a b c sx => Sys2Proof.Machine.execBext d a b c sx s
  | .bins d a b c => Sys2Proof.Machine.execBins d a b c s
  | .addi d a imm => Sys2Proof.Machine.execAddi d a imm s
  | .muli d a imm => Sys2Proof.Machine.execMuli d a imm s
  | .andi d a imm => Sys2Proof.Machine.execAndi d a imm s
  | .ori d a imm => Sys2Proof.Machine.execOri d a imm s
  | .xori d a imm => Sys2Proof.Machine.execXori d a imm s
  | .shli d a n => Sys2Proof.Machine.execShli d a n s
  | .shri d a n => Sys2Proof.Machine.execShri d a n s
  | .sari d a n => Sys2Proof.Machine.execSari d a n s
  | .movi d imm => Sys2Proof.Machine.execMovi d imm s
  | .movhi d imm => Sys2Proof.Machine.execMovhi d imm s
  | .bexti d a off w sx => Sys2Proof.Machine.execBexti d a off w sx s
  | .binsi d a off w => Sys2Proof.Machine.execBinsi d a off w s
  | .cmp c pd pe a b => Sys2Proof.Machine.execCmp c pd pe a b s
  | .cmpi c pd pe a imm => Sys2Proof.Machine.execCmpi c pd pe a imm s
  | .fcmp c pd pe a b => Sys2Proof.Machine.execFcmp c pd pe a b s
  | .plog pd pe pa pb fn => Sys2Proof.Machine.execPlog pd pe pa pb fn s
  | .pget d => Sys2Proof.Machine.execPget d s
  | .pset a mask => Sys2Proof.Machine.execPset a mask s
  | .fadd d a b => Sys2Proof.Machine.execFadd d a b s
  | .fsub d a b => Sys2Proof.Machine.execFsub d a b s
  | .fmul d a b => Sys2Proof.Machine.execFmul d a b s
  | .ffma d a b c => Sys2Proof.Machine.execFfma d a b c s
  | .fmin d a b => Sys2Proof.Machine.execFmin d a b s
  | .fmax d a b => Sys2Proof.Machine.execFmax d a b s
  | .fdiv d a b => Sys2Proof.Machine.execFdiv d a b s
  | .fsqrt d a => Sys2Proof.Machine.execFsqrt d a s
  | .fcvt dst src rz d a => Sys2Proof.Machine.execFcvt dst src rz d a s
  | .pb b off => Sys2Proof.Machine.execPb b off s
  | .pba b a imm => Sys2Proof.Machine.execPba b a imm s
  | .br b => Sys2Proof.Machine.execBr b s
  | .call d b => Sys2Proof.Machine.execCall d b s
  | .ret a => Sys2Proof.Machine.execRet a s
  | .loop a b => Sys2Proof.Machine.execLoop a b s
  | .nop => Sys2Proof.Machine.execNop s
  | .evPost x => Sys2Proof.Machine.execEvPost x s
  | .evWait x => Sys2Proof.Machine.execEvWait x s
  | .evPostx x a => Sys2Proof.Machine.execEvPostx x a s
  | .evTest pd pe x => Sys2Proof.Machine.execEvTest pd pe x s
  | .ldB d a off land => Sys2Proof.Machine.execLdB d a off land s
  | .ldBz d a off land => Sys2Proof.Machine.execLdBz d a off land s
  | .ldH d a off land => Sys2Proof.Machine.execLdH d a off land s
  | .ldHz d a off land => Sys2Proof.Machine.execLdHz d a off land s
  | .ldW d a off land => Sys2Proof.Machine.execLdW d a off land s
  | .ldWz d a off land => Sys2Proof.Machine.execLdWz d a off land s
  | .ldD d a off land => Sys2Proof.Machine.execLdD d a off land s
  | .stB d a off => Sys2Proof.Machine.execStB d a off s
  | .stH d a off => Sys2Proof.Machine.execStH d a off s
  | .stW d a off => Sys2Proof.Machine.execStW d a off s
  | .stD d a off => Sys2Proof.Machine.execStD d a off s
  | .amo op w sc o d a b land => Sys2Proof.Machine.execAmo op w sc o d a b land s
  | .cas w sc o d a b land => Sys2Proof.Machine.execCas w sc o d a b land s
  | .stmr w a b => Sys2Proof.Machine.execStmr w a b s
  | .phase sc => Sys2Proof.Machine.execPhase sc s
  | .fenceMk mask => Sys2Proof.Machine.execFenceMk mask s
  | .join => Sys2Proof.Machine.execJoin s
  | .gjoin sc d a land => Sys2Proof.Machine.execGjoin sc d a land s
  | .gleave a => Sys2Proof.Machine.execGleave a s
  | .barArrive a => Sys2Proof.Machine.execBarArrive a s
  | .barWait a => Sys2Proof.Machine.execBarWait a s
  | .barSync a => Sys2Proof.Machine.execBarSync a s
  | .csrr d num => Sys2Proof.Machine.execCsrr d num s
  | .csrw num a => Sys2Proof.Machine.execCsrw num a s
  | .trap code => Sys2Proof.Machine.execTrap code s
  | .eret => Sys2Proof.Machine.execEret s
  | .tfence => Sys2Proof.Machine.execTfence s
  | .ntag id => Sys2Proof.Machine.execNtag id s
  | .sliceEnd => Sys2Proof.Machine.execSliceEnd s
  | .sliceYield => Sys2Proof.Machine.execSliceYield s
  | .rangeNext d a land => Sys2Proof.Machine.execRangeNext d a land s
  | .hintSucc => Sys2Proof.Machine.execHintSucc s
  | .waitPred => Sys2Proof.Machine.execWaitPred s
  | .ckpt a b => Sys2Proof.Machine.execCkpt a b s
  | .boostReq lvl => Sys2Proof.Machine.execBoostReq lvl s
  | .launch a b => Sys2Proof.Machine.execLaunch a b s
  | .enqX a b => Sys2Proof.Machine.execEnqX a b s
  | .wsetBind d a land => Sys2Proof.Machine.execWsetBind d a land s
  | .freeze d a b => Sys2Proof.Machine.execFreeze d a b s
  | .thaw d a b => Sys2Proof.Machine.execThaw d a b s
  | .track op a b => Sys2Proof.Machine.execTrack op a b s
  | .rgnBegin => Sys2Proof.Machine.execRgnBegin s
  | .rgnKeep kind a b => Sys2Proof.Machine.execRgnKeep kind a b s
  | .rgnEnd => Sys2Proof.Machine.execRgnEnd s
  | .rgnAbort => Sys2Proof.Machine.execRgnAbort s
  | .rgnStat d => Sys2Proof.Machine.execRgnStat d s
  | .lifeSet a b cls pol => Sys2Proof.Machine.execLifeSet a b cls pol s
  | .lifeAge d a land => Sys2Proof.Machine.execLifeAge d a land s
  | .lifeRef a b => Sys2Proof.Machine.execLifeRef a b s
  | .ldt d a off land => Sys2Proof.Machine.execLdt d a off land s
  | .stt d a off => Sys2Proof.Machine.execStt d a off s
  | .ldtG d a b land => Sys2Proof.Machine.execLdtG d a b land s
  | .sttS d a b => Sys2Proof.Machine.execSttS d a b s
  | .sbind x a land => Sys2Proof.Machine.execSbind x a land s
  | .sstat d x => Sys2Proof.Machine.execSstat d x s
  | .sdrop x => Sys2Proof.Machine.execSdrop x s
  | .cp d a b x c => Sys2Proof.Machine.execCp d a b x c s
  | .cp2D d a b x c => Sys2Proof.Machine.execCp2D d a b x c s
  | .cpMm d a b x c => Sys2Proof.Machine.execCpMm d a b x c s
  | .cpFill d a b x c => Sys2Proof.Machine.execCpFill d a b x c s
  | .cpWait sc d a land => Sys2Proof.Machine.execCpWait sc d a land s
  | .cpResume kind d a b x c => Sys2Proof.Machine.execCpResume kind d a b x c s
  | .hzPool d a c => Sys2Proof.Machine.execHzPool d a c s
  | .hzRoot d a c => Sys2Proof.Machine.execHzRoot d a c s
  | .hzDesc d a b c => Sys2Proof.Machine.execHzDesc d a b c s
  | .hzExpand d a b c => Sys2Proof.Machine.execHzExpand d a b c s
  | .hzBack d a b c => Sys2Proof.Machine.execHzBack d a b c s
  | .hzSweep d c => Sys2Proof.Machine.execHzSweep d c s
  | .hzRead d a b x c => Sys2Proof.Machine.execHzRead d a b x c s
  | .vshape ty d rows cols => Sys2Proof.Machine.execVshape ty d rows cols s
  | .vmov ty d a k => Sys2Proof.Machine.execVmov ty d a k s
  | .vsplat ty d a k => Sys2Proof.Machine.execVsplat ty d a k s
  | .vins ty d a row col k => Sys2Proof.Machine.execVins ty d a row col k s
  | .vext ty d a row col k => Sys2Proof.Machine.execVext ty d a row col k s
  | .vzero ty d k => Sys2Proof.Machine.execVzero ty d k s
  | .viota ty d a k => Sys2Proof.Machine.execViota ty d a k s
  | .vadd ty d a b k => Sys2Proof.Machine.execVadd ty d a b k s
  | .vsub ty d a b k => Sys2Proof.Machine.execVsub ty d a b k s
  | .vmul ty d a b k => Sys2Proof.Machine.execVmul ty d a b k s
  | .vfma ty d a b k => Sys2Proof.Machine.execVfma ty d a b k s
  | .vmin ty d a b k => Sys2Proof.Machine.execVmin ty d a b k s
  | .vmax ty d a b k => Sys2Proof.Machine.execVmax ty d a b k s
  | .vabs ty d a k => Sys2Proof.Machine.execVabs ty d a k s
  | .vneg ty d a k => Sys2Proof.Machine.execVneg ty d a k s
  | .vdiv ty d a b k => Sys2Proof.Machine.execVdiv ty d a b k s
  | .vsqrt ty d a k => Sys2Proof.Machine.execVsqrt ty d a k s
  | .vclamp ty d a b k => Sys2Proof.Machine.execVclamp ty d a b k s
  | .viadd ty d a b k sat u => Sys2Proof.Machine.execViadd ty d a b k sat u s
  | .visub ty d a b k sat u => Sys2Proof.Machine.execVisub ty d a b k sat u s
  | .vimul ty d a b k sat u => Sys2Proof.Machine.execVimul ty d a b k sat u s
  | .vimin ty d a b k u => Sys2Proof.Machine.execVimin ty d a b k u s
  | .vimax ty d a b k u => Sys2Proof.Machine.execVimax ty d a b k u s
  | .vand ty d a b k => Sys2Proof.Machine.execVand ty d a b k s
  | .vor ty d a b k => Sys2Proof.Machine.execVor ty d a b k s
  | .vxor ty d a b k => Sys2Proof.Machine.execVxor ty d a b k s
  | .vshl ty d a b k => Sys2Proof.Machine.execVshl ty d a b k s
  | .vshr ty d a b k => Sys2Proof.Machine.execVshr ty d a b k s
  | .vsar ty d a b k => Sys2Proof.Machine.execVsar ty d a b k s
  | .vcmp c ty d a b k => Sys2Proof.Machine.execVcmp c ty d a b k s
  | .vsel ty d a b k ks => Sys2Proof.Machine.execVsel ty d a b k ks s
  | .vklog d a b fn => Sys2Proof.Machine.execVklog d a b fn s
  | .vkcnt d a b => Sys2Proof.Machine.execVkcnt d a b s
  | .vrcp ty d a k => Sys2Proof.Machine.execVrcp ty d a k s
  | .vrsq ty d a k => Sys2Proof.Machine.execVrsq ty d a k s
  | .vexp2 ty d a k => Sys2Proof.Machine.execVexp2 ty d a k s
  | .vlog2 ty d a k => Sys2Proof.Machine.execVlog2 ty d a k s
  | .vsin ty d a k => Sys2Proof.Machine.execVsin ty d a k s
  | .vcos ty d a k => Sys2Proof.Machine.execVcos ty d a k s
  | .vtanh ty d a k => Sys2Proof.Machine.execVtanh ty d a k s
  | .vlogi ty d a k => Sys2Proof.Machine.execVlogi ty d a k s
  | .vcvt dt st rz sat d a k => Sys2Proof.Machine.execVcvt dt st rz sat d a k s
  | .vpack dt st rz sat d a b k => Sys2Proof.Machine.execVpack dt st rz sat d a b k s
  | .vunpk dt st hi d a k => Sys2Proof.Machine.execVunpk dt st hi d a k s
  | .vrotc ty d a n k => Sys2Proof.Machine.execVrotc ty d a n k s
  | .vrotr ty d a n k => Sys2Proof.Machine.execVrotr ty d a n k s
  | .vbcc ty d a j k => Sys2Proof.Machine.execVbcc ty d a j k s
  | .vbcr ty d a idx k => Sys2Proof.Machine.execVbcr ty d a idx k s
  | .vredc op u ty d a k => Sys2Proof.Machine.execVredc op u ty d a k s
  | .vredr op u ty d a k => Sys2Proof.Machine.execVredr op u ty d a k s
  | .vpermc ty d a b k => Sys2Proof.Machine.execVpermc ty d a b k s
  | .vtrn ty d a j k => Sys2Proof.Machine.execVtrn ty d a j k s
  | .mwLoad fmt image bank src sreg => Sys2Proof.Machine.execMwLoad fmt image bank src sreg s
  | .mwLoads fmt n bank sreg => Sys2Proof.Machine.execMwLoads fmt n bank sreg s
  | .mwClr bank => Sys2Proof.Machine.execMwClr bank s
  | .mfmt fmt stream src => Sys2Proof.Machine.execMfmt fmt stream src s
  | .mma f => Sys2Proof.Machine.execMma f s
  | .mmaS f => Sys2Proof.Machine.execMmaS f s
  | .maccRd arow src n k => Sys2Proof.Machine.execMaccRd arow src n k s
  | .maccWr arow src n k => Sys2Proof.Machine.execMaccWr arow src n k s
  | .maccCvt toF32 arow src n sreg k => Sys2Proof.Machine.execMaccCvt toF32 arow src n sreg k s
  | .maccZero arow n => Sys2Proof.Machine.execMaccZero arow n s
  | .maccSpill arow n sreg ev eve => Sys2Proof.Machine.execMaccSpill arow n sreg ev eve s
  | .maccFill arow n sreg ev eve => Sys2Proof.Machine.execMaccFill arow n sreg ev eve s
  | .mstat d => Sys2Proof.Machine.execMstat d s
  | .response tag status cause detail data => Sys2Proof.Machine.execResponse tag status cause detail data s
  | .interruptToHost vector reason body => Sys2Proof.Machine.execInterruptToHost vector reason body s
  | .bulkData src tag data => Sys2Proof.Machine.execBulkData src tag data s
  | .bulkWriteRequest tag addr p len => Sys2Proof.Machine.execBulkWriteRequest tag addr p len s
  | .bulkReadRequest tag addr p len => Sys2Proof.Machine.execBulkReadRequest tag addr p len s
  | .fabricRead src tag off asid len => Sys2Proof.Machine.execFabricRead src tag off asid len s
  | .fabricWrite src tag off asid data => Sys2Proof.Machine.execFabricWrite src tag off asid data s
  | .fabricAtomic src tag off asid op w o v c => Sys2Proof.Machine.execFabricAtomic src tag off asid op w o v c s
  | .fabricPublication src no asid => Sys2Proof.Machine.execFabricPublication src no asid s
  | .publicationAcknowledgement src no asid => Sys2Proof.Machine.execPublicationAcknowledgement src no asid s
  | .barrierArrival idx h asid gid ph => Sys2Proof.Machine.execBarrierArrival idx h asid gid ph s
  | .proxyTokenMessage idx h asid gid ph => Sys2Proof.Machine.execProxyTokenMessage idx h asid gid ph s
  | .tokenWithdrawal idx h asid gid ph => Sys2Proof.Machine.execTokenWithdrawal idx h asid gid ph s
  | .phaseCompleteMessage idx h asid gid ph => Sys2Proof.Machine.execPhaseCompleteMessage idx h asid gid ph s
  | .groupJoinMessage idx h asid gid ph => Sys2Proof.Machine.execGroupJoinMessage idx h asid gid ph s
  | .groupLeaveMessage idx h asid gid ph => Sys2Proof.Machine.execGroupLeaveMessage idx h asid gid ph s
  | .multicastReduceContribution tag p addr idx h ty v seq => Sys2Proof.Machine.execMulticastReduceContribution tag p addr idx h ty v seq s
  | .roundSumMessage p addr v => Sys2Proof.Machine.execRoundSumMessage p addr v s
  | .creditOnly port chan n => Sys2Proof.Machine.execCreditOnly port chan n s
  | .syncGroupIssue h => Sys2Proof.Machine.execSyncGroupIssue h s
  | .resultWrite h st => Sys2Proof.Machine.execResultWrite h st s
  | .landingDataArrival h st => Sys2Proof.Machine.execLandingDataArrival h st s
  | .landingPoint h st => Sys2Proof.Machine.execLandingPoint h st s
  | .writeQueueDrain h => Sys2Proof.Machine.execWriteQueueDrain h s
  | .publicationAck h st => Sys2Proof.Machine.execPublicationAck h st s
  | .atomicPerform id => Sys2Proof.Machine.execAtomicPerform id s
  | .mrContributionArrival => Sys2Proof.Machine.execMrContributionArrival s
  | .barTimeout h => Sys2Proof.Machine.execBarTimeout h s
  | .queueStall h => Sys2Proof.Machine.execQueueStall h s
  | .streamPrefetch h q => Sys2Proof.Machine.execStreamPrefetch h q s
  | .checkerMatch h => Sys2Proof.Machine.execCheckerMatch h s
  | .rollback h => Sys2Proof.Machine.execRollback h s
  | .rollbackResume h => Sys2Proof.Machine.execRollbackResume h s
  | .copyCommandStart h => Sys2Proof.Machine.execCopyCommandStart h s
  | .copyBurst h => Sys2Proof.Machine.execCopyBurst h s
  | .copyComplete h => Sys2Proof.Machine.execCopyComplete h s
  | .followOnEntry h => Sys2Proof.Machine.execFollowOnEntry h s
  | .matrixCommandStart h => Sys2Proof.Machine.execMatrixCommandStart h s
  | .mmaRowFeed h => Sys2Proof.Machine.execMmaRowFeed h s
  | .operandsConsumed h => Sys2Proof.Machine.execOperandsConsumed h s
  | .mmaResultWrite h => Sys2Proof.Machine.execMmaResultWrite h s
  | .weightFillComplete h => Sys2Proof.Machine.execWeightFillComplete h s
  | .maccComplete h => Sys2Proof.Machine.execMaccComplete h s
  | .engineEventPost h => Sys2Proof.Machine.execEngineEventPost h s
  | .hazelCommandStart h => Sys2Proof.Machine.execHazelCommandStart h s
  | .hazelNodeAtomic h => Sys2Proof.Machine.execHazelNodeAtomic h s
  | .walkComplete id => Sys2Proof.Machine.execWalkComplete id s
  | .invalidationComplete p => Sys2Proof.Machine.execInvalidationComplete p s
  | .trapRecordComplete h => Sys2Proof.Machine.execTrapRecordComplete h s
  | .trapQueueEntry h => Sys2Proof.Machine.execTrapQueueEntry h s
  | .trapRecordOpen p => Sys2Proof.Machine.execTrapRecordOpen p s
  | .ntstatRead h => Sys2Proof.Machine.execNtstatRead h s
  | .thresholdWindowEnd h cls => Sys2Proof.Machine.execThresholdWindowEnd h cls s
  | .errinjArm h v => Sys2Proof.Machine.execErrinjArm h v s
  | .budget h => Sys2Proof.Machine.execBudget h s
  | .sliceSelect h => Sys2Proof.Machine.execSliceSelect h s
  | .sliceResume h => Sys2Proof.Machine.execSliceResume h s
  | .deadlinePassed h => Sys2Proof.Machine.execDeadlinePassed h s
  | .stealRequest h => Sys2Proof.Machine.execStealRequest h s
  | .stealServe victim thief => Sys2Proof.Machine.execStealServe victim thief s
  | .stealRetryWait h => Sys2Proof.Machine.execStealRetryWait h s
  | .spillEntryReturn h => Sys2Proof.Machine.execSpillEntryReturn h s
  | .preEmptionDecision h => Sys2Proof.Machine.execPreEmptionDecision h s
  | .checkpointWindowExpiry h => Sys2Proof.Machine.execCheckpointWindowExpiry h s
  | .predecDrain p h => Sys2Proof.Machine.execPredecDrain p h s
  | .predecCheckpoint p h => Sys2Proof.Machine.execPredecCheckpoint p h s
  | .predecKill p h => Sys2Proof.Machine.execPredecKill p h s
  | .predecCancel p h => Sys2Proof.Machine.execPredecCancel p h s
  | .freezeCapture asid => Sys2Proof.Machine.execFreezeCapture asid s
  | .partXinv p v => Sys2Proof.Machine.execPartXinv p v s
  | .xsvcWalkAgain p tag => Sys2Proof.Machine.execXsvcWalkAgain p tag s
  | .xsvcFail p tag => Sys2Proof.Machine.execXsvcFail p tag s
  | .partEvqRead p => Sys2Proof.Machine.execPartEvqRead p s
  | .spillBaseWrite p v => Sys2Proof.Machine.execSpillBaseWrite p v s
  | .controlRegisterWrite p off v => Sys2Proof.Machine.execControlRegisterWrite p off v s
  | .ageStep h => Sys2Proof.Machine.execAgeStep h s
  | .refresh g => Sys2Proof.Machine.execRefresh g s
  | .heartbeat h => Sys2Proof.Machine.execHeartbeat h s
  | .autonomousMode h => Sys2Proof.Machine.execAutonomousMode h s
  | .rejoinHeartbeat h => Sys2Proof.Machine.execRejoinHeartbeat h s
  | .sweep h => Sys2Proof.Machine.execSweep h s
  | .temperatureReading h => Sys2Proof.Machine.execTemperatureReading h s
  | .wipeComplete h => Sys2Proof.Machine.execWipeComplete h s
  | .deviceReset => Sys2Proof.Machine.execDeviceReset s
  | .accessCounterHalving => Sys2Proof.Machine.execAccessCounterHalving s
  | .boostInterval d => Sys2Proof.Machine.execBoostInterval d s
  | .portTraining port lanes => Sys2Proof.Machine.execPortTraining port lanes s
  | .portDown port => Sys2Proof.Machine.execPortDown port s
  | .crcFailure port => Sys2Proof.Machine.execCrcFailure port s
  | .fabricTimeout h st => Sys2Proof.Machine.execFabricTimeout h st s
  | .hostLaunch tag p packet mask => Sys2Proof.Machine.execHostLaunch tag p packet mask s
  | .controlWindowRead tag addr => Sys2Proof.Machine.execControlWindowRead tag addr s
  | .controlWindowWrite tag addr data => Sys2Proof.Machine.execControlWindowWrite tag addr data s
  | .lcstate tag target seq digest secret key sig => Sys2Proof.Machine.execLcstate tag target seq digest secret key sig s
  | .attest tag nonce => Sys2Proof.Machine.execAttest tag nonce s
  | .assign tag p halls hbm asids => Sys2Proof.Machine.execAssign tag p halls hbm asids s
  | .modid tag id => Sys2Proof.Machine.execModid tag id s
  | .wsdesc tag idx desc shards => Sys2Proof.Machine.execWsdesc tag idx desc shards s
  | .wspub tag idx => Sys2Proof.Machine.execWspub tag idx s
  | .ckall tag ports dest base => Sys2Proof.Machine.execCkall tag ports dest base s
  | .restall tag ports src base => Sys2Proof.Machine.execRestall tag ports src base s
  | .super tag p restart packet mask => Sys2Proof.Machine.execSuper tag p restart packet mask s
  | .keyx tag finish body => Sys2Proof.Machine.execKeyx tag finish body s
  | .sweepEnd h => Sys2Proof.Machine.execSweepEnd h s
  | .unknownTypeMessage port ty tag => Sys2Proof.Machine.execUnknownTypeMessage port ty tag s
  | .discardedFlit port => Sys2Proof.Machine.execDiscardedFlit port s

end Sys2Proof.Machine
end

