-- ==== Sys2Proof/Machine/Receive.lean ====
section
/-! DEFINITION. Receiving (R404 to R410, R421): flits as they arrive at a port, the messages that they carry, and where those act. -/

namespace Sys2Proof.Machine

/-- Management messages (R410), and the tag that their refusal carries. -/
def manageTag (m : Instr) : Option (BitVec 16) :=
  match m with
  | .lcstate t .. | .attest t .. | .assign t .. | .modid t .. | .wsdesc t .. | .wspub t .. | .ckall t .. | .restall t .. | .super t ..
  | .keyx t .. => some t
  | _ => none

/-- Steps that are no messages: the link's own, and device reset. -/
def linkStep (m : Instr) : Bool :=
  match m with
  | .portTraining .. | .portDown .. | .crcFailure .. | .creditOnly .. | .discardedFlit .. | .deviceReset => true
  | _ => false

/-- Flits of a channel have left a port's buffer: their credits are to be returned (R408). -/
def State.owe (s : State) (n chan k : Nat) : State :=
  s.onPortN n fun P => { P with seqIn := P.seqIn + BitVec.ofNat 16 k, owed := P.owed.mapIdx fun i x => if i = chan then x + k else x }

/-- A message acts: a management message only from ports 0 and 1 (R404), another only while the firmware runs, without which nothing else is answered
(R421). -/
def State.takeMessage (s : State) (ex : Instr → State → Out) (n : Nat) (m : Instr) : Out :=
  match manageTag m with
  | some t => if n < 2 then ex m s else .next (s.decline t .subtype)
  | none => if linkStep m || s.running then ex m s else .next s

/-- The next message or link event that needs no port's buffer any more acts. -/
def State.deliverNext (ex : Instr → State → Out) (s : State) : Out :=
  match s.inbox with
  | [] => .next s
  | (n, m) :: rest =>
    let s := { s with inbox := rest }
    (if n < 12 && !linkStep m then s.owe n (chanOf m) (flitsOf m) else s).takeMessage ex n m

/-! Management bodies (R410). -/

/-- The life-cycle states that allow a subtype (R410). -/
def subtypeLife (sub : Nat) : List Life :=
  if sub ≤ 2 then [.MANUFACTURE, .PROVISIONED, .DEPLOYED, .RETURNED]
  else if sub = 3 then [.PROVISIONED, .DEPLOYED]
  else if sub = 4 then [.PROVISIONED] else [.DEPLOYED]

/-- A management message with its whole body: one that is malformed is refused. -/
def State.takeBody (s : State) (ex : Instr → State → Out) (n : Nat) (b : LongBody) : Out :=
  match bodyGives b.tag b.sub b.seq (b.body.take b.len) with
  | some m => s.takeMessage ex n m
  | none => .next (s.inLife b.tag (subtypeLife b.sub) fun s => s.decline b.tag .body)

/-- A management flit (R410): a body of more than 224 bytes goes on in bulk data with the same TAG. -/
def State.takeManagement (s : State) (ex : Instr → State → Out) (n : Nat) (tag : BitVec 16) (d : Bytes) : Out :=
  let sub := fieldAt d 0 2
  let len := fieldAt d 4 4
  let b : LongBody := { tag := tag, sub := sub, seq := wordAt d 8, len := len, body := (d.drop 16).take 224 }
  if 2 ≤ n then .next (s.decline tag .subtype)
  else if sub = 0 ∨ 10 < sub then ex (.unknownTypeMessage (BitVec.ofNat 4 n) 0x10 tag) s
  else if fieldAt d 2 2 ≠ 0 ∨ 1048576 < len ∨ (b.body.drop len).any (· != 0) then
    .next (s.inLife tag (subtypeLife sub) fun s => s.decline tag .body)
  else if len ≤ 224 then s.takeBody ex n b
  else .next { s with longBodies := s.longBodies.filter (fun (x : LongBody) => x.tag != tag) ++ [b] }

/-- A bulk train has arrived whole (R407): the rest of a management body, or data of a transfer. -/
def State.takeTrain (s : State) (ex : Instr → State → Out) (n : Nat) (src tag : BitVec 16) (d : Bytes) : Out :=
  match (if n < 2 then s.longBodies.find? fun x => x.tag == tag else none) with
  | none => s.takeMessage ex n (.bulkData src tag d)
  | some b =>
    let b := { b with body := b.body ++ d }
    let s := { s with longBodies := s.longBodies.filter fun x => x.tag != tag }
    if b.len ≤ b.body.length then s.takeBody ex n b else .next { s with longBodies := s.longBodies ++ [b] }

/-! Flits (R405, R406, R408). -/

/-- The partition that shares its fabric group with a module, by the routes (R413). -/
def State.groupPart (s : State) (src : BitVec 16) : PartId :=
  BitVec.ofNat 4 (((List.range 16).find? fun p =>
    let P := s.part (BitVec.ofNat 4 p)
    P.fabGroup != 0 && (List.range P.fabNmod.toNat).any fun m => (P.routes[m]?.getD 0).extractLsb' 16 16 == src).getD 0)

/-- A message that its receiver refuses (R409): a request gets a refused response (log 6), another is dropped. -/
def State.refuseFlit (s : State) (chan : Nat) (src tag : BitVec 16) : State :=
  if chan = 0 && s.running then s.refusePlain src tag else s

/-- A flit with a header has been accepted: its message acts, or its train goes on. The channel of a TYPE is that of R406. -/
def State.takeHeader (s : State) (ex : Instr → State → Out) (n : Nat) (f : Bytes) : Out :=
  let ty := fieldAt f 0 1
  let chan := fieldAt f 1 1 % 4
  let more := fieldAt f 1 1 / 4
  let src : BitVec 16 := BitVec.ofNat 16 (fieldAt f 2 2)
  let tag : BitVec 16 := BitVec.ofNat 16 (fieldAt f 10 2)
  let d := f.drop 16
  if ty = 0 then .next s
  else if ty = 0x07 then
    if chan ≠ 2 then .next (s.refuseFlit chan src tag)
    else if more = 0 then s.takeTrain ex n src tag d
    else .next (s.onPortN n fun P => { P with train := some { src := src, tag := tag, left := more, data := d } })
  else if 0x10 < ty then (if s.running then ex (.unknownTypeMessage (BitVec.ofNat 4 n) (BitVec.ofNat 8 ty) tag) s else .next s)
  else if ty = 0x10 then (if chan = 0 then s.takeManagement ex n tag d else .next s)
  else match messageOf (s.groupPart src) src tag ty d with
    | some m => if chanOf m = chan then s.takeMessage ex n m else .next (s.refuseFlit chan src tag)
    | none => .next (s.refuseFlit chan src tag)

/-- The next flit in a port's buffer (R405): one that fails its CRC, or has a reserved VC or a LEN outside the bulk channel, is not accepted, and
neither is one out of SEQ order. An accepted one returns the credits that it names and owes its own (R408); a credit flit owes none. -/
def State.takeFlit (s : State) (ex : Instr → State → Out) (n : Nat) (f : Bytes) : Out :=
  let port : BitVec 4 := BitVec.ofNat 4 n
  match (s.port n).train with
  | some t =>
    if !continuationOk f then ex (.crcFailure port) s
    else
      let d := t.data ++ f.take 252
      let s := (s.owe n 2 1).onPortN n fun P => { P with train := if t.left = 1 then none else some { t with left := t.left - 1, data := d } }
      if t.left = 1 then s.takeTrain ex n t.src t.tag d else .next s
  | none =>
    let chan := fieldAt f 1 1 % 4
    if !headerOk f then ex (.crcFailure port) s
    else if chan = 3 ∨ (fieldAt f 1 1 / 4 ≠ 0 ∧ chan ≠ 2) then ex (.discardedFlit port) s
    else if fieldAt f 6 2 ≠ (s.port n).seqIn.toNat then .next s
    else
      let credit := fieldAt f 8 2
      let s := s.creditBack n (credit % 4) (credit / 4)
      let s := if fieldAt f 0 1 = 0 then s.onPortN n fun P => { P with seqIn := P.seqIn + 1 } else s.owe n chan 1
      s.takeHeader ex n f

/-- The first port with a flit in its buffer. -/
def State.rxPort (s : State) : Option Nat := (List.range 12).find? fun n => !(s.port n).rx.isEmpty

/-- The next flit of a port is taken out of its buffer. -/
def State.receive (s : State) (ex : Instr → State → Out) (n : Nat) : Out :=
  match (s.port n).rx with
  | [] => .next s
  | f :: rest => (s.onPortN n fun P => { P with rx := rest }).takeFlit ex n f

end Sys2Proof.Machine
end

