-- ==== Sys2Proof/Machine/Schedule.lean ====
section
/-! DEFINITION. How the machine goes on (R4, R11, R19, R117, R258, R427; log 1): the parts of a Hall cycle, the device's own events, and
the advance of device time. -/

namespace Sys2Proof.Machine

/-- Apply a step up to n times, while it is due. -/
def State.drive (s : State) (due : State → Bool) (f : State → State) : Nat → State
  | 0 => s
  | n + 1 => if due s then (f s).drive due f n else s

/-! The start of a Hall cycle: what has come due. -/

/-- A strand's results and landing points that are due are written, in their order (R20, R24). -/
def State.settleStrand (s : State) (h : HallId) (st : Strand) : State :=
  let x := s.strand h st
  (List.range (x.pends.length + x.slots.length)).foldl (fun s _ => (s.writeResult h st).land h st) s

/-- A strand's data that arrives (R24). -/
def State.takeArrivals (s : State) (h : HallId) (st : Strand) : State :=
  (List.range (s.strand h st).slots.length).foldl (fun s _ =>
    match s.arriving? h st with | some t => s.arrive h st t | none => s) s

/-- The write queue drains as far as its time has come (R125). -/
def State.drainQueue (s : State) (h : HallId) : State :=
  s.drive (fun s => (s.hall h).drainable.isSome) (fun s => Out.state (execWriteQueueDrain h s) s) (s.hall h).overlay.length

/-- The matrix engine's results that are due (R182, R187, R191). -/
def State.matrixDue (s : State) (h : HallId) : State :=
  let s := s.drive (fun s => (s.hall h).writeDue.isSome) (fun s => Out.state (execMmaResultWrite h s) s) 512
  let s := s.drive (fun s => (s.hall h).fillDue.isSome) (fun s => Out.state (execWeightFillComplete h s) s) 1
  s.drive (fun s => (s.hall h).maccDue.isSome) (fun s => Out.state (execMaccComplete h s) s) 16

/-- Counts, token queues and engine queues are sampled for the Hall cycle that begins (R16, R117). -/
def Hall.sample (H : Hall) : Hall :=
  { H with
    sampledEv := H.work.evs.map (·.count), sampledTok := H.work.toks.map List.length
    sampledCq := H.copyLoad, sampledMq := H.mq.length, sampledHq := H.hazelLoad }

/-- A strand's share of the start of a Hall cycle, once its results and landings are written. -/
def State.startStrand (s : State) (h : HallId) (st : Strand) : State :=
  let s := s.ackPublication h st
  Out.state (execFabricTimeout h st s) s

/-- The start of a Hall cycle: first the strand writes that the cycle before has completed, in ring order, then its engine writes (R158). -/
def State.startCycle (s : State) (h : HallId) : State :=
  let s := ring.foldl (fun s st => s.settleStrand h st) s
  let s := ring.foldl (fun s st => s.startStrand h st) (s.onHall h Hall.writeTiles)
  let s := (s.drainQueue h).matrixDue h
  let s := ((s.recordDone h).enterTrap h).overBudget h
  let s := [0, 1, 2].foldl (fun s k => s.endWindow h k) s
  let s := s.windowExpires h
  let s := Out.state (execBarTimeout h s) s
  let s := Out.state (execQueueStall h s) s
  ((s.rollbackStep h).rollbackEnd h).onHall h Hall.sample

/-! The engines. -/

/-- The engines' share of a Hall cycle (R179, R187, R197, R236, R337). -/
def State.engines (s : State) (h : HallId) : State :=
  let due := fun (s : State) =>
    (s.hall h).cq.any (fun c => reached (s.hall h).cycle c.matchAt) || (s.hall h).hq.any (fun c => reached (s.hall h).cycle c.matchAt)
  let s := s.drive due (fun s => s.matchHead h) 64
  let s := s.drive (fun s => (s.hall h).nextMat.isSome) (fun s => Out.state (execMatrixCommandStart h s) s) 16
  let s := s.drive (fun s => (s.hall h).spillDue.isSome || (s.hall h).maccDue.isSome) (fun s => Out.state (execMaccComplete h s) s) 16
  let s := s.drive (fun s => (s.hall h).feedDue.isSome) (fun s => Out.state (execMmaRowFeed h s) s) 2
  let s := (s.fillStep h).startCopy h
  let s := ((s.burst h).followEntry h).completeCopy h
  let s := (s.startHazel h).hazelNode h
  (List.range 8).foldl (fun s q => s.prefetch h q) s

/-! The end of a Hall cycle. -/

/-- Takes and posts of the Hall cycle are counted (R117). A post happens before every take granted in a later Hall cycle, so its order stays
(R277). -/
def Hall.mergeEvent (H : Hall) (e : Nat) (v : HEvent) : HEvent :=
  let left := v.count - H.evTakes e
  { count := left + H.evPosts e, stamp := v.stamp.join v.next, next := .empty }

/-- The events as the Hall cycle leaves them. -/
def Hall.mergeEvents (H : Hall) : Hall :=
  let f := fun (e : Nat) (v : HEvent) => H.mergeEvent e v
  { H with work := { H.work with evs := H.work.evs.mapIdx f }, takes := Vector.replicate 32 0, postsNow := Vector.replicate 32 0 }

/-- The sync edge of a group that has issued (R18, R277). -/
def Hall.joinSync (H : Hall) : Hall :=
  if !H.syncGo then H
  else
    let t := ring.foldl (fun (t : Stamp) st => t.join ((H.work.strand st).stamp H.sliceId st)) .empty
    ring.foldl (fun H st => H.onStrand st fun x => { x with clock := t.clock, heard := t.heard }) H

/-- A strand's local cycle ends (R19, R24): it counts unless the strand is frozen, and the next one is frozen when data is awaited. -/
def StrandState.endCycle (x : StrandState) : StrandState :=
  let x := { x with local_ := if x.frozen then x.local_ else x.local_ + 1 }
  { x with frozen := x.awaits }

/-- Counters of the slice and of a pending pre-emption go on (R93, R305, R314). A slice counts as running from its start until it has left the
Hall, a stop for a trap and its switch-out included; only while a restore fills it does it not run (DESIGN CHOICE, log 36). -/
def Hall.tickSlice (H : Hall) (tick : Nat) : Hall :=
  let charge := H.charging
  let H := H.onSlice fun sl =>
    { sl with
      left := if charge then sl.left - 1 else sl.left
      thresh := if H.restore = .off then sl.thresh.map fun t => { t with pos := t.pos + 1 } else sl.thresh }
  { H with preempt := H.preempt.map fun e =>
      { e with left := if H.trap.isSome then e.left else e.left - (tick - e.lastTick), lastTick := tick } }

/-- The Hall goes to its next cycle. -/
def Hall.nextCycle (H : Hall) : Hall :=
  { H with
    cycle := H.cycle + 1, nextTick := H.nextTick + H.levelTicks, phase := .start, syncGo := false, syncTried := false
    walkFaults := H.walkFaults.filter fun f => H.cycle ≤ f.cycle }

/-- Contexts that are being frozen are captured once none of their slices runs (R324). -/
def State.captures (s : State) : State :=
  (s.ctxs.filter fun c => c.freezing.isSome).foldl (fun s c => s.captureContext c.asid) s

/-- The thieves that ask a Hall are served, in ascending order (R306). -/
def State.serveAll (s : State) (h : HallId) : State :=
  ((s.victims h).mergeSort fun a b => a.toNat ≤ b.toNat).foldl (fun s t => s.serve h t) s

/-- A slice that has stopped for a trap: what has drained in this Hall cycle is written, and its record is complete in the Hall cycle in
which the last slot has drained (R392). -/
def State.drainStopped (s : State) (h : HallId) : State :=
  let stopped := match (s.hall h).trap with | some t => Decidable.decide (t.cycle < (s.hall h).cycle) && !t.complete | none => false
  ((if stopped then ring.foldl (fun s st => s.settleStrand h st) s else s).recordDone h).enterTrap h

/-- The end of a Hall cycle (R24, R117, R118, R211, R304 to R324): the data that arrives in it, what it commits, and what begins or leaves
at its end. -/
def State.finish (s : State) (h : HallId) : State :=
  let s := (ring.foldl (fun s st => s.takeArrivals h st) s).drainStopped h
  let s := s.csrCommit h
  let s := s.onHall h fun H => (H.joinSync.sealRegion).mergeEvents
  let s := s.drive (fun s => (s.hall h).consumed.isSome) (fun s => Out.state (execOperandsConsumed h s) s) 16
  let s := s.engineEventPost h
  let s := s.onHall h fun H => (ring.foldl (fun (H : Hall) st => H.onStrand st (·.endCycle)) H).tickSlice s.tick
  let s := ((s.writeLog h).resumeStep h).leaveStep h
  let s := ((((s.captures.releaseDue).unspill h).selectNext h).retrySteal h).askVictim h
  let s := ((s.serveAll h).preemptStep h).deadlines h
  s.onHall h Hall.nextCycle

/-! The device's own events. -/

/-- What is left before a pending request's deadline, in age units (R258). -/
def State.margin (s : State) (g : Nat) : Nat := let v := s.rowGroup g; refreshDeadline v.cls - v.age

/-- The requests that a plinth's Usher core is to serve, in order of remaining margin: those of its Halls whose controllers are not in
autonomous mode (R258, R259). -/
def State.usherPending (s : State) (plinth : Nat) : List Nat :=
  ((s.rowGroups.filter fun e => plinthOf (hallOfGroup e.1) == plinth && e.2.req && !(s.hall (hallOfGroup e.1)).auto).map (·.1)).mergeSort
    fun a b => s.margin a ≤ s.margin b

/-- The Usher core refreshes the unlisted row groups of a Hall's pool, at a free moment before their deadline (R258, R343; log 31). -/
def State.usherPool (s : State) (h : HallId) : State :=
  if !(s.hall h).poolReq then s
  else
    let (k, s) := s.drawChoice
    if k % 2 = 0 || refreshDeadline .P ≤ (s.hall h).poolAge + 1 then s.onHall h fun H => { H with poolAge := 0, poolReq := false } else s

/-- The refreshes that the Usher core of a Hall's plinth makes at an age step of that Hall (R258): it serves the pending requests of its 128
Halls in order of remaining margin, as many as a free choice says, and in any case as far as the last of this Hall's whose deadline the next step
could reach. -/
def State.usherRefresh (s : State) (h : HallId) : State :=
  let s := s.usherPool h
  let pending := s.usherPending (plinthOf h)
  if pending.isEmpty then s
  else
    let (k, s) := s.drawChoice
    let late := (pending.reverse.dropWhile fun g => hallOfGroup g != h || 1 < s.margin g).length
    (pending.take (max late (k % (pending.length + 1)))).foldl State.refreshGroup s

/-- The Usher core's share of an age step (R258, R259): a heartbeat at least in every fourth, a rejoin heartbeat to a controller in
autonomous mode, and refreshes. -/
def State.usher (s : State) (h : HallId) : State :=
  if !s.running || !Config.usherWorks (plinthOf h) s.devtime then s
  else if (s.hall h).auto then Out.state (execRejoinHeartbeat h s) s
  else
    let (k, s) := s.drawChoice
    let s := if k % 2 = 0 || 4 ≤ (s.hall h).noBeat then Out.state (execHeartbeat h s) s else s
    s.usherRefresh h

/-- An age step of a gallery with what its controller and the Usher core do at it (R251, R258, R259). -/
def State.ageEvent (s : State) (h : HallId) : State :=
  let s := ((s.ageStep h).usher h).goAutonomous h
  let s := Out.state (execSweep h s) s
  let s := s.sweepStep h
  Out.state (execSweepEnd h s) s

/-- The Halls. -/
def allHalls : List HallId := (List.range 256).map (BitVec.ofNat 8)

/-- A wipe of a gallery is over (R264). -/
def State.wipeDue (s : State) (h : HallId) : Bool := match (s.hall h).wipeEnds with | some t => t ≤ s.tick | none => false

/-- An invalidation can complete (R389). -/
def State.xinvDue (s : State) (p : PartId) : Bool := match (s.part p).xinv with | some x => s.xinvReady x | none => false

/-- The next of the device's events that is due: none when there is none. -/
def State.deviceEvent (s : State) : Option State :=
  match (List.range 32).find? fun d => s.boostAt[d]?.getD 0 ≤ s.tick with
  | some d => some (s.boostInterval (BitVec.ofNat 5 d))
  | none =>
    if s.halveAt ≤ s.tick then some (Out.state (execAccessCounterHalving s) s)
    else match allHalls.find? s.wipeDue with
    | some h => some (Out.state (execWipeComplete h s) s)
    | none =>
      match s.walks.find? fun w => match w.endsAt with | some t => t ≤ s.tick | none => false with
      | some w => some (s.endWalk w.id)
      | none =>
        match (List.range 16).find? fun p => s.xinvDue (BitVec.ofNat 4 p) with
        | some p => some (s.endXinv (BitVec.ofNat 4 p))
        | none =>
          match s.atomics.find? fun a => a.performAt ≤ s.tick with
          | some a => some (Out.state (execAtomicPerform a.id s) s)
          | none => if s.sends.isEmpty then none else some s.mrArrive

/-- What the galleries do in the Hall cycles that begin now: readings of the sensor, age steps with their expiries, and the refreshes made at them.
It comes before every access of those cycles, a boost interval and the device's other events (R253, R429): none when none is due. -/
def State.galleryEvent (s : State) : Option State :=
  (allHalls.find? fun h => (s.hall h).nextTick ≤ s.tick && ((s.hall h).readingDue || s.ageDue h)).map fun h =>
    if (s.hall h).readingDue then s.readSensor h else s.ageEvent h

/-- A Hall begins its next cycle. -/
def State.beginCycle (s : State) (h : HallId) : State :=
  ({ s with curHall := h }.startCycle h).onHall h fun H => { H with phase := .engines }

/-! Device time. -/

/-- The Hall whose cycle begins next: the least time, then the least number. -/
def State.leastHall (s : State) : HallId :=
  allHalls.foldl (fun m h => if (s.hall h).nextTick < (s.hall m).nextTick then h else m) 0

/-- The next moment at which something happens. -/
def State.nextMoment (s : State) : Nat :=
  let times : List Nat :=
    s.boostAt.toList ++ [s.halveAt] ++ s.halls.toList.filterMap (·.wipeEnds) ++ s.walks.filterMap (·.endsAt) ++ s.atomics.map (·.performAt)
  times.foldl min (s.hall s.leastHall).nextTick

/-- Device time advances (R4): what strikes memory meanwhile, and what leaves over Hirothlink. -/
def State.advance (s : State) : State :=
  let s := { s with tick := max s.tick s.nextMoment, free := s.free + 1 }.struck (Config.strikes s.free)
  s.extendMeasure.bulkTrain.transmit

/-- Between two Hall cycles (log 1): what the galleries do, an arriving message, an event of the device, the start of a Hall's cycle, or the advance
of time. -/
def State.between (ex : Instr → State → Out) (s : State) : Out :=
  match s.galleryEvent with
  | some t => .next t
  | none =>
    if !s.inbox.isEmpty then s.deliverNext ex
    else match s.rxPort with
    | some n => s.receive ex n
    | none => .next (match s.deviceEvent with
      | some t => t
      | none =>
        let h := s.leastHall
        if (s.hall h).nextTick ≤ s.tick then s.beginCycle h
        else s.advance)

/-- The part of its cycle after a strand's turn. -/
def afterTurn : Strand → Phase
  | .S => .strand .L | .L => .strand .M | .M => .strand .V | .V => .finish

/-- The next part of the cycle of the Hall at hand. -/
def State.goOn (ex : Instr → State → Out) (s : State) (h : HallId) : Phase → State
  | .start => s
  | .engines => ((s.engines h).syncTrial ex h).onHall h fun H => { H with phase := .strand .S }
  | .strand st => (s.turn ex h st).onHall h fun H => { H with phase := afterTurn st }
  | .finish => s.finish h

end Sys2Proof.Machine
end

