-- ==== Sys2Proof/Machine/Place.lean ====
section
/-! DEFINITION. The loader's write into a gallery (R63), and a syllable placed where the next step fetches it (log 22): what loading and
launching a program comes to. -/

namespace Sys2Proof.Machine

/-- The loader readies a row group that a data section touches: it is written whole, its bytes those that it holds when it is valid and zeros when it is
not, and becomes valid at age 0 with the context as its owner and the class and policy of its `.life` setting, or its own (R62, R63, R252). -/
def State.loadGroup (s : State) (asid : Asid) (life : Option (LifeClass × LifePolicy)) (g : Nat) : State :=
  let inside := fun (a : Nat) => galleryTop + 4096 * g ≤ a && a < galleryTop + 4096 * (g + 1)
  let v := s.rowGroup g
  let s := { s with mem := if v.valid then s.mem else s.mem.filter fun c => !inside c.1
                    hist := s.hist.filter fun v => !inside (64 * v.line)
                    flaws := s.flaws.filter fun a => !inside a }.coverRowGroup g asid
  match life with
  | some (c, p) => s.setRowGroup g { s.rowGroup g with cls := c, pol := p }
  | none => s

/-- The loader's write of bytes of a data section that lie in a gallery (R63, R252). What it writes stands there before every version that a program
makes (log 22). -/
def State.loadData (s : State) (asid : Asid) (a : Nat) (bs : Bytes) (life : Nat → Option (LifeClass × LifePolicy)) : State :=
  let s := (dedup ((runFrom a bs.length).filterMap rowGroupOf)).foldl (fun s g => s.loadGroup asid (life g) g) s
  { s with mem := Memory.write s.mem (cellsAt a bs) }

/-- Where the placed syllable stands: the first bytes of the own gallery (R34). -/
def placedPc : Word := BitVec.ofNat 64 ownBase

/-- NOP with the sync mark, at which the other strands stand. -/
def nopSync : Word := 0x0010A60000000000

/-- The launch packet of the placed slice: context 1, priority 0, the least budget. -/
def placedPacket : Packet :=
  { prio := 0, deadlineKind := false, restart := false, kd := placedPc, asid := 1, cb := 0, budget := 1, lo := 0, hi := 0, rel := false, args := [] }

/-- A strand that is about to take the syllable at an address, in the present Hall cycle. -/
def placedStrand (pc : Word) : StrandState := StrandState.start pc [] 0 []

/-- The placed slice's work: one strand stands at the syllable, the others behind it. -/
def placedWork (st : Strand) : Work :=
  Work.setStrand { Work.fresh with S := placedStrand (placedPc + 8), L := placedStrand (placedPc + 8), M := placedStrand (placedPc + 8),
                                   V := placedStrand (placedPc + 8) } st (placedStrand placedPc)

/-- Partition 0 as the placed slice needs it: Hall 0 and a supervisor context 1. -/
def Part.hosting (P : Part) : Part :=
  { P with present := true, halls := P.halls ||| 1#256, asids := P.asids ||| 2#4096, ctxRecs := sset P.ctxRecs 8 3#64, ctxUsed := sset P.ctxUsed 8 3#64, supSlice := some 0 }

/-- Hall 0 with the placed slice, in the middle of its cycle: the turn of the strand that takes the syllable, its sync group granted. -/
def Hall.hosting (H : Hall) (st : Strand) : Hall :=
  { H with
    part := some 0, phase := .strand st, work := placedWork st, syncGo := true, trap := none, back := none, switch := none, preempt := none
    restore := .off, mFault := none, overlay := [], sampledEv := Vector.replicate 32 0, sampledTok := Vector.replicate 8 0
    takes := Vector.replicate 32 0, postsNow := Vector.replicate 32 0
    slice := some { Slice.fresh 0 placedPacket [] 0 0 0 true 0 with supervisor := true } }

/-- The strand that takes a syllable: the first whose class it may be (R12, R50). -/
def strandFor (w : Word) : Strand := (ring.find? fun st => strandAccepts w st).getD .S

/-- The state in which the next step takes the syllable w, on the strand of its class, in supervisor mode. -/
def State.placed (s : State) (w : Word) : State :=
  let a := galleryBase 0
  let s := s.loadData 1 a (bytesOfWord w ++ bytesOfWord nopSync) fun _ => none
  ({ s with
     curHall := 0, inbox := [], running := true, measure := if s.measure.isEmpty then List.replicate 64 0 else s.measure }.onPart 0 Part.hosting).onHall 0 fun H => H.hosting (strandFor w)

end Sys2Proof.Machine
end

