-- ==== Sys2Proof/Machine/Step.lean ====
section
/-! DEFINITION. The step of the machine, and an instruction placed where the next step fetches (log 1, log 22). -/

namespace Sys2Proof.Machine

/-- One step of the module: the firmware's verification first after reset (R421), then the next part of the Hall cycle at hand, or what comes
between two Hall cycles. -/
def step (s : State) : Host.Outcome State Fault Refusal :=
  if s.measure.isEmpty then .next s.boot
  else
    match (s.hall s.curHall).phase with
    | .start => s.between exec
    | p => .next (s.goOn exec s.curHall p)

/-- An instruction of one syllable stands where the next step fetches: see State.placed. -/
def State.withFetchWord (s : State) (nbits w : Nat) : State := s.placed (BitVec.ofNat 64 (w % 2 ^ nbits))

end Sys2Proof.Machine
end

