-- ==== Sys2Proof/Safety.lean ====
section
/-! DEFINITION. What counts as a safe run, and the frames: in what terms claims say what a step changes and what it leaves. -/

namespace Sys2Proof.Machine

/-- From s, k steps lead to t: neither a fault nor a refusal on the way. -/
def Reaches (s : State) (k : Nat) (t : State) : Prop := Host.Core.run Sys2Proof.core k s = .next t

/-- A run is safe if no step of it stops. -/
def Safe (s : State) : Prop := ∀ k, ∃ t, Reaches s k t

/-! Frames. -/

/-- Every byte of memory reads as before, the stores that have not left their Halls stand as before, and so does what guards memory: row
groups, poison, bad words, multicast rounds. -/
structure SameMemory (s t : State) : Prop where
  bytes : ∀ a, Memory.byte t.mem a = Memory.byte s.mem a
  overlay : ∀ h, (t.hall h).overlay = (s.hall h).overlay
  groups : t.rowGroups = s.rowGroups
  poison : t.poison = s.poison
  bad : t.bad = s.bad
  rounds : t.rounds = s.rounds

/-- Nothing outside the Hall at issue changes, but for the marks of the syllable at issue (issued, trapped, target). -/
structure OnlyHall (s t : State) : Prop where
  machine : t = { s with halls := t.halls, issued := t.issued, trapped := t.trapped, target := t.target }
  halls : ∀ h, h ≠ s.curHall → t.hall h = s.hall h

/-- Nothing but the strand at issue changes, and the marks of its syllable: no other strand, tile, mask, stream, token, event, accumulator
or queue, nothing of the slice, no control register, no other Hall, no memory. -/
structure OnlyStrand (s t : State) : Prop where
  hall : OnlyHall s t
  here : t.here = { s.here with work := t.here.work }
  strands : ∀ st, st ≠ s.curStrand → t.here.work.strand st = s.here.work.strand st
  work : t.here.work = { s.here.work with S := t.here.work.S, L := t.here.work.L, V := t.here.work.V, M := t.here.work.M }

/-- The syllable has issued with a result of a latency: the strand's pending results grow by one that is due lat local cycles on, no
register is written yet, and nothing else changes (R20). divFree is when the strand's divider is free again. -/
structure Results (s t : State) (lat divFree : Nat) (us : List Upd) : Prop where
  issued : t.issued = true
  trapped : t.trapped = s.trapped
  target : t.target = s.target
  me : t.me = { s.me with seq := s.me.seq + 1, divFree := divFree,
                          pends := s.me.pends ++ [{ seq := s.me.seq, due := s.me.local_ + lat, upds := us }] }
  frame : OnlyStrand s t
  memory : SameMemory s t

/-- The syllable has not issued, and its strand waits, frozen (R16, R19): nothing else changes. -/
structure Freezes (s t : State) : Prop where
  issued : t.issued = false
  trapped : t.trapped = s.trapped
  me : t.me = { s.me with frozen := true }
  frame : OnlyStrand s t
  memory : SameMemory s t

/-- The syllable has not issued, and its strand waits for a unit, not frozen (R16): nothing changes. -/
structure Holds (s t : State) : Prop where
  issued : t.issued = false
  rest : t = { s with issued := false }

/-- The syllable traps exactly: it has no effect, the slice's Hall records the cause on its strand, and nothing else changes (R392, R50). -/
structure Traps (s t : State) (i : TrapInfo) : Prop where
  issued : t.issued = false
  trapped : t.trapped = true
  here : t.here = { s.here with trap := t.here.trap }
  trap : t.here.trap = some { strand := s.curStrand, info := i, cycle := s.here.cycle, complete := false, queued := false, told := false, held := none }
  frame : OnlyHall s t
  memory : SameMemory s t

/-- Nothing has stopped the slice of the Hall at issue: no trap stands, no rollback, and no SLICE.END is in progress. -/
def Unstopped (s : State) : Prop := s.here.trap = none ∧ s.here.back = none ∧ ∀ sl, s.here.slice = some sl → sl.ending = false

/-- The registers read have no pending write that the scoreboard would report (R22). -/
def Readable (s : State) (rd : List Src) : Prop := s.me.stallShort rd = false

end Sys2Proof.Machine

namespace Sys2Proof.Spec

/-! What the manual says of integer results, bit by bit or as integers. -/

/-- The value is one of which a property holds. -/
def is (p : Word → Prop) (v : Option Word) : Prop := ∃ w, v = some w ∧ p w

/-- R98: the quotient truncated toward zero, all ones for a zero divisor. -/
def isQuotient (x y v : Word) : Prop := (y = 0 → v = BitVec.allOnes 64) ∧ (y ≠ 0 → v = BitVec.ofInt 64 (x.toInt.tdiv y.toInt))
/-- R98: the remainder, the dividend for a zero divisor. -/
def isRemainder (x y v : Word) : Prop :=
  (y = 0 → v = x) ∧ (y ≠ 0 → v.toInt = x.toInt - y.toInt * x.toInt.tdiv y.toInt)

/-- R99: bits of a shift by the whole register. -/
def isShl (x n v : Word) : Prop := ∀ k, k < 64 → v.getLsbD k = (decide (n.toNat ≤ k) && x.getLsbD (k - n.toNat))
/-- R99: bits of a shift to the right that brings in zeros. -/
def isShr (x n v : Word) : Prop := ∀ k, k < 64 → v.getLsbD k = (decide (k + n.toNat < 64) && x.getLsbD (k + n.toNat))
/-- R99: bits of a shift to the right that brings in bit 63. -/
def isSar (x n v : Word) : Prop := ∀ k, k < 64 → v.getLsbD k = x.getLsbD (min (k + n.toNat) 63)

/-- R100: the field of w bits from bit off, cut off at bit 63, zero-extended or sign-extended. -/
def isField (x : Word) (off width : Nat) (sx : Bool) (v : Word) : Prop :=
  let w := min (min width 64) (64 - off)
  ((w = 0 ∨ 64 ≤ off) → v = 0) ∧
  (w ≠ 0 ∧ off < 64 → ∀ k, k < 64 → v.getLsbD k = if k < w then x.getLsbD (off + k) else (sx && x.getLsbD (off + w - 1)))

/-- R101: the old value with its bits off to off + w - 1 taken from the source; nothing is written when there are none. -/
def isInsert (old x : Word) (off width : Nat) (v : Option Word) : Prop :=
  let w := min (min width 64) (64 - off)
  ((w = 0 ∨ 64 ≤ off) → v = none) ∧
  (w ≠ 0 ∧ off < 64 →
    is (fun v => ∀ k, k < 64 → v.getLsbD k = if off ≤ k ∧ k < off + w then x.getLsbD (k - off) else old.getLsbD k) v)

/-- Leading zero bits of x: bit 63 - v is the highest one bit. -/
def isClz (x : Word) (v : Word) : Prop :=
  v.toNat ≤ 64 ∧ (∀ k, k < v.toNat → x.getLsbD (63 - k) = false) ∧ (v.toNat < 64 → x.getLsbD (63 - v.toNat) = true)
/-- Trailing zero bits of x: bit v is the lowest one bit. -/
def isCtz (x : Word) (v : Word) : Prop :=
  v.toNat ≤ 64 ∧ (∀ k, k < v.toNat → x.getLsbD k = false) ∧ (v.toNat < 64 → x.getLsbD v.toNat = true)

end Sys2Proof.Spec

namespace Sys2Proof.Spec
open Sys2Proof.Machine

/-! Requests and stores. -/

/-- The n bytes of an access resolve: its address lies in the address space and is aligned, and every byte has a physical address that the
access may use (R120, R431). -/
structure Accessible (s : State) (k : Want) (align : Nat) (a : Word) (n : Nat) (ps : List Nat) : Prop where
  space : a.toNat < 2 ^ 52
  aligned : a.toNat % align = 0
  bytes : resolveAll (s.resolveCached s.mine k) (runFrom a.toNat n) = .ok ps

/-- The strand's memory port is free (R124). -/
def PortFree (s : State) : Prop := s.me.portFree ≤ s.me.local_
/-- A landing slot is free (R25). -/
def SlotFree (s : State) : Prop := s.me.slots.length < 16

/-- What a request leaves: memory, every register, the other strands and Halls, the rest of the Hall. -/
structure RequestFrame (s t : State) : Prop where
  s_ : t.me.s = s.me.s
  p : t.me.p = s.me.p
  b : t.me.b = s.me.b
  pc : t.me.pc = s.me.pc
  nflags : t.me.nflags = s.me.nflags
  sbchk : t.me.sbchk = s.me.sbchk
  ntid : t.me.ntid = s.me.ntid
  pends : t.me.pends = s.me.pends
  stores : t.me.stores = s.me.stores
  halls : ∀ h, h ≠ s.curHall → t.hall h = s.hall h
  here : t.here = { s.here with work := t.here.work }
  strands : ∀ st, st ≠ s.curStrand → t.here.work.strand st = s.here.work.strand st
  work : t.here.work = { s.here.work with S := t.here.work.S, L := t.here.work.L, V := t.here.work.V, M := t.here.work.M }
  memory : SameMemory s t

/-- The syllable has issued and claimed a landing slot: its data is due land local cycles on, it has no fault and, unless the write queue
forwards it, no data yet; no register is written (R24). -/
structure Claims (s t : State) (req : Req) (dests : List Src) (land : BitVec 12) (addr : Word) (ps : List Nat) : Prop where
  issued : t.issued = true
  slot : ∃ x, t.me.slots = s.me.slots ++ [x] ∧ x.seq = s.me.seq ∧ x.due = s.me.local_ + land.toNat ∧ x.req = req ∧ x.dests = dests ∧
    x.addr = addr ∧ x.paddrs = ps ∧ x.fault = none ∧ x.bound = s.me.stores
  seq : t.me.seq = s.me.seq + 1
  frame : RequestFrame s t

/-- The syllable has issued with one store: it is the newest entry of its Hall's overlay, not drained, published at no scope; it gives the
bytes cs (the last of those for one place) and nothing else in memory or in the overlay changes, nor does a register (R123, R125). -/
structure Stores (s t : State) (addr : Word) (width : Nat) (data : Word) (cs : List Host.Cell) : Prop where
  issued : t.issued = true
  entry : ∃ e, t.here.overlay = s.here.overlay ++ [e] ∧ e.strand = s.curStrand ∧ e.seq = s.me.stores + 1 ∧ e.addr = addr ∧ e.width = width ∧
    e.data = data ∧ e.cells = lastCells cs ∧ e.drained = none ∧ e.scope = .strand ∧ s.here.cycle < e.drainAt ∧ e.drainAt ≤ s.here.cycle + 16
  bytes : ∀ a, Memory.byte t.mem a = Memory.byte s.mem a
  stores : t.me.stores = s.me.stores + 1
  regs : t.me.s = s.me.s ∧ t.me.p = s.me.p ∧ t.me.b = s.me.b ∧ t.me.pc = s.me.pc ∧ t.me.nflags = s.me.nflags ∧ t.me.pends = s.me.pends ∧
    t.me.slots = s.me.slots
  halls : ∀ h, h ≠ s.curHall → t.hall h = s.hall h
  strands : ∀ st, st ≠ s.curStrand → t.here.work.strand st = s.here.work.strand st
  tiles : t.here.work.tiles = s.here.work.tiles ∧ t.here.work.masks = s.here.work.masks
  groups : t.rowGroups = s.rowGroups

end Sys2Proof.Spec
end

