-- ==== Sys2Proof/Certificates/Slice0/Obligations.lean ====
section
/-! DEFINITION. The statements about the model: what the manual's rules say of its instructions and of the machine. -/

open Sys2Proof

/-! Integer register operations and immediates (R95 to R104). -/

namespace Sys2Proof.Spec
open Sys2Proof.Machine

/-- What the tables of R96, R97 and R119 say of an integer instruction: the register that it writes, the registers that it reads, its
latency, whether it uses the divider, and which value is its result (none: nothing is written). -/
structure IntRow where
  d : BitVec 6
  reads : List Src
  lat : Nat
  divider : Bool
  val : Option Word → Prop

/-- A row of an instruction with two source registers. -/
def row2 (d a b : BitVec 6) (lat : Nat) (p : Word → Prop) : Option IntRow :=
  some { d := d, reads := [.s a.toNat, .s b.toNat], lat := lat, divider := false, val := is p }
/-- A row of an instruction with one source register. -/
def row1 (d a : BitVec 6) (lat : Nat) (p : Word → Prop) : Option IntRow :=
  some { d := d, reads := [.s a.toNat], lat := lat, divider := false, val := is p }
/-- A row of a division. -/
def rowD (d a b : BitVec 6) (p : Word → Prop) : Option IntRow :=
  some { d := d, reads := [.s a.toNat, .s b.toNat], lat := 18, divider := true, val := is p }

/-- R96 to R104, R119: what each integer instruction gives on a strand. none for the other instructions. -/
def intRow (x : StrandState) (i : Instr) : Option IntRow :=
  let r := fun (n : BitVec 6) => x.reg n.toNat
  match i with
  | .add d a b => row2 d a b 1 fun v => v.toNat = ((r a).toNat + (r b).toNat) % 2 ^ 64
  | .sub d a b => row2 d a b 1 fun v => (v.toNat + (r b).toNat) % 2 ^ 64 = (r a).toNat
  | .mul d a b => row2 d a b 3 fun v => v.toNat = (r a).toNat * (r b).toNat % 2 ^ 64
  | .mulh d a b => row2 d a b 3 fun v => v.toInt = (r a).toInt * (r b).toInt / 2 ^ 64
  | .mulhu d a b => row2 d a b 3 fun v => v.toNat = (r a).toNat * (r b).toNat / 2 ^ 64
  | .div d a b => rowD d a b (isQuotient (r a) (r b))
  | .divu d a b => rowD d a b fun v => (r b = 0 → v = BitVec.allOnes 64) ∧ (r b ≠ 0 → v.toNat = (r a).toNat / (r b).toNat)
  | .rem d a b => rowD d a b (isRemainder (r a) (r b))
  | .remu d a b => rowD d a b fun v => (r b = 0 → v = r a) ∧ (r b ≠ 0 → v.toNat = (r a).toNat % (r b).toNat)
  | .and d a b => row2 d a b 1 fun v => ∀ k, v.getLsbD k = ((r a).getLsbD k && (r b).getLsbD k)
  | .or d a b => row2 d a b 1 fun v => ∀ k, v.getLsbD k = ((r a).getLsbD k || (r b).getLsbD k)
  | .xor d a b => row2 d a b 1 fun v => ∀ k, v.getLsbD k = ((r a).getLsbD k ^^ (r b).getLsbD k)
  | .andn d a b => row2 d a b 1 fun v => ∀ k, k < 64 → v.getLsbD k = ((r a).getLsbD k && !(r b).getLsbD k)
  | .shl d a b => row2 d a b 1 (isShl (r a) (r b))
  | .shr d a b => row2 d a b 1 (isShr (r a) (r b))
  | .sar d a b => row2 d a b 1 (isSar (r a) (r b))
  | .rol d a b => row2 d a b 1 fun v => ∀ k, k < 64 → v.getLsbD ((k + (r b).toNat) % 64) = (r a).getLsbD k
  | .ror d a b => row2 d a b 1 fun v => ∀ k, k < 64 → v.getLsbD k = (r a).getLsbD ((k + (r b).toNat) % 64)
  | .min d a b => row2 d a b 1 fun v => v.toInt = min (r a).toInt (r b).toInt
  | .max d a b => row2 d a b 1 fun v => v.toInt = max (r a).toInt (r b).toInt
  | .minu d a b => row2 d a b 1 fun v => v.toNat = min (r a).toNat (r b).toNat
  | .maxu d a b => row2 d a b 1 fun v => v.toNat = max (r a).toNat (r b).toNat
  | .abs d a => row1 d a 1 fun v => v.toNat = (r a).toInt.natAbs
  | .clz d a => row1 d a 1 (isClz (r a))
  | .ctz d a => row1 d a 1 (isCtz (r a))
  | .popc d a => row1 d a 1 fun v => v.toNat = ((List.range 64).filter (r a).getLsbD).length
  | .brev d a => row1 d a 1 fun v => ∀ k, k < 64 → v.getLsbD k = (r a).getLsbD (63 - k)
  | .sext d a w => row1 d a 1 fun v => ∀ k, k < 64 → v.getLsbD k = (r a).getLsbD (min k ((ExtW.bits w) - 1))
  | .zext d a w => row1 d a 1 fun v => v.toNat = (r a).toNat % 2 ^ (ExtW.bits w)
  | .sel d a b c =>
    some { d := d, reads := [.s a.toNat, .s b.toNat, .p c.toNat], lat := 1, divider := false,
           val := is fun v => v = if x.pred c.toNat then r a else r b }
  | .lea d a b sh => row2 d a b 1 fun v => v.toNat = ((r a).toNat + (r b).toNat * 2 ^ sh.toNat) % 2 ^ 64
  | .bext d a b c sx =>
    some { d := d, reads := [.s a.toNat, .s b.toNat, .s c.toNat], lat := 1, divider := false,
           val := is (isField (r a) (r b).toNat (r c).toNat sx) }
  | .bins d a b c =>
    some { d := d, reads := [.s d.toNat, .s a.toNat, .s b.toNat, .s c.toNat], lat := 1, divider := false,
           val := isInsert (r d) (r a) (r b).toNat (r c).toNat }
  | .addi d a imm => row1 d a 1 fun v => v = BitVec.ofInt 64 ((r a).toInt + imm.toInt)
  | .muli d a imm => row1 d a 3 fun v => v = BitVec.ofInt 64 ((r a).toInt * imm.toInt)
  | .andi d a imm => row1 d a 1 fun v => ∀ k, k < 64 → v.getLsbD k = ((r a).getLsbD k && imm.getLsbD (min k 27))
  | .ori d a imm => row1 d a 1 fun v => ∀ k, k < 64 → v.getLsbD k = ((r a).getLsbD k || imm.getLsbD (min k 27))
  | .xori d a imm => row1 d a 1 fun v => ∀ k, k < 64 → v.getLsbD k = ((r a).getLsbD k ^^ imm.getLsbD (min k 27))
  | .shli d a n => row1 d a 1 (isShl (r a) (n.setWidth 64))
  | .shri d a n => row1 d a 1 (isShr (r a) (n.setWidth 64))
  | .sari d a n => row1 d a 1 (isSar (r a) (n.setWidth 64))
  | .bexti d a off w sx => row1 d a 1 (isField (r a) off.toNat w.toNat sx)
  | .binsi d a off w =>
    some { d := d, reads := [.s d.toNat, .s a.toNat], lat := 1, divider := false, val := isInsert (r d) (r a) off.toNat w.toNat }
  | .movi d imm => some { d := d, reads := [], lat := 1, divider := false, val := is fun v => v.toInt = imm.toInt }
  | .movhi d imm =>
    some { d := d, reads := [.s d.toNat], lat := 1, divider := false,
           val := is fun v => v.toNat = imm.toNat * 2 ^ 32 + (r d).toNat % 2 ^ 32 }
  | _ => none

/-- The write of a scalar register that a row's value makes. -/
def writesOf (d : BitVec 6) (v : Option Word) : List Upd := match v with | some w => [.sreg d.toNat w] | none => []

end Sys2Proof.Spec

/-- R97 to R104 with R119: every integer instruction whose source registers can be read, and whose divider is free if it uses it, issues
with its result pending at its latency, and changes nothing else: no flag, no other register, no byte of memory. -/
def Sys2Proof.Spec.IntegerResults : Prop :=
  ∀ (s : Machine.State) (i : Instr) (r : Spec.IntRow), Spec.intRow s.me i = some r → Machine.Readable s r.reads →
    (r.divider = true → s.me.divFree ≤ s.me.local_) →
    ∃ t v, Machine.exec i s = .next t ∧ r.val v ∧
      Machine.Results s t r.lat (if r.divider then s.me.local_ + 16 else s.me.divFree) (Spec.writesOf r.d v)

/-- R98: DIV and REM divide signed values and truncate toward zero, the remainder having the sign of the dividend; DIVU and REMU divide unsigned values. Dividing by
zero gives all ones and the dividend as remainder; -2^63 by -1 gives -2^63 and the remainder 0. -/
def Obligations.Divisions : Prop :=
  ∀ (s : Machine.State) (d a b : BitVec 6), Machine.Readable s [.s a.toNat, .s b.toNat] → s.me.divFree ≤ s.me.local_ →
    let gives := fun (i : Instr) (p : Word → Prop) => ∃ t v, Machine.exec i s = .next t ∧ Machine.Results s t 18 (s.me.local_ + 16) [.sreg d.toNat v] ∧ p v
    let x := s.me.reg a.toNat
    let y := s.me.reg b.toNat
    (y ≠ 0 →
      gives (.div d a b) (fun v => v = BitVec.ofInt 64 (x.toInt.tdiv y.toInt)) ∧
      gives (.rem d a b) (fun v => v.toInt = x.toInt - y.toInt * x.toInt.tdiv y.toInt ∧ (0 ≤ x.toInt → 0 ≤ v.toInt) ∧ (x.toInt ≤ 0 → v.toInt ≤ 0)) ∧
      gives (.divu d a b) (fun v => v.toNat = x.toNat / y.toNat) ∧ gives (.remu d a b) (fun v => v.toNat = x.toNat % y.toNat)) ∧
    (y = 0 →
      gives (.div d a b) (fun v => v = 0xFFFFFFFFFFFFFFFF) ∧ gives (.divu d a b) (fun v => v = 0xFFFFFFFFFFFFFFFF) ∧
      gives (.rem d a b) (fun v => v = x) ∧ gives (.remu d a b) (fun v => v = x)) ∧
    (x = 0x8000000000000000 ∧ y = 0xFFFFFFFFFFFFFFFF →
      gives (.div d a b) (fun v => v = 0x8000000000000000) ∧ gives (.rem d a b) (fun v => v = 0))

/-- R22, R23, R16: an integer instruction that reads a register with a pending write under the scoreboard traps with STALL_SHORT exactly;
a division whose divider is busy waits and changes nothing. -/
def Sys2Proof.Spec.IntegerWaitsAndStalls : Prop :=
  ∀ (s : Machine.State) (i : Instr) (r : Spec.IntRow), Spec.intRow s.me i = some r →
    (r.divider = true → s.me.local_ < s.me.divFree → ∃ t, Machine.exec i s = .next t ∧ Machine.Holds s t) ∧
    ((r.divider = true → s.me.divFree ≤ s.me.local_) → s.me.stallShort r.reads = true → Machine.Unstopped s →
      ∃ t, Machine.exec i s = .next t ∧ Machine.Traps s t { cause := .STALL_SHORT })

/-- R97 to R104 with R119: every integer instruction whose source registers can be read, and whose divider is free if it uses it, issues with its result
pending at its latency, and changes nothing else: no flag, no other register, no byte of memory. R22, R23, R16: an integer instruction that reads a
register with a pending write under the scoreboard traps with STALL_SHORT exactly; a division whose divider is busy waits and changes nothing. -/
def Obligations.IntegerInstructions : Prop := Spec.IntegerResults ∧ Spec.IntegerWaitsAndStalls

/-! Compares, predicates and scalar floating point (R72 to R75, R105 to R111). -/

namespace Sys2Proof.Spec
open Sys2Proof.Machine

/-- R47, R105: the condition of a CMP or CMPI. -/
def condSays (c : Cond) (x y : Word) : Prop :=
  match c with
  | .EQ => x = y | .NE => x ≠ y | .LT => x.toInt < y.toInt | .GE => y.toInt ≤ x.toInt | .LTU => x.toNat < y.toNat | .GEU => y.toNat ≤ x.toNat

/-- A pattern's value on the extended line: a finite number is (-1)^neg m 2^e; none for a NaN. -/
def onLine : FVal → Option (WithBot (WithTop ℚ))
  | .nan _ => none
  | .inf neg => some (if neg then ⊥ else ((⊤ : WithTop ℚ) : WithBot (WithTop ℚ)))
  | .num neg m e => some (((((if neg then -1 else 1) * m * (2 : ℚ) ^ e : ℚ) : WithTop ℚ) : WithBot (WithTop ℚ)))

/-- R106: the condition of a float compare on two patterns of a format. -/
def fcondIn (f : Fmt) (c : FCond) (x y : Nat) : Prop :=
  match onLine (f.unpack x), onLine (f.unpack y) with
  | some u, some v =>
    match c with
    | .EQ => u = v | .NE => u ≠ v | .LT => u < v | .GE => v ≤ u | .UN => False
  | _, _ =>
    match c with
    | .EQ => False | .NE => True | .LT => False | .GE => False | .UN => True

/-- R106: a float compare sets NV on a signalling NaN, and LT and GE on any NaN. -/
def fcmpNVIn (f : Fmt) (c : FCond) (x y : Nat) : Prop :=
  let u := f.unpack x
  let v := f.unpack y
  u.isSnan = true ∨ v.isSnan = true ∨ ((c = .LT ∨ c = .GE) ∧ (u.isNan = true ∨ v.isNan = true))

/-- R106: the condition of an FCMP on two FP32 patterns. -/
def fcondSays (c : FCond) (x y : Nat) : Prop := fcondIn fp32 c x y
/-- R106: an FCMP on two FP32 patterns sets NV. -/
def fcmpNV (c : FCond) (x y : Nat) : Prop := fcmpNVIn fp32 c x y

/-- What R95, R109, R119 say of a scalar float instruction on a strand: its destination, the registers that it reads, its latency, whether it
uses the divider, and its result on the low 32 bits of the registers. -/
structure FloatRow where
  d : BitVec 6
  reads : List Src
  lat : Nat
  divider : Bool
  res : NumRes

/-- The rows of R109. -/
def floatRow (x : StrandState) (i : Instr) : Option FloatRow :=
  let f := fun (n : BitVec 6) => (x.reg n.toNat).toNat % 2 ^ 32
  match i with
  | .fadd d a b => some { d := d, reads := [.s a.toNat, .s b.toNat], lat := 4, divider := false, res := fp32.add (f a) (f b) }
  | .fsub d a b => some { d := d, reads := [.s a.toNat, .s b.toNat], lat := 4, divider := false, res := fp32.sub (f a) (f b) }
  | .fmul d a b => some { d := d, reads := [.s a.toNat, .s b.toNat], lat := 4, divider := false, res := fp32.mul (f a) (f b) }
  | .ffma d a b c =>
    some { d := d, reads := [.s a.toNat, .s b.toNat, .s c.toNat], lat := 4, divider := false, res := fp32.fma (f a) (f b) (f c) }
  | .fmin d a b => some { d := d, reads := [.s a.toNat, .s b.toNat], lat := 2, divider := false, res := fp32.min (f a) (f b) }
  | .fmax d a b => some { d := d, reads := [.s a.toNat, .s b.toNat], lat := 2, divider := false, res := fp32.max (f a) (f b) }
  | .fdiv d a b => some { d := d, reads := [.s a.toNat, .s b.toNat], lat := 14, divider := true, res := fp32.div (f a) (f b) }
  | .fsqrt d a => some { d := d, reads := [.s a.toNat], lat := 14, divider := true, res := fp32.sqrt (f a) }
  | _ => none

/-- The three formats of R71. -/
def isFormat (f : Fmt) : Prop := f = fp32 ∨ f = bf16 ∨ f = fp16

/-- The dyadic number m 2^e. -/
def dyadic (m : Nat) (e : Int) : ℚ := (m : ℚ) * (2 : ℚ) ^ e

end Sys2Proof.Spec

/-- R105 to R108, R119: CMP, CMPI, FCMP, PLOG, PGET and PSET issue with their predicates, or the scalar, pending at their latency, the
complement written last, and change nothing else. -/
def Obligations.PredicateResults : Prop :=
  ∀ (s : Machine.State),
    (∀ (c : Cond) (pd pe : BitVec 3) (a b : BitVec 6), Machine.Readable s [.s a.toNat, .s b.toNat] →
      ∃ t q, Machine.exec (.cmp c pd pe a b) s = .next t ∧ (q = true ↔ Spec.condSays c (s.me.reg a.toNat) (s.me.reg b.toNat)) ∧
        Machine.Results s t 1 s.me.divFree [.preg pd.toNat q, .preg pe.toNat !q]) ∧
    (∀ (c : Cond) (pd pe : BitVec 3) (a : BitVec 6) (imm : BitVec 25), Machine.Readable s [.s a.toNat] →
      ∃ t q, Machine.exec (.cmpi c pd pe a imm) s = .next t ∧ (q = true ↔ Spec.condSays c (s.me.reg a.toNat) (BitVec.ofInt 64 imm.toInt)) ∧
        Machine.Results s t 1 s.me.divFree [.preg pd.toNat q, .preg pe.toNat !q]) ∧
    (∀ (c : FCond) (pd pe : BitVec 3) (a b : BitVec 6), Machine.Readable s [.s a.toNat, .s b.toNat] →
      ∃ t q nv, Machine.exec (.fcmp c pd pe a b) s = .next t ∧
        (q = true ↔ Spec.fcondSays c ((s.me.reg a.toNat).toNat % 2 ^ 32) ((s.me.reg b.toNat).toNat % 2 ^ 32)) ∧
        (nv = Machine.flNV ∧ Spec.fcmpNV c ((s.me.reg a.toNat).toNat % 2 ^ 32) ((s.me.reg b.toNat).toNat % 2 ^ 32) ∨
          nv = 0 ∧ ¬Spec.fcmpNV c ((s.me.reg a.toNat).toNat % 2 ^ 32) ((s.me.reg b.toNat).toNat % 2 ^ 32)) ∧
        Machine.Results s t 2 s.me.divFree [.preg pd.toNat q, .preg pe.toNat !q, .flags nv]) ∧
    (∀ (pd pe pa pb : BitVec 3) (fn : BitVec 4), Machine.Readable s [.p pa.toNat, .p pb.toNat] →
      ∃ t q, Machine.exec (.plog pd pe pa pb fn) s = .next t ∧
        q = fn.getLsbD ((if s.me.pred pa.toNat then 2 else 0) + (if s.me.pred pb.toNat then 1 else 0)) ∧
        Machine.Results s t 1 s.me.divFree [.preg pd.toNat q, .preg pe.toNat !q]) ∧
    (∀ (d : BitVec 6), Machine.Readable s ((List.range 8).map .p) →
      ∃ t v, Machine.exec (.pget d) s = .next t ∧ (∀ k, k < 64 → v.getLsbD k = (decide (k < 8) && s.me.pred k)) ∧
        Machine.Results s t 1 s.me.divFree [.sreg d.toNat v]) ∧
    (∀ (a : BitVec 6) (mask : BitVec 8), Machine.Readable s [.s a.toNat] →
      ∃ t us, Machine.exec (.pset a mask) s = .next t ∧
        (∀ u, u ∈ us ↔ ∃ i, 0 < i ∧ i < 8 ∧ mask.getLsbD i = true ∧ u = .preg i ((s.me.reg a.toNat).getLsbD i)) ∧
        Machine.Results s t 1 s.me.divFree us)

/-- R95, R109, R91, R119: every scalar float instruction whose registers can be read, and whose divider is free if it uses it, issues with its
FP32 result, bits 63:32 cleared, its flags and at most one NAN event pending at its latency, and changes nothing else. -/
def Obligations.FloatResults : Prop :=
  ∀ (s : Machine.State) (i : Instr) (r : Spec.FloatRow), Spec.floatRow s.me i = some r → Machine.Readable s r.reads →
    (r.divider = true → s.me.divFree ≤ s.me.local_) →
    ∃ t, Machine.exec i s = .next t ∧
      Machine.Results s t r.lat (if r.divider then s.me.local_ + 12 else s.me.divFree)
        [.sreg r.d.toNat (BitVec.ofNat 64 r.res.bits), .flags r.res.flags, .count .NAN s.me.ntid.toNat (if r.res.gen then 1 else 0)]

/-- R111, R119: FCVT of every pair of types but two integers, for every operand that can be read, issues with its result, flags and at most one saturation
pending three local cycles on. Between formats, and of an integer to a format, the result is the rounded one. To an integer, a NaN gives 0 with NV; an infinity, and a
finite value whose rounded integer lies outside the range, gives the nearer limit with NV and SAT and counts one saturation; another finite value gives its rounded integer,
to nearest even or with RZ toward zero, with NX exactly when it differs. -/
def Obligations.ConversionResults : Prop :=
  ∀ (s : Machine.State) (d a : BitVec 6) (rz : Bool), Machine.Readable s [.s a.toNat] →
    let gives := fun (dst src : CTy) (v : Word) (fl : BitVec 6) (n : Nat) => ∃ t, Machine.exec (.fcvt dst src rz d a) s = .next t ∧
      Machine.Results s t 3 s.me.divFree [.sreg d.toNat v, .flags fl, .count .SAT s.me.ntid.toNat n]
    (∀ (dst src : CTy) (f g : Machine.Fmt), Machine.CTy.fmt src = some f → Machine.CTy.fmt dst = some g →
      let r := f.convert g ((s.me.reg a.toNat).toNat % 2 ^ Machine.CTy.bits src)
      gives dst src (BitVec.ofNat 64 r.bits) r.flags 0) ∧
    (∀ (dst src : CTy) (g : Machine.Fmt), Machine.CTy.fmt src = none → Machine.CTy.fmt dst = some g →
      let r := g.ofInt (Machine.CTy.intOf src (s.me.reg a.toNat))
      gives dst src (BitVec.ofNat 64 r.bits) r.flags 0) ∧
    (∀ (dst src : CTy) (f : Machine.Fmt), Machine.CTy.fmt src = some f → Machine.CTy.fmt dst = none →
      let lo := Machine.intLo (Machine.CTy.bits dst) (Machine.CTy.unsigned dst)
      let hi := Machine.intHi (Machine.CTy.bits dst) (Machine.CTy.unsigned dst)
      let clamped := fun (neg : Bool) => gives dst src (BitVec.ofInt 64 (if neg then lo else hi)) (Machine.flNV ||| Machine.flSAT) 1
      match f.unpack ((s.me.reg a.toNat).toNat % 2 ^ Machine.CTy.bits src) with
      | .nan _ => gives dst src 0 Machine.flNV 0
      | .inf neg => clamped neg
      | .num neg m e =>
        let q : ℚ := if neg then -Spec.dyadic m e else Spec.dyadic m e
        ∃ r : Int, (if rz = true then |(r : ℚ)| ≤ |q| ∧ |q| < |(r : ℚ)| + 1 ∧ 0 ≤ r * q
            else |r - q| ≤ 1 / 2 ∧ (|r - q| = 1 / 2 → r % 2 = 0)) ∧
          (r < lo → clamped true) ∧ (hi < r → clamped false) ∧
          (lo ≤ r ∧ r ≤ hi → gives dst src (BitVec.ofInt 64 r) (if (r : ℚ) = q then 0 else Machine.flNX) 0))

/-- R72: rounding is to the nearest multiple of 2^q, ties to the even multiple; the result is marked inexact exactly when it differs from the
value. -/
def Sys2Proof.Spec.RoundToNearestEven : Prop :=
  ∀ (m : Nat) (e q : Int),
    let k := (Machine.roundAt m e q).1
    (∀ j : Nat, |Spec.dyadic k q - Spec.dyadic m e| ≤ |Spec.dyadic j q - Spec.dyadic m e|) ∧
    (∀ j : Nat, j ≠ k → |Spec.dyadic k q - Spec.dyadic m e| = |Spec.dyadic j q - Spec.dyadic m e| → k % 2 = 0) ∧
    ((Machine.roundAt m e q).2 = true ↔ Spec.dyadic k q ≠ Spec.dyadic m e)

/-- R74, R75: in the three formats, an arithmetic operation that a NaN enters delivers the canonical quiet NaN, with NV exactly for a
signalling NaN; the minimum and the maximum of a NaN and another operand are that operand, and of two NaNs the canonical one. -/
def Sys2Proof.Spec.NansAreCanonical : Prop :=
  ∀ (f : Machine.Fmt) (a b c : Nat), Spec.isFormat f →
    let u := f.unpack a
    let v := f.unpack b
    let nv := fun (p : Bool) => if p then Machine.flNV else 0
    (u.isNan = true ∨ v.isNan = true →
      f.add a b = { bits := f.nanBits, flags := nv (u.isSnan || v.isSnan), gen := false } ∧
      f.sub a b = { bits := f.nanBits, flags := nv (u.isSnan || v.isSnan), gen := false } ∧
      f.mul a b = { bits := f.nanBits, flags := nv (u.isSnan || v.isSnan), gen := false } ∧
      f.div a b = { bits := f.nanBits, flags := nv (u.isSnan || v.isSnan), gen := false }) ∧
    (u.isNan = true → f.sqrt a = { bits := f.nanBits, flags := nv u.isSnan, gen := false }) ∧
    (u.isNan = true ∨ v.isNan = true ∨ (f.unpack c).isNan = true → (f.fma a b c).bits = f.nanBits) ∧
    (u.isNan = true → v.isNan = false →
      f.min a b = { bits := b, flags := nv u.isSnan, gen := false } ∧ f.max a b = { bits := b, flags := nv u.isSnan, gen := false } ∧
      f.min b a = { bits := b, flags := nv u.isSnan, gen := false } ∧ f.max b a = { bits := b, flags := nv u.isSnan, gen := false }) ∧
    (u.isNan = true → v.isNan = true →
      f.min a b = { bits := f.nanBits, flags := nv (u.isSnan || v.isSnan), gen := false } ∧
      f.max a b = { bits := f.nanBits, flags := nv (u.isSnan || v.isSnan), gen := false }) ∧
    (Machine.fp32.nanBits = 0x7FC00000 ∧ Machine.bf16.nanBits = 0x7FC0 ∧ Machine.fp16.nanBits = 0x7E00)

/-- R72: rounding is to the nearest multiple of 2^q, ties to the even multiple; the result is marked inexact exactly when it differs from the value. R74,
R75: in the three formats, an arithmetic operation that a NaN enters delivers the canonical quiet NaN, with NV exactly for a signalling NaN; the
minimum and the maximum of a NaN and another operand are that operand, and of two NaNs the canonical one. -/
def Obligations.RoundingAndNans : Prop := Spec.RoundToNearestEven ∧ Spec.NansAreCanonical

/-! Transfers of control and Hall events (R112 to R117). -/

namespace Sys2Proof.Spec
open Sys2Proof.Machine

/-- The registers of a strand, its flags, its program counter and its pending results and requests are as before. -/
structure SameRegs (x y : StrandState) : Prop where
  s : y.s = x.s
  p : y.p = x.p
  b : y.b = x.b
  pc : y.pc = x.pc
  nflags : y.nflags = x.nflags
  sbchk : y.sbchk = x.sbchk
  ntid : y.ntid = x.ntid
  pends : y.pends = x.pends
  slots : y.slots = x.slots
  stores : y.stores = x.stores

/-- The syllable has issued, and its strand goes on at an address. -/
structure GoesTo (s t : State) (a : Word) : Prop where
  issued : t.issued = true
  target : t.target = some a
  rest : t = { s with issued := true, target := some a }

/-- The branch-target register is prepared and ready, and has no pending write that the scoreboard would report. -/
structure BranchReady (s : State) (b : BitVec 6) (more : List Src) : Prop where
  readable : Readable s (.b b.toNat :: more)
  prepared : (s.me.btgt b.toNat).prepared = true
  ready : (s.me.btgt b.toNat).ready ≤ s.here.cycle

/-- What an event syllable leaves: the strand's registers, the other strands, memory, and of the Hall's slice-owned state everything but
the events' orders; outside the Hall nothing changes. -/
structure EventFrame (s t : State) : Prop where
  regs : SameRegs s.me t.me
  hall : OnlyHall s t
  strands : ∀ st, st ≠ s.curStrand → t.here.work.strand st = s.here.work.strand st
  counts : ∀ e, (t.here.work.ev e).count = (s.here.work.ev e).count
  tiles : t.here.work.tiles = s.here.work.tiles
  masks : t.here.work.masks = s.here.work.masks
  toks : t.here.work.toks = s.here.work.toks
  slice : t.here.slice = s.here.slice
  acc : t.here.acc = s.here.acc
  memory : SameMemory s t

end Sys2Proof.Spec

/-- R112, R114: PB loads its branch-target register with its own address plus 8 times the offset, PBA with a register plus the immediate, both
prepared and ready four Hall cycles on; a misaligned target of PBA traps with ALIGN, and one beyond 52 bits with XLATE. -/
def Obligations.PrepareToBranch : Prop :=
  ∀ (s : Machine.State),
    (∀ (b : BitVec 2) (off : BitVec 38), Machine.Readable s [] → ∃ t, Machine.exec (.pb b off) s = .next t ∧
      Machine.Results s t 1 s.me.divFree [.btgt b.toNat (BitVec.ofInt 64 (s.me.pc.toInt + 8 * off.toInt)) (s.here.cycle + 4)]) ∧
    (∀ (b a : BitVec 6) (imm : BitVec 28), Machine.Readable s [.s a.toNat] →
      let target := BitVec.ofInt 64 ((s.me.reg a.toNat).toInt + imm.toInt)
      (target.toNat % 8 = 0 → target.toNat < 2 ^ 52 → Machine.Readable s [] → ∃ t, Machine.exec (.pba b a imm) s = .next t ∧
        Machine.Results s t 1 s.me.divFree [.btgt b.toNat target (s.here.cycle + 4)]) ∧
      (target.toNat % 8 ≠ 0 → Machine.Unstopped s → ∃ t, Machine.exec (.pba b a imm) s = .next t ∧
        Machine.Traps s t { cause := .ALIGN, addr := target }) ∧
      (target.toNat % 8 = 0 → 2 ^ 52 ≤ target.toNat → Machine.Unstopped s → ∃ t, Machine.exec (.pba b a imm) s = .next t ∧
        Machine.Traps s t { cause := .XLATE, addr := target }))

/-- R112, R113, R115: BR, CALL and LOOP through a register that is prepared and ready go to its address; CALL links the next syllable's
address, LOOP counts down and goes on in sequence at zero, RET goes to its register, no earlier than four Hall cycles on, and NOP does
nothing. -/
def Sys2Proof.Spec.TransfersOfControl : Prop :=
  ∀ (s : Machine.State),
    (∀ b, Spec.BranchReady s b [] → ∃ t, Machine.exec (.br b) s = .next t ∧ Spec.GoesTo s t (s.me.btgt b.toNat).addr) ∧
    (∀ d b, Spec.BranchReady s b [] → ∃ t, Machine.exec (.call d b) s = .next t ∧ t.target = some (s.me.btgt b.toNat).addr ∧
      Machine.Results s { t with target := s.target } 1 s.me.divFree [.sreg d.toNat (s.me.pc + 8)]) ∧
    (∀ a b, Spec.BranchReady s b [.s a.toNat] → ∃ t, Machine.exec (.loop a b) s = .next t ∧
      t.target = (if s.me.reg a.toNat = 1 then s.target else some (s.me.btgt b.toNat).addr) ∧
      Machine.Results s { t with target := s.target } 1 s.me.divFree [.sreg a.toNat (s.me.reg a.toNat - 1)]) ∧
    (∀ a, Machine.Readable s [.s a.toNat] → (s.me.reg a.toNat).toNat % 8 = 0 → (s.me.reg a.toNat).toNat < 2 ^ 52 →
      ∃ t, Machine.exec (.ret a) s = .next t ∧ t.issued = true ∧ t.target = some (s.me.reg a.toNat) ∧
        t.me = { s.me with notBefore := s.here.cycle + 4 } ∧ Machine.OnlyStrand s t ∧ Machine.SameMemory s t) ∧
    (∃ t, Machine.exec .nop s = .next t ∧ t = { s with issued := true })

/-- R112, R115: BR, CALL and LOOP through a register that has not been prepared trap with ILLEGAL, and through one that is prepared and not
yet ready freeze their strand; nothing else happens. -/
def Sys2Proof.Spec.TransfersWaitAndTrap : Prop :=
  ∀ (s : Machine.State) (i : Instr) (b : BitVec 6) (more : List Machine.Src),
    (i = .br b ∧ more = [] ∨ (∃ d, i = .call d b ∧ more = []) ∨ ∃ a, i = .loop a b ∧ more = [.s a.toNat]) →
    Machine.Readable s (.b b.toNat :: more) →
    ((s.me.btgt b.toNat).prepared = false → Machine.Unstopped s →
      ∃ t, Machine.exec i s = .next t ∧ Machine.Traps s t { cause := .ILLEGAL }) ∧
    ((s.me.btgt b.toNat).prepared = true → s.here.cycle < (s.me.btgt b.toNat).ready →
      ∃ t, Machine.exec i s = .next t ∧ Machine.Freezes s t)

/-- R112, R113, R115: BR, CALL and LOOP through a register that is prepared and ready go to its address; CALL links the next syllable's address, LOOP
counts down and goes on in sequence at zero, RET goes to its register, no earlier than four Hall cycles on, and NOP does nothing. R112, R115: BR, CALL
and LOOP through a register that has not been prepared trap with ILLEGAL, and through one that is prepared and not yet ready freeze their strand;
nothing else happens. -/
def Obligations.Transfers : Prop := Spec.TransfersOfControl ∧ Spec.TransfersWaitAndTrap

/-- R116, R117: a post that fits is granted, a wait or a test for which a take is available takes one, and a test for which none is available
says so; a post that does not fit and a wait without a take freeze the strand. The predicates of EV.TEST are pending with latency 1. -/
def Sys2Proof.Spec.HallEvents : Prop :=
  ∀ (s : Machine.State) (x : BitVec 6), x.toNat < 32 →
    let e := x.toNat
    let takes := s.here.evTakes e < s.here.evSample e
    (s.here.evSample e + s.here.evPosts e + 1 ≤ 255 → ∃ t, Machine.exec (.evPost x) s = .next t ∧ t.issued = true ∧
      t.here.evPosts e = s.here.evPosts e + 1 ∧ (∀ f, f ≠ e → t.here.evPosts f = s.here.evPosts f) ∧
      (∀ f, t.here.evTakes f = s.here.evTakes f) ∧ Spec.EventFrame s t) ∧
    (∀ a, Machine.Readable s [.s a.toNat] →
      let n := (s.me.reg a.toNat).toNat % 256
      (n = 0 → ∃ t, Machine.exec (.evPostx x a) s = .next t ∧ t = { s with issued := true }) ∧
      (n ≠ 0 → s.here.evSample e + s.here.evPosts e + n ≤ 255 → ∃ t, Machine.exec (.evPostx x a) s = .next t ∧ t.issued = true ∧
        t.here.evPosts e = s.here.evPosts e + n ∧ (∀ f, f ≠ e → t.here.evPosts f = s.here.evPosts f) ∧
        (∀ f, t.here.evTakes f = s.here.evTakes f) ∧ Spec.EventFrame s t) ∧
      (n ≠ 0 → 255 < s.here.evSample e + s.here.evPosts e + n → ∃ t, Machine.exec (.evPostx x a) s = .next t ∧ Machine.Freezes s t)) ∧
    (takes → ∃ t, Machine.exec (.evWait x) s = .next t ∧ t.issued = true ∧ t.here.evTakes e = s.here.evTakes e + 1 ∧
      (∀ f, f ≠ e → t.here.evTakes f = s.here.evTakes f) ∧ (∀ f, t.here.evPosts f = s.here.evPosts f) ∧ Spec.EventFrame s t) ∧
    (∀ pd pe : BitVec 3, ∃ t, Machine.exec (.evTest pd pe x) s = .next t ∧ t.issued = true ∧
      t.me.pends = s.me.pends ++ [{ seq := s.me.seq, due := s.me.local_ + 1, upds := [.preg pd.toNat (decide takes), .preg pe.toNat !(decide takes)] }] ∧
      t.here.evTakes e = s.here.evTakes e + (if takes then 1 else 0) ∧ (∀ f, f ≠ e → t.here.evTakes f = s.here.evTakes f) ∧
      (∀ f, t.here.evPosts f = s.here.evPosts f) ∧ t.me.s = s.me.s ∧ t.me.p = s.me.p ∧ Machine.SameMemory s t) ∧
    (255 < s.here.evSample e + s.here.evPosts e + 1 → ∃ t, Machine.exec (.evPost x) s = .next t ∧ Machine.Freezes s t) ∧
    (¬takes → ∃ t, Machine.exec (.evWait x) s = .next t ∧ Machine.Freezes s t)

/-- R117: the count at the end of the Hall cycle is the count plus the granted posts minus the granted takes. -/
def Sys2Proof.Spec.EventCountsMerge : Prop :=
  ∀ (H : Machine.Hall) (e : Nat), e < 32 →
    ((Machine.Hall.mergeEvents H).work.ev e).count = (H.work.ev e).count - H.evTakes e + H.evPosts e ∧
    (Machine.Hall.mergeEvents H).evTakes e = 0 ∧ (Machine.Hall.mergeEvents H).evPosts e = 0

/-- R116, R117: a post that fits is granted, a wait or a test for which a take is available takes one, and a test for which none is available says so; a
post that does not fit and a wait without a take freeze the strand. The predicates of EV.TEST are pending with latency 1. R117: the count at the end
of the Hall cycle is the count plus the granted posts minus the granted takes. -/
def Obligations.EventsOfAHall : Prop := Spec.HallEvents ∧ Spec.EventCountsMerge

/-! Loads, stores, tiles and streams (R120 to R129, R148 to R151, R431). -/

namespace Sys2Proof.Spec
open Sys2Proof.Machine

/-- The scalar loads of R122: width, sign extension, destination, base, offset and landing. -/
def loadRow : Instr → Option (Width × Bool × BitVec 6 × BitVec 6 × BitVec 16 × BitVec 12)
  | .ldB d a off l => some (.B, true, d, a, off, l)
  | .ldBz d a off l => some (.B, false, d, a, off, l)
  | .ldH d a off l => some (.H, true, d, a, off, l)
  | .ldHz d a off l => some (.H, false, d, a, off, l)
  | .ldW d a off l => some (.W, true, d, a, off, l)
  | .ldWz d a off l => some (.W, false, d, a, off, l)
  | .ldD d a off l => some (.D, false, d, a, off, l)
  | _ => none

/-- The scalar stores of R122: width, source, base and offset. -/
def storeRow : Instr → Option (Width × BitVec 6 × BitVec 6 × BitVec 16)
  | .stB d a off => some (.B, d, a, off)
  | .stH d a off => some (.H, d, a, off)
  | .stW d a off => some (.W, d, a, off)
  | .stD d a off => some (.D, d, a, off)
  | _ => none

/-- The address of a base register and an offset (R122). -/
def memAddr (s : State) (a : BitVec 6) (off : BitVec 16) : Word := BitVec.ofInt 64 ((s.me.reg a.toNat).toInt + off.toInt)

/-- How long a store holds the memory port (R124): a byte or a half-word to a gallery for three cycles. -/
def storeHolds (n : Nat) (ps : List Nat) : Nat := if n < 4 ∧ ∃ p ∈ ps, (rowGroupOf p).isSome = true then 3 else 1

end Sys2Proof.Spec

/-- R24, R120, R122 to R124: a scalar load whose base can be read, whose port and a slot are free and whose bytes resolve claims a landing slot
for its destination at its landing offset, with the bytes at base plus offset as its places. -/
def Sys2Proof.Spec.LoadsClaimSlots : Prop :=
  ∀ (s : Machine.State) (i : Instr) (w : Width) (sx : Bool) (d a : BitVec 6) (off : BitVec 16) (land : BitVec 12) (ps : List Nat),
    Spec.loadRow i = some (w, sx, d, a, off, land) → Machine.Readable s [.s a.toNat] → Spec.PortFree s → Spec.SlotFree s →
    Spec.Accessible s (Machine.wantLoad w) (Machine.widthBytes w) (Spec.memAddr s a off) (Machine.widthBytes w) ps →
    ∃ t, Machine.exec i s = .next t ∧ t.me.portFree = s.me.local_ + 1 ∧
      Spec.Claims s t (.load d.toNat (Machine.widthBytes w) sx) [.s d.toNat] land (Spec.memAddr s a off) ps

/-- R120, R122, R395: a scalar load or store at an address that its width does not divide traps with ALIGN, and one beyond 52 bits with XLATE;
its access and its address are recorded. -/
def Sys2Proof.Spec.MisalignedAccessesTrap : Prop :=
  ∀ (s : Machine.State), Machine.Unstopped s → Spec.PortFree s →
    (∀ (i : Instr) (w : Width) (sx : Bool) (d a : BitVec 6) (off : BitVec 16) (land : BitVec 12),
      Spec.loadRow i = some (w, sx, d, a, off, land) → Machine.Readable s [.s a.toNat] →
      let x := Spec.memAddr s a off
      (x.toNat < 2 ^ 52 → x.toNat % Machine.widthBytes w ≠ 0 → ∃ t, Machine.exec i s = .next t ∧
        Machine.Traps s t { cause := .ALIGN, access := .load, width := Machine.widthCode (Machine.widthBytes w), addr := x }) ∧
      (2 ^ 52 ≤ x.toNat → ∃ t, Machine.exec i s = .next t ∧
        Machine.Traps s t { cause := .XLATE, access := .load, width := Machine.widthCode (Machine.widthBytes w), addr := x })) ∧
    (∀ (i : Instr) (w : Width) (d a : BitVec 6) (off : BitVec 16),
      Spec.storeRow i = some (w, d, a, off) → Machine.Readable s [.s a.toNat, .s d.toNat] →
      let x := Spec.memAddr s a off
      (x.toNat < 2 ^ 52 → x.toNat % Machine.widthBytes w ≠ 0 → ∃ t, Machine.exec i s = .next t ∧
        Machine.Traps s t { cause := .ALIGN, access := .store, width := Machine.widthCode (Machine.widthBytes w), addr := x }) ∧
      (2 ^ 52 ≤ x.toNat → ∃ t, Machine.exec i s = .next t ∧
        Machine.Traps s t { cause := .XLATE, access := .store, width := Machine.widthCode (Machine.widthBytes w), addr := x }))

/-- R123: what a load writes: the bytes, lowest first, and above them the sign of the last byte or zeros. -/
def Sys2Proof.Spec.LoadExtension : Prop :=
  ∀ (bs : Bytes) (sx : Bool) (k : Nat), 0 < bs.length → bs.length ≤ 8 → k < 64 →
    (Machine.extendLoad sx bs).getLsbD k =
      if k < 8 * bs.length then (bs.getD (k / 8) 0).getLsbD (k % 8) else (sx && (bs.getD (bs.length - 1) 0).getLsbD 7)

/-- R24, R120, R122 to R124: a scalar load whose base can be read, whose port and a slot are free and whose bytes resolve claims a landing slot for its
destination at its landing offset, with the bytes at base plus offset as its places. R123: what a load writes: the bytes, lowest first, and above them
the sign of the last byte or zeros. -/
def Obligations.ScalarLoads : Prop := Spec.LoadsClaimSlots ∧ Spec.LoadExtension

/-- R120, R122 to R125, R344: a scalar store whose registers can be read, whose port is free, whose bytes resolve and for which its open regions
have room enters the overlay with its low bytes, lowest first, and holds the port as R124 says. -/
def Obligations.StoresEnterTheOverlay : Prop :=
  ∀ (s : Machine.State) (i : Instr) (w : Width) (d a : BitVec 6) (off : BitVec 16) (ps : List Nat),
    Spec.storeRow i = some (w, d, a, off) → Machine.Readable s [.s a.toNat, .s d.toNat] → Spec.PortFree s →
    Spec.Accessible s (Machine.wantStore w) (Machine.widthBytes w) (Spec.memAddr s a off) (Machine.widthBytes w) ps →
    let cs := ps.zip (Machine.leBytes (Machine.widthBytes w) (s.me.reg d.toNat).toNat)
    s.regionFull cs = false →
    ∃ t, Machine.exec i s = .next t ∧ t.me.portFree = s.me.local_ + Spec.storeHolds (Machine.widthBytes w) ps ∧
      Spec.Stores s t (Spec.memAddr s a off) (Machine.widthBytes w) (s.me.reg d.toNat) cs

/-- R124, R25, R16: while the strand's port is busy, a load or a store waits and changes nothing; with all 16 slots claimed, a load whose
bytes resolve freezes its strand. -/
def Sys2Proof.Spec.MemoryWaits : Prop :=
  ∀ (s : Machine.State),
    (∀ i w sx d a off land, Spec.loadRow i = some (w, sx, d, a, off, land) → Machine.Readable s [.s a.toNat] →
      (s.me.local_ < s.me.portFree → ∃ t, Machine.exec i s = .next t ∧ Machine.Holds s t) ∧
      (∀ ps, Spec.PortFree s → 16 ≤ s.me.slots.length →
        Spec.Accessible s (Machine.wantLoad w) (Machine.widthBytes w) (Spec.memAddr s a off) (Machine.widthBytes w) ps →
        ∃ t, Machine.exec i s = .next t ∧ Machine.Freezes s t)) ∧
    (∀ i w d a off, Spec.storeRow i = some (w, d, a, off) → Machine.Readable s [.s a.toNat, .s d.toNat] →
      s.me.local_ < s.me.portFree → ∃ t, Machine.exec i s = .next t ∧ Machine.Holds s t)

/-- R120, R122, R395: a scalar load or store at an address that its width does not divide traps with ALIGN, and one beyond 52 bits with XLATE; its access
and its address are recorded. R124, R25, R16: while the strand's port is busy, a load or a store waits and changes nothing; with all 16 slots claimed,
a load whose bytes resolve freezes its strand. -/
def Obligations.MemoryAccessesTrapAndWait : Prop := Spec.MisalignedAccessesTrap ∧ Spec.MemoryWaits

/-- R127 to R129: a tile load or a gather whose places resolve claims a slot for the bytes of its tile that its shape names, in row-major order; a
tile store or a scatter stores those bytes of its tile. -/
def Obligations.TileTransfers : Prop :=
  ∀ (s : Machine.State), Spec.PortFree s →
    (∀ (d a : BitVec 6) (off : BitVec 16) (land : BitVec 12) (ps : List Nat), Machine.Readable s [.s a.toNat] → Spec.SlotFree s →
      let keys := Machine.tileKeys d.toNat (s.here.work.shape d.toNat)
      Spec.Accessible s Machine.wantTileLoad 64 (Spec.memAddr s a off) keys.length ps →
      ∃ t, Machine.exec (.ldt d a off land) s = .next t ∧ t.me.portFree = s.me.local_ + 1 ∧
        Spec.Claims s t (.tile keys []) [.tile d.toNat] land (Spec.memAddr s a off) ps) ∧
    (∀ (d a : BitVec 6) (off : BitVec 16) (ps : List Nat), Machine.Readable s [.s a.toNat, .tile d.toNat] →
      let keys := Machine.tileKeys d.toNat (s.here.work.shape d.toNat)
      let cs := ps.zip (keys.map fun k => Machine.sget s.here.work.tiles k)
      Spec.Accessible s Machine.wantTileStore 64 (Spec.memAddr s a off) keys.length ps → s.regionFull cs = false →
      ∃ t, Machine.exec (.stt d a off) s = .next t ∧ t.me.portFree = s.me.local_ + 1 ∧
        Spec.Stores s t (Spec.memAddr s a off) keys.length 0 cs) ∧
    (∀ (d a b : BitVec 6) (land : BitVec 12) (ps : List (List Nat)), Machine.Readable s [.s a.toNat, .tile b.toNat] → Spec.SlotFree s →
      let W := s.here.work
      let w := Machine.shapeWidth (W.shape d.toNat) / 8
      let es := W.gatherElems d.toNat b.toNat
      let as := es.map (W.gatherAddr (s.me.reg a.toNat) d.toNat b.toNat)
      s.eachBytes Machine.wantTileLoad w as = .ok ps →
      ∃ t, Machine.exec (.ldtG d a b land) s = .next t ∧ t.me.portFree = s.me.local_ + 1 ∧
        Spec.Claims s t (.tile (es.flatMap fun e => (List.range w).map fun i => 4096 * d.toNat + 256 * e.1 + e.2 * w + i)
          (as.flatMap (List.replicate w))) [.tile d.toNat] land (s.me.reg a.toNat) ps.flatten) ∧
    (∀ (d a b : BitVec 6) (ps : List (List Nat)), Machine.Readable s [.s a.toNat, .tile d.toNat, .tile b.toNat] →
      let W := s.here.work
      let w := Machine.shapeWidth (W.shape d.toNat)
      let es := W.gatherElems d.toNat b.toNat
      let as := es.map (W.gatherAddr (s.me.reg a.toNat) d.toNat b.toNat)
      let cs := ps.flatten.zip (es.flatMap fun e => Machine.leBytes (w / 8) (W.elem d.toNat w e.1 e.2))
      s.eachBytes Machine.wantTileStore (w / 8) as = .ok ps → s.regionFull cs = false →
      ∃ t, Machine.exec (.sttS d a b) s = .next t ∧ t.me.portFree = s.me.local_ + 1 ∧
        Spec.Stores s t (s.me.reg a.toNat) (w / 8) 0 cs)

/-- R148, R151: SBIND of a descriptor whose 64 bytes resolve claims a slot for them; SSTAT gives the stream's status with latency 2, zero but for
EXH while it is not bound; SDROP unbinds its stream and changes nothing else. -/
def Sys2Proof.Spec.StreamSyllables : Prop :=
  ∀ (s : Machine.State),
    (∀ (x a : BitVec 6) (land : BitVec 12) (ps : List Nat), Machine.Readable s [.s a.toNat] → Spec.PortFree s → Spec.SlotFree s →
      Spec.Accessible s (Machine.wantSystem 64) 8 (s.me.reg a.toNat) 64 ps →
      ∃ t, Machine.exec (.sbind x a land) s = .next t ∧ t.me.portFree = s.me.local_ + 1 ∧
        Spec.Claims s t (.sbind x.toNat) [.q x.toNat] land (s.me.reg a.toNat) ps) ∧
    (∀ (d x : BitVec 6), Machine.Readable s [.q x.toNat] → ∃ t v, Machine.exec (.sstat d x) s = .next t ∧
      Machine.Results s t 2 s.me.divFree [.sreg d.toNat v] ∧
      ((s.here.work.stream x.toNat).bound = false → v = if (s.here.work.stream x.toNat).exh then 2 else 0) ∧
      ((s.here.work.stream x.toNat).bound = true → v.getLsbD 0 = true ∧ v.getLsbD 1 = (s.here.work.stream x.toNat).exh)) ∧
    (∀ (x : BitVec 6), x.toNat < 8 → ∃ t, Machine.exec (.sdrop x) s = .next t ∧ t.issued = true ∧
      t.here.work.stream x.toNat = Machine.Stream.unbound ∧ (∀ q, q ≠ x.toNat → t.here.work.stream q = s.here.work.stream q) ∧
      t.me = s.me ∧ Machine.OnlyHall { s with farCells := t.farCells } t ∧ (∀ c ∈ t.farCells, c ∈ s.farCells) ∧ t.here.work.tiles = s.here.work.tiles ∧ Machine.SameMemory s t)


/-! Atomics, contributions, publications, groups and barriers (R130 to R147). -/

namespace Sys2Proof.Spec
open Sys2Proof.Machine

/-- The registers that an atomic reads: AMO its address and its operand, CAS its destination also. -/
def atomicReads (op : Option AmoOp) (d a b : BitVec 6) : List Src := [.s a.toNat, .s b.toNat] ++ (if op.isNone then [.s d.toNat] else [])

/-- AMO with an operation, CAS with none. -/
def atomicInstr (op : Option AmoOp) (w : Width) (sc : Scope) (o : Order) (d a b : BitVec 6) (land : BitVec 12) : Instr :=
  match op with
  | some op => .amo op w sc o d a b land
  | none => .cas w sc o d a b land

/-- The order annotation has a release. -/
def releases (o : Order) : Prop := o = .REL ∨ o = .AR

/-- An atomic has left for its home with its operands, no earlier than seven local cycles from its home's answer; what else has changed of the
machine is its strand's slot or list of s0 atomics, and the Hall's count of checked commands. No byte of memory has changed. -/
structure AtomicLeaves (s t : State) (op : Option AmoOp) (w : Width) (sc : Scope) (o : Order) (d a b : BitVec 6) (land : BitVec 12) (ps : List Nat) :
    Prop where
  issued : t.issued = true
  sent : ∃ x, t.atomics = s.atomics ++ [x] ∧ x.id = s.nextAtomic ∧ x.op = op ∧ x.width = w ∧ x.scope = sc ∧ x.order = o ∧ x.paddrs = ps ∧
    x.h = s.curHall ∧ x.strand = s.curStrand ∧ x.vaddr = s.me.reg a.toNat ∧ x.operand = s.me.reg b.toNat ∧ x.comparand = s.me.reg d.toNat ∧
    x.slot = (if d = 0 then none else some s.me.seq) ∧ s.tick + 7 * s.here.levelTicks ≤ x.performAt
  quiet : d = 0 → t.me.slots = s.me.slots ∧ t.me.lateAtomics = s.me.lateAtomics ++ [s.nextAtomic]
  slot : d ≠ 0 → ∃ x, t.me.slots = s.me.slots ++ [x] ∧ x.seq = s.me.seq ∧ x.due = s.me.local_ + land.toNat ∧
    x.req = .atomic s.nextAtomic d.toNat ∧ x.dests = [.s d.toNat] ∧ x.data = none ∧ x.fault = none
  regs : t.me.s = s.me.s ∧ t.me.p = s.me.p ∧ t.me.b = s.me.b ∧ t.me.pc = s.me.pc ∧ t.me.nflags = s.me.nflags ∧ t.me.pends = s.me.pends
  halls : ∀ h, h ≠ s.curHall → t.hall h = s.hall h
  strands : ∀ st, st ≠ s.curStrand → t.here.work.strand st = s.here.work.strand st
  tiles : t.here.work.tiles = s.here.work.tiles ∧ t.here.work.masks = s.here.work.masks ∧ t.here.acc = s.here.acc
  memory : SameMemory s t

/-- No partition counts accesses into a hot map, which the device would write on its own (R416). -/
def Uncounted (s : State) : Prop := ∀ p : PartId, (s.part p).migcfg.getLsbD 16 = false

/-- A syllable has issued that writes no register, stores nothing and requests nothing. -/
structure Quiet (s t : State) : Prop where
  issued : t.issued = true
  regs : SameRegs s.me t.me
  halls : ∀ h, h ≠ s.curHall → t.hall h = s.hall h
  strands : ∀ st, st ≠ s.curStrand → t.here.work.strand st = s.here.work.strand st
  tiles : t.here.work.tiles = s.here.work.tiles ∧ t.here.work.masks = s.here.work.masks ∧ t.here.acc = s.here.acc
  memory : SameMemory s t

end Sys2Proof.Spec

/-- R130 to R132, R134: an AMO or CAS whose registers can be read, whose bytes resolve, whose log has room and, if it releases, whose publication
has been made leaves for its home; the strand goes on with a landing slot for the old value, or for destination s0 without one. -/
def Obligations.AtomicsLeave : Prop :=
  ∀ (s : Machine.State) (op : Option AmoOp) (w : Width) (sc : Scope) (o : Order) (d a b : BitVec 6) (land : BitVec 12) (ps : List Nat),
    Machine.Readable s (Spec.atomicReads op d a b) → Spec.PortFree s → (d ≠ 0 → Spec.SlotFree s) → (Spec.releases o → s.me.wait.pub = .done) →
    Spec.Accessible s (Machine.wantAtomic w) (Machine.widthBytes w) (s.me.reg a.toNat) (Machine.widthBytes w) ps →
    s.logAnswer (s.me.reg a.toNat) (Machine.atomicOp2 op (s.me.reg b.toNat) (s.me.reg d.toNat)) = .fresh →
    ∃ t, Machine.exec (Spec.atomicInstr op w sc o d a b land) s = .next t ∧ t.me.portFree = s.me.local_ + 1 ∧
      Spec.AtomicLeaves s t op w sc o d a b land ps

/-- R131: what an atomic of W bits writes for an old value of W bits: sums wrap, MIN and MAX compare as signed integers, the bitwise operations go
bit by bit, FADD gives the exact sum of two finite FP32 numbers rounded once to FP32 and the canonical NaN when an operand is a NaN, SWAP gives the operand, and CAS gives the operand when the old value is the comparand and nothing otherwise. -/
def Sys2Proof.Spec.AtomicValues : Prop :=
  ∀ (w old v cmp : Nat), 0 < w → old < 2 ^ w → v < 2 ^ w → cmp < 2 ^ w →
    let f := fun (op : AmoOp) => Machine.atomicValue (some op) w old v cmp
    f .ADD = some ((old + v) % 2 ^ w) ∧
    (∃ r, f .MIN = some r ∧ Machine.sint w r = min (Machine.sint w old) (Machine.sint w v) ∧ r < 2 ^ w) ∧
    (∃ r, f .MAX = some r ∧ Machine.sint w r = max (Machine.sint w old) (Machine.sint w v) ∧ r < 2 ^ w) ∧
    (∃ r, f .AND = some r ∧ ∀ k, r.testBit k = (old.testBit k && v.testBit k)) ∧
    (∃ r, f .OR = some r ∧ ∀ k, r.testBit k = (old.testBit k || v.testBit k)) ∧
    (∃ r, f .XOR = some r ∧ ∀ k, r.testBit k = (old.testBit k ^^ v.testBit k)) ∧
    f .SWAP = some v ∧
    (w = 32 → f .FADD = some (if (Machine.fp32.unpack old).isNan = true ∨ (Machine.fp32.unpack v).isNan = true then 0x7FC00000
      else (Machine.fp32.add old v).bits)) ∧
    (∀ (n1 n2 : Bool) (m1 m2 : Nat) (e1 e2 : Int), w = 32 → Machine.fp32.unpack old = .num n1 m1 e1 → Machine.fp32.unpack v = .num n2 m2 e2 →
      ∃ (neg : Bool) (m : Nat) (e : Int), f .FADD = some (Machine.fp32.pack neg m e).bits ∧
        (if neg then -Spec.dyadic m e else Spec.dyadic m e) =
          (if n1 then -Spec.dyadic m1 e1 else Spec.dyadic m1 e1) + (if n2 then -Spec.dyadic m2 e2 else Spec.dyadic m2 e2)) ∧
    Machine.atomicValue none w old v cmp = (if old = cmp then some v else none)

/-- R131, R281, R337: an atomic that is due, that the checker does not watch or matches, and that meets no data fault is performed: its bytes, and no others (but those of a
hot map), take the value, lowest byte first, and a CAS that fails changes no byte; it is pending no longer. -/
def Sys2Proof.Spec.AtomicsArePerformed : Prop :=
  ∀ (s : Machine.State) (id : Nat) (a : Machine.Atomic),
    s.atomics.find? (fun x => x.id == id && decide (x.performAt ≤ s.tick)) = some a → s.atomicWaits a = false →
    (a.matchAt = none ∨ (a.bad = 0 ∨ a.bad = Machine.uncounted) ∧ Config.upset s.free = false) → a.fabric = false → a.paddrs.Nodup →
    Machine.Memory.wf s.mem = true → (s.senseRead (s.partOf a.asid) a.paddrs).1 = none →
    let n := a.paddrs.length
    let old := Machine.leNat (a.paddrs.map (Machine.Memory.byte s.mem))
    ∃ t, Machine.exec (.atomicPerform id) s = .next t ∧ t.atomics = s.atomics.filter (fun x => x.id != a.id) ∧
      (Spec.Uncounted s →
        (∀ p, p ∉ a.paddrs → Machine.Memory.byte t.mem p = Machine.Memory.byte s.mem p) ∧
        match Machine.atomicValue a.op (8 * n) old a.operand.toNat a.comparand.toNat with
        | some v => a.paddrs.map (Machine.Memory.byte t.mem) = Machine.leBytes n v
        | none => ∀ p, Machine.Memory.byte t.mem p = Machine.Memory.byte s.mem p)

/-- R131: what an atomic of W bits writes for an old value of W bits: sums wrap, MIN and MAX compare as signed integers, the bitwise operations go bit by
bit, FADD gives the exact sum of two finite FP32 numbers rounded once to FP32 and the canonical NaN when an operand is a NaN, SWAP gives the operand,
and CAS gives the operand when the old value is the comparand and nothing otherwise. R131, R281, R337: an atomic that is due, that the checker does
not watch or matches, and that meets no data fault is performed: its bytes, and no others (but those of a hot map), take the value, lowest byte first,
and a CAS that fails changes no byte; it is pending no longer. -/
def Obligations.AtomicOperations : Prop := Spec.AtomicValues ∧ Spec.AtomicsArePerformed

/-- R135, R136, R345: STMR to an enabled window of its width adds its contribution to those that its strand's next publication sends, claims no slot
and stores nothing; to a window that is disabled or of another width it traps with PROT and detail 0x40. -/
def Sys2Proof.Spec.ContributionsWait : Prop :=
  ∀ (s : Machine.State) (w : Width) (a b : BitVec 6) (ps : List Nat),
    s.depth = 0 → Machine.Readable s [.s a.toNat, .s b.toNat] → Spec.PortFree s →
    Spec.Accessible s (Machine.wantStmr w) (Machine.widthBytes w) (s.me.reg a.toNat) (Machine.widthBytes w) ps →
    let p := ps.headD 0
    let desc := s.mrDesc (BitVec.ofNat 4 ((p - 0xC0000000000) / 0x100000)) ((p - 0xC0000000000) % 0x100000 / 4096)
    (∀ d, desc = some d → Machine.mrWidth d.ty = Machine.widthBytes w →
      ∃ t, Machine.exec (.stmr w a b) s = .next t ∧ Spec.Quiet s t ∧ t.me.portFree = s.me.local_ + 1 ∧
        t.me.stmrs = s.me.stmrs ++ [{ paddr := p, width := w, value := s.me.reg b.toNat, ty := d.ty, fabric := d.fabric != 0 }]) ∧
    ((∀ d, desc = some d → Machine.mrWidth d.ty ≠ Machine.widthBytes w) → Machine.Unstopped s →
      ∃ t i, Machine.exec (.stmr w a b) s = .next t ∧ Machine.Traps s t i ∧ i.cause = .PROT ∧ i.detail = 0x40 ∧ i.addr = s.me.reg a.toNat)

/-- R140, R345: PHASE whose publication has been made and whose reads have been performed issues and changes no register and no byte; with something to
publish it begins the publication, its strand frozen; inside a recovery region it traps with ILLEGAL. -/
def Sys2Proof.Spec.PhasePublishes : Prop :=
  ∀ (s : Machine.State) (sc : Scope),
    (s.depth = 0 → s.me.wait.pub = .done → (sc ≠ .strand → s.me.slots.all (fun x => x.data.isSome) = true) →
      ∃ t, Machine.exec (.phase sc) s = .next t ∧ Spec.Quiet s t ∧ t.me.wait = .none) ∧
    (s.depth = 0 → s.me.wait.pub = .idle → s.hasWork s.curHall s.curStrand sc = true →
      ∃ t at_, Machine.exec (.phase sc) s = .next t ∧ t.issued = false ∧ t.me.frozen = true ∧ t.me.wait.pub = .waiting sc at_ ∧
        s.here.cycle < at_ ∧ Spec.SameRegs s.me t.me ∧ ∀ a, Machine.Memory.byte t.mem a = Machine.Memory.byte s.mem a) ∧
    (s.depth ≠ 0 → Machine.Unstopped s → ∃ t, Machine.exec (.phase sc) s = .next t ∧ Machine.Traps s t { cause := .ILLEGAL })

/-- R141: FENCE.MK places a marker behind the last command of each queue of its mask; JOIN waits, frozen, for the commands ahead of its markers, and
with none left to wait for it issues and forgets its markers. -/
def Sys2Proof.Spec.MarkersAndJoins : Prop :=
  ∀ (s : Machine.State),
    (∀ (mask : BitVec 3), ∃ t ms, Machine.exec (.fenceMk mask) s = .next t ∧ Spec.Quiet s t ∧ t.me.markers = s.me.markers ++ ms ∧
      ∀ q n, (∃ m ∈ ms, m.queue = q ∧ m.last = n) ↔ (q = .copy ∧ n = s.here.cqNext ∧ mask.getLsbD 0 = true) ∨
        (q = .matrix ∧ n = s.here.mqNext ∧ mask.getLsbD 1 = true) ∨ (q = .hazel ∧ n = s.here.hqNext ∧ mask.getLsbD 2 = true)) ∧
    (s.me.markers.any s.here.joinWaits = false → ∃ t, Machine.exec .join s = .next t ∧ Spec.Quiet s t ∧ t.me.markers = []) ∧
    (s.me.markers.any s.here.joinWaits = true → ∃ t, Machine.exec .join s = .next t ∧ Machine.Freezes s t)

/-- R135, R136, R345: STMR to an enabled window of its width adds its contribution to those that its strand's next publication sends, claims no slot and
stores nothing; to a window that is disabled or of another width it traps with PROT and detail 0x40. R140, R345: PHASE whose publication has been made
and whose reads have been performed issues and changes no register and no byte; with something to publish it begins the publication, its strand
frozen; inside a recovery region it traps with ILLEGAL. R141: FENCE.MK places a marker behind the last command of each queue of its mask; JOIN waits,
frozen, for the commands ahead of its markers, and with none left to wait for it issues and forgets its markers. -/
def Obligations.ContributionsPhasesAndMarkers : Prop := Spec.ContributionsWait ∧ Spec.PhasePublishes ∧ Spec.MarkersAndJoins

/-- R143, R144: a slice that is no member of a group joins it, at its own module, as its newest member, and the number of members is what lands; it joins a group
that another module keeps as well, where what lands is the number of this module's members and an open number of the others' (log 9); it leaves with GLEAVE; a second join of a group and a leave by a non-member trap with PROT. -/
def Sys2Proof.Spec.GroupMembership : Prop :=
  ∀ (s : Machine.State) (sl : Machine.Slice) (a : BitVec 6), s.here.slice = some sl → s.depth = 0 → Machine.Readable s [.s a.toNat] →
    let gid := (s.me.reg a.toNat).toNat % 4096
    let mine := sl.groups.find? fun m => m.gid == gid
    (∀ (sc : Scope) (d : BitVec 6) (land : BitVec 12), mine = none → sl.groups.length < 16 → Spec.SlotFree s →
      (∀ g, s.group s.asid gid = some g → g.scope = sc ∧ g.admits s.curHall = true ∧ g.home = true) →
      (s.group s.asid gid = none → sc = .fabric → s.peers s.asid = []) →
      ∃ t g x, Machine.exec (.gjoin sc d a land) s = .next t ∧ t.issued = true ∧ t.group s.asid gid = some g ∧ g.scope = sc ∧
        g.members.length = (match s.group s.asid gid with | some g => g.members.length | none => 0) + 1 ∧
        (∃ m ∈ g.members, m.slice = sl.id ∧ m.hall = s.curHall ∧ m.arrived = false) ∧
        t.me.slots = s.me.slots ++ [x] ∧ x.due = s.me.local_ + land.toNat ∧ x.dests = [.s d.toNat] ∧
        x.data = some [.sreg d.toNat (BitVec.ofNat 64 g.members.length)] ∧ t.me.s = s.me.s ∧ Machine.SameMemory s t) ∧
    (∀ (g : Machine.Group) (d : BitVec 6) (land : BitVec 12), mine = none → sl.groups.length < 16 → Spec.SlotFree s → s.group s.asid gid = some g →
      g.home = false → g.scope = .fabric →
      ∃ t g' x v, Machine.exec (.gjoin .fabric d a land) s = .next t ∧ t.issued = true ∧ t.group s.asid gid = some g' ∧ g'.home = false ∧
        g'.members.length = g.members.length + 1 ∧ t.me.slots = s.me.slots ++ [x] ∧ x.due = s.me.local_ + land.toNat ∧ x.dests = [.s d.toNat] ∧
        x.data = some [.sreg d.toNat (BitVec.ofNat 64 (g'.members.filter fun m => m.index == s.selfIndex s.asid).length + v)] ∧ t.me.s = s.me.s ∧
        Machine.SameMemory s t) ∧
    (mine ≠ none → Machine.Unstopped s → ∀ sc d land, ∃ t, Machine.exec (.gjoin sc d a land) s = .next t ∧
      Machine.Traps s t { cause := .PROT, detail := 0x01 }) ∧
    (mine ≠ none → (s.groups.filter fun g => g.asid == s.asid && g.gid == gid).length ≤ 1 →
      (∀ g, s.group s.asid gid = some g → (g.members.filter fun m => m.is (s.selfIndex s.asid) sl.id (s.selfIndex s.asid) s.curHall).length ≤ 1) →
      ∃ t, Machine.exec (.gleave a) s = .next t ∧ Spec.Quiet s t ∧
      t.here.slice = some { sl with groups := sl.groups.filter fun m => m.gid != gid } ∧
      ∀ g, t.group s.asid gid = some g → ∀ m ∈ g.members, m.is (s.selfIndex s.asid) sl.id (s.selfIndex s.asid) s.curHall = false) ∧
    (mine = none → Machine.Unstopped s → ∃ t, Machine.exec (.gleave a) s = .next t ∧ Machine.Traps s t { cause := .PROT, detail := 0x01 })

/-- R145, R146: an arrival by a member whose publication has been made is recorded, and completes the phase when it is the last expected, where its module keeps the group; an arrival by
a member that has arrived, or by no member, traps with BAR_OVERRUN. BAR.WAIT, and a BAR.SYNC that has arrived, issue when the phase of the slice's
last arrival has completed, and wait, frozen, until then. -/
def Sys2Proof.Spec.Barriers : Prop :=
  ∀ (s : Machine.State) (a : BitVec 6), Machine.Readable s [.s a.toNat] →
    let gid := (s.me.reg a.toNat).toNat % 4096
    (∀ g m, s.depth = 0 → s.asMember gid = some (g, m) → g.home = true → m.arrived = false → m.from_ ≤ g.phase → s.me.wait.pub = .done →
      ∃ t g', Machine.exec (.barArrive a) s = .next t ∧ Spec.Quiet s t ∧ t.group s.asid gid = some g' ∧ g'.members.length = g.members.length ∧
        (g.arrivals + 1 < g.expected → g'.phase = g.phase ∧ g'.arrivals = g.arrivals + 1 ∧ g'.expected = g.expected) ∧
        (g.expected ≤ g.arrivals + 1 → g.phase < g'.phase)) ∧
    (∀ g m, s.depth = 0 → s.asMember gid = some (g, m) → g.home = false → m.arrived = false → s.me.wait.pub = .done →
      ∃ t g', Machine.exec (.barArrive a) s = .next t ∧ Spec.Quiet s t ∧ t.group s.asid gid = some g' ∧ g'.phase = g.phase ∧
        g'.members.length = g.members.length) ∧
    (s.depth = 0 → (∀ g m, s.asMember gid = some (g, m) → m.arrived = true) → Machine.Unstopped s →
      (∃ t, Machine.exec (.barArrive a) s = .next t ∧ Machine.Traps s t { cause := .BAR_OVERRUN }) ∧
      (s.me.wait.arrived = false → ∃ t, Machine.exec (.barSync a) s = .next t ∧ Machine.Traps s t { cause := .BAR_OVERRUN })) ∧
    (∀ i, i = .barWait a ∨ (i = .barSync a ∧ s.depth = 0 ∧ s.me.wait.arrived = true) →
      (s.group s.asid gid = none → ∃ t, Machine.exec i s = .next t ∧ Spec.Quiet s t ∧ t.me.wait = .none) ∧
      (∀ g, s.group s.asid gid = some g → (∀ m ph, s.membership gid = some m → m.last = some ph → ph < g.phase) →
        (g.scope ≠ .strand → s.me.slots.all (fun x => x.data.isSome) = true) →
        ∃ t, Machine.exec i s = .next t ∧ Spec.Quiet s t ∧ t.me.wait = .none) ∧
      (∀ g m ph, s.group s.asid gid = some g → s.membership gid = some m → m.last = some ph → g.phase ≤ ph →
        ∃ t, Machine.exec i s = .next t ∧ t.issued = false ∧ t.me.frozen = true ∧ Spec.SameRegs s.me t.me ∧ Machine.SameMemory s t))

/-- R143, R144: a slice that is no member of a group joins it, at its own module, as its newest member, and the number of members is what lands; it joins
a group that another module keeps as well, where what lands is the number of this module's members and an open number of the others' (log 9); it
leaves with GLEAVE; a second join of a group and a leave by a non-member trap with PROT. R145, R146: an arrival by a member whose publication has been
made is recorded, and completes the phase when it is the last expected, where its module keeps the group; an arrival by a member that has arrived, or
by no member, traps with BAR_OVERRUN. BAR.WAIT, and a BAR.SYNC that has arrived, issue when the phase of the slice's last arrival has completed, and
wait, frozen, until then. -/
def Obligations.GroupsAndBarriers : Prop := Spec.GroupMembership ∧ Spec.Barriers

/-! Control registers and system syllables (R206 to R226). -/

namespace Sys2Proof.Spec
open Sys2Proof.Machine

/-- The registers that R207 assigns. -/
def csrNumber (n : Nat) : Prop :=
  n ≤ 0x007 ∨ (0x010 ≤ n ∧ n ≤ 0x02F) ∨ (0x040 ≤ n ∧ n ≤ 0x044) ∨ (0x050 ≤ n ∧ n ≤ 0x054) ∨ n = 0x060 ∨ n = 0x061 ∨ (0x070 ≤ n ∧ n ≤ 0x07F) ∨
    (0x080 ≤ n ∧ n ≤ 0x087) ∨ n = 0x090

/-- The registers of R207 as they read for the strand at issue, on a Hall that runs the slice sl, beside the trap registers. -/
def csrRow (s : State) (sl : Slice) (n : Nat) : Option Word :=
  let H := s.here
  let thr := fun (t : Thresh) => (t.limit.toNat + 2 ^ 32 * t.win.toNat + if t.act then 2 ^ 48 else 0 : Nat)
  let flag := fun (b : Bool) => if b then 1 else 0
  if n = 0x000 then some (s.me.nflags.setWidth 64)
  else if n = 0x001 then some (if s.me.sbchk then 1 else 0)
  else if n = 0x002 then some sl.ncfg
  else if n = 0x003 then some (sl.ntstat.setWidth 64)
  else if n = 0x004 then some (BitVec.ofNat 64 (thr sl.thresh[0]))
  else if n = 0x005 then some (BitVec.ofNat 64 (thr sl.thresh[1]))
  else if n = 0x006 then some (BitVec.ofNat 64 (thr sl.thresh[2]))
  else if n = 0x007 then some (s.me.ntid.setWidth 64)
  else if 0x010 ≤ n ∧ n ≤ 0x02F then some ((H.work.shape (n - 0x010)).setWidth 64)
  else if n = 0x040 then some ((s.part sl.part).barTmo.setWidth 64)
  else if n = 0x041 then some (sl.retry.setWidth 64)
  else if n = 0x042 then
    some (BitVec.ofNat 64 (H.poolSize + 2 ^ 16 * (((sl.regions.map (·.reserved)).sum + 1023) / 1024) + 2 ^ 32 * sl.log.length))
  else if n = 0x043 then some (BitVec.ofNat 64 (flag sl.noteEn + 2 * flag sl.notePend + 2 ^ 8 * sl.noteCount.toNat))
  else if n = 0x044 then
    some (BitVec.ofNat 64 ((match H.boostReq with | .nominal => 0 | .B1 => 1 | .B2 => 2) + 4 * H.boostGrant.toNat + 2 ^ 8 * H.boostPermits))
  else if n = 0x050 then some (sl.asid.setWidth 64)
  else if n = 0x051 then some (sl.part.setWidth 64)
  else if n = 0x052 then some (s.curHall.setWidth 64)
  else if n = 0x053 then some (sl.rank.setWidth 64)
  else if n = 0x054 then some (BitVec.ofNat 64 sl.left)
  else if n = 0x060 then some (BitVec.ofNat 64 (s.tick / 5544))
  else if n = 0x061 then some (BitVec.ofNat 64 (H.band + 2 ^ 8 * H.tempC.toNat + 2 ^ 16 * flag H.auto))
  else if 0x070 ≤ n ∧ n ≤ 0x07F then
    let b := n - 0x070
    some (BitVec.ofNat 64 (unitNs b + 2 ^ 16 * (if b = 0 then 0 else 45 + 5 * b)))
  else if n = 0x090 then some (BitVec.ofNat 64 (H.errKind.toNat + 2 ^ 8 * H.errAfter))
  else none

/-- The trap registers of R395 as the supervisor slice reads them: with no record open their RO fields are zero. -/
def trapRow (P : Part) (n : Nat) : Word :=
  let rec_ := fun (f : TrapRec → Word) => match P.open_ with | some r => f r | none => 0
  match n with
  | 0 => rec_ fun r => r.cause ||| 0x80000000
  | 1 => P.pcs[0] | 2 => P.pcs[1] | 3 => P.pcs[2] | 4 => P.pcs[3]
  | 5 => rec_ (·.addr)
  | 6 => rec_ (fun r => r.info &&& ~~~7#64) ||| P.trapAct.setWidth 64
  | _ => rec_ (·.ctx)

/-- The registers of R207 that user mode may not read. -/
def csrPrivate (n : Nat) : Prop := n = 0x042 ∨ (0x080 ≤ n ∧ n ≤ 0x087) ∨ n = 0x090
/-- The registers of R207 that user mode may write. -/
def csrOpen (n : Nat) : Prop := n = 0x000 ∨ n = 0x001 ∨ n = 0x002 ∨ (0x010 ≤ n ∧ n ≤ 0x02F) ∨ n = 0x041 ∨ n = 0x043

/-- The syllable has issued, its strand stops at the following boundary, and the Hall records the cause on it. -/
structure TrapsAfter (s t : State) (i : TrapInfo) : Prop where
  issued : t.issued = true
  notExact : t.trapped = false
  trap : t.here.trap = some { strand := s.curStrand, info := i, cycle := s.here.cycle, complete := false, queued := false, told := false, held := none }
  regs : SameRegs s.me t.me
  frame : OnlyHall s t
  memory : SameMemory s t

/-- The slice of the Hall at issue is changed by a function, and nothing else but the marks of the syllable. -/
structure OnSlice (s t : State) (f : Slice → Slice) : Prop where
  issued : t.issued = true
  here : t.here = { s.here with slice := s.here.slice.map f }
  frame : OnlyHall s t
  memory : SameMemory s t

end Sys2Proof.Spec

/-- R206, R207, R14, R395: CSRR of every register of R207 that its mode may read gives the register's value as it stands, pending with latency 2, and changes nothing
else but for NTSTAT and an opening of a trap record; in user mode a register without user access traps with PRIV. -/
def Sys2Proof.Spec.ControlRegisterReads : Prop :=
  ∀ (s : Machine.State) (sl : Machine.Slice) (d : BitVec 6) (num : BitVec 12), s.here.slice = some sl →
    let n := num.toNat
    let P := s.part sl.part
    let opens := n = 0x080 ∧ sl.supervisor = true ∧ P.open_ = none ∧ P.trapq ≠ []
    (Spec.csrNumber n → sl.super = true ∨ ¬Spec.csrPrivate n → (n = 0 → Machine.Readable s [.flags]) → n ≠ 0x003 → ¬opens →
      ∃ t v, Machine.exec (.csrr d num) s = .next t ∧ Machine.Results s t 2 s.me.divFree [.sreg d.toNat v] ∧
        (∀ w, Spec.csrRow s sl n = some w → v = w) ∧
        (0x080 ≤ n ∧ n ≤ 0x087 → v = if sl.supervisor = true then Spec.trapRow P (n - 0x080) else 0)) ∧
    (sl.super = false → Spec.csrPrivate n → Machine.Unstopped s →
      ∃ t, Machine.exec (.csrr d num) s = .next t ∧ Machine.Traps s t { cause := .PRIV })

/-- R8, R94, R394: a CSRR of NTSTAT gives the crossings and clears them; one of TRAP.CAUSE by the supervisor with no record open opens the oldest
queued record, whose cause it gives, and whose resume points and ACT then stand in the trap registers. -/
def Sys2Proof.Spec.ReadsWithAnEffect : Prop :=
  ∀ (s : Machine.State) (sl : Machine.Slice) (d : BitVec 6), s.here.slice = some sl →
    (∃ t, Machine.exec (.csrr d 0x003) s = .next t ∧ t.issued = true ∧ t.here.slice = some { sl with ntstat := 0 } ∧
      t.me.pends = s.me.pends ++ [{ seq := s.me.seq, due := s.me.local_ + 2, upds := [.sreg d.toNat (sl.ntstat.setWidth 64)] }] ∧
      t.me.s = s.me.s ∧ Machine.OnlyHall s t ∧ Machine.SameMemory s t) ∧
    (∀ r rest, sl.super = true → sl.supervisor = true → (s.part sl.part).open_ = none → (s.part sl.part).trapq = r :: rest →
      ∃ t, Machine.exec (.csrr d 0x080) s = .next t ∧ t.issued = true ∧
        t.part sl.part = { s.part sl.part with open_ := some r, trapq := rest, pcs := r.pcs, trapAct := r.info.extractLsb' 0 3 } ∧
        (∀ p, p ≠ sl.part → t.part p = s.part p) ∧ t.me.s = s.me.s ∧ Machine.SameMemory s t ∧
        t.me.pends = s.me.pends ++ [{ seq := s.me.seq, due := s.me.local_ + 2, upds := [.sreg d.toNat (r.cause ||| 0x80000000)] }])

/-- R206, R207, R14, R395: CSRR of every register of R207 that its mode may read gives the register's value as it stands, pending with latency 2, and
changes nothing else but for NTSTAT and an opening of a trap record; in user mode a register without user access traps with PRIV. R8, R94, R394: a
CSRR of NTSTAT gives the crossings and clears them; one of TRAP.CAUSE by the supervisor with no record open opens the oldest queued record, whose
cause it gives, and whose resume points and ACT then stand in the trap registers. -/
def Obligations.ReadingControlRegisters : Prop := Spec.ControlRegisterReads ∧ Spec.ReadsWithAnEffect

/-- R206, R27, R90: a CSRW that its mode may make is held for the end of the Hall cycle and changes nothing before; in user mode a write to another
register, or one that changes more than the trap enables of NCFG, traps with PRIV, and a shape of width code 3 traps with ILLEGAL. -/
def Sys2Proof.Spec.ControlRegisterWrites : Prop :=
  ∀ (s : Machine.State) (num : BitVec 12) (a : BitVec 6), Machine.Readable s [.s a.toNat] →
    let n := num.toNat
    let v := s.me.reg a.toNat
    let keeps := n = 0x002 → v.extractLsb' 8 2 = (s.csrValue 0x002).extractLsb' 8 2
    let shape := 0x010 ≤ n ∧ n ≤ 0x02F
    ((s.superMode = true ∨ Spec.csrOpen n ∧ keeps) → (shape → v.extractLsb' 0 2 ≠ 3) →
      ∃ t, Machine.exec (.csrw num a) s = .next t ∧ t.issued = true ∧ t.here = { s.here with csrWrites := s.here.csrWrites ++ [(s.curStrand, n, v)] } ∧
        Machine.OnlyHall s t ∧ Machine.SameMemory s t) ∧
    (s.superMode = false → (¬Spec.csrOpen n ∨ ¬keeps) → Machine.Unstopped s →
      ∃ t, Machine.exec (.csrw num a) s = .next t ∧ Machine.Traps s t { cause := .PRIV }) ∧
    ((s.superMode = true ∨ Spec.csrOpen n) → shape → v.extractLsb' 0 2 = 3 → Machine.Unstopped s →
      ∃ t, Machine.exec (.csrw num a) s = .next t ∧ Machine.Traps s t { cause := .ILLEGAL })

/-- R8, R22, R27, R88, R90, R206: what a CSRW that a strand of a running slice has made does at the end of the Hall cycle: ones clear sticky flags,
the reserved bits of SBCHK and NCFG stay zero, a shape's columns are limited by its width, and the read-only NTSTAT, NTID, CTX and DEVTIME registers
stay as they are. -/
def Sys2Proof.Spec.ControlRegisterCommit : Prop :=
  ∀ (s : Machine.State) (h : HallId) (st : Strand) (sl : Machine.Slice) (v : Word), (s.hall h).slice = some sl →
    let after := fun (n : Nat) => s.csrApply h st n v
    (∀ k, k < 6 → ((after 0).strand h st).nflags.getLsbD k = ((s.strand h st).nflags.getLsbD k && !v.getLsbD k)) ∧
    ((after 1).strand h st).sbchk = v.getLsbD 0 ∧
    (∃ x, ((after 2).hall h).slice = some x ∧ ∀ k, x.ncfg.getLsbD k = (v.getLsbD k && (decide (k < 6) || decide (k = 8) || decide (k = 9)))) ∧
    (∀ t, t < 32 → v.extractLsb' 0 2 ≠ 3 →
      let x := ((after (0x010 + t)).hall h).work.shape t
      let limit := 256 / 2 ^ (v.extractLsb' 0 2).toNat - 1
      x.extractLsb' 0 6 = v.extractLsb' 0 6 ∧ x.extractLsb' 6 2 = 0 ∧ (x.extractLsb' 8 8).toNat = min (v.extractLsb' 8 8).toNat limit) ∧
    (∀ n, n = 0x003 ∨ n = 0x007 ∨ (0x050 ≤ n ∧ n ≤ 0x054) ∨ n = 0x060 → after n = s)

/-- R206, R27, R90: a CSRW that its mode may make is held for the end of the Hall cycle and changes nothing before; in user mode a write to another
register, or one that changes more than the trap enables of NCFG, traps with PRIV, and a shape of width code 3 traps with ILLEGAL. R8, R22, R27, R88,
R90, R206: what a CSRW that a strand of a running slice has made does at the end of the Hall cycle: ones clear sticky flags, the reserved bits of
SBCHK and NCFG stay zero, a shape's columns are limited by its width, and the read-only NTSTAT, NTID, CTX and DEVTIME registers stay as they are. -/
def Obligations.WritingControlRegisters : Prop := Spec.ControlRegisterWrites ∧ Spec.ControlRegisterCommit

/-- R211, R213, R214: TRAP issues and then stops its strand with BREAK and its code; TFENCE, once its waits are over, stops its strand likewise with
ARITH when an enabled flag or a crossing stands, else with EXPIRED and detail 4 when a notice is pending and enabled, and else changes nothing; NTAG's identifier is
pending with latency 1. -/
def Sys2Proof.Spec.TrapsAndFences : Prop :=
  ∀ (s : Machine.State),
    (∀ code, Machine.Unstopped s → ∃ t, Machine.exec (.trap code) s = .next t ∧ Spec.TrapsAfter s t { cause := .BREAK, code := code }) ∧
    (∀ id, Machine.Readable s [] → ∃ t, Machine.exec (.ntag id) s = .next t ∧ Machine.Results s t 1 s.me.divFree [.ntid id]) ∧
    (∀ sl, s.here.slice = some sl → s.me.flagsPending = false → (s.curStrand = .M → s.me.wait.stage = 0 ∧ s.here.ahead .matrix s.here.mqNext = false) →
      (s.me.nflags &&& sl.trapEnable ≠ 0 ∨ sl.ntstat ≠ 0 → Machine.Unstopped s →
        ∃ t, Machine.exec .tfence s = .next t ∧ Spec.TrapsAfter s t { cause := .ARITH }) ∧
      (s.me.nflags &&& sl.trapEnable = 0 ∧ sl.ntstat = 0 → sl.noteEn = true ∧ sl.notePend = true → Machine.Unstopped s →
        ∃ t, Machine.exec .tfence s = .next t ∧ Spec.TrapsAfter s t { cause := .EXPIRED, detail := 4 }) ∧
      (s.me.nflags &&& sl.trapEnable = 0 ∧ sl.ntstat = 0 → ¬(sl.noteEn = true ∧ sl.notePend = true) →
        ∃ t, Machine.exec .tfence s = .next t ∧ Spec.Quiet s t ∧ t.here.trap = s.here.trap))

/-- R212, R396: ERET in user mode traps with PRIV, and without an open record with ILLEGAL. With ACT 0 it closes the record and its slice resumes, unless
the cause was MACHINE_CHECK: no trap stands on its Hall, each strand is at the program counter that the trap registers held, and the budget is renewed; with
ACT 1 and a place for its fresh record, and with ACT 2 or 3, the slice leaves its Hall, unless a command of its is being performed. -/
def Sys2Proof.Spec.ReturnFromTrap : Prop :=
  ∀ (s : Machine.State), Machine.Unstopped s →
    (s.superMode = false → ∃ t, Machine.exec .eret s = .next t ∧ Machine.Traps s t { cause := .PRIV }) ∧
    (s.superMode = true → (s.part s.partId).open_ = none → ∃ t, Machine.exec .eret s = .next t ∧ Machine.Traps s t { cause := .ILLEGAL }) ∧
    (∀ r x, s.superMode = true → s.isSupervisor = true → (s.part s.partId).open_ = some r → (s.hall r.hall).slice = some x → r.hall ≠ s.curHall →
      let P := s.part s.partId
      let act := P.trapAct.extractLsb' 1 2
      (act = 0 → r.cause.extractLsb' 0 8 ≠ 0x11#8 → (∀ t, (s.hall r.hall).trap = some t → t.held = none) →
        ∃ t, Machine.exec .eret s = .next t ∧ t.issued = true ∧ (t.part s.partId).open_ = none ∧ (t.hall r.hall).trap = none ∧
          ((t.hall r.hall).work.S.pc = (P.pcs[0] &&& ~~~7#64) ∧ (t.hall r.hall).work.L.pc = (P.pcs[1] &&& ~~~7#64) ∧
            (t.hall r.hall).work.M.pc = (P.pcs[2] &&& ~~~7#64) ∧ (t.hall r.hall).work.V.pc = (P.pcs[3] &&& ~~~7#64)) ∧
          (∀ st, (t.strand r.hall st).s = (s.strand r.hall st).s ∧ (t.strand r.hall st).frozen = false) ∧
          (t.hall r.hall).slice = some { x with left := 256 * x.packet.budget, ending := false, waitPred := false } ∧
          (∀ h, h ≠ r.hall → t.hall h = s.hall h) ∧ Machine.SameMemory s t) ∧
      ((s.hall r.hall).performing x.id = false → 2 ≤ act.toNat ∨ (act = 1 ∧ (((s.closeRecord s.partId).issue).kills r.hall).isSome = true) → ∃ t, Machine.exec .eret s = .next t ∧ t.issued = true ∧ (t.part s.partId).open_ = none ∧ (t.hall r.hall).slice = none))

/-- R211, R213, R214: TRAP issues and then stops its strand with BREAK and its code; TFENCE, once its waits are over, stops its strand likewise with ARITH
when an enabled flag or a crossing stands, else with EXPIRED and detail 4 when a notice is pending and enabled, and else changes nothing; NTAG's
identifier is pending with latency 1. R212, R396: ERET in user mode traps with PRIV, and without an open record with ILLEGAL. With ACT 0 it closes the
record and its slice resumes, unless the cause was MACHINE_CHECK: no trap stands on its Hall, each strand is at the program counter that the trap
registers held, and the budget is renewed; with ACT 1 and a place for its fresh record, and with ACT 2 or 3, the slice leaves its Hall, unless a
command of its is being performed. -/
def Obligations.RaisingTrapsAndReturning : Prop := Spec.TrapsAndFences ∧ Spec.ReturnFromTrap

/-- R215, R345: SLICE.END in a region traps with ILLEGAL. It issues first, and marks its slice as ending, so that the other strands stop; when every strand's
publication has been made and the slice counts no events, the slice has left its Hall, and the Hall remembers its context. -/
def Sys2Proof.Spec.SliceEnds : Prop :=
  ∀ (s : Machine.State) (sl : Machine.Slice), s.here.slice = some sl →
    (s.depth ≠ 0 → Machine.Unstopped s → ∃ t, Machine.exec .sliceEnd s = .next t ∧ Machine.Traps s t { cause := .ILLEGAL }) ∧
    (s.depth = 0 → s.me.wait.stage = 0 → ∃ t, Machine.exec .sliceEnd s = .next t ∧ t.issued = true ∧ t.target = some s.me.pc ∧
      t.here.slice = some { sl with ending := true } ∧ t.me.wait.stage = 1 ∧ Spec.SameRegs s.me t.me ∧ Machine.SameMemory s t) ∧
    (s.depth = 0 → s.me.wait.stage = 3 → (∀ st, (s.here.work.strand st).wait.pub = .done) → sl.countsTo = none →
      ∃ t, Machine.exec .sliceEnd s = .next t ∧ t.here.slice = none ∧ t.here.lastAsid = some sl.asid)

/-- R216 to R219, R222: SLICE.YIELD, its publication made, begins the slice's leave; RANGE.NEXT claims a slot for its pair of registers; HINT.SUCC releases
the successor of its instance, or notes that it is wanted, and does nothing when there is none or it has been released; WAIT.PRED goes on once the predecessor has ended and waits, frozen, until then; BOOST.REQ is noted. -/
def Sys2Proof.Spec.DividingWork : Prop :=
  ∀ (s : Machine.State) (sl : Machine.Slice), s.here.slice = some sl →
    (s.depth = 0 → s.me.wait.pub = .done → ∃ t x, Machine.exec .sliceYield s = .next t ∧ t.issued = true ∧ t.here.switch = some x ∧ x.how = .yield ∧
      Spec.SameRegs s.me t.me ∧ Machine.OnlyHall s t ∧ Machine.SameMemory s t) ∧
    (∀ d a land, s.depth = 0 → Machine.Readable s [.s a.toNat] → Spec.SlotFree s → ∃ t, Machine.exec (.rangeNext d a land) s = .next t ∧
      Spec.Claims s t (.rangeNext d.toNat (s.me.reg a.toNat)) [.s d.toNat, .s (d + 1).toNat] land 0 []) ∧
    (∀ i, s.inst sl.inst = some i → (i.released = true ∨ i.succ = 0) → ∃ t, Machine.exec .hintSucc s = .next t ∧ t = { s with issued := true }) ∧
    (∀ i, s.inst sl.inst = some i → i.released = false → i.succ ≠ 0 → ∃ t j, Machine.exec .hintSucc s = .next t ∧ t.issued = true ∧ t.inst sl.inst = some j ∧
      (j.released = true ∨ j.wants = true) ∧ t.me.s = s.me.s) ∧
    (∀ i p, s.inst sl.inst = some i → i.pred.bind s.inst = some p →
      (p.ended = true → s.me.slots.all (fun x => x.data.isSome) = true → ∃ t, Machine.exec .waitPred s = .next t ∧ Spec.Quiet s t ∧
        t.here.slice = some { sl with waitPred := false }) ∧
      (p.ended = false → ∃ t, Machine.exec .waitPred s = .next t ∧ t.issued = false ∧ t.me.frozen = true ∧ Spec.SameRegs s.me t.me ∧ Machine.SameMemory s t)) ∧
    ((s.inst sl.inst).bind (fun i => i.pred.bind s.inst) = none → s.me.slots.all (fun x => x.data.isSome) = true →
      ∃ t, Machine.exec .waitPred s = .next t ∧ Spec.Quiet s t ∧ t.here.slice = some { sl with waitPred := false }) ∧
    (∀ lvl, ∃ t, Machine.exec (.boostReq lvl) s = .next t ∧ t.issued = true ∧ t.here = { s.here with boostReq := lvl, boostFrom := s.tick } ∧
      Machine.OnlyHall s t)

/-- R217: a range gives its next indices: as many as are asked for, or all that are left, and it begins after them from then on. -/
def Sys2Proof.Spec.RangesAreTaken : Prop :=
  ∀ (s : Machine.State) (h : HallId) (sl : Machine.Slice) (c : Word), (s.hall h).slice = some sl → sl.lo.toNat ≤ sl.hi.toNat →
    let r := s.takeRange h c
    r.1 = sl.lo ∧ r.2.1.toNat = min c.toNat (sl.hi.toNat - sl.lo.toNat) ∧
      ∃ x, (r.2.2.hall h).slice = some x ∧ x.lo.toNat = sl.lo.toNat + r.2.1.toNat ∧ x.hi = sl.hi ∧ x.lo.toNat ≤ x.hi.toNat

/-- R216 to R219, R222: SLICE.YIELD, its publication made, begins the slice's leave; RANGE.NEXT claims a slot for its pair of registers; HINT.SUCC
releases the successor of its instance, or notes that it is wanted, and does nothing when there is none or it has been released; WAIT.PRED goes on
once the predecessor has ended and waits, frozen, until then; BOOST.REQ is noted. R217: a range gives its next indices: as many as are asked for, or
all that are left, and it begins after them from then on. -/
def Obligations.SharingWork : Prop := Spec.DividingWork ∧ Spec.RangesAreTaken

/-- R220, R313: CKPT without a table or with one that can be read, its publication made and no pre-emption pending, records the slice's estimate and the time of its
report; with a checkpoint pending its slice begins to leave; in a region it traps with ILLEGAL. -/
def Sys2Proof.Spec.Checkpoints : Prop :=
  ∀ (s : Machine.State) (sl : Machine.Slice) (a b : BitVec 6), s.here.slice = some sl → Machine.Readable s [.s a.toNat, .s b.toNat] →
    (s.depth = 0 → s.me.wait.pub = .done →
      (s.me.reg a.toNat = 0 ∨ ∃ ps, Spec.Accessible s (Machine.wantLoad .D) 8 (s.me.reg a.toNat) 8 ps) →
      (s.here.preempt = none → ∃ t, Machine.exec (.ckpt a b) s = .next t ∧ Spec.Quiet s t ∧
        t.here.slice = some { sl with estimate := some ((s.me.reg b.toNat).toNat, s.devtime) }) ∧
      (∀ e, s.here.preempt = some e → e.policy = .checkpoint → e.asked = false → ∃ t w, Machine.exec (.ckpt a b) s = .next t ∧ t.issued = true ∧
        t.here.switch = some w ∧ (w.how = .checkpoint ∨ w.how = .full) ∧ Spec.SameRegs s.me t.me)) ∧
    (s.depth ≠ 0 → Machine.Unstopped s → ∃ t, Machine.exec (.ckpt a b) s = .next t ∧ Machine.Traps s t { cause := .ILLEGAL })

/-- R215, R345: SLICE.END in a region traps with ILLEGAL. It issues first, and marks its slice as ending, so that the other strands stop; when every
strand's publication has been made and the slice counts no events, the slice has left its Hall, and the Hall remembers its context. R220, R313: CKPT
without a table or with one that can be read, its publication made and no pre-emption pending, records the slice's estimate and the time of its
report; with a checkpoint pending its slice begins to leave; in a region it traps with ILLEGAL. -/
def Obligations.EndsAndCheckpoints : Prop := Spec.SliceEnds ∧ Spec.Checkpoints

/-- R223, R224, R297, R337: a LAUNCH, and an ENQ.X to the ready deque of a Hall of its partition, that have been matched by the checker, published, read their packet and
passed its checks make one new launch instance, of as many slices as their mask names Halls; a launch in user mode of another context traps with PRIV. -/
def Sys2Proof.Spec.LaunchesMakeInstances : Prop :=
  ∀ (s : Machine.State) (a b : BitVec 6) (raw : Bytes) (mask : BitVec 256) (r : Machine.State) (i : Instr), Machine.Readable s [.s a.toNat, .s b.toNat] →
    s.me.wait.stage = 64 → s.me.wait.pub = .done →
    (i = .launch a b ∧ (∃ ps ms m r1, Spec.Accessible s (Machine.wantSystem 64) 64 (s.me.reg a.toNat) 64 ps ∧
        Spec.Accessible s (Machine.wantSystem 32) 32 (s.me.reg b.toNat) 32 ms ∧ s.logAnswer (s.me.reg b.toNat) (s.me.reg a.toNat) = .fresh ∧
        s.frozenRead ps = (.ok raw, r1) ∧ r1.frozenRead ms = (.ok m, r) ∧ mask = Machine.maskOf m) ∨
     i = .enqX a b ∧ (∃ (ps : List Nat) (h : HallId), s.me.reg a.toNat = 0x200 + h.setWidth 64 ∧ (s.part s.partId).halls.getLsbD h.toNat = true ∧
        Spec.Accessible s (Machine.wantSystem 64) 64 (s.me.reg b.toNat) 64 ps ∧ s.logAnswer (s.me.reg a.toNat) (s.me.reg b.toNat) = .fresh ∧
        s.frozenRead ps = (.ok raw, r) ∧ mask = BitVec.ofNat 256 (2 ^ h.toNat))) →
    let pk := Machine.Packet.ofBytes raw
    (∀ r2 r3 succ, (r.superMode = true ∨ pk.asid = r.asid) → r.launchChecks r.curHall r.partId raw mask = (.ok succ, r2) →
      r2.launchCopies r2.partId raw succ (Machine.maskHalls mask) none r2.known = .ok r3 →
      ∃ t x, Machine.exec i s = .next t ∧ t.issued = true ∧ t.insts = r3.insts ∧ x ∈ t.insts ∧ x.id = r2.nextInst ∧
        x.live = (Machine.maskHalls mask).length ∧ x.succ = succ ∧ x.part = r2.partId ∧ x.pred = none) ∧
    (r.superMode = false → pk.asid ≠ r.asid → r.here.trap = none → ∃ t, Machine.exec i s = .next t ∧ t.issued = false ∧ t.trapped = true ∧
      ∃ y, t.here.trap = some y ∧ y.info = { cause := .PRIV })

/-- R224, R225: an ENQ.X whose target names no queue traps with ILLEGAL, and one to a Hall outside its partition with PROT; one whose block is a fill of a pattern
enters the copy queue of its Hall, when there is room, with the block's operands, in the issuer's context. -/
def Sys2Proof.Spec.EnqueuesElsewhere : Prop :=
  ∀ (s : Machine.State) (a b : BitVec 6), Machine.Readable s [.s a.toNat, .s b.toNat] →
    let q := s.me.reg a.toNat
    let blk := s.me.reg b.toNat
    (2 ^ 10 ≤ q.toNat ∨ q.extractLsb' 8 2 = 3 → Machine.Unstopped s → ∃ t, Machine.exec (.enqX a b) s = .next t ∧ Machine.Traps s t { cause := .ILLEGAL }) ∧
    (∀ (ps : List Nat) (h : HallId), q.toNat < 2 ^ 10 → q.extractLsb' 8 2 ≠ 3 → h = q.setWidth 8 → Spec.Accessible s (Machine.wantSystem 64) 64 blk 64 ps →
      ((s.part s.partId).halls.getLsbD h.toNat = false → Machine.Unstopped s → ∃ t, Machine.exec (.enqX a b) s = .next t ∧
        Machine.Traps s t { cause := .PROT, detail := 0x20 }) ∧
      (∀ d r c, (s.part s.partId).halls.getLsbD h.toNat = true → q.extractLsb' 8 2 = 0 → s.logAnswer q blk = .fresh → s.me.wait.stage = 64 → s.me.wait.pub = .done →
        s.frozenRead ps = (.ok d, r) → Machine.blockSyl d = some (.cpFill 0 0 0 0 c) → Machine.wordAt d 8 = 0 →
        (Machine.wordAt d 24).toNat % 64 = 0 → (Machine.wordAt d 32).toNat % 64 = 0 → Machine.fieldAt d 40 16 = 0 → Machine.fieldAt d 56 8 = 0 →
        (r.hall h).sampledCq < 32 → (r.hall h).cq.length + (r.hall h).copy.isSome.toNat < 32 →
        ∃ t x, Machine.exec (.enqX a b) s = .next t ∧ t.issued = true ∧ (t.hall h).cq = (r.hall h).cq ++ [x] ∧ x.kind = .FILL ∧ x.src = Machine.wordAt d 16 ∧
          x.dst = Machine.wordAt d 24 ∧ x.x = Machine.wordAt d 32 ∧ x.cw = none ∧ x.q = c ∧ x.asid = r.asid ∧ x.part = r.partId ∧ x.issuer = none ∧ x.matchAt = none ∧
          Spec.SameRegs r.me t.me ∧ Machine.SameMemory r t))

/-- R223, R224, R297, R337: a LAUNCH, and an ENQ.X to the ready deque of a Hall of its partition, that have been matched by the checker, published, read
their packet and passed its checks make one new launch instance, of as many slices as their mask names Halls; a launch in user mode of another context
traps with PRIV. R224, R225: an ENQ.X whose target names no queue traps with ILLEGAL, and one to a Hall outside its partition with PROT; one whose
block is a fill of a pattern enters the copy queue of its Hall, when there is room, with the block's operands, in the issuer's context. -/
def Obligations.LaunchesAndEnqueues : Prop := Spec.LaunchesMakeInstances ∧ Spec.EnqueuesElsewhere

/-- R226: WSET.BIND claims a slot in which the bound version lands. -/
def Sys2Proof.Spec.WeightSetBinds : Prop :=
  ∀ (s : Machine.State) (d a : BitVec 6) (land : BitVec 12), Machine.Readable s [.s a.toNat] → Spec.SlotFree s →
    ∃ t, Machine.exec (.wsetBind d a land) s = .next t ∧ Spec.Claims s t (.wsetBind d.toNat (s.me.reg a.toNat)) [.s d.toNat] land (s.me.reg a.toNat) []

/-- R227 to R229, R52: FREEZE, THAW and TRACK trap with PRIV in user mode. In supervisor mode FREEZE with a completion word that can be written and an aligned buffer
enters its request and issues, and the context it names is freezing from then on when it may be frozen; TRACK of a context of the partition arms tracking with
every dirty bit clear, disarms it, or harvests the dirty bits, which are clear from then on; a THAW without a completion word whose image header
does not resolve resumes nothing, and one whose image passes its checks goes on from the state with the context resumed. -/
def Obligations.FreezingContexts : Prop :=
  ∀ (s : Machine.State) (d a b : BitVec 6),
    (∀ i, (i = .freeze d a b ∨ i = .thaw d a b ∨ ∃ op, i = .track op a b) → s.superMode = false → Machine.Unstopped s →
      ∃ t, Machine.exec i s = .next t ∧ Machine.Traps s t { cause := .PRIV }) ∧
    (∀ ps, s.superMode = true → s.depth = 0 → Machine.Readable s [.s d.toNat, .s a.toNat, .s b.toNat] →
      Spec.Accessible s (Machine.wantSystemWrite 8) 8 (s.me.reg d.toNat) 8 ps → (s.me.reg b.toNat).toNat % 4096 = 0 →
      let asid : Asid := (s.me.reg a.toNat).setWidth 12
      ∃ t, Machine.exec (.freeze d a b) s = .next t ∧ t.issued = true ∧
        (s.ctxValid s.partId asid = true → s.superAsid s.partId ≠ some asid → (s.ctx asid).frozen = false → (s.ctx asid).freezing = none →
          (t.ctx asid).freezing = some { cw := s.me.reg d.toNat, buf := s.me.reg b.toNat, part := s.partId, by_ := s.asid, hall := s.curHall })) ∧
    (s.superMode = true → Machine.Readable s [.s a.toNat, .s b.toNat] →
      let asid : Asid := (s.me.reg a.toNat).setWidth 12
      (s.part s.partId).asids.getLsbD asid.toNat = true →
      (∃ t, Machine.exec (.track .disarm a b) s = .next t ∧ t.issued = true ∧ (t.ctx asid).tracking = false ∧ t.me = s.me ∧ Machine.SameMemory s t) ∧
      ((s.me.reg b.toNat).toNat % 4096 = 0 → ∃ t, Machine.exec (.track .arm a b) s = .next t ∧ t.issued = true ∧ (t.ctx asid).tracking = true ∧
        (t.ctx asid).dirty = [] ∧ (t.ctx asid).bitmap = s.me.reg b.toNat ∧ t.me = s.me ∧ Machine.SameMemory s t) ∧
      (∀ ps, Spec.Accessible s (Machine.wantSystemWrite 64) 4096 (s.me.reg b.toNat) 360448 ps → s.invalidAt (fun _ => false) ps = none →
        ∃ t, Machine.exec (.track .harvest a b) s = .next t ∧ t.issued = true ∧ (t.ctx asid).dirty = [] ∧ (t.ctx asid).tracking = (s.ctx asid).tracking ∧
          (Spec.Uncounted s → ∀ p, p ∉ ps → Machine.Memory.byte t.mem p = Machine.Memory.byte s.mem p))) ∧
    (∀ ps, s.superMode = true → s.depth = 0 → Machine.Readable s [.s d.toNat, .s a.toNat, .s b.toNat] → d ≠ 0 →
      Spec.Accessible s (Machine.wantSystemWrite 8) 8 (s.me.reg d.toNat) 8 ps → ∃ t, Machine.exec (.thaw d a b) s = .next t ∧ t.issued = true) ∧
    (s.superMode = true → s.depth = 0 → Machine.Readable s [.s d.toNat, .s a.toNat, .s b.toNat] → d = 0 →
      (∃ e, Machine.resolveAll (s.resolveDirect s.mine s.here.binds (Machine.wantSystem 256)) (Machine.runFrom (s.me.reg a.toNat).toNat 256) = .error e) →
      ∃ t, Machine.exec (.thaw d a b) s = .next t ∧ t = { s with issued := true }) ∧
    (∀ head len cipher body r1 r2, s.superMode = true → s.depth = 0 → Machine.Readable s [.s d.toNat, .s a.toNat, .s b.toNat] → d = 0 →
      let img := s.me.reg a.toNat
      let asid : Asid := (s.me.reg b.toNat).setWidth 12
      s.deviceRead s.mine s.here.binds img 256 = (.ok head, r1) → len = Machine.fieldAt head 24 8 → 256 ≤ len → r1.reaches s.mine false img.toNat len = true →
      r1.deviceRead s.mine r1.here.binds (img + 256) (len - 256) = (.ok cipher, r2) → r2.openImage head cipher s.mine.part asid = .ok body →
      ∃ t, Machine.exec (.thaw d a b) s = .next t ∧ t.issued = true ∧
        t = { r2.thawImage { head := head, secs := Machine.sectionsOf (head ++ body), asid := asid, part := s.mine.part,
                             halls := Machine.maskHalls (r2.part s.mine.part).halls } r2.known with issued := true })

/-! Copy and Hazel syllables (R194 to R202, R236, R237). -/

namespace Sys2Proof.Spec
open Sys2Proof.Machine

/-- The copy syllables of R194: kind, whether it resumes, and fields. -/
def copyRow : Instr → Option (CopyKind × Bool × BitVec 6 × BitVec 6 × BitVec 6 × BitVec 6 × QCtl)
  | .cp d a b x c => some (.CP, false, d, a, b, x, c)
  | .cp2D d a b x c => some (.CP2D, false, d, a, b, x, c)
  | .cpMm d a b x c => some (.MM, false, d, a, b, x, c)
  | .cpFill d a b x c => some (.FILL, false, d, a, b, x, c)
  | .cpResume k d a b x c => some (k, true, d, a, b, x, c)
  | _ => none

/-- The values of a copy that R195 wants to be multiples of 64: CP and CP.MM source, destination and length, CP.2D source and destination, CP.FILL
destination and length. The length stands in bits 47:0. -/
def copyAligns (k : CopyKind) (src dst x : Word) : Prop :=
  match k with
  | .CP => src.toNat % 64 = 0 ∧ dst.toNat % 64 = 0 ∧ x.toNat % 2 ^ 48 % 64 = 0
  | .MM => src.toNat % 64 = 0 ∧ dst.toNat % 64 = 0 ∧ x.toNat % 2 ^ 48 % 64 = 0
  | .CP2D => src.toNat % 64 = 0 ∧ dst.toNat % 64 = 0
  | .FILL => dst.toNat % 64 = 0 ∧ x.toNat % 2 ^ 48 % 64 = 0

/-- The completion word that field d names: none for d = 0, else 8 bytes that can be written (R194, R120). -/
def WordReady (s : State) (d : BitVec 6) : Prop :=
  d = 0 ∨ ∃ ps, Accessible s (wantStore .D) 8 (s.me.reg d.toNat) 8 ps

/-- A command has entered a queue: the strands, the tiles, masks and accumulators and memory are as before. -/
structure Enters (s t : State) : Prop where
  issued : t.issued = true
  strands : ∀ st, t.here.work.strand st = s.here.work.strand st
  tiles : t.here.work.tiles = s.here.work.tiles ∧ t.here.work.masks = s.here.work.masks ∧ t.here.acc = s.here.acc
  halls : ∀ h, h ≠ s.curHall → t.hall h = s.hall h
  mq : t.here.mq = s.here.mq
  memory : SameMemory s t

/-- The Hazel syllables of R237: kind, registers read, operand values, completion-word register and queue control. -/
def hazelRow (s : State) (i : Instr) : Option (HzKind × List Src × Word × Word × Word × BitVec 6 × QCtl) :=
  let r := fun (n : BitVec 6) => s.me.reg n.toNat
  match i with
  | .hzPool d a c => some (.pool, [.s d.toNat, .s a.toNat], r a, 0, 0, d, c)
  | .hzRoot d a c => some (.root, [.s d.toNat, .s a.toNat], r a, 0, 0, d, c)
  | .hzDesc d a b c => some (.desc, [.s d.toNat, .s a.toNat, .s b.toNat], r a, r b, 0, d, c)
  | .hzExpand d a b c => some (.expand, [.s d.toNat, .s a.toNat, .s b.toNat], r a, r b, 0, d, c)
  | .hzBack d a b c => some (.back, [.s d.toNat, .s a.toNat, .s b.toNat], r a, r b, 0, d, c)
  | .hzSweep d c => some (.sweep, [.s d.toNat], 0, 0, 0, d, c)
  | .hzRead d a b x c => some (.read, [.s d.toNat, .s a.toNat, .s b.toNat], r a, r b, x.setWidth 64, d, c)
  | _ => none

end Sys2Proof.Spec

/-- R194, R195, R197, R201: a copy syllable whose registers can be read, whose operands are aligned, whose completion word can be written, whose follow-on is one
that CP.MM may name, and for which the queue had room at the start of the Hall cycle and still has enters the copy queue behind its commands, with its operands as captured; with the queue full its strand
freezes. On strands S and L the command is matched by the checker six Hall cycles on. -/
def Sys2Proof.Spec.CopiesEnterTheQueue : Prop :=
  ∀ (s : Machine.State) (i : Instr) (k : CopyKind) (resume : Bool) (d a b x : BitVec 6) (c : QCtl),
    Spec.copyRow i = some (k, resume, d, a, b, x, c) → Machine.Readable s (s.copyReads k d a b x) →
    Spec.copyAligns k (s.me.reg a.toNat) (s.me.reg b.toNat) (s.me.reg x.toNat) → Spec.WordReady s d →
    (k = .MM → Machine.followOn (s.me.reg (d + 1).toNat) ≠ none) →
    (s.here.sampledCq < 32 → s.here.copyLoad < 32 →
      ∃ t y, Machine.exec i s = .next t ∧ Spec.Enters s t ∧ t.here.cq = s.here.cq ++ [y] ∧ t.here.hq = s.here.hq ∧ y.id = s.here.cqNext ∧
        t.here.cqNext = s.here.cqNext + 1 ∧ y.kind = k ∧ y.resume = resume ∧ y.src = s.me.reg a.toNat ∧ y.dst = s.me.reg b.toNat ∧
        y.x = s.me.reg x.toNat ∧ y.cw = (if d = 0 then none else some (s.me.reg d.toNat)) ∧ y.sent = false ∧ y.q = c ∧ y.asid = s.asid ∧ y.issuer = some s.curStrand ∧
        y.depth = s.depth ∧ (s.curStrand = .S ∨ s.curStrand = .L → y.matchAt = some (s.here.cycle + 6)) ∧
        (k ≠ .MM → y.follow = none)) ∧
    (32 ≤ s.here.sampledCq ∨ 32 ≤ s.here.copyLoad → ∃ t, Machine.exec i s = .next t ∧ Machine.Freezes s t)

/-- R195: a copy syllable with an operand that should be a multiple of 64 and is not traps with ALIGN, its access an engine's. -/
def Sys2Proof.Spec.MisalignedCopiesTrap : Prop :=
  ∀ (s : Machine.State) (i : Instr) (k : CopyKind) (resume : Bool) (d a b x : BitVec 6) (c : QCtl),
    Spec.copyRow i = some (k, resume, d, a, b, x, c) → Machine.Readable s (s.copyReads k d a b x) →
    ¬Spec.copyAligns k (s.me.reg a.toNat) (s.me.reg b.toNat) (s.me.reg x.toNat) → Machine.Unstopped s →
    ∃ t y, Machine.exec i s = .next t ∧ Machine.Traps s t y ∧ y.cause = .ALIGN ∧ y.access = .engine ∧ y.addr.toNat % 64 ≠ 0

/-- R194, R195, R197, R201: a copy syllable whose registers can be read, whose operands are aligned, whose completion word can be written, whose follow-on
is one that CP.MM may name, and for which the queue had room at the start of the Hall cycle and still has enters the copy queue behind its commands,
with its operands as captured; with the queue full its strand freezes. On strands S and L the command is matched by the checker six Hall cycles on.
R195: a copy syllable with an operand that should be a multiple of 64 and is not traps with ALIGN, its access an engine's. -/
def Obligations.CopyCommands : Prop := Spec.CopiesEnterTheQueue ∧ Spec.MisalignedCopiesTrap

/-- R202: CP.WAIT whose word can be read claims a slot for it. -/
def Sys2Proof.Spec.CopyWaits : Prop :=
  ∀ (s : Machine.State) (sc : Scope) (d a : BitVec 6) (land : BitVec 12) (ps : List Nat), Machine.Readable s [.s a.toNat] → Spec.PortFree s → Spec.SlotFree s →
    Spec.Accessible s (Machine.wantLoad .D) 8 (s.me.reg a.toNat) 8 ps →
    ∃ t, Machine.exec (.cpWait sc d a land) s = .next t ∧ t.me.portFree = s.me.local_ + 1 ∧
      Spec.Claims s t (.cpWait d.toNat sc) [.s d.toNat] land (s.me.reg a.toNat) ps

/-- R148, R151: SBIND of a descriptor whose 64 bytes resolve claims a slot for them; SSTAT gives the stream's status with latency 2, zero but for EXH
while it is not bound; SDROP unbinds its stream and changes nothing else. R202: CP.WAIT whose word can be read claims a slot for it. R226: WSET.BIND
claims a slot in which the bound version lands. -/
def Obligations.StreamsCopyWaitsAndWeightSets : Prop := Spec.StreamSyllables ∧ Spec.CopyWaits ∧ Spec.WeightSetBinds

/-- R236, R237, R346: a Hazel syllable of a slice that has used its engine, or HZ.POOL, with a count of 1 to 64 for HZ.READ, whose completion word can be written,
which the log does not answer and for which the queue has room enters the Hazel queue with its operands, and its slice has used the engine from then on; with
the queue full its strand freezes. A first command that is not HZ.POOL, and an HZ.READ with another count, trap with ILLEGAL. -/
def Obligations.HazelCommandsEnterTheQueue : Prop :=
  ∀ (s : Machine.State) (sl : Machine.Slice) (i : Instr) (k : Machine.HzKind) (rd : List Machine.Src) (va vb vx : Word) (d : BitVec 6) (c : QCtl),
    s.here.slice = some sl → Spec.hazelRow s i = some (k, rd, va, vb, vx, d, c) → Machine.Readable s rd →
    let ok := (sl.hzUsed = true ∨ k = .pool) ∧ (k = .read → 1 ≤ vb.toNat ∧ vb.toNat ≤ 64)
    (ok → Spec.WordReady s d → s.logAnswer va vb = .fresh →
      (s.here.sampledHq < 16 → s.here.hazelLoad < 16 →
        ∃ t y x, Machine.exec i s = .next t ∧ Spec.Enters s t ∧ t.here.hq = s.here.hq ++ [y] ∧ t.here.cq = s.here.cq ∧ y.id = s.here.hqNext ∧
          t.here.hqNext = s.here.hqNext + 1 ∧ y.kind = k ∧ y.va = va ∧ y.vb = vb ∧ y.vx = vx ∧ y.q = c ∧
          y.cw = (if d = 0 then none else some (s.me.reg d.toNat)) ∧ y.sent = false ∧ y.asid = s.asid ∧ y.issuer = some s.curStrand ∧ t.here.slice = some x ∧ x.hzUsed = true) ∧
      (16 ≤ s.here.sampledHq ∨ 16 ≤ s.here.hazelLoad → ∃ t, Machine.exec i s = .next t ∧ Machine.Freezes s t)) ∧
    (¬ok → Machine.Unstopped s → ∃ t, Machine.exec i s = .next t ∧ Machine.Traps s t { cause := .ILLEGAL })

/-! Recovery regions and lifetimes (R230 to R235, R243 to R246). -/

/-- R231: RGN.BEGIN opens a region one level deeper with retry count 0, and with eight open traps with REGION_LIMIT; the region's snapshot holds every strand's
registers, predicates, branch targets and program counter, and the token queues, as the Hall cycle leaves them; RGN.ABORT begins the rollback of the innermost region; RGN.END,
RGN.ABORT and RGN.KEEP with no region open trap with ILLEGAL. -/
def Sys2Proof.Spec.RegionsOpenAndAbort : Prop :=
  ∀ (s : Machine.State) (sl : Machine.Slice), s.here.slice = some sl →
    (sl.regions.length < 8 → ∃ t r, Machine.exec .rgnBegin s = .next t ∧ t.issued = true ∧ t.here.slice = some { sl with regions := r :: sl.regions } ∧
      r.fresh = true ∧ r.retry = 0 ∧ r.ab = false ∧ r.cause = 0 ∧ r.tiles = [] ∧ r.rows = [] ∧ r.ranges = [] ∧
      t.here.work = s.here.work ∧ Machine.OnlyHall s t ∧ Machine.SameMemory s t) ∧
    (∀ r, r ∈ sl.regions → r.fresh = true → ∃ x r', s.here.sealRegion.slice = some x ∧ r' ∈ x.regions ∧ r'.fresh = false ∧
      r'.S = { s := s.here.work.S.s, p := s.here.work.S.p, b := s.here.work.S.b, pc := s.here.work.S.pc, seq := s.here.work.S.seq } ∧
      r'.L = { s := s.here.work.L.s, p := s.here.work.L.p, b := s.here.work.L.b, pc := s.here.work.L.pc, seq := s.here.work.L.seq } ∧
      r'.M = { s := s.here.work.M.s, p := s.here.work.M.p, b := s.here.work.M.b, pc := s.here.work.M.pc, seq := s.here.work.M.seq } ∧
      r'.V = { s := s.here.work.V.s, p := s.here.work.V.p, b := s.here.work.V.b, pc := s.here.work.V.pc, seq := s.here.work.V.seq } ∧
      r'.toks = s.here.work.toks) ∧
    (8 ≤ sl.regions.length → Machine.Unstopped s → ∃ t, Machine.exec .rgnBegin s = .next t ∧ Machine.Traps s t { cause := .REGION_LIMIT }) ∧
    (sl.regions ≠ [] → s.here.back = none → ∃ t b, Machine.exec .rgnAbort s = .next t ∧ t.issued = true ∧ t.here = { s.here with back := some b } ∧
      b.target = sl.regions.length ∧ b.abort = true ∧ b.applied = false ∧ Machine.OnlyHall s t ∧ Machine.SameMemory s t) ∧
    (sl.regions = [] → Machine.Unstopped s → ∀ i, (i = .rgnEnd ∨ i = .rgnAbort ∨ ∃ k a b, i = .rgnKeep k a b ∧ Machine.Readable s [.s a.toNat, .s b.toNat]) →
      ∃ t, Machine.exec i s = .next t ∧ Machine.Traps s t { cause := .ILLEGAL })

/-- R231, R348: RGN.END, once the checker has matched every command of the region and its slots have been written, with no logged command pending and no difference found,
commits the innermost region into the one that encloses it: one region fewer is open, its queued commands belong to the one enclosing it, and neither a register nor
a byte of memory has changed; a difference of the signatures (a free value, log 4) keeps it from issuing; until the matches are made its strand freezes. -/
def Sys2Proof.Spec.RegionsCommit : Prop :=
  ∀ (s : Machine.State) (sl : Machine.Slice), s.here.slice = some sl → sl.regions ≠ [] →
    (s.regionQuiet = true → s.here.back = none → (∀ e ∈ sl.log, ¬(e.replay = true ∧ e.depth = sl.regions.length)) →
      ∃ t, Machine.exec .rgnEnd s = .next t ∧ t.me.s = s.me.s ∧ t.me.p = s.me.p ∧ t.me.pc = s.me.pc ∧ t.here.work.tiles = s.here.work.tiles ∧
        (∀ a, Machine.Memory.byte t.mem a = Machine.Memory.byte s.mem a) ∧ (Config.upset s.free = true → t.issued = false) ∧
        (Config.upset s.free = false → ∃ x, t.issued = true ∧ t.here.slice = some x ∧ x.regions.length = sl.regions.length - 1 ∧
          (sl.regions.length = 1 → x.log = []) ∧
          (∀ h, (∀ c ∈ (t.hall h).cq, c.slice = sl.id → c.depth ≠ sl.regions.length) ∧ (∀ c ∈ (t.hall h).hq, c.slice = sl.id → c.depth ≠ sl.regions.length) ∧
            (t.hall h).cq.map (·.id) = (s.hall h).cq.map (·.id) ∧ (t.hall h).hq.map (·.id) = (s.hall h).hq.map (·.id)) ∧
          ∀ h, h ≠ s.curHall → t.hall h = { s.hall h with cq := (t.hall h).cq, mq := (t.hall h).mq, hq := (t.hall h).hq,
                                                          copy := (t.hall h).copy, hz := (t.hall h).hz })) ∧
    (s.regionQuiet = false ∨ s.here.back ≠ none → ∃ t, Machine.exec .rgnEnd s = .next t ∧ Machine.Freezes s t)

/-- R231: RGN.BEGIN opens a region one level deeper with retry count 0, and with eight open traps with REGION_LIMIT; the region's snapshot holds every
strand's registers, predicates, branch targets and program counter, and the token queues, as the Hall cycle leaves them; RGN.ABORT begins the rollback
of the innermost region; RGN.END, RGN.ABORT and RGN.KEEP with no region open trap with ILLEGAL. R231, R348: RGN.END, once the checker has matched
every command of the region and its slots have been written, with no logged command pending and no difference found, commits the innermost region into
the one that encloses it: one region fewer is open, its queued commands belong to the one enclosing it, and neither a register nor a byte of memory
has changed; a difference of the signatures (a free value, log 4) keeps it from issuing; until the matches are made its strand freezes. -/
def Obligations.RegionsOpenAbortAndCommit : Prop := Spec.RegionsOpenAndAbort ∧ Spec.RegionsCommit

/-- R232, R343: RGN.KEEP.T saves the tiles of its mask as they stand, with their shapes, RGN.KEEP.A the accumulator rows of its range, beyond row 511 trapping with
ILLEGAL, and RGN.KEEP.G reserves the whole range and 64 bytes of the undo pool, trapping with ALIGN, PROT or REGION_LIMIT where R232 says so. -/
def Sys2Proof.Spec.RegionsKeep : Prop :=
  ∀ (s : Machine.State) (sl : Machine.Slice) (r : Machine.Region) (rest : List Machine.Region) (a b : BitVec 6), s.here.slice = some sl → sl.regions = r :: rest →
    Machine.Readable s [.s a.toNat, .s b.toNat] →
    let x := s.me.reg a.toNat
    let y := s.me.reg b.toNat
    let keeps := fun (t : Machine.State) (r' : Machine.Region) => Machine.exec (.rgnKeep .T a b) s = .next t ∧ t.issued = true ∧
      t.here = { s.here with slice := some { sl with regions := r' :: rest } }
    (∃ t r', keeps t r' ∧ (∀ k ∈ r'.tiles, k ∈ r.tiles ∨ x.getLsbD k.t = true ∧ k.t < 32 ∧ k.shape = s.here.work.shape k.t ∧
        ∀ c, c ∈ k.bytes ↔ c ∈ s.here.work.tiles ∧ c.1 / 4096 = k.t) ∧
      (∀ n, n < 32 → x.getLsbD n = true → ∃ k ∈ r'.tiles, k.t = n) ∧ (∀ k ∈ r.tiles, k ∈ r'.tiles) ∧ r'.rows = r.rows ∧ r'.ranges = r.ranges) ∧
    (x.toNat + y.toNat ≤ 512 → ∃ t r', Machine.exec (.rgnKeep .A a b) s = .next t ∧ t.issued = true ∧
      t.here = { s.here with slice := some { sl with regions := r' :: rest } } ∧ r'.tiles = r.tiles ∧ r'.ranges = r.ranges ∧
      (∀ n, x.toNat ≤ n → n < x.toNat + y.toNat → ∃ k ∈ r'.rows, k.r = n ∧ ∀ c, c ∈ k.slots ↔ c ∈ s.here.acc ∧ c.1 / 128 = n) ∧ (∀ k ∈ r.rows, k ∈ r'.rows)) ∧
    (512 < x.toNat + y.toNat → Machine.Unstopped s → ∃ t, Machine.exec (.rgnKeep .A a b) s = .next t ∧ Machine.Traps s t { cause := .ILLEGAL }) ∧
    (let off := x.toNat - Machine.ownBase
     let room := sl.poolUsed + y.toNat + 64 ≤ s.here.poolSize * 0x40000
     let aligned := x.toNat % 64 = 0 ∧ y.toNat % 64 = 0
     let inside := y ≠ 0 ∧ Machine.ownBase ≤ x.toNat ∧ off + y.toNat ≤ 0x4000000
     (aligned → inside → room → ∃ t r', Machine.exec (.rgnKeep .G a b) s = .next t ∧ t.issued = true ∧
       t.here = { s.here with slice := some { sl with regions := r' :: rest } } ∧ r'.ranges = r.ranges ++ [(off, y.toNat)] ∧
       r'.reserved = r.reserved + y.toNat + 64 ∧ r'.tiles = r.tiles ∧ r'.rows = r.rows) ∧
     (Machine.Unstopped s →
       (¬aligned → ∃ t, Machine.exec (.rgnKeep .G a b) s = .next t ∧ Machine.Traps s t { cause := .ALIGN, addr := x }) ∧
       (aligned → ¬inside → ∃ t, Machine.exec (.rgnKeep .G a b) s = .next t ∧ Machine.Traps s t { cause := .PROT, detail := 0x40, addr := x }) ∧
       (aligned → inside → ¬room → ∃ t, Machine.exec (.rgnKeep .G a b) s = .next t ∧ Machine.Traps s t { cause := .REGION_LIMIT })))

/-- R231, R233: RGN.STAT gives, with latency 2, the number of open regions in bits 3:0 and, of the innermost, its retry count in bits 7:4 (no more than 15), AB in bit 8
and CAUSE in bits 23:16, and zero elsewhere; with no region open it gives 0. That CAUSE is the innermost region's is the model's reading (log 13). -/
def Sys2Proof.Spec.RegionStatus : Prop :=
  ∀ (s : Machine.State) (sl : Machine.Slice) (d : BitVec 6), s.here.slice = some sl → sl.regions.length ≤ 8 → Machine.Readable s [] →
    ∃ t v, Machine.exec (.rgnStat d) s = .next t ∧ Machine.Results s t 2 s.me.divFree [.sreg d.toNat v] ∧
      match sl.regions with
      | [] => v = 0
      | r :: _ => (v.extractLsb' 0 4).toNat = sl.regions.length ∧ (v.extractLsb' 4 4).toNat = min r.retry 15 ∧ v.getLsbD 8 = r.ab ∧
          v.extractLsb' 9 7 = 0 ∧ v.extractLsb' 16 8 = r.cause ∧ v.extractLsb' 24 40 = 0

/-- R232, R343: RGN.KEEP.T saves the tiles of its mask as they stand, with their shapes, RGN.KEEP.A the accumulator rows of its range, beyond row 511
trapping with ILLEGAL, and RGN.KEEP.G reserves the whole range and 64 bytes of the undo pool, trapping with ALIGN, PROT or REGION_LIMIT where R232
says so. R231, R233: RGN.STAT gives, with latency 2, the number of open regions in bits 3:0 and, of the innermost, its retry count in bits 7:4 (no
more than 15), AB in bit 8 and CAUSE in bits 23:16, and zero elsewhere; with no region open it gives 0. That CAUSE is the innermost region's is the
model's reading (log 13). -/
def Obligations.RegionsKeepAndReport : Prop := Spec.RegionsKeep ∧ Spec.RegionStatus

/-- R234, R244, R246: LIFE.SET of at most 16 row groups of one gallery gives each its class, its policy and the running context as owner, keeps its age, and makes a
valid one that is not held for a save (R265) and whose budget has passed under EXPIRE invalid (those of the undo pool and the effect log stay the device's, R343); LIFE.REF makes the age of each valid one 0 and withdraws its request. Other row groups and every byte of
memory stay as they are. A range that is not of whole row groups traps with ALIGN, and one of length 0 has no effect. -/
def Sys2Proof.Spec.LifetimesAreSet : Prop :=
  ∀ (s : Machine.State) (a b : BitVec 6), Machine.Readable s [.s a.toNat, .s b.toNat] →
    let base := s.me.reg a.toNat
    let len := s.me.reg b.toNat
    (∀ (gs : List Nat), s.me.wait.stage = 0 → base.toNat % 4096 = 0 → len.toNat % 4096 = 0 → len ≠ 0 → s.lifeRange base len = .ok gs → gs.length ≤ 16 → gs.Nodup →
      (∀ (cls : LifeClass) (pol : LifePolicy), ∃ t, Machine.exec (.lifeSet a b cls pol) s = .next t ∧ t.issued = true ∧
        (∀ g ∈ gs, (t.rowGroup g).owner = s.asid.toNat + 1 ∧ (t.rowGroup g).age = (s.rowGroup g).age ∧
          (s.inPool (Machine.galleryTop + 4096 * g) = false → (t.rowGroup g).cls = cls ∧ (t.rowGroup g).pol = pol ∧
            (pol = .EXPIRE → (s.rowGroup g).held = false → (∃ n, Machine.classBudget cls = some n ∧ n ≤ (s.rowGroup g).age) → (t.rowGroup g).valid = false)) ∧
          ((s.rowGroup g).age < 64 → (t.rowGroup g).valid = (s.rowGroup g).valid)) ∧
        (∀ g, g ∉ gs → t.rowGroup g = s.rowGroup g) ∧ Spec.SameRegs s.me t.me ∧ ∀ p, Machine.Memory.byte t.mem p = Machine.Memory.byte s.mem p) ∧
      (∃ t, Machine.exec (.lifeRef a b) s = .next t ∧ t.issued = true ∧
        (∀ g ∈ gs, (s.rowGroup g).valid = true → t.rowGroup g = { s.rowGroup g with age := 0, req := false }) ∧
        (∀ g, (g ∉ gs ∨ (s.rowGroup g).valid = false) → t.rowGroup g = s.rowGroup g) ∧ Spec.SameRegs s.me t.me ∧
        ∀ p, Machine.Memory.byte t.mem p = Machine.Memory.byte s.mem p)) ∧
    (∀ i, (i = .lifeRef a b ∨ ∃ cls pol, i = .lifeSet a b cls pol) →
      (base.toNat % 4096 = 0 → len = 0 → ∃ t, Machine.exec i s = .next t ∧ t = { s with issued := true }) ∧
      (base.toNat % 4096 ≠ 0 ∨ len.toNat % 4096 ≠ 0 → Machine.Unstopped s → ∃ t y, Machine.exec i s = .next t ∧ Machine.Traps s t y ∧ y.cause = .ALIGN))

/-- R235: LIFE.AGE claims a slot for the report of the row group that holds its address; the report has the age, class, policy, validity and request in their bits. -/
def Sys2Proof.Spec.LifetimesAreRead : Prop :=
  (∀ (s : Machine.State) (d a : BitVec 6) (land : BitVec 12) (p g : Nat), Machine.Readable s [.s a.toNat] → Spec.SlotFree s →
    Spec.Accessible s (Machine.wantLoad .B) 1 (s.me.reg a.toNat) 1 [p] → Machine.rowGroupOf p = some g →
    ∃ t, Machine.exec (.lifeAge d a land) s = .next t ∧ Spec.Claims s t (.lifeAge d.toNat g) [.s d.toNat] land (s.me.reg a.toNat) [p]) ∧
  (∀ (v : Machine.RowGroup), v.age < 2 ^ 15 →
    let w := v.report
    (w.extractLsb' 0 15).toNat = v.age ∧ (w.extractLsb' 15 3).toNat = Machine.classCode v.cls ∧ w.getLsbD 18 = (v.pol == .REFRESH) ∧ w.getLsbD 19 = v.valid ∧
      w.getLsbD 20 = v.req ∧ w.extractLsb' 21 43 = 0)

/-- R234, R244, R246: LIFE.SET of at most 16 row groups of one gallery gives each its class, its policy and the running context as owner, keeps its age,
and makes a valid one that is not held for a save (R265) and whose budget has passed under EXPIRE invalid (those of the undo pool and the effect log
stay the device's, R343); LIFE.REF makes the age of each valid one 0 and withdraws its request. Other row groups and every byte of memory stay as they
are. A range that is not of whole row groups traps with ALIGN, and one of length 0 has no effect. R235: LIFE.AGE claims a slot for the report of the
row group that holds its address; the report has the age, class, policy, validity and request in their bits. -/
def Obligations.LifetimesOfRowGroups : Prop := Spec.LifetimesAreSet ∧ Spec.LifetimesAreRead

/-! Vector and matrix syllables (R152 to R193). -/

namespace Sys2Proof.Spec
open Sys2Proof.Machine

/-- A result without flags whose bits have a property. -/
def plainly (q : Nat → Prop) (r : NumRes) : Prop := r.flags = 0 ∧ r.gen = false ∧ q r.bits

/-- R165, R69: an exact integer that an operation wraps, or under SAT clamps to its range with the SAT flag. -/
def fits (w : Nat) (sat u : Bool) (v : Int) (r : NumRes) : Prop :=
  let lo : Int := if u then 0 else -(2 : Int) ^ (w - 1)
  let hi : Int := if u then (2 : Int) ^ w - 1 else (2 : Int) ^ (w - 1) - 1
  r.gen = false ∧
  (sat = false ∨ (lo ≤ v ∧ v ≤ hi) → r.flags = 0 ∧ (r.bits : Int) = v % (2 : Int) ^ w) ∧
  (sat = true → v < lo → r.flags = flSAT ∧ (r.bits : Int) = lo % (2 : Int) ^ w) ∧
  (sat = true → hi < v → r.flags = flSAT ∧ (r.bits : Int) = hi % (2 : Int) ^ w)

/-- An element as an integer, unsigned or two's complement. -/
def intOf (w : Nat) (u : Bool) (x : Nat) : Int := if u ∨ x < 2 ^ (w - 1) then x else (x : Int) - (2 : Int) ^ w

/-- What R152 to R175 say of an elementwise vector syllable: the registers that it reads, the tiles whose widths must be its types', its latency and its
occupancy of the datapath, the type, tile and mask of its destination, and what each active position of the destination gets (none: nothing). -/
structure VecRow where
  rd : List Src
  chk : List (Nat × ETy)
  lat : Nat
  occ : Nat
  ty : ETy
  d : BitVec 6
  k : BitVec 3
  val : Nat × Nat → Option (NumRes → Prop)

/-- The elementwise vector syllables and the cross-lane syllables. -/
def vecRow (s : State) (i : Instr) : Option VecRow :=
  let W := s.here.work
  let el := fun (ty : ETy) (a : BitVec 6) (e : Nat × Nat) => W.elem a.toNat ty.width e.1 e.2
  let r := fun (n : BitVec 6) => s.me.reg n.toNat
  let row := fun (rd : List Src) (chk : List (Nat × ETy)) (lat occ : Nat) (ty : ETy) (d : BitVec 6) (k : BitVec 3) (val : Nat × Nat → Option (NumRes → Prop)) =>
    some ({ rd := .mask k.toNat :: rd, chk := (d.toNat, ty) :: chk, lat := lat, occ := occ, ty := ty, d := d, k := k, val := val } : VecRow)
  let float1 := fun (lat occ : Nat) (ty : ETy) (d a : BitVec 6) (k : BitVec 3) (f : Nat → NumRes) =>
    row [.tile a.toNat] [(a.toNat, ty)] lat occ ty d k fun e => some fun x => x = f (el ty a e)
  let float2 := fun (lat occ : Nat) (ty : ETy) (d a b : BitVec 6) (k : BitVec 3) (f : Nat → Nat → NumRes) =>
    row [.tile a.toNat, .tile b.toNat] [(a.toNat, ty), (b.toNat, ty)] lat occ ty d k fun e => some fun x => x = f (el ty a e) (el ty b e)
  let float3 := fun (ty : ETy) (d a b : BitVec 6) (k : BitVec 3) (f : Nat → Nat → Nat → NumRes) =>
    row [.tile a.toNat, .tile b.toNat, .tile d.toNat] [(a.toNat, ty), (b.toNat, ty)] 6 4 ty d k fun e => some fun x => x = f (el ty a e) (el ty b e) (el ty d e)
  let int2 := fun (ty : ETy) (d a b : BitVec 6) (k : BitVec 3) (f : Nat → Nat → NumRes → Prop) =>
    row [.tile a.toNat, .tile b.toNat] [(a.toNat, ty), (b.toNat, ty)] 4 4 ty d k fun e => some (f (el ty a e) (el ty b e))
  let lane := fun (rd : List Src) (lat occ : Nat) (ty : ETy) (d a : BitVec 6) (k : BitVec 3) (from_ : Nat × Nat → Option (Nat × Nat)) =>
    row (.tile a.toNat :: rd) [(a.toNat, ty)] lat occ ty d k fun e =>
      match from_ e with
      | some p => if W.active a.toNat k.toNat p.1 p.2 then some (plainly fun x => x = el ty a p) else none
      | none => none
  match i with
  | .vmov ty d a k => row [.tile a.toNat] [(a.toNat, ty)] 4 4 ty d k fun e => some (plainly fun x => x = el ty a e)
  | .vsplat ty d a k => row [.s a.toNat] [] 4 4 ty d k fun _ => some (plainly fun x => x = (r a).toNat % 2 ^ ty.width)
  | .vins ty d a i j k => row [.s a.toNat] [] 2 1 ty d k fun e =>
      if e = (i.toNat, j.toNat) then some (plainly fun x => x = (r a).toNat % 2 ^ ty.width) else none
  | .vzero ty d k => row [] [] 4 4 ty d k fun _ => some (plainly fun x => x = 0)
  | .viota ty d a k => row [.s a.toNat] [] 4 4 ty d k fun e =>
      some (plainly fun x => x = ((r a).toNat + e.1 * shapeCols (W.shape d.toNat) + e.2) % 2 ^ ty.width)
  | .vadd ty d a b k => float2 6 4 ty d a b k (vff ty).add
  | .vsub ty d a b k => float2 6 4 ty d a b k (vff ty).sub
  | .vmul ty d a b k => float2 6 4 ty d a b k (vff ty).mul
  | .vfma ty d a b k => float3 ty d a b k (vff ty).fma
  | .vmin ty d a b k => float2 6 4 ty d a b k (vff ty).min
  | .vmax ty d a b k => float2 6 4 ty d a b k (vff ty).max
  | .vabs ty d a k => float1 6 4 ty d a k (vff ty).abs
  | .vneg ty d a k => float1 6 4 ty d a k (vff ty).negate
  | .vdiv ty d a b k => float2 18 8 ty d a b k (vff ty).div
  | .vsqrt ty d a k => float1 18 8 ty d a k (vff ty).sqrt
  | .vclamp ty d a b k => float3 ty d a b k fun x y z => (vff ty).clamp z x y
  | .viadd ty d a b k sat u => int2 ty d a b k fun x y => fits ty.width sat u (intOf ty.width u x + intOf ty.width u y)
  | .visub ty d a b k sat u => int2 ty d a b k fun x y => fits ty.width sat u (intOf ty.width u x - intOf ty.width u y)
  | .vimul ty d a b k sat u => int2 ty d a b k fun x y => fits ty.width sat u (intOf ty.width u x * intOf ty.width u y)
  | .vimin ty d a b k u => int2 ty d a b k fun x y => plainly fun v => intOf ty.width u v = min (intOf ty.width u x) (intOf ty.width u y)
  | .vimax ty d a b k u => int2 ty d a b k fun x y => plainly fun v => intOf ty.width u v = max (intOf ty.width u x) (intOf ty.width u y)
  | .vand ty d a b k => int2 ty d a b k fun x y => plainly fun v => ∀ n, v.testBit n = (x.testBit n && y.testBit n)
  | .vor ty d a b k => int2 ty d a b k fun x y => plainly fun v => ∀ n, v.testBit n = (x.testBit n || y.testBit n)
  | .vxor ty d a b k => int2 ty d a b k fun x y => plainly fun v => ∀ n, v.testBit n = (x.testBit n ^^ y.testBit n)
  | .vshl ty d a b k => int2 ty d a b k fun x y => plainly fun v => ∀ n, v.testBit n = (decide (y ≤ n) && decide (n < ty.width) && x.testBit (n - y))
  | .vshr ty d a b k => int2 ty d a b k fun x y => plainly fun v => ∀ n, n < ty.width → v.testBit n = (decide (n + y < ty.width) && x.testBit (n + y))
  | .vsar ty d a b k => int2 ty d a b k fun x y => plainly fun v => ∀ n, n < ty.width → v.testBit n = x.testBit (min (n + y) (ty.width - 1))
  | .vsel ty d a b k ks => row [.tile a.toNat, .tile b.toNat, .mask ks.toNat] [(a.toNat, ty), (b.toNat, ty)] 4 4 ty d k fun e =>
      some (plainly fun x => x = if W.maskBit ks.toNat e.1 e.2 then el ty a e else el ty b e)
  | .vrcp ty d a k => float1 12 8 ty d a k ((vff ty).special .RCP)
  | .vrsq ty d a k => float1 12 8 ty d a k ((vff ty).special .RSQ)
  | .vexp2 ty d a k => float1 12 8 ty d a k ((vff ty).special .EXP2)
  | .vlog2 ty d a k => float1 12 8 ty d a k ((vff ty).special .LOG2)
  | .vsin ty d a k => float1 12 8 ty d a k ((vff ty).special .SIN)
  | .vcos ty d a k => float1 12 8 ty d a k ((vff ty).special .COS)
  | .vtanh ty d a k => float1 12 8 ty d a k ((vff ty).special .TANH)
  | .vlogi ty d a k => float1 12 8 ty d a k ((vff ty).special .LOGI)
  | .vcvt dt st rz sat d a k => row [.tile a.toNat] [(a.toNat, st)] 3 2 dt d k fun e =>
      if e.2 < 2048 / st.width then some fun x => x = cvtElem dt st rz sat (el st a e) else none
  | .vpack dt st rz sat d a b k => row [.tile a.toNat, .tile b.toNat] [(a.toNat, st), (b.toNat, st)] 3 2 dt d k fun e =>
      let n := 2048 / st.width
      some fun x => x = cvtElem dt st rz sat (if e.2 < n then el st a e else el st b (e.1, e.2 - n))
  | .vunpk dt st hi d a k => row [.tile a.toNat] [(a.toNat, st)] 3 2 dt d k fun e =>
      some fun x => x = cvtElem dt st false false (el st a (e.1, if hi then e.2 + 2048 / dt.width else e.2))
  | .vrotc ty d a n k => lane [] 2 2 ty d a k fun e =>
      let m := shapeCols (W.shape a.toNat)
      some (e.1, (e.2 + m - n.toNat % m) % m)
  | .vrotr ty d a n k => lane [] 6 4 ty d a k fun e =>
      let m := shapeRows (W.shape a.toNat)
      some ((e.1 + m - n.toNat % m) % m, e.2)
  | .vbcc ty d a j k => lane [] 2 2 ty d a k fun e => some (e.1, j.toNat)
  | .vbcr ty d a i k => lane [] 4 4 ty d a k fun e => some (i.toNat, e.2)
  | .vpermc ty d a b k => lane [.tile b.toNat] 4 4 ty d a k fun e =>
      let w := shapeWidth (W.shape b.toNat)
      if e.2 < 2048 / w then some (e.1, W.elem b.toNat w e.1 e.2) else none
  | .vtrn ty d a j k => lane [] 8 4 ty d a k fun e =>
      if 16 * j.toNat ≤ e.2 ∧ e.2 < 16 * j.toNat + 16 then some (e.2 - 16 * j.toNat, 16 * j.toNat + e.1) else none
  | _ => none

/-- The active positions of a tile under a mask, in row-major order (R29, R155). -/
def actives (W : Work) (t k : Nat) : List (Nat × Nat) :=
  ((List.range (shapeRows (W.shape t))).flatMap fun r => (List.range (shapeCols (W.shape t))).map fun c => (r, c)).filter fun e => W.maskBit k e.1 e.2

/-- The condition of FCMP that a code of VCMP means on float types (R166). -/
def floatCond : VCond → Option FCond
  | .EQ => some .EQ | .NE => some .NE | .LT => some .LT | .GE => some .GE | .UN => some .UN | .LTU => none | .GEU => none

/-- The operation of a reduction (R176): an integer sum wraps, an integer minimum or maximum is of signed or unsigned order. -/
def redOp (op : RedOp) (u : Bool) (ty : ETy) (x y : Nat) : NumRes :=
  match op with
  | .ADD => if ty.isFloat then (vff ty).add x y else .plain ((x + y) % 2 ^ ty.width)
  | .MIN => if ty.isFloat then (vff ty).min x y else .plain (if intOf ty.width u y < intOf ty.width u x then y else x)
  | .MAX => if ty.isFloat then (vff ty).max x y else .plain (if intOf ty.width u x < intOf ty.width u y then y else x)

/-- R177: v[i] after so many levels of the tree, with the flags and the NaNs that its combinations have made; none where it is ABSENT. -/
def redAt (f : Nat → Nat → NumRes) (v : Nat → Option Nat) : Nat → Nat → Option (Nat × BitVec 6 × Nat)
  | 0, i => (v i).map fun x => (x, 0, 0)
  | n + 1, i =>
    match redAt f v n (2 * i), redAt f v n (2 * i + 1) with
    | none, y => y
    | some x, none => some x
    | some x, some y => let r := f x.1 y.1; some (r.bits, x.2.1 ||| y.2.1 ||| r.flags, x.2.2 + y.2.2 + if r.gen then 1 else 0)

/-- The vector datapath is free, and the tiles have the widths of their types (R154, R157). -/
def VecReady (s : State) (chk : List (Nat × ETy)) : Prop :=
  s.me.vecFree ≤ s.me.local_ ∧ ∀ e ∈ chk, shapeWidth (s.here.work.shape e.1) = e.2.width

/-- The syllable has issued with a result of the vector datapath, which it holds for so many local cycles. -/
structure VResults (s t : State) (lat occ : Nat) (us : List Upd) : Prop where
  issued : t.issued = true
  me : t.me = { s.me with seq := s.me.seq + 1, vecFree := s.me.local_ + occ,
                          pends := s.me.pends ++ [{ seq := s.me.seq, due := s.me.local_ + lat, upds := us }] }
  frame : OnlyStrand s t
  memory : SameMemory s t

/-- The matrix commands of R178: the registers read at issue and the scalar captured. -/
def matRow (s : State) (i : Instr) : Option (List Src × Word) :=
  let r := fun (n : BitVec 6) => s.me.reg n.toNat
  match i with
  | .mwLoad _ image _ _ n => some (if image then ([.s n.toNat], r n) else ([], 0))
  | .mwLoads _ _ _ n => some ([.s n.toNat], r n)
  | .mwClr _ => some ([], 0)
  | .mma f => some (if f.ctl = .SCL then [.s f.sreg.toNat] else [], r f.sreg)
  | .mmaS f => some (if f.ctl = .SCL then [.s f.sreg.toNat] else [], r f.sreg)
  | .maccRd .. => some ([], 0)
  | .maccWr .. => some ([], 0)
  | .maccCvt toF32 _ _ _ n _ => some (if toF32 then [.s n.toNat] else [], r n)
  | .maccZero .. => some ([], 0)
  | .maccSpill _ _ n _ _ => some ([.s n.toNat], r n)
  | .maccFill _ _ n _ _ => some ([.s n.toNat], r n)
  | _ => none

/-- No accumulator row that the command names belongs to another context, or the slice runs in supervisor mode (R31, R180). -/
def RowsOwn (s : State) (i : Instr) : Prop := s.superMode = true ∨ ∀ r, accRun s.here i = some r → s.here.foreignRow s.asid r = none

/-- The bytes of the command's memory image resolve; a command without one has none (R180). -/
def ImageReady (s : State) (i : Instr) (val : Word) (ps : List Nat) : Prop :=
  match imageOf i with
  | none => ps = []
  | some (n, w) => Accessible s (imageWant w) 64 val n ps

end Sys2Proof.Spec

/-- R152 to R155, R157, R159, R162 to R175: every elementwise or cross-lane vector syllable whose datapath is free, whose tiles have its types' widths and whose registers can
be read issues with its result pending at its latency: the bytes of the active elements of its destination tile that it writes, the union of their flags and the number
of saturations and NaNs that they make. It holds the datapath for its occupancy and changes nothing else. -/
def Sys2Proof.Spec.VectorResults : Prop :=
  ∀ (s : Machine.State) (i : Instr) (r : Spec.VecRow), Spec.vecRow s i = some r → Machine.Readable s r.rd → Spec.VecReady s r.chk →
    let as := (Spec.actives s.here.work r.d.toNat r.k.toNat).filter fun e => (r.val e).isSome
    ∃ t, ∃ v : Nat × Nat → Machine.NumRes, Machine.exec i s = .next t ∧ (∀ e ∈ as, ∃ p, r.val e = some p ∧ p (v e)) ∧
      Spec.VResults s t r.lat r.occ
        [.tile (as.flatMap fun e => Machine.elemCells r.d.toNat r.ty.width e.1 e.2 (v e).bits), .flags (as.foldl (fun f e => f ||| (v e).flags) 0),
         .count .SAT s.me.ntid.toNat (as.filter fun e => (v e).flags &&& Machine.flSAT != 0).length,
         .count .NAN s.me.ntid.toNat (as.filter fun e => (v e).gen).length]

/-- R154, R156, R157: a vector syllable on a tile whose width is not its type's traps with ILLEGAL, and while its datapath is busy it waits and changes nothing. -/
def Sys2Proof.Spec.VectorWaitsAndTraps : Prop :=
  ∀ (s : Machine.State) (i : Instr) (r : Spec.VecRow), Spec.vecRow s i = some r →
    (s.me.local_ < s.me.vecFree → ∃ t, Machine.exec i s = .next t ∧ Machine.Holds s t) ∧
    (s.me.vecFree ≤ s.me.local_ → Machine.Readable s r.rd → (∃ e ∈ r.chk, Machine.shapeWidth (s.here.work.shape e.1) ≠ e.2.width) → Machine.Unstopped s →
      ∃ t, Machine.exec i s = .next t ∧ Machine.Traps s t { cause := .ILLEGAL })

/-- R152 to R155, R157, R159, R162 to R175: every elementwise or cross-lane vector syllable whose datapath is free, whose tiles have its types' widths and
whose registers can be read issues with its result pending at its latency: the bytes of the active elements of its destination tile that it writes,
the union of their flags and the number of saturations and NaNs that they make. It holds the datapath for its occupancy and changes nothing else.
R154, R156, R157: a vector syllable on a tile whose width is not its type's traps with ILLEGAL, and while its datapath is busy it waits and changes
nothing. -/
def Obligations.VectorSyllables : Prop := Spec.VectorResults ∧ Spec.VectorWaitsAndTraps

/-- R161, R163, R168, R169: VSHAPE's shape is pending with latency 1; VEXT gives the element, sign-extended for an integer type, or nothing for an inactive one; VKLOG gives
each bit of its mask from the two sources' bits by its table, nothing for k0, and VKCNT the number of active positions. -/
def Obligations.ShapesMasksAndElements : Prop :=
  ∀ (s : Machine.State),
    let W := s.here.work
    (∀ ty d rows cols, Machine.Readable s [] → ∃ t v, Machine.exec (.vshape ty d rows cols) s = .next t ∧ Machine.Results s t 1 s.me.divFree [.shape d.toNat v] ∧
      Machine.shapeWidth v = ty.width ∧ Machine.shapeRows v = rows.toNat + 1 ∧ Machine.shapeCols v = cols.toNat + 1) ∧
    (∀ ty d a row col k, Machine.Readable s [.tile a.toNat, .mask k.toNat] → Spec.VecReady s [(a.toNat, ty)] →
      let x := W.elem a.toNat ty.width row.toNat col.toNat
      ∃ t us, Machine.exec (.vext ty d a row col k) s = .next t ∧ Spec.VResults s t 2 1 us ∧
        (W.active a.toNat k.toNat row.toNat col.toNat = false → us = []) ∧
        (W.active a.toNat k.toNat row.toNat col.toNat = true → ∃ v : Word, us = [.sreg d.toNat v] ∧
          (ty.isFloat = true → v.toNat = x) ∧ (ty.isFloat = false → v.toInt = Spec.intOf ty.width false x))) ∧
    (∀ (d a b : BitVec 6) fn, Machine.Readable s [.mask a.toNat, .mask b.toNat] → s.me.vecFree ≤ s.me.local_ →
      ∃ t us, Machine.exec (.vklog d a b fn) s = .next t ∧ Spec.VResults s t 2 1 us ∧ (d = 0 → us = []) ∧
        (d ≠ 0 → ∃ bits, us = [.mask bits] ∧ ∀ x, x ∈ bits ↔ ∃ r c, r < 16 ∧ c < 256 ∧ x.1 = 4096 * d.toNat + 256 * r + c ∧
          x.2 = BitVec.ofBool (fn.getLsbD ((if W.maskBit a.toNat r c then 2 else 0) + (if W.maskBit b.toNat r c then 1 else 0))))) ∧
    (∀ (d a b : BitVec 6), Machine.Readable s [.mask a.toNat] → s.me.vecFree ≤ s.me.local_ →
      ∃ t, Machine.exec (.vkcnt d a b) s = .next t ∧
        Spec.VResults s t 2 1 [.sreg d.toNat (BitVec.ofNat 64 (Spec.actives W b.toNat a.toNat).length)])

/-- R166: VCMP's mask bits of the active positions are pending with latency 4, none for k0: of an integer type by its condition, of a float type as FCMP compares, with NV
for k0 too. -/
def Sys2Proof.Spec.VectorCompares : Prop :=
  ∀ (s : Machine.State) (c : VCond) (ty : ETy) (d a b : BitVec 6) (k : BitVec 3), Machine.Readable s [.tile a.toNat, .tile b.toNat, .mask k.toNat] →
    Spec.VecReady s [(a.toNat, ty), (b.toNat, ty)] →
    let W := s.here.work
    let on := Spec.actives W a.toNat k.toNat
    let x := fun (e : Nat × Nat) => W.elem a.toNat ty.width e.1 e.2
    let y := fun (e : Nat × Nat) => W.elem b.toNat ty.width e.1 e.2
    let i := fun (e : Nat × Nat) => Spec.intOf ty.width false (x e)
    let j := fun (e : Nat × Nat) => Spec.intOf ty.width false (y e)
    ∃ t fl, ∃ q : Nat × Nat → Bool, Machine.exec (.vcmp c ty d a b k) s = .next t ∧
      Spec.VResults s t 4 4 [.mask (if d = 0 then [] else on.map fun e => (4096 * d.toNat + 256 * e.1 + e.2, BitVec.ofBool (q e))), .flags fl] ∧
      (ty.isFloat = false → fl = 0 ∧ ∀ e ∈ on,
        (c = .EQ → q e = decide (x e = y e)) ∧ (c = .NE → q e = decide (x e ≠ y e)) ∧ (c = .LT → q e = decide (i e < j e)) ∧ (c = .GE → q e = decide (j e ≤ i e)) ∧
        (c = .LTU → q e = decide (x e < y e)) ∧ (c = .GEU → q e = decide (y e ≤ x e))) ∧
      (ty.isFloat = true → ∀ fc, Spec.floatCond c = some fc →
        (∀ e ∈ on, (q e = true ↔ Spec.fcondIn (Machine.vff ty) fc (x e) (y e))) ∧
        ((∃ e ∈ on, Spec.fcmpNVIn (Machine.vff ty) fc (x e) (y e)) → fl = Machine.flNV) ∧
        ((∀ e ∈ on, ¬Spec.fcmpNVIn (Machine.vff ty) fc (x e) (y e)) → fl = 0))

/-- R176, R177: a reduction gives, in each row (VREDC) or column (VREDR) of its destination shape that has an active source element, one element: what the fixed tree over the
positions combines, with its flags and the NaNs that it makes. -/
def Sys2Proof.Spec.Reductions : Prop :=
  ∀ (s : Machine.State) (op : RedOp) (u : Bool) (ty : ETy) (d a : BitVec 6) (k : BitVec 3), Machine.Readable s [.tile a.toNat, .mask k.toNat] →
    Spec.VecReady s [(d.toNat, ty), (a.toNat, ty)] →
    let W := s.here.work
    ∀ (byCol : Bool),
      let at_ := fun (n i : Nat) => if byCol then (n, i) else (i, n)
      let levels := if byCol then (if ty.width = 32 then 6 else if ty.width = 16 then 7 else 8) else 4
      let v := fun (n : Nat) => Spec.redAt (Spec.redOp op u ty)
        (fun i => if W.active a.toNat k.toNat (at_ n i).1 (at_ n i).2 then some (W.elem a.toNat ty.width (at_ n i).1 (at_ n i).2) else none) levels 0
      let res := (List.range (if byCol then Machine.shapeRows (W.shape d.toNat) else Machine.shapeCols (W.shape d.toNat))).filterMap fun n => (v n).map fun r => (n, r)
      ∃ t, Machine.exec (if byCol then .vredc op u ty d a k else .vredr op u ty d a k) s = .next t ∧
        Spec.VResults s t (if byCol then 8 else 4) 4
          [.tile (res.flatMap fun e => Machine.elemCells d.toNat ty.width (if byCol then e.1 else 0) (if byCol then 0 else e.1) e.2.1),
           .flags (res.foldl (fun f e => f ||| e.2.2.1) 0), .count .NAN s.me.ntid.toNat (res.foldl (fun n e => n + e.2.2.2) 0)]

/-- R166: VCMP's mask bits of the active positions are pending with latency 4, none for k0: of an integer type by its condition, of a float type as FCMP
compares, with NV for k0 too. R176, R177: a reduction gives, in each row (VREDC) or column (VREDR) of its destination shape that has an active source
element, one element: what the fixed tree over the positions combines, with its flags and the NaNs that it makes. -/
def Obligations.VectorComparesAndReductions : Prop := Spec.VectorCompares ∧ Spec.Reductions

/-- R178, R180: a matrix command that passes its checks, whose accumulator rows are its own, whose image resolves and for which the queue has room enters the matrix queue behind
its commands with its scalar, its pages and its format; with the queue full its strand freezes. Nothing of it is performed yet: the tiles, the accumulators and memory are as
before. -/
def Sys2Proof.Spec.MatrixCommandsEnterTheQueue : Prop :=
  ∀ (s : Machine.State) (i : Instr) (rd : List Machine.Src) (val : Word) (ps : List Nat), Spec.matRow s i = some (rd, val) → Machine.Readable s rd →
    s.matIllegal i = false → Spec.RowsOwn s i → Spec.ImageReady s i val ps →
    let h := s.matTarget i
    ((s.hall h).sampledMq < 16 → (s.hall h).mq.length < 16 → ∃ t c, Machine.exec i s = .next t ∧ t.issued = true ∧ (t.hall h).mq = (s.hall h).mq ++ [c] ∧ c.op = i ∧ c.value = val ∧ c.pages = ps ∧
      c.fmt = s.actFmt i ∧ c.id = (s.hall h).mqNext ∧ (t.hall h).mqNext = (s.hall h).mqNext + 1 ∧ c.asid = s.asid ∧ c.started = none ∧
      (∀ b k, Machine.fillOf i = some (b, k) → (t.hall h).bankIssued b = k) ∧
      (t.hall h).work = (s.hall h).work ∧ (t.hall h).acc = (s.hall h).acc ∧ (∀ g, g ≠ h → t.hall g = s.hall g) ∧ Machine.SameMemory s t) ∧
    (16 ≤ (s.hall h).sampledMq ∨ 16 ≤ (s.hall h).mq.length → ∃ t, Machine.exec i s = .next t ∧ Machine.Freezes s t)

/-- R180, R31: a matrix command that fails a check traps with ILLEGAL; one that names an accumulator row of another context traps with ACC_FOREIGN, in user mode, and records
the first such row. -/
def Sys2Proof.Spec.MatrixCommandsTrap : Prop :=
  ∀ (s : Machine.State) (i : Instr) (rd : List Machine.Src) (val : Word), Spec.matRow s i = some (rd, val) → Machine.Readable s rd → Machine.Unstopped s →
    (s.matIllegal i = true → ∃ t, Machine.exec i s = .next t ∧ Machine.Traps s t { cause := .ILLEGAL }) ∧
    (∀ r row, s.matIllegal i = false → s.superMode = false → Machine.accRun s.here i = some r → s.here.foreignRow s.asid r = some row →
      ∃ t y, Machine.exec i s = .next t ∧ Machine.Traps s t y ∧ y.cause = .ACC_FOREIGN ∧ y.row = row ∧ r.1 ≤ row ∧ row < r.1 + r.2)

/-- R178, R180: a matrix command that passes its checks, whose accumulator rows are its own, whose image resolves and for which the queue has room enters
the matrix queue behind its commands with its scalar, its pages and its format; with the queue full its strand freezes. Nothing of it is performed
yet: the tiles, the accumulators and memory are as before. R180, R31: a matrix command that fails a check traps with ILLEGAL; one that names an
accumulator row of another context traps with ACC_FOREIGN, in user mode, and records the first such row. -/
def Obligations.MatrixCommands : Prop := Spec.MatrixCommandsEnterTheQueue ∧ Spec.MatrixCommandsTrap

/-- R185, R193: MFMT sets the tile-activation format of the slice, or the format of a bound stream; MSTAT gives, with latency 2, the number of queued commands in bits 4:0, the
error code in bits 23:16 and the number discarded in bits 27:24, and clears the last two. -/
def Obligations.MatrixFormatAndStatus : Prop :=
  ∀ (s : Machine.State),
    (∀ fmt src sl, s.here.slice = some sl → ∃ t, Machine.exec (.mfmt fmt false src) s = .next t ∧ t.issued = true ∧
      t.here = { s.here with slice := some { sl with tileFmt := fmt } } ∧ Machine.OnlyHall s t ∧ Machine.SameMemory s t) ∧
    (∀ fmt (src : BitVec 6), src.toNat < 8 → (s.here.work.stream src.toNat).bound = true → ∃ t, Machine.exec (.mfmt fmt true src) s = .next t ∧ t.issued = true ∧
      t.here.work.stream src.toNat = { s.here.work.stream src.toNat with fmt := Machine.fmtCode fmt } ∧ (∀ q, q ≠ src.toNat → t.here.work.stream q = s.here.work.stream q) ∧
      t.me = s.me ∧ Machine.OnlyHall s t ∧ Machine.SameMemory s t) ∧
    (∀ d, s.here.mq.length ≤ 16 → s.here.mErr < 256 → s.here.mDisc < 16 → ∃ t v, Machine.exec (.mstat d) s = .next t ∧ t.issued = true ∧
      t.me.pends = s.me.pends ++ [{ seq := s.me.seq, due := s.me.local_ + 2, upds := [.sreg d.toNat v] }] ∧
      (v.extractLsb' 0 5).toNat = s.here.mq.length ∧ (v.extractLsb' 16 8).toNat = s.here.mErr ∧ (v.extractLsb' 24 4).toNat = s.here.mDisc ∧
      t.here.mErr = 0 ∧ t.here.mDisc = 0 ∧ t.here.mq = s.here.mq ∧ t.here.acc = s.here.acc ∧ t.me.s = s.me.s ∧ Machine.OnlyHall s t ∧ Machine.SameMemory s t)

/-! What happens on a Hall of its own accord: results and data that land (R20, R24, R121, R125, R140), waits that end (R147, R224), rounds,
streams, the checker, sync groups (R18, R138, R149, R337). -/

namespace Sys2Proof.Spec
open Sys2Proof.Machine

/-- An event of a Hall leaves every other Hall as it is, and every byte of memory. -/
structure AtHall (s t : State) (h : HallId) : Prop where
  halls : ∀ g, g ≠ h → t.hall g = s.hall g
  bytes : ∀ a, Memory.byte t.mem a = Memory.byte s.mem a

/-- What is written into a scalar register: register 0 takes nothing (R13). -/
def kept (n : Nat) (v : Word) : Word := if n = 0 then 0 else v

/-- The strand's own registers and flags are as before. -/
def SameOwn (x y : StrandState) : Prop := y.s = x.s ∧ y.p = x.p ∧ y.b = x.b ∧ y.nflags = x.nflags

/-- The tiles, shapes and masks that the strands of a Hall share are as before. -/
def SameShared (x y : Work) : Prop := y.tiles = x.tiles ∧ y.shapes = x.shapes ∧ y.masks = x.masks

/-- A result of a strand leaves the other strands of its Hall, its weights, streams, token queues and events, its accumulators, every other Hall and
every byte of memory as they are. -/
structure StrandOnly (s t : State) (h : HallId) (st : Strand) : Prop where
  at_ : AtHall s t h
  strands : ∀ o, o ≠ st → t.strand h o = s.strand h o
  weights : (t.hall h).work.weights = (s.hall h).work.weights
  banks : (t.hall h).work.banks = (s.hall h).work.banks
  streams : (t.hall h).work.streams = (s.hall h).work.streams
  toks : (t.hall h).work.toks = (s.hall h).work.toks
  evs : (t.hall h).work.evs = (s.hall h).work.evs
  acc : (t.hall h).acc = (s.hall h).acc

/-- Of a sparse table, exactly these cells take new values. -/
def CellsPut {w : Nat} (m m' : SMap w) (cells : List (Nat × BitVec w)) : Prop :=
  (∀ c ∈ cells, sget m' c.1 = c.2) ∧ ∀ k, (∀ c ∈ cells, c.1 ≠ k) → sget m' k = sget m k

/-- One result is written, a scalar register, a predicate, a branch target, flags, tile bytes, mask bits or a shape, and no other register of the
strand or of its Hall. -/
def Written (s t : State) (h : HallId) (st : Strand) (u : Upd) : Prop :=
  let x := s.strand h st
  let y := t.strand h st
  let W := (s.hall h).work
  let X := (t.hall h).work
  StrandOnly s t h st ∧
    match u with
    | .sreg n v => y.reg n = kept n v ∧ (∀ m, m ≠ n → y.reg m = x.reg m) ∧ y.p = x.p ∧ y.b = x.b ∧ y.nflags = x.nflags ∧ SameShared W X
    | .preg n v => y.pred n = (n == 0 || v) ∧ (∀ m, m ≠ n → y.pred m = x.pred m) ∧ y.s = x.s ∧ y.b = x.b ∧ y.nflags = x.nflags ∧ SameShared W X
    | .btgt n a r => y.btgt n = { addr := a, prepared := true, ready := r } ∧ (∀ m, m ≠ n → y.btgt m = x.btgt m) ∧ y.s = x.s ∧ y.p = x.p ∧
        y.nflags = x.nflags ∧ SameShared W X
    | .flags f => y.nflags = x.nflags ||| f ∧ y.s = x.s ∧ y.p = x.p ∧ y.b = x.b ∧ SameShared W X
    | .tile cells => CellsPut W.tiles X.tiles cells ∧ X.shapes = W.shapes ∧ X.masks = W.masks ∧ SameOwn x y
    | .mask bits => CellsPut W.masks X.masks bits ∧ X.shapes = W.shapes ∧ X.tiles = W.tiles ∧ SameOwn x y
    | .shape n v => X.shape n = v ∧ (∀ m, m ≠ n → X.shape m = W.shape m) ∧ X.tiles = W.tiles ∧ X.masks = W.masks ∧ SameOwn x y
    | _ => False

/-- A result of one register, or of tile bytes or mask bits, each named once, of a register that there is. -/
def OneResult : Upd → Prop
  | .sreg n _ => n < 64
  | .preg n _ => n < 8
  | .btgt n _ _ => n < 4
  | .flags _ => True
  | .tile cells => (cells.map (·.1)).Nodup
  | .mask bits => (bits.map (·.1)).Nodup
  | .shape n _ => n < 32
  | _ => False

/-- The strand's next due item is this slot: no due result comes before it. -/
def SlotFirst (s : State) (h : HallId) (st : Strand) (x : Slot) : Prop :=
  (s.strand h st).firstSlot ((s.hall h).draining st) = some x ∧
    ∀ p, (s.strand h st).firstPend = some p → dueBefore p.due p.seq x.due x.seq = false

/-- The strand's next due item is this result: no due slot comes before it. -/
def PendFirst (s : State) (h : HallId) (st : Strand) (p : Pend) : Prop :=
  (s.strand h st).firstPend = some p ∧
    ∀ x, (s.strand h st).firstSlot ((s.hall h).draining st) = some x → dueBefore x.due x.seq p.due p.seq = false

/-- The slot's data, or its fault, has arrived, and no register is written yet (R24). -/
def Arrives (s : State) (h : HallId) (st : Strand) (x : Slot) (us : List Upd) (f : Option TrapInfo) : Prop :=
  ∃ t y, exec (.landingDataArrival h st) s = .next t ∧ y ∈ (t.strand h st).slots ∧ y.seq = x.seq ∧ y.fault = f ∧ y.data = some us ∧
    (t.strand h st).s = (s.strand h st).s ∧ (t.strand h st).pends = (s.strand h st).pends

/-- A cause stands recorded on a strand of a Hall. -/
def Caught (t : State) (h : HallId) (st : Strand) (i : TrapInfo) : Prop := ∃ y, (t.hall h).trap = some y ∧ y.strand = st ∧ y.info = i

/-- The control bits of a syllable that is sync-marked and has no other. -/
def syncOnly : Ctl := { gn := false, gp := 0, stall := 0, pl := false, pr := false, wl := false, wr := false, sync := true }

end Sys2Proof.Spec

/-- R13, R20, R24, R121, R235: the strand's next due item is written: a result, or a slot that has its data and no fault. Its scalar register, predicate, branch
target, flags, tile bytes, mask bits or shape hold the value (register s0 nothing), every other register of the strand, every tile, mask and
shape, the other strands, the accumulators, the weights, the other Halls and every byte of memory are as before, and the result or the slot is gone; a slot with a fault stops its strand with that cause and writes no scalar register; a LIFE.AGE
writes what its row group is at the landing point. -/
def Obligations.ResultsLand : Prop :=
  ∀ (s : Machine.State) (h : HallId) (st : Strand) (n : Nat), n < 64 →
    (∀ p u, Spec.PendFirst s h st p → p.upds = [u] → Spec.OneResult u →
      ∃ t, Machine.exec (.resultWrite h st) s = .next t ∧ Spec.Written s t h st u ∧
        (∀ q ∈ (t.strand h st).pends, q.seq ≠ p.seq) ∧ (t.strand h st).slots = (s.strand h st).slots) ∧
    (∀ x u, Spec.SlotFirst s h st x → x.data = some [u] → Spec.OneResult u → x.fault = none → (∀ d g, x.req ≠ .lifeAge d g) →
      ∃ t, Machine.exec (.landingPoint h st) s = .next t ∧ Spec.Written s t h st u ∧
        (∀ q ∈ (t.strand h st).slots, q.seq ≠ x.seq) ∧ (t.strand h st).pends = (s.strand h st).pends) ∧
    (∀ x us f, Spec.SlotFirst s h st x → x.data = some us → x.fault = some f → (s.hall h).trap = none → (s.hall h).back = none →
      (s.hall h).switch = none →
      ∃ t, Machine.exec (.landingPoint h st) s = .next t ∧ Spec.Caught t h st f ∧ (t.strand h st).s = (s.strand h st).s ∧
        (∀ q ∈ (t.strand h st).slots, q.seq ≠ x.seq) ∧
        (t.strand h st).replay = (s.strand h st).replay ++ [{ word := x.word, addr := x.addr }] ∧ Spec.AtHall s t h) ∧
    (∀ x us g, Spec.SlotFirst s h st x → x.data = some us → x.fault = none → x.req = .lifeAge n g → g < 2 ^ 22 →
      ∃ t, Machine.exec (.landingPoint h st) s = .next t ∧ (t.strand h st).reg n = Spec.kept n (s.rowGroup g).report ∧
        (∀ m, m ≠ n → (t.strand h st).reg m = (s.strand h st).reg m) ∧ (∀ q ∈ (t.strand h st).slots, q.seq ≠ x.seq) ∧ Spec.AtHall s t h)

/-- R24, R121, R125, R138, R140, R148, R202, R217: the data of a slot arrives, from the bytes at its places or from what its request takes, and is kept in it until it lands;
a fault that is found waits for it likewise; a CP.WAIT waits on while its word is 0; the oldest queued store whose time has come drains, and no byte
of memory changes; a publication whose acknowledgement has come is waited for no longer by its strand; the next contribution on its way opens its round, which waits for the
others. -/
def Obligations.DataArrives : Prop :=
  ∀ (s : Machine.State) (h : HallId) (st : Strand),
    (∀ x d c sl, s.arriving? h st = some x → x.req = .rangeNext d c → x.paddrs = [] → (s.hall h).slice = some sl →
      let n : Word := if c ≤ sl.hi - sl.lo then c else sl.hi - sl.lo
      ∃ t y z, Machine.exec (.landingDataArrival h st) s = .next t ∧ y ∈ (t.strand h st).slots ∧ y.seq = x.seq ∧ y.fault = none ∧
        y.data = some [.sreg d sl.lo, .sreg (d + 1) n] ∧ (t.strand h st).s = (s.strand h st).s ∧ (t.hall h).slice = some z ∧ z.lo = sl.lo + n ∧ z.hi = sl.hi ∧
        Spec.AtHall s t h) ∧
    (∀ x sl, s.arriving? h st = some x → (s.hall h).slice = some sl →
      (∀ p o, Machine.spaceOf (x.paddrs.headD 0) ≠ .control p o) → (∀ a ∈ x.paddrs, Machine.inFabric a = false) →
      let r := s.senseRead sl.part x.paddrs
      let bs := (r.2.readBytes (r.2.readerOf h st x.bound) x.paddrs).1
      (r.1 = none →
        (∀ d n sx, x.req = .load d n sx → Spec.Arrives s h st x [.sreg d (Machine.extendLoad sx bs)] none) ∧
        (∀ offs es, x.req = .tile offs es → Spec.Arrives s h st x [.tile (offs.zip bs)] none) ∧
        (∀ q, x.req = .sbind q → (Machine.streamOk bs = true → Spec.Arrives s h st x [.bind q bs] none) ∧
          (Machine.streamOk bs = false → Spec.Arrives s h st x [] (some { cause := .ILLEGAL }))) ∧
        (∀ d sc, x.req = .cpWait d sc → ∃ t y, Machine.exec (.landingDataArrival h st) s = .next t ∧ y ∈ (t.strand h st).slots ∧ y.seq = x.seq ∧
          (y.data = none ∨ ∃ w c, w.toNat % 256 ≠ 0 ∧ y.data = some [.sreg d w, .learn c, .renew sc] ∧ y.fault = none) ∧
          (t.strand h st).s = (s.strand h st).s)) ∧
      (∀ a f, r.1 = some (a, f) → f.cause ≠ .INTEGRITY ∨ x.depth = 0 →
        ((∃ d n sx, x.req = .load d n sx) ∨ (∃ offs es, x.req = .tile offs es) ∨ (∃ q, x.req = .sbind q) ∨ ∃ d sc, x.req = .cpWait d sc) →
        ∃ k, k.cause = f.cause ∧ k.detail = f.code ∧ Spec.Arrives s h st x [] (some k))) ∧
    (∀ x d g, s.arriving? h st = some x → x.req = .lifeAge d g → x.paddrs = [] → Spec.Arrives s h st x [] none) ∧
    (∀ e, (s.hall h).drainable = some e →
      ∃ t y, Machine.exec (.writeQueueDrain h) s = .next t ∧ y ∈ (t.hall h).overlay ∧ y.n = e.n ∧ y.drained.isSome = true ∧
        y.cells = e.cells ∧ (t.hall h).overlay.length = (s.hall h).overlay.length ∧ Spec.AtHall s t h) ∧
    (∀ sc a sl, (s.hall h).slice = some sl → (s.strand h st).wait.pub = .waiting sc a → a ≤ (s.hall h).cycle → (s.strand h st).lateAtomics = [] → s.publishWaits h st sc = false →
      ∃ t, Machine.exec (.publicationAck h st) s = .next t ∧
        (match (t.strand h st).wait.pub with
          | .idle => (s.hall h).toCompare = true ∧ Config.upset s.free = true
          | .waiting _ _ => False
          | _ => True)) ∧
    (∀ e rest d, s.sends = e :: rest → e.fabric = false → s.mrDesc e.part ((e.paddr - 0xC0000000000) % 0x100000 / 4096) = some d → d.fabric = 0 → 2 ≤ d.count →
      (∀ r ∈ s.rounds, ¬(r.part = e.part ∧ r.addr = (e.paddr - 0xC0000000000) % 0x100000)) →
      ∃ t r c, Machine.exec .mrContributionArrival s = .next t ∧ t.sends = rest ∧ r ∈ t.rounds ∧ r.part = e.part ∧
        r.addr = (e.paddr - 0xC0000000000) % 0x100000 ∧ r.parts = [c] ∧ c.hall = e.hall.toNat ∧ c.value = e.value ∧ t.mem = s.mem)

/-- R18, R147, R149, R224, R305, R337: a barrier wait, a wait at a full queue and a slice that have lasted their time stop the S strand with BAR_TIMEOUT, QUEUE_STALL and
BUDGET; a stream's next block enters its buffer; the checker matches the first command whose copy has arrived; and four strands that stand at sync-marked NOPs go together,
while a strand that does not stand at a sync-marked syllable keeps the others waiting. -/
def Obligations.WaitsAndMatches : Prop :=
  ∀ (s : Machine.State) (h : HallId),
    (∀ t0 sl, (s.hall h).slice = some sl → (s.hall h).trap = none → (s.hall h).back = none → (s.strand h .S).wait.since = some t0 →
      (((s.part sl.part).barTmo.toNat ≠ 0 → (s.part sl.part).barTmo.toNat * 5544000 ≤ (s.strand h .S).wait.until_ →
        ∃ t, Machine.exec (.barTimeout h) s = .next t ∧ Spec.Caught t h .S { cause := .BAR_TIMEOUT } ∧ (t.strand h .S).s = (s.strand h .S).s ∧ Spec.AtHall s t h) ∧
       ((s.strand h .S).wait.stage = 64 → t0 + 5544000000 ≤ s.tick →
        ∃ t, Machine.exec (.queueStall h) s = .next t ∧ Spec.Caught t h .S { cause := .QUEUE_STALL } ∧ (t.strand h .S).s = (s.strand h .S).s ∧ Spec.AtHall s t h))) ∧
    (∀ sl, (s.hall h).slice = some sl → (s.hall h).trap = none → (s.hall h).back = none → sl.left = 0 → (s.hall h).charging = true →
      ∃ t, Machine.exec (.budget h) s = .next t ∧ Spec.Caught t h .S { cause := .BUDGET } ∧ (t.hall h).work = (s.hall h).work ∧ Spec.AtHall s t h) ∧
    (∀ (q : BitVec 3) sl j ps s1 s2 bs, (s.hall h).slice = some sl → ((s.hall h).work.stream q.toNat).nextBlock = some j →
      let x := (s.hall h).work.stream q.toNat
      let u : Machine.Who := { hall := h, asid := sl.asid, part := sl.part, super := sl.super, slice := some sl.id }
      s.engineResolve u sl.wsets { Machine.wantEngineRead with width := 4 }
        (Machine.runFrom (Machine.streamAddr x.desc j).toNat (Machine.streamBlock x.desc)) = (.ok ps, s1) →
      s1.engineRead h .matrix (Machine.streamKey q.toNat j) sl.asid sl.part (s1.readerOf h .L (s1.strand h .L).stores) ps = (.ok bs, s2) →
      ∃ t, Machine.exec (.streamPrefetch h q) s = .next t ∧
        (t.hall h).work.stream q.toNat =
          { (s2.hall h).work.stream q.toNat with buf := ((s2.hall h).work.stream q.toNat).buf ++ [{ bytes := bs, fault := none }] }) ∧
    (∀ c rest m, (s.hall h).cq = c :: rest → c.matchAt = some m → m ≤ (s.hall h).cycle →
      ∃ t y, Machine.exec (.checkerMatch h) s = .next t ∧ (t.hall h).cq.head? = some y ∧ y.id = c.id ∧ y.matchAt = none ∧
        (c.bad ≠ 0 → c.bad ≠ Machine.uncounted → y.bad = c.bad) ∧ (c.bad = 0 ∨ c.bad = Machine.uncounted → y.bad = if Config.upset s.free then 6 else 0) ∧ (t.hall h).cq.length = (s.hall h).cq.length ∧
        (t.hall h).work = (s.hall h).work ∧ Spec.AtHall s t h) ∧
    ((∀ st, ∃ w, s.atSync h st = some (w, Spec.syncOnly, .nop)) → (s.hall h).mFault = none →
      ∃ t, Machine.exec (.syncGroupIssue h) s = .next t ∧ (t.hall h).syncGo = true) ∧
    ((∃ st, s.atSync h st = none) → ∃ t, Machine.exec (.syncGroupIssue h) s = .next t ∧ t = s)

/-! Rollbacks, trap records, registers of a slice, the capture of a context (R93, R94, R210, R324, R349, R392, R394). -/

/-- R349: once a rollback's span is quiet, every strand is at the snapshot of the target region, with the token queues, the region is the innermost one, and its retry count has gone
up by one unless it was aborted; the strands resume at the end of its time. -/
def Sys2Proof.Spec.RollbacksRestore : Prop :=
  ∀ (s : Machine.State) (h : HallId) (b : Machine.Rollback) (sl : Machine.Slice), (s.hall h).back = some b → (s.hall h).slice = some sl →
    (∀ r, b.applied = false → b.found < (s.hall h).cycle → 1 ≤ b.target → b.target ≤ sl.regions.length → Machine.regionAt sl.regions b.target = some r →
      (s.discardUnstarted h b.target).spanBusy h b.target = false →
      ∃ t b' x r', Machine.exec (.rollback h) s = .next t ∧ (t.hall h).back = some b' ∧ b'.applied = true ∧ b'.target = b.target ∧
        (∀ st, (t.strand h st).s = (r.snap st).s ∧ (t.strand h st).p = (r.snap st).p ∧ (t.strand h st).b = (r.snap st).b ∧
          (t.strand h st).pc = (r.snap st).pc) ∧
        (t.hall h).work.toks = r.toks ∧ (t.hall h).slice = some x ∧ x.regions = r' :: sl.regions.drop (sl.regions.length + 1 - b.target) ∧
        r'.retry = (if b.abort then r.retry else r.retry + 1) ∧ r'.ab = b.abort ∧
        (b.abort = false → r'.cause.toNat = b.code % 256) ∧ ∀ g, g ≠ h → (t.hall g).work = (s.hall g).work) ∧
    (b.applied = true → b.endsAt ≤ (s.hall h).cycle → b.held = none →
      ∃ t, Machine.exec (.rollbackResume h) s = .next t ∧ t.hall h = { s.hall h with back := none } ∧ Spec.AtHall s t h)

/-- R93, R94, R210, R392, R394, R395: a trap record is complete once the strands have stopped; a complete one enters the trap queue of its partition with the Hall, the cause, the program
counters and the address; the oldest is opened and fills the trap registers; a read of NTSTAT clears it; a threshold window that is over begins again; ERRINJ takes its fields. -/
def Sys2Proof.Spec.RecordsAndSliceRegisters : Prop :=
  ∀ (s : Machine.State) (h : HallId) (sl : Machine.Slice), (s.hall h).slice = some sl →
    (∀ y, (s.hall h).trap = some y → y.complete = false → y.cycle < (s.hall h).cycle → (s.hall h).quiet = true → (s.hall h).back = none →
      ∃ t, Machine.exec (.trapRecordComplete h) s = .next t ∧ t.hall h = { s.hall h with trap := some { y with complete := true } } ∧ Spec.AtHall s t h) ∧
    (∀ y, (s.hall h).trap = some y → y.complete = true → y.queued = false → sl.supervisor = false → (s.part sl.part).trapq.length < 64 →
      ∃ t r, Machine.exec (.trapQueueEntry h) s = .next t ∧ (t.part sl.part).trapq = (s.part sl.part).trapq ++ [r] ∧ r.hall = h ∧
        (r.cause.extractLsb' 0 8).toNat = Machine.causeCode y.info.cause ∧ r.addr = y.info.addr ∧
        r.pcs = #v[(s.hall h).work.S.pc, (s.hall h).work.L.pc, (s.hall h).work.M.pc, (s.hall h).work.V.pc] ∧
        (t.hall h).trap = some { y with queued := true } ∧ t.mem = s.mem) ∧
    (∀ (p : PartId) r rest, (s.part p).open_ = none → (s.part p).trapq = r :: rest →
      ∃ t, Machine.exec (.trapRecordOpen p) s = .next t ∧ (t.part p).open_ = some r ∧ (t.part p).trapq = rest ∧ (t.part p).pcs = r.pcs ∧
        (∀ q, q ≠ p → t.part q = s.part q) ∧ t.halls = s.halls ∧ t.mem = s.mem) ∧
    (∃ t, Machine.exec (.ntstatRead h) s = .next t ∧ t.hall h = { s.hall h with slice := some { sl with ntstat := 0 } } ∧ Spec.AtHall s t h) ∧
    (∀ (k : BitVec 2) (hk : k.toNat < 3), (sl.thresh[k.toNat]'hk).win ≠ 0 → (sl.thresh[k.toNat]'hk).pos % ((sl.thresh[k.toNat]'hk).win.toNat * 1024) = 0 →
      (sl.thresh[k.toNat]'hk).from_ < (sl.thresh[k.toNat]'hk).pos →
      ∃ t x, Machine.exec (.thresholdWindowEnd h k) s = .next t ∧ (t.hall h).slice = some x ∧
        x.thresh[k.toNat]'hk = { sl.thresh[k.toNat]'hk with from_ := (sl.thresh[k.toNat]'hk).pos, count := 0, crossed := false } ∧
        (∀ j (hj : j < 3), j ≠ k.toNat → x.thresh[j]'hj = sl.thresh[j]'hj) ∧ (t.hall h).work = (s.hall h).work ∧ Spec.AtHall s t h) ∧
    (∀ v, ∃ t, Machine.exec (.errinjArm h v) s = .next t ∧ (t.hall h).errKind = v.extractLsb' 0 2 ∧ (t.hall h).errAfter = (v.extractLsb' 8 24).toNat ∧
      (t.hall h).errCount = 0 ∧ (t.hall h).errHit = false ∧ (t.hall h).work = (s.hall h).work ∧ Spec.AtHall s t h)

/-- R324: once no slice of a context that is being frozen runs, and its image fits the buffer, the context has left the device: it is frozen, and no saved slice, group or instance of its is left. -/
def Sys2Proof.Spec.ContextsLeave : Prop :=
  ∀ (s : Machine.State) (asid : Asid) (f : Machine.Freeze), (s.ctx asid).freezing = some f →
    (∀ h sl, (s.hall h).slice = some sl → sl.asid ≠ asid) →
    let c := s.captureInstant asid
    c.reaches { hall := f.hall, asid := f.by_, part := f.part, super := true } true f.buf.toNat (Machine.layoutLen (c.imageSections f.part asid)) = true →
    ∃ t, Machine.exec (.freezeCapture asid) s = .next t ∧ (t.ctx asid).frozen = true ∧ (t.ctx asid).freezing = none ∧ (t.ctx asid).tracking = false ∧
      (∀ v ∈ t.saved, v.slice.asid ≠ asid) ∧ (∀ g ∈ t.groups, g.asid ≠ asid) ∧ ∀ i ∈ t.insts, i.asid ≠ asid

/-- R349: once a rollback's span is quiet, every strand is at the snapshot of the target region, with the token queues, the region is the innermost one,
and its retry count has gone up by one unless it was aborted; the strands resume at the end of its time. R324: once no slice of a context that is
being frozen runs, and its image fits the buffer, the context has left the device: it is frozen, and no saved slice, group or instance of its is left. -/
def Obligations.RollbacksAndFrozenContexts : Prop := Spec.RollbacksRestore ∧ Spec.ContextsLeave

/-! The engines (R118, R179, R182, R187, R191, R197, R201, R236), translation (R387 to R390), scheduling (R304 to R323). -/

/-- What the strands of a Hall share and hold is as before, but for what their markers know (R287). -/
def Sys2Proof.Spec.SameButMarkers (W X : Machine.Work) : Prop :=
  X = { W with S := { W.S with markers := X.S.markers }, L := { W.L with markers := X.L.markers }, M := { W.M with markers := X.M.markers },
               V := { W.V with markers := X.V.markers } }

/-- R197, R201: the head of the copy queue, matched and not waiting for an event, becomes the copy in progress at its first byte; a burst that has been read writes its bytes and moves it on by them, to the end or to a data fault, and one that does not translate
fails with code 3 and writes nothing; a copy that has ended without a
completion word leaves the engine; the follow-on of a finished CP.MM enters the matrix queue behind its commands. -/
def Obligations.CopySteps : Prop :=
  ∀ (s : Machine.State) (h : HallId),
    (∀ c rest, (s.hall h).copy = none → (s.hall h).cq = c :: rest → c.matchAt = none → (s.hall h).leaving c.slice = false → c.q.we = false → c.bad = 0 →
      (c.resume = false ∨ c.cw = none) →
      ∃ t r, Machine.exec (.copyCommandStart h) s = .next t ∧ (t.hall h).copy = some r ∧ (t.hall h).cq = rest ∧ r.pos = 0 ∧ r.outcome = none ∧
        r.cmd.id = c.id ∧ r.cmd.kind = c.kind ∧ r.cmd.src = c.src ∧ r.cmd.dst = c.dst ∧ r.cmd.x = c.x ∧ (s.hall h).cycle ≤ r.nextAt ∧
        (t.hall h).work = (s.hall h).work ∧ Spec.AtHall s t h) ∧
    (∀ c rest, (s.hall h).copy = none → (s.hall h).cq = c :: rest → c.matchAt = none → (s.hall h).leaving c.slice = false → c.q.we = true →
      ((s.hall h).work.ev c.q.ev.toNat).count = 0 → ∃ t, Machine.exec (.copyCommandStart h) s = .next t ∧ t = s) ∧
    (∀ r ps s1, (s.hall h).copy = some r → r.outcome = none → r.pos < Machine.copyTotal r.cmd.kind r.cmd.x → r.stop = false → r.nextAt ≤ (s.hall h).cycle →
      let u := s.copyWho h r.cmd
      let binds := s.bindsOf r.cmd.slice
      s.planBurst u binds r.cmd (Machine.burstPieces r.pos (Machine.copyTotal r.cmd.kind r.cmd.x)) = (some (some ps), s1) →
      s1.farMissing h .copy r.cmd.id ((ps.flatMap (·.src)).filter Machine.inFabric) = false →
      let got : Machine.Burst × Machine.State := ps.foldl (fun a p => a.2.readPiece h u binds r a.1 p) ({ out := [], code := 0 }, s1)
      let cells := got.1.out.flatMap fun e => e.1.dst.zip e.2
      ∃ t r', Machine.exec (.copyBurst h) s = .next t ∧ (t.hall h).copy = some r' ∧ r'.pos = r.pos + (got.1.out.map fun e => e.1.n).sum ∧
        (got.1.code = 0 → r'.outcome = none) ∧ (got.1.code ≠ 0 → r'.outcome = some (r'.pos, got.1.code, 2)) ∧ r'.cmd = r.cmd ∧ (s.hall h).cycle < r'.nextAt ∧
        (Spec.Uncounted s → Machine.Memory.wf s.mem = true → (cells.map (·.1)).Nodup → ∀ c ∈ cells, Machine.inFabric c.1 = false → Machine.Memory.byte t.mem c.1 = c.2)) ∧
    (∀ r s1, (s.hall h).copy = some r → r.outcome = none → r.pos < Machine.copyTotal r.cmd.kind r.cmd.x → r.stop = false → r.nextAt ≤ (s.hall h).cycle →
      s.planBurst (s.copyWho h r.cmd) (s.bindsOf r.cmd.slice) r.cmd (Machine.burstPieces r.pos (Machine.copyTotal r.cmd.kind r.cmd.x)) = (some none, s1) →
      ∃ t, Machine.exec (.copyBurst h) s = .next t ∧ t = s1.onCopy h fun r => { r with outcome := some (r.pos, 3, 2) }) ∧
    (∀ r cur state, (s.hall h).copy = some r → r.ends (s.hall h).cycle = some (cur, 0, state) → r.cmd.q.scope ≠ .fabric → s.farWaits h .L (some .copy) = false →
      r.cmd.cw = none →
      ∃ t, Machine.exec (.copyComplete h) s = .next t ∧ (t.hall h).copy = none ∧ Spec.SameButMarkers (s.hall h).work (t.hall h).work ∧ t.mem = s.mem) ∧
    (∀ r w val i k n wr ps s1, (s.hall h).copy = some r → r.cmd.follow = some (w, val) → r.entered = false → r.outcome = none →
      Machine.copyTotal r.cmd.kind r.cmd.x ≤ r.pos → r.nextAt ≤ (s.hall h).cycle → (s.hall h).mq.length < 16 → Machine.followOn w = some (i, k) →
      { s with curHall := h }.matIllegal i = false → r.cmd.super = true → Machine.imageOf i = some (n, wr) → val.toNat % 64 = 0 →
      s.engineResolve (s.copyWho h r.cmd) (s.bindsOf r.cmd.slice) (Machine.imageWant wr) (Machine.runFrom val.toNat n) = (.ok ps, s1) →
      ∃ t r' m, Machine.exec (.followOnEntry h) s = .next t ∧ (t.hall h).mq = (s1.hall h).mq ++ [m] ∧ m.op = i ∧ m.value = val ∧ m.pages = ps ∧
        m.started = none ∧ m.slice = r.cmd.slice ∧ (t.hall h).copy = some r' ∧ r'.entered = true)

/-- R118, R236: the head of the Hazel queue, matched and not waiting for an event, becomes the command in progress; one that is done, without a completion word, leaves the engine, and one that
needs a pool fails with code 3 when none is bound; an engine's post adds one to its event, or to that of the Hall where the slice runs, at the end of the Hall cycle, or waits while the event is full. -/
def Sys2Proof.Spec.HazelCommandsAndPosts : Prop :=
  ∀ (s : Machine.State) (h : HallId),
    (∀ c rest, (s.hall h).hz = none → (s.hall h).rebind = none → (s.hall h).hq = c :: rest → c.matchAt = none →
      (s.hall h).leaving c.slice = false → c.q.we = false →
      ∃ t r, Machine.exec (.hazelCommandStart h) s = .next t ∧ (t.hall h).hz = some r ∧ (t.hall h).hq = rest ∧ r.cmd.id = c.id ∧ r.cmd.kind = c.kind ∧
        r.cmd.va = c.va ∧ r.cmd.vb = c.vb ∧ (c.bad = 0 → r.step = if c.unbound = true then .fail 3 else .begin) ∧ (c.bad ≠ 0 → r.step = .fail c.bad) ∧
        (t.hall h).work = (s.hall h).work ∧ Spec.AtHall s t h) ∧
    (∀ r cur, (s.hall h).hz = some r → r.nextAt ≤ (s.hall h).cycle → r.step = .done cur → r.cmd.cw = none → r.cmd.q.scope ≠ .fabric →
      s.farWaits h .L (some .hazel) = false →
      ∃ t, Machine.exec (.hazelNodeAtomic h) s = .next t ∧ (t.hall h).hz = none ∧ t.mem = s.mem) ∧
    (∀ r, (s.hall h).hz = some r → r.nextAt ≤ (s.hall h).cycle → r.step = .begin → r.cmd.kind ≠ .pool → r.pool = none →
      ∃ t, Machine.exec (.hazelNodeAtomic h) s = .next t ∧ t.hall h = { s.hall h with hz := some { r with step := .fail 3 } } ∧ Spec.AtHall s t h) ∧
    (∀ p, (s.hall h).phase = .finish → (s.hall h).posts = [p] → p.dest = none → p.ev < 32 →
      ∃ t, Machine.exec (.engineEventPost h) s = .next t ∧
        (((s.hall h).work.ev p.ev).count < 255 → ((t.hall h).work.ev p.ev).count = ((s.hall h).work.ev p.ev).count + 1 ∧ (t.hall h).posts = []) ∧
        (255 ≤ ((s.hall h).work.ev p.ev).count → (t.hall h).work = (s.hall h).work ∧ (t.hall h).posts = [{ p with held := true }]) ∧
        (∀ e, e ≠ p.ev → (t.hall h).work.ev e = (s.hall h).work.ev e) ∧ Spec.AtHall s t h) ∧
    (∀ p g, (s.hall h).phase = .finish → (s.hall h).posts = [p] → p.dest = some g → g ≠ h → p.ev < 32 → ((s.hall g).work.ev p.ev).count < 255 →
      ∃ t, Machine.exec (.engineEventPost h) s = .next t ∧ ((t.hall g).work.ev p.ev).count = ((s.hall g).work.ev p.ev).count + 1 ∧
        t.hall h = { s.hall h with posts := [] } ∧ ∀ a, Machine.Memory.byte t.mem a = Machine.Memory.byte s.mem a)

namespace Sys2Proof.Spec
open Sys2Proof.Machine

/-- The command in progress on a Hall's Hazel engine finds a field of n bytes at an address: it resolves and can be written, at bytes of this module
in valid row groups that read without a fault. -/
structure HzField (s : State) (h : HallId) (r : HzRun) (a : Word) (n : Nat) (ps : List Nat) : Prop where
  found : s.engineResolve (s.hazelWho h r.cmd) (s.bindsOf r.cmd.slice) { wantEngineRead with w := true } (runFrom a.toNat n) = (.ok ps, s)
  read : ∃ s2, s.senseRead r.cmd.part ps = (none, s2) ∧
    s2.engineResolve (s2.hazelWho h r.cmd) (s2.bindsOf r.cmd.slice) wantEngineWrite (runFrom a.toNat n) = (.ok ps, s2) ∧
    s2.invalidAt (fun _ => false) ps = none
  near : ∀ p ∈ ps, inFabric p = false
  apart : ps.Nodup
  width : ps.length = n

/-- The number that a field of bytes holds. -/
def fieldOf (s : State) (ps : List Nat) : Nat := leNat (ps.map (Memory.byte s.mem))

/-- One router atomic of the Hazel engine: the command goes to its next action, in a later Hall cycle, and the field takes its new value, none where it
keeps the old one; no other byte of memory changes, unless a hot map is written for it. -/
def HzActs (s : State) (h : HallId) (r : HzRun) (ps : List Nat) (v : Option Nat) (next : HzStep) : Prop :=
  ∃ t y, exec (.hazelNodeAtomic h) s = .next t ∧ (t.hall h).hz = some y ∧ y.cmd = r.cmd ∧ y.pool = r.pool ∧ y.step = next ∧ (s.hall h).cycle < y.nextAt ∧
    (Uncounted s → Memory.wf s.mem = true →
      (∀ p, p ∉ ps → Memory.byte t.mem p = Memory.byte s.mem p) ∧
      match v with
      | some x => ps.map (Memory.byte t.mem) = leBytes ps.length x
      | none => ∀ p, Memory.byte t.mem p = Memory.byte s.mem p)

end Sys2Proof.Spec

/-- R238, R239, R363, R369, R372: the node atomics of a descent and of a backup. A descent counts its place in the batch, adds 1 to VL of each node that it visits,
modulo 2^16, and at a leaf sets the pending flag, bit 2 of FLAGS, by test-and-set: where it was clear the record is of kind 1, where it was set of kind 2. An expansion
that has written its children sets the expanded flag and clears the pending one. A
backup adds at each node of its path 1 to N, the value to W, negated at an odd distance from the leaf in an alternating pool, in the pool's format, and takes 1 from VL, modulo 2^16; a duplicate's
backup only takes 1 from VL. -/
def Sys2Proof.Spec.HazelNodeAtomics : Prop :=
  ∀ (s : Machine.State) (h : HallId) (r : Machine.HzRun) (P : Machine.HzPool) (ps : List Nat), (s.hall h).hz = some r → r.nextAt ≤ (s.hall h).cycle →
    r.pool = some P →
    let old := Spec.fieldOf s ps
    (r.cmd.kind = .desc →
      (r.step = .begin → r.cmd.va.toNat < P.cap → r.cmd.vb.toNat % 64 = 0 → Spec.HzField s h r r.cmd.vb 4 ps →
        if old < 256 then Spec.HzActs s h r ps (some (old + 1)) (.visit old [] r.cmd.va.toNat) else Spec.HzActs s h r ps none (.done 256)) ∧
      (∀ slot path n, r.step = .visit slot path n → Spec.HzField s h r (P.node n 10) 2 ps →
        Spec.HzActs s h r ps (some ((old + 1) % 65536)) (.look slot (path ++ [n]))) ∧
      (∀ slot path n, r.step = .pend slot (path ++ [n]) → Spec.HzField s h r (P.node n 12) 2 ps →
        if old / 4 % 2 = 0 then Spec.HzActs s h r ps (some (old % 16 + 4)) (.record slot (path ++ [n]) 1)
        else Spec.HzActs s h r ps none (.record slot (path ++ [n]) 2))) ∧
    (r.cmd.kind = .expand → ∀ base, r.step = .flag base → s.farWaits h .L (some .hazel) = false → Spec.HzField s h r (P.node r.cmd.va.toNat 12) 2 ps →
      Spec.HzActs s h r ps (some (old / 8 % 2 * 8 + old / 2 % 2 * 2 + 1)) (.done base)) ∧
    (r.cmd.kind = .back → ∀ (n : Nat) (ns : List Nat) (up : Nat) (dup : Bool), n < P.cap →
      (r.step = .addN (n :: ns) up dup → Spec.HzField s h r (P.node n 0) 4 ps →
        Spec.HzActs s h r ps (some ((old + 1) % 2 ^ 32)) (.addW (n :: ns) up dup)) ∧
      (r.step = .addW (n :: ns) up dup → Spec.HzField s h r (P.node n 4) 4 ps →
        let v := r.cmd.vb.toNat % 2 ^ 32
        let u := if P.alt = true ∧ up % 2 = 1 then (if P.q824 = true then (2 ^ 32 - v) % 2 ^ 32 else (Machine.fp32.negate v).bits) else v
        Spec.HzActs s h r ps (some (if P.q824 = true then (old + u) % 2 ^ 32 else (Machine.fp32.add old u).bits)) (.addV (n :: ns) up dup)) ∧
      (r.step = .addV (n :: ns) up dup → Spec.HzField s h r (P.node n 10) 2 ps →
        Spec.HzActs s h r ps (some ((old + 65535) % 65536))
          (match ns with | [] => .done (up + 1) | _ => if dup = true then .addV ns (up + 1) dup else .addN ns (up + 1) dup)))

/-- R118, R236: the head of the Hazel queue, matched and not waiting for an event, becomes the command in progress; one that is done, without a completion
word, leaves the engine, and one that needs a pool fails with code 3 when none is bound; an engine's post adds one to its event, or to that of the
Hall where the slice runs, at the end of the Hall cycle, or waits while the event is full. R238, R239, R363, R369, R372: the node atomics of a descent
and of a backup. A descent counts its place in the batch, adds 1 to VL of each node that it visits, modulo 2^16, and at a leaf sets the pending flag,
bit 2 of FLAGS, by test-and-set: where it was clear the record is of kind 1, where it was set of kind 2. An expansion that has written its children
sets the expanded flag and clears the pending one. A backup adds at each node of its path 1 to N, the value to W, negated at an odd distance from the
leaf in an alternating pool, in the pool's format, and takes 1 from VL, modulo 2^16; a duplicate's backup only takes 1 from VL. -/
def Obligations.HazelAndPostSteps : Prop := Spec.HazelCommandsAndPosts ∧ Spec.HazelNodeAtomics

/-- R118, R179, R187: a matrix command whose conditions hold starts; an MMA's next row is fed, its results due 140 Hall cycles on; when its last row has been fed its event is posted; a row that is due is
written and takes the context's tag, each entry the pass's sum, or what its control makes of the sum and the old entry, and no other row changes. -/
def Sys2Proof.Spec.MatrixSteps : Prop :=
  ∀ (s : Machine.State) (h : HallId),
    (∀ c, (s.hall h).nextMat = some c → c.lost = none →
      ∃ t y, Machine.exec (.matrixCommandStart h) s = .next t ∧ y ∈ (t.hall h).mq ∧ y.id = c.id ∧ y.op = c.op ∧ y.started = some (s.hall h).cycle ∧
        (s.hall h).cycle + Machine.matCycles c.op ≤ y.endsAt ∧ (t.hall h).mq.length = (s.hall h).mq.length ∧ (t.hall h).work = (s.hall h).work ∧
        (t.hall h).acc = (s.hall h).acc ∧ Spec.AtHall s t h) ∧
    (∀ c f, (s.hall h).feedDue = some (c, f) → c.op = .mma f →
      ∃ t y, Machine.exec (.mmaRowFeed h) s = .next t ∧ y ∈ (t.hall h).mq ∧ y.id = c.id ∧ y.op = c.op ∧ y.fed = c.fed + 1 ∧ y.lastFed = (s.hall h).cycle ∧
        (∀ r ∈ y.rows, r ∈ c.rows ∨ r.due = (s.hall h).cycle + 140 ∧ f.arow.toNat ≤ r.row ∧ r.cols.length = 128) ∧
        (t.hall h).acc = (s.hall h).acc ∧ (t.hall h).work = (s.hall h).work ∧ Spec.AtHall s t h) ∧
    (∀ c, (s.hall h).consumed = some c →
      ∃ t y, Machine.exec (.operandsConsumed h) s = .next t ∧ y ∈ (t.hall h).mq ∧ y.id = c.id ∧ y.op = c.op ∧ y.posted = true ∧
        (Machine.eventOf c.op = none → (t.hall h).posts = (s.hall h).posts) ∧
        (∀ ev, Machine.eventOf c.op = some ev → ∃ p, (t.hall h).posts = (s.hall h).posts ++ [p] ∧ p.ev = ev ∧ p.queue = some .matrix) ∧
        (t.hall h).acc = (s.hall h).acc ∧ (t.hall h).work = (s.hall h).work ∧ Spec.AtHall s t h) ∧
    (∀ c r f, (s.hall h).writeDue = some (c, r) → Machine.mmaOf c.op = some f → r.cols.length ≤ 128 →
      ∃ t, Machine.exec (.mmaResultWrite h) s = .next t ∧ Machine.sget (t.hall h).accTag r.row = BitVec.ofNat 13 (c.asid.toNat + 1) ∧
        (∀ j (hj : j < r.cols.length), let x := r.cols[j]'hj
          let old := (s.hall h).accEntry r.row j
          (t.hall h).accEntry r.row j =
            if Machine.fmtFloat c.fmt = true then
              BitVec.ofNat 64 (Machine.floatJoin f.ctl (c.value.toNat % 2 ^ 32) { bits := x.bits.toNat, flags := x.flags, gen := false } x.nan (old.toNat % 2 ^ 32)).bits
            else if f.ctl = .ACC then ((Machine.Residues.ofEntry old).add (Machine.Residues.ofEntry x.bits)).toEntry else x.bits) ∧
        (∀ n j, n ≠ r.row → j < 128 → (t.hall h).accEntry n j = (s.hall h).accEntry n j) ∧ (t.hall h).work.tiles = (s.hall h).work.tiles ∧
        Spec.AtHall s t h)

/-- R182 to R184, R189 to R192: a completed fill gives its bank its format and its weights, those of an image being flushed where they are subnormal, an N-of-128 column's at
the depths of its lowest mask bits, and zeros elsewhere, the other bank as it was; a completed MACC.RD, MACC.WR, MACC.CVT, MACC.ZERO or MACC.FILL has moved its entries at the
active positions, and tagged the rows that it writes with its context; a row of a MACC.SPILL that is due is written. The other rows and tiles stay as they were, and what is complete
has left the queue. -/
def Sys2Proof.Spec.FillsAndMovesComplete : Prop :=
  ∀ (s : Machine.State) (h : HallId) (c : Machine.MatCmd),
    let H := s.hall h
    let fills := fun (b : Bool) (k : Machine.Bank) (w : Nat → Nat → BitVec 16) => ∃ t, Machine.exec (.weightFillComplete h) s = .next t ∧
      (t.hall h).work.bank b = k ∧ (t.hall h).work.bank (!b) = H.work.bank (!b) ∧
      (∀ d j, d < 128 → j < 512 → (t.hall h).work.weight (Machine.bankIdx b) d j = w d j) ∧
      (∀ d j, d < 128 → j < 512 → (t.hall h).work.weight (Machine.bankIdx !b) d j = H.work.weight (Machine.bankIdx !b) d j) ∧
      (∀ y ∈ (t.hall h).mq, y.id ≠ c.id) ∧ (t.hall h).acc = H.acc ∧ (t.hall h).work.tiles = H.work.tiles ∧
      ∀ a, Machine.Memory.byte t.mem a = Machine.Memory.byte s.mem a
    let reads := fun (bs : Bytes) => ∃ s1, s.engineRead h .matrix c.id c.asid c.part (s.engineReader h .matrix c.part c.floor) c.pages = (.ok bs, s1)
    (H.fillDue = some c →
      (∀ b, c.op = .mwClr b → fills b Machine.Bank.none fun _ _ => 0) ∧
      (∀ fmt b src n, c.op = .mwLoad fmt false b src n → c.staged.Pairwise (·.1 < ·.1) →
        fills b { fmt := some fmt, sparse := .N128 } fun d j => Machine.sget c.staged ((128 * Machine.bankIdx b + d) * 512 + j)) ∧
      (∀ fmt b src n bs, c.op = .mwLoad fmt true b src n → Spec.Uncounted s → reads bs →
        fills b { fmt := some fmt, sparse := .N128 } fun d j =>
          if j < 128 then BitVec.ofNat 16 (Machine.flushed fmt (Machine.blockElem (Machine.fmtBytes fmt) bs (128 * d + j))) else 0) ∧
      (∀ fmt k b n bs, c.op = .mwLoads fmt k b n → Spec.Uncounted s → reads bs →
        fills b { fmt := some fmt, sparse := k } fun d j =>
          let at_ := j * (16 + Machine.sparseN k * Machine.fmtBytes fmt)
          let mask := Machine.leNat ((bs.drop at_).take 16)
          let i := ((List.range d).filter mask.testBit).length
          if j < 128 * Machine.packing k ∧ mask.testBit d = true ∧ i < Machine.sparseN k then
            BitVec.ofNat 16 (Machine.flushed fmt (Machine.blockElem (Machine.fmtBytes fmt) (bs.drop (at_ + 16)) i))
          else 0)) ∧
    (H.spillDue = none → H.maccDue = some c →
      let tagged := fun (t : Machine.State) (a n : Nat) => ∀ r, Machine.sget (t.hall h).accTag r =
        if a ≤ r ∧ r ≤ a + n then BitVec.ofNat 13 (c.asid.toNat + 1) else Machine.sget H.accTag r
      let entries := fun (t : Machine.State) (a n : Nat) (v : Nat → Nat → BitVec 64) => ∀ r j, j < 128 →
        (t.hall h).accEntry r j = if a ≤ r ∧ r ≤ a + n then v (r - a) j else H.accEntry r j
      let elems := fun (t : Machine.State) (src n m : Nat) (k : BitVec 3) (v : Nat → Nat → Nat → Nat) => ∀ u r x, u < 32 → r < 16 → x < 64 →
        (t.hall h).work.elem u 32 r x = if src ≤ u ∧ u < src + m ∧ r ≤ n ∧ H.work.active u k.toNat r x = true then v (u - src) r x else H.work.elem u 32 r x
      (∀ (arow : BitVec 9) (src : BitVec 6) (n : BitVec 7) k, c.op = .maccRd arow src n k →
        ∃ t, Machine.exec (.maccComplete h) s = .next t ∧
          elems t src.toNat n.toNat 4 k (fun u r x => (H.accEntry (arow.toNat + r) (32 * u + x / 2)).toNat / 2 ^ (32 * (x % 2)) % 2 ^ 32) ∧
          (t.hall h).acc = H.acc ∧ (t.hall h).accTag = H.accTag ∧ (∀ y ∈ (t.hall h).mq, y.id ≠ c.id) ∧ Spec.AtHall s t h) ∧
      (∀ (arow : BitVec 9) (src : BitVec 6) (n : BitVec 7) (k : BitVec 3), c.op = .maccWr arow src n k →
        ∃ t, Machine.exec (.maccComplete h) s = .next t ∧ tagged t arow.toNat n.toNat ∧
          entries t arow.toNat n.toNat (fun r j => if H.work.active (src.toNat + j / 32) k.toNat r (2 * (j % 32)) = true then
              BitVec.ofNat 64 (H.work.elem (src.toNat + j / 32) 32 r (2 * (j % 32)) + 2 ^ 32 * H.work.elem (src.toNat + j / 32) 32 r (2 * (j % 32) + 1))
            else H.accEntry (arow.toNat + r) j) ∧
          Spec.SameButMarkers H.work (t.hall h).work ∧ (∀ y ∈ (t.hall h).mq, y.id ≠ c.id) ∧ Spec.AtHall s t h) ∧
      (∀ toF32 (arow : BitVec 9) (src : BitVec 6) (n : BitVec 7) m k, c.op = .maccCvt toF32 arow src n m k →
        let cvt := fun (r x : Nat) => if toF32 = true then Machine.cvtF32 (H.accEntry (arow.toNat + r) x) c.value else Machine.cvtI32 (H.accEntry (arow.toNat + r) x)
        ∃ t, Machine.exec (.maccComplete h) s = .next t ∧ elems t src.toNat n.toNat 2 k (fun u r x => (cvt r (64 * u + x)).bits % 2 ^ 32) ∧
          (t.hall h).acc = H.acc ∧ (t.hall h).accTag = H.accTag ∧ (∀ y ∈ (t.hall h).mq, y.id ≠ c.id) ∧
          ∀ a, Machine.Memory.byte t.mem a = Machine.Memory.byte s.mem a) ∧
      (∀ (arow : BitVec 9) (n : BitVec 7), c.op = .maccZero arow n →
        ∃ t, Machine.exec (.maccComplete h) s = .next t ∧ tagged t arow.toNat n.toNat ∧ entries t arow.toNat n.toNat (fun _ _ => 0) ∧
          Spec.SameButMarkers H.work (t.hall h).work ∧ (∀ y ∈ (t.hall h).mq, y.id ≠ c.id) ∧ Spec.AtHall s t h) ∧
      (∀ (arow : BitVec 9) (n : BitVec 7) m ev eve bs, c.op = .maccFill arow n m ev eve → Spec.Uncounted s → reads bs →
        ∃ t, Machine.exec (.maccComplete h) s = .next t ∧ tagged t arow.toNat n.toNat ∧
          entries t arow.toNat n.toNat (fun r j => BitVec.ofNat 64 (Machine.leNat ((bs.drop (8 * (128 * r + j))).take 8))) ∧
          Spec.SameButMarkers H.work (t.hall h).work ∧ (∀ y ∈ (t.hall h).mq, y.id ≠ c.id) ∧
          (Machine.eventOf c.op = none → (t.hall h).posts = H.posts) ∧
          ∀ e, Machine.eventOf c.op = some e → ∃ p, (t.hall h).posts = H.posts ++ [p] ∧ p.ev = e ∧ p.queue = some .matrix ∧ p.dest = none)) ∧
    (∀ a n, H.spillDue = some (c, a, n) →
      let ps := (c.pages.drop (1024 * c.fed)).take 1024
      s.invalidAt (Machine.groupsCovered c.pages).contains ps = none → ps.Nodup → ps.length = 1024 → (∀ p ∈ ps, Machine.inFabric p = false) →
      ∃ t, Machine.exec (.maccComplete h) s = .next t ∧ (t.hall h).acc = H.acc ∧ (t.hall h).work.tiles = H.work.tiles ∧
        (c.fed + 1 ≠ n → (t.hall h).accTag = H.accTag ∧ ∃ y ∈ (t.hall h).mq, y.id = c.id ∧ y.op = c.op ∧ y.fed = c.fed + 1) ∧
        (c.fed + 1 = n → ∀ y ∈ (t.hall h).mq, y.id ≠ c.id) ∧
        (Spec.Uncounted s → Machine.Memory.wf s.mem = true → (∀ v ∈ s.saved, v.filled c a n = []) →
          ∀ i (hi : i < ps.length), Machine.Memory.byte t.mem ps[i] = BitVec.ofNat 8 ((H.accEntry (a + c.fed) (i / 8)).toNat / 2 ^ (8 * (i % 8)))))

/-- R118, R179, R187: a matrix command whose conditions hold starts; an MMA's next row is fed, its results due 140 Hall cycles on; when its last row has
been fed its event is posted; a row that is due is written and takes the context's tag, each entry the pass's sum, or what its control makes of the
sum and the old entry, and no other row changes. R182 to R184, R189 to R192: a completed fill gives its bank its format and its weights, those of an
image being flushed where they are subnormal, an N-of-128 column's at the depths of its lowest mask bits, and zeros elsewhere, the other bank as it
was; a completed MACC.RD, MACC.WR, MACC.CVT, MACC.ZERO or MACC.FILL has moved its entries at the active positions, and tagged the rows that it writes
with its context; a row of a MACC.SPILL that is due is written. The other rows and tiles stay as they were, and what is complete has left the queue. -/
def Obligations.MatrixEngineSteps : Prop := Spec.MatrixSteps ∧ Spec.FillsAndMovesComplete

/-- R302, R309, R383, R387 to R390, R400: a walk that has ended installs its translation in the caches of its Halls; an invalidation that can complete drops the entries that it names and is over; PART.XINV begins one, but not
for WHAT 11 or while one is under way; the supervisor makes a hold walk again, or fails it, with 0x80 added to DETAIL; a read of PART.EVQ takes the oldest event; SPILL.BASE takes its value only while the ring is empty; the other
registers of the window take theirs. -/
def Obligations.TranslationAndWindow : Prop :=
  ∀ (s : Machine.State) (p : PartId),
    (∀ w e tr, s.walks.find? (fun x => x.id == w.id && (match x.endsAt with | some t => decide (t ≤ s.tick) | none => false)) = some w → w.endsAt = some e →
      s.tableWalk w.part w.asid w.addr = .ok tr →
      ∃ t, Machine.exec (.walkComplete w.id) s = .next t ∧ (∀ x ∈ t.walks, x.id ≠ w.id) ∧ t.mem = s.mem ∧
        ∀ h ∈ w.halls, (t.hall h).work = (s.hall h).work ∧
          (tr.page = true → ∃ x ∈ (t.hall h).pages, x.asid = w.asid ∧ x.vbase = tr.vbase ∧ x.vend = tr.vend ∧ x.pbase = tr.pbase) ∧
          (tr.page = false → ∃ x ∈ (t.hall h).ranges, x.asid = w.asid ∧ x.vbase = tr.vbase ∧ x.vend = tr.vend ∧ x.pbase = tr.pbase)) ∧
    (∀ x, (s.part p).xinv = some x → s.xinvReady x = true →
      ∃ t, Machine.exec (.invalidationComplete p) s = .next t ∧ (t.part p).xinv = none ∧ t.mem = s.mem ∧
        ∀ h, (t.hall h).work = (s.hall h).work ∧ ((s.part p).halls.getLsbD h.toNat = true →
          (x.what ≠ 2 → ∀ e ∈ (t.hall h).ranges, e.asid ≠ x.asid) ∧ (x.what ≠ 1 → ∀ e ∈ (t.hall h).pages, e.asid ≠ x.asid))) ∧
    (∀ v : Word, (v.extractLsb' 12 2 ≠ 3 ∧ (s.part p).xinv = none →
        ∃ t x, Machine.exec (.partXinv p v) s = .next t ∧ (t.part p).xinv = some x ∧ x.asid = v.extractLsb' 0 12 ∧ x.what = v.extractLsb' 12 2 ∧ t.halls = s.halls) ∧
      (v.extractLsb' 12 2 = 3 ∨ (s.part p).xinv.isSome = true → ∃ t, Machine.exec (.partXinv p v) s = .next t ∧ t = s)) ∧
    (∀ (tag : Byte) w, s.walks.find? (fun x => x.hold == some tag.toNat && x.part == p) = some w →
      (∀ x ∈ s.walks, x.hold = some tag.toNat → x.part = p → x.id = w.id) →
      (∃ t y, Machine.exec (.xsvcWalkAgain p tag) s = .next t ∧ y ∈ t.walks ∧ y.id = w.id ∧ y.hold = none ∧
        (∀ x ∈ t.walks, ¬(x.hold = some tag.toNat ∧ x.part = p)) ∧ t.halls = s.halls ∧
        (w.halls ≠ [] → s.busyWalkers w.plinth < 32 → (∀ x ∈ s.walks, x.endsAt = none → x.hold = none → x.plinth ≠ w.plinth) →
          ∃ e, y.endsAt = some e ∧ s.tick < e) ∧
        (32 ≤ s.busyWalkers w.plinth → w.endsAt = none → y.endsAt = none)) ∧
      (w.engine = false → ∃ t, Machine.exec (.xsvcFail p tag) s = .next t ∧ (∀ x ∈ t.walks, x.id ≠ w.id) ∧
        ∀ h ∈ w.halls, ∃ f ∈ (t.hall h).walkFaults, f.asid = w.asid ∧ f.key = w.addr / 2 ^ 19 ∧ 128 ≤ f.info.detail ∧ f.info.detail < 256)) ∧
    (∀ e rest, (s.part p).evq = e :: rest → rest.length < 256 →
      ∃ t, Machine.exec (.partEvqRead p) s = .next t ∧ (t.part p).evq = rest ∧ (t.part p).evarg = e.arg ∧ t.halls = s.halls ∧ t.mem = s.mem) ∧
    (∀ v, ∃ t, Machine.exec (.spillBaseWrite p v) s = .next t ∧ t.halls = s.halls ∧ t.mem = s.mem ∧
      ((s.part p).spillHead = (s.part p).spillTail → (t.part p).spillBase = (v &&& 0x000FFFFFFFFFF01F#64) ∧ (t.part p).spillHead = 0 ∧ (t.part p).spillTail = 0) ∧
      ((s.part p).spillHead ≠ (s.part p).spillTail → t.part p = s.part p)) ∧
    (∀ v, ∃ t1 t2 t3 t4 t5 t6,
      (Machine.exec (.controlRegisterWrite p 0x0000 v) s = .next t1 ∧ t1.part p = { s.part p with mode := v.setWidth 5 } ∧ t1.halls = s.halls) ∧
      (Machine.exec (.controlRegisterWrite p 0x0040 v) s = .next t2 ∧ t2.part p = { s.part p with saveBase := v &&& 0x000FFFFFFFFFF000#64 } ∧ t2.halls = s.halls) ∧
      (Machine.exec (.controlRegisterWrite p 0x0048 v) s = .next t3 ∧ t3.part p = { s.part p with saveSize := v &&& 0x000FFFFFFFFFF000#64 } ∧ t3.halls = s.halls) ∧
      (Machine.exec (.controlRegisterWrite p 0x0078 v) s = .next t4 ∧ t4.part p = { s.part p with migcfg := v.setWidth 17 } ∧ t4.halls = s.halls) ∧
      (Machine.exec (.controlRegisterWrite p 0x0018 v) s = .next t5 ∧ t5 = s) ∧
      (Machine.exec (.controlRegisterWrite p 0x0008 v) s = .next t6 ∧ (t6.part p).drain = v.setWidth 32 ∧ (t6.part p).ckwin ≠ 0 ∧ (t6.part p).pmin ≠ 0 ∧
        (v.extractLsb' 32 16 ≠ 0 → (t6.part p).ckwin = v.extractLsb' 32 16) ∧ (v.extractLsb' 48 4 ≠ 0 → (t6.part p).pmin = v.extractLsb' 48 4) ∧ t6.halls = s.halls)) ∧
    (∀ v, let page := v &&& 0x000FFFFFFFFFF000#64
      let puts := fun (off : BitVec 24) (P : Machine.Part) => ∃ t, Machine.exec (.controlRegisterWrite p off v) s = .next t ∧ t.part p = P ∧ t.halls = s.halls ∧
        (∀ q, q ≠ p → t.part q = s.part q) ∧ t.mem = s.mem
      puts 0x0020 (s.part p) ∧ puts 0x0060 (s.part p) ∧ puts 0x0068 (s.part p) ∧
      puts 0x0080 { s.part p with hotmap := page } ∧ puts 0x0088 { s.part p with arq := page } ∧
      puts 0x0090 (if (v.extractLsb' 32 32).toNat ≤ (s.part p).arTail.toNat then { s.part p with arHead := v.extractLsb' 32 32 } else s.part p) ∧
      puts 0x00A0 (if s.partRuns p = true then s.part p
        else { s.part p with fabGroup := v.extractLsb' 0 16, fabNmod := v.extractLsb' 16 7, fabIndex := v.extractLsb' 24 6 }) ∧
      (∀ k, k < 64 → puts (BitVec.ofNat 24 (0x100 + 8 * k))
        (if s.partRuns p = true then s.part p else { s.part p with routes := (s.part p).routes.setIfInBounds k (v &&& 0x00000000FFFF0FFF#64) })) ∧
      (∀ (a : Asid) i, i < 8 → (s.part p).asids.getLsbD a.toNat = false → puts (BitVec.ofNat 24 (0x10000 + 64 * a.toNat + 8 * i)) (s.part p)) ∧
      (∀ (a : Asid) i, i < 8 → (s.part p).asids.getLsbD a.toNat = true →
        ∃ t, Machine.exec (.controlRegisterWrite p (BitVec.ofNat 24 (0x10000 + 64 * a.toNat + 8 * i)) v) s = .next t ∧ t.halls = s.halls ∧ t.mem = s.mem ∧
          (t.part p).ctxUsed = (s.part p).ctxUsed ∧
          (∀ n, n ≠ 8 * a.toNat + i → Machine.sget (t.part p).ctxRecs n = Machine.sget (s.part p).ctxRecs n) ∧
          (i = 0 → (Machine.sget (t.part p).ctxRecs (8 * a.toNat)).getLsbD 0 = v.getLsbD 0 ∧
            ((∀ b : Asid, b ≠ a → (s.ctxWord p b 0).getLsbD 1 = false) → Machine.sget (t.part p).ctxRecs (8 * a.toNat) = v &&& 3#64) ∧
            (∀ b : Asid, b ≠ a → (s.ctxWord p b 0).getLsbD 1 = true → (Machine.sget (t.part p).ctxRecs (8 * a.toNat)).getLsbD 1 = false)) ∧
          (i = 1 → Machine.sget (t.part p).ctxRecs (8 * a.toNat + i) = v &&& 0x00000FFFFFFFFFC0#64) ∧
          (i = 2 → (Machine.sget (t.part p).ctxRecs (8 * a.toNat + i)).toNat = min v.toNat 256) ∧
          (i = 3 → Machine.sget (t.part p).ctxRecs (8 * a.toNat + i) = v &&& 0x00000FFFFFFFC000#64) ∧
          (4 ≤ i → Machine.sget (t.part p).ctxRecs (8 * a.toNat + i) = 0)) ∧
      (∀ k, k < 0x800 →
        ∃ t, Machine.exec (.controlRegisterWrite p (BitVec.ofNat 24 (0x80000 + 8 * k)) v) s = .next t ∧ t.halls = s.halls ∧ t.mem = s.mem ∧
          (k % 8 ≠ 0 → k % 8 ≠ 7 → Machine.sget (t.part p).mrDescs k = v) ∧
          (∀ n, n ≠ k → Machine.sget (t.part p).mrDescs n = Machine.sget (s.part p).mrDescs n)))

/-- R300, R304, R305, R314, R323: a free Hall starts the fresh record that it selects, its strands at the descriptor's entries, its budget 256 times the packet's; the strands of a slice without fills resume in the next Hall cycle; a deadline that
has passed is told once to the host; a ready record that outranks the running slice by PMIN makes a pre-emption decision, whose policy is drain when the aged estimate of
the last CKPT is below DRAIN, otherwise kill of a restartable slice, otherwise checkpoint; with PRE = 1 it is told to the supervisor and nothing else happens; a pre-emption that nothing calls for any more is cancelled; a checkpoint window that is over makes the slice leave by a full save. -/
def Sys2Proof.Spec.SlicesStartAndLeave : Prop :=
  ∀ (s : Machine.State) (h : HallId),
    (∀ p r pk raw rank inst d shapes s1, (s.hall h).slice = none → (s.hall h).part = some p → s.running = true →
      (s.hall h).deque.find? (fun r => !s.heldBack r && s.fitsHall h r) = some r → r.what = .fresh pk raw rank inst → s.refusalWaits h p r = false →
      let s0 := { s.takeRecord h r with nextSlice := s.nextSlice + 1 }
      s0.readKd (s0.whoIs h p pk.asid) pk.kd = (.ok (d, shapes), s1) →
      ∃ t sl, Machine.exec (.sliceSelect h) s = .next t ∧ (t.hall h).slice = some sl ∧ sl.id = s.nextSlice ∧ sl.packet = pk ∧ sl.asid = pk.asid ∧ sl.rank = rank ∧
        sl.late = r.late ∧ sl.left = 256 * pk.budget ∧ sl.regions = [] ∧ (t.strand h .S).pc = Machine.wordAt d 0 ∧ (t.strand h .L).pc = Machine.wordAt d 8 ∧
        (t.strand h .V).pc = Machine.wordAt d 24 ∧ (t.strand h .M).pc = Machine.wordAt d 16) ∧
    (∀ sl, (s.hall h).slice = some sl → (s.hall h).restore = .begin → (s.hall h).trap = none → (s.hall h).switch = none → sl.fills = [] →
      ∃ t, Machine.exec (.sliceResume h) s = .next t ∧ (t.hall h).restore = .off ∧
        ∀ st, (t.strand h st).notBefore = (s.hall h).cycle + 1 ∧ (t.strand h st).pc = (s.strand h st).pc ∧ (t.strand h st).s = (s.strand h st).s) ∧
    (∀ p sl, (s.hall h).part = some p → (s.hall h).slice = some sl → sl.late = false → sl.packet.deadlineKind = true → sl.packet.lo.toNat < s.devtime →
      ∃ t x, Machine.exec (.deadlinePassed h) s = .next t ∧ (t.hall h).slice = some { sl with late := true } ∧ x ∈ t.outbox ∧
        x.msg = .interruptToHost (p.setWidth 8) 1 (Machine.leBytes 8 h.toNat ++ Machine.leBytes 2 sl.asid.toNat ++ Machine.leBytes 2 4) ∧ Spec.AtHall s t h) ∧
    (∀ sl e, (s.hall h).slice = some sl → (s.hall h).switch = none → (s.hall h).preempt = some e → s.outranked h = false →
      ∃ t, Machine.exec (.preEmptionDecision h) s = .next t ∧ t.hall h = { s.hall h with preempt := none } ∧ Spec.AtHall s t h) ∧
    (∀ sl r, (s.hall h).slice = some sl → (s.hall h).switch = none → (s.hall h).preempt = none → sl.supervisor = false → r ∈ (s.hall h).deque →
      sl.packet.prio + (s.part sl.part).pmin.toNat ≤ r.prio →
      let pol : Machine.Policy := match sl.estimate with
        | some (e, told) => if e - (s.devtime - told) < (s.part sl.part).drain.toNat then .drain else if sl.packet.restart = true then .kill else .checkpoint
        | none => if sl.packet.restart = true then .kill else .checkpoint
      ((s.part sl.part).mode.getLsbD 2 = false →
        (pol ≠ .kill ∨ (s.hall h).trap ≠ none →
          ∃ t, Machine.exec (.preEmptionDecision h) s = .next t ∧ Spec.AtHall s t h ∧
            t.hall h = { s.hall h with preempt := some { policy := pol, asked := false, left := (s.part sl.part).ckwin.toNat * 5544000, lastTick := s.tick } }) ∧
        (pol = .kill → (s.hall h).trap = none →
          ∃ t w, Machine.exec (.preEmptionDecision h) s = .next t ∧ (t.hall h).switch = some w ∧ w.how = .kill ∧ (t.hall h).preempt = none ∧
            (t.hall h).work = (s.hall h).work ∧ Spec.AtHall s t h)) ∧
      ((s.part sl.part).mode.getLsbD 2 = true → (s.part sl.part).evq.length < 256 →
        ∃ t, Machine.exec (.preEmptionDecision h) s = .next t ∧ (t.hall h).preempt = some { policy := pol, asked := true, left := 0, lastTick := s.tick } ∧
          (t.part sl.part).evq = (s.part sl.part).evq ++
            [{ kind := 2, hall := h.toNat, asid := sl.asid.toNat, tag := 0, pol := (match pol with | .drain => 0 | .checkpoint => 1 | .kill => 2), detail := 0, arg := 0 }] ∧
          (t.hall h).switch = none ∧ t.mem = s.mem ∧ ∀ g, (t.hall g).work = (s.hall g).work)) ∧
    (∀ sl e, (s.hall h).slice = some sl → (s.hall h).preempt = some e → e.policy = .checkpoint → e.asked = false → e.left = 0 → (s.hall h).trap = none →
      (s.hall h).switch = none →
      ∃ t w, Machine.exec (.checkpointWindowExpiry h) s = .next t ∧ (t.hall h).switch = some w ∧ w.how = .full ∧ (t.hall h).preempt = none ∧
        (t.hall h).work = (s.hall h).work ∧ Spec.AtHall s t h)

/-- R93, R94, R210, R392, R394, R395: a trap record is complete once the strands have stopped; a complete one enters the trap queue of its partition with
the Hall, the cause, the program counters and the address; the oldest is opened and fills the trap registers; a read of NTSTAT clears it; a threshold
window that is over begins again; ERRINJ takes its fields. R300, R304, R305, R314, R323: a free Hall starts the fresh record that it selects, its
strands at the descriptor's entries, its budget 256 times the packet's; the strands of a slice without fills resume in the next Hall cycle; a deadline
that has passed is told once to the host; a ready record that outranks the running slice by PMIN makes a pre-emption decision, whose policy is drain
when the aged estimate of the last CKPT is below DRAIN, otherwise kill of a restartable slice, otherwise checkpoint; with PRE = 1 it is told to the
supervisor and nothing else happens; a pre-emption that nothing calls for any more is cancelled; a checkpoint window that is over makes the slice
leave by a full save. -/
def Obligations.RecordsAndSlices : Prop := Spec.RecordsAndSliceRegisters ∧ Spec.SlicesStartAndLeave

/-- R306, R310: an idle Hall asks its next victim; a victim that holds a record for it gives it; one that has none, but runs a bulk slice with two indices or more left, keeps the lower half of
their range, the larger where they differ, and gives the upper half as a fresh slice of the same packet, rank and instance (R217, R307); and one that has nothing refuses, so that the next is asked; after the last refusal the round begins again once its time has come; a spilled entry
comes back to a Hall with room. -/
def Sys2Proof.Spec.StealsAndSpills : Prop :=
  ∀ (s : Machine.State) (h : HallId),
    (∀ a, s.idle h = true → (s.hall h).stealAt = some a → a ≤ (s.hall h).cycle → (s.hall h).asking = false → (s.hall h).stealIdx < (s.victims h).length →
      ∃ t, Machine.exec (.stealRequest h) s = .next t ∧ t.hall h = { s.hall h with asking := true } ∧ Spec.AtHall s t h) ∧
    (∀ v, (s.hall h).asking = true → (s.victims h)[(s.hall h).stealIdx]? = some v → s.idle h = true →
      (∀ p r, (s.hall v).part = some p → s.spare p v = some r → (∀ i ∈ s.insts, i.wants = false) →
        ∃ t x, Machine.exec (.stealServe v h) s = .next t ∧ (t.hall h).deque = [x] ∧ x.what = r.what ∧ x.prio = r.prio ∧ (t.hall h).asking = false ∧
          ∀ y ∈ (t.hall v).deque, v ≠ h → y.seq ≠ r.seq) ∧
      ((s.hall v).part = none ∨ (∃ p, (s.hall v).part = some p ∧ s.spare p v = none ∧ (s.hall v).splittable = none) →
        ∃ t, Machine.exec (.stealServe v h) s = .next t ∧ (t.hall h).asking = false ∧ (t.hall h).stealIdx = (s.hall h).stealIdx + 1 ∧
          (t.hall h).deque = (s.hall h).deque ∧ Spec.AtHall s t h) ∧
      (∀ p sl, (s.hall v).part = some p → s.spare p v = none → (s.hall v).slice = some sl → sl.packet.deadlineKind = false → sl.supervisor = false →
        (s.hall v).switch = none → (s.hall v).trap = none → (s.ctx sl.asid).freezing = none → sl.raw.length = 64 →
        (Machine.Packet.ofBytes sl.raw).deadlineKind = false →
        let mid := sl.lo + BitVec.ofNat 64 (((sl.hi - sl.lo).toNat + 1) / 2)
        (2 ≤ (sl.hi - sl.lo).toNat →
          ∃ t x raw, Machine.exec (.stealServe v h) s = .next t ∧ (t.hall v).slice = some { sl with hi := mid } ∧ (t.hall v).work = (s.hall v).work ∧
            (t.hall v).deque = (s.hall v).deque ∧ (t.hall h).deque = [x] ∧ (t.hall h).asking = false ∧
            x.what = .fresh { Machine.Packet.ofBytes sl.raw with lo := mid, hi := sl.hi } raw sl.rank sl.inst ∧
            (∀ i ∈ s.insts, i.id = sl.inst → ∃ j ∈ t.insts, j.id = i.id ∧ j.live = i.live + 1) ∧ t.mem = s.mem ∧ ∀ g, g ≠ v → g ≠ h → t.hall g = s.hall g) ∧
        ((sl.hi - sl.lo).toNat < 2 → ∃ t, Machine.exec (.stealServe v h) s = .next t ∧ (t.hall h).stealIdx = (s.hall h).stealIdx + 1 ∧
          (t.hall h).deque = (s.hall h).deque ∧ Spec.AtHall s t h))) ∧
    (∀ a, (s.hall h).stealAt = some a → a ≤ (s.hall h).cycle → (s.hall h).asking = false → (s.victims h).length ≤ (s.hall h).stealIdx → 0 < (s.hall h).stealIdx →
      ∃ t, Machine.exec (.stealRetryWait h) s = .next t ∧ t.hall h = { s.hall h with stealIdx := 0 } ∧ Spec.AtHall s t h) ∧
    (∀ p e, (s.hall h).part = some p → (s.hall h).deque.length < 64 → (s.part p).spilled.find? (fun e => e.hall == h && !e.taken) = some e →
      (∀ i ∈ s.insts, i.wants = false) →
      ∃ t, Machine.exec (.spillEntryReturn h) s = .next t ∧ e.rec_ ∈ (t.hall h).deque ∧ (t.hall h).deque.length = (s.hall h).deque.length + 1 ∧
        ∀ g, g ≠ h → t.hall g = s.hall g)

/-- R313: the supervisor's decision for a Hall of its partition that has asked for one: drain and checkpoint are noted, kill makes a restartable slice leave, once no trap has it stopped, and is a checkpoint for another, cancel ends the pre-emption. A decision
that nothing asks for does nothing. -/
def Sys2Proof.Spec.PreemptionDecisions : Prop :=
  ∀ (s : Machine.State) (p : PartId) (h : HallId),
    (∀ e sl, (s.hall h).preempt = some e → e.asked = true → (s.hall h).part = some p → (s.hall h).slice = some sl →
      (∃ t x, Machine.exec (.predecDrain p h) s = .next t ∧ (t.hall h).preempt = some x ∧ x.policy = .drain ∧ x.asked = false ∧
        (t.hall h).work = (s.hall h).work ∧ Spec.AtHall s t h) ∧
      (∃ t x, Machine.exec (.predecCheckpoint p h) s = .next t ∧ (t.hall h).preempt = some x ∧ x.policy = .checkpoint ∧ x.asked = false ∧
        x.left = (s.part sl.part).ckwin.toNat * 5544000 ∧ (t.hall h).work = (s.hall h).work ∧ Spec.AtHall s t h) ∧
      (sl.packet.restart = true → (s.hall h).trap = none →
        ∃ t w, Machine.exec (.predecKill p h) s = .next t ∧ (t.hall h).switch = some w ∧ w.how = .kill ∧ (t.hall h).preempt = none ∧ Spec.AtHall s t h) ∧
      (sl.packet.restart = true → (s.hall h).trap ≠ none →
        ∃ t x, Machine.exec (.predecKill p h) s = .next t ∧ (t.hall h).preempt = some x ∧ x.policy = .kill ∧ x.asked = false ∧ Spec.AtHall s t h) ∧
      (sl.packet.restart = false →
        ∃ t x, Machine.exec (.predecKill p h) s = .next t ∧ (t.hall h).preempt = some x ∧ x.policy = .checkpoint ∧ Spec.AtHall s t h) ∧
      ∃ t, Machine.exec (.predecCancel p h) s = .next t ∧ t.hall h = { s.hall h with preempt := none } ∧ Spec.AtHall s t h) ∧
    (∀ i, (i = .predecDrain p h ∨ i = .predecCheckpoint p h ∨ i = .predecKill p h ∨ i = .predecCancel p h) →
      ((s.hall h).preempt = none ∨ (s.hall h).part ≠ some p ∨ ∃ e, (s.hall h).preempt = some e ∧ e.asked = false) →
      ∃ t, Machine.exec i s = .next t ∧ t = s)

/-- R306, R310: an idle Hall asks its next victim; a victim that holds a record for it gives it; one that has none, but runs a bulk slice with two indices
or more left, keeps the lower half of their range, the larger where they differ, and gives the upper half as a fresh slice of the same packet, rank
and instance (R217, R307); and one that has nothing refuses, so that the next is asked; after the last refusal the round begins again once its time
has come; a spilled entry comes back to a Hall with room. R313: the supervisor's decision for a Hall of its partition that has asked for one: drain
and checkpoint are noted, kill makes a restartable slice leave, once no trap has it stopped, and is a checkpoint for another, cancel ends the
pre-emption. A decision that nothing asks for does nothing. -/
def Obligations.StealsSpillsAndDecisions : Prop := Spec.StealsAndSpills ∧ Spec.PreemptionDecisions

/-! The device's own events (R248 to R264, R416, R421, R427) and the messages of Hirothlink (R404 to R426). -/

namespace Sys2Proof.Spec
open Sys2Proof.Machine

/-- The last message on its way out. -/
def Says (t : State) (m : Instr) : Prop := ∃ x, t.outbox.getLast? = some x ∧ x.msg = m

/-- A request has been answered as carried out, with a value. -/
def Accepts (t : State) (tag : BitVec 16) (v : Word) : Prop := Says t (.response tag 0 0 0 v)

/-- A request has been refused with a reason code; nothing else has changed. -/
def Declines (s t : State) (tag : BitVec 16) (code : Nat) : Prop := Says t (.response tag 1 0 0 (BitVec.ofNat 64 code)) ∧ t = { s with outbox := t.outbox }

/-- A request has been refused, with a reason code that the manual does not give; nothing else has changed but the count of free values (log 6). -/
def Refuses (s t : State) (tag : BitVec 16) : Prop := (∃ v, Says t (.response tag 1 0 0 v)) ∧ t = { s with outbox := t.outbox, free := t.free }

/-- An answer to a module goes out over a port: to the host's side, or to another module. -/
def Outward (s : State) (src : BitVec 16) : Prop := src = 0 ∨ src ≠ s.modid

/-- A request of another member is answered with a fault (R409, R414). -/
def Faults (t : State) (tag : BitVec 16) (f : TrapInfo) : Prop :=
  Says t (.response tag 3 (BitVec.ofNat 8 (causeCode f.cause)) (BitVec.ofNat 8 f.detail) 0)

/-- Memory holds these bytes, where no place is named twice, and is otherwise as before. -/
def Puts (s t : State) (cs : List Host.Cell) : Prop :=
  ((cs.map (·.1)).Nodup → ∀ c ∈ cs, Memory.byte t.mem c.1 = c.2) ∧ ∀ a, a ∉ cs.map (·.1) → Memory.byte t.mem a = Memory.byte s.mem a

/-- A response completes the data of the slot that its request fills; no register changes yet (R24, R414). -/
def Brings (s : State) (tag : BitVec 16) (v : Word) (r : FabReq) (q : Slot) (us : List Upd) : Prop :=
  ∃ t y, exec (.response tag 0 0 0 v) s = .next t ∧ y ∈ (t.strand r.hall r.strand).slots ∧ y.seq = q.seq ∧ y.fault = none ∧ y.data = some us ∧
    (∀ x ∈ t.fabReqs, x.tag ≠ tag.toNat) ∧ (t.strand r.hall r.strand).s = (s.strand r.hall r.strand).s

/-- The number of a boost level, 0 for nominal (R209, R427). -/
def levelNo : Level → Nat
  | .nominal => 0 | .B1 => 1 | .B2 => 2

/-- What the one Hall that asks is granted while the module's power is within its limit (R427, R429): no more than it asks, than the pool allows, and at
2,950 W or above no more than B1. The pool pays for it; the others run at nominal. -/
def Boosted (s t : State) (d : BitVec 5) (g : HallId) (power : Nat) : Prop :=
  let permits := (s.domains[d.toNat]'d.isLt).permits
  let n := min (min (levelNo (s.hall g).boostReq) (if 8 ≤ permits then 2 else if 1 ≤ permits then 1 else 0)) (if 2950 < power then 1 else 2)
  (t.domains[d.toNat]'d.isLt).permits = permits - n ∧ (t.domains[d.toNat]'d.isLt).last = some (g.toNat % 8) ∧
    (t.hall g).levelTicks = (if n = 0 then 3960 else if n = 1 then 3465 else 3080) ∧ (t.hall g).boostGrant = BitVec.ofNat 2 n ∧
    ∀ k, k.toNat / 8 = d.toNat → k ≠ g → (t.hall k).levelTicks = 3960 ∧ (t.hall k).boostGrant = 0

end Sys2Proof.Spec

/-- R244 to R246, R251, R256 to R261: an age step that is due makes each listed row group of its gallery that is valid and not held one unit older: at its budget, or where its retention ends, it is
invalid and its request withdrawn, at its request point it asks for a refresh, and otherwise nothing else of it changes; invalid and held ones stay as they are, and those of the device's own pool stay of class P and valid; its unlisted ones age together (log 31). A refresh
makes a valid one young again and withdraws its request; a heartbeat is noted; after twelve age steps without one the controller goes autonomous and begins a sweep, and another 1,024 units later; a sweep, in each age unit, refreshes
of the next 18 row groups (the pace, with which it ends within 960 units, is the model's choice: log 31) those that are valid, of class P or policy REFRESH and older than 4,096, and no others; a rejoin heartbeat ends autonomous mode, at once between two sweeps and else at the end of the sweep. -/
def Sys2Proof.Spec.LifetimesGoOn : Prop :=
  ∀ (s : Machine.State) (h : HallId),
    (s.ageDue h = true → (s.rowGroups.map (·.1)).Nodup →
      ∃ t, Machine.exec (.ageStep h) s = .next t ∧ (t.hall h).noBeat = (s.hall h).noBeat + 1 ∧ (t.hall h).ageTick = (s.hall h).stepAt ∧
        (t.hall h).sinceSweep = (s.hall h).sinceSweep + 1 ∧
        (∀ g, g ∈ s.rowGroups.map (·.1) → g / 16384 = h.toNat → s.inPool (Machine.galleryTop + 4096 * g) = false →
          (s.rowGroup g).valid = true → (s.rowGroup g).held = false →
          let v := { s.rowGroup g with age := (s.rowGroup g).age + 1 }
          (20480 ≤ v.age ∨ v.over = true → (t.rowGroup g).valid = false ∧ (t.rowGroup g).req = false ∧ (t.rowGroup g).owner = v.owner) ∧
          (v.age < 20480 → v.over = false →
            t.rowGroup g = { v with req := v.req || Machine.requestPoint v.cls v.pol == some v.age })) ∧
        (∀ g, (s.rowGroup g).valid = false ∨ (s.rowGroup g).held = true → t.rowGroup g = s.rowGroup g) ∧
        (∀ g, s.inPool (Machine.galleryTop + 4096 * g) = true → (t.rowGroup g).cls = .P ∧ (t.rowGroup g).valid = true) ∧
        (∀ g, g ∉ s.rowGroups.map (·.1) → g / 16384 = h.toNat → s.inPool (Machine.galleryTop + 4096 * g) = true → (s.hall h).poolAge < 32767 →
          (t.rowGroup g).age = (s.rowGroup g).age + 1 ∧ (t.rowGroup g).req = ((s.rowGroup g).req || (t.rowGroup g).age == 8192)) ∧
        ∀ a, Machine.Memory.byte t.mem a = Machine.Memory.byte s.mem a) ∧
    (∀ g : BitVec 22,
      ((s.rowGroup g.toNat).valid = true →
        ∃ t, Machine.exec (.refresh g) s = .next t ∧ t.rowGroup g.toNat = { s.rowGroup g.toNat with age := 0, req := false } ∧
          (∀ k, k ≠ g.toNat → t.rowGroup k = s.rowGroup k) ∧ t.poison = s.poison ∧ ∀ a, Machine.Memory.byte t.mem a = Machine.Memory.byte s.mem a) ∧
      ((s.rowGroup g.toNat).valid = false → Machine.exec (.refresh g) s = .next s)) ∧
    (∃ t, Machine.exec (.heartbeat h) s = .next t ∧ t.hall h = { s.hall h with noBeat := 0 } ∧ Spec.AtHall s t h) ∧
    (12 ≤ (s.hall h).noBeat → (s.hall h).auto = false →
      ∃ t, Machine.exec (.autonomousMode h) s = .next t ∧ t.hall h = { s.hall h with auto := true, rejoin := false, sweeping := some 0, sinceSweep := 0 } ∧ Spec.AtHall s t h) ∧
    ((s.hall h).auto = true →
      (∀ k, (s.hall h).sweeping = some k →
        ∃ t, Machine.exec (.rejoinHeartbeat h) s = .next t ∧ t.hall h = { s.hall h with rejoin := true, noBeat := 0 } ∧ Spec.AtHall s t h) ∧
      ((s.hall h).sweeping = none →
        ∃ t, Machine.exec (.rejoinHeartbeat h) s = .next t ∧ t.hall h = { s.hall h with auto := false, rejoin := false, noBeat := 0 } ∧ Spec.AtHall s t h)) ∧
    ((s.hall h).auto = true → (s.hall h).sweeping = none → (s.hall h).rejoin = false → 1024 ≤ (s.hall h).sinceSweep →
      ∃ t, Machine.exec (.sweep h) s = .next t ∧ t.hall h = { s.hall h with sweeping := some 0, sinceSweep := 0 } ∧ Spec.AtHall s t h) ∧
    (∀ k, (s.hall h).sweeping = some k → (s.rowGroups.map (·.1)).Nodup →
      let t := s.sweepStep h
      (t.hall h).sweeping = some (k + 18) ∧ (t.hall h).auto = (s.hall h).auto ∧ (∀ o, o ≠ h → t.hall o = s.hall o) ∧
        (∀ a, Machine.Memory.byte t.mem a = Machine.Memory.byte s.mem a) ∧
        ∀ g, g ∈ s.rowGroups.map (·.1) ∨ s.inPool (Machine.galleryTop + 4096 * g) = false →
          let v := s.rowGroup g
          let due := g / 16384 = h.toNat ∧ k ≤ g % 16384 ∧ g % 16384 < k + 18 ∧ v.valid = true ∧ (v.cls = .P ∨ v.pol = .REFRESH) ∧ 4096 < v.age
          (due → t.rowGroup g = { v with age := 0, req := false }) ∧ (¬due → t.rowGroup g = v)) ∧
    (∀ k, (s.hall h).sweeping = some k → 16384 ≤ k →
      ∃ t, Machine.exec (.sweepEnd h) s = .next t ∧ (t.hall h).sweeping = none ∧
        (t.hall h).auto = ((s.hall h).auto && !(s.hall h).rejoin) ∧ (t.hall h).rejoin = false ∧ Spec.AtHall s t h)

/-- R248 to R250, R264, R416, R421, R422, R427, R429: a temperature is read each whole microsecond, and the first reading sets the band of its temperature, a later one a higher band at once and a lower one only two degrees below its own band; a wipe that is over is over; a device reset leaves no slice, no partition and memory of zeros at device time 0, and keeps the life-cycle
state (that it also keeps the module identifier is the model's choice: log 5; so are the values that a Hall and a partition have after it where the manual gives none, registers of 0 and no partition among them: logs 3 and 35); access counters are halved each millisecond; a domain with a Hall of band 13 or above is throttled for its interval, one in which no Hall asks for a boost runs at nominal, and in a cool one within its power the Hall that asks is granted what it asks and the pool allows, which is charged for it. -/
def Sys2Proof.Spec.DeviceEvents : Prop :=
  ∀ (s : Machine.State) (h : HallId),
    ((s.hall h).readingDue = true →
      ∃ t, Machine.exec (.temperatureReading h) s = .next t ∧ (t.hall h).tempC = Config.sensor h.toNat ((s.hall h).readings + 1) ∧ (t.hall h).firstRead = true ∧
        (t.hall h).readings = (s.hall h).readings + 1 ∧ (t.hall h).ageTick = 5544000 * (t.hall h).readings ∧
        ((s.hall h).firstRead = false → (t.hall h).band = Machine.bandOf (t.hall h).tempC.toNat) ∧
        ((s.hall h).firstRead = true → (s.hall h).band < Machine.bandOf (t.hall h).tempC.toNat → (t.hall h).band = Machine.bandOf (t.hall h).tempC.toNat) ∧
        ((s.hall h).firstRead = true → (t.hall h).tempC.toNat < Machine.bandLow (s.hall h).band → Machine.bandLow (s.hall h).band < (t.hall h).tempC.toNat + 2 →
          (t.hall h).band = (s.hall h).band) ∧
        (t.hall h).work = (s.hall h).work ∧ Spec.AtHall s t h) ∧
    (∀ e, (s.hall h).wipeEnds = some e → e ≤ s.tick →
      ∃ t, Machine.exec (.wipeComplete h) s = .next t ∧ t.hall h = { s.hall h with wipeEnds := none } ∧ Spec.AtHall s t h) ∧
    (∃ t, Machine.exec .deviceReset s = .next t ∧ t.tick = 0 ∧ t.life = s.life ∧ t.modid = s.modid ∧ (∀ a, Machine.Memory.byte t.mem a = 0) ∧
      (∀ g, t.hall g = Machine.Hall.reset) ∧ (∀ p, (t.part p).present = false) ∧ ∀ g, t.inPool (Machine.galleryTop + 4096 * g) = false → t.rowGroup g = Machine.RowGroup.wiped) ∧
    (s.halveAt ≤ s.tick → (s.sectors.map (·.1)).Nodup →
      ∃ t, Machine.exec .accessCounterHalving s = .next t ∧ t.halveAt = s.halveAt + 5544000000 ∧ (∀ k, (Machine.sget t.sectors k).toNat = (Machine.sget s.sectors k).toNat / 2) ∧
        t.halls = s.halls ∧ t.mem = s.mem) ∧
    (∀ d : BitVec 5, s.boostAt[d.toNat]'d.isLt ≤ s.tick →
      ((∃ g, g.toNat / 8 = d.toNat ∧ 13 ≤ (s.hall g).band) →
        ∃ t, Machine.exec (.boostInterval d) s = .next t ∧ t.boostAt[d.toNat]'d.isLt = s.tick + 27720000 ∧ t.mem = s.mem ∧
          ∀ g, g.toNat / 8 = d.toNat → (t.hall g).levelTicks = 5040 ∧ (t.hall g).boostGrant = 3 ∧ (t.hall g).work = (s.hall g).work) ∧
      ((∀ g, g.toNat / 8 = d.toNat → (s.hall g).band < 13 ∧ (s.hall g).boostReq = .nominal) →
        ∃ t, Machine.exec (.boostInterval d) s = .next t ∧ t.boostAt[d.toNat]'d.isLt = s.tick + 27720000 ∧ t.mem = s.mem ∧
          ∀ g, g.toNat / 8 = d.toNat → (t.hall g).levelTicks = 3960 ∧ (t.hall g).boostGrant = 0 ∧ (t.hall g).work = (s.hall g).work) ∧
      (∀ g, g.toNat / 8 = d.toNat → (s.hall g).wantsBoost s.tick = true → (∀ k, k.toNat / 8 = d.toNat → k ≠ g → (s.hall k).wantsBoost s.tick = false) →
        (∀ k, k.toNat / 8 = d.toNat → (s.hall k).band < 12) → (s.hall g).idleArray = false →
        let power := Config.power (s.tick / 27720000 - 1)
        ∃ t, Machine.exec (.boostInterval d) s = .next t ∧ t.boostAt[d.toNat]'d.isLt = s.tick + 27720000 ∧ t.mem = s.mem ∧
          if 3000 < power then ∀ k, k.toNat / 8 = d.toNat → (t.hall k).levelTicks = 3960 ∧ (t.hall k).boostGrant = 0 else Spec.Boosted s t d g power))

/-- R244 to R246, R251, R256 to R261: an age step that is due makes each listed row group of its gallery that is valid and not held one unit older: at its
budget, or where its retention ends, it is invalid and its request withdrawn, at its request point it asks for a refresh, and otherwise nothing else
of it changes; invalid and held ones stay as they are, and those of the device's own pool stay of class P and valid; its unlisted ones age together
(log 31). A refresh makes a valid one young again and withdraws its request; a heartbeat is noted; after twelve age steps without one the controller
goes autonomous and begins a sweep, and another 1,024 units later; a sweep, in each age unit, refreshes of the next 18 row groups (the pace, with
which it ends within 960 units, is the model's choice: log 31) those that are valid, of class P or policy REFRESH and older than 4,096, and no others;
a rejoin heartbeat ends autonomous mode, at once between two sweeps and else at the end of the sweep. R248 to R250, R264, R416, R421, R422, R427,
R429: a temperature is read each whole microsecond, and the first reading sets the band of its temperature, a later one a higher band at once and a
lower one only two degrees below its own band; a wipe that is over is over; a device reset leaves no slice, no partition and memory of zeros at device
time 0, and keeps the life-cycle state (that it also keeps the module identifier is the model's choice: log 5; so are the values that a Hall and a
partition have after it where the manual gives none, registers of 0 and no partition among them: logs 3 and 35); access counters are halved each
millisecond; a domain with a Hall of band 13 or above is throttled for its interval, one in which no Hall asks for a boost runs at nominal, and in a
cool one within its power the Hall that asks is granted what it asks and the pool allows, which is charged for it. -/
def Obligations.LifetimesAndDeviceEvents : Prop := Spec.LifetimesGoOn ∧ Spec.DeviceEvents

/-- R404 to R406, R408: a port trains at 16 or 8 lanes, or goes down; credits that come back are added; a flit whose check fails, or that is discarded, which is counted, is not accepted, and its sender
sends it again with what has arrived behind it; a message of an unknown type is refused, and an unknown management subtype with reason code 1. Port 12 and above are no ports: the step stops. -/
def Sys2Proof.Spec.PortEvents : Prop :=
  ∀ (s : Machine.State) (port : BitVec 4),
    (port.toNat < 12 →
      let i := port.toNat
      (∀ lanes : BitVec 5, ∃ t, Machine.exec (.portTraining port lanes) s = .next t ∧
        (t.port i).lanes = (if lanes.toNat < 8 then 0 else if lanes.toNat < 16 then 8 else 16) ∧ ((t.port i).downAt = none ↔ 8 ≤ lanes.toNat) ∧
        (∀ j, j ≠ i → t.port j = s.port j) ∧ t.halls = s.halls ∧ t.mem = s.mem) ∧
      (∃ t, Machine.exec (.portDown port) s = .next t ∧ (t.port i).lanes = 0 ∧ (t.port i).downAt.isSome = true ∧ (∀ j, j ≠ i → t.port j = s.port j) ∧
        t.halls = s.halls ∧ t.mem = s.mem) ∧
      (∃ t, Machine.exec (.crcFailure port) s = .next t ∧ t.port i = { s.port i with rx := [] } ∧ (∀ j, j ≠ i → t.port j = s.port j) ∧
        t.halls = s.halls ∧ t.mem = s.mem) ∧
      (∃ t, Machine.exec (.discardedFlit port) s = .next t ∧ t.port i = { s.port i with discarded := (s.port i).discarded + 1, rx := [] } ∧ (∀ j, j ≠ i → t.port j = s.port j) ∧
        t.halls = s.halls ∧ t.mem = s.mem) ∧
      (∀ (chan : BitVec 2) (n : BitVec 14), chan.toNat < 3 → ∃ t, Machine.exec (.creditOnly port chan n) s = .next t ∧
        (t.port i).credits[chan.toNat]? = (s.port i).credits[chan.toNat]?.map (· + n.toNat) ∧
        (∀ c, c ≠ chan.toNat → (t.port i).credits[c]? = (s.port i).credits[c]?) ∧ (t.port i).lanes = (s.port i).lanes ∧ (∀ j, j ≠ i → t.port j = s.port j) ∧
        t.halls = s.halls ∧ t.mem = s.mem) ∧
      (∀ (ty : Byte) (tag : BitVec 16), ∃ t, Machine.exec (.unknownTypeMessage port ty tag) s = .next t ∧ (ty.toNat < 0x10 → t = s) ∧
        (0x10 ≤ ty.toNat → Spec.Refuses s t tag) ∧ (ty = 0x10 → Spec.Says t (.response tag 1 0 0 1)))) ∧
    (12 ≤ port.toNat →
      (∀ lanes, Machine.exec (.portTraining port lanes) s = .fault (.noSuchPort port.toNat)) ∧ Machine.exec (.portDown port) s = .fault (.noSuchPort port.toNat) ∧
      Machine.exec (.crcFailure port) s = .fault (.noSuchPort port.toNat) ∧ Machine.exec (.discardedFlit port) s = .fault (.noSuchPort port.toNat) ∧
      (∀ chan n, Machine.exec (.creditOnly port chan n) s = .fault (.noSuchPort port.toNat)) ∧
      ∀ ty tag, Machine.exec (.unknownTypeMessage port ty tag) s = .fault (.noSuchPort port.toNat))

/-- R302, R409, R411, R412: a bulk request for lines that its partition may use opens a transfer, and another is refused; the data of a write then stands at its address, and no other byte changes; the transfer goes on, and the last of it ends the transfer with its response; an interrupt sets its vector; a launch message that passes its checks makes one instance and is answered, one that meets a fault
becomes an event, and with ARV set it is queued for the supervisor; the control window is read and written by messages, and one that names no register of it is refused. -/
def Sys2Proof.Spec.HostMessages : Prop :=
  ∀ (s : Machine.State) (tag : BitVec 16) (p : PartId),
    (∀ (addr : Word) (len : BitVec 41),
      (s.bulkOk p addr.toNat len.toNat = true → len ≠ 0 →
        (∃ t, Machine.exec (.bulkWriteRequest tag addr p len) s = .next t ∧
          t = { s with bulks := s.bulks ++ [{ tag := tag, addr := addr.toNat, left := len.toNat, write := true, part := p }] }) ∧
        ∃ t, Machine.exec (.bulkReadRequest tag addr p len) s = .next t ∧
          t = { s with bulks := s.bulks ++ [{ tag := tag, addr := addr.toNat, left := len.toNat, write := false, part := p }] }) ∧
      (s.bulkOk p addr.toNat len.toNat = false →
        (∃ t, Machine.exec (.bulkWriteRequest tag addr p len) s = .next t ∧ Spec.Refuses s t tag) ∧
        ∃ t, Machine.exec (.bulkReadRequest tag addr p len) s = .next t ∧ Spec.Refuses s t tag)) ∧
    (∀ b d, s.bulks.find? (fun b => b.write && b.tag == tag) = some b →
      (d.length < b.left → ∃ t x, Machine.exec (.bulkData 0 tag d) s = .next t ∧ x ∈ t.bulks ∧ x.tag = tag ∧ x.write = true ∧ x.addr = b.addr + d.length ∧ x.left = b.left - d.length) ∧
      (b.left ≤ d.length → ∃ t, Machine.exec (.bulkData 0 tag d) s = .next t ∧ (∀ x ∈ t.bulks, ¬(x.tag = tag ∧ x.write = true)) ∧ Spec.Accepts t tag 0) ∧
      (Machine.Memory.wf s.mem = true → ∃ t, Machine.exec (.bulkData 0 tag d) s = .next t ∧
        (∀ i, i < min d.length b.left → Machine.Memory.byte t.mem (b.addr + i) = d.getD i 0) ∧
        ∀ a, (∀ i, i < min d.length b.left → a ≠ b.addr + i) → Machine.Memory.byte t.mem a = Machine.Memory.byte s.mem a)) ∧
    (∀ (v reason : Byte) (body : Bytes), v.toNat < 17 → ∃ t, Machine.exec (.interruptToHost v reason body) s = .next t ∧ t.vectors.getLsbD v.toNat = true ∧
      (∀ k, k ≠ v.toNat → t.vectors.getLsbD k = s.vectors.getLsbD k) ∧ t.halls = s.halls ∧ t.mem = s.mem) ∧
    (∀ packet mask,
      (packet.length = 64 → (s.part p).present = true → (s.part p).mode.getLsbD 4 = true →
        (∀ u, s.queueLaunch p packet mask = some u →
          ∃ t, Machine.exec (.hostLaunch tag p packet mask) s = .next t ∧ Spec.Accepts t tag 0 ∧ (t.part p).arTail = (s.part p).arTail + 1 ∧ t.insts = s.insts) ∧
        (s.queueLaunch p packet mask = none → ∃ t, Machine.exec (.hostLaunch tag p packet mask) s = .next t ∧ Spec.Refuses s t tag)) ∧
      (∀ f u, (s.part p).present = true → packet.length = 64 → (s.part p).mode.getLsbD 4 = false → s.hostLaunches p packet mask = (.error f, u) →
        ∃ t e, Machine.exec (.hostLaunch tag p packet mask) s = .next t ∧
          Spec.Says t (.response tag 3 (BitVec.ofNat 8 (Machine.causeCode f.cause)) (BitVec.ofNat 8 f.detail) 0) ∧ (t.part p).evq = (u.part p).evq ++ [e] ∧
          e.kind = 7 ∧ e.asid = (Machine.Packet.ofBytes packet).asid.toNat ∧ e.tag = Machine.causeCode f.cause ∧ e.detail = f.detail ∧ e.arg = f.addr) ∧
      ((s.part p).present = false ∨ packet.length ≠ 64 → ∃ t, Machine.exec (.hostLaunch tag p packet mask) s = .next t ∧ Spec.Refuses s t tag) ∧
      (∀ t1 t2, (s.part p).present = true → packet.length = 64 → (s.part p).mode.getLsbD 4 = false → s.hostLaunches p packet mask = (.ok t1, t2) →
        ∃ t x, Machine.exec (.hostLaunch tag p packet mask) s = .next t ∧ Spec.Accepts t tag 0 ∧ t.insts = t1.insts ∧ t.insts.getLast? = some x ∧
          x.live = (Machine.maskHalls mask).length ∧ x.part = p)) ∧
    (∀ (addr data : Word) off, Machine.windowOf addr = some (p, off) →
      (off ≠ 0x0060 → ∃ t, Machine.exec (.controlWindowRead tag addr) s = .next t ∧ Spec.Accepts t tag (s.cwValue p off) ∧ t = { s with outbox := t.outbox }) ∧
      (off = 0x0060 →
        ((s.part p).evq = [] → ∃ t, Machine.exec (.controlWindowRead tag addr) s = .next t ∧ Spec.Accepts t tag 0 ∧ t = { s with outbox := t.outbox }) ∧
        (∀ e rest, (s.part p).evq = e :: rest → ∃ t, Machine.exec (.controlWindowRead tag addr) s = .next t ∧ Spec.Accepts t tag e.word ∧
          (t.part p).evq = rest ∧ (t.part p).evarg = e.arg)) ∧
      (let writes := fun (f : Machine.Part → Machine.Part) => ∃ t, Machine.exec (.controlWindowWrite tag addr data) s = .next t ∧ Spec.Accepts t tag 0 ∧
          t.part p = f (s.part p) ∧ (∀ q, q ≠ p → t.part q = s.part q) ∧ t.halls = s.halls ∧ t.mem = s.mem;
        (off = 0x0000 → writes fun P => { P with mode := data.setWidth 5 }) ∧
        (off = 0x0008 → writes fun P =>
          { P with drain := data.setWidth 32
                   ckwin := if data.extractLsb' 32 16 = 0 then 1 else data.extractLsb' 32 16
                   pmin := if data.extractLsb' 48 4 = 0 then 1 else data.extractLsb' 48 4 }) ∧
        (off = 0x0010 → (s.part p).spillHead = (s.part p).spillTail → writes fun P =>
          { P with spillBase := data &&& 0x000FFFFFFFFFF01F, spillHead := 0, spillTail := 0, spilled := [] }) ∧
        (off = 0x0010 → (s.part p).spillHead ≠ (s.part p).spillTail → writes id) ∧
        (off = 0x0018 ∨ off = 0x0020 ∨ off = 0x0060 ∨ off = 0x0068 → writes id) ∧
        (off = 0x0040 → writes fun P => { P with saveBase := data &&& 0x000FFFFFFFFFF000 }) ∧
        (off = 0x0048 → writes fun P => { P with saveSize := data &&& 0x000FFFFFFFFFF000 }) ∧
        (off = 0x0078 → writes fun P => { P with migcfg := data.setWidth 17 }) ∧
        (off = 0x0080 → writes fun P => { P with hotmap := data &&& 0x000FFFFFFFFFF000 }) ∧
        (off = 0x0088 → writes fun P => { P with arq := data &&& 0x000FFFFFFFFFF000 }) ∧
        (off = 0x00A0 → s.partRuns p = false → writes fun P => { P with fabGroup := data.setWidth 16, fabNmod := data.extractLsb' 16 7, fabIndex := data.extractLsb' 24 6 }) ∧
        (off = 0x00A0 → s.partRuns p = true → writes id) ∧
        (off = 0x0090 → writes fun P => if data.extractLsb' 32 32 ≤ P.arTail then { P with arHead := data.extractLsb' 32 32 } else P) ∧
        (∀ i, i < 64 → off = 0x100 + 8 * i → s.partRuns p = false → writes fun P => { P with routes := P.routes.setIfInBounds i (data &&& 0x00000000FFFF0FFF) }) ∧
        (∀ a : Asid, ∀ i, i < 8 → off = 0x10000 + 64 * a.toNat + 8 * i → (s.part p).asids.getLsbD a.toNat = false → writes id))) ∧
    (∀ (addr data : Word), Machine.windowOf addr = none →
      (∃ t, Machine.exec (.controlWindowRead tag addr) s = .next t ∧ Spec.Refuses s t tag) ∧
      ∃ t, Machine.exec (.controlWindowWrite tag addr data) s = .next t ∧ Spec.Refuses s t tag)

/-- R404 to R406, R408: a port trains at 16 or 8 lanes, or goes down; credits that come back are added; a flit whose check fails, or that is discarded,
which is counted, is not accepted, and its sender sends it again with what has arrived behind it; a message of an unknown type is refused, and an
unknown management subtype with reason code 1. Port 12 and above are no ports: the step stops. R302, R409, R411, R412: a bulk request for lines that
its partition may use opens a transfer, and another is refused; the data of a write then stands at its address, and no other byte changes; the
transfer goes on, and the last of it ends the transfer with its response; an interrupt sets its vector; a launch message that passes its checks makes
one instance and is answered, one that meets a fault becomes an event, and with ARV set it is queued for the supervisor; the control window is read
and written by messages, and one that names no register of it is refused. -/
def Obligations.PortsAndHostMessages : Prop := Spec.PortEvents ∧ Spec.HostMessages

/-- R131, R263, R290, R406, R409, R414: accesses of other members are made and answered, or answered with their fault; a response brings its request's bytes, or its fault, to the slot, the atomic, the write or the engine
that waits for them, and the refusal of a contribution disables its window; a publication is acknowledged, and an acknowledgement is waited for no longer; a publication that waits for a member cut off gives up with a
fault that strikes later. -/
def Obligations.FabricMessages : Prop :=
  ∀ (s : Machine.State) (src tag : BitVec 16) (off : Word) (asid : Asid),
    (Spec.Outward s src →
      (∀ len : BitVec 16,
        (len.toNat = 0 ∨ 256 < len.toNat → ∃ t, Machine.exec (.fabricRead src tag off asid len) s = .next t ∧ Spec.Refuses s t tag) ∧
        (0 < len.toNat → len.toNat ≤ 256 →
          (∀ f, s.farResolve asid (Machine.wantFar true false) off len.toNat = .error f →
            ∃ t, Machine.exec (.fabricRead src tag off asid len) s = .next t ∧ Spec.Faults t tag f ∧ t = { s with outbox := t.outbox }) ∧
          (∀ ps, s.farResolve asid (Machine.wantFar true false) off len.toNat = .ok ps →
            let r := s.senseRead (s.partOf asid) ps
            (∀ a f, r.1 = some (a, f) → ∃ t, Machine.exec (.fabricRead src tag off asid len) s = .next t ∧ Spec.Faults t tag f.info ∧ t.mem = r.2.mem) ∧
            (r.1 = none →
              let bs := (r.2.readBytes (r.2.farReader src asid) ps).1
              ∃ t, Machine.exec (.fabricRead src tag off asid len) s = .next t ∧ bs.length = ps.length ∧ t.mem = r.2.mem ∧
                (len.toNat ≤ 8 → Spec.Accepts t tag (BitVec.ofNat 64 (Machine.leNat bs))) ∧
                (8 < len.toNat → ps.length = len.toNat →
                  t.outbox.map (·.msg) = r.2.outbox.map (·.msg) ++ [.bulkData r.2.modid tag bs, .response tag 0 0 0 0]))))) ∧
      (∀ d : Bytes,
        (d.length = 0 ∨ 128 < d.length → ∃ t, Machine.exec (.fabricWrite src tag off asid d) s = .next t ∧ Spec.Refuses s t tag) ∧
        (0 < d.length → d.length ≤ 128 →
          (∀ f, s.farResolve asid (Machine.wantFar false true) off d.length = .error f →
            ∃ t, Machine.exec (.fabricWrite src tag off asid d) s = .next t ∧ Spec.Faults t tag f ∧ t = { s with outbox := t.outbox }) ∧
          (∀ ps, s.farResolve asid (Machine.wantFar false true) off d.length = .ok ps →
            let r := s.senseWrite (s.partOf asid) ps false
            (r.1 = none → ∃ t, Machine.exec (.fabricWrite src tag off asid d) s = .next t ∧ Spec.Accepts t tag 0 ∧
              (Spec.Uncounted s → Machine.Memory.wf s.mem = true → Spec.Puts s t (ps.zip d))) ∧
            (∀ a, r.1 = some (a, .word) → ∃ t, Machine.exec (.fabricWrite src tag off asid d) s = .next t ∧ Spec.Faults t tag Machine.DataFault.word.info ∧ a ∈ t.poison ∧
              (Spec.Uncounted s → Machine.Memory.wf s.mem = true → Spec.Puts s t (ps.zip d))) ∧
            (∀ a f, r.1 = some (a, f) → f ≠ .word → ∃ t, Machine.exec (.fabricWrite src tag off asid d) s = .next t ∧ Spec.Faults t tag f.info ∧
              ∀ p, Machine.Memory.byte t.mem p = Machine.Memory.byte s.mem p)))) ∧
      (∀ (op : Byte) w o (v c : Word),
        (9 ≤ op.toNat → ∃ t, Machine.exec (.fabricAtomic src tag off asid op w o v c) s = .next t ∧ Spec.Refuses s t tag) ∧
        (∀ f, Machine.farOp op = some f →
          let k := { Machine.wantFar true true with kind := .atomic }
          (∀ e, s.farResolve asid k off (Machine.widthBytes w) = .error e →
            ∃ t, Machine.exec (.fabricAtomic src tag off asid op w o v c) s = .next t ∧ Spec.Faults t tag e ∧ t = { s with outbox := t.outbox }) ∧
          (∀ ps, s.farResolve asid k off (Machine.widthBytes w) = .ok ps →
            let old := Machine.leNat (ps.map (Machine.Memory.byte s.mem))
            let puts := fun (t : Machine.State) => Spec.Uncounted s → Machine.Memory.wf s.mem = true →
              match Machine.atomicValue f (8 * Machine.widthBytes w) old v.toNat c.toNat with
              | some x => Spec.Puts s t (ps.zip (Machine.leBytes (Machine.widthBytes w) x))
              | none => Spec.Puts s t [];
            (∀ s1, s.senseRead (s.partOf asid) ps = (none, s1) →
              ∃ t, Machine.exec (.fabricAtomic src tag off asid op w o v c) s = .next t ∧ Spec.Accepts t tag (BitVec.ofNat 64 old) ∧ puts t) ∧
            (∀ a s1, s.senseRead (s.partOf asid) ps = (some (a, .word), s1) → w = .B ∨ w = .H →
              ∃ t, Machine.exec (.fabricAtomic src tag off asid op w o v c) s = .next t ∧ Spec.Faults t tag Machine.DataFault.word.info ∧ a ∈ t.poison ∧ puts t) ∧
            (∀ a d s1, s.senseRead (s.partOf asid) ps = (some (a, d), s1) → d ≠ .word ∨ w = .W ∨ w = .D →
              ∃ t, Machine.exec (.fabricAtomic src tag off asid op w o v c) s = .next t ∧ Spec.Faults t tag d.info ∧ t.mem = s1.mem)))) ∧
      (∀ no, ∃ t, Machine.exec (.fabricPublication src no asid) s = .next t ∧ Spec.Says t (.publicationAcknowledgement s.modid no asid) ∧ t = { s with outbox := t.outbox })) ∧
    (∀ no, ∃ t, Machine.exec (.publicationAcknowledgement src no asid) s = .next t ∧ t = { s with fabPubs := t.fabPubs, farReaders := t.farReaders } ∧
        ∀ q, q ∈ t.fabPubs ↔ q ∈ s.fabPubs ∧ ¬(q.module_ = src ∧ q.no = no ∧ ∀ sl, (s.hall q.hall).slice = some sl → sl.asid = asid)) ∧
    (∀ r q (v : Word), s.fabReqs.find? (fun r => r.tag == tag.toNat) = some r → r.atomic = false → s.slotOf r = some q →
      (∀ a ∈ q.paddrs, Machine.inFabric a = true) →
      let cs := q.far ++ r.addrs.zip (Machine.leBytes 8 v.toNat)
      let bs := q.paddrs.map fun a => (Machine.cellAt a (q.image ++ cs)).getD 0
      ((∃ a ∈ q.paddrs, Machine.cellAt a cs = none) →
        ∃ t y, Machine.exec (.response tag 0 0 0 v) s = .next t ∧ y ∈ (t.strand r.hall r.strand).slots ∧ y.seq = q.seq ∧ y.data = none ∧ y.far = cs ∧
          (∀ x ∈ t.fabReqs, x.tag ≠ tag.toNat)) ∧
      ((∀ a ∈ q.paddrs, Machine.cellAt a cs ≠ none) →
        (∀ d n sx, q.req = .load d n sx → Spec.Brings s tag v r q [.sreg d (Machine.extendLoad sx bs)]) ∧
        (∀ offs es, q.req = .tile offs es → Spec.Brings s tag v r q [.tile (offs.zip bs)]) ∧
        (∀ i, q.req = .sbind i → Machine.streamOk bs = true → Spec.Brings s tag v r q [.bind i bs]))) ∧
    (∀ r (status cause detail : Byte) (v : Word), s.fabReqs.find? (fun r => r.tag == tag.toNat) = some r →
      let f := Machine.responseFault status cause detail
      (r.atomic = false → r.engine = none → r.slot = none →
        (status = 0 → Machine.exec (.response tag status cause detail v) s = .next (s.dropReq r)) ∧
        (status ≠ 0 → ∃ t, Machine.exec (.response tag status cause detail v) s = .next t ∧ (t.strand r.hall r.strand).lateFault.isSome = true ∧ t.mem = s.mem)) ∧
      (∀ q, r.atomic = false → r.engine = none → r.slot.isSome = true → s.slotOf r = some q → status ≠ 0 → f.cause ≠ .INTEGRITY ∨ q.depth = 0 →
        ∃ t y i, Machine.exec (.response tag status cause detail v) s = .next t ∧ y ∈ (t.strand r.hall r.strand).slots ∧ y.seq = q.seq ∧ y.fault = some i ∧
          i.cause = f.cause ∧ i.detail = f.detail ∧ i.addr = q.addr ∧ t.mem = s.mem) ∧
      (∀ a n q d, r.atomic = true → s.farAtomic r = some a → s.atomicLives a = true → a.slot = some n → status = 0 →
        (s.strand a.h a.strand).slots.find? (fun x => x.seq == n) = some q → q.req = .atomic a.id d →
        ∃ t y us, Machine.exec (.response tag status cause detail v) s = .next t ∧ t.atomics = s.atomics.filter (fun x => x.id != a.id) ∧
          y ∈ (t.strand a.h a.strand).slots ∧ y.seq = n ∧ y.fault = none ∧ y.data = some (.sreg d (BitVec.ofNat 64 (v.toNat % 2 ^ (8 * a.paddrs.length))) :: us) ∧ t.mem = s.mem) ∧
      (∀ a, r.atomic = true → s.farAtomic r = some a → s.atomicLives a = false →
        ∃ t, Machine.exec (.response tag status cause detail v) s = .next t ∧ t.atomics = s.atomics.filter (fun x => x.id != a.id) ∧ t.halls = s.halls ∧ t.mem = s.mem)) ∧
    (∀ (status cause detail : Byte) (v : Word), (∀ r ∈ s.fabReqs, r.tag ≠ tag.toNat) →
      ((∃ c ∈ s.farCells, c.tag = tag.toNat ∧ c.byte = none ∧ c.bad = 0) →
        (status = 0 → ∃ t, Machine.exec (.response tag status cause detail v) s = .next t ∧ t = { s with farCells := t.farCells } ∧
          ∀ c ∈ t.farCells, c.tag = tag.toNat → c.byte.isSome = true) ∧
        (status ≠ 0 → ∃ t, Machine.exec (.response tag status cause detail v) s = .next t ∧ t = { s with farCells := t.farCells } ∧
          ∀ c ∈ t.farCells, c.tag = tag.toNat → c.bad = Machine.farCode (Machine.responseFault status cause detail))) ∧
      ((∀ c ∈ s.farCells, c.tag ≠ tag.toNat) →
        (∀ k p w, s.mrTags.find? (fun e => e.1 == tag) = some (k, p, w) → status = 1 →
          ∃ t, Machine.exec (.response tag status cause detail v) s = .next t ∧ w ∈ (t.part p).mrOff ∧ (∀ q, q ≠ p → t.part q = s.part q) ∧ t.halls = s.halls ∧ t.mem = s.mem) ∧
        (s.mrTags.find? (fun e => e.1 == tag) = none ∨ status ≠ 1 → Machine.exec (.response tag status cause detail v) s = .next s))) ∧
    (∀ h st sl x, (s.hall h).slice = some sl → s.timedOut h st sl.part = none → s.timedPub h st sl.part = some x →
      ∃ t, Machine.exec (.fabricTimeout h st) s = .next t ∧ x ∉ t.fabPubs ∧ (t.strand h st).lateFault.isSome = true ∧ (t.strand h st).s = (s.strand h st).s ∧ t.mem = s.mem)

/-- R139, R143 to R147, R290: what the messages of other members do to a group that this module keeps: a join adds a member, an arrival is counted, a leave takes the member out, a proxy token and its withdrawal mark it absent and present; at a module that does not keep the group
a token suspends the timeout and a completed phase opens the next. A contribution to a round opens it, or completes it, or is refused where no window fits; a round's sum is written into the gallery of every member Hall, under the values with which the round was
opened here, or else those of its window. How a group is made and kept at its home by messages, from which phase a joiner counts there, and what of a round another module knows are the model's
choice (log 9; log 30), and so is that DEST modulo 64 MiB names the place in a gallery (log 37). -/
def Obligations.GroupMessages : Prop :=
  ∀ (s : Machine.State) (idx : Byte) (h : HallId) (asid : Asid) (gid : BitVec 12) (ph : BitVec 32),
    (s.group asid gid.toNat = none → ∃ t g m, Machine.exec (.groupJoinMessage idx h asid gid ph) s = .next t ∧ t.group asid gid.toNat = some g ∧ g.members = [m] ∧
      m.index = idx.toNat ∧ m.hall = h ∧ g.expected = 1 ∧ g.phase = 0 ∧ g.scope = .fabric ∧ t.halls = s.halls) ∧
    (s.group asid gid.toNat = none → ∃ t g, Machine.exec (.phaseCompleteMessage idx h asid gid ph) s = .next t ∧ t.group asid gid.toNat = some g ∧ g.members = [] ∧
      g.home = false ∧ g.homeAt = idx.toNat ∧ g.phase = ph.toNat + 1 ∧ t.halls = s.halls) ∧
    (∀ g, s.group asid gid.toNat = some g → g.home = true → g.scope = .fabric →
      ((∀ m ∈ g.members, ¬(m.index = idx.toNat ∧ m.hall = h)) →
        ∃ t g' m, Machine.exec (.groupJoinMessage idx h asid gid ph) s = .next t ∧ t.group asid gid.toNat = some g' ∧ g'.members = g.members ++ [m] ∧ m.index = idx.toNat ∧ m.hall = h ∧
          m.arrived = false ∧ m.from_ = min ph.toNat (if g.phase = 0 ∧ g.arrivals = 0 then 0 else g.phase + 1) ∧ g'.phase = g.phase ∧
          g'.expected = (if m.from_ ≤ g.phase then g.expected + 1 else g.expected) ∧ t.halls = s.halls) ∧
      (∀ m, g.members.filter (Machine.farMember idx h) = [m] → m.arrived = false → m.from_ ≤ g.phase →
        (g.arrivals + 1 < g.expected →
          ∃ t g', Machine.exec (.barrierArrival idx h asid gid ph) s = .next t ∧ t.group asid gid.toNat = some g' ∧ g'.arrivals = g.arrivals + 1 ∧ g'.phase = g.phase ∧
            (∀ x ∈ g'.members, Machine.farMember idx h x = true → x.arrived = true) ∧ t.halls = s.halls) ∧
        (g.expected = g.arrivals + 1 → (∀ x ∈ g.members, x.from_ ≤ g.phase) →
          ∃ t g', Machine.exec (.barrierArrival idx h asid gid ph) s = .next t ∧ t.group asid gid.toNat = some g' ∧ g'.arrivals = 0 ∧ g'.phase = g.phase + 1 ∧
            g'.expected = g.members.length ∧ g'.members.length = g.members.length ∧ (∀ x ∈ g'.members, x.arrived = false) ∧ t.halls = s.halls)) ∧
      (∀ m, g.members.filter (Machine.farMember idx h) = [m] → (∃ m ∈ g.members, Machine.farMember idx h m = false) →
        ∃ t g', Machine.exec (.groupLeaveMessage idx h asid gid ph) s = .next t ∧ t.group asid gid.toNat = some g' ∧
          (∀ x ∈ g'.members, Machine.farMember idx h x = false) ∧ t.halls = s.halls)) ∧
    (∀ g, s.group asid gid.toNat = some g → g.members ≠ [] →
      (∀ m, g.home = true → g.members.filter (Machine.farMember idx h) = [m] → g.arrivals < g.expected →
        ∃ t g', Machine.exec (.proxyTokenMessage idx h asid gid ph) s = .next t ∧ t.group asid gid.toNat = some g' ∧ g'.members.length = g.members.length ∧
        (∀ x ∈ g'.members, Machine.farMember idx h x = true → x.absent = true) ∧ g'.phase = g.phase ∧ t.halls = s.halls) ∧
      (g.home = false → ∃ t g' x, Machine.exec (.proxyTokenMessage idx h asid gid ph) s = .next t ∧ t.group asid gid.toNat = some g' ∧ g'.members = g.members ++ [x] ∧
        x.index = idx.toNat ∧ x.absent = true ∧ x.arrived = false ∧ g'.suspended = true ∧ g'.phase = g.phase ∧ t.halls = s.halls) ∧
      (∀ m, g.home = true → g.members = [m] → m.index = idx.toNat → m.absent = true → s.selfIndex asid ≠ idx.toNat →
        ∃ t g', Machine.exec (.tokenWithdrawal idx h asid gid ph) s = .next t ∧ t.group asid gid.toNat = some g' ∧ g'.members = [{ m with absent := false, hall := h }] ∧
          t.halls = s.halls) ∧
      (∀ m x, g.home = false → g.members = [m, x] → m.absent = false → x.index = idx.toNat → x.absent = true → s.selfIndex asid ≠ idx.toNat →
        ∃ t g', Machine.exec (.tokenWithdrawal idx h asid gid ph) s = .next t ∧ t.group asid gid.toNat = some g' ∧ g'.members = [m] ∧ t.halls = s.halls) ∧
      (g.home = false →
        ∃ t g', Machine.exec (.phaseCompleteMessage idx h asid gid ph) s = .next t ∧ t.group asid gid.toNat = some g' ∧ g'.phase = ph.toNat + 1 ∧
          g'.expected = g.members.length ∧ t.halls = s.halls)) ∧
    (∀ (tag : BitVec 16) (p : PartId) (addr : BitVec 20) (ty : Byte) (v seq : Word),
      (s.mrValues p addr.toNat = none → idx.toNat ≠ (s.part p).fabIndex.toNat →
        ∃ t, Machine.exec (.multicastReduceContribution tag p addr idx h ty v seq) s = .next t ∧ Spec.Refuses s t tag) ∧
      (∀ r, s.rounds.find? (fun r => r.part == p && r.addr == addr.toNat) = some r → r.ty = ty.toNat → r.fabric = true → r.count = r.parts.length + 1 →
        Machine.Memory.wf s.mem = true →
        let c : Machine.MrPart := { member := idx.toNat, hall := h.toNat, seq := seq.toNat, value := v }
        ∃ t, Machine.exec (.multicastReduceContribution tag p addr idx h ty v seq) s = .next t ∧ (∀ x ∈ t.rounds, ¬(x.part = p ∧ x.addr = addr.toNat)) ∧
          ∀ g, r.members.getLsbD g.toNat = true → ∀ i, i < Machine.mrWidth r.ty →
            Machine.Memory.byte t.mem (Machine.galleryBase g + r.dest % 0x4000000 + addr.toNat % 4096 + i) = BitVec.ofNat 8 (Machine.mrSum r.ty (r.parts ++ [c]) / 256 ^ i)) ∧
      (∀ d, s.mrDesc p (addr.toNat / 4096) = some d →
        (d.ty = ty.toNat → d.fabric ≠ 0 → 2 ≤ d.count → (∀ r ∈ s.rounds, ¬(r.part = p ∧ r.addr = addr.toNat)) →
          ∃ t r c, Machine.exec (.multicastReduceContribution tag p addr idx h ty v seq) s = .next t ∧ r ∈ t.rounds ∧ r.part = p ∧ r.addr = addr.toNat ∧ r.parts = [c] ∧
            c.member = idx.toNat ∧ c.hall = h.toNat ∧ c.seq = seq.toNat ∧ c.value = v ∧ t.mem = s.mem) ∧
        (Machine.Memory.wf s.mem = true → (∀ r ∈ s.rounds, ¬(r.part = p ∧ r.addr = addr.toNat ∧ r.fabric = true)) →
          ∃ t, Machine.exec (.roundSumMessage p addr v) s = .next t ∧ ∀ g, d.members.getLsbD g.toNat = true → ∀ i, i < Machine.mrWidth d.ty →
            Machine.Memory.byte t.mem (Machine.galleryBase g + d.dest % 0x4000000 + addr.toNat % 4096 + i) = BitVec.ofNat 8 (v.toNat / 256 ^ i))) ∧
      (∀ r, s.rounds.find? (fun r => r.part == p && r.addr == addr.toNat && r.fabric) = some r → Machine.Memory.wf s.mem = true →
        ∃ t, Machine.exec (.roundSumMessage p addr v) s = .next t ∧ (∀ x ∈ t.rounds, ¬(x.part = p ∧ x.addr = addr.toNat ∧ x.fabric = true)) ∧
          ∀ g, r.members.getLsbD g.toNat = true → ∀ i, i < Machine.mrWidth r.ty →
            Machine.Memory.byte t.mem (Machine.galleryBase g + r.dest % 0x4000000 + addr.toNat % 4096 + i) = BitVec.ofNat 8 (v.toNat / 256 ^ i)))

/-- R410, R418 to R426: the management messages. Each is carried out in the life-cycle states that allow it, and refused with code 2 in the others; a signature, a sequence number, a body, or a
descriptor or partition in use that does not fit is refused with code 3, 4, 5 or 6. Which requests count as busy (code 6: WSDESC of a descriptor in use, SUPER with nothing to resume, ASSIGN of a Hall at work for another partition) is the model's choice (log 41),
and so is the form of the key exchange, of a report and of a signed message where the manual gives none (log 5). -/
def Obligations.ManagementMessages : Prop :=
  ∀ (s : Machine.State) (tag : BitVec 16),
    (∀ target seq digest secret key sig, Machine.signedOk s.keyDigest (Machine.signedText 1 seq (Machine.lcBody target digest secret)) key sig = false →
      ∃ t, Machine.exec (.lcstate tag target seq digest secret key sig) s = .next t ∧ Spec.Declines s t tag 3) ∧
    (∀ target seq digest secret key sig, Machine.signedOk s.keyDigest (Machine.signedText 1 seq (Machine.lcBody target digest secret)) key sig = true →
      (seq.toNat ≤ s.mgmtSeq.toNat → ∃ t, Machine.exec (.lcstate tag target seq digest secret key sig) s = .next t ∧ Spec.Declines s t tag 4) ∧
      (s.mgmtSeq.toNat < seq.toNat → key.length = 64 → sig.length = 29792 → digest.length = 64 → secret.length = 32 →
        ∃ t, Machine.exec (.lcstate tag target seq digest secret key sig) s = .next t ∧ Spec.Accepts t tag 0 ∧ t.mgmtSeq = seq ∧ t.life = Machine.cycleOf target ∧
          (Machine.cycleOf target ≠ s.life → ∀ a, Machine.Memory.byte t.mem a = 0) ∧
          (Machine.cycleOf target ≠ s.life → target = 1 → t.operatorDigest = digest ∧ t.fleetSecret = secret))) ∧
    (∀ nonce, (nonce.length = 64 → ∃ t n, Machine.exec (.attest tag nonce) s = .next t ∧ Spec.Accepts t tag (BitVec.ofNat 64 n) ∧ t = { s with outbox := t.outbox, inbox := t.inbox }) ∧
      (nonce.length ≠ 64 → ∃ t, Machine.exec (.attest tag nonce) s = .next t ∧ Spec.Declines s t tag 5)) ∧
    (∀ p halls hbm asids, s.life = .PROVISIONED ∨ s.life = .DEPLOYED → (∀ h ∈ Machine.maskHalls halls, (s.hall h).heldFrom p = false) →
      ∃ t, Machine.exec (.assign tag p halls hbm asids) s = .next t ∧ Spec.Accepts t tag 0 ∧ (t.part p).present = true ∧
        (t.part p).halls = (s.part p).halls ||| halls ∧ (t.part p).hbm = (s.part p).hbm ||| hbm ∧ (t.part p).asids = (s.part p).asids ||| asids ∧
        (∀ q, q ≠ p → (t.part q).halls &&& halls = 0 ∧ (t.part q).hbm &&& hbm = 0 ∧ (t.part q).asids &&& asids = 0) ∧
        ∀ h, halls.getLsbD h.toNat = true → (t.hall h).part = some p) ∧
    (∀ id, s.life = .PROVISIONED → ∃ t, Machine.exec (.modid tag id) s = .next t ∧ Spec.Accepts t tag 0 ∧ t = { s with modid := id, outbox := t.outbox }) ∧
    (∀ (idx : BitVec 8) desc shards d, s.life = .DEPLOYED → Machine.wsetOfBytes desc shards = some d →
      ((s.wsets[idx.toNat]'idx.isLt).state = 0 → ∃ t, Machine.exec (.wsdesc tag idx desc shards) s = .next t ∧ Spec.Accepts t tag 0 ∧ t.wsets[idx.toNat]'idx.isLt = d ∧
        ∀ j : BitVec 8, j ≠ idx → t.wsets[j.toNat]'j.isLt = s.wsets[j.toNat]'j.isLt) ∧
      ((s.wsets[idx.toNat]'idx.isLt).state ≠ 0 → ∃ t, Machine.exec (.wsdesc tag idx desc shards) s = .next t ∧ Spec.Declines s t tag 6)) ∧
    (∀ (idx : BitVec 8), s.life = .DEPLOYED → (s.wsets[idx.toNat]'idx.isLt).version ≠ 0 → (s.wsets[idx.toNat]'idx.isLt).state = 0 →
      ∃ t, Machine.exec (.wspub tag idx) s = .next t ∧ Spec.Accepts t tag 0 ∧ t.wsets[idx.toNat]'idx.isLt = { s.wsets[idx.toNat]'idx.isLt with state := 1 } ∧
        ∀ j : BitVec 8, j ≠ idx → (t.wsets[j.toNat]'j.isLt).set = (s.wsets[idx.toNat]'idx.isLt).set → (t.wsets[j.toNat]'j.isLt).state ≠ 1) ∧
    (∀ (ports other : BitVec 16) base, s.life = .DEPLOYED → ports.setWidth 12 ≠ 0#12 → ports.toNat < 4096 → (∀ h, (s.hall h).slice = none) →
      (∃ t c, Machine.exec (.ckall tag ports other base) s = .next t ∧ Spec.Accepts t tag 0 ∧ c ∈ t.safeTier ∧ c.dest = other ∧ c.base = base ∧ c.rowGroups = s.rowGroups ∧
        c.keys = s.partKeys ∧ (∀ x ∈ c.cells, x ∈ s.mem ∧ Machine.offDie x.1 = false) ∧ (∀ x ∈ s.mem, Machine.offDie x.1 = false → x ∈ c.cells) ∧
        (∀ x ∈ s.mem, Machine.offDie x.1 = true → ∃ l ∈ c.lines, l.line = x.1 / 64) ∧
        (∀ l ∈ c.lines, l.line * 64 ∉ s.flaws → l.line * 64 ∉ s.bad → l.cipher = Machine.cipherLine (s.keyOf l.line) l.line (s.lineBytes l.line)) ∧
        t = { s with safeTier := t.safeTier, outbox := t.outbox }) ∧
      (∀ c, s.safeTier.find? (fun x => x.dest == other && x.base == base) = some c →
        (c.keys = s.partKeys → (∀ l ∈ c.lines, Machine.offDie (64 * l.line) = true ∧ l.cipher.length = 64) → (c.lines.map (·.line)).Nodup → Machine.Memory.wf c.cells = true →
          ∃ t, Machine.exec (.restall tag ports other base) s = .next t ∧ Spec.Accepts t tag 0 ∧ t.rowGroups = c.rowGroups ∧ t.halls = s.halls ∧
            (∀ a, Machine.offDie a = false → Machine.Memory.byte t.mem a = Machine.Memory.byte c.cells a) ∧
            ∀ l ∈ c.lines, l.check = Machine.lineCheck (Machine.integrityKey (t.keyOf l.line)) l.line (Machine.sget c.writeCounts l.line) l.cipher →
              ∀ i, i < 64 → Machine.Memory.byte t.mem (64 * l.line + i) = (Machine.plainLine (t.keyOf l.line) l.line l.cipher).getD i 0) ∧
        (c.keys ≠ s.partKeys → ∃ t, Machine.exec (.restall tag ports other base) s = .next t ∧ Spec.Declines s t tag 3)) ∧
      (s.safeTier.find? (fun x => x.dest == other && x.base == base) = none →
        ∃ t, Machine.exec (.restall tag ports other base) s = .next t ∧ Spec.Declines s t tag 5)) ∧
    (∀ (ports other : BitVec 16) base, s.life = .DEPLOYED → ports.setWidth 12 = 0#12 ∨ 4096 ≤ ports.toNat →
      (∃ t, Machine.exec (.ckall tag ports other base) s = .next t ∧ Spec.Declines s t tag 5) ∧
      ∃ t, Machine.exec (.restall tag ports other base) s = .next t ∧ Spec.Declines s t tag 5) ∧
    (∀ (ports other : BitVec 16) base, s.life = .DEPLOYED → ports.setWidth 12 ≠ 0#12 → ports.toNat < 4096 → (∃ h sl, (s.hall h).slice = some sl) →
      (∃ t, Machine.exec (.ckall tag ports other base) s = .next t ∧ Spec.Declines s t tag 6) ∧
      ∃ t, Machine.exec (.restall tag ports other base) s = .next t ∧ Spec.Declines s t tag 6) ∧
    (∀ p packet mask, s.life = .DEPLOYED →
      (s.stoppedSuper p = none → ∃ t, Machine.exec (.super tag p false packet mask) s = .next t ∧ Spec.Declines s t tag 6) ∧
      (∀ h sl x, s.stoppedSuper p = some (h, sl, x) → x.info.cause ≠ .MACHINE_CHECK →
        ∃ t, Machine.exec (.super tag p false packet mask) s = .next t ∧ Spec.Accepts t tag 0 ∧ (t.part p).supStopped = false) ∧
      (packet.length ≠ 64 ∨ s.superAsid p ≠ some (Machine.Packet.ofBytes packet).asid →
        ∃ t, Machine.exec (.super tag p true packet mask) s = .next t ∧ Spec.Declines s t tag 5) ∧
      (packet.length = 64 → s.superAsid p = some (Machine.Packet.ofBytes packet).asid → s.stoppedSuper p = none →
        ((s.part p).supSlice.isSome = true → ∃ t, Machine.exec (.super tag p true packet mask) s = .next t ∧ Spec.Declines s t tag 6) ∧
        ((s.part p).supSlice = none →
          (∀ t1 t2, s.hostLaunches p packet mask = (.ok t1, t2) →
            ∃ t, Machine.exec (.super tag p true packet mask) s = .next t ∧ Spec.Accepts t tag 0 ∧ t.insts = t1.insts ∧ t.halls = t1.halls) ∧
          (∀ f t2, s.hostLaunches p packet mask = (.error f, t2) →
            ∃ t, Machine.exec (.super tag p true packet mask) s = .next t ∧ Spec.Says t (.response tag 1 0 0 5))))) ∧
    (∀ body, s.life = .DEPLOYED →
      (body.length = 64 → ∃ t n, Machine.exec (.keyx tag false body) s = .next t ∧ Spec.Accepts t tag (BitVec.ofNat 64 n) ∧ t.keyNonce = (if s.keyNonce = [] then Config.random s.free 64 else s.keyNonce) ∧ t.peerNonce = body ∧
        t.imageKeys = s.imageKeys) ∧
      (body.length ≠ 64 → ∃ t, Machine.exec (.keyx tag false body) s = .next t ∧ Spec.Declines s t tag 5) ∧
      (body.length ≠ 30000 ∨ s.keyNonce = [] → ∃ t, Machine.exec (.keyx tag true body) s = .next t ∧ Spec.Declines s t tag 5) ∧
      (body.length = 30000 → s.keyNonce ≠ [] →
        (s.peerReportOk body = false → ∃ t, Machine.exec (.keyx tag true body) s = .next t ∧ Spec.Declines s t tag 3) ∧
        (s.peerReportOk body = true →
          let e := s.exchange ((body.drop 144).take 64)
          ∃ t n, Machine.exec (.keyx tag true body) s = .next t ∧ Spec.Accepts t tag (BitVec.ofNat 64 n) ∧ e ∈ t.imageKeys ∧ t.imageKeys.length ≤ 16 ∧
            (∀ x ∈ t.imageKeys, x = e ∨ x ∈ s.imageKeys) ∧ t.keyNonce = [] ∧ t.peerNonce = []))) ∧
    (∀ i, ((∃ p a b c, i = .assign tag p a b c) → s.life ≠ .PROVISIONED ∧ s.life ≠ .DEPLOYED) → ((∃ id, i = .modid tag id) → s.life ≠ .PROVISIONED) →
      ((∃ p a b c, i = .assign tag p a b c) ∨ (∃ id, i = .modid tag id) ∨
        s.life ≠ .DEPLOYED ∧ ((∃ x d e, i = .wsdesc tag x d e) ∨ (∃ x, i = .wspub tag x) ∨ (∃ a b c, i = .ckall tag a b c) ∨ (∃ a b c, i = .restall tag a b c) ∨
          (∃ a b c d, i = .super tag a b c d) ∨ ∃ a b, i = .keyx tag a b)) →
      ∃ t, Machine.exec i s = .next t ∧ Spec.Declines s t tag 2)

/-! The step, decoding and encoding, reset, and what every step keeps. -/

namespace Sys2Proof.Spec
open Sys2Proof.Machine

/-- The state in which a strand of the Hall at hand takes its turn. -/
def atTurn (s : State) (st : Strand) : State := { s with curStrand := st, issued := false, trapped := false, target := none }

/-- It is the turn of a strand of the Hall at hand, and nothing keeps it from taking its next syllable: it is not frozen, halted or ending, no recorded
request waits, and its stall count has run out (R15, R19, R21, R113). -/
structure Turn (s : State) (st : Strand) : Prop where
  booted : s.measure ≠ []
  phase : (s.hall s.curHall).phase = .strand st
  frozen : (s.strand s.curHall st).frozen = false
  halted : (s.hall s.curHall).halted st = false
  ending : ∀ sl, (s.hall s.curHall).slice = some sl → sl.ending = false
  replay : (s.strand s.curHall st).replay = []
  stall : (s.strand s.curHall st).issueFrom ≤ (s.strand s.curHall st).local_
  jump : (s.strand s.curHall st).notBefore ≤ (s.hall s.curHall).cycle

/-- The eight bytes at the program counter can be fetched: they stand at ps, and s1 is the state once they have been read (R113, R254, R386). -/
structure Fetched (s : State) (st : Strand) (ps : List Nat) (s1 : State) : Prop where
  places : (atTurn s st).fetchPlaces = .ok ps
  room : (atTurn s st).mustReport (atTurn s st).partId ps = false
  sound : (atTurn s st).fetchRead ps = (none, s1)

/-- The syllable may issue, but for its guard and what its meaning waits for (R16, R18, R22, R49 to R52). -/
structure MayIssue (s : State) (w : Word) (c : Ctl) (i : Instr) : Prop where
  accepted : strandAccepts w s.curStrand = true
  mode : privileged i = true → s.superMode = true
  sync : c.sync = true → s.here.syncGo = true
  tokens : s.here.tokensReady c s.curStrand = true
  noFault : s.curStrand = .M → s.here.mFault = none
  unit : unitBusy i s.me = false
  guard : s.me.stallShort [.p c.gp.toNat] = false

/-- The state in which the meaning of the syllable runs: its tokens have been popped. -/
def ready (s : State) (w : Word) (c : Ctl) : State := (ctlPops c s.curStrand).foldl State.popToken { s with curWord := w, issued := false, trapped := false, target := none }

/-- The number of the slice that runs. -/
def sliceNo (s : State) : Nat := match s.here.slice with | some sl => sl.id | none => 0

/-- The part of the Hall's cycle after a strand's turn. -/
def handsOn (s : State) (h : HallId) (st : Strand) : State := s.onHall h fun H => { H with phase := afterTurn st }

/-- A state that every step keeps: memory, and each copy of it in the safe tier, stands in its canonical form. -/
def Canonical (s : State) : Prop := Memory.wf s.mem = true ∧ ∀ c ∈ s.safeTier, Memory.wf c.cells = true

end Sys2Proof.Spec

/-- R15, R16, R39, R40, R113: at a strand's turn the eight bytes at its program counter, which decode to a control field and an instruction, run: with a true
guard the step is exec of that instruction on the state whose tokens have been popped, followed, when it has issued, by its pushes and its next program counter,
and, when it has not, by the tokens put back; with a false guard it issues without effect. (SLICE.END also keeps its slice's program counters: log 23.)
Then it is the turn of what follows in the Hall's cycle. -/
def Obligations.StepRunsDecoded : Prop :=
  ∀ (s : Machine.State) (st : Strand) (ps : List Nat) (s1 : Machine.State) (c : Ctl) (i : Instr),
    Spec.Turn s st → Spec.Fetched s st ps s1 → decode (s1.wordAtPlaces ps) = .ok (c, i) → Spec.MayIssue s1 (s1.wordAtPlaces ps) c i →
    let p := Spec.ready s1 (s1.wordAtPlaces ps) c
    let done := fun (t : Machine.State) => Spec.handsOn (t.retire (Spec.sliceNo s1) c) s.curHall st
    (s1.guardHolds c = true → i ≠ .sliceEnd → ∀ t, Machine.exec i p = .next t →
      (t.issued = true → Machine.step s = .next (done t)) ∧
      (t.issued = false → Machine.step s = .next (Spec.handsOn (t.unpop { s1 with curWord := s1.wordAtPlaces ps, issued := false, trapped := false, target := none }) s.curHall st))) ∧
    (s1.guardHolds c = false → Machine.step s = .next (done p.issue)) ∧
    (∀ t : Machine.State, t.here.runs (Spec.sliceNo s1) = true → c.pl = false → c.pr = false →
      t.retire (Spec.sliceNo s1) c = t.onMe fun x => { x with pc := t.target.getD (x.pc + 8), issueFrom := x.local_ + 1 + c.stall.toNat, fetched := false })

/-- R49 to R53: worked encodings of the manual, and words written out from its tables, decode to the instructions that they stand for. -/
def Obligations.WordsDecode : Prop :=
  decode 0x2281041C30010028 = .ok ({ Ctl.plain with gp := 2, stall := 1, pr := true }, .ldW 7 3 16 40) ∧
  decode 0x0000A60000000000 = .ok (Ctl.plain, .nop) ∧
  decode 0x0000A07FFFFFFFFB = .ok (Ctl.plain, .pb 1 (-5)) ∧
  decode 0x00006128_45FFFFFB = .ok (Ctl.plain, .cmpi .LT 1 2 4 (-5)) ∧
  decode 0x0001801400000015 = .ok (Ctl.plain, .csrr 5 0x15) ∧
  decode 0x0001830000000000 = .ok (Ctl.plain, .eret) ∧
  decode 0x0001480000030000 = .ok (Ctl.plain, .phase .device) ∧
  decode 0x0011C00000000000 = .ok ({ Ctl.plain with sync := true }, .rgnBegin) ∧
  decode 0x0001C00000000000 = .error .noSync ∧
  decode 0xFFFFFFFFFFFFFFFF = .error .unassigned

/-- R13: s0 reads as zero and p0 as true, and a write to either is discarded, where a write to another register is what it then reads as; neither raises a fault.
The prepared bit of every branch-target register is clear when a slice starts, and PB and PBA set it. -/
def Obligations.HardWiredRegisters : Prop :=
  (∀ (x : Machine.StrandState), x.reg 0 = 0 ∧ x.pred 0 = true ∧ (∀ v, x.put (.sreg 0 v) = x) ∧ (∀ v, x.put (.preg 0 v) = x) ∧
    (∀ n v, 0 < n → n < 64 → (x.put (.sreg n v)).reg n = v ∧ ∀ k, k ≠ n → (x.put (.sreg n v)).reg k = x.reg k) ∧
    (∀ n v, 0 < n → n < 8 → (x.put (.preg n v)).pred n = v ∧ ∀ k, k ≠ n → (x.put (.preg n v)).pred k = x.pred k) ∧
    (∀ n a r, n < 4 → (x.put (.btgt n a r)).btgt n = { addr := a, prepared := true, ready := r })) ∧
  (∀ entry args now c n, ((Machine.StrandState.start entry args now c).btgt n).prepared = false) ∧
  (∀ (s : Machine.State), Machine.Readable s [] → (∃ t, Machine.exec (.movi 0 5) s = .next t ∧ Machine.Results s t 1 s.me.divFree [.sreg 0 5]) ∧
    (∀ b off, ∃ t a r, Machine.exec (.pb b off) s = .next t ∧ Machine.Results s t 1 s.me.divFree [.btgt b.toNat a r]) ∧
    (∀ b, ∃ t r, Machine.exec (.pba b 0 8) s = .next t ∧ Machine.Results s t 1 s.me.divFree [.btgt b.toNat 8 r]))

/-- R49, R50, R52: a syllable that fails a decode check, or that its strand does not accept, traps with ILLEGAL, and one that passes and is privileged traps in
user mode with PRIV: neither has any effect. The privileged ones are ERET, FREEZE, THAW, TRACK, and CSRR and CSRW of a register that user mode may not read or write. -/
def Obligations.DecodeFaults : Prop :=
  ∀ (s : Machine.State) (w : Word), Machine.Unstopped s →
    (∀ e, decode w = .error e → Machine.Traps s (Machine.State.take Machine.exec w s) { cause := .ILLEGAL }) ∧
    (∀ c i, decode w = .ok (c, i) →
      (strandAccepts w s.curStrand = false → Machine.Traps s (Machine.State.take Machine.exec w s) { cause := .ILLEGAL }) ∧
      (strandAccepts w s.curStrand = true → s.superMode = false →
        (i = .eret ∨ (∃ d a b, i = .freeze d a b) ∨ (∃ x y z, i = .thaw x y z) ∨ (∃ x y z, i = .track x y z) ∨
          (∃ d n, i = .csrr d n ∧ Machine.csrHidden n.toNat = true) ∨ (∃ n a, i = .csrw n a ∧ Machine.csrUserWrites n.toNat = false)) →
        Machine.Traps s (Machine.State.take Machine.exec w s) { cause := .PRIV }))

/-- R4, R27, R32, R250, R264, R302, R309, R343, R416, R418, R421: the state after reset. What the manual gives: device time 0, firmware not running, no slice, band 15, an undo pool of 16, the shape
registers, unbound streams and banks without a format, the reset values of the control window, wiped row groups, free weight sets, and memory of zeros. What
is the model's choice (log 3): no Hall has a partition, no partition is present, and every scalar register is 0. -/
def Obligations.ResetValues : Prop :=
  let r := Machine.State.reset
  r.tick = 0 ∧ r.running = false ∧
  (∀ h, (r.hall h).slice = none ∧ (r.hall h).part = none ∧ (r.hall h).band = 15 ∧ (r.hall h).poolSize = 16 ∧ (r.hall h).errKind = 0 ∧
    (∀ t, t < 32 → (r.hall h).work.shapes[t]? = some 0x3F3E) ∧ (∀ q, q < 8 → (r.hall h).work.streams[q]?.map (·.bound) = some false) ∧
    (∀ b, b < 2 → (r.hall h).work.banks[b]?.map (·.fmt) = some none) ∧ ∀ st n, ((r.hall h).work.strand st).reg n = 0) ∧
  (∀ p, (r.part p).present = false ∧ (r.part p).mode = 2 ∧ (r.part p).drain = 10000 ∧ (r.part p).ckwin = 200 ∧ (r.part p).pmin = 1 ∧ (r.part p).barTmo = 10000 ∧
    (r.part p).spillHead = (r.part p).spillTail ∧ (r.part p).migcfg = 0xFFFF) ∧
  (∀ g, r.inPool (Machine.galleryTop + 4096 * g) = false → r.rowGroup g = { age := 0, cls := .E4, pol := .EXPIRE, valid := false, req := false, owner := 0, held := false }) ∧
  (∀ i : BitVec 8, (r.wsets[i.toNat]'i.isLt).state = 0) ∧ ∀ a, Machine.Memory.byte r.mem a = 0

/-- The model's form of memory (addresses rising, no byte listed that reads as an unlisted one does: log 3) holds at reset. -/
def Obligations.ResetIsCanonical : Prop := Spec.Canonical Machine.State.reset

/-- The model's form of memory (log 3) is kept by every step from any state, whether the step runs a syllable, a part of an engine's work, an event of the device or
a message; so equal memories are equal data. -/
def Obligations.StepsKeepCanonicalForm : Prop :=
  ∀ (s t : Machine.State), Spec.Canonical s → Machine.step s = .next t → Spec.Canonical t

/-- R38 to R53: every instruction that the encoding can say has a word, whatever its control bits are (but that RGN.BEGIN, KEEP, END and ABORT have their sync bit set),
and that word decodes to the same control bits and the same instruction with every operand. -/
def Obligations.EncodingDecodes : Prop :=
  ∀ (c : Ctl) (i : Instr), WellFormed i = true → (needsSync i = true → c.sync = true) → ∃ w, encode c i = some w ∧ decode w = .ok (c, i)

/-- R38 to R53: a word that decodes is the word of what it decodes to: no bit of a syllable is dropped, and no two words say the same. -/
def Obligations.DecodingEncodes : Prop :=
  ∀ (w : Word) (c : Ctl) (i : Instr), decode w = .ok (c, i) → WellFormed i = true ∧ encode c i = some w

/-- R404, and the scope of the model: no instruction and no step is refused, and the only ones that stop are link events of a port that does not exist. -/
def Obligations.StepsGoOn : Prop :=
  (∀ (s : Machine.State) (i : Instr), (∃ t, Machine.exec i s = .next t) ∨ ∃ n, Machine.exec i s = .fault (.noSuchPort n) ∧ 12 ≤ n) ∧
  ∀ (s : Machine.State), (∃ t, Machine.step s = .next t) ∨ ∃ n, Machine.step s = .fault (.noSuchPort n) ∧ 12 ≤ n ∧ s.inbox ≠ []
end

