-- ==== Sys2Proof/Laws/Crypto.lean ====
section
/-! SUPPORT. The published functions agree with themselves: a signature that a key pair makes verifies under its public key, and what GCM seals it opens. -/

namespace Sys2Proof.Machine

/-! Lengths and pieces. -/

theorem leBytes_length : ∀ n v, (leBytes n v).length = n
  | 0, _ => rfl
  | n + 1, _ => by simp [leBytes, leBytes_length n]

theorem leNat_bound : ∀ bs : Bytes, leNat bs < 256 ^ bs.length
  | [] => by simp [leNat]
  | b :: bs => by
    have := leNat_bound bs
    have hb := b.isLt
    simp only [leNat, List.length_cons, Nat.pow_succ]
    omega

theorem beNat_bound (bs : Bytes) : beNat bs < 256 ^ bs.length := by
  have := leNat_bound bs.reverse
  simpa [beNat] using this

theorem keccakRound_length (a : List (BitVec 64)) (rc : BitVec 64) : (keccakRound a rc).length = 25 := by simp [keccakRound]

theorem keccakF_length (a : List (BitVec 64)) : (keccakF a).length = 25 := by
  have h : ∀ (l : List (BitVec 64)) (a : List (BitVec 64)), l ≠ [] → (l.foldl keccakRound a).length = 25 := by
    intro l
    induction l with
    | nil => simp
    | cons x l ih =>
      intro a _
      by_cases e : l = []
      · subst e; exact keccakRound_length a x
      · exact ih _ e
  exact h _ _ (by decide)

theorem squeeze_length : ∀ n (a : List (BitVec 64)), a.length = 25 → (squeeze n a).length = 136 * n
  | 0, _, _ => rfl
  | n + 1, a, h => by
    have hk : ∀ l : List (BitVec 64), (l.flatMap fun v => leBytes 8 v.toNat).length = 8 * l.length := by
      intro l; induction l with
      | nil => rfl
      | cons x l ih => simp [leBytes_length] at ih ⊢; omega
    simp only [squeeze, List.length_append, hk, squeeze_length n _ (keccakF_length a), List.length_take, h]
    omega

theorem shake256_length (m : Bytes) (n : Nat) : (shake256 m n).length = n := by
  have h : ∀ l : List Bytes, (l.foldl absorb (List.replicate 25 0)).length = 25 := by
    intro l
    rcases List.eq_nil_or_concat l with e | ⟨t, b, e⟩
    · subst e; simp
    · subst e; simp [absorb, keccakF_length]
  simp only [shake256, List.length_take, squeeze_length _ _ (h _)]
  omega

/-- A run of pieces of one length, cut at its places. -/
theorem piece_at (n : Nat) (rest : Bytes) : ∀ (l : List Bytes), (∀ b ∈ l, b.length = n) → ∀ i (h : i < l.length), ((l.flatten ++ rest).drop (n * i)).take n = l[i]
  | [], _, i, h => absurd h (by simp)
  | b :: l, hl, 0, _ => by simp [← hl b (by simp)]
  | b :: l, hl, i + 1, h => by
    have hb : b.length = n := hl b (by simp)
    have := piece_at n rest l (fun c hc => hl c (by simp [hc])) i (by simpa using h)
    rw [List.flatten_cons, List.append_assoc, Nat.mul_succ, Nat.add_comm (n * i) n, ← List.drop_drop]
    rw [List.drop_append_of_le_length (Nat.le_of_eq hb.symm), List.drop_of_length_le (Nat.le_of_eq hb), List.nil_append]
    simpa using this

theorem pieces_flatten (n : Nat) (rest : Bytes) : ∀ (l : List Bytes), (∀ b ∈ l, b.length = n) → piecesOfBytes n l.length (l.flatten ++ rest) = l
  | [], _ => rfl
  | b :: l, hl => by
    have hb : b.length = n := hl b (by simp)
    have := pieces_flatten n rest l (fun c hc => hl c (by simp [hc]))
    simp only [List.length_cons, piecesOfBytes, List.flatten_cons, List.append_assoc]
    rw [List.take_append_of_le_length (by omega), List.take_of_length_le (by omega), List.drop_append_of_le_length (by omega), List.drop_of_length_le (by omega)]
    simpa using this

theorem flatten_length (n : Nat) : ∀ l : List Bytes, (∀ b ∈ l, b.length = n) → l.flatten.length = n * l.length
  | [], _ => by simp
  | b :: l, hl => by
    have := flatten_length n l (fun c hc => hl c (by simp [hc]))
    simp only [List.flatten_cons, List.length_append, this, hl b (by simp), List.length_cons, Nat.mul_succ]
    omega

/-! One-time signatures. -/

theorem wotsChain_add (seed : Bytes) (x : HashAddr) : ∀ m n i v, wotsChain seed x i (m + n) v = wotsChain seed x (i + m) n (wotsChain seed x i m v)
  | 0, n, i, v => by simp [wotsChain]
  | m + 1, n, i, v => by
    rw [Nat.succ_add, wotsChain, wotsChain_add seed x m n (i + 1)]
    simp only [wotsChain, Nat.add_assoc, Nat.add_comm 1 m]

theorem wotsChain_length (seed : Bytes) (x : HashAddr) : ∀ n i v, v.length = 32 → (wotsChain seed x i n v).length = 32
  | 0, _, _, h => h
  | n + 1, i, _, _ => wotsChain_length seed x n (i + 1) _ (shake256_length _ _)

theorem wotsDigits_length (m : Bytes) : (wotsDigits m).length = 67 := by simp [wotsDigits, baseDigits]

theorem wotsDigits_lt (m : Bytes) : ∀ d ∈ wotsDigits m, d < 16 := by
  intro d h
  simp only [wotsDigits, baseDigits, List.mem_append, List.mem_map] at h
  rcases h with ⟨i, _, rfl⟩ | ⟨i, _, rfl⟩ <;> exact Nat.mod_lt _ (by decide)

/-- The values of a one-time signature. -/
def wotsParts (K : SlhKey) (x : HashAddr) (m : Bytes) : List Bytes :=
  (wotsDigits m).mapIdx fun i d => wotsChain K.pkSeed { x with ty := 0, b := i, c := 0 } 0 d (wotsSecret K x i)

theorem wotsParts_length (K : SlhKey) (x : HashAddr) (m : Bytes) : ∀ b ∈ wotsParts K x m, b.length = 32 := by
  intro b h
  simp only [wotsParts, List.mem_mapIdx] at h
  obtain ⟨i, hi, rfl⟩ := h
  exact wotsChain_length _ _ _ _ _ (shake256_length _ _)

theorem wotsParts_count (K : SlhKey) (x : HashAddr) (m : Bytes) : (wotsParts K x m).length = 67 := by simp [wotsParts, wotsDigits_length]

theorem wotsSign_parts (K : SlhKey) (x : HashAddr) (m : Bytes) : wotsSign K x m = (wotsParts K x m).flatten := rfl

theorem wotsSign_length (K : SlhKey) (x : HashAddr) (m : Bytes) : (wotsSign K x m).length = 2144 := by
  rw [wotsSign_parts, flatten_length 32 _ (wotsParts_length K x m), wotsParts_count]

/-- The rest of a chain from a value of a one-time signature leads to the chain's end. -/
theorem wotsChain_end (seed : Bytes) (x : HashAddr) (d : Nat) (v : Bytes) (h : d < 16) : wotsChain seed x d (15 - d) (wotsChain seed x 0 d v) = wotsChain seed x 0 15 v := by
  have := wotsChain_add seed x d (15 - d) 0 v
  rw [Nat.zero_add, show d + (15 - d) = 15 by omega] at this
  exact this.symm

/-- A one-time signature gives its public key. -/
theorem wots_verifies (K : SlhKey) (x : HashAddr) (m rest : Bytes) : wotsFromSig K.pkSeed x (wotsSign K x m ++ rest) m = wotsPk K x := by
  refine congrArg (wotsRoot K.pkSeed x) (List.ext_getElem (by simp [wotsDigits_length]) fun i h1 h2 => ?_)
  have hd : i < (wotsDigits m).length := by simpa using h1
  have hp : ((wotsSign K x m ++ rest).drop (32 * i)).take 32 = (wotsParts K x m)[i]'(by simpa [wotsParts] using h1) :=
    piece_at 32 rest _ (wotsParts_length K x m) i (by simpa [wotsParts] using h1)
  rw [List.getElem_mapIdx, List.getElem_map, List.getElem_range, hp]
  simp only [wotsParts, List.getElem_mapIdx]
  exact wotsChain_end _ _ _ _ (wotsDigits_lt m _ (List.getElem_mem hd))

/-! Trees. -/

theorem treeNode_length (K : SlhKey) (x : HashAddr) : ∀ z i, (treeNode K x z i).length = 32
  | 0, _ => shake256_length _ _
  | _ + 1, _ => shake256_length _ _

theorem treeNode_root (K : SlhKey) (r : Bytes) (x : HashAddr) : ∀ z i, treeNode { K with pkRoot := r } x z i = treeNode K x z i
  | 0, _ => rfl
  | z + 1, i => by simp [treeNode, treeNode_root K r x z]

theorem other_half (i : Nat) : i ^^^ 1 = if i % 2 = 0 then i + 1 else i - 1 := by
  have h1 : (i ^^^ 1) / 2 = i / 2 := by simp [Nat.xor_div_two]
  have h2 : (i ^^^ 1) % 2 = (i + 1) % 2 := Nat.xor_mod_two_eq
  split <;> omega

/-- The nodes beside the path of a leaf lead to the node above it. -/
theorem climb_tree (K : SlhKey) (x : HashAddr) : ∀ n k i,
    climb K.pkSeed { x with ty := 2, a := 0 } k i (treeNode K x k i) ((List.range n).map fun j => treeNode K x (k + j) ((i / 2 ^ j) ^^^ 1)) = treeNode K x (k + n) (i / 2 ^ n)
  | 0, k, i => by simp [climb]
  | n + 1, k, i => by
    have ih := climb_tree K x n (k + 1) (i / 2)
    rw [List.range_succ_eq_map, List.map_cons, List.map_map, climb]
    have hv : slhHash K.pkSeed { x with ty := 2, a := 0, b := k + 1, c := i / 2 }
        (if i % 2 = 0 then treeNode K x k i ++ treeNode K x (k + 0) ((i / 2 ^ 0) ^^^ 1) else treeNode K x (k + 0) ((i / 2 ^ 0) ^^^ 1) ++ treeNode K x k i) =
        treeNode K x (k + 1) (i / 2) := by
      rw [treeNode]
      congr 1
      simp only [Nat.add_zero, Nat.pow_zero, Nat.div_one, other_half]
      split
      · rw [show 2 * (i / 2) = i by omega]
      · rw [show 2 * (i / 2) = i - 1 by omega, show i - 1 + 1 = i by omega]
    rw [hv]
    have hl : ((fun j => treeNode K x (k + j) ((i / 2 ^ j) ^^^ 1)) ∘ Nat.succ) = fun j => treeNode K x (k + 1 + j) ((i / 2 / 2 ^ j) ^^^ 1) := by
      funext j
      simp only [Function.comp, Nat.succ_eq_add_one, Nat.pow_succ, Nat.div_div_eq_div_mul]
      rw [Nat.mul_comm (2 ^ j) 2, Nat.add_assoc, Nat.add_comm 1 j]
    rw [hl, ih, Nat.div_div_eq_div_mul, Nat.pow_succ, Nat.mul_comm 2, Nat.add_assoc, Nat.add_comm 1 n]

theorem treeSign_length (K : SlhKey) (x : HashAddr) (i : Nat) (m : Bytes) : (treeSign K x i m).length = 2400 := by
  simp [treeSign, wotsSign_length, List.length_flatMap, treeNode_length]

/-- A signature of a layer's tree gives its root, whatever follows it. -/
theorem tree_verifies (K : SlhKey) (x : HashAddr) (i : Nat) (m rest : Bytes) (h : i < 256) :
    treeFromSig K.pkSeed x i (treeSign K x i m ++ rest) m = treeNode K x 8 0 := by
  unfold treeFromSig treeSign
  have hp : ((List.range 8).flatMap fun j => treeNode K x j ((i / 2 ^ j) ^^^ 1)) = ((List.range 8).map fun j => treeNode K x j ((i / 2 ^ j) ^^^ 1)).flatten := rfl
  have hl : ∀ b ∈ (List.range 8).map fun j => treeNode K x j ((i / 2 ^ j) ^^^ 1), b.length = 32 := by
    intro b hb; obtain ⟨j, _, rfl⟩ := List.mem_map.mp hb; exact treeNode_length K x _ _
  rw [List.append_assoc, wots_verifies, List.drop_append_of_le_length (by rw [wotsSign_length]), List.drop_of_length_le (by rw [wotsSign_length]), List.nil_append, hp]
  have := pieces_flatten 32 rest _ hl
  rw [show ((List.range 8).map fun j => treeNode K x j ((i / 2 ^ j) ^^^ 1)).length = 8 by simp] at this
  rw [this]
  have := climb_tree K x 8 0 i
  simp only [Nat.zero_add] at this
  rw [show wotsPk K { x with a := i } = treeNode K x 0 i from rfl, this, show i / 2 ^ 8 = 0 by omega]

/-- The signatures of layers j to j + n lead to the root of the highest. -/
theorem hyper_verifies (K : SlhKey) : ∀ n j tree leaf m, leaf < 256 →
    hyperRoot K.pkSeed (n + 1) j tree leaf m (hyperSign K (n + 1) j tree leaf m) = treeNode K { layer := j + n, tree := tree / 256 ^ n } 8 0
  | 0, j, tree, leaf, m, h => by
    simp only [hyperRoot, hyperSign, List.append_nil]
    have := tree_verifies K { layer := j, tree := tree } leaf m [] h
    simpa using this
  | n + 1, j, tree, leaf, m, h => by
    rw [hyperSign, hyperRoot]
    have h1 := fun rest => tree_verifies K { layer := j, tree := tree } leaf m rest h
    have h2 := h1 []
    rw [List.append_nil] at h2
    simp only [h1, h2]
    rw [List.drop_append_of_le_length (by rw [treeSign_length]), List.drop_of_length_le (by rw [treeSign_length]), List.nil_append]
    rw [hyper_verifies K n (j + 1) (tree / 256) (tree % 256) _ (Nat.mod_lt _ (by decide)), Nat.div_div_eq_div_mul, Nat.pow_succ, Nat.mul_comm 256, Nat.add_assoc,
      Nat.add_comm 1 n]

theorem hyperSign_length (K : SlhKey) : ∀ n j tree leaf m, (hyperSign K n j tree leaf m).length = 2400 * n
  | 0, _, _, _, _ => rfl
  | n + 1, j, tree, leaf, m => by
    simp only [hyperSign, List.length_append, treeSign_length, hyperSign_length K n]
    omega

/-! Signatures. -/

theorem forsNode_length (K : SlhKey) (x : HashAddr) : ∀ z i, (forsNode K x z i).length = 32
  | 0, _ => shake256_length _ _
  | _ + 1, _ => shake256_length _ _

theorem forsSign_length (K : SlhKey) (x : HashAddr) (md : Bytes) : (forsSign K x md).length = 10560 := by
  have := flatten_length 480 ((baseDigits 14 22 md).mapIdx fun i d =>
      forsSecret K x (i * 2 ^ 14 + d) ++ (List.range 14).flatMap fun j => forsNode K x j (i * 2 ^ (14 - j) + ((d / 2 ^ j) ^^^ 1))) (by
    intro b hb
    simp only [List.mem_mapIdx] at hb
    obtain ⟨i, hi, rfl⟩ := hb
    simp [List.length_flatMap, forsNode_length, forsSecret, slhPrf, shake256_length])
  simpa [forsSign, baseDigits] using this

theorem slhSign_length (K : SlhKey) (m rand : Bytes) : (slhSign K m rand).length = 29792 := by
  simp [slhSign, shake256_length, forsSign_length, hyperSign_length]

theorem drop_first {a b : Bytes} {n : Nat} (h : a.length = n) : (a ++ b).drop n = b := by
  rw [List.drop_append_of_le_length (Nat.le_of_eq h.symm), List.drop_of_length_le (Nat.le_of_eq h), List.nil_append]

theorem take_first {a b : Bytes} {n : Nat} (h : a.length = n) : (a ++ b).take n = a := by
  rw [List.take_append_of_le_length (Nat.le_of_eq h.symm), List.take_of_length_le (Nat.le_of_eq h)]

/-- A signature of the right lengths is checked in its parts. -/
theorem slhVerify_parts (seed root m r f y : Bytes) (hs : seed.length = 32) (hr : root.length = 32) (h1 : r.length = 32) (h2 : f.length = 10560) (h3 : y.length = 19200) :
    slhVerify (seed ++ root) m (r ++ f ++ y) =
      (hyperRoot seed 8 0 (slhParts r seed root (slhMessage m)).2.1 (slhParts r seed root (slhMessage m)).2.2
        (forsFromSig seed { tree := (slhParts r seed root (slhMessage m)).2.1, ty := 3, a := (slhParts r seed root (slhMessage m)).2.2 } f
          (slhParts r seed root (slhMessage m)).1) y == root) := by
  have hl : (r ++ f ++ y).length = 29792 := by rw [List.length_append, List.length_append, h1, h2, h3]
  have hp : (seed ++ root).length = 64 := by rw [List.length_append, hs, hr]
  have e1 : (r ++ f ++ y).take 32 = r := by rw [List.append_assoc]; exact take_first h1
  have e2 : ((r ++ f ++ y).drop 32).take 10560 = f := by rw [List.append_assoc, drop_first h1]; exact take_first h2
  have e3 : (r ++ f ++ y).drop 10592 = y := drop_first (by rw [List.length_append, h1, h2])
  unfold slhVerify
  simp only [take_first hs, drop_first hs, hl, hp, e1, e2, e3, beq_self_eq_true, Bool.true_and]

theorem slhPublic_pkSeed (skSeed skPrf pkSeed : Bytes) : (slhPublic skSeed skPrf pkSeed).pkSeed = pkSeed := rfl

theorem slhPublic_pkRoot_length (skSeed skPrf pkSeed : Bytes) : (slhPublic skSeed skPrf pkSeed).pkRoot.length = 32 := treeNode_length _ _ _ _

/-- FIPS 205: a signature that a key pair makes verifies under its public key. -/
theorem slh_verifies (skSeed skPrf pkSeed m rand : Bytes) (h : pkSeed.length = 32) :
    slhVerify ((slhPublic skSeed skPrf pkSeed).pkSeed ++ (slhPublic skSeed skPrf pkSeed).pkRoot) m (slhSign (slhPublic skSeed skPrf pkSeed) m rand) = true := by
  have hroot : treeNode (slhPublic skSeed skPrf pkSeed) { layer := 7 } 8 0 = (slhPublic skSeed skPrf pkSeed).pkRoot := treeNode_root _ _ _ _ _
  have hr := slhPublic_pkRoot_length skSeed skPrf pkSeed
  have hs : (slhPublic skSeed skPrf pkSeed).pkSeed.length = 32 := h
  generalize slhPublic skSeed skPrf pkSeed = K at *
  unfold slhSign
  rw [slhVerify_parts K.pkSeed K.pkRoot m _ _ _ hs hr (shake256_length _ _) (forsSign_length _ _ _) (hyperSign_length K 8 0 _ _ _)]
  generalize shake256 (K.skPrf ++ rand ++ slhMessage m) 32 = r
  have h2 : (slhParts r K.pkSeed K.pkRoot (slhMessage m)).2.2 < 256 := by
    have := beNat_bound (((shake256 (r ++ K.pkSeed ++ K.pkRoot ++ slhMessage m) 47).drop 46).take 1)
    rwa [List.length_take, List.length_drop, shake256_length] at this
  have h1 : (slhParts r K.pkSeed K.pkRoot (slhMessage m)).2.1 < 256 ^ 7 := by
    have := beNat_bound (((shake256 (r ++ K.pkSeed ++ K.pkRoot ++ slhMessage m) 47).drop 39).take 7)
    rwa [List.length_take, List.length_drop, shake256_length] at this
  have := hyper_verifies K 7 0 (slhParts r K.pkSeed K.pkRoot (slhMessage m)).2.1 (slhParts r K.pkSeed K.pkRoot (slhMessage m)).2.2
    (forsFromSig K.pkSeed { tree := (slhParts r K.pkSeed K.pkRoot (slhMessage m)).2.1, ty := 3, a := (slhParts r K.pkSeed K.pkRoot (slhMessage m)).2.2 }
      (forsSign K { tree := (slhParts r K.pkSeed K.pkRoot (slhMessage m)).2.1, ty := 3, a := (slhParts r K.pkSeed K.pkRoot (slhMessage m)).2.2 }
        (slhParts r K.pkSeed K.pkRoot (slhMessage m)).1) (slhParts r K.pkSeed K.pkRoot (slhMessage m)).1) h2
  rw [Nat.div_eq_of_lt h1, show (0 : Nat) + 7 = 7 from rfl, hroot] at this
  exact beq_iff_eq.mpr this

/-! GCM. -/

theorem xor_twice : ∀ (a k : Bytes), a.length ≤ k.length → xorBytes (xorBytes a k) k = a
  | [], _, _ => rfl
  | x :: a, [], h => by simp at h
  | x :: a, y :: k, h => by
    have := xor_twice a k (by simpa using h)
    simp only [xorBytes, List.zipWith_cons_cons] at this ⊢
    rw [this, BitVec.xor_assoc, BitVec.xor_self, BitVec.xor_zero]

theorem aesWith_length (ks : List Bytes) (b : Bytes) (h : (ks.getD 14 []).length = 16) : (aesWith ks b).length = 16 := by
  simp only [List.getD_eq_getElem?_getD] at h
  simp [aesWith, xorBytes, shiftRows, h]

theorem keyStream_length (ks : List Bytes) (iv : Bytes) (h : (ks.getD 14 []).length = 16) : ∀ n c, (keyStream ks iv n c).length = 16 * n
  | 0, _ => rfl
  | n + 1, c => by
    simp only [keyStream, List.length_append, aesWith_length ks _ h, keyStream_length ks iv h n]
    omega

theorem xorBytes_length (a k : Bytes) (h : a.length ≤ k.length) : (xorBytes a k).length = a.length := by
  simp [xorBytes, h]

theorem piecesOfBytes_getD (n : Nat) : ∀ (k : Nat) (bs : Bytes) (i : Nat), i < k → (piecesOfBytes n k bs).getD i [] = (bs.drop (n * i)).take n
  | 0, _, _, h => absurd h (by simp)
  | k + 1, bs, 0, _ => by simp [piecesOfBytes]
  | k + 1, bs, i + 1, h => by
    have := piecesOfBytes_getD n k (bs.drop n) i (by omega)
    simp only [List.drop_drop, List.getD_eq_getElem?_getD] at this
    simpa [piecesOfBytes, Nat.mul_succ, Nat.add_comm (n * i) n] using this

theorem piecesOfBytes_length (n : Nat) : ∀ (k : Nat) (bs : Bytes), bs.length = n * k → (piecesOfBytes n k bs).length = k ∧ ∀ b ∈ piecesOfBytes n k bs, b.length = n
  | 0, _, _ => by simp [piecesOfBytes]
  | k + 1, bs, h => by
    have := piecesOfBytes_length n k (bs.drop n) (by rw [List.length_drop, h, Nat.mul_succ]; omega)
    simp only [piecesOfBytes, List.length_cons, List.mem_cons]
    refine ⟨by omega, fun b hb => ?_⟩
    rcases hb with rfl | hb
    · rw [List.length_take, h, Nat.mul_succ]; omega
    · exact this.2 b hb

theorem nextKeyWord_length (i : Nat) (rc : Byte) (ws : List Bytes) (h : ∀ w ∈ ws, w.length = 4) (hn : 8 ≤ ws.length) : (nextKeyWord i rc ws).length = 4 := by
  have h0 : (ws.headD []).length = 4 := by
    cases ws with
    | nil => simp at hn
    | cons w ws => exact h w (by simp)
  have h7 : (ws.getD 7 []).length = 4 := by
    rw [List.getD_eq_getElem _ _ (by omega)]; exact h _ (List.getElem_mem _)
  unfold nextKeyWord
  generalize ws.headD [] = t at h0
  simp only [xorBytes, List.length_zipWith, h7]
  split
  · simp [h0]
  · split <;> simp [h0]

/-- The key schedule of a key of 32 bytes gives round keys of 16 bytes. -/
theorem roundKeys_last (key : Bytes) (hk : key.length = 32) : ((roundKeys key).getD 14 []).length = 16 := by
  have h0 := piecesOfBytes_length 4 8 key hk
  have step : ∀ (l : List Nat) (p : List Bytes × Byte), 8 ≤ p.1.length → (∀ w ∈ p.1, w.length = 4) →
      let q := l.foldl (fun (p : List Bytes × Byte) j => (nextKeyWord (j + 8) p.2 p.1 :: p.1, if j % 8 = 0 then xtime p.2 else p.2)) p
      q.1.length = p.1.length + l.length ∧ ∀ w ∈ q.1, w.length = 4 := by
    intro l
    induction l with
    | nil => intro p _ h; exact ⟨rfl, h⟩
    | cons j l ih =>
      intro p hn h
      have := ih (nextKeyWord (j + 8) p.2 p.1 :: p.1, if j % 8 = 0 then xtime p.2 else p.2) (by simp; omega) (by
        intro w hw
        rcases List.mem_cons.mp hw with rfl | hw
        · exact nextKeyWord_length _ _ _ h hn
        · exact h w hw)
      refine ⟨?_, this.2⟩
      have h1 := this.1
      simp only [List.length_cons] at h1 ⊢
      simp only [List.foldl_cons]
      omega
  have hs := step (List.range 52) ((piecesOfBytes 4 8 key).reverse, 1) (by simp [h0.1]) (fun w hw => h0.2 w (by simpa using hw))
  unfold roundKeys
  rw [piecesOfBytes_getD 16 15 _ 14 (by decide), List.length_take, List.length_drop]
  have hf := flatten_length 4 _ (fun b hb => hs.2 b (List.mem_reverse.mp hb))
  rw [List.length_reverse, hs.1, List.length_reverse, h0.1, List.length_range] at hf
  omega

/-- What GCM seals under a key of 32 bytes it opens: its tag fits, and the bytes come back (R332). -/
theorem gcmOpen_gcmSeal (key iv aad plain : Bytes) (hkey : key.length = 32) :
    gcmOpen key iv aad (gcmSeal key iv aad plain).1 (gcmSeal key iv aad plain).2 = some plain := by
  have h := roundKeys_last key hkey
  have hk : plain.length ≤ (keyStream (roundKeys key) iv ((plain.length + 15) / 16) 2).length := by
    rw [keyStream_length _ _ h]; omega
  have hl : (ctr (roundKeys key) iv plain).length = plain.length := xorBytes_length _ _ hk
  have hc : ctr (roundKeys key) iv (ctr (roundKeys key) iv plain) = plain := by
    unfold ctr at hl ⊢
    rw [hl]
    exact xor_twice _ _ hk
  simp [gcmOpen, gcmSeal, hc]

end Sys2Proof.Machine
end

