-- ==== Sys2Proof/Laws/Memory.lean ====
section
/-! SUPPORT. Sparse tables and memory: reading after writing, and the canonical form that every operation keeps. -/

namespace Sys2Proof.Laws
open Sys2Proof.Machine

/-- A table whose keys all lie above k reads zero at k. -/
theorem sget_below {w : Nat} (m : SMap w) (k : Nat) (h : ∀ c ∈ m, k < c.1) : sget m k = 0 := by
  induction m with
  | nil => rfl
  | cons c t ih =>
    have hc := h c (by simp)
    simp only [sget, show c.1 ≠ k by omega, if_false]
    exact ih fun d hd => h d (by simp [hd])

/-- The canonical form, by its parts. -/
theorem swf_cons {w : Nat} (c : Nat × BitVec w) (t : SMap w) :
    swf (c :: t) = true ↔ c.2 ≠ 0 ∧ (∀ d ∈ t, c.1 < d.1) ∧ swf t = true := by
  simp [swf, and_assoc]

/-- Dropping entries keeps the canonical form. -/
theorem swf_filter {w : Nat} (p : Nat × BitVec w → Bool) (m : SMap w) (h : swf m = true) : swf (m.filter p) = true := by
  induction m with
  | nil => rfl
  | cons c t ih =>
    obtain ⟨hc, hlt, ht⟩ := (swf_cons c t).1 h
    rw [List.filter_cons]
    split
    · exact (swf_cons _ _).2 ⟨hc, fun d hd => hlt d (List.mem_filter.1 hd).1, ih ht⟩
    · exact ih ht

/-- Dropping the entries of a key leaves zero there, and every other key as it was. -/
theorem sget_drop {w : Nat} (m : SMap w) (k j : Nat) :
    sget (m.filter fun c => c.1 != k) j = if j = k then 0 else sget m j := by
  induction m with
  | nil => simp [sget]
  | cons c t ih =>
    by_cases hc : c.1 = k
    · by_cases hj : j = k
      · simpa [hc, hj] using ih
      · simpa [hc, hj, sget, Ne.symm hj] using ih
    · by_cases hj : c.1 = j
      · simp [hc, hj ▸ hc, hj, sget]
      · simp [hc, hj, sget, ih]

/-- The key that has been written reads what was written, whatever the table. -/
theorem sget_sset_same {w : Nat} (m : SMap w) (k : Nat) (v : BitVec w) : sget (sset m k v) k = v := by
  induction m with
  | nil => unfold sset; split_ifs with hv <;> simp_all [sget]
  | cons c t ih =>
    unfold sset
    split_ifs with h1 hv h2
    · simp only [sget, show c.1 ≠ k by omega, if_false, ih]
    · simp [sget_drop, hv]
    · simp [sget]
    · simp [sget]

/-- Every other key reads as before. -/
theorem sget_sset_ne {w : Nat} (m : SMap w) (k j : Nat) (v : BitVec w) (hj : j ≠ k) : sget (sset m k v) j = sget m j := by
  induction m with
  | nil => unfold sset; split_ifs with hv <;> simp [sget, Ne.symm hj]
  | cons c t ih =>
    unfold sset
    split_ifs with h1 hv h2
    · simp only [sget, ih]
    · simp [sget_drop, hj]
    · simp [sget, h2, Ne.symm hj]
    · simp [sget, Ne.symm hj]

/-- The keys after a write are the old ones and the written one. -/
theorem mem_sset {w : Nat} (m : SMap w) (k : Nat) (v : BitVec w) (c : Nat × BitVec w) (h : c ∈ sset m k v) :
    c ∈ m ∨ c = (k, v) := by
  induction m with
  | nil => unfold sset at h; split_ifs at h with hv <;> simp_all
  | cons d t ih =>
    unfold sset at h
    split_ifs at h with h1 hv h2
    · rcases List.mem_cons.1 h with h | h
      · exact .inl (by simp [h])
      · exact (ih h).imp (by simp +contextual) id
    · exact .inl (List.mem_filter.1 h).1
    · exact (List.mem_cons.1 h).elim .inr fun h => .inl (by simp [h])
    · exact (List.mem_cons.1 h).elim .inr .inl

/-- A write keeps the canonical form. -/
theorem swf_sset {w : Nat} (m : SMap w) (k : Nat) (v : BitVec w) (h : swf m = true) : swf (sset m k v) = true := by
  induction m with
  | nil => unfold sset; split_ifs with hv <;> simp_all [swf]
  | cons c t ih =>
    obtain ⟨hc, hlt, ht⟩ := (swf_cons c t).1 h
    unfold sset
    split_ifs with h1 hv h2
    · refine (swf_cons _ _).2 ⟨hc, fun d hd => ?_, ih ht⟩
      rcases mem_sset t k v d hd with hd | rfl
      · exact hlt d hd
      · exact h1
    · exact swf_filter _ _ h
    · exact (swf_cons _ _).2 ⟨hv, fun d hd => h2 ▸ hlt d hd, ht⟩
    · refine (swf_cons _ _).2 ⟨hv, fun d hd => ?_, h⟩
      rcases List.mem_cons.1 hd with rfl | hd
      · show k < c.1; omega
      · have := hlt d hd; show k < d.1; omega

/-- Writes of a list of cells keep the canonical form. -/
theorem swf_ssetAll {w : Nat} (cs : List (Nat × BitVec w)) (m : SMap w) (h : swf m = true) : swf (ssetAll m cs) = true := by
  induction cs generalizing m with
  | nil => exact h
  | cons c t ih => exact ih _ (swf_sset m c.1 c.2 h)

/-- A key that is not among the written cells reads as before. -/
theorem sget_ssetAll_ne {w : Nat} (cs : List (Nat × BitVec w)) (m : SMap w) (k : Nat) (h : ∀ c ∈ cs, c.1 ≠ k) :
    sget (ssetAll m cs) k = sget m k := by
  induction cs generalizing m with
  | nil => rfl
  | cons c t ih =>
    exact (ih (sset m c.1 c.2) fun d hd => h d (by simp [hd])).trans (sget_sset_ne m c.1 k c.2 (Ne.symm (h c (by simp))))

/-- A byte that has been written reads what was written. -/
theorem Memory.byte_write_same (m : Memory) (a : Nat) (b : Byte) : Memory.byte (Memory.write m [(a, b)]) a = b :=
  sget_sset_same m a b
/-- The other bytes of memory read as before. -/
theorem Memory.byte_write_ne (m : Memory) (cs : List Host.Cell) (a : Nat) (h : ∀ c ∈ cs, c.1 ≠ a) :
    Memory.byte (Memory.write m cs) a = Memory.byte m a := sget_ssetAll_ne cs m a h
/-- Memory keeps its canonical form under writes. -/
theorem Memory.wf_write (m : Memory) (cs : List Host.Cell) (h : Memory.wf m = true) : Memory.wf (Memory.write m cs) = true :=
  swf_ssetAll cs m h
/-- Memory keeps its canonical form when a part of it is wiped. -/
theorem Memory.wf_filter (m : Memory) (p : Host.Cell → Bool) (h : Memory.wf m = true) : Memory.wf (m.filter p) = true :=
  swf_filter p m h
/-- The memory of reset is in canonical form. -/
theorem Memory.wf_reset : Memory.wf State.reset.mem = true := rfl

end Sys2Proof.Laws
end

