-- ==== Sys2Proof/Laws/State.lean ====
section
/-! SUPPORT. The fields that updates of the state leave alone or set, one lemma each, and reading after writing of Halls, strands and
registers. -/

namespace Sys2Proof.Laws
open Sys2Proof.Machine

/-! Replacing a Hall. -/

@[simp] theorem setHall_tick (s : State) (h : HallId) (x : Hall) : (s.setHall h x).tick = s.tick := rfl
@[simp] theorem setHall_curHall (s : State) (h : HallId) (x : Hall) : (s.setHall h x).curHall = s.curHall := rfl
@[simp] theorem setHall_curStrand (s : State) (h : HallId) (x : Hall) : (s.setHall h x).curStrand = s.curStrand := rfl
@[simp] theorem setHall_curWord (s : State) (h : HallId) (x : Hall) : (s.setHall h x).curWord = s.curWord := rfl
@[simp] theorem setHall_issued (s : State) (h : HallId) (x : Hall) : (s.setHall h x).issued = s.issued := rfl
@[simp] theorem setHall_trapped (s : State) (h : HallId) (x : Hall) : (s.setHall h x).trapped = s.trapped := rfl
@[simp] theorem setHall_target (s : State) (h : HallId) (x : Hall) : (s.setHall h x).target = s.target := rfl
@[simp] theorem setHall_mem (s : State) (h : HallId) (x : Hall) : (s.setHall h x).mem = s.mem := rfl
@[simp] theorem setHall_hist (s : State) (h : HallId) (x : Hall) : (s.setHall h x).hist = s.hist := rfl
@[simp] theorem setHall_vers (s : State) (h : HallId) (x : Hall) : (s.setHall h x).vers = s.vers := rfl
@[simp] theorem setHall_pubs (s : State) (h : HallId) (x : Hall) : (s.setHall h x).pubs = s.pubs := rfl
@[simp] theorem setHall_free (s : State) (h : HallId) (x : Hall) : (s.setHall h x).free = s.free := rfl
@[simp] theorem setHall_rowGroups (s : State) (h : HallId) (x : Hall) : (s.setHall h x).rowGroups = s.rowGroups := rfl
@[simp] theorem setHall_poison (s : State) (h : HallId) (x : Hall) : (s.setHall h x).poison = s.poison := rfl
@[simp] theorem setHall_bad (s : State) (h : HallId) (x : Hall) : (s.setHall h x).bad = s.bad := rfl
@[simp] theorem setHall_flaws (s : State) (h : HallId) (x : Hall) : (s.setHall h x).flaws = s.flaws := rfl
@[simp] theorem setHall_lineKeys (s : State) (h : HallId) (x : Hall) : (s.setHall h x).lineKeys = s.lineKeys := rfl
@[simp] theorem setHall_changes (s : State) (h : HallId) (x : Hall) : (s.setHall h x).changes = s.changes := rfl
@[simp] theorem setHall_corrections (s : State) (h : HallId) (x : Hall) : (s.setHall h x).corrections = s.corrections := rfl
@[simp] theorem setHall_writeCounts (s : State) (h : HallId) (x : Hall) : (s.setHall h x).writeCounts = s.writeCounts := rfl
@[simp] theorem setHall_sectors (s : State) (h : HallId) (x : Hall) : (s.setHall h x).sectors = s.sectors := rfl
@[simp] theorem setHall_halveAt (s : State) (h : HallId) (x : Hall) : (s.setHall h x).halveAt = s.halveAt := rfl
@[simp] theorem setHall_parts (s : State) (h : HallId) (x : Hall) : (s.setHall h x).parts = s.parts := rfl
@[simp] theorem setHall_ctxs (s : State) (h : HallId) (x : Hall) : (s.setHall h x).ctxs = s.ctxs := rfl
@[simp] theorem setHall_wsets (s : State) (h : HallId) (x : Hall) : (s.setHall h x).wsets = s.wsets := rfl
@[simp] theorem setHall_domains (s : State) (h : HallId) (x : Hall) : (s.setHall h x).domains = s.domains := rfl
@[simp] theorem setHall_boostAt (s : State) (h : HallId) (x : Hall) : (s.setHall h x).boostAt = s.boostAt := rfl
@[simp] theorem setHall_rounds (s : State) (h : HallId) (x : Hall) : (s.setHall h x).rounds = s.rounds := rfl
@[simp] theorem setHall_sends (s : State) (h : HallId) (x : Hall) : (s.setHall h x).sends = s.sends := rfl
@[simp] theorem setHall_mrSeqs (s : State) (h : HallId) (x : Hall) : (s.setHall h x).mrSeqs = s.mrSeqs := rfl
@[simp] theorem setHall_atomics (s : State) (h : HallId) (x : Hall) : (s.setHall h x).atomics = s.atomics := rfl
@[simp] theorem setHall_nextAtomic (s : State) (h : HallId) (x : Hall) : (s.setHall h x).nextAtomic = s.nextAtomic := rfl
@[simp] theorem setHall_walks (s : State) (h : HallId) (x : Hall) : (s.setHall h x).walks = s.walks := rfl
@[simp] theorem setHall_nextWalk (s : State) (h : HallId) (x : Hall) : (s.setHall h x).nextWalk = s.nextWalk := rfl
@[simp] theorem setHall_groups (s : State) (h : HallId) (x : Hall) : (s.setHall h x).groups = s.groups := rfl
@[simp] theorem setHall_insts (s : State) (h : HallId) (x : Hall) : (s.setHall h x).insts = s.insts := rfl
@[simp] theorem setHall_nextInst (s : State) (h : HallId) (x : Hall) : (s.setHall h x).nextInst = s.nextInst := rfl
@[simp] theorem setHall_nextSlice (s : State) (h : HallId) (x : Hall) : (s.setHall h x).nextSlice = s.nextSlice := rfl
@[simp] theorem setHall_saved (s : State) (h : HallId) (x : Hall) : (s.setHall h x).saved = s.saved := rfl
@[simp] theorem setHall_thawed (s : State) (h : HallId) (x : Hall) : (s.setHall h x).thawed = s.thawed := rfl
@[simp] theorem setHall_frozenIvs (s : State) (h : HallId) (x : Hall) : (s.setHall h x).frozenIvs = s.frozenIvs := rfl
@[simp] theorem setHall_life (s : State) (h : HallId) (x : Hall) : (s.setHall h x).life = s.life := rfl
@[simp] theorem setHall_measure (s : State) (h : HallId) (x : Hall) : (s.setHall h x).measure = s.measure := rfl
@[simp] theorem setHall_running (s : State) (h : HallId) (x : Hall) : (s.setHall h x).running = s.running := rfl
@[simp] theorem setHall_operatorDigest (s : State) (h : HallId) (x : Hall) : (s.setHall h x).operatorDigest = s.operatorDigest := rfl
@[simp] theorem setHall_fleetSecret (s : State) (h : HallId) (x : Hall) : (s.setHall h x).fleetSecret = s.fleetSecret := rfl
@[simp] theorem setHall_imageKeys (s : State) (h : HallId) (x : Hall) : (s.setHall h x).imageKeys = s.imageKeys := rfl
@[simp] theorem setHall_keyNonce (s : State) (h : HallId) (x : Hall) : (s.setHall h x).keyNonce = s.keyNonce := rfl
@[simp] theorem setHall_peerNonce (s : State) (h : HallId) (x : Hall) : (s.setHall h x).peerNonce = s.peerNonce := rfl
@[simp] theorem setHall_partKeys (s : State) (h : HallId) (x : Hall) : (s.setHall h x).partKeys = s.partKeys := rfl
@[simp] theorem setHall_nextKey (s : State) (h : HallId) (x : Hall) : (s.setHall h x).nextKey = s.nextKey := rfl
@[simp] theorem setHall_mgmtSeq (s : State) (h : HallId) (x : Hall) : (s.setHall h x).mgmtSeq = s.mgmtSeq := rfl
@[simp] theorem setHall_modid (s : State) (h : HallId) (x : Hall) : (s.setHall h x).modid = s.modid := rfl
@[simp] theorem setHall_ports (s : State) (h : HallId) (x : Hall) : (s.setHall h x).ports = s.ports := rfl
@[simp] theorem setHall_bulks (s : State) (h : HallId) (x : Hall) : (s.setHall h x).bulks = s.bulks := rfl
@[simp] theorem setHall_fabReqs (s : State) (h : HallId) (x : Hall) : (s.setHall h x).fabReqs = s.fabReqs := rfl
@[simp] theorem setHall_nextTag (s : State) (h : HallId) (x : Hall) : (s.setHall h x).nextTag = s.nextTag := rfl
@[simp] theorem setHall_pubNos (s : State) (h : HallId) (x : Hall) : (s.setHall h x).pubNos = s.pubNos := rfl
@[simp] theorem setHall_mrTags (s : State) (h : HallId) (x : Hall) : (s.setHall h x).mrTags = s.mrTags := rfl
@[simp] theorem setHall_fabPubs (s : State) (h : HallId) (x : Hall) : (s.setHall h x).fabPubs = s.fabPubs := rfl
@[simp] theorem setHall_farReaders (s : State) (h : HallId) (x : Hall) : (s.setHall h x).farReaders = s.farReaders := rfl
@[simp] theorem setHall_farCells (s : State) (h : HallId) (x : Hall) : (s.setHall h x).farCells = s.farCells := rfl
@[simp] theorem setHall_inbox (s : State) (h : HallId) (x : Hall) : (s.setHall h x).inbox = s.inbox := rfl
@[simp] theorem setHall_longBodies (s : State) (h : HallId) (x : Hall) : (s.setHall h x).longBodies = s.longBodies := rfl
@[simp] theorem setHall_outbox (s : State) (h : HallId) (x : Hall) : (s.setHall h x).outbox = s.outbox := rfl
@[simp] theorem setHall_vectors (s : State) (h : HallId) (x : Hall) : (s.setHall h x).vectors = s.vectors := rfl
@[simp] theorem setHall_safeTier (s : State) (h : HallId) (x : Hall) : (s.setHall h x).safeTier = s.safeTier := rfl

/-- The Hall that has been replaced. -/
@[simp] theorem hall_setHall_same (s : State) (h : HallId) (x : Hall) : (s.setHall h x).hall h = x := by
  simp [State.hall, State.setHall]
/-- The other Halls. -/
theorem hall_setHall_ne (s : State) (h k : HallId) (x : Hall) (hk : k ≠ h) : (s.setHall h x).hall k = s.hall k := by
  have : h.toNat ≠ k.toNat := fun e => hk (BitVec.eq_of_toNat_eq e.symm)
  simp [State.hall, State.setHall, this]

/-! Changing a Hall, its strand or its slice. -/

@[simp] theorem onHall_tick (s : State) (h : HallId) (f : Hall → Hall) : (s.onHall h f).tick = s.tick := rfl
@[simp] theorem onHall_curHall (s : State) (h : HallId) (f : Hall → Hall) : (s.onHall h f).curHall = s.curHall := rfl
@[simp] theorem onHall_curStrand (s : State) (h : HallId) (f : Hall → Hall) : (s.onHall h f).curStrand = s.curStrand := rfl
@[simp] theorem onHall_curWord (s : State) (h : HallId) (f : Hall → Hall) : (s.onHall h f).curWord = s.curWord := rfl
@[simp] theorem onHall_issued (s : State) (h : HallId) (f : Hall → Hall) : (s.onHall h f).issued = s.issued := rfl
@[simp] theorem onHall_trapped (s : State) (h : HallId) (f : Hall → Hall) : (s.onHall h f).trapped = s.trapped := rfl
@[simp] theorem onHall_target (s : State) (h : HallId) (f : Hall → Hall) : (s.onHall h f).target = s.target := rfl
@[simp] theorem onHall_mem (s : State) (h : HallId) (f : Hall → Hall) : (s.onHall h f).mem = s.mem := rfl
@[simp] theorem onHall_hist (s : State) (h : HallId) (f : Hall → Hall) : (s.onHall h f).hist = s.hist := rfl
@[simp] theorem onHall_vers (s : State) (h : HallId) (f : Hall → Hall) : (s.onHall h f).vers = s.vers := rfl
@[simp] theorem onHall_pubs (s : State) (h : HallId) (f : Hall → Hall) : (s.onHall h f).pubs = s.pubs := rfl
@[simp] theorem onHall_free (s : State) (h : HallId) (f : Hall → Hall) : (s.onHall h f).free = s.free := rfl
@[simp] theorem onHall_rowGroups (s : State) (h : HallId) (f : Hall → Hall) : (s.onHall h f).rowGroups = s.rowGroups := rfl
@[simp] theorem onHall_poison (s : State) (h : HallId) (f : Hall → Hall) : (s.onHall h f).poison = s.poison := rfl
@[simp] theorem onHall_bad (s : State) (h : HallId) (f : Hall → Hall) : (s.onHall h f).bad = s.bad := rfl
@[simp] theorem onHall_flaws (s : State) (h : HallId) (f : Hall → Hall) : (s.onHall h f).flaws = s.flaws := rfl
@[simp] theorem onHall_lineKeys (s : State) (h : HallId) (f : Hall → Hall) : (s.onHall h f).lineKeys = s.lineKeys := rfl
@[simp] theorem onHall_changes (s : State) (h : HallId) (f : Hall → Hall) : (s.onHall h f).changes = s.changes := rfl
@[simp] theorem onHall_parts (s : State) (h : HallId) (f : Hall → Hall) : (s.onHall h f).parts = s.parts := rfl
@[simp] theorem onHall_ctxs (s : State) (h : HallId) (f : Hall → Hall) : (s.onHall h f).ctxs = s.ctxs := rfl
@[simp] theorem onHall_rounds (s : State) (h : HallId) (f : Hall → Hall) : (s.onHall h f).rounds = s.rounds := rfl
@[simp] theorem onHall_sends (s : State) (h : HallId) (f : Hall → Hall) : (s.onHall h f).sends = s.sends := rfl
@[simp] theorem onHall_atomics (s : State) (h : HallId) (f : Hall → Hall) : (s.onHall h f).atomics = s.atomics := rfl
@[simp] theorem onHall_walks (s : State) (h : HallId) (f : Hall → Hall) : (s.onHall h f).walks = s.walks := rfl
@[simp] theorem onHall_groups (s : State) (h : HallId) (f : Hall → Hall) : (s.onHall h f).groups = s.groups := rfl
@[simp] theorem onHall_insts (s : State) (h : HallId) (f : Hall → Hall) : (s.onHall h f).insts = s.insts := rfl
@[simp] theorem onHall_saved (s : State) (h : HallId) (f : Hall → Hall) : (s.onHall h f).saved = s.saved := rfl
@[simp] theorem onHall_inbox (s : State) (h : HallId) (f : Hall → Hall) : (s.onHall h f).inbox = s.inbox := rfl
@[simp] theorem onHall_outbox (s : State) (h : HallId) (f : Hall → Hall) : (s.onHall h f).outbox = s.outbox := rfl
@[simp] theorem onHall_ports (s : State) (h : HallId) (f : Hall → Hall) : (s.onHall h f).ports = s.ports := rfl
@[simp] theorem onHall_life (s : State) (h : HallId) (f : Hall → Hall) : (s.onHall h f).life = s.life := rfl
@[simp] theorem onHall_wsets (s : State) (h : HallId) (f : Hall → Hall) : (s.onHall h f).wsets = s.wsets := rfl
@[simp] theorem onHall_writeCounts (s : State) (h : HallId) (f : Hall → Hall) : (s.onHall h f).writeCounts = s.writeCounts := rfl
@[simp] theorem onHall_measure (s : State) (h : HallId) (f : Hall → Hall) : (s.onHall h f).measure = s.measure := rfl
@[simp] theorem onStrand_tick (s : State) (h : HallId) (st : Strand) (f : StrandState → StrandState) : (s.onStrand h st f).tick = s.tick := rfl
@[simp] theorem onStrand_curHall (s : State) (h : HallId) (st : Strand) (f : StrandState → StrandState) : (s.onStrand h st f).curHall = s.curHall := rfl
@[simp] theorem onStrand_curStrand (s : State) (h : HallId) (st : Strand) (f : StrandState → StrandState) : (s.onStrand h st f).curStrand = s.curStrand := rfl
@[simp] theorem onStrand_curWord (s : State) (h : HallId) (st : Strand) (f : StrandState → StrandState) : (s.onStrand h st f).curWord = s.curWord := rfl
@[simp] theorem onStrand_issued (s : State) (h : HallId) (st : Strand) (f : StrandState → StrandState) : (s.onStrand h st f).issued = s.issued := rfl
@[simp] theorem onStrand_trapped (s : State) (h : HallId) (st : Strand) (f : StrandState → StrandState) : (s.onStrand h st f).trapped = s.trapped := rfl
@[simp] theorem onStrand_target (s : State) (h : HallId) (st : Strand) (f : StrandState → StrandState) : (s.onStrand h st f).target = s.target := rfl
@[simp] theorem onStrand_mem (s : State) (h : HallId) (st : Strand) (f : StrandState → StrandState) : (s.onStrand h st f).mem = s.mem := rfl
@[simp] theorem onStrand_hist (s : State) (h : HallId) (st : Strand) (f : StrandState → StrandState) : (s.onStrand h st f).hist = s.hist := rfl
@[simp] theorem onStrand_vers (s : State) (h : HallId) (st : Strand) (f : StrandState → StrandState) : (s.onStrand h st f).vers = s.vers := rfl
@[simp] theorem onStrand_pubs (s : State) (h : HallId) (st : Strand) (f : StrandState → StrandState) : (s.onStrand h st f).pubs = s.pubs := rfl
@[simp] theorem onStrand_free (s : State) (h : HallId) (st : Strand) (f : StrandState → StrandState) : (s.onStrand h st f).free = s.free := rfl
@[simp] theorem onStrand_rowGroups (s : State) (h : HallId) (st : Strand) (f : StrandState → StrandState) : (s.onStrand h st f).rowGroups = s.rowGroups := rfl
@[simp] theorem onStrand_poison (s : State) (h : HallId) (st : Strand) (f : StrandState → StrandState) : (s.onStrand h st f).poison = s.poison := rfl
@[simp] theorem onStrand_bad (s : State) (h : HallId) (st : Strand) (f : StrandState → StrandState) : (s.onStrand h st f).bad = s.bad := rfl
@[simp] theorem onStrand_flaws (s : State) (h : HallId) (st : Strand) (f : StrandState → StrandState) : (s.onStrand h st f).flaws = s.flaws := rfl
@[simp] theorem onStrand_lineKeys (s : State) (h : HallId) (st : Strand) (f : StrandState → StrandState) : (s.onStrand h st f).lineKeys = s.lineKeys := rfl
@[simp] theorem onStrand_changes (s : State) (h : HallId) (st : Strand) (f : StrandState → StrandState) : (s.onStrand h st f).changes = s.changes := rfl
@[simp] theorem onStrand_parts (s : State) (h : HallId) (st : Strand) (f : StrandState → StrandState) : (s.onStrand h st f).parts = s.parts := rfl
@[simp] theorem onStrand_ctxs (s : State) (h : HallId) (st : Strand) (f : StrandState → StrandState) : (s.onStrand h st f).ctxs = s.ctxs := rfl
@[simp] theorem onStrand_rounds (s : State) (h : HallId) (st : Strand) (f : StrandState → StrandState) : (s.onStrand h st f).rounds = s.rounds := rfl
@[simp] theorem onStrand_sends (s : State) (h : HallId) (st : Strand) (f : StrandState → StrandState) : (s.onStrand h st f).sends = s.sends := rfl
@[simp] theorem onStrand_atomics (s : State) (h : HallId) (st : Strand) (f : StrandState → StrandState) : (s.onStrand h st f).atomics = s.atomics := rfl
@[simp] theorem onStrand_walks (s : State) (h : HallId) (st : Strand) (f : StrandState → StrandState) : (s.onStrand h st f).walks = s.walks := rfl
@[simp] theorem onStrand_groups (s : State) (h : HallId) (st : Strand) (f : StrandState → StrandState) : (s.onStrand h st f).groups = s.groups := rfl
@[simp] theorem onStrand_insts (s : State) (h : HallId) (st : Strand) (f : StrandState → StrandState) : (s.onStrand h st f).insts = s.insts := rfl
@[simp] theorem onStrand_saved (s : State) (h : HallId) (st : Strand) (f : StrandState → StrandState) : (s.onStrand h st f).saved = s.saved := rfl
@[simp] theorem onStrand_inbox (s : State) (h : HallId) (st : Strand) (f : StrandState → StrandState) : (s.onStrand h st f).inbox = s.inbox := rfl
@[simp] theorem onStrand_outbox (s : State) (h : HallId) (st : Strand) (f : StrandState → StrandState) : (s.onStrand h st f).outbox = s.outbox := rfl
@[simp] theorem onStrand_ports (s : State) (h : HallId) (st : Strand) (f : StrandState → StrandState) : (s.onStrand h st f).ports = s.ports := rfl
@[simp] theorem onStrand_life (s : State) (h : HallId) (st : Strand) (f : StrandState → StrandState) : (s.onStrand h st f).life = s.life := rfl
@[simp] theorem onStrand_wsets (s : State) (h : HallId) (st : Strand) (f : StrandState → StrandState) : (s.onStrand h st f).wsets = s.wsets := rfl
@[simp] theorem onStrand_writeCounts (s : State) (h : HallId) (st : Strand) (f : StrandState → StrandState) : (s.onStrand h st f).writeCounts = s.writeCounts := rfl
@[simp] theorem onStrand_measure (s : State) (h : HallId) (st : Strand) (f : StrandState → StrandState) : (s.onStrand h st f).measure = s.measure := rfl
@[simp] theorem onHere_tick (s : State) (f : Hall → Hall) : (s.onHere f).tick = s.tick := rfl
@[simp] theorem onHere_curHall (s : State) (f : Hall → Hall) : (s.onHere f).curHall = s.curHall := rfl
@[simp] theorem onHere_curStrand (s : State) (f : Hall → Hall) : (s.onHere f).curStrand = s.curStrand := rfl
@[simp] theorem onHere_curWord (s : State) (f : Hall → Hall) : (s.onHere f).curWord = s.curWord := rfl
@[simp] theorem onHere_issued (s : State) (f : Hall → Hall) : (s.onHere f).issued = s.issued := rfl
@[simp] theorem onHere_trapped (s : State) (f : Hall → Hall) : (s.onHere f).trapped = s.trapped := rfl
@[simp] theorem onHere_target (s : State) (f : Hall → Hall) : (s.onHere f).target = s.target := rfl
@[simp] theorem onHere_mem (s : State) (f : Hall → Hall) : (s.onHere f).mem = s.mem := rfl
@[simp] theorem onHere_hist (s : State) (f : Hall → Hall) : (s.onHere f).hist = s.hist := rfl
@[simp] theorem onHere_vers (s : State) (f : Hall → Hall) : (s.onHere f).vers = s.vers := rfl
@[simp] theorem onHere_pubs (s : State) (f : Hall → Hall) : (s.onHere f).pubs = s.pubs := rfl
@[simp] theorem onHere_free (s : State) (f : Hall → Hall) : (s.onHere f).free = s.free := rfl
@[simp] theorem onHere_rowGroups (s : State) (f : Hall → Hall) : (s.onHere f).rowGroups = s.rowGroups := rfl
@[simp] theorem onHere_poison (s : State) (f : Hall → Hall) : (s.onHere f).poison = s.poison := rfl
@[simp] theorem onHere_bad (s : State) (f : Hall → Hall) : (s.onHere f).bad = s.bad := rfl
@[simp] theorem onHere_flaws (s : State) (f : Hall → Hall) : (s.onHere f).flaws = s.flaws := rfl
@[simp] theorem onHere_lineKeys (s : State) (f : Hall → Hall) : (s.onHere f).lineKeys = s.lineKeys := rfl
@[simp] theorem onHere_changes (s : State) (f : Hall → Hall) : (s.onHere f).changes = s.changes := rfl
@[simp] theorem onHere_parts (s : State) (f : Hall → Hall) : (s.onHere f).parts = s.parts := rfl
@[simp] theorem onHere_ctxs (s : State) (f : Hall → Hall) : (s.onHere f).ctxs = s.ctxs := rfl
@[simp] theorem onHere_rounds (s : State) (f : Hall → Hall) : (s.onHere f).rounds = s.rounds := rfl
@[simp] theorem onHere_sends (s : State) (f : Hall → Hall) : (s.onHere f).sends = s.sends := rfl
@[simp] theorem onHere_atomics (s : State) (f : Hall → Hall) : (s.onHere f).atomics = s.atomics := rfl
@[simp] theorem onHere_walks (s : State) (f : Hall → Hall) : (s.onHere f).walks = s.walks := rfl
@[simp] theorem onHere_groups (s : State) (f : Hall → Hall) : (s.onHere f).groups = s.groups := rfl
@[simp] theorem onHere_insts (s : State) (f : Hall → Hall) : (s.onHere f).insts = s.insts := rfl
@[simp] theorem onHere_saved (s : State) (f : Hall → Hall) : (s.onHere f).saved = s.saved := rfl
@[simp] theorem onHere_inbox (s : State) (f : Hall → Hall) : (s.onHere f).inbox = s.inbox := rfl
@[simp] theorem onHere_outbox (s : State) (f : Hall → Hall) : (s.onHere f).outbox = s.outbox := rfl
@[simp] theorem onHere_ports (s : State) (f : Hall → Hall) : (s.onHere f).ports = s.ports := rfl
@[simp] theorem onHere_life (s : State) (f : Hall → Hall) : (s.onHere f).life = s.life := rfl
@[simp] theorem onHere_wsets (s : State) (f : Hall → Hall) : (s.onHere f).wsets = s.wsets := rfl
@[simp] theorem onHere_writeCounts (s : State) (f : Hall → Hall) : (s.onHere f).writeCounts = s.writeCounts := rfl
@[simp] theorem onHere_measure (s : State) (f : Hall → Hall) : (s.onHere f).measure = s.measure := rfl
@[simp] theorem onMe_tick (s : State) (f : StrandState → StrandState) : (s.onMe f).tick = s.tick := rfl
@[simp] theorem onMe_curHall (s : State) (f : StrandState → StrandState) : (s.onMe f).curHall = s.curHall := rfl
@[simp] theorem onMe_curStrand (s : State) (f : StrandState → StrandState) : (s.onMe f).curStrand = s.curStrand := rfl
@[simp] theorem onMe_curWord (s : State) (f : StrandState → StrandState) : (s.onMe f).curWord = s.curWord := rfl
@[simp] theorem onMe_issued (s : State) (f : StrandState → StrandState) : (s.onMe f).issued = s.issued := rfl
@[simp] theorem onMe_trapped (s : State) (f : StrandState → StrandState) : (s.onMe f).trapped = s.trapped := rfl
@[simp] theorem onMe_target (s : State) (f : StrandState → StrandState) : (s.onMe f).target = s.target := rfl
@[simp] theorem onMe_mem (s : State) (f : StrandState → StrandState) : (s.onMe f).mem = s.mem := rfl
@[simp] theorem onMe_hist (s : State) (f : StrandState → StrandState) : (s.onMe f).hist = s.hist := rfl
@[simp] theorem onMe_vers (s : State) (f : StrandState → StrandState) : (s.onMe f).vers = s.vers := rfl
@[simp] theorem onMe_pubs (s : State) (f : StrandState → StrandState) : (s.onMe f).pubs = s.pubs := rfl
@[simp] theorem onMe_free (s : State) (f : StrandState → StrandState) : (s.onMe f).free = s.free := rfl
@[simp] theorem onMe_rowGroups (s : State) (f : StrandState → StrandState) : (s.onMe f).rowGroups = s.rowGroups := rfl
@[simp] theorem onMe_poison (s : State) (f : StrandState → StrandState) : (s.onMe f).poison = s.poison := rfl
@[simp] theorem onMe_bad (s : State) (f : StrandState → StrandState) : (s.onMe f).bad = s.bad := rfl
@[simp] theorem onMe_flaws (s : State) (f : StrandState → StrandState) : (s.onMe f).flaws = s.flaws := rfl
@[simp] theorem onMe_lineKeys (s : State) (f : StrandState → StrandState) : (s.onMe f).lineKeys = s.lineKeys := rfl
@[simp] theorem onMe_changes (s : State) (f : StrandState → StrandState) : (s.onMe f).changes = s.changes := rfl
@[simp] theorem onMe_parts (s : State) (f : StrandState → StrandState) : (s.onMe f).parts = s.parts := rfl
@[simp] theorem onMe_ctxs (s : State) (f : StrandState → StrandState) : (s.onMe f).ctxs = s.ctxs := rfl
@[simp] theorem onMe_rounds (s : State) (f : StrandState → StrandState) : (s.onMe f).rounds = s.rounds := rfl
@[simp] theorem onMe_sends (s : State) (f : StrandState → StrandState) : (s.onMe f).sends = s.sends := rfl
@[simp] theorem onMe_atomics (s : State) (f : StrandState → StrandState) : (s.onMe f).atomics = s.atomics := rfl
@[simp] theorem onMe_walks (s : State) (f : StrandState → StrandState) : (s.onMe f).walks = s.walks := rfl
@[simp] theorem onMe_groups (s : State) (f : StrandState → StrandState) : (s.onMe f).groups = s.groups := rfl
@[simp] theorem onMe_insts (s : State) (f : StrandState → StrandState) : (s.onMe f).insts = s.insts := rfl
@[simp] theorem onMe_saved (s : State) (f : StrandState → StrandState) : (s.onMe f).saved = s.saved := rfl
@[simp] theorem onMe_inbox (s : State) (f : StrandState → StrandState) : (s.onMe f).inbox = s.inbox := rfl
@[simp] theorem onMe_outbox (s : State) (f : StrandState → StrandState) : (s.onMe f).outbox = s.outbox := rfl
@[simp] theorem onMe_ports (s : State) (f : StrandState → StrandState) : (s.onMe f).ports = s.ports := rfl
@[simp] theorem onMe_life (s : State) (f : StrandState → StrandState) : (s.onMe f).life = s.life := rfl
@[simp] theorem onMe_wsets (s : State) (f : StrandState → StrandState) : (s.onMe f).wsets = s.wsets := rfl
@[simp] theorem onMe_writeCounts (s : State) (f : StrandState → StrandState) : (s.onMe f).writeCounts = s.writeCounts := rfl
@[simp] theorem onMe_measure (s : State) (f : StrandState → StrandState) : (s.onMe f).measure = s.measure := rfl
@[simp] theorem onSlice_tick (s : State) (f : Slice → Slice) : (s.onSlice f).tick = s.tick := rfl
@[simp] theorem onSlice_curHall (s : State) (f : Slice → Slice) : (s.onSlice f).curHall = s.curHall := rfl
@[simp] theorem onSlice_curStrand (s : State) (f : Slice → Slice) : (s.onSlice f).curStrand = s.curStrand := rfl
@[simp] theorem onSlice_curWord (s : State) (f : Slice → Slice) : (s.onSlice f).curWord = s.curWord := rfl
@[simp] theorem onSlice_issued (s : State) (f : Slice → Slice) : (s.onSlice f).issued = s.issued := rfl
@[simp] theorem onSlice_trapped (s : State) (f : Slice → Slice) : (s.onSlice f).trapped = s.trapped := rfl
@[simp] theorem onSlice_target (s : State) (f : Slice → Slice) : (s.onSlice f).target = s.target := rfl
@[simp] theorem onSlice_mem (s : State) (f : Slice → Slice) : (s.onSlice f).mem = s.mem := rfl
@[simp] theorem onSlice_hist (s : State) (f : Slice → Slice) : (s.onSlice f).hist = s.hist := rfl
@[simp] theorem onSlice_vers (s : State) (f : Slice → Slice) : (s.onSlice f).vers = s.vers := rfl
@[simp] theorem onSlice_pubs (s : State) (f : Slice → Slice) : (s.onSlice f).pubs = s.pubs := rfl
@[simp] theorem onSlice_free (s : State) (f : Slice → Slice) : (s.onSlice f).free = s.free := rfl
@[simp] theorem onSlice_rowGroups (s : State) (f : Slice → Slice) : (s.onSlice f).rowGroups = s.rowGroups := rfl
@[simp] theorem onSlice_poison (s : State) (f : Slice → Slice) : (s.onSlice f).poison = s.poison := rfl
@[simp] theorem onSlice_bad (s : State) (f : Slice → Slice) : (s.onSlice f).bad = s.bad := rfl
@[simp] theorem onSlice_flaws (s : State) (f : Slice → Slice) : (s.onSlice f).flaws = s.flaws := rfl
@[simp] theorem onSlice_lineKeys (s : State) (f : Slice → Slice) : (s.onSlice f).lineKeys = s.lineKeys := rfl
@[simp] theorem onSlice_changes (s : State) (f : Slice → Slice) : (s.onSlice f).changes = s.changes := rfl
@[simp] theorem onSlice_parts (s : State) (f : Slice → Slice) : (s.onSlice f).parts = s.parts := rfl
@[simp] theorem onSlice_ctxs (s : State) (f : Slice → Slice) : (s.onSlice f).ctxs = s.ctxs := rfl
@[simp] theorem onSlice_rounds (s : State) (f : Slice → Slice) : (s.onSlice f).rounds = s.rounds := rfl
@[simp] theorem onSlice_sends (s : State) (f : Slice → Slice) : (s.onSlice f).sends = s.sends := rfl
@[simp] theorem onSlice_atomics (s : State) (f : Slice → Slice) : (s.onSlice f).atomics = s.atomics := rfl
@[simp] theorem onSlice_walks (s : State) (f : Slice → Slice) : (s.onSlice f).walks = s.walks := rfl
@[simp] theorem onSlice_groups (s : State) (f : Slice → Slice) : (s.onSlice f).groups = s.groups := rfl
@[simp] theorem onSlice_insts (s : State) (f : Slice → Slice) : (s.onSlice f).insts = s.insts := rfl
@[simp] theorem onSlice_saved (s : State) (f : Slice → Slice) : (s.onSlice f).saved = s.saved := rfl
@[simp] theorem onSlice_inbox (s : State) (f : Slice → Slice) : (s.onSlice f).inbox = s.inbox := rfl
@[simp] theorem onSlice_outbox (s : State) (f : Slice → Slice) : (s.onSlice f).outbox = s.outbox := rfl
@[simp] theorem onSlice_ports (s : State) (f : Slice → Slice) : (s.onSlice f).ports = s.ports := rfl
@[simp] theorem onSlice_life (s : State) (f : Slice → Slice) : (s.onSlice f).life = s.life := rfl
@[simp] theorem onSlice_wsets (s : State) (f : Slice → Slice) : (s.onSlice f).wsets = s.wsets := rfl
@[simp] theorem onSlice_writeCounts (s : State) (f : Slice → Slice) : (s.onSlice f).writeCounts = s.writeCounts := rfl
@[simp] theorem onSlice_measure (s : State) (f : Slice → Slice) : (s.onSlice f).measure = s.measure := rfl

@[simp] theorem hall_onHall_same (s : State) (h : HallId) (f : Hall → Hall) : (s.onHall h f).hall h = f (s.hall h) :=
  hall_setHall_same s h _
theorem hall_onHall_ne (s : State) (h k : HallId) (f : Hall → Hall) (hk : k ≠ h) : (s.onHall h f).hall k = s.hall k :=
  hall_setHall_ne s h k _ hk
@[simp] theorem here_onHere (s : State) (f : Hall → Hall) : (s.onHere f).here = f s.here := hall_setHall_same s _ _
@[simp] theorem here_onMe (s : State) (f : StrandState → StrandState) : (s.onMe f).here = Hall.onStrand s.here s.curStrand f :=
  hall_setHall_same s _ _
@[simp] theorem here_onSlice (s : State) (f : Slice → Slice) : (s.onSlice f).here = Hall.onSlice s.here f := hall_setHall_same s _ _

/-! The marks of the syllable at issue. -/

@[simp] theorem issue_tick (s : State) : s.issue.tick = s.tick := rfl
@[simp] theorem issue_curHall (s : State) : s.issue.curHall = s.curHall := rfl
@[simp] theorem issue_curStrand (s : State) : s.issue.curStrand = s.curStrand := rfl
@[simp] theorem issue_curWord (s : State) : s.issue.curWord = s.curWord := rfl
@[simp] theorem issue_trapped (s : State) : s.issue.trapped = s.trapped := rfl
@[simp] theorem issue_target (s : State) : s.issue.target = s.target := rfl
@[simp] theorem issue_mem (s : State) : s.issue.mem = s.mem := rfl
@[simp] theorem issue_hist (s : State) : s.issue.hist = s.hist := rfl
@[simp] theorem issue_vers (s : State) : s.issue.vers = s.vers := rfl
@[simp] theorem issue_pubs (s : State) : s.issue.pubs = s.pubs := rfl
@[simp] theorem issue_free (s : State) : s.issue.free = s.free := rfl
@[simp] theorem issue_rowGroups (s : State) : s.issue.rowGroups = s.rowGroups := rfl
@[simp] theorem issue_poison (s : State) : s.issue.poison = s.poison := rfl
@[simp] theorem issue_bad (s : State) : s.issue.bad = s.bad := rfl
@[simp] theorem issue_flaws (s : State) : s.issue.flaws = s.flaws := rfl
@[simp] theorem issue_lineKeys (s : State) : s.issue.lineKeys = s.lineKeys := rfl
@[simp] theorem issue_changes (s : State) : s.issue.changes = s.changes := rfl
@[simp] theorem issue_halls (s : State) : s.issue.halls = s.halls := rfl
@[simp] theorem issue_writeCounts (s : State) : s.issue.writeCounts = s.writeCounts := rfl
@[simp] theorem issue_parts (s : State) : s.issue.parts = s.parts := rfl
@[simp] theorem issue_ctxs (s : State) : s.issue.ctxs = s.ctxs := rfl
@[simp] theorem issue_wsets (s : State) : s.issue.wsets = s.wsets := rfl
@[simp] theorem issue_rounds (s : State) : s.issue.rounds = s.rounds := rfl
@[simp] theorem issue_sends (s : State) : s.issue.sends = s.sends := rfl
@[simp] theorem issue_atomics (s : State) : s.issue.atomics = s.atomics := rfl
@[simp] theorem issue_walks (s : State) : s.issue.walks = s.walks := rfl
@[simp] theorem issue_groups (s : State) : s.issue.groups = s.groups := rfl
@[simp] theorem issue_insts (s : State) : s.issue.insts = s.insts := rfl
@[simp] theorem issue_saved (s : State) : s.issue.saved = s.saved := rfl
@[simp] theorem issue_life (s : State) : s.issue.life = s.life := rfl
@[simp] theorem issue_measure (s : State) : s.issue.measure = s.measure := rfl
@[simp] theorem issue_ports (s : State) : s.issue.ports = s.ports := rfl
@[simp] theorem issue_inbox (s : State) : s.issue.inbox = s.inbox := rfl
@[simp] theorem issue_outbox (s : State) : s.issue.outbox = s.outbox := rfl
@[simp] theorem hold_tick (s : State) : s.hold.tick = s.tick := rfl
@[simp] theorem hold_curHall (s : State) : s.hold.curHall = s.curHall := rfl
@[simp] theorem hold_curStrand (s : State) : s.hold.curStrand = s.curStrand := rfl
@[simp] theorem hold_curWord (s : State) : s.hold.curWord = s.curWord := rfl
@[simp] theorem hold_trapped (s : State) : s.hold.trapped = s.trapped := rfl
@[simp] theorem hold_target (s : State) : s.hold.target = s.target := rfl
@[simp] theorem hold_mem (s : State) : s.hold.mem = s.mem := rfl
@[simp] theorem hold_hist (s : State) : s.hold.hist = s.hist := rfl
@[simp] theorem hold_vers (s : State) : s.hold.vers = s.vers := rfl
@[simp] theorem hold_pubs (s : State) : s.hold.pubs = s.pubs := rfl
@[simp] theorem hold_free (s : State) : s.hold.free = s.free := rfl
@[simp] theorem hold_rowGroups (s : State) : s.hold.rowGroups = s.rowGroups := rfl
@[simp] theorem hold_poison (s : State) : s.hold.poison = s.poison := rfl
@[simp] theorem hold_bad (s : State) : s.hold.bad = s.bad := rfl
@[simp] theorem hold_flaws (s : State) : s.hold.flaws = s.flaws := rfl
@[simp] theorem hold_lineKeys (s : State) : s.hold.lineKeys = s.lineKeys := rfl
@[simp] theorem hold_changes (s : State) : s.hold.changes = s.changes := rfl
@[simp] theorem hold_halls (s : State) : s.hold.halls = s.halls := rfl
@[simp] theorem hold_writeCounts (s : State) : s.hold.writeCounts = s.writeCounts := rfl
@[simp] theorem hold_parts (s : State) : s.hold.parts = s.parts := rfl
@[simp] theorem hold_ctxs (s : State) : s.hold.ctxs = s.ctxs := rfl
@[simp] theorem hold_wsets (s : State) : s.hold.wsets = s.wsets := rfl
@[simp] theorem hold_rounds (s : State) : s.hold.rounds = s.rounds := rfl
@[simp] theorem hold_sends (s : State) : s.hold.sends = s.sends := rfl
@[simp] theorem hold_atomics (s : State) : s.hold.atomics = s.atomics := rfl
@[simp] theorem hold_walks (s : State) : s.hold.walks = s.walks := rfl
@[simp] theorem hold_groups (s : State) : s.hold.groups = s.groups := rfl
@[simp] theorem hold_insts (s : State) : s.hold.insts = s.insts := rfl
@[simp] theorem hold_saved (s : State) : s.hold.saved = s.saved := rfl
@[simp] theorem hold_life (s : State) : s.hold.life = s.life := rfl
@[simp] theorem hold_measure (s : State) : s.hold.measure = s.measure := rfl
@[simp] theorem hold_ports (s : State) : s.hold.ports = s.ports := rfl
@[simp] theorem hold_inbox (s : State) : s.hold.inbox = s.inbox := rfl
@[simp] theorem hold_outbox (s : State) : s.hold.outbox = s.outbox := rfl
@[simp] theorem issue_issued (s : State) : s.issue.issued = true := rfl
@[simp] theorem hold_issued (s : State) : s.hold.issued = false := rfl
@[simp] theorem freeze_issued (s : State) : s.freeze.issued = false := rfl
@[simp] theorem issue_hall (s : State) (h : HallId) : s.issue.hall h = s.hall h := rfl
@[simp] theorem issue_me (s : State) : s.issue.me = s.me := rfl
@[simp] theorem issue_here (s : State) : s.issue.here = s.here := rfl

/-! Strands of a slice's work. -/

@[simp] theorem setStrand_tiles (w : Work) (st : Strand) (x : StrandState) : (w.setStrand st x).tiles = w.tiles := by cases st <;> rfl
@[simp] theorem setStrand_shapes (w : Work) (st : Strand) (x : StrandState) : (w.setStrand st x).shapes = w.shapes := by cases st <;> rfl
@[simp] theorem setStrand_masks (w : Work) (st : Strand) (x : StrandState) : (w.setStrand st x).masks = w.masks := by cases st <;> rfl
@[simp] theorem setStrand_streams (w : Work) (st : Strand) (x : StrandState) : (w.setStrand st x).streams = w.streams := by cases st <;> rfl
@[simp] theorem setStrand_toks (w : Work) (st : Strand) (x : StrandState) : (w.setStrand st x).toks = w.toks := by cases st <;> rfl
@[simp] theorem setStrand_evs (w : Work) (st : Strand) (x : StrandState) : (w.setStrand st x).evs = w.evs := by cases st <;> rfl
@[simp] theorem setStrand_weights (w : Work) (st : Strand) (x : StrandState) : (w.setStrand st x).weights = w.weights := by cases st <;> rfl
@[simp] theorem setStrand_banks (w : Work) (st : Strand) (x : StrandState) : (w.setStrand st x).banks = w.banks := by cases st <;> rfl

@[simp] theorem strand_setStrand_same (w : Work) (st : Strand) (x : StrandState) : (w.setStrand st x).strand st = x := by
  cases st <;> rfl
theorem strand_setStrand_ne (w : Work) (st su : Strand) (x : StrandState) (h : su ≠ st) : (w.setStrand st x).strand su = w.strand su := by
  cases st <;> cases su <;> first | rfl | exact absurd rfl h
/-- Replacing a strand changes the four strands and nothing else. -/
theorem setStrand_work (w : Work) (st : Strand) (x : StrandState) :
    w.setStrand st x = { w with S := (w.setStrand st x).S, L := (w.setStrand st x).L, V := (w.setStrand st x).V, M := (w.setStrand st x).M } := by
  cases st <;> rfl

/-! A strand of a Hall. -/

@[simp] theorem onStrandH_part (H : Hall) (st : Strand) (f : StrandState → StrandState) : (Hall.onStrand H st f).part = H.part := rfl
@[simp] theorem onStrandH_cycle (H : Hall) (st : Strand) (f : StrandState → StrandState) : (Hall.onStrand H st f).cycle = H.cycle := rfl
@[simp] theorem onStrandH_nextTick (H : Hall) (st : Strand) (f : StrandState → StrandState) : (Hall.onStrand H st f).nextTick = H.nextTick := rfl
@[simp] theorem onStrandH_phase (H : Hall) (st : Strand) (f : StrandState → StrandState) : (Hall.onStrand H st f).phase = H.phase := rfl
@[simp] theorem onStrandH_slice (H : Hall) (st : Strand) (f : StrandState → StrandState) : (Hall.onStrand H st f).slice = H.slice := rfl
@[simp] theorem onStrandH_lastAsid (H : Hall) (st : Strand) (f : StrandState → StrandState) : (Hall.onStrand H st f).lastAsid = H.lastAsid := rfl
@[simp] theorem onStrandH_acc (H : Hall) (st : Strand) (f : StrandState → StrandState) : (Hall.onStrand H st f).acc = H.acc := rfl
@[simp] theorem onStrandH_accTag (H : Hall) (st : Strand) (f : StrandState → StrandState) : (Hall.onStrand H st f).accTag = H.accTag := rfl
@[simp] theorem onStrandH_mq (H : Hall) (st : Strand) (f : StrandState → StrandState) : (Hall.onStrand H st f).mq = H.mq := rfl
@[simp] theorem onStrandH_mqNext (H : Hall) (st : Strand) (f : StrandState → StrandState) : (Hall.onStrand H st f).mqNext = H.mqNext := rfl
@[simp] theorem onStrandH_issued (H : Hall) (st : Strand) (f : StrandState → StrandState) : (Hall.onStrand H st f).issued = H.issued := rfl
@[simp] theorem onStrandH_mErr (H : Hall) (st : Strand) (f : StrandState → StrandState) : (Hall.onStrand H st f).mErr = H.mErr := rfl
@[simp] theorem onStrandH_mDisc (H : Hall) (st : Strand) (f : StrandState → StrandState) : (Hall.onStrand H st f).mDisc = H.mDisc := rfl
@[simp] theorem onStrandH_mFault (H : Hall) (st : Strand) (f : StrandState → StrandState) : (Hall.onStrand H st f).mFault = H.mFault := rfl
@[simp] theorem onStrandH_arrayFree (H : Hall) (st : Strand) (f : StrandState → StrandState) : (Hall.onStrand H st f).arrayFree = H.arrayFree := rfl
@[simp] theorem onStrandH_cq (H : Hall) (st : Strand) (f : StrandState → StrandState) : (Hall.onStrand H st f).cq = H.cq := rfl
@[simp] theorem onStrandH_copy (H : Hall) (st : Strand) (f : StrandState → StrandState) : (Hall.onStrand H st f).copy = H.copy := rfl
@[simp] theorem onStrandH_cqNext (H : Hall) (st : Strand) (f : StrandState → StrandState) : (Hall.onStrand H st f).cqNext = H.cqNext := rfl
@[simp] theorem onStrandH_hq (H : Hall) (st : Strand) (f : StrandState → StrandState) : (Hall.onStrand H st f).hq = H.hq := rfl
@[simp] theorem onStrandH_hz (H : Hall) (st : Strand) (f : StrandState → StrandState) : (Hall.onStrand H st f).hz = H.hz := rfl
@[simp] theorem onStrandH_hqNext (H : Hall) (st : Strand) (f : StrandState → StrandState) : (Hall.onStrand H st f).hqNext = H.hqNext := rfl
@[simp] theorem onStrandH_pool (H : Hall) (st : Strand) (f : StrandState → StrandState) : (Hall.onStrand H st f).pool = H.pool := rfl
@[simp] theorem onStrandH_poolAddr (H : Hall) (st : Strand) (f : StrandState → StrandState) : (Hall.onStrand H st f).poolAddr = H.poolAddr := rfl
@[simp] theorem onStrandH_cpClock (H : Hall) (st : Strand) (f : StrandState → StrandState) : (Hall.onStrand H st f).cpClock = H.cpClock := rfl
@[simp] theorem onStrandH_mxClock (H : Hall) (st : Strand) (f : StrandState → StrandState) : (Hall.onStrand H st f).mxClock = H.mxClock := rfl
@[simp] theorem onStrandH_hzClock (H : Hall) (st : Strand) (f : StrandState → StrandState) : (Hall.onStrand H st f).hzClock = H.hzClock := rfl
@[simp] theorem onStrandH_posts (H : Hall) (st : Strand) (f : StrandState → StrandState) : (Hall.onStrand H st f).posts = H.posts := rfl
@[simp] theorem onStrandH_readings (H : Hall) (st : Strand) (f : StrandState → StrandState) : (Hall.onStrand H st f).readings = H.readings := rfl
@[simp] theorem onStrandH_tileWrites (H : Hall) (st : Strand) (f : StrandState → StrandState) : (Hall.onStrand H st f).tileWrites = H.tileWrites := rfl
@[simp] theorem onStrandH_sampledHq (H : Hall) (st : Strand) (f : StrandState → StrandState) : (Hall.onStrand H st f).sampledHq = H.sampledHq := rfl
@[simp] theorem onStrandH_sampledMq (H : Hall) (st : Strand) (f : StrandState → StrandState) : (Hall.onStrand H st f).sampledMq = H.sampledMq := rfl
@[simp] theorem onStrandH_sampledCq (H : Hall) (st : Strand) (f : StrandState → StrandState) : (Hall.onStrand H st f).sampledCq = H.sampledCq := rfl
@[simp] theorem onStrandH_hzRead (H : Hall) (st : Strand) (f : StrandState → StrandState) : (Hall.onStrand H st f).hzRead = H.hzRead := rfl
@[simp] theorem onStrandH_mxRead (H : Hall) (st : Strand) (f : StrandState → StrandState) : (Hall.onStrand H st f).mxRead = H.mxRead := rfl
@[simp] theorem onStrandH_cpRead (H : Hall) (st : Strand) (f : StrandState → StrandState) : (Hall.onStrand H st f).cpRead = H.cpRead := rfl
@[simp] theorem onStrandH_sampledEv (H : Hall) (st : Strand) (f : StrandState → StrandState) : (Hall.onStrand H st f).sampledEv = H.sampledEv := rfl
@[simp] theorem onStrandH_sampledTok (H : Hall) (st : Strand) (f : StrandState → StrandState) : (Hall.onStrand H st f).sampledTok = H.sampledTok := rfl
@[simp] theorem onStrandH_csrWrites (H : Hall) (st : Strand) (f : StrandState → StrandState) : (Hall.onStrand H st f).csrWrites = H.csrWrites := rfl
@[simp] theorem onStrandH_takes (H : Hall) (st : Strand) (f : StrandState → StrandState) : (Hall.onStrand H st f).takes = H.takes := rfl
@[simp] theorem onStrandH_postsNow (H : Hall) (st : Strand) (f : StrandState → StrandState) : (Hall.onStrand H st f).postsNow = H.postsNow := rfl
@[simp] theorem onStrandH_overlay (H : Hall) (st : Strand) (f : StrandState → StrandState) : (Hall.onStrand H st f).overlay = H.overlay := rfl
@[simp] theorem onStrandH_storeNo (H : Hall) (st : Strand) (f : StrandState → StrandState) : (Hall.onStrand H st f).storeNo = H.storeNo := rfl
@[simp] theorem onStrandH_syncGo (H : Hall) (st : Strand) (f : StrandState → StrandState) : (Hall.onStrand H st f).syncGo = H.syncGo := rfl
@[simp] theorem onStrandH_syncTried (H : Hall) (st : Strand) (f : StrandState → StrandState) : (Hall.onStrand H st f).syncTried = H.syncTried := rfl
@[simp] theorem onStrandH_errKind (H : Hall) (st : Strand) (f : StrandState → StrandState) : (Hall.onStrand H st f).errKind = H.errKind := rfl
@[simp] theorem onStrandH_errAfter (H : Hall) (st : Strand) (f : StrandState → StrandState) : (Hall.onStrand H st f).errAfter = H.errAfter := rfl
@[simp] theorem onStrandH_errCount (H : Hall) (st : Strand) (f : StrandState → StrandState) : (Hall.onStrand H st f).errCount = H.errCount := rfl
@[simp] theorem onStrandH_errHit (H : Hall) (st : Strand) (f : StrandState → StrandState) : (Hall.onStrand H st f).errHit = H.errHit := rfl
@[simp] theorem onStrandH_poolSize (H : Hall) (st : Strand) (f : StrandState → StrandState) : (Hall.onStrand H st f).poolSize = H.poolSize := rfl
@[simp] theorem onStrandH_rebind (H : Hall) (st : Strand) (f : StrandState → StrandState) : (Hall.onStrand H st f).rebind = H.rebind := rfl
@[simp] theorem onStrandH_hzEntered (H : Hall) (st : Strand) (f : StrandState → StrandState) : (Hall.onStrand H st f).hzEntered = H.hzEntered := rfl
@[simp] theorem onStrandH_poolAge (H : Hall) (st : Strand) (f : StrandState → StrandState) : (Hall.onStrand H st f).poolAge = H.poolAge := rfl
@[simp] theorem onStrandH_poolReq (H : Hall) (st : Strand) (f : StrandState → StrandState) : (Hall.onStrand H st f).poolReq = H.poolReq := rfl
@[simp] theorem onStrandH_corrected (H : Hall) (st : Strand) (f : StrandState → StrandState) : (Hall.onStrand H st f).corrected = H.corrected := rfl
@[simp] theorem onStrandH_boostReq (H : Hall) (st : Strand) (f : StrandState → StrandState) : (Hall.onStrand H st f).boostReq = H.boostReq := rfl
@[simp] theorem onStrandH_boostFrom (H : Hall) (st : Strand) (f : StrandState → StrandState) : (Hall.onStrand H st f).boostFrom = H.boostFrom := rfl
@[simp] theorem onStrandH_boostGrant (H : Hall) (st : Strand) (f : StrandState → StrandState) : (Hall.onStrand H st f).boostGrant = H.boostGrant := rfl
@[simp] theorem onStrandH_boostPermits (H : Hall) (st : Strand) (f : StrandState → StrandState) : (Hall.onStrand H st f).boostPermits = H.boostPermits := rfl
@[simp] theorem onStrandH_busyRows (H : Hall) (st : Strand) (f : StrandState → StrandState) : (Hall.onStrand H st f).busyRows = H.busyRows := rfl
@[simp] theorem onStrandH_band (H : Hall) (st : Strand) (f : StrandState → StrandState) : (Hall.onStrand H st f).band = H.band := rfl
@[simp] theorem onStrandH_tempC (H : Hall) (st : Strand) (f : StrandState → StrandState) : (Hall.onStrand H st f).tempC = H.tempC := rfl
@[simp] theorem onStrandH_auto (H : Hall) (st : Strand) (f : StrandState → StrandState) : (Hall.onStrand H st f).auto = H.auto := rfl
@[simp] theorem onStrandH_firstRead (H : Hall) (st : Strand) (f : StrandState → StrandState) : (Hall.onStrand H st f).firstRead = H.firstRead := rfl
@[simp] theorem onStrandH_ageAcc (H : Hall) (st : Strand) (f : StrandState → StrandState) : (Hall.onStrand H st f).ageAcc = H.ageAcc := rfl
@[simp] theorem onStrandH_ageTick (H : Hall) (st : Strand) (f : StrandState → StrandState) : (Hall.onStrand H st f).ageTick = H.ageTick := rfl
@[simp] theorem onStrandH_noBeat (H : Hall) (st : Strand) (f : StrandState → StrandState) : (Hall.onStrand H st f).noBeat = H.noBeat := rfl
@[simp] theorem onStrandH_sweeping (H : Hall) (st : Strand) (f : StrandState → StrandState) : (Hall.onStrand H st f).sweeping = H.sweeping := rfl
@[simp] theorem onStrandH_sinceSweep (H : Hall) (st : Strand) (f : StrandState → StrandState) : (Hall.onStrand H st f).sinceSweep = H.sinceSweep := rfl
@[simp] theorem onStrandH_rejoin (H : Hall) (st : Strand) (f : StrandState → StrandState) : (Hall.onStrand H st f).rejoin = H.rejoin := rfl
@[simp] theorem onStrandH_wipeEnds (H : Hall) (st : Strand) (f : StrandState → StrandState) : (Hall.onStrand H st f).wipeEnds = H.wipeEnds := rfl
@[simp] theorem onStrandH_deque (H : Hall) (st : Strand) (f : StrandState → StrandState) : (Hall.onStrand H st f).deque = H.deque := rfl
@[simp] theorem onStrandH_recSeq (H : Hall) (st : Strand) (f : StrandState → StrandState) : (Hall.onStrand H st f).recSeq = H.recSeq := rfl
@[simp] theorem onStrandH_stealAt (H : Hall) (st : Strand) (f : StrandState → StrandState) : (Hall.onStrand H st f).stealAt = H.stealAt := rfl
@[simp] theorem onStrandH_stealIdx (H : Hall) (st : Strand) (f : StrandState → StrandState) : (Hall.onStrand H st f).stealIdx = H.stealIdx := rfl
@[simp] theorem onStrandH_asking (H : Hall) (st : Strand) (f : StrandState → StrandState) : (Hall.onStrand H st f).asking = H.asking := rfl
@[simp] theorem onStrandH_preempt (H : Hall) (st : Strand) (f : StrandState → StrandState) : (Hall.onStrand H st f).preempt = H.preempt := rfl
@[simp] theorem onStrandH_trap (H : Hall) (st : Strand) (f : StrandState → StrandState) : (Hall.onStrand H st f).trap = H.trap := rfl
@[simp] theorem onStrandH_back (H : Hall) (st : Strand) (f : StrandState → StrandState) : (Hall.onStrand H st f).back = H.back := rfl
@[simp] theorem onStrandH_switch (H : Hall) (st : Strand) (f : StrandState → StrandState) : (Hall.onStrand H st f).switch = H.switch := rfl
@[simp] theorem onStrandH_ranges (H : Hall) (st : Strand) (f : StrandState → StrandState) : (Hall.onStrand H st f).ranges = H.ranges := rfl
@[simp] theorem onStrandH_pages (H : Hall) (st : Strand) (f : StrandState → StrandState) : (Hall.onStrand H st f).pages = H.pages := rfl
@[simp] theorem onStrandH_walkFaults (H : Hall) (st : Strand) (f : StrandState → StrandState) : (Hall.onStrand H st f).walkFaults = H.walkFaults := rfl
@[simp] theorem onStrandH_levelTicks (H : Hall) (st : Strand) (f : StrandState → StrandState) : (Hall.onStrand H st f).levelTicks = H.levelTicks := rfl
@[simp] theorem onStrandH_restore (H : Hall) (st : Strand) (f : StrandState → StrandState) : (Hall.onStrand H st f).restore = H.restore := rfl

@[simp] theorem onStrandH_strand (H : Hall) (st : Strand) (f : StrandState → StrandState) :
    (Hall.onStrand H st f).work.strand st = f (H.work.strand st) := strand_setStrand_same _ _ _
@[simp] theorem me_onMe (s : State) (f : StrandState → StrandState) : (s.onMe f).me = f s.me := by
  simp [State.me]

/-! Registers (R13). -/

@[simp] theorem reg_zero (x : StrandState) : x.reg 0 = 0 := rfl
@[simp] theorem pred_zero (x : StrandState) : x.pred 0 = true := rfl
@[simp] theorem setReg_zero (x : StrandState) (v : Word) : x.setReg 0 v = x := rfl
@[simp] theorem setPred_zero (x : StrandState) (v : Bool) : x.setPred 0 v = x := rfl
/-- A scalar register other than s0 reads what was written. -/
theorem reg_setReg_same (x : StrandState) (n : Nat) (v : Word) (h0 : n ≠ 0) (h : n < 64) : (x.setReg n v).reg n = v := by
  simp [StrandState.reg, StrandState.setReg, h0, h]
/-- The other scalar registers read as before. -/
theorem reg_setReg_ne (x : StrandState) (n m : Nat) (v : Word) (h : m ≠ n) : (x.setReg n v).reg m = x.reg m := by
  unfold StrandState.reg StrandState.setReg
  by_cases h0 : n = 0 <;> simp [h0, Ne.symm h]
/-- A predicate other than p0 reads what was written. -/
theorem pred_setPred_same (x : StrandState) (n : Nat) (v : Bool) (h0 : n ≠ 0) (h : n < 8) : (x.setPred n v).pred n = v := by
  simp [StrandState.pred, StrandState.setPred, h0, h]
/-- The other predicates read as before. -/
theorem pred_setPred_ne (x : StrandState) (n m : Nat) (v : Bool) (h : m ≠ n) : (x.setPred n v).pred m = x.pred m := by
  unfold StrandState.pred StrandState.setPred
  by_cases h0 : n = 0 <;> simp [h0, Ne.symm h]

end Sys2Proof.Laws
end

