-- ==== Sys2Proof/Laws/Ops.lean ====
section
/-! SUPPORT. What the shared operations of Ops.lean can do, one lemma each. -/

namespace Sys2Proof.Laws
open Sys2Proof.Machine

/-- A change of the strand at issue is a change of nothing else. -/
theorem onMe_onlyStrand (s : State) (f : StrandState → StrandState) (i r : Bool) (g : Option Word) :
    OnlyStrand s { s.onMe f with issued := i, trapped := r, target := g } := by
  refine ⟨⟨rfl, fun h hn => hall_onHall_ne s s.curHall h (Hall.onStrand · s.curStrand f) hn⟩, ?_, ?_, ?_⟩
  · change (s.onMe f).here = { s.here with work := (s.onMe f).here.work }
    rw [here_onMe]; rfl
  · intro st hst
    change (s.onMe f).here.work.strand st = _
    rw [here_onMe]; exact strand_setStrand_ne _ _ _ _ hst
  · change (s.onMe f).here.work =
      { s.here.work with S := (s.onMe f).here.work.S, L := (s.onMe f).here.work.L, V := (s.onMe f).here.work.V, M := (s.onMe f).here.work.M }
    rw [here_onMe]; exact setStrand_work _ _ _

/-- A change of the Hall at issue that leaves its overlay alone leaves memory alone. -/
theorem onHere_sameMemory (s : State) (f : Hall → Hall) (i r : Bool) (g : Option Word) (h : (f s.here).overlay = s.here.overlay) :
    SameMemory s { s.onHere f with issued := i, trapped := r, target := g } := by
  refine ⟨fun _ => rfl, ?_, rfl, rfl, rfl, rfl⟩
  intro k
  by_cases hk : k = s.curHall
  · subst hk
    change (s.onHere f).here.overlay = s.here.overlay
    rw [here_onHere]; exact h
  · exact congrArg Hall.overlay (hall_onHall_ne s _ k f hk)

/-- A fixed-latency result (R20). -/
theorem result_issue (s : State) (lat : Nat) (us : List Upd) : Results s (s.result lat us).issue lat s.me.divFree us :=
  ⟨rfl, rfl, rfl, me_onMe s _, onMe_onlyStrand s _ _ _ _, onHere_sameMemory s _ _ _ _ rfl⟩

/-- A syllable whose registers can be read does what it does. -/
theorem reading_readable (s : State) (rd : List Src) (k : State → State) (h : Readable s rd) : s.reading rd k = k s := by
  unfold State.reading; rw [show s.me.stallShort rd = false from h]; rfl

/-- A syllable that only computes, and whose registers can be read, has its result pending (R20). -/
theorem compute_results (s : State) (rd : List Src) (lat : Nat) (us : List Upd) (h : Readable s rd) :
    Results s (s.compute rd lat us) lat s.me.divFree us := by
  unfold State.compute; rw [reading_readable s rd _ h]; exact result_issue s lat us

/-- A freeze (R16, R19). -/
theorem freeze_freezes (s : State) : Freezes s s.freeze :=
  ⟨rfl, rfl, me_onMe s _, onMe_onlyStrand s _ _ _ _, onHere_sameMemory s _ _ _ _ rfl⟩

/-- A wait for a unit (R16). -/
theorem hold_holds (s : State) : Holds s s.hold := ⟨rfl, rfl⟩

/-- A trap at the syllable, when nothing has stopped the slice (R392). -/
theorem trapHere_traps (s : State) (i : TrapInfo) (h : Unstopped s) : Traps s (s.trapHere i) i := by
  have e : s.raise s.curHall s.curStrand i = s.onHere fun H => H.stopFor s.curStrand i := by
    unfold State.raise State.onHere State.onHall
    congr 1; simp only [show (s.hall s.curHall).trap = none from h.1]
  have u : s.here.unend = s.here := by
    unfold Hall.unend
    split
    · rfl
    · rename_i sl hs; split
      · rfl
      · rw [h.2.2 sl hs]; rfl
  have f : s.here.stopFor s.curStrand i =
      { s.here with trap := some { strand := s.curStrand, info := i, cycle := s.here.cycle, complete := false, queued := false, told := false, held := none } } := by
    unfold Hall.stopFor
    dsimp only
    rw [u, h.2.1]
  have hh : (s.trapHere i).here = s.here.stopFor s.curStrand i := by
    unfold State.trapHere; rw [e]; exact here_onHere s fun H => H.stopFor s.curStrand i
  refine ⟨rfl, rfl, ?_, ?_, ?_, ?_⟩
  · rw [hh, f]
  · rw [hh, f]
  · unfold State.trapHere; rw [e]; exact ⟨rfl, fun k hk => hall_onHall_ne s s.curHall k (fun H => H.stopFor s.curStrand i) hk⟩
  · unfold State.trapHere; rw [e]; exact onHere_sameMemory s _ _ _ _ (by rw [f])

/-- A read of a register with a pending write, under the scoreboard (R22). -/
theorem reading_stalls (s : State) (rd : List Src) (k : State → State) (h : s.me.stallShort rd = true) (hu : Unstopped s) :
    Traps s (s.reading rd k) { cause := .STALL_SHORT } := by
  unfold State.reading; rw [h]; exact trapHere_traps s _ hu

/-- A syllable that only computes and one of whose operands has a pending write under the scoreboard (R22). -/
theorem compute_stalls (s : State) (rd : List Src) (lat : Nat) (us : List Upd) (h : s.me.stallShort rd = true) (hu : Unstopped s) :
    Traps s (s.compute rd lat us) { cause := .STALL_SHORT } := reading_stalls s rd _ h hu

/-- A division or root whose divider is free (R119). -/
theorem onDivider_results (s : State) (rd : List Src) (n lat : Nat) (us : List Upd) (k : State → State) (hk : k s = s.compute rd lat us)
    (h : Readable s rd) (hd : s.me.divFree ≤ s.me.local_) : Results s (s.onDivider n k) lat (s.me.local_ + n) us := by
  have e : s.onDivider n k = ((s.result lat us).onMe fun x => { x with divFree := s.me.local_ + n }).issue := by
    unfold State.onDivider
    rw [if_neg (Nat.not_lt.2 hd), hk]; unfold State.compute; rw [reading_readable s rd _ h]; rfl
  have hm : ((s.result lat us).onMe fun x => { x with divFree := s.me.local_ + n }) =
      s.onMe fun x => { x with seq := x.seq + 1, divFree := s.me.local_ + n,
                               pends := x.pends ++ [{ seq := x.seq, due := x.local_ + lat, upds := us }] } := by
    simp only [State.result, State.onMe, State.onStrand, State.onHall, State.setHall, State.hall, Hall.onStrand, State.mk.injEq,
      Vector.set_set, Vector.getElem_set_self, strand_setStrand_same, true_and, and_true]
    cases s.curStrand <;> rfl
  rw [e, hm]
  exact ⟨rfl, rfl, rfl, me_onMe s _, onMe_onlyStrand s _ _ _ _, onHere_sameMemory s _ _ _ _ rfl⟩

/-- A division or root whose divider is busy (R119, R16). -/
theorem onDivider_holds (s : State) (n : Nat) (k : State → State) (hd : s.me.local_ < s.me.divFree) : Holds s (s.onDivider n k) := by
  unfold State.onDivider; rw [if_pos hd]; exact hold_holds s

/-- A division or root whose divider is free and one of whose operands has a pending write (R22). -/
theorem onDivider_stalls (s : State) (rd : List Src) (n lat : Nat) (us : List Upd) (k : State → State) (hk : k s = s.compute rd lat us)
    (hd : s.me.divFree ≤ s.me.local_) (h : s.me.stallShort rd = true) (hu : Unstopped s) :
    Traps s (s.onDivider n k) { cause := .STALL_SHORT } := by
  have ht := compute_stalls s rd lat us h hu
  unfold State.onDivider
  rw [if_neg (Nat.not_lt.2 hd), hk]
  simp only [ht.issued, Bool.false_eq_true, if_false]
  exact ht

end Sys2Proof.Laws
end

