-- ==== Sys2Proof/Laws/PerInstr.lean ====
section
/-! SUPPORT. Statements about instructions as syntax, one lemma for each: a well-formed one has an encoding, and a step that is no syllable
has none. -/

namespace Sys2Proof

/-- The instruction has an encoding when it is well-formed. -/
def Laws.Encodes.Statement (i : Instr) : Prop := WellFormed i = true → (encodeOp i).isSome = true

theorem Laws.Encodes.add (x0 x1 x2 : BitVec 6) : Laws.Encodes.Statement (.add x0 x1 x2) := fun _ => rfl
theorem Laws.Encodes.sub (x0 x1 x2 : BitVec 6) : Laws.Encodes.Statement (.sub x0 x1 x2) := fun _ => rfl
theorem Laws.Encodes.mul (x0 x1 x2 : BitVec 6) : Laws.Encodes.Statement (.mul x0 x1 x2) := fun _ => rfl
theorem Laws.Encodes.mulh (x0 x1 x2 : BitVec 6) : Laws.Encodes.Statement (.mulh x0 x1 x2) := fun _ => rfl
theorem Laws.Encodes.mulhu (x0 x1 x2 : BitVec 6) : Laws.Encodes.Statement (.mulhu x0 x1 x2) := fun _ => rfl
theorem Laws.Encodes.div (x0 x1 x2 : BitVec 6) : Laws.Encodes.Statement (.div x0 x1 x2) := fun _ => rfl
theorem Laws.Encodes.divu (x0 x1 x2 : BitVec 6) : Laws.Encodes.Statement (.divu x0 x1 x2) := fun _ => rfl
theorem Laws.Encodes.rem (x0 x1 x2 : BitVec 6) : Laws.Encodes.Statement (.rem x0 x1 x2) := fun _ => rfl
theorem Laws.Encodes.remu (x0 x1 x2 : BitVec 6) : Laws.Encodes.Statement (.remu x0 x1 x2) := fun _ => rfl
theorem Laws.Encodes.and (x0 x1 x2 : BitVec 6) : Laws.Encodes.Statement (.and x0 x1 x2) := fun _ => rfl
theorem Laws.Encodes.or (x0 x1 x2 : BitVec 6) : Laws.Encodes.Statement (.or x0 x1 x2) := fun _ => rfl
theorem Laws.Encodes.xor (x0 x1 x2 : BitVec 6) : Laws.Encodes.Statement (.xor x0 x1 x2) := fun _ => rfl
theorem Laws.Encodes.andn (x0 x1 x2 : BitVec 6) : Laws.Encodes.Statement (.andn x0 x1 x2) := fun _ => rfl
theorem Laws.Encodes.shl (x0 x1 x2 : BitVec 6) : Laws.Encodes.Statement (.shl x0 x1 x2) := fun _ => rfl
theorem Laws.Encodes.shr (x0 x1 x2 : BitVec 6) : Laws.Encodes.Statement (.shr x0 x1 x2) := fun _ => rfl
theorem Laws.Encodes.sar (x0 x1 x2 : BitVec 6) : Laws.Encodes.Statement (.sar x0 x1 x2) := fun _ => rfl
theorem Laws.Encodes.rol (x0 x1 x2 : BitVec 6) : Laws.Encodes.Statement (.rol x0 x1 x2) := fun _ => rfl
theorem Laws.Encodes.ror (x0 x1 x2 : BitVec 6) : Laws.Encodes.Statement (.ror x0 x1 x2) := fun _ => rfl
theorem Laws.Encodes.min (x0 x1 x2 : BitVec 6) : Laws.Encodes.Statement (.min x0 x1 x2) := fun _ => rfl
theorem Laws.Encodes.max (x0 x1 x2 : BitVec 6) : Laws.Encodes.Statement (.max x0 x1 x2) := fun _ => rfl
theorem Laws.Encodes.minu (x0 x1 x2 : BitVec 6) : Laws.Encodes.Statement (.minu x0 x1 x2) := fun _ => rfl
theorem Laws.Encodes.maxu (x0 x1 x2 : BitVec 6) : Laws.Encodes.Statement (.maxu x0 x1 x2) := fun _ => rfl
theorem Laws.Encodes.abs (x0 x1 : BitVec 6) : Laws.Encodes.Statement (.abs x0 x1) := fun _ => rfl
theorem Laws.Encodes.clz (x0 x1 : BitVec 6) : Laws.Encodes.Statement (.clz x0 x1) := fun _ => rfl
theorem Laws.Encodes.ctz (x0 x1 : BitVec 6) : Laws.Encodes.Statement (.ctz x0 x1) := fun _ => rfl
theorem Laws.Encodes.popc (x0 x1 : BitVec 6) : Laws.Encodes.Statement (.popc x0 x1) := fun _ => rfl
theorem Laws.Encodes.brev (x0 x1 : BitVec 6) : Laws.Encodes.Statement (.brev x0 x1) := fun _ => rfl
theorem Laws.Encodes.sext (x0 x1 : BitVec 6) (x2 : ExtW) : Laws.Encodes.Statement (.sext x0 x1 x2) := fun _ => rfl
theorem Laws.Encodes.zext (x0 x1 : BitVec 6) (x2 : ExtW) : Laws.Encodes.Statement (.zext x0 x1 x2) := fun _ => rfl
theorem Laws.Encodes.sel (x0 x1 x2 x3 : BitVec 6) : Laws.Encodes.Statement (.sel x0 x1 x2 x3) := fun _ => rfl
theorem Laws.Encodes.lea (x0 x1 x2 : BitVec 6) (x3 : BitVec 3) : Laws.Encodes.Statement (.lea x0 x1 x2 x3) := fun _ => rfl
theorem Laws.Encodes.bext (x0 x1 x2 x3 : BitVec 6) (x4 : Bool) : Laws.Encodes.Statement (.bext x0 x1 x2 x3 x4) := fun _ => rfl
theorem Laws.Encodes.bins (x0 x1 x2 x3 : BitVec 6) : Laws.Encodes.Statement (.bins x0 x1 x2 x3) := fun _ => rfl
theorem Laws.Encodes.addi (x0 x1 : BitVec 6) (x2 : BitVec 28) : Laws.Encodes.Statement (.addi x0 x1 x2) := fun _ => rfl
theorem Laws.Encodes.muli (x0 x1 : BitVec 6) (x2 : BitVec 28) : Laws.Encodes.Statement (.muli x0 x1 x2) := fun _ => rfl
theorem Laws.Encodes.andi (x0 x1 : BitVec 6) (x2 : BitVec 28) : Laws.Encodes.Statement (.andi x0 x1 x2) := fun _ => rfl
theorem Laws.Encodes.ori (x0 x1 : BitVec 6) (x2 : BitVec 28) : Laws.Encodes.Statement (.ori x0 x1 x2) := fun _ => rfl
theorem Laws.Encodes.xori (x0 x1 : BitVec 6) (x2 : BitVec 28) : Laws.Encodes.Statement (.xori x0 x1 x2) := fun _ => rfl
theorem Laws.Encodes.shli (x0 x1 x2 : BitVec 6) : Laws.Encodes.Statement (.shli x0 x1 x2) := fun _ => rfl
theorem Laws.Encodes.shri (x0 x1 x2 : BitVec 6) : Laws.Encodes.Statement (.shri x0 x1 x2) := fun _ => rfl
theorem Laws.Encodes.sari (x0 x1 x2 : BitVec 6) : Laws.Encodes.Statement (.sari x0 x1 x2) := fun _ => rfl
theorem Laws.Encodes.movi (x0 : BitVec 6) (x1 : BitVec 34) : Laws.Encodes.Statement (.movi x0 x1) := fun _ => rfl
theorem Laws.Encodes.movhi (x0 : BitVec 6) (x1 : BitVec 32) : Laws.Encodes.Statement (.movhi x0 x1) := fun _ => rfl
theorem Laws.Encodes.bexti (x0 x1 : BitVec 6) (x2 x3 : BitVec 7) (x4 : Bool) : Laws.Encodes.Statement (.bexti x0 x1 x2 x3 x4) := fun _ => rfl
theorem Laws.Encodes.binsi (x0 x1 : BitVec 6) (x2 x3 : BitVec 7) : Laws.Encodes.Statement (.binsi x0 x1 x2 x3) := fun _ => rfl
theorem Laws.Encodes.cmp (x0 : Cond) (x1 x2 : BitVec 3) (x3 x4 : BitVec 6) : Laws.Encodes.Statement (.cmp x0 x1 x2 x3 x4) := fun _ => rfl
theorem Laws.Encodes.cmpi (x0 : Cond) (x1 x2 : BitVec 3) (x3 : BitVec 6) (x4 : BitVec 25) : Laws.Encodes.Statement (.cmpi x0 x1 x2 x3 x4) := fun _ => rfl
theorem Laws.Encodes.fcmp (x0 : FCond) (x1 x2 : BitVec 3) (x3 x4 : BitVec 6) : Laws.Encodes.Statement (.fcmp x0 x1 x2 x3 x4) := fun _ => rfl
theorem Laws.Encodes.plog (x0 x1 x2 x3 : BitVec 3) (x4 : BitVec 4) : Laws.Encodes.Statement (.plog x0 x1 x2 x3 x4) := fun _ => rfl
theorem Laws.Encodes.pget (x0 : BitVec 6) : Laws.Encodes.Statement (.pget x0) := fun _ => rfl
theorem Laws.Encodes.pset (x0 : BitVec 6) (x1 : BitVec 8) : Laws.Encodes.Statement (.pset x0 x1) := fun _ => rfl
theorem Laws.Encodes.fadd (x0 x1 x2 : BitVec 6) : Laws.Encodes.Statement (.fadd x0 x1 x2) := fun _ => rfl
theorem Laws.Encodes.fsub (x0 x1 x2 : BitVec 6) : Laws.Encodes.Statement (.fsub x0 x1 x2) := fun _ => rfl
theorem Laws.Encodes.fmul (x0 x1 x2 : BitVec 6) : Laws.Encodes.Statement (.fmul x0 x1 x2) := fun _ => rfl
theorem Laws.Encodes.ffma (x0 x1 x2 x3 : BitVec 6) : Laws.Encodes.Statement (.ffma x0 x1 x2 x3) := fun _ => rfl
theorem Laws.Encodes.fmin (x0 x1 x2 : BitVec 6) : Laws.Encodes.Statement (.fmin x0 x1 x2) := fun _ => rfl
theorem Laws.Encodes.fmax (x0 x1 x2 : BitVec 6) : Laws.Encodes.Statement (.fmax x0 x1 x2) := fun _ => rfl
theorem Laws.Encodes.fdiv (x0 x1 x2 : BitVec 6) : Laws.Encodes.Statement (.fdiv x0 x1 x2) := fun _ => rfl
theorem Laws.Encodes.fsqrt (x0 x1 : BitVec 6) : Laws.Encodes.Statement (.fsqrt x0 x1) := fun _ => rfl
theorem Laws.Encodes.fcvt (x0 x1 : CTy) (x2 : Bool) (x3 x4 : BitVec 6) : Laws.Encodes.Statement (.fcvt x0 x1 x2 x3 x4) := fun _ => rfl
theorem Laws.Encodes.pb (x0 : BitVec 2) (x1 : BitVec 38) : Laws.Encodes.Statement (.pb x0 x1) := fun _ => rfl
theorem Laws.Encodes.pba (x0 x1 : BitVec 6) (x2 : BitVec 28) : Laws.Encodes.Statement (.pba x0 x1 x2) := fun _ => rfl
theorem Laws.Encodes.br (x0 : BitVec 6) : Laws.Encodes.Statement (.br x0) := fun _ => rfl
theorem Laws.Encodes.call (x0 x1 : BitVec 6) : Laws.Encodes.Statement (.call x0 x1) := fun _ => rfl
theorem Laws.Encodes.ret (x0 : BitVec 6) : Laws.Encodes.Statement (.ret x0) := fun _ => rfl
theorem Laws.Encodes.loop (x0 x1 : BitVec 6) : Laws.Encodes.Statement (.loop x0 x1) := fun _ => rfl
theorem Laws.Encodes.nop : Laws.Encodes.Statement (.nop) := fun _ => rfl
theorem Laws.Encodes.evPost (x0 : BitVec 6) : Laws.Encodes.Statement (.evPost x0) := fun _ => rfl
theorem Laws.Encodes.evWait (x0 : BitVec 6) : Laws.Encodes.Statement (.evWait x0) := fun _ => rfl
theorem Laws.Encodes.evPostx (x0 x1 : BitVec 6) : Laws.Encodes.Statement (.evPostx x0 x1) := fun _ => rfl
theorem Laws.Encodes.evTest (x0 x1 : BitVec 3) (x2 : BitVec 6) : Laws.Encodes.Statement (.evTest x0 x1 x2) := fun _ => rfl
theorem Laws.Encodes.ldB (x0 x1 : BitVec 6) (x2 : BitVec 16) (x3 : BitVec 12) : Laws.Encodes.Statement (.ldB x0 x1 x2 x3) := fun _ => rfl
theorem Laws.Encodes.ldBz (x0 x1 : BitVec 6) (x2 : BitVec 16) (x3 : BitVec 12) : Laws.Encodes.Statement (.ldBz x0 x1 x2 x3) := fun _ => rfl
theorem Laws.Encodes.ldH (x0 x1 : BitVec 6) (x2 : BitVec 16) (x3 : BitVec 12) : Laws.Encodes.Statement (.ldH x0 x1 x2 x3) := fun _ => rfl
theorem Laws.Encodes.ldHz (x0 x1 : BitVec 6) (x2 : BitVec 16) (x3 : BitVec 12) : Laws.Encodes.Statement (.ldHz x0 x1 x2 x3) := fun _ => rfl
theorem Laws.Encodes.ldW (x0 x1 : BitVec 6) (x2 : BitVec 16) (x3 : BitVec 12) : Laws.Encodes.Statement (.ldW x0 x1 x2 x3) := fun _ => rfl
theorem Laws.Encodes.ldWz (x0 x1 : BitVec 6) (x2 : BitVec 16) (x3 : BitVec 12) : Laws.Encodes.Statement (.ldWz x0 x1 x2 x3) := fun _ => rfl
theorem Laws.Encodes.ldD (x0 x1 : BitVec 6) (x2 : BitVec 16) (x3 : BitVec 12) : Laws.Encodes.Statement (.ldD x0 x1 x2 x3) := fun _ => rfl
theorem Laws.Encodes.stB (x0 x1 : BitVec 6) (x2 : BitVec 16) : Laws.Encodes.Statement (.stB x0 x1 x2) := fun _ => rfl
theorem Laws.Encodes.stH (x0 x1 : BitVec 6) (x2 : BitVec 16) : Laws.Encodes.Statement (.stH x0 x1 x2) := fun _ => rfl
theorem Laws.Encodes.stW (x0 x1 : BitVec 6) (x2 : BitVec 16) : Laws.Encodes.Statement (.stW x0 x1 x2) := fun _ => rfl
theorem Laws.Encodes.stD (x0 x1 : BitVec 6) (x2 : BitVec 16) : Laws.Encodes.Statement (.stD x0 x1 x2) := fun _ => rfl
theorem Laws.Encodes.amo (x0 : AmoOp) (x1 : Width) (x2 : Scope) (x3 : Order) (x4 x5 x6 : BitVec 6) (x7 : BitVec 12) : Laws.Encodes.Statement (.amo x0 x1 x2 x3 x4 x5 x6 x7) := fun _ => rfl
theorem Laws.Encodes.cas (x0 : Width) (x1 : Scope) (x2 : Order) (x3 x4 x5 : BitVec 6) (x6 : BitVec 12) : Laws.Encodes.Statement (.cas x0 x1 x2 x3 x4 x5 x6) := fun _ => rfl
theorem Laws.Encodes.stmr (x0 : Width) (x1 x2 : BitVec 6) : Laws.Encodes.Statement (.stmr x0 x1 x2) := fun _ => rfl
theorem Laws.Encodes.phase (x0 : Scope) : Laws.Encodes.Statement (.phase x0) := fun _ => rfl
theorem Laws.Encodes.fenceMk (x0 : BitVec 3) : Laws.Encodes.Statement (.fenceMk x0) := fun _ => rfl
theorem Laws.Encodes.join : Laws.Encodes.Statement (.join) := fun _ => rfl
theorem Laws.Encodes.gjoin (x0 : Scope) (x1 x2 : BitVec 6) (x3 : BitVec 12) : Laws.Encodes.Statement (.gjoin x0 x1 x2 x3) := fun _ => rfl
theorem Laws.Encodes.gleave (x0 : BitVec 6) : Laws.Encodes.Statement (.gleave x0) := fun _ => rfl
theorem Laws.Encodes.barArrive (x0 : BitVec 6) : Laws.Encodes.Statement (.barArrive x0) := fun _ => rfl
theorem Laws.Encodes.barWait (x0 : BitVec 6) : Laws.Encodes.Statement (.barWait x0) := fun _ => rfl
theorem Laws.Encodes.barSync (x0 : BitVec 6) : Laws.Encodes.Statement (.barSync x0) := fun _ => rfl
theorem Laws.Encodes.csrr (x0 : BitVec 6) (x1 : BitVec 12) : Laws.Encodes.Statement (.csrr x0 x1) := fun _ => rfl
theorem Laws.Encodes.csrw (x0 : BitVec 12) (x1 : BitVec 6) : Laws.Encodes.Statement (.csrw x0 x1) := fun _ => rfl
theorem Laws.Encodes.trap (x0 : BitVec 16) : Laws.Encodes.Statement (.trap x0) := fun _ => rfl
theorem Laws.Encodes.eret : Laws.Encodes.Statement (.eret) := fun _ => rfl
theorem Laws.Encodes.tfence : Laws.Encodes.Statement (.tfence) := fun _ => rfl
theorem Laws.Encodes.ntag (x0 : BitVec 8) : Laws.Encodes.Statement (.ntag x0) := fun _ => rfl
theorem Laws.Encodes.sliceEnd : Laws.Encodes.Statement (.sliceEnd) := fun _ => rfl
theorem Laws.Encodes.sliceYield : Laws.Encodes.Statement (.sliceYield) := fun _ => rfl
theorem Laws.Encodes.rangeNext (x0 x1 : BitVec 6) (x2 : BitVec 12) : Laws.Encodes.Statement (.rangeNext x0 x1 x2) := fun _ => rfl
theorem Laws.Encodes.hintSucc : Laws.Encodes.Statement (.hintSucc) := fun _ => rfl
theorem Laws.Encodes.waitPred : Laws.Encodes.Statement (.waitPred) := fun _ => rfl
theorem Laws.Encodes.ckpt (x0 x1 : BitVec 6) : Laws.Encodes.Statement (.ckpt x0 x1) := fun _ => rfl
theorem Laws.Encodes.boostReq (x0 : Level) : Laws.Encodes.Statement (.boostReq x0) := fun _ => rfl
theorem Laws.Encodes.launch (x0 x1 : BitVec 6) : Laws.Encodes.Statement (.launch x0 x1) := fun _ => rfl
theorem Laws.Encodes.enqX (x0 x1 : BitVec 6) : Laws.Encodes.Statement (.enqX x0 x1) := fun _ => rfl
theorem Laws.Encodes.wsetBind (x0 x1 : BitVec 6) (x2 : BitVec 12) : Laws.Encodes.Statement (.wsetBind x0 x1 x2) := fun _ => rfl
theorem Laws.Encodes.freeze (x0 x1 x2 : BitVec 6) : Laws.Encodes.Statement (.freeze x0 x1 x2) := fun _ => rfl
theorem Laws.Encodes.thaw (x0 x1 x2 : BitVec 6) : Laws.Encodes.Statement (.thaw x0 x1 x2) := fun _ => rfl
theorem Laws.Encodes.track (x0 : TrackOp) (x1 x2 : BitVec 6) : Laws.Encodes.Statement (.track x0 x1 x2) := fun _ => rfl
theorem Laws.Encodes.rgnBegin : Laws.Encodes.Statement (.rgnBegin) := fun _ => rfl
theorem Laws.Encodes.rgnKeep (x0 : KeepKind) (x1 x2 : BitVec 6) : Laws.Encodes.Statement (.rgnKeep x0 x1 x2) := fun _ => rfl
theorem Laws.Encodes.rgnEnd : Laws.Encodes.Statement (.rgnEnd) := fun _ => rfl
theorem Laws.Encodes.rgnAbort : Laws.Encodes.Statement (.rgnAbort) := fun _ => rfl
theorem Laws.Encodes.rgnStat (x0 : BitVec 6) : Laws.Encodes.Statement (.rgnStat x0) := fun _ => rfl
theorem Laws.Encodes.lifeSet (x0 x1 : BitVec 6) (x2 : LifeClass) (x3 : LifePolicy) : Laws.Encodes.Statement (.lifeSet x0 x1 x2 x3) := fun _ => rfl
theorem Laws.Encodes.lifeAge (x0 x1 : BitVec 6) (x2 : BitVec 12) : Laws.Encodes.Statement (.lifeAge x0 x1 x2) := fun _ => rfl
theorem Laws.Encodes.lifeRef (x0 x1 : BitVec 6) : Laws.Encodes.Statement (.lifeRef x0 x1) := fun _ => rfl
theorem Laws.Encodes.ldt (x0 x1 : BitVec 6) (x2 : BitVec 16) (x3 : BitVec 12) : Laws.Encodes.Statement (.ldt x0 x1 x2 x3) := fun _ => rfl
theorem Laws.Encodes.stt (x0 x1 : BitVec 6) (x2 : BitVec 16) : Laws.Encodes.Statement (.stt x0 x1 x2) := fun _ => rfl
theorem Laws.Encodes.ldtG (x0 x1 x2 : BitVec 6) (x3 : BitVec 12) : Laws.Encodes.Statement (.ldtG x0 x1 x2 x3) := fun _ => rfl
theorem Laws.Encodes.sttS (x0 x1 x2 : BitVec 6) : Laws.Encodes.Statement (.sttS x0 x1 x2) := fun _ => rfl
theorem Laws.Encodes.sbind (x0 x1 : BitVec 6) (x2 : BitVec 12) : Laws.Encodes.Statement (.sbind x0 x1 x2) := fun _ => rfl
theorem Laws.Encodes.sstat (x0 x1 : BitVec 6) : Laws.Encodes.Statement (.sstat x0 x1) := fun _ => rfl
theorem Laws.Encodes.sdrop (x0 : BitVec 6) : Laws.Encodes.Statement (.sdrop x0) := fun _ => rfl
theorem Laws.Encodes.cp (x0 x1 x2 x3 : BitVec 6) (x4 : QCtl) : Laws.Encodes.Statement (.cp x0 x1 x2 x3 x4) := fun _ => rfl
theorem Laws.Encodes.cp2D (x0 x1 x2 x3 : BitVec 6) (x4 : QCtl) : Laws.Encodes.Statement (.cp2D x0 x1 x2 x3 x4) := fun _ => rfl
theorem Laws.Encodes.cpMm (x0 x1 x2 x3 : BitVec 6) (x4 : QCtl) : Laws.Encodes.Statement (.cpMm x0 x1 x2 x3 x4) := fun _ => rfl
theorem Laws.Encodes.cpFill (x0 x1 x2 x3 : BitVec 6) (x4 : QCtl) : Laws.Encodes.Statement (.cpFill x0 x1 x2 x3 x4) := fun _ => rfl
theorem Laws.Encodes.cpWait (x0 : Scope) (x1 x2 : BitVec 6) (x3 : BitVec 12) : Laws.Encodes.Statement (.cpWait x0 x1 x2 x3) := fun _ => rfl
theorem Laws.Encodes.cpResume (x0 : CopyKind) (x1 x2 x3 x4 : BitVec 6) (x5 : QCtl) : Laws.Encodes.Statement (.cpResume x0 x1 x2 x3 x4 x5) := fun _ => rfl
theorem Laws.Encodes.hzPool (x0 x1 : BitVec 6) (x2 : QCtl) : Laws.Encodes.Statement (.hzPool x0 x1 x2) := fun _ => rfl
theorem Laws.Encodes.hzRoot (x0 x1 : BitVec 6) (x2 : QCtl) : Laws.Encodes.Statement (.hzRoot x0 x1 x2) := fun _ => rfl
theorem Laws.Encodes.hzDesc (x0 x1 x2 : BitVec 6) (x3 : QCtl) : Laws.Encodes.Statement (.hzDesc x0 x1 x2 x3) := fun _ => rfl
theorem Laws.Encodes.hzExpand (x0 x1 x2 : BitVec 6) (x3 : QCtl) : Laws.Encodes.Statement (.hzExpand x0 x1 x2 x3) := fun _ => rfl
theorem Laws.Encodes.hzBack (x0 x1 x2 : BitVec 6) (x3 : QCtl) : Laws.Encodes.Statement (.hzBack x0 x1 x2 x3) := fun _ => rfl
theorem Laws.Encodes.hzSweep (x0 : BitVec 6) (x1 : QCtl) : Laws.Encodes.Statement (.hzSweep x0 x1) := fun _ => rfl
theorem Laws.Encodes.hzRead (x0 x1 x2 x3 : BitVec 6) (x4 : QCtl) : Laws.Encodes.Statement (.hzRead x0 x1 x2 x3 x4) := fun _ => rfl
theorem Laws.Encodes.vshape (x0 : ETy) (x1 : BitVec 6) (x2 : BitVec 4) (x3 : BitVec 8) : Laws.Encodes.Statement (.vshape x0 x1 x2 x3) := fun _ => rfl
theorem Laws.Encodes.vmov (x0 : ETy) (x1 x2 : BitVec 6) (x3 : BitVec 3) : Laws.Encodes.Statement (.vmov x0 x1 x2 x3) := fun _ => rfl
theorem Laws.Encodes.vsplat (x0 : ETy) (x1 x2 : BitVec 6) (x3 : BitVec 3) : Laws.Encodes.Statement (.vsplat x0 x1 x2 x3) := fun _ => rfl
theorem Laws.Encodes.vins (x0 : ETy) (x1 x2 : BitVec 6) (x3 : BitVec 4) (x4 : BitVec 8) (x5 : BitVec 3) : Laws.Encodes.Statement (.vins x0 x1 x2 x3 x4 x5) := fun _ => rfl
theorem Laws.Encodes.vext (x0 : ETy) (x1 x2 : BitVec 6) (x3 : BitVec 4) (x4 : BitVec 8) (x5 : BitVec 3) : Laws.Encodes.Statement (.vext x0 x1 x2 x3 x4 x5) := fun _ => rfl
theorem Laws.Encodes.vzero (x0 : ETy) (x1 : BitVec 6) (x2 : BitVec 3) : Laws.Encodes.Statement (.vzero x0 x1 x2) := fun _ => rfl
theorem Laws.Encodes.viota (x0 : ETy) (x1 x2 : BitVec 6) (x3 : BitVec 3) : Laws.Encodes.Statement (.viota x0 x1 x2 x3) := fun _ => rfl
theorem Laws.Encodes.vadd (x0 : ETy) (x1 x2 x3 : BitVec 6) (x4 : BitVec 3) : Laws.Encodes.Statement (.vadd x0 x1 x2 x3 x4) := fun _ => rfl
theorem Laws.Encodes.vsub (x0 : ETy) (x1 x2 x3 : BitVec 6) (x4 : BitVec 3) : Laws.Encodes.Statement (.vsub x0 x1 x2 x3 x4) := fun _ => rfl
theorem Laws.Encodes.vmul (x0 : ETy) (x1 x2 x3 : BitVec 6) (x4 : BitVec 3) : Laws.Encodes.Statement (.vmul x0 x1 x2 x3 x4) := fun _ => rfl
theorem Laws.Encodes.vfma (x0 : ETy) (x1 x2 x3 : BitVec 6) (x4 : BitVec 3) : Laws.Encodes.Statement (.vfma x0 x1 x2 x3 x4) := fun _ => rfl
theorem Laws.Encodes.vmin (x0 : ETy) (x1 x2 x3 : BitVec 6) (x4 : BitVec 3) : Laws.Encodes.Statement (.vmin x0 x1 x2 x3 x4) := fun _ => rfl
theorem Laws.Encodes.vmax (x0 : ETy) (x1 x2 x3 : BitVec 6) (x4 : BitVec 3) : Laws.Encodes.Statement (.vmax x0 x1 x2 x3 x4) := fun _ => rfl
theorem Laws.Encodes.vabs (x0 : ETy) (x1 x2 : BitVec 6) (x3 : BitVec 3) : Laws.Encodes.Statement (.vabs x0 x1 x2 x3) := fun _ => rfl
theorem Laws.Encodes.vneg (x0 : ETy) (x1 x2 : BitVec 6) (x3 : BitVec 3) : Laws.Encodes.Statement (.vneg x0 x1 x2 x3) := fun _ => rfl
theorem Laws.Encodes.vdiv (x0 : ETy) (x1 x2 x3 : BitVec 6) (x4 : BitVec 3) : Laws.Encodes.Statement (.vdiv x0 x1 x2 x3 x4) := fun _ => rfl
theorem Laws.Encodes.vsqrt (x0 : ETy) (x1 x2 : BitVec 6) (x3 : BitVec 3) : Laws.Encodes.Statement (.vsqrt x0 x1 x2 x3) := fun _ => rfl
theorem Laws.Encodes.vclamp (x0 : ETy) (x1 x2 x3 : BitVec 6) (x4 : BitVec 3) : Laws.Encodes.Statement (.vclamp x0 x1 x2 x3 x4) := fun _ => rfl
theorem Laws.Encodes.viadd (x0 : ETy) (x1 x2 x3 : BitVec 6) (x4 : BitVec 3) (x5 x6 : Bool) : Laws.Encodes.Statement (.viadd x0 x1 x2 x3 x4 x5 x6) := fun _ => rfl
theorem Laws.Encodes.visub (x0 : ETy) (x1 x2 x3 : BitVec 6) (x4 : BitVec 3) (x5 x6 : Bool) : Laws.Encodes.Statement (.visub x0 x1 x2 x3 x4 x5 x6) := fun _ => rfl
theorem Laws.Encodes.vimul (x0 : ETy) (x1 x2 x3 : BitVec 6) (x4 : BitVec 3) (x5 x6 : Bool) : Laws.Encodes.Statement (.vimul x0 x1 x2 x3 x4 x5 x6) := fun _ => rfl
theorem Laws.Encodes.vimin (x0 : ETy) (x1 x2 x3 : BitVec 6) (x4 : BitVec 3) (x5 : Bool) : Laws.Encodes.Statement (.vimin x0 x1 x2 x3 x4 x5) := fun _ => rfl
theorem Laws.Encodes.vimax (x0 : ETy) (x1 x2 x3 : BitVec 6) (x4 : BitVec 3) (x5 : Bool) : Laws.Encodes.Statement (.vimax x0 x1 x2 x3 x4 x5) := fun _ => rfl
theorem Laws.Encodes.vand (x0 : ETy) (x1 x2 x3 : BitVec 6) (x4 : BitVec 3) : Laws.Encodes.Statement (.vand x0 x1 x2 x3 x4) := fun _ => rfl
theorem Laws.Encodes.vor (x0 : ETy) (x1 x2 x3 : BitVec 6) (x4 : BitVec 3) : Laws.Encodes.Statement (.vor x0 x1 x2 x3 x4) := fun _ => rfl
theorem Laws.Encodes.vxor (x0 : ETy) (x1 x2 x3 : BitVec 6) (x4 : BitVec 3) : Laws.Encodes.Statement (.vxor x0 x1 x2 x3 x4) := fun _ => rfl
theorem Laws.Encodes.vshl (x0 : ETy) (x1 x2 x3 : BitVec 6) (x4 : BitVec 3) : Laws.Encodes.Statement (.vshl x0 x1 x2 x3 x4) := fun _ => rfl
theorem Laws.Encodes.vshr (x0 : ETy) (x1 x2 x3 : BitVec 6) (x4 : BitVec 3) : Laws.Encodes.Statement (.vshr x0 x1 x2 x3 x4) := fun _ => rfl
theorem Laws.Encodes.vsar (x0 : ETy) (x1 x2 x3 : BitVec 6) (x4 : BitVec 3) : Laws.Encodes.Statement (.vsar x0 x1 x2 x3 x4) := fun _ => rfl
theorem Laws.Encodes.vcmp (x0 : VCond) (x1 : ETy) (x2 x3 x4 : BitVec 6) (x5 : BitVec 3) : Laws.Encodes.Statement (.vcmp x0 x1 x2 x3 x4 x5) := fun _ => rfl
theorem Laws.Encodes.vsel (x0 : ETy) (x1 x2 x3 : BitVec 6) (x4 x5 : BitVec 3) : Laws.Encodes.Statement (.vsel x0 x1 x2 x3 x4 x5) := fun _ => rfl
theorem Laws.Encodes.vklog (x0 x1 x2 : BitVec 6) (x3 : BitVec 4) : Laws.Encodes.Statement (.vklog x0 x1 x2 x3) := fun _ => rfl
theorem Laws.Encodes.vkcnt (x0 x1 x2 : BitVec 6) : Laws.Encodes.Statement (.vkcnt x0 x1 x2) := fun _ => rfl
theorem Laws.Encodes.vrcp (x0 : ETy) (x1 x2 : BitVec 6) (x3 : BitVec 3) : Laws.Encodes.Statement (.vrcp x0 x1 x2 x3) := fun _ => rfl
theorem Laws.Encodes.vrsq (x0 : ETy) (x1 x2 : BitVec 6) (x3 : BitVec 3) : Laws.Encodes.Statement (.vrsq x0 x1 x2 x3) := fun _ => rfl
theorem Laws.Encodes.vexp2 (x0 : ETy) (x1 x2 : BitVec 6) (x3 : BitVec 3) : Laws.Encodes.Statement (.vexp2 x0 x1 x2 x3) := fun _ => rfl
theorem Laws.Encodes.vlog2 (x0 : ETy) (x1 x2 : BitVec 6) (x3 : BitVec 3) : Laws.Encodes.Statement (.vlog2 x0 x1 x2 x3) := fun _ => rfl
theorem Laws.Encodes.vsin (x0 : ETy) (x1 x2 : BitVec 6) (x3 : BitVec 3) : Laws.Encodes.Statement (.vsin x0 x1 x2 x3) := fun _ => rfl
theorem Laws.Encodes.vcos (x0 : ETy) (x1 x2 : BitVec 6) (x3 : BitVec 3) : Laws.Encodes.Statement (.vcos x0 x1 x2 x3) := fun _ => rfl
theorem Laws.Encodes.vtanh (x0 : ETy) (x1 x2 : BitVec 6) (x3 : BitVec 3) : Laws.Encodes.Statement (.vtanh x0 x1 x2 x3) := fun _ => rfl
theorem Laws.Encodes.vlogi (x0 : ETy) (x1 x2 : BitVec 6) (x3 : BitVec 3) : Laws.Encodes.Statement (.vlogi x0 x1 x2 x3) := fun _ => rfl
theorem Laws.Encodes.vcvt (x0 x1 : ETy) (x2 x3 : Bool) (x4 x5 : BitVec 6) (x6 : BitVec 3) : Laws.Encodes.Statement (.vcvt x0 x1 x2 x3 x4 x5 x6) := fun _ => rfl
theorem Laws.Encodes.vpack (x0 x1 : ETy) (x2 x3 : Bool) (x4 x5 x6 : BitVec 6) (x7 : BitVec 3) : Laws.Encodes.Statement (.vpack x0 x1 x2 x3 x4 x5 x6 x7) := fun _ => rfl
theorem Laws.Encodes.vunpk (x0 x1 : ETy) (x2 : Bool) (x3 x4 : BitVec 6) (x5 : BitVec 3) : Laws.Encodes.Statement (.vunpk x0 x1 x2 x3 x4 x5) := fun _ => rfl
theorem Laws.Encodes.vrotc (x0 : ETy) (x1 x2 : BitVec 6) (x3 : BitVec 8) (x4 : BitVec 3) : Laws.Encodes.Statement (.vrotc x0 x1 x2 x3 x4) := fun _ => rfl
theorem Laws.Encodes.vrotr (x0 : ETy) (x1 x2 : BitVec 6) (x3 : BitVec 4) (x4 : BitVec 3) : Laws.Encodes.Statement (.vrotr x0 x1 x2 x3 x4) := fun _ => rfl
theorem Laws.Encodes.vbcc (x0 : ETy) (x1 x2 : BitVec 6) (x3 : BitVec 8) (x4 : BitVec 3) : Laws.Encodes.Statement (.vbcc x0 x1 x2 x3 x4) := fun _ => rfl
theorem Laws.Encodes.vbcr (x0 : ETy) (x1 x2 : BitVec 6) (x3 : BitVec 4) (x4 : BitVec 3) : Laws.Encodes.Statement (.vbcr x0 x1 x2 x3 x4) := fun _ => rfl
theorem Laws.Encodes.vredc (x0 : RedOp) (x1 : Bool) (x2 : ETy) (x3 x4 : BitVec 6) (x5 : BitVec 3) : Laws.Encodes.Statement (.vredc x0 x1 x2 x3 x4 x5) := fun _ => rfl
theorem Laws.Encodes.vredr (x0 : RedOp) (x1 : Bool) (x2 : ETy) (x3 x4 : BitVec 6) (x5 : BitVec 3) : Laws.Encodes.Statement (.vredr x0 x1 x2 x3 x4 x5) := fun _ => rfl
theorem Laws.Encodes.vpermc (x0 : ETy) (x1 x2 x3 : BitVec 6) (x4 : BitVec 3) : Laws.Encodes.Statement (.vpermc x0 x1 x2 x3 x4) := fun _ => rfl
theorem Laws.Encodes.vtrn (x0 : ETy) (x1 x2 : BitVec 6) (x3 : BitVec 4) (x4 : BitVec 3) : Laws.Encodes.Statement (.vtrn x0 x1 x2 x3 x4) := fun _ => rfl
theorem Laws.Encodes.mwLoad (x0 : MFmt) (x1 x2 : Bool) (x3 x4 : BitVec 6) : Laws.Encodes.Statement (.mwLoad x0 x1 x2 x3 x4) := fun _ => rfl
theorem Laws.Encodes.mwLoads (x0 : MFmt) (x1 : Sparse) (x2 : Bool) (x3 : BitVec 6) : Laws.Encodes.Statement (.mwLoads x0 x1 x2 x3) := fun _ => rfl
theorem Laws.Encodes.mwClr (x0 : Bool) : Laws.Encodes.Statement (.mwClr x0) := fun _ => rfl
theorem Laws.Encodes.mfmt (x0 : MFmt) (x1 : Bool) (x2 : BitVec 6) : Laws.Encodes.Statement (.mfmt x0 x1 x2) := fun _ => rfl
theorem Laws.Encodes.mma (x0 : MmaF) : Laws.Encodes.Statement (.mma x0) := fun _ => rfl
theorem Laws.Encodes.mmaS (x0 : MmaF) : Laws.Encodes.Statement (.mmaS x0) := fun _ => rfl
theorem Laws.Encodes.maccRd (x0 : BitVec 9) (x1 : BitVec 6) (x2 : BitVec 7) (x3 : BitVec 3) : Laws.Encodes.Statement (.maccRd x0 x1 x2 x3) := fun _ => rfl
theorem Laws.Encodes.maccWr (x0 : BitVec 9) (x1 : BitVec 6) (x2 : BitVec 7) (x3 : BitVec 3) : Laws.Encodes.Statement (.maccWr x0 x1 x2 x3) := fun _ => rfl
theorem Laws.Encodes.maccCvt (x0 : Bool) (x1 : BitVec 9) (x2 : BitVec 6) (x3 : BitVec 7) (x4 : BitVec 6) (x5 : BitVec 3) : Laws.Encodes.Statement (.maccCvt x0 x1 x2 x3 x4 x5) := fun _ => rfl
theorem Laws.Encodes.maccZero (x0 : BitVec 9) (x1 : BitVec 7) : Laws.Encodes.Statement (.maccZero x0 x1) := fun _ => rfl
theorem Laws.Encodes.maccSpill (x0 : BitVec 9) (x1 : BitVec 7) (x2 : BitVec 6) (x3 : BitVec 5) (x4 : Bool) : Laws.Encodes.Statement (.maccSpill x0 x1 x2 x3 x4) := fun _ => rfl
theorem Laws.Encodes.maccFill (x0 : BitVec 9) (x1 : BitVec 7) (x2 : BitVec 6) (x3 : BitVec 5) (x4 : Bool) : Laws.Encodes.Statement (.maccFill x0 x1 x2 x3 x4) := fun _ => rfl
theorem Laws.Encodes.mstat (x0 : BitVec 6) : Laws.Encodes.Statement (.mstat x0) := fun _ => rfl
theorem Laws.Encodes.response (x0 : BitVec 16) (x1 x2 x3 : Byte) (x4 : Word) : Laws.Encodes.Statement (.response x0 x1 x2 x3 x4) := fun h => absurd h Bool.false_ne_true
theorem Laws.Encodes.interruptToHost (x0 x1 : Byte) (x2 : Bytes) : Laws.Encodes.Statement (.interruptToHost x0 x1 x2) := fun h => absurd h Bool.false_ne_true
theorem Laws.Encodes.bulkData (x0 x1 : BitVec 16) (x2 : Bytes) : Laws.Encodes.Statement (.bulkData x0 x1 x2) := fun h => absurd h Bool.false_ne_true
theorem Laws.Encodes.bulkWriteRequest (x0 : BitVec 16) (x1 : Word) (x2 : PartId) (x3 : BitVec 41) : Laws.Encodes.Statement (.bulkWriteRequest x0 x1 x2 x3) := fun h => absurd h Bool.false_ne_true
theorem Laws.Encodes.bulkReadRequest (x0 : BitVec 16) (x1 : Word) (x2 : PartId) (x3 : BitVec 41) : Laws.Encodes.Statement (.bulkReadRequest x0 x1 x2 x3) := fun h => absurd h Bool.false_ne_true
theorem Laws.Encodes.fabricRead (x0 x1 : BitVec 16) (x2 : Word) (x3 : Asid) (x4 : BitVec 16) : Laws.Encodes.Statement (.fabricRead x0 x1 x2 x3 x4) := fun h => absurd h Bool.false_ne_true
theorem Laws.Encodes.fabricWrite (x0 x1 : BitVec 16) (x2 : Word) (x3 : Asid) (x4 : Bytes) : Laws.Encodes.Statement (.fabricWrite x0 x1 x2 x3 x4) := fun h => absurd h Bool.false_ne_true
theorem Laws.Encodes.fabricAtomic (x0 x1 : BitVec 16) (x2 : Word) (x3 : Asid) (x4 : Byte) (x5 : Width) (x6 : Order) (x7 x8 : Word) : Laws.Encodes.Statement (.fabricAtomic x0 x1 x2 x3 x4 x5 x6 x7 x8) := fun h => absurd h Bool.false_ne_true
theorem Laws.Encodes.fabricPublication (x0 : BitVec 16) (x1 : Word) (x2 : Asid) : Laws.Encodes.Statement (.fabricPublication x0 x1 x2) := fun h => absurd h Bool.false_ne_true
theorem Laws.Encodes.publicationAcknowledgement (x0 : BitVec 16) (x1 : Word) (x2 : Asid) : Laws.Encodes.Statement (.publicationAcknowledgement x0 x1 x2) := fun h => absurd h Bool.false_ne_true
theorem Laws.Encodes.barrierArrival (x0 : Byte) (x1 : HallId) (x2 : Asid) (x3 : BitVec 12) (x4 : BitVec 32) : Laws.Encodes.Statement (.barrierArrival x0 x1 x2 x3 x4) := fun h => absurd h Bool.false_ne_true
theorem Laws.Encodes.proxyTokenMessage (x0 : Byte) (x1 : HallId) (x2 : Asid) (x3 : BitVec 12) (x4 : BitVec 32) : Laws.Encodes.Statement (.proxyTokenMessage x0 x1 x2 x3 x4) := fun h => absurd h Bool.false_ne_true
theorem Laws.Encodes.tokenWithdrawal (x0 : Byte) (x1 : HallId) (x2 : Asid) (x3 : BitVec 12) (x4 : BitVec 32) : Laws.Encodes.Statement (.tokenWithdrawal x0 x1 x2 x3 x4) := fun h => absurd h Bool.false_ne_true
theorem Laws.Encodes.phaseCompleteMessage (x0 : Byte) (x1 : HallId) (x2 : Asid) (x3 : BitVec 12) (x4 : BitVec 32) : Laws.Encodes.Statement (.phaseCompleteMessage x0 x1 x2 x3 x4) := fun h => absurd h Bool.false_ne_true
theorem Laws.Encodes.groupJoinMessage (x0 : Byte) (x1 : HallId) (x2 : Asid) (x3 : BitVec 12) (x4 : BitVec 32) : Laws.Encodes.Statement (.groupJoinMessage x0 x1 x2 x3 x4) := fun h => absurd h Bool.false_ne_true
theorem Laws.Encodes.groupLeaveMessage (x0 : Byte) (x1 : HallId) (x2 : Asid) (x3 : BitVec 12) (x4 : BitVec 32) : Laws.Encodes.Statement (.groupLeaveMessage x0 x1 x2 x3 x4) := fun h => absurd h Bool.false_ne_true
theorem Laws.Encodes.multicastReduceContribution (x0 : BitVec 16) (x1 : PartId) (x2 : BitVec 20) (x3 : Byte) (x4 : HallId) (x5 : Byte) (x6 x7 : Word) : Laws.Encodes.Statement (.multicastReduceContribution x0 x1 x2 x3 x4 x5 x6 x7) := fun h => absurd h Bool.false_ne_true
theorem Laws.Encodes.roundSumMessage (x0 : PartId) (x1 : BitVec 20) (x2 : Word) : Laws.Encodes.Statement (.roundSumMessage x0 x1 x2) := fun h => absurd h Bool.false_ne_true
theorem Laws.Encodes.creditOnly (x0 : BitVec 4) (x1 : BitVec 2) (x2 : BitVec 14) : Laws.Encodes.Statement (.creditOnly x0 x1 x2) := fun h => absurd h Bool.false_ne_true
theorem Laws.Encodes.syncGroupIssue (x0 : HallId) : Laws.Encodes.Statement (.syncGroupIssue x0) := fun h => absurd h Bool.false_ne_true
theorem Laws.Encodes.resultWrite (x0 : HallId) (x1 : Strand) : Laws.Encodes.Statement (.resultWrite x0 x1) := fun h => absurd h Bool.false_ne_true
theorem Laws.Encodes.landingDataArrival (x0 : HallId) (x1 : Strand) : Laws.Encodes.Statement (.landingDataArrival x0 x1) := fun h => absurd h Bool.false_ne_true
theorem Laws.Encodes.landingPoint (x0 : HallId) (x1 : Strand) : Laws.Encodes.Statement (.landingPoint x0 x1) := fun h => absurd h Bool.false_ne_true
theorem Laws.Encodes.writeQueueDrain (x0 : HallId) : Laws.Encodes.Statement (.writeQueueDrain x0) := fun h => absurd h Bool.false_ne_true
theorem Laws.Encodes.publicationAck (x0 : HallId) (x1 : Strand) : Laws.Encodes.Statement (.publicationAck x0 x1) := fun h => absurd h Bool.false_ne_true
theorem Laws.Encodes.atomicPerform (x0 : Nat) : Laws.Encodes.Statement (.atomicPerform x0) := fun h => absurd h Bool.false_ne_true
theorem Laws.Encodes.mrContributionArrival : Laws.Encodes.Statement (.mrContributionArrival) := fun h => absurd h Bool.false_ne_true
theorem Laws.Encodes.barTimeout (x0 : HallId) : Laws.Encodes.Statement (.barTimeout x0) := fun h => absurd h Bool.false_ne_true
theorem Laws.Encodes.queueStall (x0 : HallId) : Laws.Encodes.Statement (.queueStall x0) := fun h => absurd h Bool.false_ne_true
theorem Laws.Encodes.streamPrefetch (x0 : HallId) (x1 : BitVec 3) : Laws.Encodes.Statement (.streamPrefetch x0 x1) := fun h => absurd h Bool.false_ne_true
theorem Laws.Encodes.checkerMatch (x0 : HallId) : Laws.Encodes.Statement (.checkerMatch x0) := fun h => absurd h Bool.false_ne_true
theorem Laws.Encodes.rollback (x0 : HallId) : Laws.Encodes.Statement (.rollback x0) := fun h => absurd h Bool.false_ne_true
theorem Laws.Encodes.rollbackResume (x0 : HallId) : Laws.Encodes.Statement (.rollbackResume x0) := fun h => absurd h Bool.false_ne_true
theorem Laws.Encodes.copyCommandStart (x0 : HallId) : Laws.Encodes.Statement (.copyCommandStart x0) := fun h => absurd h Bool.false_ne_true
theorem Laws.Encodes.copyBurst (x0 : HallId) : Laws.Encodes.Statement (.copyBurst x0) := fun h => absurd h Bool.false_ne_true
theorem Laws.Encodes.copyComplete (x0 : HallId) : Laws.Encodes.Statement (.copyComplete x0) := fun h => absurd h Bool.false_ne_true
theorem Laws.Encodes.followOnEntry (x0 : HallId) : Laws.Encodes.Statement (.followOnEntry x0) := fun h => absurd h Bool.false_ne_true
theorem Laws.Encodes.matrixCommandStart (x0 : HallId) : Laws.Encodes.Statement (.matrixCommandStart x0) := fun h => absurd h Bool.false_ne_true
theorem Laws.Encodes.mmaRowFeed (x0 : HallId) : Laws.Encodes.Statement (.mmaRowFeed x0) := fun h => absurd h Bool.false_ne_true
theorem Laws.Encodes.operandsConsumed (x0 : HallId) : Laws.Encodes.Statement (.operandsConsumed x0) := fun h => absurd h Bool.false_ne_true
theorem Laws.Encodes.mmaResultWrite (x0 : HallId) : Laws.Encodes.Statement (.mmaResultWrite x0) := fun h => absurd h Bool.false_ne_true
theorem Laws.Encodes.weightFillComplete (x0 : HallId) : Laws.Encodes.Statement (.weightFillComplete x0) := fun h => absurd h Bool.false_ne_true
theorem Laws.Encodes.maccComplete (x0 : HallId) : Laws.Encodes.Statement (.maccComplete x0) := fun h => absurd h Bool.false_ne_true
theorem Laws.Encodes.engineEventPost (x0 : HallId) : Laws.Encodes.Statement (.engineEventPost x0) := fun h => absurd h Bool.false_ne_true
theorem Laws.Encodes.hazelCommandStart (x0 : HallId) : Laws.Encodes.Statement (.hazelCommandStart x0) := fun h => absurd h Bool.false_ne_true
theorem Laws.Encodes.hazelNodeAtomic (x0 : HallId) : Laws.Encodes.Statement (.hazelNodeAtomic x0) := fun h => absurd h Bool.false_ne_true
theorem Laws.Encodes.walkComplete (x0 : Nat) : Laws.Encodes.Statement (.walkComplete x0) := fun h => absurd h Bool.false_ne_true
theorem Laws.Encodes.invalidationComplete (x0 : PartId) : Laws.Encodes.Statement (.invalidationComplete x0) := fun h => absurd h Bool.false_ne_true
theorem Laws.Encodes.trapRecordComplete (x0 : HallId) : Laws.Encodes.Statement (.trapRecordComplete x0) := fun h => absurd h Bool.false_ne_true
theorem Laws.Encodes.trapQueueEntry (x0 : HallId) : Laws.Encodes.Statement (.trapQueueEntry x0) := fun h => absurd h Bool.false_ne_true
theorem Laws.Encodes.trapRecordOpen (x0 : PartId) : Laws.Encodes.Statement (.trapRecordOpen x0) := fun h => absurd h Bool.false_ne_true
theorem Laws.Encodes.ntstatRead (x0 : HallId) : Laws.Encodes.Statement (.ntstatRead x0) := fun h => absurd h Bool.false_ne_true
theorem Laws.Encodes.thresholdWindowEnd (x0 : HallId) (x1 : BitVec 2) : Laws.Encodes.Statement (.thresholdWindowEnd x0 x1) := fun h => absurd h Bool.false_ne_true
theorem Laws.Encodes.errinjArm (x0 : HallId) (x1 : Word) : Laws.Encodes.Statement (.errinjArm x0 x1) := fun h => absurd h Bool.false_ne_true
theorem Laws.Encodes.budget (x0 : HallId) : Laws.Encodes.Statement (.budget x0) := fun h => absurd h Bool.false_ne_true
theorem Laws.Encodes.sliceSelect (x0 : HallId) : Laws.Encodes.Statement (.sliceSelect x0) := fun h => absurd h Bool.false_ne_true
theorem Laws.Encodes.sliceResume (x0 : HallId) : Laws.Encodes.Statement (.sliceResume x0) := fun h => absurd h Bool.false_ne_true
theorem Laws.Encodes.deadlinePassed (x0 : HallId) : Laws.Encodes.Statement (.deadlinePassed x0) := fun h => absurd h Bool.false_ne_true
theorem Laws.Encodes.stealRequest (x0 : HallId) : Laws.Encodes.Statement (.stealRequest x0) := fun h => absurd h Bool.false_ne_true
theorem Laws.Encodes.stealServe (x0 x1 : HallId) : Laws.Encodes.Statement (.stealServe x0 x1) := fun h => absurd h Bool.false_ne_true
theorem Laws.Encodes.stealRetryWait (x0 : HallId) : Laws.Encodes.Statement (.stealRetryWait x0) := fun h => absurd h Bool.false_ne_true
theorem Laws.Encodes.spillEntryReturn (x0 : HallId) : Laws.Encodes.Statement (.spillEntryReturn x0) := fun h => absurd h Bool.false_ne_true
theorem Laws.Encodes.preEmptionDecision (x0 : HallId) : Laws.Encodes.Statement (.preEmptionDecision x0) := fun h => absurd h Bool.false_ne_true
theorem Laws.Encodes.checkpointWindowExpiry (x0 : HallId) : Laws.Encodes.Statement (.checkpointWindowExpiry x0) := fun h => absurd h Bool.false_ne_true
theorem Laws.Encodes.predecDrain (x0 : PartId) (x1 : HallId) : Laws.Encodes.Statement (.predecDrain x0 x1) := fun h => absurd h Bool.false_ne_true
theorem Laws.Encodes.predecCheckpoint (x0 : PartId) (x1 : HallId) : Laws.Encodes.Statement (.predecCheckpoint x0 x1) := fun h => absurd h Bool.false_ne_true
theorem Laws.Encodes.predecKill (x0 : PartId) (x1 : HallId) : Laws.Encodes.Statement (.predecKill x0 x1) := fun h => absurd h Bool.false_ne_true
theorem Laws.Encodes.predecCancel (x0 : PartId) (x1 : HallId) : Laws.Encodes.Statement (.predecCancel x0 x1) := fun h => absurd h Bool.false_ne_true
theorem Laws.Encodes.freezeCapture (x0 : Asid) : Laws.Encodes.Statement (.freezeCapture x0) := fun h => absurd h Bool.false_ne_true
theorem Laws.Encodes.partXinv (x0 : PartId) (x1 : Word) : Laws.Encodes.Statement (.partXinv x0 x1) := fun h => absurd h Bool.false_ne_true
theorem Laws.Encodes.xsvcWalkAgain (x0 : PartId) (x1 : Byte) : Laws.Encodes.Statement (.xsvcWalkAgain x0 x1) := fun h => absurd h Bool.false_ne_true
theorem Laws.Encodes.xsvcFail (x0 : PartId) (x1 : Byte) : Laws.Encodes.Statement (.xsvcFail x0 x1) := fun h => absurd h Bool.false_ne_true
theorem Laws.Encodes.partEvqRead (x0 : PartId) : Laws.Encodes.Statement (.partEvqRead x0) := fun h => absurd h Bool.false_ne_true
theorem Laws.Encodes.spillBaseWrite (x0 : PartId) (x1 : Word) : Laws.Encodes.Statement (.spillBaseWrite x0 x1) := fun h => absurd h Bool.false_ne_true
theorem Laws.Encodes.controlRegisterWrite (x0 : PartId) (x1 : BitVec 24) (x2 : Word) : Laws.Encodes.Statement (.controlRegisterWrite x0 x1 x2) := fun h => absurd h Bool.false_ne_true
theorem Laws.Encodes.ageStep (x0 : HallId) : Laws.Encodes.Statement (.ageStep x0) := fun h => absurd h Bool.false_ne_true
theorem Laws.Encodes.refresh (x0 : BitVec 22) : Laws.Encodes.Statement (.refresh x0) := fun h => absurd h Bool.false_ne_true
theorem Laws.Encodes.heartbeat (x0 : HallId) : Laws.Encodes.Statement (.heartbeat x0) := fun h => absurd h Bool.false_ne_true
theorem Laws.Encodes.autonomousMode (x0 : HallId) : Laws.Encodes.Statement (.autonomousMode x0) := fun h => absurd h Bool.false_ne_true
theorem Laws.Encodes.rejoinHeartbeat (x0 : HallId) : Laws.Encodes.Statement (.rejoinHeartbeat x0) := fun h => absurd h Bool.false_ne_true
theorem Laws.Encodes.sweep (x0 : HallId) : Laws.Encodes.Statement (.sweep x0) := fun h => absurd h Bool.false_ne_true
theorem Laws.Encodes.temperatureReading (x0 : HallId) : Laws.Encodes.Statement (.temperatureReading x0) := fun h => absurd h Bool.false_ne_true
theorem Laws.Encodes.wipeComplete (x0 : HallId) : Laws.Encodes.Statement (.wipeComplete x0) := fun h => absurd h Bool.false_ne_true
theorem Laws.Encodes.deviceReset : Laws.Encodes.Statement (.deviceReset) := fun h => absurd h Bool.false_ne_true
theorem Laws.Encodes.accessCounterHalving : Laws.Encodes.Statement (.accessCounterHalving) := fun h => absurd h Bool.false_ne_true
theorem Laws.Encodes.boostInterval (x0 : BitVec 5) : Laws.Encodes.Statement (.boostInterval x0) := fun h => absurd h Bool.false_ne_true
theorem Laws.Encodes.portTraining (x0 : BitVec 4) (x1 : BitVec 5) : Laws.Encodes.Statement (.portTraining x0 x1) := fun h => absurd h Bool.false_ne_true
theorem Laws.Encodes.portDown (x0 : BitVec 4) : Laws.Encodes.Statement (.portDown x0) := fun h => absurd h Bool.false_ne_true
theorem Laws.Encodes.crcFailure (x0 : BitVec 4) : Laws.Encodes.Statement (.crcFailure x0) := fun h => absurd h Bool.false_ne_true
theorem Laws.Encodes.fabricTimeout (x0 : HallId) (x1 : Strand) : Laws.Encodes.Statement (.fabricTimeout x0 x1) := fun h => absurd h Bool.false_ne_true
theorem Laws.Encodes.hostLaunch (x0 : BitVec 16) (x1 : PartId) (x2 : Bytes) (x3 : BitVec 256) : Laws.Encodes.Statement (.hostLaunch x0 x1 x2 x3) := fun h => absurd h Bool.false_ne_true
theorem Laws.Encodes.controlWindowRead (x0 : BitVec 16) (x1 : Word) : Laws.Encodes.Statement (.controlWindowRead x0 x1) := fun h => absurd h Bool.false_ne_true
theorem Laws.Encodes.controlWindowWrite (x0 : BitVec 16) (x1 x2 : Word) : Laws.Encodes.Statement (.controlWindowWrite x0 x1 x2) := fun h => absurd h Bool.false_ne_true
theorem Laws.Encodes.lcstate (x0 : BitVec 16) (x1 : BitVec 2) (x2 : Word) (x3 x4 x5 x6 : Bytes) : Laws.Encodes.Statement (.lcstate x0 x1 x2 x3 x4 x5 x6) := fun h => absurd h Bool.false_ne_true
theorem Laws.Encodes.attest (x0 : BitVec 16) (x1 : Bytes) : Laws.Encodes.Statement (.attest x0 x1) := fun h => absurd h Bool.false_ne_true
theorem Laws.Encodes.assign (x0 : BitVec 16) (x1 : PartId) (x2 : BitVec 256) (x3 : BitVec 64) (x4 : BitVec 4096) : Laws.Encodes.Statement (.assign x0 x1 x2 x3 x4) := fun h => absurd h Bool.false_ne_true
theorem Laws.Encodes.modid (x0 x1 : BitVec 16) : Laws.Encodes.Statement (.modid x0 x1) := fun h => absurd h Bool.false_ne_true
theorem Laws.Encodes.wsdesc (x0 : BitVec 16) (x1 : BitVec 8) (x2 x3 : Bytes) : Laws.Encodes.Statement (.wsdesc x0 x1 x2 x3) := fun h => absurd h Bool.false_ne_true
theorem Laws.Encodes.wspub (x0 : BitVec 16) (x1 : BitVec 8) : Laws.Encodes.Statement (.wspub x0 x1) := fun h => absurd h Bool.false_ne_true
theorem Laws.Encodes.ckall (x0 x1 x2 : BitVec 16) (x3 : Word) : Laws.Encodes.Statement (.ckall x0 x1 x2 x3) := fun h => absurd h Bool.false_ne_true
theorem Laws.Encodes.restall (x0 x1 x2 : BitVec 16) (x3 : Word) : Laws.Encodes.Statement (.restall x0 x1 x2 x3) := fun h => absurd h Bool.false_ne_true
theorem Laws.Encodes.super (x0 : BitVec 16) (x1 : PartId) (x2 : Bool) (x3 : Bytes) (x4 : BitVec 256) : Laws.Encodes.Statement (.super x0 x1 x2 x3 x4) := fun h => absurd h Bool.false_ne_true
theorem Laws.Encodes.keyx (x0 : BitVec 16) (x1 : Bool) (x2 : Bytes) : Laws.Encodes.Statement (.keyx x0 x1 x2) := fun h => absurd h Bool.false_ne_true
theorem Laws.Encodes.sweepEnd (x0 : HallId) : Laws.Encodes.Statement (.sweepEnd x0) := fun h => absurd h Bool.false_ne_true
theorem Laws.Encodes.unknownTypeMessage (x0 : BitVec 4) (x1 : Byte) (x2 : BitVec 16) : Laws.Encodes.Statement (.unknownTypeMessage x0 x1 x2) := fun h => absurd h Bool.false_ne_true
theorem Laws.Encodes.discardedFlit (x0 : BitVec 4) : Laws.Encodes.Statement (.discardedFlit x0) := fun h => absurd h Bool.false_ne_true

end Sys2Proof
end

