-- ==== Sys2Proof/Laws/Requests.lean ====
section
/-! SUPPORT. What the operations of Operands.lean can do when nothing holds them up: the bytes of an access, the memory port, landing slots,
and stores. -/

namespace Sys2Proof.Laws
open Sys2Proof.Machine Sys2Proof.Spec

/-- The address of a base register and a sign-extended offset. -/
theorem addr_offset {n : Nat} (x : Word) (off : BitVec n) (h : n ≤ 64) : x + off.signExtend 64 = BitVec.ofInt 64 (x.toInt + off.toInt) := by
  apply BitVec.eq_of_toInt_eq
  rw [BitVec.toInt_add, BitVec.toInt_signExtend_of_le h, BitVec.toInt_ofInt]

/-- An access whose bytes resolve goes on with them. -/
theorem withBytes_accessible (s : State) (k : Want) (al : Nat) (a : Word) (n : Nat) (ps : List Nat) (cont : List Nat → State → State)
    (h : Accessible s k al a n ps) : s.withBytes k al a n cont = cont ps s := by
  unfold State.withBytes
  rw [if_neg (Nat.not_le.2 h.space)]
  simp [h.aligned, h.bytes]

/-- A misaligned access within the address space traps with ALIGN (R120). -/
theorem withBytes_misaligned (s : State) (k : Want) (al : Nat) (a : Word) (n : Nat) (cont : List Nat → State → State)
    (h1 : a.toNat < 2 ^ 52) (h2 : a.toNat % al ≠ 0) :
    s.withBytes k al a n cont = s.trapHere { cause := .ALIGN, access := k.access, width := k.width, addr := a } := by
  unfold State.withBytes
  rw [if_neg (Nat.not_le.2 h1)]
  simp [h2, Want.tell]

/-- An access beyond the address space traps with XLATE (R120). -/
theorem withBytes_beyond (s : State) (k : Want) (al : Nat) (a : Word) (n : Nat) (cont : List Nat → State → State) (h : 2 ^ 52 ≤ a.toNat) :
    s.withBytes k al a n cont = s.trapHere { cause := .XLATE, access := k.access, width := k.width, addr := a } := by
  unfold State.withBytes
  rw [if_pos h]; simp [Want.tell, xlate]

/-- The two states agree on everything that a strand's request or store may not change. -/
structure Near (s t : State) : Prop where
  hall : t.curHall = s.curHall
  strand : t.curStrand = s.curStrand
  halls : t.halls = s.halls
  mem : t.mem = s.mem
  groups : t.rowGroups = s.rowGroups
  poison : t.poison = s.poison
  bad : t.bad = s.bad
  rounds : t.rounds = s.rounds

theorem Near.refl (s : State) : Near s s := ⟨rfl, rfl, rfl, rfl, rfl, rfl, rfl, rfl⟩
theorem Near.here {s t : State} (h : Near s t) : t.here = s.here := by
  simp only [State.here, State.hall, h.hall, h.halls]
theorem Near.me {s t : State} (h : Near s t) : t.me = s.me := by
  unfold State.me; rw [h.here, h.strand]
theorem Near.other {s t : State} (h : Near s t) (k : HallId) : t.hall k = s.hall k := by
  simp only [State.hall, h.halls]

/-- Messages and tags leave the Halls and memory alone. -/
theorem near_sendTo (s t : State) (h : Near s t) (p : PartId) (m : Nat) (msg : Instr) : Near s (t.sendTo p m msg) := by
  unfold State.sendTo
  split <;> exact ⟨h.hall, h.strand, h.halls, h.mem, h.groups, h.poison, h.bad, h.rounds⟩

theorem near_newTag (s : State) : Near s s.newTag.2 := ⟨rfl, rfl, rfl, rfl, rfl, rfl, rfl, rfl⟩
theorem near_drawDelay (s : State) : Near s s.drawDelay.2 := ⟨rfl, rfl, rfl, rfl, rfl, rfl, rfl, rfl⟩
theorem near_fabReqs (s t : State) (h : Near s t) (x : List FabReq) : Near s { t with fabReqs := x } :=
  ⟨h.hall, h.strand, h.halls, h.mem, h.groups, h.poison, h.bad, h.rounds⟩

theorem near_askSlot (s t : State) (h : Near s t) (k : HallId) (st : Strand) (q b : Nat) (addr : Word) (r : Nat × Nat) :
    Near s (t.askSlot k st q b addr r) := by
  unfold State.askSlot
  refine near_fabReqs _ _ (near_sendTo _ _ ?_ _ _ _) _
  exact ⟨h.hall, h.strand, h.halls, h.mem, h.groups, h.poison, h.bad, h.rounds⟩
/-- What a list of steps that stay near a state comes to stays near it. -/
theorem near_foldl {α β : Type} (s : State) (f : β → State) (g : β → α → β) (hg : ∀ b a, Near s (f b) → Near s (f (g b a))) (xs : List α) (b : β)
    (h : Near s (f b)) : Near s (f (xs.foldl g b)) := by
  induction xs generalizing b with
  | nil => exact h
  | cons a xs ih => exact ih _ (hg b a h)
theorem near_overlayRead (s : State) (k : HallId) (r : Reader) (far : List Nat) : Near s (s.overlayRead k r far).2.2 := by
  unfold State.overlayRead
  refine near_foldl s (fun (acc : List Host.Cell × List (Nat × Nat) × State) => acc.2.2) _ ?_ _ _ (Near.refl s)
  intro acc l h
  dsimp only
  split
  · exact h
  · dsimp only
    split <;> exact ⟨h.hall, h.strand, h.halls, h.mem, h.groups, h.poison, h.bad, h.rounds⟩
theorem near_askBytes (s : State) (k : HallId) (st : Strand) (q b : Nat) (addr : Word) (far : List Nat) :
    Near s (s.askBytes k st q b addr far).2.2 := by
  unfold State.askBytes
  exact near_foldl s id _ (fun t r h => near_askSlot s t h k st q b addr r) _ _ (near_overlayRead s k _ far)

/-- Changes of the strand at issue, on a state that is near another, leave everything but that strand alone. -/
theorem near_onMe (s t : State) (h : Near s t) (f : StrandState → StrandState) :
    (t.onMe f).me = f s.me ∧ (∀ k, k ≠ s.curHall → (t.onMe f).hall k = s.hall k) ∧
    (t.onMe f).here = { s.here with work := (t.onMe f).here.work } ∧
    (∀ st, st ≠ s.curStrand → (t.onMe f).here.work.strand st = s.here.work.strand st) ∧
    (t.onMe f).here.work = { s.here.work with S := (t.onMe f).here.work.S, L := (t.onMe f).here.work.L, V := (t.onMe f).here.work.V, M := (t.onMe f).here.work.M } ∧
    SameMemory s (t.onMe f) := by
  have hne : ∀ k, k ≠ s.curHall → (t.onMe f).hall k = s.hall k := fun k hk => by
    rw [← h.other k]
    exact hall_onHall_ne t t.curHall k (Hall.onStrand · t.curStrand f) (by rw [h.hall]; exact hk)
  have hh : (t.onMe f).here = Hall.onStrand s.here s.curStrand f := by rw [here_onMe, h.here, h.strand]
  refine ⟨by rw [me_onMe, h.me], hne, by rw [hh]; rfl, ?_, ?_, ?_⟩
  · intro st hst; rw [hh]; exact strand_setStrand_ne _ _ _ _ hst
  · rw [hh]; exact setStrand_work _ _ _
  · refine ⟨fun a => by change Memory.byte t.mem a = _; rw [h.mem], ?_, h.groups, h.poison, h.bad, h.rounds⟩
    intro k
    by_cases hk : k = s.curHall
    · have e : (t.onMe f).hall k = (t.onMe f).here := by rw [hk, ← h.hall]; rfl
      rw [e, hh, hk]; rfl
    · rw [hne k hk]

/-- Two changes of the strand at issue are one. -/
theorem onMe_onMe (s : State) (f g : StrandState → StrandState) : (s.onMe f).onMe g = s.onMe fun x => g (f x) := by
  simp only [State.onMe, State.onStrand, State.onHall, State.setHall, State.hall, Hall.onStrand, State.mk.injEq, Vector.set_set,
    Vector.getElem_set_self, strand_setStrand_same, true_and, and_true]
  cases s.curStrand <;> rfl

/-- What changes of a strand with a request: its port, its wait, its atomics that it has not yet waited for, and what it has read. -/
def Reads (g : StrandState → StrandState) : Prop := ∀ x, g x =
  { x with portFree := (g x).portFree, wait := (g x).wait, lateAtomics := (g x).lateAtomics, lastRead := (g x).lastRead, observed := (g x).observed }
theorem Reads.comp {f g : StrandState → StrandState} (hf : Reads f) (hg : Reads g) : Reads fun x => g (f x) := fun x =>
  (hg (f x)).trans (congrArg (fun (y : StrandState) =>
    { y with portFree := (g (f x)).portFree, wait := (g (f x)).wait, lateAtomics := (g (f x)).lateAtomics, lastRead := (g (f x)).lastRead
             observed := (g (f x)).observed }) (hf x))
theorem reads_hasRead (ns : List (Nat × Nat)) : Reads fun x => x.hasRead ns := fun _ => rfl

/-- A claimed slot, and whatever else changes of the strand but what a request may not change. -/
theorem claim_claims (s t : State) (h : Near s t) (req : Req) (dests : List Src) (land : BitVec 12) (addr : Word) (ps : List Nat)
    (arr : Option Nat) (data : Option (List Upd)) (image : List Host.Cell) (g : StrandState → StrandState)
    (hg : Reads g) :
    Claims s ((t.claim req dests land addr ps arr data image).onMe g) req dests land addr ps := by
  let f : StrandState → StrandState := fun x =>
    { x with
      seq := x.seq + 1
      slots := x.slots ++ [{ seq := x.seq, due := x.local_ + land.toNat, req := req, dests := dests, addr := addr,
                             paddrs := ps, pc := x.pc, word := t.curWord, bound := x.stores,
                             arriveAt := arr, data := data, fault := none, depth := t.depth, replayed := false, image := image }] }
  have e : (t.claim req dests land addr ps arr data image).onMe g = (t.onMe fun x => g (f x)).issue := by
    simp only [State.claim, State.issue, State.onMe, State.onStrand, State.onHall, State.setHall, State.hall, Hall.onStrand, State.mk.injEq,
      Vector.set_set, Vector.getElem_set_self, strand_setStrand_same, true_and, and_true, f]
    cases t.curStrand <;> rfl
  obtain ⟨h1, h2, h3, h4, h5, h6⟩ := near_onMe s t h fun x => g (f x)
  rw [e]
  have hm : (t.onMe fun x => g (f x)).issue.me = g (f s.me) := h1
  have hgf := hg (f s.me)
  refine ⟨rfl, ?_, ?_, ⟨?_, ?_, ?_, ?_, ?_, ?_, ?_, ?_, ?_, h2, h3, h4, h5, ?_⟩⟩
  · rw [hm, hgf]; exact ⟨_, rfl, rfl, rfl, rfl, rfl, rfl, rfl, rfl, rfl⟩
  all_goals first | (rw [hm, hgf]) | exact ⟨h6.bytes, h6.overlay, h6.groups, h6.poison, h6.bad, h6.rounds⟩

/-- A claim issues. -/
theorem claim_issued (s : State) (req : Req) (dests : List Src) (land : BitVec 12) (addr : Word) (ps : List Nat)
    (arr : Option Nat) (data : Option (List Upd)) (image : List Host.Cell) : (s.claim req dests land addr ps arr data image).issued = true := rfl

/-- The program goes on as if the port had been free all along. -/
theorem onPort_free (s : State) (n : Nat) (k : State → State) (h : PortFree s) (hk : (k s).issued = true) :
    s.onPort n k = (k s).onMe fun x => { x with portFree := s.me.local_ + n } := by
  unfold State.onPort
  rw [if_neg (Nat.not_lt.2 h)]; simp [hk]

/-- A request for bytes, near or over the fabric. -/
theorem requestRead_claims (s : State) (req : Req) (dests : List Src) (land : BitVec 12) (addr : Word) (ps : List Nat)
    (g : StrandState → StrandState)
    (hg : Reads g) :
    Claims s ((s.requestRead req dests land addr ps).onMe g) req dests land addr ps ∧ (s.requestRead req dests land addr ps).issued = true := by
  unfold State.requestRead
  dsimp only
  split
  · refine ⟨?_, by unfold State.request; exact claim_issued _ _ _ _ _ _ _ _ _⟩
    unfold State.request
    exact claim_claims s s.drawDelay.2 (near_drawDelay s) _ _ _ _ _ _ _ _ g hg
  · unfold State.requestFabric
    split
    · exact ⟨claim_claims s s (Near.refl s) _ _ _ _ _ _ _ _ g hg, claim_issued _ _ _ _ _ _ _ _ _⟩
    · refine ⟨?_, rfl⟩
      dsimp only
      rw [onMe_onMe]
      exact claim_claims s _ (near_askBytes s _ _ _ _ _ _) _ _ _ _ _ _ _ _ _ (Reads.comp (reads_hasRead _) hg)

/-- A load's slot, whether its data is forwarded or requested. -/
theorem loadSlot_claims (s : State) (req : Req) (dests : List Src) (land : BitVec 12) (addr : Word) (ps : List Nat) (give : Bytes → List Upd)
    (hs : SlotFree s) (g : StrandState → StrandState)
    (hg : Reads g) :
    Claims s ((s.loadSlot req dests land addr ps give).onMe g) req dests land addr ps ∧ (s.loadSlot req dests land addr ps give).issued = true := by
  unfold State.loadSlot State.withSlot
  rw [if_neg (Nat.not_le.2 hs)]
  dsimp only
  split
  · exact ⟨claim_claims s s (Near.refl s) _ _ _ _ _ _ _ _ g hg, claim_issued _ _ _ _ _ _ _ _ _⟩
  · exact requestRead_claims s _ _ _ _ _ g hg

/-- A request through a free port: its slot, and the port taken for a cycle. -/
theorem onPort_claims (s : State) (k : State → State) (req : Req) (dests : List Src) (land : BitVec 12) (addr : Word) (ps : List Nat)
    (hp : PortFree s)
    (hk : ∀ g : StrandState → StrandState, Reads g →
      Claims s ((k s).onMe g) req dests land addr ps ∧ (k s).issued = true) :
    (s.onPort 1 k).me.portFree = s.me.local_ + 1 ∧ Claims s (s.onPort 1 k) req dests land addr ps := by
  have h := hk (fun x => { x with portFree := s.me.local_ + 1 }) (fun _ => rfl)
  rw [onPort_free s 1 k hp h.2]
  exact ⟨by rw [me_onMe], h.1⟩

/-- A store enters the overlay (R123, R125), and its strand's port is taken. -/
theorem store_stores (s : State) (addr : Word) (width : Nat) (data : Word) (cs : List Host.Cell) (vas : List Nat) (cv tile : Bool) (n : Nat)
    (hp : PortFree s) (hr : s.regionFull cs = false) :
    (s.onPort n fun s => s.store addr width data cs vas cv tile).me.portFree = s.me.local_ + n ∧
    Stores s (s.onPort n fun s => s.store addr width data cs vas cv tile) addr width data cs := by
  have hi : (s.store addr width data cs vas cv tile).issued = true := by unfold State.store; rw [hr]; rfl
  rw [onPort_free s n _ hp hi]
  refine ⟨by rw [me_onMe], ?_⟩
  unfold State.store
  rw [hr]
  simp only [Bool.false_eq_true, if_false]
  generalize hE : Store.mk _ _ _ _ _ _ _ _ _ _ _ _ _ _ _ _ = e
  let s1 : State := { s with free := s.free + 1 }
  let G : Hall → Hall := fun H => { H with storeNo := H.storeNo + 1, overlay := H.overlay ++ [e] }
  let F : Hall → Hall := fun H =>
    Hall.onStrand (Hall.onStrand (G H) s.curStrand fun x => { x with stores := s.me.stores + 1 }) s.curStrand
      fun x => { x with portFree := s.me.local_ + n }
  have hF : (F s.here).work.strand s.curStrand = { s.me with stores := s.me.stores + 1, portFree := s.me.local_ + n } := by
    simp only [F, onStrandH_strand]; rfl
  have eq : ((((s1.onHere G).onMe
      fun x => { x with stores := s.me.stores + 1 }).issue).onMe fun x => { x with portFree := s.me.local_ + n }) = (s1.onHere F).issue := by
    simp only [s1, F, G, State.issue, State.onHere, State.onMe, State.onStrand, State.onHall, State.setHall, State.hall, Vector.set_set,
      Vector.getElem_set_self]
  have hh : ((s1.onHere F).issue).here = F s.here := here_onHere s1 F
  have hm : ((s1.onHere F).issue).me = { s.me with stores := s.me.stores + 1, portFree := s.me.local_ + n } := by
    rw [← hF, ← hh]; rfl
  change Stores s ((((s1.onHere G).onMe
      fun x => { x with stores := s.me.stores + 1 }).issue).onMe fun x => { x with portFree := s.me.local_ + n }) addr width data cs
  rw [eq]
  refine ⟨rfl, ⟨e, ?_, ?_⟩, fun _ => rfl, by rw [hm], ?_, ?_, ?_, ?_, rfl⟩
  · rw [hh]; rfl
  · subst hE
    refine ⟨rfl, rfl, rfl, rfl, rfl, rfl, rfl, rfl, ?_, ?_⟩
    · change s.here.cycle < s.here.cycle + 1 + _ % 16; omega
    · change s.here.cycle + 1 + _ % 16 ≤ s.here.cycle + 16; omega
  · rw [hm]; exact ⟨rfl, rfl, rfl, rfl, rfl, rfl, rfl⟩
  · intro h hn; exact hall_onHall_ne s1 s.curHall h F hn
  · intro st hst
    rw [hh]; change ((_ : Work).setStrand _ _).strand st = _
    rw [strand_setStrand_ne _ _ _ _ hst]
    change ((s.here.work.setStrand _ _).strand st) = _
    rw [strand_setStrand_ne _ _ _ _ hst]
  · rw [hh]; simp only [F, G, Hall.onStrand, setStrand_tiles, setStrand_masks, and_self]

end Sys2Proof.Laws
end

