-- ==== Sys2Proof/Laws/Words.lean ====
section
/-! SUPPORT. The integer operations of Scalar.lean against what the manual says of their results (R97 to R104). -/

namespace Sys2Proof.Laws
open Sys2Proof.Machine Sys2Proof.Spec

/-- SHL by a register (R99). -/
theorem shl_bits (x n : Word) : isShl x n (shlW x n) := by
  intro k hk; unfold shlW; split
  · have : ¬ n.toNat ≤ k := by omega
    simp [this]
  · simp [hk]; by_cases h : k < n.toNat
    · simp [h, Nat.not_le.mpr h]
    · simp [h, Nat.not_lt.mp h, BitVec.getLsbD_eq_getElem (show k - n.toNat < 64 by omega)]

/-- SHR by a register (R99). -/
theorem shr_bits (x n : Word) : isShr x n (shrW x n) := by
  intro k hk; unfold shrW; split
  · have : ¬ k + n.toNat < 64 := by omega
    simp [this]
  · simp only [BitVec.getLsbD_ushiftRight, Nat.add_comm]
    by_cases h : k + n.toNat < 64
    · rw [decide_eq_true h]; simp
    · rw [decide_eq_false h]; simp; exact BitVec.getLsbD_of_ge _ _ (by omega)

/-- SAR by a register (R99). -/
theorem sar_bits (x n : Word) : isSar x n (sarW x n) := by
  intro k hk; unfold sarW
  rw [BitVec.getLsbD_sshiftRight]
  simp only [show ¬ 64 ≤ k by omega, decide_false, Bool.not_false, Bool.true_and]
  rw [BitVec.msb_eq_getLsbD_last]
  by_cases h : k + n.toNat < 64
  · rw [if_pos (by omega)]; congr 1; omega
  · by_cases h2 : min n.toNat 63 + k < 64
    · rw [if_pos h2]; congr 1; omega
    · rw [if_neg h2]; congr 1; omega

/-- SARI (R102). -/
theorem sari_bits (x : Word) (n : BitVec 6) : isSar x (n.setWidth 64) (x.sshiftRight n.toNat) := by
  have h := sar_bits x (n.setWidth 64)
  have : sarW x (n.setWidth 64) = x.sshiftRight n.toNat := by
    unfold sarW; congr 1; simp; have := n.isLt; omega
  rwa [this] at h

/-- SHLI (R102). -/
theorem shli_bits (x : Word) (n : BitVec 6) : isShl x (n.setWidth 64) (x <<< n.toNat) := by
  have h := shl_bits x (n.setWidth 64)
  have : shlW x (n.setWidth 64) = x <<< n.toNat := by
    unfold shlW; have := n.isLt; rw [BitVec.toNat_setWidth, Nat.mod_eq_of_lt (by omega), if_neg (by omega)]
  rwa [this] at h

/-- SHRI (R102). -/
theorem shri_bits (x : Word) (n : BitVec 6) : isShr x (n.setWidth 64) (x >>> n.toNat) := by
  have h := shr_bits x (n.setWidth 64)
  have : shrW x (n.setWidth 64) = x >>> n.toNat := by
    unfold shrW; have := n.isLt; rw [BitVec.toNat_setWidth, Nat.mod_eq_of_lt (by omega), if_neg (by omega)]
  rwa [this] at h

/-- ROL (R99). -/
theorem rol_bits (x n : Word) (k : Nat) (hk : k < 64) : (x.rotateLeft (n.toNat % 64)).getLsbD ((k + n.toNat) % 64) = x.getLsbD k := by
  rw [BitVec.getLsbD_rotateLeft]
  have h := Nat.mod_lt n.toNat (show 64 > 0 by decide)
  simp only [Nat.mod_mod, Nat.mod_lt _ (show 64 > 0 by decide), decide_true, Bool.true_and]
  by_cases h2 : (k + n.toNat) % 64 < n.toNat % 64
  · rw [decide_eq_true h2, cond_true]; congr 1; omega
  · rw [decide_eq_false h2, cond_false]; congr 1; omega

/-- ROR (R99). -/
theorem ror_bits (x n : Word) (k : Nat) (hk : k < 64) : (x.rotateRight (n.toNat % 64)).getLsbD k = x.getLsbD ((k + n.toNat) % 64) := by
  rw [BitVec.getLsbD_rotateRight]
  simp only [Nat.mod_mod, hk, decide_true, Bool.true_and]
  by_cases h2 : k < 64 - n.toNat % 64
  · rw [decide_eq_true h2, cond_true]; congr 1; omega
  · rw [decide_eq_false h2, cond_false]; congr 1; omega

/-- MIN (R97). -/
theorem min_int (x y : Word) : (pick (x.toInt ≤ y.toInt) x y).toInt = min x.toInt y.toInt := by
  by_cases h : x.toInt ≤ y.toInt <;> simp [pick, h, min_def]

/-- MAX (R97). -/
theorem max_int (x y : Word) : (pick (y.toInt ≤ x.toInt) x y).toInt = max x.toInt y.toInt := by
  by_cases h : y.toInt ≤ x.toInt
  · simp [pick, h]
  · simp [pick, h]; omega

/-- MINU (R97). -/
theorem min_nat (x y : Word) : (pick (x ≤ y) x y).toNat = min x.toNat y.toNat := by
  by_cases h : x ≤ y
  · have := BitVec.le_def.mp h; simp [pick, h, this]
  · have : ¬ x.toNat ≤ y.toNat := fun c => h (BitVec.le_def.mpr c)
    simp [pick, h]; omega

/-- MAXU (R97). -/
theorem max_nat (x y : Word) : (pick (y ≤ x) x y).toNat = max x.toNat y.toNat := by
  by_cases h : y ≤ x
  · have := BitVec.le_def.mp h; simp [pick, h, this]
  · have : ¬ y.toNat ≤ x.toNat := fun c => h (BitVec.le_def.mpr c)
    simp [pick, h]; omega

/-- ABS (R97). -/
theorem abs_nat (x : Word) : (if x.toInt < 0 then -x else x).toNat = x.toInt.natAbs := by
  have hx := x.isLt
  rw [BitVec.toInt_eq_toNat_cond]
  by_cases h : 2 * x.toNat < 2 ^ 64
  · rw [if_pos h, if_neg (by omega)]; omega
  · rw [if_neg h, if_pos (by omega)]; simp; omega

/-- Leading zeros among the low n bits. -/
theorem clzGo_spec (x : Word) : ∀ n, n ≤ 64 → clzGo x n ≤ n ∧ (∀ k, k < clzGo x n → x.getLsbD (n - 1 - k) = false) ∧
    (clzGo x n < n → x.getLsbD (n - 1 - clzGo x n) = true)
  | 0, _ => by simp [clzGo]
  | n + 1, hn => by
    have ih := clzGo_spec x n (by omega)
    unfold clzGo
    by_cases h : x.getLsbD n
    · simp [h]
    · simp only [h, Bool.false_eq_true, if_false]
      refine ⟨by omega, ?_, ?_⟩
      · intro k hk
        cases k with
        | zero => simpa using h
        | succ k => rw [← ih.2.1 k (by omega)]; congr 1; omega
      · intro hlt; rw [← ih.2.2 (by omega)]; congr 1; omega

/-- Trailing zeros from bit 64 - n on. -/
theorem ctzGo_spec (x : Word) : ∀ n, n ≤ 64 → ctzGo x n ≤ n ∧ (∀ k, k < ctzGo x n → x.getLsbD (64 - n + k) = false) ∧
    (ctzGo x n < n → x.getLsbD (64 - n + ctzGo x n) = true)
  | 0, _ => by simp [ctzGo]
  | n + 1, hn => by
    have ih := ctzGo_spec x n (by omega)
    unfold ctzGo
    have e : 64 - (n + 1) = 63 - n := by omega
    by_cases h : x.getLsbD (63 - n)
    · simp [h, e]
    · simp only [h, Bool.false_eq_true, if_false]
      refine ⟨by omega, ?_, ?_⟩
      · intro k hk
        cases k with
        | zero => simpa [e] using h
        | succ k => rw [← ih.2.1 k (by omega)]; congr 1; omega
      · intro hlt; rw [← ih.2.2 (by omega)]; congr 1; omega

/-- CLZ (R97). -/
theorem clz_spec (x : Word) : isClz x (BitVec.ofNat 64 (clzGo x 64)) := by
  have h := clzGo_spec x 64 (by omega)
  have e : (BitVec.ofNat 64 (clzGo x 64)).toNat = clzGo x 64 := by simp; omega
  unfold isClz; rw [e]; exact h

/-- CTZ (R97). -/
theorem ctz_spec (x : Word) : isCtz x (BitVec.ofNat 64 (ctzGo x 64)) := by
  have h := ctzGo_spec x 64 (by omega)
  have e : (BitVec.ofNat 64 (ctzGo x 64)).toNat = ctzGo x 64 := by simp; omega
  unfold isCtz; rw [e]; simpa using h

/-- One bits among the low n bits. -/
theorem popGo_spec (x : Word) : ∀ n, popGo x n = ((List.range n).filter x.getLsbD).length
  | 0 => by simp [popGo]
  | n + 1 => by
    rw [List.range_succ, List.filter_append, List.length_append, popGo, popGo_spec x n]
    by_cases h : x.getLsbD n <;> simp [h, Nat.add_comm]

/-- POPC (R97). -/
theorem pop_spec (x : Word) : (BitVec.ofNat 64 (popGo x 64)).toNat = ((List.range 64).filter x.getLsbD).length := by
  rw [← popGo_spec]
  have : popGo x 64 ≤ 64 := by rw [popGo_spec]; exact le_trans (List.length_filter_le _ _) (by simp)
  simp; omega

/-- SEXT (R97). -/
theorem sext_spec (x : Word) (w : ExtW) (k : Nat) (hk : k < 64) :
    ((x.setWidth (ExtW.bits w)).signExtend 64).getLsbD k = x.getLsbD (min k ((ExtW.bits w) - 1)) := by
  rw [BitVec.getLsbD_signExtend]
  have hw : 0 < ExtW.bits w ∧ ExtW.bits w ≤ 32 := by cases w <;> simp [ExtW.bits]
  simp only [hk, decide_true, Bool.true_and, BitVec.msb_eq_getLsbD_last, BitVec.getLsbD_setWidth]
  by_cases h : k < ExtW.bits w
  · rw [if_pos h, decide_eq_true h, Bool.true_and]; congr 1; omega
  · rw [if_neg h, decide_eq_true (by omega), Bool.true_and]; congr 1; omega

/-- ZEXT (R97). -/
theorem zext_spec (x : Word) (w : ExtW) : ((x.setWidth (ExtW.bits w)).setWidth 64).toNat = x.toNat % 2 ^ (ExtW.bits w) := by
  cases w <;> simp [ExtW.bits] <;> omega

/-- LEA (R97). -/
theorem lea_spec (x y : Word) (n : BitVec 3) : (x + (y <<< n.toNat)).toNat = (x.toNat + y.toNat * 2 ^ n.toNat) % 2 ^ 64 := by
  simp [BitVec.toNat_add, Nat.shiftLeft_eq]

/-- Bits of a field read as signed. -/
theorem sint_bits (w x k : Nat) (hw : 0 < w) (hk : k < 64) (hw2 : w ≤ 64) :
    (BitVec.ofInt 64 (sint w x)).getLsbD k = if k < w then x.testBit k else x.testBit (w - 1) := by
  have e : sint w x = (BitVec.ofNat w x).toInt := by
    unfold sint; rw [BitVec.toInt_eq_toNat_cond]; simp only [BitVec.toNat_ofNat]
    have h1 : 2 * 2 ^ (w - 1) = 2 ^ w := by rw [← pow_succ']; congr 1; omega
    have := Nat.mod_lt x (show 2 ^ w > 0 by positivity)
    split <;> split <;> first | rfl | omega
  rw [e, ← BitVec.signExtend, BitVec.getLsbD_signExtend]
  simp only [hk, decide_true, Bool.true_and, BitVec.msb_eq_getLsbD_last, BitVec.getLsbD_ofNat]
  split
  · simp [*]
  · simp; intro; omega

/-- BEXT (R100). -/
theorem bext_spec (x : Word) (off w : Nat) (sx : Bool) : isField x off w sx (bextW x off w sx) := by
  unfold isField bextW
  refine ⟨?_, ?_⟩
  · intro h
    rw [if_pos (by omega)]
  · intro h k hk
    have h1 : ¬ (min w 64 = 0 ∨ 64 ≤ off) := by omega
    simp only [h1, if_false]
    cases sx
    · simp only [Bool.false_eq_true, if_false, Bool.false_and]
      rw [BitVec.getLsbD_ofNat]
      rw [Nat.testBit_mod_two_pow, decide_eq_true hk, Bool.true_and]
      by_cases h2 : k < min (min w 64) (64 - off)
      · rw [if_pos h2, decide_eq_true h2, Bool.true_and]; simp [BitVec.getLsbD]
      · rw [if_neg h2, decide_eq_false h2, Bool.false_and]
    · simp only [if_true, Bool.true_and]
      rw [sint_bits _ _ _ (by omega) hk (by omega)]
      split
      · simp [BitVec.getLsbD]
      · simp [BitVec.getLsbD]; congr 1; omega

/-- The mask of a field. -/
theorem mask_bits (w off k : Nat) (hk : k < 64) :
    (BitVec.ofNat 64 (2 ^ w - 1) <<< off : BitVec 64).getLsbD k = (decide (off ≤ k) && decide (k - off < w)) := by
  rw [BitVec.getLsbD_shiftLeft, BitVec.getLsbD_ofNat, Nat.testBit_two_pow_sub_one]
  by_cases h : k < off
  · simp [h, Nat.not_le.mpr h]
  · have : off ≤ k := by omega
    have h2 : k - off < 64 := by omega
    simp [h, hk, this, h2]

/-- BINS (R101). -/
theorem bins_spec (old x : Word) (off w : Nat) : isInsert old x off w (binsW old x off w) := by
  unfold isInsert binsW
  refine ⟨?_, ?_⟩
  · intro h; rw [if_pos (by omega)]
  · intro h
    have h1 : ¬ (min w 64 = 0 ∨ 64 ≤ off) := by omega
    simp only [h1, if_false]
    refine ⟨_, rfl, ?_⟩
    intro k hk
    simp only [BitVec.getLsbD_or, BitVec.getLsbD_and, BitVec.getLsbD_not, mask_bits _ _ _ hk, hk, decide_true, Bool.true_and,
      BitVec.getLsbD_shiftLeft]
    by_cases h2 : off ≤ k
    · by_cases h3 : k - off < min (min w 64) (64 - off)
      · have : k < off + min (min w 64) (64 - off) := by omega
        rw [if_pos ⟨h2, this⟩, decide_eq_true h3, decide_eq_true h2, decide_eq_false (show ¬ k < off by omega)]; simp
      · have : ¬ k < off + min (min w 64) (64 - off) := by omega
        rw [if_neg (fun c => this c.2), decide_eq_false h3, decide_eq_true h2]; simp
    · rw [if_neg (fun c => h2 c.1), decide_eq_false h2]; simp

/-- Bits of a sign-extended immediate (R102). -/
theorem signExtend_bits (imm : BitVec 28) (k : Nat) (hk : k < 64) : (imm.signExtend 64).getLsbD k = imm.getLsbD (min k 27) := by
  rw [BitVec.getLsbD_signExtend]
  simp only [hk, decide_true, Bool.true_and, BitVec.msb_eq_getLsbD_last]
  split <;> congr 1 <;> omega

/-- ADDI (R102). -/
theorem addi_spec (x : Word) (imm : BitVec 28) : x + imm.signExtend 64 = BitVec.ofInt 64 (x.toInt + imm.toInt) := by
  apply BitVec.eq_of_toInt_eq
  rw [BitVec.toInt_add, BitVec.toInt_ofInt, BitVec.toInt_signExtend_of_le (by omega)]

/-- MULI (R102). -/
theorem muli_spec (x : Word) (imm : BitVec 28) : x * imm.signExtend 64 = BitVec.ofInt 64 (x.toInt * imm.toInt) := by
  apply BitVec.eq_of_toInt_eq
  rw [BitVec.toInt_mul, BitVec.toInt_ofInt, BitVec.toInt_signExtend_of_le (by omega)]

/-- MULH (R97). -/
theorem mulh_spec (x y : Word) : (BitVec.ofInt 64 (x.toInt * y.toInt / 2 ^ 64)).toInt = x.toInt * y.toInt / 2 ^ 64 := by
  rw [BitVec.toInt_ofInt]
  have h1 := BitVec.two_mul_toInt_lt (x := x); have h2 := BitVec.le_two_mul_toInt (x := x)
  have h3 := BitVec.two_mul_toInt_lt (x := y); have h4 := BitVec.le_two_mul_toInt (x := y)
  have h5 : |x.toInt * y.toInt| ≤ 2^63 * 2^63 := by
    rw [abs_mul]; apply mul_le_mul <;> first | positivity | (rw [abs_le]; constructor <;> omega)
  rw [abs_le] at h5
  rw [Int.bmod_eq_of_le] <;> omega

/-- MULHU (R97). -/
theorem mulhu_spec (x y : Word) : (BitVec.ofNat 64 (x.toNat * y.toNat / 2 ^ 64)).toNat = x.toNat * y.toNat / 2 ^ 64 := by
  rw [BitVec.toNat_ofNat, Nat.mod_eq_of_lt]
  have := x.isLt; have := y.isLt
  have : x.toNat * y.toNat < 2^64 * 2^64 := by apply Nat.mul_lt_mul'' <;> assumption
  omega

/-- DIV (R98). -/
theorem div_spec (x y : Word) : isQuotient x y (divS x y) := by
  unfold isQuotient divS; constructor <;> intro h
  · rw [if_pos h]
  · rw [if_neg h]

/-- REM (R98). -/
theorem rem_spec (x y : Word) : isRemainder x y (remS x y) := by
  unfold isRemainder remS; constructor <;> intro h <;> simp only [h, if_true, if_false]
  have e : x.toInt.tmod y.toInt = x.toInt - y.toInt * x.toInt.tdiv y.toInt := by have := Int.tmod_def x.toInt y.toInt; exact this
  rw [← e, BitVec.toInt_ofInt]
  have h1 := BitVec.two_mul_toInt_lt (x := x); have h2 := BitVec.le_two_mul_toInt (x := x)
  have h3 : (x.toInt.tmod y.toInt).natAbs ≤ x.toInt.natAbs := by rw [Int.natAbs_tmod]; exact Nat.mod_le _ _
  by_cases h4 : x.toInt = -2 ^ 63
  · have h5 : x.toInt.tmod y.toInt ≤ 0 := by
      rw [h4, Int.neg_tmod]; have := Int.tmod_nonneg y.toInt (show (0 : Int) ≤ 2 ^ 63 by decide); omega
    rw [Int.bmod_eq_of_le] <;> omega
  · rw [Int.bmod_eq_of_le] <;> omega

/-- DIVU (R98). -/
theorem divu_spec (x y : Word) : (y = 0 → divU x y = BitVec.allOnes 64) ∧ (y ≠ 0 → (divU x y).toNat = x.toNat / y.toNat) := by
  unfold divU; constructor <;> intro h <;> simp only [h, if_true, if_false]
  rw [BitVec.toNat_ofNat, Nat.mod_eq_of_lt]; exact lt_of_le_of_lt (Nat.div_le_self _ _) x.isLt

/-- REMU (R98). -/
theorem remu_spec (x y : Word) : (y = 0 → remU x y = x) ∧ (y ≠ 0 → (remU x y).toNat = x.toNat % y.toNat) := by
  unfold remU; constructor <;> intro h <;> simp only [h, if_true, if_false]
  rw [BitVec.toNat_ofNat, Nat.mod_eq_of_lt]; exact lt_of_le_of_lt (Nat.mod_le _ _) x.isLt

/-- MOVHI (R104). -/
theorem movhi_spec (x : Word) (imm : BitVec 32) : (imm ++ x.extractLsb' 0 32 : BitVec 64).toNat = imm.toNat * 2 ^ 32 + x.toNat % 2 ^ 32 := by
  rw [BitVec.toNat_append, BitVec.extractLsb'_toNat, Nat.shiftRight_zero,
    ← Nat.shiftLeft_add_eq_or_of_lt (Nat.mod_lt _ (by positivity)), Nat.shiftLeft_eq]

end Sys2Proof.Laws
end

