-- ==== Sys2Proof/Tests/Slice0.lean ====
section
/-! SUPPORT. Tests: ill-formed terms that the checks refuse, words written out from the encoding tables of 02_formats, single steps whose results are worked out by hand
from the rules cited, and for each statement a concrete state and operands that meet its hypotheses together. -/

set_option Elab.async false
set_option maxRecDepth 100000

namespace Sys2Proof.Test
open Sys2Proof.Machine Sys2Proof.Spec

/-! Small states. -/

/-- Hall 0 runs a supervisor slice of context 1, partition 0, whose strand S is about to take a NOP. -/
def sup : State := State.reset.placed 0x0000A60000000000
/-- Hall 0's slice is changed. -/
def onSl (f : Slice → Slice) (s : State) : State := s.onHall 0 (Hall.onSlice · f)
/-- Hall 0 is changed. -/
def on0 (f : Hall → Hall) (s : State) : State := s.onHall 0 f
/-- The same slice in user mode. -/
def usr : State := onSl (fun sl => { sl with super := false, supervisor := false }) sup
/-- Scalar registers of the strand at issue are set. -/
def withRegs (l : List (Nat × Word)) (s : State) : State := s.onMe fun x => l.foldl (fun x e => x.setReg e.1 e.2) x
/-- A result for register s1 is pending, and the scoreboard is on. -/
def busy (s : State) : State := s.onMe fun x => { x with sbchk := true, pends := [{ seq := 0, due := 9, upds := [.sreg 1 5] }] }
/-- An address in the own gallery that is 4 KiB beyond its first byte minus 4,032: the second line (R34). -/
def own : Word := placedPc + 64

end Sys2Proof.Test

/-! Well-formedness: an ill-formed term for each check (R44 to R49). -/

namespace Sys2Proof.Test

theorem test_illformed_event_step : malformed .deviceReset = some .noEncoding := rfl
theorem test_illformed_landing : malformed (.ldW 7 3 16 0) = some .landing := by decide
theorem test_illformed_predicate : malformed (.sel 1 2 3 8) = some .register := by decide
theorem test_illformed_target : malformed (.br 4) = some .register := by decide
theorem test_illformed_event : malformed (.evPost 32) = some .register := by decide
theorem test_illformed_tile : malformed (.vzero .F32 32 0) = some .register := by decide
theorem test_illformed_tile_source : malformed (.vadd .F32 1 2 32 0) = some .register := by decide
theorem test_illformed_stream : malformed (.sdrop 8) = some .register := by decide
theorem test_illformed_pair : malformed (.rangeNext 3 1 4) = some .register := by decide
theorem test_illformed_pair_zero : malformed (.cpMm 0 1 2 3 { scope := .device, ev := 0, we := false }) = some .register := by decide
theorem test_illformed_scope : malformed (.cp 0 1 2 3 { scope := .strand, ev := 0, we := false }) = some .code := by decide
theorem test_illformed_width : malformed (.bexti 1 2 0 65 false) = some .limit := by decide
theorem test_illformed_fadd_width : malformed (.amo .FADD .D .device .RLX 1 2 3 1) = some .code := by decide
theorem test_illformed_register_number : malformed (.csrr 1 0x008) = some .code := by decide
theorem test_illformed_conversion : malformed (.fcvt .I32 .I64 false 1 2) = some .code := by decide
theorem test_illformed_type : malformed (.viadd .F32 1 2 3 0 false false) = some .code := by decide
theorem test_illformed_columns : malformed (.vshape .F32 1 0 64) = some .limit := by decide
theorem test_illformed_lifetime : malformed (.lifeSet 1 2 .P .REFRESH) = some .code := by decide
theorem test_illformed_keep : malformed (.rgnKeep .T 1 2) = some .reserved := by decide
theorem test_illformed_rows : malformed (.maccZero 511 1) = some .limit := by decide
theorem test_illformed_event_field : malformed (.maccSpill 0 0 1 3 false) = some .limit := by decide
theorem test_illformed_freeze : malformed (.freeze 0 1 2) = some .register := by decide
theorem test_illformed_compare : malformed (.vcmp .UN .I32 1 2 3 0) = some .code := by decide
theorem test_wellformed_load : WellFormed (.ldW 7 3 16 40) = true := by decide

/-! Decoding: words of the manual's worked encodings and words written out bit by bit. -/

theorem test_decode_load : decode 0x2281041C30010028 = .ok ({ Ctl.plain with gp := 2, stall := 1, pr := true }, .ldW 7 3 16 40) := by decide
theorem test_decode_cmpi : decode 0x0000612845FFFFFB = .ok (Ctl.plain, .cmpi .LT 1 2 4 (-5)) := by decide
theorem test_decode_mma :
    decode 0x000C1010147E8028 = .ok (Ctl.plain, .mma { arow := 32, src := 10, n := 31, bank := true, ctl := .ACC, sreg := 0, ev := 2, eve := true, k := 0 }) := by
  decide
theorem test_decode_vadd :
    decode 0x0658101010980000 = .ok ({ Ctl.plain with stall := 3, wl := true, sync := true }, .vadd .F32 4 1 2 3) := by decide
theorem test_decode_nop : decode 0x0000A60000000000 = .ok (Ctl.plain, .nop) := by decide
theorem test_decode_pb : decode 0x0000A07FFFFFFFFB = .ok (Ctl.plain, .pb 1 (-5)) := by decide
theorem test_decode_csrr : decode 0x0001801400000015 = .ok (Ctl.plain, .csrr 5 0x15) := by decide
theorem test_decode_csrw : decode 0x0041810100000090 = .ok ({ Ctl.plain with wl := true }, .csrw 0x90 16) := by decide
theorem test_decode_eret : decode 0x0001830000000000 = .ok (Ctl.plain, .eret) := by decide
theorem test_decode_slice_end : decode 0x0001880000000000 = .ok (Ctl.plain, .sliceEnd) := by decide
theorem test_decode_phase : decode 0x0001480000030000 = .ok (Ctl.plain, .phase .device) := by decide
theorem test_decode_amo : decode 0x0001405094438001 = .ok (Ctl.plain, .amo .ADD .W .device .RLX 20 9 17 1) := by decide
theorem test_decode_region : decode 0x0011C00000000000 = .ok ({ Ctl.plain with sync := true }, .rgnBegin) := by decide
theorem test_decode_region_sync : decode 0x0001C00000000000 = .error .noSync := by decide
theorem test_decode_keep : decode 0x0011C10145400001 = .ok ({ Ctl.plain with sync := true }, .rgnKeep .A 20 21) := by decide
theorem test_decode_rgn_stat : decode 0x0201C43400000000 = .ok ({ Ctl.plain with stall := 1 }, .rgnStat 13) := by decide
theorem test_decode_copy : decode 0x0004101051870003 = .ok (Ctl.plain, .cp 4 5 6 7 { scope := .device, ev := 0, we := false }) := by decide
theorem test_decode_hazel : decode 0x0004200010000003 = .ok (Ctl.plain, .hzPool 0 1 { scope := .device, ev := 0, we := false }) := by decide
theorem test_decode_ones : decode 0xFFFFFFFFFFFFFFFF = .error .unassigned := by decide
theorem test_decode_zero : decode 0 = .ok (Ctl.plain, .add 0 0 0) := by decide
theorem test_encode_load : encode { Ctl.plain with gp := 2, stall := 1, pr := true } (.ldW 7 3 16 40) = some 0x2281041C30010028 := by decide

end Sys2Proof.Test

/-! Single steps. The expected values are worked out by hand from the rules cited. -/

namespace Sys2Proof.Test
open Sys2Proof.Machine Sys2Proof.Spec

/-- The state after an instruction. -/
def after (i : Instr) (s : State) : State := Out.state (exec i s) s
/-- What an instruction leaves pending last. -/
def pending (i : Instr) (s : State) : Option (List Upd) := (after i s).me.pends.getLast?.map (·.upds)

/-- R97: the sum wraps. -/
theorem test_add_wraps : pending (.add 3 1 2) (withRegs [(1, 0xFFFFFFFFFFFFFFFF), (2, 2)] sup) = some [.sreg 3 1] := by decide +kernel
/-- R98: -7 / 2 truncates toward zero. -/
theorem test_div_truncates : pending (.div 3 1 2) (withRegs [(1, 0xFFFFFFFFFFFFFFF9), (2, 2)] sup) = some [.sreg 3 0xFFFFFFFFFFFFFFFD] := by decide +kernel
/-- R99: SAR by 64 gives copies of bit 63. -/
theorem test_sar_whole : pending (.sar 3 1 2) (withRegs [(1, 0x8000000000000000), (2, 64)] sup) = some [.sreg 3 0xFFFFFFFFFFFFFFFF] := by decide +kernel
/-- R99: SHL by 64 gives 0. -/
theorem test_shl_whole : pending (.shl 3 1 2) (withRegs [(1, 1), (2, 64)] sup) = some [.sreg 3 0] := by decide +kernel
/-- R105: a signed compare; the complement is written last. -/
theorem test_cmp_signed : pending (.cmp .LT 1 2 1 2) (withRegs [(1, 0xFFFFFFFFFFFFFFFF), (2, 1)] sup) = some [.preg 1 true, .preg 2 false] := by decide +kernel
/-- R109: 1.0 + 1.0 is 2.0 in FP32. -/
theorem test_fadd : (pending (.fadd 3 1 2) (withRegs [(1, 0x3F800000), (2, 0x3F800000)] sup)).map (·.head?) = some (some (.sreg 3 0x40000000)) := by
  decide +kernel
/-- R111: an infinity converted to I32 is the upper limit, sign-extended. -/
theorem test_fcvt_infinity : (pending (.fcvt .I32 .F32 false 3 1) (withRegs [(1, 0x7F800000)] sup)).map (·.head?) = some (some (.sreg 3 0x7FFFFFFF)) := by
  decide +kernel
/-- R112: PB names its own address plus eight times the offset. -/
theorem test_pb : pending (.pb 1 (-1)) sup = some [.btgt 1 (placedPc - 8) (sup.here.cycle + 4)] := by decide +kernel
/-- R115: RET of an address that is no multiple of 8 traps with ALIGN. -/
theorem test_ret_misaligned : (after (.ret 1) (withRegs [(1, 4)] sup)).here.trap.map (·.info.cause) = some .ALIGN := by decide +kernel
/-- R117: a post is counted, and not before the end of the Hall cycle. -/
theorem test_post : ((after (.evPost 3) sup).here.evPosts 3, ((after (.evPost 3) sup).here.work.ev 3).count) = (1, 0) := by decide +kernel
/-- R123: a store's lowest byte stands first in the overlay. -/
theorem test_store : ((after (.stW 2 1 0) (withRegs [(1, own), (2, 0x11223344)] sup)).here.overlay.map fun e => e.cells.map (·.2)) = [[0x44, 0x33, 0x22, 0x11]] := by
  decide +kernel
/-- R122: a load at an odd address traps with ALIGN. -/
theorem test_load_misaligned : (after (.ldW 2 1 1 4) (withRegs [(1, own)] sup)).here.trap.map (·.info.cause) = some .ALIGN := by decide +kernel
/-- R24: a load claims one slot, due at its landing offset. -/
theorem test_load : ((after (.ldD 2 1 0 7) (withRegs [(1, own)] sup)).me.slots.map (·.due)) = [7] := by decide +kernel
/-- R206: a tenant may not read TRAP.CAUSE. -/
theorem test_csrr_priv : (after (.csrr 5 0x080) usr).here.trap.map (·.info.cause) = some .PRIV := by decide +kernel
/-- R27: SHAPE.t5 after reset is 0x3F3E. -/
theorem test_csrr_shape : pending (.csrr 5 0x15) usr = some [.sreg 5 0x3F3E] := by decide +kernel
/-- R212: ERET in user mode traps with PRIV. -/
theorem test_eret_priv : (after .eret usr).here.trap.map (·.info.cause) = some .PRIV := by decide +kernel
/-- R231: RGN.END with no region open traps with ILLEGAL. -/
theorem test_rgn_end : (after .rgnEnd sup).here.trap.map (·.info.cause) = some .ILLEGAL := by decide +kernel
/-- R231: RGN.BEGIN opens a region. -/
theorem test_rgn_begin : (after .rgnBegin sup).depth = 1 := by decide +kernel
/-- R195: CP of a source that is no multiple of 64 traps with ALIGN. -/
theorem test_copy_misaligned :
    (after (.cp 0 1 2 3 { scope := .device, ev := 0, we := false }) (withRegs [(1, 8), (2, own), (3, 64)] sup)).here.trap.map (·.info.cause) = some .ALIGN := by
  decide +kernel
/-- R237: a first Hazel command that is not HZ.POOL traps with ILLEGAL. -/
theorem test_hazel_first : (after (.hzSweep 0 { scope := .device, ev := 0, we := false }) usr).here.trap.map (·.info.cause) = some .ILLEGAL := by decide +kernel
/-- R250: a Hall's band is 15 until its first reading. -/
theorem test_band : (State.reset.hall 9).band = 15 := by decide +kernel
/-- R404: there is no port 12. -/
theorem test_no_port : exec (.portDown 12) State.reset = .fault (.noSuchPort 12) := rfl
/-- R15, R21: a NOP that is placed where the next step fetches leaves its strand at the next syllable. -/
theorem test_step_runs_nop :
    (match step (State.reset.withFetchWord 64 0x0000A60000000000) with | .next t => some ((t.hall 0).work.S.pc - placedPc) | _ => none) = some 8 := by
  decide +kernel
/-- R49: an all-ones syllable that is fetched traps with ILLEGAL. -/
theorem test_step_traps :
    (match step (State.reset.withFetchWord 64 0xFFFFFFFFFFFFFFFF) with | .next t => (t.hall 0).trap.map (·.info.cause) | _ => none) = some .ILLEGAL := by
  decide +kernel

end Sys2Proof.Test

/-! For each statement with hypotheses, a concrete state and operands that meet them together. -/

namespace Sys2Proof.Test
open Sys2Proof.Machine Sys2Proof.Spec

theorem rd {s : State} {l : List Src} (h : s.me.stallShort l = false) : Readable s l := h
theorem un {s : State} (h : s.here.trap = none ∧ s.here.back = none ∧ (match s.here.slice with | some sl => sl.ending | none => false) = false) : Unstopped s :=
  ⟨h.1, h.2.1, fun sl e => by have := h.2.2; rw [e] at this; exact this⟩
theorem pf {s : State} (h : s.me.portFree ≤ s.me.local_) : PortFree s := h
theorem sf {s : State} (h : s.me.slots.length < 16) : SlotFree s := h
theorem ac {s : State} {k : Want} {al : Nat} {a : Word} {n : Nat} {ps : List Nat} (h : a.toNat < 2 ^ 52 ∧ a.toNat % al = 0)
    (hb : resolveAll (s.resolveCached s.mine k) (runFrom a.toNat n) = .ok ps) : Accessible s k al a n ps := ⟨h.1, h.2, hb⟩

/-- The places of n bytes from the second line of Hall 0's gallery. -/
def places (n : Nat) : List Nat := runFrom (galleryBase 0 + 64) n
/-- Register s1 holds an address of the own gallery, s2 a value. -/
def ready1 : State := withRegs [(1, own), (2, 0x1122334455667788)] sup
/-- The divider and the memory port are busy. -/
def held : State := ready1.onMe fun x => { x with divFree := 5, portFree := 5, vecFree := 5 }

-- IntegerInstructions
theorem witness_integer_results : ∃ r, intRow ready1.me (.div 3 1 2) = some r ∧ Readable ready1 r.reads ∧ (r.divider = true → ready1.me.divFree ≤ ready1.me.local_) :=
  ⟨_, rfl, rd (by decide +kernel), fun _ => by decide +kernel⟩
theorem witness_integer_holds : ∃ r, intRow held.me (.div 3 1 2) = some r ∧ r.divider = true ∧ held.me.local_ < held.me.divFree := ⟨_, rfl, rfl, by decide +kernel⟩
theorem witness_integer_stalls : ∃ r, intRow (busy sup).me (.add 3 1 2) = some r ∧ (r.divider = true → (busy sup).me.divFree ≤ (busy sup).me.local_) ∧
    (busy sup).me.stallShort r.reads = true ∧ Unstopped (busy sup) := ⟨_, rfl, fun h => (by cases h), by decide +kernel, un (by decide +kernel)⟩
-- Divisions
theorem witness_division : Readable ready1 [.s 1, .s 2] ∧ ready1.me.divFree ≤ ready1.me.local_ ∧ ready1.me.reg 2 ≠ 0 ∧ ready1.me.reg 3 = 0 :=
  ⟨rd (by decide +kernel), by decide +kernel⟩
theorem witness_division_corner :
    let s := withRegs [(1, 0x8000000000000000), (2, 0xFFFFFFFFFFFFFFFF)] sup
    Readable s [.s 1, .s 2] ∧ s.me.divFree ≤ s.me.local_ ∧ s.me.reg 1 = 0x8000000000000000 ∧ s.me.reg 2 = 0xFFFFFFFFFFFFFFFF :=
  ⟨rd (by decide +kernel), by decide +kernel⟩
-- PredicateResults
theorem witness_predicates : Readable ready1 [.s 1, .s 2] ∧ Readable ready1 [.s 1] ∧ Readable ready1 [.p 1, .p 2] ∧ Readable ready1 ((List.range 8).map .p) :=
  ⟨rd (by decide +kernel), rd (by decide +kernel), rd (by decide +kernel), rd (by decide +kernel)⟩
-- FloatResults
theorem witness_float : ∃ r, floatRow ready1.me (.fdiv 3 1 2) = some r ∧ Readable ready1 r.reads ∧ (r.divider = true → ready1.me.divFree ≤ ready1.me.local_) :=
  ⟨_, rfl, rd (by decide +kernel), fun _ => by decide +kernel⟩
-- ConversionResults
theorem witness_conversion :
    let s := withRegs [(1, 0x7F800000), (2, 0x7FC00000)] sup
    CTy.fmt .F32 = some fp32 ∧ CTy.fmt .BF16 = some bf16 ∧ CTy.fmt .I32 = none ∧ Readable s [.s 1] ∧ fp32.unpack ((s.me.reg 1).toNat % 2 ^ CTy.bits .F32) = .inf false ∧
      (fp32.unpack ((s.me.reg 2).toNat % 2 ^ CTy.bits .F32)).isNan = true := ⟨rfl, rfl, rfl, rd (by decide +kernel), by decide +kernel⟩
-- RoundingAndNans
theorem witness_nans : isFormat fp32 ∧ (fp32.unpack 0x7FC00000).isNan = true ∧ (fp32.unpack 0x3F800000).isNan = false := ⟨.inl rfl, by decide⟩
-- PrepareToBranch
theorem witness_prepare :
    let s := withRegs [(1, own), (2, 4), (3, 0x0010000000000000)] sup
    Readable s [.s 1] ∧ Readable s [] ∧ Unstopped s ∧ (BitVec.ofInt 64 ((s.me.reg 1).toInt + (0#28).toInt)).toNat % 8 = 0 ∧
      (BitVec.ofInt 64 ((s.me.reg 1).toInt + (0#28).toInt)).toNat < 2 ^ 52 ∧ (BitVec.ofInt 64 ((s.me.reg 2).toInt + (0#28).toInt)).toNat % 8 ≠ 0 ∧
      (BitVec.ofInt 64 ((s.me.reg 3).toInt + (0#28).toInt)).toNat % 8 = 0 ∧ 2 ^ 52 ≤ (BitVec.ofInt 64 ((s.me.reg 3).toInt + (0#28).toInt)).toNat :=
  ⟨rd (by decide +kernel), rd (by decide +kernel), un (by decide +kernel), by decide +kernel⟩
-- Transfers
/-- Branch target b1 is prepared and ready; b2 is prepared and not yet ready. -/
def aimed : State := ready1.onMe fun x => (x.setBtgt 1 { addr := own, prepared := true, ready := 0 }).setBtgt 2 { addr := own, prepared := true, ready := 9 }
theorem witness_transfers : BranchReady aimed 1 [] ∧ BranchReady aimed 1 [.s 1] ∧ Readable aimed [.s 1] ∧ (aimed.me.reg 1).toNat % 8 = 0 ∧
    (aimed.me.reg 1).toNat < 2 ^ 52 :=
  ⟨⟨rd (by decide +kernel), by decide +kernel, by decide +kernel⟩, ⟨rd (by decide +kernel), by decide +kernel, by decide +kernel⟩, rd (by decide +kernel), by decide +kernel⟩
theorem witness_transfers_trap : Readable aimed (.b 3 :: []) ∧ (aimed.me.btgt 3).prepared = false ∧ Unstopped aimed ∧ Readable aimed (.b 2 :: []) ∧
    (aimed.me.btgt 2).prepared = true ∧ aimed.here.cycle < (aimed.me.btgt 2).ready :=
  ⟨rd (by decide +kernel), by decide +kernel, un (by decide +kernel), rd (by decide +kernel), by decide +kernel⟩
-- EventsOfAHall
/-- Event 1 has one count in the sample, event 2 is full. -/
def eventful : State := on0 (fun H => { H with sampledEv := (H.sampledEv.set 1 1).set 2 255 }) (withRegs [(1, 3)] sup)
theorem witness_events : (1#6).toNat < 32 ∧ eventful.here.evSample 1 + eventful.here.evPosts 1 + 1 ≤ 255 ∧ eventful.here.evTakes 1 < eventful.here.evSample 1 ∧
    Readable eventful [.s 1] ∧ (eventful.me.reg 1).toNat % 256 ≠ 0 ∧ eventful.here.evSample 1 + eventful.here.evPosts 1 + 3 ≤ 255 ∧ (eventful.me.reg 3).toNat % 256 = 0 :=
  ⟨by decide, by decide +kernel, by decide +kernel, rd (by decide +kernel), by decide +kernel⟩
theorem witness_events_wait : 255 < eventful.here.evSample 2 + eventful.here.evPosts 2 + 1 ∧ ¬(eventful.here.evTakes 3 < eventful.here.evSample 3) ∧
    255 < eventful.here.evSample 2 + eventful.here.evPosts 2 + 3 := by decide +kernel
-- ScalarLoads
theorem witness_load : loadRow (.ldW 7 1 0 40) = some (.W, true, 7, 1, 0, 40) ∧ Readable ready1 [.s 1] ∧ PortFree ready1 ∧ SlotFree ready1 ∧
    Accessible ready1 (wantLoad .W) (widthBytes .W) (memAddr ready1 1 0) (widthBytes .W) (places 4) :=
  ⟨rfl, rd (by decide +kernel), pf (by decide +kernel), sf (by decide +kernel), ac (by decide +kernel) (by decide +kernel)⟩
theorem witness_load_extension : 0 < ([1, 2] : Bytes).length ∧ ([1, 2] : Bytes).length ≤ 8 ∧ 63 < 64 := by decide
-- MemoryAccessesTrapAndWait
theorem witness_misaligned :
    let s := withRegs [(1, 3), (2, 0x0010000000000000)] sup
    Unstopped s ∧ PortFree s ∧ loadRow (.ldW 7 1 0 40) = some (.W, true, 7, 1, 0, 40) ∧ Readable s [.s 1] ∧ (memAddr s 1 0).toNat < 2 ^ 52 ∧
      (memAddr s 1 0).toNat % widthBytes .W ≠ 0 ∧ 2 ^ 52 ≤ (memAddr s 2 0).toNat ∧ storeRow (.stW 7 1 0) = some (.W, 7, 1, 0) ∧ Readable s [.s 1, .s 7] :=
  ⟨un (by decide +kernel), pf (by decide +kernel), rfl, rd (by decide +kernel), by decide +kernel, by decide +kernel, by decide +kernel, rfl, rd (by decide +kernel)⟩
/-- A slot that is claimed. -/
def aSlot : Slot := { seq := 0, due := 4, req := .load 3 8 false, dests := [.s 3], addr := own, paddrs := places 8, pc := placedPc, word := 0, bound := 0,
                      arriveAt := some 0, data := none, fault := none, depth := 0, replayed := false }
theorem witness_memory_waits :
    let full := ready1.onMe fun x => { x with slots := List.replicate 16 { aSlot with dests := [] } }
    Readable held [.s 1] ∧ held.me.local_ < held.me.portFree ∧ Readable held [.s 1, .s 7] ∧ Readable full [.s 1] ∧ PortFree full ∧ 16 ≤ full.me.slots.length ∧
      Accessible full (wantLoad .W) (widthBytes .W) (memAddr full 1 0) (widthBytes .W) (places 4) :=
  ⟨rd (by decide +kernel), by decide +kernel, rd (by decide +kernel), rd (by decide +kernel), pf (by decide +kernel), by decide +kernel,
    ac (by decide +kernel) (by decide +kernel)⟩
-- StoresEnterTheOverlay
theorem witness_store : storeRow (.stD 2 1 0) = some (.D, 2, 1, 0) ∧ Readable ready1 [.s 1, .s 2] ∧ PortFree ready1 ∧
    Accessible ready1 (wantStore .D) (widthBytes .D) (memAddr ready1 1 0) (widthBytes .D) (places 8) ∧
    ready1.regionFull ((places 8).zip (leBytes 8 (ready1.me.reg 2).toNat)) = false :=
  ⟨rfl, rd (by decide +kernel), pf (by decide +kernel), ac (by decide +kernel) (by decide +kernel), by decide +kernel⟩
-- TileTransfers
/-- Tile t1 has one row of one FP32 element, tile t2 one row of one index. -/
def tiled : State := on0 (fun H => { H with work := { H.work with shapes := (H.work.shapes.set 1 2).set 2 2 } }) ready1
theorem witness_tile_load : PortFree tiled ∧ Readable tiled [.s 1] ∧ SlotFree tiled ∧
    Accessible tiled wantTileLoad 64 (memAddr tiled 1 0) (tileKeys 1 (tiled.here.work.shape 1)).length (places 4) ∧ Readable tiled [.s 1, .tile 1] ∧
    Accessible tiled wantTileStore 64 (memAddr tiled 1 0) (tileKeys 1 (tiled.here.work.shape 1)).length (places 4) ∧
    tiled.regionFull ((places 4).zip ((tileKeys 1 (tiled.here.work.shape 1)).map fun k => sget tiled.here.work.tiles k)) = false :=
  ⟨pf (by decide +kernel), rd (by decide +kernel), sf (by decide +kernel), ac (by decide +kernel) (by decide +kernel), rd (by decide +kernel),
    ac (by decide +kernel) (by decide +kernel), by decide +kernel⟩
theorem witness_gather :
    let W := tiled.here.work
    let as := (W.gatherElems 1 2).map (W.gatherAddr (tiled.me.reg 1) 1 2)
    Readable tiled [.s 1, .tile 2] ∧ Readable tiled [.s 1, .tile 1, .tile 2] ∧ tiled.eachBytes wantTileLoad (shapeWidth (W.shape 1) / 8) as = .ok [places 4] ∧
      tiled.eachBytes wantTileStore (shapeWidth (W.shape 1) / 8) as = .ok [places 4] ∧
      tiled.regionFull ([places 4].flatten.zip ((W.gatherElems 1 2).flatMap fun e => leBytes 4 (W.elem 1 32 e.1 e.2))) = false :=
  ⟨rd (by decide +kernel), rd (by decide +kernel), by decide +kernel, by decide +kernel, by decide +kernel⟩
-- StreamsCopyWaitsAndWeightSets
theorem witness_stream : Readable ready1 [.s 1] ∧ PortFree ready1 ∧ SlotFree ready1 ∧ Accessible ready1 (wantSystem 64) 8 (ready1.me.reg 1) 64 (places 64) ∧
    Readable ready1 [] ∧ (3#6).toNat < 8 ∧ (ready1.here.work.stream 3).bound = false ∧ Accessible ready1 (wantLoad .D) 8 (ready1.me.reg 1) 8 (places 8) :=
  ⟨rd (by decide +kernel), pf (by decide +kernel), sf (by decide +kernel), ac (by decide +kernel) (by decide +kernel), rd (by decide +kernel), by decide,
    by decide +kernel, ac (by decide +kernel) (by decide +kernel)⟩
theorem witness_stream_bound :
    let s := on0 (fun H => { H with work := { H.work with streams := H.work.streams.set 3 { H.work.streams[3] with bound := true } } }) sup
    (s.here.work.stream 3).bound = true ∧ Readable s [] := ⟨by decide +kernel, rd (by decide +kernel)⟩

end Sys2Proof.Test

namespace Sys2Proof.Test
open Sys2Proof.Machine Sys2Proof.Spec

-- AtomicsLeave
theorem witness_atomic : Readable ready1 (atomicReads none 3 1 2) ∧ PortFree ready1 ∧ SlotFree ready1 ∧
    Accessible ready1 (wantAtomic .D) (widthBytes .D) (ready1.me.reg 1) (widthBytes .D) (places 8) ∧
    ready1.logAnswer (ready1.me.reg 1) (atomicOp2 none (ready1.me.reg 2) (ready1.me.reg 3)) = .fresh :=
  ⟨rd (by decide +kernel), pf (by decide +kernel), sf (by decide +kernel), ac (by decide +kernel) (by decide +kernel), by decide +kernel⟩
/-- The syllable's publication has been made. -/
def published (s : State) : State := s.onMe fun x => { x with wait := { x.wait with pub := .done } }
theorem witness_atomic_release : let s := published ready1
    Readable s (atomicReads (some .ADD) 0 1 2) ∧ PortFree s ∧ (releases .REL → s.me.wait.pub = .done) ∧
    Accessible s (wantAtomic .W) (widthBytes .W) (s.me.reg 1) (widthBytes .W) (places 4) ∧
    s.logAnswer (s.me.reg 1) (atomicOp2 (some .ADD) (s.me.reg 2) (s.me.reg 0)) = .fresh :=
  ⟨rd (by decide +kernel), pf (by decide +kernel), fun _ => by decide +kernel, ac (by decide +kernel) (by decide +kernel), by decide +kernel⟩
-- AtomicOperations
theorem witness_atomic_values : 0 < 32 ∧ 5 < 2 ^ 32 ∧ 7 < 2 ^ 32 ∧ 9 < 2 ^ 32 := by decide
theorem witness_atomic_float : ∃ n m e, fp32.unpack 0x3F800000 = .num n m e := ⟨_, _, _, rfl⟩
/-- An atomic that is due. -/
def anAtomic (op : Option AmoOp) : Atomic :=
  { id := 3, h := 0, strand := .S, slice := 0, op := op, width := .W, paddrs := places 4, vaddr := own, operand := 5, comparand := 0, order := .RLX, scope := .device,
    slot := none, after := 0, performAt := 0, late := false, matchAt := none, bad := 0, depth := 0, word := 0, pc := placedPc, asid := 1, super := true, clock := [],
    tag := 0, fabric := false }
theorem witness_atomic_performed : let s := { sup with atomics := [anAtomic (some .ADD)] }
    s.atomics.find? (fun x => x.id == 3 && decide (x.performAt ≤ s.tick)) = some (anAtomic (some .ADD)) ∧ s.atomicWaits (anAtomic (some .ADD)) = false ∧ (anAtomic (some .ADD)).matchAt = none ∧
    (anAtomic (some .ADD)).fabric = false ∧ (anAtomic (some .ADD)).paddrs.Nodup ∧ Memory.wf s.mem = true ∧
    (s.senseRead (s.partOf (anAtomic (some .ADD)).asid) (anAtomic (some .ADD)).paddrs).1 = none := by decide +kernel
-- ContributionsPhasesAndMarkers
/-- A range translates 0x10000000 to multicast-reduce window 0 of partition 0, which is enabled for one contribution of 4 bytes; s1 points there. -/
def windowed : State :=
  withRegs [(1, 0x10000000), (2, 7)] ((on0 (fun H => { H with ranges :=
    [{ asid := 1, vbase := 0x10000000, vend := 0x10001000, pbase := 0xC0000000000, off := 0, r := true, w := true, x := false, wset := none }] }) sup).onPart 0 fun P =>
      { P with mrDescs := [(0, 0x100000000)] })
theorem witness_contribution : windowed.depth = 0 ∧ Readable windowed [.s 1, .s 2] ∧ PortFree windowed ∧
    Accessible windowed (wantStmr .W) (widthBytes .W) (windowed.me.reg 1) (widthBytes .W) (runFrom 0xC0000000000 4) ∧
    (∃ d, windowed.mrDesc 0 0 = some d ∧ mrWidth d.ty = widthBytes .W) :=
  ⟨by decide +kernel, rd (by decide +kernel), pf (by decide +kernel), ac (by decide +kernel) (by decide +kernel), _, rfl, by decide +kernel⟩
theorem witness_contribution_traps : let s := windowed.onPart 0 fun P => { P with mrDescs := [] }
    s.depth = 0 ∧ Readable s [.s 1, .s 2] ∧ PortFree s ∧ Accessible s (wantStmr .W) (widthBytes .W) (s.me.reg 1) (widthBytes .W) (runFrom 0xC0000000000 4) ∧
    s.mrDesc 0 0 = none ∧ Unstopped s :=
  ⟨by decide +kernel, rd (by decide +kernel), pf (by decide +kernel), ac (by decide +kernel) (by decide +kernel), by decide +kernel, un (by decide +kernel)⟩
/-- A recovery region is open. -/
def inRegion : State := after .rgnBegin ready1
theorem witness_phase_done : let s := published sup
    s.depth = 0 ∧ s.me.wait.pub = .done ∧ s.me.slots.all (fun x => x.data.isSome) = true := by decide +kernel
theorem witness_phase_begins : let s := after (.stW 2 1 0) ready1
    s.depth = 0 ∧ s.me.wait.pub = .idle ∧ s.hasWork s.curHall s.curStrand .device = true := by decide +kernel
theorem witness_phase_traps : inRegion.depth ≠ 0 ∧ Unstopped inRegion := ⟨by decide +kernel, un (by decide +kernel)⟩
theorem witness_join : sup.me.markers.any sup.here.joinWaits = false := by decide +kernel
/-- A copy command. -/
def aCopy : CopyCmd :=
  { id := 0, kind := .CP, resume := false, src := own, dst := own + 64, x := 64, cw := none, q := { scope := .device, ev := 0, we := false }, follow := none, word := 0,
    slice := 0, asid := 1, part := 0, super := true, issuer := some .S, issuePc := placedPc, depth := 0, matchAt := none, bad := 0, clock := [], floor := [] }
theorem witness_join_waits : let s := (on0 (fun H => { H with cq := [aCopy], cqNext := 1 }) sup).onMe fun x => { x with markers := [{ queue := .copy, last := 1 }] }
    s.me.markers.any s.here.joinWaits = true := by decide +kernel
-- GroupsAndBarriers
theorem witness_group_join : ∃ sl, sup.here.slice = some sl ∧ sup.depth = 0 ∧ Readable sup [.s 1] ∧ (sl.groups.find? fun m => m.gid == (sup.me.reg 1).toNat % 4096) = none ∧
    sl.groups.length < 16 ∧ SlotFree sup ∧ sup.group sup.asid 0 = none ∧ Unstopped sup :=
  ⟨_, rfl, by decide +kernel, rd (by decide +kernel), by decide +kernel, by decide +kernel, sf (by decide +kernel), by decide +kernel, un (by decide +kernel)⟩
/-- The slice has joined group 0. -/
def joined : State := after (.gjoin .device 2 1 4) sup
theorem witness_group_member : ∃ sl, joined.here.slice = some sl ∧ joined.depth = 0 ∧ Readable joined [.s 1] ∧
    (sl.groups.find? fun m => m.gid == (joined.me.reg 1).toNat % 4096) ≠ none ∧ Unstopped joined ∧
    (joined.groups.filter fun g => g.asid == joined.asid && g.gid == (joined.me.reg 1).toNat % 4096).length ≤ 1 ∧
    ∃ g, joined.group joined.asid 0 = some g ∧ (g.members.filter fun m => m.is (joined.selfIndex joined.asid) sl.id (joined.selfIndex joined.asid) joined.curHall).length ≤ 1 :=
  ⟨_, rfl, by decide +kernel, rd (by decide +kernel), by decide +kernel, un (by decide +kernel), by decide +kernel, _, rfl, by decide +kernel⟩
theorem witness_barrier_arrives : let s := published joined
    Readable s [.s 1] ∧ s.depth = 0 ∧ (∃ g m, s.asMember 0 = some (g, m) ∧ g.home = true ∧ m.arrived = false ∧ m.from_ ≤ g.phase ∧ g.expected ≤ g.arrivals + 1) ∧
      s.me.wait.pub = .done := ⟨rd (by decide +kernel), by decide +kernel, ⟨_, _, rfl, by decide +kernel⟩, by decide +kernel⟩
theorem witness_barrier_overrun : Readable sup [.s 1] ∧ sup.depth = 0 ∧ sup.asMember 0 = none ∧ Unstopped sup ∧ sup.me.wait.arrived = false :=
  ⟨rd (by decide +kernel), by decide +kernel, by decide +kernel, un (by decide +kernel), by decide +kernel⟩
/-- The slice, the only member, has arrived: the phase has completed. -/
def arrived : State := after (.barArrive 1) (published joined)
theorem witness_barrier_wait : Readable arrived [.s 1] ∧ (∃ g m ph, arrived.group arrived.asid 0 = some g ∧ arrived.membership 0 = some m ∧ m.last = some ph ∧ ph < g.phase) :=
  ⟨rd (by decide +kernel), _, _, 0, by rfl, by rfl, by decide +kernel, by decide +kernel⟩
theorem witness_barrier_waits : let s := { arrived with groups := arrived.groups.map fun g => { g with phase := 0 } }
    Readable s [.s 1] ∧ (∃ g m ph, s.group s.asid 0 = some g ∧ s.membership 0 = some m ∧ m.last = some ph ∧ g.phase ≤ ph) :=
  ⟨rd (by decide +kernel), _, _, 0, by rfl, by rfl, by decide +kernel, by decide +kernel⟩
/-- The group is kept at another module, and the slice is its member there. -/
def afar : State := { joined with groups := joined.groups.map fun g => { g with home := false, scope := .fabric } }
theorem witness_group_join_afar : let s := onSl (fun sl => { sl with groups := [] }) afar
    ∃ sl g, s.here.slice = some sl ∧ s.depth = 0 ∧ Readable s [.s 1] ∧ (sl.groups.find? fun m => m.gid == (s.me.reg 1).toNat % 4096) = none ∧ sl.groups.length < 16 ∧
      SlotFree s ∧ s.group s.asid 0 = some g ∧ g.home = false ∧ g.scope = .fabric :=
  ⟨_, _, rfl, by decide +kernel, rd (by decide +kernel), by decide +kernel, by decide +kernel, sf (by decide +kernel), rfl, rfl, rfl⟩
theorem witness_barrier_afar : let s := published afar
    ∃ g m, Readable s [.s 1] ∧ s.depth = 0 ∧ s.asMember 0 = some (g, m) ∧ g.home = false ∧ m.arrived = false ∧ s.me.wait.pub = .done :=
  ⟨_, _, rd (by decide +kernel), by decide +kernel, rfl, rfl, by decide +kernel, by decide +kernel⟩
theorem witness_barrier_none : Readable sup [.s 1] ∧ sup.group sup.asid 0 = none := ⟨rd (by decide +kernel), by decide +kernel⟩
theorem witness_barrier_sync : let s := arrived.onMe fun x => { x with wait := { x.wait with arrived := true } }
    s.depth = 0 ∧ s.me.wait.arrived = true := by decide +kernel

end Sys2Proof.Test

namespace Sys2Proof.Test
open Sys2Proof.Machine Sys2Proof.Spec

-- ReadingControlRegisters
theorem witness_csr_read : ∃ sl, sup.here.slice = some sl ∧ sl.super = true ∧ (0x060#12).toNat ≠ 0x003 ∧ Readable sup [] ∧
    csrRow sup sl 0x060 = some (BitVec.ofNat 64 (sup.tick / 5544)) := ⟨_, rfl, by decide +kernel, by decide, rd (by decide +kernel), rfl⟩
theorem witness_csr_read_user : ∃ sl, usr.here.slice = some sl ∧ sl.super = false ∧ csrPrivate (0x090#12).toNat ∧ ¬csrPrivate (0x060#12).toNat ∧ Unstopped usr ∧
    Readable usr [] := ⟨_, rfl, by decide +kernel, .inr (.inr rfl), by simp [csrPrivate], un (by decide +kernel), rd (by decide +kernel)⟩
/-- A trap record of Hall 1. -/
def aRecord : TrapRec := { cause := 1, pcs := Vector.replicate 4 placedPc, addr := 0, info := 0, ctx := 1, hall := 1 }
/-- The partition has a queued record. -/
def queued : State := sup.onPart 0 fun P => { P with trapq := [aRecord] }
theorem witness_csr_effect : ∃ sl, queued.here.slice = some sl ∧ sl.super = true ∧ sl.supervisor = true ∧ (queued.part sl.part).open_ = none ∧
    (queued.part sl.part).trapq = aRecord :: [] := ⟨_, rfl, by decide +kernel⟩
theorem witness_csr_flags : ∃ sl, sup.here.slice = some sl ∧ csrNumber (0x000#12).toNat ∧ ¬csrPrivate (0x000#12).toNat ∧ Readable sup [.flags] ∧
    ¬((0x000#12).toNat = 0x080 ∧ sl.supervisor = true ∧ (sup.part sl.part).open_ = none ∧ (sup.part sl.part).trapq ≠ []) :=
  ⟨_, rfl, .inl (by decide), by simp [csrPrivate], rd (by decide +kernel), fun h => absurd h.1 (by decide)⟩
theorem witness_csr_cause : ∃ sl, sup.here.slice = some sl ∧ sl.super = true ∧ csrNumber (0x080#12).toNat ∧ (sup.part sl.part).trapq = [] :=
  ⟨_, rfl, by decide +kernel, by simp [csrNumber], by decide +kernel⟩
-- WritingControlRegisters
theorem witness_csr_write : Readable ready1 [.s 1] ∧ ready1.superMode = true ∧ (ready1.me.reg 1).extractLsb' 0 2 ≠ 3 := ⟨rd (by decide +kernel), by decide +kernel⟩
theorem witness_csr_write_user : let s := withRegs [(1, 3), (2, 0x100)] usr
    Readable s [.s 1] ∧ Readable s [.s 2] ∧ s.superMode = false ∧ csrOpen 0x010 ∧ ¬csrOpen 0x060 ∧ (s.me.reg 1).extractLsb' 0 2 = 3 ∧ Unstopped s ∧
      (s.me.reg 1).extractLsb' 8 2 = (s.csrValue 0x002).extractLsb' 8 2 ∧ (s.me.reg 2).extractLsb' 8 2 ≠ (s.csrValue 0x002).extractLsb' 8 2 :=
  ⟨rd (by decide +kernel), rd (by decide +kernel), by decide +kernel, by simp [csrOpen], by simp [csrOpen], by decide +kernel, un (by decide +kernel), by decide +kernel⟩
theorem witness_csr_commit : ∃ sl, (sup.hall 0).slice = some sl ∧ 31 < 32 ∧ (0xFF02#64).extractLsb' 0 2 ≠ 3 := ⟨_, rfl, by decide⟩
-- RaisingTrapsAndReturning
theorem witness_fence : ∃ sl, sup.here.slice = some sl ∧ sup.me.flagsPending = false ∧ sup.curStrand ≠ .M ∧ sup.me.nflags &&& sl.trapEnable = 0 ∧ sl.ntstat = 0 ∧
    ¬(sl.noteEn = true ∧ sl.notePend = true) ∧ Unstopped sup := ⟨_, rfl, by decide +kernel, by decide +kernel, by decide +kernel, by decide +kernel, by decide +kernel,
      un (by decide +kernel)⟩
theorem witness_fence_matrix : ∃ sl, { sup with curStrand := .M }.here.slice = some sl ∧ { sup with curStrand := .M }.me.flagsPending = false ∧
    { sup with curStrand := .M }.me.wait.stage = 0 ∧ { sup with curStrand := .M }.here.ahead .matrix sup.here.mqNext = false := ⟨_, rfl, by decide +kernel⟩
theorem witness_fence_traps : let s := onSl (fun sl => { sl with ntstat := 1 }) sup
    ∃ sl, s.here.slice = some sl ∧ s.me.flagsPending = false ∧ sl.ntstat ≠ 0 ∧ Unstopped s := ⟨_, rfl, by decide +kernel, by decide +kernel, un (by decide +kernel)⟩
theorem witness_fence_notice : let s := onSl (fun sl => { sl with noteEn := true, notePend := true }) sup
    ∃ sl, s.here.slice = some sl ∧ s.me.flagsPending = false ∧ s.me.nflags &&& sl.trapEnable = 0 ∧ sl.ntstat = 0 ∧ sl.noteEn = true ∧ sl.notePend = true ∧ Unstopped s :=
  ⟨_, rfl, by decide +kernel, by decide +kernel, by decide +kernel, by decide +kernel, by decide +kernel, un (by decide +kernel)⟩
theorem witness_eret_stops : Unstopped usr ∧ usr.superMode = false ∧ Unstopped sup ∧ sup.superMode = true ∧ (sup.part sup.partId).open_ = none :=
  ⟨un (by decide +kernel), by decide +kernel, un (by decide +kernel), by decide +kernel⟩
/-- The record of a slice on Hall 1 is open. -/
def opened (act : BitVec 3) : State := (sup.onHall 1 fun H => { H with slice := sup.here.slice }).onPart 0 fun P => { P with open_ := some aRecord, trapAct := act }
theorem witness_eret : ∃ x, Unstopped (opened 0) ∧ (opened 0).superMode = true ∧ (opened 0).isSupervisor = true ∧ ((opened 0).part (opened 0).partId).open_ = some aRecord ∧
    ((opened 0).hall aRecord.hall).slice = some x ∧ aRecord.hall ≠ (opened 0).curHall ∧ ((opened 0).part (opened 0).partId).trapAct.extractLsb' 1 2 = 0 ∧
    aRecord.cause.extractLsb' 0 8 ≠ 0x11#8 ∧ ((opened 0).hall aRecord.hall).trap = none :=
  ⟨_, un (by decide +kernel), by decide +kernel, by decide +kernel, by decide +kernel, rfl, by decide +kernel⟩
theorem witness_eret_ends : ∃ x, Unstopped (opened 2) ∧ (opened 2).superMode = true ∧ (opened 2).isSupervisor = true ∧ ((opened 2).part (opened 2).partId).open_ = some aRecord ∧
    ((opened 2).hall aRecord.hall).slice = some x ∧ ((opened 2).hall aRecord.hall).performing x.id = false ∧ aRecord.hall ≠ (opened 2).curHall ∧
    ((opened 2).part (opened 2).partId).trapAct.extractLsb' 1 2 = 1 :=
  ⟨_, un (by decide +kernel), by decide +kernel, by decide +kernel, by decide +kernel, rfl, by decide +kernel⟩
theorem witness_eret_kill : ∃ x, Unstopped (opened 2) ∧ (opened 2).superMode = true ∧ (opened 2).isSupervisor = true ∧ ((opened 2).part (opened 2).partId).open_ = some aRecord ∧
    ((opened 2).hall aRecord.hall).slice = some x ∧ ((opened 2).hall aRecord.hall).performing x.id = false ∧ aRecord.hall ≠ (opened 2).curHall ∧
    ((opened 2).part (opened 2).partId).trapAct.extractLsb' 1 2 = 1 ∧
    ((((opened 2).closeRecord (opened 2).partId).issue).kills aRecord.hall).isSome = true :=
  ⟨_, un (by decide +kernel), by decide +kernel, by decide +kernel, by decide +kernel, rfl, by decide +kernel⟩
theorem witness_eret_drops : ∃ x, (opened 4).superMode = true ∧ (opened 4).isSupervisor = true ∧ ((opened 4).part (opened 4).partId).open_ = some aRecord ∧
    ((opened 4).hall aRecord.hall).slice = some x ∧ ((opened 4).hall aRecord.hall).performing x.id = false ∧ aRecord.hall ≠ (opened 4).curHall ∧ 2 ≤ (((opened 4).part (opened 4).partId).trapAct.extractLsb' 1 2).toNat :=
  ⟨_, by decide +kernel, by decide +kernel, by decide +kernel, rfl, by decide +kernel⟩
-- EndsAndCheckpoints
theorem witness_end : ∃ sl, sup.here.slice = some sl ∧ sup.depth = 0 ∧ sup.me.wait.stage = 0 := ⟨_, rfl, by decide +kernel⟩
theorem witness_end_region : ∃ sl, inRegion.here.slice = some sl ∧ inRegion.depth ≠ 0 ∧ Unstopped inRegion ∧ Readable inRegion [.s 1, .s 2] :=
  ⟨_, rfl, by decide +kernel, un (by decide +kernel), rd (by decide +kernel)⟩
/-- The syllable SLICE.END of strand S has ended its group, and every strand has published. -/
def ended : State := on0 (fun H => { H with work := { H.work with
  S := { H.work.S with wait := { Wait.none with pub := .done, stage := 3 } }, L := { H.work.L with wait := { Wait.none with pub := .done } },
  M := { H.work.M with wait := { Wait.none with pub := .done } }, V := { H.work.V with wait := { Wait.none with pub := .done } } } }) sup
theorem witness_end_leaves : ∃ sl, ended.here.slice = some sl ∧ ended.depth = 0 ∧ ended.me.wait.stage = 3 ∧ (∀ st, (ended.here.work.strand st).wait.pub = .done) ∧
    sl.countsTo = none := ⟨_, rfl, by decide +kernel, by decide +kernel, fun st => by cases st <;> decide +kernel, by decide +kernel⟩
theorem witness_checkpoint : ∃ sl, (published sup).here.slice = some sl ∧ Readable (published sup) [.s 1, .s 2] ∧ (published sup).depth = 0 ∧ (published sup).me.reg 1 = 0 ∧
    (published sup).me.wait.pub = .done ∧ (published sup).here.preempt = none := ⟨_, rfl, rd (by decide +kernel), by decide +kernel⟩
-- SharingWork
/-- An instance of one slice. -/
def anInst (id : Nat) (pred : Option Nat) (succ : Word) (ended : Bool) : Inst :=
  { id := id, live := 1, asid := 1, part := 0, succ := succ, released := false, wants := false, pred := pred, ended := ended, start := [], stamp := [] }
/-- The slice belongs to instance 1, which has a successor and a predecessor. -/
def chained (done : Bool) : State := { onSl (fun sl => { sl with inst := 1 }) sup with insts := [anInst 1 (some 0) own false, anInst 0 none 0 done] }
theorem witness_yield : ∃ sl, (published sup).here.slice = some sl ∧ (published sup).depth = 0 ∧ (published sup).me.wait.pub = .done ∧ Readable (published sup) [.s 1] ∧
    SlotFree (published sup) := ⟨_, rfl, by decide +kernel, by decide +kernel, rd (by decide +kernel), sf (by decide +kernel)⟩
theorem witness_successor : ∃ sl i p, (chained true).here.slice = some sl ∧ (chained true).inst sl.inst = some i ∧ i.released = false ∧ i.succ ≠ 0 ∧
    i.pred.bind (chained true).inst = some p ∧ p.ended = true ∧ p.succ = 0 ∧ (chained true).me.slots.all (fun x => x.data.isSome) = true :=
  ⟨_, _, _, rfl, rfl, by decide +kernel, by decide +kernel, rfl, by decide +kernel⟩
theorem witness_predecessor : ∃ sl i p, (chained false).here.slice = some sl ∧ (chained false).inst sl.inst = some i ∧
    i.pred.bind (chained false).inst = some p ∧ p.ended = false := ⟨_, _, _, rfl, rfl, rfl, by decide +kernel⟩
theorem witness_no_predecessor : let s := { sup with insts := [anInst 0 none 0 false] }
    ∃ sl, s.here.slice = some sl ∧ (s.inst sl.inst).bind (fun i => i.pred.bind s.inst) = none ∧ s.me.slots.all (fun x => x.data.isSome) = true := ⟨_, rfl, by decide +kernel⟩
theorem witness_checkpoint_leaves : let s := on0 (fun H => { H with preempt := some { policy := .checkpoint, asked := false, left := 0, lastTick := 0 } }) (published sup)
    ∃ sl e, s.here.slice = some sl ∧ Readable s [.s 1, .s 2] ∧ s.depth = 0 ∧ s.me.wait.pub = .done ∧ s.me.reg 1 = 0 ∧ s.here.preempt = some e ∧ e.policy = .checkpoint ∧
      e.asked = false := ⟨_, _, rfl, rd (by decide +kernel), by decide +kernel, by decide +kernel, by decide +kernel, rfl, rfl, rfl⟩
theorem witness_no_successor : let s := { sup with insts := [anInst 0 none 0 false] }
    ∃ sl i, s.here.slice = some sl ∧ s.inst sl.inst = some i ∧ i.succ = 0 := ⟨_, _, rfl, rfl, by decide +kernel⟩
theorem witness_range : let s := onSl (fun sl => { sl with lo := 3, hi := 3 }) sup
    ∃ sl, (s.hall 0).slice = some sl ∧ sl.lo.toNat ≤ sl.hi.toNat := ⟨_, rfl, by decide +kernel⟩

end Sys2Proof.Test

namespace Sys2Proof.Test
open Sys2Proof.Machine Sys2Proof.Spec

/-- Bytes are put into Hall 0's gallery at an offset. -/
def laid (o : Nat) (bs : Bytes) (s : State) : State := { s with mem := Memory.write s.mem (cellsAt (galleryBase 0 + o) bs) }
/-- Places of n bytes at an offset of Hall 0's gallery. -/
def placesAt (o n : Nat) : List Nat := runFrom (galleryBase 0 + o) n
theorem got {α β : Type} {p : α × β} {a : α} (h : p.1 = a) : p = (a, p.2) := Prod.ext h rfl
-- LaunchesAndEnqueues
/-- The words of a packet of context 1, whose descriptor is the line after it. -/
def aPacket : Bytes := leBytes 8 0x001FFF0000000080 ++ leBytes 8 (2 ^ 40) ++ leBytes 48 0
/-- A packet, its descriptor (all zero) and a mask of Hall 0, with the publication made and the block checked. -/
def launching : State := (laid 64 aPacket (laid 192 [1] (withRegs [(1, own), (2, own + 128), (3, 0x200)] sup))).onMe fun x =>
  { x with wait := { x.wait with pub := .done, stage := 64 } }
theorem witness_launch : let s := launching
    ∃ raw r1 m r succ r2, Readable s [.s 1, .s 2] ∧ s.me.wait.pub = .done ∧ Accessible s (wantSystem 64) 64 (s.me.reg 1) 64 (placesAt 64 64) ∧
      Accessible s (wantSystem 32) 32 (s.me.reg 2) 32 (placesAt 192 32) ∧ s.logAnswer (s.me.reg 2) (s.me.reg 1) = .fresh ∧
      s.frozenRead (placesAt 64 64) = (.ok raw, r1) ∧ r1.frozenRead (placesAt 192 32) = (.ok m, r) ∧ r.me.wait.stage = 64 ∧ r.superMode = true ∧
      r.launchChecks r.curHall r.partId raw (maskOf m) = (.ok succ, r2) ∧ r2.me.wait.stage = 64 ∧
      (∃ r3, r2.launchCopies r2.partId raw succ (maskHalls (maskOf m)) none r2.known = .ok r3) :=
  ⟨aPacket, _, [1] ++ leBytes 31 0, _, 0, _, rd (by decide +kernel), by decide +kernel, ac (by decide +kernel) (by decide +kernel),
    ac (by decide +kernel) (by decide +kernel), by decide +kernel, got (by decide +kernel), got (by decide +kernel), by decide +kernel,
    by decide +kernel, got (by decide +kernel), by decide +kernel, _, by rfl⟩
theorem witness_enqueue_launch : let s := launching
    ∃ raw r, Readable s [.s 3, .s 1] ∧ s.me.reg 3 = 0x200 + (0#8).setWidth 64 ∧ (s.part s.partId).halls.getLsbD 0 = true ∧
      Accessible s (wantSystem 64) 64 (s.me.reg 1) 64 (placesAt 64 64) ∧ s.logAnswer (s.me.reg 3) (s.me.reg 1) = .fresh ∧
      s.frozenRead (placesAt 64 64) = (.ok raw, r) :=
  ⟨aPacket, _, rd (by decide +kernel), by decide +kernel, by decide +kernel, ac (by decide +kernel) (by decide +kernel), by decide +kernel,
    got (by decide +kernel)⟩
theorem witness_launch_privilege : let s := onSl (fun sl => { sl with super := false, asid := 2 }) launching
    ∃ r, s.frozenRead [] = (.ok [], r) ∧ r.superMode = false ∧ (Packet.ofBytes aPacket).asid ≠ r.asid ∧ r.here.trap = none :=
  ⟨_, got (by decide +kernel), by decide +kernel⟩
theorem witness_enqueue_stops : let s := withRegs [(1, 0x400), (2, 1), (3, own)] sup
    Readable s [.s 1, .s 3] ∧ 2 ^ 10 ≤ (s.me.reg 1).toNat ∧ Unstopped s ∧ (s.me.reg 2).toNat < 2 ^ 10 ∧ (s.me.reg 2).extractLsb' 8 2 ≠ 3 ∧
      Accessible s (wantSystem 64) 64 (s.me.reg 3) 64 (placesAt 64 64) ∧ (s.part s.partId).halls.getLsbD ((s.me.reg 2).setWidth 8).toNat = false :=
  ⟨rd (by decide +kernel), by decide +kernel, un (by decide +kernel), by decide +kernel, by decide +kernel, ac (by decide +kernel) (by decide +kernel),
    by decide +kernel⟩
/-- A block whose first word is CP.FILL. -/
def aFill : Bytes := leBytes 8 ((encode Ctl.plain (.cpFill 0 0 0 0 { scope := .device, ev := 0, we := false })).getD 0).toNat ++ leBytes 56 0
theorem witness_enqueue_copy : let s := (laid 64 aFill (withRegs [(3, own)] sup)).onMe fun x => { x with wait := { x.wait with pub := .done, stage := 64 } }
    ∃ r c, (s.me.reg 0).toNat < 2 ^ 10 ∧ (s.me.reg 0).extractLsb' 8 2 = 0 ∧ (s.part s.partId).halls.getLsbD ((s.me.reg 0).setWidth 8).toNat = true ∧
      s.logAnswer (s.me.reg 0) (s.me.reg 3) = .fresh ∧ s.frozenRead (placesAt 64 64) = (.ok aFill, r) ∧ r.me.wait.stage = 64 ∧
      blockSyl aFill = some (.cpFill 0 0 0 0 c) ∧ wordAt aFill 8 = 0 ∧ (wordAt aFill 24).toNat % 64 = 0 ∧ (wordAt aFill 32).toNat % 64 = 0 ∧
      fieldAt aFill 40 16 = 0 ∧ fieldAt aFill 56 8 = 0 ∧ (r.hall 0).cq.length + (r.hall 0).copy.isSome.toNat < 32 :=
  ⟨_, { scope := .device, ev := 0, we := false }, by decide +kernel, by decide +kernel, by decide +kernel, by decide +kernel, got (by decide +kernel),
    by decide +kernel⟩
-- FreezingContexts
/-- Context 2 is a user context of the partition. -/
def guests : State := (withRegs [(1, 2), (2, 0x1000), (3, own)] sup).onPart 0 fun P => { P with ctxRecs := sset P.ctxRecs 16 1#64, ctxUsed := sset P.ctxUsed 16 1#64, asids := 6 }
theorem witness_freeze : let s := guests
    s.superMode = true ∧ s.depth = 0 ∧ Readable s [.s 3, .s 1, .s 2] ∧ Accessible s (wantSystemWrite 8) 8 (s.me.reg 3) 8 (placesAt 64 8) ∧
      (s.me.reg 2).toNat % 4096 = 0 ∧ s.ctxValid s.partId ((s.me.reg 1).setWidth 12) = true ∧ s.superAsid s.partId = some 1 ∧
      (s.ctx ((s.me.reg 1).setWidth 12)).frozen = false ∧ (s.ctx ((s.me.reg 1).setWidth 12)).freezing = none :=
  ⟨by decide +kernel, by decide +kernel, rd (by decide +kernel), ac (by decide +kernel) (by decide +kernel), by decide +kernel⟩
theorem witness_freeze_user : usr.superMode = false ∧ Unstopped usr := ⟨by decide +kernel, un (by decide +kernel)⟩
theorem witness_track : guests.superMode = true ∧ Readable guests [.s 1, .s 2] ∧ (guests.part guests.partId).asids.getLsbD ((guests.me.reg 1).setWidth 12).toNat = true ∧
    (guests.me.reg 2).toNat % 4096 = 0 := ⟨by decide +kernel, rd (by decide +kernel), by decide +kernel⟩
theorem witness_thaw_unmapped : Readable guests [.s 0, .s 2, .s 1] ∧
    (∃ e, resolveAll (guests.resolveDirect guests.mine guests.here.binds (wantSystem 256)) (runFrom (guests.me.reg 2).toNat 256) = .error e) :=
  ⟨rd (by decide +kernel), _, by rfl⟩
/-- R325, R332: the header of an image of no sections: its magic, version, geometry and length, the SHAKE256 of no bytes, and the tag under a key of zeros with an IV of zeros
(both worked out outside the model). -/
def aHeader : Bytes :=
  [0x4E, 0x45, 0x4C, 0x49, 0x4D, 0x41, 0x47, 0x45] ++ leBytes 8 1 ++ leBytes 8 0x00010003 ++ leBytes 8 256 ++ leBytes 32 0 ++
    leBytes 64 0xbec4b7b3ac2e294086b49a47491c82fcf692b5679d0105cb00f2c0d8ddc45dd72f76d56e64270cb5821bb862ea52cd3f24eb3e74eb3f3b23138da80b2bddb946 ++
    leBytes 16 0 ++ leBytes 16 0x309c33f5c7cd8351ddd7dc5f8727ad47 ++ leBytes 96 0
/-- The image stands in the gallery, and the module holds its key. -/
def imaged : State := { laid 64 aHeader guests with imageKeys := [(leBytes 32 0, leBytes 32 0)] }
theorem witness_thaw :
    ∃ r1 r2, imaged.deviceRead imaged.mine imaged.here.binds (imaged.me.reg 3) 256 = (.ok aHeader, r1) ∧ fieldAt aHeader 24 8 = 256 ∧
      r1.reaches imaged.mine false (imaged.me.reg 3).toNat 256 = true ∧
      r1.deviceRead imaged.mine r1.here.binds (imaged.me.reg 3 + 256) (256 - 256) = (.ok [], r2) ∧
      r2.openImage aHeader [] imaged.mine.part ((imaged.me.reg 1).setWidth 12) = .ok [] :=
  ⟨_, _, got (by decide +kernel), by decide +kernel, by decide +kernel, got (by decide +kernel), by decide +kernel⟩
theorem witness_thaw_word : guests.superMode = true ∧ guests.depth = 0 ∧ Readable guests [.s 3, .s 1, .s 2] ∧
    Accessible guests (wantSystemWrite 8) 8 (guests.me.reg 3) 8 (placesAt 64 8) :=
  ⟨by decide +kernel, by decide +kernel, rd (by decide +kernel), ac (by decide +kernel) (by decide +kernel)⟩
/-- A range translates 0x20000000 to the undercroft. -/
def croftRange : RangeEnt :=
  { asid := 1, vbase := 0x20000000, vend := 0x20100000, pbase := 0x10000000000, off := 0, r := true, w := true, x := false, wset := none }
/-- The range is cached. -/
def croft : State := withRegs [(1, 2), (2, 0x20000000)] (on0 (fun H => { H with ranges := [croftRange] }) guests)
theorem resolve_run (f : Nat → Resolved) (a g : Nat) : ∀ l : List Nat, (∀ i ∈ l, f (a + i) = .ok (g + i)) → resolveAll f (l.map (a + ·)) = .ok (l.map (g + ·))
  | [], _ => rfl
  | i :: l, h => by simp [resolveAll, h i (by simp), resolve_run f a g l fun j hj => h j (by simp [hj])]
theorem croft_space {p : Nat} (h1 : 0x10000000000 ≤ p) (h2 : p < 0x20000000000) : spaceOf p = .undercroft := by
  unfold spaceOf; rw [if_neg (by omega), if_neg (by omega), if_pos (by omega)]
/-- An address in a cached range of the undercroft that may be read and written resolves to its place. -/
theorem croft_resolves {s : State} {u : Who} {a p : Nat} (hr : (s.hall u.at_).ranges = [croftRange]) (hu : u.asid = 1) (h1 : 0x20000000 ≤ a) (h2 : a < 0x20100000)
    (hp : p = 0x10000000000 + (a - 0x20000000)) : s.resolveCached u (wantSystemWrite 64) a = .ok p := by
  have hs : spaceOf p = .undercroft := croft_space (by omega) (by omega)
  have hc : (s.hall u.at_).cached u.asid a =
      some { vbase := 0x20000000, vend := 0x20100000, pbase := 0x10000000000, off := 0, r := true, w := true, x := false, wset := none, page := false } := by
    unfold Hall.cached; rw [hr, hu]; simp [croftRange, h1, h2]
  unfold State.resolveCached State.resolveBound
  rw [if_neg (by omega), if_neg (by unfold ownBase; omega), hc]
  simp only [State.through, ← hp]
  simp [State.landsOn, State.foreign, State.lateForeign, Space.allows, wantSystemWrite, hs]
theorem croft_byte (i : Nat) (h : i < 0x100000) : croft.resolveCached croft.mine (wantSystemWrite 64) (0x20000000 + i) = .ok (0x10000000000 + i) :=
  croft_resolves (by decide +kernel) (by decide +kernel) (by omega) (by omega) (by omega)
theorem witness_harvest : croft.superMode = true ∧ Readable croft [.s 1, .s 2] ∧ (croft.part croft.partId).asids.getLsbD ((croft.me.reg 1).setWidth 12).toNat = true ∧
    Accessible croft (wantSystemWrite 64) 4096 (croft.me.reg 2) 360448 (runFrom 0x10000000000 360448) ∧
    croft.invalidAt (fun _ => false) (runFrom 0x10000000000 360448) = none := by
  have h2 : croft.me.reg 2 = 0x20000000 := by decide +kernel
  refine ⟨by decide +kernel, rd (by decide +kernel), by decide +kernel, ac (by rw [h2]; decide) ?_, ?_⟩
  · rw [h2]
    exact resolve_run _ _ _ _ fun i hi => croft_byte i (by have := List.mem_range.mp hi; omega)
  · unfold State.invalidAt
    rw [List.find?_eq_none]
    intro a ha
    obtain ⟨i, hi, rfl⟩ := List.mem_map.mp ha
    have := List.mem_range.mp hi
    have hs : spaceOf (0x10000000000 + i) = .undercroft := croft_space (by omega) (by omega)
    simp [rowGroupOf, hs]

end Sys2Proof.Test

namespace Sys2Proof.Test
open Sys2Proof.Machine Sys2Proof.Spec

/-- Queue control of tests. -/
def qc : QCtl := { scope := .device, ev := 0, we := false }
-- CopyCommands
/-- s1: source, s2: destination, s3: length, s4: a misaligned address. -/
def copying : State := withRegs [(1, own), (2, own + 64), (3, 128), (4, own + 8)] sup
theorem witness_copy : copyRow (.cp 0 1 2 3 qc) = some (.CP, false, 0, 1, 2, 3, qc) ∧ Readable copying (copying.copyReads .CP 0 1 2 3) ∧
    copyAligns .CP (copying.me.reg 1) (copying.me.reg 2) (copying.me.reg 3) ∧ WordReady copying 0 ∧ WordReady copying 4 ∧
    copying.here.sampledCq < 32 ∧ copying.here.copyLoad < 32 :=
  ⟨rfl, rd (by decide +kernel), ⟨by decide +kernel, by decide +kernel, by decide +kernel⟩, .inl rfl,
    .inr ⟨placesAt 72 8, ac (by decide +kernel) (by decide +kernel)⟩, by decide +kernel⟩
theorem witness_copy_follow : let s := withRegs [(5, ((encode Ctl.plain (.mwLoads .BF16 .N16 false 6)).getD 0))] copying
    copyRow (.cpMm 4 1 2 3 qc) = some (.MM, false, 4, 1, 2, 3, qc) ∧ Readable s (s.copyReads .MM 4 1 2 3) ∧ followOn (s.me.reg (4 + 1 : BitVec 6).toNat) ≠ none :=
  ⟨rfl, rd (by decide +kernel), by decide +kernel⟩
theorem witness_copy_full : let s := on0 (fun H => { H with cq := List.replicate 32 aCopy }) copying
    Readable s (s.copyReads .CP 0 1 2 3) ∧ copyAligns .CP (s.me.reg 1) (s.me.reg 2) (s.me.reg 3) ∧ WordReady s 0 ∧
      (32 ≤ s.here.sampledCq ∨ 32 ≤ s.here.copyLoad) :=
  ⟨rd (by decide +kernel), ⟨by decide +kernel, by decide +kernel, by decide +kernel⟩, .inl rfl, by decide +kernel⟩
theorem witness_copy_misaligned : Readable copying (copying.copyReads .CP 0 4 2 3) ∧ ¬copyAligns .CP (copying.me.reg 4) (copying.me.reg 2) (copying.me.reg 3) ∧
    Unstopped copying := ⟨rd (by decide +kernel), fun h => absurd h.1 (by decide +kernel), un (by decide +kernel)⟩
-- HazelCommandsEnterTheQueue
theorem witness_hazel : ∃ sl, copying.here.slice = some sl ∧
    hazelRow copying (.hzPool 0 1 qc) = some (.pool, [.s 0, .s 1], copying.me.reg 1, 0, 0, 0, qc) ∧ Readable copying [.s 0, .s 1] ∧ WordReady copying 0 ∧
    copying.logAnswer (copying.me.reg 1) 0 = .fresh ∧ copying.here.sampledHq < 16 ∧ copying.here.hazelLoad < 16 ∧ sl.hzUsed = false ∧ Unstopped copying :=
  ⟨_, rfl, rfl, rd (by decide +kernel), .inl rfl, by decide +kernel, by decide +kernel, by decide +kernel, by decide +kernel, un (by decide +kernel)⟩
/-- A Hazel command. -/
def aHazel (k : HzKind) : HzCmd :=
  { id := 0, kind := k, va := own, vb := 0, vx := 0, cw := none, q := qc, word := 0, slice := 0, asid := 1, part := 0, super := true, issuer := some .S, issuePc := placedPc,
    depth := 0, matchAt := none, bad := 0, clock := [], floor := [] }
theorem witness_hazel_full : let s := on0 (fun H => { H with hq := List.replicate 16 (aHazel .pool) }) copying
    Readable s [.s 0, .s 1] ∧ WordReady s 0 ∧ s.logAnswer (s.me.reg 1) 0 = .fresh ∧ (16 ≤ s.here.sampledHq ∨ 16 ≤ s.here.hazelLoad) :=
  ⟨rd (by decide +kernel), .inl rfl, by decide +kernel⟩
-- RegionsOpenAbortAndCommit
theorem witness_region_opens : ∃ sl, sup.here.slice = some sl ∧ sl.regions = [] ∧ Unstopped sup := ⟨_, rfl, by decide +kernel, un (by decide +kernel)⟩
theorem witness_region_open : ∃ sl r, inRegion.here.slice = some sl ∧ sl.regions ≠ [] ∧ r ∈ sl.regions ∧ r.fresh = true ∧ inRegion.here.back = none :=
  ⟨_, _, rfl, by decide +kernel, List.mem_cons_self, by decide +kernel⟩
/-- Eight regions are open. -/
def deep : State := onSl (fun sl => { sl with regions := List.flatten (List.replicate 8 sl.regions) }) inRegion
theorem witness_region_limit : ∃ sl, deep.here.slice = some sl ∧ 8 ≤ sl.regions.length ∧ Unstopped deep := ⟨_, rfl, by decide +kernel, un (by decide +kernel)⟩
theorem witness_region_commit : ∃ sl, inRegion.here.slice = some sl ∧ sl.regions ≠ [] ∧ inRegion.regionQuiet = true ∧
    inRegion.here.back = none ∧ (∀ e ∈ sl.log, ¬(e.replay = true ∧ e.depth = sl.regions.length)) :=
  ⟨_, rfl, by decide +kernel, by decide +kernel, by decide +kernel, by decide +kernel⟩
theorem witness_region_waits : let s := on0 (fun H => { H with cq := [{ aCopy with depth := 1, matchAt := some 9 }] }) inRegion
    ∃ sl, s.here.slice = some sl ∧ sl.regions ≠ [] ∧ s.regionQuiet = false := ⟨_, rfl, by decide +kernel⟩
-- RegionsKeepAndReport
/-- Operands of RGN.KEEP in a region: s1 a base, s2 a length, s3 a row, s4 a count of rows. -/
def keeping : State := withRegs [(1, own), (2, 64), (3, 510), (4, 2)] inRegion
theorem witness_keep : ∃ sl r, keeping.here.slice = some sl ∧ sl.regions = r :: [] ∧ Readable keeping [.s 1, .s 2] ∧ Readable keeping [.s 3, .s 4] ∧ Readable keeping [.s 4, .s 4] ∧
    (keeping.me.reg 3).toNat + (keeping.me.reg 4).toNat ≤ 512 ∧ 512 < (keeping.me.reg 3).toNat + (keeping.me.reg 2).toNat ∧ Unstopped keeping ∧
    (keeping.me.reg 1).toNat % 64 = 0 ∧ (keeping.me.reg 2).toNat % 64 = 0 ∧ keeping.me.reg 2 ≠ 0 ∧ ownBase ≤ (keeping.me.reg 1).toNat ∧
    (keeping.me.reg 1).toNat - ownBase + (keeping.me.reg 2).toNat ≤ 0x4000000 ∧ sl.poolUsed + (keeping.me.reg 2).toNat + 64 ≤ keeping.here.poolSize * 0x40000 ∧
    (keeping.me.reg 3).toNat % 64 ≠ 0 ∧ (keeping.me.reg 0).toNat % 64 = 0 ∧ keeping.me.reg 0 = 0 :=
  ⟨_, _, rfl, rfl, rd (by decide +kernel), rd (by decide +kernel), rd (by decide +kernel), by decide +kernel, by decide +kernel, un (by decide +kernel), by decide +kernel⟩
theorem witness_keep_no_room : let s := on0 (fun H => { H with poolSize := 0 }) keeping
    ∃ sl r, s.here.slice = some sl ∧ sl.regions = r :: [] ∧ ¬(sl.poolUsed + (s.me.reg 2).toNat + 64 ≤ s.here.poolSize * 0x40000) ∧ Unstopped s :=
  ⟨_, _, rfl, rfl, by decide +kernel, un (by decide +kernel)⟩
theorem witness_region_status : (∃ sl, inRegion.here.slice = some sl ∧ sl.regions.length ≤ 8) ∧ (∃ sl, deep.here.slice = some sl ∧ sl.regions.length ≤ 8) ∧
    Readable inRegion [] ∧ Readable deep [] := ⟨⟨_, rfl, by decide +kernel⟩, ⟨_, rfl, by decide +kernel⟩, rd (by decide +kernel), rd (by decide +kernel)⟩
-- LifetimesOfRowGroups
theorem witness_lifetimes : let s := withRegs [(1, placedPc), (2, 4096), (3, 8)] sup
    Readable s [.s 1, .s 2] ∧ s.me.wait.stage = 0 ∧ (s.me.reg 1).toNat % 4096 = 0 ∧ (s.me.reg 2).toNat % 4096 = 0 ∧ s.me.reg 2 ≠ 0 ∧
      s.lifeRange (s.me.reg 1) (s.me.reg 2) = .ok [(rowGroupOf (galleryBase 0)).getD 0] ∧ s.inPool (galleryTop + 4096 * (rowGroupOf (galleryBase 0)).getD 0) = false ∧
      (s.rowGroup ((rowGroupOf (galleryBase 0)).getD 0)).held = false ∧ s.me.reg 0 = 0 ∧ (s.me.reg 3).toNat % 4096 ≠ 0 ∧ Unstopped s :=
  ⟨rd (by decide +kernel), by decide +kernel, by decide +kernel, by decide +kernel, by decide +kernel, by decide +kernel, by decide +kernel, by decide +kernel, by decide +kernel, by decide +kernel,
    un (by decide +kernel)⟩
theorem witness_lifetime_read : Readable ready1 [.s 1] ∧ SlotFree ready1 ∧ Accessible ready1 (wantLoad .B) 1 (ready1.me.reg 1) 1 [galleryBase 0 + 64] ∧
    rowGroupOf (galleryBase 0 + 64) = some ((rowGroupOf (galleryBase 0)).getD 0) ∧ RowGroup.wiped.age < 2 ^ 15 :=
  ⟨rd (by decide +kernel), sf (by decide +kernel), ac (by decide +kernel) (by decide +kernel), by decide +kernel⟩
-- VectorSyllables and those like them
theorem witness_vector : ∃ r, vecRow tiled (.vadd .F32 1 1 1 0) = some r ∧ Readable tiled r.rd ∧ VecReady tiled r.chk :=
  ⟨_, rfl, rd (by decide +kernel), ⟨by decide +kernel, by decide +kernel⟩⟩
theorem witness_vector_waits : (∃ r, vecRow held (.vadd .F32 1 1 1 0) = some r ∧ held.me.local_ < held.me.vecFree) ∧
    ∃ r, vecRow tiled (.vadd .F16 1 1 1 0) = some r ∧ tiled.me.vecFree ≤ tiled.me.local_ ∧ Readable tiled r.rd ∧
      (∃ e ∈ r.chk, shapeWidth (tiled.here.work.shape e.1) ≠ e.2.width) ∧ Unstopped tiled :=
  ⟨⟨_, rfl, by decide +kernel⟩, _, rfl, by decide +kernel, rd (by decide +kernel), by decide +kernel, un (by decide +kernel)⟩
-- ShapesMasksAndElements, VectorComparesAndReductions
theorem witness_elements : Readable tiled [] ∧ Readable tiled [.tile 1, .mask 0] ∧ VecReady tiled [(1, .F32)] ∧ tiled.here.work.active 1 0 0 0 = true ∧
    tiled.here.work.active 1 0 5 0 = false ∧ Readable tiled [.mask 1, .mask 2] ∧ tiled.me.vecFree ≤ tiled.me.local_ ∧ Readable tiled [.tile 1, .tile 2, .mask 0] ∧
    VecReady tiled [(1, .F32), (2, .F32)] ∧ actives tiled.here.work 1 0 = [(0, 0)] :=
  ⟨rd (by decide +kernel), rd (by decide +kernel), ⟨by decide +kernel, by decide +kernel⟩, by decide +kernel, by decide +kernel, rd (by decide +kernel), by decide +kernel,
    rd (by decide +kernel), ⟨by decide +kernel, by decide +kernel⟩, by decide +kernel⟩
-- MatrixCommands
theorem witness_matrix : matRow copying (.maccSpill 0 0 1 0 false) = some ([.s 1], copying.me.reg 1) ∧ Readable copying [.s 1] ∧
    copying.matIllegal (.maccSpill 0 0 1 0 false) = false ∧ RowsOwn copying (.maccSpill 0 0 1 0 false) ∧
    (∃ n w, imageOf (.maccSpill 0 0 1 0 false) = some (n, w) ∧ ∃ ps, Accessible copying (imageWant w) 64 (copying.me.reg 1) n ps) ∧
    (copying.hall (copying.matTarget (.maccSpill 0 0 1 0 false))).sampledMq < 16 ∧ (copying.hall (copying.matTarget (.maccSpill 0 0 1 0 false))).mq.length < 16 :=
  ⟨rfl, rd (by decide +kernel), by decide +kernel, .inl (by decide +kernel), ⟨_, _, rfl, _, ac (by decide +kernel) rfl⟩, by decide +kernel⟩
theorem witness_matrix_zero : matRow usr (.maccZero 0 1) = some ([], 0) ∧ ImageReady usr (.maccZero 0 1) 0 [] ∧ RowsOwn usr (.maccZero 0 1) :=
  ⟨rfl, rfl, .inr fun r h => by cases h; decide +kernel⟩
/-- A matrix command. -/
def aMatrix (i : Instr) : MatCmd :=
  { id := 0, op := i, word := 0, value := 0, pages := [], fmt := .BF16, tid := 0, slice := 0, asid := 1, part := 0, super := true, depth := 0, poster := 0, started := none,
    endsAt := 0, fed := 0, lastFed := 0, rows := [], flags := 0, posted := false, lost := none, clock := [], floor := [], pc := placedPc }
theorem witness_matrix_full : let s := on0 (fun H => { H with mq := List.replicate 16 (aMatrix (.maccZero 0 1)) }) sup
    matRow s (.maccZero 0 1) = some ([], 0) ∧ Readable s [] ∧ s.matIllegal (.maccZero 0 1) = false ∧ RowsOwn s (.maccZero 0 1) ∧ ImageReady s (.maccZero 0 1) 0 [] ∧
      16 ≤ (s.hall (s.matTarget (.maccZero 0 1))).mq.length :=
  ⟨rfl, rd (by decide +kernel), by decide +kernel, .inl (by decide +kernel), rfl, by decide +kernel⟩
theorem witness_matrix_traps : let s := on0 (fun H => { H with accTag := sset H.accTag 7 9 }) usr
    Readable s [] ∧ Unstopped s ∧ s.matIllegal (.maccZero 511 2) = true ∧ s.matIllegal (.maccZero 6 1) = false ∧ s.superMode = false ∧
      accRun s.here (.maccZero 6 1) = some (6, 2) ∧ s.here.foreignRow s.asid (6, 2) = some 7 :=
  ⟨rd (by decide +kernel), un (by decide +kernel), by decide +kernel, by decide +kernel, by decide +kernel, by decide +kernel, by decide +kernel⟩
-- MatrixFormatAndStatus
theorem witness_matrix_format : let s := on0 (fun H => { H with work := { H.work with streams := H.work.streams.set 3 { H.work.streams[3] with bound := true } } }) sup
    (∃ sl, s.here.slice = some sl) ∧ (3#6).toNat < 8 ∧ (s.here.work.stream 3).bound = true ∧ s.here.mq.length ≤ 16 ∧ s.here.mErr < 256 ∧ s.here.mDisc < 16 :=
  ⟨⟨_, rfl⟩, by decide, by decide +kernel⟩

end Sys2Proof.Test

namespace Sys2Proof.Test
open Sys2Proof.Machine Sys2Proof.Spec

/-- Nothing is found, so nothing holds of what is found. -/
theorem nothing {α : Type} {o : Option α} {P : α → Prop} (h : o = none) : ∀ x, o = some x → P x := fun x hx => by rw [h] at hx; cases hx
-- ResultsLand
/-- The result pending is due. -/
def resulting (u : Upd) : State := sup.onMe fun x => { x with local_ := 9, pends := [{ seq := 0, due := 9, upds := [u] }] }
/-- A slot is due, with these data and this fault. -/
def slotted (d : Option (List Upd)) (f : Option TrapInfo) : State := sup.onMe fun x => { x with local_ := 9, slots := [{ aSlot with data := d, fault := f }] }
theorem witness_result (u : Upd) : ∃ p, PendFirst (resulting u) 0 .S p ∧ p.upds = [u] ∧ 1 < 64 := ⟨_, ⟨rfl, nothing rfl⟩, rfl, by decide⟩
theorem witness_landing (u : Upd) : ∃ x, SlotFirst (slotted (some [u]) none) 0 .S x ∧ x.data = some [u] ∧ x.fault = none ∧ (∀ d g, x.req ≠ .lifeAge d g) :=
  ⟨_, ⟨rfl, nothing rfl⟩, rfl, rfl, by simp [aSlot]⟩
theorem witness_forms : OneResult (.sreg 63 5) ∧ OneResult (.preg 7 true) ∧ OneResult (.btgt 3 8 0) ∧ OneResult (.flags 1) ∧ OneResult (.tile [(0, 1), (1, 2)]) ∧
    OneResult (.mask [(5, 1)]) ∧ OneResult (.shape 31 resetShape) := by
  refine ⟨?_, ?_, ?_, trivial, ?_, ?_, ?_⟩ <;> unfold OneResult <;> decide
theorem witness_landing_fault : let s := slotted (some []) (some { cause := .EXPIRED })
    ∃ x, SlotFirst s 0 .S x ∧ x.data = some [] ∧ x.fault = some { cause := .EXPIRED } ∧ (s.hall 0).trap = none ∧ (s.hall 0).back = none ∧ (s.hall 0).switch = none :=
  ⟨_, ⟨rfl, nothing (by decide +kernel)⟩, rfl, rfl, by decide +kernel⟩
-- DataArrives
theorem witness_range_arrives : let s := sup.onMe fun x => { x with slots := [{ aSlot with req := .rangeNext 3 4, paddrs := [] }] }
    ∃ x sl, s.arriving? 0 .S = some x ∧ x.req = .rangeNext 3 4 ∧ x.paddrs = [] ∧ (s.hall 0).slice = some sl := ⟨_, _, rfl, rfl, rfl, rfl⟩
theorem gal : spaceOf (aSlot.paddrs.headD 0) = .gallery 0 := by decide +kernel
theorem witness_data_arrives : let s := sup.onMe fun x => { x with slots := [aSlot] }
    ∃ x sl, s.arriving? 0 .S = some x ∧ x.req = .load 3 8 false ∧ (s.hall 0).slice = some sl ∧ (∀ p o, spaceOf (x.paddrs.headD 0) ≠ .control p o) ∧
      (∀ a ∈ x.paddrs, inFabric a = false) ∧ (s.senseRead sl.part x.paddrs).1 = none :=
  ⟨_, _, rfl, rfl, rfl, ⟨fun p o h => absurd (gal.symm.trans h) Space.noConfusion, by decide +kernel, by decide +kernel⟩⟩
/-- A store has been queued. -/
def stored : State := after (.stW 2 1 0) ready1
theorem witness_drain : let s := on0 (fun H => { H with overlay := H.overlay.map fun e => { e with drainAt := 0 } }) stored
    ∃ e, (s.hall 0).drainable = some e := ⟨_, rfl⟩
theorem witness_acknowledged : let s := sup.onMe fun x => { x with wait := { x.wait with pub := .waiting .device 0 } }
    ∃ sl, (s.hall 0).slice = some sl ∧ (s.strand 0 .S).wait.pub = .waiting .device 0 ∧ 0 ≤ (s.hall 0).cycle ∧ (s.strand 0 .S).lateAtomics = [] ∧
      s.publishWaits 0 .S .device = false :=
  ⟨_, rfl, by decide +kernel⟩
theorem witness_contribution_arrives :
    let e : MrSend := { part := 0, paddr := 0xC0000000000, hall := 0, ty := 0, value := 7, clock := [], fabric := false }
    let s := { sup.onPart 0 (fun P => { P with mrDescs := [(0, 0x200000000)] }) with sends := [e] }
    ∃ d, s.sends = e :: [] ∧ e.fabric = false ∧ s.mrDesc e.part ((e.paddr - 0xC0000000000) % 0x100000 / 4096) = some d ∧ d.fabric = 0 ∧ 2 ≤ d.count ∧
      (∀ r ∈ s.rounds, ¬(r.part = e.part ∧ r.addr = (e.paddr - 0xC0000000000) % 0x100000)) := ⟨_, rfl, rfl, rfl, by decide +kernel⟩
-- WaitsAndMatches
/-- Strand S has waited for ten seconds. -/
def waited : State := { sup.onMe (fun x => { x with wait := { x.wait with since := some 0, stage := 64, until_ := 55440000000000 } }) with tick := 55440000000000 }
theorem witness_timeouts : ∃ sl, (waited.hall 0).slice = some sl ∧ (waited.hall 0).trap = none ∧ (waited.hall 0).back = none ∧ (waited.strand 0 .S).wait.since = some 0 ∧
    (waited.part sl.part).barTmo.toNat ≠ 0 ∧ (waited.part sl.part).barTmo.toNat * 5544000 ≤ (waited.strand 0 .S).wait.until_ ∧ (waited.strand 0 .S).wait.stage = 64 ∧
    0 + 5544000000 ≤ waited.tick := ⟨_, rfl, by decide +kernel⟩
theorem witness_budget : let s := onSl (fun sl => { sl with left := 0 }) sup
    ∃ sl, (s.hall 0).slice = some sl ∧ (s.hall 0).trap = none ∧ (s.hall 0).back = none ∧ sl.left = 0 ∧ (s.hall 0).charging = true := ⟨_, rfl, by decide +kernel⟩
/-- Stream 3 is bound: one block of 8 bytes. -/
def aStream : Stream :=
  { Stream.unbound with
    bound := true, desc := leBytes 8 0xFFF0000000040 ++ leBytes 24 0 ++ leBytes 2 1 ++ leBytes 2 1 ++ leBytes 2 1 ++ leBytes 2 8 ++ leBytes 24 0 }
def streaming : State := on0 (fun H => { H with work := H.work.setStream 3 aStream }) sup
theorem witness_prefetch : ∃ sl j ps s1 s2 bs, (streaming.hall 0).slice = some sl ∧ ((streaming.hall 0).work.stream (3#3).toNat).nextBlock = some j ∧
    streaming.engineResolve { hall := 0, asid := sl.asid, part := sl.part, super := sl.super, slice := some sl.id } sl.wsets { wantEngineRead with width := 4 }
      (runFrom (streamAddr ((streaming.hall 0).work.stream (3#3).toNat).desc j).toNat (streamBlock ((streaming.hall 0).work.stream (3#3).toNat).desc)) = (.ok ps, s1) ∧
    s1.engineRead 0 .matrix (streamKey (3#3).toNat j) sl.asid sl.part (s1.readerOf 0 .L (s1.strand 0 .L).stores) ps = (.ok bs, s2) :=
  ⟨_, 0, places 8, _, _, leBytes 8 0, rfl, by decide +kernel, got (by decide +kernel), got (by decide +kernel)⟩
theorem witness_matched : let s := on0 (fun H => { H with cq := [{ aCopy with matchAt := some 0 }] }) sup
    (s.hall 0).cq = { aCopy with matchAt := some 0 } :: [] ∧ 0 ≤ (s.hall 0).cycle := by decide +kernel
/-- All four strands stand at a NOP with the sync mark. -/
def rallied : State := on0 (fun H => { H with work := H.work.setStrand .S { H.work.S with pc := placedPc + 8 } }) sup
theorem witness_sync : (∀ st, ∃ w, rallied.atSync 0 st = some (w, syncOnly, .nop)) ∧ (rallied.hall 0).mFault = none ∧ (∃ st, sup.atSync 0 st = none) :=
  ⟨fun st => ⟨nopSync, by cases st <;> decide +kernel⟩, by decide +kernel, .S, by decide +kernel⟩
-- RollbacksAndFrozenContexts
/-- A rollback to the region that is open. -/
def aRollback : Rollback := { target := 1, code := 6, abort := false, applied := false, endsAt := 0, found := 0, held := none }
/-- The rollback is under way, in the Hall cycle after the one in which the error was found. -/
def failing : State := on0 (fun H => { H with back := some aRollback, cycle := 1 }) inRegion
theorem witness_rollback : ∃ sl r, (failing.hall 0).back = some aRollback ∧ (failing.hall 0).slice = some sl ∧ aRollback.applied = false ∧ aRollback.found < (failing.hall 0).cycle ∧
    1 ≤ aRollback.target ∧ aRollback.target ≤ sl.regions.length ∧ regionAt sl.regions aRollback.target = some r ∧
    (failing.discardUnstarted 0 aRollback.target).spanBusy 0 aRollback.target = false := ⟨_, _, by decide +kernel, rfl, rfl, by decide +kernel, by decide, by decide +kernel, rfl,
      by decide +kernel⟩
theorem witness_rollback_ends : let s := on0 (fun H => { H with back := some { aRollback with applied := true } }) inRegion
    ∃ sl, (s.hall 0).back = some { aRollback with applied := true } ∧ (s.hall 0).slice = some sl ∧ 0 ≤ (s.hall 0).cycle := ⟨_, by decide +kernel, rfl, by decide +kernel⟩
/-- Context 2 is being frozen; its image goes to the gallery of Hall 0. -/
def aFreezing : Ctx :=
  { asid := 2, notices := 0, freezing := some { cw := 0, buf := placedPc, part := 0, by_ := 1, hall := 0 }, frozen := false, tracking := false, bitmap := 0,
    bitmapBy := 0, dirty := [] }
def freezing : State := { guests with ctxs := [aFreezing] }
theorem witness_freezing : ∃ f, (freezing.ctx 2).freezing = some f ∧ (∀ h sl, (freezing.hall h).slice = some sl → sl.asid ≠ 2) ∧
    freezing.reaches { hall := f.hall, asid := f.by_, part := f.part, super := true } true f.buf.toNat (layoutLen (freezing.imageSections f.part 2)) = true := by
  refine ⟨_, rfl, fun h sl e => ?_, by decide +kernel⟩
  have k : ∀ h : HallId, ((freezing.hall h).slice.all fun sl => sl.asid != 2) = true := by decide +kernel
  have := k h; rw [e] at this; simpa using this
-- RecordsAndSlices
/-- A cause stands on strand S. -/
def struck (c q : Bool) : State := on0 (fun H => { H with cycle := 1, trap := some { strand := .S, info := { cause := .BREAK }, cycle := 0, complete := c, queued := q, told := false, held := none } }) sup
theorem witness_record : ∃ sl y, ((struck false false).hall 0).slice = some sl ∧ ((struck false false).hall 0).trap = some y ∧ y.complete = false ∧
    y.cycle < ((struck false false).hall 0).cycle ∧ ((struck false false).hall 0).quiet = true ∧ ((struck false false).hall 0).back = none := ⟨_, _, rfl, rfl, by decide +kernel⟩
theorem witness_record_enters : let s := onSl (fun sl => { sl with supervisor := false }) (struck true false)
    ∃ sl y, (s.hall 0).slice = some sl ∧ (s.hall 0).trap = some y ∧ y.complete = true ∧ y.queued = false ∧ sl.supervisor = false ∧
      (s.part sl.part).trapq.length < 64 := ⟨_, _, rfl, rfl, by decide +kernel⟩
theorem witness_record_opens : (queued.part 0).open_ = none ∧ (queued.part 0).trapq = aRecord :: [] := by decide +kernel
theorem witness_window : let s := onSl (fun sl => { sl with thresh := sl.thresh.set 2 { sl.thresh[2] with win := 1, pos := 1024 } }) sup
    ∃ sl, (s.hall 0).slice = some sl ∧ (2#2).toNat < 3 ∧ sl.thresh[2].win ≠ 0 ∧ sl.thresh[2].win.toNat * 1024 ≤ sl.thresh[2].pos := ⟨_, rfl, by decide +kernel⟩
-- SlicesStartAndLeave
/-- A packet waits at Hall 0, which runs no slice. -/
def offered : State := on0 (fun H => { H with slice := none, deque := [{ (freshReady (Packet.ofBytes aPacket) aPacket 0 0) with seq := 0 }] }) (laid 64 aPacket sup)
theorem witness_start : ∃ r d shapes s1, (offered.hall 0).slice = none ∧ (offered.hall 0).part = some 0 ∧ offered.running = true ∧
    (offered.hall 0).deque.find? (fun r => !offered.heldBack r && offered.fitsHall 0 r) = some r ∧ r.what = .fresh (Packet.ofBytes aPacket) aPacket 0 0 ∧
    offered.refusalWaits 0 0 r = false ∧
    (let s0 := { offered.takeRecord 0 r with nextSlice := offered.nextSlice + 1 }
     s0.readKd (s0.whoIs 0 0 (Packet.ofBytes aPacket).asid) (Packet.ofBytes aPacket).kd = (.ok (d, shapes), s1)) :=
  ⟨_, leBytes 64 0, [], _, by decide +kernel, by decide +kernel, by decide +kernel, rfl, by decide +kernel, by decide +kernel, got (by decide +kernel)⟩
theorem witness_resume : let s := on0 (fun H => { H with restore := .begin }) sup
    ∃ sl, (s.hall 0).slice = some sl ∧ (s.hall 0).restore = .begin ∧ (s.hall 0).trap = none ∧ (s.hall 0).switch = none ∧ sl.fills = [] := ⟨_, rfl, by decide +kernel⟩
theorem witness_deadline : let s := { onSl (fun sl => { sl with packet := { sl.packet with deadlineKind := true } }) sup with tick := 5544000 }
    ∃ sl, (s.hall 0).part = some 0 ∧ (s.hall 0).slice = some sl ∧ sl.late = false ∧ sl.packet.deadlineKind = true ∧ sl.packet.lo.toNat < s.devtime :=
  ⟨_, by decide +kernel, rfl, by decide +kernel⟩
theorem witness_preempt : let s := on0 (fun H => { H with preempt := some { policy := .checkpoint, asked := false, left := 0, lastTick := 0 } }) sup
    ∃ sl e, (s.hall 0).slice = some sl ∧ (s.hall 0).switch = none ∧ (s.hall 0).preempt = some e ∧ s.outranked 0 = false ∧ e.policy = .checkpoint ∧ e.asked = false ∧
      e.left = 0 ∧ (s.hall 0).trap = none := ⟨_, _, rfl, by decide +kernel, rfl, by decide +kernel⟩
/-- A user slice runs, restartable or not, and a record of rank 9 waits; the partition may ask its supervisor. -/
def outranking (asks restart : Bool) : State :=
  (on0 (fun H => { H with deque := [{ (freshReady (Packet.ofBytes aPacket) aPacket 0 0) with prio := 9 }] })
    (onSl (fun sl => { sl with super := false, supervisor := false, packet := { sl.packet with restart := restart } }) sup)).onPart 0 fun P =>
      { P with mode := if asks then 4 else 0, pmin := 1 }
theorem witness_preempt_decides (asks restart : Bool) : let s := outranking asks restart
    ∃ sl r, (s.hall 0).slice = some sl ∧ r ∈ (s.hall 0).deque ∧ (s.hall 0).switch = none ∧ (s.hall 0).preempt = none ∧ sl.supervisor = false ∧
      sl.packet.prio + (s.part sl.part).pmin.toNat ≤ r.prio ∧ sl.estimate = none ∧ sl.packet.restart = restart ∧ (s.part sl.part).mode.getLsbD 2 = asks ∧
      (s.hall 0).trap = none ∧ (s.part sl.part).evq.length < 256 := by
  cases asks <;> cases restart <;> exact ⟨_, _, rfl, List.mem_singleton_self _, by decide +kernel⟩

end Sys2Proof.Test

namespace Sys2Proof.Test
open Sys2Proof.Machine Sys2Proof.Spec

-- CopySteps
theorem witness_copy_starts : let s := on0 (fun H => { H with cq := [aCopy] }) sup
    (s.hall 0).copy = none ∧ (s.hall 0).cq = aCopy :: [] ∧ aCopy.matchAt = none ∧ (s.hall 0).leaving aCopy.slice = false ∧ aCopy.q.we = false ∧ aCopy.bad = 0 ∧
      aCopy.resume = false := by decide +kernel
/-- The copy waits for event 5. -/
def waiting : CopyCmd := { aCopy with q := { scope := .device, ev := 5, we := true } }
theorem witness_copy_waits : let s := on0 (fun H => { H with cq := [waiting] }) sup
    (s.hall 0).copy = none ∧ (s.hall 0).cq = waiting :: [] ∧ waiting.matchAt = none ∧ (s.hall 0).leaving waiting.slice = false ∧ waiting.q.we = true ∧
      ((s.hall 0).work.ev waiting.q.ev.toNat).count = 0 := by decide +kernel
/-- A copy in progress at a byte. -/
def aRun (pos : Nat) (c : CopyCmd) : CopyRun := { cmd := c, pos := pos, cov := [], versions := [], stop := false, entered := false, asked := false, nextAt := 0, outcome := none }
/-- The copy is in progress. -/
def bursting : State := on0 (fun H => { H with copy := some (aRun 0 aCopy) }) sup
theorem witness_burst : ∃ ps s1, (bursting.hall 0).copy = some (aRun 0 aCopy) ∧ (aRun 0 aCopy).outcome = none ∧ (aRun 0 aCopy).stop = false ∧ (aRun 0 aCopy).pos < copyTotal aCopy.kind aCopy.x ∧ (aRun 0 aCopy).nextAt ≤ (bursting.hall 0).cycle ∧
    bursting.planBurst (bursting.copyWho 0 aCopy) (bursting.bindsOf aCopy.slice) aCopy (burstPieces 0 (copyTotal aCopy.kind aCopy.x)) = (some (some ps), s1) ∧
    s1.farMissing 0 .copy aCopy.id ((ps.flatMap (·.src)).filter inFabric) = false ∧
    (ps.foldl (fun (a : Burst × State) p => a.2.readPiece 0 (bursting.copyWho 0 aCopy) (bursting.bindsOf aCopy.slice) (aRun 0 aCopy) a.1 p)
      ({ out := [], code := 0 }, s1)).1.code = 0 :=
  ⟨[{ at_ := 0, n := 64, va := own + 64, src := placesAt 64 64, dst := placesAt 128 64 }], _, by decide +kernel, rfl, rfl, by decide +kernel, by decide +kernel, got (by decide +kernel),
    by decide +kernel, by decide +kernel⟩
/-- A copy from beyond 2^52. -/
def lost : CopyCmd := { aCopy with src := 0x0010000000000000 }
theorem witness_burst_fails : let s := on0 (fun H => { H with copy := some (aRun 0 lost) }) sup
    ∃ s1, (s.hall 0).copy = some (aRun 0 lost) ∧ (aRun 0 lost).outcome = none ∧ (aRun 0 lost).pos < copyTotal lost.kind lost.x ∧ (aRun 0 lost).stop = false ∧
      (aRun 0 lost).nextAt ≤ (s.hall 0).cycle ∧
      s.planBurst (s.copyWho 0 lost) (s.bindsOf lost.slice) lost (burstPieces 0 (copyTotal lost.kind lost.x)) = (some none, s1) :=
  ⟨_, by decide +kernel, rfl, by decide +kernel, rfl, by decide +kernel, got (by decide +kernel)⟩
theorem witness_copy_ends : let s := on0 (fun H => { H with copy := some (aRun 64 aCopy) }) sup
    (s.hall 0).copy = some (aRun 64 aCopy) ∧ (aRun 64 aCopy).ends (s.hall 0).cycle = some (64, 0, 1) ∧ aCopy.q.scope ≠ .fabric ∧ s.farWaits 0 .L (some .copy) = false ∧
      aCopy.cw = none := by decide +kernel
/-- A copy whose follow-on fills accumulator row 0 from the same place. -/
def following : CopyCmd := { aCopy with kind := .MM, follow := some (((encode Ctl.plain (.maccFill 0 0 6 0 false)).getD 0), own) }
theorem witness_follow : let s := on0 (fun H => { H with copy := some (aRun 64 following) }) sup
    ∃ i k n wr ps s1, (s.hall 0).copy = some (aRun 64 following) ∧ (aRun 64 following).entered = false ∧ copyTotal following.kind following.x ≤ 64 ∧
      (s.hall 0).mq.length < 16 ∧ followOn (((encode Ctl.plain (.maccFill 0 0 6 0 false)).getD 0)) = some (i, k) ∧ { s with curHall := 0 }.matIllegal i = false ∧
      following.super = true ∧ imageOf i = some (n, wr) ∧ own.toNat % 64 = 0 ∧
      s.engineResolve (s.copyWho 0 following) (s.bindsOf following.slice) (imageWant wr) (runFrom own.toNat n) = (.ok ps, s1) :=
  ⟨.maccFill 0 0 6 0 false, 6, 1024, false, placesAt 64 1024, _, by decide +kernel, rfl, by decide +kernel, by decide +kernel, by decide +kernel, by decide +kernel, rfl, rfl,
    by decide +kernel, got (by decide +kernel)⟩
-- HazelAndPostSteps
theorem witness_hazel_starts : let s := on0 (fun H => { H with hq := [aHazel .desc] }) sup
    (s.hall 0).hz = none ∧ (s.hall 0).rebind = none ∧ (s.hall 0).hq = aHazel .desc :: [] ∧ (aHazel .desc).matchAt = none ∧ (s.hall 0).leaving (aHazel .desc).slice = false ∧
      (aHazel .desc).q.we = false := by decide +kernel
theorem witness_hazel_steps : let s := fun (x : HzStep) => on0 (fun H => { H with hz := some { cmd := aHazel .desc, step := x, nextAt := 0 } }) sup
    (∀ x, ((s x).hall 0).hz = some { cmd := aHazel .desc, step := x, nextAt := 0 } ∧ 0 ≤ ((s x).hall 0).cycle) ∧ (aHazel .desc).cw = none ∧ (aHazel .desc).kind ≠ .pool ∧
      ((s .begin).hall 0).pool = none := ⟨fun _ => ⟨rfl, Nat.zero_le _⟩, by decide +kernel⟩
/-- A post of a matrix command. -/
def aPost : Post := { ev := 31, queue := some .matrix, cmd := 0, stamp := .empty }
theorem witness_post : let s := on0 (fun H => { H with phase := .finish, posts := [aPost] }) sup
    (s.hall 0).phase = .finish ∧ (s.hall 0).posts = [aPost] ∧ aPost.ev < 32 ∧ ((s.hall 0).work.ev aPost.ev).count < 255 := by decide +kernel
theorem witness_post_held : let s := on0 (fun H => { H with phase := .finish, posts := [aPost], work := { H.work with evs := H.work.evs.set 31 { H.work.evs[31] with count := 255 } } }) sup
    (s.hall 0).phase = .finish ∧ (s.hall 0).posts = [aPost] ∧ 255 ≤ ((s.hall 0).work.ev aPost.ev).count := by decide +kernel
theorem witness_post_away : let s := on0 (fun H => { H with phase := .finish, posts := [{ aPost with dest := some 1 }] }) sup
    (s.hall 0).phase = .finish ∧ (s.hall 0).posts = [{ aPost with dest := some 1 }] ∧ (1 : HallId) ≠ 0 ∧ aPost.ev < 32 ∧ ((s.hall 1).work.ev aPost.ev).count < 255 := by decide +kernel
theorem witness_hazel_done : let s := on0 (fun H => { H with hz := some { cmd := aHazel .desc, step := .done 1, nextAt := 0 } }) sup
    (s.hall 0).hz = some { cmd := aHazel .desc, step := .done 1, nextAt := 0 } ∧ (aHazel .desc).cw = none ∧ (aHazel .desc).q.scope ≠ .fabric ∧ s.farWaits 0 .L (some .hazel) = false := by
  decide +kernel
/-- A pool of 16 nodes of Q8.24 values whose statistics alternate, in Hall 0's gallery. -/
def aPool : HzPool := { desc := 0, nodes := own, cap := 16, free := 0, c := 0, vloss := 0, fpu := 0, q824 := true, alt := true }
/-- A command of the pool is in progress. -/
def searching (k : HzKind) (va vb : Word) (x : HzStep) : State :=
  on0 (fun H => { H with hz := some { cmd := { aHazel k with va := va, vb := vb }, step := x, nextAt := 0, pool := some aPool } }) sup
theorem witness_hazel_field : let s := searching .desc 2 own .begin
    ∃ r, (s.hall 0).hz = some r ∧ r.nextAt ≤ (s.hall 0).cycle ∧ r.pool = some aPool ∧ r.cmd.kind = .desc ∧ r.step = .begin ∧ r.cmd.va.toNat < aPool.cap ∧
      r.cmd.vb.toNat % 64 = 0 ∧ HzField s 0 r r.cmd.vb 4 (placesAt 64 4) ∧ fieldOf s (placesAt 64 4) < 256 :=
  ⟨_, rfl, by decide +kernel, rfl, rfl, rfl, by decide +kernel, by decide +kernel,
    ⟨Prod.ext (by decide +kernel) rfl, ⟨_, got (by decide +kernel), Prod.ext (by decide +kernel) rfl, by decide +kernel⟩, by decide +kernel, by decide +kernel, rfl⟩,
    by decide +kernel⟩
theorem witness_hazel_visits : let s := searching .desc 2 0 (.visit 0 [] 15)
    ∃ r, (s.hall 0).hz = some r ∧ r.pool = some aPool ∧ r.cmd.kind = .desc ∧ r.step = .visit 0 [] 15 ∧ HzField s 0 r (aPool.node 15 10) 2 (placesAt 1034 2) :=
  ⟨_, rfl, rfl, rfl, rfl,
    ⟨Prod.ext (by decide +kernel) rfl, ⟨_, got (by decide +kernel), Prod.ext (by decide +kernel) rfl, by decide +kernel⟩, by decide +kernel, by decide +kernel, rfl⟩⟩
theorem witness_hazel_pends : let s := searching .desc 2 0 (.pend 0 ([3] ++ [15]))
    ∃ r, (s.hall 0).hz = some r ∧ r.pool = some aPool ∧ r.cmd.kind = .desc ∧ r.step = .pend 0 ([3] ++ [15]) ∧ HzField s 0 r (aPool.node 15 12) 2 (placesAt 1036 2) :=
  ⟨_, rfl, rfl, rfl, rfl,
    ⟨Prod.ext (by decide +kernel) rfl, ⟨_, got (by decide +kernel), Prod.ext (by decide +kernel) rfl, by decide +kernel⟩, by decide +kernel, by decide +kernel, rfl⟩⟩
theorem witness_hazel_expands : let s := searching .expand 15 0 (.flag 4)
    ∃ r, (s.hall 0).hz = some r ∧ r.pool = some aPool ∧ r.cmd.kind = .expand ∧ r.step = .flag 4 ∧ HzField s 0 r (aPool.node r.cmd.va.toNat 12) 2 (placesAt 1036 2) ∧ s.farWaits 0 .L (some .hazel) = false :=
  ⟨_, rfl, rfl, rfl, rfl,
    ⟨Prod.ext (by decide +kernel) rfl, ⟨_, got (by decide +kernel), Prod.ext (by decide +kernel) rfl, by decide +kernel⟩, by decide +kernel, by decide +kernel, rfl⟩, by decide +kernel⟩
theorem witness_hazel_counts : let s := searching .back 0 0 (.addN [15, 3] 1 false)
    ∃ r, (s.hall 0).hz = some r ∧ r.pool = some aPool ∧ r.cmd.kind = .back ∧ r.step = .addN [15, 3] 1 false ∧ HzField s 0 r (aPool.node 15 0) 4 (placesAt 1024 4) ∧ 15 < aPool.cap :=
  ⟨_, rfl, rfl, rfl, rfl,
    ⟨Prod.ext (by decide +kernel) rfl, ⟨_, got (by decide +kernel), Prod.ext (by decide +kernel) rfl, by decide +kernel⟩, by decide +kernel, by decide +kernel, rfl⟩, by decide⟩
theorem witness_hazel_adds : let s := searching .back 0 0 (.addW [15, 3] 1 false)
    ∃ r, (s.hall 0).hz = some r ∧ r.pool = some aPool ∧ r.cmd.kind = .back ∧ r.step = .addW [15, 3] 1 false ∧ HzField s 0 r (aPool.node 15 4) 4 (placesAt 1028 4) :=
  ⟨_, rfl, rfl, rfl, rfl,
    ⟨Prod.ext (by decide +kernel) rfl, ⟨_, got (by decide +kernel), Prod.ext (by decide +kernel) rfl, by decide +kernel⟩, by decide +kernel, by decide +kernel, rfl⟩⟩
theorem witness_hazel_leaves_node : let s := searching .back 0 0 (.addV [15] 1 true)
    ∃ r, (s.hall 0).hz = some r ∧ r.pool = some aPool ∧ r.cmd.kind = .back ∧ r.step = .addV [15] 1 true ∧ HzField s 0 r (aPool.node 15 10) 2 (placesAt 1034 2) :=
  ⟨_, rfl, rfl, rfl, rfl,
    ⟨Prod.ext (by decide +kernel) rfl, ⟨_, got (by decide +kernel), Prod.ext (by decide +kernel) rfl, by decide +kernel⟩, by decide +kernel, by decide +kernel, rfl⟩⟩
-- MatrixEngineSteps
/-- An MMA of one row on bank 0. -/
def aMma : MmaF := { arow := 5, src := 1, n := 0, bank := false, ctl := .OW, sreg := 0, ev := 3, eve := true, k := 0 }
/-- The queue holds a command. -/
def posted (c : MatCmd) : State := on0 (fun H => { H with mq := [c], cycle := 9 }) sup
theorem witness_matrix_starts : ∃ c, ((posted (aMatrix (.mma aMma))).hall 0).nextMat = some c ∧ c.lost = none := ⟨_, by rfl, rfl⟩
/-- The MMA has started. -/
def fed (n : Nat) (rows : List AccWrite) : MatCmd := { aMatrix (.mma aMma) with started := some 0, fed := n, fmt := .RN8, rows := rows }
theorem witness_matrix_feeds : ∃ c f, ((posted (fed 0 [])).hall 0).feedDue = some (c, f) ∧ c.op = .mma f := ⟨_, _, by rfl, rfl⟩
theorem witness_matrix_consumed : ∃ c, ((posted (fed 1 [])).hall 0).consumed = some c := ⟨_, by rfl⟩
theorem witness_matrix_writes : ∃ c r f, ((posted (fed 1 [{ due := 0, row := 5, cols := [] }])).hall 0).writeDue = some (c, r) ∧ mmaOf c.op = some f ∧ r.cols.length ≤ 128 :=
  ⟨_, _, _, by rfl, rfl, by decide⟩
theorem witness_matrix_clears : ∃ c, ((posted { aMatrix (.mwClr true) with started := some 0 }).hall 0).fillDue = some c ∧ c.op = .mwClr true := ⟨_, by rfl, rfl⟩
theorem witness_matrix_zeroes : ∃ c, ((posted { aMatrix (.maccZero 511 0) with started := some 0 }).hall 0).maccDue = some c ∧ c.op = .maccZero 511 0 := ⟨_, by rfl, rfl⟩
-- FillsAndMovesComplete
/-- A command that has started. -/
def begun (i : Instr) (ps : List Nat) : MatCmd := { aMatrix i with started := some 0, pages := ps }
theorem unc {s : State} (h : ∀ p : PartId, (s.part p).migcfg.getLsbD 16 = false) : Uncounted s := h
theorem witness_fills : ∀ i ∈ [Instr.mwLoad .BF16 false true 3 0, .mwLoad .RN8 true false 0 1, .mwLoads .RN8 .N64 true 1],
    ((posted (begun i [])).hall 0).fillDue = some (begun i []) ∧
      (begun i []).staged.Pairwise (·.1 < ·.1) ∧ ∀ p : PartId, ((posted (begun i [])).part p).migcfg.getLsbD 16 = false := by decide +kernel
theorem witness_fills_read (i : Instr) :
    ∃ s1, (posted (begun i [])).engineRead 0 .matrix 0 1 0 ((posted (begun i [])).engineReader 0 .matrix 0 []) [] = (.ok [], s1) := ⟨_, rfl⟩
theorem witness_moves : ∀ i ∈ [Instr.maccRd 500 3 11 1, .maccWr 500 3 11 1, .maccCvt true 500 3 11 6 1, .maccCvt false 500 3 11 6 1, .maccZero 500 11],
    let s := posted (begun i [])
    (s.hall 0).spillDue = none ∧ (s.hall 0).maccDue = some (begun i []) := by decide +kernel
/-- The engines' turn of a Hall cycle, with a command of accumulator row 0 and the gallery. -/
def moving (i : Instr) : State := on0 (fun H => { H with phase := .engines }) (posted (begun i (placesAt 64 1024)))
/-- A fill and a spill of row 0. -/
def fillRow : Instr := .maccFill 0 0 6 3 true
def spillRow : Instr := .maccSpill 0 0 6 3 true
theorem witness_fill : ((moving fillRow).hall 0).spillDue = none ∧ ((moving fillRow).hall 0).maccDue = some (begun fillRow (placesAt 64 1024)) ∧
    Uncounted (moving fillRow) ∧
      ∃ bs s1, (moving fillRow).engineRead 0 .matrix 0 1 0 ((moving fillRow).engineReader 0 .matrix 0 []) (placesAt 64 1024) = (.ok bs, s1) :=
  ⟨by decide +kernel, by decide +kernel, unc (by decide +kernel), by
    have h : (match ((moving fillRow).engineRead 0 .matrix 0 1 0 ((moving fillRow).engineReader 0 .matrix 0 []) (placesAt 64 1024)).1 with
      | .ok _ => true | .wait => false | .bad _ => false) = true := by decide +kernel
    generalize (moving fillRow).engineRead 0 .matrix 0 1 0 ((moving fillRow).engineReader 0 .matrix 0 []) (placesAt 64 1024) = q at h
    obtain ⟨r, s1⟩ := q
    cases r with
    | ok bs => exact ⟨bs, s1, rfl⟩
    | wait => cases h
    | bad _ => cases h⟩
theorem witness_spill : ((moving spillRow).hall 0).spillDue = some (begun spillRow (placesAt 64 1024), 0, 1) ∧
    (moving spillRow).invalidAt (groupsCovered (placesAt 64 1024)).contains (placesAt 64 1024) = none ∧ (placesAt 64 1024).Nodup ∧ (placesAt 64 1024).length = 1024 ∧
      (∀ p ∈ placesAt 64 1024, inFabric p = false) ∧ Uncounted (moving spillRow) ∧ Memory.wf (moving spillRow).mem = true ∧
      ∀ v ∈ (moving spillRow).saved, v.filled (begun spillRow (placesAt 64 1024)) 0 1 = [] :=
  ⟨by decide +kernel, by decide +kernel, List.nodup_range.map fun _ _ h => Nat.add_left_cancel h, by decide +kernel, by decide +kernel, unc (by decide +kernel), by decide +kernel,
    by decide +kernel⟩
-- TranslationAndWindow
/-- A walk of context 1 that has ended, or is held; its range table stands in the gallery, with one range. -/
def aWalk (hold : Option Nat) : Walk :=
  { id := 0, asid := 1, part := 0, addr := 0x10000000, halls := [0], endsAt := if hold.isNone then some 0 else none, hold := hold, engine := false, failed := none }
/-- The partition's supervisor context has a range table of one entry. -/
def ranged (hold : Option Nat) : State :=
  { (laid 64 (leBytes 8 0x10000000 ++ leBytes 8 0x10001000 ++ leBytes 8 (galleryBase 0) ++ leBytes 8 3) sup).onPart 0 (fun P =>
      { P with ctxUsed := sset (sset P.ctxUsed 9 (BitVec.ofNat 64 (galleryBase 0 + 64))) 10 1 }) with walks := [aWalk hold] }
theorem witness_walk : ∃ tr, (ranged none).walks.find? (fun x => x.id == 0 && (match x.endsAt with | some t => decide (t ≤ (ranged none).tick) | none => false)) = some (aWalk none) ∧
    (aWalk none).endsAt = some 0 ∧ (ranged none).tableWalk 0 1 0x10000000 = .ok tr := ⟨_, by rfl, rfl, by rfl⟩
theorem witness_hold : (ranged (some 7)).walks.find? (fun x => x.hold == some (7#8).toNat && x.part == 0) = some (aWalk (some 7)) ∧ (aWalk (some 7)).engine = false ∧
    (∀ x ∈ (ranged (some 7)).walks, x.hold = some (7#8).toNat → x.part = 0 → x.id = (aWalk (some 7)).id) ∧ (aWalk (some 7)).halls ≠ [] ∧
    (ranged (some 7)).busyWalkers (aWalk (some 7)).plinth < 32 ∧
    (∀ x ∈ (ranged (some 7)).walks, x.endsAt = none → x.hold = none → x.plinth ≠ (aWalk (some 7)).plinth) :=
  ⟨by rfl, rfl, by decide +kernel, by decide +kernel, by decide +kernel, by decide +kernel⟩
theorem witness_hold_waits : let s := { ranged (some 7) with walks := aWalk (some 7) :: List.replicate 32 (aWalk none) }
    s.walks.find? (fun x => x.hold == some (7#8).toNat && x.part == 0) = some (aWalk (some 7)) ∧ 32 ≤ s.busyWalkers (aWalk (some 7)).plinth ∧
      (aWalk (some 7)).endsAt = none ∧ ∀ x ∈ s.walks, x.hold = some (7#8).toNat → x.part = 0 → x.id = (aWalk (some 7)).id :=
  ⟨by rfl, by decide +kernel, rfl, by decide +kernel⟩
/-- No context record has been written. -/
def bare : State := sup.onPart 0 fun P => { P with ctxRecs := [] }
theorem witness_window_registers : (sup.part 0).asids.getLsbD (2 : Asid).toNat = false ∧ (sup.part 0).asids.getLsbD (1 : Asid).toNat = true ∧
    (∀ b : Asid, b ≠ 1 → (bare.ctxWord 0 b 0).getLsbD 1 = false) ∧
    (bare.part 0).asids.getLsbD (1 : Asid).toNat = true ∧
    ((1 : Asid) ≠ 3 ∧ (guests.ctxWord 0 1 0).getLsbD 1 = true) ∧ sup.partRuns 0 = true ∧ sup.partRuns 1 = false :=
  ⟨by decide +kernel, by decide +kernel, fun b _ => by
    unfold State.ctxWord; rw [show (bare.part 0).ctxRecs = [] by decide +kernel]; split <;> simp [sget], by decide +kernel⟩
/-- An invalidation of context 2. -/
def anXinv : Xinv := { asid := 2, what := 0, walks := 0, cmds := [], recs := [] }
theorem witness_invalidation : let s := sup.onPart 0 fun P => { P with xinv := some anXinv }
    (s.part 0).xinv = some anXinv ∧ s.xinvReady anXinv = true ∧ (sup.part 0).xinv = none ∧ (s.part 0).xinv.isSome = true := by decide +kernel
/-- An event for the host. -/
def anEvent : HostEvent := { kind := 1, hall := 0, asid := 1, tag := 0, pol := 0, detail := 0, arg := 0 }
theorem witness_event_read : let s := sup.onPart 0 fun P => { P with evq := [anEvent], spillTail := 1 }
    (s.part 0).evq = anEvent :: [] ∧ (sup.part 0).spillHead = (sup.part 0).spillTail ∧ (s.part 0).spillHead ≠ (s.part 0).spillTail := by decide +kernel
-- StealsSpillsAndDecisions
/-- Halls 0 and 1 are of the partition; Hall 0 is idle, and Hall 1 may hold a record. -/
def thief (asks : Bool) (rs : List Ready) : State :=
  ((on0 (fun H => { H with slice := none, asking := asks }) sup).onPart 0 fun P => { P with halls := 3 }).onHall 1 fun H => { H with part := some 0, deque := rs }
/-- A record of a packet. -/
def aReady : Ready := freshReady (Packet.ofBytes aPacket) aPacket 0 0
theorem witness_steal_asks : (thief false []).idle 0 = true ∧ ((thief false []).hall 0).stealAt = some 0 ∧ 0 ≤ ((thief false []).hall 0).cycle ∧
    ((thief false []).hall 0).asking = false ∧ ((thief false []).hall 0).stealIdx < ((thief false []).victims 0).length := by decide +kernel
theorem witness_steal_gives : let s := thief true [aReady]
    (s.hall 0).asking = true ∧ (s.victims 0)[(s.hall 0).stealIdx]? = some 1 ∧ s.idle 0 = true ∧ (s.hall 1).part = some 0 ∧ s.spare 0 1 = some aReady ∧
      (∀ i ∈ s.insts, i.wants = false) := by decide +kernel
theorem witness_steal_refused : let s := thief true []
    (s.hall 0).asking = true ∧ (s.victims 0)[(s.hall 0).stealIdx]? = some 1 ∧ s.idle 0 = true ∧ (s.hall 1).part = some 0 ∧ s.spare 0 1 = none ∧
      (s.hall 1).splittable = none := by decide +kernel
/-- Hall 1 runs a bulk slice with this many indices left, and holds no record. -/
def sharing (n : Word) : State :=
  (thief true []).onHall 1 fun H => { H with slice := (sup.hall 0).slice.map fun sl => { sl with super := false, supervisor := false, raw := aPacket, lo := 5, hi := 5 + n } }
theorem witness_steal_split (n : Word) (hn : n = 7 ∨ n = 1) : ∃ sl, ((sharing n).hall 1).slice = some sl ∧ ((sharing n).hall 0).asking = true ∧
    ((sharing n).victims 0)[((sharing n).hall 0).stealIdx]? = some 1 ∧ (sharing n).idle 0 = true ∧ ((sharing n).hall 1).part = some 0 ∧ (sharing n).spare 0 1 = none ∧
    sl.packet.deadlineKind = false ∧ sl.supervisor = false ∧ ((sharing n).hall 1).switch = none ∧ ((sharing n).hall 1).trap = none ∧
    ((sharing n).ctx sl.asid).freezing = none ∧ sl.raw.length = 64 ∧ (Packet.ofBytes sl.raw).deadlineKind = false ∧ sl.hi - sl.lo = n := by
  rcases hn with rfl | rfl <;> exact ⟨_, rfl, by decide +kernel⟩
theorem witness_steal_again : let s := on0 (fun H => { H with stealIdx := 1 }) (thief false [])
    (s.hall 0).stealAt = some 0 ∧ 0 ≤ (s.hall 0).cycle ∧ (s.hall 0).asking = false ∧ (s.victims 0).length ≤ (s.hall 0).stealIdx ∧ 0 < (s.hall 0).stealIdx := by decide +kernel
/-- A spilled entry. -/
def aSpilled : Spilled := { at_ := 0, n := 0, hall := 0, rec_ := aReady, taken := false }
theorem witness_spilled : let s := sup.onPart 0 fun P => { P with spilled := [aSpilled] }
    (s.hall 0).part = some 0 ∧ (s.hall 0).deque.length < 64 ∧ (s.part 0).spilled.find? (fun e => e.hall == 0 && !e.taken) = some aSpilled ∧
      (∀ i ∈ s.insts, i.wants = false) := by decide +kernel
theorem witness_decision : let s := on0 (fun H => { H with preempt := some { policy := .drain, asked := true, left := 0, lastTick := 0 } }) sup
    ∃ e sl, (s.hall 0).preempt = some e ∧ e.asked = true ∧ (s.hall 0).part = some 0 ∧ (s.hall 0).slice = some sl ∧ sl.packet.restart = false ∧ (s.hall 0).trap = none ∧
      (sup.hall 0).preempt = none := ⟨_, _, rfl, rfl, by decide +kernel, rfl, by decide +kernel⟩
/-- A decision is awaited for a restartable slice, which a trap may have stopped. -/
def killing (q : Option Trapped) : State := on0 (fun H => { H with preempt := some { policy := .drain, asked := true, left := 0, lastTick := 0 }, trap := q })
  (onSl (fun sl => { sl with packet := { sl.packet with restart := true } }) sup)
theorem witness_decision_kill (q : Option Trapped) : ∃ e sl, ((killing q).hall 0).preempt = some e ∧ e.asked = true ∧ ((killing q).hall 0).part = some 0 ∧
    ((killing q).hall 0).slice = some sl ∧ sl.packet.restart = true ∧ ((killing q).hall 0).trap = q := ⟨_, _, rfl, rfl, rfl, rfl, rfl, rfl⟩

end Sys2Proof.Test

namespace Sys2Proof.Test
open Sys2Proof.Machine Sys2Proof.Spec

-- LifetimesAndDeviceEvents
/-- A row group of class P. -/
def aged (valid : Bool) : RowGroup := { age := 19, cls := .E4, pol := .EXPIRE, valid := valid, req := false, owner := 2, held := false }
/-- Two row groups of Hall 0's gallery, of which one is valid, and the Hall's next age step falls in its present cycle, or its next reading does. -/
def ageing (step : Bool) : State :=
  { on0 (fun H => { H with ageAcc := if step then oneUnit - 1 else 0, nextTick := if step then 10000 else 6000000, band := if step then 15 else 0 }) sup with
    rowGroups := [(9000, aged true), (9001, aged false)] }
theorem witness_age_step : (ageing true).ageDue 0 = true ∧ ((ageing true).rowGroups.map (·.1)).Nodup ∧ 9000 ∈ (ageing true).rowGroups.map (·.1) ∧ 9000 / 16384 = (0 : HallId).toNat ∧
    (ageing true).inPool (galleryTop + 4096 * 9000) = false ∧ ((ageing true).rowGroup 9000).valid = true ∧ ((ageing true).rowGroup 9000).held = false ∧
    ((ageing true).rowGroup 9001).valid = false ∧ ∃ g, (ageing true).inPool (galleryTop + 4096 * g) = true :=
  ⟨by decide +kernel, by decide +kernel, by decide +kernel, by decide, by decide +kernel, by decide +kernel, by decide +kernel, by decide +kernel, 16383, by decide +kernel⟩
theorem witness_autonomous : let s := on0 (fun H => { H with noBeat := 12 }) sup
    12 ≤ (s.hall 0).noBeat ∧ (s.hall 0).auto = false := by decide +kernel
/-- The controller of Hall 0 is autonomous. -/
def alone (sweeping : Option Nat) : State := on0 (fun H => { H with auto := true, sweeping := sweeping, sinceSweep := 1024 }) sup
theorem witness_sweep : ((alone none).hall 0).auto = true ∧ ((alone none).hall 0).sweeping = none ∧ ((alone none).hall 0).rejoin = false ∧ 1024 ≤ ((alone none).hall 0).sinceSweep ∧
    ((alone (some 16384)).hall 0).auto = true ∧ ((alone (some 16384)).hall 0).sweeping = some 16384 := by decide +kernel
theorem witness_sweep_step : let s := { alone (some 8990) with rowGroups := [(9000, { aged true with cls := .P, age := 5000 }), (9001, aged true)] }
    (s.hall 0).sweeping = some 8990 ∧ (s.rowGroups.map (·.1)).Nodup ∧ 9000 ∈ s.rowGroups.map (·.1) ∧ 9000 / 16384 = (0 : HallId).toNat ∧ 8990 ≤ 9000 % 16384 ∧
      9000 % 16384 < 8990 + 18 ∧ (s.rowGroup 9000).valid = true ∧ (s.rowGroup 9000).cls = .P ∧ 4096 < (s.rowGroup 9000).age ∧ 9001 ∈ s.rowGroups.map (·.1) ∧
      ¬4096 < (s.rowGroup 9001).age ∧ s.inPool (galleryTop + 4096 * 9002) = false := by decide +kernel
theorem witness_pool_ages : (ageing true).ageDue 0 = true ∧ 16383 ∉ (ageing true).rowGroups.map (·.1) ∧ 16383 / 16384 = (0 : HallId).toNat ∧
    (ageing true).inPool (galleryTop + 4096 * 16383) = true ∧ ((ageing true).hall 0).poolAge < 32767 := by decide +kernel
theorem witness_reading : ((ageing false).hall 0).readingDue = true ∧ ((ageing false).hall 0).firstRead = false ∧
    ((on0 (fun H => { H with firstRead := true }) (ageing false)).hall 0).readingDue = true ∧ ((on0 (fun H => { H with firstRead := true }) (ageing false)).hall 0).firstRead = true := by decide +kernel
theorem witness_wipe : let s := { sup with tick := 11088000000 }
    (s.hall 0).wipeEnds = some 11088000000 ∧ 11088000000 ≤ s.tick := by decide +kernel
theorem witness_halving : let s := { sup with tick := 5544000000, sectors := [(3, 9)] }
    s.halveAt ≤ s.tick ∧ (s.sectors.map (·.1)).Nodup := by decide +kernel
/-- The end of a boost interval; the Halls of domain 0 are cool, and Hall 0 may ask for a boost. -/
def boosting (lvl : Level) : State :=
  (List.range 8).foldl (fun s h => s.onHall (BitVec.ofNat 8 h) fun H => { H with band := 3, busyRows := 27720000, boostReq := if h = 0 then lvl else .nominal })
    { sup with tick := 27720000 }
theorem cool (P : State → HallId → Bool) (lvl : Level) (h : ∀ k : HallId, (k.toNat / 8 != 0 || P (boosting lvl) k) = true) :
    ∀ k : HallId, k.toNat / 8 = (0 : BitVec 5).toNat → P (boosting lvl) k = true := fun k e => by
  have := h k; simp at this e; exact this.resolve_left (by simp; omega)
theorem witness_boost_hot : ({ sup with tick := 27720000 } : State).boostAt[(0 : BitVec 5).toNat] ≤ ({ sup with tick := 27720000 } : State).tick ∧ ∃ g : HallId, g.toNat / 8 = (0 : BitVec 5).toNat ∧ 13 ≤ (sup.hall g).band :=
  ⟨by decide +kernel, 0, by decide, by decide +kernel⟩
theorem witness_boost_none : (boosting .nominal).boostAt[(0 : BitVec 5).toNat] ≤ (boosting .nominal).tick ∧
    ∀ g : HallId, g.toNat / 8 = (0 : BitVec 5).toNat → decide (((boosting .nominal).hall g).band < 13 ∧ ((boosting .nominal).hall g).boostReq = .nominal) = true :=
  ⟨by decide +kernel, cool (fun s g => decide ((s.hall g).band < 13 ∧ (s.hall g).boostReq = .nominal)) _ (by decide +kernel)⟩
theorem witness_boost : (boosting .B2).boostAt[(0 : BitVec 5).toNat] ≤ (boosting .B2).tick ∧ ((boosting .B2).hall 0).wantsBoost (boosting .B2).tick = true ∧
    (∀ k : HallId, k.toNat / 8 = (0 : BitVec 5).toNat → (k == 0 || !((boosting .B2).hall k).wantsBoost (boosting .B2).tick && decide (((boosting .B2).hall k).band < 12)) = true) ∧
    ((boosting .B2).hall 0).band < 12 ∧ ((boosting .B2).hall 0).idleArray = false :=
  ⟨by decide +kernel, by decide +kernel, cool (fun s k => k == 0 || !(s.hall k).wantsBoost s.tick && decide ((s.hall k).band < 12)) _ (by decide +kernel), by decide +kernel⟩
-- PortsAndHostMessages
theorem witness_ports : (11#4).toNat < 12 ∧ 12 ≤ (12#4).toNat ∧ (2#2).toNat < 3 := by decide
/-- Partition 0 owns the first pseudo-channel group. -/
def banked : State := sup.onPart 0 fun P => { P with hbm := 1 }
theorem witness_bulk : banked.bulkOk 0 0x1000 128 = true ∧ banked.bulkOk 0 0x1008 128 = false ∧ banked.bulkOk 0 0x180000000 64 = false := by decide +kernel
theorem witness_bulk_data : let s := { banked with bulks := [{ tag := 5, addr := 0x1000, left := 128, write := true, part := 0 }] }
    s.bulks.find? (fun b => b.write && b.tag == 5) = some { tag := 5, addr := 0x1000, left := 128, write := true, part := 0 } ∧ (leBytes 64 0).length < 128 ∧
      128 ≤ (leBytes 128 0).length ∧ Memory.wf s.mem = true := by decide +kernel
/-- The partition queues what the host launches. -/
def served : State := sup.onPart 0 fun P => { P with mode := 0x12, arq := own }
theorem witness_host_queue : aPacket.length = 64 ∧ (served.part 0).present = true ∧ (served.part 0).mode.getLsbD 4 = true ∧ (∃ u, served.queueLaunch 0 aPacket 1 = some u) ∧
    (served.onPart 0 fun P => { P with arTail := 64 }).queueLaunch 0 aPacket 1 = none := ⟨by decide, by decide +kernel, by decide +kernel, ⟨_, rfl⟩, by rfl⟩
theorem witness_host_launch : (laid 192 [1] sup).here.slice.isSome = true ∧ ((laid 192 [1] sup).part 0).present = true ∧ ((laid 192 [1] sup).part 0).mode.getLsbD 4 = false ∧
    (∃ t1 t2, (laid 192 [1] sup).hostLaunches 0 aPacket 1 = (.ok t1, t2)) ∧ (∃ f u, sup.hostLaunches 0 aPacket 2 = (.error f, u)) ∧ (sup.part 1).present = false :=
  ⟨by decide +kernel, by decide +kernel, by decide +kernel, ⟨_, _, got (by rfl)⟩, ⟨_, _, got (by rfl)⟩, by decide +kernel⟩
theorem witness_host_window : windowOf 0x80000000060 = some (0, 0x60) ∧ windowOf 0x80000000000 = some (0, 0) ∧ windowOf 0x800000001F8 = some (0, 0x1F8) ∧
    windowOf 0x80001010000 = some (1, 0x10000) ∧ windowOf 0x1000 = none ∧ (queued.part 0).evq = [] ∧
    ((sup.onPart 0 fun P => { P with evq := [anEvent] }).part 0).evq = anEvent :: [] ∧ (sup.part 0).spillHead = (sup.part 0).spillTail ∧
    ((sup.onPart 0 fun P => { P with spillTail := 1 }).part 0).spillHead ≠ ((sup.onPart 0 fun P => { P with spillTail := 1 }).part 0).spillTail ∧
    sup.partRuns 0 = true ∧ sup.partRuns 1 = false ∧ (sup.part 1).asids.getLsbD (0 : Asid).toNat = false := by decide +kernel

-- FabricMessages
/-- The context's range table translates the first bytes of the fabric's window to Hall 0's gallery. -/
def shared : State :=
  (laid 64 (leBytes 8 0xE000000000000 ++ leBytes 8 0xE000000002000 ++ leBytes 8 (galleryBase 0) ++ leBytes 8 3) sup).onPart 0 fun P =>
    { P with ctxUsed := sset (sset P.ctxUsed 9 (BitVec.ofNat 64 (galleryBase 0 + 64))) 10 1 }
/-- Its first word is poisoned. -/
def poisoned : State := { shared with poison := [galleryBase 0] }
theorem witness_far_read : Outward shared 5 ∧ (0#16).toNat = 0 ∧ 256 < (257#16).toNat ∧ shared.farResolve 1 (wantFar true false) 0 4 = .ok (runFrom (galleryBase 0) 4) ∧
    (∃ f, shared.farResolve 1 (wantFar true false) 0x10000 4 = .error f) ∧ (shared.senseRead (shared.partOf 1) (runFrom (galleryBase 0) 4)).1 = none ∧
    (poisoned.senseRead (poisoned.partOf 1) (runFrom (galleryBase 0) 4)).1 = some (galleryBase 0, .word) ∧ poisoned.farResolve 1 (wantFar true false) 0 4 = .ok (runFrom (galleryBase 0) 4) :=
  ⟨.inr (by decide +kernel), by decide, by decide, by rfl, ⟨_, by rfl⟩, by decide +kernel, by decide +kernel, by rfl⟩
theorem witness_far_write : shared.farResolve 1 (wantFar false true) 0 2 = .ok (runFrom (galleryBase 0) 2) ∧ (∃ f, shared.farResolve 1 (wantFar false true) 0x10000 2 = .error f) ∧
    (shared.senseWrite (shared.partOf 1) (runFrom (galleryBase 0) 2) false).1 = none ∧
    (poisoned.senseWrite (poisoned.partOf 1) (runFrom (galleryBase 0) 2) false).1 = some (galleryBase 0, .word) ∧
    shared.farResolve 1 (wantFar false true) 0x1000 2 = .ok (runFrom (galleryBase 0 + 4096) 2) ∧
    (shared.senseWrite (shared.partOf 1) (runFrom (galleryBase 0 + 4096) 2) false).1 = some (galleryBase 0 + 4096, .expired) ∧ Uncounted shared ∧ Memory.wf shared.mem = true :=
  ⟨by rfl, ⟨_, by rfl⟩, by decide +kernel, by decide +kernel, by rfl, by decide +kernel, unc (by decide +kernel), by decide +kernel⟩
theorem witness_far_atomic : let k := { wantFar true true with kind := .atomic }
    9 ≤ (9 : Byte).toNat ∧ farOp 0 = some (some .ADD) ∧ (∃ e, shared.farResolve 1 k 0x10000 2 = .error e) ∧ shared.farResolve 1 k 0 2 = .ok (runFrom (galleryBase 0) 2) ∧
      (∃ s1, shared.senseRead (shared.partOf 1) (runFrom (galleryBase 0) 2) = (none, s1)) ∧
      (∃ s1, poisoned.senseRead (poisoned.partOf 1) (runFrom (galleryBase 0) 2) = (some (galleryBase 0, .word), s1)) ∧
      ∃ s1, poisoned.senseRead (poisoned.partOf 1) (runFrom (galleryBase 0) 8) = (some (galleryBase 0, .word), s1) :=
  ⟨by decide, rfl, ⟨_, by rfl⟩, by rfl, ⟨_, got (by decide +kernel)⟩, ⟨_, got (by decide +kernel)⟩, _, got (by decide +kernel)⟩
/-- A load of eight bytes of member 0, and what it has asked for. -/
def farSlot : Slot := { aSlot with paddrs := runFrom 0xE0000000000 8 }
def farReq (slot : Option Nat) (atomic : Bool) (n : Nat) : FabReq :=
  { tag := 7, member := 0, hall := 0, strand := .S, slot := slot, atomic := atomic, engine := none, after := 0, info := { cause := .PROT }, addrs := runFrom 0xE0000000000 n }
/-- The request is under way. -/
def asked (r : FabReq) : State := { sup.onMe (fun x => { x with slots := [farSlot] }) with fabReqs := [r] }
theorem witness_response_load (n : Nat) : (asked (farReq (some 0) false n)).fabReqs.find? (fun r => r.tag == (7#16).toNat) = some (farReq (some 0) false n) ∧
    (farReq (some 0) false n).atomic = false ∧ (asked (farReq (some 0) false n)).slotOf (farReq (some 0) false n) = some farSlot ∧
    (∀ a ∈ farSlot.paddrs, inFabric a = true) ∧ farSlot.req = .load 3 8 false ∧ farSlot.depth = 0 := ⟨rfl, rfl, rfl, by decide, rfl, rfl⟩
theorem witness_response_bytes : (∀ a ∈ farSlot.paddrs, cellAt a (farSlot.far ++ (farReq (some 0) false 8).addrs.zip (leBytes 8 5)) ≠ none) ∧
    ∃ a ∈ farSlot.paddrs, cellAt a (farSlot.far ++ (farReq (some 0) false 4).addrs.zip (leBytes 8 5)) = none := by decide
theorem witness_response_write : (asked (farReq none false 0)).fabReqs.find? (fun r => r.tag == (7#16).toNat) = some (farReq none false 0) ∧
    (farReq none false 0).atomic = false ∧ (farReq none false 0).engine = none ∧ (farReq none false 0).slot = none ∧ (responseFault 3 5 0x10).cause ≠ .INTEGRITY :=
  ⟨rfl, rfl, rfl, rfl, by decide⟩
/-- An atomic at another module, whose result goes to s3. -/
def farAdd (slice : Nat) : Atomic :=
  { anAtomic (some .ADD) with performAt := sentMark, tag := 7, fabric := true, slot := some 0, paddrs := runFrom 0xE0000000000 4, slice := slice }
def adding (slice : Nat) : State :=
  { asked (farReq (some 0) true 0) with atomics := [farAdd slice] }.onMe fun x => { x with slots := [{ farSlot with req := .atomic 3 3 }] }
theorem witness_response_atomic : (adding 0).farAtomic (farReq (some 0) true 0) = some (farAdd 0) ∧ (adding 0).atomicLives (farAdd 0) = true ∧ (farAdd 0).slot = some 0 ∧
    ((adding 0).strand 0 .S).slots.find? (fun x => x.seq == 0) = some { farSlot with req := .atomic 3 3 } ∧
    (adding 9).farAtomic (farReq (some 0) true 0) = some (farAdd 9) ∧ (adding 9).atomicLives (farAdd 9) = false := by decide +kernel
theorem witness_response_cells : let c : FarCell := { hall := 0, engine := .copy, cmd := 0, addr := 0xE0000000000, tag := 7, byte := none, bad := 0 }
    let s := { sup with farCells := [c] }
    (∀ r ∈ s.fabReqs, r.tag ≠ (7#16).toNat) ∧ (∃ c ∈ s.farCells, c.tag = (7#16).toNat ∧ c.byte = none ∧ c.bad = 0) ∧ ∀ c ∈ s.farCells, c.tag ≠ (8#16).toNat := by decide +kernel
theorem witness_response_refused : let s := { sup with mrTags := [(7, 0, 3)] }
    (∀ c ∈ s.farCells, c.tag ≠ (7#16).toNat) ∧ s.mrTags.find? (fun e => e.1 == (7 : BitVec 16)) = some (7, 0, 3) ∧ s.mrTags.find? (fun e => e.1 == (8 : BitVec 16)) = none := by
  decide +kernel
/-- A publication that waits for module 5, which is cut off. -/
def aPub : FabPub := { module_ := 5, no := 1, hall := 0, strand := .S, engine := none }
def severed : State := { sup.onPart 0 (fun P => { P with routes := P.routes.set 1 0x0005000F }) with fabPubs := [aPub], tick := 5544000000 }
theorem witness_timeout : ∃ sl, (severed.hall 0).slice = some sl ∧ severed.timedOut 0 .S sl.part = none ∧ severed.timedPub 0 .S sl.part = some aPub :=
  ⟨_, rfl, by decide +kernel, by decide +kernel⟩
-- GroupMessages
/-- A member of another module, and a group that this one keeps, or does not. -/
def aMember (absent : Bool) (i : Nat) : GMember := { slice := 0, index := i, hall := 9, from_ := 4, arrived := false, absent := absent }
def aGroup (home : Bool) (arrivals : Nat) (ms : List GMember) : Group :=
  { Group.fresh 2 3 .fabric 0 with members := ms, phase := 4, expected := 2, arrivals := arrivals, home := home }
def grouped (home : Bool) (arrivals : Nat) (ms : List GMember) : State := { sup with groups := [aGroup home arrivals ms] }
theorem witness_group_messages : sup.group 2 3 = none ∧ (∀ home arrivals ms, (grouped home arrivals ms).group 2 3 = some (aGroup home arrivals ms)) ∧
    (∀ m ∈ (aGroup true 0 [aMember false 1]).members, ¬(m.index = (2 : Byte).toNat ∧ m.hall = 9)) ∧
    (aGroup true 0 [aMember false 1]).members.filter (farMember 1 9) = [aMember false 1] ∧
    (aMember false 1).arrived = false ∧ (aMember false 1).from_ ≤ 4 ∧ 0 + 1 < 2 ∧ 2 = 1 + 1 ∧ (aGroup true 0 []).arrivals < (aGroup true 0 []).expected ∧
    [aMember false 1, aMember false 2].filter (farMember 1 9) = [aMember false 1] ∧ (∃ m ∈ [aMember false 1, aMember false 2], farMember 1 9 m = false) ∧
    (aMember true 1).absent = true ∧ (grouped true 0 []).selfIndex 2 ≠ (1 : Byte).toNat :=
  ⟨by decide +kernel, fun _ _ _ => rfl, by decide, by decide, rfl, by decide, by decide, rfl, by decide, by decide, by decide, rfl, by decide +kernel⟩
/-- Window 0 of partition 0 is shared by the modules of its fabric group, for two contributions to Hall 0. -/
def rounding (rs : List Round) : State :=
  { sup.onPart 0 (fun P => { P with fabGroup := 1, mrDescs := [(0, 0x200000000), (2, 1), (6, 1)] }) with rounds := rs }
/-- A round that waits for its last contribution. -/
def aRound : Round :=
  { part := 0, addr := 8, ty := 0, count := 2, dest := 0, members := 1, fabric := true, parts := [{ member := 0, hall := 0, seq := 0, value := 3 }], clock := [] }
theorem witness_rounds : (∃ d, (rounding []).mrDesc 0 ((8 : BitVec 20).toNat / 4096) = some d ∧ d.ty = (0 : Byte).toNat ∧ d.fabric ≠ 0 ∧ 2 ≤ d.count) ∧
    (∀ r ∈ (rounding []).rounds, ¬(r.part = 0 ∧ r.addr = (8 : BitVec 20).toNat)) ∧
    (rounding [aRound]).rounds.find? (fun r => r.part == 0 && r.addr == (8 : BitVec 20).toNat) = some aRound ∧ aRound.count = aRound.parts.length + 1 ∧
    (rounding [aRound]).rounds.find? (fun r => r.part == 0 && r.addr == (8 : BitVec 20).toNat && r.fabric) = some aRound ∧ aRound.fabric = true ∧ aRound.ty = (0 : Byte).toNat ∧
    (rounding []).mrValues 0 (0x1000 : BitVec 20).toNat = none ∧ (1 : Byte).toNat ≠ ((rounding []).part 0).fabIndex.toNat ∧ Memory.wf (rounding []).mem = true :=
  ⟨⟨_, by rfl, by decide, by decide, by decide⟩, by decide +kernel, by decide +kernel, by decide, by decide +kernel, rfl, rfl, by decide +kernel, by decide +kernel, by decide +kernel⟩
-- ManagementMessages
/-- A key pair, its public key, and a module that the key manages. -/
def aPair : SlhKey := slhPublic (zeros 32) (zeros 32) (zeros 32)
def aKey : Bytes := aPair.pkSeed ++ aPair.pkRoot
def managed (l : Life) (d : Bytes := []) : State := { State.reset with life := l, operatorDigest := d }
theorem signed (m : Bytes) : signedOk (shake256 aKey 64) m aKey (slhSign aPair m []) = true := by
  unfold signedOk
  rw [beq_self_eq_true, Bool.true_and]
  unfold aKey aPair
  exact slh_verifies (zeros 32) (zeros 32) (zeros 32) m [] rfl
theorem aKey_length : aKey.length = 64 := by
  unfold aKey aPair
  rw [List.length_append, slhPublic_pkRoot_length, slhPublic_pkSeed]; rfl
theorem managed_digest (d : Bytes) : (managed .PROVISIONED d).keyDigest = d := rfl
theorem witness_state_message (m : Bytes) : signedOk (managed .PROVISIONED (shake256 aKey 64)).keyDigest m aKey (slhSign aPair m []) = true ∧
    (managed .PROVISIONED).mgmtSeq.toNat < (1 : Word).toNat ∧ (0 : Word).toNat ≤ (managed .PROVISIONED).mgmtSeq.toNat ∧ aKey.length = 64 ∧
    (slhSign aPair m []).length = 29792 ∧ (zeros 64).length = 64 ∧ (zeros 32).length = 32 ∧ cycleOf 2 ≠ (managed .PROVISIONED).life := by
  refine ⟨?_, by decide +kernel, by decide +kernel, aKey_length, slhSign_length _ _ _, rfl, rfl, by decide⟩
  rw [managed_digest]; exact signed m
theorem witness_state_unsigned (m : Bytes) (d : Bytes) : signedOk (managed .PROVISIONED d).keyDigest m aKey [] = false := by
  unfold signedOk slhVerify
  simp
theorem witness_assign : (managed .PROVISIONED).life = .PROVISIONED ∧ (managed .DEPLOYED).life = .DEPLOYED ∧ (managed .RETURNED).life ≠ .DEPLOYED ∧
    (∀ h ∈ maskHalls 3, ((managed .DEPLOYED).hall h).heldFrom 0 = false) := ⟨rfl, rfl, by decide, by decide +kernel⟩
/-- The descriptor of version 1 of set 7, without shards. -/
def aSet : Bytes := leBytes 8 0x100000007 ++ leBytes 56 0
theorem witness_weight_set : ∃ d, wsetOfBytes aSet [] = some d ∧ ((managed .DEPLOYED).wsets[(3 : BitVec 8).toNat]).state = 0 ∧
    let s := { managed .DEPLOYED with wsets := (managed .DEPLOYED).wsets.set 3 d }
    s.wsets[(3 : BitVec 8).toNat].version ≠ 0 ∧ s.wsets[(3 : BitVec 8).toNat].state = 0 ∧
      ({ d with state := 1 } : WSet).state ≠ 0 := ⟨_, by rfl, by decide +kernel, by decide +kernel⟩
/-- A safe-tier copy of one line, and of one byte of a gallery. -/
def aSafe : SafeCopy :=
  { dest := 4, base := 0, lines := [{ line := 3, cipher := zeros 64, check := lineCheck (integrityKey 0) 3 0 (zeros 64) }], cells := [(galleryBase 0, 7)], rowGroups := [],
    poison := [], flaws := [], changes := [], writeCounts := [], lineKeys := [], keys := Vector.replicate 16 0 }
/-- The module at rest holds the copy. -/
def resting : State := { managed .DEPLOYED with safeTier := [aSafe] }
theorem witness_safe_tier : resting.life = .DEPLOYED ∧ (1 : BitVec 16).setWidth 12 ≠ 0#12 ∧ (1 : BitVec 16).toNat < 4096 ∧ (∀ h, ((resting.hall h).slice == none) = true) ∧
    resting.safeTier.find? (fun x => x.dest == 4 && x.base == 0) = some aSafe ∧ aSafe.keys = resting.partKeys ∧
    (∀ l ∈ aSafe.lines, offDie (64 * l.line) = true ∧ l.cipher.length = 64) ∧ (aSafe.lines.map (·.line)).Nodup ∧ Memory.wf aSafe.cells = true ∧
    (∀ l ∈ aSafe.lines, l.check = lineCheck (integrityKey (resting.keyOf l.line)) l.line (sget aSafe.writeCounts l.line) l.cipher) ∧
    (∃ l ∈ aSafe.lines, l.line * 64 ∉ resting.flaws ∧ l.line * 64 ∉ resting.bad) :=
  ⟨rfl, by decide, by decide, by decide +kernel, List.find?_cons_of_pos (by decide +kernel), rfl, by
    intro l hl; rw [List.mem_singleton.mp hl]; decide +kernel, List.nodup_singleton _, by decide +kernel, by
    intro l hl
    have hk : resting.keyOf 3 = 0 := by decide +kernel
    rw [List.mem_singleton.mp hl, hk]; rfl, ⟨_, List.mem_singleton_self _, by simp [resting, managed, State.reset], by simp [resting, managed, State.reset]⟩⟩
theorem witness_safe_tier_refused : ((0x1000 : BitVec 16).setWidth 12 = 0#12 ∨ 4096 ≤ (0x1000 : BitVec 16).toNat) ∧ (∃ h sl, (sup.hall h).slice = some sl) ∧
    { resting with partKeys := resting.partKeys.set 1 9 }.partKeys ≠ aSafe.keys ∧ (managed .DEPLOYED).safeTier.find? (fun x => x.dest == 4 && x.base == 0) = none :=
  ⟨.inl (by decide), ⟨0, _, rfl⟩, by unfold resting managed aSafe; decide +kernel, rfl⟩
/-- The supervisor of partition 0 is stopped for a trap whose record has been queued. -/
def stopped : State := { struck true true with life := .DEPLOYED }
theorem witness_super : (∃ h sl x, stopped.stoppedSuper 0 = some (h, sl, x) ∧ x.info.cause ≠ .MACHINE_CHECK) ∧ (managed .DEPLOYED).stoppedSuper 0 = none ∧ aPacket.length = 64 ∧
    sup.superAsid 0 = some (Packet.ofBytes aPacket).asid ∧ (sup.part 0).supSlice.isSome = true ∧ sup.stoppedSuper 0 = none ∧ (zeros 3).length ≠ 64 :=
  ⟨⟨_, _, _, by rfl, by decide⟩, by decide +kernel, by decide, by decide +kernel, by decide +kernel, by decide +kernel, by decide⟩
theorem witness_super_starts : let s := fun (a : Byte) => { (laid 192 [a] sup).onPart 0 (fun P => { P with supSlice := none }) with life := .DEPLOYED }
    (∀ a, ((s a).part 0).supSlice = none) ∧ (s 1).stoppedSuper 0 = none ∧ (∃ t1 t2, (s 1).hostLaunches 0 aPacket 1 = (.ok t1, t2)) ∧
      ∃ f t2, (s 1).hostLaunches 0 aPacket 2 = (.error f, t2) := ⟨fun _ => rfl, by decide +kernel, ⟨_, _, got (by rfl)⟩, _, _, got (by rfl)⟩
/-- A peer's report over its own nonce and the module's: signed with its key. -/
def reportTop : Bytes := [0x4E, 0x45, 0x4C, 0x41, 0x54, 0x54, 0x53, 0x54, 2] ++ zeros 71
def reportHead : Bytes := reportTop ++ zeros 64 ++ shake256 aKey 64
def aReport : Bytes := reportHead ++ slhSign aPair (reportHead ++ zeros 64) []
def exchanging : State := { managed .DEPLOYED with keyNonce := zeros 64, peerNonce := zeros 64 }
theorem reportHead_length : reportHead.length = 208 := by
  unfold reportHead; rw [List.length_append, shake256_length]; rfl
/-- Where the certificate of the peer gives this key (Config.peerKey, log 5). -/
theorem witness_key_exchange (hp : Config.peerKey (shake256 aKey 64) = aKey) : (zeros 64).length = 64 ∧ aReport.length = 30000 ∧ exchanging.keyNonce ≠ [] ∧
    exchanging.peerReportOk aReport = true ∧ exchanging.peerReportOk (zeros 30000) = false := by
  have h1 : aReport.take 208 = reportHead := take_first reportHead_length
  have h2 : aReport.drop 208 = slhSign aPair (reportHead ++ zeros 64) [] := drop_first reportHead_length
  have hd : (aReport.drop 144).take 64 = shake256 aKey 64 := by
    unfold aReport reportHead
    rw [List.append_assoc, drop_first (a := reportTop ++ zeros 64) (n := 144) rfl]
    exact take_first (shake256_length _ _)
  have hn : (aReport.drop 80).take 64 = zeros 64 := by
    unfold aReport reportHead
    rw [List.append_assoc, List.append_assoc, drop_first (a := reportTop) (n := 80) rfl]
    exact take_first rfl
  refine ⟨rfl, ?_, by decide, ?_, rfl⟩
  · unfold aReport; rw [List.length_append, reportHead_length, slhSign_length]
  · unfold State.peerReportOk
    simp only [h1, h2, hd, hn, hp]
    have : signedOk (shake256 aKey 64) (reportHead ++ exchanging.keyNonce) aKey (slhSign aPair (reportHead ++ zeros 64) []) = true := signed _
    rw [this]
    rfl

end Sys2Proof.Test

namespace Sys2Proof.Test
open Sys2Proof.Machine Sys2Proof.Spec

-- StepRunsDecoded
/-- What a fetch of the NOP leaves. -/
def fetched : State := ((atTurn sup .S).fetchRead (placesAt 0 8)).2
theorem witness_turn : Turn sup .S :=
  ⟨by decide +kernel, by decide +kernel, by decide +kernel, by decide +kernel, fun sl h => by
    have : (match (sup.hall sup.curHall).slice with | some x => x.ending | none => false) = false := by decide +kernel
    rw [h] at this; exact this, by decide +kernel, by decide +kernel, by decide +kernel⟩
theorem witness_fetched : Fetched sup .S (placesAt 0 8) fetched := ⟨by rfl, by decide +kernel, got (by decide +kernel)⟩
theorem witness_step : decode (fetched.wordAtPlaces (placesAt 0 8)) = .ok (Ctl.plain, .nop) ∧ MayIssue fetched (fetched.wordAtPlaces (placesAt 0 8)) Ctl.plain .nop ∧
    fetched.guardHolds Ctl.plain = true ∧ (∃ t, exec .nop (ready fetched (fetched.wordAtPlaces (placesAt 0 8)) Ctl.plain) = .next t ∧ t.issued = true) ∧
    fetched.guardHolds { Ctl.plain with gn := true } = false ∧ unitBusy .nop fetched.me = false ∧ fetched.here.runs (sliceNo fetched) = true :=
  ⟨by decide +kernel, ⟨by decide +kernel, fun h => (by cases h), fun h => (by cases h), by decide +kernel, fun h => absurd h (by decide +kernel), by decide +kernel, by decide +kernel⟩,
    by decide +kernel, ⟨_, rfl, rfl⟩, by decide +kernel, by decide +kernel, by decide +kernel⟩
-- HardWiredRegisters, DecodeFaults
theorem witness_decode_faults : Unstopped sup ∧ decode 0xFFFFFFFFFFFFFFFF = .error .unassigned ∧ (∃ c i, decode 0x000C1010147E8028 = .ok (c, i)) ∧
    strandAccepts 0x000C1010147E8028 sup.curStrand = false ∧ Unstopped usr ∧ decode 0x0001830000000000 = .ok (Ctl.plain, .eret) ∧
    strandAccepts 0x0001830000000000 usr.curStrand = true ∧ usr.superMode = false ∧ csrHidden 0x080 = true ∧ csrUserWrites 0x060 = false ∧ Readable sup [] :=
  ⟨un (by decide +kernel), by decide, ⟨_, _, by rfl⟩, by decide +kernel, un (by decide +kernel), by decide, by decide +kernel, by decide +kernel, by decide +kernel, by decide +kernel,
    rd (by decide +kernel)⟩
-- StepsKeepCanonicalForm
theorem witness_canonical : Canonical sup ∧ ∃ t, step sup = .next t := by
  refine ⟨⟨by decide +kernel, by decide +kernel⟩, ?_⟩
  have h : (match step sup with | .next _ => true | .fault _ => false | .refused _ => false) = true := by decide +kernel
  generalize step sup = o at h
  cases o with
  | next t => exact ⟨t, rfl⟩
  | fault _ => cases h
  | refused _ => cases h
-- EncodingDecodes, DecodingEncodes
theorem witness_encoding : WellFormed (.ldW 7 3 16 40) = true ∧ needsSync (.ldW 7 3 16 40) = false ∧ WellFormed .rgnBegin = true ∧ needsSync .rgnBegin = true ∧
    ({ Ctl.plain with sync := true } : Ctl).sync = true ∧ ∃ c i, decode 0x2281041C30010028 = .ok (c, i) := ⟨by decide, by decide, by decide, by decide, rfl, _, _, by rfl⟩
/-- FIPS 202: SHAKE256 of no bytes begins so. -/
theorem test_shake : shake256 [] 8 = [0x46, 0xB9, 0xDD, 0x2B, 0x0B, 0xA8, 0x8D, 0x13] := by decide +kernel
/-- FIPS 197, appendix C.3: AES-256. -/
theorem test_aes : aesWith (roundKeys ((List.range 32).map (BitVec.ofNat 8))) ((List.range 16).map fun i => BitVec.ofNat 8 (17 * i)) =
    [0x8E, 0xA2, 0xB7, 0xCA, 0x51, 0x67, 0x45, 0xBF, 0xEA, 0xFC, 0x49, 0x90, 0x4B, 0x49, 0x60, 0x89] := by decide +kernel
/-- The GCM specification's test case 13: the tag of nothing under a key of zeros. -/
theorem test_gcm : (gcmSeal (zeros 32) (zeros 12) [] []).2 =
    [0x53, 0x0F, 0x8A, 0xFB, 0xC7, 0x45, 0x36, 0xB9, 0xA9, 0x63, 0xB4, 0xF1, 0xC4, 0xCB, 0x73, 0x8B] := by decide +kernel

end Sys2Proof.Test
end

section
/-! SUPPORT. Frames that follow one another, and partitions read after they have been changed. -/

namespace Sys2Proof.Proofs
open Sys2Proof.Machine Sys2Proof.Laws

theorem onlyHall_trans {s t u : State} (h : OnlyHall s t) (k : OnlyHall t u) : OnlyHall s u := by
  have hc : t.curHall = s.curHall := by rw [h.machine]
  refine ⟨?_, fun x hx => (k.halls x (hc ▸ hx)).trans (h.halls x hx)⟩
  rw [k.machine, h.machine]

theorem sameMemory_trans {s t u : State} (h : SameMemory s t) (k : SameMemory t u) : SameMemory s u :=
  ⟨fun a => (k.bytes a).trans (h.bytes a), fun x => (k.overlay x).trans (h.overlay x), k.groups.trans h.groups,
    k.poison.trans h.poison, k.bad.trans h.bad, k.rounds.trans h.rounds⟩

/-- A change of the Hall at issue is a change of no other. -/
theorem onHere_onlyHall (s : State) (f : Hall → Hall) (i r : Bool) (g : Option Word) :
    OnlyHall s { s.onHere f with issued := i, trapped := r, target := g } :=
  ⟨rfl, fun h hn => hall_onHall_ne s s.curHall h f hn⟩

/-- A pending result leaves the slice of the Hall at issue as it is. -/
theorem results_slice {s t : State} {lat dv : Nat} {us : List Upd} (h : Results s t lat dv us) : t.here.slice = s.here.slice := by
  rw [h.frame.here]

theorem results_pends {s t : State} {lat dv : Nat} {us : List Upd} (h : Results s t lat dv us) :
    t.me.pends = s.me.pends ++ [{ seq := s.me.seq, due := s.me.local_ + lat, upds := us }] := by
  rw [h.me]

theorem results_scalars {s t : State} {lat dv : Nat} {us : List Upd} (h : Results s t lat dv us) : t.me.s = s.me.s := by
  rw [h.me]

/-- No pending result changes a partition. -/
theorem results_part {s t : State} {lat dv : Nat} {us : List Upd} (h : Results s t lat dv us) (p : PartId) : t.part p = s.part p := by
  rw [h.frame.hall.machine]; rfl

@[simp] theorem part_onPart_same (s : State) (p : PartId) (f : Part → Part) : (s.onPart p f).part p = f (s.part p) := by
  simp [State.part, State.onPart]
theorem part_onPart_ne (s : State) (p q : PartId) (f : Part → Part) (hq : q ≠ p) : (s.onPart p f).part q = s.part q := by
  have : p.toNat ≠ q.toNat := fun e => hq (BitVec.eq_of_toNat_eq e.symm)
  simp [State.part, State.onPart, this]
@[simp] theorem here_onPart (s : State) (p : PartId) (f : Part → Part) : (s.onPart p f).here = s.here := rfl
@[simp] theorem me_onPart (s : State) (p : PartId) (f : Part → Part) : (s.onPart p f).me = s.me := rfl

/-- A change of a partition leaves memory alone. -/
theorem onPart_sameMemory (s : State) (p : PartId) (f : Part → Part) : SameMemory s (s.onPart p f) :=
  ⟨fun _ => rfl, fun _ => rfl, rfl, rfl, rfl, rfl⟩

theorem readable_nil (s : State) : Readable s [] := by
  simp [Readable, StrandState.stallShort]

/-! The running slice at issue. -/

section
variable {s : State} {sl : Slice} (hs : s.here.slice = some sl)
include hs

theorem superMode_of_slice : s.superMode = sl.super := by unfold State.superMode; rw [hs]
theorem isSupervisor_of_slice : s.isSupervisor = sl.supervisor := by unfold State.isSupervisor; rw [hs]
theorem partId_of_slice : s.partId = sl.part := by unfold State.partId; rw [hs]

end

end Sys2Proof.Proofs
end

section
/-! SUPPORT. What CSRR reads and does (R206, R207, R94, R394, R395). -/

namespace Sys2Proof.Proofs
open Sys2Proof.Machine Sys2Proof.Spec Sys2Proof.Laws

theorem csrHidden_iff (n : Nat) : csrHidden n = true ↔ csrPrivate n := by
  simp [csrHidden, csrPrivate, or_assoc]

/-! Values (R207). -/

theorem toNat_eq_ite (b : Bool) : b.toNat = if b then 1 else 0 := by cases b <;> rfl

theorem thresh_word_eq (t : Thresh) :
    t.word = BitVec.ofNat 64 (t.limit.toNat + 2 ^ 32 * t.win.toNat + if t.act then 2 ^ 48 else 0) := by
  unfold Thresh.word; cases t.act <;> rfl

theorem poolUsed_eq_sum (sl : Slice) : sl.poolUsed = (sl.regions.map (·.reserved)).sum := by
  unfold Slice.poolUsed
  rw [List.sum_eq_foldl, List.foldl_map]

theorem rgnPool_of_slice (H : Hall) (sl : Slice) (hs : H.slice = some sl) : H.rgnPool =
    BitVec.ofNat 64 (H.poolSize + 2 ^ 16 * (((sl.regions.map (·.reserved)).sum + 1023) / 1024) + 2 ^ 32 * sl.log.length) := by
  unfold Hall.rgnPool; simp only [hs, poolUsed_eq_sum]

theorem csrRow_thresh (s : State) (sl : Slice) (n : Nat) (hs : s.here.slice = some sl) (h : 4 ≤ n ∧ n ≤ 6) :
    csrRow s sl n = some (s.csrValue n) := by
  obtain rfl | rfl | rfl : n = 4 ∨ n = 5 ∨ n = 6 := by omega
  all_goals simp [csrRow, State.csrValue, hs, thresh_word_eq]

/-- One row of two tables that list the same conditions in the same order. -/
theorem eq_of_ite_eq_some {α : Type} {c : Prop} [Decidable c] {a a' b w : α} {r : Option α} (h : (if c then some a else r) = some w)
    (ha : c → a' = a) (hb : ¬c → r = some w → b = w) : (if c then a' else b) = w := by
  by_cases hc : c
  · rw [if_pos hc] at h ⊢; exact (ha hc).trans (Option.some.inj h)
  · rw [if_neg hc] at h ⊢; exact hb hc h

/-- The model reads every register of R207 as its row says: the two tables are compared row by row, the thresholds and the trap registers apart,
which one row of the model covers. -/
theorem csrValue_of_csrRow (s : State) (sl : Slice) (n : Nat) (w : Word) (hs : s.here.slice = some sl)
    (h : csrRow s sl n = some w) : s.csrValue n = w := by
  by_cases ht : 4 ≤ n ∧ n ≤ 6
  · exact Option.some.inj ((csrRow_thresh s sl n hs ht).symm.trans h)
  unfold State.csrValue csrRow at *
  simp only [hs, rgnPool_of_slice _ sl hs, toNat_eq_ite, State.asid, State.partId] at h ⊢
  iterate 4 refine eq_of_ite_eq_some h (fun _ => rfl) fun _ h => ?_
  rw [if_neg (by omega), if_neg (by omega), if_neg (by omega)] at h
  rw [if_neg (by omega)]
  iterate 15 refine eq_of_ite_eq_some h (fun _ => rfl) fun _ h => ?_
  by_cases hp : 0x080 ≤ n ∧ n ≤ 0x087
  · rw [if_neg (by omega)] at h; exact nomatch h
  · rw [if_neg hp]
    exact eq_of_ite_eq_some h (fun _ => rfl) fun _ h => nomatch h

theorem trapReg_eq_trapRow (P : Part) (n : Nat) (h : n < 8) : P.trapReg n = trapRow P n := by
  unfold Part.trapReg trapRow
  cases P.open_ <;> interval_cases n <;> simp

/-- A trap register reads zero but to the supervisor slice (R395). -/
theorem csrValue_trap (s : State) (sl : Slice) (n : Nat) (hs : s.here.slice = some sl) (h : 0x080 ≤ n ∧ n ≤ 0x087) :
    s.csrValue n = if sl.supervisor = true then trapRow (s.part sl.part) (n - 0x080) else 0 := by
  have e : s.csrValue n = if s.isSupervisor then (s.part s.partId).trapReg (n - 0x080) else 0 := by
    obtain ⟨hl, hu⟩ := h
    interval_cases n <;> rfl
  rw [e, isSupervisor_of_slice hs, partId_of_slice hs, trapReg_eq_trapRow _ _ (by omega)]

/-! The oldest trap record (R394). -/

/-- A partition whose record r has been opened. -/
def opening (r : TrapRec) (rest : List TrapRec) (P : Part) : Part :=
  { P with open_ := some r, trapq := rest, pcs := r.pcs, trapAct := r.info.extractLsb' 0 3 }

theorem openRecord_opens {s : State} {p : PartId} {r : TrapRec} {rest : List TrapRec} (ho : (s.part p).open_ = none)
    (hq : (s.part p).trapq = r :: rest) : s.openRecord p = s.onPart p (opening r rest) := by
  unfold State.openRecord; rw [ho, hq]; rfl

theorem openRecord_same {s : State} {p : PartId} (h : (s.part p).open_ = none → (s.part p).trapq = []) : s.openRecord p = s := by
  unfold State.openRecord
  split
  · next ho hq => rw [h ho] at hq; cases hq
  · rfl

/-! The clearing of NTSTAT (R94). -/

theorem here_clearNtstat (s : State) : (s.clearNtstat s.curHall).here = s.here.onSlice fun sl => { sl with ntstat := 0 } :=
  here_onSlice s _

theorem me_clearNtstat (s : State) : (s.clearNtstat s.curHall).me = s.me := by
  unfold State.me; rw [here_clearNtstat]; rfl

theorem clearNtstat_onlyHall (s : State) : OnlyHall s (s.clearNtstat s.curHall) :=
  onHere_onlyHall s (Hall.onSlice · fun sl => { sl with ntstat := 0 }) _ _ _

theorem clearNtstat_sameMemory (s : State) : SameMemory s (s.clearNtstat s.curHall) :=
  onHere_sameMemory s (Hall.onSlice · fun sl => { sl with ntstat := 0 }) _ _ _ rfl

/-! CSRR. -/

/-- In user mode a register without user access traps (R206). -/
theorem exec_csrr_hidden (s : State) (d : BitVec 6) (num : BitVec 12) (hm : s.superMode = false) (hn : csrHidden num.toNat = true) :
    exec (.csrr d num) s = .next (s.trapCause .PRIV) := by
  change execCsrr d num s = _
  simp [execCsrr, hm, hn]

/-- A register that the mode may read: it is read after an opening of a trap record, and NTSTAT is cleared after the read. -/
theorem exec_csrr_allowed (s : State) (d : BitVec 6) (num : BitVec 12) (hm : s.superMode = true ∨ csrHidden num.toNat = false)
    (hr : Readable s (csrReads num.toNat)) :
    exec (.csrr d num) s = .next (
      let s1 := if num.toNat = 0x080 ∧ s.isSupervisor then s.openRecord s.partId else s
      let s2 := if num.toNat = 0x003 then s1.clearNtstat s1.curHall else s1
      (s2.result 2 [.sreg d.toNat (s1.csrValue num.toNat)]).issue) := by
  have hp : (!s.superMode && csrHidden num.toNat) = false := by
    rcases hm with hm | hm <;> simp [hm]
  change execCsrr d num s = _
  unfold execCsrr
  simp only [hp, reading_readable s _ _ hr, Bool.false_eq_true, if_false]

/-- A read without an effect: the value is pending with latency 2 (R206). -/
theorem exec_csrr_plain (s : State) (d : BitVec 6) (num : BitVec 12) (hm : s.superMode = true ∨ csrHidden num.toNat = false)
    (hr : Readable s (csrReads num.toNat)) (h3 : num.toNat ≠ 0x003)
    (ho : num.toNat = 0x080 → s.isSupervisor = true → s.openRecord s.partId = s) :
    exec (.csrr d num) s = .next (s.result 2 [.sreg d.toNat (s.csrValue num.toNat)]).issue := by
  have e : (if num.toNat = 0x080 ∧ s.isSupervisor then s.openRecord s.partId else s) = s := by
    split
    · next h => exact ho h.1 h.2
    · rfl
  rw [exec_csrr_allowed s d num hm hr]
  simp only [e, if_neg h3]

/-- A read of NTSTAT clears it (R94). -/
theorem exec_csrr_ntstat (s : State) (d : BitVec 6) :
    exec (.csrr d 0x003) s = .next ((s.clearNtstat s.curHall).result 2 [.sreg d.toNat (s.csrValue 0x003)]).issue :=
  exec_csrr_allowed s d 0x003 (.inr rfl) (readable_nil s)

/-- A read of TRAP.CAUSE by the supervisor opens the oldest record first (R394). -/
theorem exec_csrr_cause (s : State) (d : BitVec 6) (hm : s.superMode = true) (hv : s.isSupervisor = true) :
    exec (.csrr d 0x080) s =
      .next ((s.openRecord s.partId).result 2 [.sreg d.toNat ((s.openRecord s.partId).csrValue 0x080)]).issue := by
  rw [exec_csrr_allowed s d 0x080 (.inl hm) (readable_nil s)]
  simp [hv]

end Sys2Proof.Proofs
end

section
/-! The statement on CSRR. -/

namespace Sys2Proof.Proofs
open Sys2Proof.Machine Sys2Proof.Spec Sys2Proof.Laws

theorem controlRegisterReads : ControlRegisterReads := by
  intro s sl d num hs n P opens
  refine ⟨fun _ hm hr h3 ho => ?_, fun hu hp hst => ?_⟩
  · have hm' : s.superMode = true ∨ csrHidden n = false :=
      hm.imp (superMode_of_slice hs).trans fun h => Bool.eq_false_iff.2 fun e => h ((csrHidden_iff n).1 e)
    have hr' : Readable s (csrReads n) := by
      unfold csrReads; split
      · next h0 => exact hr h0
      · exact readable_nil s
    have ho' : n = 0x080 → s.isSupervisor = true → s.openRecord s.partId = s := fun hn hv =>
      openRecord_same fun hopen => by
        rw [partId_of_slice hs] at hopen ⊢
        by_contra hq
        exact ho ⟨hn, (isSupervisor_of_slice hs).symm.trans hv, hopen, hq⟩
    exact ⟨_, _, exec_csrr_plain s d num hm' hr' h3 ho', result_issue s 2 _,
      fun w hw => csrValue_of_csrRow s sl n w hs hw, csrValue_trap s sl n hs⟩
  · exact ⟨_, exec_csrr_hidden s d num ((superMode_of_slice hs).trans hu) ((csrHidden_iff n).2 hp), trapHere_traps s _ hst⟩

/-- NTSTAT: the state in which the result is made pending is that whose slice has no crossings. -/
theorem csrr_ntstat_clears (s : State) (sl : Slice) (d : BitVec 6) (hs : s.here.slice = some sl) :
    ∃ t, exec (.csrr d 0x003) s = .next t ∧ t.issued = true ∧ t.here.slice = some { sl with ntstat := 0 } ∧
      t.me.pends = s.me.pends ++ [{ seq := s.me.seq, due := s.me.local_ + 2, upds := [.sreg d.toNat (sl.ntstat.setWidth 64)] }] ∧
      t.me.s = s.me.s ∧ OnlyHall s t ∧ SameMemory s t := by
  have hv : s.csrValue 0x003 = sl.ntstat.setWidth 64 := csrValue_of_csrRow s sl 3 _ hs rfl
  have hres := result_issue (s.clearNtstat s.curHall) 2 [.sreg d.toNat (s.csrValue 0x003)]
  refine ⟨_, exec_csrr_ntstat s d, hres.issued, ?_, ?_, ?_, ?_, ?_⟩
  · rw [results_slice hres, here_clearNtstat]; simp [Hall.onSlice, hs]
  · rw [results_pends hres, me_clearNtstat, hv]
  · rw [results_scalars hres, me_clearNtstat]
  · exact onlyHall_trans (clearNtstat_onlyHall s) hres.frame.hall
  · exact sameMemory_trans (clearNtstat_sameMemory s) hres.memory

theorem csrr_cause_opens (s : State) (sl : Slice) (d : BitVec 6) (r : TrapRec) (rest : List TrapRec) (hs : s.here.slice = some sl)
    (hm : sl.super = true) (hv : sl.supervisor = true) (ho : (s.part sl.part).open_ = none) (hq : (s.part sl.part).trapq = r :: rest) :
    ∃ t, exec (.csrr d 0x080) s = .next t ∧ t.issued = true ∧
      t.part sl.part = { s.part sl.part with open_ := some r, trapq := rest, pcs := r.pcs, trapAct := r.info.extractLsb' 0 3 } ∧
      (∀ p, p ≠ sl.part → t.part p = s.part p) ∧ t.me.s = s.me.s ∧ SameMemory s t ∧
      t.me.pends = s.me.pends ++ [{ seq := s.me.seq, due := s.me.local_ + 2, upds := [.sreg d.toNat (r.cause ||| 0x80000000)] }] := by
  have hopen := openRecord_opens ho hq
  have hres := result_issue (s.openRecord sl.part) 2 [.sreg d.toNat ((s.openRecord sl.part).csrValue 0x080)]
  have hval : (s.openRecord sl.part).csrValue 0x080 = r.cause ||| 0x80000000 := by
    rw [hopen, csrValue_trap (s.onPart sl.part (opening r rest)) sl 0x080 hs (by decide), if_pos hv, part_onPart_same]; rfl
  have he := exec_csrr_cause s d ((superMode_of_slice hs).trans hm) ((isSupervisor_of_slice hs).trans hv)
  rw [partId_of_slice hs] at he
  refine ⟨_, he, hres.issued, ?_, fun p hp => ?_, ?_, ?_, ?_⟩
  · rw [results_part hres, hopen, part_onPart_same]; rfl
  · rw [results_part hres, hopen, part_onPart_ne s _ _ _ hp]
  · rw [results_scalars hres, hopen, me_onPart]
  · exact sameMemory_trans (hopen ▸ onPart_sameMemory s _ _) hres.memory
  · rw [results_pends hres, hval, hopen, me_onPart]

/-- Settles O18: the model's table of registers agrees with that of R207 row by row, and the two reads with an effect make their result pending in the
state that the effect leaves. -/
theorem readingControlRegisters : Obligations.ReadingControlRegisters :=
  ⟨controlRegisterReads, fun s sl d hs =>
    ⟨csrr_ntstat_clears s sl d hs, fun r rest hm hv ho hq => csrr_cause_opens s sl d r rest hs hm hv ho hq⟩⟩

end Sys2Proof.Proofs
end

section
/-! SUPPORT. What CSRW checks, and what its write does at the end of the Hall cycle (R206, R8, R22, R27, R88, R90). -/

namespace Sys2Proof.Proofs
open Sys2Proof.Machine Sys2Proof.Spec Sys2Proof.Laws

theorem csrUserWrites_iff (n : Nat) : csrUserWrites n = true ↔ csrOpen n := by
  simp [csrUserWrites, csrOpen, or_assoc]

/-! Shapes (R27). -/

theorem shapeOf_isNone_iff (v : Word) : (shapeOf v).isNone = true ↔ v.extractLsb' 0 2 = 3 := by
  unfold shapeOf; dsimp only
  split
  · next h => simp [h]
  · next h => simp only [Option.isNone_some, Bool.false_eq_true, h]

section
variable (c : BitVec 8) (f : BitVec 4) (w : BitVec 2)

theorem shape_low : (c ++ 0#2 ++ f ++ w).extractLsb' 0 6 = f ++ w := by
  rw [← BitVec.extractLsb'_append_extractLsb'_eq_extractLsb' (start₂ := 2) (start₁ := 0) (len₁ := 2) (len₂ := 4) rfl,
    BitVec.extractLsb'_append_eq_right, BitVec.extractLsb'_append_eq_of_le (by decide), BitVec.extractLsb'_append_eq_right]

theorem shape_zero : (c ++ 0#2 ++ f ++ w).extractLsb' 6 2 = 0 := by
  rw [BitVec.extractLsb'_append_eq_of_le (by decide), BitVec.extractLsb'_append_eq_of_le (by decide), BitVec.extractLsb'_append_eq_right]
  rfl

theorem shape_cols : (c ++ 0#2 ++ f ++ w).extractLsb' 8 8 = c := by
  rw [BitVec.extractLsb'_append_eq_of_le (by decide), BitVec.extractLsb'_append_eq_of_le (by decide), BitVec.extractLsb'_append_eq_left]

end

/-- A shape keeps its low six bits, has two zero bits, and then its columns, limited by its width. -/
theorem shapeOf_fields (v : Word) (hw : v.extractLsb' 0 2 ≠ 3) : ∃ x, shapeOf v = some x ∧
    x.extractLsb' 0 6 = v.extractLsb' 0 6 ∧ x.extractLsb' 6 2 = 0 ∧
    (x.extractLsb' 8 8).toNat = min (v.extractLsb' 8 8).toNat (256 / 2 ^ (v.extractLsb' 0 2).toNat - 1) := by
  have hc : min (v.extractLsb' 8 8).toNat (256 / 2 ^ (v.extractLsb' 0 2).toNat - 1) < 2 ^ 8 :=
    (Nat.min_le_left _ _).trans_lt (v.extractLsb' 8 8).isLt
  unfold shapeOf; dsimp only; rw [if_neg hw]
  refine ⟨_, rfl, (shape_low _ _ _).trans ?_, shape_zero _ _ _, ?_⟩
  · exact BitVec.extractLsb'_append_extractLsb'_eq_extractLsb' rfl
  · exact (congrArg BitVec.toNat (shape_cols _ _ _)).trans ((BitVec.toNat_ofNat _ _).trans (Nat.mod_eq_of_lt hc))

/-! CSRW. -/

/-- A write of NCFG that changes more than its trap enables (R90). -/
def changesNcfg (n : Nat) (v c : Word) : Bool := n == 0x002 && (v ^^^ c).extractLsb' 8 2 != 0

theorem changesNcfg_eq_false_iff (n : Nat) (v c : Word) :
    changesNcfg n v c = false ↔ (n = 0x002 → v.extractLsb' 8 2 = c.extractLsb' 8 2) := by
  simp [changesNcfg, BitVec.extractLsb'_xor, BitVec.xor_eq_zero_iff]

/-- The mode of the strand at issue may not make the write. -/
def csrwDenied (s : State) (n : Nat) (v : Word) : Bool := !s.superMode && (!csrUserWrites n || changesNcfg n v (s.csrValue 0x002))

theorem csrwDenied_eq_false_iff (s : State) (n : Nat) (v : Word) : csrwDenied s n v = false ↔
    s.superMode = true ∨ csrOpen n ∧ (n = 0x002 → v.extractLsb' 8 2 = (s.csrValue 0x002).extractLsb' 8 2) := by
  unfold csrwDenied
  rw [← csrUserWrites_iff, ← changesNcfg_eq_false_iff]
  cases s.superMode <;> simp

/-- A Hall that holds one more write for the end of its cycle. -/
def holding (st : Strand) (n : Nat) (v : Word) (H : Hall) : Hall := { H with csrWrites := H.csrWrites ++ [(st, n, v)] }

section
variable {s : State} {num : BitVec 12} {a : BitVec 6} (hr : Readable s [.s a.toNat])
include hr

theorem exec_csrw_readable : exec (.csrw num a) s = .next (
    if csrwDenied s num.toNat (s.rs a) then s.trapCause .PRIV
    else if 0x010 ≤ num.toNat ∧ num.toNat ≤ 0x02F ∧ (shapeOf (s.rs a)).isNone then s.trapCause .ILLEGAL
    else (s.onHere (holding s.curStrand num.toNat (s.rs a))).issue) :=
  congrArg Host.Outcome.next (reading_readable s _ _ hr)

theorem exec_csrw_denied (hd : csrwDenied s num.toNat (s.rs a) = true) : exec (.csrw num a) s = .next (s.trapCause .PRIV) := by
  rw [exec_csrw_readable hr, if_pos hd]

theorem exec_csrw_badShape (hd : csrwDenied s num.toNat (s.rs a) = false) (hn : 0x010 ≤ num.toNat ∧ num.toNat ≤ 0x02F)
    (hw : (s.rs a).extractLsb' 0 2 = 3) : exec (.csrw num a) s = .next (s.trapCause .ILLEGAL) := by
  rw [exec_csrw_readable hr, if_neg (Bool.eq_false_iff.1 hd), if_pos ⟨hn.1, hn.2, (shapeOf_isNone_iff _).2 hw⟩]

theorem exec_csrw_held (hd : csrwDenied s num.toNat (s.rs a) = false)
    (hw : 0x010 ≤ num.toNat ∧ num.toNat ≤ 0x02F → (s.rs a).extractLsb' 0 2 ≠ 3) :
    exec (.csrw num a) s = .next (s.onHere (holding s.curStrand num.toNat (s.rs a))).issue := by
  rw [exec_csrw_readable hr, if_neg (Bool.eq_false_iff.1 hd),
    if_neg fun ⟨hl, hu, hnone⟩ => hw ⟨hl, hu⟩ ((shapeOf_isNone_iff _).1 hnone)]

end

/-! The end of the Hall cycle. -/

theorem csrApply_nflags (s : State) (h : HallId) (st : Strand) (v : Word) :
    s.csrApply h st 0x000 v = s.onStrand h st fun x => { x with nflags := x.nflags &&& ~~~(v.extractLsb' 0 6) } := rfl
theorem csrApply_sbchk (s : State) (h : HallId) (st : Strand) (v : Word) :
    s.csrApply h st 0x001 v = s.onStrand h st fun x => { x with sbchk := v.getLsbD 0 } := rfl
theorem csrApply_ncfg (s : State) (h : HallId) (st : Strand) (v : Word) :
    s.csrApply h st 0x002 v = s.onHall h (Hall.onSlice · fun sl => { sl with ncfg := v &&& 0x33F }) := rfl
theorem csrApply_shape (s : State) (h : HallId) (st : Strand) (v : Word) (t : Nat) (x : BitVec 16) (ht : t < 32)
    (hx : shapeOf v = some x) : s.csrApply h st (0x010 + t) v =
      s.onHall h (Hall.onWork · fun W => { W with shapes := W.shapes.setIfInBounds t x }) := by
  unfold State.csrApply
  dsimp only
  iterate 4 rw [if_neg (by omega)]
  rw [if_pos (by omega), hx, Nat.add_sub_cancel_left]
theorem csrApply_readOnly (s : State) (h : HallId) (st : Strand) (v : Word) (n : Nat)
    (hn : n = 0x003 ∨ n = 0x007 ∨ (0x050 ≤ n ∧ n ≤ 0x054) ∨ n = 0x060) : s.csrApply h st n v = s := by
  unfold State.csrApply
  dsimp only
  iterate 12 rw [if_neg (by omega)]

theorem strand_onStrand_same (s : State) (h : HallId) (st : Strand) (f : StrandState → StrandState) :
    (s.onStrand h st f).strand h st = f (s.strand h st) := by
  simp [State.strand, State.onStrand]

theorem getLsbD_and_ncfgMask (v : Word) (k : Nat) :
    (v &&& 0x33F).getLsbD k = (v.getLsbD k && (decide (k < 6) || decide (k = 8) || decide (k = 9))) := by
  rw [BitVec.getLsbD_and]
  congr 1
  by_cases hk : k < 64
  · interval_cases k <;> rfl
  · rw [BitVec.getLsbD_of_ge _ _ (by omega)]
    simp; omega

end Sys2Proof.Proofs
end

section
/-! The statement on CSRW. -/

namespace Sys2Proof.Proofs
open Sys2Proof.Machine Sys2Proof.Spec Sys2Proof.Laws

theorem controlRegisterWrites : ControlRegisterWrites := by
  intro s num a hr n v keeps shape
  have hd := csrwDenied_eq_false_iff s n v
  refine ⟨fun hm hsh => ?_, fun hm hno hst => ?_, fun hm hin hw hst => ?_⟩
  · exact ⟨_, exec_csrw_held hr (hd.2 hm) hsh, rfl, here_onHere s _, onHere_onlyHall s _ _ _ _, onHere_sameMemory s _ _ _ _ rfl⟩
  · have hdeny : csrwDenied s n v = true := Bool.eq_true_of_not_eq_false fun e =>
      (hd.1 e).elim (fun h => Bool.false_ne_true (hm.symm.trans h)) fun ⟨hopen, hkeep⟩ => hno.elim (· hopen) (· hkeep)
    exact ⟨_, exec_csrw_denied hr hdeny, trapHere_traps s _ hst⟩
  · have hn : n ≠ 0x002 := fun e => absurd (e ▸ hin.1) (by decide)
    have hallow : csrwDenied s n v = false := hd.2 (hm.imp_right fun ho => ⟨ho, fun e => absurd e hn⟩)
    exact ⟨_, exec_csrw_badShape hr hallow hin hw, trapHere_traps s _ hst⟩

theorem controlRegisterCommit : ControlRegisterCommit := by
  intro s h st sl v hs after
  refine ⟨fun k hk => ?_, ?_, ?_, fun t ht hw => ?_, fun n hn => csrApply_readOnly s h st v n hn⟩
  · simp [after, csrApply_nflags, strand_onStrand_same, hk]
  · simp [after, csrApply_sbchk, strand_onStrand_same]
  · exact ⟨{ sl with ncfg := v &&& 0x33F }, by simp [after, csrApply_ncfg, Hall.onSlice, hs], getLsbD_and_ncfgMask v⟩
  · obtain ⟨x, hx, hfields⟩ := shapeOf_fields v hw
    have hshape : ((after (0x010 + t)).hall h).work.shape t = x := by
      simp [after, csrApply_shape s h st v t x ht hx, Hall.onWork, Work.shape, ht]
    rw [hshape]
    exact hfields

/-- Settles O19: a write that its mode may make is only held, and each register's write at the end of the Hall cycle has an equation of its own. -/
theorem writingControlRegisters : Obligations.WritingControlRegisters := ⟨controlRegisterWrites, controlRegisterCommit⟩

end Sys2Proof.Proofs
end

section
/-! The state after reset. -/

namespace Sys2Proof.Proofs
open Sys2Proof.Machine Sys2Proof.Spec Sys2Proof.Laws

@[simp] theorem hall_reset (h : HallId) : State.reset.hall h = Hall.reset := by
  simp [State.hall, State.reset]
@[simp] theorem part_reset (p : PartId) : State.reset.part p = Part.reset := by
  simp [State.part, State.reset]
@[simp] theorem strand_fresh (st : Strand) : Work.fresh.strand st = StrandState.fresh := by cases st <;> rfl
theorem reg_fresh (n : Nat) : StrandState.fresh.reg n = 0 := by
  unfold StrandState.reg StrandState.fresh
  by_cases hn : n < 64 <;> simp [hn]

/-- A row group of reset that is not the device's own stands as a wipe leaves it (R264). -/
theorem rowGroup_reset (g : Nat) (hp : State.reset.inPool (galleryTop + 4096 * g) = false) : State.reset.rowGroup g = RowGroup.wiped := by
  unfold State.rowGroup
  simp only [show State.reset.rowGroups = [] from rfl, List.find?_nil, hp, Bool.false_eq_true, if_false]

/-- Settles O55: the Halls and the partitions are all alike at reset, and every list of the state is empty. -/
theorem resetValues : Obligations.ResetValues := by
  refine ⟨rfl, rfl, fun h => ?_, fun p => ?_, rowGroup_reset, fun i => ?_, fun a => rfl⟩
  · rw [hall_reset]
    refine ⟨rfl, rfl, rfl, rfl, rfl, fun t ht => ?_, fun q hq => ?_, fun b hb => ?_, fun st n => ?_⟩
    · exact Vector.getElem?_replicate.trans (if_pos ht)
    · exact congrArg _ (Vector.getElem?_replicate.trans (if_pos hq))
    · exact congrArg _ (Vector.getElem?_replicate.trans (if_pos hb))
    · exact (congrArg (·.reg n) (strand_fresh st)).trans (reg_fresh n)
  · rw [part_reset]
    exact ⟨rfl, rfl, rfl, rfl, rfl, rfl, rfl, rfl⟩
  · exact congrArg WSet.state (Vector.getElem_replicate _)

end Sys2Proof.Proofs
end

section
/-! SUPPORT. Syllables that nothing holds up, and changes of one Hall. -/

namespace Sys2Proof.Proofs
open Sys2Proof.Machine Sys2Proof.Spec Sys2Proof.Laws

theorem whenPort_free (s : State) (k : State → State) (h : PortFree s) : s.whenPort k = k s :=
  if_neg (Nat.not_lt.2 h)

theorem readingWhen_readable (s : State) (full : Bool) (rd : List Src) (k : State → State) (h : Readable s rd) :
    s.readingWhen full rd k = k s := by
  unfold State.readingWhen
  rw [show s.me.stallShort rd = false from h, Bool.and_false, if_neg Bool.false_ne_true, reading_readable s rd k h]

/-- A change of one Hall that leaves its overlay alone leaves memory alone. -/
theorem onHall_sameMemory (s : State) (h : HallId) (f : Hall → Hall) (i r : Bool) (g : Option Word)
    (hf : (f (s.hall h)).overlay = (s.hall h).overlay) :
    SameMemory s { s.onHall h f with issued := i, trapped := r, target := g } := by
  refine ⟨fun _ => rfl, fun k => ?_, rfl, rfl, rfl, rfl⟩
  by_cases hk : k = h
  · rw [hk]; exact (congrArg Hall.overlay (hall_onHall_same s h f)).trans hf
  · exact congrArg Hall.overlay (hall_onHall_ne s h k f hk)

end Sys2Proof.Proofs
end

section
/-! Scalar loads (R24, R122 to R124). -/

namespace Sys2Proof.Proofs
open Sys2Proof.Machine Sys2Proof.Spec Sys2Proof.Laws

/-- The loads of the table are one operation (R122). -/
theorem exec_of_loadRow {i : Instr} {w : Width} {sx : Bool} {d a : BitVec 6} {off : BitVec 16} {land : BitVec 12}
    (h : loadRow i = some (w, sx, d, a, off, land)) (s : State) : exec i s = .next (s.load w sx d a off land) := by
  unfold loadRow at h
  split at h <;> cases h <;> rfl

/-- A load through a free port to bytes that resolve claims its slot (R24, R124). -/
theorem loadAt_claims {s : State} {w : Width} {addr : Word} {ps : List Nat} (sx : Bool) (d : BitVec 6) (land : BitVec 12)
    (hp : PortFree s) (hs : SlotFree s) (ha : Accessible s (wantLoad w) (widthBytes w) addr (widthBytes w) ps) :
    (s.loadAt w sx d addr land).me.portFree = s.me.local_ + 1 ∧
      Claims s (s.loadAt w sx d addr land) (.load d.toNat (widthBytes w) sx) [.s d.toNat] land addr ps := by
  refine onPort_claims s _ _ _ _ _ _ hp fun g hg => ?_
  rw [withBytes_accessible s _ _ _ _ ps _ ha]
  exact loadSlot_claims s _ _ _ _ _ _ hs g hg

theorem loadsClaimSlots : LoadsClaimSlots := by
  intro s i w sx d a off land ps hrow hread hport hslot hacc
  have haddr : s.rs a + off.signExtend 64 = memAddr s a off := addr_offset (s.rs a) off (by decide)
  have hload : s.load w sx d a off land = s.loadAt w sx d (memAddr s a off) land := by
    unfold State.load
    rw [whenPort_free s _ hport, readingWhen_readable s _ _ _ hread, haddr]
  exact ⟨_, exec_of_loadRow hrow s, hload ▸ loadAt_claims sx d land hport hslot hacc⟩

/-- Bit k of a little-endian value is bit k mod 8 of byte k / 8 (R7). -/
theorem leNat_testBit (bs : Bytes) (k : Nat) : (leNat bs).testBit k = (bs.getD (k / 8) 0).getLsbD (k % 8) := by
  induction bs generalizing k with
  | nil => simp [leNat]
  | cons b bs ih =>
    rw [leNat, Nat.add_comm, show (256 : Nat) = 2 ^ 8 from rfl, Nat.testBit_two_pow_mul_add _ b.isLt]
    split
    · next hk => rw [Nat.div_eq_of_lt hk, Nat.mod_eq_of_lt hk]; rfl
    · next hk => rw [ih, show k / 8 = (k - 8) / 8 + 1 by omega, show k % 8 = (k - 8) % 8 by omega]; rfl

theorem leNat_testBit_beyond (bs : Bytes) (k : Nat) (hk : 8 * bs.length ≤ k) : (leNat bs).testBit k = false := by
  rw [leNat_testBit, List.getD_eq_default _ _ (by omega)]; simp

theorem loadExtension : LoadExtension := by
  intro bs sx k hpos hlen hk
  have hlast : (leNat bs).testBit (8 * bs.length - 1) = (bs.getD (bs.length - 1) 0).getLsbD 7 := by
    rw [leNat_testBit, show (8 * bs.length - 1) / 8 = bs.length - 1 by omega, show (8 * bs.length - 1) % 8 = 7 by omega]
  cases sx with
  | true =>
    rw [extendLoad, if_pos rfl, sint_bits _ _ _ (by omega) hk (by omega), hlast, leNat_testBit, Bool.true_and]
  | false =>
    rw [extendLoad, if_neg Bool.false_ne_true, BitVec.getLsbD_ofNat, decide_eq_true hk, Bool.true_and, Bool.false_and]
    split
    · exact leNat_testBit bs k
    · exact leNat_testBit_beyond bs k (by omega)

/-- Settles O10: the seven loads are one operation, whose parts claim the slot; and a little-endian value is its bytes bit by bit. -/
theorem scalarLoads : Obligations.ScalarLoads := ⟨loadsClaimSlots, loadExtension⟩

end Sys2Proof.Proofs
end

section
/-! The hard-wired registers (R13), and memory at reset (log 3). -/

namespace Sys2Proof.Proofs
open Sys2Proof.Machine Sys2Proof.Spec Sys2Proof.Laws

/-! Registers. -/

theorem btgt_setBtgt_same (x : StrandState) (n : Nat) (v : BTgt) (hn : n < 4) : (x.setBtgt n v).btgt n = v := by
  simp [StrandState.btgt, StrandState.setBtgt, hn]
theorem btgt_setBtgt_ne (x : StrandState) (n m : Nat) (v : BTgt) (hm : m ≠ n) : (x.setBtgt n v).btgt m = x.btgt m := by
  simp [StrandState.btgt, StrandState.setBtgt, Ne.symm hm]

/-- R13, R300: no branch target is prepared at a slice's start. -/
theorem btgt_start_unprepared (entry : Word) (args : List Word) (now : Nat) (c : Clock) (n : Nat) :
    ((StrandState.start entry args now c).btgt n).prepared = false := by
  change ((Vector.replicate 4 ({ addr := 0, prepared := false, ready := 0 } : BTgt))[n]?.getD _).prepared = false
  by_cases hn : n < 4 <;> simp [hn]

/-- A register that reads as a constant is read whatever is pending (R13, R22). -/
theorem readable_constant (s : State) (r : Src) (h : r.constant = true) : Readable s [r] := by
  simp [Readable, StrandState.stallShort, h]

theorem prepare_results (s : State) (n : Nat) (target : Word) :
    Results s (s.prepare [] n target) 1 s.me.divFree [.btgt n target (s.here.cycle + 4)] :=
  compute_results s [] 1 _ (readable_nil s)

theorem exec_movi (s : State) (d : BitVec 6) (imm : BitVec 34) (h : Readable s []) :
    ∃ t, exec (.movi d imm) s = .next t ∧ Results s t 1 s.me.divFree [.sreg d.toNat (imm.signExtend 64)] :=
  ⟨_, rfl, compute_results s [] 1 _ h⟩

theorem exec_pb (s : State) (b : BitVec 2) (off : BitVec 38) :
    exec (.pb b off) s = .next (s.prepare [] b.toNat (s.me.pc + (off.signExtend 64 <<< 3))) := rfl

theorem exec_pba {s : State} {b a : BitVec 6} {imm : BitVec 28} (hr : Readable s [.s a.toNat])
    (hf : targetFault (s.rs a + imm.signExtend 64) = none) :
    exec (.pba b a imm) s = .next (s.prepare [] b.toNat (s.rs a + imm.signExtend 64)) := by
  change execPba b a imm s = _
  unfold execPba
  dsimp only
  rw [reading_readable s _ _ hr, hf]

theorem exec_pba_zero (s : State) (b : BitVec 6) : exec (.pba b 0 8) s = .next (s.prepare [] b.toNat 8) := by
  have htarget : s.rs 0 + (8 : BitVec 28).signExtend 64 = 8 :=
    (congrArg (· + (8 : BitVec 28).signExtend 64) (reg_zero s.me)).trans (by decide)
  rw [exec_pba (readable_constant s (.s 0) rfl) (htarget ▸ by decide), htarget]

/-- Settles O53: reading after writing, register by register, and the two syllables that prepare a branch target. -/
theorem hardWiredRegisters : Obligations.HardWiredRegisters := by
  refine ⟨fun x => ⟨reg_zero x, pred_zero x, setReg_zero x, setPred_zero x, fun n v h0 hn => ?_, fun n v h0 hn => ?_, fun n a r hn => ?_⟩,
    btgt_start_unprepared, fun s hr => ⟨exec_movi s 0 5 hr, fun b off => ?_, fun b => ?_⟩⟩
  · exact ⟨reg_setReg_same x n v (Nat.pos_iff_ne_zero.1 h0) hn, fun k hk => reg_setReg_ne x n k v hk⟩
  · exact ⟨pred_setPred_same x n v (Nat.pos_iff_ne_zero.1 h0) hn, fun k hk => pred_setPred_ne x n k v hk⟩
  · exact btgt_setBtgt_same x n _ hn
  · exact ⟨_, _, _, exec_pb s b off, prepare_results s _ _⟩
  · exact ⟨_, _, exec_pba_zero s b, prepare_results s _ _⟩

/-- Settles O56: memory is empty at reset, and the safe tier holds no copy. -/
theorem resetIsCanonical : Obligations.ResetIsCanonical :=
  ⟨Memory.wf_reset, fun _ hc => absurd hc List.not_mem_nil⟩

end Sys2Proof.Proofs
end

section
/-! Matrix commands at issue (R178, R180). -/

namespace Sys2Proof.Proofs
open Sys2Proof.Machine Sys2Proof.Spec Sys2Proof.Laws

/-- The matrix commands of the table are one operation (R178). -/
theorem exec_of_matRow {s : State} {i : Instr} {rd : List Src} {val : Word} (h : matRow s i = some (rd, val)) :
    exec i s = .next (s.matrix i rd val) := by
  unfold matRow at h
  dsimp only at h
  split at h
  case h_1 _ image _ _ _ => cases image <;> cases h <;> rfl
  all_goals cases h <;> rfl

/-- The first accumulator row that a command of user mode names and another context owns (R31, R180). -/
def foreignOf (s : State) (i : Instr) : Option Nat :=
  if s.superMode then none else (accRun s.here i).bind (s.here.foreignRow s.asid)

theorem foreignOf_of_rowsOwn {s : State} {i : Instr} (h : RowsOwn s i) : foreignOf s i = none := by
  unfold foreignOf
  split
  · rfl
  · next hu =>
    rw [Option.bind_eq_none_iff]
    exact h.resolve_left hu

/-- The command as its syllable makes it at issue. -/
def issuedMat (s : State) (i : Instr) (val : Word) (ps : List Nat) : MatCmd :=
  s.newMat (s.matTarget i) i s.curWord val ps (s.actFmt i) (s.engineFloor s.curHall .matrix .hall) s.me.ntid.toNat s.known s.me.pc
    s.asid s.partId s.superMode (match s.here.slice with | some sl => sl.id | none => 0) s.depth

/-- What a command does once its checks have passed and its image has resolved: it enters the queue, or freezes. -/
def enterOrFreeze (s : State) (i : Instr) (val : Word) (ps : List Nat) : State :=
  if (s.hall (s.matTarget i)).matrixFull then s.freeze else (s.enterMat (s.matTarget i) (issuedMat s i val ps)).issue

/-- A command whose rows are its own: its image resolves first, if it has one. -/
def resolveThenEnter (s : State) (i : Instr) (val : Word) : State :=
  match imageOf i with
  | none => enterOrFreeze s i val []
  | some (n, w) => s.withBytes (imageWant w) 64 val n fun ps s => enterOrFreeze s i val ps

theorem resolveThenEnter_ready {s : State} {i : Instr} {val : Word} {ps : List Nat} (h : ImageReady s i val ps) :
    resolveThenEnter s i val = enterOrFreeze s i val ps := by
  unfold ImageReady at h
  unfold resolveThenEnter
  revert h
  cases imageOf i with
  | none => exact fun h => congrArg (enterOrFreeze s i val) h.symm
  | some m => exact fun h => withBytes_accessible s _ _ _ _ ps _ h

/-- A matrix command whose registers can be read, in the order of its checks (R180). -/
theorem matrix_readable {s : State} {i : Instr} {rd : List Src} {val : Word} (hr : Readable s rd) : s.matrix i rd val =
    if s.matIllegal i then s.trapCause .ILLEGAL
    else (foreignOf s i).elim (resolveThenEnter s i val) fun row => s.trapHere (s.foreignInfo s.curHall row) := by
  unfold State.matrix foreignOf
  rw [readingWhen_readable s _ _ _ hr]
  cases s.matIllegal i with
  | true => rfl
  | false =>
    cases s.superMode with
    | true => rfl
    | false =>
      cases accRun s.here i with
      | none => rfl
      | some r => dsimp only [Option.bind_some]; cases s.here.foreignRow s.asid r <;> rfl

theorem find?_runFrom {a n k : Nat} {p : Nat → Bool} (h : (runFrom a n).find? p = some k) : a ≤ k ∧ k < a + n := by
  obtain ⟨j, hj, rfl⟩ := List.mem_map.1 (List.mem_of_find?_eq_some h)
  have := List.mem_range.1 hj
  exact ⟨Nat.le_add_right a j, Nat.add_lt_add_left this a⟩

/-- A foreign row is one of those that the command names. -/
theorem foreignRow_bounds {H : Hall} {asid : Asid} {r : RowRun} {row : Nat} (h : H.foreignRow asid r = some row) :
    r.1 ≤ row ∧ row < r.1 + r.2 := find?_runFrom h

theorem matrixFull_eq_false {H : Hall} (hs : H.sampledMq < 16) (hl : H.mq.length < 16) : H.matrixFull = false := by
  simp [Hall.matrixFull, hs, hl]

theorem matrixFull_eq_true {H : Hall} (h : 16 ≤ H.sampledMq ∨ 16 ≤ H.mq.length) : H.matrixFull = true := by
  simpa [Hall.matrixFull] using h

/-- A Hall whose matrix queue a command has entered. -/
def entered (c : MatCmd) (H : Hall) : Hall :=
  { H with mq := H.mq ++ [c], mqNext := H.mqNext + 1
           issued := match fillOf c.op with | some (b, k) => H.issued.setIfInBounds (bankIdx b) k | none => H.issued }

theorem hall_enterMat (s : State) (h : HallId) (c : MatCmd) : (s.enterMat h c).hall h = entered c (s.hall h) :=
  hall_onHall_same s h (entered c)

/-- A bank's format as issued is that of the command that has entered (R180). -/
theorem bankIssued_enterMat (s : State) (h : HallId) (c : MatCmd) (b : Bool) (k : Bank) (hf : fillOf c.op = some (b, k)) :
    ((s.enterMat h c).hall h).bankIssued b = k := by
  unfold Hall.bankIssued
  rw [hall_enterMat, entered, hf]
  cases b <;> simp [bankIdx]

theorem matrixCommandsEnterTheQueue : MatrixCommandsEnterTheQueue := by
  intro s i rd val ps hrow hr hi hown himg h
  have hexec : exec i s = .next (enterOrFreeze s i val ps) := by
    rw [exec_of_matRow hrow, matrix_readable hr, hi, foreignOf_of_rowsOwn hown, ← resolveThenEnter_ready himg]; rfl
  refine ⟨fun hs hl => ?_, fun hfull => ?_⟩
  · have henter : enterOrFreeze s i val ps = (s.enterMat h (issuedMat s i val ps)).issue :=
      if_neg (by rw [matrixFull_eq_false hs hl]; exact Bool.false_ne_true)
    rw [henter] at hexec
    have hH := hall_enterMat s h (issuedMat s i val ps)
    refine ⟨_, issuedMat s i val ps, hexec, rfl, (congrArg Hall.mq hH :), rfl, rfl, rfl, rfl, rfl, (congrArg Hall.mqNext hH :), rfl, rfl,
      fun b k => bankIssued_enterMat s h (issuedMat s i val ps) b k, (congrArg Hall.work hH :), (congrArg Hall.acc hH :),
      fun g hg => hall_onHall_ne s h g (entered _) hg, onHall_sameMemory s h (entered _) _ _ _ rfl⟩
  · have hfreeze : enterOrFreeze s i val ps = s.freeze := if_pos (matrixFull_eq_true hfull)
    exact ⟨_, hexec.trans (congrArg _ hfreeze), freeze_freezes s⟩

theorem matrixCommandsTrap : MatrixCommandsTrap := by
  intro s i rd val hrow hr hu
  refine ⟨fun hi => ⟨_, ?_, trapHere_traps s _ hu⟩, fun r row hi hm ha hrowAt => ?_⟩
  · rw [exec_of_matRow hrow, matrix_readable hr, hi]; rfl
  · have hf : foreignOf s i = some row := by
      unfold foreignOf
      rw [hm, if_neg Bool.false_ne_true, ha]
      exact hrowAt
    obtain ⟨hlo, hhi⟩ := foreignRow_bounds hrowAt
    refine ⟨_, s.foreignInfo s.curHall row, ?_, trapHere_traps s _ hu, rfl, rfl, hlo, hhi⟩
    rw [exec_of_matRow hrow, matrix_readable hr, hi, hf]; rfl

/-- Settles O34: the eleven commands are one operation, whose checks leave a trap, a freeze or an entry. -/
theorem matrixCommands : Obligations.MatrixCommands := ⟨matrixCommandsEnterTheQueue, matrixCommandsTrap⟩

end Sys2Proof.Proofs
end

section
/-! A strand's turn (R15, R16, R39, R40, R113). -/

namespace Sys2Proof.Proofs
open Sys2Proof.Machine Sys2Proof.Spec Sys2Proof.Laws

theorem step_of_turn {s : State} {st : Strand} (hm : s.measure ≠ []) (hp : (s.hall s.curHall).phase = .strand st) :
    step s = .next (handsOn (s.turn exec s.curHall st) s.curHall st) := by
  unfold step
  rw [if_neg (by simpa using hm), hp]
  rfl

/-- A strand that nothing keeps from its next syllable fetches it (R113). -/
theorem turn_fetches {s : State} {st : Strand} (ex : Instr → State → Out) (h : Turn s st) :
    s.turn ex s.curHall st = (atTurn s st).fetching (State.take ex) := by
  obtain ⟨-, -, hfrozen, hhalted, hending, hreplay, hstall, hjump⟩ := h
  unfold State.turn
  extract_lets t x ending t'
  have hgo : ¬(x.frozen || t.here.halted st) = true := by
    rw [show x.frozen = false from hfrozen, show t.here.halted st = false from hhalted]; exact Bool.false_ne_true
  have hend : ending = false := by
    unfold ending
    split
    · next sl hs => exact hending sl hs
    · rfl
  have hrep : ¬(!x.replay.isEmpty) = true := by
    rw [show x.replay = [] from hreplay]; exact Bool.false_ne_true
  have hcount : ¬x.local_ < x.issueFrom := Nat.not_lt.2 hstall
  have hready : ¬t.here.cycle < x.notBefore := Nat.not_lt.2 hjump
  rw [if_neg hgo, hend, Bool.false_and, if_neg Bool.false_ne_true, if_neg hrep, if_neg hcount, if_neg hready]
  rfl

theorem fetching_of_fetched {s : State} {st : Strand} {ps : List Nat} {s1 : State} (h : Fetched s st ps s1) (k : Word → State → State) :
    (atTurn s st).fetching k = k (s1.wordAtPlaces ps) s1 := by
  unfold State.fetching
  rw [h.places]
  dsimp only
  rw [if_neg (by rw [h.room]; exact Bool.false_ne_true), h.sound]

/-- A syllable that may issue is attempted (R49 to R52, R18). -/
theorem take_attempts {s : State} {w : Word} {c : Ctl} {i : Instr} (ex : Instr → State → Out) (hd : decode w = .ok (c, i))
    (h : MayIssue s w c i) : State.take ex w s = s.attempt ex w c i := by
  unfold State.take
  rw [hd]
  dsimp only
  rw [if_neg, if_neg, if_neg]
  · simpa using h.sync
  · simpa using h.mode
  · simp [h.accepted]

/-- The state of an attempt before the tokens are popped. -/
def attempting (s : State) (w : Word) : State := { s with curWord := w, issued := false, trapped := false, target := none }

/-- What follows an attempt whose effect has left t: the syllable's pushes and its next program counter, or its tokens put back. -/
def concluded (s : State) (w : Word) (c : Ctl) (t : State) : State :=
  if t.issued then t.retire (sliceNo s) c else t.unpop (attempting s w)

/-- An attempt that nothing holds up (R16, R22, R40). -/
theorem attempt_concluded {s : State} {c : Ctl} {i : Instr} (w : Word) (ex : Instr → State → Out)
    (htok : s.here.tokensReady c s.curStrand = true) (hfault : s.curStrand = .M → s.here.mFault = none)
    (hunit : unitBusy i s.me = false) (hguard : s.me.stallShort [.p c.gp.toNat] = false) (hi : (isSliceEnd i && s.guardHolds c) = false) :
    s.attempt ex w c i = concluded s w c
      (if s.guardHolds c then Out.state (ex i (ready s w c)) (ready s w c) else (ready s w c).issue) := by
  unfold State.attempt
  extract_lets s0 id late s1 p t
  have htok' : ¬(!s0.here.tokensReady c s0.curStrand) = true := by
    rw [show s0.here.tokensReady c s0.curStrand = true from htok]; exact Bool.false_ne_true
  have hlate : late = none := by
    unfold late
    split
    · next hm => exact hfault hm
    all_goals rfl
  have hunit' : ¬unitBusy i s0.me = true := ne_true_of_eq_false hunit
  have hguard' : ¬s0.me.stallShort [.p c.gp.toNat] = true := ne_true_of_eq_false hguard
  have hs1 : s1 = s0 := if_neg (ne_true_of_eq_false hi)
  rw [if_neg htok', hlate]
  dsimp only
  rw [if_neg hunit', if_neg hguard']
  clear_value s1
  subst hs1
  rfl

theorem isSliceEnd_of_ne {i : Instr} (h : i ≠ .sliceEnd) : isSliceEnd i = false := by
  unfold isSliceEnd
  split
  · exact absurd rfl h
  · rfl

theorem retire_without_pushes {t : State} {id : Nat} {c : Ctl} (hr : t.here.runs id = true) (hl : c.pl = false) (hp : c.pr = false) :
    t.retire id c = t.onMe fun x => { x with pc := t.target.getD (x.pc + 8), issueFrom := x.local_ + 1 + c.stall.toNat, fetched := false } := by
  unfold State.retire ctlPushes
  rw [hr, hl, hp]
  rfl

/-- Settles O51: the step is the strand's turn, the turn fetches and attempts the syllable, and the attempt concludes by its guard. -/
theorem stepRunsDecoded : Obligations.StepRunsDecoded := by
  intro s st ps s1 c i hturn hf hd hm p done
  have hstep : step s = .next (handsOn (s1.attempt exec (s1.wordAtPlaces ps) c i) s.curHall st) := by
    rw [step_of_turn hturn.booted hturn.phase, turn_fetches exec hturn, fetching_of_fetched hf, take_attempts exec hd hm]
  refine ⟨fun hg hi t ht => ?_, fun hg => ?_, fun t hr hl hp => retire_without_pushes hr hl hp⟩
  · have ha := attempt_concluded (s1.wordAtPlaces ps) exec hm.tokens hm.noFault hm.unit hm.guard (by rw [isSliceEnd_of_ne hi]; rfl)
    rw [hg, if_pos rfl, show Out.state (exec i p) p = t by rw [ht]; rfl] at ha
    rw [hstep, ha]
    refine ⟨fun hissued => ?_, fun hissued => ?_⟩
    · rw [concluded, if_pos hissued]
    · rw [concluded, if_neg (ne_true_of_eq_false hissued)]; rfl
  · have ha := attempt_concluded (s1.wordAtPlaces ps) exec hm.tokens hm.noFault hm.unit hm.guard (by rw [hg, Bool.and_false])
    rw [hg, if_neg Bool.false_ne_true] at ha
    rw [hstep, ha]; rfl

end Sys2Proof.Proofs
end

section
/-! SUPPORT. Events of one Hall: what they leave as it is, and causes that stop its slice. -/

namespace Sys2Proof.Proofs
open Sys2Proof.Machine Sys2Proof.Spec Sys2Proof.Laws

/-! Frames. -/

theorem atHall_refl (s : State) (h : HallId) : AtHall s s h := ⟨fun _ _ => rfl, fun _ => rfl⟩

theorem atHall_trans {s t u : State} {h : HallId} (a : AtHall s t h) (b : AtHall t u h) : AtHall s u h :=
  ⟨fun g hg => (b.halls g hg).trans (a.halls g hg), fun x => (b.bytes x).trans (a.bytes x)⟩

theorem atHall_onHall (s : State) (h : HallId) (f : Hall → Hall) : AtHall s (s.onHall h f) h :=
  ⟨fun g hg => hall_onHall_ne s h g f hg, fun _ => rfl⟩

theorem atHall_onStrand (s : State) (h : HallId) (st : Strand) (f : StrandState → StrandState) : AtHall s (s.onStrand h st f) h :=
  atHall_onHall s h _

/-- A step that changes neither the Halls nor memory. -/
theorem atHall_of_eq {s t : State} (h : HallId) (hh : t.halls = s.halls) (hm : t.mem = s.mem) : AtHall s t h :=
  ⟨fun g _ => by simp only [State.hall, hh], fun _ => by rw [hm]⟩

theorem hall_onStrand_same (s : State) (h : HallId) (st : Strand) (f : StrandState → StrandState) :
    (s.onStrand h st f).hall h = Hall.onStrand (s.hall h) st f := hall_onHall_same s h _

/-! Causes (R392, R393). -/

/-- A strand that a SLICE.END gives back differs in its program counter and its wait. -/
theorem strand_unend (H : Hall) (o : Strand) :
    H.unend.work.strand o = H.work.strand o ∨ ∃ pc, H.unend.work.strand o = (H.work.strand o).backTo pc := by
  unfold Hall.unend
  split
  · exact .inl rfl
  · split
    · exact .inl rfl
    · next e _ =>
      split
      · cases o
        exacts [.inr ⟨e.S, rfl⟩, .inr ⟨e.L, rfl⟩, .inr ⟨e.V, rfl⟩, .inr ⟨e.M, rfl⟩]
      · exact .inl rfl

theorem unend_of_not_ending {H : Hall} (h : ∀ sl, H.slice = some sl → sl.ending = false) : H.unend = H := by
  unfold Hall.unend
  split
  · rfl
  · next sl hs =>
    split
    · rfl
    · rw [h sl hs]; rfl

theorem unend_back (H : Hall) : H.unend.back = H.back := by
  unfold Hall.unend
  split
  · rfl
  · split
    · rfl
    · split <;> rfl

/-- A stop without a rollback in progress records its cause. -/
theorem stopFor_of_no_back {H : Hall} (st : Strand) (i : TrapInfo) (h : H.back = none) : H.stopFor st i =
    { H.unend with
      trap := some { strand := st, info := i, cycle := H.unend.cycle, complete := false, queued := false, told := false, held := none } } := by
  unfold Hall.stopFor
  dsimp only
  rw [unend_back, h]

theorem hall_raise {s : State} {h : HallId} (st : Strand) (i : TrapInfo) (ht : (s.hall h).trap = none) :
    (s.raise h st i).hall h = (s.hall h).stopFor st i := by
  unfold State.raise
  rw [hall_onHall_same, ht]

theorem atHall_raise (s : State) (h : HallId) (st : Strand) (i : TrapInfo) : AtHall s (s.raise h st i) h := atHall_onHall s h _

section
variable {s : State} {h : HallId} (st : Strand) (i : TrapInfo) (ht : (s.hall h).trap = none) (hb : (s.hall h).back = none)
include ht hb

theorem raise_caught : Caught (s.raise h st i) h st i := by
  have e := (hall_raise st i ht).trans (stopFor_of_no_back st i hb)
  exact ⟨_, congrArg Hall.trap e, rfl, rfl⟩

theorem strand_raise (o : Strand) : (s.raise h st i).strand h o = s.strand h o ∨ ∃ pc, (s.raise h st i).strand h o = (s.strand h o).backTo pc := by
  have e : (s.raise h st i).strand h o = (s.hall h).unend.work.strand o := by
    unfold State.strand
    rw [hall_raise st i ht, stopFor_of_no_back st i hb]
  rw [e]
  exact strand_unend (s.hall h) o

/-- A stop of a slice that SLICE.END is not ending leaves its work alone. -/
theorem work_raise (he : ∀ sl, (s.hall h).slice = some sl → sl.ending = false) : ((s.raise h st i).hall h).work = (s.hall h).work := by
  rw [hall_raise st i ht, stopFor_of_no_back st i hb, unend_of_not_ending he]

end

/-- A stop keeps every strand's scalar registers. -/
theorem scalars_raise {s : State} {h : HallId} (st : Strand) (i : TrapInfo) (ht : (s.hall h).trap = none) (hb : (s.hall h).back = none) (o : Strand) :
    ((s.raise h st i).strand h o).s = (s.strand h o).s := by
  obtain e | ⟨pc, e⟩ := strand_raise st i ht hb o
  · rw [e]
  · rw [e]; rfl

end Sys2Proof.Proofs
end

section
/-! Waits that end, prefetched blocks, matched commands and sync groups (R18, R147, R149, R224, R305, R337). -/

namespace Sys2Proof.Proofs
open Sys2Proof.Machine Sys2Proof.Spec Sys2Proof.Laws

/-! A cause that strikes a strand whose wait is over. -/

section
variable {s : State} {h : HallId} (ht : (s.hall h).trap = none) (hb : (s.hall h).back = none)
include ht hb

theorem raise_after_wait (st : Strand) (i : TrapInfo) (w : Wait → Wait) :
    let t := (s.onStrand h st fun x => { x with wait := w x.wait }).raise h st i
    Caught t h st i ∧ (t.strand h st).s = (s.strand h st).s ∧ AtHall s t h := by
  intro t
  have hH := hall_onStrand_same s h st fun x => { x with wait := w x.wait }
  have ht' := (congrArg Hall.trap hH).trans ht
  have hb' := (congrArg Hall.back hH).trans hb
  refine ⟨raise_caught st i ht' hb', ?_, atHall_trans (atHall_onStrand s h st _) (atHall_raise _ h st i)⟩
  rw [scalars_raise st i ht' hb', strand_onStrand_same]

end

section
variable {s : State} {h : HallId} (ht : (s.hall h).trap = none)
include ht

theorem exec_barTimeout_due {sl : Slice} {t0 : Nat} (hs : (s.hall h).slice = some sl) (hw : (s.strand h .S).wait.since = some t0)
    (h0 : (s.part sl.part).barTmo.toNat ≠ 0) (hdue : (s.part sl.part).barTmo.toNat * 5544000 ≤ (s.strand h .S).wait.until_) :
    exec (.barTimeout h) s =
      .next ((s.onStrand h .S fun x => { x with wait := { x.wait with until_ := 0, since := none } }).raise h .S { cause := .BAR_TIMEOUT }) := by
  change execBarTimeout h s = _
  unfold execBarTimeout
  simp [hs, hw, h0, hdue, ht]

theorem exec_queueStall_due {t0 : Nat} (hw : (s.strand h .S).wait.since = some t0)
    (h64 : (s.strand h .S).wait.stage = 64) (hdue : t0 + 5544000000 ≤ s.tick) :
    exec (.queueStall h) s = .next ((s.onStrand h .S fun x => { x with wait := .none }).raise h .S { cause := .QUEUE_STALL }) := by
  change execQueueStall h s = _
  unfold execQueueStall
  simp [hw, h64, hdue, ht]

theorem exec_budget_due {sl : Slice} (hs : (s.hall h).slice = some sl) (hl : sl.left = 0) (hc : (s.hall h).charging = true) :
    exec (.budget h) s = .next (s.raise h .S { cause := .BUDGET }) := by
  change Host.Outcome.next (s.overBudget h) = _
  unfold State.overBudget
  simp [hs, hl, ht, hc]

end

/-- A slice whose budget is being charged has no SLICE.END in progress (R305). -/
theorem not_ending_of_charging {H : Hall} (hc : H.charging = true) (sl : Slice) (hs : H.slice = some sl) : sl.ending = false := by
  unfold Hall.charging at hc
  rw [hs] at hc
  simp only [Bool.and_eq_true, Bool.not_eq_true'] at hc
  exact hc.1.1.1.2

/-! Streams. -/

theorem stream_setStream_same (W : Work) (q : Nat) (x : Stream) (hq : q < 8) : (W.setStream q x).stream q = x := by
  simp [Work.stream, Work.setStream, hq]

theorem stream_pushBlock (s : State) (h : HallId) (q : Nat) (b : Block) (hq : q < 8) :
    ((s.pushBlock h q b).hall h).work.stream q =
      { (s.hall h).work.stream q with buf := ((s.hall h).work.stream q).buf ++ [b] } := by
  have e : ((s.pushBlock h q b).hall h).work =
      (s.hall h).work.setStream q { (s.hall h).work.stream q with buf := ((s.hall h).work.stream q).buf ++ [b] } :=
    congrArg Hall.work (hall_onHall_same s h _)
  rw [e, stream_setStream_same _ _ _ hq]

/-- The next block of a stream whose bytes resolve and can be read enters its buffer. -/
theorem prefetch_pushes {s s1 s2 : State} {h : HallId} {q : Nat} {sl : Slice} {j : Nat} {ps : List Nat} {bs : Bytes}
    (hs : (s.hall h).slice = some sl) (hj : ((s.hall h).work.stream q).nextBlock = some j)
    (hres : s.engineResolve { hall := h, asid := sl.asid, part := sl.part, super := sl.super, slice := some sl.id } sl.wsets
      { wantEngineRead with width := 4 } (runFrom (streamAddr ((s.hall h).work.stream q).desc j).toNat
        (streamBlock ((s.hall h).work.stream q).desc)) = (.ok ps, s1))
    (hread : s1.engineRead h .matrix (streamKey q j) sl.asid sl.part (s1.readerOf h .L (s1.strand h .L).stores) ps = (.ok bs, s2)) :
    s.prefetch h q = (s2.pushBlock h q { bytes := bs, fault := none }).dropFar h .matrix (streamKey q j) := by
  unfold State.prefetch
  dsimp only
  rw [hs]
  dsimp only
  rw [hj]
  dsimp only
  rw [hres]
  dsimp only
  rw [hread]

/-! The checker. -/

/-- What the checker finds of a command: its injected difference, or an upset's (R210, R337). -/
theorem checkMatch_code (s : State) (h : HallId) (bad : Nat) :
    (bad ≠ 0 → bad ≠ uncounted → (s.checkMatch h bad).1 = bad) ∧
      (bad = 0 ∨ bad = uncounted → (s.checkMatch h bad).1 = if Config.upset s.free then 6 else 0) := by
  unfold State.checkMatch
  refine ⟨fun h0 hu => ?_, fun hb => ?_⟩
  · rw [if_neg (not_or.2 ⟨h0, hu⟩)]
  · rw [if_pos hb]

theorem checkMatch_frame (s : State) (h : HallId) (bad : Nat) :
    ((s.checkMatch h bad).2.hall h).cq = (s.hall h).cq ∧ ((s.checkMatch h bad).2.hall h).work = (s.hall h).work ∧
      AtHall s (s.checkMatch h bad).2 h := by
  unfold State.checkMatch
  split
  · exact ⟨rfl, rfl, atHall_of_eq h rfl rfl⟩
  · have e := hall_onHall_same s h fun H => { H with errKind := 0, errHit := false }
    exact ⟨(congrArg Hall.cq e :), (congrArg Hall.work e :), atHall_onHall s h fun H => { H with errKind := 0, errHit := false }⟩

/-- A command that the checker has matched. -/
def matched (id code : Nat) (c : CopyCmd) : CopyCmd := if c.id = id then { c with matchAt := none, bad := code } else c

theorem matchHead_copy {s : State} {h : HallId} {c : CopyCmd} {rest : List CopyCmd} {m : Nat} (hq : (s.hall h).cq = c :: rest)
    (hm : c.matchAt = some m) (hle : m ≤ (s.hall h).cycle) :
    s.matchHead h = (s.checkMatch h c.bad).2.onHall h fun H => { H with cq := H.cq.map (matched c.id (s.checkMatch h c.bad).1) } := by
  have hfind : (s.hall h).cq.find? (fun c => reached (s.hall h).cycle c.matchAt) = some c := by
    rw [hq]
    exact List.find?_cons_of_pos (by simpa [reached, hm] using hle)
  unfold State.matchHead
  dsimp only
  rw [hfind]
  rfl

theorem checkerMatch_copy {s : State} {h : HallId} {c : CopyCmd} {rest : List CopyCmd} {m : Nat} (hq : (s.hall h).cq = c :: rest)
    (hm : c.matchAt = some m) (hle : m ≤ (s.hall h).cycle) :
    ∃ t y, exec (.checkerMatch h) s = .next t ∧ (t.hall h).cq.head? = some y ∧ y.id = c.id ∧ y.matchAt = none ∧
      (c.bad ≠ 0 → c.bad ≠ uncounted → y.bad = c.bad) ∧ (c.bad = 0 ∨ c.bad = uncounted → y.bad = if Config.upset s.free then 6 else 0) ∧
      (t.hall h).cq.length = (s.hall h).cq.length ∧ (t.hall h).work = (s.hall h).work ∧ AtHall s t h := by
  obtain ⟨hcq, hwork, hframe⟩ := checkMatch_frame s h c.bad
  obtain ⟨hinjected, hupset⟩ := checkMatch_code s h c.bad
  let code := (s.checkMatch h c.bad).1
  have hH := hall_onHall_same (s.checkMatch h c.bad).2 h fun H => { H with cq := H.cq.map (matched c.id code) }
  have hcq' := (congrArg Hall.cq hH).trans (congrArg (List.map (matched c.id code)) (hcq.trans hq))
  have hself : matched c.id code c = { c with matchAt := none, bad := code } := if_pos rfl
  refine ⟨_, matched c.id code c, congrArg Host.Outcome.next (matchHead_copy hq hm hle), ?_, ?_, ?_, fun h0 hu => ?_, fun hb => ?_, ?_, ?_, ?_⟩
  · rw [hcq']; rfl
  · rw [hself]
  · rw [hself]
  · rw [hself]; exact hinjected h0 hu
  · rw [hself]; exact hupset hb
  · rw [hcq', hq]; simp
  · exact (congrArg Hall.work hH).trans hwork
  · exact atHall_trans hframe (atHall_onHall _ h _)

/-! Sync groups. -/

/-- The state in which a strand of a Hall tries its sync-marked syllable. -/
def trying (s : State) (h : HallId) (st : Strand) : State := { s with curHall := h, curStrand := st }

/-- A sync-marked NOP only issues and goes on to the next syllable (R18, R15). -/
theorem attempt_syncNop (s : State) (h : HallId) (st : Strand) (w : Word) (hf : (s.hall h).mFault = none) :
    (trying s h st).attempt execSyllable w syncOnly .nop =
      (attempting (trying s h st) w).issue.retire (sliceNo (trying s h st)) syncOnly := by
  have hg : (trying s h st).guardHolds syncOnly = true := rfl
  rw [attempt_concluded (s := trying s h st) (c := syncOnly) w execSyllable rfl (fun _ => hf) rfl (readable_constant (trying s h st) (.p 0) rfl) rfl, hg]
  rfl

/-- What follows the issue of a sync-marked NOP leaves the fault that M may have to meet as it is. -/
theorem retire_syncOnly (t : State) (id : Nat) :
    (t.retire id syncOnly).issued = t.issued ∧ (t.retire id syncOnly).here.mFault = t.here.mFault ∧
      (t.retire id syncOnly).curHall = t.curHall := by
  cases hr : t.here.runs id with
  | false => simp [State.retire, hr]
  | true => rw [retire_without_pushes hr rfl rfl]; simp

/-- Strands at sync-marked NOPs go together (R18). -/
theorem chain_syncNops (h : HallId) (at_ : List (Strand × Word × Ctl × Instr)) (hat : ∀ e ∈ at_, e.2.2 = (syncOnly, .nop)) (s : State)
    (hf : (s.hall h).mFault = none) :
    (at_.foldl (fun (r : Bool × State) e =>
      let t := State.attempt execSyllable { r.2 with curHall := h, curStrand := e.1 } e.2.1 e.2.2.1 e.2.2.2
      (r.1 && t.issued, t)) (true, s)).1 = true := by
  induction at_ generalizing s with
  | nil => rfl
  | cons e es ih =>
    obtain ⟨st, w, c, i⟩ := e
    obtain ⟨rfl, rfl⟩ : c = syncOnly ∧ i = .nop := by simpa using hat _ List.mem_cons_self
    have ha := attempt_syncNop s h st w hf
    obtain ⟨hissued, hfault, hhall⟩ := retire_syncOnly (attempting (trying s h st) w).issue (sliceNo (trying s h st))
    rw [← ha] at hissued hfault hhall
    rw [List.foldl_cons]
    have hi : (State.attempt execSyllable { s with curHall := h, curStrand := st } w syncOnly .nop).issued = true := hissued
    dsimp only
    rw [hi]
    refine ih (fun e he => hat e (List.mem_cons_of_mem _ he)) _ ?_
    have hh : (State.attempt execSyllable (trying s h st) w syncOnly .nop).curHall = h := hhall
    have := hfault.trans hf
    unfold State.here at this
    rwa [hh] at this

theorem ring_atSync (s : State) (h : HallId) (f : Strand → Word) (hat : ∀ st, s.atSync h st = some (f st, syncOnly, .nop)) :
    (ring.filterMap fun st => (s.atSync h st).map fun e => (st, e)) = ring.map fun st => (st, f st, syncOnly, .nop) := by
  simp only [hat]
  rfl

theorem syncGroup_goes {s : State} {h : HallId} (hat : ∀ st, ∃ w, s.atSync h st = some (w, syncOnly, .nop)) (hf : (s.hall h).mFault = none) :
    ∃ t, exec (.syncGroupIssue h) s = .next t ∧ (t.hall h).syncGo = true := by
  choose f hf' using hat
  refine ⟨_, rfl, ?_⟩
  unfold State.syncTrial
  rw [ring_atSync s h f hf']
  extract_lets at_ one chain keep
  by_cases hg : (s.hall h).syncGo = true
  · rw [if_pos (.inr hg)]; exact hg
  · have hchain : chain.1 = true := chain_syncNops h at_ (by simp [at_]) s hf
    rw [if_neg (by simp [at_, ring, hg]), if_pos hchain, hall_onHall_same]

theorem syncGroup_waits {s : State} {h : HallId} (hat : ∃ st, s.atSync h st = none) : exec (.syncGroupIssue h) s = .next s := by
  obtain ⟨st, hst⟩ := hat
  have hlt : (ring.filterMap fun st => (s.atSync h st).map fun e => (st, e)).length < 4 := by
    refine lt_of_le_of_ne (List.length_filterMap_le _ ring) fun he => ?_
    have hsome := List.filterMap_length_eq_length.1 he st (by cases st <;> simp [ring])
    rw [hst] at hsome
    exact absurd hsome (by simp)
  change Host.Outcome.next (s.syncTrial execSyllable h) = _
  unfold State.syncTrial
  dsimp only
  rw [if_pos (.inl hlt)]

/-- Settles O38: the raise that ends a wait keeps the registers, the sample's block is appended, the first due match is the queue's head,
and four sync-marked NOPs issue in turn. -/
theorem waitsAndMatches : Obligations.WaitsAndMatches := by
  intro s h
  refine ⟨fun t0 sl hs ht hb hw => ⟨fun h0 hdue => ?_, fun h64 hdue => ?_⟩, fun sl hs ht hb hl hc => ?_, fun q sl j ps s1 s2 bs hs hj => ?_,
    fun c rest m hq hm hle => checkerMatch_copy hq hm hle, syncGroup_goes, fun hat => ⟨s, syncGroup_waits hat, rfl⟩⟩
  · exact ⟨_, exec_barTimeout_due ht hs hw h0 hdue, raise_after_wait ht hb .S _ fun w => { w with until_ := 0, since := none }⟩
  · exact ⟨_, exec_queueStall_due ht hw h64 hdue, raise_after_wait ht hb .S _ fun _ => .none⟩
  · exact ⟨_, exec_budget_due ht hs hl hc, raise_caught .S _ ht hb, work_raise .S _ ht hb (not_ending_of_charging hc), atHall_raise s h .S _⟩
  · intro x u hres hread
    exact ⟨_, congrArg Host.Outcome.next (prefetch_pushes hs hj hres hread), stream_pushBlock s2 h q.toNat _ q.isLt⟩

end Sys2Proof.Proofs
end

section
/-! SUPPORT. One strand's record: writes to it in a row, a slot that leaves it, a result that is put into it. -/

namespace Sys2Proof.Proofs
open Sys2Proof.Machine Sys2Proof.Spec Sys2Proof.Laws

/-! Writes to one Hall, or to one strand, in a row. -/

theorem onHall_onHall (s : State) (h : HallId) (f g : Hall → Hall) : (s.onHall h f).onHall h g = s.onHall h fun H => g (f H) := by
  unfold State.onHall
  rw [hall_setHall_same]
  unfold State.setHall
  dsimp only
  rw [Vector.set_set]

theorem onHall_id (s : State) (h : HallId) : s.onHall h (fun H => H) = s := by
  unfold State.onHall State.setHall State.hall
  rw [Vector.set_getElem_self]

theorem setStrand_setStrand (w : Work) (st : Strand) (x y : StrandState) : (w.setStrand st x).setStrand st y = w.setStrand st y := by
  cases st <;> rfl

theorem setStrand_self (w : Work) (st : Strand) : w.setStrand st (w.strand st) = w := by cases st <;> rfl

theorem onStrand_onStrand (s : State) (h : HallId) (st : Strand) (f g : StrandState → StrandState) :
    (s.onStrand h st f).onStrand h st g = s.onStrand h st fun x => g (f x) := by
  unfold State.onStrand
  rw [onHall_onHall]
  refine congrArg (s.onHall h) (funext fun H => ?_)
  simp only [Hall.onStrand, strand_setStrand_same, setStrand_setStrand]

theorem onStrand_id (s : State) (h : HallId) (st : Strand) : s.onStrand h st (fun x => x) = s := by
  refine .trans (congrArg (s.onHall h) (funext fun H => ?_)) (onHall_id s h)
  simp only [Hall.onStrand, setStrand_self]

theorem strandOnly_trans {s t u : State} {h : HallId} {st : Strand} (a : StrandOnly s t h st) (b : StrandOnly t u h st) : StrandOnly s u h st :=
  ⟨atHall_trans a.at_ b.at_, fun o ho => (b.strands o ho).trans (a.strands o ho), b.weights.trans a.weights, b.banks.trans a.banks,
    b.streams.trans a.streams, b.toks.trans a.toks, b.evs.trans a.evs, b.acc.trans a.acc⟩

theorem strandOnly_onStrand (s : State) (h : HallId) (st : Strand) (f : StrandState → StrandState) : StrandOnly s (s.onStrand h st f) h st where
  at_ := atHall_onStrand s h st f
  strands o ho := by
    unfold State.strand
    rw [hall_onStrand_same]
    exact strand_setStrand_ne _ st o _ ho
  weights := by rw [hall_onStrand_same]; exact setStrand_weights _ st _
  banks := by rw [hall_onStrand_same]; exact setStrand_banks _ st _
  streams := by rw [hall_onStrand_same]; exact setStrand_streams _ st _
  toks := by rw [hall_onStrand_same]; exact setStrand_toks _ st _
  evs := by rw [hall_onStrand_same]; exact setStrand_evs _ st _
  acc := by rw [hall_onStrand_same]; rfl

theorem sameShared_onStrand (s : State) (h : HallId) (st : Strand) (f : StrandState → StrandState) :
    SameShared (s.hall h).work ((s.onStrand h st f).hall h).work := by
  rw [hall_onStrand_same]
  exact ⟨setStrand_tiles _ st _, setStrand_shapes _ st _, setStrand_masks _ st _⟩

/-! Renewals (R140, R344): what a strand hears changes its clock and what it has heard, and nothing that a program can read in it. -/

/-- `y` is `x` after it has heard of stores. -/
structure Hears (x y : StrandState) : Prop where
  own : SameOwn x y
  pends : y.pends = x.pends
  slots : y.slots = x.slots
  replay : y.replay = x.replay
  wait : y.wait = x.wait

theorem hears_refl (x : StrandState) : Hears x x := ⟨⟨rfl, rfl, rfl, rfl⟩, rfl, rfl, rfl, rfl⟩

theorem sameOwn_trans {x y z : StrandState} (a : SameOwn x y) (b : SameOwn y z) : SameOwn x z := by
  obtain ⟨as, ap, ab, af⟩ := a
  obtain ⟨bs, bp, bb, bf⟩ := b
  exact ⟨bs.trans as, bp.trans ap, bb.trans ab, bf.trans af⟩

theorem hears_trans {x y z : StrandState} (a : Hears x y) (b : Hears y z) : Hears x z :=
  ⟨sameOwn_trans a.own b.own, b.pends.trans a.pends, b.slots.trans a.slots, b.replay.trans a.replay, b.wait.trans a.wait⟩

/-- `t` is `s` after the strand has heard of stores. -/
def Heard (s t : State) (h : HallId) (st : Strand) : Prop := ∃ g, t = s.onStrand h st g ∧ ∀ x, Hears x (g x)

theorem heard_refl (s : State) (h : HallId) (st : Strand) : Heard s s h st := ⟨fun x => x, (onStrand_id s h st).symm, hears_refl⟩

theorem heard_trans {s t u : State} {h : HallId} {st : Strand} (a : Heard s t h st) (b : Heard t u h st) : Heard s u h st := by
  obtain ⟨f, rfl, hf⟩ := a
  obtain ⟨g, rfl, hg⟩ := b
  exact ⟨fun x => g (f x), onStrand_onStrand s h st f g, fun x => hears_trans (hf x) (hg (f x))⟩

theorem heard_renew (s : State) (h : HallId) (st : Strand) (x : Scope) : Heard s (s.renew h st x) h st := by
  cases x
  case strand => exact heard_refl s h st
  all_goals exact ⟨_, rfl, fun y => ⟨⟨rfl, rfl, rfl, rfl⟩, rfl, rfl, rfl, rfl⟩⟩

theorem heard_renewalsDue (s : State) (h : HallId) (st : Strand) : Heard s (s.renewalsDue h st) h st := by
  have hfold : ∀ (rs : List (Nat × Scope)) (t : State), Heard t (rs.foldl (fun s r => s.renew h st r.2) t) h st := by
    intro rs
    induction rs with
    | nil => exact fun t => heard_refl t h st
    | cons r rs ih => exact fun t => heard_trans (heard_renew t h st r.2) (ih _)
  refine heard_trans (t := s.onStrand h st fun y => { y with renewals := y.renewals.filter fun r => !y.readsBefore r.1 }) ?_ (hfold _ _)
  exact ⟨_, rfl, fun y => ⟨⟨rfl, rfl, rfl, rfl⟩, rfl, rfl, rfl, rfl⟩⟩

/-- A write to a strand's record, after which the strand hears of stores. -/
theorem onStrand_renewalsDue (s : State) (h : HallId) (st : Strand) (f : StrandState → StrandState) :
    ∃ g : StrandState → StrandState, (s.onStrand h st f).renewalsDue h st = s.onStrand h st (fun x => g (f x)) ∧ ∀ x, Hears x (g x) := by
  obtain ⟨g, hg, hears⟩ := heard_renewalsDue (s.onStrand h st f) h st
  exact ⟨g, hg.trans (onStrand_onStrand s h st f g), hears⟩

/-- A slot that leaves its strand leaves the rest of its record but what the strand hears then. -/
theorem freeSlot_eq (s : State) (h : HallId) (st : Strand) (seq : Nat) : ∃ g : StrandState → StrandState,
    s.freeSlot h st seq = s.onStrand h st (fun x => g { x with slots := x.slots.filter fun t => t.seq != seq }) ∧ ∀ x, Hears x (g x) :=
  onStrand_renewalsDue s h st fun x => { x with slots := x.slots.filter fun t => t.seq != seq }

/-! Cells. -/

theorem cellsPut_ssetAll {w : Nat} (cs : List (Nat × BitVec w)) (m : SMap w) (h : (cs.map (·.1)).Nodup) : CellsPut m (ssetAll m cs) cs := by
  refine ⟨?_, fun k hk => sget_ssetAll_ne cs m k hk⟩
  induction cs generalizing m with
  | nil => exact fun c hc => absurd hc List.not_mem_nil
  | cons d ds ih =>
    rw [List.map_cons, List.nodup_cons] at h
    obtain ⟨hd, hds⟩ := h
    rintro c (_ | ⟨_, hc⟩)
    · refine (sget_ssetAll_ne ds _ d.1 fun e he heq => hd ?_).trans (sget_sset_same m d.1 d.2)
      exact heq ▸ List.mem_map_of_mem he
    · exact ih _ hds c hc

/-! Results. -/

theorem reg_setReg_kept (x : StrandState) (n : Nat) (v : Word) (hn : n < 64) : (x.setReg n v).reg n = kept n v := by
  unfold kept
  split
  · next h => rw [h]; exact reg_zero _
  · next h => exact reg_setReg_same x n v h hn

theorem pred_setPred_or (x : StrandState) (n : Nat) (v : Bool) (hn : n < 8) : (x.setPred n v).pred n = (n == 0 || v) := by
  by_cases h : n = 0
  · rw [h]; exact pred_zero _
  · simp [pred_setPred_same x n v h hn, h]

theorem shape_set_same (W : Work) (n : Nat) (v : BitVec 16) (hn : n < 32) : ({ W with shapes := W.shapes.setIfInBounds n v } : Work).shape n = v := by
  simp [Work.shape, hn]

theorem shape_set_ne (W : Work) (n m : Nat) (v : BitVec 16) (hm : m ≠ n) :
    ({ W with shapes := W.shapes.setIfInBounds n v } : Work).shape m = W.shape m := by
  simp [Work.shape, Ne.symm hm]

/-- A result that is put into a strand's record `x'` and the shared registers `W'`, which read as before. -/
theorem written_of_put {s t : State} {h : HallId} {st : Strand} {u : Upd} {x' : StrandState} {W' : Work} (hu : OneResult u)
    (honly : StrandOnly s t h st) (hx : SameOwn (s.strand h st) x') (hy : t.strand h st = x'.put u)
    (hW : SameShared (s.hall h).work W') (hX : SameShared (W'.put u) (t.hall h).work) : Written s t h st u := by
  refine ⟨honly, ?_⟩
  obtain ⟨hs, hp, hb, hf⟩ := hx
  obtain ⟨htiles, hshapes, hmasks⟩ := hW
  obtain ⟨xtiles, xshapes, xmasks⟩ := hX
  have hreg : ∀ m, x'.reg m = (s.strand h st).reg m := fun m => by simp only [StrandState.reg, hs]
  have hpred : ∀ m, x'.pred m = (s.strand h st).pred m := fun m => by simp only [StrandState.pred, hp]
  have hbtgt : ∀ m, x'.btgt m = (s.strand h st).btgt m := fun m => by simp only [StrandState.btgt, hb]
  have hshape : ∀ m, W'.shape m = (s.hall h).work.shape m := fun m => by simp only [Work.shape, hshapes]
  cases u with
  | sreg n v =>
    have hy' : t.strand h st = x'.setReg n v := hy
    have hrest : (x'.setReg n v).p = x'.p ∧ (x'.setReg n v).b = x'.b ∧ (x'.setReg n v).nflags = x'.nflags := by
      unfold StrandState.setReg; split <;> exact ⟨rfl, rfl, rfl⟩
    obtain ⟨rp, rb, rf⟩ := hrest
    refine ⟨?_, fun m hm => ?_, ?_, ?_, ?_, xtiles.trans htiles, xshapes.trans hshapes, xmasks.trans hmasks⟩
    · rw [hy', reg_setReg_kept x' n v hu]
    · rw [hy', reg_setReg_ne x' n m v hm, hreg]
    · rw [hy', rp, hp]
    · rw [hy', rb, hb]
    · rw [hy', rf, hf]
  | preg n v =>
    have hy' : t.strand h st = x'.setPred n v := hy
    have hrest : (x'.setPred n v).s = x'.s ∧ (x'.setPred n v).b = x'.b ∧ (x'.setPred n v).nflags = x'.nflags := by
      unfold StrandState.setPred; split <;> exact ⟨rfl, rfl, rfl⟩
    obtain ⟨rs, rb, rf⟩ := hrest
    refine ⟨?_, fun m hm => ?_, ?_, ?_, ?_, xtiles.trans htiles, xshapes.trans hshapes, xmasks.trans hmasks⟩
    · rw [hy', pred_setPred_or x' n v hu]
    · rw [hy', pred_setPred_ne x' n m v hm, hpred]
    · rw [hy', rs, hs]
    · rw [hy', rb, hb]
    · rw [hy', rf, hf]
  | btgt n a r =>
    have hy' : t.strand h st = x'.setBtgt n { addr := a, prepared := true, ready := r } := hy
    refine ⟨?_, fun m hm => ?_, ?_, ?_, ?_, xtiles.trans htiles, xshapes.trans hshapes, xmasks.trans hmasks⟩
    · rw [hy', btgt_setBtgt_same x' n _ hu]
    · rw [hy', btgt_setBtgt_ne x' n m _ hm, hbtgt]
    · rw [hy']; exact hs
    · rw [hy']; exact hp
    · rw [hy']; exact hf
  | flags f =>
    have hy' : t.strand h st = x'.setFlags f := hy
    refine ⟨?_, ?_, ?_, ?_, xtiles.trans htiles, xshapes.trans hshapes, xmasks.trans hmasks⟩
    · rw [hy', ← hf]; rfl
    · rw [hy']; exact hs
    · rw [hy']; exact hp
    · rw [hy']; exact hb
  | tile cells =>
    have hy' : t.strand h st = x' := hy
    refine ⟨?_, xshapes.trans hshapes, xmasks.trans hmasks, hy' ▸ ⟨hs, hp, hb, hf⟩⟩
    rw [xtiles, ← htiles]
    exact cellsPut_ssetAll cells W'.tiles hu
  | mask bits =>
    have hy' : t.strand h st = x' := hy
    refine ⟨?_, xshapes.trans hshapes, xtiles.trans htiles, hy' ▸ ⟨hs, hp, hb, hf⟩⟩
    rw [xmasks, ← hmasks]
    exact cellsPut_ssetAll bits W'.masks hu
  | shape n v =>
    have hy' : t.strand h st = x' := hy
    have hX : ∀ m, (t.hall h).work.shape m = ({ W' with shapes := W'.shapes.setIfInBounds n v } : Work).shape m := fun m => by
      unfold Work.shape
      rw [xshapes]; rfl
    refine ⟨?_, fun m hm => ?_, xtiles.trans htiles, xmasks.trans hmasks, hy' ▸ ⟨hs, hp, hb, hf⟩⟩
    · rw [hX, shape_set_same W' n v hu]
    · rw [hX, shape_set_ne W' n m v hm, hshape]
  | count c tid n => exact hu.elim
  | ntid v => exact hu.elim
  | bind q d => exact hu.elim
  | renew sc => exact hu.elim
  | learn c => exact hu.elim

theorem strand_put (W : Work) (u : Upd) (o : Strand) : (W.put u).strand o = W.strand o := by cases u <;> cases o <;> rfl

/-- A slice whose regions' copies of a strand (R231) take a result too. -/
def snapped (st : Strand) (seq : Nat) (u : Upd) (sl : Slice) : Slice :=
  { sl with regions := sl.regions.map fun r => r.setSnap st ((r.snap st).put seq u) }

/-- A single result changes its strand's record, the copies of it and, for tiles, masks and shapes, what the strands of its Hall share. -/
theorem putUpd_result (s : State) (h : HallId) (st : Strand) (seq : Nat) {u : Upd} (hu : OneResult u) :
    s.putUpd h st seq u = s.onHall h fun H =>
      { H with work := (H.work.setStrand st ((H.work.strand st).put u)).put u, slice := H.slice.map (snapped st seq u) } := by
  refine .trans ?_ (onHall_onHall s h (fun H => { H.onStrand st (·.put u) with slice := H.slice.map (snapped st seq u) }) (Hall.onWork · fun W => W.put u))
  cases u with
  | sreg _ _ | preg _ _ | btgt _ _ _ | flags _ | tile _ | mask _ | shape _ _ => rfl
  | count _ _ _ | ntid _ | bind _ _ | renew _ | learn _ => exact hu.elim

theorem result_keeps_shared {u : Upd} (hu : OneResult u) (W : Work) :
    (W.put u).weights = W.weights ∧ (W.put u).banks = W.banks ∧ (W.put u).streams = W.streams ∧ (W.put u).toks = W.toks ∧ (W.put u).evs = W.evs := by
  cases u with
  | bind _ _ => exact hu.elim
  | _ => exact ⟨rfl, rfl, rfl, rfl, rfl⟩

theorem strand_putUpd (s : State) (h : HallId) (st : Strand) (seq : Nat) {u : Upd} (hu : OneResult u) :
    (s.putUpd h st seq u).strand h st = (s.strand h st).put u := by
  have e := putUpd_result s h st seq hu
  unfold State.strand
  rw [e, hall_onHall_same]
  dsimp only
  rw [strand_put, strand_setStrand_same]

theorem strandOnly_putUpd (s : State) (h : HallId) (st : Strand) (seq : Nat) {u : Upd} (hu : OneResult u) :
    StrandOnly s (s.putUpd h st seq u) h st := by
  have e := putUpd_result s h st seq hu
  obtain ⟨hweights, hbanks, hstreams, htoks, hevs⟩ := result_keeps_shared hu ((s.hall h).work.setStrand st ((s.strand h st).put u))
  have hH := (congrArg (State.hall · h) e).trans (hall_onHall_same s h _)
  refine ⟨e ▸ atHall_onHall s h _, fun o ho => ?_, ?_, ?_, ?_, ?_, ?_, (congrArg Hall.acc hH :)⟩
  · refine (congrArg (fun H : Hall => H.work.strand o) hH).trans ?_
    exact (strand_put _ u o).trans (strand_setStrand_ne _ st o _ ho)
  · exact (congrArg (fun H : Hall => H.work.weights) hH).trans (hweights.trans (setStrand_weights _ st _))
  · exact (congrArg (fun H : Hall => H.work.banks) hH).trans (hbanks.trans (setStrand_banks _ st _))
  · exact (congrArg (fun H : Hall => H.work.streams) hH).trans (hstreams.trans (setStrand_streams _ st _))
  · exact (congrArg (fun H : Hall => H.work.toks) hH).trans (htoks.trans (setStrand_toks _ st _))
  · exact (congrArg (fun H : Hall => H.work.evs) hH).trans (hevs.trans (setStrand_evs _ st _))

/-- A result that is put after a write to its strand's record that leaves the registers as they are (R20). -/
theorem written_putUpd (s : State) (h : HallId) (st : Strand) (seq : Nat) {u : Upd} (hu : OneResult u) {f : StrandState → StrandState}
    (hf : SameOwn (s.strand h st) (f (s.strand h st))) : Written s ((s.onStrand h st f).putUpd h st seq u) h st u := by
  have hstrand := (strand_putUpd (s.onStrand h st f) h st seq hu).trans (congrArg (·.put u) (strand_onStrand_same s h st f))
  have e := putUpd_result (s.onStrand h st f) h st seq hu
  refine written_of_put hu (strandOnly_trans (strandOnly_onStrand s h st f) (strandOnly_putUpd _ h st seq hu)) hf hstrand
    (W' := ((s.onStrand h st f).hall h).work.setStrand st (((s.onStrand h st f).strand h st).put u)) ?_ ?_
  · obtain ⟨htiles, hshapes, hmasks⟩ := sameShared_onStrand s h st f
    exact ⟨(setStrand_tiles _ st _).trans htiles, (setStrand_shapes _ st _).trans hshapes, (setStrand_masks _ st _).trans hmasks⟩
  · rw [e, hall_onHall_same]
    exact ⟨rfl, rfl, rfl⟩

/-- A result changes neither its strand's slots nor what waits for its write. -/
theorem put_queues (x : StrandState) (u : Upd) : (x.put u).slots = x.slots ∧ (x.put u).pends = x.pends := by
  cases u with
  | sreg n v => by_cases h : n = 0 <;> simp [StrandState.put, StrandState.setReg, h]
  | preg n v => by_cases h : n = 0 <;> simp [StrandState.put, StrandState.setPred, h]
  | _ => exact ⟨rfl, rfl⟩

end Sys2Proof.Proofs
end

section
/-! Results and data that land (R13, R20, R24, R121, R235). -/

namespace Sys2Proof.Proofs
open Sys2Proof.Machine Sys2Proof.Spec Sys2Proof.Laws

theorem putAll_one (s : State) (h : HallId) (st : Strand) (seq : Nat) (u : Upd) : s.putAll h st seq [u] = s.putUpd h st seq u := rfl

theorem queues_putUpd (s : State) (h : HallId) (st : Strand) (seq : Nat) {u : Upd} (hu : OneResult u) (f : StrandState → StrandState) :
    (((s.onStrand h st f).putUpd h st seq u).strand h st).slots = (f (s.strand h st)).slots ∧
      (((s.onStrand h st f).putUpd h st seq u).strand h st).pends = (f (s.strand h st)).pends := by
  rw [strand_putUpd _ h st seq hu, strand_onStrand_same]
  exact put_queues _ u

/-! The write of a pending result. -/

theorem exec_resultWrite_first {s : State} {h : HallId} {st : Strand} {p : Pend} {u : Upd} (hp : PendFirst s h st p) (hu : p.upds = [u]) :
    exec (.resultWrite h st) s =
      .next ((s.onStrand h st fun x => { x with pends := x.pends.filter fun q => q.seq != p.seq }).putUpd h st p.seq u) := by
  change Host.Outcome.next (s.writeResult h st) = _
  unfold State.writeResult
  dsimp only
  rw [hp.1, ← putAll_one, ← hu]

theorem resultWrite_writes {s : State} {h : HallId} {st : Strand} {p : Pend} {u : Upd} (hp : PendFirst s h st p) (hu : p.upds = [u])
    (hone : OneResult u) : ∃ t, exec (.resultWrite h st) s = .next t ∧ Written s t h st u ∧
      (∀ q ∈ (t.strand h st).pends, q.seq ≠ p.seq) ∧ (t.strand h st).slots = (s.strand h st).slots := by
  obtain ⟨hslots, hpends⟩ := queues_putUpd s h st p.seq hone fun x => { x with pends := x.pends.filter fun q => q.seq != p.seq }
  refine ⟨_, exec_resultWrite_first hp hu, written_putUpd s h st p.seq hone ⟨rfl, rfl, rfl, rfl⟩, fun q hq => ?_, hslots⟩
  rw [hpends] at hq
  simpa using (List.mem_filter.1 hq).2

/-! The landing point. -/

/-- What a slot's landing does when it is first. -/
def landing (s : State) (h : HallId) (st : Strand) (x : Slot) (us : List Upd) : State :=
  match x.fault with
  | some f => s.landFault h st x f
  | none =>
    match x.req with
    | .lifeAge d g =>
      ((s.freeSlot h st x.seq).lifeAgeValue g).2.putAll h st x.seq [.sreg d ((s.freeSlot h st x.seq).lifeAgeValue g).1]
    | _ => (s.freeSlot h st x.seq).putAll h st x.seq us

theorem exec_landingPoint_first {s : State} {h : HallId} {st : Strand} {x : Slot} {us : List Upd} (hx : SlotFirst s h st x) (hd : x.data = some us) :
    exec (.landingPoint h st) s = .next (landing s h st x us) := by
  obtain ⟨hslot, hpend⟩ := hx
  change Host.Outcome.next (s.land h st) = _
  unfold State.land
  dsimp only
  rw [hslot]
  dsimp only
  rw [hd]
  dsimp only
  cases hp : (s.strand h st).firstPend with
  | none => rw [if_neg Bool.false_ne_true]; rfl
  | some p => rw [if_neg (ne_true_of_eq_false (hpend p hp))]; rfl

theorem landing_faulted {s : State} {h : HallId} {st : Strand} {x : Slot} {us : List Upd} {f : TrapInfo} (hf : x.fault = some f) :
    landing s h st x us = s.landFault h st x f := by
  unfold landing
  rw [hf]

theorem landing_data {s : State} {h : HallId} {st : Strand} {x : Slot} {us : List Upd} (hf : x.fault = none) (hr : ∀ d g, x.req ≠ .lifeAge d g) :
    landing s h st x us = (s.freeSlot h st x.seq).putAll h st x.seq us := by
  unfold landing
  rw [hf]
  dsimp only
  split
  · next d g hreq => exact absurd hreq (hr d g)
  · rfl

theorem landing_lifeAge {s : State} {h : HallId} {st : Strand} {x : Slot} {us : List Upd} {d g : Nat} (hf : x.fault = none) (hr : x.req = .lifeAge d g) :
    landing s h st x us =
      ((s.freeSlot h st x.seq).lifeAgeValue g).2.putAll h st x.seq [.sreg d ((s.freeSlot h st x.seq).lifeAgeValue g).1] := by
  unfold landing
  rw [hf, hr]

/-- The slots that stay when one leaves. -/
theorem slots_freed {x y z : StrandState} {seq : Nat} (hy : y.slots = x.slots.filter fun t => t.seq != seq) (hz : z.slots = y.slots) :
    ∀ q ∈ z.slots, q.seq ≠ seq := by
  intro q hq
  rw [hz, hy] at hq
  simpa using (List.mem_filter.1 hq).2

theorem putUpd_after_freeSlot (s : State) (h : HallId) (st : Strand) (seq : Nat) {u : Upd} (hu : OneResult u) :
    let t := (s.freeSlot h st seq).putUpd h st seq u
    Written s t h st u ∧ (∀ q ∈ (t.strand h st).slots, q.seq ≠ seq) ∧ (t.strand h st).pends = (s.strand h st).pends := by
  obtain ⟨g, e, hears⟩ := freeSlot_eq s h st seq
  have hg := hears { s.strand h st with slots := (s.strand h st).slots.filter fun t => t.seq != seq }
  obtain ⟨hslots, hpends⟩ := queues_putUpd s h st seq hu fun x => g { x with slots := x.slots.filter fun t => t.seq != seq }
  intro t
  have ht : t = (s.onStrand h st fun x => g { x with slots := x.slots.filter fun t => t.seq != seq }).putUpd h st seq u :=
    congrArg (fun r : State => r.putUpd h st seq u) e
  rw [ht]
  exact ⟨written_putUpd s h st seq hu hg.own, slots_freed (x := s.strand h st) hg.slots hslots, hpends.trans hg.pends⟩

theorem landingPoint_writes {s : State} {h : HallId} {st : Strand} {x : Slot} {u : Upd} (hx : SlotFirst s h st x) (hd : x.data = some [u])
    (hu : OneResult u) (hf : x.fault = none) (hr : ∀ d g, x.req ≠ .lifeAge d g) : ∃ t, exec (.landingPoint h st) s = .next t ∧ Written s t h st u ∧
      (∀ q ∈ (t.strand h st).slots, q.seq ≠ x.seq) ∧ (t.strand h st).pends = (s.strand h st).pends :=
  ⟨_, (exec_landingPoint_first hx hd).trans (congrArg Host.Outcome.next (landing_data hf hr)), putUpd_after_freeSlot s h st x.seq hu⟩

/-! LIFE.AGE reads the record of its row group where it lands (R235). -/

theorem rowGroup_of_pools {s t : State} (g : Nat) (hg : t.rowGroups = s.rowGroups)
    (hpool : ∀ k, (t.hall k).poolSize = (s.hall k).poolSize ∧ (t.hall k).poolAge = (s.hall k).poolAge ∧ (t.hall k).poolReq = (s.hall k).poolReq) :
    t.rowGroup g = s.rowGroup g := by
  have hin : t.inPool (galleryTop + 4096 * g) = s.inPool (galleryTop + 4096 * g) := by
    unfold State.inPool
    simp only [(hpool _).1]
  unfold State.rowGroup
  simp only [hg, hin, hpool]

theorem rowGroup_onStrand (s : State) (h : HallId) (st : Strand) (f : StrandState → StrandState) (g : Nat) :
    (s.onStrand h st f).rowGroup g = s.rowGroup g := by
  refine rowGroup_of_pools g rfl fun k => ?_
  by_cases hk : k = h
  · rw [hk, hall_onStrand_same]; exact ⟨rfl, rfl, rfl⟩
  · rw [(atHall_onStrand s h st f).halls k hk]; exact ⟨rfl, rfl, rfl⟩

theorem lifeAgeValue_of_lt {g : Nat} (s : State) (hg : g < 2 ^ 22) : s.lifeAgeValue g = ((s.rowGroup g).report, s) := if_neg (Nat.ne_of_lt hg)

theorem lifeAge_lands {s : State} {h : HallId} {st : Strand} {n : Nat} {x : Slot} {us : List Upd} {g : Nat} (hn : n < 64) (hx : SlotFirst s h st x)
    (hd : x.data = some us) (hf : x.fault = none) (hr : x.req = .lifeAge n g) (hg : g < 2 ^ 22) :
    ∃ t, exec (.landingPoint h st) s = .next t ∧ (t.strand h st).reg n = kept n (s.rowGroup g).report ∧
      (∀ m, m ≠ n → (t.strand h st).reg m = (s.strand h st).reg m) ∧ (∀ q ∈ (t.strand h st).slots, q.seq ≠ x.seq) ∧ AtHall s t h := by
  have hvalue : (s.freeSlot h st x.seq).lifeAgeValue g = ((s.rowGroup g).report, s.freeSlot h st x.seq) := by
    obtain ⟨f, e, -⟩ := freeSlot_eq s h st x.seq
    rw [lifeAgeValue_of_lt _ hg, e, rowGroup_onStrand]
  have hland := (exec_landingPoint_first hx hd).trans (congrArg Host.Outcome.next (landing_lifeAge hf hr))
  rw [hvalue] at hland
  obtain ⟨⟨honly, hreg, hregs, -⟩, hslots, -⟩ := putUpd_after_freeSlot s h st x.seq (u := .sreg n (s.rowGroup g).report) hn
  exact ⟨_, hland, hreg, hregs, hslots, honly.at_⟩

/-! A slot with a fault. -/

/-- A strand's record in the way back from a fault: its replay queue keeps the syllable (R202). -/
def replaying (x : Slot) (y : StrandState) : StrandState := { y with replay := y.replay ++ [{ word := x.word, addr := x.addr }] }

/-- A stream whose description could not be read is bound no longer. -/
def unbinding (s : State) (h : HallId) (r : Req) : State :=
  match r with
  | .sbind q => s.onHall h (Hall.onWork · fun W => W.setStream q .unbound)
  | _ => s

theorem landFault_raises {s : State} {h : HallId} {st : Strand} {x : Slot} (f : TrapInfo) (ht : (s.hall h).trap = none) (hb : (s.hall h).back = none)
    (hsw : (s.hall h).switch = none) :
    s.landFault h st x f = (unbinding ((s.freeSlot h st x.seq).onStrand h st (replaying x)) h x.req).raise h st f := by
  unfold State.landFault
  dsimp only
  rw [if_neg (by rw [hb]; exact Bool.false_ne_true), if_neg (by rw [ht, hsw]; simp)]
  rfl

theorem unbinding_keeps (s : State) (h : HallId) (r : Req) :
    ((unbinding s h r).hall h).trap = (s.hall h).trap ∧ ((unbinding s h r).hall h).back = (s.hall h).back ∧
      (∀ o, (unbinding s h r).strand h o = s.strand h o) ∧ AtHall s (unbinding s h r) h := by
  unfold unbinding
  split
  · next q =>
    have hH := hall_onHall_same s h (Hall.onWork · fun W => W.setStream q .unbound)
    refine ⟨(congrArg Hall.trap hH :), (congrArg Hall.back hH :), fun o => ?_, atHall_onHall s h _⟩
    exact (congrArg (fun H : Hall => H.work.strand o) hH).trans (by cases o <;> rfl)
  · exact ⟨rfl, rfl, fun _ => rfl, atHall_refl s h⟩

theorem faulted_lands {s : State} {h : HallId} {st : Strand} {x : Slot} {us : List Upd} {f : TrapInfo} (hx : SlotFirst s h st x)
    (hd : x.data = some us) (hf : x.fault = some f) (ht : (s.hall h).trap = none) (hb : (s.hall h).back = none) (hsw : (s.hall h).switch = none) :
    ∃ t, exec (.landingPoint h st) s = .next t ∧ Caught t h st f ∧ (t.strand h st).s = (s.strand h st).s ∧
      (∀ q ∈ (t.strand h st).slots, q.seq ≠ x.seq) ∧
      (t.strand h st).replay = (s.strand h st).replay ++ [{ word := x.word, addr := x.addr }] ∧ AtHall s t h := by
  obtain ⟨g, e, hears⟩ := freeSlot_eq s h st x.seq
  have hg := hears { s.strand h st with slots := (s.strand h st).slots.filter fun t => t.seq != x.seq }
  have hfree : (s.freeSlot h st x.seq).onStrand h st (replaying x) =
      s.onStrand h st fun y => replaying x (g { y with slots := y.slots.filter fun t => t.seq != x.seq }) := by
    rw [e, onStrand_onStrand]
  have hland := (exec_landingPoint_first hx hd).trans (congrArg Host.Outcome.next ((landing_faulted hf).trans (landFault_raises f ht hb hsw)))
  rw [hfree] at hland
  obtain ⟨htrap, hback, hstrand, hat⟩ := unbinding_keeps
    (s.onStrand h st fun y => replaying x (g { y with slots := y.slots.filter fun t => t.seq != x.seq })) h x.req
  rw [hall_onStrand_same] at htrap hback
  have ht' := htrap.trans ht
  have hb' := hback.trans hb
  have hrecord := (hstrand st).trans (strand_onStrand_same s h st _)
  refine ⟨_, hland, raise_caught st f ht' hb', ?_, ?_, ?_, atHall_trans (atHall_trans (atHall_onStrand s h st _) hat) (atHall_raise _ h st f)⟩
  · rw [scalars_raise st f ht' hb', hrecord]
    exact hg.own.1
  · refine slots_freed (x := s.strand h st) hg.slots ?_
    obtain ei | ⟨pc, ei⟩ := strand_raise st f ht' hb' st <;> rw [ei, hrecord] <;> rfl
  · have hreplay : (replaying x (g { s.strand h st with slots := (s.strand h st).slots.filter fun t => t.seq != x.seq })).replay =
        (s.strand h st).replay ++ [{ word := x.word, addr := x.addr }] := congrArg (· ++ _) hg.replay
    obtain ei | ⟨pc, ei⟩ := strand_raise st f ht' hb' st <;> rw [ei, hrecord] <;> exact hreplay

/-- Settles O36: a result is put into its strand's record after a write that only takes it from a queue. -/
theorem resultsLand : Obligations.ResultsLand := by
  intro s h st n hn
  exact ⟨fun p u hp hu hone => resultWrite_writes hp hu hone, fun x u hx hd hone hf hr => landingPoint_writes hx hd hone hf hr,
    fun x us f hx hd hf ht hb hsw => faulted_lands hx hd hf ht hb hsw, fun x us g hx hd hf hr hg => lifeAge_lands hn hx hd hf hr hg⟩

end Sys2Proof.Proofs
end

section
/-! SUPPORT. Operations on memory, on its marks and on a partition's registers, which leave every strand's record as it is. -/

namespace Sys2Proof.Proofs
open Sys2Proof.Machine Sys2Proof.Spec Sys2Proof.Laws

/-- What a Hall's strands work with is as before, and a slice runs on it if one did. -/
structure SameRecords (H K : Hall) : Prop where
  work : K.work = H.work
  seat : K.slice.isSome = H.slice.isSome

/-- Every Hall's strands have what they had. -/
def Quiet (s t : State) : Prop := ∀ k, SameRecords (s.hall k) (t.hall k)

theorem quiet_refl (s : State) : Quiet s s := fun _ => ⟨rfl, rfl⟩

theorem quiet_trans {s t u : State} (a : Quiet s t) (b : Quiet t u) : Quiet s u :=
  fun k => ⟨(b k).work.trans (a k).work, (b k).seat.trans (a k).seat⟩

theorem quiet_strand {s t : State} (q : Quiet s t) (h : HallId) (st : Strand) : t.strand h st = s.strand h st :=
  congrArg (Work.strand · st) (q h).work

theorem quiet_of_halls {s t : State} (h : t.halls = s.halls) : Quiet s t := by
  intro k
  have e : t.hall k = s.hall k := by simp only [State.hall, h]
  exact ⟨congrArg Hall.work e, congrArg (fun H : Hall => H.slice.isSome) e⟩

theorem quiet_onHall (s : State) (h : HallId) (f : Hall → Hall) (hf : SameRecords (s.hall h) (f (s.hall h))) : Quiet s (s.onHall h f) := by
  intro k
  by_cases hk : k = h
  · subst hk; rw [hall_onHall_same]; exact hf
  · rw [hall_onHall_ne s h k f hk]; exact ⟨rfl, rfl⟩

theorem quiet_foldl {α : Type} {f : State → α → State} (hf : ∀ s a, Quiet s (f s a)) (xs : List α) (s : State) : Quiet s (xs.foldl f s) := by
  induction xs generalizing s with
  | nil => exact quiet_refl s
  | cons x xs ih => exact quiet_trans (hf s x) (ih (f s x))

theorem quiet_onPart (s : State) (p : PartId) (f : Part → Part) : Quiet s (s.onPart p f) := quiet_of_halls rfl

/-! Events. -/

theorem quiet_postSuper (s : State) (p : PartId) (ev : Nat) : Quiet s (s.postSuper p ev) := by
  unfold State.postSuper
  split
  · exact quiet_onPart s p _
  · split
    · exact quiet_onHall s _ _ ⟨rfl, rfl⟩
    · split
      · exact quiet_onPart s p _
      · exact quiet_of_halls rfl

theorem quiet_raiseEvent (s : State) (p : PartId) (e : HostEvent) : Quiet s (s.raiseEvent p e) := by
  unfold State.raiseEvent
  dsimp only
  split
  · exact quiet_onPart s p _
  · exact quiet_trans (quiet_onPart s p _) (quiet_postSuper _ p 30)

/-! Writes to memory. -/

theorem quiet_undoLine (s : State) (line : Nat) : Quiet s (s.undoLine line) := by
  unfold State.undoLine
  split
  case h_1 => exact quiet_onHall s _ _ ⟨rfl, Option.isSome_map ..⟩
  all_goals exact quiet_refl s

theorem quiet_mend (s : State) (cs : List Host.Cell) : Quiet s (s.mend cs) := by
  unfold State.mend
  split
  · exact quiet_refl s
  · exact quiet_of_halls rfl

theorem quiet_putLine (s : State) (line : Nat) (cs : List Host.Cell) (v : Version) : Quiet s (s.putLine line cs v) := by
  unfold State.putLine
  dsimp only
  refine quiet_trans (quiet_undoLine s line) (quiet_trans (quiet_mend _ cs) ?_)
  split
  · exact quiet_of_halls rfl
  · exact quiet_of_halls rfl

theorem quiet_poke (s : State) (cs : List Host.Cell) : Quiet s (s.poke cs) := by
  unfold State.poke
  refine quiet_trans (quiet_of_halls (t := { s with pubs := s.pubs + 1 }) rfl) (quiet_foldl (fun t l => ?_) _ _)
  exact quiet_putLine t l _ _

theorem quiet_setBitmap (s : State) (p : PartId) (base : Word) (n : Nat) : Quiet s (s.setBitmap p base n) := by
  unfold State.setBitmap
  split
  · exact quiet_refl s
  · split
    · exact quiet_poke s _
    · exact quiet_refl s
    · exact quiet_refl s

/-! Heat, dirty bits and marks. -/

theorem quiet_touch (s : State) (p : PartId) (line : Nat) : Quiet s (s.touch p line) := by
  unfold State.touch
  extract_lets a owns sec c0 c P s1 s2
  split
  · exact quiet_refl s
  · split
    · have q : Quiet s s2 := quiet_trans (quiet_of_halls (t := s1) rfl) (quiet_setBitmap s1 p P.hotmap _)
      split
      · exact quiet_trans q (quiet_raiseEvent _ p _)
      · exact q
    · exact quiet_of_halls rfl

theorem quiet_touchAll (s : State) (p : PartId) (ps : List Nat) : Quiet s (s.touchAll p ps) :=
  quiet_foldl (fun t l => quiet_touch t p l) _ s

theorem quiet_onCtx (s : State) (asid : Asid) (f : Ctx → Ctx) : Quiet s (s.onCtx asid f) := by
  unfold State.onCtx
  split <;> exact quiet_of_halls rfl

theorem quiet_markDirty (s : State) (asid : Asid) (a : Nat) : Quiet s (s.markDirty asid a) := by
  unfold State.markDirty
  split
  · exact quiet_onCtx s asid _
  · exact quiet_refl s

theorem quiet_sense (s : State) (p : PartId) (a : Nat) : Quiet s (s.sense p a).2 := by
  unfold State.sense
  split
  · dsimp only
    split
    · exact quiet_refl s
    · split
      · exact quiet_refl s
      · split
        · exact quiet_onHall s _ _ ⟨rfl, rfl⟩
        · exact quiet_refl s
  · split
    · dsimp only
      split
      · exact quiet_refl s
      · split
        · exact quiet_of_halls rfl
        · exact quiet_refl s
    · exact quiet_refl s

theorem quiet_senseUnits (p : PartId) (us : List Nat) (s : State) : Quiet s (State.senseUnits p us s).2 := by
  induction us generalizing s with
  | nil => exact quiet_refl s
  | cons u rest ih =>
    have q := quiet_sense s p u
    unfold State.senseUnits
    split
    · next e => rw [e] at q; exact q
    · next e => rw [e] at q; exact quiet_trans q (ih _)

theorem quiet_senseRead (s : State) (p : PartId) (ps : List Nat) : Quiet s (s.senseRead p ps).2 :=
  quiet_trans (quiet_touchAll s p ps) (quiet_senseUnits p _ _)

/-! Reads of memory (R344): the free choice among the versions that a reader may see. -/

theorem quiet_chooseLines (r : Reader) (ls : List Nat) (s : State) : Quiet s (s.chooseLines r ls).2 := by
  induction ls generalizing s with
  | nil => exact quiet_refl s
  | cons l rest ih =>
    unfold State.chooseLines
    dsimp only
    obtain _ | ⟨n, _ | ⟨m, ms⟩⟩ := r.choices l (s.versionsOf l)
    · exact ih s
    · exact ih s
    · exact quiet_trans (quiet_of_halls (t := { s with free := s.free + 1 }) rfl) (ih _)

theorem quiet_readBytes (s : State) (r : Reader) (ps : List Nat) : Quiet s (s.readBytes r ps).2.2 := quiet_chooseLines r _ s

end Sys2Proof.Proofs
end

section
/-! SUPPORT. Stores that drain and are performed, and writes to control windows, which leave every strand's record as it is. -/

namespace Sys2Proof.Proofs
open Sys2Proof.Machine Sys2Proof.Spec Sys2Proof.Laws

theorem quiet_from_halls {s t u : State} (q : Quiet t u) (h : t.halls = s.halls) : Quiet s u := quiet_trans (quiet_of_halls h) q

theorem quiet_ite {s t u : State} {c : Prop} [Decidable c] (ht : Quiet s t) (hu : Quiet s u) : Quiet s (if c then t else u) := by
  split
  · exact ht
  · exact hu

/-! The overlay of a Hall. -/

/-- A fold of steps that each keep a part of the state keeps it. -/
theorem foldl_keeps {α β : Type} (p : State → β) {f : State → α → State} (hf : ∀ s a, p (f s a) = p s) (xs : List α) (s : State) :
    p (xs.foldl f s) = p s := by
  induction xs generalizing s with
  | nil => rfl
  | cons x xs ih => exact (ih (f s x)).trans (hf s x)

/-- A Hall's overlay when the store with this number has drained as the version `v`. -/
def drainedAs (n v : Nat) (x : Store) : Store := if x.n = n then { x with drained := some v, scope := .hall } else x

/-- A store drains into the history of versions (R125): no byte of memory changes. -/
theorem drainStore_eq (s : State) (h : HallId) {e : Store} (hd : e.drained = none) :
    ∃ (t : State) (v : Nat), s.drainStore h e = t.onHall h (fun H => { H with overlay := H.overlay.map (drainedAs e.n v) }) ∧ t.halls = s.halls ∧ t.mem = s.mem := by
  unfold State.drainStore
  rw [hd]
  refine ⟨_, _, rfl, ?_, ?_⟩
  · refine foldl_keeps State.halls (fun t l => ?_) _ s; rfl
  · refine foldl_keeps State.mem (fun t l => ?_) _ s; rfl

theorem quiet_drainStore (s : State) (h : HallId) (e : Store) : Quiet s (s.drainStore h e) := by
  cases hd : e.drained with
  | none =>
    obtain ⟨t, v, ht, hhalls, -⟩ := drainStore_eq s h hd
    rw [ht]
    exact quiet_trans (quiet_of_halls hhalls) (quiet_onHall t h _ ⟨rfl, rfl⟩)
  | some v =>
    unfold State.drainStore
    rw [hd]
    exact quiet_refl s

theorem quiet_drainAll (s : State) (h : HallId) : Quiet s (s.drainAll h) := quiet_foldl (fun t e => quiet_drainStore t h e) _ s

theorem quiet_dropStores (s : State) (h : HallId) (p : Store → Bool) : Quiet s (s.dropStores h p) := by
  unfold State.dropStores
  dsimp only
  refine quiet_trans (t := s.onHall h fun H => { H with overlay := H.overlay.filter fun e => !p e }) ?_ (quiet_of_halls rfl)
  exact quiet_onHall s h _ ⟨rfl, rfl⟩

/-! Stores that are performed at their homes. -/

theorem quiet_senseWrite (s : State) (p : PartId) (ps : List Nat) (covers : Bool) : Quiet s (s.senseWrite p ps covers).2.2 := by
  have q := quiet_senseUnits p (dedup (ps.map unitOf)) s
  unfold State.senseWrite
  split
  · exact quiet_refl s
  · split
    · split
      · next e => rw [e] at q; exact q
      · next e => rw [e] at q; exact q
    · exact quiet_refl s

theorem quiet_performAt (s : State) (asid : Asid) (e : Store) (ps : List Nat) : Quiet s (s.performAt asid e ps).2.2 := by
  have q := quiet_senseWrite s (s.partOf asid) ps e.covers
  unfold State.performAt
  split
  · exact quiet_refl s
  · dsimp only
    split
    · split
      · exact quiet_trans q (quiet_of_halls rfl)
      · exact q
    · exact q

theorem quiet_writeLine (s : State) (w : Writer) (line : Nat) (cs : List Host.Cell) : Quiet s (s.writeLine w line cs) := by
  unfold State.writeLine
  extract_lets s1 key s2
  have q : Quiet s s2 := quiet_trans (quiet_putLine s line cs _) (quiet_of_halls rfl)
  split
  · exact q
  · exact quiet_trans q (quiet_trans (quiet_touch s2 w.part line) (quiet_markDirty _ w.asid _))

theorem quiet_writeHome (s : State) (w : Writer) (cs : List Host.Cell) : Quiet s (s.writeHome w cs) :=
  quiet_foldl (fun t l => quiet_writeLine t w l _) _ s

theorem quiet_sendTo (s : State) (p : PartId) (m : Nat) (msg : Instr) : Quiet s (s.sendTo p m msg) := by
  unfold State.sendTo
  split <;> exact quiet_of_halls rfl

theorem quiet_fabricStore (s : State) (asid : Asid) (w : FabReq) (cs : List Host.Cell) : Quiet s (s.fabricStore asid w cs) := by
  unfold State.fabricStore
  refine quiet_foldl (fun t r => ?_) _ s
  exact quiet_from_halls (quiet_sendTo _ _ _ _) rfl

/-! Control windows (R309, R387 to R390). -/

theorem quiet_takeEvq (s : State) (p : PartId) : Quiet s (s.takeEvq p).2 := by
  unfold State.takeEvq
  split
  · exact quiet_refl s
  · dsimp only
    split
    · exact quiet_trans (quiet_onPart s p _) (quiet_postSuper _ p 30)
    · exact quiet_onPart s p _

theorem quiet_cwRead (s : State) (p : PartId) (off n : Nat) : Quiet s (s.cwRead p off n).2 := by
  unfold State.cwRead
  dsimp only
  split
  · exact quiet_takeEvq s p
  · exact quiet_refl s

theorem quiet_settlePreempt (s : State) (h : HallId) (pol : Policy) : Quiet s (s.settlePreempt h pol) := by
  unfold State.settlePreempt
  split
  · exact quiet_refl s
  · dsimp only
    split
    · refine quiet_onHall s h _ ?_
      split
      · exact ⟨rfl, rfl⟩
      · exact ⟨rfl, rfl⟩
    · exact quiet_onHall s h _ ⟨rfl, rfl⟩

theorem quiet_predec (s : State) (p : PartId) (h : HallId) (pol : Option Policy) : Quiet s (s.predec p h pol) := by
  unfold State.predec
  split
  · exact quiet_refl s
  · split
    · split
      · exact quiet_onHall s h _ ⟨rfl, rfl⟩
      · exact quiet_settlePreempt s h _
    · exact quiet_refl s

theorem quiet_xinvStart (s : State) (p : PartId) (v : Word) : Quiet s (s.xinvStart p v) := by
  unfold State.xinvStart
  dsimp only
  split
  · exact quiet_refl s
  · split <;> exact quiet_of_halls rfl

theorem quiet_giveFault (s : State) (hs : List HallId) (asid : Asid) (addr : Nat) (t : TrapInfo) : Quiet s (s.giveFault hs asid addr t) :=
  quiet_foldl (fun u h => quiet_onHall u h _ ⟨rfl, rfl⟩) _ s

theorem quiet_walkFail (s : State) (p : PartId) (tag : Nat) : Quiet s (s.walkFail p tag) := by
  unfold State.walkFail
  split
  · exact quiet_refl s
  · next w _ =>
    dsimp only
    split
    · exact quiet_giveFault s _ _ _ _
    · exact quiet_trans (quiet_giveFault s w.halls w.asid w.addr _) (quiet_of_halls rfl)

theorem quiet_nextWalker (s : State) (pl : Nat) : Quiet s (s.nextWalker pl) := by
  unfold State.nextWalker
  split
  · split
    · exact quiet_of_halls rfl
    · exact quiet_refl s
  · exact quiet_refl s

theorem quiet_walkAgain (s : State) (p : PartId) (tag : Nat) : Quiet s (s.walkAgain p tag) := by
  unfold State.walkAgain
  split
  · exact quiet_refl s
  · exact quiet_from_halls (quiet_nextWalker _ _) rfl

theorem quiet_writeCtx (s : State) (p : PartId) (asid : Asid) (i : Nat) (v : Word) : Quiet s (s.writeCtx p asid i v) := by
  unfold State.writeCtx
  split
  · dsimp only
    split
    · exact quiet_trans (quiet_onPart s p _) (quiet_onCtx _ asid _)
    · exact quiet_onPart s p _
  · exact quiet_refl s

/-- Each register of a control window acts on its partition, on a Hall's pre-emption, on a walk or on a context. -/
theorem quiet_cwStore (s : State) (p : PartId) (off : Nat) (v : Word) : Quiet s (s.cwStore p off v) := by
  unfold State.cwStore
  have part := quiet_onPart s p
  have idle := fun f => quiet_ite (c := s.partRuns p) (quiet_refl s) (part f)
  refine quiet_ite (part _) <| quiet_ite (part _) <| quiet_ite (part _) <| quiet_ite (part _) <| quiet_ite (part _) <|
    quiet_ite (quiet_predec s p _ _) <| quiet_ite (quiet_xinvStart s p v) <|
    quiet_ite (quiet_ite (quiet_walkFail s p _) (quiet_walkAgain s p _)) <| quiet_ite (part _) <| quiet_ite (part _) <|
    quiet_ite (part _) <| quiet_ite (part _) <| quiet_ite (idle _) <| quiet_ite (idle _) <|
    quiet_ite (quiet_writeCtx s p _ _ v) <| quiet_ite (part _) (quiet_refl s)

theorem quiet_cwWrite (s : State) (p : PartId) (off n : Nat) (v : Word) : Quiet s (s.cwWrite p off n v) := by
  unfold State.cwWrite
  split
  · exact quiet_cwStore s p _ _
  · exact quiet_cwStore s p _ _

end Sys2Proof.Proofs
end

section
/-! Data that arrives in its slot (R24, R121, R125, R148, R202, R217). -/

namespace Sys2Proof.Proofs
open Sys2Proof.Machine Sys2Proof.Spec Sys2Proof.Laws

/-! Slots that are filled. -/

/-- The slots of a strand when the slot with this number has its data. -/
def filled (seq : Nat) (us : List Upd) (f : Option TrapInfo) (now : Nat) (t : Slot) : Slot :=
  if t.seq = seq then { t with data := some us, fault := f, arriveAt := some now } else t

theorem filled_same (x : Slot) (us : List Upd) (f : Option TrapInfo) (now : Nat) :
    filled x.seq us f now x = { x with data := some us, fault := f, arriveAt := some now } := if_pos rfl

theorem fillSlot_eq (s : State) (h : HallId) (st : Strand) (seq : Nat) (us : List Upd) (f : Option TrapInfo) : ∃ g : StrandState → StrandState,
    s.fillSlot h st seq us f = s.onStrand h st (fun x => g { x with slots := x.slots.map (filled seq us f (s.hall h).cycle) }) ∧ ∀ x, Hears x (g x) :=
  onStrand_renewalsDue s h st fun x => { x with slots := x.slots.map (filled seq us f (s.hall h).cycle) }

theorem atHall_fillSlot (s : State) (h : HallId) (st : Strand) (seq : Nat) (us : List Upd) (f : Option TrapInfo) : AtHall s (s.fillSlot h st seq us f) h := by
  obtain ⟨g, e, -⟩ := fillSlot_eq s h st seq us f
  rw [e]
  exact atHall_onStrand s h st _

/-- A filled slot keeps its data until it lands; the strand's registers and pending results are as before. -/
theorem fillSlot_fills {s : State} {h : HallId} {st : Strand} {x : Slot} (us : List Upd) (f : Option TrapInfo) (hx : x ∈ (s.strand h st).slots) :
    ∃ y ∈ ((s.fillSlot h st x.seq us f).strand h st).slots, y.seq = x.seq ∧ y.fault = f ∧ y.data = some us ∧
      SameOwn (s.strand h st) ((s.fillSlot h st x.seq us f).strand h st) ∧ ((s.fillSlot h st x.seq us f).strand h st).pends = (s.strand h st).pends := by
  obtain ⟨g, e, hears⟩ := fillSlot_eq s h st x.seq us f
  have hg := hears { s.strand h st with slots := (s.strand h st).slots.map (filled x.seq us f (s.hall h).cycle) }
  rw [e, strand_onStrand_same, hg.slots]
  refine ⟨filled x.seq us f (s.hall h).cycle x, List.mem_map_of_mem hx, ?_, ?_, ?_, hg.own, hg.pends⟩ <;> rw [filled_same]

/-- Data arrives when a step ends by filling the slot of a strand that has only heard of stores. -/
theorem arrives_of_fillSlot {s t : State} {h : HallId} {st : Strand} {x : Slot} {us : List Upd} {f : Option TrapInfo} (hx : x ∈ (s.strand h st).slots)
    (hears : Hears (s.strand h st) (t.strand h st)) (he : exec (.landingDataArrival h st) s = .next (t.fillSlot h st x.seq us f)) :
    Arrives s h st x us f := by
  obtain ⟨y, hy, hseq, hfault, hdata, hown, hpends⟩ := fillSlot_fills (s := t) us f (x := x) (hears.slots ▸ hx)
  exact ⟨_, y, he, hy, hseq, hfault, hdata, (sameOwn_trans hears.own hown).1, hpends.trans hears.pends⟩

theorem hears_hasRead (x : StrandState) (ns : List (Nat × Nat)) : Hears x (x.hasRead ns) := ⟨⟨rfl, rfl, rfl, rfl⟩, rfl, rfl, rfl, rfl⟩

/-! The slot whose time has come. -/

section
variable {s : State} {h : HallId} {st : Strand} {x : Slot} (hx : s.arriving? h st = some x)
include hx

theorem arriving_mem : x ∈ (s.strand h st).slots := List.mem_of_find?_eq_some hx

theorem arriving_checks : x.data = none ∧ (s.hall h).mustWait st x.bound (s.strand h st).seen x.paddrs = false := by
  have hp := List.find?_some hx
  simp only [Bool.and_eq_true, Option.isNone_iff_eq_none, Bool.not_eq_true'] at hp
  obtain ⟨⟨⟨⟨hdata, -⟩, -⟩, hwait⟩, -⟩ := hp
  exact ⟨hdata, hwait⟩

theorem exec_landingDataArrival : exec (.landingDataArrival h st) s = .next (s.arrive h st x) := by
  change execLandingDataArrival h st s = _
  unfold execLandingDataArrival
  rw [hx]

variable (hnear : ∀ a ∈ x.paddrs, inFabric a = false)
include hnear

theorem arrive_bytes (hspace : ∀ p o, spaceOf (x.paddrs.headD 0) ≠ .control p o)
    (hr : (∃ d n sx, x.req = .load d n sx) ∨ (∃ offs es, x.req = .tile offs es) ∨ ∃ q, x.req = .sbind q) :
    s.arrive h st x = s.landBytes h st x [] [] := by
  obtain ⟨-, hwait⟩ := arriving_checks hx
  have hany : x.paddrs.any inFabric = false := by simpa using hnear
  unfold State.arrive
  dsimp only
  rw [if_neg (ne_true_of_eq_false hwait), if_neg (ne_true_of_eq_false hany)]
  obtain ⟨d, n, sx, hr⟩ | ⟨offs, es, hr⟩ | ⟨q, hr⟩ := hr
  · rw [hr]
    dsimp only
    split
    · next p o hs => exact absurd hs (hspace p o)
    · rfl
  · rw [hr]
  · rw [hr]

theorem arrive_cpWait {d : Nat} {sc : Scope} (hr : x.req = .cpWait d sc) : s.arrive h st x = s.lookWord h st x d sc := by
  obtain ⟨-, hwait⟩ := arriving_checks hx
  have hany : x.paddrs.any inFabric = false := by simpa using hnear
  unfold State.arrive
  dsimp only
  rw [if_neg (ne_true_of_eq_false hwait), if_neg (ne_true_of_eq_false hany), hr]

end

/-! Bytes of memory. -/

/-- The bytes of a read are a function of their addresses, so a table of them gives each address its own byte. -/
theorem cellAt_zip_map (f : Nat → Byte) (ps : List Nat) (cs : List Host.Cell) (a : Nat) (ha : a ∈ ps) :
    cellAt a (ps.zip (ps.map f) ++ cs) = some (f a) := by
  induction ps with
  | nil => exact absurd ha List.not_mem_nil
  | cons p ps ih =>
    by_cases hp : p = a
    · simp [cellAt, hp]
    · have hmem : a ∈ ps := (List.mem_cons.1 ha).resolve_left (Ne.symm hp)
      simpa [cellAt, hp] using ih hmem

theorem readBytes_table (s : State) (r : Reader) (ps : List Nat) (cs : List Host.Cell) :
    (ps.map fun a => (cellAt a (ps.zip (s.readBytes r ps).1 ++ cs)).getD 0) = (s.readBytes r ps).1 := by
  have hf : ∃ f : Nat → Byte, (s.readBytes r ps).1 = ps.map f := ⟨_, rfl⟩
  obtain ⟨f, hf⟩ := hf
  rw [hf]
  refine List.map_congr_left fun a ha => ?_
  rw [cellAt_zip_map f ps cs a ha]
  rfl

theorem near_of_noFabric {ps : List Nat} (h : ∀ a ∈ ps, inFabric a = false) : (ps.filter fun a => !inFabric a) = ps :=
  List.filter_eq_self.2 fun a ha => by rw [h a ha]; rfl

section
variable {s : State} {h : HallId} {st : Strand} {x : Slot} {sl : Slice} (hs : (s.hall h).slice = some sl)
include hs

section
variable (hnear : ∀ a ∈ x.paddrs, inFabric a = false)
include hnear

/-- The state after a read of a slot's bytes. -/
theorem landBytes_reads (hr : (s.senseRead sl.part x.paddrs).1 = none) :
    let u := (s.senseRead sl.part x.paddrs).2
    let b := u.readBytes (u.readerOf h st x.bound) x.paddrs
    let v := b.2.2.onStrand h st (·.hasRead b.2.1)
    (∀ us, x.req.give b.1 = .ok us → s.landBytes h st x [] [] = v.fillSlot h st x.seq us none) ∧
      ∀ e, x.req.give b.1 = .error e → s.landBytes h st x [] [] = v.slotFault h st x e := by
  intro u b v
  have hsense : s.senseRead sl.part x.paddrs = (none, u) := Prod.ext hr rfl
  have hbytes := readBytes_table u (u.readerOf h st x.bound) x.paddrs (x.image ++ [])
  rw [← List.append_assoc] at hbytes
  unfold State.landBytes
  dsimp only
  rw [near_of_noFabric hnear, hs]
  dsimp only
  rw [hsense]
  dsimp only
  rw [hbytes]
  refine ⟨fun us hg => ?_, fun e hg => ?_⟩
  · rw [hg]
    dsimp only
    rw [List.append_nil]
  · rw [hg]

theorem landBytes_faulted {a : Nat} {f : DataFault} (hr : (s.senseRead sl.part x.paddrs).1 = some (a, f)) :
    s.landBytes h st x [] [] = (s.senseRead sl.part x.paddrs).2.slotFault h st x (x.dataFault a f) := by
  have hsense : s.senseRead sl.part x.paddrs = (some (a, f), (s.senseRead sl.part x.paddrs).2) := Prod.ext hr rfl
  unfold State.landBytes
  dsimp only
  rw [near_of_noFabric hnear, hs]
  dsimp only
  rw [hsense]

end

theorem lookWord_faulted {d : Nat} {sc : Scope} {a : Nat} {f : DataFault} (hr : (s.senseRead sl.part x.paddrs).1 = some (a, f)) :
    s.lookWord h st x d sc = (s.senseRead sl.part x.paddrs).2.slotFault h st x (x.dataFault a f) := by
  have hsense : s.senseRead sl.part x.paddrs = (some (a, f), (s.senseRead sl.part x.paddrs).2) := Prod.ext hr rfl
  unfold State.lookWord
  dsimp only
  rw [hs]
  dsimp only
  rw [hsense]

end

/-- A fault that does not roll back a region waits in its slot (R121, R231). -/
theorem slotFault_fills (s : State) (h : HallId) (st : Strand) {x : Slot} {f : TrapInfo} (hf : f.cause ≠ .INTEGRITY ∨ x.depth = 0) :
    s.slotFault h st x f = s.fillSlot h st x.seq [] (some f) := by
  unfold State.slotFault
  rw [if_neg]
  rintro ⟨hi, hd⟩
  exact hf.elim (· hi) hd

section
variable {s : State} {h : HallId} {st : Strand} {x : Slot} {sl : Slice} (hx : s.arriving? h st = some x) (hs : (s.hall h).slice = some sl)
  (hspace : ∀ p o, spaceOf (x.paddrs.headD 0) ≠ .control p o) (hnear : ∀ a ∈ x.paddrs, inFabric a = false)
include hx hs hspace hnear

section
variable (hr : (s.senseRead sl.part x.paddrs).1 = none)
include hr

/-- What a slot's request makes of its bytes arrives. -/
theorem bytes_arrive (hreq : (∃ d n sx, x.req = .load d n sx) ∨ (∃ offs es, x.req = .tile offs es) ∨ ∃ q, x.req = .sbind q) :
    let u := (s.senseRead sl.part x.paddrs).2
    let bs := (u.readBytes (u.readerOf h st x.bound) x.paddrs).1
    (∀ us, x.req.give bs = .ok us → Arrives s h st x us none) ∧
      ∀ e, e.cause ≠ .INTEGRITY → x.req.give bs = .error e → Arrives s h st x [] (some e) := by
  intro u bs
  obtain ⟨hok, herr⟩ := landBytes_reads (st := st) hs hnear hr
  have hexec := (exec_landingDataArrival hx).trans (congrArg Host.Outcome.next (arrive_bytes hx hnear hspace hreq))
  have hq : Quiet s (u.readBytes (u.readerOf h st x.bound) x.paddrs).2.2 :=
    quiet_trans (quiet_senseRead s sl.part x.paddrs) (quiet_readBytes u _ _)
  have hears : Hears (s.strand h st) (((u.readBytes (u.readerOf h st x.bound) x.paddrs).2.2.onStrand h st
      (·.hasRead (u.readBytes (u.readerOf h st x.bound) x.paddrs).2.1)).strand h st) := by
    rw [strand_onStrand_same, quiet_strand hq]
    exact hears_hasRead _ _
  refine ⟨fun us hg => ?_, fun e hc hg => ?_⟩
  · exact arrives_of_fillSlot (arriving_mem hx) hears (hexec.trans (congrArg Host.Outcome.next (hok us hg)))
  · exact arrives_of_fillSlot (arriving_mem hx) hears
      (hexec.trans (congrArg Host.Outcome.next ((herr e hg).trans (slotFault_fills _ h st (.inl hc)))))

end

/-- A fault that a slot's bytes give waits in it until it lands. -/
theorem fault_arrives {a : Nat} {f : DataFault} (hr : (s.senseRead sl.part x.paddrs).1 = some (a, f)) (hf : f.cause ≠ .INTEGRITY ∨ x.depth = 0)
    (hreq : (∃ d n sx, x.req = .load d n sx) ∨ (∃ offs es, x.req = .tile offs es) ∨ (∃ q, x.req = .sbind q) ∨ ∃ d sc, x.req = .cpWait d sc) :
    Arrives s h st x [] (some (x.dataFault a f)) := by
  have harrive : s.arrive h st x = (s.senseRead sl.part x.paddrs).2.slotFault h st x (x.dataFault a f) := by
    obtain hl | ht | hb | ⟨d, sc, hw⟩ := hreq
    · exact (arrive_bytes hx hnear hspace (.inl hl)).trans (landBytes_faulted hs hnear hr)
    · exact (arrive_bytes hx hnear hspace (.inr (.inl ht))).trans (landBytes_faulted hs hnear hr)
    · exact (arrive_bytes hx hnear hspace (.inr (.inr hb))).trans (landBytes_faulted hs hnear hr)
    · exact (arrive_cpWait hx hnear hw).trans (lookWord_faulted hs hr)
  refine arrives_of_fillSlot (arriving_mem hx) ?_
    ((exec_landingDataArrival hx).trans (congrArg Host.Outcome.next (harrive.trans (slotFault_fills _ h st hf))))
  rw [quiet_strand (quiet_senseRead s sl.part x.paddrs)]
  exact hears_refl _

end

/-! CP.WAIT waits on while its word is 0 (R148). -/

theorem strand_drawDelay (s : State) (h : HallId) (st : Strand) : s.drawDelay.2.strand h st = s.strand h st := rfl

/-- A slot that looks again later. -/
def lookingAgain (seq at_ : Nat) (t : Slot) : Slot := if t.seq = seq then { t with arriveAt := some at_ } else t

/-- What CP.WAIT does without a fault: it looks again, or its word, which is not 0, arrives. -/
theorem lookWord_looks {s : State} {h : HallId} {st : Strand} {x : Slot} {sl : Slice} (hs : (s.hall h).slice = some sl) (d : Nat) (sc : Scope)
    (hr : (s.senseRead sl.part x.paddrs).1 = none) :
    ∃ v : State, Hears (s.strand h st) (v.strand h st) ∧
      ((∃ at_, s.lookWord h st x d sc = v.onStrand h st fun y => { y with slots := y.slots.map (lookingAgain x.seq at_) }) ∨
        ∃ w c, w % 256 ≠ 0 ∧ s.lookWord h st x d sc = v.fillSlot h st x.seq [.sreg d (BitVec.ofNat 64 w), .learn c, .renew sc] none) := by
  have hsense : s.senseRead sl.part x.paddrs = (none, (s.senseRead sl.part x.paddrs).2) := Prod.ext hr rfl
  have hq := quiet_strand (quiet_senseRead s sl.part x.paddrs) h st
  have hread : ∀ ns, Hears (s.strand h st) (((s.senseRead sl.part x.paddrs).2.onStrand h st (·.hasRead ns)).strand h st) := by
    intro ns
    rw [strand_onStrand_same, hq]
    exact hears_hasRead _ ns
  unfold State.lookWord
  dsimp only
  rw [hs]
  dsimp only
  rw [hsense]
  dsimp only
  split
  · next hz => exact ⟨State.drawDelay _ |>.2, (strand_drawDelay _ h st).symm ▸ hread _, .inl ⟨_, rfl⟩⟩
  · next hz => exact ⟨_, hread _, .inr ⟨_, _, hz, rfl⟩⟩

theorem cpWait_arrives {s : State} {h : HallId} {st : Strand} {x : Slot} {sl : Slice} (hx : s.arriving? h st = some x)
    (hs : (s.hall h).slice = some sl) (hnear : ∀ a ∈ x.paddrs, inFabric a = false) (hr : (s.senseRead sl.part x.paddrs).1 = none)
    {d : Nat} {sc : Scope} (hreq : x.req = .cpWait d sc) :
    ∃ t y, exec (.landingDataArrival h st) s = .next t ∧ y ∈ (t.strand h st).slots ∧ y.seq = x.seq ∧
      (y.data = none ∨ ∃ w c, w.toNat % 256 ≠ 0 ∧ y.data = some [.sreg d w, .learn c, .renew sc] ∧ y.fault = none) ∧
      (t.strand h st).s = (s.strand h st).s := by
  have hexec := (exec_landingDataArrival hx).trans (congrArg Host.Outcome.next (arrive_cpWait hx hnear hreq))
  obtain ⟨hdata, -⟩ := arriving_checks hx
  obtain ⟨v, hears, ⟨at_, hagain⟩ | ⟨w, c, hw, hfill⟩⟩ := lookWord_looks (st := st) hs d sc hr
  · have hmem : x ∈ (v.strand h st).slots := hears.slots ▸ arriving_mem hx
    have hself : lookingAgain x.seq at_ x = { x with arriveAt := some at_ } := if_pos rfl
    refine ⟨_, lookingAgain x.seq at_ x, hexec.trans (congrArg Host.Outcome.next hagain), ?_, ?_, .inl ?_, ?_⟩
    · rw [strand_onStrand_same]
      exact List.mem_map_of_mem hmem
    · rw [hself]
    · rw [hself]; exact hdata
    · rw [strand_onStrand_same]
      exact hears.own.1
  · obtain ⟨y, hy, hseq, hfault, hgot, hown, -⟩ := fillSlot_fills (s := v) [.sreg d (BitVec.ofNat 64 w), .learn c, .renew sc] none (x := x) (hears.slots ▸ arriving_mem hx)
    refine ⟨_, y, hexec.trans (congrArg Host.Outcome.next hfill), hy, hseq, .inr ⟨_, c, ?_, hgot, hfault⟩, (sameOwn_trans hears.own hown).1⟩
    rwa [BitVec.toNat_ofNat, Nat.mod_mod_of_dvd w (by decide)]

/-! Requests without addresses. -/

section
variable {s : State} {h : HallId} {st : Strand} {x : Slot} (hx : s.arriving? h st = some x) (hp : x.paddrs = [])
include hx hp

theorem lifeAge_arrives {d g : Nat} (hr : x.req = .lifeAge d g) : Arrives s h st x [] none := by
  obtain ⟨-, hwait⟩ := arriving_checks hx
  have harrive : s.arrive h st x = s.fillSlot h st x.seq [] none := by
    unfold State.arrive
    dsimp only
    rw [if_neg (ne_true_of_eq_false hwait), hp, if_neg (by simp), hr]
  exact arrives_of_fillSlot (arriving_mem hx) (hears_refl _) ((exec_landingDataArrival hx).trans (congrArg Host.Outcome.next harrive))

theorem arrive_rangeNext {d : Nat} {c : Word} (hr : x.req = .rangeNext d c) :
    s.arrive h st x = (s.takeRange h c).2.2.fillSlot h st x.seq [.sreg d (s.takeRange h c).1, .sreg (d + 1) (s.takeRange h c).2.1] none := by
  obtain ⟨-, hwait⟩ := arriving_checks hx
  unfold State.arrive
  dsimp only
  rw [if_neg (ne_true_of_eq_false hwait), hp, if_neg (by simp), hr]

end

/-- A slice whose range has given its next `n` numbers (R217). -/
def given (n : Word) (sl : Slice) : Slice := { sl with lo := sl.lo + n }

theorem takeRange_eq {s : State} {h : HallId} {sl : Slice} (hs : (s.hall h).slice = some sl) (c : Word) :
    s.takeRange h c = (sl.lo, (if c ≤ sl.hi - sl.lo then c else sl.hi - sl.lo),
      s.onHall h (Hall.onSlice · (given (if c ≤ sl.hi - sl.lo then c else sl.hi - sl.lo)))) := by
  unfold State.takeRange
  rw [hs]
  rfl

theorem rangeNext_arrives {s : State} {h : HallId} {st : Strand} {x : Slot} {d : Nat} {c : Word} {sl : Slice} (hx : s.arriving? h st = some x)
    (hr : x.req = .rangeNext d c) (hp : x.paddrs = []) (hs : (s.hall h).slice = some sl) :
    let n : Word := if c ≤ sl.hi - sl.lo then c else sl.hi - sl.lo
    ∃ t y z, exec (.landingDataArrival h st) s = .next t ∧ y ∈ (t.strand h st).slots ∧ y.seq = x.seq ∧ y.fault = none ∧
      y.data = some [.sreg d sl.lo, .sreg (d + 1) n] ∧ (t.strand h st).s = (s.strand h st).s ∧ (t.hall h).slice = some z ∧ z.lo = sl.lo + n ∧
      z.hi = sl.hi ∧ AtHall s t h := by
  intro n
  let u := s.onHall h (Hall.onSlice · (given n))
  have hq : Quiet s u := quiet_onHall s h (Hall.onSlice · (given n)) ⟨rfl, Option.isSome_map ..⟩
  have hstrand := quiet_strand hq h st
  have hslice : (u.hall h).slice = some (given n sl) :=
    (congrArg Hall.slice (hall_onHall_same s h (Hall.onSlice · (given n)))).trans (congrArg (Option.map (given n)) hs)
  have harrive := arrive_rangeNext hx hp hr
  rw [takeRange_eq hs] at harrive
  obtain ⟨y, hy, hseq, hfault, hdata, hown, -⟩ :=
    fillSlot_fills (s := u) [.sreg d sl.lo, .sreg (d + 1) n] none (x := x) (hstrand ▸ arriving_mem hx)
  refine ⟨_, y, given n sl, (exec_landingDataArrival hx).trans (congrArg Host.Outcome.next harrive), hy, hseq, hfault, hdata, ?_, ?_, rfl, rfl,
    atHall_trans (atHall_onHall s h _) (atHall_fillSlot u h st x.seq _ _)⟩
  · exact hown.1.trans (congrArg StrandState.s hstrand)
  · obtain ⟨g, e, -⟩ := fillSlot_eq u h st x.seq [.sreg d sl.lo, .sreg (d + 1) n] none
    exact (congrArg (fun r : State => (r.hall h).slice) e).trans ((congrArg Hall.slice (hall_onStrand_same u h st _)).trans hslice)

end Sys2Proof.Proofs
end

section
/-! A publication that is acknowledged (R138, R140, R202). -/

namespace Sys2Proof.Proofs
open Sys2Proof.Machine Sys2Proof.Spec Sys2Proof.Laws

/-- A slice runs on each Hall on which one ran. -/
def Seated (s t : State) : Prop := ∀ k, (t.hall k).slice.isSome = (s.hall k).slice.isSome

theorem seated_of_quiet {s t : State} (q : Quiet s t) : Seated s t := fun k => (q k).seat

theorem seated_trans {s t u : State} (a : Seated s t) (b : Seated t u) : Seated s u := fun k => (b k).trans (a k)

theorem seated_onHall (s : State) (h : HallId) (f : Hall → Hall) (hf : (f (s.hall h)).slice.isSome = (s.hall h).slice.isSome) :
    Seated s (s.onHall h f) := by
  intro k
  by_cases hk : k = h
  · subst hk; rw [hall_onHall_same]; exact hf
  · rw [hall_onHall_ne s h k f hk]

theorem seated_onStrand (s : State) (h : HallId) (st : Strand) (f : StrandState → StrandState) : Seated s (s.onStrand h st f) := seated_onHall s h _ rfl

/-- A fold whose steps keep the Halls' slices keeps them, in whichever part of its result the state stands. -/
theorem seated_foldl {α β : Type} {f : β → α → β} (st : β → State) (hf : ∀ b a, Seated (st b) (st (f b a))) (xs : List α) (b : β) :
    Seated (st b) (st (xs.foldl f b)) := by
  induction xs generalizing b with
  | nil => exact fun _ => rfl
  | cons x xs ih => exact seated_trans (hf b x) (ih (f b x))

theorem seated_fillSlot (s : State) (h : HallId) (st : Strand) (seq : Nat) (us : List Upd) (f : Option TrapInfo) : Seated s (s.fillSlot h st seq us f) := by
  obtain ⟨g, e, -⟩ := fillSlot_eq s h st seq us f
  exact e ▸ seated_onStrand s h st _

theorem seated_windowLoad (s : State) (h : HallId) (st : Strand) (t : Slot) (p : PartId) (off d n : Nat) (sx : Bool) :
    Seated s (s.windowLoad h st t p off d n sx) := by
  unfold State.windowLoad
  exact seated_trans (seated_of_quiet (quiet_cwRead s p off n)) (seated_fillSlot (s.cwRead p off n).2 h st t.seq _ none)

theorem seated_answerWindows (s : State) (h : HallId) (st : Strand) (before : Slot → Bool) : Seated s (s.answerWindows h st before) := by
  unfold State.answerWindows
  refine seated_foldl (fun t => t) (fun t x => ?_) _ s
  split
  · split
    · exact seated_windowLoad t h st x _ _ _ _ _
    · exact fun _ => rfl
  · exact fun _ => rfl

/-! The stores that a publication performs (R140). -/

theorem seated_performStore (s : State) (h : HallId) (st : Strand) (asid : Asid) (e : Store) (acc : Performed) :
    Seated s (s.performStore h st asid e acc).2 := by
  unfold State.performStore
  dsimp only
  split
  · exact fun _ => rfl
  · split
    · exact seated_trans (seated_answerWindows s h st _) (seated_of_quiet (quiet_cwWrite _ _ _ _ _))
    · exact seated_of_quiet (quiet_trans (quiet_fabricStore s asid _ _) (quiet_performAt _ asid e _))

theorem quiet_whole (s : State) (cs : List Host.Cell) : Quiet s (s.whole cs) := quiet_of_halls rfl

theorem seated_performStores (s : State) (h : HallId) (st : Strand) : Seated s (s.performStores h st).2 := by
  unfold State.performStores
  split
  · exact fun _ => rfl
  · next sl _ =>
    refine seated_foldl Prod.snd (fun r e => ?_) _ (none, s)
    dsimp only
    have q := quiet_performAt r.2 sl.asid e (e.cells.map (·.1))
    have q' : Quiet r.2 (if (r.2.performAt sl.asid e (e.cells.map (·.1))).1.isNone = true then
        ((r.2.performAt sl.asid e (e.cells.map (·.1))).2.2.mend e.cells).whole e.cells
        else (r.2.performAt sl.asid e (e.cells.map (·.1))).2.2) :=
      quiet_ite (quiet_trans q (quiet_trans (quiet_mend _ _) (quiet_whole _ _))) q
    refine seated_of_quiet (quiet_trans q' (quiet_ite ?_ (quiet_dropStores _ h _)))
    exact quiet_onHall _ h _ ⟨rfl, rfl⟩

theorem quiet_nextPub (s : State) : Quiet s s.nextPub.2 := quiet_of_halls rfl

theorem seated_publishStores (s : State) (h : HallId) (st : Strand) (x : Scope) : Seated s (s.publishStores h st x).2 := by
  unfold State.publishStores
  dsimp only
  split
  · exact fun _ => rfl
  · next sl _ =>
    refine seated_trans ?_ (seated_onStrand _ h st _)
    refine seated_trans ?_ (seated_onHall _ h _ rfl)
    refine seated_trans ?_ (seated_of_quiet (quiet_writeHome _ _ _))
    refine seated_trans ?_ (seated_of_quiet (quiet_nextPub _))
    refine seated_trans ?_ (seated_of_quiet (quiet_dropStores _ h _))
    exact seated_foldl Prod.snd (fun p e => seated_performStore p.2 h st sl.asid e p.1) _ ({ cells := [], fault := none, gone := [] }, s)

theorem seated_publishHall (s : State) (h : HallId) (st : Strand) (x : Scope) : Seated s (s.publishHall h st x) := by
  have d := seated_of_quiet (quiet_drainAll s h)
  unfold State.publishHall
  dsimp only
  split
  · exact d
  · exact seated_trans d (seated_onStrand _ h st _)

theorem seated_sendStmrs (s : State) (h : HallId) (st : Strand) : Seated s (s.sendStmrs h st) := by
  unfold State.sendStmrs
  split
  · exact fun _ => rfl
  · exact seated_trans (seated_of_quiet (quiet_of_halls rfl)) (seated_onStrand _ h st _)

theorem seated_publish (s : State) (h : HallId) (st : Strand) (x : Scope) : Seated s (s.publish h st x).2 := by
  have hstores : ∀ t : State, Seated t (if Scope.rank x ≤ 1 then t.performStores h st else t.publishStores h st x).2 := by
    intro t
    split
    · exact seated_performStores t h st
    · exact seated_publishStores t h st x
  unfold State.publish
  dsimp only
  exact seated_trans (seated_trans (seated_trans (seated_publishHall s h st x) (hstores _)) (seated_sendStmrs _ h st)) (seated_onStrand _ h st _)

/-! A difference that the checker finds (R202, R210). -/

/-- `y` is `x`, or `x` set back to a program counter, where it waits for nothing. -/
def Backed (x y : StrandState) : Prop := y = x ∨ ∃ pc, y = x.backTo pc

theorem backed_machineCheck {s : State} {h : HallId} (ht : (s.hall h).trap = none) (st : Strand) (pc : Word) (code : Nat) (o : Strand) :
    Backed (s.strand h o) ((s.machineCheck h st pc code).strand h o) := by
  have hH := hall_onHall_same s h fun H => { H with back := none }
  have hstrand : (s.onHall h fun H => { H with back := none }).strand h o = s.strand h o := (congrArg (fun H : Hall => H.work.strand o) hH :)
  have hraise := strand_raise (s := s.onHall h fun H => { H with back := none }) st { cause := .MACHINE_CHECK, detail := code, addr := pc }
    ((congrArg Hall.trap hH).trans ht) (congrArg Hall.back hH) o
  rwa [hstrand] at hraise

theorem strand_onHall_of_work {s : State} {h : HallId} {f : Hall → Hall} (hf : (f (s.hall h)).work = (s.hall h).work) (o : Strand) :
    (s.onHall h f).strand h o = s.strand h o := by
  unfold State.strand
  rw [hall_onHall_same, hf]

theorem backed_detect (s : State) (h : HallId) (d code : Nat) (st : Strand) (pc : Word) (spent : Bool) (o : Strand) :
    Backed (s.strand h o) ((s.detect h d code st pc spent).strand h o) := by
  have hcheck (ht : (s.hall h).trap = none) (f : Hall → Hall) (hf : ∀ H, (f H).work = H.work) :
      Backed (s.strand h o) (((s.machineCheck h st pc code).onHall h f).strand h o) := by
    rw [strand_onHall_of_work (hf _)]
    exact backed_machineCheck ht st pc code o
  have hregions : ∀ H : Hall, (if d = 0 then H else H.onSlice fun sl => { sl with regions := [] }).work = H.work := by
    intro H
    split <;> rfl
  unfold State.detect
  dsimp only
  split
  · exact .inl rfl
  · split
    · split
      · exact .inl rfl
      · exact .inl (strand_onHall_of_work rfl o)
    · next ht =>
      split
      · exact hcheck ht _ hregions
      · exact .inl (strand_onHall_of_work rfl o)
      · split
        · split
          · exact hcheck ht _ hregions
          · split
            · exact .inl (strand_onHall_of_work rfl o)
            · exact .inl rfl
        · split
          · exact .inl (strand_onHall_of_work rfl o)
          · exact .inl rfl

/-! The acknowledgement. -/

/-- A strand's record with its publication in this state. -/
def publishing (p : PubState) (y : StrandState) : StrandState := { y with wait := { y.wait with pub := p } }

/-- A publication that its strand waits for no longer. -/
def Answered (p : PubState) : Prop := p ≠ .idle ∧ ∀ x a, p ≠ .waiting x a

theorem pub_publishing (s : State) (h : HallId) (st : Strand) (p : PubState) : ((s.onStrand h st (publishing p)).strand h st).wait.pub = p := by
  rw [strand_onStrand_same]
  rfl

theorem answered_endPublication (s : State) (h : HallId) (st : Strand) (f : Option TrapInfo) :
    Answered ((s.endPublication h st f).strand h st).wait.pub := by
  cases f with
  | some t =>
    have e : ((s.endPublication h st (some t)).strand h st).wait.pub = .failed t := pub_publishing s h st (.failed t)
    rw [e]
    exact ⟨nofun, nofun⟩
  | none =>
    have e : ((s.endPublication h st none).strand h st).wait.pub = .done := pub_publishing (s.lateRenewals h st) h st .done
    rw [e]
    exact ⟨nofun, nofun⟩

/-- Where a publication's last part is still on its way its strand waits for it under another name. -/
theorem answered_last (s : State) (h : HallId) (st : Strand) (f : Option (Nat × TrapInfo)) :
    Answered ((if s.farWaits h st none then s.onStrand h st (publishing (.acking f)) else s.endPublication h st (f.map (·.2))).strand h st).wait.pub := by
  split
  · rw [pub_publishing]
    exact ⟨nofun, nofun⟩
  · exact answered_endPublication s h st _

theorem idle_of_backed {x y : StrandState} (hx : x.wait.pub = .idle) (hb : Backed x y) : y.wait.pub = .idle := by
  obtain rfl | ⟨pc, rfl⟩ := hb
  · exact hx
  · rfl

/-- An acknowledgement of a publication that no far store holds back: the checker finds an upset, or the publication goes on (R202). -/
theorem ackPublication_answers {s : State} {h : HallId} {st : Strand} {sc : Scope} {a : Nat} {sl : Slice} (hs : (s.hall h).slice = some sl)
    (hw : (s.strand h st).wait.pub = .waiting sc a) (ha : a ≤ (s.hall h).cycle) (hl : (s.strand h st).lateAtomics = [])
    (hp : s.publishWaits h st sc = false) :
    ((s.hall h).toCompare = true ∧ Config.upset s.free = true ∧ ((s.ackPublication h st).strand h st).wait.pub = .idle) ∨
      Answered ((s.ackPublication h st).strand h st).wait.pub := by
  have hgo : ¬((s.hall h).cycle < a ∨ (!(s.strand h st).lateAtomics.isEmpty) = true ∨ s.publishWaits h st sc = true) := by
    rw [hl, hp]
    simpa using ha
  unfold State.ackPublication
  dsimp only
  rw [hw]
  dsimp only
  rw [if_neg hgo]
  split
  · next hbad =>
    obtain ⟨hcompare, hupset⟩ := (Bool.and_eq_true _ _).mp hbad
    exact .inl ⟨hcompare, hupset, idle_of_backed (pub_publishing { s with free := s.free + 1 } h st .idle) (backed_detect _ h _ _ st _ _ st)⟩
  · right
    have hseat : (((({ s with free := s.free + 1 }).onHall h Hall.compareAll).publish h st sc).2.hall h).slice.isSome = true := by
      have q : Seated s (({ s with free := s.free + 1 }).onHall h Hall.compareAll) :=
        seated_trans (seated_of_quiet (quiet_of_halls rfl)) (seated_onHall _ h _ rfl)
      rw [seated_trans q (seated_publish _ h st sc) h, hs]
      rfl
    split
    · next hnone => rw [hnone] at hseat; exact absurd hseat Bool.false_ne_true
    · exact answered_last _ h st _

theorem publicationAck_answers {s : State} {h : HallId} {st : Strand} {sc : Scope} {a : Nat} {sl : Slice} (hs : (s.hall h).slice = some sl)
    (hw : (s.strand h st).wait.pub = .waiting sc a) (ha : a ≤ (s.hall h).cycle) (hl : (s.strand h st).lateAtomics = [])
    (hp : s.publishWaits h st sc = false) : ∃ t, exec (.publicationAck h st) s = .next t ∧
      (((t.strand h st).wait.pub = .idle ∧ (s.hall h).toCompare = true ∧ Config.upset s.free = true) ∨ Answered (t.strand h st).wait.pub) := by
  refine ⟨s.ackPublication h st, rfl, ?_⟩
  obtain ⟨hcompare, hupset, hidle⟩ | hanswered := ackPublication_answers hs hw ha hl hp
  · exact .inl ⟨hidle, hcompare, hupset⟩
  · exact .inr hanswered

end Sys2Proof.Proofs
end

section
/-! Stores that drain, contributions that arrive, and what arrives in the slots (R125, R138, R140). -/

namespace Sys2Proof.Proofs
open Sys2Proof.Machine Sys2Proof.Spec Sys2Proof.Laws

/-! The write queue. -/

/-- A record that a Hall's settling changes leaves its overlay as it is. -/
theorem overlay_settle (H : Hall) (st : Strand) : (H.settle st).overlay = H.overlay := by
  unfold Hall.settle
  dsimp only
  split <;> rfl

theorem settleAll_keeps (s : State) (h : HallId) (xs : List Strand) :
    ((xs.foldl (fun s st => s.onHall h (·.settle st)) s).hall h).overlay = (s.hall h).overlay ∧
      AtHall s (xs.foldl (fun s st => s.onHall h (·.settle st)) s) h := by
  induction xs generalizing s with
  | nil => exact ⟨rfl, atHall_refl s h⟩
  | cons st xs ih =>
    obtain ⟨hoverlay, hat⟩ := ih (s.onHall h (·.settle st))
    refine ⟨hoverlay.trans ?_, atHall_trans (atHall_onHall s h (·.settle st)) hat⟩
    rw [hall_onHall_same]
    exact overlay_settle (s.hall h) st

theorem drainable_undrained {H : Hall} {e : Store} (he : H.drainable = some e) : e ∈ H.overlay ∧ e.drained = none := by
  unfold Hall.drainable at he
  split at he
  · next e' rest hf =>
    split at he
    · obtain rfl := Option.some.inj he
      have hmem : e' ∈ H.overlay.filter fun e => e.drained.isNone := hf ▸ List.mem_cons_self
      obtain ⟨hin, hnone⟩ := List.mem_filter.1 hmem
      exact ⟨hin, Option.isNone_iff_eq_none.1 hnone⟩
    · exact absurd he nofun
  · exact absurd he nofun

theorem writeQueueDrain_drains {s : State} {h : HallId} {e : Store} (he : (s.hall h).drainable = some e) :
    ∃ t y, exec (.writeQueueDrain h) s = .next t ∧ y ∈ (t.hall h).overlay ∧ y.n = e.n ∧ y.drained.isSome = true ∧
      y.cells = e.cells ∧ (t.hall h).overlay.length = (s.hall h).overlay.length ∧ AtHall s t h := by
  obtain ⟨hin, hundrained⟩ := drainable_undrained he
  obtain ⟨u, v, hdrain, hhalls, hmem⟩ := drainStore_eq s h hundrained
  obtain ⟨hkeeps, hat⟩ := settleAll_keeps (s.drainStore h e) h ring
  have hexec : exec (.writeQueueDrain h) s = .next (ring.foldl (fun s st => s.onHall h (·.settle st)) (s.drainStore h e)) := by
    change execWriteQueueDrain h s = _
    unfold execWriteQueueDrain
    rw [he]
  have hoverlay := congrArg (fun r : State => (r.hall h).overlay) hdrain
  rw [hall_onHall_same] at hoverlay
  have hu : u.hall h = s.hall h := by simp only [State.hall, hhalls]
  have hnow := (hkeeps.trans hoverlay).trans (congrArg (fun H : Hall => H.overlay.map (drainedAs e.n v)) hu)
  have hself : drainedAs e.n v e = { e with drained := some v, scope := .hall } := if_pos rfl
  refine ⟨_, drainedAs e.n v e, hexec, ?_, ?_, ?_, ?_, ?_, atHall_trans ?_ hat⟩
  · rw [hnow]
    exact List.mem_map_of_mem hin
  · rw [hself]
  · rw [hself]; rfl
  · rw [hself]
  · rw [hnow, List.length_map]
  · rw [hdrain]
    exact atHall_trans (atHall_of_eq h hhalls hmem) (atHall_onHall u h _)

/-! Contributions to a multicast reduction (R138). -/

/-- The round that a first contribution opens. -/
def openedBy (e : MrSend) (addr : Nat) (d : MrDesc) (c : MrPart) : Round :=
  { part := e.part, addr := addr, ty := d.ty, count := d.count, dest := d.dest, members := d.members, fabric := d.fabric != 0,
    parts := [c], clock := Clock.join [] e.clock }

theorem no_round {s : State} {p : PartId} {addr : Nat} (hr : ∀ r ∈ s.rounds, ¬(r.part = p ∧ r.addr = addr)) :
    (s.rounds.find? fun r => r.part == p && r.addr == addr) = none := by
  refine List.find?_eq_none.2 fun r hin hb => hr r hin ?_
  simpa using hb

theorem mrCount_opens {s : State} {e : MrSend} {addr : Nat} {d : MrDesc} {c : MrPart} (hr : ∀ r ∈ s.rounds, ¬(r.part = e.part ∧ r.addr = addr))
    (hcount : 2 ≤ d.count) : ∃ rs, s.mrCount e.part addr d c e.clock = { s with rounds := openedBy e addr d c :: rs } := by
  unfold State.mrCount
  dsimp only
  rw [no_round hr]
  exact ⟨_, if_neg (Nat.not_le.2 hcount)⟩

theorem mrContribution_opens {s : State} {e : MrSend} {rest : List MrSend} {d : MrDesc} (hs : s.sends = e :: rest) (hf : e.fabric = false)
    (hd : s.mrDesc e.part ((e.paddr - 0xC0000000000) % 0x100000 / 4096) = some d) (hdf : d.fabric = 0) (hcount : 2 ≤ d.count)
    (hr : ∀ r ∈ s.rounds, ¬(r.part = e.part ∧ r.addr = (e.paddr - 0xC0000000000) % 0x100000)) :
    ∃ t r c, exec .mrContributionArrival s = .next t ∧ t.sends = rest ∧ r ∈ t.rounds ∧ r.part = e.part ∧
      r.addr = (e.paddr - 0xC0000000000) % 0x100000 ∧ r.parts = [c] ∧ c.hall = e.hall.toNat ∧ c.value = e.value ∧ t.mem = s.mem := by
  let k := sget s.mrSeqs e.hall.toNat
  let u : State := { s with sends := rest, mrSeqs := sset s.mrSeqs e.hall.toNat (k + 1) }
  let c : MrPart := { member := (s.part e.part).fabIndex.toNat, hall := e.hall.toNat, seq := k.toNat, value := e.value }
  have hvalues : u.mrValues e.part ((e.paddr - 0xC0000000000) % 0x100000) = some d := by
    unfold State.mrValues
    rw [no_round (s := u) hr]
    exact hd
  obtain ⟨rs, hopens⟩ := mrCount_opens (s := u) (c := c) hr hcount
  have harrive : s.mrArrive = u.mrCount e.part ((e.paddr - 0xC0000000000) % 0x100000) d c e.clock := by
    unfold State.mrArrive
    rw [hs]
    dsimp only
    have hv := hvalues
    dsimp only [u] at hv
    rw [hv]
    dsimp only
    exact if_neg (by simp [hf, hdf])
  exact ⟨_, _, c, congrArg Host.Outcome.next (harrive.trans hopens), rfl, List.mem_cons_self, rfl, rfl, rfl, rfl, rfl, rfl⟩

/-- Settles O37: reads of memory leave every strand's record as it is, so the slot is filled as it stands; a publication keeps its Hall's slice;
a store drains into the history of versions; the first contribution opens its round. -/
theorem dataArrives : Obligations.DataArrives := by
  intro s h st
  refine ⟨fun x d c sl hx hr hp hs => rangeNext_arrives hx hr hp hs, fun x sl hx hs hspace hnear => ⟨fun hr => ?_, fun a f hr hf hreq => ?_⟩,
    fun x d g hx hr hp => lifeAge_arrives hx hp hr, fun e he => writeQueueDrain_drains he, fun sc a sl hs hw ha hl hp => ?_,
    fun e rest d hs hf hd hdf hcount hr => mrContribution_opens hs hf hd hdf hcount hr⟩
  · refine ⟨fun d n sx hreq => ?_, fun offs es hreq => ?_, fun q hreq => ⟨fun hok => ?_, fun hbad => ?_⟩,
      fun d sc hreq => cpWait_arrives hx hs hnear hr hreq⟩
    · exact (bytes_arrive hx hs hspace hnear hr (.inl ⟨d, n, sx, hreq⟩)).1 _ (by rw [hreq]; rfl)
    · exact (bytes_arrive hx hs hspace hnear hr (.inr (.inl ⟨offs, es, hreq⟩))).1 _ (by rw [hreq]; rfl)
    · exact (bytes_arrive hx hs hspace hnear hr (.inr (.inr ⟨q, hreq⟩))).1 _ (by rw [hreq]; exact if_pos hok)
    · exact (bytes_arrive hx hs hspace hnear hr (.inr (.inr ⟨q, hreq⟩))).2 _ nofun (by rw [hreq]; exact if_neg (ne_true_of_eq_false hbad))
  · exact ⟨_, rfl, rfl, fault_arrives hx hs hspace hnear hr hf hreq⟩
  · obtain ⟨t, he, ⟨hidle, hcompare, hupset⟩ | ⟨hidle, hwaiting⟩⟩ := publicationAck_answers hs hw ha hl hp
    · exact ⟨t, he, by rw [hidle]; exact ⟨hcompare, hupset⟩⟩
    · refine ⟨t, he, ?_⟩
      split
      · next hp => exact absurd hp hidle
      · next x a hp => exact absurd hp (hwaiting x a)
      · trivial

end Sys2Proof.Proofs
end


section
/-! SUPPORT. Fields of a syllable and their codes, read and written (R38, R45 to R48). -/

namespace Sys2Proof.Proofs
open BitVec (extractLsb'_eq_self extractLsb'_append_eq_of_le extractLsb'_append_eq_of_add_le extractLsb'_append_eq_left
  extractLsb'_append_eq_right extractLsb'_append_extractLsb' extractLsb'_append_extractLsb'_eq_extractLsb')

/-! A field whose high bits are reserved, with one, two or three fields below them. -/

theorem zero_append_extract {m n : Nat} {x : BitVec (m + n)} (h : x.extractLsb' n m = 0#m) : 0#m ++ x.extractLsb' 0 n = x :=
  h ▸ extractLsb'_append_extractLsb'

theorem zero_append_extract₂ {m l n : Nat} {x : BitVec (m + l + n)} (h : x.extractLsb' (n + l) m = 0#m) :
    0#m ++ x.extractLsb' n l ++ x.extractLsb' 0 n = x := by
  rw [← h, extractLsb'_append_extractLsb'_eq_extractLsb' rfl]
  exact extractLsb'_append_extractLsb'

theorem zero_append_extract₃ {m l₂ l n : Nat} {x : BitVec (m + l₂ + l + n)} (h : x.extractLsb' (n + l + l₂) m = 0#m) :
    0#m ++ x.extractLsb' (n + l) l₂ ++ x.extractLsb' n l ++ x.extractLsb' 0 n = x := by
  rw [← h, extractLsb'_append_extractLsb'_eq_extractLsb' rfl, extractLsb'_append_extractLsb'_eq_extractLsb' rfl]
  exact extractLsb'_append_extractLsb'

theorem toNat_zero_append {m n : Nat} (lo : BitVec n) : (0#m ++ lo).toNat = lo.toNat := by simp [BitVec.toNat_append]

/-! Fields of one bit. -/

@[simp] theorem flag_bit (b : Bool) : flag (bit b) = b := by cases b <;> rfl

@[simp] theorem bit_flag (b : BitVec 1) : bit (flag b) = b := by revert b; decide

theorem bit_false : bit false = 0 := rfl

/-- MW.LOAD, MFMT and MACC.CVT: a choice in the ctl field, whose high bit is zero. -/
theorem toNat_zero_append_bit_lt (b : Bool) : (0#1 ++ bit b).toNat < 2 := by cases b <;> decide

theorem zero_append_bit_eq_one (b : Bool) : (((0#1 ++ bit b) : BitVec 2) == 1) = b := by cases b <;> rfl

theorem zero_append_bit_of_lt {c : BitVec 2} (h : c.toNat < 2) : 0#1 ++ bit (c == 1) = c := by revert c; decide

/-! Codes (R47, R48, R96, R110, R166, R176, R194, R222, R229, R231, R234): a code is read as what is written with it, and as nothing else. -/

theorem scope_ofCode {c : BitVec 3} {v : Scope} : Scope.ofCode c.toNat = some v ↔ v.code = c := by revert c; cases v <;> decide

theorem extW_ofCode {c : BitVec 2} {v : ExtW} : ExtW.ofCode c.toNat = some v ↔ v.code = c := by revert c; cases v <;> decide

theorem cond_ofCode {c : BitVec 3} {v : Cond} : Cond.ofCode c.toNat = some v ↔ v.code = c := by revert c; cases v <;> decide

theorem fCond_ofCode {c : BitVec 3} {v : FCond} : FCond.ofCode c.toNat = some v ↔ v.code = c := by revert c; cases v <;> decide

theorem vCond_ofCode {t : ETy} {c : BitVec 3} {v : VCond} : VCond.ofCode t.isFloat c.toNat = some v ↔ v.code = c ∧ vcondOk v t = true := by
  revert c; cases t <;> cases v <;> decide

theorem eTy_ofCode {c : BitVec 3} {v : ETy} : ETy.ofCode c.toNat = some v ↔ v.code = c := by revert c; cases v <;> decide

theorem cTy_ofCode {c : BitVec 3} {v : CTy} : CTy.ofCode c.toNat = some v ↔ v.code = c := by revert c; cases v <;> decide

theorem mFmt_ofCode {c : BitVec 3} {v : MFmt} : MFmt.ofCode c.toNat = some v ↔ v.code = c := by revert c; cases v <;> decide

theorem mmaCtl_ofCode {c : BitVec 2} {v : MmaCtl} : MmaCtl.ofCode c.toNat = some v ↔ v.code = c := by revert c; cases v <;> decide

theorem sparse_ofCode {c : BitVec 7} {v : Sparse} : Sparse.ofCode c.toNat = some v ↔ v.code = c := by revert c; cases v <;> decide

theorem keepKind_ofCode {c : BitVec 2} {v : KeepKind} : KeepKind.ofCode c.toNat = some v ↔ v.code = c := by revert c; cases v <;> decide

theorem redOp_ofCode {c : BitVec 3} {v : RedOp} : RedOp.ofCode c.toNat = some v ↔ v.code = c := by revert c; cases v <;> decide

theorem level_ofCode {c : BitVec 2} {v : Level} : Level.ofCode c.toNat = some v ↔ v.code = c := by revert c; cases v <;> decide

theorem trackOp_ofCode {c : BitVec 2} {v : TrackOp} : TrackOp.ofCode c.toNat = some v ↔ v.code = c := by revert c; cases v <;> decide

theorem lifeClass_ofCode {c : BitVec 3} {v : LifeClass} : LifeClass.ofCode c.toNat = some v ↔ v.code = c := by revert c; cases v <;> decide

theorem lifePolicy_ofCode {c : BitVec 2} {v : LifePolicy} : LifePolicy.ofCode c.toNat = some v ↔ v.code = c := by revert c; cases v <;> decide

theorem width_ofCode (v : Width) : Width.ofCode v.code = v := by cases v <;> rfl

theorem width_code (c : BitVec 2) : (Width.ofCode c).code = c := by revert c; decide

theorem order_ofCode (v : Order) : Order.ofCode v.code = v := by cases v <;> rfl

theorem order_code (c : BitVec 2) : (Order.ofCode c).code = c := by revert c; decide

theorem amoOp_ofCode (v : AmoOp) : AmoOp.ofCode v.code = v := by cases v <;> rfl

theorem amoOp_code (c : BitVec 3) : (AmoOp.ofCode c).code = c := by revert c; decide

theorem copyKind_ofCode (v : CopyKind) : CopyKind.ofCode v.code = v := by cases v <;> rfl

theorem copyKind_code (c : BitVec 2) : (CopyKind.ofCode c).code = c := by revert c; decide

/-! The operand formats (R45, R46, R48): the fields of the bits, and the bits of the fields. -/

theorem rrr_toBits_ofBits (x : BitVec 40) : (RRR.ofBits x).toBits = x := by
  simp only [RRR.toBits, RRR.ofBits, extractLsb'_append_extractLsb'_eq_extractLsb']
  exact extractLsb'_eq_self

theorem rrr_ofBits_toBits (f : RRR) : RRR.ofBits f.toBits = f := by
  simp (disch := omega) only [RRR.toBits, RRR.ofBits, extractLsb'_append_eq_of_le, extractLsb'_append_eq_of_add_le, Nat.reduceSub, extractLsb'_eq_self]

theorem rri_toBits_ofBits (x : BitVec 40) : (RRI.ofBits x).toBits = x := by
  simp only [RRI.toBits, RRI.ofBits, extractLsb'_append_extractLsb'_eq_extractLsb']
  exact extractLsb'_eq_self

theorem rri_ofBits_toBits (f : RRI) : RRI.ofBits f.toBits = f := by
  simp (disch := omega) only [RRI.toBits, RRI.ofBits, extractLsb'_append_eq_of_le, extractLsb'_append_eq_of_add_le, Nat.reduceSub, extractLsb'_eq_self]

theorem rif_toBits_ofBits (x : BitVec 40) : (RIF.ofBits x).toBits = x := by
  simp only [RIF.toBits, RIF.ofBits, extractLsb'_append_extractLsb'_eq_extractLsb']
  exact extractLsb'_eq_self

theorem rif_ofBits_toBits (f : RIF) : RIF.ofBits f.toBits = f := by
  simp (disch := omega) only [RIF.toBits, RIF.ofBits, extractLsb'_append_eq_of_le, extractLsb'_append_eq_of_add_le, Nat.reduceSub, extractLsb'_eq_self]

theorem mem_toBits_ofBits (x : BitVec 40) : (MemF.ofBits x).toBits = x := by
  simp only [MemF.toBits, MemF.ofBits, extractLsb'_append_extractLsb'_eq_extractLsb']
  exact extractLsb'_eq_self

theorem mem_ofBits_toBits (f : MemF) : MemF.ofBits f.toBits = f := by
  simp (disch := omega) only [MemF.toBits, MemF.ofBits, extractLsb'_append_eq_of_le, extractLsb'_append_eq_of_add_le, Nat.reduceSub, extractLsb'_eq_self]

theorem vec_toBits_ofBits (x : BitVec 40) : (VecF.ofBits x).toBits = x := by
  simp only [VecF.toBits, VecF.ofBits, extractLsb'_append_extractLsb'_eq_extractLsb']
  exact extractLsb'_eq_self

theorem vec_ofBits_toBits (f : VecF) : VecF.ofBits f.toBits = f := by
  simp (disch := omega) only [VecF.toBits, VecF.ofBits, extractLsb'_append_eq_of_le, extractLsb'_append_eq_of_add_le, Nat.reduceSub, extractLsb'_eq_self]

theorem sys_toBits_ofBits (x : BitVec 40) : (SysF.ofBits x).toBits = x := by
  simp only [SysF.toBits, SysF.ofBits, extractLsb'_append_extractLsb'_eq_extractLsb']
  exact extractLsb'_eq_self

theorem sys_ofBits_toBits (f : SysF) : SysF.ofBits f.toBits = f := by
  simp (disch := omega) only [SysF.toBits, SysF.ofBits, extractLsb'_append_eq_of_le, extractLsb'_append_eq_of_add_le, Nat.reduceSub, extractLsb'_eq_self]

theorem pb_toBits_ofBits (x : BitVec 40) : (PbF.ofBits x).toBits = x :=
  extractLsb'_append_extractLsb'

theorem pb_ofBits_toBits (f : PbF) : PbF.ofBits f.toBits = f := by
  simp (disch := omega) only [PbF.toBits, PbF.ofBits, extractLsb'_append_eq_of_le, extractLsb'_append_eq_of_add_le, Nat.reduceSub, extractLsb'_eq_self]

theorem mat_toBits_ofBits (x : BitVec 40) : (MatF.ofBits x).toBits = x := by
  simp only [MatF.toBits, MatF.ofBits, extractLsb'_append_extractLsb'_eq_extractLsb']
  exact extractLsb'_eq_self

theorem mat_ofBits_toBits (f : MatF) : MatF.ofBits f.toBits = f := by
  simp (disch := omega) only [MatF.toBits, MatF.ofBits, extractLsb'_append_eq_of_le, extractLsb'_append_eq_of_add_le, Nat.reduceSub, extractLsb'_eq_self]

/-! The control bits (R38). -/

theorem ctl_toBits_ofBits (x : BitVec 12) : (Ctl.ofBits x).toBits = x := by
  simp only [Ctl.toBits, Ctl.ofBits, bit_flag, extractLsb'_append_extractLsb'_eq_extractLsb']
  exact extractLsb'_eq_self

theorem ctl_ofBits_toBits (c : Ctl) : Ctl.ofBits c.toBits = c := by
  simp (disch := omega) only [Ctl.toBits, Ctl.ofBits, extractLsb'_append_eq_of_le, extractLsb'_append_eq_of_add_le, Nat.reduceSub,
    extractLsb'_eq_self, flag_bit]

/-! Fields of fields: scopes, landing offsets, the imm field of copies, fn of atomics and of conversions (R47, R171, R194). -/

theorem toNat_mod_eight (r : BitVec 6) : r.toNat % 8 = (r.extractLsb' 0 3).toNat := by simp

theorem extract_scopeE (sc : Scope) : (scopeE sc).extractLsb' 3 3 = 0 ∧ (scopeE sc).extractLsb' 0 3 = sc.code :=
  ⟨extractLsb'_append_eq_left, extractLsb'_append_eq_right⟩

theorem scopeE_of_extract {r : BitVec 6} {sc : Scope} (hc : sc.code = r.extractLsb' 0 3) (hz : r.extractLsb' 3 3 = 0#3) : scopeE sc = r := by
  rw [scopeE, hc, zero_append_extract hz]

theorem extract_landE (l : BitVec 12) : (landE l).extractLsb' 12 4 = 0 ∧ (landE l).extractLsb' 0 12 = l :=
  ⟨extractLsb'_append_eq_left, extractLsb'_append_eq_right⟩

theorem landE_land {f : SysF} (h : f.landOk = true) : landE f.land = f.imm := zero_append_extract (beq_iff_eq.1 h)

theorem extract_qE (k : BitVec 2) (q : QCtl) : (qE k q).extractLsb' 11 5 = 0 ∧ (qE k q).extractLsb' 9 2 = k ∧ (qE k q).extractLsb' 8 1 = bit q.we ∧
    (qE k q).extractLsb' 3 5 = q.ev ∧ (qE k q).extractLsb' 0 3 = q.scope.code := by
  simp (disch := omega) only [qE, extractLsb'_append_eq_of_le, extractLsb'_append_eq_of_add_le, Nat.reduceSub, extractLsb'_eq_self, and_self]
  trivial

theorem qE_of_extract {imm : BitVec 16} {sc : Scope} (hc : sc.code = imm.extractLsb' 0 3) (hz : imm.extractLsb' 11 5 = 0#5) :
    qE (imm.extractLsb' 9 2) { scope := sc, ev := imm.extractLsb' 3 5, we := flag (imm.extractLsb' 8 1) } = imm := by
  rw [qE, hc, bit_flag, ← hz]
  simp only [extractLsb'_append_extractLsb'_eq_extractLsb']
  exact extractLsb'_eq_self

theorem extract_amoE (w : Width) (o : Order) (l : BitVec 12) : (amoE w o l).extractLsb' 14 2 = w.code ∧ (amoE w o l).extractLsb' 12 2 = o.code ∧
    (amoE w o l).extractLsb' 0 12 = l := by
  simp (disch := omega) only [amoE, extractLsb'_append_eq_of_le, extractLsb'_append_eq_of_add_le, Nat.reduceSub, extractLsb'_eq_self, and_self]

theorem amoE_of_extract (fn : BitVec 16) : amoE (Width.ofCode (fn.extractLsb' 14 2)) (Order.ofCode (fn.extractLsb' 12 2)) (fn.extractLsb' 0 12) = fn := by
  simp only [amoE, width_code, order_code, extractLsb'_append_extractLsb'_eq_extractLsb']
  exact extractLsb'_eq_self

theorem extract_cvtE (hi sat rz : Bool) (st : ETy) : (cvtE hi sat rz st).extractLsb' 6 10 = 0 ∧ (cvtE hi sat rz st).extractLsb' 5 1 = bit hi ∧
    (cvtE hi sat rz st).extractLsb' 4 1 = bit sat ∧ (cvtE hi sat rz st).extractLsb' 3 1 = bit rz ∧ (cvtE hi sat rz st).extractLsb' 0 3 = st.code := by
  simp (disch := omega) only [cvtE, extractLsb'_append_eq_of_le, extractLsb'_append_eq_of_add_le, Nat.reduceSub, extractLsb'_eq_self, and_self]
  trivial

theorem extract_cvtE_plain (hi : Bool) (st : ETy) : (cvtE hi false false st).extractLsb' 3 2 = 0 := by
  cases hi <;> cases st <;> rfl

theorem cvtE_of_extract {fn : BitVec 16} {st : ETy} (hc : st.code = fn.extractLsb' 0 3) (hz : fn.extractLsb' 6 10 = 0#10) :
    cvtE (flag (fn.extractLsb' 5 1)) (flag (fn.extractLsb' 4 1)) (flag (fn.extractLsb' 3 1)) st = fn := by
  simp only [cvtE, hc, bit_flag, ← hz, extractLsb'_append_extractLsb'_eq_extractLsb']
  exact extractLsb'_eq_self

theorem flags_false_of_extract {fn : BitVec 16} (h : fn.extractLsb' 3 2 = 0#2) :
    flag (fn.extractLsb' 4 1) = false ∧ flag (fn.extractLsb' 3 1) = false := by
  have h : fn.extractLsb' 4 1 ++ fn.extractLsb' 3 1 = 0#2 := (extractLsb'_append_extractLsb'_eq_extractLsb' rfl).trans h
  revert h
  generalize fn.extractLsb' 4 1 = a, fn.extractLsb' 3 1 = b
  revert a b
  decide

/-! What the decoder's two tests answer: zero reserved fields (R45), assigned codes (R47). -/

theorem reserved_eq_ok {z : Bool} {i j : Instr} : reserved z i = .ok j ↔ z = true ∧ i = j := by
  cases z <;> simp [reserved]

theorem coded_eq_ok {α : Type} {o : Option α} {k : α → Parsed} {j : Instr} : coded o k = .ok j ↔ ∃ v, o = some v ∧ k v = .ok j := by
  cases o <;> simp [coded]

end Sys2Proof.Proofs
end

section
/-! SUPPORT. The decoder reads an instruction from the encoding of it (R38 to R53). -/

namespace Sys2Proof.Proofs
open BitVec (extractLsb'_eq_self extractLsb'_append_eq_of_le extractLsb'_append_eq_of_add_le extractLsb'_append_eq_left extractLsb'_append_eq_right)

/-! Each shape of operands, read from its bits. -/

section
variable {i : Instr}

theorem rrr3_rrrE {mk : BitVec 6 → BitVec 6 → BitVec 6 → Instr} (d a b : BitVec 6) : rrr3 mk (rrrE d a b 0 0) = .ok (mk d a b) := by
  rw [rrr3, rrrE, rrr_ofBits_toBits]; rfl

theorem rrr2_rrrE {mk : BitVec 6 → BitVec 6 → Instr} (d a : BitVec 6) : rrr2 mk (rrrE d a 0 0 0) = .ok (mk d a) := by
  rw [rrr2, rrrE, rrr_ofBits_toBits]; rfl

theorem rrr4_rrrE {mk : BitVec 6 → BitVec 6 → BitVec 6 → BitVec 6 → Instr} (d a b c : BitVec 6) : rrr4 mk (rrrE d a b c 0) = .ok (mk d a b c) := by
  rw [rrr4, rrrE, rrr_ofBits_toBits]; rfl

theorem rrrExt_rrrE {mk : BitVec 6 → BitVec 6 → ExtW → Instr} (d a : BitVec 6) (w : ExtW) :
    rrrExt mk (rrrE d a 0 0 (0#14 ++ w.code)) = .ok (mk d a w) := by
  simp only [rrrExt, rrrE, rrr_ofBits_toBits, coded_eq_ok, reserved_eq_ok, extW_ofCode, extractLsb'_append_eq_right, extractLsb'_append_eq_left]
  exact ⟨w, rfl, rfl, rfl⟩

theorem rri_rriE {mk : BitVec 6 → BitVec 6 → BitVec 28 → Instr} (d a : BitVec 6) (imm : BitVec 28) : rri mk (rriE d a imm) = .ok (mk d a imm) := by
  rw [rri, rriE, rri_ofBits_toBits]

theorem rriShift_rriE {mk : BitVec 6 → BitVec 6 → BitVec 6 → Instr} (d a n : BitVec 6) : rriShift mk (rriE d a (0#22 ++ n)) = .ok (mk d a n) := by
  simp only [rriShift, rriE, rri_ofBits_toBits, extractLsb'_append_eq_right, extractLsb'_append_eq_left]
  rfl

theorem memLoad_memE {mk : BitVec 6 → BitVec 6 → BitVec 16 → BitVec 12 → Instr} (d a : BitVec 6) (off : BitVec 16) (l : BitVec 12) :
    memLoad mk (memE d a off l) = .ok (mk d a off l) := by
  rw [memLoad, memE, mem_ofBits_toBits]

theorem memStore_memE {mk : BitVec 6 → BitVec 6 → BitVec 16 → Instr} (d a : BitVec 6) (off : BitVec 16) :
    memStore mk (memE d a off 0) = .ok (mk d a off) := by
  rw [memStore, memE, mem_ofBits_toBits]; rfl

theorem sys_sysE {zero : SysF → Bool} {mk : SysF → Instr} {d a b r : BitVec 6} {imm : BitVec 16} (h : zero ⟨d, a, b, r, imm⟩ = true) :
    sys zero mk (sysE d a b r imm) = .ok (mk ⟨d, a, b, r, imm⟩) := by
  rw [sys, sysE, sys_ofBits_toBits]
  exact if_pos h

theorem sys0_zero : sys0 i 0 = .ok i := rfl

theorem sysScope_sysE {zero : SysF → Bool} {mk : SysF → Scope → Instr} {d a b : BitVec 6} {sc : Scope} {imm : BitVec 16}
    (h : zero ⟨d, a, b, scopeE sc, imm⟩ = true) :
    sysScope zero mk (sysE d a b (scopeE sc) imm) = .ok (mk ⟨d, a, b, scopeE sc, imm⟩ sc) := by
  obtain ⟨hz, hc⟩ := extract_scopeE sc
  rw [sysScope, sysE, sys_ofBits_toBits]
  simp only [toNat_mod_eight, hz, hc, coded_eq_ok, reserved_eq_ok, scope_ofCode, h]
  exact ⟨sc, rfl, rfl, rfl⟩

theorem sysQ_sysE {kind : Bool} {zero : SysF → Bool} {mk : SysF → QCtl → Instr} {d a b r : BitVec 6} {k : BitVec 2} {q : QCtl}
    (hk : (kind || k == 0) = true) (h : zero ⟨d, a, b, r, qE k q⟩ = true) :
    sysQ kind zero mk (sysE d a b r (qE k q)) = .ok (mk ⟨d, a, b, r, qE k q⟩ q) := by
  obtain ⟨hz, hkind, hwe, hev, hc⟩ := extract_qE k q
  rw [sysQ, sysE, sys_ofBits_toBits]
  simp only [hz, hkind, hwe, hev, hc, coded_eq_ok, reserved_eq_ok, scope_ofCode, h, hk, flag_bit]
  exact ⟨q.scope, rfl, rfl, rfl⟩

theorem vec_vecE {zero : VecF → Bool} {mk : VecF → ETy → Instr} {d a b : BitVec 6} {k : BitVec 3} {t : ETy} {fn : BitVec 16}
    (h : zero ⟨d, a, b, k, t.code, fn⟩ = true) : vec zero mk (vecE d a b k t fn) = .ok (mk ⟨d, a, b, k, t.code, fn⟩ t) := by
  rw [vec, vecE, vec_ofBits_toBits]
  simp only [coded_eq_ok, reserved_eq_ok, eTy_ofCode, h]
  exact ⟨t, rfl, trivial, rfl⟩

theorem vec3_vecE {mk : ETy → BitVec 6 → BitVec 6 → BitVec 6 → BitVec 3 → Instr} (t : ETy) (d a b : BitVec 6) (k : BitVec 3) :
    vec3 mk (vecE d a b k t 0) = .ok (mk t d a b k) := vec_vecE rfl

theorem vec2_vecE {mk : ETy → BitVec 6 → BitVec 6 → BitVec 3 → Instr} (t : ETy) (d a : BitVec 6) (k : BitVec 3) :
    vec2 mk (vecE d a 0 k t 0) = .ok (mk t d a k) := vec_vecE rfl

theorem vecSat_vecE {mk : ETy → BitVec 6 → BitVec 6 → BitVec 6 → BitVec 3 → Bool → Bool → Instr} (t : ETy) (d a b : BitVec 6) (k : BitVec 3) (sat u : Bool) :
    vecSat mk (vecE d a b k t (0#14 ++ bit u ++ bit sat)) = .ok (mk t d a b k sat u) := by
  simp (disch := omega) only [vecSat, vec, vecE, vec_ofBits_toBits, coded_eq_ok, reserved_eq_ok, eTy_ofCode, extractLsb'_append_eq_of_le,
    extractLsb'_append_eq_of_add_le, Nat.reduceSub, extractLsb'_eq_self, flag_bit]
  exact ⟨t, rfl, rfl, rfl⟩

theorem vecU_vecE {mk : ETy → BitVec 6 → BitVec 6 → BitVec 6 → BitVec 3 → Bool → Instr} (t : ETy) (d a b : BitVec 6) (k : BitVec 3) (u : Bool) :
    vecU mk (vecE d a b k t (0#14 ++ bit u ++ 0#1)) = .ok (mk t d a b k u) := by
  simp (disch := omega) only [vecU, vec, vecE, vec_ofBits_toBits, coded_eq_ok, reserved_eq_ok, eTy_ofCode, extractLsb'_append_eq_of_le,
    extractLsb'_append_eq_of_add_le, Nat.reduceSub, extractLsb'_eq_self, flag_bit]
  exact ⟨t, rfl, rfl, rfl⟩

theorem vecIdx_vecE {n : Nat} {mk : ETy → BitVec 6 → BitVec 6 → BitVec n → BitVec 3 → Instr} {t : ETy} {d a : BitVec 6} {j : BitVec n} {k : BitVec 3}
    {fn : BitVec 16} (h : fn.toNat = j.toNat) : vecIdx n mk (vecE d a 0 k t fn) = .ok (mk t d a j k) := by
  have hj : fn.extractLsb' 0 n = j := by
    apply BitVec.eq_of_toNat_eq
    rw [BitVec.extractLsb'_toNat, h, Nat.shiftRight_zero, Nat.mod_eq_of_lt j.isLt]
  have hlt : fn.toNat < 2 ^ n := h ▸ j.isLt
  simp only [vecIdx, vec, vecE, vec_ofBits_toBits, coded_eq_ok, reserved_eq_ok, eTy_ofCode, hj, hlt]
  exact ⟨t, rfl, rfl, rfl⟩

theorem vecElem_vecE {mk : ETy → BitVec 6 → BitVec 6 → BitVec 4 → BitVec 8 → BitVec 3 → Instr} (t : ETy) (d a : BitVec 6) (row : BitVec 4) (col : BitVec 8)
    (k : BitVec 3) : vecElem mk (vecE d a 0 k t (0#4 ++ col ++ row)) = .ok (mk t d a row col k) := by
  simp (disch := omega) only [vecElem, vec, vecE, vec_ofBits_toBits, coded_eq_ok, reserved_eq_ok, eTy_ofCode, extractLsb'_append_eq_of_le,
    extractLsb'_append_eq_of_add_le, Nat.reduceSub, extractLsb'_eq_self]
  exact ⟨t, rfl, rfl, rfl⟩

theorem vecRed_vecE {mk : RedOp → Bool → ETy → BitVec 6 → BitVec 6 → BitVec 3 → Instr} (op : RedOp) (u : Bool) (t : ETy) (d a : BitVec 6) (k : BitVec 3) :
    vecRed mk (vecE d a 0 k t (0#12 ++ bit u ++ op.code)) = .ok (mk op u t d a k) := by
  simp (disch := omega) only [vecRed, vec, vecE, vec_ofBits_toBits, coded_eq_ok, reserved_eq_ok, redOp_ofCode, eTy_ofCode,
    extractLsb'_append_eq_of_le, extractLsb'_append_eq_of_add_le, Nat.reduceSub, extractLsb'_eq_self, flag_bit]
  exact ⟨op, rfl, t, rfl, rfl, rfl⟩

theorem vecCvt_vecE {zero : VecF → Bool} {mk : VecF → ETy → ETy → Instr} {d a b : BitVec 6} {k : BitVec 3} {dt st : ETy} {hi sat rz : Bool}
    (h : zero ⟨d, a, b, k, dt.code, cvtE hi sat rz st⟩ = true) :
    vecCvt zero mk (vecE d a b k dt (cvtE hi sat rz st)) = .ok (mk ⟨d, a, b, k, dt.code, cvtE hi sat rz st⟩ dt st) := by
  obtain ⟨hz, -, -, -, hst⟩ := extract_cvtE hi sat rz st
  simp only [vecCvt, vec, vecE, vec_ofBits_toBits, coded_eq_ok, reserved_eq_ok, eTy_ofCode, hz, hst, h]
  exact ⟨st, rfl, dt, rfl, rfl, rfl⟩

theorem mat_toBits {zero : MatF → Bool} {mk : MatF → Instr} {f : MatF} (h : zero f = true) : mat zero mk f.toBits = .ok (mk f) := by
  rw [mat, mat_ofBits_toBits]
  exact if_pos h

theorem matMma_mmaE {mk : MmaF → Instr} (f : MmaF) : matMma mk (mmaE f) = .ok (mk f) := by
  simp only [matMma, mmaE, mat_ofBits_toBits, coded_eq_ok, mmaCtl_ofCode, flag_bit]
  exact ⟨f.ctl, rfl, rfl⟩

end

/-! The condition of a VCMP fits its type. -/

theorem orElse_isNone {a b : Option Malformed} : (orElse a b).isNone = true ↔ a.isNone = true ∧ b.isNone = true := by
  cases a <;> simp [orElse]

theorem failUnless_isNone {b : Bool} {e : Malformed} : (failUnless b e).isNone = true ↔ b = true := by
  cases b <;> simp [failUnless]

theorem vcondOk_of_wellFormed {c : VCond} {t : ETy} {d a b : BitVec 6} {k : BitVec 3} (h : WellFormed (.vcmp c t d a b k) = true) :
    vcondOk c t = true := by
  have h : (orElse (eightField d) (orElse (tiles2 a b) (failUnless (vcondOk c t) .code))).isNone = true := h
  exact failUnless_isNone.1 (orElse_isNone.1 (orElse_isNone.1 h).2).2

/-! Every instruction. -/

/-- The instruction has an encoding, and the decoder reads the instruction from it. -/
def Restored (i : Instr) : Prop := ∃ e, encodeOp i = some e ∧ decodeOp e.cls.toNat e.opc.toNat e.ops = .ok i

theorem restored_of_wellFormed (i : Instr) (hw : WellFormed i = true) : Restored i := by
  cases i with
  | add | sub | mul | mulh | mulhu | div | divu | rem | remu | and | or | xor | andn | shl | shr | sar | rol | ror | min | max | minu | maxu
  | fadd | fsub | fmul | fmin | fmax | fdiv | sttS =>
    exact ⟨_, rfl, rrr3_rrrE _ _ _⟩
  | abs | clz | ctz | popc | brev | fsqrt => exact ⟨_, rfl, rrr2_rrrE _ _⟩
  | sel | bins | ffma => exact ⟨_, rfl, rrr4_rrrE _ _ _ _⟩
  | sext | zext => exact ⟨_, rfl, rrrExt_rrrE _ _ _⟩
  | addi | muli | andi | ori | xori | pba => exact ⟨_, rfl, rri_rriE _ _ _⟩
  | shli | shri | sari => exact ⟨_, rfl, rriShift_rriE _ _ _⟩
  | ldB | ldBz | ldH | ldHz | ldW | ldWz | ldD | ldt => exact ⟨_, rfl, memLoad_memE _ _ _ _⟩
  | stB | stH | stW | stD | stt => exact ⟨_, rfl, memStore_memE _ _ _⟩
  | nop | join | eret | tfence | sliceEnd | sliceYield | hintSucc | waitPred | rgnBegin | rgnEnd | rgnAbort => exact ⟨_, rfl, sys0_zero⟩
  | vadd | vsub | vmul | vfma | vmin | vmax | vdiv | vclamp | vand | vor | vxor | vshl | vshr | vsar | vpermc =>
    exact ⟨_, rfl, vec3_vecE _ _ _ _ _⟩
  | vmov | vsplat | viota | vabs | vneg | vsqrt | vrcp | vrsq | vexp2 | vlog2 | vsin | vcos | vtanh | vlogi =>
    exact ⟨_, rfl, vec2_vecE _ _ _ _⟩
  | viadd | visub | vimul => exact ⟨_, rfl, vecSat_vecE _ _ _ _ _ _ _⟩
  | vimin | vimax => exact ⟨_, rfl, vecU_vecE _ _ _ _ _ _⟩
  | vins | vext => exact ⟨_, rfl, vecElem_vecE _ _ _ _ _ _⟩
  | vredc | vredr => exact ⟨_, rfl, vecRed_vecE _ _ _ _ _ _⟩
  | vrotc | vrotr | vbcc | vbcr | vtrn => exact ⟨_, rfl, vecIdx_vecE (toNat_zero_append _)⟩
  | mma f | mmaS f => exact ⟨_, rfl, matMma_mmaE f⟩
  | movi d imm => exact ⟨_, rfl, congrArg (fun f : RIF => Except.ok (Instr.movi f.d f.imm)) (rif_ofBits_toBits ⟨d, imm⟩)⟩
  | pb b off => exact ⟨_, rfl, congrArg (fun f : PbF => Except.ok (Instr.pb f.b f.off)) (pb_ofBits_toBits ⟨b, off⟩)⟩
  | br | call | ret | loop | evPost | evWait | evPostx | gleave | barArrive | barWait | barSync | trap | ckpt | launch | enqX | freeze | thaw
  | lifeRef | rgnStat | sstat | sdrop =>
    refine ⟨_, rfl, ?_⟩
    delta decodeOp decodeCommon decodeL
    exact sys_sysE rfl
  | phase =>
    refine ⟨_, rfl, ?_⟩
    delta decodeOp decodeCommon
    exact sysScope_sysE rfl
  | cp | cp2D | cpMm | cpFill | hzRead | hzPool | hzRoot | hzDesc | hzExpand | hzBack | hzSweep =>
    refine ⟨_, rfl, ?_⟩
    delta decodeOp decodeL
    exact sysQ_sysE rfl rfl
  | vzero =>
    refine ⟨_, rfl, ?_⟩
    delta decodeOp decodeV
    exact vec_vecE rfl
  | maccRd | maccWr | maccZero | mstat =>
    refine ⟨_, rfl, ?_⟩
    delta decodeOp decodeM
    refine (mat_toBits ?_).trans ?_
    all_goals rfl
  | mwClr | maccSpill | maccFill =>
    refine ⟨_, rfl, ?_⟩
    delta decodeOp decodeM
    refine (mat_toBits ?_).trans ?_
    · rfl
    · simp only [flag_bit]
  | csrr _ l | csrw l _ | rangeNext _ _ l | wsetBind _ _ l | lifeAge _ _ l | sbind _ _ l =>
    obtain ⟨hz, hl⟩ := extract_landE l
    refine ⟨_, rfl, ?_⟩
    delta decodeOp decodeCommon decodeL
    refine (sys_sysE ?_).trans ?_
    all_goals simp only [SysF.landOk, SysF.land, hz, hl]
    rfl
  | gjoin _ _ _ l | cpWait _ _ _ l =>
    obtain ⟨hz, hl⟩ := extract_landE l
    refine ⟨_, rfl, ?_⟩
    delta decodeOp decodeCommon decodeL
    refine (sysScope_sysE ?_).trans ?_
    all_goals simp only [SysF.landOk, SysF.land, hz, hl]
    rfl
  | cpResume k d a b r q =>
    obtain ⟨-, hk, -⟩ := extract_qE k.code q
    refine ⟨_, rfl, ?_⟩
    delta decodeOp decodeL
    refine (sysQ_sysE rfl rfl).trans ?_
    rw [hk, copyKind_ofCode]
  | evTest =>
    refine ⟨_, rfl, ?_⟩
    delta decodeOp decodeCommon
    refine (sys_sysE rfl).trans ?_
    simp only [extractLsb'_append_eq_left, extractLsb'_append_eq_right]
  | fenceMk | ntag =>
    refine ⟨_, rfl, ?_⟩
    delta decodeOp decodeCommon
    refine (sys_sysE ?_).trans ?_
    all_goals simp only [extractLsb'_append_eq_left, extractLsb'_append_eq_right]
    rfl
  | vshape | vsel =>
    refine ⟨_, rfl, ?_⟩
    delta decodeOp decodeV
    refine (vec_vecE ?_).trans ?_
    all_goals simp (disch := omega) only [extractLsb'_append_eq_of_le, extractLsb'_append_eq_of_add_le, Nat.reduceSub, extractLsb'_eq_self]
    rfl
  | vcvt dt st rz sat | vpack dt st rz sat =>
    obtain ⟨-, hhi, hsat, hrz, -⟩ := extract_cvtE false sat rz st
    refine ⟨_, rfl, ?_⟩
    delta decodeOp decodeV
    refine (vecCvt_vecE ?_).trans ?_
    all_goals simp only [hhi, hsat, hrz, flag_bit]
    rfl
  | vunpk dt st hi =>
    obtain ⟨-, hhi, -⟩ := extract_cvtE hi false false st
    refine ⟨_, rfl, ?_⟩
    delta decodeOp decodeV
    refine (vecCvt_vecE ?_).trans ?_
    all_goals simp only [hhi, extract_cvtE_plain, flag_bit]
    rfl
  | lea | bext | plog | pget | pset | stmr | movhi | bexti | binsi | ldtG | vklog | vkcnt =>
    refine ⟨_, rfl, ?_⟩
    delta decodeOp decodeCommon decodeL decodeV
    refine reserved_eq_ok.2 ⟨?_, ?_⟩
    all_goals simp (disch := omega) only [rrrE, rrr_ofBits_toBits, rriE, rri_ofBits_toBits, rif_ofBits_toBits, vec_ofBits_toBits, landE,
      width_ofCode, flag_bit, extractLsb'_append_eq_of_le, extractLsb'_append_eq_of_add_le, Nat.reduceSub, extractLsb'_eq_self]
    rfl
  | cmpi c =>
    refine ⟨_, rfl, ?_⟩
    delta decodeOp decodeCommon
    refine coded_eq_ok.2 ⟨c, ?_, ?_⟩
    all_goals simp (disch := omega) only [rriE, rri_ofBits_toBits, cond_ofCode, extractLsb'_append_eq_of_le, extractLsb'_append_eq_of_add_le,
      Nat.reduceSub, extractLsb'_eq_self]
  | amo op w sc =>
    refine ⟨_, rfl, ?_⟩
    delta decodeOp decodeCommon
    refine coded_eq_ok.2 ⟨sc, ?_, ?_⟩
    all_goals simp (disch := omega) only [rrrE, rrr_ofBits_toBits, scope_ofCode, extract_amoE, amoOp_ofCode, width_ofCode, order_ofCode,
      extractLsb'_append_eq_left, extractLsb'_append_eq_right]
  | cas w sc =>
    refine ⟨_, rfl, ?_⟩
    delta decodeOp decodeCommon
    refine coded_eq_ok.2 ⟨sc, ?_, (if_pos ?_).trans ?_⟩
    all_goals simp (disch := omega) only [rrrE, rrr_ofBits_toBits, scope_ofCode, extract_amoE, width_ofCode, order_ofCode,
      extractLsb'_append_eq_left, extractLsb'_append_eq_right]
    rfl
  | cmp c | fcmp c | boostReq c | track c | rgnKeep c =>
    refine ⟨_, rfl, ?_⟩
    delta decodeOp decodeCommon
    refine coded_eq_ok.2 ⟨c, ?_, reserved_eq_ok.2 ⟨?_, ?_⟩⟩
    all_goals simp (disch := omega) only [rrrE, rrr_ofBits_toBits, sysE, sys_ofBits_toBits, cond_ofCode, fCond_ofCode, level_ofCode,
      trackOp_ofCode, keepKind_ofCode, extractLsb'_append_eq_of_le, extractLsb'_append_eq_of_add_le, Nat.reduceSub, extractLsb'_eq_self]
    rfl
  | fcvt dst src =>
    refine ⟨_, rfl, ?_⟩
    delta decodeOp decodeCommon
    refine coded_eq_ok.2 ⟨src, ?_, coded_eq_ok.2 ⟨dst, ?_, reserved_eq_ok.2 ⟨?_, ?_⟩⟩⟩
    all_goals simp (disch := omega) only [rrrE, rrr_ofBits_toBits, cTy_ofCode, flag_bit, extractLsb'_append_eq_of_le,
      extractLsb'_append_eq_of_add_le, Nat.reduceSub, extractLsb'_eq_self]
    rfl
  | lifeSet a b c p =>
    refine ⟨_, rfl, ?_⟩
    delta decodeOp decodeCommon
    refine coded_eq_ok.2 ⟨c, ?_, coded_eq_ok.2 ⟨p, ?_, reserved_eq_ok.2 ⟨?_, ?_⟩⟩⟩
    all_goals simp (disch := omega) only [sysE, sys_ofBits_toBits, lifeClass_ofCode, lifePolicy_ofCode, extractLsb'_append_eq_of_le,
      extractLsb'_append_eq_of_add_le, Nat.reduceSub, extractLsb'_eq_self]
    rfl
  | vcmp c t =>
    have hc := vcondOk_of_wellFormed hw
    refine ⟨_, rfl, ?_⟩
    delta decodeOp decodeV
    refine coded_eq_ok.2 ⟨t, ?_, coded_eq_ok.2 ⟨c, ?_, reserved_eq_ok.2 ⟨?_, ?_⟩⟩⟩
    all_goals simp only [vecE, vec_ofBits_toBits, eTy_ofCode, vCond_ofCode, hc, and_self, extractLsb'_append_eq_left, extractLsb'_append_eq_right]
    rfl
  | mwLoads fm sp =>
    refine ⟨_, rfl, ?_⟩
    delta decodeOp decodeM
    refine coded_eq_ok.2 ⟨fm, ?_, coded_eq_ok.2 ⟨sp, ?_, reserved_eq_ok.2 ⟨?_, ?_⟩⟩⟩
    all_goals simp only [matE, mat_ofBits_toBits, mFmt_ofCode, sparse_ofCode, flag_bit]
    rfl
  | mwLoad fm im | mfmt fm im =>
    refine ⟨_, rfl, ?_⟩
    delta decodeOp decodeM
    refine coded_eq_ok.2 ⟨fm, ?_, (if_pos ?_).trans (reserved_eq_ok.2 ⟨?_, ?_⟩)⟩
    all_goals simp only [matE, mat_ofBits_toBits, mFmt_ofCode, flag_bit, toNat_zero_append_bit_lt, zero_append_bit_eq_one]
    rfl
  | maccCvt tf =>
    refine ⟨_, rfl, ?_⟩
    delta decodeOp decodeM
    refine (if_pos ?_).trans (reserved_eq_ok.2 ⟨?_, ?_⟩)
    all_goals simp only [maccE, mat_ofBits_toBits, toNat_zero_append_bit_lt, zero_append_bit_eq_one]
    rfl
  | _ => nomatch hw

end Sys2Proof.Proofs
end

section
/-! SUPPORT. What the decoder reads has the bits that it read for its encoding: no bit is dropped (R38 to R53). -/

namespace Sys2Proof.Proofs
open BitVec (extractLsb'_append_extractLsb')

/-- What the parser reads is encoded so. -/
def Keeps (p : Parsed) (e : Encoded) : Prop := ∀ i, p = .ok i → encodeOp i = some e

/-! The tests, and each shape of operands. -/

section
variable {k : BitVec 2} {o : BitVec 10} {x : BitVec 40} {e : Encoded}

theorem keeps_ok {i : Instr} {ops : BitVec 40} (he : encodeOp i = some ⟨k, o, ops⟩) (hx : ops = x) : Keeps (.ok i) ⟨k, o, x⟩ := by
  rintro _ ⟨⟩
  rw [he, hx]

theorem keeps_error {r : Malformed} : Keeps (.error r) e := by
  rintro i ⟨⟩

theorem keeps_reserved {z : Bool} {i : Instr} {ops : BitVec 40} (he : encodeOp i = some ⟨k, o, ops⟩) (hx : z = true → ops = x) :
    Keeps (reserved z i) ⟨k, o, x⟩ := by
  intro j hj
  obtain ⟨hz, rfl⟩ := reserved_eq_ok.1 hj
  rw [he, hx hz]

theorem keeps_coded {α : Type} {c : Option α} {f : α → Parsed} (h : ∀ v, c = some v → Keeps (f v) e) : Keeps (coded c f) e := by
  intro j hj
  obtain ⟨v, hv, hf⟩ := coded_eq_ok.1 hj
  exact h v hv j hf

theorem keeps_ite {c : Prop} [Decidable c] {p q : Parsed} (h : c → Keeps p e) (h' : ¬c → Keeps q e) : Keeps (if c then p else q) e := by
  split
  · exact h ‹_›
  · exact h' ‹_›

theorem keeps_rrr3 {mk : BitVec 6 → BitVec 6 → BitVec 6 → Instr} (h : ∀ d a b, encodeOp (mk d a b) = some ⟨k, o, rrrE d a b 0 0⟩) :
    Keeps (rrr3 mk x) ⟨k, o, x⟩ := by
  refine keeps_reserved (h _ _ _) fun hz => .trans ?_ (rrr_toBits_ofBits x)
  simp only [Bool.and_eq_true, beq_iff_eq] at hz
  simp only [rrrE, RRR.toBits, hz]

theorem keeps_rrr2 {mk : BitVec 6 → BitVec 6 → Instr} (h : ∀ d a, encodeOp (mk d a) = some ⟨k, o, rrrE d a 0 0 0⟩) :
    Keeps (rrr2 mk x) ⟨k, o, x⟩ := by
  refine keeps_reserved (h _ _) fun hz => .trans ?_ (rrr_toBits_ofBits x)
  simp only [Bool.and_eq_true, beq_iff_eq] at hz
  simp only [rrrE, RRR.toBits, hz]

theorem keeps_rrr4 {mk : BitVec 6 → BitVec 6 → BitVec 6 → BitVec 6 → Instr} (h : ∀ d a b c, encodeOp (mk d a b c) = some ⟨k, o, rrrE d a b c 0⟩) :
    Keeps (rrr4 mk x) ⟨k, o, x⟩ := by
  refine keeps_reserved (h _ _ _ _) fun hz => .trans ?_ (rrr_toBits_ofBits x)
  simp only [beq_iff_eq] at hz
  simp only [rrrE, RRR.toBits, hz]

theorem keeps_rrrExt {mk : BitVec 6 → BitVec 6 → ExtW → Instr} (h : ∀ d a w, encodeOp (mk d a w) = some ⟨k, o, rrrE d a 0 0 (0#14 ++ w.code)⟩) :
    Keeps (rrrExt mk x) ⟨k, o, x⟩ := by
  refine keeps_coded fun w hw => keeps_reserved (h _ _ _) fun hz => .trans ?_ (rrr_toBits_ofBits x)
  simp only [extW_ofCode, Bool.and_eq_true, beq_iff_eq] at hw hz
  rw [hw, zero_append_extract hz.2]
  simp only [rrrE, RRR.toBits, hz]

theorem keeps_rri {mk : BitVec 6 → BitVec 6 → BitVec 28 → Instr} (h : ∀ d a imm, encodeOp (mk d a imm) = some ⟨k, o, rriE d a imm⟩) :
    Keeps (rri mk x) ⟨k, o, x⟩ := keeps_ok (h _ _ _) (rri_toBits_ofBits x)

theorem keeps_rriShift {mk : BitVec 6 → BitVec 6 → BitVec 6 → Instr} (h : ∀ d a n, encodeOp (mk d a n) = some ⟨k, o, rriE d a (0#22 ++ n)⟩) :
    Keeps (rriShift mk x) ⟨k, o, x⟩ := by
  refine keeps_reserved (h _ _ _) fun hz => ?_
  rw [zero_append_extract (beq_iff_eq.1 hz)]
  exact rri_toBits_ofBits x

theorem keeps_memLoad {mk : BitVec 6 → BitVec 6 → BitVec 16 → BitVec 12 → Instr}
    (h : ∀ d a off l, encodeOp (mk d a off l) = some ⟨k, o, memE d a off l⟩) :
    Keeps (memLoad mk x) ⟨k, o, x⟩ := keeps_ok (h _ _ _ _) (mem_toBits_ofBits x)

theorem keeps_memStore {mk : BitVec 6 → BitVec 6 → BitVec 16 → Instr} (h : ∀ d a off, encodeOp (mk d a off) = some ⟨k, o, memE d a off 0⟩) :
    Keeps (memStore mk x) ⟨k, o, x⟩ := by
  refine keeps_reserved (h _ _ _) fun hz => ?_
  rw [← beq_iff_eq.1 hz]
  exact mem_toBits_ofBits x

theorem keeps_sys {zero : SysF → Bool} {mk : SysF → Instr} {ops : SysF → BitVec 40} (he : ∀ f, encodeOp (mk f) = some ⟨k, o, ops f⟩)
    (hx : ∀ f, zero f = true → ops f = f.toBits := by intro f hz; simp_all only [Bool.and_eq_true, beq_iff_eq, sysE, SysF.toBits]) :
    Keeps (sys zero mk x) ⟨k, o, x⟩ :=
  keeps_reserved (he _) fun hz => (hx _ hz).trans (sys_toBits_ofBits x)

theorem keeps_sys0 {i : Instr} (h : encodeOp i = some ⟨k, o, 0⟩) : Keeps (sys0 i x) ⟨k, o, x⟩ := by
  refine keeps_sys (fun _ => h) fun ⟨d, a, b, r, imm⟩ hz => ?_
  simp only [Bool.and_eq_true, beq_iff_eq] at hz
  simp only [hz]
  rfl

/-- A SYS syllable whose imm field holds a landing offset. -/
theorem keeps_sysLand {zero : SysF → Bool} {mk : SysF → Instr} {ops : SysF → BitVec 16 → BitVec 40}
    (he : ∀ f, encodeOp (mk f) = some ⟨k, o, ops f (landE f.land)⟩)
    (hx : ∀ f, zero f = true → ops f f.imm = f.toBits := by intro f hz; simp_all only [Bool.and_eq_true, beq_iff_eq, sysE, SysF.toBits]) :
    Keeps (sys (fun f => zero f && f.landOk) mk x) ⟨k, o, x⟩ := by
  refine keeps_sys he fun f hz => ?_
  obtain ⟨hz, hl⟩ := Bool.and_eq_true_iff.1 hz
  rw [landE_land hl, hx f hz]

theorem keeps_sysScope {zero : SysF → Bool} {mk : SysF → Scope → Instr} {ops : SysF → Scope → BitVec 40}
    (he : ∀ f sc, encodeOp (mk f sc) = some ⟨k, o, ops f sc⟩)
    (hx : ∀ f sc, zero f = true → scopeE sc = f.x → ops f sc = f.toBits) : Keeps (sysScope zero mk x) ⟨k, o, x⟩ := by
  refine keeps_coded fun sc hc => keeps_reserved (he _ _) fun hz => ?_
  rw [toNat_mod_eight] at hc
  simp only [scope_ofCode, Bool.and_eq_true, beq_iff_eq] at hc hz
  exact (hx _ _ hz.1 (scopeE_of_extract hc hz.2)).trans (sys_toBits_ofBits x)

theorem keeps_sysQ {kind : Bool} {zero : SysF → Bool} {mk : SysF → QCtl → Instr} {ops : SysF → QCtl → BitVec 40}
    (he : ∀ f q, encodeOp (mk f q) = some ⟨k, o, ops f q⟩)
    (hx : ∀ f q, zero f = true → qE (f.imm.extractLsb' 9 2) q = f.imm → (kind || f.imm.extractLsb' 9 2 == 0) = true → ops f q = f.toBits := by
      intro f q hz hq hk; simp_all only [Bool.and_eq_true, beq_iff_eq, Bool.false_or, sysE, SysF.toBits]) :
    Keeps (sysQ kind zero mk x) ⟨k, o, x⟩ := by
  refine keeps_coded fun sc hc => keeps_reserved (he _ _) fun hz => ?_
  simp only [scope_ofCode, Bool.and_eq_true, beq_iff_eq] at hc hz
  exact (hx _ _ hz.1.1 (qE_of_extract hc hz.1.2) hz.2).trans (sys_toBits_ofBits x)

theorem keeps_vec {zero : VecF → Bool} {mk : VecF → ETy → Instr} {ops : VecF → ETy → BitVec 40}
    (he : ∀ f t, encodeOp (mk f t) = some ⟨k, o, ops f t⟩) (hx : ∀ f t, zero f = true → t.code = f.ty → ops f t = f.toBits) :
    Keeps (vec zero mk x) ⟨k, o, x⟩ :=
  keeps_coded fun _ hc => keeps_reserved (he _ _) fun hz => (hx _ _ hz (eTy_ofCode.1 hc)).trans (vec_toBits_ofBits x)

theorem keeps_vec3 {mk : ETy → BitVec 6 → BitVec 6 → BitVec 6 → BitVec 3 → Instr}
    (h : ∀ t d a b m, encodeOp (mk t d a b m) = some ⟨k, o, vecE d a b m t 0⟩) :
    Keeps (vec3 mk x) ⟨k, o, x⟩ := by
  refine keeps_vec (fun _ _ => h _ _ _ _ _) fun _ _ hz ht => ?_
  rw [vecE, ht, ← beq_iff_eq.1 hz]

theorem keeps_vec2 {mk : ETy → BitVec 6 → BitVec 6 → BitVec 3 → Instr} (h : ∀ t d a m, encodeOp (mk t d a m) = some ⟨k, o, vecE d a 0 m t 0⟩) :
    Keeps (vec2 mk x) ⟨k, o, x⟩ := by
  refine keeps_vec (fun _ _ => h _ _ _ _) fun _ _ hz ht => ?_
  simp only [Bool.and_eq_true, beq_iff_eq] at hz
  rw [vecE, ht, ← hz.1, ← hz.2]

theorem keeps_vecSat {mk : ETy → BitVec 6 → BitVec 6 → BitVec 6 → BitVec 3 → Bool → Bool → Instr}
    (h : ∀ t d a b m sat u, encodeOp (mk t d a b m sat u) = some ⟨k, o, vecE d a b m t (0#14 ++ bit u ++ bit sat)⟩) :
    Keeps (vecSat mk x) ⟨k, o, x⟩ := by
  refine keeps_vec (fun _ _ => h _ _ _ _ _ _ _) fun f t hz ht => ?_
  rw [vecE, ht, bit_flag, bit_flag, zero_append_extract₂ (m := 14) (beq_iff_eq.1 hz)]

theorem keeps_vecU {mk : ETy → BitVec 6 → BitVec 6 → BitVec 6 → BitVec 3 → Bool → Instr}
    (h : ∀ t d a b m u, encodeOp (mk t d a b m u) = some ⟨k, o, vecE d a b m t (0#14 ++ bit u ++ 0#1)⟩) : Keeps (vecU mk x) ⟨k, o, x⟩ := by
  refine keeps_vec (fun _ _ => h _ _ _ _ _ _) fun f t hz ht => ?_
  simp only [Bool.and_eq_true, beq_iff_eq] at hz
  obtain ⟨hz, hlow⟩ := hz
  rw [vecE, ht, bit_flag, show 0#1 = f.fn.extractLsb' 0 1 from hlow.symm, zero_append_extract₂ (m := 14) hz]

theorem keeps_vecIdx {n : Nat} {pad : BitVec n → BitVec 16} (hpad : ∀ j, (pad j).toNat = j.toNat)
    {mk : ETy → BitVec 6 → BitVec 6 → BitVec n → BitVec 3 → Instr} (h : ∀ t d a j m, encodeOp (mk t d a j m) = some ⟨k, o, vecE d a 0 m t (pad j)⟩) :
    Keeps (vecIdx n mk x) ⟨k, o, x⟩ := by
  refine keeps_vec (fun _ _ => h _ _ _ _ _) fun f t hz ht => ?_
  simp only [Bool.and_eq_true, beq_iff_eq, decide_eq_true_eq] at hz
  obtain ⟨hb, hlt⟩ := hz
  have hj : pad (f.fn.extractLsb' 0 n) = f.fn := by
    apply BitVec.eq_of_toNat_eq
    rw [hpad, BitVec.extractLsb'_toNat, Nat.shiftRight_zero, Nat.mod_eq_of_lt hlt]
  rw [vecE, ht, hj, ← hb]

theorem keeps_vecElem {mk : ETy → BitVec 6 → BitVec 6 → BitVec 4 → BitVec 8 → BitVec 3 → Instr}
    (h : ∀ t d a row col m, encodeOp (mk t d a row col m) = some ⟨k, o, vecE d a 0 m t (0#4 ++ col ++ row)⟩) : Keeps (vecElem mk x) ⟨k, o, x⟩ := by
  refine keeps_vec (fun _ _ => h _ _ _ _ _ _) fun f t hz ht => ?_
  simp only [Bool.and_eq_true, beq_iff_eq] at hz
  rw [vecE, ht, zero_append_extract₂ (m := 4) hz.2, ← hz.1]

theorem keeps_vecRed {mk : RedOp → Bool → ETy → BitVec 6 → BitVec 6 → BitVec 3 → Instr}
    (h : ∀ op u t d a m, encodeOp (mk op u t d a m) = some ⟨k, o, vecE d a 0 m t (0#12 ++ bit u ++ op.code)⟩) : Keeps (vecRed mk x) ⟨k, o, x⟩ := by
  refine keeps_coded fun op hop => keeps_coded fun t ht => keeps_reserved (h _ _ _ _ _ _) fun hz => ?_
  simp only [redOp_ofCode, eTy_ofCode, Bool.and_eq_true, beq_iff_eq] at hop ht hz
  rw [vecE, ht, hop, bit_flag, zero_append_extract₂ (m := 12) hz.2, ← hz.1]
  exact vec_toBits_ofBits x

theorem keeps_vecCvt {zero : VecF → Bool} {mk : VecF → ETy → ETy → Instr} {ops : VecF → ETy → ETy → BitVec 40}
    (he : ∀ f dt st, encodeOp (mk f dt st) = some ⟨k, o, ops f dt st⟩)
    (hx : ∀ f dt st, zero f = true → dt.code = f.ty →
      cvtE (flag (f.fn.extractLsb' 5 1)) (flag (f.fn.extractLsb' 4 1)) (flag (f.fn.extractLsb' 3 1)) st = f.fn → ops f dt st = f.toBits) :
    Keeps (vecCvt zero mk x) ⟨k, o, x⟩ := by
  refine keeps_coded fun st hst => keeps_coded fun dt hdt => keeps_reserved (he _ _ _) fun hz => ?_
  simp only [eTy_ofCode, Bool.and_eq_true, beq_iff_eq] at hst hdt hz
  exact (hx _ _ _ hz.1 hdt (cvtE_of_extract hst hz.2)).trans (vec_toBits_ofBits x)

theorem keeps_mat {zero : MatF → Bool} {mk : MatF → Instr} {ops : MatF → BitVec 40} (he : ∀ f, encodeOp (mk f) = some ⟨k, o, ops f⟩)
    (hx : ∀ f, zero f = true → ops f = f.toBits := by
      intro f hz; simp_all only [Bool.and_eq_true, beq_iff_eq, matE, maccE, MatF.toBits, bit_flag, bit_false]) : Keeps (mat zero mk x) ⟨k, o, x⟩ :=
  keeps_reserved (he _) fun hz => (hx _ hz).trans (mat_toBits_ofBits x)

theorem keeps_matMma {mk : MmaF → Instr} (h : ∀ f, encodeOp (mk f) = some ⟨k, o, mmaE f⟩) : Keeps (matMma mk x) ⟨k, o, x⟩ := by
  refine keeps_coded fun c hc => keeps_ok (h _) ?_
  simp only [mmaE, mmaCtl_ofCode.1 hc, bit_flag]
  exact mat_toBits_ofBits x

end

/-! Opcodes with operands of their own shape: the common class (R65). -/

section
variable (x : BitVec 40)

theorem keeps_lea : Keeps (decodeCommon 0x01E x) ⟨0, 0x01E, x⟩ := by
  delta decodeCommon
  refine keeps_reserved rfl fun hz => ?_
  simp only [Bool.and_eq_true, beq_iff_eq] at hz
  rw [zero_append_extract hz.2, ← hz.1]
  exact rrr_toBits_ofBits x

theorem keeps_bext : Keeps (decodeCommon 0x01F x) ⟨0, 0x01F, x⟩ := by
  delta decodeCommon
  refine keeps_reserved rfl fun hz => ?_
  rw [bit_flag, zero_append_extract (beq_iff_eq.1 hz)]
  exact rrr_toBits_ofBits x

theorem keeps_movhi : Keeps (decodeCommon 0x049 x) ⟨0, 0x049, x⟩ := by
  delta decodeCommon
  refine keeps_reserved rfl fun hz => ?_
  rw [zero_append_extract (beq_iff_eq.1 hz)]
  exact rif_toBits_ofBits x

theorem keeps_bexti : Keeps (decodeCommon 0x04A x) ⟨0, 0x04A, x⟩ := by
  delta decodeCommon
  refine keeps_reserved rfl fun hz => ?_
  rw [bit_flag, zero_append_extract₃ (m := 13) (l₂ := 1) (l := 7) (n := 7) (beq_iff_eq.1 hz)]
  exact rri_toBits_ofBits x

theorem keeps_binsi : Keeps (decodeCommon 0x04B x) ⟨0, 0x04B, x⟩ := by
  delta decodeCommon
  refine keeps_reserved rfl fun hz => ?_
  rw [zero_append_extract₂ (m := 14) (beq_iff_eq.1 hz)]
  exact rri_toBits_ofBits x

theorem keeps_cmp : Keeps (decodeCommon 0x060 x) ⟨0, 0x060, x⟩ := by
  delta decodeCommon
  refine keeps_coded fun c hc => keeps_reserved rfl fun hz => ?_
  simp only [cond_ofCode, Bool.and_eq_true, beq_iff_eq] at hc hz
  rw [hc, zero_append_extract hz.2, ← hz.1, extractLsb'_append_extractLsb' (w := 3)]
  exact rrr_toBits_ofBits x

theorem keeps_cmpi : Keeps (decodeCommon 0x061 x) ⟨0, 0x061, x⟩ := by
  delta decodeCommon
  refine keeps_coded fun c hc => keeps_ok rfl ?_
  rw [cond_ofCode.1 hc, extractLsb'_append_extractLsb' (w := 3) (len := 25), extractLsb'_append_extractLsb' (w := 3)]
  exact rri_toBits_ofBits x

theorem keeps_fcmp : Keeps (decodeCommon 0x062 x) ⟨0, 0x062, x⟩ := by
  delta decodeCommon
  refine keeps_coded fun c hc => keeps_reserved rfl fun hz => ?_
  simp only [fCond_ofCode, Bool.and_eq_true, beq_iff_eq] at hc hz
  rw [hc, zero_append_extract hz.2, ← hz.1, extractLsb'_append_extractLsb' (w := 3)]
  exact rrr_toBits_ofBits x

theorem keeps_plog : Keeps (decodeCommon 0x063 x) ⟨0, 0x063, x⟩ := by
  delta decodeCommon
  refine keeps_reserved rfl fun hz => .trans ?_ (rrr_toBits_ofBits x)
  simp only [Bool.and_eq_true, beq_iff_eq] at hz
  rw [zero_append_extract hz.2, extractLsb'_append_extractLsb' (w := 3), extractLsb'_append_extractLsb' (w := 3)]
  simp only [rrrE, RRR.toBits, hz]

theorem keeps_pget : Keeps (decodeCommon 0x064 x) ⟨0, 0x064, x⟩ := by
  delta decodeCommon
  refine keeps_reserved rfl fun hz => .trans ?_ (rrr_toBits_ofBits x)
  simp only [Bool.and_eq_true, beq_iff_eq] at hz
  simp only [rrrE, RRR.toBits, hz]

theorem keeps_pset : Keeps (decodeCommon 0x065 x) ⟨0, 0x065, x⟩ := by
  delta decodeCommon
  refine keeps_reserved rfl fun hz => .trans ?_ (rrr_toBits_ofBits x)
  simp only [Bool.and_eq_true, beq_iff_eq] at hz
  rw [zero_append_extract hz.2]
  simp only [rrrE, RRR.toBits, hz]

theorem keeps_fcvt : Keeps (decodeCommon 0x088 x) ⟨0, 0x088, x⟩ := by
  delta decodeCommon
  refine keeps_coded fun src hs => keeps_coded fun dst hd => keeps_reserved rfl fun hz => .trans ?_ (rrr_toBits_ofBits x)
  simp only [cTy_ofCode, Bool.and_eq_true, beq_iff_eq] at hs hd hz
  rw [hs, hd, bit_flag, zero_append_extract₃ (m := 9) (l₂ := 1) (l := 3) (n := 3) hz.2]
  simp only [rrrE, RRR.toBits, hz]

theorem keeps_evTest : Keeps (decodeCommon 0x0C3 x) ⟨0, 0x0C3, x⟩ := by
  delta decodeCommon
  refine keeps_sys (fun _ => rfl) fun f hz => ?_
  simp only [Bool.and_eq_true, beq_iff_eq] at hz
  rw [extractLsb'_append_extractLsb' (w := 3)]
  simp only [sysE, SysF.toBits, hz]

theorem keeps_amo : Keeps (decodeCommon 0x140 x) ⟨0, 0x140, x⟩ := by
  delta decodeCommon
  refine keeps_coded fun sc hc => keeps_ok rfl ?_
  rw [amoOp_code, scope_ofCode.1 hc, amoE_of_extract, extractLsb'_append_extractLsb' (w := 3)]
  exact rrr_toBits_ofBits x

theorem keeps_cas : Keeps (decodeCommon 0x141 x) ⟨0, 0x141, x⟩ := by
  delta decodeCommon
  refine keeps_coded fun sc hc => keeps_ite (fun hz => keeps_ok rfl ?_) fun _ => keeps_error
  rw [scope_ofCode.1 hc, amoE_of_extract, zero_append_extract (beq_iff_eq.1 hz)]
  exact rrr_toBits_ofBits x

theorem keeps_stmr : Keeps (decodeCommon 0x142 x) ⟨0, 0x142, x⟩ := by
  delta decodeCommon
  refine keeps_reserved rfl fun hz => .trans ?_ (rrr_toBits_ofBits x)
  simp only [Bool.and_eq_true, beq_iff_eq] at hz
  rw [width_code, show 0#14 = _ from hz.2.symm, extractLsb'_append_extractLsb' (w := 2)]
  simp only [rrrE, RRR.toBits, hz]

theorem keeps_phase : Keeps (decodeCommon 0x148 x) ⟨0, 0x148, x⟩ := by
  delta decodeCommon
  refine keeps_sysScope (fun _ _ => rfl) fun f sc hz hsc => ?_
  simp only [Bool.and_eq_true, beq_iff_eq] at hz
  simp only [sysE, SysF.toBits, hz, hsc]

theorem keeps_fenceMk : Keeps (decodeCommon 0x149 x) ⟨0, 0x149, x⟩ := by
  delta decodeCommon
  refine keeps_sys (fun _ => rfl) fun f hz => ?_
  simp only [Bool.and_eq_true, beq_iff_eq] at hz
  rw [zero_append_extract hz.2]
  simp only [sysE, SysF.toBits, hz]

theorem keeps_gjoin : Keeps (decodeCommon 0x150 x) ⟨0, 0x150, x⟩ := by
  delta decodeCommon
  refine keeps_sysScope (fun _ _ => rfl) fun f sc hz hsc => ?_
  simp only [Bool.and_eq_true, beq_iff_eq] at hz
  simp only [sysE, SysF.toBits, hz, hsc, landE_land hz.2]

theorem keeps_ntag : Keeps (decodeCommon 0x185 x) ⟨0, 0x185, x⟩ := by
  delta decodeCommon
  refine keeps_sys (fun _ => rfl) fun f hz => ?_
  simp only [Bool.and_eq_true, beq_iff_eq] at hz
  rw [zero_append_extract hz.2]
  simp only [sysE, SysF.toBits, hz]

theorem keeps_boostReq : Keeps (decodeCommon 0x18E x) ⟨0, 0x18E, x⟩ := by
  delta decodeCommon
  refine keeps_coded fun c hc => keeps_reserved rfl fun hz => .trans ?_ (sys_toBits_ofBits x)
  simp only [level_ofCode, Bool.and_eq_true, beq_iff_eq] at hc hz
  rw [hc, zero_append_extract hz.2]
  simp only [sysE, SysF.toBits, hz]

theorem keeps_track : Keeps (decodeCommon 0x19A x) ⟨0, 0x19A, x⟩ := by
  delta decodeCommon
  refine keeps_coded fun c hc => keeps_reserved rfl fun hz => .trans ?_ (sys_toBits_ofBits x)
  simp only [trackOp_ofCode, Bool.and_eq_true, beq_iff_eq] at hc hz
  rw [hc, zero_append_extract hz.2]
  simp only [sysE, SysF.toBits, hz]

theorem keeps_rgnKeep : Keeps (decodeCommon 0x1C1 x) ⟨0, 0x1C1, x⟩ := by
  delta decodeCommon
  refine keeps_coded fun c hc => keeps_reserved rfl fun hz => .trans ?_ (sys_toBits_ofBits x)
  simp only [keepKind_ofCode, Bool.and_eq_true, beq_iff_eq] at hc hz
  rw [hc, zero_append_extract hz.2]
  simp only [sysE, SysF.toBits, hz]

theorem keeps_lifeSet : Keeps (decodeCommon 0x1E0 x) ⟨0, 0x1E0, x⟩ := by
  delta decodeCommon
  refine keeps_coded fun c hc => keeps_coded fun p hp => keeps_reserved rfl fun hz => .trans ?_ (sys_toBits_ofBits x)
  simp only [lifeClass_ofCode, lifePolicy_ofCode, Bool.and_eq_true, beq_iff_eq] at hc hp hz
  rw [hc, hp, zero_append_extract₂ (m := 11) hz.2]
  simp only [sysE, SysF.toBits, hz]

/-! The L class (R66). -/

theorem keeps_ldtG : Keeps (decodeL 0x002 x) ⟨1, 0x002, x⟩ := by
  delta decodeL
  refine keeps_reserved rfl fun hz => .trans ?_ (rrr_toBits_ofBits x)
  simp only [Bool.and_eq_true, beq_iff_eq] at hz
  rw [landE, zero_append_extract hz.2]
  simp only [rrrE, RRR.toBits, hz]

theorem keeps_cpWait : Keeps (decodeL 0x014 x) ⟨1, 0x014, x⟩ := by
  delta decodeL
  refine keeps_sysScope (fun _ _ => rfl) fun f sc hz hsc => ?_
  simp only [Bool.and_eq_true, beq_iff_eq] at hz
  simp only [sysE, SysF.toBits, hz, hsc, landE_land hz.2]

theorem keeps_cpResume : Keeps (decodeL 0x015 x) ⟨1, 0x015, x⟩ := by
  delta decodeL
  refine keeps_sysQ (fun _ _ => rfl) fun f q _ hq _ => ?_
  rw [copyKind_code, hq, sysE]

/-! The V class (R67). -/

theorem keeps_vshape : Keeps (decodeV 0x000 x) ⟨2, 0x000, x⟩ := by
  delta decodeV
  refine keeps_vec (fun _ _ => rfl) fun f t hz ht => ?_
  simp only [Bool.and_eq_true, beq_iff_eq] at hz
  rw [zero_append_extract₂ (m := 4) hz.2]
  simp only [vecE, VecF.toBits, ht, hz]

theorem keeps_vzero : Keeps (decodeV 0x005 x) ⟨2, 0x005, x⟩ := by
  delta decodeV
  refine keeps_vec (fun _ _ => rfl) fun f t hz ht => ?_
  simp only [Bool.and_eq_true, beq_iff_eq] at hz
  simp only [vecE, VecF.toBits, ht, hz]

theorem keeps_vcmp : Keeps (decodeV 0x030 x) ⟨2, 0x030, x⟩ := by
  delta decodeV
  refine keeps_coded fun t ht => keeps_coded fun c hc => keeps_reserved rfl fun hz => .trans ?_ (vec_toBits_ofBits x)
  rw [vecE, eTy_ofCode.1 ht, (vCond_ofCode.1 hc).1, zero_append_extract (beq_iff_eq.1 hz)]

theorem keeps_vsel : Keeps (decodeV 0x031 x) ⟨2, 0x031, x⟩ := by
  delta decodeV
  refine keeps_vec (fun _ _ => rfl) fun f t hz ht => ?_
  rw [vecE, ht, zero_append_extract (beq_iff_eq.1 hz)]

theorem keeps_vklog : Keeps (decodeV 0x032 x) ⟨2, 0x032, x⟩ := by
  delta decodeV
  refine keeps_reserved rfl fun hz => .trans ?_ (vec_toBits_ofBits x)
  simp only [Bool.and_eq_true, beq_iff_eq] at hz
  rw [zero_append_extract hz.2]
  simp only [VecF.toBits, hz]

theorem keeps_vkcnt : Keeps (decodeV 0x033 x) ⟨2, 0x033, x⟩ := by
  delta decodeV
  refine keeps_reserved rfl fun hz => .trans ?_ (vec_toBits_ofBits x)
  simp only [Bool.and_eq_true, beq_iff_eq] at hz
  simp only [VecF.toBits, hz]

theorem keeps_vcvt : Keeps (decodeV 0x050 x) ⟨2, 0x050, x⟩ := by
  delta decodeV
  refine keeps_vecCvt (fun _ _ _ => rfl) fun f dt st hz hdt hfn => ?_
  simp only [Bool.and_eq_true, beq_iff_eq] at hz
  have hhi : flag (f.fn.extractLsb' 5 1) = false := congrArg flag hz.2
  rw [hhi] at hfn
  rw [vecE, hdt, hfn, ← hz.1]

theorem keeps_vpack : Keeps (decodeV 0x051 x) ⟨2, 0x051, x⟩ := by
  delta decodeV
  refine keeps_vecCvt (fun _ _ _ => rfl) fun f dt st hz hdt hfn => ?_
  have hhi : flag (f.fn.extractLsb' 5 1) = false := congrArg flag (beq_iff_eq.1 hz)
  rw [hhi] at hfn
  rw [vecE, hdt, hfn]

theorem keeps_vunpk : Keeps (decodeV 0x052 x) ⟨2, 0x052, x⟩ := by
  delta decodeV
  refine keeps_vecCvt (fun _ _ _ => rfl) fun f dt st hz hdt hfn => ?_
  simp only [Bool.and_eq_true, beq_iff_eq] at hz
  obtain ⟨hsat, hrz⟩ := flags_false_of_extract hz.2
  rw [hsat, hrz] at hfn
  rw [vecE, hdt, hfn, ← hz.1]

/-! The M class (R68). -/

theorem keeps_mwLoad : Keeps (decodeM 0x000 x) ⟨3, 0x000, x⟩ := by
  delta decodeM
  refine keeps_coded fun fm hf => keeps_ite (fun hc => keeps_reserved rfl fun hz => .trans ?_ (mat_toBits_ofBits x)) fun _ => keeps_error
  simp only [mFmt_ofCode, Bool.and_eq_true, beq_iff_eq] at hf hz
  simp only [matE, MatF.toBits, bit_flag, hf, hz, zero_append_bit_of_lt hc]

theorem keeps_mwLoads : Keeps (decodeM 0x001 x) ⟨3, 0x001, x⟩ := by
  delta decodeM
  refine keeps_coded fun fm hf => keeps_coded fun n hn => keeps_reserved rfl fun hz => .trans ?_ (mat_toBits_ofBits x)
  simp only [mFmt_ofCode, sparse_ofCode, Bool.and_eq_true, beq_iff_eq] at hf hn hz
  simp only [matE, MatF.toBits, bit_flag, hf, hn, hz]

theorem keeps_mfmt : Keeps (decodeM 0x008 x) ⟨3, 0x008, x⟩ := by
  delta decodeM
  refine keeps_coded fun fm hf => keeps_ite (fun hc => keeps_reserved rfl fun hz => .trans ?_ (mat_toBits_ofBits x)) fun _ => keeps_error
  simp only [mFmt_ofCode, Bool.and_eq_true, beq_iff_eq] at hf hz
  simp only [matE, MatF.toBits, hf, hz, zero_append_bit_of_lt hc]

theorem keeps_maccCvt : Keeps (decodeM 0x01A x) ⟨3, 0x01A, x⟩ := by
  delta decodeM
  refine keeps_ite (fun hc => keeps_reserved rfl fun hz => .trans ?_ (mat_toBits_ofBits x)) fun _ => keeps_error
  simp only [Bool.and_eq_true, beq_iff_eq] at hz
  simp only [maccE, MatF.toBits, hz, zero_append_bit_of_lt hc]
  rfl

end

/-! The opcodes of each class, in the order of its table (R65 to R68). -/

theorem keeps_decodeCommon (n : Nat) (x : BitVec 40) : Keeps (decodeCommon n x) ⟨0, BitVec.ofNat 10 n, x⟩ := by
  unfold decodeCommon
  split
  iterate 22 exact keeps_rrr3 fun _ _ _ => rfl
  iterate 5 exact keeps_rrr2 fun _ _ => rfl
  iterate 2 exact keeps_rrrExt fun _ _ _ => rfl
  · exact keeps_rrr4 fun _ _ _ _ => rfl
  · exact keeps_lea x
  · exact keeps_bext x
  · exact keeps_rrr4 fun _ _ _ _ => rfl
  iterate 5 exact keeps_rri fun _ _ _ => rfl
  iterate 3 exact keeps_rriShift fun _ _ _ => rfl
  · exact keeps_ok rfl (rif_toBits_ofBits x)
  · exact keeps_movhi x
  · exact keeps_bexti x
  · exact keeps_binsi x
  · exact keeps_cmp x
  · exact keeps_cmpi x
  · exact keeps_fcmp x
  · exact keeps_plog x
  · exact keeps_pget x
  · exact keeps_pset x
  iterate 3 exact keeps_rrr3 fun _ _ _ => rfl
  · exact keeps_rrr4 fun _ _ _ _ => rfl
  iterate 3 exact keeps_rrr3 fun _ _ _ => rfl
  · exact keeps_rrr2 fun _ _ => rfl
  · exact keeps_fcvt x
  · exact keeps_ok rfl (pb_toBits_ofBits x)
  · exact keeps_rri fun _ _ _ => rfl
  iterate 4 exact keeps_sys fun _ => rfl
  · exact keeps_sys0 rfl
  iterate 3 exact keeps_sys fun _ => rfl
  · exact keeps_evTest x
  iterate 7 exact keeps_memLoad fun _ _ _ _ => rfl
  iterate 4 exact keeps_memStore fun _ _ _ => rfl
  · exact keeps_amo x
  · exact keeps_cas x
  · exact keeps_stmr x
  · exact keeps_phase x
  · exact keeps_fenceMk x
  · exact keeps_sys0 rfl
  · exact keeps_gjoin x
  iterate 4 exact keeps_sys fun _ => rfl
  iterate 2 exact keeps_sysLand fun _ => rfl
  · exact keeps_sys fun _ => rfl
  iterate 2 exact keeps_sys0 rfl
  · exact keeps_ntag x
  iterate 2 exact keeps_sys0 rfl
  · exact keeps_sysLand fun _ => rfl
  iterate 2 exact keeps_sys0 rfl
  · exact keeps_sys fun _ => rfl
  · exact keeps_boostReq x
  iterate 2 exact keeps_sys fun _ => rfl
  · exact keeps_sysLand fun _ => rfl
  iterate 2 exact keeps_sys fun _ => rfl
  · exact keeps_track x
  · exact keeps_sys0 rfl
  · exact keeps_rgnKeep x
  iterate 2 exact keeps_sys0 rfl
  · exact keeps_sys fun _ => rfl
  · exact keeps_lifeSet x
  · exact keeps_sysLand fun _ => rfl
  · exact keeps_sys fun _ => rfl
  · exact keeps_error

theorem keeps_decodeL (n : Nat) (x : BitVec 40) : Keeps (decodeL n x) ⟨1, BitVec.ofNat 10 n, x⟩ := by
  unfold decodeL
  split
  · exact keeps_memLoad fun _ _ _ _ => rfl
  · exact keeps_memStore fun _ _ _ => rfl
  · exact keeps_ldtG x
  · exact keeps_rrr3 fun _ _ _ => rfl
  · exact keeps_sysLand fun _ => rfl
  iterate 2 exact keeps_sys fun _ => rfl
  iterate 4 exact keeps_sysQ fun _ _ => rfl
  · exact keeps_cpWait x
  · exact keeps_cpResume x
  iterate 7 exact keeps_sysQ fun _ _ => rfl
  · exact keeps_error

theorem keeps_decodeV (n : Nat) (x : BitVec 40) : Keeps (decodeV n x) ⟨2, BitVec.ofNat 10 n, x⟩ := by
  unfold decodeV
  split
  · exact keeps_vshape x
  iterate 2 exact keeps_vec2 fun _ _ _ _ => rfl
  iterate 2 exact keeps_vecElem fun _ _ _ _ _ _ => rfl
  · exact keeps_vzero x
  · exact keeps_vec2 fun _ _ _ _ => rfl
  iterate 6 exact keeps_vec3 fun _ _ _ _ _ => rfl
  iterate 2 exact keeps_vec2 fun _ _ _ _ => rfl
  · exact keeps_vec3 fun _ _ _ _ _ => rfl
  · exact keeps_vec2 fun _ _ _ _ => rfl
  · exact keeps_vec3 fun _ _ _ _ _ => rfl
  iterate 3 exact keeps_vecSat fun _ _ _ _ _ _ _ => rfl
  iterate 2 exact keeps_vecU fun _ _ _ _ _ _ => rfl
  iterate 6 exact keeps_vec3 fun _ _ _ _ _ => rfl
  · exact keeps_vcmp x
  · exact keeps_vsel x
  · exact keeps_vklog x
  · exact keeps_vkcnt x
  iterate 8 exact keeps_vec2 fun _ _ _ _ => rfl
  · exact keeps_vcvt x
  · exact keeps_vpack x
  · exact keeps_vunpk x
  · exact keeps_vecIdx (pad := (0#8 ++ ·)) toNat_zero_append fun _ _ _ _ _ => rfl
  · exact keeps_vecIdx (pad := (0#12 ++ ·)) toNat_zero_append fun _ _ _ _ _ => rfl
  · exact keeps_vecIdx (pad := (0#8 ++ ·)) toNat_zero_append fun _ _ _ _ _ => rfl
  · exact keeps_vecIdx (pad := (0#12 ++ ·)) toNat_zero_append fun _ _ _ _ _ => rfl
  iterate 2 exact keeps_vecRed fun _ _ _ _ _ _ => rfl
  · exact keeps_vec3 fun _ _ _ _ _ => rfl
  · exact keeps_vecIdx (pad := (0#12 ++ ·)) toNat_zero_append fun _ _ _ _ _ => rfl
  · exact keeps_error

theorem keeps_decodeM (n : Nat) (x : BitVec 40) : Keeps (decodeM n x) ⟨3, BitVec.ofNat 10 n, x⟩ := by
  unfold decodeM
  split
  · exact keeps_mwLoad x
  · exact keeps_mwLoads x
  · exact keeps_mat fun _ => rfl
  · exact keeps_mfmt x
  iterate 2 exact keeps_matMma fun _ => rfl
  iterate 2 exact keeps_mat fun _ => rfl
  · exact keeps_maccCvt x
  iterate 4 exact keeps_mat fun _ => rfl
  · exact keeps_error

theorem keeps_decodeOp (k : BitVec 2) (o : BitVec 10) (x : BitVec 40) : Keeps (decodeOp k.toNat o.toNat x) ⟨k, o, x⟩ := by
  have ho : BitVec.ofNat 10 o.toNat = o := by simp
  have hcommon := keeps_decodeCommon o.toNat x
  have hL := keeps_decodeL o.toNat x
  have hV := keeps_decodeV o.toNat x
  have hM := keeps_decodeM o.toNat x
  rw [ho] at hcommon hL hV hM
  have hk : k = 0 ∨ k = 1 ∨ k = 2 ∨ k = 3 := by revert k; decide
  rcases hk with rfl | rfl | rfl | rfl
  · exact hcommon
  · exact hL
  · exact hV
  · exact hM

end Sys2Proof.Proofs
end

section
/-! SUPPORT. Words: the encoding and decoding of whole syllables (R38, R49, R53), and the traps of those that fail (R52). -/

namespace Sys2Proof.Proofs
open Sys2Proof.Machine Sys2Proof.Laws
open BitVec (extractLsb'_eq_self extractLsb'_append_eq_of_le extractLsb'_append_eq_of_add_le extractLsb'_append_extractLsb'_eq_extractLsb')

theorem word_fields (c : BitVec 12) (k : BitVec 2) (o : BitVec 10) (x : BitVec 40) :
    (c ++ k ++ o ++ x : Word).extractLsb' 52 12 = c ∧ (c ++ k ++ o ++ x : Word).extractLsb' 50 2 = k ∧
      (c ++ k ++ o ++ x : Word).extractLsb' 40 10 = o ∧ (c ++ k ++ o ++ x : Word).extractLsb' 0 40 = x := by
  simp (disch := omega) only [extractLsb'_append_eq_of_le, extractLsb'_append_eq_of_add_le, Nat.reduceSub, extractLsb'_eq_self, and_self]

theorem word_bits (w : Word) : w.extractLsb' 52 12 ++ w.extractLsb' 50 2 ++ w.extractLsb' 40 10 ++ w.extractLsb' 0 40 = w := by
  simp only [extractLsb'_append_extractLsb'_eq_extractLsb']
  exact extractLsb'_eq_self

theorem encode_of_encodeOp {c : Ctl} {i : Instr} {e : Encoded} (he : encodeOp i = some e) : encode c i = some (c.toBits ++ e.cls ++ e.opc ++ e.ops) := by
  rw [encode, he]

/-- What decode answers (R49, R53). -/
theorem decode_eq_ok_iff {w : Word} {c : Ctl} {i : Instr} : decode w = .ok (c, i) ↔
    Ctl.ofBits (w.extractLsb' 52 12) = c ∧ decodeOp (w.extractLsb' 50 2).toNat (w.extractLsb' 40 10).toNat (w.extractLsb' 0 40) = .ok i ∧
      WellFormed i = true ∧ (needsSync i = true → c.sync = true) := by
  unfold decode WellFormed
  dsimp only
  generalize decodeOp _ _ _ = p
  cases p with
  | error e => simp only [reduceCtorEq, false_and, and_false]
  | ok j =>
    rw [Except.ok.injEq]
    cases hm : malformed j with
    | some e =>
      simp only [hm, reduceCtorEq, false_iff]
      rintro ⟨-, rfl, hn, -⟩
      simp [hm] at hn
    | none =>
      simp only [hm]
      constructor
      · intro h
        split at h
        · cases h
        · next hs =>
          obtain ⟨rfl, rfl⟩ := Prod.mk.inj (Except.ok.inj h)
          exact ⟨rfl, rfl, by rw [hm]; rfl, by simpa using hs⟩
      · rintro ⟨rfl, rfl, -, hs⟩
        rw [if_neg]
        simpa using hs

/-- Settles O58: `restored_of_wellFormed` gives the instruction back from its class, opcode and operands, `ctl_ofBits_toBits` the control bits. -/
theorem encodingDecodes : Obligations.EncodingDecodes := by
  intro c i hw hs
  obtain ⟨e, he, hd⟩ := restored_of_wellFormed i hw
  refine ⟨_, encode_of_encodeOp he, decode_eq_ok_iff.2 ?_⟩
  obtain ⟨hctl, hcls, hopc, hops⟩ := word_fields c.toBits e.cls e.opc e.ops
  rw [hctl, hcls, hopc, hops]
  exact ⟨ctl_ofBits_toBits c, hd, hw, hs⟩

/-- Settles O59: `keeps_decodeOp` gives class, opcode and operands back from what the decoder read, and `word_bits` puts the word together again. -/
theorem decodingEncodes : Obligations.DecodingEncodes := by
  intro w c i h
  obtain ⟨rfl, hd, hw, -⟩ := decode_eq_ok_iff.1 h
  refine ⟨hw, (encode_of_encodeOp (keeps_decodeOp _ _ _ i hd)).trans ?_⟩
  rw [ctl_toBits_ofBits, word_bits]

/-- What an instruction's word decodes to. -/
theorem decode_of_encode {c : Ctl} {i : Instr} {w : Word} (hw : WellFormed i = true) (hs : needsSync i = true → c.sync = true)
    (he : encode c i = some w) : decode w = .ok (c, i) := by
  obtain ⟨w', he', hd⟩ := encodingDecodes c i hw hs
  rw [he] at he'
  exact Option.some.inj he' ▸ hd

/-- Settles O52: each of the words that decode is what the encoder writes, so `decode_of_encode` reads it; the other two are evaluated. -/
theorem wordsDecode : Obligations.WordsDecode :=
  ⟨decode_of_encode rfl nofun rfl, decode_of_encode rfl nofun rfl, decode_of_encode rfl nofun rfl, decode_of_encode rfl nofun rfl,
    decode_of_encode rfl nofun rfl, decode_of_encode rfl nofun rfl, decode_of_encode rfl nofun rfl,
    decode_of_encode rfl (fun _ => rfl) rfl, rfl, rfl⟩

/-! The syllables that are not executed: what the strand does with each (R52). -/

theorem take_malformed {ex : Instr → State → Out} {w : Word} {s : State} {e : Malformed} (h : decode w = .error e) :
    s.take ex w = s.trapCause .ILLEGAL := by
  rw [State.take, h]

theorem take_unaccepted {ex : Instr → State → Out} {w : Word} {s : State} {c : Ctl} {i : Instr} (h : decode w = .ok (c, i))
    (ha : strandAccepts w s.curStrand = false) : s.take ex w = s.trapCause .ILLEGAL := by
  simp only [State.take, h, ha, Bool.not_false, if_true]

theorem take_privileged {ex : Instr → State → Out} {w : Word} {s : State} {c : Ctl} {i : Instr} (h : decode w = .ok (c, i))
    (ha : strandAccepts w s.curStrand = true) (hu : s.superMode = false) (hp : privileged i = true) : s.take ex w = s.trapCause .PRIV := by
  simp [State.take, h, ha, hu, hp]

/-- The privileged instructions of R52. -/
theorem privileged_of_listed {i : Instr}
    (h : i = .eret ∨ (∃ d a b, i = .freeze d a b) ∨ (∃ x y z, i = .thaw x y z) ∨ (∃ x y z, i = .track x y z) ∨
      (∃ d n, i = .csrr d n ∧ csrHidden n.toNat = true) ∨ (∃ n a, i = .csrw n a ∧ csrUserWrites n.toNat = false)) : privileged i = true := by
  rcases h with rfl | ⟨d, a, b, rfl⟩ | ⟨x, y, z, rfl⟩ | ⟨x, y, z, rfl⟩ | ⟨d, n, rfl, hn⟩ | ⟨n, a, rfl, hn⟩
  case inr.inr.inr.inr.inl => exact hn
  case inr.inr.inr.inr.inr => exact congrArg not hn
  all_goals rfl

/-- Settles O54: in each case the strand takes a trap at the syllable, which is all that it does (`trapHere_traps`). -/
theorem decodeFaults : Obligations.DecodeFaults := by
  intro s w hs
  refine ⟨fun e he => ?_, fun c i hd => ⟨fun ha => ?_, fun ha hu hi => ?_⟩⟩
  · rw [take_malformed he]
    exact trapHere_traps s _ hs
  · rw [take_unaccepted hd ha]
    exact trapHere_traps s _ hs
  · rw [take_privileged hd ha hu (privileged_of_listed hi)]
    exact trapHere_traps s _ hs

end Sys2Proof.Proofs
end

section
/-! Rounding and NaNs (R72, R74, R75). -/

namespace Sys2Proof.Proofs
open Sys2Proof.Machine Sys2Proof.Spec

/-! The nearest multiple, ties to even (R72). -/

theorem dyadic_mul_two_pow (m n : Nat) (e : Int) : dyadic (m * 2 ^ n) e = dyadic m (e + n) := by
  unfold dyadic
  rw [zpow_add₀ (by norm_num), zpow_natCast]
  push_cast
  ring

/-- The distance of two multiples of 2^e, in units of 2^e. -/
theorem abs_dyadic_sub (a b : Nat) (e : Int) : |dyadic a e - dyadic b e| = (|(a : Int) - b| : Int) * (2 : ℚ) ^ e := by
  have h : dyadic a e - dyadic b e = ((a : ℚ) - b) * 2 ^ e := by unfold dyadic; ring
  rw [h, abs_mul, abs_of_pos (zpow_pos (by norm_num : (0 : ℚ) < 2) e)]
  push_cast
  rfl

theorem dyadic_inj {a b : Nat} {e : Int} : dyadic a e = dyadic b e ↔ a = b := by
  unfold dyadic
  rw [mul_left_inj' (zpow_ne_zero e (by norm_num)), Nat.cast_inj]

/-- Two multiples of d lie at least d apart. -/
theorem le_abs_mul_sub_mul {j k d : Nat} (h : j ≠ k) : (d : Int) ≤ |((j * d : Nat) : Int) - (k * d : Nat)| := by
  have hd : ((j * d : Nat) : Int) - (k * d : Nat) = ((j : Int) - k) * d := by push_cast; ring
  rw [hd, abs_mul, Nat.abs_cast]
  exact le_mul_of_one_le_left (Int.natCast_nonneg d) (Int.one_le_abs (by omega))

/-- m / 2h rounded to the nearest, ties to even. -/
def nearest (m h : Nat) : Nat :=
  if h < m % (2 * h) || (m % (2 * h) == h && m / (2 * h) % 2 == 1) then m / (2 * h) + 1 else m / (2 * h)

theorem nearest_within (m h : Nat) (hh : 0 < h) :
    |((nearest m h * (2 * h) : Nat) : Int) - m| ≤ h ∧ (|((nearest m h * (2 * h) : Nat) : Int) - m| = h → nearest m h % 2 = 0) := by
  have hm := Nat.div_add_mod' m (2 * h)
  have hr := Nat.mod_lt m (Nat.mul_pos two_pos hh)
  unfold nearest
  generalize m / (2 * h) = t at *
  generalize m % (2 * h) = r at *
  rw [abs_le, abs_eq (Int.natCast_nonneg h)]
  split
  · next up =>
    simp only [Bool.or_eq_true, Bool.and_eq_true, decide_eq_true_eq, beq_iff_eq] at up
    rw [Nat.succ_mul]
    omega
  · next down =>
    simp only [Bool.or_eq_true, Bool.and_eq_true, decide_eq_true_eq, beq_iff_eq] at down
    omega

/-- No multiple of 2h is nearer to m, and only beside an even quotient is another one as near. -/
theorem nearest_best (m h j : Nat) (hh : 0 < h) :
    |((nearest m h * (2 * h) : Nat) : Int) - m| ≤ |((j * (2 * h) : Nat) : Int) - m| ∧
      (j ≠ nearest m h → |((nearest m h * (2 * h) : Nat) : Int) - m| = |((j * (2 * h) : Nat) : Int) - m| → nearest m h % 2 = 0) := by
  obtain ⟨hle, heven⟩ := nearest_within m h hh
  by_cases hj : j = nearest m h
  · exact ⟨by rw [hj], fun hne => absurd hj hne⟩
  · have apart := le_abs_mul_sub_mul (d := 2 * h) hj
    have tri := abs_sub_le ((j * (2 * h) : Nat) : Int) m (nearest m h * (2 * h) : Nat)
    rw [abs_sub_comm (m : Int)] at tri
    exact ⟨by omega, fun _ he => heven (by omega)⟩

theorem roundAt_of_le {e q : Int} (m : Nat) (h : q ≤ e) : roundAt m e q = (m * 2 ^ (e - q).toNat, false) := if_pos h

theorem roundAt_of_lt {e q : Int} (m n : Nat) (h : q = e + (n + 1 : Nat)) : roundAt m e q = (nearest m (2 ^ n), m % (2 * 2 ^ n) != 0) := by
  have hs : (q - e).toNat = n + 1 := by omega
  unfold roundAt nearest
  rw [if_neg (by omega)]
  dsimp only
  rw [hs, Nat.add_sub_cancel, Nat.pow_succ']

theorem nearest_exact {m h : Nat} (hh : 0 < h) : m % (2 * h) = 0 ↔ nearest m h * (2 * h) = m := by
  constructor
  · intro h0
    have : nearest m h = m / (2 * h) := by
      unfold nearest
      rw [h0, if_neg]
      simp [hh.ne]
    rw [this, Nat.div_mul_cancel (Nat.dvd_of_mod_eq_zero h0)]
  · intro he
    rw [← he]
    exact Nat.mul_mod_left _ _

theorem roundToNearestEven : RoundToNearestEven := by
  intro m e q
  rcases le_or_gt q e with h | h
  · have hval : dyadic (m * 2 ^ (e - q).toNat) q = dyadic m e := by rw [dyadic_mul_two_pow]; congr 1; omega
    rw [roundAt_of_le m h]
    dsimp only
    rw [hval, sub_self, abs_zero]
    refine ⟨fun j => abs_nonneg _, fun j hj ht => absurd ?_ hj, by simp⟩
    rw [← dyadic_inj (e := q), hval]
    exact sub_eq_zero.1 (abs_eq_zero.1 ht.symm)
  · obtain ⟨n, hn⟩ : ∃ n : Nat, q = e + (n + 1 : Nat) := ⟨(q - e).toNat - 1, by omega⟩
    have hval (j : Nat) : dyadic j q = dyadic (j * (2 * 2 ^ n)) e := by rw [← Nat.pow_succ', dyadic_mul_two_pow, hn]
    have hpos : (0 : ℚ) < 2 ^ e := zpow_pos (by norm_num) e
    rw [roundAt_of_lt m n hn]
    simp only [hval, abs_dyadic_sub, mul_le_mul_iff_left₀ hpos, mul_left_inj' hpos.ne', Int.cast_le, Int.cast_inj, ne_eq, dyadic_inj,
      bne_iff_ne, nearest_exact (Nat.two_pow_pos n), and_true]
    have best (j : Nat) := nearest_best m (2 ^ n) j (Nat.two_pow_pos n)
    exact ⟨fun j => (best j).1, fun j => (best j).2⟩

/-! Operations that a NaN enters (R74). -/

theorem isSnan_of_not_isNan {x : FVal} (h : x.isNan = false) : x.isSnan = false := by
  cases x with
  | nan _ => cases h
  | inf _ => rfl
  | num _ _ _ => rfl

theorem isNan_iff {x : FVal} : x.isNan = true ↔ ∃ q, x = .nan q := by
  cases x <;> simp [FVal.isNan]

section
variable (f : Fmt)

theorem addV_nan {x y : FVal} (h : x.isNan = true ∨ y.isNan = true) : f.addV x y = f.nanOf (x.isSnan || y.isSnan) := by
  rcases h with h | h <;> obtain ⟨q, rfl⟩ := isNan_iff.1 h
  · cases y <;> simp [Fmt.addV, FVal.isSnan]
  · cases x <;> simp [Fmt.addV, FVal.isSnan]

theorem mul_nan {a b : Nat} (h : (f.unpack a).isNan = true ∨ (f.unpack b).isNan = true) :
    f.mul a b = f.nanOf ((f.unpack a).isSnan || (f.unpack b).isSnan) := by
  unfold Fmt.mul
  rcases h with h | h <;> obtain ⟨q, e⟩ := isNan_iff.1 h
  · rw [e]; rfl
  · rw [e]; cases f.unpack a <;> rfl

theorem div_nan {a b : Nat} (h : (f.unpack a).isNan = true ∨ (f.unpack b).isNan = true) :
    f.div a b = f.nanOf ((f.unpack a).isSnan || (f.unpack b).isSnan) := by
  unfold Fmt.div
  rcases h with h | h <;> obtain ⟨q, e⟩ := isNan_iff.1 h
  · rw [e]; rfl
  · rw [e]; cases f.unpack a <;> rfl

theorem sqrt_nan {a : Nat} (h : (f.unpack a).isNan = true) : f.sqrt a = f.nanOf (f.unpack a).isSnan := by
  obtain ⟨q, e⟩ := isNan_iff.1 h
  unfold Fmt.sqrt
  rw [e]
  rfl

/-- A NaN addend makes a NaN also of a product that is invalid. -/
theorem fmaV_nan_bits {x y z : FVal} (h : x.isNan = true ∨ y.isNan = true ∨ z.isNan = true) : (f.fmaV x y z).bits = f.nanBits := by
  have hz (w : FVal) (hz : z.isNan = true) : (f.addV w z).bits = f.nanBits := by rw [addV_nan f (.inr hz)]; rfl
  rcases h with h | h | h
  · obtain ⟨q, rfl⟩ := isNan_iff.1 h; rfl
  · obtain ⟨q, rfl⟩ := isNan_iff.1 h; cases x <;> rfl
  · unfold Fmt.fmaV
    split
    case h_4 | h_5 => split; exacts [rfl, hz _ h]
    case h_1 | h_2 => rfl
    case h_3 | h_6 => exact hz _ h

end

theorem isNan_negate (x : FVal) : x.negate.isNan = x.isNan := by cases x <;> rfl
theorem isSnan_negate (x : FVal) : x.negate.isSnan = x.isSnan := by cases x <;> rfl

/-! Minimum and maximum (R75). -/

section
variable (f : Fmt) {a b : Nat}

theorem min_one_nan (ha : (f.unpack a).isNan = true) (hb : (f.unpack b).isNan = false) :
    f.min a b = .flagged b (if (f.unpack a).isSnan then flNV else 0) ∧ f.min b a = .flagged b (if (f.unpack a).isSnan then flNV else 0) := by
  simp [Fmt.min, ha, hb, isSnan_of_not_isNan hb]

theorem max_one_nan (ha : (f.unpack a).isNan = true) (hb : (f.unpack b).isNan = false) :
    f.max a b = .flagged b (if (f.unpack a).isSnan then flNV else 0) ∧ f.max b a = .flagged b (if (f.unpack a).isSnan then flNV else 0) := by
  simp [Fmt.max, ha, hb, isSnan_of_not_isNan hb]

theorem min_two_nans (ha : (f.unpack a).isNan = true) (hb : (f.unpack b).isNan = true) :
    f.min a b = f.nanOf ((f.unpack a).isSnan || (f.unpack b).isSnan) := by
  simp [Fmt.min, ha, hb, Fmt.nanOf]

theorem max_two_nans (ha : (f.unpack a).isNan = true) (hb : (f.unpack b).isNan = true) :
    f.max a b = f.nanOf ((f.unpack a).isSnan || (f.unpack b).isSnan) := by
  simp [Fmt.max, ha, hb, Fmt.nanOf]

end

theorem nansAreCanonical : NansAreCanonical := by
  intro f a b c _
  dsimp only
  refine ⟨fun h => ⟨addV_nan f h, ?_, mul_nan f h, div_nan f h⟩, sqrt_nan f, fmaV_nan_bits f, fun ha hb => ?_,
    fun ha hb => ⟨min_two_nans f ha hb, max_two_nans f ha hb⟩, rfl, rfl, rfl⟩
  · have := addV_nan f (x := f.unpack a) (y := (f.unpack b).negate) (by rwa [isNan_negate])
    rwa [isSnan_negate] at this
  · exact ⟨(min_one_nan f ha hb).1, (max_one_nan f ha hb).1, (min_one_nan f ha hb).2, (max_one_nan f ha hb).2⟩

/-- Settles O6: the nearest quotient lies within half a unit, so that another multiple lies no nearer; each operation's NaN cases come first. -/
theorem roundingAndNans : Obligations.RoundingAndNans := ⟨roundToNearestEven, nansAreCanonical⟩

end Sys2Proof.Proofs
end

section
/-! A slice that SLICE.END was ending resumes into its publication fault (R315, R323, R393). -/

namespace Sys2Proof.Proofs
open Sys2Proof.Machine Sys2Proof.Spec

/-- Hall 0 is about to resume a slice without fills. A publication fault of its strand L waits for it (R315), and it is marked as one that SLICE.END
is ending, since which strand L has gone on by one syllable. -/
def resumesWhileEnding : State :=
  (State.reset.placed 0x0000A60000000000).onHall 0 fun H =>
    { H with
      restore := .begin
      slice := H.slice.map fun sl =>
        { sl with
          pubFault := some (.L, { cause := .INTEGRITY })
          ending := true
          endFrom := some { S := H.work.S.pc, L := H.work.L.pc - 8, M := H.work.M.pc, V := H.work.V.pc, toks := H.work.toks } } }

theorem resumesWhileEnding_resumable : ∃ sl, (resumesWhileEnding.hall 0).slice = some sl ∧ (resumesWhileEnding.hall 0).restore = .begin ∧
    (resumesWhileEnding.hall 0).trap = none ∧ (resumesWhileEnding.hall 0).switch = none ∧ sl.fills = [] := ⟨_, rfl, by decide +kernel⟩

/-- The fault stops the slice, and the stop takes back what SLICE.END had not finished: strand L stands at the earlier syllable again. -/
theorem resume_takes_ending_back :
    ((resumesWhileEnding.resumeStep 0).strand 0 .L).pc = (resumesWhileEnding.strand 0 .L).pc - 8 ∧
      (resumesWhileEnding.strand 0 .L).pc - 8 ≠ (resumesWhileEnding.strand 0 .L).pc := by
  decide +kernel

/-- Refutes O44: that the strands of a slice without fills resume with their program counters asks nothing of a SLICE.END or of a publication fault;
where both are under way, the fault that is raised at the resumption puts the counters back (log 23). -/
theorem not_recordsAndSlices : ¬Obligations.RecordsAndSlices := by
  unfold Obligations.RecordsAndSlices
  rintro ⟨-, hslices⟩
  obtain ⟨-, hresume, -⟩ := hslices resumesWhileEnding 0
  obtain ⟨sl, hsl, hrestore, htrap, hswitch, hfills⟩ := resumesWhileEnding_resumable
  obtain ⟨t, ht, -, hkept⟩ := hresume sl hsl hrestore htrap hswitch hfills
  obtain ⟨-, hpc, -⟩ := hkept .L
  obtain ⟨hback, hmoved⟩ := resume_takes_ending_back
  have htt : resumesWhileEnding.resumeStep 0 = t := Host.Outcome.next.inj ht
  rw [← htt, hback] at hpc
  exact hmoved hpc

end Sys2Proof.Proofs
end

section
/-! Integer instructions (R96 to R104, R119): each is one computation on the strand's registers, or on its divider. -/

namespace Sys2Proof.Proofs
open Sys2Proof.Machine Sys2Proof.Spec Sys2Proof.Laws

/-- The syllable computes updates from registers that it reads, on the divider or beside it (R20, R119). -/
def Computes (s : State) (i : Instr) (divider : Bool) (rd : List Src) (n lat : Nat) (us : List Upd) : Prop :=
  if divider then ∃ k, exec i s = .next (s.onDivider n k) ∧ k s = s.compute rd lat us else exec i s = .next (s.compute rd lat us)

section
variable {s : State} {i : Instr} {divider : Bool} {rd : List Src} {n lat : Nat} {us : List Upd}

theorem results_of_computes (h : Computes s i divider rd n lat us) (hr : Readable s rd) (hd : divider = true → s.me.divFree ≤ s.me.local_) :
    ∃ t, exec i s = .next t ∧ Results s t lat (if divider then s.me.local_ + n else s.me.divFree) us := by
  cases divider with
  | false => exact ⟨_, h, compute_results s rd lat us hr⟩
  | true =>
    obtain ⟨k, he, hk⟩ := h
    exact ⟨_, he, onDivider_results s rd n lat us k hk hr (hd rfl)⟩

theorem holds_of_computes (h : Computes s i true rd n lat us) (hd : s.me.local_ < s.me.divFree) : ∃ t, exec i s = .next t ∧ Holds s t := by
  obtain ⟨k, he, -⟩ := h
  exact ⟨_, he, onDivider_holds s n k hd⟩

theorem stalls_of_computes (h : Computes s i divider rd n lat us) (hr : s.me.stallShort rd = true)
    (hd : divider = true → s.me.divFree ≤ s.me.local_) (hu : Unstopped s) : ∃ t, exec i s = .next t ∧ Traps s t { cause := .STALL_SHORT } := by
  cases divider with
  | false => exact ⟨_, h, compute_stalls s rd lat us hr hu⟩
  | true =>
    obtain ⟨k, he, hk⟩ := h
    exact ⟨_, he, onDivider_stalls s rd n lat us k hk (hd rfl) hr hu⟩

end

/-! Values that the laws of words do not state. -/

theorem sub_spec (x y : Word) : ((x - y).toNat + y.toNat) % 2 ^ 64 = x.toNat := by
  rw [← BitVec.toNat_add, BitVec.sub_add_cancel]

theorem andn_spec (x y : Word) (k : Nat) (hk : k < 64) : (x &&& ~~~y).getLsbD k = (x.getLsbD k && !y.getLsbD k) := by
  simp [hk]

theorem brev_spec (x : Word) (k : Nat) (hk : k < 64) : x.reverse.getLsbD k = x.getLsbD (63 - k) := by
  rw [BitVec.getLsbD_reverse, BitVec.getMsbD_eq_getLsbD, decide_eq_true hk, Bool.true_and]

theorem movi_spec (imm : BitVec 34) : (imm.signExtend 64).toInt = imm.toInt := BitVec.toInt_signExtend_of_le (by decide)

theorem andi_spec (x : Word) (imm : BitVec 28) (k : Nat) (hk : k < 64) :
    (x &&& imm.signExtend 64).getLsbD k = (x.getLsbD k && imm.getLsbD (min k 27)) := by
  rw [BitVec.getLsbD_and, signExtend_bits imm k hk]

theorem ori_spec (x : Word) (imm : BitVec 28) (k : Nat) (hk : k < 64) :
    (x ||| imm.signExtend 64).getLsbD k = (x.getLsbD k || imm.getLsbD (min k 27)) := by
  rw [BitVec.getLsbD_or, signExtend_bits imm k hk]

theorem xori_spec (x : Word) (imm : BitVec 28) (k : Nat) (hk : k < 64) :
    (x ^^^ imm.signExtend 64).getLsbD k = (x.getLsbD k ^^ imm.getLsbD (min k 27)) := by
  rw [BitVec.getLsbD_xor, signExtend_bits imm k hk]

/-! Each integer instruction computes its row's value from its row's registers. -/

/-- The instruction computes a value that the row allows. -/
def ComputesRow (s : State) (i : Instr) (r : IntRow) : Prop :=
  ∃ v, r.val v ∧ Computes s i r.divider r.reads 16 r.lat (writesOf r.d v)

section
variable {s : State} {i : Instr} {r : IntRow} {d a b : BitVec 6} {lat : Nat} {p : Word → Prop}

theorem computes_row1 (w : Word) (hi : exec i s = .next (s.intOp d [a] lat w)) (hp : p w) (h : row1 d a lat p = some r) : ComputesRow s i r := by
  cases h; exact ⟨some w, ⟨w, rfl, hp⟩, hi⟩

theorem computes_row2 (w : Word) (hi : exec i s = .next (s.intOp d [a, b] lat w)) (hp : p w) (h : row2 d a b lat p = some r) : ComputesRow s i r := by
  cases h; exact ⟨some w, ⟨w, rfl, hp⟩, hi⟩

theorem computes_rowD (f : Word → Word → Word) (hi : exec i s = .next (s.onDivider 16 fun s => s.intOp d [a, b] 18 (f (s.rs a) (s.rs b))))
    (hp : p (f (s.rs a) (s.rs b))) (h : rowD d a b p = some r) : ComputesRow s i r := by
  cases h; exact ⟨some _, ⟨_, rfl, hp⟩, ⟨_, hi, rfl⟩⟩

end

theorem computes_of_intRow {s : State} {i : Instr} {r : IntRow} (h : intRow s.me i = some r) : ComputesRow s i r := by
  cases i
  case add d a b => exact computes_row2 _ rfl (BitVec.toNat_add _ _) h
  case sub d a b => exact computes_row2 _ rfl (sub_spec _ _) h
  case mul d a b => exact computes_row2 _ rfl (BitVec.toNat_mul _ _) h
  case mulh d a b => exact computes_row2 _ rfl (mulh_spec _ _) h
  case mulhu d a b => exact computes_row2 _ rfl (mulhu_spec _ _) h
  case div d a b => exact computes_rowD divS rfl (div_spec _ _) h
  case divu d a b => exact computes_rowD divU rfl (divu_spec _ _) h
  case rem d a b => exact computes_rowD remS rfl (rem_spec _ _) h
  case remu d a b => exact computes_rowD remU rfl (remu_spec _ _) h
  case and d a b => exact computes_row2 _ rfl (fun _ => BitVec.getLsbD_and) h
  case or d a b => exact computes_row2 _ rfl (fun _ => BitVec.getLsbD_or) h
  case xor d a b => exact computes_row2 _ rfl (fun _ => BitVec.getLsbD_xor) h
  case andn d a b => exact computes_row2 _ rfl (andn_spec _ _) h
  case shl d a b => exact computes_row2 _ rfl (shl_bits _ _) h
  case shr d a b => exact computes_row2 _ rfl (shr_bits _ _) h
  case sar d a b => exact computes_row2 _ rfl (sar_bits _ _) h
  case rol d a b => exact computes_row2 _ rfl (rol_bits _ _) h
  case ror d a b => exact computes_row2 _ rfl (ror_bits _ _) h
  case min d a b => exact computes_row2 _ rfl (min_int _ _) h
  case max d a b => exact computes_row2 _ rfl (max_int _ _) h
  case minu d a b => exact computes_row2 _ rfl (min_nat _ _) h
  case maxu d a b => exact computes_row2 _ rfl (max_nat _ _) h
  case abs d a => exact computes_row1 _ rfl (abs_nat _) h
  case clz d a => exact computes_row1 _ rfl (clz_spec _) h
  case ctz d a => exact computes_row1 _ rfl (ctz_spec _) h
  case popc d a => exact computes_row1 _ rfl (pop_spec _) h
  case brev d a => exact computes_row1 _ rfl (brev_spec _) h
  case sext d a w => exact computes_row1 _ rfl (sext_spec _ w) h
  case zext d a w => exact computes_row1 _ rfl (zext_spec _ w) h
  case sel d a b c => cases h; exact ⟨some _, ⟨_, rfl, rfl⟩, rfl⟩
  case lea d a b sh => exact computes_row2 _ rfl (lea_spec _ _ _) h
  case bext d a b c sx => cases h; exact ⟨some _, ⟨_, rfl, bext_spec _ _ _ _⟩, rfl⟩
  case bins d a b c => cases h; exact ⟨_, bins_spec _ _ _ _, rfl⟩
  case addi d a imm => exact computes_row1 _ rfl (addi_spec _ _) h
  case muli d a imm => exact computes_row1 _ rfl (muli_spec _ _) h
  case andi d a imm => exact computes_row1 _ rfl (andi_spec _ _) h
  case ori d a imm => exact computes_row1 _ rfl (ori_spec _ _) h
  case xori d a imm => exact computes_row1 _ rfl (xori_spec _ _) h
  case shli d a n => exact computes_row1 _ rfl (shli_bits _ _) h
  case shri d a n => exact computes_row1 _ rfl (shri_bits _ _) h
  case sari d a n => exact computes_row1 _ rfl (sari_bits _ _) h
  case bexti d a off w sx => exact computes_row1 _ rfl (bext_spec _ _ _ _) h
  case binsi d a off w => cases h; exact ⟨_, bins_spec _ _ _ _, rfl⟩
  case movi d imm => cases h; exact ⟨some _, ⟨_, rfl, movi_spec imm⟩, rfl⟩
  case movhi d imm => cases h; exact ⟨some _, ⟨_, rfl, movhi_spec _ imm⟩, rfl⟩
  all_goals cases h

theorem integerResults : IntegerResults := by
  intro s i r h hr hd
  obtain ⟨v, hv, hc⟩ := computes_of_intRow h
  obtain ⟨t, he, ht⟩ := results_of_computes hc hr hd
  exact ⟨t, v, he, hv, ht⟩

theorem integerWaitsAndStalls : IntegerWaitsAndStalls := by
  intro s i r h
  obtain ⟨v, -, hc⟩ := computes_of_intRow h
  exact ⟨fun hdiv hbusy => holds_of_computes (hdiv ▸ hc) hbusy, fun hfree hstall hu => stalls_of_computes hc hstall hfree hu⟩

/-- Settles O2: each integer instruction is its row's computation, whose results, waits and stalls are those of the shared operations. -/
theorem integerInstructions : Obligations.IntegerInstructions := ⟨integerResults, integerWaitsAndStalls⟩

/-- The divisions as rows: what O2's table says of each, by its own name. -/
theorem division_gives {s : State} {i : Instr} {d a b : BitVec 6} {p q : Word → Prop} (hi : intRow s.me i = rowD d a b p)
    (hr : Readable s [.s a.toNat, .s b.toNat]) (hd : s.me.divFree ≤ s.me.local_) (hpq : ∀ v, p v → q v) :
    ∃ t v, exec i s = .next t ∧ Results s t 18 (s.me.local_ + 16) [.sreg d.toNat v] ∧ q v := by
  obtain ⟨t, _, he, ⟨v, rfl, hv⟩, ht⟩ := integerResults s i _ hi hr fun _ => hd
  exact ⟨t, v, he, ht, hpq v hv⟩

/-- The remainder has the sign of the dividend (R98). -/
theorem isRemainder_sign {x y v : Word} (hy : y ≠ 0) (h : isRemainder x y v) :
    v.toInt = x.toInt - y.toInt * x.toInt.tdiv y.toInt ∧ (0 ≤ x.toInt → 0 ≤ v.toInt) ∧ (x.toInt ≤ 0 → v.toInt ≤ 0) := by
  have e := h.2 hy
  have em : v.toInt = x.toInt.tmod y.toInt := e.trans (Int.tmod_def _ _).symm
  refine ⟨e, fun hx => em ▸ Int.tmod_nonneg _ hx, fun hx => ?_⟩
  have := Int.tmod_nonneg y.toInt (Int.neg_nonneg_of_nonpos hx)
  rw [Int.neg_tmod] at this
  omega

/-- Settles O1: the rows of the four divisions, at a nonzero divisor, at zero and at the quotient that does not fit. -/
theorem divisions : Obligations.Divisions := by
  intro s d a b hr hd gives x y
  have hdiv {q : Word → Prop} (h : ∀ v, isQuotient x y v → q v) : gives (.div d a b) q := division_gives rfl hr hd h
  have hrem {q : Word → Prop} (h : ∀ v, isRemainder x y v → q v) : gives (.rem d a b) q := division_gives rfl hr hd h
  have hdivu {q : Word → Prop} (h : ∀ v, ((y = 0 → v = BitVec.allOnes 64) ∧ (y ≠ 0 → v.toNat = x.toNat / y.toNat)) → q v) :
      gives (.divu d a b) q := division_gives rfl hr hd h
  have hremu {q : Word → Prop} (h : ∀ v, ((y = 0 → v = x) ∧ (y ≠ 0 → v.toNat = x.toNat % y.toNat)) → q v) :
      gives (.remu d a b) q := division_gives rfl hr hd h
  refine ⟨fun hy => ?_, fun hy => ?_, fun ⟨hx, hy⟩ => ?_⟩
  · exact ⟨hdiv fun v h => h.2 hy, hrem fun v h => isRemainder_sign hy h, hdivu fun v h => h.2 hy, hremu fun v h => h.2 hy⟩
  · exact ⟨hdiv fun v h => h.1 hy, hdivu fun v h => h.1 hy, hrem fun v h => h.1 hy, hremu fun v h => h.1 hy⟩
  · have hy0 : y ≠ 0 := by rw [hy]; decide
    refine ⟨hdiv fun v h => (h.2 hy0).trans (by rw [hx, hy]; decide), hrem fun v h => BitVec.eq_of_toInt_eq ((h.2 hy0).trans ?_)⟩
    rw [hx, hy]; decide

end Sys2Proof.Proofs
end

section
/-! Compares, predicates and scalar floating point (R75, R105 to R109). -/

namespace Sys2Proof.Proofs
open Sys2Proof.Machine Sys2Proof.Spec Sys2Proof.Laws

theorem condHolds_iff (c : Cond) (x y : Word) : Cond.holds c x y = true ↔ condSays c x y := by
  cases c <;> simp [Cond.holds, condSays, BitVec.lt_def, BitVec.le_def]

/-! The order of numbers and infinities (R106). -/

theorem mul_two_pow_toNat (m : Int) {e z : Int} (h : z ≤ e) : ((m * 2 ^ (e - z).toNat : Int) : ℚ) * 2 ^ z = m * 2 ^ e := by
  obtain ⟨n, rfl⟩ : ∃ n : Nat, e = z + n := ⟨(e - z).toNat, by omega⟩
  rw [show (z + n - z).toNat = n by omega, zpow_add₀ (by norm_num), zpow_natCast]
  push_cast
  ring

/-- The number (-1)^neg m 2^e. -/
def signed (neg : Bool) (m : Nat) (e : Int) : ℚ := (if neg then -1 else 1) * m * (2 : ℚ) ^ e

/-- Over a common power of two, the numbers are in the order of their integers. -/
theorem signed_eq_scaled (n : Bool) (m : Nat) {e z : Int} (h : z ≤ e) :
    signed n m e = ((if n then -(m * 2 ^ (e - z).toNat : Int) else (m * 2 ^ (e - z).toNat : Int)) : Int) * (2 : ℚ) ^ z := by
  have := mul_two_pow_toNat (m : Int) h
  unfold signed
  push_cast at this
  cases n
  · simpa using this.symm
  · simpa using this.symm

theorem cmp_num (n p : Bool) (m k : Nat) (e g : Int) :
    (FVal.cmp (.num n m e) (.num p k g) = .eq ↔ signed n m e = signed p k g) ∧
      (FVal.cmp (.num n m e) (.num p k g) = .lt ↔ signed n m e < signed p k g) := by
  have hpos : (0 : ℚ) < 2 ^ min e g := zpow_pos (by norm_num) _
  rw [signed_eq_scaled n m (Int.min_le_left e g), signed_eq_scaled p k (Int.min_le_right e g), mul_left_inj' hpos.ne', mul_lt_mul_iff_left₀ hpos,
    Int.cast_inj, Int.cast_lt]
  exact ⟨Int.compare_eq_eq, Int.compare_eq_lt⟩

theorem finite_lt_top (q : ℚ) : ((q : WithTop ℚ) : WithBot (WithTop ℚ)) < ⊤ := WithBot.coe_lt_coe.2 (WithTop.coe_lt_top q)

/-- The model's order is that of the extended line. -/
theorem cmp_onLine {x y : FVal} {u v : WithBot (WithTop ℚ)} (hx : onLine x = some u) (hy : onLine y = some v) :
    (x.cmp y = .eq ↔ u = v) ∧ (x.cmp y = .lt ↔ u < v) := by
  cases x with
  | nan _ => cases hx
  | inf n =>
    cases y with
    | nan _ => cases hy
    | inf p => cases hx; cases hy; cases n <;> cases p <;> simp [FVal.cmp]
    | num p k g => cases hx; cases hy; cases n <;> simp [FVal.cmp]
  | num n m e =>
    cases y with
    | nan _ => cases hy
    | inf p => cases hx; cases hy; cases p <;> simp [FVal.cmp, finite_lt_top]
    | num p k g =>
      cases hx; cases hy
      rw [WithBot.coe_inj, WithTop.coe_inj, WithBot.coe_lt_coe, WithTop.coe_lt_coe]
      exact cmp_num n p m k e g

theorem onLine_eq_none_iff (x : FVal) : onLine x = none ↔ x.isNan = true := by
  cases x <;> simp [onLine, FVal.isNan]

theorem compare_holds_iff (f : Fmt) (c : FCond) (a b : Nat) : (f.compare c a b).1 = true ↔ fcondIn f c a b := by
  have hu := onLine_eq_none_iff (f.unpack a)
  have hv := onLine_eq_none_iff (f.unpack b)
  unfold Fmt.compare fcondIn
  cases hx : onLine (f.unpack a) with
  | none => cases c <;> simp [hu.1 hx]
  | some u =>
    have hx' : (f.unpack a).isNan = false := by simpa [hx] using hu
    cases hy : onLine (f.unpack b) with
    | none => cases c <;> simp [hv.1 hy]
    | some v =>
      have hy' : (f.unpack b).isNan = false := by simpa [hy] using hv
      obtain ⟨heq, hlt⟩ := cmp_onLine hx hy
      cases c <;> simp [hx', hy', heq, hlt]

theorem compare_flags (f : Fmt) (c : FCond) (a b : Nat) :
    (f.compare c a b).2 = flNV ∧ fcmpNVIn f c a b ∨ (f.compare c a b).2 = 0 ∧ ¬fcmpNVIn f c a b := by
  unfold Fmt.compare fcmpNVIn
  simp only [← or_assoc, ← Bool.or_eq_true]
  cases hn : (f.unpack a).isNan || (f.unpack b).isNan
  · obtain ⟨ha, hb⟩ := Bool.or_eq_false_iff.1 hn
    cases c <;> simp [isSnan_of_not_isNan ha, isSnan_of_not_isNan hb]
  · cases hs : (f.unpack a).isSnan || (f.unpack b).isSnan <;> cases c <;> simp

/-! Predicates as bits (R107, R108). -/

theorem plog_index (p q : Bool) : 2 * p.toNat + q.toNat = (if p then 2 else 0) + (if q then 1 else 0) := by
  cases p <;> cases q <;> rfl

theorem sum_bits_testBit (p : Nat → Bool) (n k : Nat) :
    ((List.range n).foldl (fun v i => v + (p i).toNat * 2 ^ i) 0).testBit k = (decide (k < n) && p k) := by
  induction n generalizing k with
  | zero => simp
  | succ n ih =>
    rw [List.range_succ, List.foldl_append]
    have hlt : (List.range n).foldl (fun v i => v + (p i).toNat * 2 ^ i) 0 < 2 ^ n :=
      Nat.lt_pow_two_of_testBit _ fun i hi => by rw [ih, decide_eq_false (Nat.not_lt.2 hi), Bool.false_and]
    rw [List.foldl_cons, List.foldl_nil, Nat.add_comm, Nat.mul_comm, Nat.testBit_two_pow_mul_add _ hlt, ih]
    rcases Nat.lt_trichotomy k n with h | rfl | h
    · simp [h, Nat.lt_succ_of_lt h]
    · cases p k <;> simp
    · rw [if_neg (by omega), decide_eq_false (by omega), Bool.false_and]
      exact Nat.testBit_eq_false_of_lt ((Bool.toNat_lt _).trans_le (Nat.pow_le_pow_right two_pos (show 1 ≤ k - n by omega)))

theorem mem_pset (x : Word) (mask : BitVec 8) (u : Upd) :
    u ∈ ((List.range 8).filter fun i => mask.getLsbD i && i != 0).map (fun i => Upd.preg i (x.getLsbD i)) ↔
      ∃ i, 0 < i ∧ i < 8 ∧ mask.getLsbD i = true ∧ u = .preg i (x.getLsbD i) := by
  simp only [List.mem_map, List.mem_filter, List.mem_range, Bool.and_eq_true, bne_iff_ne, Nat.pos_iff_ne_zero]
  grind

/-! The statements. -/

/-- The result of a scalar float instruction, with its flags and its NaN event (R91, R95). -/
def floatUpds (s : State) (d : BitVec 6) (r : NumRes) : List Upd :=
  [.sreg d.toNat (BitVec.ofNat 64 r.bits), .flags r.flags, .count .NAN s.me.ntid.toNat (if r.gen then 1 else 0)]

theorem computes_of_floatRow {s : State} {i : Instr} {r : FloatRow} (h : floatRow s.me i = some r) :
    Computes s i r.divider r.reads 12 r.lat (floatUpds s r.d r.res) := by
  cases i
  case fadd | fsub | fmul | ffma | fmin | fmax => cases h; rfl
  case fdiv | fsqrt => cases h; exact ⟨_, rfl, rfl⟩
  all_goals cases h

/-- Settles O4: each float instruction is its row's computation, on the divider or beside it. -/
theorem floatResults : Obligations.FloatResults := fun _ _ _ h hr hd => results_of_computes (computes_of_floatRow h) hr hd

/-- Settles O3: each instruction computes its predicates or scalar from the registers that it reads; what remains is what the values say. -/
theorem predicateResults : Obligations.PredicateResults := by
  intro s
  refine ⟨fun c pd pe a b hr => ?_, fun c pd pe a imm hr => ?_, fun c pd pe a b hr => ?_, fun pd pe pa pb fn hr => ?_, fun d hr => ?_,
    fun a mask hr => ?_⟩
  · exact ⟨_, _, rfl, condHolds_iff c _ _, compute_results s _ 1 _ hr⟩
  · exact ⟨_, _, rfl, condHolds_iff c _ _, compute_results s _ 1 _ hr⟩
  · exact ⟨_, _, _, rfl, compare_holds_iff fp32 c _ _, compare_flags fp32 c _ _, compute_results s _ 2 _ hr⟩
  · exact ⟨_, _, rfl, by rw [plog_index], compute_results s _ 1 _ hr⟩
  · exact ⟨_, _, rfl, fun k hk => by rw [BitVec.getLsbD_ofNat, sum_bits_testBit]; simp [hk], compute_results s _ 1 _ hr⟩
  · exact ⟨_, _, rfl, mem_pset _ mask, compute_results s _ 1 _ hr⟩

end Sys2Proof.Proofs
end

section
/-! Transfers of control (R112 to R115). -/

namespace Sys2Proof.Proofs
open Sys2Proof.Machine Sys2Proof.Spec Sys2Proof.Laws

/-! Target addresses (R114, R115). -/

theorem extract_low_zero_iff (t : Word) : t.extractLsb' 0 3 = 0#3 ↔ t.toNat % 8 = 0 := by
  rw [← BitVec.toNat_inj, BitVec.extractLsb'_toNat, Nat.shiftRight_zero]; rfl

theorem extract_high_zero_iff (t : Word) : t.extractLsb' 52 12 = 0#12 ↔ t.toNat < 2 ^ 52 := by
  rw [← BitVec.toNat_inj, BitVec.extractLsb'_toNat, Nat.shiftRight_eq_div_pow, Nat.mod_eq_of_lt (by have := t.isLt; omega)]
  exact Nat.div_eq_zero_iff_lt (by positivity)

theorem targetFault_none {t : Word} (ha : t.toNat % 8 = 0) (hx : t.toNat < 2 ^ 52) : targetFault t = none := by
  simp [targetFault, (extract_low_zero_iff t).2 ha, (extract_high_zero_iff t).2 hx]

theorem targetFault_align {t : Word} (ha : t.toNat % 8 ≠ 0) : targetFault t = some .ALIGN := by
  simp [targetFault, (extract_low_zero_iff t).not.2 ha]

theorem targetFault_xlate {t : Word} (ha : t.toNat % 8 = 0) (hx : 2 ^ 52 ≤ t.toNat) : targetFault t = some .XLATE := by
  simp [targetFault, (extract_low_zero_iff t).2 ha, (extract_high_zero_iff t).not.2 (Nat.not_lt.2 hx)]

/-- The target of a PB: its own address plus 8 times the offset (R114). -/
theorem pb_target (pc : Word) (off : BitVec 38) : pc + (off.signExtend 64 <<< 3) = BitVec.ofInt 64 (pc.toInt + 8 * off.toInt) := by
  rw [BitVec.ofInt_add, BitVec.ofInt_toInt, BitVec.shiftLeft_eq_mul_twoPow, BitVec.signExtend, Int.mul_comm, BitVec.ofInt_mul]
  rfl

section
variable {s : State} {b a : BitVec 6} {imm : BitVec 28} (hr : Readable s [.s a.toNat])
include hr

theorem exec_pba_fault {c : Cause} (hf : targetFault (s.rs a + imm.signExtend 64) = some c) :
    exec (.pba b a imm) s = .next (s.trapHere { cause := c, addr := s.rs a + imm.signExtend 64 }) := by
  change execPba b a imm s = _
  unfold execPba
  dsimp only
  rw [reading_readable s _ _ hr, hf]

theorem exec_ret (hf : targetFault (s.rs a) = none) :
    exec (.ret a) s = .next ((s.onMe fun x => { x with notBefore := s.here.cycle + 4 }).goTo (s.rs a)).issue := by
  change execRet a s = _
  unfold execRet
  dsimp only
  rw [reading_readable s _ _ hr, hf]

end

/-- Settles O7: the target's faults are those of its low and high bits; a target without a fault is prepared. -/
theorem prepareToBranch : Obligations.PrepareToBranch := by
  intro s
  refine ⟨fun b off hr => ⟨_, exec_pb s b off, pb_target s.me.pc off ▸ prepare_results s b.toNat _⟩, fun b a imm hr => ?_⟩
  intro target
  have ht : s.rs a + imm.signExtend 64 = target := addi_spec _ _
  refine ⟨fun ha hx _ => ?_, fun ha hu => ?_, fun ha hx hu => ?_⟩
  · exact ⟨_, exec_pba hr (ht ▸ targetFault_none ha hx), ht ▸ prepare_results s b.toNat _⟩
  · exact ⟨_, exec_pba_fault hr (ht ▸ targetFault_align ha), ht ▸ trapHere_traps s _ hu⟩
  · exact ⟨_, exec_pba_fault hr (ht ▸ targetFault_xlate ha hx), ht ▸ trapHere_traps s _ hu⟩

/-! Branches through a register (R112, R115). -/

section
variable {s : State} {rd : List Src} {b : BitVec 6} {k : Word → State → State}

theorem branchOn_ready (h : BranchReady s b rd) : s.branchOn rd b k = k (s.me.btgt b.toNat).addr s := by
  unfold State.branchOn
  rw [reading_readable s _ _ h.readable]
  simp [h.prepared, Nat.not_lt.2 h.ready]

theorem branchOn_unprepared (hr : Readable s (.b b.toNat :: rd)) (hp : (s.me.btgt b.toNat).prepared = false) :
    s.branchOn rd b k = s.trapCause .ILLEGAL := by
  unfold State.branchOn
  rw [reading_readable s _ _ hr]
  simp [hp]

theorem branchOn_early (hr : Readable s (.b b.toNat :: rd)) (hp : (s.me.btgt b.toNat).prepared = true)
    (hc : s.here.cycle < (s.me.btgt b.toNat).ready) : s.branchOn rd b k = s.freeze := by
  unfold State.branchOn
  rw [reading_readable s _ _ hr]
  simp [hp, hc]

end

/-- BR, CALL and LOOP each wait for their register and then go on. -/
theorem exec_of_branch {s : State} {i : Instr} {b : BitVec 6} {more : List Src}
    (h : i = .br b ∧ more = [] ∨ (∃ d, i = .call d b ∧ more = []) ∨ ∃ a, i = .loop a b ∧ more = [.s a.toNat]) :
    ∃ k, exec i s = .next (s.branchOn more b k) := by
  obtain ⟨rfl, rfl⟩ | ⟨d, rfl, rfl⟩ | ⟨a, rfl, rfl⟩ := h
  · exact ⟨_, rfl⟩
  · exact ⟨_, rfl⟩
  · exact ⟨_, rfl⟩

theorem transfersWaitAndTrap : TransfersWaitAndTrap := by
  intro s i b more hi hr
  obtain ⟨k, he⟩ := exec_of_branch (s := s) hi
  refine ⟨fun hp hu => ?_, fun hp hc => ?_⟩
  · exact ⟨_, he.trans (congrArg _ (branchOn_unprepared hr hp)), trapHere_traps s _ hu⟩
  · exact ⟨_, he.trans (congrArg _ (branchOn_early hr hp hc)), freeze_freezes s⟩

theorem sub_one_eq_zero_iff (x : Word) : x - 1 = 0 ↔ x = 1 := by
  rw [BitVec.sub_eq_iff_eq_add]; exact Iff.rfl

theorem transfersOfControl : TransfersOfControl := by
  intro s
  refine ⟨fun b hb => ?_, fun d b hb => ?_, fun a b hb => ?_, fun a hr ha hx => ?_, ⟨_, rfl, rfl⟩⟩
  · exact ⟨_, congrArg Host.Outcome.next (branchOn_ready hb), rfl, rfl, rfl⟩
  · exact ⟨_, congrArg Host.Outcome.next (branchOn_ready hb), rfl, result_issue s 1 _⟩
  · refine ⟨_, congrArg Host.Outcome.next (branchOn_ready hb), ?_⟩
    dsimp only
    by_cases hn : s.rs a = 1
    · rw [if_pos ((sub_one_eq_zero_iff _).2 hn), if_pos (show s.me.reg a.toNat = 1 from hn)]
      exact ⟨rfl, result_issue s 1 _⟩
    · rw [if_neg ((sub_one_eq_zero_iff _).not.2 hn), if_neg (show ¬s.me.reg a.toNat = 1 from hn)]
      exact ⟨rfl, result_issue s 1 _⟩
  · refine ⟨_, exec_ret hr (targetFault_none ha hx), rfl, rfl, me_onMe s _, onMe_onlyStrand s _ _ _ _, ?_⟩
    exact onHere_sameMemory s (Hall.onStrand · s.curStrand fun x => { x with notBefore := s.here.cycle + 4 }) _ _ _ rfl

/-- Settles O8: the three branches are one operation, which traps, freezes or goes on; RET and NOP are their own. -/
theorem transfers : Obligations.Transfers := ⟨transfersOfControl, transfersWaitAndTrap⟩

end Sys2Proof.Proofs
end

section
/-! Events of a Hall (R116, R117). -/

namespace Sys2Proof.Proofs
open Sys2Proof.Machine Sys2Proof.Spec Sys2Proof.Laws

/-! What a strand learns: its knowledge of stores and publications changes, and nothing else of its record (R275, R277). -/

/-- `y` is `x` but for what it knows of stores and publications. -/
def Learns (x y : StrandState) : Prop :=
  y = { x with clock := y.clock, heard := y.heard, seen := y.seen, floor := y.floor, renewals := y.renewals, hallPub := y.hallPub }

theorem sameRegs_of_learns {x y : StrandState} (h : Learns x y) : SameRegs x y := by
  rw [h]; exact ⟨rfl, rfl, rfl, rfl, rfl, rfl, rfl, rfl, rfl, rfl⟩

theorem learns_trans {x y z : StrandState} (h : Learns x y) (k : Learns y z) : Learns x z := by
  unfold Learns at *
  rw [k, h]

theorem renew_learns (s : State) (h : HallId) (st : Strand) (x : Scope) : ∃ g : StrandState → StrandState, s.renew h st x = s.onStrand h st g ∧ ∀ y, Learns y (g y) := by
  cases x
  case strand => exact ⟨fun y => y, (onStrand_id s h st).symm, fun _ => rfl⟩
  all_goals exact ⟨_, rfl, fun _ => rfl⟩

theorem renewAfter_learns (s : State) (h : HallId) (st : Strand) (x : Scope) (n : Nat) :
    ∃ g : StrandState → StrandState, s.renewAfter h st x n = s.onStrand h st g ∧ ∀ y, Learns y (g y) := by
  unfold State.renewAfter
  split
  · exact renew_learns s h st x
  · exact ⟨_, rfl, fun _ => rfl⟩

/-! Takes and posts: a change of the Hall at issue and of what the strand at issue knows. -/

/-- A change of a Hall, after which a strand learns. -/
def learning (st : Strand) (g : StrandState → StrandState) (f : Hall → Hall) (H : Hall) : Hall := (f H).onStrand st g

theorem onHere_onMe (s : State) (f : Hall → Hall) (g : StrandState → StrandState) :
    (s.onHere f).onMe g = s.onHere (learning s.curStrand g f) := onHall_onHall s s.curHall f (Hall.onStrand · s.curStrand g)

/-- `t` is `s` after a change of the Hall at issue, by which the strand at issue learns. -/
def Grants (s t : State) (f : Hall → Hall) : Prop := ∃ g, t = s.onHere (learning s.curStrand g f) ∧ ∀ y, Learns y (g y)

theorem takeEvent_grants (s : State) (e : Nat) : Grants s (s.takeEvent e) (·.take e) := by
  let t := (s.here.work.ev e).stamp
  obtain ⟨g, hg, hl⟩ := renewAfter_learns ((s.onHere (·.take e)).onMe (·.acquire t)) s.curHall s.curStrand .hall s.me.seq
  refine ⟨fun y => g (y.acquire t), hg.trans ?_, fun y => learns_trans (y := y.acquire t) rfl (hl _)⟩
  rw [← onHere_onMe]
  exact onStrand_onStrand _ _ _ _ _

theorem postEvent_grants (s : State) (e n : Nat) : Grants s (s.postEvent e n) (·.post e n (s.me.stamp s.here.sliceId s.curStrand)) :=
  ⟨fun x => { x with hallPub := x.stores }, onHere_onMe s _ _, fun _ => rfl⟩

theorem no_grant (s : State) : Grants s s fun H => H :=
  ⟨fun x => x, (onStrand_id s s.curHall s.curStrand).symm, fun _ => rfl⟩

/-- A change of a Hall that only concerns its events. -/
structure EventsOnly (H K : Hall) : Prop where
  eq : K = { H with takes := K.takes, postsNow := K.postsNow, work := { H.work with evs := K.work.evs } }
  counts : ∀ e, (K.work.ev e).count = (H.work.ev e).count

theorem take_eventsOnly (H : Hall) (e : Nat) : EventsOnly H (H.take e) := ⟨rfl, fun _ => rfl⟩

theorem post_eventsOnly (H : Hall) (e n : Nat) (t : Stamp) : EventsOnly H (H.post e n t) := by
  refine ⟨rfl, fun f => ?_⟩
  unfold Hall.post Work.ev
  by_cases hf : e = f
  · subst hf
    by_cases he : e < 32 <;> simp [he]
  · simp [hf]

theorem strand_of_eventsOnly {H K : Hall} (h : EventsOnly H K) (o : Strand) : K.work.strand o = H.work.strand o := by
  rw [h.eq]; cases o <;> rfl

theorem ev_onStrand (H : Hall) (st : Strand) (g : StrandState → StrandState) (e : Nat) : (H.onStrand st g).work.ev e = H.work.ev e :=
  congrArg (fun v => Option.getD v[e]? _) (setStrand_evs H.work st _)

section
variable {s t : State} {f : Hall → Hall} (ht : Grants s t f)
include ht

theorem here_of_grants : ∃ g, t.here = (f s.here).onStrand s.curStrand g ∧ ∀ y, Learns y (g y) := by
  obtain ⟨g, rfl, hg⟩ := ht
  exact ⟨g, here_onHere s _, hg⟩

theorem counts_of_grants (e : Nat) : t.here.evTakes e = (f s.here).evTakes e ∧ t.here.evPosts e = (f s.here).evPosts e := by
  obtain ⟨g, hh, -⟩ := here_of_grants ht
  rw [hh]
  exact ⟨rfl, rfl⟩

variable (hf : EventsOnly s.here (f s.here))
include hf

theorem me_of_grants : Learns s.me t.me := by
  obtain ⟨g, hh, hg⟩ := here_of_grants ht
  have hcur : t.curStrand = s.curStrand := by obtain ⟨_, rfl, -⟩ := ht; rfl
  unfold State.me
  rw [hcur, hh, onStrandH_strand, strand_of_eventsOnly hf]
  exact hg _

theorem memory_of_grants (i : Bool) : SameMemory s { t with issued := i } := by
  obtain ⟨g, rfl, -⟩ := ht
  exact onHere_sameMemory s _ _ _ _ (congrArg (·.overlay) hf.eq)

theorem frame_of_grants (i : Bool) : EventFrame s { t with issued := i } := by
  have hme := sameRegs_of_learns (me_of_grants ht hf)
  have hmem := memory_of_grants ht hf i
  have hst := strand_of_eventsOnly hf
  obtain ⟨g, hh, -⟩ := here_of_grants ht
  have hall : OnlyHall s { t with issued := i } := by
    obtain ⟨_, rfl, -⟩ := ht
    exact onHere_onlyHall s _ _ _ _
  refine ⟨hme, hall, fun o ho => ?_, fun e => ?_, ?_, ?_, ?_, ?_, ?_, hmem⟩
  · exact (congrArg (·.work.strand o) hh).trans ((strand_setStrand_ne _ _ _ _ ho).trans (hst o))
  · exact (congrArg (fun H => (H.work.ev e).count) hh).trans ((congrArg HEvent.count (ev_onStrand _ _ g e)).trans (hf.counts e))
  · exact (congrArg (·.work.tiles) hh).trans ((setStrand_tiles _ _ _).trans (congrArg (·.work.tiles) hf.eq))
  · exact (congrArg (·.work.masks) hh).trans ((setStrand_masks _ _ _).trans (congrArg (·.work.masks) hf.eq))
  · exact (congrArg (·.work.toks) hh).trans ((setStrand_toks _ _ _).trans (congrArg (·.work.toks) hf.eq))
  · exact (congrArg (·.slice) hh).trans (congrArg (·.slice) hf.eq)
  · exact (congrArg (·.acc) hh).trans (congrArg (·.acc) hf.eq)

/-- A result that is made pending after the grant. -/
theorem result_of_grants (us : List Upd) :
    (t.result 1 us).issue.me.pends = s.me.pends ++ [{ seq := s.me.seq, due := s.me.local_ + 1, upds := us }] ∧
      (∀ e, (t.result 1 us).issue.here.evTakes e = (f s.here).evTakes e) ∧ (∀ e, (t.result 1 us).issue.here.evPosts e = (f s.here).evPosts e) ∧
      (t.result 1 us).issue.me.s = s.me.s ∧ (t.result 1 us).issue.me.p = s.me.p ∧ SameMemory s (t.result 1 us).issue := by
  have hres := result_issue t 1 us
  have hme := me_of_grants ht hf
  refine ⟨?_, fun e => ?_, fun e => ?_, ?_, ?_, sameMemory_trans (memory_of_grants ht hf t.issued) hres.memory⟩
  · rw [results_pends hres, hme]
  · rw [hres.frame.here]; exact (counts_of_grants ht e).1
  · rw [hres.frame.here]; exact (counts_of_grants ht e).2
  · rw [hres.me, hme]
  · rw [hres.me, hme]

end

/-! What is granted (R117). -/

section
variable (H : Hall) {e : Nat} (he : e < 32)

theorem evTakes_take (he : e < 32) : (H.take e).evTakes e = H.evTakes e + 1 := by
  simp [Hall.take, Hall.evTakes, he]
theorem evTakes_take_ne {f : Nat} (hf : f ≠ e) : (H.take e).evTakes f = H.evTakes f := by
  simp [Hall.take, Hall.evTakes, Ne.symm hf]
theorem evPosts_take (f : Nat) : (H.take e).evPosts f = H.evPosts f := rfl

theorem evPosts_post (he : e < 32) (n : Nat) (t : Stamp) : (H.post e n t).evPosts e = H.evPosts e + n := by
  simp [Hall.post, Hall.evPosts, he]
theorem evPosts_post_ne {f : Nat} (hf : f ≠ e) (n : Nat) (t : Stamp) : (H.post e n t).evPosts f = H.evPosts f := by
  simp [Hall.post, Hall.evPosts, Ne.symm hf]
theorem evTakes_post (f n : Nat) (t : Stamp) : (H.post e n t).evTakes f = H.evTakes f := rfl

end

/-- A post that fits (R116, R117). -/
theorem postOrFreeze_posts (s : State) {e n : Nat} (he : e < 32) (h : s.here.evSample e + s.here.evPosts e + n ≤ 255) :
    (s.postOrFreeze e n).issued = true ∧ (s.postOrFreeze e n).here.evPosts e = s.here.evPosts e + n ∧
      (∀ f, f ≠ e → (s.postOrFreeze e n).here.evPosts f = s.here.evPosts f) ∧
      (∀ f, (s.postOrFreeze e n).here.evTakes f = s.here.evTakes f) ∧ EventFrame s (s.postOrFreeze e n) := by
  have hpost : s.postOrFreeze e n = (s.postEvent e n).issue := if_pos (decide_eq_true h)
  have hg := postEvent_grants s e n
  have hc := counts_of_grants hg
  rw [hpost]
  exact ⟨rfl, (hc e).2.trans (evPosts_post s.here he n _), fun f hf => (hc f).2.trans (evPosts_post_ne s.here hf n _), fun f => (hc f).1,
    frame_of_grants hg (post_eventsOnly s.here e n _) true⟩

theorem postOrFreeze_freezes (s : State) {e n : Nat} (h : 255 < s.here.evSample e + s.here.evPosts e + n) : Freezes s (s.postOrFreeze e n) := by
  have hfull : s.postOrFreeze e n = s.freeze := if_neg (by simp [Hall.canPost, h])
  exact hfull ▸ freeze_freezes s

theorem canTake_iff (H : Hall) (e : Nat) : H.canTake e = true ↔ H.evTakes e < H.evSample e := decide_eq_true_iff

/-- A test makes its predicates pending after the take, if there is one (R116). -/
theorem exec_evTest (s : State) (pd pe : BitVec 3) (x : BitVec 6) : exec (.evTest pd pe x) s =
    .next ((if s.here.canTake x.toNat then s.takeEvent x.toNat else s).result 1
      [.preg pd.toNat (s.here.canTake x.toNat), .preg pe.toNat !(s.here.canTake x.toNat)]).issue := rfl

theorem hallEvents : HallEvents := by
  intro s x hx e takes
  refine ⟨fun h => ⟨_, rfl, postOrFreeze_posts s hx h⟩, fun a hr => ?_, fun h => ?_, fun pd pe => ?_, fun h => ⟨_, rfl, postOrFreeze_freezes s h⟩,
    fun h => ?_⟩
  · intro n
    have he : exec (.evPostx x a) s = .next (if n = 0 then s.issue else s.postOrFreeze e n) :=
      congrArg Host.Outcome.next (reading_readable s _ _ hr)
    refine ⟨fun h0 => ⟨_, he, if_pos h0⟩, fun h0 hfit => ⟨_, he, ?_⟩, fun h0 hfull => ⟨_, he, ?_⟩⟩
    · rw [if_neg h0]; exact postOrFreeze_posts s hx hfit
    · rw [if_neg h0]; exact postOrFreeze_freezes s hfull
  · have he : exec (.evWait x) s = .next (s.takeEvent e).issue := congrArg Host.Outcome.next (if_pos ((canTake_iff _ _).2 h))
    have hg := takeEvent_grants s e
    have hc := counts_of_grants hg
    exact ⟨_, he, rfl, (hc e).1.trans (evTakes_take s.here hx), fun f hf => (hc f).1.trans (evTakes_take_ne s.here hf), fun f => (hc f).2,
      frame_of_grants hg (take_eventsOnly s.here e) true⟩
  · refine ⟨_, exec_evTest s pd pe x, rfl, ?_⟩
    by_cases h : takes
    · have hok : s.here.canTake x.toNat = true := (canTake_iff _ _).2 h
      obtain ⟨hpends, htakes, hposts, hkept⟩ := result_of_grants (takeEvent_grants s e) (take_eventsOnly s.here e)
        [.preg pd.toNat true, .preg pe.toNat false]
      simp only [hok, h, if_true, decide_true, Bool.not_true]
      exact ⟨hpends, (htakes e).trans (evTakes_take s.here hx), fun f hf => (htakes f).trans (evTakes_take_ne s.here hf), hposts, hkept⟩
    · have hok : s.here.canTake x.toNat = false := Bool.eq_false_iff.2 ((canTake_iff _ _).not.2 h)
      obtain ⟨hpends, htakes, hposts, hkept⟩ := result_of_grants (no_grant s) ⟨rfl, fun _ => rfl⟩ [.preg pd.toNat false, .preg pe.toNat true]
      simp only [hok, h, if_false, decide_false, Bool.not_false, Bool.false_eq_true]
      exact ⟨hpends, htakes e, fun f _ => htakes f, hposts, hkept⟩
  · exact ⟨_, congrArg Host.Outcome.next (if_neg ((canTake_iff _ _).not.2 h)), freeze_freezes s⟩

theorem eventCountsMerge : EventCountsMerge := by
  intro H e he
  refine ⟨?_, ?_, ?_⟩
  · simp [Hall.mergeEvents, Work.ev, he, Hall.mergeEvent]
  · simp [Hall.mergeEvents, Hall.evTakes, he]
  · simp [Hall.mergeEvents, Hall.evPosts, he]

/-- Settles O9: a take or a post changes its Hall's counts of the cycle and what its strand knows, and the end of the cycle adds them up. -/
theorem eventsOfAHall : Obligations.EventsOfAHall := ⟨hallEvents, eventCountsMerge⟩

end Sys2Proof.Proofs
end

section
/-! Conversions (R111). -/

namespace Sys2Proof.Proofs
open Sys2Proof.Machine Sys2Proof.Spec Sys2Proof.Laws

/-! The integer of a number (R72, R111). -/

theorem dyadic_zero (k : Nat) : dyadic k 0 = k := by simp [dyadic]

theorem dyadic_nonneg (m : Nat) (e : Int) : 0 ≤ dyadic m e := by unfold dyadic; positivity

/-- The nearest natural number lies within a half, and where it lies a half away it is even. -/
theorem roundAt_zero_nearest (m : Nat) (e : Int) : |((roundAt m e 0).1 : ℚ) - dyadic m e| ≤ 1 / 2 ∧
    (|((roundAt m e 0).1 : ℚ) - dyadic m e| = 1 / 2 → (roundAt m e 0).1 % 2 = 0) ∧
    ((roundAt m e 0).2 = true ↔ ((roundAt m e 0).1 : ℚ) ≠ dyadic m e) := by
  obtain ⟨hbest, htie, hexact⟩ := roundToNearestEven m e 0
  have hx := dyadic_nonneg m e
  simp only [dyadic_zero] at hbest htie hexact
  generalize (roundAt m e 0).1 = k at *
  generalize dyadic m e = x at *
  refine ⟨?_, fun h => ?_, hexact⟩
  · have hlo := Nat.floor_le hx
    have hhi := Nat.lt_floor_add_one x
    have h0 := hbest ⌊x⌋₊
    have h1 := hbest (⌊x⌋₊ + 1)
    push_cast at h1
    rw [abs_of_nonpos (sub_nonpos.2 hlo)] at h0
    rw [abs_of_nonneg (sub_nonneg.2 hhi.le)] at h1
    linarith
  · rcases (abs_eq (by norm_num)).1 h with hk | hk
    · have hk1 : 1 ≤ k := by
        have : (0 : ℚ) < k := by linarith
        exact_mod_cast this
      refine htie (k - 1) (by omega) ?_
      rw [Nat.cast_sub hk1, h, abs_of_nonpos (by push_cast; linarith)]
      push_cast
      linarith
    · refine htie (k + 1) (by omega) ?_
      rw [h, abs_of_nonneg (by push_cast; linarith)]
      push_cast
      linarith

/-- The integer part of m 2^e, and whether it is not exact. -/
def truncAt (m : Nat) (e : Int) : Nat × Bool :=
  if 0 ≤ e then (m * 2 ^ e.toNat, false) else (m / 2 ^ (-e).toNat, m % 2 ^ (-e).toNat != 0)

theorem truncAt_floor (m : Nat) (e : Int) : ((truncAt m e).1 : ℚ) ≤ dyadic m e ∧ dyadic m e < (truncAt m e).1 + 1 ∧
    ((truncAt m e).2 = true ↔ ((truncAt m e).1 : ℚ) ≠ dyadic m e) := by
  unfold truncAt
  split
  · next h =>
    have hval : ((m * 2 ^ e.toNat : Nat) : ℚ) = dyadic m e := by
      rw [← dyadic_zero, dyadic_mul_two_pow]; congr 1; omega
    dsimp only
    rw [hval]
    simp
  · next h =>
    obtain ⟨d, rfl⟩ : ∃ d : Nat, e = -d := ⟨(-e).toNat, by omega⟩
    have hval : dyadic m (-d) = (m : ℚ) / (2 ^ d : Nat) := by
      unfold dyadic; rw [zpow_neg, zpow_natCast, div_eq_mul_inv]; push_cast; rfl
    have hpos : (0 : ℚ) < (2 ^ d : Nat) := by positivity
    have hd := Nat.div_add_mod' m (2 ^ d)
    have hr := Nat.mod_lt m (Nat.two_pow_pos d)
    simp only [Int.neg_neg, Int.toNat_natCast]
    rw [hval, le_div_iff₀ hpos, div_lt_iff₀ hpos, Ne, eq_div_iff hpos.ne', bne_iff_ne]
    refine ⟨by exact_mod_cast hd ▸ Nat.le_add_right _ _, ?_, ?_⟩
    · have : m < (m / 2 ^ d + 1) * 2 ^ d := by rw [Nat.succ_mul]; omega
      exact_mod_cast this
    · norm_cast
      omega

/-- The integer that a conversion rounds m 2^e to, by its mode, and whether it is not exact. -/
def intAt (rz : Bool) (m : Nat) (e : Int) : Nat × Bool := if rz then truncAt m e else roundAt m e 0

/-- A value with a sign. -/
def withNeg {α : Type} [Neg α] (neg : Bool) (x : α) : α := if neg then -x else x

theorem intAt_inexact (rz : Bool) (m : Nat) (e : Int) : (intAt rz m e).2 = true ↔ ((intAt rz m e).1 : ℚ) ≠ dyadic m e := by
  cases rz
  · exact (roundAt_zero_nearest m e).2.2
  · exact (truncAt_floor m e).2.2

/-- The rounding that R111 asks for, of a value with its sign. -/
theorem intAt_rounds (rz neg : Bool) (m : Nat) (e : Int) :
    let r : Int := withNeg neg ((intAt rz m e).1 : Int)
    let q : ℚ := withNeg neg (dyadic m e)
    (if rz = true then |(r : ℚ)| ≤ |q| ∧ |q| < |(r : ℚ)| + 1 ∧ 0 ≤ r * q else |r - q| ≤ 1 / 2 ∧ (|r - q| = 1 / 2 → r % 2 = 0)) ∧
      ((r : ℚ) = q ↔ (intAt rz m e).2 = false) := by
  intro r q
  have hr : (r : ℚ) = withNeg neg ((intAt rz m e).1 : ℚ) := by cases neg <;> simp [r, withNeg]
  have hexact : (r : ℚ) = q ↔ (intAt rz m e).2 = false := by
    rw [← Bool.not_eq_true, intAt_inexact, not_not, hr]
    cases neg
    · exact Iff.rfl
    · exact neg_inj
  refine ⟨?_, hexact⟩
  cases rz with
  | true =>
    obtain ⟨hlo, hhi, -⟩ := truncAt_floor m e
    have habs (x : ℚ) (hx : 0 ≤ x) : |withNeg neg x| = x := by cases neg <;> simp [withNeg, abs_of_nonneg hx]
    rw [if_pos rfl, hr, habs _ (Nat.cast_nonneg _), habs _ (dyadic_nonneg m e)]
    refine ⟨hlo, hhi, ?_⟩
    have := mul_nonneg (Nat.cast_nonneg (α := ℚ) (truncAt m e).1) (dyadic_nonneg m e)
    cases neg <;> simpa [q, withNeg, intAt] using this
  | false =>
    obtain ⟨hnear, htie, -⟩ := roundAt_zero_nearest m e
    have habs : |(r : ℚ) - q| = |((roundAt m e 0).1 : ℚ) - dyadic m e| := by
      rw [hr]
      cases neg
      · rfl
      · rw [abs_sub_comm]; congr 1; simp [q, withNeg, intAt]; ring
    rw [if_neg Bool.false_ne_true, habs]
    refine ⟨hnear, fun h => ?_⟩
    have := htie h
    cases neg
    · simpa [r, withNeg, intAt] using (by omega : ((roundAt m e 0).1 : Int) % 2 = 0)
    · simpa [r, withNeg, intAt] using (by omega : ((roundAt m e 0).1 : Int) % 2 = 0)

theorem toInt_nan {f : Fmt} {a : Nat} {q : Bool} (rz : Bool) (lo hi : Int) (h : f.unpack a = .nan q) :
    f.toInt rz lo hi a = { val := 0, flags := flNV } := by
  unfold Fmt.toInt; rw [h]

theorem toInt_inf {f : Fmt} {a : Nat} {neg : Bool} (rz : Bool) (lo hi : Int) (h : f.unpack a = .inf neg) :
    f.toInt rz lo hi a = { val := if neg then lo else hi, flags := flNV ||| flSAT } := by
  unfold Fmt.toInt; rw [h]

/-- A number beside or within the limits of its integer type (R73). -/
theorem toInt_num {f : Fmt} {a m : Nat} {neg : Bool} {e : Int} (rz : Bool) (lo hi : Int) (h : f.unpack a = .num neg m e) :
    f.toInt rz lo hi a =
      if withNeg neg ((intAt rz m e).1 : Int) < lo then { val := lo, flags := flNV ||| flSAT }
      else if hi < withNeg neg ((intAt rz m e).1 : Int) then { val := hi, flags := flNV ||| flSAT }
      else { val := withNeg neg ((intAt rz m e).1 : Int), flags := if (intAt rz m e).2 then flNX else 0 } := by
  unfold Fmt.toInt
  rw [h]
  cases rz <;> rfl

theorem intLo_le_intHi (w : Nat) (u : Bool) : intLo w u ≤ intHi w u := by
  have h1 : (0 : Int) < 2 ^ w := by positivity
  have h2 : (0 : Int) < 2 ^ (w - 1) := by positivity
  cases u
  · simp only [intLo, intHi, Bool.false_eq_true, if_false]; omega
  · simp only [intLo, intHi, if_true]; omega

/-! FCVT. -/

section
variable {dst src : CTy} {x : Word} {rz : Bool}

theorem fcvt_toFloat {f g : Fmt} (hf : CTy.fmt src = some f) (hg : CTy.fmt dst = some g) : fcvt dst src rz x =
    { val := BitVec.ofNat 64 (f.convert g (x.toNat % 2 ^ CTy.bits src)).bits, flags := (f.convert g (x.toNat % 2 ^ CTy.bits src)).flags, sat := false } := by
  unfold fcvt; rw [hf, hg]

theorem fcvt_ofInt {g : Fmt} (hf : CTy.fmt src = none) (hg : CTy.fmt dst = some g) : fcvt dst src rz x =
    { val := BitVec.ofNat 64 (g.ofInt (CTy.intOf src x)).bits, flags := (g.ofInt (CTy.intOf src x)).flags, sat := false } := by
  unfold fcvt; rw [hf, hg]

theorem fcvt_toInt {f : Fmt} {v : Int} {fl : BitVec 6} (hf : CTy.fmt src = some f) (hg : CTy.fmt dst = none)
    (h : f.toInt rz (intLo (CTy.bits dst) (CTy.unsigned dst)) (intHi (CTy.bits dst) (CTy.unsigned dst)) (x.toNat % 2 ^ CTy.bits src) =
      { val := v, flags := fl }) :
    fcvt dst src rz x = { val := BitVec.ofInt 64 v, flags := fl, sat := fl &&& flSAT != 0 } := by
  unfold fcvt; rw [hf, hg]; dsimp only; rw [h]; rfl

end

theorem fcvt_results {s : State} {dst src : CTy} {rz : Bool} {d a : BitVec 6} {v : Word} {fl : BitVec 6} {b : Bool} {n : Nat}
    (hr : Readable s [.s a.toNat]) (h : fcvt dst src rz (s.rs a) = { val := v, flags := fl, sat := b }) (hn : (if b then 1 else 0) = n) :
    ∃ t, exec (.fcvt dst src rz d a) s = .next t ∧
      Results s t 3 s.me.divFree [.sreg d.toNat v, .flags fl, .count .SAT s.me.ntid.toNat n] := by
  have he : exec (.fcvt dst src rz d a) s = .next (s.compute [.s a.toNat] 3 [.sreg d.toNat (fcvt dst src rz (s.rs a)).val,
    .flags (fcvt dst src rz (s.rs a)).flags, .count .SAT s.me.ntid.toNat (if (fcvt dst src rz (s.rs a)).sat then 1 else 0)]) := rfl
  rw [h] at he
  exact ⟨_, he, hn ▸ compute_results s _ 3 _ hr⟩

/-- Settles O5: the value's integer is the one that its mode asks for, and the limits of the type decide what it gives. -/
theorem conversionResults : Obligations.ConversionResults := by
  intro s d a rz hr gives
  refine ⟨fun dst src f g hf hg => fcvt_results hr (fcvt_toFloat hf hg) rfl, fun dst src g hf hg => fcvt_results hr (fcvt_ofInt hf hg) rfl,
    fun dst src f hf hg => ?_⟩
  intro lo hi clamped
  have hlim : lo ≤ hi := intLo_le_intHi _ _
  have clamp (neg : Bool) (h : f.toInt rz lo hi ((s.rs a).toNat % 2 ^ CTy.bits src) = { val := if neg then lo else hi, flags := flNV ||| flSAT }) :
      clamped neg := fcvt_results hr (fcvt_toInt hf hg h) rfl
  split
  · next hu => exact fcvt_results hr (fcvt_toInt hf hg (toInt_nan rz _ _ hu)) rfl
  · next neg hu => exact clamp neg (toInt_inf rz _ _ hu)
  · next neg m e hu =>
    have hv := toInt_num rz lo hi hu
    obtain ⟨hround, hexact⟩ := intAt_rounds rz neg m e
    refine ⟨withNeg neg ((intAt rz m e).1 : Int), hround, fun hlt => clamp true ?_, fun hgt => clamp false ?_, fun ⟨hge, hle⟩ => ?_⟩
    · rw [if_pos hlt] at hv; exact hv
    · rw [if_neg (by omega), if_pos hgt] at hv; exact hv
    · rw [if_neg (by omega), if_neg (by omega)] at hv
      change gives dst src _ (if ((withNeg neg ((intAt rz m e).1 : Int) : Int) : ℚ) = withNeg neg (dyadic m e) then 0 else flNX) 0
      cases hx : (intAt rz m e).2
      · rw [hx] at hv
        rw [if_pos (hexact.2 hx)]
        exact fcvt_results hr (fcvt_toInt hf hg hv) rfl
      · rw [hx] at hv
        rw [if_neg (hexact.not.2 (by rw [hx]; decide))]
        exact fcvt_results hr (fcvt_toInt hf hg hv) rfl

end Sys2Proof.Proofs
end

section
/-! A fill from tiles whose staged weights are not all of its bank (R181, R182). -/

namespace Sys2Proof.Proofs
open Sys2Proof.Machine Sys2Proof.Spec

/-- A fill of bank 0 from tiles that has ended, and that has staged one weight, at depth 0 and column 0 of bank 1. -/
def strayFill : MatCmd :=
  { id := 0, op := .mwLoad .BF16 false false 0 0, word := 0, value := 0, pages := [], fmt := .BF16, tid := 0, slice := 0, asid := 0, part := 0,
    super := true, depth := 0, poster := 0, started := some 0, endsAt := 0, fed := 128, lastFed := 0, rows := [], flags := 0, posted := false,
    lost := none, clock := [], floor := [], pc := 0, staged := [(65536, 1)] }

/-- The fill stands alone in the queue of Hall 0. -/
def strayFilling : State := State.reset.onHall 0 fun H => { H with mq := [strayFill] }

theorem strayFilling_due : (strayFilling.hall 0).fillDue = some strayFill := by decide +kernel

/-- The staged weight enters bank 1, which was empty. -/
theorem strayFill_writes_other_bank : ((strayFilling.completeFill 0 strayFill).hall 0).work.weight 1 0 0 = 1 ∧ (strayFilling.hall 0).work.weight 1 0 0 = 0 := by
  decide +kernel

/-- Refutes O42: of the weights that a fill from tiles has staged, the statement asks only that their places rise, not that they lie in the bank
that is filled; with one that lies in the other bank, the other bank does not stay as it was. -/
theorem not_matrixEngineSteps : ¬Obligations.MatrixEngineSteps := by
  rintro ⟨-, hfills⟩
  obtain ⟨hfill, -⟩ := hfills strayFilling 0 strayFill
  obtain ⟨-, hstaged, -⟩ := hfill strayFilling_due
  obtain ⟨t, ht, -, -, -, hother, -⟩ := hstaged .BF16 false 0 0 rfl (List.pairwise_singleton _ _)
  have he : exec (.weightFillComplete 0) strayFilling = .next (strayFilling.completeFill 0 strayFill) := by
    change execWeightFillComplete 0 strayFilling = _
    unfold execWeightFillComplete
    rw [strayFilling_due]
  obtain rfl : strayFilling.completeFill 0 strayFill = t := Host.Outcome.next.inj (he.symm.trans ht)
  obtain ⟨hafter, hbefore⟩ := strayFill_writes_other_bank
  have heq := (hother 0 0 (by decide) (by decide)).trans hbefore
  exact absurd (hafter.symm.trans heq) (by decide)

end Sys2Proof.Proofs
end

section
/-! SUPPORT. What reads and writes at the home do to memory, and that they leave the Halls' time as it is (R262, R263, R273, R342, R416). -/

namespace Sys2Proof.Proofs
open Sys2Proof.Machine Sys2Proof.Spec Sys2Proof.Laws

/-! The Halls' time. -/

/-- Every Hall's cycle is what it was. -/
def SameCycles (s t : State) : Prop := ∀ k, (t.hall k).cycle = (s.hall k).cycle

theorem sameCycles_refl (s : State) : SameCycles s s := fun _ => rfl

theorem sameCycles_trans {s t u : State} (a : SameCycles s t) (b : SameCycles t u) : SameCycles s u := fun k => (b k).trans (a k)

theorem sameCycles_of_halls {s t : State} (h : t.halls = s.halls) : SameCycles s t := fun k => by simp only [State.hall, h]

theorem sameCycles_onHall (s : State) (h : HallId) (f : Hall → Hall) (hf : (f (s.hall h)).cycle = (s.hall h).cycle) : SameCycles s (s.onHall h f) := by
  intro k
  by_cases hk : k = h
  · subst hk; rw [hall_onHall_same]; exact hf
  · rw [hall_onHall_ne s h k f hk]

theorem sameCycles_postSuper (s : State) (p : PartId) (ev : Nat) : SameCycles s (s.postSuper p ev) := by
  unfold State.postSuper
  split
  · exact sameCycles_of_halls rfl
  · split
    · exact sameCycles_onHall s _ _ rfl
    · split
      · exact sameCycles_of_halls rfl
      · exact sameCycles_of_halls rfl

theorem sameCycles_raiseEvent (s : State) (p : PartId) (e : HostEvent) : SameCycles s (s.raiseEvent p e) := by
  have hpart (f : Part → Part) : SameCycles s (s.onPart p f) := sameCycles_of_halls rfl
  unfold State.raiseEvent
  dsimp only
  split
  · exact hpart _
  · exact sameCycles_trans (hpart _) (sameCycles_postSuper _ p 30)

/-! Writes: of memory, where no partition counts into a hot map, only the cells change. -/

/-- `t` is `s` after these cells have been written at their home. -/
structure Writes (s t : State) (cs : List Host.Cell) : Prop where
  cycles : SameCycles s t
  cells : Uncounted s → t.mem = Memory.write s.mem cs ∧ t.parts = s.parts

theorem uncounted_of_parts {s t : State} (h : t.parts = s.parts) (hu : Uncounted s) : Uncounted t := by
  intro p
  rw [show t.part p = s.part p by simp only [State.part, h]]
  exact hu p

theorem writes_trans {s t u : State} {cs ds : List Host.Cell} (a : Writes s t cs) (b : Writes t u ds) : Writes s u (cs ++ ds) := by
  refine ⟨sameCycles_trans a.cycles b.cycles, fun hs => ?_⟩
  obtain ⟨hm, hp⟩ := a.cells hs
  obtain ⟨hm', hp'⟩ := b.cells (uncounted_of_parts hp hs)
  exact ⟨by rw [hm', hm]; exact (List.foldl_append ..).symm, hp'.trans hp⟩

theorem writes_none {s t : State} (hh : SameCycles s t) (hm : t.mem = s.mem) (hp : t.parts = s.parts) : Writes s t [] := ⟨hh, fun _ => ⟨hm, hp⟩⟩

theorem writes_refl (s : State) : Writes s s [] := writes_none (sameCycles_refl s) rfl rfl

/-- A step that leaves Halls, memory and partitions as they are. -/
theorem writes_of_eq {s t : State} (hh : t.halls = s.halls) (hm : t.mem = s.mem) (hp : t.parts = s.parts) : Writes s t [] :=
  writes_none (sameCycles_of_halls hh) hm hp

theorem writes_foldl {α : Type} {f : State → α → State} {g : α → List Host.Cell} (hf : ∀ s a, Writes s (f s a) (g a)) (xs : List α) (s : State) :
    Writes s (xs.foldl f s) (xs.flatMap g) := by
  induction xs generalizing s with
  | nil => exact writes_refl s
  | cons x xs ih => exact writes_trans (hf s x) (ih (f s x))

theorem writes_undoLine (s : State) (line : Nat) : Writes s (s.undoLine line) [] := by
  unfold State.undoLine
  split
  case h_1 => exact writes_none (sameCycles_onHall s _ _ rfl) rfl rfl
  all_goals exact writes_refl s

/-- New check bits change neither Halls, memory nor partitions. -/
theorem mend_keeps (s : State) (cs : List Host.Cell) : (s.mend cs).halls = s.halls ∧ (s.mend cs).mem = s.mem ∧ (s.mend cs).parts = s.parts := by
  unfold State.mend
  split
  · exact ⟨rfl, rfl, rfl⟩
  · exact ⟨rfl, rfl, rfl⟩

theorem writes_putLine (s : State) (line : Nat) (cs : List Host.Cell) (v : Version) : Writes s (s.putLine line cs v) cs := by
  refine writes_trans (writes_undoLine s line) ?_
  obtain ⟨hh, -, hp⟩ := mend_keeps (s.undoLine line) cs
  unfold State.putLine
  dsimp only
  split
  · exact ⟨sameCycles_of_halls hh, fun _ => ⟨rfl, hp⟩⟩
  · exact ⟨sameCycles_of_halls hh, fun _ => ⟨rfl, hp⟩⟩

theorem writes_poke (s : State) (cs : List Host.Cell) :
    Writes s (s.poke cs) ((dedup (cs.map (·.1 / 64))).flatMap fun l => cs.filter fun c => c.1 / 64 == l) := by
  unfold State.poke
  refine writes_trans (cs := []) (t := { s with pubs := s.pubs + 1 }) (writes_of_eq rfl rfl rfl) (writes_foldl (fun t l => ?_) _ _)
  exact writes_putLine t l _ _

theorem sameCycles_setBitmap (s : State) (p : PartId) (base : Word) (n : Nat) : SameCycles s (s.setBitmap p base n) := by
  unfold State.setBitmap
  split
  · exact sameCycles_refl s
  · split
    · exact (writes_poke s _).cycles
    · exact sameCycles_refl s
    · exact sameCycles_refl s

/-! Reads. -/

/-- An access of a partition that does not count into a hot map only counts (R416). -/
theorem touch_uncounted {s : State} (hu : Uncounted s) (p : PartId) (line : Nat) :
    (s.touch p line).mem = s.mem ∧ (s.touch p line).parts = s.parts := by
  unfold State.touch
  extract_lets a owns sec c0 c P s1 s2
  split
  · exact ⟨rfl, rfl⟩
  · rw [if_neg (by rw [show P.migcfg.getLsbD 16 = false from hu p, Bool.false_and]; exact Bool.false_ne_true)]
    exact ⟨rfl, rfl⟩

theorem writes_touch (s : State) (p : PartId) (line : Nat) : Writes s (s.touch p line) [] := by
  refine ⟨?_, fun hu => touch_uncounted hu p line⟩
  unfold State.touch
  extract_lets a owns sec c0 c P s1 s2
  split
  · exact sameCycles_refl s
  · split
    · have hs2 : SameCycles s s2 := sameCycles_trans (sameCycles_of_halls (t := s1) rfl) (sameCycles_setBitmap s1 p P.hotmap _)
      split
      · exact sameCycles_trans hs2 (sameCycles_raiseEvent _ p _)
      · exact hs2
    · exact sameCycles_of_halls rfl

theorem writes_touchAll (s : State) (p : PartId) (ps : List Nat) : Writes s (s.touchAll p ps) [] := by
  have h := writes_foldl (g := fun _ : Nat => []) (fun t l => writes_touch t p l) (dedup (ps.map (· / 64))) s
  rwa [List.flatMap_eq_nil_iff.2 fun _ _ => rfl] at h

theorem writes_sense (s : State) (p : PartId) (a : Nat) : Writes s (s.sense p a).2 [] := by
  unfold State.sense
  split
  · dsimp only
    split
    · exact writes_refl s
    · split
      · exact writes_refl s
      · split
        · exact writes_none (sameCycles_onHall s _ _ rfl) rfl rfl
        · exact writes_refl s
  · split
    · dsimp only
      split
      · exact writes_refl s
      · split
        · exact writes_of_eq rfl rfl rfl
        · exact writes_refl s
    · exact writes_refl s

theorem writes_senseUnits (p : PartId) (us : List Nat) (s : State) : Writes s (State.senseUnits p us s).2 [] := by
  induction us generalizing s with
  | nil => exact writes_refl s
  | cons u rest ih =>
    have w := writes_sense s p u
    unfold State.senseUnits
    split
    · next e => rw [e] at w; exact w
    · next e => rw [e] at w; exact writes_trans w (ih _)

theorem writes_senseRead (s : State) (p : PartId) (ps : List Nat) : Writes s (s.senseRead p ps).2 [] :=
  writes_trans (writes_touchAll s p ps) (writes_senseUnits p _ _)

/-! Writes by agents. -/

theorem writes_markDirty (s : State) (asid : Asid) (a : Nat) : Writes s (s.markDirty asid a) [] := by
  unfold State.markDirty State.onCtx
  split
  · split
    · exact writes_of_eq rfl rfl rfl
    · exact writes_of_eq rfl rfl rfl
  · exact writes_refl s

theorem writes_writeLine (s : State) (w : Writer) (line : Nat) (cs : List Host.Cell) : Writes s (s.writeLine w line cs) cs := by
  unfold State.writeLine
  extract_lets s1 key s2
  have h2 : Writes s s2 cs := by
    have h := writes_trans (writes_putLine s line cs _) (writes_of_eq (s := s1) (t := s2) rfl rfl rfl)
    rwa [List.append_nil] at h
  split
  · exact h2
  · have h := writes_trans h2 (writes_trans (writes_touch s2 w.part line) (writes_markDirty _ w.asid (64 * line)))
    rwa [List.append_nil, List.append_nil] at h

/-- Cells in the order in which their lines are written. -/
def byLines (cs : List Host.Cell) : List Host.Cell := (dedup (cs.map (·.1 / 64))).flatMap fun l => cs.filter fun c => c.1 / 64 == l

theorem writes_writeHome (s : State) (w : Writer) (cs : List Host.Cell) : Writes s (s.writeHome w cs) (byLines cs) := by
  unfold State.writeHome byLines
  exact writes_foldl (f := fun t l => t.writeLine w l (cs.filter fun c => c.1 / 64 == l)) (fun t l => writes_writeLine t w l _) _ s

theorem mem_dedup {a : Nat} {xs : List Nat} : a ∈ dedup xs ↔ a ∈ xs := by
  induction xs generalizing a with
  | nil => rfl
  | cons b t ih =>
    unfold dedup
    dsimp only
    split
    · next hb =>
      have : b ∈ t := ih.1 (List.contains_iff_mem.1 hb)
      rw [List.mem_cons, ih]
      exact ⟨.inr, fun h => h.elim (fun e => e ▸ this) id⟩
    · rw [List.mem_cons, List.mem_cons, ih]

theorem mem_byLines {c : Host.Cell} {cs : List Host.Cell} : c ∈ byLines cs ↔ c ∈ cs := by
  simp only [byLines, List.mem_flatMap, List.mem_filter, mem_dedup, List.mem_map, beq_iff_eq]
  exact ⟨fun ⟨_, _, h, _⟩ => h, fun h => ⟨_, ⟨c, h, rfl⟩, h, rfl⟩⟩

/-- An engine's write of bytes of this module. -/
theorem writes_engineWrite (s : State) (w : Writer) {cs : List Host.Cell} (hnear : ∀ c ∈ cs, inFabric c.1 = false) :
    Writes s (s.engineWrite w cs) (byLines cs) := by
  have hfar : cs.filter (fun c => inFabric c.1) = [] := List.filter_eq_nil_iff.2 fun c hc => by simp [hnear c hc]
  have hall : cs.filter (fun c => !inFabric c.1) = cs := List.filter_eq_self.2 fun c hc => by simp [hnear c hc]
  unfold State.engineWrite
  rw [hfar, hall]
  cases w.agent <;> exact writes_writeHome s w cs

/-! What is read afterwards. -/

/-- Where all writes of a key are of one value, it reads that value. -/
theorem sget_ssetAll_of_unique {w : Nat} {v : BitVec w} {k : Nat} (cs : List (Nat × BitVec w)) (m : SMap w) (hk : (k, v) ∈ cs)
    (hu : ∀ c ∈ cs, c.1 = k → c.2 = v) : sget (ssetAll m cs) k = v := by
  induction cs generalizing m with
  | nil => cases hk
  | cons c t ih =>
    by_cases ht : (k, v) ∈ t
    · exact ih _ ht fun d hd => hu d (.tail _ hd)
    · have hc : c = (k, v) := ((List.mem_cons.1 hk).resolve_right ht).symm
      subst hc
      refine (sget_ssetAll_ne t _ k fun d hd hdk => ht ?_).trans (sget_sset_same m k v)
      have := hu d (.tail _ hd) hdk
      exact this ▸ hdk ▸ hd

theorem byte_of_writes {s t : State} {cs : List Host.Cell} (h : Writes s t (byLines cs)) (hu : Uncounted s) :
    (∀ a, (∀ c ∈ cs, c.1 ≠ a) → Memory.byte t.mem a = Memory.byte s.mem a) ∧
      ((cs.map (·.1)).Nodup → ∀ c ∈ cs, Memory.byte t.mem c.1 = c.2) := by
  rw [(h.cells hu).1]
  refine ⟨fun a ha => Memory.byte_write_ne _ _ a fun c hc => ha c (mem_byLines.1 hc), fun hnd c hc => ?_⟩
  refine sget_ssetAll_of_unique (w := 8) _ _ (mem_byLines.2 hc) fun d hd hdc => ?_
  rw [List.inj_on_of_nodup_map hnd (mem_byLines.1 hd) hc hdc]

end Sys2Proof.Proofs
end

section
/-! OBLIGATIONS. The Hazel engine's commands and node atomics, and the posts of engines (R118, R236, R238, R239, R363, R369, R372). -/

namespace Sys2Proof.Proofs
open Sys2Proof.Machine Sys2Proof.Spec Sys2Proof.Laws

/-! One router atomic on a field of this module. -/

/-- From `s` to `t` the field at these places takes a new value, or keeps its own, no other byte changes, and no Hall's time goes on. -/
structure FieldTakes (s t : State) (ps : List Nat) (v : Option Nat) : Prop where
  cycles : SameCycles s t
  others : Uncounted s → ∀ p, p ∉ ps → Memory.byte t.mem p = Memory.byte s.mem p
  value : Uncounted s →
    match v with
    | some x => ps.map (Memory.byte t.mem) = leBytes ps.length x
    | none => ∀ p, Memory.byte t.mem p = Memory.byte s.mem p

theorem fieldTakes_none {s t : State} {ps : List Nat} (w : Writes s t []) : FieldTakes s t ps none := by
  have hsame (hu : Uncounted s) (p : Nat) : Memory.byte t.mem p = Memory.byte s.mem p := by rw [(w.cells hu).1]; rfl
  exact ⟨w.cycles, fun hu p _ => hsame hu p, hsame⟩

theorem fieldTakes_some {s t : State} {ps : List Nat} {x : Nat} (hps : ps.Nodup) (w : Writes s t (byLines (ps.zip (leBytes ps.length x)))) :
    FieldTakes s t ps (some x) := by
  have hlen : ps.length = (leBytes ps.length x).length := (leBytes_length _ _).symm
  have hfst : (ps.zip (leBytes ps.length x)).map Prod.fst = ps := List.map_fst_zip hlen.le
  have hsnd : (ps.zip (leBytes ps.length x)).map Prod.snd = leBytes ps.length x := List.map_snd_zip hlen.ge
  refine ⟨w.cycles, fun hu p hp => ?_, fun hu => ?_⟩
  · exact (byte_of_writes w hu).1 p fun c hc hcp => hp (hcp ▸ hfst ▸ List.mem_map_of_mem hc)
  · have hval := (byte_of_writes w hu).2 (hfst.symm ▸ hps)
    calc ps.map (Memory.byte t.mem) = ((ps.zip (leBytes ps.length x)).map Prod.fst).map (Memory.byte t.mem) := by rw [hfst]
      _ = (ps.zip (leBytes ps.length x)).map Prod.snd := by rw [List.map_map]; exact List.map_congr_left hval
      _ = leBytes ps.length x := hsnd

/-- A write of a field whose places resolve and lie in valid row groups of this module. -/
theorem writes_hazelPut {s : State} {h : HallId} {c : HzCmd} {a : Word} {bs : Bytes} {ps : List Nat}
    (hfound : s.engineResolve (s.hazelWho h c) (s.bindsOf c.slice) wantEngineWrite (runFrom a.toNat bs.length) = (.ok ps, s))
    (hvalid : s.invalidAt (fun _ => false) ps = none) (hnear : ∀ p ∈ ps, inFabric p = false) :
    Writes s (s.hazelPut h c a bs).2 (byLines (ps.zip bs)) := by
  unfold State.hazelPut
  simp only [hfound, hvalid]
  have w := writes_engineWrite s.nextPub.2 (hazelWriter h c (some s.nextPub.1) c.clock true) (cs := ps.zip bs) fun x hx => hnear x.1 (List.of_mem_zip hx).1
  exact writes_trans (cs := []) (t := s.nextPub.2) (writes_of_eq rfl rfl rfl) w

/-- An action on a field that the engine finds: its old value decides the new one and the next step. -/
theorem hazelAtomic_field {s : State} {h : HallId} {r : HzRun} {a : Word} {n : Nat} {ps : List Nat} (F : HzField s h r a n ps)
    (f : Nat → Option Nat × HzStep) :
    ∃ u, s.hazelAtomic h r.cmd a n f = (.ok (f (fieldOf s ps)).2, u) ∧ FieldTakes s u ps (f (fieldOf s ps)).1 := by
  obtain ⟨s2, hread, hfound, hvalid⟩ := F.read
  have hnear : ps.any inFabric = false := by simpa using F.near
  have hsense : Writes s s2 [] := by
    have w := writes_senseRead s r.cmd.part ps
    rwa [hread] at w
  unfold State.hazelAtomic
  simp only [F.found, hnear, hread, Bool.false_eq_true, if_false]
  refine ⟨_, rfl, ?_⟩
  change FieldTakes s (match (f (fieldOf s ps)).1 with | none => s2 | some v => (s2.hazelPut h r.cmd a (leBytes n v)).2) ps (f (fieldOf s ps)).1
  cases (f (fieldOf s ps)).1 with
  | none => exact fieldTakes_none hsense
  | some v =>
    have hput := writes_hazelPut (h := h) (bs := leBytes n v) (by rw [leBytes_length]; exact hfound) hvalid F.near
    rw [← F.width] at hput ⊢
    exact fieldTakes_some F.apart (writes_trans hsense hput)

/-- A step that ends in one router atomic makes it (R236, R363). -/
theorem hzActs_of_atomic {s : State} {h : HallId} {r : HzRun} {a : Word} {n : Nat} {ps : List Nat} {f : Nat → Option Nat × HzStep} {v : Option Nat}
    {next : HzStep} (hz : (s.hall h).hz = some r) (hat : r.nextAt ≤ (s.hall h).cycle) (hdone : ∀ cur, r.step ≠ .done cur)
    (hfail : ∀ code, r.step ≠ .fail code) (F : HzField s h r a n ps)
    (hact : s.hazelAct h r.cmd r.pool r.step = s.hazelAtomic h r.cmd a n f) (hf : f (fieldOf s ps) = (v, next)) : HzActs s h r ps v next := by
  obtain ⟨u, hu, T⟩ := hazelAtomic_field F f
  rw [hf] at hu T
  have hnode : s.hazelNode h =
      ((u.dropHazel h r.cmd).drawDelay.2).onHall h fun H => { H with hz := some { r with step := next, nextAt := H.cycle + 1 + Config.delay u.free } } := by
    unfold State.hazelNode
    simp only [hz]
    rw [if_neg (by omega), hact, hu]
    rfl
  refine ⟨s.hazelNode h, { r with step := next, nextAt := (u.hall h).cycle + 1 + Config.delay u.free }, rfl, ?_, rfl, rfl, rfl, ?_, fun hc _ => ?_⟩
  · rw [hnode, hall_onHall_same]
    rfl
  · have hcycle := T.cycles h
    dsimp only
    omega
  · have hmem : (s.hazelNode h).mem = u.mem := by rw [hnode]; rfl
    have hvalue := T.value hc
    rw [hmem]
    refine ⟨T.others hc, ?_⟩
    cases v with
    | none => exact hvalue
    | some x => exact hvalue

/-! The node atomics of descents, expansions and backups. -/

/-- Where a backup goes from a node: to the next of its path, up of them behind it. -/
def nextBackup (ns : List Nat) (up : Nat) (dup : Bool) : HzStep :=
  match ns with
  | [] => .done up
  | _ => if dup then .addV ns up dup else .addN ns up dup

/-- What a backup adds, as R372 says it. -/
theorem share_eq (P : HzPool) (v up : Nat) :
    P.share v up = if P.alt = true ∧ up % 2 = 1 then (if P.q824 = true then (2 ^ 32 - v) % 2 ^ 32 else (fp32.negate v).bits) else v := by
  unfold HzPool.share
  simp only [Bool.and_eq_true, beq_iff_eq]

/-- The action of a descent's step. -/
theorem hazelAct_desc (s : State) (h : HallId) {c : HzCmd} (hk : c.kind = .desc) (P : HzPool) (st : HzStep) :
    s.hazelAct h c (some P) st = s.hazelDescend h c P st := by
  unfold State.hazelAct
  rw [hk]

/-- The action of an expansion's step. -/
theorem hazelAct_expand (s : State) (h : HallId) {c : HzCmd} (hk : c.kind = .expand) (P : HzPool) (st : HzStep) :
    s.hazelAct h c (some P) st = s.hazelExpand h c P st := by
  unfold State.hazelAct
  rw [hk]

/-- The action of a backup's step. -/
theorem hazelAct_back (s : State) (h : HallId) {c : HzCmd} (hk : c.kind = .back) (P : HzPool) (st : HzStep) :
    s.hazelAct h c (some P) st = s.hazelBack h c P st := by
  unfold State.hazelAct
  rw [hk]

section
variable {s : State} {h : HallId} {r : HzRun} {P : HzPool} {ps : List Nat} (hz : (s.hall h).hz = some r) (hat : r.nextAt ≤ (s.hall h).cycle)
  (hpool : r.pool = some P)

include hz hat hpool

theorem hzActs_begin (hk : r.cmd.kind = .desc) (hst : r.step = .begin) (hroot : r.cmd.va.toNat < P.cap) (hbatch : r.cmd.vb.toNat % 64 = 0)
    (F : HzField s h r r.cmd.vb 4 ps) :
    if fieldOf s ps < 256 then HzActs s h r ps (some (fieldOf s ps + 1)) (.visit (fieldOf s ps) [] r.cmd.va.toNat)
    else HzActs s h r ps none (.done 256) := by
  have hact : s.hazelAct h r.cmd r.pool r.step =
      s.hazelAtomic h r.cmd r.cmd.vb 4 fun n => if n < 256 then (some (n + 1), .visit n [] r.cmd.va.toNat) else (none, .done 256) := by
    rw [hpool, hst, hazelAct_desc s h hk]
    exact if_neg (by omega)
  have hlive (x : HzStep) (hx : HzStep.begin ≠ x) : r.step ≠ x := hst ▸ hx
  split
  · next hn => exact hzActs_of_atomic hz hat (fun _ => hlive _ nofun) (fun _ => hlive _ nofun) F hact (if_pos hn)
  · next hn => exact hzActs_of_atomic hz hat (fun _ => hlive _ nofun) (fun _ => hlive _ nofun) F hact (if_neg hn)

theorem hzActs_visit (hk : r.cmd.kind = .desc) {slot : Nat} {path : List Nat} {n : Nat} (hst : r.step = .visit slot path n)
    (F : HzField s h r (P.node n 10) 2 ps) : HzActs s h r ps (some ((fieldOf s ps + 1) % 65536)) (.look slot (path ++ [n])) := by
  refine hzActs_of_atomic hz hat (hst ▸ fun _ => nofun) (hst ▸ fun _ => nofun) F
    (f := fun v => (some ((v + 1) % 65536), .look slot (path ++ [n]))) ?_ rfl
  rw [hpool, hst, hazelAct_desc s h hk]
  rfl

theorem hzActs_pend (hk : r.cmd.kind = .desc) {slot : Nat} {path : List Nat} {n : Nat} (hst : r.step = .pend slot (path ++ [n]))
    (F : HzField s h r (P.node n 12) 2 ps) :
    if fieldOf s ps / 4 % 2 = 0 then HzActs s h r ps (some (fieldOf s ps % 16 + 4)) (.record slot (path ++ [n]) 1)
    else HzActs s h r ps none (.record slot (path ++ [n]) 2) := by
  have hleaf : (path ++ [n]).getLast?.getD 0 = n := by rw [List.getLast?_concat]; rfl
  have hact : s.hazelAct h r.cmd r.pool r.step = s.hazelAtomic h r.cmd (P.node n 12) 2 fun v =>
      if v / 4 % 2 = 0 then (some (v % 16 + 4), .record slot (path ++ [n]) 1) else (none, .record slot (path ++ [n]) 2) := by
    rw [hpool, hst, hazelAct_desc s h hk]
    unfold State.hazelDescend
    dsimp only
    rw [hleaf]
  split
  · next hn => exact hzActs_of_atomic hz hat (hst ▸ fun _ => nofun) (hst ▸ fun _ => nofun) F hact (if_pos hn)
  · next hn => exact hzActs_of_atomic hz hat (hst ▸ fun _ => nofun) (hst ▸ fun _ => nofun) F hact (if_neg hn)

theorem hzActs_flag (hk : r.cmd.kind = .expand) {base : Nat} (hst : r.step = .flag base) (hfar : s.farWaits h .L (some .hazel) = false)
    (F : HzField s h r (P.node r.cmd.va.toNat 12) 2 ps) :
    HzActs s h r ps (some (fieldOf s ps / 8 % 2 * 8 + fieldOf s ps / 2 % 2 * 2 + 1)) (.done base) := by
  refine hzActs_of_atomic hz hat (hst ▸ fun _ => nofun) (hst ▸ fun _ => nofun) F
    (f := fun v => (some (v / 8 % 2 * 8 + v / 2 % 2 * 2 + 1), .done base)) ?_ rfl
  rw [hpool, hst, hazelAct_expand s h hk]
  unfold State.hazelExpand
  simp only [hfar, Bool.false_eq_true, if_false]

theorem hzActs_addN (hk : r.cmd.kind = .back) {n : Nat} {ns : List Nat} {up : Nat} {dup : Bool} (hn : n < P.cap)
    (hst : r.step = .addN (n :: ns) up dup) (F : HzField s h r (P.node n 0) 4 ps) :
    HzActs s h r ps (some ((fieldOf s ps + 1) % 2 ^ 32)) (.addW (n :: ns) up dup) := by
  refine hzActs_of_atomic hz hat (hst ▸ fun _ => nofun) (hst ▸ fun _ => nofun) F
    (f := fun x => (some ((x + 1) % 2 ^ 32), .addW (n :: ns) up dup)) ?_ rfl
  rw [hpool, hst, hazelAct_back s h hk]
  exact if_neg (by omega)

theorem hzActs_addW (hk : r.cmd.kind = .back) {n : Nat} {ns : List Nat} {up : Nat} {dup : Bool}
    (hst : r.step = .addW (n :: ns) up dup) (F : HzField s h r (P.node n 4) 4 ps) :
    let u := P.share (r.cmd.vb.toNat % 2 ^ 32) up
    HzActs s h r ps (some (if P.q824 = true then (fieldOf s ps + u) % 2 ^ 32 else (fp32.add (fieldOf s ps) u).bits)) (.addV (n :: ns) up dup) := by
  intro u
  refine hzActs_of_atomic hz hat (hst ▸ fun _ => nofun) (hst ▸ fun _ => nofun) F
    (f := fun x => (some (if P.q824 = true then (x + u) % 2 ^ 32 else (fp32.add x u).bits), .addV (n :: ns) up dup)) ?_ rfl
  rw [hpool, hst, hazelAct_back s h hk]
  rfl

theorem hzActs_addV (hk : r.cmd.kind = .back) {n : Nat} {ns : List Nat} {up : Nat} {dup : Bool} (hn : n < P.cap)
    (hst : r.step = .addV (n :: ns) up dup) (F : HzField s h r (P.node n 10) 2 ps) :
    HzActs s h r ps (some ((fieldOf s ps + 65535) % 65536))
      (nextBackup ns (up + 1) dup) := by
  refine hzActs_of_atomic hz hat (hst ▸ fun _ => nofun) (hst ▸ fun _ => nofun) F
    (f := fun x => (some ((x + 65535) % 65536), nextBackup ns (up + 1) dup)) ?_ rfl
  rw [hpool, hst, hazelAct_back s h hk]
  exact if_neg (by omega)

end

theorem hazelNodeAtomics : HazelNodeAtomics := by
  intro s h r P ps hz hat hpool
  refine ⟨fun hk => ⟨?_, ?_, ?_⟩, ?_, fun hk n ns up dup hn => ⟨?_, ?_, ?_⟩⟩
  · exact hzActs_begin hz hat hpool hk
  · exact fun slot path n => hzActs_visit hz hat hpool hk
  · exact fun slot path n => hzActs_pend hz hat hpool hk
  · exact fun hk base => hzActs_flag hz hat hpool hk
  · exact hzActs_addN hz hat hpool hk hn
  · intro hst F
    have H := hzActs_addW hz hat hpool hk hst F
    rwa [share_eq] at H
  · intro hst F
    have H := hzActs_addV hz hat hpool hk hn hst F
    cases ns with
    | nil => exact H
    | cons m ms => exact H

/-! Commands start and end. -/

/-- The command in progress that a queued command becomes, with nothing to wait for. -/
def startedHazel (s : State) (h : HallId) (c : HzCmd) : HzRun :=
  { cmd := { c with clock := Clock.join (Clock.join c.clock Stamp.empty.clock) (s.hall h).hzClock }
    step := if c.bad ≠ 0 then .fail c.bad else if c.unbound then .fail 3 else .begin
    nextAt := (s.hall h).cycle + Config.delay s.free, pool := (s.hall h).pool }

theorem startHazel_head {s : State} {h : HallId} {c : HzCmd} {rest : List HzCmd} (hz : (s.hall h).hz = none) (hrebind : (s.hall h).rebind = none)
    (hq : (s.hall h).hq = c :: rest) (hmatch : c.matchAt = none) (hleave : (s.hall h).leaving c.slice = false) (hwe : c.q.we = false) :
    s.startHazel h = (s.drawDelay.2).onHall h fun H =>
      { H with hq := rest, hz := some (startedHazel s h c), rebind := if H.runs c.slice then none else H.rebind } := by
  have hmatched : c.matchAt.isSome = false := by rw [hmatch]; rfl
  have hto : (s.hall h).toRebind = none := by unfold Hall.toRebind; rw [hrebind]
  unfold State.startHazel
  simp only [hz, hto, hq, hmatched, hleave, hwe, Option.isSome_none, Bool.or_self, Bool.false_eq_true, if_false]
  rfl

theorem hz_logEntry (s : State) (g k : HallId) (w : Word) (d : Nat) (x y z : Word) : ((s.logEntry g w d x y z).hall k).hz = (s.hall k).hz := by
  unfold State.logEntry
  split
  · rfl
  · by_cases hk : k = g
    · subst hk; rw [hall_onHall_same]; rfl
    · rw [hall_onHall_ne s g k _ hk]

theorem mem_logEntry (s : State) (g : HallId) (w : Word) (d : Nat) (x y z : Word) : (s.logEntry g w d x y z).mem = s.mem := by
  unfold State.logEntry
  split
  · rfl
  · rfl

theorem hall_releaseHazel (s : State) (h k : HallId) (c : HzCmd) (n : Nat) : (s.releaseHazel h c n).hall k = s.hall k := rfl

/-- A command that has succeeded and has no completion word leaves the engine and memory as it is. -/
theorem closeHazel_done (s : State) (h : HallId) (c : HzCmd) (cur : Nat) (hcw : c.cw = none) :
    ((s.closeHazel h c cur 0).hall h).hz = none ∧ (s.closeHazel h c cur 0).mem = s.mem := by
  have hnoerr (t : State) (st : Strand) (b : Bool) : t.commandError c.slice c.depth 0 st c.issuePc b = t := by
    unfold State.commandError
    exact if_neg (by decide)
  unfold State.closeHazel
  simp only [hcw, hnoerr, Bool.not_true, Bool.false_eq_true, if_false]
  generalize ht : State.releaseHazel _ h c _ = t
  obtain ⟨hgone, hmem⟩ : (t.hall h).hz = none ∧ t.mem = s.mem := by
    rw [← ht, hall_releaseHazel, hall_onHall_same]
    exact ⟨rfl, rfl⟩
  split
  · exact ⟨hgone, hmem⟩
  · split
    · exact ⟨hgone, hmem⟩
    · rw [if_neg (by decide), hz_logEntry, mem_logEntry]
      exact ⟨hgone, hmem⟩

theorem hazelNode_done {s : State} {h : HallId} {r : HzRun} {cur : Nat} (hz : (s.hall h).hz = some r) (hat : r.nextAt ≤ (s.hall h).cycle)
    (hst : r.step = .done cur) (hscope : r.cmd.q.scope ≠ .fabric) (hfar : s.farWaits h .L (some .hazel) = false) :
    s.hazelNode h = s.closeHazel h r.cmd cur 0 := by
  unfold State.hazelNode
  simp only [hz]
  rw [if_neg (by omega)]
  simp only [hst]
  unfold State.endHazel
  rw [if_neg fun hc => hscope hc.1, hfar]
  rfl

theorem hazelNode_unbound {s : State} {h : HallId} {r : HzRun} (hz : (s.hall h).hz = some r) (hat : r.nextAt ≤ (s.hall h).cycle)
    (hst : r.step = .begin) (hkind : r.cmd.kind ≠ .pool) (hpool : r.pool = none) :
    s.hazelNode h = s.onHall h fun H => { H with hz := some { r with step := .fail 3 } } := by
  have hact : s.hazelAct h r.cmd r.pool r.step = (.bad 3, s) := by
    unfold State.hazelAct
    rw [hpool]
    split
    · next hk => exact absurd hk hkind
    · rfl
    all_goals contradiction
  unfold State.hazelNode
  simp only [hz]
  rw [if_neg (by omega)]
  rw [hst] at hact
  simp only [hst, hact]

/-! Posts. -/

theorem ev_addPost_same (H : Hall) (p : Post) (hp : p.ev < 32) : ((H.addPost p).work.ev p.ev).count = (H.work.ev p.ev).count + 1 := by
  simp [Hall.addPost, Work.ev, hp]

theorem ev_addPost_ne (H : Hall) (p : Post) {e : Nat} (he : e ≠ p.ev) : (H.addPost p).work.ev e = H.work.ev e := by
  simp [Hall.addPost, Work.ev, Vector.getElem?_setIfInBounds_ne he.symm]

/-- A Hall with its posts taken up. -/
def noPosts (H : Hall) : Hall := { H with posts := [] }

/-- The only post of a Hall cycle is applied where its event has room, and held otherwise. -/
theorem engineEventPost_one {s : State} {h : HallId} {p : Post} (hp : (s.hall h).posts = [p]) :
    s.engineEventPost h =
      if ((s.hall (p.dest.getD h)).work.ev p.ev).count < 255 then (s.onHall h noPosts).onHall (p.dest.getD h) (·.addPost p)
      else (s.onHall h noPosts).onHall h fun H => { H with posts := H.posts ++ [{ p with held := true }] } := by
  have hnone : ((s.onHall h noPosts).hall h).posts = [] := by rw [hall_onHall_same]; rfl
  have hwork (g : HallId) : ((s.onHall h noPosts).hall g).work = (s.hall g).work := by
    by_cases hg : g = h
    · subst hg; rw [hall_onHall_same]; rfl
    · rw [hall_onHall_ne s h g _ hg]
  unfold State.engineEventPost
  rw [hp]
  change (s.onHall h noPosts).applyPost h p = _
  unfold State.applyPost
  simp only [hnone, hwork, List.any_nil, and_true]

theorem exec_engineEventPost {s : State} {h : HallId} {p : Post} (hph : (s.hall h).phase = .finish) (hp : (s.hall h).posts = [p]) :
    exec (.engineEventPost h) s = .next (s.engineEventPost h) := by
  change execEngineEventPost h s = _
  unfold execEngineEventPost
  rw [if_pos ⟨hph, by rw [hp]; rfl⟩]

/-- A post to an event of the engine's own Hall. -/
theorem engineEventPost_own {s : State} {h : HallId} {p : Post} (hp : (s.hall h).posts = [p]) (hd : p.dest = none) (hev : p.ev < 32) :
    let t := s.engineEventPost h
    (((s.hall h).work.ev p.ev).count < 255 → ((t.hall h).work.ev p.ev).count = ((s.hall h).work.ev p.ev).count + 1 ∧ (t.hall h).posts = []) ∧
      (255 ≤ ((s.hall h).work.ev p.ev).count → (t.hall h).work = (s.hall h).work ∧ (t.hall h).posts = [{ p with held := true }]) ∧
      (∀ e, e ≠ p.ev → (t.hall h).work.ev e = (s.hall h).work.ev e) ∧ AtHall s t h := by
  intro t
  have ht : t = _ := engineEventPost_one hp
  have hdest : p.dest.getD h = h := by rw [hd]; rfl
  simp only [hdest, onHall_onHall] at ht
  by_cases hc : ((s.hall h).work.ev p.ev).count < 255
  · rw [if_pos hc] at ht
    refine ⟨fun _ => ?_, fun hn => absurd hc (by omega), fun e he => ?_, ht ▸ atHall_onHall s h _⟩
    · rw [ht, hall_onHall_same]
      exact ⟨ev_addPost_same (noPosts (s.hall h)) p hev, rfl⟩
    · rw [ht, hall_onHall_same]
      exact ev_addPost_ne (noPosts (s.hall h)) p he
  · rw [if_neg hc] at ht
    refine ⟨fun hn => absurd hn hc, fun _ => ?_, fun e _ => ?_, ht ▸ atHall_onHall s h _⟩
    · rw [ht, hall_onHall_same]
      exact ⟨rfl, rfl⟩
    · rw [ht, hall_onHall_same]
      rfl

/-- A post to an event of another Hall, where the slice runs. -/
theorem engineEventPost_away {s : State} {h g : HallId} {p : Post} (hp : (s.hall h).posts = [p]) (hd : p.dest = some g) (hg : g ≠ h)
    (hev : p.ev < 32) (hroom : ((s.hall g).work.ev p.ev).count < 255) :
    let t := s.engineEventPost h
    ((t.hall g).work.ev p.ev).count = ((s.hall g).work.ev p.ev).count + 1 ∧ t.hall h = { s.hall h with posts := [] } ∧
      ∀ a, Memory.byte t.mem a = Memory.byte s.mem a := by
  intro t
  have ht : t = _ := engineEventPost_one hp
  simp only [hd, Option.getD_some, if_pos hroom] at ht
  rw [ht]
  refine ⟨?_, ?_, fun _ => rfl⟩
  · rw [hall_onHall_same, ev_addPost_same _ p hev, hall_onHall_ne s h g _ hg]
  · rw [hall_onHall_ne _ g h _ hg.symm, hall_onHall_same]
    rfl

theorem hazelCommandsAndPosts : HazelCommandsAndPosts := by
  intro s h
  refine ⟨?_, ?_, ?_, ?_, ?_⟩
  · intro c rest hz hrebind hq hmatch hleave hwe
    have ht := startHazel_head hz hrebind hq hmatch hleave hwe
    refine ⟨s.startHazel h, startedHazel s h c, rfl, ?_, ?_, rfl, rfl, rfl, rfl, fun hb => ?_, fun hb => if_pos hb, ?_, ?_⟩
    · rw [ht, hall_onHall_same]
    · rw [ht, hall_onHall_same]
    · exact if_neg (not_not.2 hb)
    · rw [ht, hall_onHall_same]
      rfl
    · rw [ht]
      exact atHall_trans (t := s.drawDelay.2) (atHall_of_eq h rfl rfl) (atHall_onHall s.drawDelay.2 h _)
  · intro r cur hz hat hst hcw hscope hfar
    obtain ⟨hgone, hmem⟩ := closeHazel_done s h r.cmd cur hcw
    have ht := hazelNode_done hz hat hst hscope hfar
    exact ⟨s.hazelNode h, rfl, ht ▸ hgone, ht ▸ hmem⟩
  · intro r hz hat hst hkind hpool
    have ht := hazelNode_unbound hz hat hst hkind hpool
    exact ⟨s.hazelNode h, rfl, by rw [ht, hall_onHall_same], ht ▸ atHall_onHall s h _⟩
  · intro p hph hp hd hev
    exact ⟨_, exec_engineEventPost hph hp, engineEventPost_own hp hd hev⟩
  · intro p g hph hp hd hg hev hroom
    exact ⟨_, exec_engineEventPost hph hp, engineEventPost_away hp hd hg hev hroom⟩

/-- Settles O41: commands and posts from what starting, ending and posting do, the node atomics from the one rule of a router atomic on a field. -/
theorem hazelAndPostSteps : Obligations.HazelAndPostSteps := ⟨hazelCommandsAndPosts, hazelNodeAtomics⟩

end Sys2Proof.Proofs
end

section
/-! Scalar stores, and scalar accesses that trap or wait (R16, R25, R120 to R125, R344). -/

namespace Sys2Proof.Proofs
open Sys2Proof.Machine Sys2Proof.Spec Sys2Proof.Laws

/-! A syllable that does not issue. -/

/-- Behind a free port, a syllable that does not issue does only what it does. -/
theorem onPort_unissued {s : State} {n : Nat} {k : State → State} (hp : PortFree s) (hk : (k s).issued = false) : s.onPort n k = k s := by
  unfold State.onPort
  rw [if_neg (Nat.not_lt.2 hp)]
  dsimp only
  rw [hk]
  rfl

theorem onPort_traps {s : State} {n : Nat} {k : State → State} {i : TrapInfo} (hp : PortFree s) (h : Traps s (k s) i) : Traps s (s.onPort n k) i :=
  (onPort_unissued hp h.issued).symm ▸ h

theorem onPort_freezes {s : State} {n : Nat} {k : State → State} (hp : PortFree s) (h : Freezes s (k s)) : Freezes s (s.onPort n k) :=
  (onPort_unissued hp h.issued).symm ▸ h

theorem whenPort_holds {s : State} {k : State → State} (h : s.me.local_ < s.me.portFree) : Holds s (s.whenPort k) := by
  unfold State.whenPort
  rw [if_pos h]
  exact hold_holds s

theorem withSlot_free {s : State} {k : State → State} (h : SlotFree s) : s.withSlot k = k s := if_neg (Nat.not_le.2 h)

theorem withSlot_freezes {s : State} {k : State → State} (h : 16 ≤ s.me.slots.length) : Freezes s (s.withSlot k) := by
  unfold State.withSlot
  rw [if_pos h]
  exact freeze_freezes s

theorem withBytes_misaligned_traps {s : State} {k : Want} {al n : Nat} {a : Word} {cont : List Nat → State → State} (hu : Unstopped s)
    (hs : a.toNat < 2 ^ 52) (ha : a.toNat % al ≠ 0) :
    Traps s (s.withBytes k al a n cont) { cause := .ALIGN, access := k.access, width := k.width, addr := a } := by
  rw [withBytes_misaligned s k al a n cont hs ha]
  exact trapHere_traps s _ hu

theorem withBytes_beyond_traps {s : State} {k : Want} {al n : Nat} {a : Word} {cont : List Nat → State → State} (hu : Unstopped s)
    (hs : 2 ^ 52 ≤ a.toNat) :
    Traps s (s.withBytes k al a n cont) { cause := .XLATE, access := k.access, width := k.width, addr := a } := by
  rw [withBytes_beyond s k al a n cont hs]
  exact trapHere_traps s _ hu

/-! Scalar stores. -/

/-- The stores of the table are one operation (R122). -/
theorem exec_of_storeRow {i : Instr} {w : Width} {d a : BitVec 6} {off : BitVec 16} (h : storeRow i = some (w, d, a, off)) (s : State) :
    exec i s = .next (s.scalarStore w d a off) := by
  unfold storeRow at h
  split at h <;> cases h <;> rfl

theorem rs_add_offset (s : State) (a : BitVec 6) (off : BitVec 16) : s.rs a + off.signExtend 64 = memAddr s a off := addr_offset _ off (by decide)

theorem portCycles_eq (n : Nat) (ps : List Nat) : portCycles n ps = storeHolds n ps := by
  simp only [portCycles, storeHolds, Bool.and_eq_true, decide_eq_true_eq, List.any_eq_true]

/-- What a scalar store does with the places of its bytes. -/
def storeAt (w : Width) (d : BitVec 6) (x : Word) (ps : List Nat) (s : State) : State :=
  s.onPort (storeHolds (widthBytes w) ps) fun s =>
    s.store x (widthBytes w) (s.rs d) (ps.zip (leBytes (widthBytes w) (s.rs d).toNat)) (runFrom x.toNat (widthBytes w)) false false

theorem scalarStore_readable {s : State} {d a : BitVec 6} (w : Width) (off : BitVec 16) (hp : PortFree s) (hr : Readable s [.s a.toNat, .s d.toNat]) :
    s.scalarStore w d a off = s.withBytes (wantStore w) (widthBytes w) (memAddr s a off) (widthBytes w) (storeAt w d (memAddr s a off)) := by
  unfold State.scalarStore
  rw [whenPort_free s _ hp, reading_readable s _ _ hr]
  simp only [rs_add_offset, portCycles_eq]
  rfl

/-- Settles O11: the four stores are one operation, which enters the overlay where nothing holds it up. -/
theorem storesEnterTheOverlay : Obligations.StoresEnterTheOverlay := by
  intro s i w d a off ps hrow hr hp ha cs hfull
  refine ⟨_, exec_of_storeRow hrow s, ?_⟩
  rw [scalarStore_readable w off hp hr, withBytes_accessible s _ _ _ _ ps _ ha]
  exact store_stores s _ _ _ cs _ _ _ _ hp hfull

/-! Accesses that trap or wait. -/

theorem load_readable {s : State} {a : BitVec 6} (w : Width) (sx : Bool) (d : BitVec 6) (off : BitVec 16) (land : BitVec 12) (hp : PortFree s)
    (hr : Readable s [.s a.toNat]) : s.load w sx d a off land = s.loadAt w sx d (memAddr s a off) land := by
  unfold State.load
  rw [whenPort_free s _ hp, readingWhen_readable s _ _ _ hr, rs_add_offset]

theorem loadAt_misaligned {s : State} {w : Width} {x : Word} (sx : Bool) (d : BitVec 6) (land : BitVec 12) (hu : Unstopped s) (hp : PortFree s)
    (hs : x.toNat < 2 ^ 52) (hx : x.toNat % widthBytes w ≠ 0) :
    Traps s (s.loadAt w sx d x land) { cause := .ALIGN, access := .load, width := widthCode (widthBytes w), addr := x } :=
  onPort_traps hp (withBytes_misaligned_traps hu hs hx)

theorem loadAt_beyond {s : State} {w : Width} {x : Word} (sx : Bool) (d : BitVec 6) (land : BitVec 12) (hu : Unstopped s) (hp : PortFree s)
    (hs : 2 ^ 52 ≤ x.toNat) :
    Traps s (s.loadAt w sx d x land) { cause := .XLATE, access := .load, width := widthCode (widthBytes w), addr := x } :=
  onPort_traps hp (withBytes_beyond_traps hu hs)

theorem misalignedAccessesTrap : MisalignedAccessesTrap := by
  intro s hu hp
  refine ⟨fun i w sx d a off land hrow hr => ?_, fun i w d a off hrow hr => ?_⟩
  · have he := load_readable w sx d off land hp hr ▸ exec_of_loadRow hrow s
    exact ⟨fun hs hx => ⟨_, he, loadAt_misaligned sx d land hu hp hs hx⟩, fun hs => ⟨_, he, loadAt_beyond sx d land hu hp hs⟩⟩
  · have he := scalarStore_readable w off hp hr ▸ exec_of_storeRow hrow s
    exact ⟨fun hs hx => ⟨_, he, withBytes_misaligned_traps hu hs hx⟩, fun hs => ⟨_, he, withBytes_beyond_traps hu hs⟩⟩

theorem loadAt_freezes {s : State} {w : Width} {x : Word} {ps : List Nat} (sx : Bool) (d : BitVec 6) (land : BitVec 12) (hp : PortFree s)
    (hfull : 16 ≤ s.me.slots.length) (ha : Accessible s (wantLoad w) (widthBytes w) x (widthBytes w) ps) : Freezes s (s.loadAt w sx d x land) := by
  refine onPort_freezes hp ?_
  rw [withBytes_accessible s _ _ _ _ ps _ ha]
  exact withSlot_freezes hfull

theorem memoryWaits : MemoryWaits := by
  intro s
  refine ⟨fun i w sx d a off land hrow hr => ⟨fun hb => ?_, fun ps hp hfull ha => ?_⟩, fun i w d a off hrow _ hb => ?_⟩
  · exact ⟨_, exec_of_loadRow hrow s, whenPort_holds hb⟩
  · exact ⟨_, exec_of_loadRow hrow s, load_readable w sx d off land hp hr ▸ loadAt_freezes sx d land hp hfull ha⟩
  · exact ⟨_, exec_of_storeRow hrow s, whenPort_holds hb⟩

/-- Settles O12: a load or a store whose port is free comes to the check of its bytes, and one whose port is busy does not. -/
theorem memoryAccessesTrapAndWait : Obligations.MemoryAccessesTrapAndWait := ⟨misalignedAccessesTrap, memoryWaits⟩

end Sys2Proof.Proofs
end

section
/-! Tile transfers (R127 to R129). -/

namespace Sys2Proof.Proofs
open Sys2Proof.Machine Sys2Proof.Spec Sys2Proof.Laws

theorem withEach_ok {s : State} {k : Want} {w : Nat} {as : List Word} {ps : List (List Nat)} {cont : List (List Nat) → State → State}
    (h : s.eachBytes k w as = .ok ps) : s.withEach k w as cont = cont ps s := by
  unfold State.withEach
  rw [h]

/-- A load of a tile's bytes through a free port claims a slot for them, however its places are found. -/
theorem tileLoad_claims {s : State} {k : State → State} {req : Req} {dests : List Src} {land : BitVec 12} {addr : Word} {ps : List Nat}
    {give : Bytes → List Upd} (hp : PortFree s) (hs : SlotFree s) (hk : k s = s.loadSlot req dests land addr ps give) :
    (s.onPort 1 k).me.portFree = s.me.local_ + 1 ∧ Claims s (s.onPort 1 k) req dests land addr ps :=
  onPort_claims s _ _ _ _ _ _ hp fun g hg => hk ▸ loadSlot_claims s _ _ _ _ _ _ hs g hg

theorem onPort_congr {s : State} {n : Nat} {k k' : State → State} (h : k s = k' s) : s.onPort n k = s.onPort n k' := by
  unfold State.onPort
  rw [h]

/-- A store of a tile's bytes through a free port enters the overlay, however its places are found. -/
theorem tileStore_stores {s : State} {k : State → State} {addr : Word} {width : Nat} {cs : List Host.Cell}
    (hp : PortFree s) (hfull : s.regionFull cs = false) (hk : ∃ vas cv, k s = s.store addr width 0 cs vas cv true) :
    (s.onPort 1 k).me.portFree = s.me.local_ + 1 ∧ Stores s (s.onPort 1 k) addr width 0 cs := by
  obtain ⟨vas, cv, hk⟩ := hk
  rw [onPort_congr (k' := fun s => s.store addr width 0 cs vas cv true) hk]
  exact store_stores s _ _ _ cs _ _ _ _ hp hfull

/-- Settles O13: behind the port, the places and the registers, the loads claim a slot and the stores enter the overlay. -/
theorem tileTransfers : Obligations.TileTransfers := by
  intro s hp
  refine ⟨?_, ?_, ?_, ?_⟩
  · intro d a off land ps hr hs keys ha
    refine ⟨_, rfl, ?_⟩
    rw [whenPort_free s _ hp, readingWhen_readable s _ _ _ hr, rs_add_offset]
    exact tileLoad_claims hp hs (withBytes_accessible s _ _ _ _ ps _ ha)
  · intro d a off ps hr keys cs ha hfull
    refine ⟨_, rfl, tileStore_stores hp hfull ?_⟩
    rw [reading_readable s _ _ hr, rs_add_offset]
    exact ⟨_, _, withBytes_accessible s _ _ _ _ ps _ ha⟩
  · intro d a b land ps hr hs W w es as he
    refine ⟨_, rfl, ?_⟩
    rw [whenPort_free s _ hp, readingWhen_readable s _ _ _ hr]
    exact tileLoad_claims hp hs (withEach_ok he)
  · intro d a b ps hr W w es as cs he hfull
    refine ⟨_, rfl, tileStore_stores hp hfull ?_⟩
    rw [reading_readable s _ _ hr]
    exact ⟨_, _, withEach_ok he⟩

end Sys2Proof.Proofs
end

section
/-! Streams, copy waits and weight sets (R148, R151, R202, R226). -/

namespace Sys2Proof.Proofs
open Sys2Proof.Machine Sys2Proof.Spec Sys2Proof.Laws

/-- A request that nothing holds up, its port taken for a cycle. -/
theorem requestThroughPort_claims {s : State} {k : Want} {al n : Nat} {addr : Word} {ps : List Nat} {req : Req} {dests : List Src} {land : BitVec 12}
    (hp : PortFree s) (hs : SlotFree s) (ha : Accessible s k al addr n ps) :
    let t := s.onPort 1 fun s => s.withBytes k al addr n fun ps s => s.withSlot fun s => s.requestRead req dests land addr ps
    t.me.portFree = s.me.local_ + 1 ∧ Claims s t req dests land addr ps := by
  refine onPort_claims s _ _ _ _ _ _ hp fun g hg => ?_
  rw [withBytes_accessible s _ _ _ _ ps _ ha, withSlot_free hs]
  exact requestRead_claims s _ _ _ _ _ g hg

theorem status_unbound {x : Stream} (h : x.bound = false) : x.status = if x.exh then 2 else 0 := by
  unfold Stream.status
  rw [h]
  cases x.exh <;> rfl

/-- Bits 0 and 1 of the status of a bound stream: the terms above EXH are multiples of 4. -/
theorem status_bound {x : Stream} (h : x.bound = true) : x.status.getLsbD 0 = true ∧ x.status.getLsbD 1 = x.exh := by
  have hform : ∃ m, x.status = BitVec.ofNat 64 (1 + 2 * x.exh.toNat + 4 * m) := by
    unfold Stream.status
    rw [h]
    exact ⟨(x.buf.any (·.fault.isSome)).toNat + 64 * min x.buf.length (min 8 (streamBlocks x.desc - x.cursor)) +
      16384 * (streamBlocks x.desc - x.cursor), congrArg (BitVec.ofNat 64) (by omega)⟩
  obtain ⟨m, hm⟩ := hform
  have hbit (v : Nat) (hv : v < 4) (k : Nat) (hk : k < 2) : (BitVec.ofNat 64 (v + 4 * m)).getLsbD k = v.testBit k := by
    rw [BitVec.getLsbD_ofNat, decide_eq_true (by omega), Bool.true_and, Nat.add_comm, show (4 : Nat) = 2 ^ 2 from rfl,
      Nat.testBit_two_pow_mul_add _ hv, if_pos hk]
  rw [hm]
  cases x.exh
  · exact ⟨hbit 1 (by decide) 0 (by decide), hbit 1 (by decide) 1 (by decide)⟩
  · exact ⟨hbit 3 (by decide) 0 (by decide), hbit 3 (by decide) 1 (by decide)⟩

/-- A stream's register unbound. -/
def unbind (q : Nat) (H : Hall) : Hall := { H with work := H.work.setStream q .unbound }

theorem stream_setStream_ne (W : Work) {q r : Nat} (x : Stream) (hr : r ≠ q) : (W.setStream q x).stream r = W.stream r := by
  simp [Work.setStream, Work.stream, Vector.getElem?_setIfInBounds_ne hr.symm]

theorem strand_unbind (q : Nat) (H : Hall) (st : Strand) : (unbind q H).work.strand st = H.work.strand st := by cases st <;> rfl

theorem streamSyllables : StreamSyllables := by
  intro s
  refine ⟨fun x a land ps hr hp hs ha => ?_, fun d x hr => ?_, fun x hx => ?_⟩
  · refine ⟨_, rfl, ?_⟩
    rw [whenPort_free s _ hp, readingWhen_readable s _ _ _ hr]
    exact requestThroughPort_claims hp hs ha
  · exact ⟨_, _, rfl, compute_results s _ 2 _ hr, status_unbound, status_bound⟩
  · let u := s.dropStream s.curHall x.toNat
    have hhere : (u.onHere (unbind x.toNat)).here = unbind x.toNat s.here := here_onHere u _
    refine ⟨(u.onHere (unbind x.toNat)).issue, rfl, rfl, ?_, fun q hq => ?_, ?_, ?_, fun c hc => (List.mem_filter.1 hc).1, ?_, ?_⟩
    · rw [issue_here, hhere]
      exact stream_setStream_same _ _ _ hx
    · rw [issue_here, hhere]
      exact stream_setStream_ne _ _ hq
    · unfold State.me
      rw [issue_here, hhere, strand_unbind]
      rfl
    · exact onHere_onlyHall u _ _ _ _
    · rw [issue_here, hhere]
      rfl
    · have hu : SameMemory s u := ⟨fun _ => rfl, fun _ => rfl, rfl, rfl, rfl, rfl⟩
      exact sameMemory_trans hu (onHere_sameMemory u (unbind x.toNat) true u.trapped u.target rfl)

theorem copyWaits : CopyWaits := by
  intro s sc d a land ps hr hp hs ha
  refine ⟨_, rfl, ?_⟩
  rw [whenPort_free s _ hp, readingWhen_readable s _ _ _ hr]
  exact requestThroughPort_claims hp hs ha

theorem weightSetBinds : WeightSetBinds := by
  intro s d a land hr hs
  refine ⟨_, rfl, ?_⟩
  rw [readingWhen_readable s _ _ _ hr]
  unfold State.wsetBindAt
  rw [withSlot_free hs]
  have hid (t : State) : t.onMe (fun x => x) = t := onStrand_id t _ _
  exact hid (s.request _ _ _ _ _) ▸ claim_claims s s.drawDelay.2 (near_drawDelay s) _ _ _ _ _ _ _ _ (fun x => x) fun _ => rfl

/-- Settles O26: requests that nothing holds up claim their slots, and the status of a stream is read bit by bit. -/
theorem streamsCopyWaitsAndWeightSets : Obligations.StreamsCopyWaitsAndWeightSets := ⟨streamSyllables, copyWaits, weightSetBinds⟩

end Sys2Proof.Proofs
end


section
/-! SUPPORT. Steps that change nothing of a strand, a tile or memory, and then the strand at issue. -/

namespace Sys2Proof.Proofs
open Sys2Proof.Machine Sys2Proof.Spec Sys2Proof.Laws

/-- The states agree on memory, on the other Halls and, of the Hall at issue, on its strands, tiles and masks, its accumulators and its overlay. -/
structure Aside (s t : State) : Prop where
  hall : t.curHall = s.curHall
  strand : t.curStrand = s.curStrand
  halls : ∀ k, k ≠ s.curHall → t.hall k = s.hall k
  work : t.here.work = s.here.work
  acc : t.here.acc = s.here.acc
  overlay : t.here.overlay = s.here.overlay
  memory : SameMemory s t

theorem sameMemory_of_eq {s t : State} (hh : t.halls = s.halls) (hm : t.mem = s.mem) (hg : t.rowGroups = s.rowGroups) (hp : t.poison = s.poison)
    (hb : t.bad = s.bad) (hr : t.rounds = s.rounds) : SameMemory s t :=
  ⟨fun a => by rw [hm], fun k => by simp only [State.hall, hh], hg, hp, hb, hr⟩

theorem aside_refl (s : State) : Aside s s := ⟨rfl, rfl, fun _ _ => rfl, rfl, rfl, rfl, sameMemory_of_eq rfl rfl rfl rfl rfl rfl⟩

theorem aside_trans {s t u : State} (a : Aside s t) (b : Aside t u) : Aside s u where
  hall := b.hall.trans a.hall
  strand := b.strand.trans a.strand
  halls := fun k hk => (b.halls k (a.hall ▸ hk)).trans (a.halls k hk)
  work := b.work.trans a.work
  acc := b.acc.trans a.acc
  overlay := b.overlay.trans a.overlay
  memory := sameMemory_trans a.memory b.memory

theorem aside_of_near {s t : State} (n : Near s t) : Aside s t where
  hall := n.hall
  strand := n.strand
  halls := fun k _ => n.other k
  work := congrArg Hall.work n.here
  acc := congrArg Hall.acc n.here
  overlay := congrArg Hall.overlay n.here
  memory := sameMemory_of_eq n.halls n.mem n.groups n.poison n.bad n.rounds

theorem aside_onHere (s : State) {f : Hall → Hall} (hw : (f s.here).work = s.here.work) (ha : (f s.here).acc = s.here.acc)
    (ho : (f s.here).overlay = s.here.overlay) : Aside s (s.onHere f) where
  hall := rfl
  strand := rfl
  halls := fun k hk => hall_onHall_ne s s.curHall k f hk
  work := (congrArg Hall.work (here_onHere s f)).trans hw
  acc := (congrArg Hall.acc (here_onHere s f)).trans ha
  overlay := (congrArg Hall.overlay (here_onHere s f)).trans ho
  memory := onHere_sameMemory s f s.issued s.trapped s.target ho

theorem aside_onSlice (s : State) (f : Slice → Slice) : Aside s (s.onSlice f) := aside_onHere s rfl rfl rfl

theorem me_of_aside {s t : State} (a : Aside s t) : t.me = s.me := by
  unfold State.me
  rw [a.work, a.strand]

/-- What a change of the strand at issue leaves, on a state that differs from another beside its strands. -/
structure OnStrandOnly (s t : State) : Prop where
  halls : ∀ k, k ≠ s.curHall → t.hall k = s.hall k
  strands : ∀ st, st ≠ s.curStrand → t.here.work.strand st = s.here.work.strand st
  tiles : t.here.work.tiles = s.here.work.tiles ∧ t.here.work.masks = s.here.work.masks ∧ t.here.acc = s.here.acc
  memory : SameMemory s t

theorem onMe_of_aside {s t : State} (a : Aside s t) (f : StrandState → StrandState) : OnStrandOnly s (t.onMe f) := by
  have hh : (t.onMe f).here = Hall.onStrand t.here s.curStrand f := by rw [here_onMe, a.strand]
  refine ⟨fun k hk => ?_, fun st hst => ?_, ?_, ?_⟩
  · exact (hall_onHall_ne t t.curHall k _ (a.hall ▸ hk)).trans (a.halls k hk)
  · rw [hh, ← a.work]
    exact strand_setStrand_ne _ _ _ _ hst
  · rw [hh, ← a.work, ← a.acc]
    exact ⟨setStrand_tiles _ _ _, setStrand_masks _ _ _, rfl⟩
  · exact sameMemory_trans a.memory (onHere_sameMemory t (Hall.onStrand · t.curStrand f) t.issued t.trapped t.target rfl)

theorem onStrandOnly_issue {s t : State} (h : OnStrandOnly s t) : OnStrandOnly s t.issue :=
  ⟨h.halls, h.strands, h.tiles, ⟨h.memory.bytes, h.memory.overlay, h.memory.groups, h.memory.poison, h.memory.bad, h.memory.rounds⟩⟩

/-- A syllable that issues and changes, of its strand, no register. -/
theorem quiet_of_aside {s t : State} {f : StrandState → StrandState} (a : Aside s t) (hf : SameRegs s.me (f s.me)) : Spec.Quiet s (t.onMe f).issue := by
  obtain ⟨halls, strands, tiles, memory⟩ := onStrandOnly_issue (onMe_of_aside a f)
  refine ⟨rfl, ?_, halls, strands, tiles, memory⟩
  rw [issue_me, me_onMe, me_of_aside a]
  exact hf

end Sys2Proof.Proofs
end

section
/-! AMO and CAS leave for their home (R130 to R134). -/

namespace Sys2Proof.Proofs
open Sys2Proof.Machine Sys2Proof.Spec Sys2Proof.Laws

/-- What an atomic's way out leaves of the machine beside its strand: the device's time, the local cycle's length and the atomics that are out. -/
def SameClock (s t : State) : Prop := t.tick = s.tick ∧ t.here.levelTicks = s.here.levelTicks ∧ t.atomics = s.atomics

theorem aside_underChecker (s : State) : Aside s s.underChecker.2.2 ∧ SameClock s s.underChecker.2.2 := by
  have hinject : Aside s (s.onHere fun H => H.injectAt.2) ∧ SameClock s (s.onHere fun H => H.injectAt.2) := by
    have hH (H : Hall) : H.injectAt.2.work = H.work ∧ H.injectAt.2.acc = H.acc ∧ H.injectAt.2.overlay = H.overlay ∧
        H.injectAt.2.levelTicks = H.levelTicks := by
      unfold Hall.injectAt
      split
      · exact ⟨rfl, rfl, rfl, rfl⟩
      · split <;> exact ⟨rfl, rfl, rfl, rfl⟩
    obtain ⟨hw, ha, ho, hl⟩ := hH s.here
    exact ⟨aside_onHere s hw ha ho, rfl, (congrArg Hall.levelTicks (here_onHere s _)).trans hl, rfl⟩
  have hnone : Aside s s ∧ SameClock s s := ⟨aside_refl s, rfl, rfl, rfl⟩
  unfold State.underChecker
  cases s.curStrand
  · exact hinject
  · exact hinject
  · exact hnone
  · exact hnone

theorem aside_fillLog (s : State) : Aside s s.fillLog ∧ SameClock s s.fillLog :=
  ⟨aside_onSlice s _, rfl, (congrArg Hall.levelTicks (here_onSlice s _) :), rfl⟩

theorem aside_trans_clock {s t u : State} (a : Aside s t ∧ SameClock s t) (b : Aside t u ∧ SameClock t u) : Aside s u ∧ SameClock s u :=
  ⟨aside_trans a.1 b.1, b.2.1.trans a.2.1, b.2.2.1.trans a.2.2.1, b.2.2.2.trans a.2.2.2⟩

/-- The strand of an atomic of s0 remembers it until it has been performed (R132). -/
def awaiting (d : BitVec 6) (id : Nat) (y : StrandState) : StrandState :=
  if d = 0 then { y with lateAtomics := y.lateAtomics ++ [id] } else y

section
variable (s : State) (op : Option AmoOp) (w : Width) (sc : Scope) (o : Order) (d : BitVec 6) (addr b cmp : Word) (ps : List Nat) (slot : Option Nat)
  (id : Nat)

/-- An atomic as it has been sent by a strand (R131 to R134). -/
structure SentAs (x : Atomic) : Prop where
  id : x.id = id
  op : x.op = op
  width : x.width = w
  scope : x.scope = sc
  order : x.order = o
  paddrs : x.paddrs = ps
  h : x.h = s.curHall
  strand : x.strand = s.curStrand
  vaddr : x.vaddr = addr
  operand : x.operand = b
  comparand : x.comparand = cmp
  slot : x.slot = slot
  performAt : s.tick + 7 * s.here.levelTicks ≤ x.performAt

theorem sendAtomic_sends : ∃ u x, s.sendAtomic op w sc o d.toNat addr b cmp ps slot id = u.onMe (awaiting d id) ∧ Aside s u ∧
    u.atomics = s.atomics ++ [x] ∧ SentAs s op w sc o addr b cmp ps slot id x := by
  obtain ⟨ha, ht, hl, hat⟩ := aside_underChecker s.drawDelay.2
  have hu := aside_trans (aside_of_near (near_drawDelay s)) ha
  have hawait (t : State) : (if (d.toNat == 0) = true then t.onMe fun x => { x with lateAtomics := x.lateAtomics ++ [id] } else t) =
      t.onMe (awaiting d id) := by
    by_cases hd : d = 0
    · subst hd
      rfl
    · have hn : (d.toNat == 0) = false := beq_eq_false_iff_ne.2 fun h => hd (BitVec.eq_of_toNat_eq h)
      have hid : awaiting d id = fun y => y := funext fun y => if_neg hd
      rw [hn, hid]
      exact (onStrand_id t t.curHall t.curStrand).symm
  have hlate (k n : Nat) : s.tick + 7 * s.here.levelTicks ≤
      s.drawDelay.2.underChecker.2.2.tick + (7 + k + n) * s.drawDelay.2.underChecker.2.2.here.levelTicks := by
    rw [ht, hl]
    exact Nat.add_le_add_left (Nat.mul_le_mul_right _ (by omega)) _
  refine ⟨{ s.drawDelay.2.underChecker.2.2 with atomics := _ }, _, hawait _, ?_, congrArg (· ++ [_]) hat, ?_⟩
  · exact aside_trans hu (aside_of_near ⟨rfl, rfl, rfl, rfl, rfl, rfl, rfl, rfl⟩)
  · refine ⟨rfl, rfl, rfl, rfl, rfl, rfl, hu.hall, hu.strand, rfl, rfl, rfl, rfl, le_max_of_le_right (hlate _ _)⟩

end

section
variable {s : State} {op : Option AmoOp} {w : Width} {sc : Scope} {o : Order} {d a b : BitVec 6} {land : BitVec 12} {ps : List Nat}

/-- What an atomic's way out makes of its strand: it issues with its slot, or without one, and its port is taken. -/
structure LeavesStrand (s : State) (d : BitVec 6) (land : BitVec 12) (y : StrandState) : Prop where
  quiet : d = 0 → y.slots = s.me.slots ∧ y.lateAtomics = s.me.lateAtomics ++ [s.nextAtomic]
  slot : d ≠ 0 → ∃ x, y.slots = s.me.slots ++ [x] ∧ x.seq = s.me.seq ∧ x.due = s.me.local_ + land.toNat ∧
    x.req = .atomic s.nextAtomic d.toNat ∧ x.dests = [.s d.toNat] ∧ x.data = none ∧ x.fault = none
  regs : y.s = s.me.s ∧ y.p = s.me.p ∧ y.b = s.me.b ∧ y.pc = s.me.pc ∧ y.nflags = s.me.nflags ∧ y.pends = s.me.pends

theorem atomicLeaves_of_strand {u : State} {x : Atomic} {F : StrandState → StrandState} (hu : Aside s u) (hx : u.atomics = s.atomics ++ [x])
    (sent : SentAs s op w sc o (s.me.reg a.toNat) (s.me.reg b.toNat) (s.me.reg d.toNat) ps (if d = 0 then none else some s.me.seq) s.nextAtomic x)
    (hF : LeavesStrand s d land (F s.me)) : AtomicLeaves s (u.onMe F).issue op w sc o d a b land ps := by
  have hme : (u.onMe F).issue.me = F s.me := by rw [issue_me, me_onMe, me_of_aside hu]
  obtain ⟨halls, strands, tiles, memory⟩ := onStrandOnly_issue (onMe_of_aside hu F)
  obtain ⟨quiet, slot, regs⟩ := hme ▸ hF
  refine ⟨rfl, ⟨x, hx, ?_⟩, quiet, slot, regs, halls, strands, tiles, memory⟩
  exact ⟨sent.id, sent.op, sent.width, sent.scope, sent.order, sent.paddrs, sent.h, sent.strand, sent.vaddr, sent.operand, sent.comparand, sent.slot,
    sent.performAt⟩

/-- The atomic at issue goes on its way. -/
def sendOff (s : State) (op : Option AmoOp) (w : Width) (sc : Scope) (o : Order) (d a b : BitVec 6) (land : BitVec 12) (ps : List Nat) : State :=
  let v := ({ s with nextAtomic := s.nextAtomic + 1 }).fillLog
  let t := (v.sendAtomic op w sc o d.toNat (s.rs a) (v.rs b) (v.rs d) ps (if d = 0 then none else some v.me.seq) s.nextAtomic).clearWait
  if d = 0 then t.issue else t.claim (.atomic s.nextAtomic d.toNat) [.s d.toNat] land (s.rs a) ps none none

/-- What the atomic's way makes of its strand, with its port. -/
def sentOff (s t : State) (d : BitVec 6) (addr : Word) (land : BitVec 12) (ps : List Nat) (y : StrandState) : StrandState :=
  let z : StrandState := { awaiting d s.nextAtomic y with wait := .none, portFree := s.me.local_ + 1 }
  if d = 0 then z
  else
    { z with
      seq := z.seq + 1
      slots := z.slots ++ [{ seq := z.seq, due := z.local_ + land.toNat, req := .atomic s.nextAtomic d.toNat, dests := [.s d.toNat], addr := addr,
                             paddrs := ps, pc := z.pc, word := t.curWord, bound := z.stores, arriveAt := none, data := none, fault := none,
                             depth := t.depth, replayed := false, image := [] }] }

theorem sentOff_leaves (s t : State) (d : BitVec 6) (addr : Word) (land : BitVec 12) (ps : List Nat) :
    LeavesStrand s d land (sentOff s t d addr land ps s.me) ∧ (sentOff s t d addr land ps s.me).portFree = s.me.local_ + 1 := by
  by_cases hd : d = 0
  · unfold sentOff awaiting
    simp only [if_pos hd]
    exact ⟨⟨fun _ => ⟨rfl, rfl⟩, fun h => absurd hd h, rfl, rfl, rfl, rfl, rfl, rfl⟩, trivial⟩
  · unfold sentOff awaiting
    simp only [if_neg hd]
    exact ⟨⟨fun h => absurd h hd, fun _ => ⟨_, rfl, rfl, rfl, rfl, rfl, rfl, rfl⟩, rfl, rfl, rfl, rfl, rfl, rfl⟩, trivial⟩

theorem sendOff_leaves : ∃ t, (sendOff s op w sc o d a b land ps).issued = true ∧
    ((sendOff s op w sc o d a b land ps).onMe fun x => { x with portFree := s.me.local_ + 1 }) = t ∧ t.me.portFree = s.me.local_ + 1 ∧
    AtomicLeaves s t op w sc o d a b land ps := by
  obtain ⟨hfill, htick, hlevel, hatomics⟩ := aside_trans_clock
    (⟨aside_of_near ⟨rfl, rfl, rfl, rfl, rfl, rfl, rfl, rfl⟩, rfl, rfl, rfl⟩ : Aside s { s with nextAtomic := s.nextAtomic + 1 } ∧ SameClock s _)
    (aside_fillLog _)
  generalize hv : ({ s with nextAtomic := s.nextAtomic + 1 } : State).fillLog = v at hfill htick hlevel hatomics
  obtain ⟨u, x, hu, ha, hx, sent⟩ := sendAtomic_sends v op w sc o d (s.rs a) (v.rs b) (v.rs d) ps (if d = 0 then none else some v.me.seq) s.nextAtomic
  have hsent : SentAs s op w sc o (s.rs a) (s.rs b) (s.rs d) ps (if d = 0 then none else some s.me.seq) s.nextAtomic x :=
    { sent with
      h := sent.h.trans hfill.hall
      strand := sent.strand.trans hfill.strand
      operand := sent.operand.trans (by unfold State.rs; rw [me_of_aside hfill])
      comparand := sent.comparand.trans (by unfold State.rs; rw [me_of_aside hfill])
      slot := sent.slot.trans (by rw [me_of_aside hfill])
      performAt := by rw [← htick, ← hlevel]; exact sent.performAt }
  have hend : ∃ z, ((sendOff s op w sc o d a b land ps).onMe fun x => { x with portFree := s.me.local_ + 1 }) =
      (u.onMe (sentOff s z d (s.rs a) land ps)).issue ∧ (sendOff s op w sc o d a b land ps).issued = true := by
    unfold sendOff
    dsimp only
    rw [hv, hu]
    by_cases hd : d = 0
    · have hF (z : State) : sentOff s z d (s.rs a) land ps = fun y => { awaiting d s.nextAtomic y with wait := .none, portFree := s.me.local_ + 1 } :=
        funext fun y => if_pos hd
      refine ⟨s, ?_, ?_⟩
      · rw [hF]
        simp only [if_pos hd]
        change State.issue (((u.onMe (awaiting d s.nextAtomic)).onMe _).onMe _) = _
        rw [onMe_onMe, onMe_onMe]
      · simp only [if_pos hd]
        rfl
    · refine ⟨(u.onMe (awaiting d s.nextAtomic)).clearWait, ?_, ?_⟩
      · simp only [if_neg hd]
        change State.issue ((((u.onMe (awaiting d s.nextAtomic)).onMe _).onMe _).onMe _) = _
        rw [onMe_onMe, onMe_onMe, onMe_onMe]
        refine congrArg (fun f => (u.onMe f).issue) (funext fun y => ?_)
        unfold sentOff
        simp only [if_neg hd]
      · simp only [if_neg hd]
        rfl
  obtain ⟨z, hend, hissued⟩ := hend
  obtain ⟨hF, hport⟩ := sentOff_leaves s z d (s.rs a) land ps
  have hasideu := aside_trans hfill ha
  refine ⟨_, hissued, hend, ?_, atomicLeaves_of_strand hasideu (hatomics ▸ hx) hsent hF⟩
  rw [issue_me, me_onMe, me_of_aside hasideu]
  exact hport

theorem isRel_iff (o : Order) : Order.isRel o = true ↔ releases o := by
  unfold releases
  cases o <;> decide

/-- An atomic that may leave: its registers can be read, its port is free, it has a slot, its bytes resolve, and its log has room. -/
theorem atomicAt_leaves (hp : PortFree s) (hs : d ≠ 0 → SlotFree s) (hrel : releases o → s.me.wait.pub = .done)
    (ha : Accessible s (wantAtomic w) (widthBytes w) (s.me.reg a.toNat) (widthBytes w) ps)
    (hlog : s.logAnswer (s.me.reg a.toNat) (atomicOp2 op (s.me.reg b.toNat) (s.me.reg d.toNat)) = .fresh) :
    (s.atomicAt op w sc o d b (s.rs a) land).me.portFree = s.me.local_ + 1 ∧
      AtomicLeaves s (s.atomicAt op w sc o d b (s.rs a) land) op w sc o d a b land ps := by
  obtain ⟨t, hissued, ht, hport, hleaves⟩ := sendOff_leaves (s := s) (op := op) (w := w) (sc := sc) (o := o) (d := d) (a := a) (b := b) (land := land)
    (ps := ps)
  have hslot : (d != 0 && decide (16 ≤ s.me.slots.length)) = false := by
    by_cases hd : d = 0
    · rw [hd]
      rfl
    · rw [decide_eq_false (Nat.not_le.2 (hs hd)), Bool.and_false]
  have hpub (k : State → State) : (if Order.isRel o then s.publishing sc k else k s) = k s := by
    split
    · next h =>
      unfold State.publishing
      rw [hrel ((isRel_iff o).1 h)]
    · rfl
  have hwork : s.atomicAt op w sc o d b (s.rs a) land = s.onPort 1 fun s => sendOff s op w sc o d a b land ps := by
    have hbytes : Accessible s (wantAtomic w) (widthBytes w) (s.rs a) (widthBytes w) ps := ha
    refine onPort_congr ?_
    dsimp only
    rw [withBytes_accessible s _ _ _ _ ps _ hbytes]
    rw [hslot, if_neg Bool.false_ne_true]
    unfold State.logged
    simp only [show s.logAnswer (s.rs a) (atomicOp2 op (s.rs b) (s.rs d)) = .fresh from hlog]
    exact hpub _
  rw [hwork, onPort_free s 1 _ hp hissued, ht]
  exact ⟨hport, hleaves⟩

end

/-- Settles O14: AMO and CAS are one operation, which sends its atomic with the strand's slot, or its place among those of s0. -/
theorem atomicsLeave : Obligations.AtomicsLeave := by
  intro s op w sc o d a b land ps hr hp hs hrel ha hlog
  have hexec : exec (atomicInstr op w sc o d a b land) s = .next (s.atomicAt op w sc o d b (s.rs a) land) := by
    have hsyll : exec (atomicInstr op w sc o d a b land) s = .next (s.atomic op w sc o d a b land) := by cases op <;> rfl
    rw [hsyll]
    unfold State.atomic
    rw [whenPort_free s _ hp]
    exact congrArg _ (readingWhen_readable s _ _ _ hr)
  exact ⟨_, hexec, atomicAt_leaves hp hs hrel ha hlog⟩

end Sys2Proof.Proofs
end


section
/-! SUPPORT. Reads and writes at the home depend on neither the atomics that are out nor the count of free values, and leave them as they are (R131, R342,
R416). -/

namespace Sys2Proof.Proofs
open Sys2Proof.Machine Sys2Proof.Spec Sys2Proof.Laws

/-- The state with other atomics out, and another count of free values. -/
def apart (as : List Atomic) (n : Nat) (s : State) : State := { s with atomics := as, free := n }

section
variable (as : List Atomic) (n : Nat)

theorem foldl_apart {α : Type} {f : State → α → State} (hf : ∀ s x, f (apart as n s) x = apart as n (f s x)) (xs : List α) (s : State) :
    xs.foldl f (apart as n s) = apart as n (xs.foldl f s) := by
  induction xs generalizing s with
  | nil => rfl
  | cons x xs ih => rw [List.foldl_cons, List.foldl_cons, hf, ih]

theorem undoLine_apart (s : State) (l : Nat) : (apart as n s).undoLine l = apart as n (s.undoLine l) := by
  unfold State.undoLine
  cases spaceOf (64 * l) <;> rfl

theorem putLine_apart (s : State) (l : Nat) (cs : List Host.Cell) (v : Version) : (apart as n s).putLine l cs v = apart as n (s.putLine l cs v) := by
  have hmend (t : State) : (apart as n t).mend cs = apart as n (t.mend cs) := by
    unfold State.mend
    change (if t.flaws.isEmpty then _ else _) = _
    split <;> rfl
  unfold State.putLine
  rw [undoLine_apart]
  dsimp only
  rw [hmend]
  split <;> rfl

theorem poke_apart (s : State) (cs : List Host.Cell) : (apart as n s).poke cs = apart as n (s.poke cs) := by
  unfold State.poke
  exact foldl_apart as n (fun t l => putLine_apart as n t l _ _) _ { s with pubs := s.pubs + 1 }

theorem superAsid_apart (s : State) (p : PartId) : (apart as n s).superAsid p = s.superAsid p := by
  have hctx (a : Asid) : (apart as n s).ctxNow p a 0 = s.ctxNow p a 0 := rfl
  unfold State.superAsid
  simp only [hctx]

theorem resolveDirect_apart (s : State) (u : Who) (binds : List (BitVec 32 × BitVec 32)) (k : Want) (a : Nat) :
    (apart as n s).resolveDirect u binds k a = s.resolveDirect u binds k a := by
  have hlands (ws : Bool) (x p : Nat) : (apart as n s).landsOn u k ws x p = s.landsOn u k ws x p := rfl
  have hwalk : (apart as n s).tableWalk u.part u.asid a = s.tableWalk u.part u.asid a := rfl
  have hthrough (t : Trans) : (apart as n s).through u binds k a t = s.through u binds k a t := rfl
  unfold State.resolveDirect
  rw [hlands, hwalk]
  simp only [hthrough]

theorem setBitmap_apart (s : State) (p : PartId) (base : Word) (k : Nat) : (apart as n s).setBitmap p base k = apart as n (s.setBitmap p base k) := by
  unfold State.setBitmap
  rw [superAsid_apart]
  cases s.superAsid p with
  | none => rfl
  | some asid =>
    dsimp only
    rw [resolveDirect_apart]
    split
    · exact poke_apart as n s _
    · rfl
    · rfl

theorem postSuper_apart (s : State) (p : PartId) (ev : Nat) : (apart as n s).postSuper p ev = apart as n (s.postSuper p ev) := by
  have hpart : (apart as n s).part p = s.part p := rfl
  have hfind (id : Nat) : (apart as n s).findSlice id = s.findSlice id := rfl
  unfold State.postSuper
  rw [hpart]
  cases (s.part p).supSlice with
  | none => rfl
  | some id =>
    dsimp only
    rw [hfind]
    cases s.findSlice id with
    | some h => rfl
    | none =>
      change (if (s.saved.any _) then _ else _) = _
      split <;> rfl

theorem raiseEvent_apart (s : State) (p : PartId) (e : HostEvent) : (apart as n s).raiseEvent p e = apart as n (s.raiseEvent p e) := by
  have hpart : (apart as n s).part p = s.part p := rfl
  unfold State.raiseEvent
  rw [hpart]
  dsimp only
  split
  · rfl
  · exact postSuper_apart as n (s.onPart p fun P => { P with evq := P.evq ++ [e] }) p 30

theorem touch_apart (s : State) (p : PartId) (l : Nat) : (apart as n s).touch p l = apart as n (s.touch p l) := by
  have hpart : (apart as n s).part p = s.part p := rfl
  have hsectors : (apart as n s).sectors = s.sectors := rfl
  unfold State.touch
  rw [hpart, hsectors]
  extract_lets a owns sec c0 c P r1 r2 s1 s2
  have h1 : r1 = apart as n s1 := rfl
  have h2 : r2 = apart as n s2 := by
    subst r2 s2
    rw [h1, setBitmap_apart]
  split
  · rfl
  · split
    · rw [h2]
      split
      · exact raiseEvent_apart as n s2 p _
      · rfl
    · rfl

theorem touchAll_apart (s : State) (p : PartId) (ps : List Nat) : (apart as n s).touchAll p ps = apart as n (s.touchAll p ps) :=
  foldl_apart as n (fun t l => touch_apart as n t p l) _ s

theorem sense_apart (s : State) (p : PartId) (a : Nat) : (apart as n s).sense p a = ((s.sense p a).1, apart as n (s.sense p a).2) := by
  have hrow (g : Nat) : (apart as n s).rowGroup g = s.rowGroup g := rfl
  have hkey (l : Nat) : (apart as n s).otherKey p l = s.otherKey p l := rfl
  have hpoison : (apart as n s).poison = s.poison := rfl
  have hflaws : (apart as n s).flaws = s.flaws := rfl
  have hbad : (apart as n s).bad = s.bad := rfl
  unfold State.sense
  cases rowGroupOf a with
  | some g =>
    dsimp only
    rw [hrow, hpoison, hflaws]
    split
    · rfl
    · split
      · rfl
      · split <;> rfl
  | none =>
    dsimp only
    rw [hkey, hflaws, hbad]
    split
    · split
      · rfl
      · split <;> rfl
    · rfl

theorem senseRead_apart (s : State) (p : PartId) (ps : List Nat) :
    (apart as n s).senseRead p ps = ((s.senseRead p ps).1, apart as n (s.senseRead p ps).2) := by
  have hunits (us : List Nat) (t : State) : State.senseUnits p us (apart as n t) =
      ((State.senseUnits p us t).1, apart as n (State.senseUnits p us t).2) := by
    induction us generalizing t with
    | nil => rfl
    | cons u us ih =>
      unfold State.senseUnits
      rw [sense_apart]
      rcases t.sense p u with ⟨f | _, t'⟩
      · exact ih t'
      · rfl
  unfold State.senseRead
  rw [touchAll_apart, hunits]

end

/-- What does not depend on the atomics that are out leaves them as they are. -/
theorem atomics_of_apart (f : State → State) {s : State} (h : ∀ as n, f (apart as n s) = apart as n (f s)) : (f s).atomics = s.atomics := by
  have hsame : f s = apart s.atomics s.free (f s) := h s.atomics s.free
  rw [hsame]
  rfl

theorem atomics_senseRead (s : State) (p : PartId) (ps : List Nat) : (s.senseRead p ps).2.atomics = s.atomics :=
  atomics_of_apart (fun s => (s.senseRead p ps).2) fun as n => congrArg Prod.snd (senseRead_apart as n s p ps)

theorem atomics_writeLine (s : State) (w : Writer) (l : Nat) (cs : List Host.Cell) : (s.writeLine w l cs).atomics = s.atomics := by
  have hput (v : Version) : (s.putLine l cs v).atomics = s.atomics := atomics_of_apart (·.putLine l cs v) fun as n => putLine_apart as n s l cs v
  have htouch (t : State) : (t.touch w.part l).atomics = t.atomics := atomics_of_apart (·.touch w.part l) fun as n => touch_apart as n t w.part l
  have hdirty (t : State) : (t.markDirty w.asid (64 * l)).atomics = t.atomics := by
    unfold State.markDirty State.onCtx
    split
    · split <;> rfl
    · rfl
  unfold State.writeLine
  dsimp only
  split
  · exact hput _
  · rw [hdirty, htouch]
    exact hput _

theorem atomics_writeHome (s : State) (w : Writer) (cs : List Host.Cell) : (s.writeHome w cs).atomics = s.atomics :=
  foldl_keeps State.atomics (fun t l => atomics_writeLine t w l _) _ s

end Sys2Proof.Proofs
end

section
/-! Atomics at their home (R131, R281, R337). -/

namespace Sys2Proof.Proofs
open Sys2Proof.Machine Sys2Proof.Spec Sys2Proof.Laws

/-! Values. -/

theorem signed_eq_dyadic (neg : Bool) (m : Nat) (e : Int) : signed neg m e = if neg then -dyadic m e else dyadic m e := by
  unfold signed dyadic
  cases neg <;> simp

/-- The exact sum of two numbers, rounded once. -/
theorem sum_rounds_once (f : Fmt) (n1 n2 : Bool) (m1 m2 : Nat) (e1 e2 : Int) :
    ∃ neg m e, (f.sum n1 m1 e1 n2 m2 e2).bits = (f.pack neg m e).bits ∧ signed neg m e = signed n1 m1 e1 + signed n2 m2 e2 := by
  let z := min e1 e2
  let v : Int := (if n1 then -(m1 * 2 ^ (e1 - z).toNat : Int) else m1 * 2 ^ (e1 - z).toNat) +
    (if n2 then -(m2 * 2 ^ (e2 - z).toNat : Int) else m2 * 2 ^ (e2 - z).toNat)
  have hsum : signed n1 m1 e1 + signed n2 m2 e2 = (v : ℚ) * 2 ^ z := by
    rw [signed_eq_scaled n1 m1 (Int.min_le_left e1 e2), signed_eq_scaled n2 m2 (Int.min_le_right e1 e2), ← add_mul, ← Int.cast_add]
  rw [hsum]
  by_cases hv : v = 0
  · refine ⟨n1 && n2, 0, 0, ?_, ?_⟩
    · unfold Fmt.sum Fmt.pack
      rw [if_pos rfl]
      exact congrArg NumRes.bits (if_pos hv)
    · rw [hv]
      simp [signed]
  · refine ⟨decide (v < 0), v.natAbs, z, ?_, ?_⟩
    · exact congrArg NumRes.bits (if_neg hv)
    · unfold signed
      rw [← Int.cast_natCast (R := ℚ) v.natAbs]
      rcases lt_or_ge v 0 with h | h
      · simp [h, abs_of_neg (Int.cast_lt_zero.2 h)]
      · simp [not_lt.2 h, abs_of_nonneg (Int.cast_nonneg h)]

theorem atomicValues : AtomicValues := by
  intro w old v cmp hw hold hv hcmp f
  have hmod : v % 2 ^ w = v := Nat.mod_eq_of_lt hv
  have hf (op : AmoOp) : f op = some (amoValue op w old v) := congrArg (fun x => some (amoValue op w old x)) hmod
  refine ⟨hf .ADD, ⟨_, hf .MIN, ?_⟩, ⟨_, hf .MAX, ?_⟩, ⟨_, hf .AND, fun k => Nat.testBit_and ..⟩, ⟨_, hf .OR, fun k => Nat.testBit_or ..⟩,
    ⟨_, hf .XOR, fun k => Nat.testBit_xor ..⟩, hf .SWAP, fun hw32 => ?_, fun n1 n2 m1 m2 e1 e2 hw32 h1 h2 => ?_, ?_⟩
  · unfold amoValue
    dsimp only
    split
    · next h => exact ⟨(min_eq_left h).symm, hold⟩
    · next h => exact ⟨(min_eq_right (Int.le_of_lt (Int.not_le.1 h))).symm, hv⟩
  · unfold amoValue
    dsimp only
    split
    · next h => exact ⟨(max_eq_left h).symm, hold⟩
    · next h => exact ⟨(max_eq_right (Int.le_of_lt (Int.not_le.1 h))).symm, hv⟩
  · rw [hf]
    split
    · next h => exact congrArg some (congrArg NumRes.bits (addV_nan fp32 h))
    · rfl
  · obtain ⟨neg, m, e, hbits, hval⟩ := sum_rounds_once fp32 n1 n2 m1 m2 e1 e2
    refine ⟨neg, m, e, ?_, ?_⟩
    · rw [hf, ← hbits]
      change some (fp32.addV (fp32.unpack old) (fp32.unpack v)).bits = _
      rw [h1, h2]
      rfl
    · simpa only [signed_eq_dyadic] using hval
  · unfold atomicValue
    dsimp only
    rw [hmod, Nat.mod_eq_of_lt hcmp]

/-! Performing. -/

theorem writes_after {s t u : State} {cs : List Host.Cell} (a : Writes s t cs) (b : Writes t u []) : Writes s u cs := by
  have h := writes_trans a b
  rwa [List.append_nil] at h

theorem writes_onStrand (s : State) (h : HallId) (st : Strand) (f : StrandState → StrandState) : Writes s (s.onStrand h st f) [] :=
  writes_none (sameCycles_onHall s h _ rfl) rfl rfl

/-- That its slice learns what an atomic has read changes neither memory nor the atomics that are out. -/
theorem atomicDone_keeps (s : State) (a : Atomic) (old : Nat) (c : Clock) (ids : List Nat) (last : List (Nat × Nat)) :
    Writes s (s.atomicDone a old c ids last) [] ∧ (s.atomicDone a old c ids last).atomics = s.atomics := by
  have hlog (w : Word) (d : Nat) (x y z : Word) : Writes s (s.logEntry a.h w d x y z) [] ∧ (s.logEntry a.h w d x y z).atomics = s.atomics := by
    unfold State.logEntry
    split
    · exact ⟨writes_refl s, rfl⟩
    · exact ⟨writes_none (sameCycles_onHall s a.h _ rfl) rfl rfl, rfl⟩
  have hslot (t : State) (q : Nat) (us : List Upd) : Writes t (t.fillSlot a.h a.strand q us none) [] ∧
      (t.fillSlot a.h a.strand q us none).atomics = t.atomics := by
    obtain ⟨g, e, -⟩ := fillSlot_eq t a.h a.strand q us none
    rw [e]
    exact ⟨writes_onStrand t _ _ _, rfl⟩
  obtain ⟨wlog, alog⟩ := hlog a.word a.depth a.vaddr (atomicOp2 a.op a.operand a.comparand) (BitVec.ofNat 64 old)
  unfold State.atomicDone
  extract_lets ret s1 s2
  have w2 : Writes s s2 [] := writes_trans wlog (writes_onStrand s1 a.h a.strand _)
  split
  · exact ⟨writes_trans w2 (hslot s2 _ _).1, (hslot s2 _ _).2.trans alog⟩
  · exact ⟨writes_trans w2 (writes_onStrand s2 a.h a.strand _), alog⟩

/-- An atomic's write at its home, where it makes one, as the version that the writer gives. -/
def putAtomic (s : State) (a : Atomic) (w : Writer) (live : Bool) (v : Option Nat) : State :=
  match v with
  | none => s
  | some v =>
    let s' := s.nextPub.2.writeHome w (a.paddrs.zip (leBytes a.paddrs.length v))
    if live then s'.onStrand a.h a.strand fun x => { x with clock := x.clock.up (.strand a.slice a.strand) s.nextPub.1 } else s'

/-- The cells that an atomic writes. -/
def atomicCells (a : Atomic) (v : Option Nat) : List Host.Cell :=
  match v with
  | none => []
  | some v => byLines (a.paddrs.zip (leBytes a.paddrs.length v))

theorem putAtomic_keeps (s : State) (a : Atomic) (w : Writer) (live : Bool) (v : Option Nat) :
    Writes s (putAtomic s a w live v) (atomicCells a v) ∧
      (putAtomic s a w live v).atomics = s.atomics := by
  cases v with
  | none => exact ⟨writes_refl s, rfl⟩
  | some v =>
    have hput := writes_trans (s := s) (t := s.nextPub.2) (writes_of_eq rfl rfl rfl)
      (writes_writeHome s.nextPub.2 w (a.paddrs.zip (leBytes a.paddrs.length v)))
    have hkeep := atomics_writeHome s.nextPub.2 w (a.paddrs.zip (leBytes a.paddrs.length v))
    unfold putAtomic
    dsimp only
    split
    · exact ⟨writes_after hput (writes_onStrand _ a.h a.strand _), hkeep⟩
    · exact ⟨hput, hkeep⟩

theorem atHome_eq {s s1 : State} {a : Atomic} (hr : s.senseRead (s.partOf a.asid) a.paddrs = (none, s1)) : ∃ w c ids last,
    let old := leNat (a.paddrs.map (Memory.byte s1.mem))
    let t := putAtomic s1 a w (s.atomicLives a) (atomicValue a.op (8 * a.paddrs.length) old a.operand.toNat a.comparand.toNat)
    s.atHome a = if s.atomicLives a then t.atomicDone a old c ids last else t := by
  unfold State.atHome
  simp only [hr]
  exact ⟨_, _, _, _, rfl⟩

/-- An atomic that meets no data fault takes effect on its bytes, and on no others. -/
theorem atHome_takes {s : State} {a : Atomic} (hps : a.paddrs.Nodup) (hf : (s.senseRead (s.partOf a.asid) a.paddrs).1 = none) :
    (s.atHome a).atomics = s.atomics ∧ (Uncounted s → FieldTakes s (s.atHome a) a.paddrs
      (atomicValue a.op (8 * a.paddrs.length) (leNat (a.paddrs.map (Memory.byte s.mem))) a.operand.toNat a.comparand.toNat)) := by
  have hsense := writes_senseRead s (s.partOf a.asid) a.paddrs
  have hkeep := atomics_senseRead s (s.partOf a.asid) a.paddrs
  rcases hr : s.senseRead (s.partOf a.asid) a.paddrs with ⟨f, s1⟩
  rw [hr] at hf hsense hkeep
  obtain rfl : f = none := hf
  obtain ⟨w, c, ids, last, heq⟩ := atHome_eq hr
  dsimp only at heq
  generalize hv : atomicValue a.op (8 * a.paddrs.length) (leNat (a.paddrs.map (Memory.byte s1.mem))) a.operand.toNat a.comparand.toNat = v at heq
  obtain ⟨wput, aput⟩ := putAtomic_keeps s1 a w (s.atomicLives a) v
  obtain ⟨wt, hat⟩ : Writes s (s.atHome a) (atomicCells a v) ∧
      (s.atHome a).atomics = s.atomics := by
    rw [heq]
    split
    · obtain ⟨wdone, adone⟩ := atomicDone_keeps (putAtomic s1 a w (s.atomicLives a) v) a (leNat (a.paddrs.map (Memory.byte s1.mem))) c ids last
      exact ⟨writes_trans hsense (writes_after wput wdone), adone.trans (aput.trans hkeep)⟩
    · exact ⟨writes_trans hsense wput, aput.trans hkeep⟩
  refine ⟨hat, fun hu => ?_⟩
  have hmem : s1.mem = s.mem := (hsense.cells hu).1
  rw [hmem] at hv
  rw [hv]
  cases v with
  | none => exact fieldTakes_none wt
  | some v => exact fieldTakes_some hps wt

/-- The checker does not watch the atomic, or finds no difference. -/
theorem performAtomic_matched {s : State} {a : Atomic} (hm : a.matchAt = none ∨ (a.bad = 0 ∨ a.bad = uncounted) ∧ Config.upset s.free = false)
    (hfar : a.fabric = false) : ∃ n, s.performAtomic a = (apart (s.atomics.filter fun x => x.id != a.id) n s).atHome a := by
  have hcheck (hb : a.bad = 0 ∨ a.bad = uncounted) (hup : Config.upset s.free = false) :
      ({ s with atomics := s.atomics.filter fun x => x.id != a.id } : State).checkMatch a.h a.bad =
        (0, apart (s.atomics.filter fun x => x.id != a.id) (s.free + 1) s) := by
    unfold State.checkMatch
    rw [if_pos hb, hup, if_neg Bool.false_ne_true]
    rfl
  unfold State.performAtomic
  rcases hw : a.matchAt with _ | m
  · simp only [hfar]
    exact ⟨s.free, rfl⟩
  · obtain ⟨hb, hup⟩ := hm.resolve_left fun h => by rw [h] at hw; cases hw
    simp only [hcheck hb hup, hfar]
    exact ⟨s.free + 1, rfl⟩

theorem atomicsArePerformed : AtomicsArePerformed := by
  intro s id a hdue hwait hm hfar hps _ hf n old
  obtain ⟨k, hperform⟩ := performAtomic_matched hm hfar
  generalize hu : apart (s.atomics.filter fun x => x.id != a.id) k s = u at hperform
  have hsense : (u.senseRead (u.partOf a.asid) a.paddrs).1 = none := by
    rw [← hu, senseRead_apart]
    exact hf
  obtain ⟨hat, htakes⟩ := atHome_takes hps hsense
  refine ⟨u.atHome a, ?_, hat.trans (hu ▸ rfl), fun hun => ?_⟩
  · change execAtomicPerform id s = _
    unfold execAtomicPerform
    simp only [hdue, hwait, hperform]
    rfl
  · subst hu
    obtain ⟨-, others, value⟩ := htakes hun
    exact ⟨others hun, value hun⟩

/-- Settles O15: the values by operation, and the one write at the home that an atomic makes. -/
theorem atomicOperations : Obligations.AtomicOperations := ⟨atomicValues, atomicsArePerformed⟩

end Sys2Proof.Proofs
end


section
/-! Contributions, phases and markers (R135, R136, R140, R141, R345). -/

namespace Sys2Proof.Proofs
open Sys2Proof.Machine Sys2Proof.Spec Sys2Proof.Laws

theorem outsideRegions_of_depth {s : State} {k : State → State} (h : s.depth = 0) : s.outsideRegions k = k s := if_pos h

theorem outsideRegions_traps {s : State} {k : State → State} (h : s.depth ≠ 0) (hu : Unstopped s) :
    Traps s (s.outsideRegions k) { cause := .ILLEGAL } := by
  unfold State.outsideRegions
  rw [if_neg h]
  exact trapHere_traps s _ hu

theorem sameRegs_refl (x : StrandState) : SameRegs x x := ⟨rfl, rfl, rfl, rfl, rfl, rfl, rfl, rfl, rfl, rfl⟩

/-- A syllable that only changes, of its strand, no register. -/
theorem quiet_onMe (s : State) {f : StrandState → StrandState} (hf : SameRegs s.me (f s.me)) : Spec.Quiet s (s.onMe f).issue :=
  quiet_of_aside (aside_refl s) hf

/-! STMR. -/

/-- The place of a contribution in its window, with the window's descriptor. -/
def stmrDesc (s : State) (p : Nat) : Option MrDesc :=
  s.mrDesc (BitVec.ofNat 4 ((p - 0xC0000000000) / 0x100000)) ((p - 0xC0000000000) % 0x100000 / 4096)

/-- The fault of an STMR to a window that is disabled or of another width. -/
def stmrFault (w : Width) (addr : Word) : TrapInfo := (wantStmr w).tell addr.toNat (prot 0x40)

/-- An STMR whose place is known. -/
def stmrAt (w : Width) (addr value : Word) (p : Nat) (s : State) : State :=
  match stmrDesc s p with
  | none => s.trapHere (stmrFault w addr)
  | some d =>
    if mrWidth d.ty ≠ widthBytes w then s.trapHere (stmrFault w addr)
    else (s.onMe fun x => { x with stmrs := x.stmrs ++ [{ paddr := p, width := w, value := value, ty := d.ty, fabric := d.fabric != 0 }] }).issue

theorem exec_stmr {s : State} {w : Width} {a b : BitVec 6} {ps : List Nat} (hd : s.depth = 0) (hr : Readable s [.s a.toNat, .s b.toNat])
    (ha : Accessible s (wantStmr w) (widthBytes w) (s.me.reg a.toNat) (widthBytes w) ps) :
    exec (.stmr w a b) s = .next (s.onPort 1 (stmrAt w (s.rs a) (s.rs b) (ps.headD 0))) := by
  have hbytes : Accessible s (wantStmr w) (widthBytes w) (s.rs a) (widthBytes w) ps := ha
  change execStmr w a b s = _
  unfold execStmr
  rw [outsideRegions_of_depth hd]
  refine congrArg _ (onPort_congr ?_)
  rw [reading_readable s _ _ hr]
  dsimp only
  rw [withBytes_accessible s _ _ _ _ ps _ hbytes]
  rfl

theorem stmrAt_contributes {s : State} {w : Width} {d : MrDesc} {p : Nat} (addr value : Word) (hd : stmrDesc s p = some d)
    (hw : mrWidth d.ty = widthBytes w) : stmrAt w addr value p s =
      (s.onMe fun x => { x with stmrs := x.stmrs ++ [{ paddr := p, width := w, value := value, ty := d.ty, fabric := d.fabric != 0 }] }).issue := by
  unfold stmrAt
  rw [hd]
  exact if_neg (not_not.2 hw)

theorem stmrAt_faults {s : State} {w : Width} {p : Nat} (addr value : Word) (hd : ∀ d, stmrDesc s p = some d → mrWidth d.ty ≠ widthBytes w) :
    stmrAt w addr value p s = s.trapHere (stmrFault w addr) := by
  unfold stmrAt
  split
  · rfl
  · next d h => exact if_pos (hd d h)

theorem contributionsWait : ContributionsWait := by
  intro s w a b ps hd hr hp ha p desc
  refine ⟨fun d hdesc hw => ?_, fun hnone hu => ?_⟩
  · have hstep := stmrAt_contributes (s.rs a) (s.rs b) hdesc hw
    have hport := onPort_free s 1 (stmrAt w (s.rs a) (s.rs b) p) hp (hstep ▸ rfl)
    refine ⟨_, exec_stmr hd hr ha, ?_⟩
    rw [hport, hstep]
    change Spec.Quiet s (((s.onMe _).onMe _).issue) ∧ (((s.onMe _).onMe _).issue).me.portFree = _ ∧ (((s.onMe _).onMe _).issue).me.stmrs = _
    rw [onMe_onMe, issue_me, me_onMe]
    exact ⟨quiet_onMe s ⟨rfl, rfl, rfl, rfl, rfl, rfl, rfl, rfl, rfl, rfl⟩, rfl, rfl⟩
  · have hfault : Traps s (s.onPort 1 (stmrAt w (s.rs a) (s.rs b) p)) (stmrFault w (s.rs a)) :=
      onPort_traps hp (stmrAt_faults (s.rs a) (s.rs b) hnone ▸ trapHere_traps s _ hu)
    exact ⟨_, _, exec_stmr hd hr ha, hfault, rfl, rfl, BitVec.ofNat_toNat 64 _⟩

/-! PHASE. -/

theorem publishing_done {s : State} (x : Scope) (k : State → State) (h : s.me.wait.pub = .done) : s.publishing x k = k s := by
  unfold State.publishing
  rw [h]

theorem exec_phase {s : State} (sc : Scope) (hd : s.depth = 0) :
    exec (.phase sc) s = .next (s.publishing sc fun s => s.renewing sc fun s => s.clearWait.issue) :=
  congrArg _ (outsideRegions_of_depth hd)

theorem sameRegs_trans {x y z : StrandState} (h : SameRegs x y) (k : SameRegs y z) : SameRegs x z where
  s := k.s.trans h.s
  p := k.p.trans h.p
  b := k.b.trans h.b
  pc := k.pc.trans h.pc
  nflags := k.nflags.trans h.nflags
  sbchk := k.sbchk.trans h.sbchk
  ntid := k.ntid.trans h.ntid
  pends := k.pends.trans h.pends
  slots := k.slots.trans h.slots
  stores := k.stores.trans h.stores

theorem sameRegs_wait (x : StrandState) (w : Wait) : SameRegs x { x with wait := w } := ⟨rfl, rfl, rfl, rfl, rfl, rfl, rfl, rfl, rfl, rfl⟩

/-- A renewal whose reads have been performed ends its syllable quietly (R140, R275). -/
theorem renewing_quiet {s t : State} {f : StrandState → StrandState} {sc : Scope} (a : Aside s t) (hf : SameRegs s.me (f s.me))
    (hreads : sc ≠ .strand → s.me.slots.all (fun x => x.data.isSome) = true) :
    Spec.Quiet s ((t.onMe f).renewing sc fun s => s.clearWait.issue) ∧ ((t.onMe f).renewing sc fun s => s.clearWait.issue).me.wait = .none := by
  have hme : (t.onMe f).me = f s.me := by rw [me_onMe, me_of_aside a]
  obtain ⟨g, hg, hl⟩ := renew_learns (t.onMe f) (t.onMe f).curHall (t.onMe f).curStrand sc
  have hstep : ((t.onMe f).renewing sc fun s => s.clearWait.issue) = (t.onMe fun y => { g (f y) with wait := .none }).issue := by
    have hdone : (sc != .strand && !(t.onMe f).me.readsDone) = false := by
      rw [hme]
      by_cases hsc : sc = .strand
      · rw [hsc]
        rfl
      · rw [show (f s.me).readsDone = true from (congrArg (List.all · _) hf.slots).trans (hreads hsc), Bool.not_true, Bool.and_false]
    unfold State.renewing
    rw [hdone, if_neg Bool.false_ne_true, hg]
    change (((t.onMe f).onMe g).onMe _).issue = _
    rw [onMe_onMe, onMe_onMe]
  rw [hstep]
  have hregs := sameRegs_trans (sameRegs_trans hf (sameRegs_of_learns (hl (f s.me)))) (sameRegs_wait _ .none)
  exact ⟨quiet_of_aside a hregs, by rw [issue_me, me_onMe]⟩

/-- What the queue and the history of versions are no part of is as before when the Hall's stores have drained. -/
theorem drainAll_keeps {β : Type} (p : State → β) (hist : ∀ s hs n, p { s with hist := hs, vers := n } = p s)
    (overlay : ∀ s h (f : Hall → List Store), p (s.onHall h fun H => { H with overlay := f H }) = p s)
    (s : State) (h : HallId) : p (s.drainAll h) = p s := by
  refine foldl_keeps p (fun t e => ?_) _ s
  unfold State.drainStore
  split
  · rfl
  · exact (overlay _ h _).trans (foldl_keeps p (fun u _ => hist u _ _) _ t)

theorem drainAll_me (s : State) : (s.drainAll s.curHall).me = s.me ∧ (s.drainAll s.curHall).here.cycle = s.here.cycle := by
  have hhall : (s.drainAll s.curHall).curHall = s.curHall := drainAll_keeps State.curHall (fun _ _ _ => rfl) (fun _ _ _ => rfl) s _
  have hstrand : (s.drainAll s.curHall).curStrand = s.curStrand := drainAll_keeps State.curStrand (fun _ _ _ => rfl) (fun _ _ _ => rfl) s _
  have hwork : ((s.drainAll s.curHall).hall s.curHall).work = (s.hall s.curHall).work := (quiet_drainAll s s.curHall s.curHall).work
  have hcycle : ((s.drainAll s.curHall).hall s.curHall).cycle = (s.hall s.curHall).cycle :=
    drainAll_keeps (fun t => (t.hall s.curHall).cycle) (fun _ _ _ => rfl) (fun t h _ => by
      by_cases hk : s.curHall = h
      · rw [hk, hall_onHall_same]
      · rw [hall_onHall_ne t h s.curHall _ hk]) s _
  unfold State.me State.here
  rw [hhall, hstrand, hwork, hcycle]
  exact ⟨rfl, rfl⟩

/-- The strand at issue waits for its publication, from a Hall whose stores have drained. -/
def beginPublication (x : Scope) (d : Nat) (t : State) : State :=
  let late := t.curStrand == .S || t.curStrand == .L || t.here.toCompare
  (t.onMe fun y => { y with wait := { y.wait with pub := .waiting x (t.here.cycle + (if late then 6 else 1) + d) } }).freeze

theorem publishing_begins {s : State} {x : Scope} (k : State → State) (hidle : s.me.wait.pub = .idle) (hwork : s.hasWork s.curHall s.curStrand x = true) :
    s.publishing x k = beginPublication x (Config.delay s.free) (State.drainAll { s with free := s.free + 1 } s.curHall) := by
  unfold State.publishing
  rw [hidle]
  exact if_pos hwork

theorem beginPublication_waits (x : Scope) (d : Nat) (t : State) :
    ∃ at_, t.here.cycle < at_ ∧ (beginPublication x d t).issued = false ∧ (beginPublication x d t).mem = t.mem ∧
      (beginPublication x d t).me = { t.me with wait := { t.me.wait with pub := .waiting x at_ }, frozen := true } := by
  refine ⟨t.here.cycle + (if t.curStrand == .S || t.curStrand == .L || t.here.toCompare then 6 else 1) + d, ?_, rfl, rfl, ?_⟩
  · split <;> omega
  · exact (me_onMe (t.onMe _) _).trans (by rw [me_onMe])

theorem phasePublishes : PhasePublishes := by
  intro s sc
  refine ⟨fun hd hdone hreads => ?_, fun hd hidle hwork => ?_, fun hd hu => ?_⟩
  · obtain ⟨hq, hwait⟩ := renewing_quiet (f := id) (aside_refl s) (sameRegs_refl s.me) hreads
    rw [show s.onMe id = s from onStrand_id s _ _] at hq hwait
    exact ⟨_, exec_phase sc hd, (publishing_done sc _ hdone).symm ▸ hq, (publishing_done sc _ hdone).symm ▸ hwait⟩
  · obtain ⟨hme, hcycle⟩ := drainAll_me { s with free := s.free + 1 }
    have hmem : (State.drainAll { s with free := s.free + 1 } s.curHall).mem = s.mem :=
      drainAll_keeps State.mem (fun _ _ _ => rfl) (fun _ _ _ => rfl) { s with free := s.free + 1 } _
    obtain ⟨at_, hat, hissued, hbytes, hnow⟩ := beginPublication_waits sc (Config.delay s.free) (State.drainAll { s with free := s.free + 1 } s.curHall)
    rw [hme] at hnow
    refine ⟨_, at_, (exec_phase sc hd).trans (congrArg _ (publishing_begins _ hidle hwork)), hissued, ?_, ?_, hcycle ▸ hat, ?_, fun a => ?_⟩
    · rw [hnow]
    · rw [hnow]
    · rw [hnow]
      exact ⟨rfl, rfl, rfl, rfl, rfl, rfl, rfl, rfl, rfl, rfl⟩
    · rw [hbytes, hmem]
  · exact ⟨_, rfl, outsideRegions_traps hd hu⟩

/-! Markers. -/

/-- The queues that a mask of FENCE.MK names. -/
theorem mem_fence (mask : BitVec 3) (q : Engine) :
    (∃ n, (n, q) ∈ ([(0, Engine.copy), (1, Engine.matrix), (2, Engine.hazel)].filter fun e => mask.getLsbD e.1)) ↔
      (q = .copy ∧ mask.getLsbD 0 = true) ∨ (q = .matrix ∧ mask.getLsbD 1 = true) ∨ (q = .hazel ∧ mask.getLsbD 2 = true) := by
  constructor
  · rintro ⟨n, h⟩
    obtain ⟨hin, hbit⟩ := List.mem_filter.1 h
    simp only [List.mem_cons, Prod.mk.injEq, List.not_mem_nil, or_false] at hin
    obtain ⟨rfl, rfl⟩ | ⟨rfl, rfl⟩ | ⟨rfl, rfl⟩ := hin
    · exact .inl ⟨rfl, hbit⟩
    · exact .inr (.inl ⟨rfl, hbit⟩)
    · exact .inr (.inr ⟨rfl, hbit⟩)
  · rintro (⟨rfl, hbit⟩ | ⟨rfl, hbit⟩ | ⟨rfl, hbit⟩)
    · exact ⟨0, List.mem_filter.2 ⟨by decide, hbit⟩⟩
    · exact ⟨1, List.mem_filter.2 ⟨by decide, hbit⟩⟩
    · exact ⟨2, List.mem_filter.2 ⟨by decide, hbit⟩⟩

/-- The markers that a FENCE.MK places. -/
def fenceMarkers (mask : BitVec 3) (H : Hall) : List Marker :=
  ([(0, Engine.copy), (1, Engine.matrix), (2, Engine.hazel)].filter fun e => mask.getLsbD e.1).map fun e =>
    { queue := e.2, last := H.nextId e.2, clock := H.known e.2 }

theorem mem_fenceMarkers (mask : BitVec 3) (H : Hall) (q : Engine) (n : Nat) :
    (∃ m ∈ fenceMarkers mask H, m.queue = q ∧ m.last = n) ↔ (q = .copy ∧ n = H.cqNext ∧ mask.getLsbD 0 = true) ∨
      (q = .matrix ∧ n = H.mqNext ∧ mask.getLsbD 1 = true) ∨ (q = .hazel ∧ n = H.hqNext ∧ mask.getLsbD 2 = true) := by
  have hplaced : (∃ m ∈ fenceMarkers mask H, m.queue = q ∧ m.last = n) ↔ n = H.nextId q ∧
      ∃ k, (k, q) ∈ ([(0, Engine.copy), (1, Engine.matrix), (2, Engine.hazel)].filter fun e => mask.getLsbD e.1) := by
    constructor
    · rintro ⟨m, hm, rfl, rfl⟩
      obtain ⟨e, he, rfl⟩ := List.mem_map.1 hm
      exact ⟨rfl, e.1, he⟩
    · rintro ⟨rfl, k, hk⟩
      exact ⟨_, List.mem_map_of_mem hk, rfl, rfl⟩
  rw [hplaced, mem_fence]
  cases q <;> simp [Hall.nextId]

/-- The floor and the knowledge of a strand that joins at markers (R287). -/
theorem joinMarkers_learn (ms : List Marker) (s : State) :
    ∃ g : StrandState → StrandState, ms.foldl State.joinMarker s = s.onMe g ∧ ∀ y, Learns y (g y) := by
  induction ms generalizing s with
  | nil => exact ⟨id, (onStrand_id s _ _).symm, fun _ => rfl⟩
  | cons m ms ih =>
    obtain ⟨g, hg, hl⟩ := ih (s.joinMarker m)
    obtain ⟨f, hf, hk⟩ : ∃ f : StrandState → StrandState, s.joinMarker m = s.onMe f ∧ ∀ y, Learns y (f y) := ⟨_, rfl, fun _ => rfl⟩
    refine ⟨fun y => g (f y), hg.trans (by rw [hf, onMe_onMe]), fun y => learns_trans (hk y) (hl (f y))⟩

theorem execJoin_joins {s : State} (h : s.me.markers.any s.here.joinWaits = false) :
    ∃ t, exec .join s = .next t ∧ Spec.Quiet s t ∧ t.me.markers = [] := by
  obtain ⟨g, hg, hl⟩ := joinMarkers_learn s.me.markers s
  have hexec : exec .join s = .next (s.onMe fun x => { g x with markers := [] }).issue := by
    change execJoin s = _
    unfold execJoin
    dsimp only
    rw [h, if_neg Bool.false_ne_true, hg, onMe_onMe]
  refine ⟨_, hexec, quiet_onMe s (sameRegs_trans (sameRegs_of_learns (hl s.me)) ⟨rfl, rfl, rfl, rfl, rfl, rfl, rfl, rfl, rfl, rfl⟩), ?_⟩
  rw [issue_me, me_onMe]

theorem markersAndJoins : MarkersAndJoins := by
  intro s
  refine ⟨fun mask => ?_, execJoin_joins, fun h => ⟨_, congrArg Host.Outcome.next (if_pos h), freeze_freezes s⟩⟩
  refine ⟨_, fenceMarkers mask s.here, rfl, quiet_onMe s ⟨rfl, rfl, rfl, rfl, rfl, rfl, rfl, rfl, rfl, rfl⟩, ?_, mem_fenceMarkers mask s.here⟩
  rw [issue_me, me_onMe]
  rfl

/-- Settles O16: each of the four ends in a change of the strand at issue that its registers are no part of, in a trap or in a freeze. -/
theorem contributionsPhasesAndMarkers : Obligations.ContributionsPhasesAndMarkers := ⟨contributionsWait, phasePublishes, markersAndJoins⟩

end Sys2Proof.Proofs
end


section
/-! SUPPORT. The groups of a module: the messages about them, and what a change of one group leaves of the others and of the machine (R143 to R147). -/

namespace Sys2Proof.Proofs
open Sys2Proof.Machine Sys2Proof.Spec Sys2Proof.Laws

/-- `t` is `s` but for messages that have left. -/
def Tells (s t : State) : Prop := t = { s with inbox := t.inbox, outbox := t.outbox }

/-- `t` is `s` but for its groups and for messages that have left. -/
def Regroups (s t : State) : Prop := t = { s with groups := t.groups, inbox := t.inbox, outbox := t.outbox }

theorem tells_refl (s : State) : Tells s s := rfl

theorem tells_trans {s t u : State} (a : Tells s t) (b : Tells t u) : Tells s u := by
  unfold Tells at *
  rw [b, a]

theorem tells_foldl {α : Type} {f : State → α → State} (hf : ∀ s a, Tells s (f s a)) (xs : List α) (s : State) : Tells s (xs.foldl f s) := by
  induction xs generalizing s with
  | nil => exact tells_refl s
  | cons x xs ih => exact tells_trans (hf s x) (ih (f s x))

theorem tells_groups {s t : State} (a : Tells s t) : t.groups = s.groups := by
  unfold Tells at a
  rw [a]

theorem regroups_of_tells {s t : State} (a : Tells s t) : Regroups s t := by
  unfold Tells Regroups at *
  rw [a]

theorem regroups_trans {s t u : State} (a : Regroups s t) (b : Regroups t u) : Regroups s u := by
  unfold Regroups at *
  rw [b, a]

theorem near_of_regroups {s t : State} (a : Regroups s t) : Near s t := by
  unfold Regroups at a
  rw [a]
  exact ⟨rfl, rfl, rfl, rfl, rfl, rfl, rfl, rfl⟩

/-! Messages. -/

theorem tells_sendTo (s : State) (p : PartId) (m : Nat) (msg : Instr) : Tells s (s.sendTo p m msg) := by
  unfold State.sendTo
  split <;> rfl

theorem tells_tellMembers (s : State) (asid : Asid) (msg : Byte → Instr) : Tells s (s.tellMembers asid msg) :=
  tells_foldl (fun t m => tells_sendTo t _ m _) _ s

theorem tells_sendToken (s : State) (g : Group) (m : GMember) (away : Bool) : Tells s (s.sendToken g m away) := by
  unfold State.sendToken
  dsimp only
  split
  · exact tells_refl s
  · split
    · exact tells_tellMembers s _ _
    · exact tells_sendTo s _ _ _

theorem tells_openTokens (s : State) (g : Group) : Tells s (s.openTokens g) := by
  unfold State.openTokens
  split
  · exact tells_refl s
  · exact tells_foldl (fun t m => tells_sendToken t _ m true) _ s

theorem tells_tellCeased (s : State) (g : Group) (h : HallId) : Tells s (s.tellCeased g h) := by
  unfold State.tellCeased
  split
  · exact tells_tellMembers s _ _
  · exact tells_refl s

/-! A change of one group. -/

theorem regroups_onGroup (s : State) (asid : Asid) (gid : Nat) (f : Group → Group) : Regroups s (s.onGroup asid gid f) := rfl

/-- A completed phase opens the next and tells of it. -/
theorem completePhase_opens {s : State} {asid : Asid} {gid : Nat} {g : Group} (hg : s.group asid gid = some g)
    (h : (g.home && g.expected ≤ g.arrivals) = true) :
    Tells (s.onGroup asid gid Group.openNext) (s.completePhase asid gid) := by
  unfold State.completePhase
  rw [hg]
  dsimp only
  rw [if_pos h]
  split
  · exact tells_trans (tells_tellMembers _ _ _) (tells_openTokens _ _)
  · exact tells_refl _

theorem completePhase_stays {s : State} {asid : Asid} {gid : Nat} (h : ∀ g, s.group asid gid = some g → (g.home && g.expected ≤ g.arrivals) = false) :
    s.completePhase asid gid = s := by
  unfold State.completePhase
  split
  · rfl
  · next g hg => exact if_neg (Bool.not_eq_true _ ▸ h g hg)

/-- A group completes its phase, or stays as it is. -/
theorem completePhase_cases (s : State) (asid : Asid) (gid : Nat) :
    s.completePhase asid gid = s ∨ Tells (s.onGroup asid gid Group.openNext) (s.completePhase asid gid) := by
  cases hg : s.group asid gid with
  | none => exact .inl (completePhase_stays fun g h => absurd (hg.symm.trans h) nofun)
  | some g =>
    cases h : (g.home && decide (g.expected ≤ g.arrivals)) with
    | true => exact .inr (completePhase_opens hg h)
    | false => exact .inl (completePhase_stays fun x hx => Option.some.inj (hg.symm.trans hx) ▸ h)

theorem regroups_completePhase (s : State) (asid : Asid) (gid : Nat) : Regroups s (s.completePhase asid gid) := by
  obtain h | h := completePhase_cases s asid gid
  · rw [h]
    rfl
  · exact regroups_trans (regroups_onGroup s asid gid _) (regroups_of_tells h)

theorem regroups_settleGroup (s : State) (asid : Asid) (gid : Nat) : Regroups s (s.settleGroup asid gid) :=
  regroups_trans (regroups_completePhase s asid gid) (regroups_completePhase _ asid gid)

/-! The group of a context and an identifier. -/

theorem group_congr {s t : State} (h : t.groups = s.groups) (asid : Asid) (gid : Nat) : t.group asid gid = s.group asid gid :=
  congrArg (List.find? _) h

theorem group_id {s : State} {asid : Asid} {gid : Nat} {g : Group} (h : s.group asid gid = some g) : g.asid = asid ∧ g.gid = gid := by
  have hp := List.find?_some h
  simpa only [Bool.and_eq_true, beq_iff_eq] using hp

/-- A group put last, in the place of any of its identifier. -/
theorem group_put {s : State} {asid : Asid} {gid : Nat} {g : Group} (ha : g.asid = asid) (hi : g.gid = gid) :
    State.group { s with groups := s.groups.filter (fun (x : Group) => !(x.asid == asid && x.gid == gid)) ++ [g] } asid gid = some g := by
  have hnone : (s.groups.filter (fun (x : Group) => !(x.asid == asid && x.gid == gid))).find? (fun g => g.asid == asid && g.gid == gid) = none :=
    List.find?_eq_none.2 fun x hx => by simpa [← not_and_or] using (List.mem_filter.1 hx).2
  unfold State.group
  rw [List.find?_append, hnone, ha.symm, hi.symm]
  simp

theorem find_map_filter {α : Type} (p q : α → Bool) (f : α → α) {a : α} (xs : List α) (ha : xs.find? p = some a) (hf : p (f a) = true)
    (hq : q (f a) = true) :
    ((xs.map fun x => if p x = true then f x else x).filter q).find? p = some (f a) := by
  induction xs with
  | nil => exact absurd ha nofun
  | cons x xs ih =>
    rw [List.map_cons]
    by_cases hx : p x = true
    · rw [List.find?_cons_of_pos hx] at ha
      obtain rfl := Option.some.inj ha
      rw [if_pos hx, List.filter_cons_of_pos hq, List.find?_cons_of_pos hf]
    · rw [List.find?_cons_of_neg hx] at ha
      rw [if_neg hx, List.filter_cons]
      split
      · rw [List.find?_cons_of_neg hx]
        exact ih ha
      · exact ih ha

/-- What becomes of a group that keeps a member. -/
theorem group_onGroup {s : State} {asid : Asid} {gid : Nat} {f : Group → Group} {g : Group} (hg : s.group asid gid = some g)
    (ha : (f g).asid = g.asid) (hi : (f g).gid = g.gid) (hm : (f g).members ≠ []) : (s.onGroup asid gid f).group asid gid = some (f g) := by
  obtain ⟨hasid, hgid⟩ := group_id hg
  have hkept : (!(f g).members.isEmpty || !(f g).home) = true := by
    rw [List.isEmpty_eq_false_iff.2 hm]
    rfl
  have hmap : (fun x : Group => if x.asid = asid ∧ x.gid = gid then f x else x) = fun x => if (x.asid == asid && x.gid == gid) = true then f x else x := by
    simp only [Bool.and_eq_true, beq_iff_eq]
  unfold State.group State.onGroup
  rw [hmap]
  exact find_map_filter _ _ f s.groups hg (by simp [ha, hi, hasid, hgid]) hkept

/-- Every group of a context and an identifier. -/
def EveryGroup (asid : Asid) (gid : Nat) (P : Group → Prop) (s : State) : Prop := ∀ g ∈ s.groups, g.asid = asid → g.gid = gid → P g

theorem everyGroup_group {asid : Asid} {gid : Nat} {P : Group → Prop} {s : State} {g : Group} (h : EveryGroup asid gid P s)
    (hg : s.group asid gid = some g) : P g :=
  h g (List.mem_of_find?_eq_some hg) (group_id hg).1 (group_id hg).2

theorem everyGroup_tells {asid : Asid} {gid : Nat} {P : Group → Prop} {s t : State} (h : EveryGroup asid gid P s) (a : Tells s t) :
    EveryGroup asid gid P t :=
  fun g hg => h g (tells_groups a ▸ hg)

theorem everyGroup_onGroup {asid : Asid} {gid : Nat} {P Q : Group → Prop} {s : State} {f : Group → Group} (h : EveryGroup asid gid P s)
    (hf : ∀ g, P g → Q (f g)) :
    EveryGroup asid gid Q (s.onGroup asid gid f) := by
  intro g hg ha hi
  obtain ⟨x, hx, rfl⟩ := List.mem_map.1 (List.mem_filter.1 hg).1
  by_cases hid : x.asid = asid ∧ x.gid = gid
  · rw [if_pos hid]
    exact hf x (h x hx hid.1 hid.2)
  · rw [if_neg hid] at ha hi
    exact absurd ⟨ha, hi⟩ hid

theorem everyGroup_settleGroup {asid : Asid} {gid : Nat} {P : Group → Prop} {s : State} (h : EveryGroup asid gid P s) (hf : ∀ g, P g → P g.openNext) :
    EveryGroup asid gid P (s.settleGroup asid gid) := by
  have hstep (t : State) (ht : EveryGroup asid gid P t) : EveryGroup asid gid P (t.completePhase asid gid) := by
    obtain e | e := completePhase_cases t asid gid
    · rw [e]
      exact ht
    · exact everyGroup_tells (everyGroup_onGroup ht hf) e
  exact hstep _ (hstep s h)

/-! Arrivals, and phases that complete. -/

theorem arrive_members (g : Group) (m : GMember) (c : Clock) : (g.arrive m c).members.length = g.members.length := List.length_replace

theorem ne_nil_of_length {α : Type} {xs ys : List α} (h : xs.length = ys.length) (hy : ys ≠ []) : xs ≠ [] :=
  List.ne_nil_of_length_pos (h ▸ List.length_pos_of_ne_nil hy)

/-- A group whose phase completes if it can (R145). -/
def afterPhase (g : Group) : Group := if (g.home && decide (g.expected ≤ g.arrivals)) = true then g.openNext else g

theorem afterPhase_stays {g : Group} (h : g.arrivals < g.expected) : afterPhase g = g :=
  if_neg (by rw [decide_eq_false (Nat.not_le.2 h), Bool.and_false]; exact Bool.false_ne_true)

theorem afterPhase_opens {g : Group} (hhome : g.home = true) (h : g.expected ≤ g.arrivals) : afterPhase g = g.openNext :=
  if_pos (by rw [hhome, decide_eq_true h]; rfl)

theorem afterPhase_members (g : Group) : (afterPhase g).members.length = g.members.length := by
  unfold afterPhase
  split
  · exact List.length_map _
  · rfl

theorem afterPhase_phase (g : Group) : g.phase ≤ (afterPhase g).phase := by
  unfold afterPhase
  split
  · exact Nat.le_succ _
  · exact Nat.le_refl _

/-- A group that can complete its phase goes on; none loses a member by it. -/
theorem completePhase_group {s : State} {asid : Asid} {gid : Nat} {g : Group} (hg : s.group asid gid = some g) (hm : g.members ≠ []) :
    (s.completePhase asid gid).group asid gid = some (afterPhase g) := by
  unfold afterPhase
  split
  · next h =>
    have hlen : g.openNext.members.length = g.members.length := List.length_map _
    exact (group_congr (tells_groups (completePhase_opens hg h)) asid gid).trans (group_onGroup (f := Group.openNext) hg rfl rfl (ne_nil_of_length hlen hm))
  · next h =>
    rw [completePhase_stays fun x hx => Option.some.inj (hg.symm.trans hx) ▸ Bool.eq_false_iff.2 h]
    exact hg

theorem settleGroup_group {s : State} {asid : Asid} {gid : Nat} {g : Group} (hg : s.group asid gid = some g) (hm : g.members ≠ []) :
    (s.settleGroup asid gid).group asid gid = some (afterPhase (afterPhase g)) :=
  completePhase_group (completePhase_group hg hm) (ne_nil_of_length (afterPhase_members g) hm)

end Sys2Proof.Proofs
end


section
/-! Groups and barriers (R143 to R146). -/

namespace Sys2Proof.Proofs
open Sys2Proof.Machine Sys2Proof.Spec Sys2Proof.Laws

/-- A syllable that issues and changes nothing of its strand, its tiles or memory. -/
theorem quiet_aside_issue {s t : State} (a : Aside s t) : Spec.Quiet s t.issue := by
  have h := quiet_of_aside (f := fun y => y) a (sameRegs_refl s.me)
  rwa [show t.onMe (fun y => y) = t from onStrand_id t _ _] at h

theorem aside_of_regroups {s t : State} (a : Regroups s t) : Aside s t := aside_of_near (near_of_regroups a)

theorem membership_running {s : State} {sl : Slice} (h : s.here.slice = some sl) (gid : Nat) :
    s.membership gid = sl.groups.find? fun m => m.gid == gid := by
  unfold State.membership
  rw [h]

/-! Joins. -/

/-- What a join lands: the destination's slot with its data, as its strand's newest (R143). -/
structure JoinLands (s t : State) (d : BitVec 6) (land : BitVec 12) (n : Word) : Prop where
  issued : t.issued = true
  slot : ∃ x, t.me.slots = s.me.slots ++ [x] ∧ x.due = s.me.local_ + land.toNat ∧ x.dests = [.s d.toNat] ∧ x.data = some [.sreg d.toNat n]
  regs : t.me.s = s.me.s
  memory : SameMemory s t

theorem claim_lands (s : State) (req : Req) (dests : List Src) (land : BitVec 12) (arr : Option Nat) (data : Option (List Upd)) :
    (∃ x, (s.claim req dests land 0 [] arr data).me.slots = s.me.slots ++ [x] ∧ x.due = s.me.local_ + land.toNat ∧ x.dests = dests ∧ x.data = data) ∧
      (s.claim req dests land 0 [] arr data).me.s = s.me.s := by
  change (∃ x, (s.onMe _).me.slots = _ ∧ _) ∧ (s.onMe _).me.s = _
  rw [me_onMe]
  exact ⟨⟨_, rfl, rfl, rfl, rfl⟩, rfl⟩

theorem joined_lands {s t : State} (a : Aside s t) (sc : Scope) (d : BitVec 6) (gid : Nat) (land : BitVec 12) (n : Word) :
    JoinLands s (t.joined sc d gid land n) d land n ∧ (t.joined sc d gid land n).groups = t.groups := by
  have ha : Aside s (t.drawDelay.2.onSlice fun sl => { sl with groups := sl.groups ++ [{ gid := gid, last := none }] }) :=
    aside_trans (aside_trans a (aside_of_near (near_drawDelay t))) (aside_onSlice _ _)
  obtain ⟨hslot, hs⟩ := claim_lands (t.drawDelay.2.onSlice fun sl => { sl with groups := sl.groups ++ [{ gid := gid, last := none }] })
    (.gjoin d.toNat gid sc) [.s d.toNat] land (some (t.drawDelay.2.here.cycle + 1 + t.drawDelay.1)) (some [.sreg d.toNat n])
  rw [me_of_aside ha] at hslot hs
  exact ⟨⟨rfl, hslot, hs, (onStrandOnly_issue (onMe_of_aside ha _)).memory⟩, rfl⟩

/-- The group that a join makes of the one that the module has, or of a fresh one. -/
def joinedGroup (s : State) (sl : Slice) (g : Group) : Group := g.join sl.id (s.selfIndex s.asid) s.curHall g.firstPhase

/-- A module's groups with one put in its place. -/
def putGroup (s : State) (asid : Asid) (gid : Nat) (g : Group) : State :=
  { s with groups := s.groups.filter (fun (x : Group) => !(x.asid == asid && x.gid == gid)) ++ [g] }

theorem regroups_putGroup (s : State) (asid : Asid) (gid : Nat) (g : Group) : Regroups s (putGroup s asid gid g) := rfl

theorem joinedGroup_member (s : State) (sl : Slice) (g : Group) :
    (joinedGroup s sl g).members.length = g.members.length + 1 ∧
      ∃ m ∈ (joinedGroup s sl g).members, m.slice = sl.id ∧ m.hall = s.curHall ∧ m.arrived = false :=
  ⟨List.length_append, _, List.mem_append_right _ (List.mem_singleton_self _), rfl, rfl, rfl⟩

theorem joinHere_joins {s : State} {sl : Slice} {gid : Nat} {g : Group} (hsl : s.here.slice = some sl) (sc : Scope) (d : BitVec 6) (land : BitVec 12)
    (hg : (s.group s.asid gid).getD (Group.fresh s.asid gid sc s.curHall) = g) (ha : g.asid = s.asid) (hi : g.gid = gid) :
    JoinLands s (s.joinHere sc d gid land) d land (BitVec.ofNat 64 (joinedGroup s sl g).members.length) ∧
      (s.joinHere sc d gid land).group s.asid gid = some (joinedGroup s sl g) := by
  have hstep : s.joinHere sc d gid land =
      (putGroup s s.asid gid (joinedGroup s sl g)).joined sc d gid land (BitVec.ofNat 64 (joinedGroup s sl g).members.length) := by
    unfold State.joinHere
    rw [hsl, ← hg]
    rfl
  obtain ⟨hlands, hgroups⟩ := joined_lands (aside_of_regroups (regroups_putGroup s s.asid gid (joinedGroup s sl g))) sc d gid land
    (BitVec.ofNat 64 (joinedGroup s sl g).members.length)
  rw [hstep]
  exact ⟨hlands, (group_congr hgroups _ _).trans (group_put ha hi)⟩

theorem joinAway_joins {s : State} {sl : Slice} {gid : Nat} {g : Group} (hsl : s.here.slice = some sl) (sc : Scope) (d : BitVec 6) (land : BitVec 12)
    (k : Nat)
    (hg : s.group s.asid gid = some g) :
    ∃ v, JoinLands s (s.joinAway sc d gid land k) d land
        (BitVec.ofNat 64 ((joinedGroup s sl g).members.filter fun m => m.index == s.selfIndex s.asid).length + v) ∧
      (s.joinAway sc d gid land k).group s.asid gid = some (joinedGroup s sl g) := by
  obtain ⟨ha, hi⟩ := group_id hg
  obtain ⟨t, v, hstep, ht⟩ : ∃ t v, s.joinAway sc d gid land k = State.joined { t with free := t.free + 1 } sc d gid land
      (BitVec.ofNat 64 ((joinedGroup s sl g).members.filter fun m => m.index == s.selfIndex s.asid).length + v) ∧
      Tells (putGroup s s.asid gid (joinedGroup s sl g)) t := by
    unfold State.joinAway
    rw [hsl, hg]
    exact ⟨_, _, rfl, tells_sendTo _ _ _ _⟩
  have hregroups := regroups_trans (regroups_putGroup s s.asid gid (joinedGroup s sl g)) (regroups_of_tells ht)
  have hput : t.groups = (putGroup s s.asid gid (joinedGroup s sl g)).groups := tells_groups ht
  obtain ⟨hlands, hgroups⟩ := joined_lands (aside_trans (aside_of_regroups hregroups) (aside_of_near (near_drawDelay t))) sc d gid land
    (BitVec.ofNat 64 ((joinedGroup s sl g).members.filter fun m => m.index == s.selfIndex s.asid).length + v)
  rw [hstep]
  exact ⟨v, hlands, (group_congr (hgroups.trans hput) _ _).trans (group_put ha hi)⟩

/-- A GJOIN whose register can be read, by a member or by another slice. -/
theorem exec_gjoin_member {s : State} {a : BitVec 6} (sc : Scope) (d : BitVec 6) (land : BitVec 12) (hd : s.depth = 0) (hr : Readable s [.s a.toNat])
    (hm : (s.membership (s.gid a)).isSome = true) : exec (.gjoin sc d a land) s = .next (s.trapHere (prot 0x01)) := by
  change execGjoin sc d a land s = _
  unfold execGjoin
  rw [outsideRegions_of_depth hd, readingWhen_readable s _ _ _ hr]
  exact congrArg _ (if_pos (.inl hm))

theorem exec_gjoin {s : State} {sl : Slice} {a : BitVec 6} (sc : Scope) (d : BitVec 6) (land : BitVec 12) (hd : s.depth = 0) (hr : Readable s [.s a.toNat])
    (hsl : s.here.slice = some sl) (hm : s.membership (s.gid a) = none) (hn : sl.groups.length < 16) (hslot : SlotFree s) :
    ((∀ g, s.group s.asid (s.gid a) = some g → g.scope = sc ∧ g.admits s.curHall = true ∧ g.home = true) →
      (s.group s.asid (s.gid a) = none → sc = .fabric → s.peers s.asid = []) →
      exec (.gjoin sc d a land) s = .next (s.joinHere sc d (s.gid a) land)) ∧
    (∀ g, s.group s.asid (s.gid a) = some g → g.home = false → g.scope = .fabric → sc = .fabric →
      exec (.gjoin sc d a land) s = .next (s.joinAway sc d (s.gid a) land g.homeAt)) := by
  change (_ → _ → execGjoin sc d a land s = _) ∧ (∀ g, _ → _ → _ → _ → execGjoin sc d a land s = _)
  unfold execGjoin
  rw [outsideRegions_of_depth hd, readingWhen_readable s _ _ _ hr]
  dsimp only
  rw [hm, hsl]
  dsimp only
  rw [if_neg (by simpa using hn), withSlot_free hslot]
  constructor
  · intro hhome hnone
    cases hg : s.group s.asid (s.gid a) with
    | some g =>
      obtain ⟨hscope, hadmits, hhere⟩ := hhome g hg
      simp [hscope, hadmits, hhere]
    | none => simp +contextual [hnone hg]
  · intro g hg hhome hscope hsc
    rw [hg]
    simp [hscope, hsc, hhome, Group.admits]

/-! Leaves. -/

/-- No member of the group is a slice of this module. -/
def Without (self slice : Nat) (h : HallId) (g : Group) : Prop := ∀ m ∈ g.members, m.is self slice self h = false

theorem without_openNext {self slice : Nat} {h : HallId} {g : Group} (w : Without self slice h g) : Without self slice h g.openNext := by
  intro m hm
  obtain ⟨x, hx, rfl⟩ := List.mem_map.1 hm
  have hwas := w x hx
  split
  · exact hwas
  · exact hwas

/-- The slice is a member once at most: none is left of it when that member has left. -/
theorem without_leave {self slice : Nat} {h : HallId} {g : Group} {m : GMember} (hm : g.mine self slice h = some m)
    (honce : (g.members.filter fun m => m.is self slice self h).length ≤ 1) : Without self slice h (g.leave m) := by
  have hin : m ∈ g.members := List.mem_of_find?_eq_some hm
  have hself : m.is self slice self h = true := List.find?_some (p := fun m : GMember => m.is self slice self h) hm
  have hlen := ((List.perm_cons_erase hin).filter fun m => m.is self slice self h).length_eq
  rw [List.filter_cons_of_pos (p := fun m : GMember => m.is self slice self h) hself, List.length_cons] at hlen
  have hempty : (g.members.erase m).filter (fun m => m.is self slice self h) = [] := List.length_eq_zero_iff.1 (by omega)
  exact fun x hx => Bool.eq_false_iff.2 (List.filter_eq_nil_iff.1 hempty x hx)

theorem everyGroup_of_once {s : State} {asid : Asid} {gid : Nat} {g : Group} (hg : s.group asid gid = some g)
    (honce : (s.groups.filter fun g => g.asid == asid && g.gid == gid).length ≤ 1) : EveryGroup asid gid (· = g) s := by
  intro x hx ha hi
  obtain ⟨hasid, hgid⟩ := group_id hg
  have hmem : ∀ y ∈ s.groups, y.asid = asid → y.gid = gid → y ∈ s.groups.filter fun g => g.asid == asid && g.gid == gid :=
    fun y hy h1 h2 => List.mem_filter.2 ⟨hy, by rw [h1, h2]; simp⟩
  match hf : s.groups.filter (fun g => g.asid == asid && g.gid == gid) with
  | [] => exact absurd (hf ▸ hmem x hx ha hi) List.not_mem_nil
  | [y] =>
    have h1 := List.mem_singleton.1 (hf ▸ hmem x hx ha hi)
    have h2 := List.mem_singleton.1 (hf ▸ hmem g (List.mem_of_find?_eq_some hg) hasid hgid)
    exact h1.trans h2.symm
  | _ :: _ :: _ =>
    rw [hf] at honce
    exact absurd honce (by simp)

theorem leaveGroup_leaves (s : State) (asid : Asid) (slice : Nat) (h : HallId) (gid : Nat)
    (honce : (s.groups.filter fun g => g.asid == asid && g.gid == gid).length ≤ 1)
    (hmember : ∀ g, s.group asid gid = some g → (g.members.filter fun m => m.is (s.selfIndex asid) slice (s.selfIndex asid) h).length ≤ 1) :
    Regroups s (s.leaveGroup asid slice h gid) ∧
      ∀ g, (s.leaveGroup asid slice h gid).group asid gid = some g → Without (s.selfIndex asid) slice h g := by
  unfold State.leaveGroup
  split
  · next hnone => exact ⟨rfl, fun g hg => absurd (hnone.symm.trans hg) nofun⟩
  · next g hg =>
    split
    · next hmine =>
      refine ⟨rfl, fun x hx m hm => ?_⟩
      obtain rfl := Option.some.inj (hg.symm.trans hx)
      exact Bool.eq_false_iff.2 (List.find?_eq_none.1 hmine m hm)
    · next m hmine =>
      dsimp only
      have htoken : Tells s (if (m.absent && g.owes m) = true then s.sendToken g m false else s) := by
        split
        · exact tells_sendToken s g m false
        · exact tells_refl s
      generalize (if (m.absent && g.owes m) = true then s.sendToken g m false else s) = t at *
      generalize hu : (if g.home = true then t else t.sendTo (t.partOf asid) g.homeAt _) = u
      have htold : Tells s u := by
        rw [← hu]
        split
        · exact htoken
        · exact tells_trans htoken (tells_sendTo _ _ _ _)
      have hevery : EveryGroup asid gid (Without (s.selfIndex asid) slice h) (u.onGroup asid gid fun g => g.leave m) :=
        everyGroup_onGroup (everyGroup_tells (everyGroup_of_once hg honce) htold) fun x hx => hx ▸ without_leave hmine (hmember g hg)
      refine ⟨?_, fun x hx => everyGroup_group (everyGroup_tells (everyGroup_settleGroup hevery fun _ => without_openNext) (tells_tellCeased _ g h)) hx⟩
      exact regroups_trans (regroups_trans (regroups_of_tells htold) (regroups_onGroup u asid gid _))
        (regroups_trans (regroups_settleGroup _ asid gid) (regroups_of_tells (tells_tellCeased _ g h)))

theorem exec_gleave {s : State} {a : BitVec 6} (hd : s.depth = 0) (hr : Readable s [.s a.toNat]) :
    (∀ sl, s.here.slice = some sl → (s.membership (s.gid a)).isSome = true →
      exec (.gleave a) s = .next ((s.leaveGroup s.asid sl.id s.curHall (s.gid a)).onSlice fun sl =>
        { sl with groups := sl.groups.filter fun m => m.gid != s.gid a }).issue) ∧
    (s.membership (s.gid a) = none → exec (.gleave a) s = .next (s.trapHere (prot 0x01))) := by
  change (∀ sl, _ → _ → execGleave a s = _) ∧ (_ → execGleave a s = _)
  unfold execGleave
  rw [outsideRegions_of_depth hd, reading_readable s _ _ hr]
  dsimp only
  refine ⟨fun sl hsl hm => ?_, fun hm => ?_⟩
  · obtain ⟨m, hm⟩ := Option.isSome_iff_exists.1 hm
    rw [hm, hsl]
  · rw [hm]

theorem gleave_leaves {s : State} {sl : Slice} {a : BitVec 6} (hsl : s.here.slice = some sl) (hd : s.depth = 0) (hr : Readable s [.s a.toNat])
    (hm : (s.membership (s.gid a)).isSome = true) (honce : (s.groups.filter fun g => g.asid == s.asid && g.gid == s.gid a).length ≤ 1)
    (hmember : ∀ g, s.group s.asid (s.gid a) = some g →
      (g.members.filter fun m => m.is (s.selfIndex s.asid) sl.id (s.selfIndex s.asid) s.curHall).length ≤ 1) :
    ∃ t, exec (.gleave a) s = .next t ∧ Spec.Quiet s t ∧ t.here.slice = some { sl with groups := sl.groups.filter fun m => m.gid != s.gid a } ∧
      ∀ g, t.group s.asid (s.gid a) = some g → Without (s.selfIndex s.asid) sl.id s.curHall g := by
  obtain ⟨hleft, hwithout⟩ := leaveGroup_leaves s s.asid sl.id s.curHall (s.gid a) honce hmember
  have haside := aside_of_regroups hleft
  refine ⟨_, (exec_gleave hd hr).1 sl hsl hm, quiet_aside_issue (aside_trans haside (aside_onSlice _ _)), ?_, hwithout⟩
  have hslice : (s.leaveGroup s.asid sl.id s.curHall (s.gid a)).here.slice = some sl := (congrArg Hall.slice (near_of_regroups hleft).here).trans hsl
  exact (congrArg Hall.slice (here_onSlice _ _)).trans (congrArg (Option.map _) hslice)

theorem groupMembership : GroupMembership := by
  intro s sl a hsl hd hr gid mine
  have hmine : s.membership (s.gid a) = mine := membership_running hsl _
  refine ⟨fun sc d land hnone hn hslot hhome hpeers => ?_, fun g d land hnone hn hslot hg hhome hscope => ?_, fun hmem hu sc d land => ?_,
    fun hmem honce hmember => gleave_leaves hsl hd hr (Option.isSome_iff_ne_none.2 (hmine ▸ hmem)) honce hmember, fun hnone hu => ?_⟩
  · have hexec := (exec_gjoin sc d land hd hr hsl (hmine.trans hnone) hn hslot).1 hhome hpeers
    obtain ⟨g, hg, ha, hi, hsc, hlen⟩ : ∃ g, (s.group s.asid gid).getD (Group.fresh s.asid gid sc s.curHall) = g ∧ g.asid = s.asid ∧ g.gid = gid ∧
      g.scope = sc ∧
        g.members.length = match s.group s.asid gid with | some g => g.members.length | none => 0 := by
      cases hg : s.group s.asid gid with
      | none => exact ⟨_, rfl, rfl, rfl, rfl, rfl⟩
      | some g => exact ⟨g, rfl, (group_id hg).1, (group_id hg).2, (hhome g hg).1, rfl⟩
    obtain ⟨⟨hissued, ⟨x, hslots, hdue, hdests, hdata⟩, hregs, hmemory⟩, hgroup⟩ := joinHere_joins hsl sc d land hg ha hi
    obtain ⟨hmembers, hnewest⟩ := joinedGroup_member s sl g
    exact ⟨_, joinedGroup s sl g, x, hexec, hissued, hgroup, hsc, hmembers.trans (congrArg (· + 1) hlen), hnewest,
      hslots, hdue, hdests, hdata, hregs, hmemory⟩
  · have hexec := (exec_gjoin .fabric d land hd hr hsl (hmine.trans hnone) hn hslot).2 g hg hhome hscope rfl
    obtain ⟨v, ⟨hissued, ⟨x, hslots, hdue, hdests, hdata⟩, hregs, hmemory⟩, hgroup⟩ := joinAway_joins hsl .fabric d land g.homeAt hg
    exact ⟨_, joinedGroup s sl g, x, v, hexec, hissued, hgroup, hhome, (joinedGroup_member s sl g).1, hslots, hdue, hdests, hdata, hregs, hmemory⟩
  · exact ⟨_, exec_gjoin_member sc d land hd hr (Option.isSome_iff_ne_none.2 (hmine ▸ hmem)), trapHere_traps s _ hu⟩
  · exact ⟨_, (exec_gleave hd hr).2 (hmine.trans hnone), trapHere_traps s _ hu⟩

/-! Arrivals. -/

theorem asid_onSlice (s : State) {f : Slice → Slice} (hf : ∀ sl, (f sl).asid = sl.asid) : (s.onSlice f).asid = s.asid := by
  unfold State.asid
  rw [here_onSlice]
  change (match s.here.slice.map f with | some sl => sl.asid | none => 0) = _
  cases s.here.slice with
  | none => rfl
  | some sl => exact hf sl

theorem asMember_some {s : State} {gid : Nat} {g : Group} {m : GMember} (h : s.asMember gid = some (g, m)) :
    ∃ sl, s.here.slice = some sl ∧ s.group s.asid gid = some g ∧ m ∈ g.members := by
  unfold State.asMember at h
  split at h
  · next sl x hsl hx =>
    obtain ⟨y, hy, hpair⟩ := Option.map_eq_some_iff.1 h
    obtain ⟨rfl, rfl⟩ := Prod.mk.inj hpair
    exact ⟨sl, hsl, hx, List.mem_of_find?_eq_some hy⟩
  · exact absurd h nofun

/-- An arrival is recorded in its group, which settles at its home; elsewhere the home is told (R145). -/
theorem recordArrival_records {s : State} {gid : Nat} {g : Group} {m : GMember} (h : s.asMember gid = some (g, m)) :
    Aside s (s.recordArrival gid) ∧
      ∃ u, u.group s.asid gid = some (g.arrive m s.known) ∧
        (g.home = true → s.recordArrival gid = u.settleGroup s.asid gid) ∧ (g.home = false → Tells u (s.recordArrival gid)) := by
  obtain ⟨sl, hsl, hg, hin⟩ := asMember_some h
  let onto : Slice → Slice := fun sl =>
    { sl with groups := sl.groups.map fun e => if e.gid = gid then { e with last := some (max g.phase m.from_) } else e }
  let u : State := (s.onSlice onto).onGroup s.asid gid fun g => g.arrive m s.known
  have hasid : (s.onSlice onto).asid = s.asid := asid_onSlice s fun _ => rfl
  have hu : u.group s.asid gid = some (g.arrive m s.known) :=
    group_onGroup (s := s.onSlice onto) (f := fun g => g.arrive m s.known) hg rfl rfl (ne_nil_of_length (arrive_members g m _) (List.ne_nil_of_mem hin))
  have hstep : s.recordArrival gid = if g.home then u.settleGroup s.asid gid
      else u.sendTo u.partId g.homeAt (.barrierArrival (BitVec.ofNat 8 (u.selfIndex u.asid)) m.hall u.asid (BitVec.ofNat 12 gid)
        (BitVec.ofNat 32 (max g.phase m.from_))) := by
    unfold State.recordArrival
    rw [h, hsl]
    dsimp only
    change (if g.home = true then ((s.onSlice onto).onGroup (s.onSlice onto).asid gid fun g => g.arrive m s.known).settleGroup (s.onSlice onto).asid gid
      else _) = _
    rw [hasid]
  have haside : Aside s u := aside_trans (aside_onSlice s onto) (aside_of_regroups (regroups_onGroup _ _ _ _))
  cases hhome : g.home with
  | true =>
    rw [hhome, if_pos rfl] at hstep
    exact ⟨hstep ▸ aside_trans haside (aside_of_regroups (regroups_settleGroup u s.asid gid)), u, hu, fun _ => hstep, nofun⟩
  | false =>
    rw [hhome, if_neg Bool.false_ne_true] at hstep
    have htell := tells_sendTo u u.partId g.homeAt (.barrierArrival (BitVec.ofNat 8 (u.selfIndex u.asid)) m.hall u.asid (BitVec.ofNat 12 gid)
      (BitVec.ofNat 32 (max g.phase m.from_)))
    rw [← hstep] at htell
    exact ⟨aside_trans haside (aside_of_regroups (regroups_of_tells htell)), u, hu, nofun, fun _ => htell⟩

theorem arriving_member {s : State} {gid : Nat} {g : Group} {m : GMember} (k : State → State) (h : s.asMember gid = some (g, m)) (hm : m.arrived = false)
    (hdone : s.me.wait.pub = .done) : s.arriving gid k = k (s.recordArrival gid) := by
  unfold State.arriving
  rw [h]
  dsimp only
  rw [hm, if_neg Bool.false_ne_true, publishing_done _ _ hdone]

theorem arriving_overrun {s : State} {gid : Nat} (k : State → State) (h : ∀ g m, s.asMember gid = some (g, m) → m.arrived = true) :
    s.arriving gid k = s.trapCause .BAR_OVERRUN := by
  unfold State.arriving
  split
  · rfl
  · next g m hm => exact if_pos (h g m hm)

theorem exec_barArrive {s : State} {a : BitVec 6} (hd : s.depth = 0) (hr : Readable s [.s a.toNat]) :
    exec (.barArrive a) s = .next (s.arriving (s.gid a) fun s => s.clearWait.issue) := by
  change execBarArrive a s = _
  unfold execBarArrive
  rw [outsideRegions_of_depth hd, reading_readable s _ _ hr]

theorem exec_barSync {s : State} {a : BitVec 6} (hd : s.depth = 0) (hr : Readable s [.s a.toNat]) :
    (s.me.wait.arrived = true → exec (.barSync a) s = .next (s.barWaiting (s.gid a))) ∧
    (s.me.wait.arrived = false → ∃ k, exec (.barSync a) s = .next (s.arriving (s.gid a) k)) := by
  change (_ → execBarSync a s = _) ∧ (_ → ∃ k, execBarSync a s = _)
  unfold execBarSync
  rw [outsideRegions_of_depth hd, reading_readable s _ _ hr]
  exact ⟨fun h => congrArg _ (if_pos h), fun h => ⟨_, congrArg _ (if_neg (h ▸ Bool.false_ne_true))⟩⟩

theorem barArrive_quiet {s : State} {a : BitVec 6} {g : Group} {m : GMember} (hd : s.depth = 0) (hr : Readable s [.s a.toNat])
    (h : s.asMember (s.gid a) = some (g, m)) (hm : m.arrived = false) (hdone : s.me.wait.pub = .done) :
    exec (.barArrive a) s = .next (s.recordArrival (s.gid a)).clearWait.issue ∧ Spec.Quiet s (s.recordArrival (s.gid a)).clearWait.issue :=
  ⟨(exec_barArrive hd hr).trans (congrArg _ (arriving_member _ h hm hdone)), quiet_of_aside (recordArrival_records h).1 (sameRegs_wait _ _)⟩

/-! Waits. -/

/-- A barrier's wait that goes on freezes its strand (R147). -/
theorem barHold_freezes (s : State) (gid : Nat) :
    (s.barHold gid).issued = false ∧ (s.barHold gid).me.frozen = true ∧ SameRegs s.me (s.barHold gid).me ∧ SameMemory s (s.barHold gid) := by
  obtain ⟨w, hw⟩ : ∃ w : StrandState → Wait, s.barHold gid = (s.onMe fun x => { x with wait := w x }).freeze := ⟨_, rfl⟩
  obtain ⟨hissued, -, hme, -, hmemory⟩ := freeze_freezes (s.onMe fun x => { x with wait := w x })
  rw [me_onMe] at hme
  rw [hw, hme]
  exact ⟨hissued, rfl, ⟨rfl, rfl, rfl, rfl, rfl, rfl, rfl, rfl, rfl, rfl⟩, sameMemory_trans (onMe_of_aside (aside_refl s) _).memory hmemory⟩

/-- The phase of a slice's last arrival that has not completed holds up its wait. -/
theorem barWaiting_pending {s : State} {gid : Nat} {g : Group} {m : Member} {ph : Nat} (hg : s.group s.asid gid = some g) (hm : s.membership gid = some m)
    (hlast : m.last = some ph) (h : g.phase ≤ ph) : s.barWaiting gid = s.barHold gid := by
  have hpending : s.phaseDone gid = false := by
    unfold State.phaseDone
    rw [hm, hg]
    dsimp only
    rw [hlast]
    exact decide_eq_false (Nat.not_lt.2 h)
  unfold State.barWaiting
  rw [hpending, if_neg Bool.false_ne_true]

theorem barWaiting_alone {s : State} {gid : Nat} (hg : s.group s.asid gid = none) : s.barWaiting gid = s.clearWait.issue := by
  have hdone : s.phaseDone gid = true := by
    unfold State.phaseDone
    rw [hg]
    cases s.membership gid <;> rfl
  unfold State.barWaiting
  rw [hdone, if_pos rfl, hg]

theorem barWaiting_completed {s : State} {gid : Nat} {g : Group} (hg : s.group s.asid gid = some g)
    (h : ∀ m ph, s.membership gid = some m → m.last = some ph → ph < g.phase) :
    s.barWaiting gid = (s.onMe fun x => { x with clock := Clock.join x.clock g.prev }).renewing g.scope fun s => s.clearWait.issue := by
  have hdone : s.phaseDone gid = true := by
    unfold State.phaseDone
    split
    · next m x hm hx =>
      obtain rfl := Option.some.inj (hg.symm.trans hx)
      split
      · next ph hph => exact decide_eq_true (h m ph hm hph)
      · rfl
    · rfl
  unfold State.barWaiting
  rw [hdone, if_pos rfl, hg]

theorem exec_barWait {s : State} {a : BitVec 6} (hr : Readable s [.s a.toNat]) : exec (.barWait a) s = .next (s.barWaiting (s.gid a)) :=
  congrArg _ (reading_readable s _ _ hr)

theorem barriers : Barriers := by
  intro s a hr gid
  refine ⟨fun g m hd hmember hhome hm hfrom hdone => ?_, fun g m hd hmember hhome hm hdone => ?_, fun hd hover hu => ⟨?_, fun harr => ?_⟩, fun i hi => ?_⟩
  · obtain ⟨hexec, hquiet⟩ := barArrive_quiet hd hr hmember hm hdone
    obtain ⟨-, u, hu, hsettles, -⟩ := recordArrival_records hmember
    obtain ⟨-, -, -, hin⟩ := asMember_some hmember
    have hlen := arrive_members g m s.known
    have harrivals : (g.arrive m s.known).arrivals = g.arrivals + 1 := if_pos hfrom
    have hg' := settleGroup_group hu (ne_nil_of_length hlen (List.ne_nil_of_mem hin))
    refine ⟨_, _, hexec, hquiet, (congrArg (State.group · s.asid gid) (hsettles hhome)).trans hg', ?_, fun hlt => ?_, fun hle => ?_⟩
    · exact (afterPhase_members _).trans ((afterPhase_members _).trans hlen)
    · have hstay : afterPhase (g.arrive m s.known) = g.arrive m s.known := afterPhase_stays (harrivals ▸ hlt)
      rw [hstay, hstay]
      exact ⟨rfl, harrivals, rfl⟩
    · refine Nat.lt_of_lt_of_le ?_ (afterPhase_phase _)
      rw [afterPhase_opens (g := g.arrive m s.known) hhome (harrivals ▸ hle)]
      exact Nat.lt_succ_self _
  · obtain ⟨hexec, hquiet⟩ := barArrive_quiet hd hr hmember hm hdone
    obtain ⟨-, u, hu, -, htells⟩ := recordArrival_records hmember
    exact ⟨_, _, hexec, hquiet, (group_congr (tells_groups (htells hhome)) _ _).trans hu, rfl, arrive_members g m _⟩
  · exact ⟨_, (exec_barArrive hd hr).trans (congrArg _ (arriving_overrun _ hover)), trapHere_traps s _ hu⟩
  · obtain ⟨k, hk⟩ := (exec_barSync hd hr).2 harr
    exact ⟨_, hk.trans (congrArg _ (arriving_overrun k hover)), trapHere_traps s _ hu⟩
  · have hexec : exec i s = .next (s.barWaiting gid) := by
      obtain rfl | ⟨rfl, hd, harr⟩ := hi
      · exact exec_barWait hr
      · exact (exec_barSync hd hr).1 harr
    refine ⟨fun hnone => ?_, fun g hg hdone hreads => ?_, fun g m ph hg hm hlast hle => ?_⟩
    · refine ⟨_, hexec.trans (congrArg _ (barWaiting_alone hnone)), quiet_onMe s (sameRegs_wait _ _), ?_⟩
      exact congrArg StrandState.wait (me_onMe s _)
    · obtain ⟨hquiet, hwait⟩ := renewing_quiet (f := fun x => { x with clock := Clock.join x.clock g.prev }) (sc := g.scope) (aside_refl s)
        ⟨rfl, rfl, rfl, rfl, rfl, rfl, rfl, rfl, rfl, rfl⟩ hreads
      exact ⟨_, hexec.trans (congrArg _ (barWaiting_completed hg hdone)), hquiet, hwait⟩
    · exact ⟨_, hexec.trans (congrArg _ (barWaiting_pending hg hm hlast hle)), barHold_freezes s gid⟩

/-- Settles O17: the other groups stay as a join, a leave or an arrival changes one, and only messages leave besides. -/
theorem groupsAndBarriers : Obligations.GroupsAndBarriers := ⟨groupMembership, barriers⟩

end Sys2Proof.Proofs
end


section
/-! What the messages of other members do to a group (R139, R143 to R147, R290). -/

namespace Sys2Proof.Proofs
open Sys2Proof.Machine Sys2Proof.Spec Sys2Proof.Laws

theorem halls_of_regroups {s t : State} (a : Regroups s t) : t.halls = s.halls := (near_of_regroups a).halls

section
variable {s : State} {idx : Byte} {h : HallId} {asid : Asid} {gid : BitVec 12} {ph : BitVec 32}

theorem groupJoinMessage_creates (hnone : s.group asid gid.toNat = none) :
    ∃ t g m, exec (.groupJoinMessage idx h asid gid ph) s = .next t ∧ t.group asid gid.toNat = some g ∧ g.members = [m] ∧ m.index = idx.toNat ∧ m.hall = h ∧
      g.expected = 1 ∧ g.phase = 0 ∧ g.scope = .fabric ∧ t.halls = s.halls := by
  have hexec : exec (.groupJoinMessage idx h asid gid ph) s =
      .next (putGroup s asid gid.toNat ((Group.fresh asid gid.toNat .fabric h).join 0 idx.toNat h 0)) := by
    change execGroupJoinMessage idx h asid gid ph s = _
    unfold execGroupJoinMessage
    rw [hnone]
    rfl
  exact ⟨_, _, _, hexec, group_put rfl rfl, rfl, rfl, rfl, rfl, rfl, rfl, rfl⟩

theorem phaseCompleteMessage_learns (hnone : s.group asid gid.toNat = none) :
    ∃ t g, exec (.phaseCompleteMessage idx h asid gid ph) s = .next t ∧ t.group asid gid.toNat = some g ∧ g.members = [] ∧ g.home = false ∧
      g.homeAt = idx.toNat ∧ g.phase = ph.toNat + 1 ∧ t.halls = s.halls := by
  let g : Group := { Group.fresh asid gid.toNat .fabric h with home := false, homeAt := idx.toNat, phase := ph.toNat + 1 }
  have hexec : exec (.phaseCompleteMessage idx h asid gid ph) s = .next { s with groups := s.groups ++ [g] } := by
    change execPhaseCompleteMessage idx h asid gid ph s = _
    unfold execPhaseCompleteMessage
    rw [hnone]
  have hgroup : State.group { s with groups := s.groups ++ [g] } asid gid.toNat = some g := by
    unfold State.group at hnone ⊢
    rw [List.find?_append, hnone]
    simp [g, Group.fresh]
  exact ⟨_, g, hexec, hgroup, rfl, rfl, rfl, rfl, rfl⟩

/-! Messages about a member that the home knows. -/

/-- The only member that a message can name. -/
theorem named_only {g : Group} {m : GMember} (p : GMember → Bool) (hm : g.members.filter (farMember idx h) = [m]) : g.named idx h p = some m := by
  have hfind : ∀ q : GMember → Bool, g.members.find? (fun x => farMember idx h x && q x) = [m].find? q := by
    intro q
    rw [← hm, List.find?_filter]
    simp only [Bool.decide_and, Bool.decide_eq_true]
  have hfar : g.members.find? (farMember idx h) = some m := by
    have hall := hfind fun _ => true
    simpa only [Bool.and_true, List.find?_cons_of_pos] using hall
  unfold Group.named
  rw [hfind, hfar]
  cases hp : p m with
  | true => rw [List.find?_cons_of_pos hp]; rfl
  | false => rw [List.find?_cons_of_neg (Bool.eq_false_iff.1 hp)]; rfl

theorem mem_of_filter_eq {α : Type} {p : α → Bool} {xs : List α} {a : α} (h : xs.filter p = [a]) : a ∈ xs ∧ p a = true :=
  List.mem_filter.1 (h ▸ List.mem_singleton_self a)

theorem claim_known {g : Group} {m : GMember} (hm : g.members.filter (farMember idx h) = [m]) : g.claim idx.toNat h = g := by
  obtain ⟨hin, hfar⟩ := mem_of_filter_eq hm
  exact if_pos (List.any_eq_true.2 ⟨m, hin, hfar⟩)

/-- What a message does to a group of this module whose one member it names, before the group settles. -/
theorem atHomeGroup_group {g : Group} {m : GMember} (p : GMember → Bool) (f : Group → GMember → Group) (hg : s.group asid gid.toNat = some g)
    (hhome : g.home = true) (hm : g.members.filter (farMember idx h) = [m]) (ha : (f g m).asid = g.asid) (hi : (f g m).gid = g.gid)
    (hne : (f g m).members ≠ []) :
    (s.atHomeGroup asid gid.toNat idx h p f).group asid gid.toNat = some (afterPhase (afterPhase (f g m))) ∧
      Regroups s (s.atHomeGroup asid gid.toNat idx h p f) := by
  have hself : (if (g.home && g.isFabric) = true then g.claim idx.toNat h else g) = g := by
    rw [claim_known hm, ite_self]
  have hclaimed : (s.onGroup asid gid.toNat fun g => if (g.home && g.isFabric) = true then g.claim idx.toNat h else g).group asid gid.toNat = some g := by
    refine (group_onGroup hg ?_ ?_ ?_).trans (congrArg some hself)
    · rw [hself]
    · rw [hself]
    · rw [hself]
      exact List.ne_nil_of_mem (mem_of_filter_eq hm).1
  have hdone : (if g.home = true then (match g.named idx h p with | some m => f g m | none => g) else g) = f g m := by
    rw [if_pos hhome, named_only p hm]
  have hchanged := group_onGroup (f := fun g => if g.home = true then (match g.named idx h p with | some m => f g m | none => g) else g) hclaimed
    (hdone ▸ ha) (hdone ▸ hi) (hdone ▸ hne)
  rw [hdone] at hchanged
  exact ⟨settleGroup_group hchanged hne, regroups_trans (t := s.onGroup asid gid.toNat _) (regroups_onGroup _ _ _ _)
    (regroups_trans (regroups_onGroup _ _ _ _) (regroups_settleGroup _ _ _))⟩

end

/-- The only element of a list that a predicate names gives way to another that it names. -/
theorem filter_replace {α : Type} [DecidableEq α] {p : α → Bool} {xs : List α} {a b : α} (h : xs.filter p = [a]) (hb : p b = true) :
    (xs.replace a b).filter p = [b] := by
  induction xs with
  | nil => exact absurd h nofun
  | cons x xs ih =>
    by_cases hx : p x = true
    · rw [List.filter_cons_of_pos hx] at h
      obtain ⟨rfl, hnil⟩ := List.cons.inj h
      rw [List.replace_cons, beq_self_eq_true]
      exact (List.filter_cons_of_pos hb).trans (congrArg _ hnil)
    · rw [List.filter_cons_of_neg hx] at h
      have hne : (a == x) = false := beq_eq_false_iff_ne.2 fun e => hx (e ▸ (mem_of_filter_eq h).2)
      rw [List.replace_cons, hne]
      exact (List.filter_cons_of_neg hx).trans (ih h)

theorem mem_or_eq_of_mem_replace {α : Type} [DecidableEq α] {xs : List α} {a b x : α} (h : x ∈ xs.replace a b) : x ∈ xs ∨ x = b := by
  induction xs with
  | nil => exact .inl h
  | cons y ys ih =>
    rw [List.replace_cons] at h
    split at h
    · exact (List.mem_cons.1 h).elim .inr fun h => .inl (List.mem_cons_of_mem y h)
    · exact (List.mem_cons.1 h).elim (fun e => .inl (e ▸ List.mem_cons_self)) fun h => (ih h).imp_left (List.mem_cons_of_mem y)

theorem filter_erase {α : Type} [DecidableEq α] {p : α → Bool} {xs : List α} {a : α} (h : xs.filter p = [a]) : ∀ x ∈ xs.erase a, p x = false := by
  obtain ⟨hin, ha⟩ := mem_of_filter_eq h
  have hlen := ((List.perm_cons_erase hin).filter p).length_eq
  rw [h, List.filter_cons_of_pos ha, List.length_cons] at hlen
  have hnil : (xs.erase a).filter p = [] := List.length_eq_zero_iff.1 (Nat.succ.inj hlen).symm
  exact fun x hx => Bool.eq_false_iff.2 (List.filter_eq_nil_iff.1 hnil x hx)

section
variable {s : State} {idx : Byte} {h : HallId} {asid : Asid} {gid : BitVec 12} {ph : BitVec 32} {g : Group}

theorem groupJoinMessage_adds (hg : s.group asid gid.toNat = some g) (hhome : g.home = true) (hscope : g.scope = .fabric) :
    ∃ t g' m, exec (.groupJoinMessage idx h asid gid ph) s = .next t ∧ t.group asid gid.toNat = some g' ∧ g'.members = g.members ++ [m] ∧
      m.index = idx.toNat ∧
      m.hall = h ∧ m.arrived = false ∧ m.from_ = min ph.toNat (if g.phase = 0 ∧ g.arrivals = 0 then 0 else g.phase + 1) ∧ g'.phase = g.phase ∧
      g'.expected = (if m.from_ ≤ g.phase then g.expected + 1 else g.expected) ∧ t.halls = s.halls := by
  have hfabric : g.isFabric = true := beq_iff_eq.2 hscope
  have hexec : exec (.groupJoinMessage idx h asid gid ph) s =
      .next (s.onGroup asid gid.toNat fun g => g.join 0 idx.toNat h (min ph.toNat g.firstPhase)) := by
    change execGroupJoinMessage idx h asid gid ph s = _
    unfold execGroupJoinMessage
    rw [hg]
    dsimp only
    rw [if_pos hhome, if_pos hfabric]
  have hfirst : g.firstPhase = if g.phase = 0 ∧ g.arrivals = 0 then 0 else g.phase + 1 := by
    unfold Group.firstPhase
    simp only [Bool.and_eq_true, decide_eq_true_eq, beq_iff_eq]
  have hgroup := group_onGroup (f := fun g => g.join 0 idx.toNat h (min ph.toNat g.firstPhase)) hg rfl rfl
    (List.append_ne_nil_of_right_ne_nil _ (List.cons_ne_nil _ _))
  refine ⟨_, _, _, hexec, hgroup, rfl, rfl, rfl, rfl, ?_, rfl, rfl, rfl⟩
  rw [← hfirst]

/-- The arrival of a member that the group's home knows. -/
theorem barrierArrival_arrives {m : GMember} (hg : s.group asid gid.toNat = some g) (hhome : g.home = true)
    (hm : g.members.filter (farMember idx h) = [m]) (harr : m.arrived = false) :
    ∃ t c, exec (.barrierArrival idx h asid gid ph) s = .next t ∧ t.group asid gid.toNat = some (afterPhase (afterPhase (g.arrive m c))) ∧
      t.halls = s.halls := by
  let c := s.farClock (s.routeModule asid idx.toNat)
  have hdone : (if m.arrived = true then g else g.arrive m c) = g.arrive m c := if_neg (harr ▸ Bool.false_ne_true)
  obtain ⟨hgroup, hregroups⟩ := atHomeGroup_group (s := s) (fun m => !m.absent && !m.arrived) (fun g m => if m.arrived then g else g.arrive m c) hg hhome hm
    (by rw [hdone]; rfl) (by rw [hdone]; rfl)
    (by rw [hdone]; exact ne_nil_of_length (arrive_members g m c) (List.ne_nil_of_mem (mem_of_filter_eq hm).1))
  rw [hdone] at hgroup
  exact ⟨_, c, rfl, hgroup, halls_of_regroups hregroups⟩

theorem arrive_arrived {m : GMember} (c : Clock) (hm : g.members.filter (farMember idx h) = [m]) :
    ∀ x ∈ (g.arrive m c).members, farMember idx h x = true → x.arrived = true := by
  intro x hx hfar
  have honly := filter_replace (b := { m with arrived := true }) hm (mem_of_filter_eq hm).2
  obtain rfl := List.mem_singleton.1 (honly ▸ List.mem_filter.2 ⟨hx, hfar⟩)
  rfl

/-- The members of a phase that all of them were counted in. -/
theorem openNext_all (hfrom : ∀ x ∈ g.members, x.from_ ≤ g.phase) :
    (∀ x ∈ g.openNext.members, x.arrived = false) ∧ g.openNext.arrivals = 0 ∧ g.openNext.expected = g.members.length := by
  have hall : ∀ x ∈ g.openNext.members, x.arrived = false := by
    intro x hx
    obtain ⟨y, hy, rfl⟩ := List.mem_map.1 hx
    rw [if_pos (hfrom y hy)]
  have hnone : g.openNext.members.filter (·.arrived) = [] := List.filter_eq_nil_iff.2 fun x hx => Bool.eq_false_iff.1 (hall x hx)
  exact ⟨hall, congrArg List.length hnone, List.length_map _⟩

theorem arrive_completes {m : GMember} (c : Clock) (hhome : g.home = true) (hin : m ∈ g.members) (hfrom : ∀ x ∈ g.members, x.from_ ≤ g.phase)
    (hlast : g.expected = g.arrivals + 1) : afterPhase (afterPhase (g.arrive m c)) = (g.arrive m c).openNext ∧
      ∀ x ∈ (g.arrive m c).members, x.from_ ≤ (g.arrive m c).phase := by
  have harrivals : (g.arrive m c).arrivals = g.arrivals + 1 := if_pos (hfrom m hin)
  have hcounted : ∀ x ∈ (g.arrive m c).members, x.from_ ≤ (g.arrive m c).phase := by
    intro x hx
    obtain hx | rfl := mem_or_eq_of_mem_replace hx
    · exact hfrom x hx
    · exact hfrom m hin
  obtain ⟨-, hnone, hexpected⟩ := openNext_all hcounted
  rw [afterPhase_opens (g := g.arrive m c) hhome (harrivals ▸ hlast.le)]
  refine ⟨afterPhase_stays ?_, hcounted⟩
  rw [hnone, hexpected, arrive_members]
  exact List.length_pos_of_mem hin

theorem afterPhase_far (hg : ∀ x ∈ g.members, farMember idx h x = false) : ∀ x ∈ (afterPhase g).members, farMember idx h x = false := by
  unfold afterPhase
  split
  · intro x hx
    obtain ⟨y, hy, rfl⟩ := List.mem_map.1 hx
    have hwas := hg y hy
    split
    · exact hwas
    · exact hwas
  · exact hg

theorem groupLeaveMessage_leaves {m : GMember} (hg : s.group asid gid.toNat = some g) (hhome : g.home = true)
    (hm : g.members.filter (farMember idx h) = [m]) (hother : ∃ m ∈ g.members, farMember idx h m = false) :
    ∃ t g', exec (.groupLeaveMessage idx h asid gid ph) s = .next t ∧ t.group asid gid.toNat = some g' ∧ (∀ x ∈ g'.members, farMember idx h x = false) ∧
      t.halls = s.halls := by
  have hleft : (g.leave m).members ≠ [] := by
    obtain ⟨x, hx, hfar⟩ := hother
    have hne : x ≠ m := fun e => Bool.false_ne_true (hfar.symm.trans (e ▸ (mem_of_filter_eq hm).2))
    exact List.ne_nil_of_mem ((List.mem_erase_of_ne hne).2 hx)
  let here := fun (m : GMember) => !m.absent && !m.arrived
  obtain ⟨u, htold, hexec⟩ : ∃ u, Tells s u ∧ exec (.groupLeaveMessage idx h asid gid ph) s =
      .next ((u.atHomeGroup asid gid.toNat idx h here fun g m => g.leave m).tellCeased g h) := by
    change ∃ u, _ ∧ execGroupLeaveMessage idx h asid gid ph s = _
    unfold execGroupLeaveMessage
    rw [hg]
    dsimp only
    rw [if_pos hhome, named_only _ hm]
    refine ⟨_, ?_, rfl⟩
    dsimp only
    split
    · exact tells_sendToken s g m false
    · exact tells_refl s
  obtain ⟨hgroup, hregroups⟩ := atHomeGroup_group (s := u) here (fun g m => g.leave m)
    ((group_congr (tells_groups htold) _ _).trans hg) hhome hm rfl rfl hleft
  have hceased := tells_tellCeased (u.atHomeGroup asid gid.toNat idx h here fun g m => g.leave m) g h
  refine ⟨_, _, hexec, (group_congr (tells_groups hceased) _ _).trans hgroup, afterPhase_far (afterPhase_far (filter_erase hm)), ?_⟩
  exact halls_of_regroups (regroups_trans (regroups_of_tells htold) (regroups_trans hregroups (regroups_of_tells hceased)))

/-! Tokens. -/

theorem proxyToken_marks {m : GMember} (hg : s.group asid gid.toNat = some g) (hhome : g.home = true) (hm : g.members.filter (farMember idx h) = [m])
    (hopen : g.arrivals < g.expected) :
    ∃ t g', exec (.proxyTokenMessage idx h asid gid ph) s = .next t ∧ t.group asid gid.toNat = some g' ∧ g'.members.length = g.members.length ∧
      (∀ x ∈ g'.members, farMember idx h x = true → x.absent = true) ∧ g'.phase = g.phase ∧ t.halls = s.halls := by
  let away : Group → GMember → Group := fun g m => { g with members := g.members.replace m { m with absent := true } }
  have hlen : (away g m).members.length = g.members.length := List.length_replace
  obtain ⟨hgroup, hregroups⟩ := atHomeGroup_group (s := s) (fun m => !m.absent && !m.arrived) away hg hhome hm rfl rfl
    (ne_nil_of_length hlen (List.ne_nil_of_mem (mem_of_filter_eq hm).1))
  have hstay : afterPhase (away g m) = away g m := afterPhase_stays hopen
  rw [hstay, hstay] at hgroup
  have htold := tells_tellMembers (s.atHomeGroup asid gid.toNat idx h (fun m => !m.absent && !m.arrived) away) asid
    fun self => .proxyTokenMessage self h asid gid ph
  have hexec : exec (.proxyTokenMessage idx h asid gid ph) s =
      .next ((s.atHomeGroup asid gid.toNat idx h (fun m => !m.absent && !m.arrived) away).tellMembers asid
        fun self => .proxyTokenMessage self h asid gid ph) := by
    change execProxyTokenMessage idx h asid gid ph s = _
    unfold execProxyTokenMessage
    rw [hg]
    exact congrArg _ (if_pos hhome)
  refine ⟨_, _, hexec, (group_congr (tells_groups htold) _ _).trans hgroup, hlen, fun x hx hfar => ?_, rfl,
    halls_of_regroups (regroups_trans hregroups (regroups_of_tells htold))⟩
  have honly := filter_replace (b := { m with absent := true }) hm (mem_of_filter_eq hm).2
  obtain rfl := List.mem_singleton.1 (honly ▸ List.mem_filter.2 ⟨hx, hfar⟩)
  rfl

theorem proxyToken_stands (hg : s.group asid gid.toNat = some g) (hhome : g.home = false) :
    ∃ t g' x, exec (.proxyTokenMessage idx h asid gid ph) s = .next t ∧ t.group asid gid.toNat = some g' ∧ g'.members = g.members ++ [x] ∧
      x.index = idx.toNat ∧ x.absent = true ∧ x.arrived = false ∧ g'.suspended = true ∧ g'.phase = g.phase ∧ t.halls = s.halls := by
  let x : GMember := { slice := 0, index := idx.toNat, hall := h, from_ := 0, arrived := false, absent := true }
  have hexec : exec (.proxyTokenMessage idx h asid gid ph) s = .next (s.onGroup asid gid.toNat fun g => { g with members := g.members ++ [x] }) := by
    change execProxyTokenMessage idx h asid gid ph s = _
    unfold execProxyTokenMessage
    rw [hg]
    exact congrArg _ (if_neg (hhome ▸ Bool.false_ne_true))
  have hgroup := group_onGroup (f := fun g => { g with members := g.members ++ [x] }) hg rfl rfl
    (List.append_ne_nil_of_right_ne_nil _ (List.cons_ne_nil _ _))
  refine ⟨_, _, x, hexec, hgroup, rfl, rfl, rfl, rfl, ?_, rfl, rfl⟩
  refine List.any_eq_true.2 ⟨x, List.mem_append_right _ (List.mem_singleton_self x), ?_⟩
  simp [Group.owes, x]

theorem token_only {self : Nat} {m : GMember} (haway : g.members.filter (fun m => m.absent && m.index != self) = [m]) (hidx : m.index = idx.toNat) :
    g.token self idx h = some m := by
  have hindex : (m.index == idx.toNat) = true := beq_iff_eq.2 hidx
  unfold Group.token
  rw [haway]
  dsimp only
  cases hfar : farMember idx h m with
  | true => rw [List.find?_cons_of_pos hfar]; rfl
  | false => rw [List.find?_cons_of_neg (Bool.eq_false_iff.1 hfar), List.find?_cons_of_pos (p := fun m : GMember => m.index == idx.toNat) hindex]; rfl

theorem tokenWithdrawal_returns {m : GMember} (hg : s.group asid gid.toNat = some g) (hhome : g.home = true) (hm : g.members = [m])
    (hidx : m.index = idx.toNat) (habsent : m.absent = true) (hself : s.selfIndex asid ≠ idx.toNat) :
    ∃ t g', exec (.tokenWithdrawal idx h asid gid ph) s = .next t ∧ t.group asid gid.toNat = some g' ∧
      g'.members = [{ m with absent := false, hall := h }] ∧
      t.halls = s.halls := by
  have haway : g.members.filter (fun m => m.absent && m.index != s.selfIndex asid) = [m] := by
    rw [hm]
    simp [habsent, hidx, hself.symm]
  let back : Group → Group := fun g => { g with members := g.members.replace m { m with absent := false, hall := h, index := idx.toNat } }
  have hback : (back g).members = [{ m with absent := false, hall := h }] := by
    change g.members.replace m _ = _
    rw [hm, List.replace_cons, beq_self_eq_true, hidx]
  have hexec : exec (.tokenWithdrawal idx h asid gid ph) s =
      .next ((s.onGroup asid gid.toNat back).tellMembers asid fun self => .tokenWithdrawal self m.hall asid gid ph) := by
    change execTokenWithdrawal idx h asid gid ph s = _
    unfold execTokenWithdrawal
    rw [hg]
    dsimp only
    rw [token_only haway hidx]
    exact congrArg _ (if_pos hhome)
  have hgroup := group_onGroup (f := back) hg rfl rfl (hback ▸ List.cons_ne_nil _ _)
  have htold := tells_tellMembers (s.onGroup asid gid.toNat back) asid fun self => .tokenWithdrawal self m.hall asid gid ph
  exact ⟨_, _, hexec, (group_congr (tells_groups htold) _ _).trans hgroup, hback,
    halls_of_regroups (regroups_trans (regroups_onGroup s _ _ back) (regroups_of_tells htold))⟩

theorem tokenWithdrawal_removes {m x : GMember} (hg : s.group asid gid.toNat = some g) (hhome : g.home = false) (hm : g.members = [m, x])
    (hpresent : m.absent = false) (hidx : x.index = idx.toNat) (habsent : x.absent = true) (hself : s.selfIndex asid ≠ idx.toNat) :
    ∃ t g', exec (.tokenWithdrawal idx h asid gid ph) s = .next t ∧ t.group asid gid.toNat = some g' ∧ g'.members = [m] ∧ t.halls = s.halls := by
  have haway : g.members.filter (fun m => m.absent && m.index != s.selfIndex asid) = [x] := by
    rw [hm]
    simp [hpresent, habsent, hidx, hself.symm]
  have herase : g.members.erase x = [m] := by
    have hne : (m == x) = false := beq_eq_false_iff_ne.2 fun e => by rw [e, habsent] at hpresent; cases hpresent
    rw [hm, List.erase_cons, hne]
    simp
  have hexec : exec (.tokenWithdrawal idx h asid gid ph) s = .next (s.onGroup asid gid.toNat fun g => { g with members := g.members.erase x }) := by
    change execTokenWithdrawal idx h asid gid ph s = _
    unfold execTokenWithdrawal
    rw [hg]
    dsimp only
    rw [token_only haway hidx]
    exact congrArg _ (if_neg (hhome ▸ Bool.false_ne_true))
  have hgroup := group_onGroup (f := fun g => { g with members := g.members.erase x }) hg rfl rfl (herase ▸ List.cons_ne_nil _ _)
  exact ⟨_, _, hexec, hgroup, herase, rfl⟩

theorem phaseCompleteMessage_opens (hg : s.group asid gid.toNat = some g) (hne : g.members ≠ []) (hhome : g.home = false) :
    ∃ t g', exec (.phaseCompleteMessage idx h asid gid ph) s = .next t ∧ t.group asid gid.toNat = some g' ∧ g'.phase = ph.toNat + 1 ∧
      g'.expected = g.members.length ∧ t.halls = s.halls := by
  let told : Group := { g with phase := ph.toNat, homeAt := idx.toNat, stamp := Clock.join g.stamp (s.peersClock asid) }
  have hlen : told.openNext.members.length = g.members.length := List.length_map _
  have hexec : exec (.phaseCompleteMessage idx h asid gid ph) s = .next ((s.onGroup asid gid.toNat fun _ => told.openNext).openTokens told) := by
    change execPhaseCompleteMessage idx h asid gid ph s = _
    unfold execPhaseCompleteMessage
    rw [hg]
    exact congrArg _ (if_neg (hhome ▸ Bool.false_ne_true))
  have hgroup := group_onGroup (f := fun _ => told.openNext) hg rfl rfl (ne_nil_of_length hlen hne)
  have htold := tells_openTokens (s.onGroup asid gid.toNat fun _ => told.openNext) told
  exact ⟨_, _, hexec, (group_congr (tells_groups htold) _ _).trans hgroup, rfl, hlen,
    halls_of_regroups (regroups_trans (regroups_onGroup s _ _ _) (regroups_of_tells htold))⟩

end

end Sys2Proof.Proofs
end

section
/-! SUPPORT. Reads and writes at the home leave the module's identity, the open rounds and what waits to be sent as they are; in a gallery they count for
no hot map (R254, R262, R263, R342, R416). -/

namespace Sys2Proof.Proofs
open Sys2Proof.Machine Sys2Proof.Spec Sys2Proof.Laws

/-- The states agree on the module's identifier, its rounds and its messages. -/
structure Aloof (s t : State) : Prop where
  modid : t.modid = s.modid
  rounds : t.rounds = s.rounds
  outbox : t.outbox = s.outbox

theorem aloof_refl (s : State) : Aloof s s := ⟨rfl, rfl, rfl⟩

theorem aloof_trans {s t u : State} (a : Aloof s t) (b : Aloof t u) : Aloof s u :=
  ⟨b.modid.trans a.modid, b.rounds.trans a.rounds, b.outbox.trans a.outbox⟩

theorem aloof_foldl {α : Type} {f : State → α → State} (hf : ∀ s a, Aloof s (f s a)) (xs : List α) (s : State) : Aloof s (xs.foldl f s) := by
  induction xs generalizing s with
  | nil => exact aloof_refl s
  | cons x xs ih => exact aloof_trans (hf s x) (ih (f s x))

theorem aloof_undoLine (s : State) (line : Nat) : Aloof s (s.undoLine line) := by
  unfold State.undoLine
  cases spaceOf (64 * line) <;> exact ⟨rfl, rfl, rfl⟩

theorem aloof_mend (s : State) (cs : List Host.Cell) : Aloof s (s.mend cs) := by
  unfold State.mend
  split <;> exact ⟨rfl, rfl, rfl⟩

theorem aloof_putLine (s : State) (line : Nat) (cs : List Host.Cell) (v : Version) : Aloof s (s.putLine line cs v) := by
  refine aloof_trans (aloof_trans (aloof_undoLine s line) (aloof_mend _ cs)) ?_
  unfold State.putLine
  dsimp only
  split <;> exact ⟨rfl, rfl, rfl⟩

theorem aloof_poke (s : State) (cs : List Host.Cell) : Aloof s (s.poke cs) := by
  unfold State.poke
  exact aloof_trans (t := { s with pubs := s.pubs + 1 }) ⟨rfl, rfl, rfl⟩ (aloof_foldl (fun t l => aloof_putLine t l _ _) _ _)

theorem aloof_setBitmap (s : State) (p : PartId) (base : Word) (n : Nat) : Aloof s (s.setBitmap p base n) := by
  unfold State.setBitmap
  split
  · exact aloof_refl s
  · split
    · exact aloof_poke s _
    · exact aloof_refl s
    · exact aloof_refl s

theorem aloof_postSuper (s : State) (p : PartId) (ev : Nat) : Aloof s (s.postSuper p ev) := by
  unfold State.postSuper
  split
  · exact ⟨rfl, rfl, rfl⟩
  · split
    · exact ⟨rfl, rfl, rfl⟩
    · split <;> exact ⟨rfl, rfl, rfl⟩

theorem aloof_raiseEvent (s : State) (p : PartId) (e : HostEvent) : Aloof s (s.raiseEvent p e) := by
  unfold State.raiseEvent
  dsimp only
  split
  · exact ⟨rfl, rfl, rfl⟩
  · exact aloof_trans (t := s.onPart p fun P => { P with evq := P.evq ++ [e] }) ⟨rfl, rfl, rfl⟩ (aloof_postSuper _ p 30)

theorem aloof_touch (s : State) (p : PartId) (line : Nat) : Aloof s (s.touch p line) := by
  unfold State.touch
  extract_lets a owns sec c0 c P s1 s2
  have h2 : Aloof s s2 := aloof_trans (t := s1) ⟨rfl, rfl, rfl⟩ (aloof_setBitmap s1 p P.hotmap _)
  split
  · exact aloof_refl s
  · split
    · split
      · exact aloof_trans h2 (aloof_raiseEvent s2 p _)
      · exact h2
    · exact ⟨rfl, rfl, rfl⟩

theorem aloof_markDirty (s : State) (asid : Asid) (a : Nat) : Aloof s (s.markDirty asid a) := by
  unfold State.markDirty State.onCtx
  split
  · split <;> exact ⟨rfl, rfl, rfl⟩
  · exact aloof_refl s

theorem aloof_writeLine (s : State) (w : Writer) (line : Nat) (cs : List Host.Cell) : Aloof s (s.writeLine w line cs) := by
  unfold State.writeLine
  extract_lets s1 key s2
  have h2 : Aloof s s2 := aloof_trans (t := s1) (aloof_putLine s line cs _) ⟨rfl, rfl, rfl⟩
  split
  · exact h2
  · exact aloof_trans h2 (aloof_trans (aloof_touch s2 w.part line) (aloof_markDirty _ w.asid _))

theorem aloof_writeHome (s : State) (w : Writer) (cs : List Host.Cell) : Aloof s (s.writeHome w cs) :=
  aloof_foldl (fun t l => aloof_writeLine t w l _) _ s

/-- A check of one word or line changes no memory. -/
theorem sense_keeps (s : State) (p : PartId) (a : Nat) : Aloof s (s.sense p a).2 ∧ (s.sense p a).2.mem = s.mem := by
  have hself : Aloof s s ∧ s.mem = s.mem := ⟨aloof_refl s, rfl⟩
  unfold State.sense
  split
  · dsimp only
    split
    · exact hself
    · split
      · exact hself
      · split
        · exact ⟨⟨rfl, rfl, rfl⟩, rfl⟩
        · exact hself
  · split
    · dsimp only
      split
      · exact hself
      · split
        · exact ⟨⟨rfl, rfl, rfl⟩, rfl⟩
        · exact hself
    · exact hself

theorem senseUnits_keeps (p : PartId) (us : List Nat) (s : State) : Aloof s (State.senseUnits p us s).2 ∧ (State.senseUnits p us s).2.mem = s.mem := by
  induction us generalizing s with
  | nil => exact ⟨aloof_refl s, rfl⟩
  | cons u rest ih =>
    have k := sense_keeps s p u
    unfold State.senseUnits
    split
    · next e => rw [e] at k; exact k
    · next e =>
      rw [e] at k
      exact ⟨aloof_trans k.1 (ih _).1, (ih _).2.trans k.2⟩

theorem aloof_senseRead (s : State) (p : PartId) (ps : List Nat) : Aloof s (s.senseRead p ps).2 :=
  aloof_trans (aloof_foldl (fun t l => aloof_touch t p l) _ s) (senseUnits_keeps p _ _).1

/-! Writes into the galleries. -/

theorem touch_gallery {s : State} {line : Nat} (p : PartId) (hoff : offDie (64 * line) = false) : s.touch p line = s := by
  unfold offDie at hoff
  unfold State.touch
  dsimp only
  cases hspace : spaceOf (64 * line) with
  | hbm => rw [hspace] at hoff; cases hoff
  | undercroft => rw [hspace] at hoff; cases hoff
  | gallery h => exact if_pos rfl
  | control p o => exact if_pos rfl
  | reduce => exact if_pos rfl
  | fabric m o => exact if_pos rfl
  | hole => exact if_pos rfl

theorem markDirty_mem (s : State) (asid : Asid) (a : Nat) : (s.markDirty asid a).mem = s.mem := by
  unfold State.markDirty State.onCtx
  split
  · split <;> rfl
  · rfl

theorem undoLine_mem (s : State) (line : Nat) : (s.undoLine line).mem = s.mem := by
  unfold State.undoLine
  cases spaceOf (64 * line) <;> rfl

theorem putLine_mem (s : State) (line : Nat) (cs : List Host.Cell) (v : Version) : (s.putLine line cs v).mem = Memory.write s.mem cs := by
  have hmend : ((s.undoLine line).mend cs).mem = s.mem := (mend_keeps _ cs).2.1.trans (undoLine_mem s line)
  unfold State.putLine
  dsimp only
  rw [← undoLine_mem s line]
  split <;> rfl

theorem writeLine_gallery {s : State} {line : Nat} (w : Writer) (cs : List Host.Cell) (hoff : offDie (64 * line) = false) :
    (s.writeLine w line cs).mem = Memory.write s.mem cs := by
  unfold State.writeLine
  dsimp only
  split
  · exact putLine_mem s line cs _
  · rw [touch_gallery _ hoff]
    exact (markDirty_mem _ _ _).trans (putLine_mem s line cs _)

theorem writeHome_gallery {s : State} (w : Writer) {cs : List Host.Cell} (hoff : ∀ c ∈ cs, offDie (64 * (c.1 / 64)) = false) :
    (s.writeHome w cs).mem = Memory.write s.mem (byLines cs) := by
  have hlines (ls : List Nat) (hls : ∀ l ∈ ls, offDie (64 * l) = false) (t : State) :
      (ls.foldl (fun t l => t.writeLine w l (cs.filter fun c => c.1 / 64 == l)) t).mem =
        Memory.write t.mem (ls.flatMap fun l => cs.filter fun c => c.1 / 64 == l) := by
    induction ls generalizing t with
    | nil => rfl
    | cons l ls ih =>
      rw [List.foldl_cons, ih (fun k hk => hls k (List.mem_cons_of_mem l hk)), writeLine_gallery w _ (hls l List.mem_cons_self), List.flatMap_cons]
      exact (List.foldl_append ..).symm
  refine hlines _ (fun l hl => ?_) s
  obtain ⟨c, hc, rfl⟩ := List.mem_map.1 (mem_dedup.1 hl)
  exact hoff c hc

/-- The addresses of the galleries and of the hole behind them are not off the die. -/
theorem offDie_gallery {a : Nat} (hlo : galleryTop ≤ a) (hhi : a < 0x80000000000) : offDie (64 * (a / 64)) = false := by
  have h1 : ¬64 * (a / 64) < 0x6000000000 := by unfold galleryTop at hlo; omega
  have h2 : ¬64 * (a / 64) < 0x10000000000 := by unfold galleryTop at hlo; omega
  have h3 : ¬64 * (a / 64) < 0x20000000000 := by unfold galleryTop at hlo; omega
  have h4 : ¬64 * (a / 64) < 0x40000000000 := by unfold galleryTop at hlo; omega
  have h5 : 64 * (a / 64) < 0x80000000000 := by omega
  unfold offDie spaceOf
  rw [if_neg h1, if_neg h2, if_neg h3, if_neg h4]
  by_cases h : 64 * (a / 64) < 0x40400000000
  · rw [if_pos h]
  · rw [if_neg h, if_pos h5]

/-! The combined write of a round. -/

theorem leBytes_getElem? (n v i : Nat) : (leBytes n v)[i]? = if i < n then some (BitVec.ofNat 8 (v / 256 ^ i)) else none := by
  induction n generalizing v i with
  | zero => rfl
  | succ n ih =>
    cases i with
    | zero => simp [leBytes]
    | succ i => simp [leBytes, ih, Nat.div_div_eq_div_mul, Nat.pow_succ, Nat.mul_comm]

theorem mem_cellsAt_leBytes {a n v : Nat} {c : Host.Cell} : c ∈ cellsAt a (leBytes n v) ↔ ∃ i, i < n ∧ c = (a + i, BitVec.ofNat 8 (v / 256 ^ i)) := by
  unfold cellsAt
  rw [List.mem_mapIdx]
  constructor
  · rintro ⟨i, hi, rfl⟩
    have hn : i < n := leBytes_length n v ▸ hi
    have hget := leBytes_getElem? n v i
    rw [if_pos hn, List.getElem?_eq_getElem hi] at hget
    exact ⟨i, hn, congrArg _ (Option.some.inj hget)⟩
  · rintro ⟨i, hn, rfl⟩
    have hget := leBytes_getElem? n v i
    rw [if_pos hn] at hget
    obtain ⟨hi, he⟩ := List.getElem?_eq_some_iff.1 hget
    exact ⟨i, hi, by rw [he]⟩

theorem mem_maskHalls {m : BitVec 256} {g : HallId} (h : m.getLsbD g.toNat = true) : g ∈ maskHalls m :=
  List.mem_map.2 ⟨g.toNat, List.mem_filter.2 ⟨List.mem_range.2 g.isLt, h⟩, BitVec.ofNat_toNat 8 g⟩

/-- The cells of a round's sum in the gallery of every member Hall. -/
def roundCells (members : BitVec 256) (n d off sum : Nat) : List Host.Cell :=
  (maskHalls members).flatMap fun h => byLines (cellsAt (galleryBase h + d + off) (leBytes n sum))

theorem mem_roundCells {members : BitVec 256} {n d off sum : Nat} {c : Host.Cell} : c ∈ roundCells members n d off sum ↔
    ∃ h ∈ maskHalls members, ∃ i, i < n ∧ c = (galleryBase h + d + off + i, BitVec.ofNat 8 (sum / 256 ^ i)) := by
  simp only [roundCells, List.mem_flatMap, mem_byLines, mem_cellsAt_leBytes]

theorem mrWidth_le (ty : Nat) : mrWidth ty ≤ 8 := by
  unfold mrWidth
  split <;> decide

theorem mrWrite_writes (s : State) (p : PartId) (ty dest : Nat) {off : Nat} (hoff : off < 4096) (members : BitVec 256) (sum : Nat) (sc : Scope)
    (c : Clock) :
    (s.mrWrite p ty dest off members sum sc c).mem = Memory.write s.mem (roundCells members (mrWidth ty) (dest % 0x4000000) off sum) ∧
      Aloof s (s.mrWrite p ty dest off members sum sc c) := by
  unfold State.mrWrite roundCells
  dsimp only
  generalize maskHalls members = hs
  induction hs generalizing s with
  | nil => exact ⟨rfl, aloof_refl s⟩
  | cons h hs ih =>
    rw [List.foldl_cons]
    generalize hw : Writer.mk _ _ _ _ _ _ _ _ _ _ _ _ = w
    obtain ⟨hmem, haloof⟩ := ih (s.nextPub.2.writeHome w (cellsAt (galleryBase h + dest % 0x4000000 + off) (leBytes (mrWidth ty) sum)))
    have hcells : ∀ x ∈ cellsAt (galleryBase h + dest % 0x4000000 + off) (leBytes (mrWidth ty) sum), offDie (64 * (x.1 / 64)) = false := by
      intro x hx
      obtain ⟨i, hi, rfl⟩ := mem_cellsAt_leBytes.1 hx
      have hw8 := mrWidth_le ty
      have hd : dest % 0x4000000 < 0x4000000 := Nat.mod_lt _ (by decide)
      have hh := h.isLt
      refine offDie_gallery ?_ ?_ <;> unfold galleryBase galleryTop <;> dsimp only <;> omega
    refine ⟨hmem.trans ?_, aloof_trans (aloof_trans (t := s.nextPub.2) ⟨rfl, rfl, rfl⟩ (aloof_writeHome s.nextPub.2 w _)) haloof⟩
    rw [writeHome_gallery w hcells, List.flatMap_cons]
    exact (List.foldl_append ..).symm

/-- A round's sum stands in the gallery of every member Hall. -/
theorem byte_roundCells {mem : Memory} {members : BitVec 256} {n d off sum i : Nat} {g : HallId} (hg : members.getLsbD g.toNat = true) (hi : i < n)
    (hn : n ≤ 8) :
    Memory.byte (Memory.write mem (roundCells members n d off sum)) (galleryBase g + d + off + i) = BitVec.ofNat 8 (sum / 256 ^ i) := by
  refine sget_ssetAll_of_unique (w := 8) _ _ (mem_roundCells.2 ⟨g, mem_maskHalls hg, i, hi, rfl⟩) fun c hc hk => ?_
  obtain ⟨k, -, j, hj, rfl⟩ := mem_roundCells.1 hc
  have hij : j = i := by
    unfold galleryBase galleryTop at hk
    dsimp only at hk
    omega
  rw [hij]

end Sys2Proof.Proofs
end


section
/-! Contributions of other members to a round, and its sum (R138, R139, R289). -/

namespace Sys2Proof.Proofs
open Sys2Proof.Machine Sys2Proof.Spec Sys2Proof.Laws

section
variable {s : State} {tag : BitVec 16} {p : PartId} {addr : BitVec 20} {idx : Byte} {h : HallId} {ty : Byte} {v seq : Word}

theorem contribution_refused (hnone : s.mrValues p addr.toNat = none) (hself : idx.toNat ≠ (s.part p).fabIndex.toNat) :
    ∃ t, exec (.multicastReduceContribution tag p addr idx h ty v seq) s = .next t ∧ Refuses s t tag := by
  have hexec : exec (.multicastReduceContribution tag p addr idx h ty v seq) s =
      .next (State.sendTo { s with free := s.free + 1 } p idx.toNat (.response tag 1 0 0 (Config.value s.free))) := by
    change execMulticastReduceContribution tag p addr idx h ty v seq s = _
    unfold execMulticastReduceContribution
    dsimp only
    rw [hnone]
  obtain ⟨x, hsent, hmsg⟩ : ∃ x : Sent, State.sendTo { s with free := s.free + 1 } p idx.toNat (.response tag 1 0 0 (Config.value s.free)) =
      { s with free := s.free + 1, outbox := s.outbox ++ [x] } ∧ x.msg = .response tag 1 0 0 (Config.value s.free) := ⟨_, if_neg hself, rfl⟩
  refine ⟨_, hexec, ⟨_, x, ?_, hmsg⟩, ?_⟩
  · rw [hsent]
    exact List.getLast?_concat
  · rw [hsent]

/-- A contribution that its window takes. -/
theorem exec_contribution {d : MrDesc} (hd : s.mrValues p addr.toNat = some d) (hty : d.ty = ty.toNat) (hfabric : d.fabric ≠ 0) :
    ∃ clock, exec (.multicastReduceContribution tag p addr idx h ty v seq) s =
      .next (s.mrCount p addr.toNat d { member := idx.toNat, hall := h.toNat, seq := seq.toNat, value := v } clock) := by
  refine ⟨s.farClock (((s.part p).routes[idx.toNat]?.getD 0).extractLsb' 16 16), ?_⟩
  change execMulticastReduceContribution tag p addr idx h ty v seq s = _
  unfold execMulticastReduceContribution
  dsimp only
  rw [hd]
  exact congrArg _ (if_pos ⟨hty, hfabric⟩)

theorem contribution_opens {d : MrDesc} (hd : s.mrDesc p (addr.toNat / 4096) = some d) (hty : d.ty = ty.toNat) (hfabric : d.fabric ≠ 0)
    (hcount : 2 ≤ d.count)
    (hr : ∀ r ∈ s.rounds, ¬(r.part = p ∧ r.addr = addr.toNat)) :
    ∃ t r c, exec (.multicastReduceContribution tag p addr idx h ty v seq) s = .next t ∧ r ∈ t.rounds ∧ r.part = p ∧ r.addr = addr.toNat ∧ r.parts = [c] ∧
      c.member = idx.toNat ∧ c.hall = h.toNat ∧ c.seq = seq.toNat ∧ c.value = v ∧ t.mem = s.mem := by
  have hvalues : s.mrValues p addr.toNat = some d := by
    unfold State.mrValues
    rw [no_round hr]
    exact hd
  obtain ⟨clock, hexec⟩ := exec_contribution (idx := idx) (h := h) (v := v) (seq := seq) (tag := tag) hvalues hty hfabric
  let e : MrSend := { part := p, paddr := 0, hall := h, value := v, ty := 0, fabric := true, clock := clock }
  obtain ⟨rs, hopens⟩ := mrCount_opens (s := s) (e := e) (d := d) (c := { member := idx.toNat, hall := h.toNat, seq := seq.toNat, value := v }) hr hcount
  exact ⟨_, _, _, hexec.trans (congrArg _ hopens), List.mem_cons_self, rfl, rfl, rfl, rfl, rfl, rfl, rfl, rfl⟩

/-- The last contribution of a round: its sum is written, the round is closed, and the other members are told. -/
theorem mrCount_completes {r : Round} {d : MrDesc} {a : Nat} (c : MrPart) (clock : Clock)
    (hr : s.rounds.find? (fun r => r.part == p && r.addr == a) = some r)
    (hcount : r.count = r.parts.length + 1) :
    (s.mrCount p a d c clock).mem =
        Memory.write s.mem (roundCells r.members (mrWidth r.ty) (r.dest % 0x4000000) (a % 4096) (mrSum r.ty (r.parts ++ [c]))) ∧
      (s.mrCount p a d c clock).rounds = s.rounds.filter fun x => !(x.part == p && x.addr == a) := by
  have hwrites (sc : Scope) := mrWrite_writes { s with rounds := s.rounds.filter fun x => !(x.part == p && x.addr == a) } p r.ty r.dest
    (Nat.mod_lt a (by decide)) r.members (mrSum r.ty (r.parts ++ [c])) sc (Clock.join r.clock clock)
  have hfull : r.count ≤ (r.parts ++ [c]).length := by
    rw [List.length_append, hcount]
    exact Nat.le_refl _
  have htold (u : State) (xs : List Nat) (msg : Instr) : Near u (xs.foldl (fun t m => t.sendTo p m msg) u) :=
    near_of_regroups (regroups_of_tells (tells_foldl (fun t m => tells_sendTo t p m msg) xs u))
  unfold State.mrCount
  dsimp only
  rw [hr]
  dsimp only
  rw [if_pos hfull]
  split
  · exact ⟨(htold _ _ _).mem.trans (hwrites _).1, (htold _ _ _).rounds.trans (hwrites _).2.rounds⟩
  · exact ⟨(hwrites _).1, (hwrites _).2.rounds⟩

theorem contribution_completes {r : Round} (hr : s.rounds.find? (fun r => r.part == p && r.addr == addr.toNat) = some r) (hty : r.ty = ty.toNat)
    (hfabric : r.fabric = true) (hcount : r.count = r.parts.length + 1) :
    let c : MrPart := { member := idx.toNat, hall := h.toNat, seq := seq.toNat, value := v }
    ∃ t, exec (.multicastReduceContribution tag p addr idx h ty v seq) s = .next t ∧ (∀ x ∈ t.rounds, ¬(x.part = p ∧ x.addr = addr.toNat)) ∧
      ∀ g : HallId, r.members.getLsbD g.toNat = true → ∀ i, i < mrWidth r.ty →
        Memory.byte t.mem (galleryBase g + r.dest % 0x4000000 + addr.toNat % 4096 + i) = BitVec.ofNat 8 (mrSum r.ty (r.parts ++ [c]) / 256 ^ i) := by
  intro c
  let d : MrDesc := { ty := r.ty, count := r.count, dest := r.dest, members := r.members, fabric := 1 }
  have hvalues : s.mrValues p addr.toNat = some d := by
    unfold State.mrValues
    rw [hr]
    dsimp only
    rw [hfabric]
    rfl
  obtain ⟨clock, hexec⟩ := exec_contribution (idx := idx) (h := h) (v := v) (seq := seq) (tag := tag) hvalues hty (show (1 : Word) ≠ 0 by decide)
  obtain ⟨hmem, hrounds⟩ := mrCount_completes (d := d) c clock hr hcount
  refine ⟨_, hexec, fun x hx hxr => ?_, fun g hg i hi => ?_⟩
  · have hkept := (List.mem_filter.1 (hrounds ▸ hx)).2
    simp [hxr.1, hxr.2] at hkept
  · rw [hmem]
    exact byte_roundCells hg hi (mrWidth_le _)

/-! The sum. -/

/-- A sum of the home is written under the values with which the round is open here, which it closes. -/
theorem roundSum_closes {r : Round} (hr : s.rounds.find? (fun r => r.part == p && r.addr == addr.toNat && r.fabric) = some r) :
    ∃ t, exec (.roundSumMessage p addr v) s = .next t ∧ (∀ x ∈ t.rounds, ¬(x.part = p ∧ x.addr = addr.toNat ∧ x.fabric = true)) ∧
      ∀ g : HallId, r.members.getLsbD g.toNat = true → ∀ i, i < mrWidth r.ty →
        Memory.byte t.mem (galleryBase g + r.dest % 0x4000000 + addr.toNat % 4096 + i) = BitVec.ofNat 8 (v.toNat / 256 ^ i) := by
  let u : State := { s with rounds := s.rounds.filter fun r => !(r.part == p && r.addr == addr.toNat && r.fabric) }
  obtain ⟨hmem, haloof⟩ := mrWrite_writes u p r.ty r.dest (Nat.mod_lt addr.toNat (by decide)) r.members v.toNat .fabric (s.membersClock p)
  have hexec : exec (.roundSumMessage p addr v) s = .next (u.mrWrite p r.ty r.dest (addr.toNat % 4096) r.members v.toNat .fabric (s.membersClock p)) := by
    change execRoundSumMessage p addr v s = _
    unfold execRoundSumMessage
    dsimp only
    rw [hr]
  refine ⟨_, hexec, fun x hx hxr => ?_, fun g hg i hi => ?_⟩
  · have hkept := (List.mem_filter.1 (haloof.rounds ▸ hx)).2
    simp [hxr.1, hxr.2.1, hxr.2.2] at hkept
  · rw [hmem]
    exact byte_roundCells hg hi (mrWidth_le _)

/-- Where no round is open here, the sum is written under the values of its window. -/
theorem roundSum_unopened {d : MrDesc} (hd : s.mrDesc p (addr.toNat / 4096) = some d)
    (hr : ∀ r ∈ s.rounds, ¬(r.part = p ∧ r.addr = addr.toNat ∧ r.fabric = true)) :
    ∃ t, exec (.roundSumMessage p addr v) s = .next t ∧ ∀ g : HallId, d.members.getLsbD g.toNat = true → ∀ i, i < mrWidth d.ty →
      Memory.byte t.mem (galleryBase g + d.dest % 0x4000000 + addr.toNat % 4096 + i) = BitVec.ofNat 8 (v.toNat / 256 ^ i) := by
  have hnone : s.rounds.find? (fun r => r.part == p && r.addr == addr.toNat && r.fabric) = none := by
    refine List.find?_eq_none.2 fun r hin hb => hr r hin ?_
    simpa only [Bool.and_eq_true, beq_iff_eq, and_assoc] using hb
  have hexec : exec (.roundSumMessage p addr v) s = .next (s.mrWrite p d.ty d.dest (addr.toNat % 4096) d.members v.toNat .fabric (s.membersClock p)) := by
    change execRoundSumMessage p addr v s = _
    unfold execRoundSumMessage
    dsimp only
    rw [hnone, hd]
  refine ⟨_, hexec, fun g hg i hi => ?_⟩
  rw [(mrWrite_writes s p d.ty d.dest (Nat.mod_lt addr.toNat (by decide)) d.members v.toNat .fabric (s.membersClock p)).1]
  exact byte_roundCells hg hi (mrWidth_le _)

end

/-- Settles O49: a message changes the one group that it names, and a round's sum is written in the galleries, where no access is counted. -/
theorem groupMessages : Obligations.GroupMessages := by
  intro s idx h asid gid ph
  refine ⟨groupJoinMessage_creates, phaseCompleteMessage_learns, fun g hg hhome hscope => ⟨fun _ => groupJoinMessage_adds hg hhome hscope,
    fun m hm harr hfrom => ⟨fun hmore => ?_, fun hlast hall => ?_⟩, fun m hm hother => groupLeaveMessage_leaves hg hhome hm hother⟩,
    fun g hg hne => ⟨fun m hhome hm hopen => proxyToken_marks hg hhome hm hopen, fun hhome => proxyToken_stands hg hhome,
      fun m hhome hm hidx habsent hself => tokenWithdrawal_returns hg hhome hm hidx habsent hself,
      fun m x hhome hm hpresent hidx habsent hself => tokenWithdrawal_removes hg hhome hm hpresent hidx habsent hself,
      fun hhome => phaseCompleteMessage_opens hg hne hhome⟩,
    fun tag p addr ty v seq => ⟨contribution_refused, fun r hr hty hfabric hcount _ => contribution_completes hr hty hfabric hcount,
      fun d hd => ⟨fun hty hfabric hcount hr => contribution_opens hd hty hfabric hcount hr, fun _ hr => roundSum_unopened hd hr⟩,
      fun r hr _ => roundSum_closes hr⟩⟩
  · obtain ⟨t, c, hexec, hgroup, hhalls⟩ := barrierArrival_arrives (ph := ph) hg hhome hm harr
    have harrivals : (g.arrive m c).arrivals = g.arrivals + 1 := if_pos hfrom
    have hstay : afterPhase (g.arrive m c) = g.arrive m c := afterPhase_stays (harrivals ▸ hmore)
    rw [hstay, hstay] at hgroup
    exact ⟨t, _, hexec, hgroup, harrivals, rfl, arrive_arrived c hm, hhalls⟩
  · obtain ⟨t, c, hexec, hgroup, hhalls⟩ := barrierArrival_arrives (ph := ph) hg hhome hm harr
    obtain ⟨hopens, hcounted⟩ := arrive_completes c hhome (mem_of_filter_eq hm).1 hall hlast
    obtain ⟨hnone, harrivals, hexpected⟩ := openNext_all hcounted
    have hlen := arrive_members g m c
    rw [hopens] at hgroup
    exact ⟨t, _, hexec, hgroup, harrivals, rfl, hexpected.trans hlen, (List.length_map _).trans hlen, hnone, hhalls⟩

end Sys2Proof.Proofs
end


section
/-! Accesses that other members of a fabric group make here (R131, R263, R290, R409, R414). -/

namespace Sys2Proof.Proofs
open Sys2Proof.Machine Sys2Proof.Spec Sys2Proof.Laws

/-! Answers. -/

/-- `t` is `s` with one message more on its way out. -/
def Replies (s t : State) (m : Instr) : Prop := ∃ x : Sent, x.msg = m ∧ t = { s with outbox := s.outbox ++ [x] }

theorem says_of_replies {s t : State} {m : Instr} (r : Replies s t m) : Says t m := by
  obtain ⟨x, hx, rfl⟩ := r
  exact ⟨x, List.getLast?_concat, hx⟩

theorem only_outbox {s t : State} {m : Instr} (r : Replies s t m) : t = { s with outbox := t.outbox } := by
  obtain ⟨x, -, rfl⟩ := r
  rfl

theorem replies_mem {s t : State} {m : Instr} (r : Replies s t m) : t.mem = s.mem := by rw [only_outbox r]
theorem replies_poison {s t : State} {m : Instr} (r : Replies s t m) : t.poison = s.poison := by rw [only_outbox r]

theorem replies_msgs {s t : State} {m : Instr} (r : Replies s t m) : t.outbox.map (·.msg) = s.outbox.map (·.msg) ++ [m] := by
  obtain ⟨x, rfl, rfl⟩ := r
  exact List.map_append

section
variable {s : State} {src : BitVec 16} (ho : Outward s src)
include ho

theorem sendModule_replies {u : State} (hm : u.modid = s.modid) (m : Instr) : Replies u (u.sendModule src m) m := by
  unfold State.sendModule
  by_cases h : src = 0
  · rw [if_pos h]
    exact ⟨_, rfl, rfl⟩
  · rw [if_neg h, if_neg (hm ▸ ho.resolve_left h)]
    exact ⟨_, rfl, rfl⟩

theorem refusePlain_refuses (tag : BitVec 16) : Refuses s (s.refusePlain src tag) tag := by
  have r := sendModule_replies ho (u := { s with free := s.free + 1 }) rfl (.response tag 1 0 0 (Config.value s.free))
  refine ⟨⟨_, says_of_replies r⟩, ?_⟩
  rw [show s.refusePlain src tag = _ from only_outbox r]

theorem answer_replies {u : State} (hm : u.modid = s.modid) (tag : BitVec 16) (v : Word) : Replies u (u.answer src tag v) (.response tag 0 0 0 v) :=
  sendModule_replies ho hm _

theorem answerFault_replies {u : State} (hm : u.modid = s.modid) (tag : BitVec 16) (f : TrapInfo) :
    Replies u (u.answerFault src tag f) (.response tag 3 (BitVec.ofNat 8 (causeCode f.cause)) (BitVec.ofNat 8 f.detail) 0) :=
  sendModule_replies ho hm _

end

/-! Reads. -/

theorem chooseLines_free (r : Reader) (ls : List Nat) (s : State) : ∃ n, (s.chooseLines r ls).2 = { s with free := n } := by
  induction ls generalizing s with
  | nil => exact ⟨s.free, rfl⟩
  | cons l rest ih =>
    unfold State.chooseLines
    dsimp only
    obtain _ | ⟨n, _ | ⟨m, ms⟩⟩ := r.choices l (s.versionsOf l)
    · exact ih s
    · exact ih s
    · exact ih { s with free := s.free + 1 }

theorem readBytes_free (s : State) (r : Reader) (ps : List Nat) : ∃ n, (s.readBytes r ps).2.2 = { s with free := n } := chooseLines_free r _ s

theorem readBytes_length (s : State) (r : Reader) (ps : List Nat) : (s.readBytes r ps).1.length = ps.length := List.length_map _

theorem sendModule_mem (s : State) (dst : BitVec 16) (m : Instr) : (s.sendModule dst m).mem = s.mem := by
  unfold State.sendModule
  split
  · rfl
  · split <;> rfl

/-- Data of no more than a train goes out as one. -/
theorem sendBulk_one (s : State) (dst tag : BitVec 16) {d : Bytes} (hd : d ≠ []) (hlen : d.length < trainBytes) :
    s.sendBulk dst tag d = s.sendModule dst (.bulkData s.modid tag d) := by
  unfold State.sendBulk
  rw [Nat.div_eq_of_lt hlen]
  unfold trains
  rw [if_neg (by simpa using hd), List.take_of_length_le hlen.le]
  rfl

section
variable {s : State} {src tag : BitVec 16} {off : Word} {asid : Asid} (ho : Outward s src)
include ho

section
variable {len : BitVec 16}

theorem fabricRead_refused (h : len.toNat = 0 ∨ 256 < len.toNat) :
    ∃ t, exec (.fabricRead src tag off asid len) s = .next t ∧ Refuses s t tag :=
  ⟨_, congrArg Host.Outcome.next (if_pos h), refusePlain_refuses ho tag⟩

variable (hpos : 0 < len.toNat) (hlen : len.toNat ≤ 256)
include hpos hlen

theorem fabricRead_unresolved {f : TrapInfo} (hf : s.farResolve asid (wantFar true false) off len.toNat = .error f) :
    ∃ t, exec (.fabricRead src tag off asid len) s = .next t ∧ Faults t tag f ∧ t = { s with outbox := t.outbox } := by
  have r := answerFault_replies ho (u := s) rfl tag f
  refine ⟨_, ?_, says_of_replies r, only_outbox r⟩
  change execFabricRead src tag off asid len s = _
  unfold execFabricRead
  dsimp only
  rw [if_neg (by omega), hf]

variable {ps : List Nat} (hps : s.farResolve asid (wantFar true false) off len.toNat = .ok ps)
include hps

theorem fabricRead_faulted {a : Nat} {f : DataFault} (hr : (s.senseRead (s.partOf asid) ps).1 = some (a, f)) :
    ∃ t, exec (.fabricRead src tag off asid len) s = .next t ∧ Faults t tag f.info ∧ t.mem = (s.senseRead (s.partOf asid) ps).2.mem := by
  have hkeep := aloof_senseRead s (s.partOf asid) ps
  have hsense : s.senseRead (s.partOf asid) ps = (some (a, f), (s.senseRead (s.partOf asid) ps).2) := Prod.ext hr rfl
  have r := answerFault_replies ho hkeep.modid tag f.info
  refine ⟨_, ?_, says_of_replies r, replies_mem r⟩
  change execFabricRead src tag off asid len s = _
  unfold execFabricRead
  dsimp only
  rw [if_neg (by omega), hps]
  dsimp only
  rw [hsense]

theorem fabricRead_reads (hr : (s.senseRead (s.partOf asid) ps).1 = none) :
    let u := (s.senseRead (s.partOf asid) ps).2
    let bs := (u.readBytes (u.farReader src asid) ps).1
    ∃ t, exec (.fabricRead src tag off asid len) s = .next t ∧ bs.length = ps.length ∧ t.mem = u.mem ∧
      (len.toNat ≤ 8 → Accepts t tag (BitVec.ofNat 64 (leNat bs))) ∧
      (8 < len.toNat → ps.length = len.toNat → t.outbox.map (·.msg) = u.outbox.map (·.msg) ++ [.bulkData u.modid tag bs, .response tag 0 0 0 0]) := by
  intro u bs
  have hkeep : u.modid = s.modid := (aloof_senseRead s (s.partOf asid) ps).modid
  have hsense : s.senseRead (s.partOf asid) ps = (none, u) := Prod.ext hr rfl
  obtain ⟨w, haloof, hmem, hexec⟩ : ∃ w, Aloof u w ∧ w.mem = u.mem ∧ exec (.fabricRead src tag off asid len) s =
      .next (if len.toNat ≤ 8 then w.answer src tag (BitVec.ofNat 64 (leNat bs)) else (w.sendBulk src tag bs).answer src tag 0) := by
    obtain ⟨n, hn⟩ := readBytes_free u (u.farReader src asid) ps
    change ∃ w, _ ∧ _ ∧ execFabricRead src tag off asid len s = _
    unfold execFabricRead
    dsimp only
    rw [if_neg (by omega), hps]
    dsimp only
    rw [hsense]
    dsimp only
    rw [hn]
    refine ⟨_, ?_, ?_, rfl⟩
    · exact ⟨rfl, rfl, rfl⟩
    · rfl
  have hmodid : w.modid = s.modid := haloof.modid.trans hkeep
  have hbs : bs.length = ps.length := readBytes_length u _ ps
  by_cases h8 : len.toNat ≤ 8
  · rw [if_pos h8] at hexec
    have r := answer_replies ho hmodid tag (BitVec.ofNat 64 (leNat bs))
    exact ⟨_, hexec, hbs, (replies_mem r).trans hmem, fun _ => says_of_replies r, fun h => absurd h8 (Nat.not_le.2 h)⟩
  · rw [if_neg h8] at hexec
    refine ⟨_, hexec, hbs, ?_, fun h => absurd h h8, fun _ hall => ?_⟩
    · exact (sendModule_mem _ _ _).trans ((foldl_keeps State.mem (fun t m => sendModule_mem t _ m) _ w).trans hmem)
    · have hne : bs ≠ [] := List.ne_nil_of_length_pos (by omega)
      have hone : w.sendBulk src tag bs = w.sendModule src (.bulkData w.modid tag bs) := sendBulk_one w src tag hne (by unfold trainBytes; omega)
      have rbulk := sendModule_replies ho hmodid (.bulkData w.modid tag bs)
      rw [← hone] at rbulk
      have rdone := answer_replies ho (u := w.sendBulk src tag bs) ((congrArg State.modid (only_outbox rbulk)).trans hmodid) tag 0
      rw [replies_msgs rdone, replies_msgs rbulk, haloof.outbox, haloof.modid, List.append_assoc]
      rfl

end

end

/-! Writes. -/

/-- What a check before a write leaves of the write: a word that cannot be corrected is written all the same (R263). -/
def writesOn : Option (Nat × DataFault) → Bool
  | none => true
  | some (_, .word) => true
  | some (_, .line) => false
  | some (_, .expired) => false

theorem senseWrite_keeps (s : State) (p : PartId) (ps : List Nat) :
    Writes s (s.senseWrite p ps false).2.2 [] ∧ Aloof s (s.senseWrite p ps false).2.2 ∧ (s.senseWrite p ps false).2.2.mem = s.mem ∧
      (s.senseWrite p ps false).2.1 = writesOn (s.senseWrite p ps false).1 := by
  have hw := writes_senseUnits p (dedup (ps.map unitOf)) s
  obtain ⟨ha, hm⟩ := senseUnits_keeps p (dedup (ps.map unitOf)) s
  have hself : Writes s s [] ∧ Aloof s s ∧ s.mem = s.mem := ⟨writes_refl s, aloof_refl s, rfl⟩
  unfold State.senseWrite
  split
  · exact ⟨hself.1, hself.2.1, rfl, rfl⟩
  · split
    · split
      · next a f u hu =>
        rw [hu] at hw ha hm
        exact ⟨hw, ha, hm, by cases f <;> rfl⟩
      · next u hu =>
        rw [hu] at hw ha hm
        exact ⟨hw, ha, hm, rfl⟩
    · exact ⟨hself.1, hself.2.1, rfl, rfl⟩

theorem puts_of_writes {s u t : State} {cs : List Host.Cell} (w : Writes s u (byLines cs)) (hu : Uncounted s) (ht : t.mem = u.mem) : Puts s t cs := by
  obtain ⟨hothers, hcells⟩ := byte_of_writes w hu
  unfold Puts
  rw [ht]
  exact ⟨hcells, fun a ha => hothers a fun c hc hca => ha (hca ▸ List.mem_map_of_mem hc)⟩

theorem repoison_mem_poison (s : State) (a : Nat) : a ∈ (s.repoison a).poison := by
  unfold State.repoison
  dsimp only
  split
  · next h => exact List.contains_iff_mem.1 h
  · exact List.mem_append_right _ (List.mem_singleton_self a)

section
variable {s : State} {src tag : BitVec 16} {off : Word} {asid : Asid} (ho : Outward s src)
include ho

section
variable {d : Bytes}

theorem fabricWrite_refused (h : d.length = 0 ∨ 128 < d.length) :
    ∃ t, exec (.fabricWrite src tag off asid d) s = .next t ∧ Refuses s t tag :=
  ⟨_, congrArg Host.Outcome.next (if_pos h), refusePlain_refuses ho tag⟩

variable (hpos : 0 < d.length) (hlen : d.length ≤ 128)
include hpos hlen

theorem fabricWrite_unresolved {f : TrapInfo} (hf : s.farResolve asid (wantFar false true) off d.length = .error f) :
    ∃ t, exec (.fabricWrite src tag off asid d) s = .next t ∧ Faults t tag f ∧ t = { s with outbox := t.outbox } := by
  have r := answerFault_replies ho (u := s) rfl tag f
  refine ⟨_, ?_, says_of_replies r, only_outbox r⟩
  change execFabricWrite src tag off asid d s = _
  unfold execFabricWrite
  dsimp only
  rw [if_neg (by omega), hf]

omit ho in
theorem exec_fabricWrite {ps : List Nat} {f : Option (Nat × DataFault)} {on : Bool} {u : State}
    (hps : s.farResolve asid (wantFar false true) off d.length = .ok ps)
    (hr : s.senseWrite (s.partOf asid) ps false = (f, on, u)) :
    ∃ w, let v := if on = true then u.nextPub.2.writeHome w (ps.zip d) else u.nextPub.2
      (f = none → exec (.fabricWrite src tag off asid d) s = .next (v.answer src tag 0)) ∧
      (∀ a, f = some (a, .word) → exec (.fabricWrite src tag off asid d) s = .next ((v.repoison a).answerFault src tag DataFault.word.info)) ∧
      ∀ a g, f = some (a, g) → g ≠ .word → exec (.fabricWrite src tag off asid d) s = .next (v.answerFault src tag g.info) := by
  refine ⟨u.farWriter src asid u.nextPub.1, ?_⟩
  change (_ → execFabricWrite src tag off asid d s = _) ∧ (∀ a, _ → execFabricWrite src tag off asid d s = _) ∧
  ∀ a g, _ → _ → execFabricWrite src tag off asid d s = _
  unfold execFabricWrite
  dsimp only
  rw [if_neg (by omega), hps]
  dsimp only
  rw [hr]
  dsimp only
  refine ⟨fun hf => ?_, fun a hf => ?_, fun a g hf hg => ?_⟩
  · rw [hf]
    rfl
  · rw [hf]
    rfl
  · rw [hf]
    exact congrArg (fun x => Host.Outcome.next (State.answerFault x src tag g.info)) (if_neg hg)

theorem fabricWrite_writes {ps : List Nat} (hps : s.farResolve asid (wantFar false true) off d.length = .ok ps) :
    let r := s.senseWrite (s.partOf asid) ps false
    (r.1 = none → ∃ t, exec (.fabricWrite src tag off asid d) s = .next t ∧ Accepts t tag 0 ∧
      (Uncounted s → Memory.wf s.mem = true → Puts s t (ps.zip d))) ∧
    (∀ a, r.1 = some (a, .word) → ∃ t, exec (.fabricWrite src tag off asid d) s = .next t ∧ Faults t tag DataFault.word.info ∧ a ∈ t.poison ∧
      (Uncounted s → Memory.wf s.mem = true → Puts s t (ps.zip d))) ∧
    (∀ a f, r.1 = some (a, f) → f ≠ .word → ∃ t, exec (.fabricWrite src tag off asid d) s = .next t ∧ Faults t tag f.info ∧
      ∀ p, Memory.byte t.mem p = Memory.byte s.mem p) := by
  obtain ⟨hwrites, haloof, hmem, hon⟩ := senseWrite_keeps s (s.partOf asid) ps
  rcases hr : s.senseWrite (s.partOf asid) ps false with ⟨f, on, u⟩
  rw [hr] at hwrites haloof hmem hon
  obtain ⟨w, hnone, hword, hother⟩ := exec_fabricWrite (src := src) (tag := tag) hpos hlen hps hr
  have hput : Writes s (u.nextPub.2.writeHome w (ps.zip d)) (byLines (ps.zip d)) :=
    writes_trans hwrites (writes_trans (cs := []) (writes_of_eq (s := u) (t := u.nextPub.2) rfl rfl rfl) (writes_writeHome u.nextPub.2 w (ps.zip d)))
  have hmodid : (u.nextPub.2.writeHome w (ps.zip d)).modid = s.modid := (aloof_writeHome u.nextPub.2 w (ps.zip d)).modid.trans haloof.modid
  dsimp only at hon hmem ⊢
  refine ⟨fun hf => ?_, fun a hf => ?_, fun a g hf hg => ?_⟩
  · have hexec := hnone hf
    rw [if_pos (hon.trans (hf ▸ rfl))] at hexec
    have r := answer_replies ho hmodid tag 0
    exact ⟨_, hexec, says_of_replies r, fun hu _ => puts_of_writes hput hu (replies_mem r)⟩
  · have hexec := hword a hf
    rw [if_pos (hon.trans (hf ▸ rfl))] at hexec
    have r := answerFault_replies ho (u := (u.nextPub.2.writeHome w (ps.zip d)).repoison a) hmodid tag DataFault.word.info
    exact ⟨_, hexec, says_of_replies r, replies_poison r ▸ repoison_mem_poison _ a, fun hu _ => puts_of_writes hput hu (replies_mem r :)⟩
  · have hexec := hother a g hf hg
    have hoff : on = false := by
      rw [hon, hf]
      cases g with
      | expired => rfl
      | word => exact absurd rfl hg
      | line => rfl
    rw [if_neg (hoff ▸ Bool.false_ne_true)] at hexec
    have r := answerFault_replies ho (u := u.nextPub.2) haloof.modid tag g.info
    exact ⟨_, hexec, says_of_replies r, fun p => congrArg (Memory.byte · p) ((replies_mem r).trans hmem)⟩

end

end

/-! Atomics. -/

/-- An atomic's write at its home, where it makes one. -/
def farPut (u : State) (w : Writer) (ps : List Nat) (n : Nat) (x : Option Nat) : State :=
  match x with
  | none => u
  | some x => u.nextPub.2.writeHome w (ps.zip (leBytes n x))

/-- The cells that the atomic writes. -/
def farPutCells (ps : List Nat) (n : Nat) : Option Nat → List Host.Cell
  | none => []
  | some x => ps.zip (leBytes n x)

theorem farPut_keeps (u : State) (w : Writer) (ps : List Nat) (n : Nat) (x : Option Nat) :
    Writes u (farPut u w ps n x) (byLines (farPutCells ps n x)) ∧ Aloof u (farPut u w ps n x) := by
  cases x with
  | none => exact ⟨writes_refl u, aloof_refl u⟩
  | some x => exact ⟨writes_trans (cs := []) (writes_of_eq (s := u) (t := u.nextPub.2) rfl rfl rfl) (writes_writeHome u.nextPub.2 w _),
      aloof_trans (t := u.nextPub.2) ⟨rfl, rfl, rfl⟩ (aloof_writeHome u.nextPub.2 w _)⟩

/-- What another module has read is noted. -/
def FarKeeps (s t : State) : Prop := Writes s t [] ∧ Aloof s t

theorem farKeeps_trans {s t u : State} (a : FarKeeps s t) (b : FarKeeps t u) : FarKeeps s u := ⟨writes_trans a.1 b.1, aloof_trans a.2 b.2⟩

theorem farOp_none {op : Byte} (h : 9 ≤ op.toNat) : farOp op = none := List.getElem?_eq_none h

section
variable {s : State} {src tag : BitVec 16} {off : Word} {asid : Asid} {op : Byte} {w : Width} {o : Order} {v c : Word}

section
variable {f : Option AmoOp} (hop : farOp op = some f)
include hop

theorem exec_fabricAtomic {ps : List Nat} (hps : s.farResolve asid { wantFar true true with kind := .atomic } off (widthBytes w) = .ok ps) :
    let old := leNat (ps.map (Memory.byte s.mem))
    let x := atomicValue f (8 * widthBytes w) old v.toNat c.toNat
    (∀ s1, s.senseRead (s.partOf asid) ps = (none, s1) → ∃ u y, FarKeeps s1 u ∧
      exec (.fabricAtomic src tag off asid op w o v c) s = .next ((farPut u y ps (widthBytes w) x).answer src tag (BitVec.ofNat 64 old))) ∧
    ∀ a d s1, s.senseRead (s.partOf asid) ps = (some (a, d), s1) →
      ((subWord (widthBytes w) && d == .word) = true → ∃ y, exec (.fabricAtomic src tag off asid op w o v c) s =
        .next (((farPut s1 y ps (widthBytes w) x).repoison a).answerFault src tag d.info)) ∧
      ((subWord (widthBytes w) && d == .word) = false → exec (.fabricAtomic src tag off asid op w o v c) s = .next (s1.answerFault src tag d.info)) := by
  intro old x
  have hread (t : State) (ns : List (Nat × Nat)) : FarKeeps t (t.farRead src ns) := ⟨writes_of_eq rfl rfl rfl, rfl, rfl, rfl⟩
  have hacquire (t : State) (vs : List Version) : FarKeeps t (t.farAcquire src asid ps vs) := ⟨writes_of_eq rfl rfl rfl, rfl, rfl, rfl⟩
  have hself (t : State) : FarKeeps t t := ⟨writes_refl t, aloof_refl t⟩
  change (∀ s1, _ → ∃ u y, _ ∧ execFabricAtomic src tag off asid op w o v c s = _) ∧
    ∀ a d s1, _ → (_ → ∃ y, execFabricAtomic src tag off asid op w o v c s = _) ∧ (_ → execFabricAtomic src tag off asid op w o v c s = _)
  unfold execFabricAtomic
  dsimp only
  rw [hop]
  dsimp only
  rw [hps]
  dsimp only
  refine ⟨fun s1 hr => ?_, fun a d s1 hr => ⟨fun h => ?_, fun h => ?_⟩⟩
  · rw [hr]
    refine ⟨_, _, ?_, rfl⟩
    split
    · split
      · exact farKeeps_trans (hread s1 _) (hacquire _ _)
      · exact hacquire s1 _
    · split
      · exact hread s1 _
      · exact hself s1
  · rw [hr]
    exact ⟨_, congrArg (fun x => Host.Outcome.next (State.answerFault x src tag d.info)) (if_pos h)⟩
  · rw [hr]
    exact congrArg (fun x => Host.Outcome.next (State.answerFault x src tag d.info)) (if_neg (h ▸ Bool.false_ne_true))

variable (ho : Outward s src)
include ho

theorem fabricAtomic_unresolved {e : TrapInfo} (he : s.farResolve asid { wantFar true true with kind := .atomic } off (widthBytes w) = .error e) :
    ∃ t, exec (.fabricAtomic src tag off asid op w o v c) s = .next t ∧ Faults t tag e ∧ t = { s with outbox := t.outbox } := by
  have r := answerFault_replies ho (u := s) rfl tag e
  refine ⟨_, ?_, says_of_replies r, only_outbox r⟩
  change execFabricAtomic src tag off asid op w o v c s = _
  unfold execFabricAtomic
  dsimp only
  rw [hop]
  dsimp only
  rw [he]

variable {ps : List Nat} (hps : s.farResolve asid { wantFar true true with kind := .atomic } off (widthBytes w) = .ok ps)
include hps

theorem fabricAtomic_performs {s1 : State} (hr : s.senseRead (s.partOf asid) ps = (none, s1)) :
    let old := leNat (ps.map (Memory.byte s.mem))
    ∃ t, exec (.fabricAtomic src tag off asid op w o v c) s = .next t ∧ Accepts t tag (BitVec.ofNat 64 old) ∧
      (Uncounted s → Puts s t (farPutCells ps (widthBytes w) (atomicValue f (8 * widthBytes w) old v.toNat c.toNat))) := by
  intro old
  have hsense := writes_senseRead s (s.partOf asid) ps
  have haloof := aloof_senseRead s (s.partOf asid) ps
  rw [hr] at hsense haloof
  obtain ⟨u, y, hkeeps, hexec⟩ := (exec_fabricAtomic (src := src) (tag := tag) (o := o) (v := v) (c := c) hop hps).1 s1 hr
  obtain ⟨hput, hput'⟩ := farPut_keeps u y ps (widthBytes w) (atomicValue f (8 * widthBytes w) old v.toNat c.toNat)
  have r := answer_replies ho (hput'.modid.trans (hkeeps.2.modid.trans haloof.modid)) tag (BitVec.ofNat 64 old)
  exact ⟨_, hexec, says_of_replies r, fun hu => puts_of_writes (writes_trans hsense (writes_trans hkeeps.1 hput)) hu (replies_mem r)⟩

theorem fabricAtomic_words {a : Nat} {s1 : State} (hr : s.senseRead (s.partOf asid) ps = (some (a, .word), s1)) (hw : w = .B ∨ w = .H) :
    let old := leNat (ps.map (Memory.byte s.mem))
    ∃ t, exec (.fabricAtomic src tag off asid op w o v c) s = .next t ∧ Faults t tag DataFault.word.info ∧ a ∈ t.poison ∧
      (Uncounted s → Puts s t (farPutCells ps (widthBytes w) (atomicValue f (8 * widthBytes w) old v.toNat c.toNat))) := by
  intro old
  have hsense := writes_senseRead s (s.partOf asid) ps
  have haloof := aloof_senseRead s (s.partOf asid) ps
  rw [hr] at hsense haloof
  have hsub : (subWord (widthBytes w) && DataFault.word == .word) = true := by obtain rfl | rfl := hw <;> decide
  obtain ⟨y, hexec⟩ := ((exec_fabricAtomic (src := src) (tag := tag) (o := o) (v := v) (c := c) hop hps).2 a .word s1 hr).1 hsub
  obtain ⟨hput, hput'⟩ := farPut_keeps s1 y ps (widthBytes w) (atomicValue f (8 * widthBytes w) old v.toNat c.toNat)
  have r := answerFault_replies ho (u := State.repoison _ a) (hput'.modid.trans haloof.modid) tag DataFault.word.info
  exact ⟨_, hexec, says_of_replies r, replies_poison r ▸ repoison_mem_poison _ a, fun hu => puts_of_writes (writes_trans hsense hput) hu (replies_mem r :)⟩

theorem fabricAtomic_faulted {a : Nat} {d : DataFault} {s1 : State} (hr : s.senseRead (s.partOf asid) ps = (some (a, d), s1))
    (hw : d ≠ .word ∨ w = .W ∨ w = .D) :
    ∃ t, exec (.fabricAtomic src tag off asid op w o v c) s = .next t ∧ Faults t tag d.info ∧ t.mem = s1.mem := by
  have haloof := aloof_senseRead s (s.partOf asid) ps
  rw [hr] at haloof
  have hsub : (subWord (widthBytes w) && d == .word) = false := by
    obtain hd | rfl | rfl := hw
    · rw [beq_eq_false_iff_ne.2 hd, Bool.and_false]
    · rfl
    · rfl
  have r := answerFault_replies ho haloof.modid tag d.info
  exact ⟨_, ((exec_fabricAtomic (src := src) (tag := tag) (o := o) (v := v) (c := c) hop hps).2 a d s1 hr).2 hsub, says_of_replies r, replies_mem r⟩

end

theorem fabricAtomic_refused (ho : Outward s src) (hop : 9 ≤ op.toNat) :
    ∃ t, exec (.fabricAtomic src tag off asid op w o v c) s = .next t ∧ Refuses s t tag := by
  refine ⟨_, ?_, refusePlain_refuses ho tag⟩
  change execFabricAtomic src tag off asid op w o v c s = _
  unfold execFabricAtomic
  dsimp only
  rw [farOp_none hop]

/-! Publications. -/

theorem fabricPublication_acknowledged (ho : Outward s src) (no : Word) :
    ∃ t, exec (.fabricPublication src no asid) s = .next t ∧ Says t (.publicationAcknowledgement s.modid no asid) ∧ t = { s with outbox := t.outbox } := by
  have r := sendModule_replies ho (u := s) rfl (.publicationAcknowledgement s.modid no asid)
  exact ⟨_, rfl, says_of_replies r, only_outbox r⟩

theorem acknowledgement_noted (no : Word) :
    ∃ t, exec (.publicationAcknowledgement src no asid) s = .next t ∧ t = { s with fabPubs := t.fabPubs, farReaders := t.farReaders } ∧
      ∀ q, q ∈ t.fabPubs ↔ q ∈ s.fabPubs ∧ ¬(q.module_ = src ∧ q.no = no ∧ ∀ sl, (s.hall q.hall).slice = some sl → sl.asid = asid) := by
  refine ⟨_, rfl, rfl, fun q => ?_⟩
  refine List.mem_filter.trans (and_congr_right fun _ => ?_)
  have hasid : (match (s.hall q.hall).slice with | some sl => sl.asid == asid | none => true) = true ↔
      ∀ sl, (s.hall q.hall).slice = some sl → sl.asid = asid := by
    cases (s.hall q.hall).slice with
    | none => simp
    | some sl => simp
  rw [Bool.not_eq_true', ← Bool.not_eq_true, not_iff_not, Bool.and_eq_true, Bool.and_eq_true, beq_iff_eq, beq_iff_eq, and_assoc]
  exact and_congr_right fun _ => and_congr_right fun _ => hasid

end

end Sys2Proof.Proofs
end


section
/-! Responses of other members, and their absence (R131, R139, R386, R406, R409, R414). -/

namespace Sys2Proof.Proofs
open Sys2Proof.Machine Sys2Proof.Spec Sys2Proof.Laws

section
variable {s : State} {tag : BitVec 16} {status cause detail : Byte} {v : Word} {r : FabReq}

section
variable (hr : s.fabReqs.find? (fun r => r.tag == tag.toNat) = some r)
include hr

theorem exec_response_done (h : status = 0) : exec (.response tag status cause detail v) s = .next (s.farDone r (leBytes 8 v.toNat)) := by
  change execResponse tag status cause detail v s = _
  unfold execResponse
  rw [hr]
  exact congrArg _ (if_pos h)

theorem exec_response_fault (h : status ≠ 0) :
    exec (.response tag status cause detail v) s = .next (s.farFault r (responseFault status cause detail)) := by
  change execResponse tag status cause detail v s = _
  unfold execResponse
  rw [hr]
  exact congrArg _ (if_neg h)

/-- No other request has the tag of the one that is answered. -/
theorem dropReq_tags : ∀ x ∈ (s.dropReq r).fabReqs, x.tag ≠ tag.toNat := by
  have htag : (r.tag == tag.toNat) = true := List.find?_some (p := fun r : FabReq => r.tag == tag.toNat) hr
  intro x hx
  have hne := (List.mem_filter.1 hx).2
  rw [beq_iff_eq.1 htag] at hne
  exact bne_iff_ne.1 hne

end

theorem slotOf_waits {q : Slot} (hq : s.slotOf r = some q) : q ∈ (s.strand r.hall r.strand).slots ∧ q.data = none := by
  unfold State.slotOf at hq
  split at hq
  · have hp := List.find?_some hq
    rw [Bool.and_eq_true, Option.isNone_iff_eq_none] at hp
    exact ⟨List.mem_of_find?_eq_some hq, hp.2⟩
  · exact absurd hq nofun

theorem farDone_lands {q : Slot} {bs : Bytes} (ha : r.atomic = false) (hq : s.slotOf r = some q) : s.farDone r bs = (s.dropReq r).farLand r q bs := by
  have hslot : (s.dropReq r).slotOf r = some q := hq
  unfold State.farDone
  dsimp only
  rw [ha, if_neg Bool.false_ne_true, hslot]

theorem farDone_write {bs : Bytes} (ha : r.atomic = false) (hs : r.slot = none) : s.farDone r bs = s.dropReq r := by
  have hslot : (s.dropReq r).slotOf r = none := by
    unfold State.slotOf
    rw [hs]
  unfold State.farDone
  dsimp only
  rw [ha, if_neg Bool.false_ne_true, hslot]

/-! A read's bytes arrive. -/

section
variable {q : Slot} {bs : Bytes} (hfar : ∀ a ∈ q.paddrs, inFabric a = true)
include hfar

theorem farLand_waits (hmissing : ∃ a ∈ q.paddrs, cellAt a (q.far ++ r.addrs.zip bs) = none) :
    s.farLand r q bs = s.onStrand r.hall r.strand fun x =>
      { x with slots := x.slots.map fun t => if t.seq = q.seq then { t with far := q.far ++ r.addrs.zip bs } else t } := by
  obtain ⟨a, hin, hnone⟩ := hmissing
  exact if_pos (List.any_eq_true.2 ⟨a, hin, by rw [hfar a hin, hnone]; rfl⟩)

theorem landBytes_far {h : HallId} {st : Strand} {far : List Host.Cell} {us : List Upd}
    (hg : q.req.give (q.paddrs.map fun a => (cellAt a (q.image ++ far)).getD 0) = .ok us) :
    s.landBytes h st q far [] = (s.onStrand h st (·.hasRead [])).fillSlot h st q.seq us none := by
  have hnear : q.paddrs.filter (fun a => !inFabric a) = [] := List.filter_eq_nil_iff.2 fun a ha => by rw [hfar a ha]; exact Bool.false_ne_true
  unfold State.landBytes
  dsimp only
  rw [hnear]
  change (match q.req.give (q.paddrs.map fun a => (cellAt a (q.image ++ far)).getD 0) with
    | .ok us => (s.onStrand h st (·.hasRead [])).fillSlot h st q.seq (us ++ []) none
    | .error e => (s.onStrand h st (·.hasRead [])).slotFault h st q e) = _
  rw [hg]
  dsimp only
  rw [List.append_nil]

theorem farLand_whole (hwhole : ∀ a ∈ q.paddrs, cellAt a (q.far ++ r.addrs.zip bs) ≠ none) (hreq : ∀ d sc, q.req ≠ .cpWait d sc) :
    s.farLand r q bs = s.landBytes r.hall r.strand q (q.far ++ r.addrs.zip bs) [] := by
  have hnone : (q.paddrs.any fun a => inFabric a && (cellAt a (q.far ++ r.addrs.zip bs)).isNone) = false := by
    refine List.any_eq_false.2 fun a ha => ?_
    rw [hfar a ha, Bool.true_and, Option.isNone_iff_eq_none]
    exact hwhole a ha
  unfold State.farLand
  dsimp only
  rw [if_neg (ne_true_of_eq_false hnone)]
  split
  · next d sc h => exact absurd h (hreq d sc)
  · rfl

end

theorem response_waits {q : Slot} (hr : s.fabReqs.find? (fun r => r.tag == tag.toNat) = some r) (ha : r.atomic = false) (hq : s.slotOf r = some q)
    (hfar : ∀ a ∈ q.paddrs, inFabric a = true) (hmissing : ∃ a ∈ q.paddrs, cellAt a (q.far ++ r.addrs.zip (leBytes 8 v.toNat)) = none) :
    ∃ t y, exec (.response tag 0 0 0 v) s = .next t ∧ y ∈ (t.strand r.hall r.strand).slots ∧ y.seq = q.seq ∧ y.data = none ∧
      y.far = q.far ++ r.addrs.zip (leBytes 8 v.toNat) ∧ ∀ x ∈ t.fabReqs, x.tag ≠ tag.toNat := by
  obtain ⟨hin, hdata⟩ := slotOf_waits hq
  have hexec := (exec_response_done (cause := 0) (detail := 0) hr rfl).trans (congrArg Host.Outcome.next ((farDone_lands ha hq).trans
    (farLand_waits (s := s.dropReq r) hfar hmissing)))
  refine ⟨_, { q with far := q.far ++ r.addrs.zip (leBytes 8 v.toNat) }, hexec, ?_, rfl, hdata, rfl, dropReq_tags hr⟩
  rw [strand_onStrand_same]
  exact List.mem_map.2 ⟨q, hin, if_pos rfl⟩

theorem response_brings {q : Slot} {us : List Upd} (hr : s.fabReqs.find? (fun r => r.tag == tag.toNat) = some r) (ha : r.atomic = false)
    (hq : s.slotOf r = some q) (hfar : ∀ a ∈ q.paddrs, inFabric a = true)
    (hwhole : ∀ a ∈ q.paddrs, cellAt a (q.far ++ r.addrs.zip (leBytes 8 v.toNat)) ≠ none) (hreq : ∀ d sc, q.req ≠ .cpWait d sc)
    (hg : q.req.give (q.paddrs.map fun a => (cellAt a (q.image ++ (q.far ++ r.addrs.zip (leBytes 8 v.toNat)))).getD 0) = .ok us) :
    Brings s tag v r q us := by
  let u : State := (s.dropReq r).onStrand r.hall r.strand (·.hasRead [])
  have hu : u.strand r.hall r.strand = (s.strand r.hall r.strand).hasRead [] := strand_onStrand_same (s.dropReq r) _ _ _
  have hears : Hears (s.strand r.hall r.strand) (u.strand r.hall r.strand) := hu ▸ hears_hasRead _ []
  have hexec : exec (.response tag 0 0 0 v) s = .next (u.fillSlot r.hall r.strand q.seq us none) :=
    (exec_response_done hr rfl).trans (congrArg _ ((farDone_lands ha hq).trans ((farLand_whole hfar hwhole hreq).trans (landBytes_far hfar hg))))
  obtain ⟨y, hy, hseq, hfault, hdata, hown, -⟩ := fillSlot_fills (s := u) us none (x := q) (hears.slots ▸ (slotOf_waits hq).1)
  obtain ⟨g, hfill, -⟩ := fillSlot_eq u r.hall r.strand q.seq us none
  refine ⟨_, y, hexec, hy, hseq, hfault, hdata, ?_, (sameOwn_trans hears.own hown).1⟩
  rw [hfill]
  exact dropReq_tags hr

/-! A fault arrives. -/

theorem firstFault_isSome (x : Option (Nat × TrapInfo)) (y : Nat × TrapInfo) : (firstFault x (some y)).isSome = true := by
  cases x with
  | none => rfl
  | some x =>
    unfold firstFault
    dsimp only
    split <;> rfl

/-- A write that another member refuses is a fault that strikes later (R121). -/
theorem response_write {f : TrapInfo} (ha : r.atomic = false) (he : r.engine = none) (hs : r.slot = none) :
    ((s.farFault r f).strand r.hall r.strand).lateFault.isSome = true ∧ (s.farFault r f).mem = s.mem := by
  have hstep : s.farFault r f = (s.dropReq r).onStrand r.hall r.strand fun x =>
      { x with lateFault := firstFault x.lateFault (some (r.after, { r.info with cause := f.cause, detail := f.detail })) } := by
    unfold State.farFault
    dsimp only
    rw [ha, if_neg Bool.false_ne_true, he]
    dsimp only
    rw [hs]
  rw [hstep, strand_onStrand_same]
  exact ⟨firstFault_isSome _ _, rfl⟩

theorem response_slotFault {q : Slot} {f : TrapInfo} (ha : r.atomic = false) (he : r.engine = none) (hs : r.slot.isSome = true) (hq : s.slotOf r = some q)
    (hf : f.cause ≠ .INTEGRITY ∨ q.depth = 0) :
    ∃ y i, y ∈ ((s.farFault r f).strand r.hall r.strand).slots ∧ y.seq = q.seq ∧ y.fault = some i ∧ i.cause = f.cause ∧ i.detail = f.detail ∧
      i.addr = q.addr ∧ (s.farFault r f).mem = s.mem := by
  let i : TrapInfo := { r.info with cause := f.cause, detail := f.detail, access := q.accessOf.1, width := q.accessOf.2, addr := q.addr }
  have hstep : s.farFault r f = (s.dropReq r).fillSlot r.hall r.strand q.seq [] (some i) := by
    obtain ⟨n, hn⟩ := Option.isSome_iff_exists.1 hs
    have hslot : (s.dropReq r).slotOf r = some q := hq
    unfold State.farFault
    dsimp only
    rw [ha, if_neg Bool.false_ne_true, he]
    dsimp only
    rw [hn]
    dsimp only
    rw [hslot]
    exact slotFault_fills (s.dropReq r) r.hall r.strand (f := i) hf
  obtain ⟨y, hy, hseq, hfault, -⟩ := fillSlot_fills (s := s.dropReq r) [] (some i) (x := q) (slotOf_waits hq).1
  obtain ⟨g, hfill, -⟩ := fillSlot_eq (s.dropReq r) r.hall r.strand q.seq [] (some i)
  rw [hstep]
  refine ⟨y, i, hy, hseq, hfault, rfl, rfl, rfl, ?_⟩
  rw [hfill]
  rfl

/-! An atomic's old value arrives. -/

theorem response_atomic_gone {a : Atomic} (hr : s.fabReqs.find? (fun r => r.tag == tag.toNat) = some r) (ha : r.atomic = true)
    (hfa : s.farAtomic r = some a)
    (hlives : s.atomicLives a = false) :
    ∃ t, exec (.response tag status cause detail v) s = .next t ∧ t.atomics = s.atomics.filter (fun x => x.id != a.id) ∧ t.halls = s.halls ∧
      t.mem = s.mem := by
  have hfound : (s.dropReq r).farAtomic r = some a := hfa
  have hgone : ({ s.dropReq r with atomics := (s.dropReq r).atomics.filter fun x => x.id != a.id } : State).atomicLives a = false := hlives
  by_cases h : status = 0
  · refine ⟨_, (exec_response_done hr h).trans (congrArg _
      (?_ : _ = { s.dropReq r with atomics := (s.dropReq r).atomics.filter fun x => x.id != a.id })), rfl, rfl, rfl⟩
    unfold State.farDone
    dsimp only
    rw [ha, if_pos rfl, hfound]
    exact if_neg (hgone ▸ Bool.false_ne_true)
  · refine ⟨_, (exec_response_fault hr h).trans (congrArg _
      (?_ : _ = { s.dropReq r with atomics := (s.dropReq r).atomics.filter fun x => x.id != a.id })), rfl, rfl, rfl⟩
    unfold State.farFault
    dsimp only
    rw [ha, if_pos rfl, hfound]
    exact if_neg (hgone ▸ Bool.false_ne_true)

theorem leNat_leBytes (n v : Nat) : leNat (leBytes n v) = v % 256 ^ n := by
  induction n generalizing v with
  | zero => exact (Nat.mod_one v).symm
  | succ n ih =>
    change (BitVec.ofNat 8 v).toNat + 256 * leNat (leBytes n (v / 256)) = _
    rw [ih, BitVec.toNat_ofNat, Nat.pow_succ' (n := n), Nat.mod_mul (a := 256)]

/-- A log entry is no part of a strand. -/
theorem logEntry_keeps (s : State) (h : HallId) (w : Word) (d : Nat) (x y z : Word) :
    (s.logEntry h w d x y z).mem = s.mem ∧ (s.logEntry h w d x y z).atomics = s.atomics ∧ ∀ st, (s.logEntry h w d x y z).strand h st = s.strand h st := by
  unfold State.logEntry
  split
  · exact ⟨rfl, rfl, fun _ => rfl⟩
  · refine ⟨rfl, rfl, fun st => ?_⟩
    simp only [State.strand, hall_onHall_same]
    rfl

/-- An atomic with a slot lands its old value there (R132). -/
theorem atomicDone_lands {a : Atomic} {n d old : Nat} {q : Slot} (c : Clock) (hslot : a.slot = some n)
    (hq : (s.strand a.h a.strand).slots.find? (fun x => x.seq == n) = some q) (hreq : q.req = .atomic a.id d) :
    ∃ y us, y ∈ ((s.atomicDone a old c [] []).strand a.h a.strand).slots ∧ y.seq = n ∧ y.fault = none ∧
      y.data = some (.sreg d (BitVec.ofNat 64 old) :: us) ∧ (s.atomicDone a old c [] []).mem = s.mem ∧
      (s.atomicDone a old c [] []).atomics = s.atomics := by
  obtain ⟨hmem, hatomics, hstrand⟩ := logEntry_keeps s a.h a.word a.depth a.vaddr (atomicOp2 a.op a.operand a.comparand) (BitVec.ofNat 64 old)
  let u : State := (s.logEntry a.h a.word a.depth a.vaddr (atomicOp2 a.op a.operand a.comparand) (BitVec.ofNat 64 old)).onStrand a.h a.strand fun x =>
    { x with lastRead := x.lastRead, observed := x.observed }
  let us : List Upd := if Order.isAcq a.order then [.learn c, .renew a.scope] else []
  have hslots : (u.strand a.h a.strand).slots = (s.strand a.h a.strand).slots := by
    rw [strand_onStrand_same, hstrand]
  have hstep : s.atomicDone a old c [] [] = u.fillSlot a.h a.strand n (.sreg d (BitVec.ofNat 64 old) :: us) none := by
    have hfind : (u.strand a.h a.strand).slots.find? (fun t => t.seq == n) = some q := hslots.symm ▸ hq
    unfold State.atomicDone
    rw [hslot]
    change State.fillSlot u a.h a.strand n (.sreg (match (u.strand a.h a.strand).slots.find? fun t => t.seq == n with
      | some t => (match t.req with | .atomic _ d => d | _ => 0)
      | none => 0) (BitVec.ofNat 64 old) :: us) none = _
    rw [hfind]
    dsimp only
    rw [hreq]
  have hseq : q.seq = n := beq_iff_eq.1 (List.find?_some (p := fun x : Slot => x.seq == n) hq)
  obtain ⟨y, hy, hys, hfault, hdata, -⟩ := fillSlot_fills (s := u) (.sreg d (BitVec.ofNat 64 old) :: us) none (x := q)
    (hslots.symm ▸ List.mem_of_find?_eq_some hq)
  obtain ⟨g, hfill, -⟩ := fillSlot_eq u a.h a.strand n (.sreg d (BitVec.ofNat 64 old) :: us) none
  rw [hseq] at hy hys
  rw [hstep]
  refine ⟨y, us, hy, hys, hfault, hdata, ?_, ?_⟩
  · rw [hfill]
    exact hmem
  · rw [hfill]
    exact hatomics

theorem response_atomic {a : Atomic} {n d : Nat} {q : Slot} (hr : s.fabReqs.find? (fun r => r.tag == tag.toNat) = some r) (ha : r.atomic = true)
    (hfa : s.farAtomic r = some a) (hlives : s.atomicLives a = true) (hslot : a.slot = some n) (hstatus : status = 0)
    (hq : (s.strand a.h a.strand).slots.find? (fun x => x.seq == n) = some q) (hreq : q.req = .atomic a.id d) :
    ∃ t y us, exec (.response tag status cause detail v) s = .next t ∧ t.atomics = s.atomics.filter (fun x => x.id != a.id) ∧
      y ∈ (t.strand a.h a.strand).slots ∧ y.seq = n ∧ y.fault = none ∧
      y.data = some (.sreg d (BitVec.ofNat 64 (v.toNat % 2 ^ (8 * a.paddrs.length))) :: us) ∧ t.mem = s.mem := by
  let u : State := { s.dropReq r with atomics := (s.dropReq r).atomics.filter fun x => x.id != a.id }
  have hfound : (s.dropReq r).farAtomic r = some a := hfa
  have hlives : u.atomicLives a = true := hlives
  have hold : leNat (leBytes 8 v.toNat) = v.toNat := (leNat_leBytes 8 v.toNat).trans (Nat.mod_eq_of_lt v.isLt)
  have hstep : s.farDone r (leBytes 8 v.toNat) =
      u.atomicDone a (v.toNat % 2 ^ (8 * a.paddrs.length)) (u.peersClock a.asid) [] [] := by
    unfold State.farDone
    dsimp only
    rw [ha, if_pos rfl, hfound]
    dsimp only
    rw [hold]
    exact if_pos hlives
  obtain ⟨y, us, hy, hseq, hfault, hdata, hmem, hatomics⟩ := atomicDone_lands (s := u) (old := v.toNat % 2 ^ (8 * a.paddrs.length))
    (u.peersClock a.asid) hslot hq hreq
  exact ⟨_, y, us, (exec_response_done hr hstatus).trans (congrArg _ hstep), hatomics, hy, hseq, hfault, hdata, hmem⟩

/-! Responses to no request of a strand. -/

theorem find_untagged (h : ∀ r ∈ s.fabReqs, r.tag ≠ tag.toNat) : s.fabReqs.find? (fun r => r.tag == tag.toNat) = none :=
  List.find?_eq_none.2 fun r hr => Bool.eq_false_iff.1 (beq_eq_false_iff_ne.2 (h r hr))

/-- A byte that an engine has asked for and that has not come. -/
def Awaited (s : State) (tag : BitVec 16) : Prop := ∃ c ∈ s.farCells, c.tag = tag.toNat ∧ c.byte = none ∧ c.bad = 0

theorem awaited_any (h : Awaited s tag) : (s.farCells.any fun c => c.tag == tag.toNat && c.byte.isNone && c.bad == 0) = true := by
  obtain ⟨c, hc, htag, hbyte, hbad⟩ := h
  exact List.any_eq_true.2 ⟨c, hc, by rw [htag, hbyte, hbad]; simp⟩

theorem response_cells (hr : ∀ r ∈ s.fabReqs, r.tag ≠ tag.toNat) (hc : Awaited s tag) :
    (status = 0 → ∃ t, exec (.response tag status cause detail v) s = .next t ∧ t = { s with farCells := t.farCells } ∧
      ∀ c ∈ t.farCells, c.tag = tag.toNat → c.byte.isSome = true) ∧
    (status ≠ 0 → ∃ t, exec (.response tag status cause detail v) s = .next t ∧ t = { s with farCells := t.farCells } ∧
      ∀ c ∈ t.farCells, c.tag = tag.toNat → c.bad = farCode (responseFault status cause detail)) := by
  change (_ → ∃ t, execResponse tag status cause detail v s = _ ∧ _) ∧ (_ → ∃ t, execResponse tag status cause detail v s = _ ∧ _)
  unfold execResponse
  rw [find_untagged hr]
  dsimp only
  rw [if_pos (awaited_any hc)]
  refine ⟨fun h => ?_, fun h => ?_⟩
  · rw [if_pos h]
    refine ⟨_, rfl, rfl, fun c hin htag => ?_⟩
    obtain ⟨x, -, rfl⟩ := List.mem_map.1 hin
    split at htag
    · next hx => rw [if_pos hx]; rfl
    · next hx =>
      rw [if_neg hx]
      exact Option.isSome_iff_ne_none.2 fun hb => hx ⟨htag, Option.isNone_iff_eq_none.2 hb⟩
  · rw [if_neg h]
    refine ⟨_, rfl, rfl, fun c hin htag => ?_⟩
    obtain ⟨x, -, rfl⟩ := List.mem_map.1 hin
    split at htag
    · next hx => rw [if_pos hx]
    · next hx => exact absurd htag hx

theorem exec_response_round (hr : ∀ r ∈ s.fabReqs, r.tag ≠ tag.toNat) (hc : ∀ c ∈ s.farCells, c.tag ≠ tag.toNat) :
    (∀ k p w, s.mrTags.find? (fun e => e.1 == tag) = some (k, p, w) → status = 1 →
      ∃ t, exec (.response tag status cause detail v) s = .next t ∧ w ∈ (t.part p).mrOff ∧ (∀ q, q ≠ p → t.part q = s.part q) ∧ t.halls = s.halls ∧
        t.mem = s.mem) ∧
    (s.mrTags.find? (fun e => e.1 == tag) = none ∨ status ≠ 1 → exec (.response tag status cause detail v) s = .next s) := by
  have hnone : (s.farCells.any fun c => c.tag == tag.toNat && c.byte.isNone && c.bad == 0) = false := by
    refine List.any_eq_false.2 fun c hin => ?_
    rw [beq_eq_false_iff_ne.2 (hc c hin)]
    exact Bool.false_ne_true
  change (∀ k p w, _ → _ → ∃ t, execResponse tag status cause detail v s = _ ∧ _) ∧ (_ → execResponse tag status cause detail v s = _)
  unfold execResponse
  rw [find_untagged hr]
  dsimp only
  rw [if_neg (ne_true_of_eq_false hnone)]
  refine ⟨fun k p w hm h => ?_, fun h => ?_⟩
  · rw [hm]
    dsimp only
    rw [if_pos h]
    refine ⟨_, rfl, ?_, fun q hq => part_onPart_ne _ p q _ hq, rfl, rfl⟩
    rw [part_onPart_same]
    dsimp only
    split
    · next hin => exact List.contains_iff_mem.1 hin
    · exact List.mem_append_right _ (List.mem_singleton_self w)
  · cases hm : s.mrTags.find? fun e => e.1 == tag with
    | none => rfl
    | some e => exact congrArg _ (if_neg (h.resolve_left (hm ▸ nofun)))

/-! Publications that wait for a member cut off. -/

theorem fabricTimeout_gives_up {h : HallId} {st : Strand} {sl : Slice} {x : FabPub} (hsl : (s.hall h).slice = some sl)
    (hreq : s.timedOut h st sl.part = none)
    (hpub : s.timedPub h st sl.part = some x) :
    ∃ t, exec (.fabricTimeout h st) s = .next t ∧ x ∉ t.fabPubs ∧ (t.strand h st).lateFault.isSome = true ∧ (t.strand h st).s = (s.strand h st).s ∧
      t.mem = s.mem := by
  let u : State := { s with fabPubs := s.fabPubs.filter fun y => y != x }
  let late : StrandState → StrandState := fun y =>
    { y with lateFault := firstFault y.lateFault (some (y.stores, { cause := .PROT, detail := 0x20, access := .system })) }
  have hexec : exec (.fabricTimeout h st) s = .next (u.onStrand h st late) := by
    change execFabricTimeout h st s = _
    unfold execFabricTimeout
    rw [hsl]
    dsimp only
    rw [hreq]
    dsimp only
    rw [hpub]
  have hstrand : (u.onStrand h st late).strand h st = late (s.strand h st) := strand_onStrand_same u h st late
  refine ⟨_, hexec, fun hin => ?_, ?_, ?_, rfl⟩
  · exact bne_iff_ne.1 (List.mem_filter.1 hin).2 rfl
  · rw [hstrand]
    exact firstFault_isSome _ _
  · rw [hstrand]

end

/-- What an atomic of another member leaves, by the value that it writes. -/
theorem farPut_puts {s t : State} {ps : List Nat} {n : Nat} (x : Option Nat) : Puts s t (farPutCells ps n x) →
    match x with
    | some x => Puts s t (ps.zip (leBytes n x))
    | none => Puts s t [] := by
  cases x with
  | none => exact id
  | some x => exact id

/-- Settles O48: an access of another member ends in one answer, and a response in the slot, the atomic or the cells that its tag names. -/
theorem fabricMessages : Obligations.FabricMessages := by
  intro s src tag off asid
  refine ⟨fun ho => ⟨fun len => ⟨fabricRead_refused ho, fun hpos hlen => ⟨fun f hf => fabricRead_unresolved ho hpos hlen hf, fun ps hps =>
        ⟨fun a f hr => fabricRead_faulted ho hpos hlen hps hr, fun hr => fabricRead_reads ho hpos hlen hps hr⟩⟩⟩,
      fun d => ⟨fabricWrite_refused ho, fun hpos hlen => ⟨fun f hf => fabricWrite_unresolved ho hpos hlen hf,
        fun ps hps => fabricWrite_writes ho hpos hlen hps⟩⟩,
      fun op w o v c => ⟨fabricAtomic_refused ho, fun f hop => ⟨fun e he => fabricAtomic_unresolved hop ho he,
        fun ps hps => ⟨fun s1 hr => ?_, fun a s1 hr hw => ?_,
        fun a d s1 hr hw => fabricAtomic_faulted hop ho hps hr hw⟩⟩⟩, fabricPublication_acknowledged ho⟩,
    acknowledgement_noted,
    fun r q v hr ha hq hfar => ⟨response_waits hr ha hq hfar,
      fun hwhole => ⟨fun d n sx hreq => ?_, fun offs es hreq => ?_, fun i hreq hok => ?_⟩⟩,
    fun r status cause detail v hr => ⟨fun ha he hs => ⟨fun h => ?_, fun h => ⟨_, exec_response_fault hr h, response_write ha he hs⟩⟩,
      fun q ha he hs hq h hf => ?_, fun a n q d ha hfa hlives hslot hstatus hq hreq => response_atomic hr ha hfa hlives hslot hstatus hq hreq,
      fun a ha hfa hlives => response_atomic_gone hr ha hfa hlives⟩,
    fun status cause detail v hr => ⟨response_cells hr, exec_response_round hr⟩, fun h st sl x hsl hreq hpub => fabricTimeout_gives_up hsl hreq hpub⟩
  · obtain ⟨t, hexec, haccepts, hputs⟩ := fabricAtomic_performs (o := o) (v := v) (c := c) hop ho hps hr
    exact ⟨t, hexec, haccepts, fun hu _ => farPut_puts _ (hputs hu)⟩
  · obtain ⟨t, hexec, hfaults, hpoison, hputs⟩ := fabricAtomic_words (o := o) (v := v) (c := c) hop ho hps hr hw
    exact ⟨t, hexec, hfaults, hpoison, fun hu _ => farPut_puts _ (hputs hu)⟩
  · exact response_brings hr ha hq hfar hwhole (fun _ _ h => by rw [hreq] at h; cases h) (by rw [hreq]; rfl)
  · exact response_brings hr ha hq hfar hwhole (fun _ _ h => by rw [hreq] at h; cases h) (by rw [hreq]; rfl)
  · exact response_brings hr ha hq hfar hwhole (fun _ _ h => by rw [hreq] at h; cases h) (by rw [hreq]; exact if_pos hok)
  · exact (exec_response_done hr h).trans (congrArg _ (farDone_write ha hs))
  · obtain ⟨y, i, hy, hseq, hfault, hcause, hdetail, haddr, hmem⟩ := response_slotFault ha he hs hq hf
    exact ⟨_, y, i, exec_response_fault hr h, hy, hseq, hfault, hcause, hdetail, haddr, hmem⟩

end Sys2Proof.Proofs
end

section
/-! The vector datapath and its widths (R154, R156, R157), and the elements of tiles as integers (R27, R69, R165). -/

namespace Sys2Proof.Proofs
open Sys2Proof.Machine Sys2Proof.Spec Sys2Proof.Laws

/-! Widths (R27, R154). -/

/-- The shape's WIDTH field is the type's exactly when the shape's width is the type's. -/
theorem hasWidth_iff (W : Work) (t : Nat) (ty : ETy) : W.hasWidth t ty = true ↔ shapeWidth (W.shape t) = ty.width := by
  unfold Work.hasWidth shapeWidth
  generalize (W.shape t).extractLsb' 0 2 = code
  revert code
  cases ty <;> decide

theorem all_hasWidth_iff (W : Work) (chk : List (Nat × ETy)) :
    (chk.all fun e => W.hasWidth e.1 e.2) = true ↔ ∀ e ∈ chk, shapeWidth (W.shape e.1) = e.2.width := by
  simp only [List.all_eq_true, hasWidth_iff]

/-! What a vector syllable does with the datapath busy, at a width that is not its type's, and otherwise. -/

section
variable {s : State} {rd : List Src} {chk : List (Nat × ETy)} {lat occ : Nat} {us : Work → List Upd}

theorem vector_holds (hbusy : s.me.local_ < s.me.vecFree) : Holds s (s.vector rd chk lat occ us) := by
  unfold State.vector State.onDatapath
  rw [if_pos hbusy]
  exact hold_holds s

theorem vector_traps (hfree : s.me.vecFree ≤ s.me.local_) (hr : Readable s rd) (hw : ∃ e ∈ chk, shapeWidth (s.here.work.shape e.1) ≠ e.2.width)
    (hu : Unstopped s) : Traps s (s.vector rd chk lat occ us) { cause := .ILLEGAL } := by
  have hbad : ¬(chk.all fun e => s.here.work.hasWidth e.1 e.2) = true := by
    rw [all_hasWidth_iff]
    push Not
    exact hw
  have htrap : Traps s (s.trapCause .ILLEGAL) { cause := .ILLEGAL } := trapHere_traps s _ hu
  unfold State.vector State.onDatapath
  rw [if_neg (Nat.not_lt.2 hfree)]
  dsimp only
  rw [reading_readable s _ _ hr, if_neg hbad, if_neg (ne_true_of_eq_false htrap.issued)]
  exact htrap

theorem vector_results (hr : Readable s rd) (hv : VecReady s chk) : VResults s (s.vector rd chk lat occ us) lat occ (us s.here.work) := by
  obtain ⟨hfree, hw⟩ := hv
  have hvec : s.vector rd chk lat occ us =
      { s.onMe (fun x => { x with seq := x.seq + 1, vecFree := s.me.local_ + occ,
                                  pends := x.pends ++ [{ seq := x.seq, due := x.local_ + lat, upds := us s.here.work }] }) with issued := true } := by
    unfold State.vector State.onDatapath
    rw [if_neg (Nat.not_lt.2 hfree)]
    dsimp only
    rw [reading_readable s _ _ hr, if_pos ((all_hasWidth_iff _ _).2 hw)]
    exact congrArg State.issue (onStrand_onStrand s s.curHall s.curStrand _ _)
  rw [hvec]
  exact ⟨rfl, me_onMe s _, onMe_onlyStrand s _ _ _ _, onHere_sameMemory s _ _ _ _ rfl⟩

end

/-! Elements as integers (R27, R69, R165). -/

theorem width_pos (ty : ETy) : 0 < ty.width := by cases ty <;> decide

/-- An element has no bit beyond its type's width. -/
theorem elem_lt {W : Work} {t : Nat} {ty : ETy} {r c : Nat} : W.elem t ty.width r c < 2 ^ ty.width := by
  have hbound := leNat_bound ((List.range (ty.width / 8)).map fun i => W.tileByte t (256 * r + c * (ty.width / 8) + i))
  have hpow : 256 ^ (ty.width / 8) = 2 ^ ty.width := by cases ty <;> rfl
  rwa [List.length_map, List.length_range, hpow] at hbound

section
variable {w : Nat} {u : Bool} {x y : Nat}

theorem sint_eq_intOf (hx : x < 2 ^ w) : sint w x = intOf w false x := by
  unfold sint intOf
  rw [Nat.mod_eq_of_lt hx]
  simp

theorem eint_eq_intOf (hx : x < 2 ^ w) : eint w u x = intOf w u x := by
  cases u with
  | false => exact sint_eq_intOf hx
  | true => exact congrArg Nat.cast (Nat.mod_eq_of_lt hx)

theorem wrap_cast (w : Nat) (v : Int) : ((wrap w v : Nat) : Int) = v % 2 ^ w := Int.toNat_of_nonneg (Int.emod_nonneg _ (by positivity))

theorem wrap_eq_toNat (w : Nat) (v : Int) : wrap w v = (BitVec.ofInt w v).toNat := by
  rw [BitVec.toNat_ofInt]
  push_cast
  rfl

theorem sint_eq_toInt (hx : x < 2 ^ w) (hw : 0 < w) : sint w x = (BitVec.ofNat w x).toInt := by
  have hhalf : 2 ^ w = 2 * 2 ^ (w - 1) := by rw [← pow_succ']; congr 1; omega
  rw [BitVec.toInt_eq_toNat_cond, BitVec.toNat_ofNat, Nat.mod_eq_of_lt hx]
  unfold sint
  rw [Nat.mod_eq_of_lt hx]
  push_cast
  split <;> split <;> omega

/-- An exact result is wrapped, or clamped under SAT (R69, R165). -/
theorem fitInt_fits (w : Nat) (sat u : Bool) (v : Int) : fits w sat u v (fitInt w sat u v) := by
  have horder := intLo_le_intHi w u
  change (fitInt w sat u v).gen = false ∧ (sat = false ∨ (intLo w u ≤ v ∧ v ≤ intHi w u) → _) ∧
    (sat = true → v < intLo w u → _ ∧ _ = intLo w u % 2 ^ w) ∧ (sat = true → intHi w u < v → _ ∧ _ = intHi w u % 2 ^ w)
  unfold fitInt saturate
  cases sat with
  | false => exact ⟨rfl, fun _ => ⟨rfl, wrap_cast w v⟩, nofun, nofun⟩
  | true =>
    rw [if_pos rfl]
    rcases lt_or_ge v (intLo w u) with hlo | hlo
    · rw [if_pos hlo]
      exact ⟨rfl, fun h => absurd (h.resolve_left nofun).1 (not_le.2 hlo), fun _ _ => ⟨rfl, wrap_cast w _⟩, fun _ h => by omega⟩
    rw [if_neg (not_lt.2 hlo)]
    rcases lt_or_ge (intHi w u) v with hhi | hhi
    · rw [if_pos hhi]
      exact ⟨rfl, fun h => absurd (h.resolve_left nofun).2 (not_le.2 hhi), fun _ h => absurd h (not_lt.2 hlo), fun _ _ => ⟨rfl, wrap_cast w _⟩⟩
    · rw [if_neg (not_lt.2 hhi)]
      exact ⟨rfl, fun _ => ⟨rfl, wrap_cast w v⟩, fun _ h => absurd h (not_lt.2 hlo), fun _ h => absurd h (not_lt.2 hhi)⟩

/-- A sum, difference or product of two elements (R165). -/
theorem fitInt_op (op : Int → Int → Int) (sat : Bool) (hx : x < 2 ^ w) (hy : y < 2 ^ w) :
    fits w sat u (op (intOf w u x) (intOf w u y)) (fitInt w sat u (op (eint w u x) (eint w u y))) := by
  rw [eint_eq_intOf hx, eint_eq_intOf hy]
  exact fitInt_fits w sat u _

theorem intOf_min (hx : x < 2 ^ w) (hy : y < 2 ^ w) :
    intOf w u (if eint w u x ≤ eint w u y then x else y) = min (intOf w u x) (intOf w u y) := by
  rw [eint_eq_intOf hx, eint_eq_intOf hy, apply_ite (intOf w u), min_def]

theorem intOf_max (hx : x < 2 ^ w) (hy : y < 2 ^ w) :
    intOf w u (if eint w u y ≤ eint w u x then x else y) = max (intOf w u x) (intOf w u y) := by
  rw [eint_eq_intOf hx, eint_eq_intOf hy, apply_ite (intOf w u), max_comm, max_def]

/-! Shifts, bit by bit (R165). -/

theorem shl_testBit (w x y n : Nat) :
    (if w ≤ y then 0 else x * 2 ^ y % 2 ^ w).testBit n = (decide (y ≤ n) && decide (n < w) && x.testBit (n - y)) := by
  split
  · next h =>
    have hout : ¬(y ≤ n ∧ n < w) := by omega
    rw [Nat.zero_testBit, ← Bool.decide_and, decide_eq_false hout, Bool.false_and]
  · rw [Nat.testBit_mod_two_pow, Nat.testBit_mul_two_pow]
    ac_rfl

theorem shr_testBit (hx : x < 2 ^ w) (n : Nat) : (if w ≤ y then 0 else x / 2 ^ y).testBit n = (decide (n + y < w) && x.testBit (n + y)) := by
  have hbeyond (h : w ≤ n + y) : x.testBit (n + y) = false := Nat.testBit_eq_false_of_lt (hx.trans_le (Nat.pow_le_pow_right two_pos h))
  split
  · next h => rw [Nat.zero_testBit, hbeyond (by omega), Bool.and_false]
  · rw [Nat.testBit_div_two_pow]
    by_cases h : n + y < w
    · rw [decide_eq_true h, Bool.true_and]
    · rw [hbeyond (by omega), Bool.and_false]

theorem sar_testBit (hx : x < 2 ^ w) (hw : 0 < w) {n : Nat} (hn : n < w) :
    (wrap w (sint w x / 2 ^ min y (w - 1))).testBit n = x.testBit (min (n + y) (w - 1)) := by
  have hshift : sint w x / 2 ^ min y (w - 1) = ((BitVec.ofNat w x).sshiftRight (min y (w - 1))).toInt := by
    rw [sint_eq_toInt hx hw, BitVec.toInt_sshiftRight, Int.shiftRight_eq_div_pow]
    push_cast
    rfl
  rw [hshift, wrap_eq_toNat, BitVec.ofInt_toInt]
  change ((BitVec.ofNat w x).sshiftRight (min y (w - 1))).getLsbD n = _
  rw [BitVec.getLsbD_sshiftRight, decide_eq_false (Nat.not_le.2 hn), Bool.not_false, Bool.true_and, BitVec.msb_eq_getLsbD_last,
    BitVec.getLsbD_ofNat, BitVec.getLsbD_ofNat, decide_eq_true (show w - 1 < w by omega), Bool.true_and]
  split
  · next h =>
    rw [decide_eq_true h, Bool.true_and]
    congr 1
    omega
  · congr 1
    omega

end

end Sys2Proof.Proofs
end

section
/-! Elementwise and cross-lane vector syllables (R152 to R157, R159, R162 to R175): each is one operation on the active elements of its destination. -/

namespace Sys2Proof.Proofs
open Sys2Proof.Machine Sys2Proof.Spec Sys2Proof.Laws

/-- What a row says of an element, and what the syllable gives it: a result that the row allows, or nothing where the row has nothing. -/
abbrev Gives (p : Option (NumRes → Prop)) (x : Option NumRes) : Prop := Option.Rel (fun q r => q r) p x

/-- The syllable is an elementwise operation on the row's registers, tiles and destination that gives each element what the row says. -/
def ElementwiseRow (s : State) (i : Instr) (r : VecRow) : Prop :=
  ∃ rd chk f, r.rd = .mask r.k.toNat :: rd ∧ r.chk = (r.d.toNat, r.ty) :: chk ∧
    exec i s = .next (s.elementwise rd chk r.lat r.occ r.ty r.d r.k f) ∧ ∀ e, Gives (r.val e) (f s.here.work e)

/-! What rows of several syllables share. -/

section
variable {c : Prop} [Decidable c] {p : NumRes → Prop} {x : NumRes}

theorem gives_if (h : p x) : Gives (if c then some p else none) (if c then some x else none) := by
  split
  · exact .some h
  · exact .none

end

/-- A result that sets nothing (R159). -/
theorem plainly_plain {q : Nat → Prop} {x : Nat} (h : q x) : plainly q (.plain x) := ⟨rfl, rfl, h⟩

section
variable {s : State} {i : Instr} {rd : List Src} {lat occ : Nat} {ty : ETy} {d a : BitVec 6} {k : BitVec 3}

theorem elementwise_row {chk : List (Nat × ETy)} {f : Work → Nat × Nat → Option NumRes} {val : Nat × Nat → Option (NumRes → Prop)}
    (hi : exec i s = .next (s.elementwise rd chk lat occ ty d k f)) (hf : ∀ e, Gives (val e) (f s.here.work e)) :
    ElementwiseRow s i { rd := .mask k.toNat :: rd, chk := (d.toNat, ty) :: chk, lat := lat, occ := occ, ty := ty, d := d, k := k, val := val } :=
  ⟨rd, chk, f, rfl, rfl, hi, hf⟩

/-- What a row says of an element of a cross-lane syllable, from its source position (R155, R175). -/
def laneVal (W : Work) (ty : ETy) (a : BitVec 6) (k : BitVec 3) : Option (Nat × Nat) → Option (NumRes → Prop)
  | some p => if W.active a.toNat k.toNat p.1 p.2 then some (plainly fun x => x = W.elem a.toNat ty.width p.1 p.2) else none
  | none => none

/-- A cross-lane syllable gives an element its source element, where that is active (R155). -/
theorem crossLane_row {f : Work → Nat × Nat → Option (Nat × Nat)} {val : Nat × Nat → Option (NumRes → Prop)}
    (hi : exec i s = .next (s.crossLane rd lat occ ty d a k f)) (hval : ∀ e, val e = laneVal s.here.work ty a k (f s.here.work e)) :
    ElementwiseRow s i { rd := .mask k.toNat :: .tile a.toNat :: rd, chk := [(d.toNat, ty), (a.toNat, ty)], lat := lat, occ := occ, ty := ty, d := d,
                         k := k, val := val } := by
  refine elementwise_row hi fun e => ?_
  rw [hval]
  cases f s.here.work e with
  | none => exact .none
  | some p => exact gives_if (plainly_plain rfl)

end

/-- VUNPK reads from the upper half of the columns under HI (R174). -/
theorem unpack_column (hi : Bool) (c n : Nat) : c + hi.toNat * n = if hi then c + n else c := by
  cases hi
  · exact congrArg (c + ·) (Nat.zero_mul n)
  · exact congrArg (c + ·) (Nat.one_mul n)

/-! Each elementwise and each cross-lane syllable gives its row. -/

theorem elementwise_of_vecRow {s : State} {i : Instr} {r : VecRow} (h : vecRow s i = some r) : ElementwiseRow s i r := by
  cases i
  case vmov | vsplat | vzero | viota => cases h; exact elementwise_row rfl fun _ => .some (plainly_plain rfl)
  case vins => cases h; exact elementwise_row rfl fun _ => gives_if (plainly_plain rfl)
  case vsel => cases h; exact elementwise_row rfl fun _ => .some (plainly_plain (apply_ite (fun t => Work.elem _ t _ _ _) _ _ _))
  case vadd | vsub | vmul | vfma | vmin | vmax | vabs | vneg | vdiv | vsqrt | vclamp | vrcp | vrsq | vexp2 | vlog2 | vsin | vcos | vtanh | vlogi | vpack =>
    cases h; exact elementwise_row rfl fun _ => .some rfl
  case viadd => cases h; exact elementwise_row rfl fun _ => .some (fitInt_op (· + ·) _ elem_lt elem_lt)
  case visub => cases h; exact elementwise_row rfl fun _ => .some (fitInt_op (· - ·) _ elem_lt elem_lt)
  case vimul => cases h; exact elementwise_row rfl fun _ => .some (fitInt_op (· * ·) _ elem_lt elem_lt)
  case vimin => cases h; exact elementwise_row rfl fun _ => .some (plainly_plain (intOf_min elem_lt elem_lt))
  case vimax => cases h; exact elementwise_row rfl fun _ => .some (plainly_plain (intOf_max elem_lt elem_lt))
  case vand => cases h; exact elementwise_row rfl fun _ => .some (plainly_plain (Nat.testBit_and _ _))
  case vor => cases h; exact elementwise_row rfl fun _ => .some (plainly_plain (Nat.testBit_or _ _))
  case vxor => cases h; exact elementwise_row rfl fun _ => .some (plainly_plain (Nat.testBit_xor _ _))
  case vshl => cases h; exact elementwise_row rfl fun _ => .some (plainly_plain (shl_testBit _ _ _))
  case vshr => cases h; exact elementwise_row rfl fun _ => .some (plainly_plain fun n _ => shr_testBit elem_lt n)
  case vsar => cases h; exact elementwise_row rfl fun _ => .some (plainly_plain fun _ hn => sar_testBit elem_lt (width_pos _) hn)
  case vcvt => cases h; exact elementwise_row rfl fun _ => gives_if rfl
  case vunpk _ _ hi _ _ _ =>
    cases h
    exact elementwise_row rfl fun _ => .some (congrArg (fun c => cvtElem _ _ _ _ (Work.elem _ _ _ _ c)) (unpack_column hi _ _))
  case vrotc | vrotr | vbcc | vbcr | vpermc | vtrn => cases h; exact crossLane_row rfl fun _ => rfl
  all_goals cases h

/-! The results of an elementwise syllable: those of its active elements that it gives one (R155, R159). -/

/-- The result of an element, where it has one. -/
def resultOf (x : Option NumRes) : NumRes := x.getD (.plain 0)

theorem gives_isSome {p : Option (NumRes → Prop)} {x : Option NumRes} (h : Gives p x) : p.isSome = x.isSome := by
  cases h <;> rfl

theorem gives_resultOf {p : Option (NumRes → Prop)} {x : Option NumRes} (h : Gives p x) (hp : p.isSome = true) :
    ∃ q, p = some q ∧ q (resultOf x) := by
  cases h with
  | none => cases hp
  | some hq => exact ⟨_, rfl, hq⟩

/-- The elements with their results are those that have one. -/
theorem filterMap_pair_eq_map {α : Type} (f : α → Option NumRes) (l : List α) :
    l.filterMap (fun e => (f e).map fun r => (e, r)) = (l.filter fun e => (f e).isSome).map fun e => (e, resultOf (f e)) := by
  induction l with
  | nil => rfl
  | cons e l ih => cases h : f e <;> simp [h, ih, resultOf]

/-- What an elementwise syllable writes, sets and counts, from its elements (R159). -/
theorem tileUpds_map (s : State) (d w : Nat) (v : Nat × Nat → NumRes) (as : List (Nat × Nat)) :
    s.tileUpds d w (as.map fun e => (e, v e)) =
      [.tile (as.flatMap fun e => elemCells d w e.1 e.2 (v e).bits), .flags (as.foldl (fun f e => f ||| (v e).flags) 0),
       .count .SAT s.me.ntid.toNat (as.filter fun e => (v e).flags &&& flSAT != 0).length,
       .count .NAN s.me.ntid.toNat (as.filter fun e => (v e).gen).length] := by
  unfold State.tileUpds
  simp only [List.flatMap_map, List.foldl_map, List.filter_map, List.length_map, Function.comp_def]

theorem vectorResults : VectorResults := by
  intro s i r h hr hv as
  obtain ⟨rd, chk, f, hrd, hchk, hexec, hgives⟩ := elementwise_of_vecRow h
  rw [hrd] at hr
  rw [hchk] at hv
  have has : as = (actives s.here.work r.d.toNat r.k.toNat).filter fun e => (f s.here.work e).isSome :=
    List.filter_congr fun e _ => gives_isSome (hgives e)
  refine ⟨_, fun e => resultOf (f s.here.work e), hexec, fun e he => gives_resultOf (hgives e) (List.mem_filter.1 he).2, ?_⟩
  rw [← tileUpds_map, has, ← filterMap_pair_eq_map]
  exact vector_results hr hv

theorem vectorWaitsAndTraps : VectorWaitsAndTraps := by
  intro s i r h
  obtain ⟨rd, chk, f, hrd, hchk, hexec, -⟩ := elementwise_of_vecRow h
  rw [hrd, hchk]
  exact ⟨fun hbusy => ⟨_, hexec, vector_holds hbusy⟩, fun hfree hr hw hu => ⟨_, hexec, vector_traps hfree hr hw hu⟩⟩

/-- Settles O31: every syllable of the table is one elementwise operation, whose results, waits and traps are those of the vector datapath. -/
theorem vectorSyllables : Obligations.VectorSyllables := ⟨vectorResults, vectorWaitsAndTraps⟩

end Sys2Proof.Proofs
end

section
/-! Shapes, single elements and masks (R161, R163, R168, R169). -/

namespace Sys2Proof.Proofs
open Sys2Proof.Machine Sys2Proof.Spec Sys2Proof.Laws

/-! Shapes (R27, R161). -/

/-- VSHAPE's shape has its type's width, its rows and its columns. -/
theorem vshape_fields (ty : ETy) (rows : BitVec 4) (cols : BitVec 8) :
    shapeWidth (cols ++ 0#2 ++ rows ++ widthField ty) = ty.width ∧ shapeRows (cols ++ 0#2 ++ rows ++ widthField ty) = rows.toNat + 1 ∧
      shapeCols (cols ++ 0#2 ++ rows ++ widthField ty) = cols.toNat + 1 := by
  have hrows : (cols ++ 0#2 ++ rows ++ widthField ty).extractLsb' 2 4 = rows := by
    rw [BitVec.extractLsb'_append_eq_of_le (by decide), BitVec.extractLsb'_append_eq_right]
  refine ⟨?_, congrArg (fun x => BitVec.toNat x + 1) hrows, congrArg (fun x => BitVec.toNat x + 1) (shape_cols cols rows (widthField ty))⟩
  unfold shapeWidth
  rw [BitVec.extractLsb'_append_eq_right]
  cases ty <;> rfl

/-! Single elements as registers (R95, R163). -/

theorem width_lt_64 (ty : ETy) : ty.width < 64 := by cases ty <;> decide

section
variable {x : Nat} {ty : ETy} (hx : x < 2 ^ ty.width)
include hx

theorem element_toNat : (BitVec.ofNat 64 x).toNat = x := by
  rw [BitVec.toNat_ofNat]
  exact Nat.mod_eq_of_lt (hx.trans (Nat.pow_lt_pow_right Nat.one_lt_two (width_lt_64 ty)))

theorem element_toInt : (BitVec.ofInt 64 (sint ty.width x)).toInt = intOf ty.width false x := by
  rw [← sint_eq_intOf hx, sint_eq_toInt hx (width_pos ty)]
  exact BitVec.toInt_signExtend_of_le (width_lt_64 ty).le

end

/-! Mask logic (R168). -/

theorem mem_maskElems (e : Nat × Nat) : e ∈ maskElems ↔ e.1 < 16 ∧ e.2 < 256 := by
  simp [maskElems, Prod.ext_iff]

/-- A mask that is given for every position holds a bit for each, and no other. -/
theorem mem_map_maskElems {base : Nat} {q : Nat → Nat → Bool} {x : Nat × BitVec 1} :
    x ∈ maskElems.map (fun e => (base + 256 * e.1 + e.2, BitVec.ofBool (q e.1 e.2))) ↔
      ∃ r c, r < 16 ∧ c < 256 ∧ x.1 = base + 256 * r + c ∧ x.2 = BitVec.ofBool (q r c) := by
  simp only [List.mem_map, mem_maskElems, Prod.exists, Prod.ext_iff, eq_comm, and_assoc]

/-- Settles O32: VSHAPE is a computation, the others are syllables of the vector datapath; what remains is what their values say. -/
theorem shapesMasksAndElements : Obligations.ShapesMasksAndElements := by
  intro s W
  refine ⟨fun ty d rows cols hr => ?_, fun ty d a row col k hr hv => ?_, fun d a b fn hr hfree => ?_, fun d a b hr hfree => ?_⟩
  · exact ⟨_, _, rfl, compute_results s _ 1 _ hr, vshape_fields ty rows cols⟩
  · refine ⟨_, _, rfl, vector_results hr hv, fun h => if_neg (ne_true_of_eq_false h), fun h => ⟨_, if_pos h, fun hf => ?_, fun hf => ?_⟩⟩
    · rw [if_pos hf]
      exact element_toNat elem_lt
    · rw [if_neg (ne_true_of_eq_false hf)]
      exact element_toInt elem_lt
  · refine ⟨_, _, rfl, vector_results hr ⟨hfree, nofun⟩, fun h => if_pos h, fun h => ⟨_, if_neg h, fun x => ?_⟩⟩
    simp only [← plog_index]
    exact mem_map_maskElems (q := fun r c => fn.getLsbD (2 * (W.maskBit a.toNat r c).toNat + (W.maskBit b.toNat r c).toNat))
  · exact ⟨_, rfl, vector_results hr ⟨hfree, nofun⟩⟩

end Sys2Proof.Proofs
end

section
/-! Compares into masks (R166). -/

namespace Sys2Proof.Proofs
open Sys2Proof.Machine Sys2Proof.Spec Sys2Proof.Laws

theorem vfmt_of_float {ty : ETy} (h : ty.isFloat = true) : vfmt ty = some (vff ty) := by
  cases ty with
  | F32 | BF16 | F16 => rfl
  | I32 | I16 | I8 => cases h

theorem vfmt_of_int {ty : ETy} (h : ty.isFloat = false) : vfmt ty = none := by
  cases ty with
  | F32 | BF16 | F16 => cases h
  | I32 | I16 | I8 => rfl

/-- The compare of two elements: whether the condition holds, and the flags. -/
def compareElements (c : VCond) (ty : ETy) (x y : Nat) : Bool × BitVec 6 :=
  match vfmt ty with
  | some f => f.compare (VCond.toF c) x y
  | none => (VCond.holdsInt c ty.width x y, 0)

theorem compareElements_float {c : VCond} {ty : ETy} {fc : FCond} (hty : ty.isFloat = true) (hc : floatCond c = some fc) (x y : Nat) :
    compareElements c ty x y = (vff ty).compare fc x y := by
  have hfc : VCond.toF c = fc := by cases c <;> cases hc <;> rfl
  unfold compareElements
  rw [vfmt_of_float hty, hfc]

theorem compareElements_int {ty : ETy} (hty : ty.isFloat = false) (c : VCond) (x y : Nat) :
    compareElements c ty x y = (VCond.holdsInt c ty.width x y, 0) := by
  unfold compareElements
  rw [vfmt_of_int hty]

/-- An integer compare is of signed elements, or of the elements themselves (R47, R166). -/
theorem holdsInt_eq_decide {w x y : Nat} (hx : x < 2 ^ w) (hy : y < 2 ^ w) (c : VCond) :
    (c = .EQ → VCond.holdsInt c w x y = decide (x = y)) ∧ (c = .NE → VCond.holdsInt c w x y = decide (x ≠ y)) ∧
      (c = .LT → VCond.holdsInt c w x y = decide (intOf w false x < intOf w false y)) ∧
      (c = .GE → VCond.holdsInt c w x y = decide (intOf w false y ≤ intOf w false x)) ∧
      (c = .LTU → VCond.holdsInt c w x y = decide (x < y)) ∧ (c = .GEU → VCond.holdsInt c w x y = decide (y ≤ x)) := by
  rw [← sint_eq_intOf hx, ← sint_eq_intOf hy]
  refine ⟨?_, ?_, ?_, ?_, ?_, ?_⟩ <;> rintro rfl
  · exact beq_eq_decide x y
  · exact (congrArg not (beq_eq_decide x y)).trans decide_not.symm
  all_goals rfl

theorem compare_flags_eq_if (f : Fmt) (c : FCond) (x y : Nat) [Decidable (fcmpNVIn f c x y)] :
    (f.compare c x y).2 = if fcmpNVIn f c x y then flNV else 0 := by
  obtain ⟨hf, hnv⟩ | ⟨hf, hnv⟩ := compare_flags f c x y
  · rw [hf, if_pos hnv]
  · rw [hf, if_neg hnv]

/-- Elements that set one flag or none set that flag together when one of them does. -/
theorem foldl_or_flag {α : Type} (p : α → Prop) [DecidablePred p] (m : BitVec 6) (l : List α) (init : BitVec 6) :
    l.foldl (fun f e => f ||| if p e then m else 0) init = init ||| if ∃ e ∈ l, p e then m else 0 := by
  induction l generalizing init with
  | nil => simp
  | cons e l ih =>
    rw [List.foldl_cons, ih, BitVec.or_assoc]
    by_cases he : p e
    · by_cases hl : ∃ x ∈ l, p x <;> simp [he, hl]
    · simp [he]

/-- What VCMP writes and sets (R166). -/
def compareUpds (c : VCond) (ty : ETy) (d a b : BitVec 6) (k : BitVec 3) (W : Work) : List Upd :=
  let cmp := fun (e : Nat × Nat) => compareElements c ty (W.elem a.toNat ty.width e.1 e.2) (W.elem b.toNat ty.width e.1 e.2)
  [.mask (if d = 0 then [] else (W.targets a.toNat k.toNat).map fun e => (4096 * d.toNat + 256 * e.1 + e.2, BitVec.ofBool (cmp e).1)),
   .flags ((W.targets a.toNat k.toNat).foldl (fun f e => f ||| (cmp e).2) 0)]

theorem exec_vcmp (s : State) (c : VCond) (ty : ETy) (d a b : BitVec 6) (k : BitVec 3) :
    exec (.vcmp c ty d a b k) s =
      .next (s.vector [.tile a.toNat, .tile b.toNat, .mask k.toNat] [(a.toNat, ty), (b.toNat, ty)] 4 4 (compareUpds c ty d a b k)) := by
  change execVcmp c ty d a b k s = _
  unfold execVcmp
  simp only [List.map_map, List.foldl_map]
  rfl

theorem vectorCompares : VectorCompares := by
  intro s c ty d a b k hr hv W on x y i j
  refine ⟨_, _, fun e => (compareElements c ty (x e) (y e)).1, exec_vcmp s c ty d a b k, vector_results hr hv, fun hty => ?_, fun hty fc hc => ?_⟩
  · simp only [compareElements_int hty]
    exact ⟨by simp, fun e _ => holdsInt_eq_decide elem_lt elem_lt c⟩
  · classical
    have hfl : on.foldl (fun f e => f ||| (compareElements c ty (x e) (y e)).2) 0 = if ∃ e ∈ on, fcmpNVIn (vff ty) fc (x e) (y e) then flNV else 0 := by
      simp only [compareElements_float hty hc, compare_flags_eq_if]
      exact (foldl_or_flag _ flNV on 0).trans BitVec.zero_or
    refine ⟨fun e _ => ?_, fun hnv => hfl.trans (if_pos hnv), fun hno => hfl.trans (if_neg fun ⟨e, he, hnv⟩ => hno e he hnv)⟩
    dsimp only
    rw [compareElements_float hty hc]
    exact compare_holds_iff _ _ _ _

end Sys2Proof.Proofs
end

section
/-! Reductions (R176, R177): the model's tree, level by level over a list, and the statement's, position by position. -/

namespace Sys2Proof.Proofs
open Sys2Proof.Machine Sys2Proof.Spec Sys2Proof.Laws

/-! The operation of a reduction (R176). -/

/-- A pattern that the operation is defined on: any of a float type, one within the width of an integer type. -/
def Operand (ty : ETy) (x : Nat) : Prop := ty.isFloat = true ∨ x < 2 ^ ty.width

theorem redFn_eq_redOp {op : RedOp} {u : Bool} {ty : ETy} {x y : Nat} (hx : Operand ty x) (hy : Operand ty y) :
    redFn op u ty x y = redOp op u ty x y := by
  cases hty : ty.isFloat with
  | true =>
    unfold redFn redOp
    rw [vfmt_of_float hty, hty]
    cases op <;> rfl
  | false =>
    have hx := hx.resolve_left (ne_true_of_eq_false hty)
    have hy := hy.resolve_left (ne_true_of_eq_false hty)
    unfold redFn redOp
    rw [vfmt_of_int hty, hty, eint_eq_intOf hx, eint_eq_intOf hy]
    cases op with
    | ADD => rfl
    | MIN | MAX => simp only [Bool.false_eq_true, if_false, ← not_lt, ite_not]

theorem operand_redFn {op : RedOp} {u : Bool} {ty : ETy} {x y : Nat} (hx : Operand ty x) (hy : Operand ty y) :
    Operand ty (redFn op u ty x y).bits := by
  cases hty : ty.isFloat with
  | true => exact .inl hty
  | false =>
    unfold redFn
    rw [vfmt_of_int hty]
    cases op with
    | ADD => exact .inr (Nat.mod_lt _ (by positivity))
    | MIN | MAX =>
      dsimp only [NumRes.plain]
      split
      · assumption
      · assumption

/-! The tree from the positions up (R177). -/

/-- What the tree has at a position: bits, the flags set and the NaNs made so far; none where it is ABSENT. -/
abbrev Node := Option (Nat × BitVec 6 × Nat)

/-- Combine two nodes (R177). -/
def Node.join (f : Nat → Nat → NumRes) : Node → Node → Node
  | none, y => y
  | some x, none => some x
  | some x, some y => some ((f x.1 y.1).bits, x.2.1 ||| y.2.1 ||| (f x.1 y.1).flags, x.2.2 + y.2.2 + if (f x.1 y.1).gen then 1 else 0)

/-- The NaNs made below a node. -/
def Node.made (x : Node) : Nat := x.elim 0 fun n => n.2.2

/-- The node at a position after so many levels, from nodes at the leaves. -/
def nodeAt (f : Nat → Nat → NumRes) (v : Nat → Node) : Nat → Nat → Node
  | 0, i => v i
  | n + 1, i => (nodeAt f v n (2 * i)).join f (nodeAt f v n (2 * i + 1))

section
variable {f g : Nat → Nat → NumRes}

theorem redAt_eq_nodeAt (f : Nat → Nat → NumRes) (v : Nat → Option Nat) (n i : Nat) :
    redAt f v n i = nodeAt f (fun j => (v j).map fun x => (x, 0, 0)) n i := by
  induction n generalizing i with
  | zero => rfl
  | succ n ih =>
    unfold redAt nodeAt
    rw [ih, ih]
    unfold Node.join
    rfl

/-- The first level may be taken before the others. -/
theorem nodeAt_succ (f : Nat → Nat → NumRes) (v : Nat → Node) (n i : Nat) :
    nodeAt f v (n + 1) i = nodeAt f (fun j => (v (2 * j)).join f (v (2 * j + 1))) n i := by
  induction n generalizing i with
  | zero => rfl
  | succ n ih => exact congrArg₂ (Node.join f) (ih _) (ih _)

/-- Two operations that agree on operands, and keep to them, have one tree. -/
theorem nodeAt_congr {P : Nat → Prop} (h : ∀ x y, P x → P y → f x y = g x y ∧ P (f x y).bits) {v : Nat → Node}
    (hv : ∀ i, ∀ x ∈ v i, P x.1) (n i : Nat) : nodeAt f v n i = nodeAt g v n i ∧ ∀ x ∈ nodeAt f v n i, P x.1 := by
  induction n generalizing i with
  | zero => exact ⟨rfl, hv i⟩
  | succ n ih =>
    obtain ⟨hl, hpl⟩ := ih (2 * i)
    obtain ⟨hr, hpr⟩ := ih (2 * i + 1)
    unfold nodeAt
    rw [← hl, ← hr]
    cases hx : nodeAt f v n (2 * i) with
    | none => exact ⟨rfl, hpr⟩
    | some x =>
      cases hy : nodeAt f v n (2 * i + 1) with
      | none => exact ⟨rfl, fun z hz => hpl z (hx.trans hz)⟩
      | some y =>
        obtain ⟨hfg, hp⟩ := h x.1 y.1 (hpl x hx) (hpr y hy)
        refine ⟨?_, fun z hz => ?_⟩
        · simp only [Node.join, hfg]
        · cases hz
          exact hp

end

/-! The model's tree. -/

/-- A result and a node have the same bits and flags. -/
def SameNode : Option NumRes → Node → Prop := Option.Rel fun r n => r.bits = n.1 ∧ r.flags = n.2.1

/-- Whether the combination of two results makes a NaN. -/
def makes (f : Nat → Nat → NumRes) : Option NumRes → Option NumRes → Nat
  | some a, some b => (f a.bits b.bits).gen.toNat
  | _, _ => 0

theorem combine_sameNode {f : Nat → Nat → NumRes} {a b : Option NumRes} {x y : Node} (ha : SameNode a x) (hb : SameNode b y) :
    SameNode (combine f a b) (x.join f y) ∧ (x.join f y).made = x.made + y.made + makes f a b := by
  cases ha with
  | none => exact ⟨hb, by simp [Node.join, Node.made, makes]⟩
  | @some a x hax =>
    cases hb with
    | none => exact ⟨.some hax, by simp [Node.join, Node.made, makes]⟩
    | @some b y hby =>
      obtain ⟨hbits, hflags⟩ := hax
      obtain ⟨hbits', hflags'⟩ := hby
      refine ⟨.some ⟨?_, ?_⟩, ?_⟩
      · rw [hbits, hbits']
      · rw [hbits, hbits', hflags, hflags']
      · change _ + _ + _ = _ + _ + Bool.toNat _
        rw [hbits, hbits']
        cases (f x.1 y.1).gen <;> rfl

theorem treeLevel_cons (f : Nat → Nat → NumRes) (a b : Option NumRes) (l : List (Option NumRes)) :
    treeLevel f (a :: b :: l) = (combine f a b :: (treeLevel f l).1, (treeLevel f l).2 + makes f a b) := by
  cases a <;> cases b <;> rfl

/-- One level of the tree combines each even position with the next. -/
theorem treeLevel_map (f : Nat → Nat → NumRes) (m : Nat) (w : Nat → Option NumRes) :
    treeLevel f ((List.range (2 * m)).map w) =
      ((List.range m).map fun j => combine f (w (2 * j)) (w (2 * j + 1)), ∑ j ∈ Finset.range m, makes f (w (2 * j)) (w (2 * j + 1))) := by
  induction m generalizing w with
  | zero => rfl
  | succ m ih =>
    have hrange : List.range (2 * (m + 1)) = 0 :: 1 :: (List.range (2 * m)).map (· + 2) := by
      rw [show 2 * (m + 1) = 2 * m + 1 + 1 by ring, List.range_succ_eq_map, List.range_succ_eq_map]
      simp
    rw [hrange, List.map_cons, List.map_cons, List.map_map]
    rw [treeLevel_cons, ih, Finset.sum_range_succ', List.range_succ_eq_map, List.map_cons, List.map_map]
    rfl

theorem sum_pairs (h : Nat → Nat) (m : Nat) : ∑ i ∈ Finset.range (2 * m), h i = ∑ j ∈ Finset.range m, (h (2 * j) + h (2 * j + 1)) := by
  induction m with
  | zero => rfl
  | succ m ih => rw [show 2 * (m + 1) = 2 * m + 1 + 1 by ring, Finset.sum_range_succ, Finset.sum_range_succ, Finset.sum_range_succ, ih, add_assoc]

theorem tree_sameNode (f : Nat → Nat → NumRes) (n : Nat) {w : Nat → Option NumRes} {v : Nat → Node} (h : ∀ i, SameNode (w i) (v i)) :
    SameNode (tree f n ((List.range (2 ^ n)).map w)).1 (nodeAt f v n 0) ∧
      (nodeAt f v n 0).made = ∑ i ∈ Finset.range (2 ^ n), (v i).made + (tree f n ((List.range (2 ^ n)).map w)).2 := by
  induction n generalizing w v with
  | zero => exact ⟨h 0, by simp [tree, nodeAt]⟩
  | succ n ih =>
    have hpair (j : Nat) := combine_sameNode (f := f) (h (2 * j)) (h (2 * j + 1))
    obtain ⟨hsame, hmade⟩ := ih fun j => (hpair j).1
    rw [nodeAt_succ, hmade, Nat.pow_succ', sum_pairs]
    rw [tree, treeLevel_map]
    refine ⟨hsame, ?_⟩
    simp only [(hpair _).2, Finset.sum_add_distrib]
    omega

/-! A line of a tile under the tree. -/

/-- The root of the model's tree with the NaNs that the tree has made. -/
def rootNode (t : Option NumRes × Nat) : Node := t.1.map fun r => (r.bits, r.flags, t.2)

theorem rootNode_tree (f : Nat → Nat → NumRes) (n : Nat) (v : Nat → Option Nat) :
    rootNode (tree f n ((List.range (2 ^ n)).map fun i => (v i).map .plain)) = redAt f v n 0 := by
  have hleaf (i : Nat) : SameNode ((v i).map .plain) ((v i).map fun x => (x, 0, 0)) := by
    cases v i with
    | none => exact .none
    | some x => exact .some ⟨rfl, rfl⟩
  have hzero (i : Nat) : Node.made ((v i).map fun x => (x, 0, 0)) = 0 := by cases v i <;> rfl
  obtain ⟨hsame, hmade⟩ := tree_sameNode f n hleaf
  simp only [hzero, Finset.sum_const_zero, Nat.zero_add] at hmade
  rw [redAt_eq_nodeAt]
  unfold rootNode
  rw [← hmade]
  generalize (tree f n _).1 = x at hsame
  generalize nodeAt f _ n 0 = y at hsame
  cases hsame with
  | none => rfl
  | some h => exact congrArg some (Prod.ext h.1 (Prod.ext h.2 rfl))

/-- The model's tree over the active elements of a line of a tile (R155, R177). -/
def lineTree (W : Work) (op : RedOp) (u : Bool) (ty : ETy) (a : BitVec 6) (k : BitVec 3) (depth : Nat) (line : List (Nat × Nat)) : Option NumRes × Nat :=
  tree (redFn op u ty) depth (line.map fun p =>
    if W.active a.toNat k.toNat p.1 p.2 then some (.plain (W.elem a.toNat ty.width p.1 p.2)) else none)

/-- An element of a tile, where it is active (R155). -/
def activeElement (W : Work) (ty : ETy) (a : BitVec 6) (k : BitVec 3) (p : Nat × Nat) : Option Nat :=
  if W.active a.toNat k.toNat p.1 p.2 then some (W.elem a.toNat ty.width p.1 p.2) else none

theorem operand_activeElement {W : Work} {ty : ETy} {a : BitVec 6} {k : BitVec 3} {p : Nat × Nat} {x : Nat} (h : x ∈ activeElement W ty a k p) :
    Operand ty x := by
  obtain ⟨-, ⟨⟩⟩ := Option.ite_none_right_eq_some.1 h
  exact .inr elem_lt

theorem rootNode_lineTree (W : Work) (op : RedOp) (u : Bool) (ty : ETy) (a : BitVec 6) (k : BitVec 3) (at_ : Nat → Nat × Nat) (n : Nat) :
    rootNode (lineTree W op u ty a k n ((List.range (2 ^ n)).map at_)) = redAt (redOp op u ty) (fun i => activeElement W ty a k (at_ i)) n 0 := by
  have htree : lineTree W op u ty a k n ((List.range (2 ^ n)).map at_) =
      tree (redFn op u ty) n ((List.range (2 ^ n)).map fun i => (activeElement W ty a k (at_ i)).map .plain) := by
    unfold lineTree activeElement
    simp only [List.map_map, Function.comp_def, apply_ite (Option.map NumRes.plain), Option.map_some, Option.map_none]
  rw [htree, rootNode_tree, redAt_eq_nodeAt, redAt_eq_nodeAt]
  refine (nodeAt_congr (P := Operand ty) (fun x y hx hy => ⟨redFn_eq_redOp hx hy, operand_redFn hx hy⟩) (fun i x hx => ?_) n 0).1
  obtain ⟨y, hy, rfl⟩ := Option.map_eq_some_iff.1 hx
  exact operand_activeElement hy

/-! The syllables. -/

/-- The positions whose trees have a root, with their roots and the NaNs made below them. -/
def rootsOf {α : Type} (t : α → Option NumRes × Nat) (ps : List α) : List (α × NumRes × Nat) :=
  ps.filterMap fun e => (t e).1.map fun r => (e, r, (t e).2)

theorem rootsOf_map {α β : Type} (t : α → Option NumRes × Nat) (pos : β → α) (l : List β) :
    rootsOf t (l.map pos) = (rootsOf (fun n => t (pos n)) l).map fun x => (pos x.1, x.2) := by
  simp only [rootsOf, List.map_filterMap, List.filterMap_map, Option.map_map, Function.comp_def]

theorem filterMap_rootNode {α : Type} (t : α → Option NumRes × Nat) (l : List α) :
    (l.filterMap fun n => (rootNode (t n)).map fun r => (n, r)) = (rootsOf t l).map fun x => (x.1, x.2.1.bits, x.2.1.flags, x.2.2) := by
  simp only [rootsOf, rootNode, List.map_filterMap, Option.map_map, Function.comp_def]

/-- What roots write, set and count (R176). -/
def rootUpds (tid d w : Nat) (rs : List ((Nat × Nat) × NumRes × Nat)) : List Upd :=
  [.tile (rs.flatMap fun e => elemCells d w e.1.1 e.1.2 e.2.1.bits), .flags (rs.foldl (fun f e => f ||| e.2.1.flags) 0),
   .count .NAN tid (rs.foldl (fun n e => n + e.2.2) 0)]

/-- Over positions in a row, the updates of the roots are those of their nodes. -/
theorem rootUpds_rootsOf {t : Nat × Nat → Option NumRes × Nat} {val : Nat → Node} (pos : Nat → Nat × Nat) (hval : ∀ n, rootNode (t (pos n)) = val n)
    (tid d w N : Nat) :
    let res := (List.range N).filterMap fun n => (val n).map fun r => (n, r)
    rootUpds tid d w (rootsOf t ((List.range N).map pos)) =
      [.tile (res.flatMap fun e => elemCells d w (pos e.1).1 (pos e.1).2 e.2.1), .flags (res.foldl (fun f e => f ||| e.2.2.1) 0),
       .count .NAN tid (res.foldl (fun n e => n + e.2.2.2) 0)] := by
  simp only [← hval, filterMap_rootNode, rootsOf_map, rootUpds, List.flatMap_map, List.foldl_map]

theorem reduce_results {s : State} {op : RedOp} {u : Bool} {ty : ETy} {d a : BitVec 6} {k : BitVec 3} {lat depth : Nat}
    {line : Nat × Nat → List (Nat × Nat)} {ds : BitVec 16 → List (Nat × Nat)} (hr : Readable s [.tile a.toNat, .mask k.toNat])
    (hv : VecReady s [(d.toNat, ty), (a.toNat, ty)]) :
    VResults s (s.reduce op u ty d a k lat depth ds line) lat 4
      (rootUpds s.me.ntid.toNat d.toNat ty.width
        (rootsOf (fun e => lineTree s.here.work op u ty a k depth (line e)) (ds (s.here.work.shape d.toNat)))) :=
  vector_results (us := fun W => rootUpds s.me.ntid.toNat d.toNat ty.width
    (rootsOf (fun e => lineTree W op u ty a k depth (line e)) (ds (W.shape d.toNat)))) hr hv

/-- The tree over the columns has as many leaves as a row has elements (R154, R177). -/
theorem lim_eq_two_pow (ty : ETy) : ty.lim = 2 ^ (if ty.width = 32 then 6 else if ty.width = 16 then 7 else 8) := by cases ty <;> rfl

theorem reductions : Reductions := by
  intro s op u ty d a k hr hv W byCol
  cases byCol with
  | true =>
    refine ⟨_, rfl, rootUpds_rootsOf (fun n => (n, 0)) (fun n => ?_) _ _ _ _ ▸ reduce_results hr hv⟩
    rw [lim_eq_two_pow]
    exact rootNode_lineTree W op u ty a k (fun i => (n, i)) _
  | false =>
    refine ⟨_, rfl, rootUpds_rootsOf (fun n => (0, n)) (fun n => ?_) _ _ _ _ ▸ reduce_results hr hv⟩
    exact rootNode_lineTree W op u ty a k (fun i => (i, n)) 4

/-- Settles O33: compares are one syllable of the datapath, element by element; a reduction's tree over a list is the statement's over positions. -/
theorem vectorComparesAndReductions : Obligations.VectorComparesAndReductions := ⟨vectorCompares, reductions⟩

end Sys2Proof.Proofs
end

section
/-! The format of activations and the status of the matrix queue (R185, R193). -/

namespace Sys2Proof.Proofs
open Sys2Proof.Machine Sys2Proof.Spec Sys2Proof.Laws

/-! MFMT. -/

/-- A Hall with one of its streams in another format. -/
def refit (q : Nat) (fmt : MFmt) (H : Hall) : Hall := { H with work := H.work.setStream q { H.work.stream q with fmt := fmtCode fmt } }

theorem exec_mfmt_stream {s : State} (fmt : MFmt) {src : BitVec 6} (hb : (s.here.work.stream src.toNat).bound = true) :
    exec (.mfmt fmt true src) s = .next (s.onHere (refit src.toNat fmt)).issue := by
  change execMfmt fmt true src s = _
  unfold execMfmt
  rw [if_pos rfl, hb]
  rfl

theorem strand_setStream (W : Work) (q : Nat) (x : Stream) (st : Strand) : (W.setStream q x).strand st = W.strand st := by cases st <;> rfl

/-! MSTAT. -/

/-- A Hall whose matrix error and count of discarded commands have been read. -/
def statRead (H : Hall) : Hall := { H with mErr := 0, mDisc := 0 }

/-- The value that MSTAT reads. -/
def statValue (H : Hall) : Nat :=
  min 16 H.mq.length + 32 * H.arrayTakes.toNat + 64 * H.filling.isSome.toNat + 2 ^ 8 * bankCode (H.work.bank false) + 2 ^ 10 * bankCode (H.work.bank true) +
    2 ^ 12 * packCode (H.work.bank false) + 2 ^ 14 * packCode (H.work.bank true) + 2 ^ 16 * (H.mErr % 256) + 2 ^ 24 * H.mDisc

theorem exec_mstat (s : State) (d : BitVec 6) :
    exec (.mstat d) s = .next ((s.result 2 [.sreg d.toNat (BitVec.ofNat 64 (statValue s.here))]).issue.onHere statRead) := rfl

theorem bankCode_lt (b : Bank) : bankCode b < 4 := by
  unfold bankCode
  split <;> decide

theorem packCode_lt (b : Bank) : packCode b < 4 := by
  unfold packCode
  split <;> decide

/-- A field of a register's value below its end. -/
theorem toNat_field {n : Nat} (hn : n < 2 ^ 64) (lo w : Nat) : ((BitVec.ofNat 64 n).extractLsb' lo w).toNat = n / 2 ^ lo % 2 ^ w := by
  rw [BitVec.extractLsb'_toNat, BitVec.toNat_ofNat, Nat.mod_eq_of_lt hn, Nat.shiftRight_eq_div_pow]

/-- The fields of the status word (R193): each term is below the place of the next. -/
theorem statValue_fields {H : Hall} (hq : H.mq.length ≤ 16) (he : H.mErr < 256) (hd : H.mDisc < 16) :
    let v := BitVec.ofNat 64 (statValue H)
    (v.extractLsb' 0 5).toNat = H.mq.length ∧ (v.extractLsb' 16 8).toNat = H.mErr ∧ (v.extractLsb' 24 4).toNat = H.mDisc := by
  have hform : ∃ m, m < 2 ^ 11 ∧ statValue H = H.mq.length + 32 * m + 2 ^ 16 * H.mErr + 2 ^ 24 * H.mDisc := by
    have ha := Bool.toNat_le H.arrayTakes
    have hf := Bool.toNat_le H.filling.isSome
    have hb0 := bankCode_lt (H.work.bank false)
    have hb1 := bankCode_lt (H.work.bank true)
    have hp0 := packCode_lt (H.work.bank false)
    have hp1 := packCode_lt (H.work.bank true)
    refine ⟨H.arrayTakes.toNat + 2 * H.filling.isSome.toNat + 8 * bankCode (H.work.bank false) + 32 * bankCode (H.work.bank true) +
      128 * packCode (H.work.bank false) + 512 * packCode (H.work.bank true), by omega, ?_⟩
    unfold statValue
    rw [Nat.min_eq_right hq, Nat.mod_eq_of_lt he]
    omega
  obtain ⟨m, hm, hv⟩ := hform
  have hlt : statValue H < 2 ^ 64 := by omega
  simp only [toNat_field hlt]
  omega

/-- Settles O35: MFMT is one change of the slice or of a stream; MSTAT's result is pending before what it has read is cleared. -/
theorem matrixFormatAndStatus : Obligations.MatrixFormatAndStatus := by
  intro s
  refine ⟨fun fmt src sl hs => ?_, fun fmt src hsrc hb => ?_, fun d hq he hd => ?_⟩
  · let f : Slice → Slice := fun x => { x with tileFmt := fmt }
    have hhere : (s.onSlice f).here = { s.here with slice := some (f sl) } := by rw [here_onSlice, Hall.onSlice, hs]; rfl
    exact ⟨(s.onSlice f).issue, rfl, rfl, hhere, onHere_onlyHall s (Hall.onSlice · f) true s.trapped s.target,
      onHere_sameMemory s (Hall.onSlice · f) true s.trapped s.target rfl⟩
  · have hhere : (s.onHere (refit src.toNat fmt)).issue.here = refit src.toNat fmt s.here := here_onHere s _
    refine ⟨_, exec_mfmt_stream fmt hb, rfl, ?_, fun q hq => ?_, ?_, onHere_onlyHall s _ _ _ _, onHere_sameMemory s _ _ _ _ rfl⟩
    · rw [hhere]
      exact stream_setStream_same _ _ _ hsrc
    · rw [hhere]
      exact stream_setStream_ne _ _ hq
    · unfold State.me
      rw [hhere]
      exact strand_setStream _ _ _ _
  · let us : List Upd := [.sreg d.toNat (BitVec.ofNat 64 (statValue s.here))]
    have hres : Results s (s.result 2 us).issue 2 s.me.divFree us := result_issue s 2 us
    obtain ⟨hlen, herr, hdisc⟩ := statValue_fields hq he hd
    let r := (s.result 2 us).issue
    have hhere : (r.onHere statRead).here = statRead r.here := here_onHere r statRead
    have hframe : r.here = { s.here with work := r.here.work } := hres.frame.here
    have hme : (r.onHere statRead).me = r.me := by
      unfold State.me
      rw [hhere]
      rfl
    refine ⟨r.onHere statRead, _, exec_mstat s d, rfl, hme ▸ results_pends hres, hlen, herr, hdisc, ?_, ?_, ?_, ?_, hme ▸ results_scalars hres,
      onlyHall_trans hres.frame.hall (onHere_onlyHall r statRead true r.trapped r.target),
      sameMemory_trans hres.memory (onHere_sameMemory r statRead true r.trapped r.target rfl)⟩
    · rw [hhere]; rfl
    · rw [hhere]; rfl
    · rw [hhere, hframe]; rfl
    · rw [hhere, hframe]; rfl

end Sys2Proof.Proofs
end

section
/-! Copy syllables at issue (R16, R194, R195, R197, R201). -/

namespace Sys2Proof.Proofs
open Sys2Proof.Machine Sys2Proof.Spec Sys2Proof.Laws

/-- The copy syllables of the table are one operation (R194). -/
theorem exec_of_copyRow {i : Instr} {k : CopyKind} {resume : Bool} {d a b x : BitVec 6} {c : QCtl}
    (h : copyRow i = some (k, resume, d, a, b, x, c)) (s : State) :
    exec i s = .next (s.copySyllable (s.copyReads k d a b x) (s.copyArgs k resume d a b x c)) := by
  unfold copyRow at h
  split at h <;> cases h <;> rfl

/-! Checks (R195, R201, R391). -/

/-- Bits 47:0 of a length, as a mask and as a remainder. -/
theorem toNat_and_length (x : Word) : (x &&& 0xFFFFFFFFFFFF).toNat = x.toNat % 2 ^ 48 := by
  rw [BitVec.toNat_and]
  exact Nat.and_two_pow_sub_one_eq_mod x.toNat 48

theorem copyAligns_iff (k : CopyKind) (src dst x : Word) : copyAligns k src dst x ↔ ∀ v ∈ copyAligned k src dst x, v.toNat % 64 = 0 := by
  have hx := toNat_and_length x
  cases k <;> simp only [copyAligns, copyAligned, List.forall_mem_cons, List.not_mem_nil, false_implies, implies_true, and_true, hx]

section
variable {s : State} {c : CopyArgs}

/-- A command with aligned operands, a follow-on that CP.MM may name and a completion word that can be written passes. -/
theorem copyChecked_passes (ha : copyAligns c.kind c.src c.dst c.x) (hf : ∀ w v, c.follow = some (w, v) → followOn w ≠ none)
    (hw : ∀ a, c.cw = some a → ∃ ps, Accessible s (wantStore .D) 8 a 8 ps) (go : State → State) : s.copyChecked c go = go s := by
  have hfind : ((copyAligned c.kind c.src c.dst c.x).find? fun v => v.toNat % 64 != 0) = none := by
    rw [List.find?_eq_none]
    intro v hv
    simp [(copyAligns_iff _ _ _ _).1 ha v hv]
  have hword : s.wordChecked c.cw go = go s := by
    unfold State.wordChecked
    split
    · rfl
    · next a hcw =>
      obtain ⟨ps, hps⟩ := hw a hcw
      exact withBytes_accessible s _ _ _ _ ps _ hps
  unfold State.copyChecked
  rw [hfind, ← hword]
  refine if_neg ?_
  split
  · next w v hfollow => simpa using hf w v hfollow
  · exact Bool.false_ne_true

/-- A command with an operand that should be a multiple of 64 and is not traps. -/
theorem copyChecked_misaligned (ha : ¬copyAligns c.kind c.src c.dst c.x) : ∃ v : Word, v.toNat % 64 ≠ 0 ∧
    ∀ go, s.copyChecked c go = s.trapHere { cause := .ALIGN, access := .engine, width := 4, addr := v } := by
  have hsome : ((copyAligned c.kind c.src c.dst c.x).find? fun v => v.toNat % 64 != 0).isSome = true := by
    rw [copyAligns_iff] at ha
    push Not at ha
    obtain ⟨v, hv, hmis⟩ := ha
    exact List.find?_isSome.2 ⟨v, hv, by simpa using hmis⟩
  obtain ⟨v, hv⟩ := Option.isSome_iff_exists.1 hsome
  refine ⟨v, by simpa using List.find?_some hv, fun go => ?_⟩
  unfold State.copyChecked
  rw [hv]

end

theorem copyFull_eq_false {H : Hall} (hs : H.sampledCq < 32) (hl : H.copyLoad < 32) : H.copyFull = false := by
  simp [Hall.copyFull, hs, hl]

theorem copyFull_eq_true {H : Hall} (h : 32 ≤ H.sampledCq ∨ 32 ≤ H.copyLoad) : H.copyFull = true := by
  simpa [Hall.copyFull] using h

/-! Entry. -/

/-- A Hall of which ERRINJ has counted a command (R210). -/
def counting (n : Nat) (hit : Bool) (H : Hall) : Hall := { H with errCount := n, errHit := hit }

theorem injectAt_counts (H : Hall) : ∃ n hit, H.injectAt.2 = counting n hit H := by
  unfold Hall.injectAt
  split
  · exact ⟨H.errCount, H.errHit, rfl⟩
  · split
    · exact ⟨H.errCount + 1, H.errHit, rfl⟩
    · exact ⟨H.errCount, true, rfl⟩

/-- A command enters under the checker at most counted, and from strands S and L with its match six Hall cycles on (R334, R337). -/
theorem underChecker_counts (s : State) : ∃ n hit, s.underChecker.2.2 = s.onHere (counting n hit) ∧
    (s.curStrand = .S ∨ s.curStrand = .L → s.underChecker.1 = some (s.here.cycle + 6)) := by
  have hshadowed : ∃ n hit, s.setHall s.curHall s.here.injectAt.2 = s.onHere (counting n hit) := by
    obtain ⟨n, hit, h⟩ := injectAt_counts s.here
    exact ⟨n, hit, by rw [h]; rfl⟩
  have hself : s = s.onHere (counting s.here.errCount s.here.errHit) := (onHall_id s s.curHall).symm
  unfold State.underChecker
  cases hst : s.curStrand
  case S | L =>
    obtain ⟨n, hit, h⟩ := hshadowed
    exact ⟨n, hit, h, fun _ => rfl⟩
  case V | M => exact ⟨_, _, hself, nofun⟩

/-- The command that a copy syllable makes. -/
def issuedCopy (s : State) (c : CopyArgs) (matchAt : Option Nat) (bad : Nat) : CopyCmd :=
  { id := s.here.cqNext, kind := c.kind, resume := c.resume, src := c.src, dst := c.dst, x := c.x, cw := c.cw, q := c.q, follow := c.follow,
    word := s.curWord, slice := match s.here.slice with | some sl => sl.id | none => 0, asid := s.asid, part := s.partId, super := s.superMode,
    issuer := some s.curStrand, issuePc := s.me.pc, depth := s.depth, matchAt := matchAt, bad := bad, clock := s.known,
    floor := s.engineFloor s.curHall .copy c.q.scope, sent := false }

/-- A Hall whose copy queue a command has entered. -/
def copyEntered (y : CopyCmd) (H : Hall) : Hall := { H with cq := H.cq ++ [y], cqNext := H.cqNext + 1 }

theorem enterCopy_eq (s : State) (c : CopyArgs) (m : Option Nat) (bad : Nat) :
    s.enterCopy s.curHall c (some s.curStrand) m bad = s.onHere (copyEntered (issuedCopy s c m bad)) := rfl

/-- A syllable that has passed its checks enters its command, counted by the checker before. -/
def enterChecked (s : State) (c : CopyArgs) : State :=
  (s.underChecker.2.2.onHere (copyEntered (issuedCopy s.underChecker.2.2 c s.underChecker.1 s.underChecker.2.1))).issue

theorem copySyllable_passes {s : State} {c : CopyArgs} {rd : List Src} (hr : Readable s rd) (ha : copyAligns c.kind c.src c.dst c.x)
    (hf : ∀ w v, c.follow = some (w, v) → followOn w ≠ none) (hw : ∀ a, c.cw = some a → ∃ ps, Accessible s (wantStore .D) 8 a 8 ps) :
    s.copySyllable rd c = if s.here.copyFull then s.freeze else enterChecked s c := by
  unfold State.copySyllable
  rw [readingWhen_readable s _ _ _ hr, copyChecked_passes ha hf hw, enterChecked, ← enterCopy_eq]

/-- What an entry leaves, whatever the command. -/
theorem entry_enters (s : State) (n : Nat) (hit : Bool) (y : CopyCmd) :
    let t := ((s.onHere (counting n hit)).onHere (copyEntered y)).issue
    t.here = copyEntered y (counting n hit s.here) ∧ Enters s t := by
  intro t
  let F : Hall → Hall := fun H => copyEntered y (counting n hit H)
  have ht : t = (s.onHere F).issue := congrArg State.issue (onHall_onHall s s.curHall (counting n hit) (copyEntered y))
  have hhere : t.here = F s.here := by rw [ht]; exact here_onHere s F
  refine ⟨hhere, ?_⟩
  exact { issued := rfl
          strands := fun st => by rw [hhere]; rfl
          tiles := by rw [hhere]; exact ⟨rfl, rfl, rfl⟩
          halls := fun g hg => by rw [ht]; exact hall_onHall_ne s s.curHall g F hg
          mq := by rw [hhere]; rfl
          memory := by rw [ht]; exact onHere_sameMemory s F true s.trapped s.target rfl }

theorem copiesEnterTheQueue : CopiesEnterTheQueue := by
  intro s i k resume d a b x c hrow hr ha hw hf
  have hfollow : ∀ w v, (s.copyArgs k resume d a b x c).follow = some (w, v) → followOn w ≠ none := by
    intro w v hwv
    by_cases hk : k = .MM
    · cases (if_pos hk).symm.trans hwv
      exact hf hk
    · exact nomatch (if_neg hk).symm.trans hwv
  have hword : ∀ v, s.cwOf d = some v → ∃ ps, Accessible s (wantStore .D) 8 v 8 ps := by
    intro v hv
    by_cases hd : d = 0
    · exact nomatch (if_pos hd).symm.trans hv
    · cases (if_neg hd).symm.trans hv
      exact hw.resolve_left hd
  have hexec := exec_of_copyRow hrow s
  rw [copySyllable_passes hr ha hfollow hword] at hexec
  refine ⟨fun hs hl => ?_, fun hfull => ?_⟩
  · rw [copyFull_eq_false hs hl, if_neg Bool.false_ne_true] at hexec
    obtain ⟨n, hit, hcount, hmatch⟩ := underChecker_counts s
    let y := issuedCopy (s.onHere (counting n hit)) (s.copyArgs k resume d a b x c) s.underChecker.1 s.underChecker.2.1
    obtain ⟨hhere, henters⟩ := entry_enters s n hit y
    have hslice : (s.onHere (counting n hit)).here = counting n hit s.here := here_onHere s _
    rw [enterChecked, hcount] at hexec
    refine ⟨_, y, hexec, henters, ?_, ?_, ?_, ?_, rfl, rfl, rfl, rfl, rfl, rfl, rfl, rfl, ?_, rfl, ?_, hmatch, fun hk => if_neg hk⟩
    · rw [hhere]; rfl
    · rw [hhere]; rfl
    · exact (congrArg Hall.cqNext hslice :)
    · rw [hhere]; rfl
    · change State.asid _ = _
      unfold State.asid
      rw [hslice]; rfl
    · change State.depth _ = _
      unfold State.depth
      rw [hslice]; rfl
  · rw [copyFull_eq_true hfull, if_pos rfl] at hexec
    exact ⟨_, hexec, freeze_freezes s⟩

theorem misalignedCopiesTrap : MisalignedCopiesTrap := by
  intro s i k resume d a b x c hrow hr ha hu
  obtain ⟨v, hv, htrap⟩ := copyChecked_misaligned (s := s) (c := s.copyArgs k resume d a b x c) ha
  have hexec := exec_of_copyRow hrow s
  unfold State.copySyllable at hexec
  rw [readingWhen_readable s _ _ _ hr, htrap] at hexec
  exact ⟨_, _, hexec, trapHere_traps s _ hu, rfl, rfl, hv⟩

/-- Settles O25: the five syllables are one operation, whose checks leave a trap, a freeze or an entry. -/
theorem copyCommands : Obligations.CopyCommands := ⟨copiesEnterTheQueue, misalignedCopiesTrap⟩

end Sys2Proof.Proofs
end

section
/-! SUPPORT. What reads and writes at the home change of a Hall (R118, R263, R273, R285, R342, R349, R409): only what its slice, its engines and its
counters note of them, beside memory. -/

namespace Sys2Proof.Proofs
open Sys2Proof.Machine Sys2Proof.Spec Sys2Proof.Laws

/-- What an access notes of a Hall: what its slice would undo, the posts that wait, the words corrected, and the versions that its engines have read. -/
def Notes (H K : Hall) : Prop :=
  K = { H with slice := K.slice, posts := K.posts, corrected := K.corrected, cpRead := K.cpRead, mxRead := K.mxRead, hzRead := K.hzRead }

/-- `t` is `s` after accesses: no Hall has changed but for what it notes. -/
def Noted (s t : State) : Prop := ∀ k, Notes (s.hall k) (t.hall k)

theorem noted_refl (s : State) : Noted s s := fun _ => rfl

theorem noted_trans {s t u : State} (a : Noted s t) (b : Noted t u) : Noted s u := by
  intro k
  have hk := b k
  unfold Notes at hk ⊢
  rw [hk, a k]

theorem noted_of_halls {s t : State} (h : t.halls = s.halls) : Noted s t := by
  intro k
  rw [show t.hall k = s.hall k by simp only [State.hall, h]]
  rfl

theorem noted_onHall (s : State) (h : HallId) (f : Hall → Hall) (hf : Notes (s.hall h) (f (s.hall h))) : Noted s (s.onHall h f) := by
  intro k
  by_cases hk : k = h
  · subst hk
    rw [hall_onHall_same]
    exact hf
  · rw [hall_onHall_ne s h k f hk]
    rfl

theorem noted_foldl {α : Type} {f : State → α → State} (hf : ∀ s a, Noted s (f s a)) (xs : List α) (s : State) : Noted s (xs.foldl f s) := by
  induction xs generalizing s with
  | nil => exact noted_refl s
  | cons x xs ih => exact noted_trans (hf s x) (ih (f s x))

theorem noted_copy {s t : State} (a : Noted s t) (h : HallId) : (t.hall h).copy = (s.hall h).copy := by rw [a h]

/-! Writes. -/

theorem noted_putLine (s : State) (line : Nat) (cs : List Host.Cell) (v : Version) : Noted s (s.putLine line cs v) := by
  have hundo : Noted s (s.undoLine line) := by
    unfold State.undoLine
    split
    case h_1 => exact noted_onHall s _ _ rfl
    all_goals exact noted_refl s
  refine noted_trans hundo (noted_of_halls ?_)
  obtain ⟨hh, -, -⟩ := mend_keeps (s.undoLine line) cs
  unfold State.putLine
  dsimp only
  split
  · exact hh
  · exact hh

theorem noted_setBitmap (s : State) (p : PartId) (base : Word) (n : Nat) : Noted s (s.setBitmap p base n) := by
  unfold State.setBitmap
  split
  · exact noted_refl s
  · split
    · unfold State.poke
      exact noted_trans (t := { s with pubs := s.pubs + 1 }) (noted_of_halls rfl) (noted_foldl (fun t l => noted_putLine t l _ _) _ _)
    · exact noted_refl s
    · exact noted_refl s

theorem noted_raiseEvent (s : State) (p : PartId) (e : HostEvent) : Noted s (s.raiseEvent p e) := by
  have hpost (t : State) : Noted t (t.postSuper p 30) := by
    unfold State.postSuper
    split
    · exact noted_of_halls rfl
    · split
      · exact noted_onHall t _ _ rfl
      · split
        · exact noted_of_halls rfl
        · exact noted_of_halls rfl
  unfold State.raiseEvent
  dsimp only
  split
  · exact noted_of_halls rfl
  · exact noted_trans (t := s.onPart p fun P => { P with evq := P.evq ++ [e] }) (noted_of_halls rfl) (hpost _)

theorem noted_touch (s : State) (p : PartId) (line : Nat) : Noted s (s.touch p line) := by
  unfold State.touch
  extract_lets a owns sec c0 c P s1 s2
  have h2 : Noted s s2 := noted_trans (t := s1) (noted_of_halls rfl) (noted_setBitmap s1 p P.hotmap _)
  split
  · exact noted_refl s
  · split
    · split
      · exact noted_trans h2 (noted_raiseEvent s2 p _)
      · exact h2
    · exact noted_of_halls rfl

theorem noted_writeLine (s : State) (w : Writer) (line : Nat) (cs : List Host.Cell) : Noted s (s.writeLine w line cs) := by
  have hdirty (t : State) : (t.markDirty w.asid (64 * line)).halls = t.halls := by
    unfold State.markDirty State.onCtx
    split
    · split <;> rfl
    · rfl
  unfold State.writeLine
  extract_lets s1 key s2
  have h2 : Noted s s2 := noted_trans (t := s1) (noted_putLine s line cs _) (noted_of_halls rfl)
  split
  · exact h2
  · exact noted_trans h2 (noted_trans (noted_touch s2 w.part line) (noted_of_halls (hdirty _)))

theorem noted_writeHome (s : State) (w : Writer) (cs : List Host.Cell) : Noted s (s.writeHome w cs) :=
  noted_foldl (fun t l => noted_writeLine t w l _) _ s

/-! Reads. -/

theorem noted_sense (s : State) (p : PartId) (a : Nat) : Noted s (s.sense p a).2 := by
  unfold State.sense
  split
  · dsimp only
    split
    · exact noted_refl s
    · split
      · exact noted_refl s
      · split
        · exact noted_onHall s _ _ rfl
        · exact noted_refl s
  · split
    · dsimp only
      split
      · exact noted_refl s
      · split
        · exact noted_of_halls rfl
        · exact noted_refl s
    · exact noted_refl s

theorem noted_senseUnits (p : PartId) (us : List Nat) (s : State) : Noted s (State.senseUnits p us s).2 := by
  induction us generalizing s with
  | nil => exact noted_refl s
  | cons u rest ih =>
    have hu := noted_sense s p u
    unfold State.senseUnits
    split
    · next e => rw [e] at hu; exact hu
    · next e => rw [e] at hu; exact noted_trans hu (ih _)

theorem noted_senseRead (s : State) (p : PartId) (ps : List Nat) : Noted s (s.senseRead p ps).2 :=
  noted_trans (noted_foldl (fun t l => noted_touch t p l) _ s) (noted_senseUnits p _ _)

/-! Accesses that write no byte of this module: only notes, messages and free values. -/

/-- From `s` to `t` Halls have only noted accesses, and no byte of memory has been written. -/
structure ReadsOnly (s t : State) : Prop where
  noted : Noted s t
  writes : Writes s t []

theorem readsOnly_refl (s : State) : ReadsOnly s s := ⟨noted_refl s, writes_refl s⟩

theorem readsOnly_trans {s t u : State} (a : ReadsOnly s t) (b : ReadsOnly t u) : ReadsOnly s u :=
  ⟨noted_trans a.noted b.noted, writes_after a.writes b.writes⟩

/-- What a step that concerns messages, requests and free values leaves as it is. -/
def stock (s : State) : Vector Hall 256 × Memory × Vector Part 16 := (s.halls, s.mem, s.parts)

theorem readsOnly_of_stock {s t : State} (h : stock t = stock s) : ReadsOnly s t := by
  obtain ⟨hh, hmp⟩ := Prod.mk.inj h
  obtain ⟨hm, hp⟩ := Prod.mk.inj hmp
  exact ⟨noted_of_halls hh, writes_of_eq hh hm hp⟩

theorem stock_sendTo (s : State) (p : PartId) (m : Nat) (msg : Instr) : stock (s.sendTo p m msg) = stock s := by
  have htells := tells_sendTo s p m msg
  unfold Tells at htells
  rw [htells]
  rfl

theorem stock_askRuns (s : State) (h : HallId) (e : Engine) (cmd : Nat) (asid : Asid) (ps : List Nat) :
    stock (s.askRuns h e cmd asid ps) = stock s := by
  unfold State.askRuns
  refine foldl_keeps stock (fun t r => ?_) _ s
  exact stock_sendTo _ _ _ _

theorem stock_fabricStore (s : State) (asid : Asid) (w : FabReq) (cs : List Host.Cell) : stock (s.fabricStore asid w cs) = stock s := by
  unfold State.fabricStore
  refine foldl_keeps stock (fun t r => ?_) _ s
  exact stock_sendTo _ _ _ _

theorem stock_overlayRead (s : State) (h : HallId) (r : Reader) (far : List Nat) : stock (s.overlayRead h r far).2.2 = stock s := by
  have hfold {α β : Type} (f : β → State) (g : β → α → β) (hg : ∀ b a, stock (f (g b a)) = stock (f b)) (xs : List α) (b : β) :
      stock (f (xs.foldl g b)) = stock (f b) := by
    induction xs generalizing b with
    | nil => rfl
    | cons x xs ih => exact (ih (g b x)).trans (hg b x)
  unfold State.overlayRead
  refine hfold (fun (acc : List Host.Cell × List (Nat × Nat) × State) => acc.2.2) _ (fun acc l => ?_) _ ([], [], s)
  dsimp only
  split
  · rfl
  · dsimp only
    split <;> rfl

theorem readsOnly_remember (s : State) (h : HallId) (e : Engine) (ns : List (Nat × Nat)) : ReadsOnly s (s.onHall h (·.remember e ns)) := by
  have hH (H : Hall) : Notes H (H.remember e ns) := by cases e <;> rfl
  exact ⟨noted_onHall s h _ (hH _), writes_none (sameCycles_onHall s h _ (by cases e <;> rfl)) rfl rfl⟩

theorem readsOnly_rememberAs (s : State) (r : Reader) (h : HallId) (e : Engine) (ns : List (Nat × Nat)) :
    ReadsOnly s (if r.agent = .engine h e then s.onHall h (·.remember e ns) else s) := by
  split
  · exact readsOnly_remember s h e ns
  · exact readsOnly_refl s

theorem readsOnly_askFar (s : State) (h : HallId) (e : Engine) (cmd : Nat) (asid : Asid) (r : Reader) (ps : List Nat) :
    ReadsOnly s (s.askFar h e cmd asid r ps) := by
  unfold State.askFar
  generalize ho : s.overlayRead h r _ = o
  have hread : ReadsOnly s o.2.2 := readsOnly_of_stock (ho ▸ stock_overlayRead s h r _)
  obtain ⟨image, ns, u⟩ := o
  exact readsOnly_trans hread (readsOnly_trans (readsOnly_rememberAs u r h e ns) (readsOnly_of_stock (stock_askRuns _ h e cmd asid ps)))

theorem readsOnly_senseRead (s : State) (p : PartId) (ps : List Nat) : ReadsOnly s (s.senseRead p ps).2 :=
  ⟨noted_senseRead s p ps, writes_senseRead s p ps⟩

theorem readsOnly_readBytes (s : State) (r : Reader) (ps : List Nat) : ReadsOnly s (s.readBytes r ps).2.2 := by
  obtain ⟨n, hn⟩ := readBytes_free s r ps
  exact readsOnly_of_stock (by rw [hn]; rfl)

/-- An engine's read, whatever it gives (R274, R285, R357). -/
theorem readsOnly_engineRead (s : State) (h : HallId) (e : Engine) (cmd : Nat) (asid : Asid) (part : PartId) (r : Reader) (ps : List Nat) :
    ReadsOnly s (s.engineRead h e cmd asid part r ps).2 := by
  unfold State.engineRead
  extract_lets far near
  split
  · exact readsOnly_askFar s h e cmd asid r far
  · split
    · exact readsOnly_of_stock rfl
    · have hsense := readsOnly_senseRead s part near
      split
      · next e => rw [e] at hsense; exact hsense
      · next u e =>
        rw [e] at hsense
        exact readsOnly_trans hsense (readsOnly_trans (readsOnly_readBytes u r near) (readsOnly_rememberAs _ r h _ _))

/-! An engine's writes, in this module and in others. -/

theorem engineWrite_near (s : State) (w : Writer) (cs : List Host.Cell) :
    Noted s (s.engineWrite w cs) ∧ Writes s (s.engineWrite w cs) (byLines (cs.filter fun c => !inFabric c.1)) := by
  have hhome {t : State} (ht : ReadsOnly s t) : Noted s (t.writeHome w (cs.filter fun c => !inFabric c.1)) ∧
      Writes s (t.writeHome w (cs.filter fun c => !inFabric c.1)) (byLines (cs.filter fun c => !inFabric c.1)) :=
    ⟨noted_trans ht.noted (noted_writeHome t w _), writes_trans ht.writes (writes_writeHome t w _)⟩
  unfold State.engineWrite
  cases w.agent
  case engine => exact hhome (readsOnly_of_stock (stock_fabricStore s _ _ _))
  all_goals exact hhome (readsOnly_refl s)

end Sys2Proof.Proofs
end

section
/-! The copy engine: commands start, bursts move them on, finished ones leave, and their follow-ons enter the matrix queue (R197, R199, R201, R431). -/

namespace Sys2Proof.Proofs
open Sys2Proof.Machine Sys2Proof.Spec Sys2Proof.Laws

/-! The start of a command. -/

/-- The copy in progress that a queued command becomes, at its first byte. -/
def startedCopy (s : State) (h : HallId) (c : CopyCmd) : CopyRun :=
  { cmd := { c with clock := Clock.join (Clock.join c.clock Stamp.empty.clock) (s.hall h).cpClock }
    pos := 0, cov := [], versions := [], stop := false, entered := false, asked := false, nextAt := (s.hall h).cycle + Config.delay s.free, outcome := none }

section
variable {s : State} {h : HallId} {c : CopyCmd} {rest : List CopyCmd} (hcopy : (s.hall h).copy = none) (hq : (s.hall h).cq = c :: rest)
  (hmatch : c.matchAt = none) (hleave : (s.hall h).leaving c.slice = false)

include hcopy hq hmatch hleave

theorem startCopy_head (hwe : c.q.we = false) (hbad : c.bad = 0) (hres : c.resume = false ∨ c.cw = none) :
    s.startCopy h = (s.drawDelay.2).onHall h fun H => { H with cq := rest, copy := some (startedCopy s h c) } := by
  have hcursor : (c.resume && c.cw.isSome) = false := by
    obtain hr | hr := hres
    · rw [hr, Bool.false_and]
    · rw [hr]; exact Bool.and_false _
  have hmatched : c.matchAt.isSome = false := by rw [hmatch]; rfl
  unfold State.startCopy
  simp only [hcopy, hq, hmatched, hleave, hwe, hcursor, Bool.or_self, Bool.false_eq_true, if_false]
  exact if_neg (not_not.2 hbad)

/-- A command whose event has no count waits for it. -/
theorem startCopy_waits (hwe : c.q.we = true) (hev : ((s.hall h).work.ev c.q.ev.toNat).count = 0) : s.startCopy h = s := by
  have htake : s.engineTake h c.q.ev.toNat = none := by
    unfold State.engineTake
    exact if_pos hev
  unfold State.startCopy
  simp only [hcopy, hq, hmatch, hleave, hwe, htake, Option.isSome_none, Bool.or_self, Bool.false_eq_true, if_false, if_true]

end

/-! Bursts. -/

/-- A copy that is due for its next burst. -/
structure Due (s : State) (h : HallId) (r : CopyRun) : Prop where
  copy : (s.hall h).copy = some r
  outcome : r.outcome = none
  pos : r.pos < copyTotal r.cmd.kind r.cmd.x
  stop : r.stop = false
  nextAt : r.nextAt ≤ (s.hall h).cycle

theorem live_of_due {s : State} {h : HallId} {r : CopyRun} (hdue : Due s h r) :
    ¬(r.outcome.isSome = true ∨ copyTotal r.cmd.kind r.cmd.x ≤ r.pos ∨ r.stop = true ∨ (s.hall h).cycle < r.nextAt) := by
  obtain ⟨-, hout, hpos, hstop, hat⟩ := hdue
  rw [hout, hstop]
  simp only [Option.isSome_none, Bool.false_eq_true, false_or]
  omega

/-- An engine's access that need not wait changes nothing. -/
theorem engineResolve_state {s u : State} {w : Who} {binds : List (BitVec 32 × BitVec 32)} {k : Want} {as : List Nat} {f : Found}
    (h : s.engineResolve w binds k as = (f, u)) (hf : f ≠ .wait) : u = s := by
  unfold State.engineResolve at h
  dsimp only at h
  split at h
  · cases h; exact absurd rfl hf
  · split at h
    · cases h; rfl
    · split at h
      · cases h; exact absurd rfl hf
      · cases h; rfl
    · split at h
      · cases h; rfl
      · cases h; exact absurd rfl hf

/-- A burst that has been planned has changed nothing. -/
theorem planBurst_state {s u : State} {w : Who} {binds : List (BitVec 32 × BitVec 32)} {c : CopyCmd} {ts : List (Nat × Nat)}
    {x : Option (List Piece)} (h : s.planBurst w binds c ts = (some x, u)) : u = s := by
  induction ts generalizing s u x with
  | nil => cases h; rfl
  | cons t ts ih =>
    obtain ⟨t, n⟩ := t
    have hfrom {v : State} {f : Found} {as : List Nat}
        (hv : (if c.kind = .FILL then (Found.ok [], s) else s.engineResolve w binds wantEngineRead as) = (f, v)) (hf : f ≠ .wait) : v = s := by
      split at hv
      · cases hv; rfl
      · exact engineResolve_state hv hf
    unfold State.planBurst at h
    dsimp only at h
    split at h
    · cases h
    · next hdst => cases h; exact engineResolve_state hdst nofun
    · next hdst =>
      cases engineResolve_state hdst nofun
      split at h
      · cases h
      · next hsrc => cases h; exact hfrom hsrc nofun
      · next hsrc =>
        cases hfrom hsrc nofun
        split at h
        · cases h
        · next hrest => cases h; exact ih hrest

theorem readsOnly_readPiece (s : State) (h : HallId) (u : Who) (binds : List (BitVec 32 × BitVec 32)) (r : CopyRun) (acc : Burst) (p : Piece) :
    ReadsOnly s (s.readPiece h u binds r acc p).2 := by
  have hread := readsOnly_engineRead s h .copy r.cmd.id r.cmd.asid r.cmd.part (s.engineReader h .copy r.cmd.part r.cmd.floor) p.src
  unfold State.readPiece
  extract_lets c part
  split
  · exact readsOnly_refl s
  · split
    · exact readsOnly_refl s
    · split
      · exact readsOnly_refl s
      · split
        · next e => rw [e] at hread; exact hread
        · next e => rw [e] at hread; exact hread
        · next e => rw [e] at hread; exact hread

/-- A burst's pieces read one after the other (R197). -/
def readPieces (h : HallId) (u : Who) (binds : List (BitVec 32 × BitVec 32)) (r : CopyRun) (ps : List Piece) (a : Burst × State) : Burst × State :=
  ps.foldl (fun a p => a.2.readPiece h u binds r a.1 p) a

theorem readsOnly_readPieces (h : HallId) (u : Who) (binds : List (BitVec 32 × BitVec 32)) (r : CopyRun) (ps : List Piece) (a : Burst × State) :
    ReadsOnly a.2 (readPieces h u binds r ps a).2 := by
  induction ps generalizing a with
  | nil => exact readsOnly_refl a.2
  | cons p ps ih => exact readsOnly_trans (readsOnly_readPiece a.2 h u binds r a.1 p) (ih _)

/-- The bytes that a burst has read, each with the place that takes it. -/
def burstCells (b : Burst) : List Host.Cell := b.out.flatMap fun e => e.1.dst.zip e.2

/-- The state in which a burst's bytes have been written, before the copy moves on. -/
def burstWritten (u : State) (h : HallId) (c : CopyCmd) (b : Burst) : State :=
  let s := (u.dropFar h .copy c.id).engineWrite (copyWriter h c none c.clock) (lastCells (burstCells b))
  b.out.foldl (fun s e => s.coverLine h c.asid e.1) s.drawDelay.2

/-- A copy moved on by a burst: it stops at the data fault that the burst has met. -/
def movedOn (b : Burst) (made : List Nat) (at_ : Nat) (r : CopyRun) : CopyRun :=
  let r := { r with pos := r.pos + b.out.foldl (fun n e => n + e.1.n) 0, versions := r.versions ++ made, nextAt := at_ }
  if b.code = 0 then r else r.fail b.code

section
variable {s s1 : State} {h : HallId} {r : CopyRun} (hdue : Due s h r)

include hdue

theorem burst_due {ps : List Piece} {b : Burst} {u : State}
    (hplan : s.planBurst (s.copyWho h r.cmd) (s.bindsOf r.cmd.slice) r.cmd (burstPieces r.pos (copyTotal r.cmd.kind r.cmd.x)) = (some (some ps), s1))
    (hnear : s1.farMissing h .copy r.cmd.id ((ps.flatMap (·.src)).filter inFabric) = false)
    (hread : readPieces h (s.copyWho h r.cmd) (s.bindsOf r.cmd.slice) r ps ({ out := [], code := 0 }, s1) = (b, u)) :
    ∃ made d, s.burst h = (burstWritten u h r.cmd b).onCopy h (movedOn b made (((burstWritten u h r.cmd b).hall h).cycle + 1 + d)) := by
  obtain ⟨rfl, rfl⟩ := Prod.mk.inj hread
  unfold State.burst
  rw [hdue.copy]
  dsimp only
  rw [if_neg (live_of_due hdue), hplan]
  dsimp only
  rw [hnear, if_neg Bool.false_ne_true]
  exact ⟨_, _, rfl⟩

/-- A burst of which a byte does not translate fails with code 3 (R431). -/
theorem burst_untranslated
    (hplan : s.planBurst (s.copyWho h r.cmd) (s.bindsOf r.cmd.slice) r.cmd (burstPieces r.pos (copyTotal r.cmd.kind r.cmd.x)) = (some none, s1)) :
    s.burst h = s1.onCopy h (·.fail 3) := by
  unfold State.burst
  rw [hdue.copy]
  dsimp only
  rw [if_neg (live_of_due hdue), hplan]

end

/-! What a burst writes. -/

theorem copy_onCopy (s : State) (h : HallId) (f : CopyRun → CopyRun) : ((s.onCopy h f).hall h).copy = (s.hall h).copy.map f :=
  congrArg Hall.copy (hall_onHall_same s h _)

theorem writes_onCopy (s : State) (h : HallId) (f : CopyRun → CopyRun) : Writes s (s.onCopy h f) [] :=
  writes_none (sameCycles_onHall s h _ rfl) rfl rfl

/-- Of the copy in progress a step has changed at most what counts towards the age of row groups, and memory not at all (R198). -/
structure Covers (s t : State) (h : HallId) : Prop where
  copy : ∀ r, (s.hall h).copy = some r → ∃ cov, (t.hall h).copy = some { r with cov := cov }
  writes : Writes s t []

theorem covers_trans {s t u : State} {h : HallId} (a : Covers s t h) (b : Covers t u h) : Covers s u h := by
  refine ⟨fun r hr => ?_, writes_after a.writes b.writes⟩
  obtain ⟨_, ht⟩ := a.copy r hr
  obtain ⟨cov, hu⟩ := b.copy _ ht
  exact ⟨cov, hu⟩

theorem covers_of_readsOnly {s t : State} (h : HallId) (a : ReadsOnly s t) : Covers s t h :=
  ⟨fun r hr => ⟨r.cov, (noted_copy a.noted h).trans hr⟩, a.writes⟩

theorem covers_coverLine (s : State) (h : HallId) (asid : Asid) (p : Piece) : Covers s (s.coverLine h asid p) h := by
  have hcov (f : SMap 64 → SMap 64) : Covers s (s.onCopy h fun r => { r with cov := f r.cov }) h := by
    refine ⟨fun r hr => ⟨f r.cov, ?_⟩, writes_onCopy s h _⟩
    rw [copy_onCopy, hr]
    rfl
  have hgroup (t : State) (g : Nat) : Covers t (t.coverRowGroup g asid) h := covers_of_readsOnly h (readsOnly_of_stock rfl)
  unfold State.coverLine
  split
  · exact covers_of_readsOnly h (readsOnly_refl s)
  · next g i _ =>
    extract_lets old now t
    have ht : Covers s t h := hcov fun m => sset m g now
    split
    · exact covers_trans ht (hgroup t g)
    · exact ht

theorem covers_coverLines (h : HallId) (asid : Asid) (out : List (Piece × Bytes)) (s : State) :
    Covers s (out.foldl (fun s e => s.coverLine h asid e.1) s) h := by
  induction out generalizing s with
  | nil => exact covers_of_readsOnly h (readsOnly_refl s)
  | cons e out ih => exact covers_trans (covers_coverLine s h asid e.1) (ih _)

/-- The bytes of a burst that are of this module. -/
def nearCells (b : Burst) : List Host.Cell := (lastCells (burstCells b)).filter fun c => !inFabric c.1

theorem burstWritten_writes (u : State) (h : HallId) (c : CopyCmd) (b : Burst) :
    (∀ r, (u.hall h).copy = some r → ∃ cov, ((burstWritten u h c b).hall h).copy = some { r with cov := cov }) ∧
      Writes u (burstWritten u h c b) (byLines (nearCells b)) := by
  let v := u.dropFar h .copy c.id
  let w := v.engineWrite (copyWriter h c none c.clock) (lastCells (burstCells b))
  have hdrop : ReadsOnly u v := readsOnly_of_stock rfl
  obtain ⟨hnoted, hwrites⟩ := engineWrite_near v (copyWriter h c none c.clock) (lastCells (burstCells b))
  have hdraw : ReadsOnly w w.drawDelay.2 := readsOnly_of_stock rfl
  have hcover := covers_trans (covers_of_readsOnly h hdraw) (covers_coverLines h c.asid b.out w.drawDelay.2)
  refine ⟨fun r hr => hcover.copy r ?_, ?_⟩
  · exact (noted_copy (noted_trans hdrop.noted hnoted) h).trans hr
  · exact writes_after (writes_trans hdrop.writes hwrites) hcover.writes

/-- Cells of different addresses are all the last of theirs. -/
theorem lastCells_of_nodup {cs : List Host.Cell} (h : (cs.map (·.1)).Nodup) : lastCells cs = cs := by
  induction cs with
  | nil => rfl
  | cons c t ih =>
    obtain ⟨hc, ht⟩ := List.nodup_cons.1 h
    have hany : (t.any fun e => e.1 == c.1) = false := by
      rw [List.any_eq_false]
      exact fun e he hec => hc (List.mem_map.2 ⟨e, he, beq_iff_eq.1 hec⟩)
    unfold lastCells
    rw [ih ht]
    dsimp only
    rw [hany]
    rfl

/-- Each byte of this module that a burst has read stands at its place. -/
theorem byte_of_burst {s t : State} {b : Burst} (hw : Writes s t (byLines (nearCells b))) (hu : Uncounted s) (hnd : ((burstCells b).map (·.1)).Nodup)
    {c : Host.Cell} (hc : c ∈ burstCells b) (hnear : inFabric c.1 = false) : Memory.byte t.mem c.1 = c.2 := by
  have hcells : nearCells b = (burstCells b).filter fun c => !inFabric c.1 := by rw [nearCells, lastCells_of_nodup hnd]
  refine (byte_of_writes hw hu).2 ?_ c ?_
  · rw [hcells]
    exact hnd.sublist (List.filter_sublist.map _)
  · rw [hcells]
    exact List.mem_filter.2 ⟨hc, by rw [hnear]; rfl⟩

theorem movedOn_fields (b : Burst) (made : List Nat) (n : Nat) (r : CopyRun) :
    (movedOn b made n r).pos = r.pos + (b.out.map fun e => e.1.n).sum ∧ (movedOn b made n r).cmd = r.cmd ∧ (movedOn b made n r).nextAt = n ∧
      (b.code = 0 → (movedOn b made n r).outcome = r.outcome) ∧
      (b.code ≠ 0 → (movedOn b made n r).outcome = some ((movedOn b made n r).pos, b.code, 2)) := by
  have hsum : b.out.foldl (fun n e => n + e.1.n) 0 = (b.out.map fun e => e.1.n).sum := by rw [List.sum_eq_foldl, List.foldl_map]
  rw [← hsum]
  unfold movedOn
  dsimp only
  split
  · next hb => exact ⟨rfl, rfl, rfl, fun _ => rfl, fun hne => absurd hb hne⟩
  · next hb => exact ⟨rfl, rfl, rfl, fun he => absurd he hb, fun _ => rfl⟩

/-- A burst that has been read writes its bytes and moves the copy on by them, to a data fault if it has met one (R197, R431). -/
theorem burst_moves {s s1 u : State} {h : HallId} {r : CopyRun} {ps : List Piece} {b : Burst} (hdue : Due s h r)
    (hplan : s.planBurst (s.copyWho h r.cmd) (s.bindsOf r.cmd.slice) r.cmd (burstPieces r.pos (copyTotal r.cmd.kind r.cmd.x)) = (some (some ps), s1))
    (hnear : s1.farMissing h .copy r.cmd.id ((ps.flatMap (·.src)).filter inFabric) = false)
    (hread : readPieces h (s.copyWho h r.cmd) (s.bindsOf r.cmd.slice) r ps ({ out := [], code := 0 }, s1) = (b, u)) :
    ∃ made n cov, (s.hall h).cycle < n ∧ ((s.burst h).hall h).copy = some (movedOn b made n { r with cov := cov }) ∧
      Writes s (s.burst h) (byLines (nearCells b)) := by
  obtain ⟨made, d, hburst⟩ := burst_due hdue hplan hnear hread
  have hreads : ReadsOnly s u := by
    have hall := readsOnly_readPieces h (s.copyWho h r.cmd) (s.bindsOf r.cmd.slice) r ps ({ out := [], code := 0 }, s1)
    rw [hread, planBurst_state hplan] at hall
    exact hall
  obtain ⟨hcov, hwrites⟩ := burstWritten_writes u h r.cmd b
  obtain ⟨cov, hcopy⟩ := hcov r ((noted_copy hreads.noted h).trans hdue.copy)
  generalize burstWritten u h r.cmd b = v at hburst hwrites hcopy
  have hv : Writes s v (byLines (nearCells b)) := writes_trans hreads.writes hwrites
  refine ⟨made, (v.hall h).cycle + 1 + d, cov, ?_, ?_, hburst ▸ writes_after hv (writes_onCopy v h _)⟩
  · rw [hv.cycles h]
    omega
  · rw [hburst, copy_onCopy, hcopy]
    rfl

/-! The end of a copy. -/

theorem commandError_success (s : State) (slice depth : Nat) (st : Strand) (pc : Word) (silent : Bool) : s.commandError slice depth 0 st pc silent = s := by
  unfold State.commandError
  exact if_neg (by decide)

/-- A copy that has ended well, without a completion word, leaves the engine at once (R197). -/
theorem completeCopy_ends {s : State} {h : HallId} {r : CopyRun} {cur state : Nat} (hcopy : (s.hall h).copy = some r)
    (hends : r.ends (s.hall h).cycle = some (cur, 0, state)) (hscope : r.cmd.q.scope ≠ .fabric) (hfar : s.farWaits h .L (some .copy) = false)
    (hcw : r.cmd.cw = none) : s.completeCopy h = s.nextPub.2.endCopy h r s.nextPub.1 state := by
  unfold State.completeCopy
  rw [hcopy]
  dsimp only
  rw [hends]
  dsimp only
  rw [if_neg fun hc => hscope hc.1, hfar, if_neg Bool.false_ne_true, hcw]
  exact commandError_success (s.nextPub.2.endCopy h r s.nextPub.1 state) r.cmd.slice r.cmd.depth (r.cmd.issuer.getD .S) r.cmd.issuePc true

/-- A change of a slice, wherever it is, leaves every Hall but for its slice, and memory. -/
theorem onSliceId_keeps (s : State) (id : Nat) (f : Slice → Slice) :
    Noted s (s.onSliceId id f) ∧ (s.onSliceId id f).mem = s.mem := by
  unfold State.onSliceId
  split
  · exact ⟨noted_onHall s _ _ rfl, rfl⟩
  · exact ⟨noted_of_halls rfl, rfl⟩

/-- A Hall whose copy has left, with its markers told (R287). -/
def copyLeft (know : Clock) (id : Nat) (H : Hall) : Hall := (({ H with copy := none }).learn .copy know).tellMarkers .copy id know

theorem endCopy_leaves (s : State) (h : HallId) (r : CopyRun) (k state : Nat) :
    ((s.endCopy h r k state).hall h).copy = none ∧ SameButMarkers (s.hall h).work ((s.endCopy h r k state).hall h).work ∧
      (s.endCopy h r k state).mem = s.mem := by
  let know := r.cmd.clock.up (.engine h .copy) k
  let t := ((s.dropFar h .copy r.cmd.id).releaseVersions r.versions k r.cmd.clock).onHall h (copyLeft know r.cmd.id)
  have ht : t.hall h = copyLeft know r.cmd.id (s.hall h) := hall_onHall_same _ h _
  obtain ⟨u, hu, hnoted, hmem⟩ : ∃ u, s.endCopy h r k state = u ∧ Noted t u ∧ u.mem = t.mem := ⟨_, rfl, onSliceId_keeps t _ _⟩
  rw [hu, noted_copy hnoted h, hmem]
  have hwork : (u.hall h).work = (t.hall h).work := by rw [hnoted h]
  rw [hwork, ht]
  exact ⟨rfl, rfl, rfl⟩

/-! The follow-on of a CP.MM. -/

/-- The matrix command that a follow-on is. -/
def followCmd (s : State) (h : HallId) (r : CopyRun) (w val : Word) (i : Instr) (ps : List Nat) : MatCmd :=
  { id := (s.hall h).mqNext, op := i, word := w, value := val, pages := ps, fmt := .BF16, tid := (s.strand h .M).ntid.toNat, slice := r.cmd.slice,
    asid := r.cmd.asid, part := r.cmd.part, super := r.cmd.super, depth := r.cmd.depth, poster := h, started := none, endsAt := 0, fed := 0,
    lastFed := 0, rows := [], flags := 0, posted := false, lost := none, clock := r.cmd.clock,
    floor := s.hist.foldl (fun f v => if r.versions.contains v.id then lineUp v.line v.id f else f) r.cmd.floor, pc := r.cmd.issuePc }

theorem followEntry_enters {s s1 : State} {h : HallId} {r : CopyRun} {w val : Word} {i : Instr} {k n : Nat} {wr : Bool} {ps : List Nat}
    (hcopy : (s.hall h).copy = some r) (hfollow : r.cmd.follow = some (w, val)) (hentered : r.entered = false) (hout : r.outcome = none)
    (hpos : copyTotal r.cmd.kind r.cmd.x ≤ r.pos) (hat : r.nextAt ≤ (s.hall h).cycle) (hroom : (s.hall h).mq.length < 16)
    (hop : followOn w = some (i, k)) (hlegal : { s with curHall := h }.matIllegal i = false) (hsuper : r.cmd.super = true)
    (himage : imageOf i = some (n, wr)) (hval : val.toNat % 64 = 0)
    (hres : s.engineResolve (s.copyWho h r.cmd) (s.bindsOf r.cmd.slice) (imageWant wr) (runFrom val.toNat n) = (.ok ps, s1)) :
    s.followEntry h = (s1.enterMat h (followCmd s1 h r w val i ps)).onCopy h fun r => { r with entered := true } := by
  have hdue : ¬(r.entered = true ∨ r.outcome.isSome = true ∨ r.pos < copyTotal r.cmd.kind r.cmd.x ∨ (s.hall h).cycle < r.nextAt) := by
    rw [hentered, hout]
    simp only [Option.isSome_none, Bool.false_eq_true, false_or]
    omega
  have hown : (!r.cmd.super) = false := by rw [hsuper]; rfl
  unfold State.followEntry
  simp only [hcopy, hfollow]
  rw [if_neg hdue, if_neg (Nat.not_le.2 hroom)]
  simp only [hop, hlegal, hown, himage, hval, hres, Bool.false_and, Bool.false_eq_true, or_self, if_false, ne_eq, not_true_eq_false]
  rfl

/-- Settles O40: a start, a burst read and written, an end and an entry, each from what the engine's operation leaves. -/
theorem copySteps : Obligations.CopySteps := by
  intro s h
  refine ⟨?_, ?_, ?_, ?_, ?_, ?_⟩
  · intro c rest hcopy hq hmatch hleave hwe hbad hres
    have ht := startCopy_head hcopy hq hmatch hleave hwe hbad hres
    have hhall : (s.startCopy h).hall h = { s.hall h with cq := rest, copy := some (startedCopy s h c) } := by rw [ht, hall_onHall_same]; rfl
    refine ⟨s.startCopy h, startedCopy s h c, rfl, ?_, ?_, rfl, rfl, rfl, rfl, rfl, rfl, rfl, Nat.le_add_right _ _, ?_, ?_⟩
    · rw [hhall]
    · rw [hhall]
    · rw [hhall]
    · rw [ht]
      exact atHall_trans (t := s.drawDelay.2) (atHall_of_eq h rfl rfl) (atHall_onHall s.drawDelay.2 h _)
  · intro c rest hcopy hq hmatch hleave hwe hev
    exact ⟨s.startCopy h, rfl, startCopy_waits hcopy hq hmatch hleave hwe hev⟩
  · intro r ps s1 hcopy hout hpos hstop hat u binds hplan hnear got cells
    obtain ⟨made, n, cov, hn, hmoved, hw⟩ := burst_moves (b := got.1) (u := got.2) ⟨hcopy, hout, hpos, hstop, hat⟩ hplan hnear rfl
    obtain ⟨hposAt, hcmd, hnext, hgoes, hstops⟩ := movedOn_fields got.1 made n { r with cov := cov }
    exact ⟨s.burst h, _, rfl, hmoved, hposAt, fun hc => (hgoes hc).trans hout, hstops, hcmd, hn.trans_eq hnext.symm,
      fun hu _ hnd c hc hnear => byte_of_burst hw hu hnd hc hnear⟩
  · intro r s1 hcopy hout hpos hstop hat hplan
    exact ⟨s.burst h, rfl, burst_untranslated ⟨hcopy, hout, hpos, hstop, hat⟩ hplan⟩
  · intro r cur state hcopy hends hscope hfar hcw
    have ht := completeCopy_ends hcopy hends hscope hfar hcw
    obtain ⟨hgone, hwork, hmem⟩ := endCopy_leaves s.nextPub.2 h r s.nextPub.1 state
    exact ⟨s.completeCopy h, rfl, ht ▸ hgone, ht ▸ hwork, ht ▸ hmem⟩
  · intro r w val i k n wr ps s1 hcopy hfollow hentered hout hpos hat hroom hop hlegal hsuper himage hval hres
    have ht := followEntry_enters hcopy hfollow hentered hout hpos hat hroom hop hlegal hsuper himage hval hres
    let m := followCmd s1 h r w val i ps
    have hcopy1 : (s1.hall h).copy = some r := by rw [engineResolve_state hres nofun, hcopy]
    have hmq := congrArg Hall.mq (hall_enterMat s1 h m)
    have hrun := congrArg Hall.copy (hall_enterMat s1 h m)
    refine ⟨s.followEntry h, { r with entered := true }, m, rfl, ?_, rfl, rfl, rfl, rfl, rfl, ?_, rfl⟩
    · rw [ht]
      exact (congrArg Hall.mq (hall_onHall_same _ h _)).trans hmq
    · rw [ht, copy_onCopy, hrun]
      exact congrArg (Option.map fun r => { r with entered := true }) hcopy1

end Sys2Proof.Proofs
end

section
/-! HINT.SUCC while the event queue is full (R218, R312, R400). -/

namespace Sys2Proof.Proofs
open Sys2Proof.Machine Sys2Proof.Spec

/-- HINT.SUCC (R218). -/
theorem exec_hintSucc {s : State} {sl : Slice} (hs : s.here.slice = some sl) : exec .hintSucc s = .next (s.releaseSucc sl.inst).issue := by
  refine congrArg Host.Outcome.next ?_
  rw [hs]

theorem mem_of_inst {s : State} {id : Nat} {i : Inst} (h : s.inst id = some i) : i ∈ s.insts := List.mem_of_find?_eq_some h

/-- A launch whose successor record stands at an address beyond the 52 bits of a virtual address. -/
def unreachableSucc : Inst :=
  { id := 0, live := 1, asid := 0, part := 0, succ := BitVec.ofNat 64 (2 ^ 52), released := false, wants := false, pred := none, ended := false,
    start := [], stamp := [] }

/-- Hall 0 runs a slice of that launch, and the event queue of its partition is full. -/
def hintsWithoutRoom : State :=
  { (State.reset.placed 0x0000A60000000000).onPart 0 fun P => { P with evq := List.replicate 256 (hostEvent 4 0 0 0 0 0 0) } with
    insts := [unreachableSucc] }

theorem hintsWithoutRoom_hints : ∃ sl, hintsWithoutRoom.here.slice = some sl ∧ hintsWithoutRoom.inst sl.inst = some unreachableSucc :=
  ⟨_, rfl, by decide +kernel⟩

/-- The record cannot be read, and the event that would say so finds no room: the release is due again later, neither made nor wanted. -/
theorem hintsWithoutRoom_waits : (hintsWithoutRoom.releaseSucc 0).issue.insts = [{ unreachableSucc with due := true }] := by decide +kernel

/-- Refutes O21: a HINT.SUCC whose successor record cannot be read, while the partition's event queue is full, neither releases the successor nor notes
that it is wanted; its launch is marked to be tried again (R400). -/
theorem not_sharingWork : ¬Obligations.SharingWork := by
  unfold Obligations.SharingWork
  rintro ⟨hdividing, -⟩
  obtain ⟨sl, hs, hinst⟩ := hintsWithoutRoom_hints
  have hid : sl.inst = 0 := by
    have := List.find?_some hinst
    exact (beq_iff_eq.1 this).symm
  obtain ⟨-, -, -, hhint, -⟩ := hdividing hintsWithoutRoom sl hs
  obtain ⟨t, j, ht, -, hj, hdone, -⟩ := hhint _ hinst rfl (by decide +kernel)
  have hexec := exec_hintSucc hs
  rw [hid] at hexec
  rw [hexec] at ht
  rw [← Host.Outcome.next.inj ht] at hj
  have hmem := mem_of_inst hj
  rw [hintsWithoutRoom_waits, List.mem_singleton] at hmem
  rw [hmem] at hdone
  exact hdone.elim Bool.false_ne_true Bool.false_ne_true

end Sys2Proof.Proofs
end

section
/-! Hazel syllables at issue (R16, R236, R237, R345 to R347). -/

namespace Sys2Proof.Proofs
open Sys2Proof.Machine Sys2Proof.Spec Sys2Proof.Laws

/-- HZ.READ with a count outside 1 to 64 (R237). -/
def countRefused (k : HzKind) (vb : Word) : Bool := k == .read && (vb.toNat == 0 || decide (64 < vb.toNat))

/-- The Hazel syllables of the table are one operation (R236, R237). -/
theorem exec_of_hazelRow {s : State} {i : Instr} {k : HzKind} {rd : List Src} {va vb vx : Word} {d : BitVec 6} {c : QCtl}
    (h : hazelRow s i = some (k, rd, va, vb, vx, d, c)) : exec i s = .next (s.hazelSyllable rd k va vb vx d c (countRefused k vb)) := by
  unfold hazelRow at h
  split at h <;> cases h <;> rfl

/-- A completion word that can be written passes its check (R120, R194). -/
theorem wordChecked_ready {s : State} {d : BitVec 6} (h : WordReady s d) (go : State → State) : s.wordChecked (s.cwOf d) go = go s := by
  unfold State.cwOf
  rcases h with hd | ⟨ps, hps⟩
  · rw [if_pos hd]; rfl
  · split
    · rfl
    · exact withBytes_accessible s _ _ _ _ ps _ hps

theorem hazelFull_eq_false {H : Hall} (hs : H.sampledHq < 16) (hl : H.hazelLoad < 16) : H.hazelFull = false := by
  simp [Hall.hazelFull, hs, hl]

theorem hazelFull_eq_true {H : Hall} (h : 16 ≤ H.sampledHq ∨ 16 ≤ H.hazelLoad) : H.hazelFull = true := by
  simpa [Hall.hazelFull] using h

/-- A place in the effect log is kept for a command while a region is open (R346). -/
def placed (sl : Slice) : Slice := if sl.regions.isEmpty then sl else { sl with logFill := sl.logFill + 1 }

/-- The command that a Hazel syllable makes. -/
def issuedHazel (s : State) (k : HzKind) (va vb vx : Word) (cw : Option Word) (q : QCtl) (m : Option Nat) (bad : Nat) : HzCmd :=
  { id := s.here.hqNext, kind := k, va := va, vb := vb, vx := vx, cw := cw, q := q, word := s.curWord,
    slice := match s.here.slice with | some sl => sl.id | none => 0, asid := s.asid, part := s.partId, super := s.superMode,
    issuer := some s.curStrand, issuePc := s.me.pc, depth := s.depth, matchAt := m, bad := bad, clock := s.known,
    floor := s.engineFloor s.curHall .hazel q.scope, sent := false }

/-- A Hall whose Hazel queue a command has entered. -/
def hazelQueued (y : HzCmd) (H : Hall) : Hall :=
  { H with hq := H.hq ++ [y], hqNext := H.hqNext + 1, hzEntered := H.hzEntered || y.kind == .pool }

/-- A slice that has used its Hall's Hazel engine (R236). -/
def usesHazel (sl : Slice) : Slice := { sl with hzUsed := true }

/-- A Hall whose Hazel queue a command of its slice has entered. -/
def hazelEntered (y : HzCmd) (H : Hall) : Hall := Hall.onSlice (hazelQueued y H) usesHazel

/-- A syllable that has passed its checks takes its place in the log, is counted by the checker, and enters its command. -/
def hazelChecked (s : State) (k : HzKind) (va vb vx : Word) (cw : Option Word) (q : QCtl) : State :=
  ((s.onSlice placed).underChecker.2.2.onHere
    (hazelEntered (issuedHazel (s.onSlice placed).underChecker.2.2 k va vb vx cw q (s.onSlice placed).underChecker.1
      (s.onSlice placed).underChecker.2.1))).issue

theorem enterHazel_eq (s : State) (k : HzKind) (va vb vx : Word) (cw : Option Word) (q : QCtl) (m : Option Nat) (bad : Nat) :
    (s.enterHazel s.curHall k va vb vx cw q (some s.curStrand) m bad).onSlice usesHazel =
      s.onHere (hazelEntered (issuedHazel s k va vb vx cw q m bad)) :=
  onHall_onHall s s.curHall (hazelQueued (issuedHazel s k va vb vx cw q m bad)) (Hall.onSlice · usesHazel)

section
variable {s : State} {sl : Slice} {rd : List Src} {k : HzKind} {va vb vx : Word} {d : BitVec 6} {q : QCtl} {bad : Bool}
  (hs : s.here.slice = some sl) (hr : Readable s rd)
include hs hr

/-- A first command that is not HZ.POOL, or one whose count is refused, traps (R236, R237). -/
theorem hazelSyllable_refused (h : bad = true ∨ (sl.hzUsed = false ∧ k ≠ .pool)) :
    s.hazelSyllable rd k va vb vx d q bad = s.trapCause .ILLEGAL := by
  unfold State.hazelSyllable
  rw [readingWhen_readable s _ _ _ hr]
  simp only [hs]
  refine if_pos ?_
  rcases h with h | ⟨hu, hk⟩
  · simp [h]
  · simp [hu, hk]

/-- A command that nothing refuses and the log does not answer waits for room in the queue, and enters it. -/
theorem hazelSyllable_passes (hb : bad = false) (h : sl.hzUsed = true ∨ k = .pool) (hw : WordReady s d) (hl : s.logAnswer va vb = .fresh) :
    s.hazelSyllable rd k va vb vx d q bad =
      if s.here.hazelFull then s.freeze else hazelChecked s k va vb vx (s.cwOf d) q := by
  have hgo : ¬(bad || (!sl.hzUsed && k != .pool)) = true := by
    rcases h with h | h <;> simp [hb, h]
  unfold State.hazelSyllable
  rw [readingWhen_readable s _ _ _ hr]
  simp only [hs]
  rw [if_neg hgo, wordChecked_ready hw]
  unfold State.logged
  rw [hl]
  refine congrArg (fun t => if s.here.hazelFull = true then s.freeze else t) ?_
  exact congrArg State.issue (enterHazel_eq _ k va vb vx _ q _ _)

end

/-- What an entry leaves, whatever the command. -/
theorem hazelEntry_enters (s : State) (n : Nat) (hit : Bool) (y : HzCmd) :
    let t := (((s.onSlice placed).onHere (counting n hit)).onHere (hazelEntered y)).issue
    t.here = hazelEntered y (counting n hit (Hall.onSlice s.here placed)) ∧ Enters s t := by
  intro t
  let F : Hall → Hall := fun H => hazelEntered y (counting n hit (Hall.onSlice H placed))
  have ht : t = (s.onHere F).issue := by
    refine congrArg State.issue ?_
    exact (congrArg (fun u : State => u.onHall s.curHall (hazelEntered y)) (onHall_onHall s s.curHall _ (counting n hit))).trans
      (onHall_onHall s s.curHall _ (hazelEntered y))
  have hhere : t.here = F s.here := by rw [ht]; exact here_onHere s F
  refine ⟨hhere, ?_⟩
  exact { issued := rfl
          strands := fun st => by rw [hhere]; rfl
          tiles := by rw [hhere]; exact ⟨rfl, rfl, rfl⟩
          halls := fun g hg => by rw [ht]; exact hall_onHall_ne s s.curHall g F hg
          mq := by rw [hhere]; rfl
          memory := by rw [ht]; exact onHere_sameMemory s F true s.trapped s.target rfl }

theorem placed_asid (sl : Slice) : (placed sl).asid = sl.asid := by
  unfold placed; split <;> rfl

/-- Settles O27: the seven syllables are one operation, whose checks leave a trap, a freeze or an entry. -/
theorem hazelCommandsEnterTheQueue : Obligations.HazelCommandsEnterTheQueue := by
  intro s sl i k rd va vb vx d c hs hrow hr
  have hexec := exec_of_hazelRow hrow
  have hcount : (k = .read → 1 ≤ vb.toNat ∧ vb.toNat ≤ 64) ↔ countRefused k vb = false := by
    by_cases hk : k = .read
    · simp [countRefused, hk]; omega
    · simp [countRefused, hk]
  intro ok
  refine ⟨fun hok hw hl => ?_, fun hno hu => ?_⟩
  · rw [hazelSyllable_passes hs hr (hcount.1 hok.2) hok.1 hw hl] at hexec
    refine ⟨fun hq hload => ?_, fun hfull => ?_⟩
    · rw [hazelFull_eq_false hq hload, if_neg Bool.false_ne_true] at hexec
      obtain ⟨n, hit, hcounted, -⟩ := underChecker_counts (s.onSlice placed)
      let u := (s.onSlice placed).onHere (counting n hit)
      let m := (s.onSlice placed).underChecker
      let y := issuedHazel u k va vb vx (s.cwOf d) c m.1 m.2.1
      obtain ⟨hhere, henters⟩ := hazelEntry_enters s n hit y
      have hu : u.here = counting n hit (Hall.onSlice s.here placed) := by
        refine (here_onHere _ _).trans ?_
        exact congrArg (counting n hit) (here_onHere s _)
      have hslice : u.here.slice = some (placed sl) := by rw [hu]; exact congrArg (Option.map placed) hs
      unfold hazelChecked at hexec
      rw [hcounted] at hexec
      refine ⟨_, y, usesHazel (placed sl), hexec, henters, ?_, ?_, ?_, ?_, rfl, rfl, rfl, rfl, rfl, rfl, rfl, ?_, rfl, ?_, rfl⟩
      · rw [hhere]; rfl
      · rw [hhere]; rfl
      · exact (congrArg Hall.hqNext hu :)
      · rw [hhere]; rfl
      · change State.asid u = _
        unfold State.asid
        rw [hslice, hs]; exact placed_asid sl
      · rw [hhere]
        exact congrArg (Option.map usesHazel) (congrArg (Option.map placed) hs)
    · rw [hazelFull_eq_true hfull, if_pos rfl] at hexec
      exact ⟨_, hexec, freeze_freezes s⟩
  · have hrefused : countRefused k vb = true ∨ (sl.hzUsed = false ∧ k ≠ .pool) := by
      by_cases hc : countRefused k vb = true
      · exact .inl hc
      · refine .inr ?_
        have hnot := fun h => hno ⟨h, hcount.2 (Bool.eq_false_of_not_eq_true hc)⟩
        simpa using hnot
    rw [hazelSyllable_refused hs hr hrefused] at hexec
    exact ⟨_, hexec, trapHere_traps s _ hu⟩

end Sys2Proof.Proofs
end

section
/-! What a region keeps, and the report of the innermost one (R231 to R233, R343). -/

namespace Sys2Proof.Proofs
open Sys2Proof.Machine Sys2Proof.Spec Sys2Proof.Laws

theorem mem_runFrom {a n k : Nat} : k ∈ runFrom a n ↔ a ≤ k ∧ k < a + n := by
  simp only [runFrom, List.mem_map, List.mem_range]
  exact ⟨fun ⟨i, hi, h⟩ => by omega, fun h => ⟨k - a, by omega, by omega⟩⟩

/-- Registers of a list that can be read, one by one. -/
theorem readable_cons {s : State} {x : Src} {rd : List Src} : Readable s (x :: rd) ↔ Readable s [x] ∧ Readable s rd := by
  simp only [Readable, StrandState.stallShort, List.any_cons, List.any_nil, Bool.or_false, Bool.and_or_distrib_left, Bool.or_eq_false_iff]

theorem mem_keepTile {W : Work} {t : Nat} {c : Nat × Byte} : c ∈ (W.keepTile t).bytes ↔ c ∈ W.tiles ∧ c.1 / 4096 = t := by
  simp [Work.keepTile]

theorem mem_keepRow {H : Hall} {n : Nat} {c : Nat × BitVec 64} : c ∈ (H.keepRow n).slots ↔ c ∈ H.acc ∧ c.1 / 128 = n := by
  simp [Hall.keepRow]

/-- The tiles that a mask names, as they stand. -/
def tilesOf (W : Work) (x : Word) : List KeptTile := ((List.range 32).filter fun t => x.getLsbD t).map W.keepTile

theorem mem_tilesOf {W : Work} {x : Word} {k : KeptTile} : k ∈ tilesOf W x ↔ ∃ n, n < 32 ∧ x.getLsbD n = true ∧ k = W.keepTile n := by
  simp only [tilesOf, List.mem_map, List.mem_filter, List.mem_range]
  exact ⟨fun ⟨n, ⟨hn, hx⟩, he⟩ => ⟨n, hn, hx, he.symm⟩, fun ⟨n, hn, hx, he⟩ => ⟨n, ⟨hn, hx⟩, he.symm⟩⟩

section
variable {s : State} {sl : Slice} {r : Region} {rest : List Region} (hs : s.here.slice = some sl) (hrs : sl.regions = r :: rest)
include hs hrs

theorem depth_of_regions : s.depth = rest.length + 1 := by
  unfold State.depth
  simp [hs, hrs]

/-- A change of the innermost region is all that changes in its Hall. -/
theorem here_onInnermost (f : Region → Region) :
    (s.onSlice (·.onInnermost f)).issue.here = { s.here with slice := some { sl with regions := f r :: rest } } := by
  refine (here_onSlice s _).trans ?_
  simp [Hall.onSlice, Slice.onInnermost, hs, hrs]

/-- With a region open RGN.KEEP does what its kind says. -/
theorem exec_rgnKeep_T {a b : BitVec 6} (hr : Readable s [.s a.toNat]) : exec (.rgnKeep .T a b) s =
    .next (s.onSlice (·.onInnermost fun r => { r with tiles := r.tiles ++ tilesOf s.here.work (s.me.reg a.toNat) })).issue := by
  refine congrArg Host.Outcome.next ((reading_readable s _ _ hr).trans (if_neg ?_))
  rw [depth_of_regions hs hrs]; exact Nat.succ_ne_zero _

theorem exec_rgnKeep_A {a b : BitVec 6} (hr : Readable s [.s a.toNat, .s b.toNat]) : exec (.rgnKeep .A a b) s =
    .next (if 512 < (s.me.reg a.toNat).toNat + (s.me.reg b.toNat).toNat then s.trapCause .ILLEGAL
      else (s.onSlice (·.onInnermost fun r =>
        { r with rows := r.rows ++ (runFrom (s.me.reg a.toNat).toNat (s.me.reg b.toNat).toNat).map s.here.keepRow })).issue) := by
  refine congrArg Host.Outcome.next ((reading_readable s _ _ hr).trans (if_neg ?_))
  rw [depth_of_regions hs hrs]; exact Nat.succ_ne_zero _

theorem exec_rgnKeep_G {a b : BitVec 6} (hr : Readable s [.s a.toNat, .s b.toNat]) :
    exec (.rgnKeep .G a b) s = .next (s.keepRange (s.me.reg a.toNat) (s.me.reg b.toNat)) := by
  refine congrArg Host.Outcome.next ((reading_readable s _ _ hr).trans (if_neg ?_))
  rw [depth_of_regions hs hrs]; exact Nat.succ_ne_zero _

end

section
variable {s : State} {a n : Word}

theorem keepRange_misaligned (h : ¬(a.toNat % 64 = 0 ∧ n.toNat % 64 = 0)) : s.keepRange a n = s.trapHere { cause := .ALIGN, addr := a } := by
  refine if_pos ?_
  omega

variable (h : a.toNat % 64 = 0 ∧ n.toNat % 64 = 0)
include h

theorem keepRange_outside (hi : ¬(n ≠ 0 ∧ ownBase ≤ a.toNat ∧ a.toNat - ownBase + n.toNat ≤ 0x4000000)) :
    s.keepRange a n = s.trapHere { prot 0x40 with addr := a } := by
  refine (if_neg (by omega)).trans (if_pos ?_)
  by_cases hn : n = 0
  · exact .inl hn
  · by_cases ha : a.toNat < ownBase
    · exact .inr (.inl ha)
    · exact .inr (.inr (by by_contra hl; exact hi ⟨hn, by omega, by omega⟩))

variable (hi : n ≠ 0 ∧ ownBase ≤ a.toNat ∧ a.toNat - ownBase + n.toNat ≤ 0x4000000) {sl : Slice} (hs : s.here.slice = some sl)
include hi hs

theorem keepRange_full (hp : ¬sl.poolUsed + n.toNat + 64 ≤ s.here.poolSize * 0x40000) : s.keepRange a n = s.trapCause .REGION_LIMIT := by
  obtain ⟨hn, ha, hl⟩ := hi
  refine (if_neg (by omega)).trans ((if_neg ?_).trans (if_pos ?_))
  · rintro (h | h | h)
    · exact hn h
    · omega
    · omega
  · simp only [hs]; omega

theorem keepRange_room (hp : sl.poolUsed + n.toNat + 64 ≤ s.here.poolSize * 0x40000) : s.keepRange a n =
    (s.onSlice (·.onInnermost fun r =>
      { r with ranges := r.ranges ++ [(a.toNat - ownBase, n.toNat)], reserved := r.reserved + n.toNat + 64 })).issue := by
  obtain ⟨hn, ha, hl⟩ := hi
  refine (if_neg (by omega)).trans ((if_neg ?_).trans (if_neg ?_))
  · rintro (h | h | h)
    · exact hn h
    · omega
    · omega
  · simp only [hs]; omega

end

/-- RGN.KEEP (R232, R343). -/
theorem regionsKeep : Spec.RegionsKeep := by
  intro s sl r rest a b hs hrs hr x y keeps
  have ht := exec_rgnKeep_T (b := b) hs hrs (readable_cons.1 hr).1
  have ha := exec_rgnKeep_A hs hrs hr
  have hg := exec_rgnKeep_G hs hrs hr
  refine ⟨⟨_, _, ⟨ht, rfl, here_onInnermost hs hrs _⟩, fun k hk => ?_, fun n hn hx => ?_, fun k => List.mem_append_left _, rfl, rfl⟩,
    fun hle => ⟨_, _, ha.trans (congrArg Host.Outcome.next (if_neg (show ¬512 < x.toNat + y.toNat by omega))), rfl,
      here_onInnermost hs hrs _, rfl, rfl, fun n hn hn' => ?_,
      fun k => List.mem_append_left _⟩,
    fun hlt hu => ⟨_, ha.trans (congrArg Host.Outcome.next (if_pos hlt)), trapHere_traps s _ hu⟩, ?_⟩
  · refine (List.mem_append.1 hk).imp_right fun h => ?_
    obtain ⟨n, hn, hx, rfl⟩ := mem_tilesOf.1 h
    exact ⟨hx, hn, rfl, fun c => mem_keepTile⟩
  · exact ⟨_, List.mem_append_right _ (mem_tilesOf.2 ⟨n, hn, hx, rfl⟩), rfl⟩
  · exact ⟨_, List.mem_append_right _ (List.mem_map_of_mem (mem_runFrom.2 ⟨hn, hn'⟩)), rfl, fun c => mem_keepRow⟩
  · intro off room aligned inside
    refine ⟨fun hal hin hroom => ⟨_, _, hg.trans (congrArg Host.Outcome.next (keepRange_room hal hin hs hroom)), rfl, here_onInnermost hs hrs _,
      rfl, rfl, rfl, rfl⟩, fun hu => ⟨fun hal => ?_, fun hal hin => ?_, fun hal hin hroom => ?_⟩⟩
    · exact ⟨_, hg.trans (congrArg Host.Outcome.next (keepRange_misaligned hal)), trapHere_traps s _ hu⟩
    · exact ⟨_, hg.trans (congrArg Host.Outcome.next (keepRange_outside hal hin)), trapHere_traps s _ hu⟩
    · exact ⟨_, hg.trans (congrArg Host.Outcome.next (keepRange_full hal hin hs hroom)), trapHere_traps s _ hu⟩

theorem extract_toNat (v : Word) (i n : Nat) : (v.extractLsb' i n).toNat = v.toNat / 2 ^ i % 2 ^ n := by
  rw [BitVec.extractLsb'_toNat, Nat.shiftRight_eq_div_pow]

theorem extract_eq_zero {v : Word} {i n : Nat} (h : v.toNat / 2 ^ i % 2 ^ n = 0) : v.extractLsb' i n = 0 :=
  BitVec.eq_of_toNat_eq ((extract_toNat v i n).trans (h.trans BitVec.toNat_zero.symm))

/-- The fields of RGN.STAT's word (R233). -/
theorem statusWord_fields (n k : Nat) (ab : Bool) (c : BitVec 8) (hn : n ≤ 8) (hk : k ≤ 15) :
    let v : Word := BitVec.ofNat 64 (n + 16 * k + 256 * ab.toNat + 65536 * c.toNat)
    (v.extractLsb' 0 4).toNat = n ∧ (v.extractLsb' 4 4).toNat = k ∧ v.getLsbD 8 = ab ∧ v.extractLsb' 9 7 = 0 ∧ v.extractLsb' 16 8 = c ∧
      v.extractLsb' 24 40 = 0 := by
  intro v
  have hab : ab.toNat ≤ 1 := Bool.toNat_le ab
  have hc := c.isLt
  have hv : v.toNat = n + 16 * k + 256 * ab.toNat + 65536 * c.toNat := by
    simp only [v, BitVec.toNat_ofNat]; omega
  refine ⟨?_, ?_, ?_, extract_eq_zero ?_, BitVec.eq_of_toNat_eq ?_, extract_eq_zero ?_⟩
  · rw [extract_toNat, hv]; omega
  · rw [extract_toNat, hv]; omega
  · rw [← BitVec.testBit_toNat, hv, Nat.testBit_eq_decide_div_mod_eq]
    cases ab
    · exact decide_eq_false (by rw [Bool.toNat_false]; omega)
    · exact decide_eq_true (by rw [Bool.toNat_true]; omega)
  · rw [hv]; omega
  · rw [extract_toNat, hv]; omega
  · rw [hv]; omega

/-- RGN.STAT (R231, R233). -/
theorem regionStatus : Spec.RegionStatus := by
  intro s sl d hs hlen _
  have hexec : exec (.rgnStat d) s = .next (s.result 2 [.sreg d.toNat sl.regionStatus]).issue := by
    refine (show exec (.rgnStat d) s = execRgnStat d s from rfl).trans ?_
    unfold execRgnStat
    simp only [hs]
  refine ⟨_, _, hexec, result_issue s _ _, ?_⟩
  unfold Slice.regionStatus
  cases hrs : sl.regions with
  | nil => rfl
  | cons r rest =>
    rw [hrs] at hlen
    exact statusWord_fields _ _ _ _ hlen (Nat.min_le_right _ _)

/-- Settles O29: what each kind of RGN.KEEP adds to the innermost region, its traps, and the fields of RGN.STAT's word. -/
theorem regionsKeepAndReport : Obligations.RegionsKeepAndReport := ⟨regionsKeep, regionStatus⟩

end Sys2Proof.Proofs
end

section
/-! LAUNCH and ENQ.X (R223 to R225, R297, R337). -/

namespace Sys2Proof.Proofs
open Sys2Proof.Machine Sys2Proof.Spec Sys2Proof.Laws

/-! Changes of Halls, seen through what they leave alone. -/

/-- What a change of a Hall leaves alone. -/
theorem onHall_keeps {α : Type} (P : Hall → α) (s : State) (h : HallId) (f : Hall → Hall) (hf : P (f (s.hall h)) = P (s.hall h)) (k : HallId) :
    P ((s.onHall h f).hall k) = P (s.hall k) := by
  by_cases hk : k = h
  · subst hk; rw [hall_onHall_same]; exact hf
  · rw [hall_onHall_ne s h k f hk]

theorem me_onHall {s : State} (h : HallId) (f : Hall → Hall) (hf : (f (s.hall h)).work = (s.hall h).work) : (s.onHall h f).me = s.me :=
  congrArg (fun w : Work => w.strand s.curStrand) (onHall_keeps Hall.work s h f hf s.curHall)

theorem onSlice_onSlice (s : State) (f g : Slice → Slice) : (s.onSlice f).onSlice g = s.onSlice fun sl => g (f sl) := by
  unfold State.onSlice State.onHere
  refine (onHall_onHall s s.curHall (Hall.onSlice · f) (Hall.onSlice · g)).trans ?_
  refine congrArg (s.onHall s.curHall) (funext fun H => ?_)
  unfold Hall.onSlice
  rw [Option.map_map]
  rfl

theorem onSlice_id (s : State) : s.onSlice (fun sl => sl) = s := by
  unfold State.onSlice State.onHere
  have hid : (Hall.onSlice · fun sl => sl) = fun H : Hall => H := by
    funext H
    unfold Hall.onSlice
    rw [Option.map_id']
  rw [hid]
  exact onHall_id s s.curHall

/-! The performance of a logged command. -/

/-- A performed LAUNCH or ENQ.X changes the log of its slice, and its strand waits no more (R346). -/
theorem performed_eq (s : State) (op1 op2 : Word) : ∃ f, s.performed op1 op2 = (s.onSlice f).clearWait.issue := by
  unfold State.performed State.logEntry
  split
  · exact ⟨_, rfl⟩
  · exact ⟨_, congrArg (fun u : State => u.clearWait.issue) (onSlice_onSlice s _ _)⟩

theorem performed_keeps (s : State) (op1 op2 : Word) : let t := s.performed op1 op2
    t.issued = true ∧ t.insts = s.insts ∧ (∀ k, (t.hall k).cq = (s.hall k).cq) ∧ SameRegs s.me t.me ∧ SameMemory s t := by
  intro t
  obtain ⟨f, e⟩ := performed_eq s op1 op2
  have ht : t = (s.onSlice f).clearWait.issue := e
  have hme : t.me = { s.me with wait := .none } := by
    rw [ht]
    exact (me_onMe (s.onSlice f) _).trans (by rw [show (s.onSlice f).me = s.me from me_onHall s.curHall (Hall.onSlice · f) rfl])
  refine ⟨by rw [ht]; rfl, by rw [ht]; rfl, fun k => ?_, hme ▸ sameRegs_wait s.me .none, ?_⟩
  · rw [ht]
    exact (onHall_keeps Hall.cq (s.onSlice f) s.curHall (Hall.onStrand · s.curStrand fun x => { x with wait := .none }) rfl k).trans
      (onHall_keeps Hall.cq s s.curHall (Hall.onSlice · f) rfl k)
  · rw [ht]
    exact sameMemory_trans (onHere_sameMemory s (Hall.onSlice · f) s.issued s.trapped s.target rfl)
      (onHere_sameMemory (s.onSlice f) _ true (s.onSlice f).trapped (s.onSlice f).target rfl)

/-! Launches. -/

/-- One new launch, whose slices are delivered (R301). -/
theorem launchCopies_adds {s t : State} {p : PartId} {raw : Bytes} {succ : Word} {hs : List HallId} {pred : Option Nat} {c : Clock}
    (h : s.launchCopies p raw succ hs pred c = .ok t) :
    ∃ x ∈ t.insts, x.id = s.nextInst ∧ x.live = hs.length ∧ x.succ = succ ∧ x.part = p ∧ x.pred = pred := by
  unfold State.launchCopies at h
  dsimp only at h
  split at h
  · cases h
  · cases h
    exact ⟨_, List.mem_append_right _ (List.mem_singleton_self _), rfl, rfl, rfl, rfl, rfl⟩

theorem withFrozen_ok {s r : State} {addr : Word} {ps : List Nat} {bs : Bytes} (k : Bytes → State → State) (h : s.frozenRead ps = (.ok bs, r)) :
    s.withFrozen addr ps k = k bs r := by
  unfold State.withFrozen
  rw [h]

/-- A command that the checker has matched and whose publication has been made goes on (R140, R337). -/
theorem matched_published {s : State} {k : State → State} (hstage : s.me.wait.stage = 64) (hpub : s.me.wait.pub = .done) :
    s.matched (fun s => s.publishing .device k) = k s := by
  unfold State.matched State.stage
  rw [hstage, if_neg (by decide), if_pos rfl]
  exact publishing_done .device k hpub

theorem logged_fresh {s : State} {op1 op2 : Word} {answered : Word → State → State} {k : State → State} (h : s.logAnswer op1 op2 = .fresh) :
    s.logged op1 op2 answered k = k s := by
  unfold State.logged
  rw [h]

/-- A trap that nothing has forestalled stands with its information. -/
theorem trapHere_recorded {s : State} (i : TrapInfo) (h : s.here.trap = none) :
    ∃ y, (s.trapHere i).here.trap = some y ∧ y.info = i := by
  have hrec : (s.trapHere i).here = s.here.stopFor s.curStrand i := hall_raise (h := s.curHall) s.curStrand i h
  rw [hrec]
  unfold Hall.stopFor
  dsimp only
  split
  · split <;> exact ⟨_, rfl, rfl⟩
  · exact ⟨_, rfl, rfl⟩

section
variable {r : State} {raw : Bytes} {mask : BitVec 256} {op1 op2 : Word}

/-- A launch in user mode of another context (R223). -/
theorem launching_denied (hu : r.superMode = false) (ha : (Packet.ofBytes raw).asid ≠ r.asid) :
    r.launching raw mask op1 op2 = r.clearWait.trapCause .PRIV :=
  if_pos (by simp [hu, ha])

theorem launching_delivers {r2 r3 : State} {succ : Word} (hu : r.superMode = true ∨ (Packet.ofBytes raw).asid = r.asid)
    (hc : r.launchChecks r.curHall r.partId raw mask = (.ok succ, r2))
    (hl : r2.launchCopies r2.partId raw succ (maskHalls mask) none r2.known = .ok r3) : r.launching raw mask op1 op2 = r3.performed op1 op2 := by
  refine (if_neg ?_).trans ?_
  · rcases hu with h | h <;> simp [h]
  · rw [hc]
    dsimp only
    rw [hl]

/-- What a launch leaves whose packet and mask have been read. -/
theorem launching_launches {s : State} {i : Instr} (hexec : exec i s = .next (r.launching raw mask op1 op2)) :
    (∀ r2 r3 succ, (r.superMode = true ∨ (Packet.ofBytes raw).asid = r.asid) → r.launchChecks r.curHall r.partId raw mask = (.ok succ, r2) →
      r2.launchCopies r2.partId raw succ (maskHalls mask) none r2.known = .ok r3 →
      ∃ t x, exec i s = .next t ∧ t.issued = true ∧ t.insts = r3.insts ∧ x ∈ t.insts ∧ x.id = r2.nextInst ∧
        x.live = (maskHalls mask).length ∧ x.succ = succ ∧ x.part = r2.partId ∧ x.pred = none) ∧
    (r.superMode = false → (Packet.ofBytes raw).asid ≠ r.asid → r.here.trap = none → ∃ t, exec i s = .next t ∧ t.issued = false ∧ t.trapped = true ∧
      ∃ y, t.here.trap = some y ∧ y.info = { cause := .PRIV }) := by
  refine ⟨fun r2 r3 succ hu hc hl => ?_, fun hu ha htrap => ?_⟩
  · obtain ⟨hissued, hinsts, -⟩ := performed_keeps r3 op1 op2
    obtain ⟨x, hx, hid, hlive, hsucc, hpart, hpred⟩ := launchCopies_adds hl
    exact ⟨_, x, hexec.trans (congrArg Host.Outcome.next (launching_delivers hu hc hl)), hissued, hinsts, hinsts.symm ▸ hx, hid, hlive, hsucc,
      hpart, hpred⟩
  · have hclear : r.clearWait.here.trap = none := (congrArg Hall.trap (here_onMe r _)).trans htrap
    exact ⟨_, hexec.trans (congrArg Host.Outcome.next (launching_denied hu ha)), rfl, rfl, trapHere_recorded _ hclear⟩

end

theorem names_queue {q : Word} (hq : q.toNat < 2 ^ 10) (hn : q.extractLsb' 8 2 ≠ 3) : ¬(q >>> 10 != 0 || q.extractLsb' 8 2 == 3) = true := by
  have hshift : q >>> 10 = 0 := by
    apply BitVec.eq_of_toNat_eq
    rw [BitVec.toNat_ushiftRight, Nat.shiftRight_eq_div_pow]
    exact Nat.div_eq_of_lt hq
  rw [hshift, Bool.or_eq_true, bne_iff_ne, beq_iff_eq]
  exact fun h => h.elim (· rfl) hn

section
variable {s : State} {a b : BitVec 6} (hr : Readable s [.s a.toNat, .s b.toNat])
include hr

/-- A LAUNCH whose packet and mask have been read (R223). -/
theorem exec_launch_read {ps ms : List Nat} {raw m : Bytes} {r1 r : State} (hps : Accessible s (wantSystem 64) 64 (s.me.reg a.toNat) 64 ps)
    (hms : Accessible s (wantSystem 32) 32 (s.me.reg b.toNat) 32 ms) (hlog : s.logAnswer (s.me.reg b.toNat) (s.me.reg a.toNat) = .fresh)
    (hstage : s.me.wait.stage = 64) (hpub : s.me.wait.pub = .done) (hraw : s.frozenRead ps = (.ok raw, r1)) (hm : r1.frozenRead ms = (.ok m, r)) :
    exec (.launch a b) s = .next (r.launching raw (maskOf m) (s.me.reg b.toNat) (s.me.reg a.toNat)) := by
  refine congrArg Host.Outcome.next ((reading_readable s _ _ hr).trans ?_)
  refine (withBytes_accessible s _ _ _ _ ps _ hps).trans ((withBytes_accessible s _ _ _ _ ms _ hms).trans ?_)
  exact (logged_fresh hlog).trans ((matched_published hstage hpub).trans ((withFrozen_ok _ hraw).trans (withFrozen_ok _ hm)))

/-- What an ENQ.X whose block has been read does with it, by the queue that its target names (R224). -/
def enqueues (r : State) (q blk : Word) (d : Bytes) : State :=
  if q.extractLsb' 8 2 = 0 then r.enqCopy (q.setWidth 8) d q blk
  else if q.extractLsb' 8 2 = 1 then r.enqHazel (q.setWidth 8) d q blk
  else r.launching d (BitVec.ofNat 256 (2 ^ (q.setWidth 8).toNat)) q blk

/-- A target that names no queue (R224). -/
theorem exec_enqX_illegal (h : 2 ^ 10 ≤ (s.me.reg a.toNat).toNat ∨ (s.me.reg a.toNat).extractLsb' 8 2 = 3) :
    exec (.enqX a b) s = .next (s.trapCause .ILLEGAL) := by
  refine congrArg Host.Outcome.next ((reading_readable s _ _ hr).trans (if_pos ?_))
  change (s.me.reg a.toNat >>> 10 != 0 || (s.me.reg a.toNat).extractLsb' 8 2 == 3) = true
  rw [Bool.or_eq_true, bne_iff_ne, beq_iff_eq]
  refine h.imp_left fun hbig h0 => ?_
  have hzero : (s.me.reg a.toNat).toNat / 2 ^ 10 = 0 := by
    rw [← Nat.shiftRight_eq_div_pow, ← BitVec.toNat_ushiftRight, h0]
    rfl
  omega

section
variable (hq : (s.me.reg a.toNat).toNat < 2 ^ 10) (hn : (s.me.reg a.toNat).extractLsb' 8 2 ≠ 3)
include hq hn

/-- A Hall outside the issuer's partition (R224). -/
theorem exec_enqX_outside (hh : (s.part s.partId).halls.getLsbD ((s.me.reg a.toNat).setWidth 8).toNat = false) :
    exec (.enqX a b) s = .next (s.trapHere (prot 0x20)) := by
  refine congrArg Host.Outcome.next ((reading_readable s _ _ hr).trans ((if_neg (names_queue hq hn)).trans (if_pos ?_)))
  exact (congrArg not hh).trans rfl

theorem exec_enqX_read {ps : List Nat} {d : Bytes} {r : State} (hh : (s.part s.partId).halls.getLsbD ((s.me.reg a.toNat).setWidth 8).toNat = true)
    (hps : Accessible s (wantSystem 64) 64 (s.me.reg b.toNat) 64 ps) (hlog : s.logAnswer (s.me.reg a.toNat) (s.me.reg b.toNat) = .fresh)
    (hstage : s.me.wait.stage = 64) (hpub : s.me.wait.pub = .done) (hread : s.frozenRead ps = (.ok d, r)) :
    exec (.enqX a b) s = .next (enqueues r (s.me.reg a.toNat) (s.me.reg b.toNat) d) := by
  refine congrArg Host.Outcome.next ((reading_readable s _ _ hr).trans ((if_neg (names_queue hq hn)).trans ((if_neg ?_).trans ?_)))
  · exact ne_true_of_eq_false ((congrArg not hh).trans rfl)
  · refine (withBytes_accessible s _ _ _ _ ps _ hps).trans ((logged_fresh hlog).trans ((matched_published hstage hpub).trans ?_))
    exact withFrozen_ok _ hread

end

end

/-- The target that names the ready deque of a Hall (R224). -/
theorem deque_target (h : HallId) : let q : Word := 0x200 + h.setWidth 64
    q.toNat < 2 ^ 10 ∧ q.extractLsb' 8 2 = 2 ∧ q.setWidth 8 = h := by
  intro q
  have hh := h.isLt
  have hq : q.toNat = 512 + h.toNat := by
    simp only [q, BitVec.toNat_add, BitVec.toNat_setWidth]
    change (512 + h.toNat % 2 ^ 64) % 2 ^ 64 = _
    omega
  refine ⟨by omega, BitVec.eq_of_toNat_eq ?_, BitVec.eq_of_toNat_eq ?_⟩
  · rw [extract_toNat, hq]
    change _ = 2
    omega
  · rw [BitVec.toNat_setWidth, hq]
    omega

theorem launchesMakeInstances : LaunchesMakeInstances := by
  intro s a b raw mask r i hr hstage hpub hkind
  rcases hkind with ⟨rfl, ps, ms, m, r1, hps, hms, hlog, hraw, hm, rfl⟩ | ⟨rfl, ps, h, hq, hh, hps, hlog, hread, rfl⟩
  · exact launching_launches (exec_launch_read hr hps hms hlog hstage hpub hraw hm)
  · obtain ⟨hlt, hext, hset⟩ := deque_target h
    rw [← hq] at hlt hext hset
    have hexec := exec_enqX_read hr hlt (by rw [hext]; decide) (hset.symm ▸ hh) hps hlog hstage hpub hread
    have hdeque : enqueues r (s.me.reg a.toNat) (s.me.reg b.toNat) raw =
        r.launching raw (BitVec.ofNat 256 (2 ^ h.toNat)) (s.me.reg a.toNat) (s.me.reg b.toNat) := by
      unfold enqueues
      rw [hext, hset, if_neg (by decide), if_neg (by decide)]
    exact launching_launches (hdeque ▸ hexec)

/-! A fill of a pattern enters a copy queue. -/

/-- The operands of a fill's block (R225). -/
def fillArgs (d : Bytes) (c : QCtl) : CopyArgs :=
  { kind := .FILL, resume := false, src := wordAt d 16, dst := wordAt d 24, x := wordAt d 32, cw := blockWord d, q := c, follow := none }

/-- The command that an ENQ.X makes. -/
def sentCopy (s : State) (h : HallId) (c : CopyArgs) : CopyCmd :=
  { id := (s.hall h).cqNext, kind := c.kind, resume := c.resume, src := c.src, dst := c.dst, x := c.x, cw := c.cw, q := c.q, follow := c.follow,
    word := s.curWord, slice := match s.here.slice with | some sl => sl.id | none => 0, asid := s.asid, part := s.partId, super := s.superMode,
    issuer := none, issuePc := s.me.pc, depth := s.depth, matchAt := none, bad := 0, clock := s.known,
    floor := s.engineFloor h .copy c.q.scope, sent := true }

theorem enterCopy_sent (s : State) (h : HallId) (c : CopyArgs) : s.enterCopy h c none none 0 = s.onHall h (copyEntered (sentCopy s h c)) := rfl

theorem enqCopy_fill {r : State} {h : HallId} {d : Bytes} {c : QCtl} (op1 op2 : Word) (hsyl : blockSyl d = some (.cpFill 0 0 0 0 c)) (hcw : wordAt d 8 = 0)
    (hdst : (wordAt d 24).toNat % 64 = 0) (hlen : (wordAt d 32).toNat % 64 = 0) (h40 : fieldAt d 40 16 = 0) (h56 : fieldAt d 56 8 = 0)
    (hs : (r.hall h).sampledCq < 32) (hl : (r.hall h).copyLoad < 32) :
    r.enqCopy h d op1 op2 = (r.onHall h (copyEntered (sentCopy r h (fillArgs d c)))).performed op1 op2 := by
  have hblock : (blockSyl d).bind copyBlock = some (.FILL, false, c) := by rw [hsyl]; rfl
  have hword : blockWord d = none := if_pos hcw
  unfold State.enqCopy
  simp only [hblock]
  rw [if_neg (by simp [h40, h56])]
  refine (copyChecked_passes (c := fillArgs d c) ?_ (fun _ _ h => nomatch h) (fun v hv => nomatch hword.symm.trans hv) _).trans ?_
  · exact ⟨hdst, by change (wordAt d 32).toNat % 2 ^ 48 % 64 = 0; omega⟩
  · rw [if_neg (ne_true_of_eq_false (copyFull_eq_false hs hl))]
    exact congrArg (fun u : State => u.performed op1 op2) (enterCopy_sent r h (fillArgs d c))

theorem enqueuesElsewhere : EnqueuesElsewhere := by
  intro s a b hr q blk
  refine ⟨fun hbad hu => ⟨_, exec_enqX_illegal hr hbad, trapHere_traps s _ hu⟩, fun ps h hq hn hh hps => ⟨fun hout hu => ?_, ?_⟩⟩
  · exact ⟨_, exec_enqX_outside hr hq hn (hh ▸ hout), trapHere_traps s _ hu⟩
  · intro d r c hin hq0 hlog hstage hpub hread hsyl hcw hdst hlen h40 h56 hs hl
    have hexec := exec_enqX_read hr hq hn (hh ▸ hin) hps hlog hstage hpub hread
    have hfill : enqueues r q blk d = (r.onHall h (copyEntered (sentCopy r h (fillArgs d c)))).performed q blk := by
      refine (if_pos hq0).trans ?_
      rw [← hh]
      exact enqCopy_fill q blk hsyl hcw hdst hlen h40 h56 hs hl
    let u := r.onHall h (copyEntered (sentCopy r h (fillArgs d c)))
    obtain ⟨hissued, -, hcq, hregs, hmemory⟩ := performed_keeps u q blk
    have hme : u.me = r.me := me_onHall h (copyEntered (sentCopy r h (fillArgs d c))) rfl
    refine ⟨_, sentCopy r h (fillArgs d c), hexec.trans (congrArg Host.Outcome.next hfill), hissued, ?_, rfl, rfl, rfl, rfl, if_pos hcw, rfl, rfl, rfl,
      rfl, rfl, hme ▸ hregs, sameMemory_trans (onHall_sameMemory r h _ r.issued r.trapped r.target rfl) hmemory⟩
    rw [hcq h, hall_onHall_same]
    rfl

/-- Settles O23: the checks that a LAUNCH or an ENQ.X passes lead to one delivery, or to one entry. -/
theorem launchesAndEnqueues : Obligations.LaunchesAndEnqueues := ⟨launchesMakeInstances, enqueuesElsewhere⟩

end Sys2Proof.Proofs
end

section
/-! Lifetimes of row groups: LIFE.SET, LIFE.REF, LIFE.AGE (R234, R235, R244, R246, R256, R343). -/

namespace Sys2Proof.Proofs
open Sys2Proof.Machine Sys2Proof.Spec Sys2Proof.Laws

/-! The table of row groups. -/

/-- A row group takes its value in the table, and no other row group's changes. A value that is not that of a wipe keeps its entry. -/
theorem find_rgPut {g : Nat} {v : RowGroup} (hv : v ≠ .wiped) (l : List (Nat × RowGroup)) (k : Nat) :
    (rgPut g v l).find? (fun e => e.1 == k) = if k = g then some (g, v) else l.find? fun e => e.1 == k := by
  induction l with
  | nil =>
    rw [rgPut, if_neg hv, List.find?_singleton]
    by_cases hk : k = g
    · rw [if_pos hk, if_pos (beq_iff_eq.2 hk.symm)]
    · rw [if_neg hk, if_neg fun e => hk (beq_iff_eq.1 e).symm, List.find?_nil]
  | cons e l ih =>
    obtain ⟨j, x⟩ := e
    unfold rgPut
    by_cases h1 : j < g
    · rw [if_pos h1, List.find?_cons, List.find?_cons, ih]
      by_cases hj : j = k
      · simp [hj, show k ≠ g by omega]
      · simp [beq_false_of_ne hj]
    · rw [if_neg h1, if_neg hv, if_neg hv]
      by_cases hk : k = g
      · by_cases hj : j = g <;> simp [hj, hk]
      · by_cases hj : j = g
        · simp [hj, hk, Ne.symm hk]
        · simp [hj, hk, Ne.symm hk]

/-- A row group of the undo pool or the effect log stays the device's own (R343). -/
def pooled (pool : Bool) (v : RowGroup) : RowGroup := if pool then { v with cls := .P, pol := .EXPIRE, valid := true } else v

section
variable {s : State} {g : Nat} {v : RowGroup} (hv : v ≠ .wiped)
include hv

theorem rowGroup_setRowGroup_same : (s.setRowGroup g v).rowGroup g = pooled (s.inPool (galleryTop + 4096 * g)) v := by
  unfold State.rowGroup State.setRowGroup
  simp only [find_rgPut hv, if_true]
  rfl

theorem rowGroup_setRowGroup_ne {k : Nat} (hk : k ≠ g) : (s.setRowGroup g v).rowGroup k = s.rowGroup k := by
  unfold State.rowGroup State.setRowGroup
  simp only [find_rgPut hv, if_neg hk]
  rfl

end

theorem pooled_rowGroup {s : State} {g : Nat} (h : s.inPool (galleryTop + 4096 * g) = true) : pooled true (s.rowGroup g) = s.rowGroup g := by
  unfold State.rowGroup
  simp only [h, if_true]
  split <;> rfl

theorem valid_of_inPool {s : State} {g : Nat} (h : s.inPool (galleryTop + 4096 * g) = true) : (s.rowGroup g).valid = true :=
  (congrArg RowGroup.valid (pooled_rowGroup h)).symm

theorem ne_wiped_of_owner {v : RowGroup} (h : v.owner ≠ 0) : v ≠ .wiped := fun e => h (congrArg RowGroup.owner e)
theorem ne_wiped_of_valid {v : RowGroup} (h : v.valid = true) : v ≠ .wiped := fun e => Bool.false_ne_true ((congrArg RowGroup.valid e).symm.trans h)

/-! What the work on row groups leaves alone. -/

/-- Nothing but row groups and notices has changed: memory, every Hall but for its notes, and the context that runs are as before. -/
structure Lives (s t : State) : Prop where
  curHall : t.curHall = s.curHall
  curStrand : t.curStrand = s.curStrand
  mem : t.mem = s.mem
  noted : Noted s t
  asid : t.asid = s.asid

theorem lives_refl (s : State) : Lives s s := ⟨rfl, rfl, rfl, noted_refl s, rfl⟩

theorem lives_trans {s t u : State} (a : Lives s t) (b : Lives t u) : Lives s u where
  curHall := b.curHall.trans a.curHall
  curStrand := b.curStrand.trans a.curStrand
  mem := b.mem.trans a.mem
  noted := noted_trans a.noted b.noted
  asid := b.asid.trans a.asid

theorem lives_of_halls {s t : State} (hc : t.curHall = s.curHall) (hst : t.curStrand = s.curStrand) (hm : t.mem = s.mem) (hh : t.halls = s.halls) :
    Lives s t :=
  ⟨hc, hst, hm, noted_of_halls hh, by unfold State.asid State.here State.hall; rw [hc, hh]⟩

theorem asid_onHallSlice (s : State) (h : HallId) {f : Slice → Slice} (hf : ∀ sl, (f sl).asid = sl.asid) :
    (s.onHall h (Hall.onSlice · f)).asid = s.asid := by
  by_cases hh : s.curHall = h
  · subst hh; exact asid_onSlice s hf
  · unfold State.asid
    rw [show (s.onHall h (Hall.onSlice · f)).here = s.here from hall_onHall_ne s h _ _ hh]

/-- A change of a slice that keeps its context. -/
theorem lives_onSlice (s : State) (h : HallId) {f : Slice → Slice} (hf : ∀ sl, (f sl).asid = sl.asid) :
    Lives s (s.onHall h (Hall.onSlice · f)) :=
  ⟨rfl, rfl, rfl, noted_onHall s h _ rfl, asid_onHallSlice s h hf⟩

theorem lives_setRowGroup (s : State) (g : Nat) (v : RowGroup) : Lives s (s.setRowGroup g v) := lives_of_halls rfl rfl rfl rfl

theorem halls_onCtx (s : State) (a : Asid) (f : Ctx → Ctx) : (s.onCtx a f).halls = s.halls ∧ (s.onCtx a f).curHall = s.curHall ∧
    (s.onCtx a f).curStrand = s.curStrand ∧ (s.onCtx a f).mem = s.mem ∧ (s.onCtx a f).rowGroups = s.rowGroups := by
  unfold State.onCtx
  split <;> exact ⟨rfl, rfl, rfl, rfl, rfl⟩

/-- A slice, and a context without one, to which a notice has come (R255). -/
def noticed (sl : Slice) : Slice :=
  { sl with notePend := true, noteCount := if sl.noteCount = BitVec.allOnes 8 then sl.noteCount else sl.noteCount + 1 }

def ctxNoticed (c : Ctx) : Ctx := { c with notices := if c.notices = BitVec.allOnes 8 then c.notices else c.notices + 1 }

/-- A notice is noted by the owner's slice, or by its context (R255). -/
theorem notify_cases (s : State) (g owner : Nat) :
    s.notify g owner = s ∨ (∃ h, s.notify g owner = s.onHall h (Hall.onSlice · noticed)) ∨ ∃ a, s.notify g owner = s.onCtx a ctxNoticed := by
  unfold State.notify
  by_cases ho : owner = 0
  · rw [if_pos ho]; exact .inl rfl
  · rw [if_neg ho]
    dsimp only
    cases (s.hall (hallOfGroup g)).slice with
    | none => exact .inr (.inr ⟨_, rfl⟩)
    | some sl =>
      dsimp only
      by_cases hm : (sl.asid == BitVec.ofNat 12 (owner - 1)) = true
      · rw [if_pos hm]; exact .inr (.inl ⟨_, rfl⟩)
      · rw [if_neg hm]; exact .inr (.inr ⟨_, rfl⟩)

theorem lives_notify (s : State) (g owner : Nat) : Lives s (s.notify g owner) ∧ (s.notify g owner).rowGroups = s.rowGroups := by
  rcases notify_cases s g owner with e | ⟨h, e⟩ | ⟨a, e⟩
  · rw [e]; exact ⟨lives_refl s, rfl⟩
  · rw [e]; exact ⟨lives_onSlice s h fun _ => rfl, rfl⟩
  · obtain ⟨hh, hc, hst, hm, hg⟩ := halls_onCtx s a ctxNoticed
    rw [e]; exact ⟨lives_of_halls hc hst hm hh, hg⟩

theorem rowGroup_of_lives {s t : State} (h : Lives s t) (hg : t.rowGroups = s.rowGroups) (k : Nat) : t.rowGroup k = s.rowGroup k :=
  rowGroup_of_pools k hg fun j => by rw [h.noted j]; exact ⟨rfl, rfl, rfl⟩

theorem inPool_of_lives {s t : State} (h : Lives s t) (p : Nat) : t.inPool p = s.inPool p := by
  have hpool (j : HallId) : (t.hall j).poolSize = (s.hall j).poolSize := by rw [h.noted j]
  unfold State.inPool
  simp only [hpool]

theorem me_of_lives {s t : State} (h : Lives s t) : t.me = s.me := by
  have hwork : (t.hall s.curHall).work = (s.hall s.curHall).work := by rw [h.noted s.curHall]
  unfold State.me State.here
  rw [h.curHall, h.curStrand, hwork]

/-! One row group. -/

/-- A step on a row group changes no other. -/
structure OnGroup (s : State) (g : Nat) (t : State) : Prop where
  lives : Lives s t
  others : ∀ k, k ≠ g → t.rowGroup k = s.rowGroup k

theorem onGroup_refl (s : State) (g : Nat) : OnGroup s g s := ⟨lives_refl s, fun _ _ => rfl⟩

theorem onGroup_trans {s t u : State} {g : Nat} (a : OnGroup s g t) (b : OnGroup t g u) : OnGroup s g u :=
  ⟨lives_trans a.lives b.lives, fun k hk => (b.others k hk).trans (a.others k hk)⟩

theorem onGroup_of_lives {s t : State} (g : Nat) (h : Lives s t) (hg : t.rowGroups = s.rowGroups) : OnGroup s g t :=
  ⟨h, fun k _ => rowGroup_of_lives h hg k⟩

theorem onGroup_setRowGroup (s : State) (g : Nat) {v : RowGroup} (hv : v ≠ .wiped) : OnGroup s g (s.setRowGroup g v) :=
  ⟨lives_setRowGroup s g v, fun _ hk => rowGroup_setRowGroup_ne hv hk⟩

/-- An expiry (R246, R255). -/
theorem expire_expires {s : State} {g : Nat} (hv : (s.rowGroup g).owner ≠ 0) : OnGroup s g (s.expire g) ∧
    (s.expire g).rowGroup g = pooled (s.inPool (galleryTop + 4096 * g)) { s.rowGroup g with valid := false, req := false } := by
  have hne : { s.rowGroup g with valid := false, req := false } ≠ RowGroup.wiped := ne_wiped_of_owner hv
  unfold State.expire
  obtain ⟨hl, hg⟩ := lives_notify (s.setRowGroup g { s.rowGroup g with valid := false, req := false }) g (s.rowGroup g).owner
  refine ⟨onGroup_trans (onGroup_setRowGroup s g hne) (onGroup_of_lives g hl hg), ?_⟩
  exact (rowGroup_of_lives hl hg g).trans (rowGroup_setRowGroup_same hne)

/-- A retention loss is an expiry that the host is told of (R261). -/
theorem retentionLoss_expires {s : State} {g : Nat} (hv : (s.rowGroup g).owner ≠ 0) : OnGroup s g (s.retentionLoss g) ∧
    (s.retentionLoss g).rowGroup g = pooled (s.inPool (galleryTop + 4096 * g)) { s.rowGroup g with valid := false, req := false } := by
  obtain ⟨hon, hgroup⟩ := expire_expires hv
  unfold State.retentionLoss
  dsimp only
  split
  · have hl : ∀ p h a c n, Lives (s.expire g) ((s.expire g).interrupt p h a c n) := fun _ _ _ _ _ => lives_of_halls rfl rfl rfl rfl
    exact ⟨onGroup_trans hon (onGroup_of_lives g (hl _ _ _ _ _) rfl), (rowGroup_of_lives (hl _ _ _ _ _) rfl g).trans hgroup⟩
  · exact ⟨hon, hgroup⟩

/-- What the rules at an age make of a row group (R246, R256, R261): one whose budget has passed is invalid, a young one keeps its validity. -/
structure Ages (pool : Bool) (v w : RowGroup) : Prop where
  owner : w.owner = v.owner
  age : w.age = v.age
  kept : pool = false → w.cls = v.cls ∧ w.pol = v.pol ∧ (v.over = true → w.valid = false)
  young : v.age < 64 → w.valid = v.valid

theorem budget_ge {c : LifeClass} {n : Nat} (h : classBudget c = some n) : 64 ≤ n := by
  cases c <;> simp only [classBudget, Option.some.injEq, reduceCtorEq] at h <;> omega

theorem over_of_young {v : RowGroup} (h : v.age < 64) : v.over = false := by
  unfold RowGroup.over
  cases hb : classBudget v.cls with
  | none => exact Bool.and_false _
  | some n =>
    have := budget_ge hb
    have hyoung : decide (n ≤ v.age) = false := decide_eq_false (by omega)
    exact (congrArg _ hyoung).trans (Bool.and_false _)

/-- An old row group that expires. -/
theorem ages_expired {v : RowGroup} (pool : Bool) (h : ¬v.age < 64) : Ages pool v (pooled pool { v with valid := false, req := false }) := by
  cases pool
  · exact ⟨rfl, rfl, fun _ => ⟨rfl, rfl, fun _ => rfl⟩, fun hy => absurd hy h⟩
  · exact ⟨rfl, rfl, fun hp => (nomatch hp), fun hy => absurd hy h⟩

/-- A row group that requests a refresh. -/
theorem ages_requested {v : RowGroup} (pool : Bool) (hvalid : v.valid = true) (hover : ¬v.over = true) :
    Ages pool v (pooled pool { v with req := true }) := by
  cases pool
  · exact ⟨rfl, rfl, fun _ => ⟨rfl, rfl, fun h => absurd h hover⟩, fun _ => rfl⟩
  · exact ⟨rfl, rfl, fun hp => (nomatch hp), fun _ => hvalid.symm⟩

theorem ageRules_ages {s : State} {g : Nat} (hv : (s.rowGroup g).owner ≠ 0) : OnGroup s g (s.ageRules g true) ∧
    Ages (s.inPool (galleryTop + 4096 * g)) (s.rowGroup g) ((s.ageRules g true).rowGroup g) := by
  unfold State.ageRules
  dsimp only
  split
  next hinv =>
    have hinvalid : (s.rowGroup g).valid = false := by simpa using hinv
    exact ⟨onGroup_refl s g, ⟨rfl, rfl, fun _ => ⟨rfl, rfl, fun _ => hinvalid⟩, fun _ => rfl⟩⟩
  next hvalid =>
    have hvalid : (s.rowGroup g).valid = true := by simpa using hvalid
    split
    next hloss =>
      obtain ⟨hon, he⟩ := retentionLoss_expires hv
      exact ⟨hon, he ▸ ages_expired _ (by omega)⟩
    next =>
    split
    next hover =>
      obtain ⟨hon, he⟩ := expire_expires hv
      exact ⟨hon, he ▸ ages_expired _ fun hy => Bool.false_ne_true ((over_of_young hy).symm.trans hover)⟩
    next hover =>
      have hself : Ages (s.inPool (galleryTop + 4096 * g)) (s.rowGroup g) (s.rowGroup g) :=
        ⟨rfl, rfl, fun _ => ⟨rfl, rfl, fun h => absurd h hover⟩, fun _ => rfl⟩
      cases requestPoint (s.rowGroup g).cls (s.rowGroup g).pol with
      | none => exact ⟨onGroup_refl s g, hself⟩
      | some p =>
        simp only [if_true]
        split
        · have hne : { s.rowGroup g with req := true } ≠ RowGroup.wiped := ne_wiped_of_valid hvalid
          rw [rowGroup_setRowGroup_same hne]
          exact ⟨onGroup_setRowGroup s g hne, ages_requested _ hvalid hover⟩
        · exact ⟨onGroup_refl s g, hself⟩

/-! LIFE.SET and LIFE.REF. -/

/-- What LIFE.SET writes of a row group (R234, R244). -/
def claimed (cls : LifeClass) (pol : LifePolicy) (a : Asid) (v : RowGroup) : RowGroup :=
  { v with cls := cls, pol := pol, owner := a.toNat + 1, req := if pol = .EXPIRE then false else v.req }

/-- What LIFE.SET makes of a row group. -/
structure IsSet (cls : LifeClass) (pol : LifePolicy) (a : Asid) (pool : Bool) (v w : RowGroup) : Prop where
  owner : w.owner = a.toNat + 1
  age : w.age = v.age
  kept : pool = false → w.cls = cls ∧ w.pol = pol ∧
    (pol = .EXPIRE → v.held = false → (∃ n, classBudget cls = some n ∧ n ≤ v.age) → w.valid = false)
  young : v.age < 64 → w.valid = v.valid

theorem over_of_budget {v : RowGroup} {n : Nat} (hp : v.pol = .EXPIRE) (hb : classBudget v.cls = some n) (hn : n ≤ v.age) : v.over = true := by
  unfold RowGroup.over
  rw [hp, hb]
  exact decide_eq_true hn

theorem lifeSet_sets (s : State) (cls : LifeClass) (pol : LifePolicy) (g : Nat) : OnGroup s g (s.lifeSet cls pol g) ∧
    IsSet cls pol s.asid (s.inPool (galleryTop + 4096 * g)) (s.rowGroup g) ((s.lifeSet cls pol g).rowGroup g) := by
  let v := claimed cls pol s.asid (s.rowGroup g)
  let u := s.setRowGroup g v
  have hne : v ≠ .wiped := ne_wiped_of_owner (Nat.succ_ne_zero _)
  have hu : OnGroup s g u := onGroup_setRowGroup s g hne
  have hgroup : u.rowGroup g = pooled (s.inPool (galleryTop + 4096 * g)) v := rowGroup_setRowGroup_same hne
  have hvalid : (u.rowGroup g).valid = (s.rowGroup g).valid := by
    rw [hgroup]
    cases hp : s.inPool (galleryTop + 4096 * g)
    · rfl
    · exact (valid_of_inPool hp).symm
  have hown : (u.rowGroup g).owner = s.asid.toNat + 1 ∧ (u.rowGroup g).age = (s.rowGroup g).age := by
    rw [hgroup]; cases s.inPool (galleryTop + 4096 * g) <;> exact ⟨rfl, rfl⟩
  have hset : s.lifeSet cls pol g = if (s.rowGroup g).held then u else u.ageRules g true := rfl
  by_cases hheld : (s.rowGroup g).held = true
  · rw [hset, if_pos hheld]
    refine ⟨hu, hown.1, hown.2, fun hp => ?_, fun _ => hvalid⟩
    rw [hgroup, hp]
    exact ⟨rfl, rfl, fun _ h => absurd (h.symm.trans hheld) Bool.false_ne_true⟩
  · rw [hset, if_neg hheld]
    obtain ⟨hon, hages⟩ := ageRules_ages (s := u) (g := g) (hown.1 ▸ Nat.succ_ne_zero _)
    refine ⟨onGroup_trans hu hon, hages.owner.trans hown.1, hages.age.trans hown.2, fun hp => ?_, fun hy => ?_⟩
    · obtain ⟨hcls, hpol, hover⟩ := hages.kept (hp ▸ rfl)
      rw [hgroup, hp] at hcls hpol hover
      exact ⟨hcls, hpol, fun he _ ⟨n, hb, hn⟩ => hover (over_of_budget he hb hn)⟩
    · exact (hages.young (hown.2.symm ▸ hy)).trans hvalid

/-- What LIFE.REF makes of a row group. -/
def refreshed (v : RowGroup) : RowGroup := if v.valid then { v with age := 0, req := false } else v

theorem lifeRef_refreshes (s : State) (g : Nat) : OnGroup s g (s.lifeRef g) ∧ (s.lifeRef g).rowGroup g = refreshed (s.rowGroup g) := by
  unfold State.lifeRef refreshed
  by_cases hv : (s.rowGroup g).valid = true
  · have hne : { s.rowGroup g with age := 0, req := false } ≠ RowGroup.wiped := ne_wiped_of_valid hv
    rw [if_pos hv, if_pos hv]
    refine ⟨onGroup_setRowGroup s g hne, (rowGroup_setRowGroup_same hne).trans ?_⟩
    cases hp : s.inPool (galleryTop + 4096 * g)
    · rfl
    · exact congrArg (fun v : RowGroup => { v with age := 0, req := false }) (pooled_rowGroup hp)
  · rw [if_neg hv, if_neg hv]
    exact ⟨onGroup_refl s g, rfl⟩

/-- A step on each row group of a list in turn: what it makes of each one, the others as they were. -/
theorem foldl_groups {s0 : State} {f : State → Nat → State} {R : Nat → RowGroup → RowGroup → Prop}
    (hf : ∀ s g, Lives s0 s → OnGroup s g (f s g) ∧ R g (s.rowGroup g) ((f s g).rowGroup g)) {gs : List Nat} (hgs : gs.Nodup) {s : State}
    (hs : Lives s0 s) :
    Lives s0 (gs.foldl f s) ∧ (∀ g ∈ gs, R g (s.rowGroup g) ((gs.foldl f s).rowGroup g)) ∧
      ∀ g, g ∉ gs → (gs.foldl f s).rowGroup g = s.rowGroup g := by
  induction gs generalizing s with
  | nil => exact ⟨hs, fun _ h => absurd h List.not_mem_nil, fun _ _ => rfl⟩
  | cons g gs ih =>
    obtain ⟨hnot, hnodup⟩ := List.nodup_cons.1 hgs
    obtain ⟨hon, hone⟩ := hf s g hs
    obtain ⟨hl, hin, hout⟩ := ih hnodup (lives_trans hs hon.lives)
    refine ⟨hl, fun k hk => ?_, fun k hk => ?_⟩
    · rcases List.mem_cons.1 hk with rfl | hk
      · exact (hout k hnot).symm ▸ hone
      · exact hon.others k (fun e => hnot (e ▸ hk)) ▸ hin k hk
    · obtain ⟨hne, hk⟩ := not_or.1 (mt List.mem_cons.2 hk)
      exact (hout k hk).trans (hon.others k hne)

section
variable {s : State} {a b : BitVec 6} (f : State → Nat → State) (hr : Readable s [.s a.toNat, .s b.toNat])
include hr

theorem lifeWork_misaligned (h : (s.me.reg a.toNat).toNat % 4096 ≠ 0 ∨ (s.me.reg b.toNat).toNat % 4096 ≠ 0) :
    s.lifeWork a b f = s.trapHere ((wantStore .D).tell (s.me.reg a.toNat).toNat { cause := .ALIGN }) :=
  (reading_readable s _ _ hr).trans (if_pos h)

theorem lifeWork_empty (h : (s.me.reg a.toNat).toNat % 4096 = 0) (hl : s.me.reg b.toNat = 0) : s.lifeWork a b f = s.issue := by
  refine (reading_readable s _ _ hr).trans ((if_neg ?_).trans (if_pos hl))
  rintro (h' | h')
  · exact h' h
  · exact h' ((congrArg (fun v : Word => v.toNat % 4096) hl).trans rfl)

/-- A range of at most 16 row groups is worked through at once. -/
theorem lifeWork_works (ha : (s.me.reg a.toNat).toNat % 4096 = 0) (hb : (s.me.reg b.toNat).toNat % 4096 = 0) (hl : s.me.reg b.toNat ≠ 0)
    {gs : List Nat} (hgs : s.lifeRange (s.me.reg a.toNat) (s.me.reg b.toNat) = .ok gs) (hlen : gs.length ≤ 16) (hstage : s.me.wait.stage = 0) :
    s.lifeWork a b f = (gs.foldl f s).clearWait.issue := by
  refine (reading_readable s _ _ hr).trans ((if_neg ?_).trans ((if_neg hl).trans ?_))
  · rintro (h | h)
    · exact h ha
    · exact h hb
  · unfold State.rs State.stage
    simp only [hgs, hstage]
    rw [if_neg (by omega), Nat.mul_zero, List.drop_zero, List.take_of_length_le hlen]

end

/-- What remains when the work on a range's row groups is done. -/
theorem clearWait_keeps {s t : State} (h : Lives s t) : (∀ g, t.clearWait.issue.rowGroup g = t.rowGroup g) ∧ SameRegs s.me t.clearWait.issue.me ∧
    ∀ p, Memory.byte t.clearWait.issue.mem p = Memory.byte s.mem p := by
  refine ⟨rowGroup_onStrand t t.curHall t.curStrand _, ?_, fun p => congrArg (Memory.byte · p) h.mem⟩
  have hme : t.clearWait.issue.me = { s.me with wait := .none } := (me_onMe t _).trans (by rw [me_of_lives h])
  exact hme ▸ sameRegs_wait s.me .none

theorem lifetimesAreSet : LifetimesAreSet := by
  intro s a b hr base len
  refine ⟨fun gs hstage ha hb hl hgs hlen hnodup => ⟨fun cls pol => ?_, ?_⟩, fun i hi => ⟨fun ha hl => ?_, fun hal hu => ?_⟩⟩
  · have hexec : exec (.lifeSet a b cls pol) s = .next (gs.foldl (fun s g => s.lifeSet cls pol g) s).clearWait.issue :=
      congrArg Host.Outcome.next (lifeWork_works _ hr ha hb hl hgs hlen hstage)
    obtain ⟨hlives, hin, hout⟩ := foldl_groups (s0 := s) (f := fun s g => s.lifeSet cls pol g)
      (R := fun g v w => IsSet cls pol s.asid (s.inPool (galleryTop + 4096 * g)) v w)
      (fun u g hu => by
        have := lifeSet_sets u cls pol g
        rwa [hu.asid, inPool_of_lives hu] at this) hnodup (lives_refl s)
    obtain ⟨hgroup, hregs, hbytes⟩ := clearWait_keeps hlives
    refine ⟨_, hexec, rfl, fun g hg => ?_, fun g hg => (hgroup g).trans (hout g hg), hregs, hbytes⟩
    obtain ⟨howner, hage, hkept, hyoung⟩ := hin g hg
    rw [hgroup]
    exact ⟨howner, hage, hkept, hyoung⟩
  · have hexec : exec (.lifeRef a b) s = .next (gs.foldl State.lifeRef s).clearWait.issue :=
      congrArg Host.Outcome.next (lifeWork_works _ hr ha hb hl hgs hlen hstage)
    obtain ⟨hlives, hin, hout⟩ := foldl_groups (s0 := s) (f := State.lifeRef) (R := fun _ v w => w = refreshed v)
      (fun u g _ => lifeRef_refreshes u g) hnodup (lives_refl s)
    obtain ⟨hgroup, hregs, hbytes⟩ := clearWait_keeps hlives
    refine ⟨_, hexec, rfl, fun g hg hv => ?_, fun g hg => ?_, hregs, hbytes⟩
    · exact (hgroup g).trans ((hin g hg).trans (if_pos hv))
    · rw [hgroup]
      by_cases hmem : g ∈ gs
      · have hinv : (s.rowGroup g).valid = false := hg.resolve_left (not_not.2 hmem)
        exact (hin g hmem).trans (if_neg (by rw [hinv]; exact Bool.false_ne_true))
      · exact hout g hmem
  · have hexec : exec i s = .next s.issue := by
      rcases hi with rfl | ⟨cls, pol, rfl⟩
      · exact congrArg Host.Outcome.next (lifeWork_empty State.lifeRef hr ha hl)
      · exact congrArg Host.Outcome.next (lifeWork_empty _ hr ha hl)
    exact ⟨_, hexec, rfl⟩
  · have hexec : exec i s = .next (s.trapHere ((wantStore .D).tell base.toNat { cause := .ALIGN })) := by
      rcases hi with rfl | ⟨cls, pol, rfl⟩
      · exact congrArg Host.Outcome.next (lifeWork_misaligned State.lifeRef hr hal)
      · exact congrArg Host.Outcome.next (lifeWork_misaligned _ hr hal)
    exact ⟨_, _, hexec, trapHere_traps s _ hu, rfl⟩

/-! LIFE.AGE. -/

theorem bit_of_toNat {v : Word} {i : Nat} {b : Bool} (h : v.toNat / 2 ^ i % 2 = b.toNat) : v.getLsbD i = b := by
  rw [← BitVec.testBit_toNat, Nat.testBit_eq_decide_div_mod_eq, h]
  cases b <;> rfl

/-- The fields of a row group's report (R235). -/
theorem report_fields (v : RowGroup) (h : v.age < 2 ^ 15) :
    (v.report.extractLsb' 0 15).toNat = v.age ∧ (v.report.extractLsb' 15 3).toNat = classCode v.cls ∧ v.report.getLsbD 18 = (v.pol == .REFRESH) ∧
      v.report.getLsbD 19 = v.valid ∧ v.report.getLsbD 20 = v.req ∧ v.report.extractLsb' 21 43 = 0 := by
  have hcls : classCode v.cls ≤ 5 := by cases v.cls <;> decide
  have hpol := Bool.toNat_le (v.pol == .REFRESH)
  have hvalid := Bool.toNat_le v.valid
  have hreq := Bool.toNat_le v.req
  have hv : v.report.toNat =
      v.age + 2 ^ 15 * classCode v.cls + 2 ^ 18 * (v.pol == .REFRESH).toNat + 2 ^ 19 * v.valid.toNat + 2 ^ 20 * v.req.toNat := by
    unfold RowGroup.report
    rw [BitVec.toNat_ofNat]; omega
  refine ⟨?_, ?_, bit_of_toNat ?_, bit_of_toNat ?_, bit_of_toNat ?_, extract_eq_zero ?_⟩
  · rw [extract_toNat, hv]; omega
  · rw [extract_toNat, hv]; omega
  all_goals rw [hv]; omega

theorem lifetimesAreRead : LifetimesAreRead := by
  refine ⟨fun s d a land p g hr hs ha hg => ⟨_, rfl, ?_⟩, report_fields⟩
  change Accessible s (wantLoad .B) 1 (s.rs a) 1 [p] at ha
  rw [readingWhen_readable s _ _ _ hr, withBytes_accessible s _ _ _ _ [p] _ ha, withSlot_free hs]
  have hgroup : (([p] : List Nat).head?.bind rowGroupOf).getD noGroup = g := by
    simp only [List.head?_cons, Option.bind_some, hg, Option.getD_some]
  rw [hgroup]
  have hid (t : State) : t.onMe (fun x => x) = t := onStrand_id t _ _
  exact hid (s.claim _ _ _ _ _ _ _) ▸ claim_claims s s (Near.refl s) _ _ _ _ _ _ _ _ (fun x => x) fun _ => rfl

/-- Settles O30: one row group at a time, then the range; the report's fields. -/
theorem lifetimesOfRowGroups : Obligations.LifetimesOfRowGroups := ⟨lifetimesAreSet, lifetimesAreRead⟩

end Sys2Proof.Proofs
end

section
/-! Steals, the return of spilled entries, and the supervisor's decisions (R306, R307, R310, R313). -/

namespace Sys2Proof.Proofs
open Sys2Proof.Machine Sys2Proof.Spec Sys2Proof.Laws

/-! Fields of a packet whose range has been replaced. -/

theorem patch_getElem? {d bs : Bytes} {k : Nat} (h : k + bs.length ≤ d.length) (i : Nat) :
    (patch d k bs)[i]? = if i < k then d[i]? else if i < k + bs.length then bs[i - k]? else d[i]? := by
  have hk : (d.take k).length = k := List.length_take_of_le (by omega)
  unfold patch
  rw [List.append_assoc]
  by_cases h1 : i < k
  · rw [if_pos h1, List.getElem?_append_left (by omega), List.getElem?_take_of_lt h1]
  · rw [if_neg h1, List.getElem?_append_right (by omega), hk]
    by_cases h2 : i < k + bs.length
    · rw [if_pos h2, List.getElem?_append_left (by omega)]
    · rw [if_neg h2, List.getElem?_append_right (by omega), List.getElem?_drop]
      congr 1; omega

theorem length_patch {d bs : Bytes} {k : Nat} (h : k + bs.length ≤ d.length) : (patch d k bs).length = d.length := by
  simp only [patch, List.length_append, List.length_take, List.length_drop]; omega

theorem wordAt_congr {d e : Bytes} {o : Nat} (h : ∀ i, o ≤ i → i < o + 8 → d[i]? = e[i]?) : wordAt d o = wordAt e o := by
  unfold wordAt fieldAt
  congr 2
  refine List.ext_getElem? fun i => ?_
  by_cases hi : i < 8
  · rw [List.getElem?_take_of_lt hi, List.getElem?_take_of_lt hi, List.getElem?_drop, List.getElem?_drop]
    exact h _ (by omega) (by omega)
  · rw [List.getElem?_eq_none (by rw [List.length_take]; omega), List.getElem?_eq_none (by rw [List.length_take]; omega)]

section
variable {d : Bytes} {k : Nat} (v : Word) (h : k + 8 ≤ d.length)
include h

theorem wordAt_patch_ne {o : Nat} (ho : o + 8 ≤ k ∨ k + 8 ≤ o) : wordAt (patch d k (leBytes 8 v.toNat)) o = wordAt d o := by
  refine wordAt_congr fun i h1 h2 => ?_
  rw [patch_getElem? (by rw [leBytes_length]; exact h), leBytes_length]
  rcases ho with ho | ho
  · rw [if_pos (by omega)]
  · rw [if_neg (by omega), if_neg (by omega)]

theorem wordAt_patch_same : wordAt (patch d k (leBytes 8 v.toNat)) k = v := by
  have hbytes : ((patch d k (leBytes 8 v.toNat)).drop k).take 8 = leBytes 8 v.toNat := by
    unfold patch
    rw [List.append_assoc, List.drop_append_of_le_length (by rw [List.length_take_of_le (by omega)]),
      List.drop_eq_nil_of_le (by rw [List.length_take_of_le (by omega)]), List.nil_append,
      List.take_append_of_le_length (by rw [leBytes_length]), List.take_of_length_le (by rw [leBytes_length])]
  unfold wordAt fieldAt
  rw [hbytes, leNat_leBytes]
  exact BitVec.eq_of_toNat_eq (by rw [BitVec.toNat_ofNat]; have := v.isLt; omega)

end

/-- The packet of a bulk slice with another range (R296, R307). -/
theorem ofBytes_patched {raw : Bytes} (hlen : raw.length = 64) (hbulk : (Packet.ofBytes raw).deadlineKind = false) (lo hi : Word) :
    Packet.ofBytes (patch (patch raw 16 (leBytes 8 lo.toNat)) 24 (leBytes 8 hi.toNat)) =
      { Packet.ofBytes raw with lo := lo, hi := hi } := by
  let d := patch raw 16 (leBytes 8 lo.toNat)
  have hd : d.length = 64 := (length_patch (by rw [leBytes_length, hlen]; decide)).trans hlen
  have hother : ∀ o, o + 8 ≤ 16 ∨ 32 ≤ o → wordAt (patch d 24 (leBytes 8 hi.toNat)) o = wordAt raw o := fun o ho =>
    (wordAt_patch_ne hi (by omega) (by omega)).trans (wordAt_patch_ne lo (by omega) (by omega))
  have hlo : wordAt (patch d 24 (leBytes 8 hi.toNat)) 16 = lo :=
    (wordAt_patch_ne hi (by omega) (by omega)).trans (wordAt_patch_same lo (by omega))
  have hhi : wordAt (patch d 24 (leBytes 8 hi.toNat)) 24 = hi := wordAt_patch_same hi (by omega)
  have hkind : (wordAt raw 0).getLsbD 4 = false := hbulk
  change Packet.ofBytes (patch d 24 (leBytes 8 hi.toNat)) = _
  unfold Packet.ofBytes
  simp only [hother 0 (by omega), hother 8 (by omega), hother 32 (by omega), hother 40 (by omega), hother 48 (by omega),
    hother 56 (by omega), hlo, hhi, hkind, Bool.false_and, Bool.false_eq_true, if_false]

/-! Deques. -/

theorem mem_enterReady (r : Ready) (q : List Ready) : r ∈ enterReady r q := by
  induction q with
  | nil => exact List.mem_singleton_self r
  | cons x q ih =>
    unfold enterReady
    split
    · exact List.mem_cons_of_mem _ ih
    · exact List.mem_cons_self

theorem length_enterReady (r : Ready) (q : List Ready) : (enterReady r q).length = q.length + 1 := by
  induction q with
  | nil => rfl
  | cons x q ih =>
    unfold enterReady
    split
    · exact congrArg (· + 1) ih
    · rfl

/-- No release waits, and none is tried again (R311). -/
theorem retrySuccs_idle {s : State} (h : ∀ i ∈ s.insts, i.wants = false) (p : PartId) : s.retrySuccs p = s := by
  unfold State.retrySuccs
  have hnone : (s.insts.filter fun i => i.wants && i.part == p) = [] :=
    List.filter_eq_nil_iff.2 fun i hi => by simp [h i hi]
  rw [hnone]; rfl

/-! Steals (R306, R307). -/

/-- A slice that keeps the lower part of its range. -/
def narrowed (hi : Word) (x : Slice) : Slice := { x with hi := hi }

/-- The victim of a split keeps the lower part of its range, and its launch has one slice more (R307). -/
def splitAt (s : State) (v : HallId) (sl : Slice) : State :=
  (s.onHall v (Hall.onSlice · (narrowed sl.splitOff.1))).onInst sl.inst fun i => { i with live := i.live + 1 }

theorem hall_splitAt (s : State) (v : HallId) (sl : Slice) : (splitAt s v sl).hall v = Hall.onSlice (s.hall v) (narrowed sl.splitOff.1) :=
  hall_onHall_same s v (Hall.onSlice · (narrowed sl.splitOff.1))

theorem hall_splitAt_ne (s : State) {v g : HallId} (sl : Slice) (hg : g ≠ v) : (splitAt s v sl).hall g = s.hall g :=
  hall_onHall_ne s v g (Hall.onSlice · (narrowed sl.splitOff.1)) hg

section
variable {s : State} {v h : HallId}

/-- An idle Hall has nothing to run (R306). -/
theorem slice_of_idle (hi : s.idle h = true) : (s.hall h).slice = none ∧ (s.hall h).deque = [] := by
  unfold State.idle at hi
  dsimp only at hi
  split at hi
  · exact absurd hi Bool.false_ne_true
  · simp only [Bool.and_eq_true, Option.isNone_iff_eq_none, List.isEmpty_iff] at hi
    exact ⟨hi.1.1.2, hi.1.2⟩

theorem spare_mem {p : PartId} {r : Ready} (hr : s.spare p v = some r) : r ∈ (s.hall v).deque := by
  unfold State.spare at hr
  dsimp only at hr
  split at hr
  · cases hr
  · exact List.mem_of_mem_filter (List.mem_of_mem_filter (List.mem_of_getLast? hr))

/-- A Hall that takes a stolen record into its empty deque (R303, R306). -/
theorem giveTo_hall (t : State) (r : Ready) (hd : (t.hall h).deque = []) :
    ((t.giveTo h r).hall h).deque = [{ r with seq := (t.hall h).recSeq, atThief := false }] ∧ ((t.giveTo h r).hall h).asking = false := by
  unfold State.giveTo
  rw [hall_onHall_same, hd]
  exact ⟨rfl, rfl⟩

theorem giveTo_hall_ne (t : State) (r : Ready) {g : HallId} (hg : g ≠ h) : (t.giveTo h r).hall g = t.hall g := hall_onHall_ne t h g _ hg

theorem askVictim_asks {a : Nat} (hi : s.idle h = true) (ha : (s.hall h).stealAt = some a) (hle : a ≤ (s.hall h).cycle)
    (hask : (s.hall h).asking = false) (hlt : (s.hall h).stealIdx < (s.victims h).length) :
    s.askVictim h = s.onHall h fun H => { H with asking := true } := by
  unfold State.askVictim
  simp [hi, ha, hle, hask, hlt]

theorem retrySteal_begins {a : Nat} (ha : (s.hall h).stealAt = some a) (hle : a ≤ (s.hall h).cycle) (hask : (s.hall h).asking = false)
    (hlen : (s.victims h).length ≤ (s.hall h).stealIdx) (hpos : 0 < (s.hall h).stealIdx) :
    s.retrySteal h = s.onHall h fun H => { H with stealIdx := 0 } := by
  unfold State.retrySteal
  simp [ha, hle, hask, hlen, hpos]

theorem refuse_refuses : ((s.refuse h).hall h).asking = false ∧ ((s.refuse h).hall h).stealIdx = (s.hall h).stealIdx + 1 ∧
    ((s.refuse h).hall h).deque = (s.hall h).deque ∧ AtHall s (s.refuse h) h := by
  unfold State.refuse
  rw [hall_onHall_same]
  exact ⟨rfl, rfl, rfl, atHall_onHall s h _⟩

section
variable (hask : (s.hall h).asking = true) (hv : (s.victims h)[(s.hall h).stealIdx]? = some v) (hi : s.idle h = true)
include hask hv hi

/-- The victim that an idle thief has asked answers by what it has. -/
theorem serve_answers : s.serve v h =
    match (s.hall v).part with
    | none => s.refuse h
    | some p =>
      match s.spare p v with
      | some r => ((s.takeRecord v r).giveTo h r).retrySuccs p
      | none =>
        match (s.hall v).splittable with
        | none => s.refuse h
        | some sl =>
          if (s.ctx sl.asid).freezing.isSome then s.refuse h
          else (splitAt s v sl).giveTo h sl.splitOff.2 := by
  unfold State.serve
  dsimp only
  rw [if_neg (by simp [hask, hv]), if_neg (by simp [hi])]
  rfl

theorem serve_record {p : PartId} {r : Ready} (hp : (s.hall v).part = some p) (hr : s.spare p v = some r)
    (hwants : ∀ i ∈ s.insts, i.wants = false) : s.serve v h = (s.takeRecord v r).giveTo h r := by
  rw [serve_answers hask hv hi]
  simp only [hp, hr]
  exact retrySuccs_idle (s := (s.takeRecord v r).giveTo h r) hwants p

theorem serve_refuses (hno : (s.hall v).part = none ∨ ∃ p, (s.hall v).part = some p ∧ s.spare p v = none ∧ (s.hall v).splittable = none) :
    s.serve v h = s.refuse h := by
  rw [serve_answers hask hv hi]
  rcases hno with hp | ⟨p, hp, hr, hsp⟩
  · simp only [hp]
  · simp only [hp, hr, hsp]

theorem serve_splits {p : PartId} {sl : Slice} (hp : (s.hall v).part = some p) (hr : s.spare p v = none) (hsp : (s.hall v).splittable = some sl)
    (hf : (s.ctx sl.asid).freezing = none) :
    s.serve v h = (splitAt s v sl).giveTo h sl.splitOff.2 := by
  rw [serve_answers hask hv hi]
  simp [hp, hr, hsp, hf]

end

end

section
variable {H : Hall} {sl : Slice} (hs : H.slice = some sl)
include hs

theorem splittable_narrow (h : (sl.hi - sl.lo).toNat < 2) : H.splittable = none := by
  unfold Hall.splittable
  simp only [hs]
  exact if_pos (by rw [decide_eq_true h, Bool.or_true])

theorem splittable_wide (hk : sl.packet.deadlineKind = false) (hsup : sl.supervisor = false) (hsw : H.switch = none) (ht : H.trap = none)
    (h : 2 ≤ (sl.hi - sl.lo).toNat) : H.splittable = some sl := by
  unfold Hall.splittable
  simp only [hs]
  exact if_neg (by rw [hk, hsup, hsw, ht, decide_eq_false (Nat.not_lt.2 h)]; exact Bool.false_ne_true)

end

/-- The record that a split gives away (R307). -/
theorem splitOff_what {sl : Slice} (hlen : sl.raw.length = 64) (hbulk : (Packet.ofBytes sl.raw).deadlineKind = false) :
    let mid := sl.lo + BitVec.ofNat 64 (((sl.hi - sl.lo).toNat + 1) / 2)
    sl.splitOff.2.what = .fresh { Packet.ofBytes sl.raw with lo := mid, hi := sl.hi }
      (patch (patch sl.raw 16 (leBytes 8 mid.toNat)) 24 (leBytes 8 sl.hi.toNat)) sl.rank sl.inst := by
  intro mid
  have hrank : BitVec.ofNat 8 sl.rank.toNat = sl.rank := BitVec.eq_of_toNat_eq (Nat.mod_eq_of_lt sl.rank.isLt)
  have hpk := ofBytes_patched hlen hbulk mid sl.hi
  unfold Slice.splitOff freshReady
  dsimp only
  rw [hrank]
  exact congrArg (fun p => Work?.fresh p _ sl.rank sl.inst) hpk

/-- A partition whose spilled entry has been taken back (R310). -/
def spillTaken (e : Spilled) (P : Part) : Part :=
  Part.advanceHead { P with spilled := P.spilled.map fun x => if x.at_ = e.at_ then { x with taken := true } else x }

/-- Steals and the return of spilled entries (R306, R307, R310). -/
theorem stealsAndSpills : Spec.StealsAndSpills := by
  intro s h
  refine ⟨fun a hi ha hle hask hlt => ?_, fun v hask hv hi => ⟨fun p r hp hr hwants => ?_, fun hno => ?_,
    fun p sl hp hr hs hk hsup hsw ht hf hlen hbulk => ?_⟩, fun a ha hle hask hlen hpos => ?_, fun p e hp hroom he hwants => ?_⟩
  · exact ⟨_, congrArg Host.Outcome.next (askVictim_asks hi ha hle hask hlt), hall_onHall_same s h _, atHall_onHall s h _⟩
  · have hne : h ≠ v := by
      rintro rfl
      have := spare_mem hr
      rw [(slice_of_idle hi).2] at this
      exact List.not_mem_nil this
    have hd : ((s.takeRecord v r).hall h).deque = [] := by
      rw [State.takeRecord, hall_onHall_ne s v h _ hne]; exact (slice_of_idle hi).2
    obtain ⟨hdeque, hasks⟩ := giveTo_hall _ r hd
    refine ⟨_, _, congrArg Host.Outcome.next (serve_record hask hv hi hp hr hwants), hdeque, rfl, rfl, hasks, fun y hy _ => ?_⟩
    rw [giveTo_hall_ne _ r hne.symm, State.takeRecord, hall_onHall_same] at hy
    simpa using (List.mem_filter.1 hy).2
  · exact ⟨_, congrArg Host.Outcome.next (serve_refuses hask hv hi hno), refuse_refuses⟩
  · intro mid
    refine ⟨fun hwide => ?_, fun hnarrow => ?_⟩
    · have hne : h ≠ v := by
        rintro rfl
        rw [(slice_of_idle hi).1] at hs
        cases hs
      have hserve := serve_splits hask hv hi hp hr (splittable_wide hs hk hsup hsw ht hwide) hf
      let u := splitAt s v sl
      have hvu : (u.giveTo h sl.splitOff.2).hall v = Hall.onSlice (s.hall v) (narrowed sl.splitOff.1) :=
        (giveTo_hall_ne u _ hne.symm).trans (hall_splitAt s v sl)
      obtain ⟨hdeque, hasks⟩ := giveTo_hall u sl.splitOff.2 ((congrArg Hall.deque (hall_splitAt_ne s sl hne)).trans (slice_of_idle hi).2)
      refine ⟨_, _, _, congrArg Host.Outcome.next hserve, ?_, ?_, ?_, hdeque, hasks, splitOff_what hlen hbulk, fun i hmem hid => ?_, rfl,
        fun g hgv hgh => (giveTo_hall_ne u _ hgh).trans (hall_splitAt_ne s sl hgv)⟩
      · rw [hvu]; exact congrArg (Option.map _) hs
      · rw [hvu]; rfl
      · rw [hvu]; rfl
      · exact ⟨_, List.mem_map_of_mem hmem, by rw [if_pos hid], by rw [if_pos hid]⟩
    · obtain ⟨-, hidx, hdeque, hat⟩ := refuse_refuses (s := s) (h := h)
      exact ⟨_, congrArg Host.Outcome.next (serve_refuses hask hv hi (.inr ⟨p, hp, hr, splittable_narrow hs hnarrow⟩)), hidx, hdeque, hat⟩
  · exact ⟨_, congrArg Host.Outcome.next (retrySteal_begins ha hle hask hlen hpos), hall_onHall_same s h _, atHall_onHall s h _⟩
  · have hexec : s.unspill h = (s.onHall h (Hall.enter · e.rec_)).onPart p (spillTaken e) := by
      unfold State.unspill
      simp only [hp, if_neg (Nat.not_le.2 hroom), he]
      exact retrySuccs_idle (s := (s.onHall h (Hall.enter · e.rec_)).onPart p (spillTaken e)) hwants p
    have hhall : ((s.onHall h (Hall.enter · e.rec_)).onPart p (spillTaken e)).hall h = (s.hall h).enter e.rec_ :=
      hall_onHall_same s h (Hall.enter · e.rec_)
    refine ⟨_, congrArg Host.Outcome.next hexec, ?_, ?_, fun g hg => hall_onHall_ne s h g (Hall.enter · e.rec_) hg⟩
    · rw [hhall]; exact mem_enterReady _ _
    · rw [hhall]; exact length_enterReady _ _

/-! Decisions (R313). -/

section
variable {s : State} {p : PartId} {h : HallId}

/-- A decision that a Hall of the partition has asked for is acted on. -/
theorem predec_asked {e : Preempt} (he : (s.hall h).preempt = some e) (ha : e.asked = true) (hp : (s.hall h).part = some p) (pol : Option Policy) :
    s.predec p h pol = match pol with
      | none => s.onHall h fun H => { H with preempt := none }
      | some q => s.settlePreempt h q := by
  unfold State.predec
  simp only [he]
  exact if_pos (by simp [ha, hp])

theorem predec_unasked (hno : (s.hall h).preempt = none ∨ (s.hall h).part ≠ some p ∨ ∃ e, (s.hall h).preempt = some e ∧ e.asked = false)
    (pol : Option Policy) : s.predec p h pol = s := by
  unfold State.predec
  split
  · rfl
  next e he =>
    refine if_neg ?_
    rcases hno with hn | hp | ⟨e', he', ha⟩
    · rw [hn] at he; cases he
    · simp [hp]
    · rw [he', Option.some.injEq] at he
      simp [← he, ha]

variable {sl : Slice} (hs : (s.hall h).slice = some sl)
include hs

/-- A pre-emption whose policy is settled, but for a kill that begins at once, is noted. -/
theorem settlePreempt_notes (pol : Policy) (hno : pol.forSlice sl = .kill → (s.hall h).trap ≠ none) :
    ∃ x, ((s.settlePreempt h pol).hall h).preempt = some x ∧ x.policy = pol.forSlice sl ∧ x.asked = false ∧
      x.left = (s.part sl.part).ckwin.toNat * 5544000 ∧ ((s.settlePreempt h pol).hall h).work = (s.hall h).work ∧
      AtHall s (s.settlePreempt h pol) h := by
  unfold State.settlePreempt
  simp only [hs]
  rw [if_neg (by rintro ⟨hk, ht⟩; exact hno hk (Option.isNone_iff_eq_none.1 ht)), hall_onHall_same]
  exact ⟨_, rfl, rfl, rfl, rfl, rfl, atHall_onHall s h _⟩

/-- A slice that begins to leave its Hall (R315, R320). -/
theorem beginLeave_leaves (how : Leave) (rows : List Nat) (tiles : BitVec 32) (ranges : List (Nat × Nat)) :
    let t := s.beginLeave h how rows tiles ranges
    (∃ w, (t.hall h).switch = some w ∧ w.how = how) ∧ (t.hall h).preempt = none ∧ (t.hall h).slice = some sl ∧ AtHall s t h := by
  intro t
  have ht : t.hall h = { s.hall h with
      switch := some { how := how, from_ := (s.hall h).cycle, captured := false, rows := rows, tiles := tiles, ranges := ranges, told := false }
      preempt := none
      copy := (s.hall h).copy.map fun r => if r.cmd.slice = sl.id then { r with stop := true } else r } := by
    refine (hall_onHall_same s h _).trans ?_
    simp only [hs]
  rw [ht]
  exact ⟨⟨_, rfl, rfl⟩, rfl, hs, atHall_onHall s h _⟩

/-- A kill of a restartable slice begins at once, unless a trap has it stopped (R313, R393). -/
theorem settlePreempt_kills (hr : sl.packet.restart = true) (ht : (s.hall h).trap = none) :
    s.settlePreempt h .kill = s.beginLeave h .kill [] 0 [] := by
  unfold State.settlePreempt
  simp only [hs]
  exact if_pos ⟨by simp [Policy.forSlice, hr], by rw [ht]; rfl⟩

end

/-- Pre-emption decisions (R313). -/
theorem preemptionDecisions : Spec.PreemptionDecisions := by
  intro s p h
  refine ⟨fun e sl he ha hp hs => ?_, fun i hi hno => ⟨s, ?_, rfl⟩⟩
  · have hexec := predec_asked he ha hp
    refine ⟨?_, ?_, fun hr ht => ?_, fun hr ht => ?_, fun hr => ?_, ?_⟩
    · obtain ⟨x, hx, hpol, hask, -, hwork, hat⟩ := settlePreempt_notes hs .drain (fun h => nomatch h)
      exact ⟨_, x, congrArg Host.Outcome.next (hexec _), hx, hpol, hask, hwork, hat⟩
    · obtain ⟨x, hx, hpol, hask, hleft, hwork, hat⟩ := settlePreempt_notes hs .checkpoint (fun h => nomatch h)
      exact ⟨_, x, congrArg Host.Outcome.next (hexec _), hx, hpol, hask, hleft, hwork, hat⟩
    · obtain ⟨⟨w, hw, hhow⟩, hpre, -, hat⟩ := beginLeave_leaves hs .kill [] 0 []
      exact ⟨_, w, congrArg Host.Outcome.next ((hexec _).trans (settlePreempt_kills hs hr ht)), hw, hhow, hpre, hat⟩
    · have hpolicy : Policy.forSlice .kill sl = .kill := by simp [Policy.forSlice, hr]
      obtain ⟨x, hx, hpol, hask, -, -, hat⟩ := settlePreempt_notes hs .kill (fun _ => ht)
      exact ⟨_, x, congrArg Host.Outcome.next (hexec _), hx, hpol.trans hpolicy, hask, hat⟩
    · have hpolicy : Policy.forSlice .kill sl = .checkpoint := by simp [Policy.forSlice, hr]
      obtain ⟨x, hx, hpol, -, -, -, hat⟩ := settlePreempt_notes hs .kill (fun hk => nomatch hpolicy.symm.trans hk)
      exact ⟨_, x, congrArg Host.Outcome.next (hexec _), hx, hpol.trans hpolicy, hat⟩
    · exact ⟨_, congrArg Host.Outcome.next (hexec none), hall_onHall_same s h _, atHall_onHall s h _⟩
  · rcases hi with rfl | rfl | rfl | rfl
    all_goals exact congrArg Host.Outcome.next (predec_unasked hno _)

/-- Settles O45: each answer of a victim and each decision, by the condition that selects it. -/
theorem stealsSpillsAndDecisions : Obligations.StealsSpillsAndDecisions := ⟨stealsAndSpills, preemptionDecisions⟩

end Sys2Proof.Proofs
end

section
/-! SUPPORT. What messages, records and the device's own reads and writes leave alone: the Hall and the strand at issue, the contexts, the open trap
records, and the seat of every slice. -/

namespace Sys2Proof.Proofs
open Sys2Proof.Machine Sys2Proof.Spec Sys2Proof.Laws

/-- The context of a Hall's slice, the one that a Hall without a slice remembers, and what the strands work with. -/
def seat (H : Hall) : Option Asid × Option Asid × Work := (H.slice.map (·.asid), H.lastAsid, H.work)

/-- The states agree on what is at issue, on the contexts, on the open trap records, and on the seats of the slices. -/
structure Seats (s t : State) : Prop where
  issued : t.issued = s.issued
  curHall : t.curHall = s.curHall
  curStrand : t.curStrand = s.curStrand
  ctxs : t.ctxs = s.ctxs
  record : ∀ p, (t.part p).open_ = (s.part p).open_
  seat : ∀ k, seat (t.hall k) = seat (s.hall k)

theorem seats_refl (s : State) : Seats s s := ⟨rfl, rfl, rfl, rfl, fun _ => rfl, fun _ => rfl⟩

theorem seats_trans {s t u : State} (a : Seats s t) (b : Seats t u) : Seats s u where
  issued := b.issued.trans a.issued
  curHall := b.curHall.trans a.curHall
  curStrand := b.curStrand.trans a.curStrand
  ctxs := b.ctxs.trans a.ctxs
  record p := (b.record p).trans (a.record p)
  seat k := (b.seat k).trans (a.seat k)

theorem seats_foldl {α : Type} {f : State → α → State} (hf : ∀ s a, Seats s (f s a)) (xs : List α) (s : State) : Seats s (xs.foldl f s) := by
  induction xs generalizing s with
  | nil => exact seats_refl s
  | cons x xs ih => exact seats_trans (hf s x) (ih (f s x))

/-- A change of what a module keeps beside its Halls, partitions and contexts. -/
theorem seats_of_eq {s t : State} (hi : t.issued = s.issued) (hc : t.curHall = s.curHall) (hst : t.curStrand = s.curStrand) (hx : t.ctxs = s.ctxs)
    (hp : t.parts = s.parts) (hh : t.halls = s.halls) : Seats s t :=
  ⟨hi, hc, hst, hx, fun p => by simp only [State.part, hp], fun k => by simp only [State.hall, hh]⟩

theorem seats_onHall (s : State) (h : HallId) (f : Hall → Hall) (hf : seat (f (s.hall h)) = seat (s.hall h)) : Seats s (s.onHall h f) := by
  refine ⟨rfl, rfl, rfl, rfl, fun _ => rfl, fun k => ?_⟩
  by_cases hk : k = h
  · subst hk; rw [hall_onHall_same]; exact hf
  · rw [hall_onHall_ne s h k f hk]

/-- A change of a slice that keeps its context. -/
theorem seats_onSlice (s : State) (h : HallId) (f : Slice → Slice) (hf : ∀ sl, (f sl).asid = sl.asid) : Seats s (s.onHall h (Hall.onSlice · f)) := by
  refine seats_onHall s h (Hall.onSlice · f) ?_
  unfold seat Hall.onSlice
  cases (s.hall h).slice with
  | none => rfl
  | some sl => exact congrArg (fun a => (some a, (s.hall h).lastAsid, (s.hall h).work)) (hf sl)

theorem seats_onPart (s : State) (p : PartId) (f : Part → Part) (hf : (f (s.part p)).open_ = (s.part p).open_) : Seats s (s.onPart p f) := by
  refine ⟨rfl, rfl, rfl, rfl, fun q => ?_, fun _ => rfl⟩
  by_cases hq : q = p
  · subst hq; rw [part_onPart_same]; exact hf
  · rw [part_onPart_ne s p q f hq]

/-! Writes of the device's own. -/

theorem seats_undoLine (s : State) (line : Nat) : Seats s (s.undoLine line) := by
  unfold State.undoLine
  split
  case h_1 => exact seats_onSlice s _ _ fun _ => rfl
  all_goals exact seats_refl s

theorem seats_mend (s : State) (cs : List Host.Cell) : Seats s (s.mend cs) := by
  unfold State.mend
  split
  · exact seats_refl s
  · exact seats_of_eq rfl rfl rfl rfl rfl rfl

theorem seats_putLine (s : State) (line : Nat) (cs : List Host.Cell) (v : Version) : Seats s (s.putLine line cs v) := by
  refine seats_trans (seats_trans (seats_undoLine s line) (seats_mend _ cs)) ?_
  unfold State.putLine
  dsimp only
  split
  · exact seats_of_eq rfl rfl rfl rfl rfl rfl
  · exact seats_of_eq rfl rfl rfl rfl rfl rfl

theorem seats_poke (s : State) (cs : List Host.Cell) : Seats s (s.poke cs) := by
  unfold State.poke
  exact seats_trans (t := { s with pubs := s.pubs + 1 }) (seats_of_eq rfl rfl rfl rfl rfl rfl) (seats_foldl (fun t l => seats_putLine t l _ _) _ _)

theorem seats_setBitmap (s : State) (p : PartId) (base : Word) (n : Nat) : Seats s (s.setBitmap p base n) := by
  unfold State.setBitmap
  split
  · exact seats_refl s
  · split
    · exact seats_poke s _
    · exact seats_refl s
    · exact seats_refl s

/-! Events. -/

theorem seats_postSuper (s : State) (p : PartId) (ev : Nat) : Seats s (s.postSuper p ev) := by
  unfold State.postSuper
  split
  · exact seats_onPart s p _ rfl
  · split
    · exact seats_onHall s _ _ rfl
    · split
      · exact seats_onPart s p _ rfl
      · exact seats_of_eq rfl rfl rfl rfl rfl rfl

theorem seats_raiseEvent (s : State) (p : PartId) (e : HostEvent) : Seats s (s.raiseEvent p e) := by
  have hqueued : Seats s (s.onPart p fun P => { P with evq := P.evq ++ [e] }) := seats_onPart s p _ rfl
  unfold State.raiseEvent
  dsimp only
  split
  · exact hqueued
  · exact seats_trans hqueued (seats_postSuper _ p 30)

/-! Reads of the device's own. -/

theorem seats_touch (s : State) (p : PartId) (line : Nat) : Seats s (s.touch p line) := by
  unfold State.touch
  extract_lets a owns sec c0 c P s1 s2
  have h2 : Seats s s2 := seats_trans (t := s1) (seats_of_eq rfl rfl rfl rfl rfl rfl) (seats_setBitmap s1 p P.hotmap _)
  split
  · exact seats_refl s
  · split
    · split
      · exact seats_trans h2 (seats_raiseEvent s2 p _)
      · exact h2
    · exact seats_of_eq rfl rfl rfl rfl rfl rfl

theorem seats_sense (s : State) (p : PartId) (a : Nat) : Seats s (s.sense p a).2 := by
  unfold State.sense
  split
  · dsimp only
    split
    · exact seats_refl s
    · split
      · exact seats_refl s
      · split
        · exact seats_onHall s _ (fun H => { H with corrected := H.corrected + 1 }) rfl
        · exact seats_refl s
  · split
    · dsimp only
      split
      · exact seats_refl s
      · split
        · exact seats_of_eq rfl rfl rfl rfl rfl rfl
        · exact seats_refl s
    · exact seats_refl s

theorem seats_senseUnits (p : PartId) (us : List Nat) (s : State) : Seats s (State.senseUnits p us s).2 := by
  induction us generalizing s with
  | nil => exact seats_refl s
  | cons u rest ih =>
    have hu := seats_sense s p u
    unfold State.senseUnits
    split
    · next e => rw [e] at hu; exact hu
    · next e => rw [e] at hu; exact seats_trans hu (ih _)

theorem seats_senseRead (s : State) (p : PartId) (ps : List Nat) : Seats s (s.senseRead p ps).2 :=
  seats_trans (seats_foldl (fun t l => seats_touch t p l) _ s) (seats_senseUnits p _ _)

theorem seats_deviceRead (s : State) (u : Who) (binds : List (BitVec 32 × BitVec 32)) (a : Word) (n : Nat) :
    Seats s (s.deviceRead u binds a n).2 := by
  unfold State.deviceRead
  split
  · exact seats_refl s
  · exact seats_refl s
  · next ps _ =>
    have h := seats_senseRead s u.part ps
    split
    · next e => rw [e] at h; exact h
    · next e => rw [e] at h; exact h

theorem seats_readKd (s : State) (u : Who) (kd : Word) : Seats s (s.readKd u kd).2 := by
  have h1 := seats_deviceRead s u [] kd 64
  unfold State.readKd
  split
  · next e => rw [e] at h1; exact h1
  · next d s1 e =>
    rw [e] at h1
    have h2 := seats_trans h1 (seats_deviceRead s1 u [] (wordAt d 32) 256)
    split
    · exact h1
    · split
      · exact h1
      · split
        · next e' => rw [e'] at h2; exact h2
        · next e' =>
          rw [e'] at h2
          split
          · exact h2
          · exact h2

/-! Records. -/

/-- What a step that may fail leaves where it does not. -/
def SeatsIf (s : State) (x : Except TrapInfo State) : Prop := ∀ t, x = .ok t → Seats s t

theorem seats_ringWrite (s : State) (p : PartId) (a : Nat) (bs : Bytes) : SeatsIf s (s.ringWrite p a bs) := by
  intro t ht
  unfold State.ringWrite at ht
  split at ht
  · cases ht
  · next asid _ =>
    extract_lets u s1 at ht
    have h1 : Seats s s1 := by
      unfold s1
      split
      · exact seats_refl s
      · split
        · exact seats_refl s
        · split
          · exact seats_onPart s p _ rfl
          · exact seats_refl s
    split at ht
    · cases ht
    · cases ht
      exact seats_trans h1 (seats_poke s1 _)

theorem seats_spill (s : State) (p : PartId) (h : HallId) (r : Ready) : SeatsIf s (s.spill p h r) := by
  intro t ht
  unfold State.spill at ht
  extract_lets P n tail at_ at ht
  split at ht
  · cases ht
  · split at ht
    extract_lets body w at ht
    have hw : SeatsIf s w := by
      intro u hu
      unfold w at hu
      split at hu
      · cases hu
      · next s1 e1 =>
        have h1 := seats_ringWrite s p _ _ s1 e1
        split at hu
        · exact seats_trans h1 (seats_ringWrite s1 p _ _ u hu)
        · cases hu
          exact h1
    clear_value w
    cases w with
    | error e => cases ht
    | ok s1 =>
      cases ht
      exact seats_trans (hw s1 rfl) (seats_onPart s1 p _ rfl)

theorem seats_deliver (s : State) (p : PartId) (h : HallId) (r : Ready) : SeatsIf s (s.deliver p h r) := by
  intro t ht
  unfold State.deliver at ht
  extract_lets H r1 q at ht
  split at ht
  · cases ht
    exact seats_onHall s h (fun _ => { H with deque := q, recSeq := H.recSeq + 1 }) rfl
  · split at ht
    · cases ht
      exact seats_refl s
    · extract_lets low at ht
      split at ht
      · cases ht
      · next s1 e =>
        cases ht
        exact seats_trans (seats_spill s p h _ s1 e) (seats_onHall s1 h _ rfl)

theorem seats_deliverEach (p : PartId) (pk : Packet) (raw : Bytes) (inst rank : Nat) (hs : List HallId) (s : State) :
    SeatsIf s (s.deliverEach p pk raw inst rank hs) := by
  induction hs generalizing s rank with
  | nil =>
    intro t ht
    cases ht
    exact seats_refl s
  | cons h hs ih =>
    intro t ht
    unfold State.deliverEach at ht
    split at ht
    · cases ht
    · next s1 e => exact seats_trans (seats_deliver s p h _ s1 e) (ih _ s1 t ht)

theorem seats_launchCopies (s : State) (p : PartId) (raw : Bytes) (succ : Word) (hs : List HallId) (pred : Option Nat) (c : Clock) :
    SeatsIf s (s.launchCopies p raw succ hs pred c) := by
  intro t ht
  unfold State.launchCopies at ht
  dsimp only at ht
  split at ht
  · cases ht
  · next s1 e =>
    cases ht
    exact seats_trans (seats_deliverEach p _ _ _ _ hs s s1 e) (seats_of_eq rfl rfl rfl rfl rfl rfl)

/-! Launches. -/

theorem seats_onInst (s : State) (id : Nat) (f : Inst → Inst) : Seats s (s.onInst id f) := seats_of_eq rfl rfl rfl rfl rfl rfl

theorem seats_launchChecks (s : State) (h : HallId) (p : PartId) (raw : Bytes) (mask : BitVec 256) : Seats s (s.launchChecks h p raw mask).2 := by
  unfold State.launchChecks
  extract_lets pk
  have hkd := seats_readKd s (s.whoIs h p pk.asid) pk.kd
  split
  · exact seats_refl s
  · split
    · exact seats_refl s
    · split
      · next e => rw [e] at hkd; exact hkd
      · next e =>
        rw [e] at hkd
        split
        · exact hkd
        · exact hkd

theorem seats_releaseSucc (s : State) (id : Nat) : Seats s (s.releaseSucc id) := by
  unfold State.releaseSucc
  split
  · exact seats_refl s
  · next i _ =>
    split
    · exact seats_refl s
    · extract_lets h u refuse
      have hrefuse (t : State) : Seats t (refuse t) := by
        unfold refuse
        split
        · exact seats_onInst t id _
        · exact seats_trans (seats_onInst t id _) (seats_raiseEvent _ _ _)
      have h1 := seats_deviceRead s u [] i.succ 96
      split
      · next e => rw [e] at h1; exact seats_trans h1 (hrefuse _)
      · next d s1 e =>
        rw [e] at h1
        extract_lets mask
        have h2 := seats_trans h1 (seats_launchChecks s1 h i.part (d.take 64) mask)
        split
        · next e2 => rw [e2] at h2; exact seats_trans h2 (hrefuse _)
        · next succ s2 e2 =>
          rw [e2] at h2
          split
          · next s3 e3 => exact seats_trans h2 (seats_trans (seats_launchCopies s2 _ _ _ _ _ _ s3 e3) (seats_onInst s3 id _))
          · split
            · exact h2
            · split
              · exact seats_trans h2 (seats_onInst s2 id _)
              · exact seats_trans h2 (seats_trans (seats_onInst s2 id _) (seats_raiseEvent _ _ _))

theorem seats_endOne (s : State) (id : Nat) : Seats s (s.endOne id) := by
  unfold State.endOne
  extract_lets s1
  have h1 : Seats s s1 := seats_onInst s id _
  split
  · split
    · exact seats_trans h1 (seats_releaseSucc s1 id)
    · exact h1
  · exact h1

/-! Bindings, groups and messages. -/

theorem seats_unbind (s : State) (set version : BitVec 32) : Seats s (s.unbind set version) := by
  unfold State.unbind
  split
  · exact seats_refl s
  · dsimp only
    split
    · exact seats_of_eq rfl rfl rfl rfl rfl rfl
    · exact seats_of_eq rfl rfl rfl rfl rfl rfl

theorem seats_releaseBinds (s : State) (sl : Slice) : Seats s (s.releaseBinds sl) := 
  seats_foldl (f := fun t (b : BitVec 32 × BitVec 32) => t.unbind b.1 b.2) (fun t b => seats_unbind t b.1 b.2) _ s

theorem seats_sendTo (s : State) (p : PartId) (m : Nat) (msg : Instr) : Seats s (s.sendTo p m msg) := by
  unfold State.sendTo
  split
  · exact seats_of_eq rfl rfl rfl rfl rfl rfl
  · exact seats_of_eq rfl rfl rfl rfl rfl rfl

theorem seats_tellMembers (s : State) (asid : Asid) (msg : Byte → Instr) : Seats s (s.tellMembers asid msg) :=
  seats_foldl (fun t m => seats_sendTo t _ m _) _ s

theorem seats_sendToken (s : State) (g : Group) (m : GMember) (away : Bool) : Seats s (s.sendToken g m away) := by
  unfold State.sendToken
  extract_lets msg
  split
  · exact seats_refl s
  · split
    · exact seats_tellMembers s _ _
    · exact seats_sendTo s _ _ _

theorem seats_onGroup (s : State) (asid : Asid) (gid : Nat) (f : Group → Group) : Seats s (s.onGroup asid gid f) :=
  seats_of_eq rfl rfl rfl rfl rfl rfl

theorem seats_openTokens (s : State) (g : Group) : Seats s (s.openTokens g) := by
  unfold State.openTokens
  split
  · exact seats_refl s
  · exact seats_foldl (fun t _ => seats_sendToken t _ _ true) _ s

theorem seats_completePhase (s : State) (asid : Asid) (gid : Nat) : Seats s (s.completePhase asid gid) := by
  unfold State.completePhase
  split
  · exact seats_refl s
  · next g _ =>
    split
    · extract_lets s1
      have h1 : Seats s s1 := seats_onGroup s asid gid _
      split
      · exact seats_trans h1 (seats_trans (seats_tellMembers s1 _ _) (seats_openTokens _ g))
      · exact h1
    · exact seats_refl s

theorem seats_tellCeased (s : State) (g : Group) (h : HallId) : Seats s (s.tellCeased g h) := by
  unfold State.tellCeased
  split
  · exact seats_tellMembers s _ _
  · exact seats_refl s

theorem seats_leaveGroup (s : State) (asid : Asid) (slice : Nat) (h : HallId) (gid : Nat) : Seats s (s.leaveGroup asid slice h gid) := by
  unfold State.leaveGroup
  split
  · exact seats_refl s
  · next g _ =>
    split
    · exact seats_refl s
    · next m _ =>
      extract_lets s1 s2
      have h1 : Seats s s1 := by
        unfold s1
        split
        · exact seats_sendToken s g m false
        · exact seats_refl s
      have h2 : Seats s1 s2 := by
        unfold s2
        split
        · exact seats_refl s1
        · exact seats_sendTo s1 _ _ _
      have h3 := seats_onGroup s2 asid gid fun g => g.leave m
      have h4 := seats_trans h3 (seats_trans (seats_completePhase _ asid gid) (seats_completePhase _ asid gid))
      exact seats_trans (seats_trans h1 h2) (seats_trans h4 (seats_tellCeased _ g h))

theorem seats_leaveAll (s : State) (sl : Slice) (h : HallId) : Seats s (s.leaveAll sl h) :=
  seats_foldl (fun t _ => seats_leaveGroup t _ _ h _) _ s

/-! What a slice that stops leaves behind. -/

theorem seats_dropStores (s : State) (h : HallId) (p : Store → Bool) : Seats s (s.dropStores h p) :=
  seats_trans (seats_onHall s h (fun H => { H with overlay := H.overlay.filter fun e => !p e }) rfl) (seats_of_eq rfl rfl rfl rfl rfl rfl)

theorem seats_stopEngines (s : State) (h : HallId) (id : Nat) : Seats s (s.stopEngines h id) := seats_onHall s h _ rfl

theorem seats_dropHolds (s : State) (h : HallId) (asid : Asid) : Seats s (s.dropHolds h asid) := seats_of_eq rfl rfl rfl rfl rfl rfl

/-! What follows of it. -/

section
variable {s t : State} (a : Seats s t)
include a

theorem me_of_seats : t.me = s.me := by
  have hwork : (t.hall s.curHall).work = (s.hall s.curHall).work := congrArg (fun x => x.2.2) (a.seat s.curHall)
  unfold State.me State.here
  rw [a.curHall, a.curStrand, hwork]

theorem slice_of_seats {h : HallId} {x : Slice} (hx : (s.hall h).slice = some x) : ∃ y, (t.hall h).slice = some y ∧ y.asid = x.asid := by
  have hslice : (t.hall h).slice.map (·.asid) = some x.asid := (congrArg Prod.fst (a.seat h)).trans (congrArg (Option.map Slice.asid) hx)
  exact Option.map_eq_some_iff.1 hslice

theorem noSlice_of_seats {h : HallId} (hx : (s.hall h).slice = none) : (t.hall h).slice = none :=
  Option.map_eq_none_iff.1 ((congrArg Prod.fst (a.seat h)).trans (congrArg (Option.map Slice.asid) hx))

end

/-! A slice that leaves its Hall (R300, R301, R320, R396). -/

/-- From `s` to `t` the slice of a Hall has left it, whose context the Hall remembers; what is at issue and the open trap records are as before. -/
structure Leaves (s t : State) (h : HallId) (asid : Asid) : Prop where
  issued : t.issued = s.issued
  curHall : t.curHall = s.curHall
  record : ∀ p, (t.part p).open_ = (s.part p).open_
  slice : (t.hall h).slice = none
  last : (t.hall h).lastAsid = some asid

theorem leaves_after {s t u : State} {h : HallId} {asid : Asid} (a : Seats s t) (b : Leaves t u h asid) : Leaves s u h asid :=
  ⟨b.issued.trans a.issued, b.curHall.trans a.curHall, fun p => (b.record p).trans (a.record p), b.slice, b.last⟩

theorem leaves_vacate {s t : State} {h : HallId} {x : Slice} (hx : (s.hall h).slice = some x) (a : Seats (s.onHall h (·.vacate)) t) :
    Leaves s t h x.asid := by
  have hslice : ((s.onHall h (·.vacate)).hall h).slice = none := by rw [hall_onHall_same]; rfl
  have hlast : ((s.onHall h (·.vacate)).hall h).lastAsid = some x.asid := by
    rw [hall_onHall_same]
    unfold Hall.vacate Hall.writeTiles
    simp only [hx]
  exact ⟨a.issued, a.curHall, a.record, noSlice_of_seats a hslice, (congrArg (fun x => x.2.1) (a.seat h)).trans hlast⟩

theorem afterEnd_leaves {s : State} {h : HallId} {x : Slice} (sl : Slice) (hx : (s.hall h).slice = some x) : Leaves s (s.afterEnd h sl) h x.asid := by
  unfold State.afterEnd
  extract_lets s1 s2
  have h1 : Seats s s1 := seats_trans (seats_leaveAll s sl h) (seats_releaseBinds _ sl)
  have h2 : Seats s1 s2 := by
    unfold s2
    split
    · exact seats_trans (t := s1.interrupt sl.part h.toNat sl.asid 7) (seats_of_eq rfl rfl rfl rfl rfl rfl) (seats_onPart _ sl.part _ rfl)
    · exact seats_refl s1
  obtain ⟨y, hy, hasid⟩ := slice_of_seats (seats_trans h1 h2) hx
  exact leaves_after (seats_trans h1 h2) (hasid ▸ leaves_vacate hy (seats_endOne _ sl.inst))

/-- What a kill and a termination discard first. -/
theorem seats_stop (s : State) (h : HallId) (sl : Slice) :
    Seats s (((s.dropStores h fun _ => true).stopEngines h sl.id).dropHolds h sl.asid) :=
  seats_trans (seats_dropStores s h _) (seats_trans (seats_stopEngines _ h sl.id) (seats_dropHolds _ h sl.asid))

theorem termNow_leaves {s : State} {h : HallId} {x : Slice} (hx : (s.hall h).slice = some x) : Leaves s (s.termNow h) h x.asid := by
  unfold State.termNow
  simp only [hx]
  obtain ⟨y, hy, hasid⟩ := slice_of_seats (seats_stop s h x) hx
  exact leaves_after (seats_stop s h x) (hasid ▸ afterEnd_leaves x hy)

theorem kills_leaves {s t : State} {h : HallId} {x : Slice} (hx : (s.hall h).slice = some x) (ht : s.kills h = some t) : Leaves s t h x.asid := by
  unfold State.kills at ht
  simp only [hx] at ht
  split at ht
  · next u hu =>
    cases ht
    have hseats := seats_trans (seats_stop s h x) (seats_trans (seats_leaveAll _ x h) (seats_releaseBinds _ x))
    obtain ⟨y, hy, hasid⟩ := slice_of_seats hseats hx
    have hleaves := leaves_vacate hy (seats_deliver _ _ _ _ _ hu)
    rw [hasid] at hleaves
    exact leaves_after hseats hleaves
  · cases ht

end Sys2Proof.Proofs
end

section
/-! FREEZE, THAW and TRACK (R227 to R229, R324, R331). -/

namespace Sys2Proof.Proofs
open Sys2Proof.Machine Sys2Proof.Spec Sys2Proof.Laws

/-! Contexts. -/

/-- What the device keeps of a context after a change of one. -/
theorem ctx_onCtx (s : State) (a : Asid) {f : Ctx → Ctx} (hf : ∀ c, (f c).asid = c.asid) (k : Asid) :
    (s.onCtx a f).ctx k = if k = a then f (s.ctx a) else s.ctx k := by
  let g : Ctx → Ctx := fun c => if c.asid = a then f c else c
  have hg (c : Ctx) : (g c).asid = c.asid := by
    by_cases hc : c.asid = a
    · exact (congrArg Ctx.asid (if_pos hc)).trans (hf c)
    · exact congrArg Ctx.asid (if_neg hc)
  have hfind (k : Asid) : (s.ctxs.map g).find? (fun c => c.asid == k) = (s.ctxs.find? fun c => c.asid == k).map g := by
    rw [List.find?_map]
    exact congrArg (Option.map g) (congrArg (List.find? · s.ctxs) (funext fun c => by simp only [Function.comp_apply, hg]))
  unfold State.onCtx
  split
  next hany =>
    change (match (s.ctxs.map g).find? (fun c => c.asid == k) with | some c => c | none => Ctx.none k) = _
    rw [hfind]
    unfold State.ctx
    by_cases hk : k = a
    · subst hk
      obtain ⟨c, hc⟩ : ∃ c, s.ctxs.find? (fun c => c.asid == k) = some c := Option.isSome_iff_exists.1 (by rw [List.find?_isSome]; simpa using hany)
      have hck : c.asid = k := by simpa using List.find?_some hc
      simp [hc, g, hck]
    · rw [if_neg hk]
      cases hc : s.ctxs.find? fun c => c.asid == k with
      | none => rfl
      | some c =>
        have hck : c.asid = k := by simpa using List.find?_some hc
        simp [g, hck, hk]
  next hnone =>
    have hmissing : s.ctxs.find? (fun c => c.asid == a) = none := by
      rw [List.find?_eq_none]
      exact fun c hc h => hnone (List.any_eq_true.2 ⟨c, hc, h⟩)
    change (match (s.ctxs ++ [f (.none a)]).find? (fun c => c.asid == k) with | some c => c | none => Ctx.none k) = _
    rw [List.find?_append]
    unfold State.ctx
    have hnew : (f (.none a)).asid = a := hf _
    by_cases hk : k = a
    · subst hk
      simp [hmissing, hnew]
    · have hne : ¬a = k := fun e => hk e.symm
      cases s.ctxs.find? fun c => c.asid == k <;> simp [hk, hnew, hne]

theorem ctx_onCtx_same (s : State) (a : Asid) {f : Ctx → Ctx} (hf : ∀ c, (f c).asid = c.asid) : (s.onCtx a f).ctx a = f (s.ctx a) :=
  (ctx_onCtx s a hf a).trans (if_pos rfl)

/-- A change of a context leaves what it does not change. -/
theorem ctx_onCtx_keeps {α : Type} (P : Ctx → α) (s : State) (a : Asid) {f : Ctx → Ctx} (hf : ∀ c, (f c).asid = c.asid) (hP : ∀ c, P (f c) = P c)
    (k : Asid) : P ((s.onCtx a f).ctx k) = P (s.ctx k) := by
  rw [ctx_onCtx s a hf]
  split
  next h => rw [h]; exact hP _
  next => rfl

theorem ctx_of_ctxs {s t : State} (h : t.ctxs = s.ctxs) (k : Asid) : t.ctx k = s.ctx k := by
  unfold State.ctx
  rw [h]

theorem me_onCtx (s : State) (a : Asid) (f : Ctx → Ctx) : (s.onCtx a f).me = s.me := by
  unfold State.onCtx
  split <;> rfl

theorem onCtx_sameMemory (s : State) (a : Asid) (f : Ctx → Ctx) : SameMemory s (s.onCtx a f).issue := by
  unfold State.onCtx
  split <;> exact ⟨fun _ => rfl, fun _ => rfl, rfl, rfl, rfl, rfl⟩

/-! FREEZE. -/

theorem freezing_notify (s : State) (g owner : Nat) (a : Asid) : ((s.notify g owner).ctx a).freezing = (s.ctx a).freezing := by
  rcases notify_cases s g owner with e | ⟨h, e⟩ | ⟨k, e⟩
  · rw [e]
  · rw [e]; rfl
  · rw [e]
    exact ctx_onCtx_keeps Ctx.freezing s k (f := ctxNoticed) (fun _ => rfl) (fun _ => rfl) a

theorem freezing_retentionLoss (s : State) (g : Nat) (a : Asid) : ((s.retentionLoss g).ctx a).freezing = (s.ctx a).freezing := by
  unfold State.retentionLoss
  dsimp only
  split
  · exact freezing_notify (s.setRowGroup g _) g _ a
  · exact freezing_notify (s.setRowGroup g _) g _ a

theorem freezing_ageRules (s : State) (g : Nat) (b : Bool) (a : Asid) : ((s.ageRules g b).ctx a).freezing = (s.ctx a).freezing := by
  unfold State.ageRules
  extract_lets v
  split
  · rfl
  · split
    · exact freezing_retentionLoss s g a
    · split
      · exact freezing_notify (s.setRowGroup g _) g _ a
      · cases requestPoint v.cls v.pol with
        | none => rfl
        | some p =>
          rw [apply_ite State.ctx, apply_ite (fun f : Asid → Ctx => (f a).freezing)]
          exact ite_self _

/-- The Halls of a context that is being frozen stop; that it is being frozen stands (R324). -/
theorem freezing_freezeHall (s : State) (asid : Asid) (h : HallId) (a : Asid) : ((s.freezeHall asid h).ctx a).freezing = (s.ctx a).freezing := by
  have hwithdraw (t : State) (p : PartId) : (t.withdrawTrap h p).ctxs = t.ctxs := by
    unfold State.withdrawTrap
    split <;> rfl
  have hunhold (t : State) (gs : List Nat) : ((t.unhold gs).ctx a).freezing = (t.ctx a).freezing :=
    foldl_keeps (fun t : State => (t.ctx a).freezing) (fun t g => freezing_ageRules (t.setRowGroup g _) g true a) gs t
  unfold State.freezeHall
  split
  · rfl
  · next sl _ =>
    extract_lets held stopped s1
    have h1 : (s1.ctx a).freezing = (s.ctx a).freezing := (hunhold _ held).trans (congrArg Ctx.freezing (ctx_of_ctxs (hwithdraw s sl.part) a))
    split
    · rfl
    · split
      · exact h1
      · exact h1

/-- A FREEZE that its context can take. -/
theorem requestFreeze_freezes {s : State} {asid : Asid} (cw buf : Word) (hvalid : s.ctxValid s.partId asid = true) (hsup : s.superAsid s.partId ≠ some asid)
    (hfrozen : (s.ctx asid).frozen = false) (hnot : (s.ctx asid).freezing = none) :
    ((s.requestFreeze cw buf asid).ctx asid).freezing = some { cw := cw, buf := buf, part := s.partId, by_ := s.asid, hall := s.curHall } := by
  unfold State.requestFreeze
  extract_lets p c u f
  rw [if_neg (by simp [p, c, hvalid, hsup, hfrozen, hnot])]
  refine (foldl_keeps (fun t : State => (t.ctx asid).freezing) (fun t h => freezing_freezeHall t asid h asid) _ _).trans ?_
  rw [ctx_onCtx_same s asid (f := fun c => { c with freezing := some f }) fun _ => rfl]

/-! TRACK. -/

/-- A context that TRACK disarms, arms and harvests (R229). -/
def disarmed (c : Ctx) : Ctx := { c with tracking := false }
def armed (bm : Word) (by_ : Asid) (c : Ctx) : Ctx := { c with tracking := true, dirty := [], bitmap := bm, bitmapBy := by_ }
def harvested (c : Ctx) : Ctx := { c with dirty := [] }


/-- A write at the home leaves every context tracked or not, as it was (R331). -/
theorem tracking_writeHome (s : State) (w : Writer) (cs : List Host.Cell) (a : Asid) : ((s.writeHome w cs).ctx a).tracking = (s.ctx a).tracking := by
  have hdirty (t : State) (line : Nat) : ((t.markDirty w.asid line).ctx a).tracking = (t.ctx a).tracking := by
    unfold State.markDirty
    split
    · exact ctx_onCtx_keeps Ctx.tracking t w.asid (f := fun c => { c with dirty := c.dirty ++ [bitOf 19 line] }) (fun _ => rfl) (fun _ => rfl) a
    · rfl
  refine foldl_keeps (fun t : State => (t.ctx a).tracking) (fun t l => ?_) _ s
  unfold State.writeLine
  extract_lets s1 key s2
  have h2 : (s2.ctx a).tracking = (t.ctx a).tracking := congrArg Ctx.tracking (ctx_of_ctxs (t := s2) (seats_putLine t l _ _).ctxs a)
  split
  · exact h2
  · exact (hdirty _ _).trans ((congrArg Ctx.tracking (ctx_of_ctxs (seats_touch s2 w.part l).ctxs a)).trans h2)

/-- Bytes that a system syllable writes (R331). -/
theorem systemWrite_writes (s : State) (cs : List Host.Cell) : (∀ a, ((s.systemWrite cs).ctx a).tracking = (s.ctx a).tracking) ∧
    (Uncounted s → ∀ p, (∀ c ∈ cs, c.1 ≠ p) → Memory.byte (s.systemWrite cs).mem p = Memory.byte s.mem p) := by
  unfold State.systemWrite
  exact ⟨fun a => tracking_writeHome _ _ cs a,
    fun hu p hp => (byte_of_writes (writes_writeHome { s with pubs := s.pubs + 1 } _ cs) hu).1 p hp⟩

section
variable {s : State} {a b : BitVec 6} (hsup : s.superMode = true) (hr : Readable s [.s a.toNat, .s b.toNat])
  (hmine : (s.part s.partId).asids.getLsbD ((s.me.reg a.toNat).setWidth 12).toNat = true)
include hsup hr hmine

theorem exec_track_disarm : exec (.track .disarm a b) s =
    .next (s.onCtx ((s.me.reg a.toNat).setWidth 12) disarmed).issue := by
  refine congrArg Host.Outcome.next ((if_neg (by simp [hsup])).trans ((reading_readable s _ _ hr).trans ?_))
  exact congrArg State.issue (if_pos hmine)

theorem exec_track_arm (hal : (s.me.reg b.toNat).toNat % 4096 = 0) : exec (.track .arm a b) s =
    .next (s.onCtx ((s.me.reg a.toNat).setWidth 12) (armed (s.me.reg b.toNat) s.asid)).issue := by
  refine congrArg Host.Outcome.next ((if_neg (by simp [hsup])).trans ((reading_readable s _ _ hr).trans ((if_neg (not_not.2 hal)).trans ?_)))
  exact congrArg State.issue (if_pos hmine)

theorem exec_track_harvest {ps : List Nat} (hps : Accessible s (wantSystemWrite 64) 4096 (s.me.reg b.toNat) 360448 ps)
    (hvalid : s.invalidAt (fun _ => false) ps = none) : exec (.track .harvest a b) s =
    .next ((s.systemWrite (ps.zip (dirtyBytes (s.ctx ((s.me.reg a.toNat).setWidth 12)).dirty))).onCtx ((s.me.reg a.toNat).setWidth 12) harvested).issue := by
  refine congrArg Host.Outcome.next ((if_neg (by simp [hsup])).trans ((reading_readable s _ _ hr).trans ?_))
  refine (withBytes_accessible s _ _ _ _ ps _ hps).trans ?_
  rw [hvalid]
  exact congrArg State.issue (if_pos hmine)

end

/-! THAW. -/

theorem deviceRead_unresolved {s : State} {u : Who} {binds : List (BitVec 32 × BitVec 32)} {a : Word} {n : Nat} {e : Nat × Option TrapInfo}
    (h : resolveAll (s.resolveDirect u binds (wantSystem n)) (runFrom a.toNat n) = .error e) : ∃ t, s.deviceRead u binds a n = (.error t, s) := by
  unfold State.deviceRead
  obtain ⟨i, _ | t⟩ := e
  · rw [h]; exact ⟨_, rfl⟩
  · rw [h]; exact ⟨_, rfl⟩

theorem thawAt_unresolved {s : State} {img : Word} {asid : Asid} {t : TrapInfo} (h : s.deviceRead s.mine s.here.binds img 256 = (.error t, s)) :
    (s.thawAt img asid).2 = s := by
  unfold State.thawAt
  simp only [h]

/-- An image that passes its checks (R332, R333). -/
theorem thawAt_thaws {s r1 r2 : State} {img : Word} {asid : Asid} {head cipher body : Bytes}
    (hhead : s.deviceRead s.mine s.here.binds img 256 = (.ok head, r1)) (hlen : 256 ≤ fieldAt head 24 8)
    (hreach : r1.reaches s.mine false img.toNat (fieldAt head 24 8) = true)
    (hcipher : r1.deviceRead s.mine r1.here.binds (img + 256) (fieldAt head 24 8 - 256) = (.ok cipher, r2))
    (hopen : r2.openImage head cipher s.mine.part asid = .ok body) :
    (s.thawAt img asid).2 = r2.thawImage { head := head, secs := sectionsOf (head ++ body), asid := asid, part := s.mine.part,
                                           halls := maskHalls (r2.part s.mine.part).halls } r2.known := by
  unfold State.thawAt
  simp only [hhead]
  rw [if_neg (Nat.not_lt.2 hlen), if_neg (by simp [hreach])]
  simp only [hcipher, hopen]

section
variable {s : State} {d a b : BitVec 6} (hsup : s.superMode = true) (hdepth : s.depth = 0)
  (hr : Readable s [.s d.toNat, .s a.toNat, .s b.toNat])
include hsup hdepth hr

theorem exec_freeze {ps : List Nat} (hps : Accessible s (wantSystemWrite 8) 8 (s.me.reg d.toNat) 8 ps) (hal : (s.me.reg b.toNat).toNat % 4096 = 0) :
    exec (.freeze d a b) s = .next (s.requestFreeze (s.me.reg d.toNat) (s.me.reg b.toNat) ((s.me.reg a.toNat).setWidth 12)).issue := by
  refine congrArg Host.Outcome.next ((if_neg (by simp [hsup])).trans ((outsideRegions_of_depth hdepth).trans ((reading_readable s _ _ hr).trans ?_)))
  exact (if_neg (not_not.2 hal)).trans (withBytes_accessible s _ _ _ _ ps _ hps)

theorem exec_thaw_plain (hd : d = 0) : exec (.thaw d a b) s = .next (s.thawAt (s.me.reg a.toNat) ((s.me.reg b.toNat).setWidth 12)).2.issue := by
  refine congrArg Host.Outcome.next ((if_neg (by simp [hsup])).trans ((outsideRegions_of_depth hdepth).trans ((reading_readable s _ _ hr).trans ?_)))
  exact if_pos hd

/-- A THAW with a completion word issues, however it ends (R228). -/
theorem thaw_issues {ps : List Nat} (hd : d ≠ 0) (hps : Accessible s (wantSystemWrite 8) 8 (s.me.reg d.toNat) 8 ps) :
    ∃ t : State, exec (.thaw d a b) s = .next t.issue := by
  change ∃ t : State, execThaw d a b s = .next t.issue
  change Accessible s (wantSystemWrite 8) 8 (s.rs d) 8 ps at hps
  unfold execThaw
  rw [if_neg (by simp [hsup]), outsideRegions_of_depth hdepth, reading_readable s _ _ hr]
  dsimp only
  rw [if_neg hd, withBytes_accessible s _ _ _ _ ps _ hps]
  exact ⟨_, rfl⟩

end

/-- Settles O24: each syllable behind its checks, and what the Halls, the writes and the reads of the three leave of a context. -/
theorem freezingContexts : Obligations.FreezingContexts := by
  intro s d a b
  refine ⟨fun i hi huser hu => ?_, fun ps hsup hdepth hr hps hal => ?_, fun hsup hr => ?_, fun ps hsup hdepth hr hd hps => ?_,
    fun hsup hdepth hr hd hbad => ?_, fun head len cipher body r1 r2 hsup hdepth hr hd => ?_⟩
  · have hexec : exec i s = .next (s.trapCause .PRIV) := by
      rcases hi with rfl | rfl | ⟨op, rfl⟩
      all_goals exact congrArg Host.Outcome.next (if_pos (by simp [huser]))
    exact ⟨_, hexec, trapHere_traps s _ hu⟩
  · exact ⟨_, exec_freeze hsup hdepth hr hps hal, rfl, fun hvalid hnsup hfrozen hnot => requestFreeze_freezes _ _ hvalid hnsup hfrozen hnot⟩
  · intro asid hmine
    refine ⟨⟨_, exec_track_disarm hsup hr hmine, rfl, ?_, me_onCtx s asid _, onCtx_sameMemory s asid _⟩,
      fun hal => ⟨_, exec_track_arm hsup hr hmine hal, rfl, ?_, ?_, ?_, me_onCtx s asid _, onCtx_sameMemory s asid _⟩, fun ps hps hvalid => ?_⟩
    · exact congrArg Ctx.tracking (ctx_onCtx_same s asid (f := disarmed) fun _ => rfl)
    · exact congrArg Ctx.tracking (ctx_onCtx_same s asid (f := armed _ _) fun _ => rfl)
    · exact congrArg Ctx.dirty (ctx_onCtx_same s asid (f := armed _ _) fun _ => rfl)
    · exact congrArg Ctx.bitmap (ctx_onCtx_same s asid (f := armed _ _) fun _ => rfl)
    · let u := s.systemWrite (ps.zip (dirtyBytes (s.ctx asid).dirty))
      obtain ⟨htracking, hbytes⟩ := systemWrite_writes s (ps.zip (dirtyBytes (s.ctx asid).dirty))
      have hctx : (u.onCtx asid harvested).ctx asid = harvested (u.ctx asid) := ctx_onCtx_same u asid fun _ => rfl
      obtain ⟨-, -, -, hmem, -⟩ := halls_onCtx u asid harvested
      refine ⟨_, exec_track_harvest hsup hr hmine hps hvalid, rfl, congrArg Ctx.dirty hctx, (congrArg Ctx.tracking hctx).trans (htracking asid),
        fun hu p hp => (congrArg (Memory.byte · p) hmem).trans (hbytes hu p fun c hc hcp => hp ?_)⟩
      exact hcp ▸ (List.of_mem_zip hc).1
  · obtain ⟨t, ht⟩ := thaw_issues hsup hdepth hr hd hps
    exact ⟨_, ht, rfl⟩
  · obtain ⟨e, he⟩ := hbad
    obtain ⟨t, ht⟩ := deviceRead_unresolved he
    have hexec := exec_thaw_plain hsup hdepth hr hd
    rw [thawAt_unresolved ht] at hexec
    exact ⟨_, hexec, rfl⟩
  · intro img asid hhead hlen h256 hreach hcipher hopen
    subst hlen
    have hexec := exec_thaw_plain hsup hdepth hr hd
    rw [thawAt_thaws hhead h256 hreach hcipher hopen] at hexec
    exact ⟨_, hexec, rfl, rfl⟩

end Sys2Proof.Proofs
end

section
/-! SLICE.END and CKPT (R215, R220, R313, R345). -/

namespace Sys2Proof.Proofs
open Sys2Proof.Machine Sys2Proof.Spec Sys2Proof.Laws

/-! SLICE.END. -/

/-- A slice that SLICE.END is ending (R215). -/
def endingNow (sl : Slice) : Slice := { sl with ending := true }

theorem exec_sliceEnd {s : State} {sl : Slice} (hs : s.here.slice = some sl) (hd : s.depth = 0) : exec .sliceEnd s =
    .next (if s.me.wait.stage = 0 then s.beginEnd
      else if s.me.wait.stage = 1 ∧ !s.here.quiet then s.hold
      else if s.me.wait.stage ≤ 2 ∧ s.here.working sl.id then s.toStage 2
      else (if s.me.wait.stage ≤ 2 then s.startEndPubs else s).finishEnd sl) := by
  refine congrArg Host.Outcome.next ((outsideRegions_of_depth hd).trans ?_)
  rw [hs]
  rfl

/-- A change of the strand at issue leaves the slice of its Hall, and its change leaves the strand. -/
theorem onMe_onSlice (s : State) (f : Slice → Slice) (g : StrandState → StrandState) : (s.onMe g).onSlice f = (s.onSlice f).onMe g :=
  (onHall_onHall s s.curHall (Hall.onStrand · s.curStrand g) (Hall.onSlice · f)).trans
    (onHall_onHall s s.curHall (Hall.onSlice · f) (Hall.onStrand · s.curStrand g)).symm

/-- The strand at issue waits at a stage, frozen. -/
def staged (n : Nat) (x : StrandState) : StrandState := { x with wait := { x.wait with stage := n, pub := .idle }, frozen := true }

theorem toStage_eq (s : State) (n : Nat) : s.toStage n = { s.onMe (staged n) with issued := false } := by
  unfold State.toStage State.freeze
  exact congrArg (fun u : State => { u with issued := false }) (onMe_onMe s _ _)

/-- Marks of the syllable at issue do not touch the memory. -/
theorem sameMemory_marks {s t : State} (h : SameMemory s t) (i : Bool) (g : Option Word) : SameMemory s { t with issued := i, target := g } :=
  ⟨h.bytes, h.overlay, h.groups, h.poison, h.bad, h.rounds⟩

/-- The slice marked as ending, and the strand at the first stage. -/
def marked (s : State) : State := (s.onSlice endingNow).onMe (staged 1)

theorem marked_me (s : State) : (marked s).me = staged 1 s.me :=
  (me_onMe (s.onSlice endingNow) (staged 1)).trans (congrArg (staged 1) (me_of_aside (aside_onSlice s endingNow)))

theorem marked_slice {s : State} {sl : Slice} (hs : s.here.slice = some sl) : (marked s).here.slice = some (endingNow sl) := by
  refine (congrArg Hall.slice (here_onMe (s.onSlice endingNow) (staged 1))).trans ?_
  exact (congrArg Hall.slice (here_onSlice s endingNow)).trans (congrArg (Option.map endingNow) hs)

theorem beginEnd_eq (s : State) : s.beginEnd = { marked s with issued := true, target := some s.me.pc } :=
  congrArg (fun u : State => { u with issued := true, target := some s.me.pc }) (toStage_eq (s.onSlice endingNow) 1)

/-- The first stage: the slice is marked, and its strand stays at the syllable (R18, R215). -/
theorem beginEnd_marks {s : State} {sl : Slice} (hs : s.here.slice = some sl) : let t := s.beginEnd
    t.issued = true ∧ t.target = some s.me.pc ∧ t.here.slice = some { sl with ending := true } ∧ t.me.wait.stage = 1 ∧ SameRegs s.me t.me ∧
      SameMemory s t := by
  rw [beginEnd_eq]
  have hme := marked_me s
  have hmem : SameMemory s (marked s) := (onMe_of_aside (aside_onSlice s endingNow) (staged 1)).memory
  have hslice := marked_slice hs
  generalize marked s = u at hme hmem hslice ⊢
  have hregs : SameRegs s.me u.me := hme ▸ ⟨rfl, rfl, rfl, rfl, rfl, rfl, rfl, rfl, rfl, rfl⟩
  exact ⟨rfl, rfl, hslice, congrArg (fun x : StrandState => x.wait.stage) hme, hregs, sameMemory_marks hmem true (some s.me.pc)⟩

section
variable {s : State} (hdone : ∀ st, (s.here.work.strand st).wait.pub = .done)
include hdone

/-- Publications that have been made: nothing is begun, and none has failed. -/
theorem endPart_done (st : Strand) : s.endPart s.curHall st = s := by
  unfold State.endPart
  rw [show (s.strand s.curHall st).wait.pub = .done from hdone st]

theorem endDone_done : s.endDone s.curHall = true := by
  unfold State.endDone
  rw [List.all_eq_true]
  intro st _
  rw [show (s.strand s.curHall st).wait.pub = .done from hdone st]

theorem endFault_done : s.endFault s.curHall = none := by
  unfold State.endFault
  rw [List.findSome?_eq_none_iff]
  intro st _
  rw [show (s.strand s.curHall st).wait.pub = .done from hdone st]

/-- The last stage of a slice that counts no events (R215). -/
theorem finishEnd_ends {sl : Slice} (hc : sl.countsTo = none) : s.finishEnd sl = (s.stampInst s.curHall sl).afterEnd s.curHall sl := by
  have hparts : ring.foldl (fun t st => t.endPart s.curHall st) s = s := by
    simp only [ring, List.foldl_cons, List.foldl_nil, endPart_done hdone]
  unfold State.finishEnd State.countersWait State.addCounters
  simp only [hparts, endDone_done hdone, endFault_done hdone, hc, Bool.not_true, Bool.false_eq_true, if_false]

end

theorem sliceEnds : SliceEnds := by
  intro s sl hs
  refine ⟨fun hd hu => ⟨_, rfl, outsideRegions_traps hd hu⟩, fun hd hstage => ?_, fun hd hstage hdone hc => ?_⟩
  · exact ⟨_, (exec_sliceEnd hs hd).trans (congrArg Host.Outcome.next (if_pos hstage)), beginEnd_marks hs⟩
  · have hexec : exec .sliceEnd s = .next (s.finishEnd sl) := by
      rw [exec_sliceEnd hs hd, hstage]
      rfl
    rw [finishEnd_ends hdone hc] at hexec
    have hleaves := afterEnd_leaves (s := s.stampInst s.curHall sl) (h := s.curHall) sl hs
    refine ⟨_, hexec, ?_, ?_⟩
    · exact (congrArg (fun k => (((s.stampInst s.curHall sl).afterEnd s.curHall sl).hall k).slice) hleaves.curHall).trans hleaves.slice
    · exact (congrArg (fun k => (((s.stampInst s.curHall sl).afterEnd s.curHall sl).hall k).lastAsid) hleaves.curHall).trans hleaves.last

/-! CKPT. -/

/-- A slice whose estimate CKPT records, with the time of its report (R220). -/
def estimated (est : Word) (t : Nat) (sl : Slice) : Slice := { sl with estimate := some (est.toNat, t) }

/-- What a CKPT has recorded when it takes a pending checkpoint. -/
def recorded (s : State) (est : Word) : State := s.clearWait.onSlice (estimated est s.devtime)

theorem exec_ckpt {s : State} {a b : BitVec 6} (hr : Readable s [.s a.toNat, .s b.toNat]) (hd : s.depth = 0) (hpub : s.me.wait.pub = .done)
    (htable : s.me.reg a.toNat = 0 ∨ ∃ ps, Accessible s (wantLoad .D) 8 (s.me.reg a.toNat) 8 ps) :
    exec (.ckpt a b) s = .next ((recorded s (s.me.reg b.toNat)).ckptTake (s.me.reg a.toNat)).issue := by
  refine congrArg Host.Outcome.next ((outsideRegions_of_depth hd).trans ((reading_readable s _ _ hr).trans ?_))
  by_cases h0 : s.me.reg a.toNat = 0
  · exact (if_pos h0).trans (publishing_done .device _ hpub)
  · obtain ⟨ps, hps⟩ := htable.resolve_left h0
    exact (if_neg h0).trans ((withBytes_accessible s _ _ _ _ ps _ hps).trans (publishing_done .device _ hpub))

/-- What the record leaves: the strand waits no more, and the slice has its estimate. -/
theorem recorded_eq (s : State) (est : Word) : recorded s est = (s.onSlice (estimated est s.devtime)).onMe fun x => { x with wait := .none } :=
  onMe_onSlice s _ _

theorem recorded_here {s : State} {sl : Slice} (est : Word) (hs : s.here.slice = some sl) :
    (recorded s est).here.slice = some (estimated est s.devtime sl) ∧ (recorded s est).here.preempt = s.here.preempt ∧
      (recorded s est).me = { s.me with wait := .none } := by
  have hhere : (recorded s est).here = Hall.onSlice s.clearWait.here (estimated est s.devtime) := here_onSlice _ _
  have hclear : s.clearWait.here = Hall.onStrand s.here s.curStrand fun x => { x with wait := .none } := here_onMe s _
  refine ⟨?_, ?_, ?_⟩
  · rw [hhere, hclear]
    exact congrArg (Option.map (estimated est s.devtime)) hs
  · rw [hhere, hclear]
    rfl
  · exact (me_of_aside (aside_onSlice s.clearWait _)).trans (me_onMe s _)

theorem ckptTake_none {s : State} {table : Word} (h : s.here.preempt = none) : s.ckptTake table = s := by
  unfold State.ckptTake
  simp only [h]

theorem seats_readTable (s : State) (u : Who) (binds : List (BitVec 32 × BitVec 32)) (a : Word) : Seats s (s.readTable u binds a).2 := by
  have h1 := seats_deviceRead s u binds a 8
  unfold State.readTable
  split
  · exact seats_refl s
  · split
    · next e => rw [e] at h1; exact h1
    · next d s1 e =>
      rw [e] at h1
      extract_lets n
      have h2 := seats_trans h1 (seats_deviceRead s1 u binds (a + 8) (16 * n))
      split
      · exact h1
      · split
        · next e' => rw [e'] at h2; exact h2
        · next e' => rw [e'] at h2; exact h2

/-- A pending checkpoint is taken: with the table, or as a full save where the table cannot be read (R220, R314). -/
theorem ckptTake_checkpoint {s : State} {e : Preempt} (table : Word) (he : s.here.preempt = some e) (hp : e.policy = .checkpoint) (ha : e.asked = false) :
    ∃ u how rows tiles ranges, Seats s u ∧ (how = Leave.checkpoint ∨ how = .full) ∧
      s.ckptTake table = u.beginLeave s.curHall how rows tiles ranges := by
  have hseats := seats_readTable s s.mine s.here.binds table
  unfold State.ckptTake
  simp only [he, hp, ha]
  rw [if_neg (by simp)]
  simp only [he, hp, ha]
  rw [if_pos (by simp)]
  split
  · next t u hu =>
    rw [hu] at hseats
    exact ⟨u, _, _, _, _, hseats, .inl rfl, rfl⟩
  · next u hu =>
    rw [hu] at hseats
    exact ⟨u, _, _, _, _, hseats, .inr rfl, rfl⟩

theorem checkpoints : Checkpoints := by
  intro s sl a b hs hr
  refine ⟨fun hd hpub htable => ⟨fun hnone => ?_, fun e he hp ha => ?_⟩, fun hd hu => ⟨_, rfl, outsideRegions_traps hd hu⟩⟩
  · obtain ⟨hslice, hpre, -⟩ := recorded_here (s.me.reg b.toNat) hs
    have hexec := exec_ckpt hr hd hpub htable
    rw [ckptTake_none (hpre.trans hnone)] at hexec
    refine ⟨_, hexec, ?_, hslice⟩
    rw [recorded_eq]
    exact quiet_of_aside (aside_onSlice s _) (sameRegs_wait s.me .none)
  · obtain ⟨hslice, hpre, hme⟩ := recorded_here (s.me.reg b.toNat) hs
    obtain ⟨u, how, rows, tiles, ranges, hseats, hhow, htake⟩ := ckptTake_checkpoint (s.me.reg a.toNat) (hpre.trans he) hp ha
    obtain ⟨x, hx, -⟩ := slice_of_seats hseats hslice
    obtain ⟨⟨w, hw, hwhow⟩, -⟩ := beginLeave_leaves hx how rows tiles ranges
    have hexec := exec_ckpt hr hd hpub htable
    rw [htake] at hexec
    refine ⟨_, w, hexec, rfl, ?_, hwhow ▸ hhow, ?_⟩
    · exact (congrArg (fun k => ((u.beginLeave s.curHall how rows tiles ranges).hall k).switch) hseats.curHall).trans hw
    · have hleave : (u.beginLeave s.curHall how rows tiles ranges).me = { s.me with wait := .none } := by
        refine (me_onHall s.curHall _ ?_).trans ((me_of_seats hseats).trans hme)
        split <;> rfl
      exact hleave.symm ▸ sameRegs_wait s.me .none

/-- Settles O22: the first and the last stage of SLICE.END, and CKPT with and without a checkpoint to take. -/
theorem endsAndCheckpoints : Obligations.EndsAndCheckpoints := ⟨sliceEnds, checkpoints⟩

end Sys2Proof.Proofs
end

section
/-! TRAP, TFENCE, NTAG and ERET (R211 to R214, R396). -/

namespace Sys2Proof.Proofs
open Sys2Proof.Machine Sys2Proof.Spec Sys2Proof.Laws

/-! A trap after the syllable (R211, R213). -/

/-- A cause on a slice that nothing has stopped is recorded, and the syllable issues: it is the exact trap but for the marks of the syllable. -/
theorem trapAfter_eq {s : State} (hu : Unstopped s) (i : TrapInfo) : s.trapAfter i = { s.trapHere i with issued := true, trapped := false } := by
  have hrec : s.here.records s.curStrand = true := by
    unfold Hall.records
    rw [hu.1]
  unfold State.trapAfter
  rw [hrec]
  rfl

theorem trapAfter_traps {s : State} (hu : Unstopped s) (i : TrapInfo) : TrapsAfter s (s.trapAfter i) i := by
  have htraps := trapHere_traps s i hu
  have hstrand : (s.trapHere i).curStrand = s.curStrand := rfl
  rw [trapAfter_eq hu]
  generalize s.trapHere i = u at htraps hstrand ⊢
  have hme : u.me = s.me := by
    unfold State.me
    rw [hstrand, htraps.here]
  have hregs : SameRegs s.me u.me := hme ▸ ⟨rfl, rfl, rfl, rfl, rfl, rfl, rfl, rfl, rfl, rfl⟩
  have hmachine := htraps.frame.machine
  refine ⟨rfl, rfl, htraps.trap, hregs, ⟨?_, htraps.frame.halls⟩, ?_⟩
  · exact congrArg (fun x : State => { x with issued := true, trapped := false }) hmachine
  · exact ⟨htraps.memory.bytes, htraps.memory.overlay, htraps.memory.groups, htraps.memory.poison, htraps.memory.bad, htraps.memory.rounds⟩

theorem clearWait_here (s : State) : s.clearWait.here = Hall.onStrand s.here s.curStrand fun x => { x with wait := .none } := here_onMe s _

/-- The end of a wait before it changes nothing of what TRAP and TFENCE say. -/
theorem clearWait_traps {s : State} (hu : Unstopped s) (i : TrapInfo) : TrapsAfter s (s.clearWait.trapAfter i) i := by
  have hhere := clearWait_here s
  have hclear : Unstopped s.clearWait := by
    unfold Unstopped
    rw [hhere]
    exact hu
  obtain ⟨issued, notExact, trap, regs, frame, memory⟩ := trapAfter_traps hclear i
  have hme : SameRegs s.me s.clearWait.me := (me_onMe s fun x => { x with wait := .none }).symm ▸ sameRegs_wait s.me .none
  have honly : OnlyHall s s.clearWait := onHere_onlyHall s (Hall.onStrand · s.curStrand fun x => { x with wait := .none }) s.issued s.trapped s.target
  have hmem : SameMemory s s.clearWait :=
    onHere_sameMemory s (Hall.onStrand · s.curStrand fun x => { x with wait := .none }) s.issued s.trapped s.target rfl
  refine ⟨issued, notExact, trap.trans ?_, sameRegs_trans hme regs, onlyHall_trans honly frame, sameMemory_trans hmem memory⟩
  rw [hhere]
  rfl

/-! TFENCE (R213). -/

/-- A TFENCE whose waits are over. -/
theorem exec_tfence {s : State} (hf : s.me.flagsPending = false)
    (hm : s.curStrand = .M → s.me.wait.stage = 0 ∧ s.here.ahead .matrix s.here.mqNext = false) : exec .tfence s = .next s.fenceRaise := by
  refine congrArg Host.Outcome.next ((if_neg (by rw [hf]; exact Bool.false_ne_true)).trans ?_)
  cases hst : s.curStrand with
  | S => rfl
  | L => rfl
  | V => rfl
  | M =>
    obtain ⟨hstage, hahead⟩ := hm hst
    exact (if_pos hstage).trans (if_neg (by rw [hahead]; exact Bool.false_ne_true))

section
variable {s : State} {sl : Slice} (hs : s.here.slice = some sl)
include hs

theorem fenceRaise_arith (h : s.me.nflags &&& sl.trapEnable ≠ 0 ∨ sl.ntstat ≠ 0) : s.fenceRaise = s.clearWait.trapAfter { cause := .ARITH } := by
  unfold State.fenceRaise
  simp only [hs]
  exact if_pos (by simpa using h)

section
variable (h : s.me.nflags &&& sl.trapEnable = 0 ∧ sl.ntstat = 0)
include h

theorem fenceRaise_notice (hn : sl.noteEn = true ∧ sl.notePend = true) :
    s.fenceRaise = s.clearWait.trapAfter { cause := .EXPIRED, detail := 4 } := by
  unfold State.fenceRaise
  simp only [hs, h.1, h.2, hn.1, hn.2]
  rfl

theorem fenceRaise_quiet (hn : ¬(sl.noteEn = true ∧ sl.notePend = true)) : s.fenceRaise = s.clearWait.issue := by
  unfold State.fenceRaise
  simp only [hs, h.1, h.2]
  exact (if_neg (by decide)).trans (if_neg (by simpa using hn))

end
end

theorem trapsAndFences : TrapsAndFences := by
  intro s
  refine ⟨fun code hu => ⟨_, rfl, trapAfter_traps hu _⟩, fun id _ => ⟨_, rfl, result_issue s 1 [.ntid id]⟩, fun sl hs hf hm => ?_⟩
  have hexec := exec_tfence hf hm
  refine ⟨fun h hu => ?_, fun h hn hu => ?_, fun h hn => ?_⟩
  · rw [fenceRaise_arith hs h] at hexec
    exact ⟨_, hexec, clearWait_traps hu _⟩
  · rw [fenceRaise_notice hs h hn] at hexec
    exact ⟨_, hexec, clearWait_traps hu _⟩
  · rw [fenceRaise_quiet hs h hn] at hexec
    exact ⟨_, hexec, quiet_onMe s (sameRegs_wait s.me .none), (congrArg Hall.trap (clearWait_here s) :)⟩

/-! ERET (R212, R396). -/

/-- The state in which ERET disposes of a record: it is closed, and the syllable has issued. -/
def closed (s : State) : State := (s.closeRecord s.partId).issue

section
variable {s : State} (hsup : s.superMode = true)
include hsup

theorem exec_eret_none (ho : (s.part s.partId).open_ = none) : exec .eret s = .next (s.trapCause .ILLEGAL) := by
  refine congrArg Host.Outcome.next ((if_neg (by rw [hsup]; decide)).trans ?_)
  rw [ho]

variable {r : TrapRec} (hrec : (s.part s.partId).open_ = some r) (hsv : s.isSupervisor = true)
include hrec hsv

/-- ERET with an open record, by ACT and by whether the cause was a MACHINE_CHECK (R396). -/
theorem exec_eret_some : let P := s.part s.partId
    let check := r.cause.extractLsb' 0 8 == 0x11#8
    let resume := fun t : State => t.eretResume r.hall r P.pcs (P.trapAct.getLsbD 0)
    let strands := fun t : State => t.eretStrands r.hall r P.pcs (P.trapAct.getLsbD 0)
    exec .eret s = .next (if P.trapAct.extractLsb' 1 2 = 0 ∧ !check then resume (closed s)
      else if P.trapAct.extractLsb' 1 2 ≤ 1 then (closed s).eretKill r.hall check strands resume
      else (closed s).terminate r.hall) := by
  intro P check resume strands
  refine congrArg Host.Outcome.next ((if_neg (by rw [hsup]; decide)).trans ?_)
  rw [hrec, hsv]
  rfl

end

theorem closed_record (s : State) : ((closed s).part s.partId).open_ = none :=
  congrArg Part.open_ (part_onPart_same s s.partId fun P => { P with open_ := none })

theorem closed_memory (s : State) : SameMemory s (closed s) := by
  have h : SameMemory s (s.closeRecord s.partId) := onPart_sameMemory s s.partId _
  exact ⟨h.bytes, h.overlay, h.groups, h.poison, h.bad, h.rounds⟩

/-- A slice that resumes: its budget is renewed, and it neither ends nor waits for a predecessor (R212). -/
def resumed (x : Slice) : Slice := { x with left := 256 * x.packet.budget, ending := false, waitPred := false }

/-- A Hall whose slice resumes from a record at the given program counters (R212, R396). -/
structure Resumed (H H' : Hall) (pcs : Vector Word 4) : Prop where
  trap : H'.trap = none
  slice : H'.slice = H.slice.map resumed
  overlay : H'.overlay = H.overlay
  scalar : H'.work.S.pc = pcs[0] &&& ~~~7#64
  load : H'.work.L.pc = pcs[1] &&& ~~~7#64
  matrix : H'.work.M.pc = pcs[2] &&& ~~~7#64
  vector : H'.work.V.pc = pcs[3] &&& ~~~7#64
  strands : ∀ st, (H'.work.strand st).s = (H.work.strand st).s ∧ (H'.work.strand st).frozen = false

theorem eretStrands_resumed (s : State) (h : HallId) (r : TrapRec) (pcs : Vector Word 4) (replay : Bool) :
    Resumed (s.hall h) ((s.eretStrands h r pcs replay).hall h) pcs := by
  unfold State.eretStrands
  extract_lets strand moved
  rw [hall_onHall_same]
  refine ⟨rfl, rfl, rfl, rfl, rfl, rfl, rfl, fun st => ?_⟩
  cases st
  all_goals exact ⟨rfl, rfl⟩

theorem eretStrands_others (s : State) {h k : HallId} (hk : k ≠ h) (r : TrapRec) (pcs : Vector Word 4) (replay : Bool) :
    (s.eretStrands h r pcs replay).hall k = s.hall k := hall_onHall_ne s h k _ hk

theorem eretStrands_memory (s : State) (h : HallId) (r : TrapRec) (pcs : Vector Word 4) (replay : Bool) :
    SameMemory s (s.eretStrands h r pcs replay) := by
  refine ⟨fun _ => rfl, fun k => ?_, rfl, rfl, rfl, rfl⟩
  by_cases hk : k = h
  · rw [hk]; exact (eretStrands_resumed s h r pcs replay).overlay
  · exact congrArg Hall.overlay (eretStrands_others s hk r pcs replay)

/-- Without an error held during the stop, the slice only resumes (R212, R351). -/
theorem eretResume_eq {s : State} {h : HallId} (hheld : ∀ t, (s.hall h).trap = some t → t.held = none) (r : TrapRec) (pcs : Vector Word 4)
    (replay : Bool) : s.eretResume h r pcs replay = s.eretStrands h r pcs replay := by
  unfold State.eretResume
  cases ht : (s.hall h).trap with
  | none => simp only [Option.isNone_none, Bool.and_true]
  | some t => simp only [hheld t ht, Option.isNone_none, Bool.and_true]

section
variable {s : State} {h : HallId} {x : Slice} (hx : (s.hall h).slice = some x) (hp : (s.hall h).performing x.id = false)
include hx hp

/-- A kill whose fresh record finds a place, and a termination, of a slice without a command in progress (R320, R396). -/
theorem eretKill_leaves (check : Bool) (strands resume : State → State) (hk : (s.kills h).isSome = true) :
    Leaves s (s.eretKill h check strands resume) h x.asid := by
  obtain ⟨t, ht⟩ := Option.isSome_iff_exists.mp hk
  have heq : s.eretKill h check strands resume = t := by
    unfold State.eretKill
    simp only [ht, hx, hp, Option.isNone_some, Bool.false_and, Bool.or_false, Bool.false_eq_true, if_false]
  exact heq ▸ kills_leaves hx ht

theorem terminate_leaves : Leaves s (s.terminate h) h x.asid := by
  have heq : s.terminate h = s.termNow h := by
    unfold State.terminate
    simp only [hx, hp, Bool.false_eq_true, if_false]
  exact heq ▸ termNow_leaves hx

end

theorem returnFromTrap : ReturnFromTrap := by
  intro s hu
  refine ⟨fun hm => ⟨_, congrArg Host.Outcome.next (if_pos (by rw [hm]; rfl)), trapHere_traps s _ hu⟩,
    fun hm ho => ⟨_, exec_eret_none hm ho, trapHere_traps s _ hu⟩, fun r x hm hsv ho hx hr => ?_⟩
  intro P act
  have hexec := exec_eret_some hm ho hsv
  refine ⟨fun hact hcheck hheld => ?_, fun hperf hact => ?_⟩
  · have hresume : exec .eret s = .next ((closed s).eretResume r.hall r P.pcs (P.trapAct.getLsbD 0)) :=
      hexec.trans (congrArg Host.Outcome.next (if_pos ⟨hact, by simpa using hcheck⟩))
    rw [eretResume_eq (s := closed s) hheld] at hresume
    have hhall := eretStrands_resumed (closed s) r.hall r P.pcs (P.trapAct.getLsbD 0)
    refine ⟨_, hresume, rfl, closed_record s, hhall.trap, ⟨hhall.scalar, hhall.load, hhall.matrix, hhall.vector⟩, hhall.strands,
      hhall.slice.trans (congrArg (Option.map resumed) hx), fun k hk => eretStrands_others (closed s) hk r _ _,
      sameMemory_trans (closed_memory s) (eretStrands_memory (closed s) r.hall r _ _)⟩
  · have hnot : ¬(act = 0 ∧ (!(r.cause.extractLsb' 0 8 == 0x11#8)) = true) := by
      rintro ⟨h0, -⟩
      rw [h0] at hact
      exact hact.elim (by decide) (fun h => absurd h.1 (by decide))
    have hleaves : ∃ t, exec .eret s = .next t ∧ Leaves (closed s) t r.hall x.asid := by
      rcases hact with h2 | ⟨h1, hk⟩
      · refine ⟨_, hexec.trans (congrArg Host.Outcome.next ((if_neg hnot).trans (if_neg ?_))), terminate_leaves (s := closed s) hx hperf⟩
        intro hle
        have : act.toNat ≤ 1 := hle
        omega
      · exact ⟨_, hexec.trans (congrArg Host.Outcome.next ((if_neg hnot).trans (if_pos (Nat.le_of_eq (congrArg BitVec.toNat h1))))),
          eretKill_leaves (s := closed s) hx hperf _ _ _ hk⟩
    obtain ⟨t, ht, hl⟩ := hleaves
    exact ⟨t, ht, hl.issued, (hl.record s.partId).trans (closed_record s), hl.slice⟩

/-- Settles O20: TRAP, TFENCE and NTAG, and ERET with each ACT. -/
theorem raisingTrapsAndReturning : Obligations.RaisingTrapsAndReturning := ⟨trapsAndFences, returnFromTrap⟩

end Sys2Proof.Proofs
end
